-- ==== Sys2Proof/Word.lean ====
section
/-! DEFINITION. The word types of the S100 model and the two sparse containers its state is made of:
`Mem` (bytes by address) and `Tbl` (records by index), each a list in one canonical form. -/

namespace Sys2Proof

/-- One byte of a memory, a register field or a host structure. -/
abbrev Byte := BitVec 8

/-- A 32-bit register cell (R500) or an FP32 pattern. -/
abbrev Word := BitVec 32

/-- A 64-bit counter, kept as one value and read as two register cells. -/
abbrev DWord := BitVec 64

/-- A 128-byte structure (descriptor, chain or plan), as one little-endian number. -/
abbrev Blob := BitVec 1024

/-- A 64-byte submission entry (R345), as one little-endian number. -/
abbrev Entry := BitVec 512

/-- Sparse memory: rising addresses, and no entry that equals what an unlisted address reads as. -/
abbrev Mem := List (Nat × BitVec 8)

/-- Sparse records by index: rising indices, and no entry equal to the record an unlisted index has. -/
abbrev Tbl (α : Type) := List (Nat × α)

end Sys2Proof
end

