-- ==== Sys2Proof/Syntax.lean ====
section
/-! DEFINITION. The commands and events of the S100: one constructor of `Instr` for each row of the
operation table, with the row's operands. Ring commands carry the context and the sequence number of an
entry in flight. What the spec leaves to the device's surroundings (a sampled value, bytes that arrive on a link,
where a staging block lies) is an operand of the event it arrives with. -/

namespace Sys2Proof

/-- Who makes a register, window or port access (R13, R341, R449, R539). -/
inductive Src where
  | pf
  | vf (n : Nat)
  | jtag
  | i3c
deriving DecidableEq, Repr

/-- A register view of R503: a plain access, or one of the three alias views. -/
inductive View where
  | plain
  | set
  | clear
  | toggle
deriving DecidableEq, Repr

/-- A ring whose coalescing time can expire (R367). -/
inductive IrqRing where
  | cq (ctx : Nat)
  | evq (func : Nat)
deriving DecidableEq, Repr

/-- What a host configuration write reaches (R340 to R343, R368). -/
inductive CfgWrite where
  /-- A dword of configuration space that this model gives no further effect. -/
  | dword (offset : Nat) (value : BitVec 32)
  /-- VF Enable set with a number of VFs. -/
  | vfEnable (count : Nat)
  /-- An MSI-X table entry. -/
  | msix (vector : Nat) (addr : BitVec 64) (data : BitVec 32) (masked : Bool)
deriving DecidableEq, Repr

/-- Why a failover starts (R365, R368). -/
inductive FailTrigger where
  | retirement
  | controllerFault
  | operator
deriving DecidableEq, Repr

/-- What a receiving endpoint finds in a fabric packet besides the access (R277, R300, R323): `gran` is the device index of
a granule that the access touches, `n` how many of its codewords were corrected. -/
inductive PacketFinding where
  | clean
  | misrouted
  | bankCorrected (bank line : Nat)
  | bankUe (bank line : Nat)
  | hbmCorrected (gran n : Nat)
  | hbmUe (gran : Nat)
  | hbmMac (gran : Nat)
deriving DecidableEq, Repr

/-- The engine that makes a bank access of a packet (R266): array, DMA or vector engine, or a coder core. -/
inductive Engine where
  | array
  | dma
  | vector
  | coder
deriving DecidableEq, Repr

/-- What a fabric packet carries beside the fields of its header (R313): for a READ how many bytes, for a WRITE the bytes,
`tile` and `e` the tile and the engine that make an access of a bank (the slab, for a coder core). -/
inductive PacketBody where
  | read (len tile : Nat) (e : Engine)
  | write (data : List (BitVec 8)) (tile : Nat) (e : Engine)
  /-- The rest of a packet of another type: what it does is the row of its sender. -/
  | other
deriving DecidableEq, Repr

/-- A place of the fabric in a slab (R312): a router 8v + u, an edge port (N 0, E 1, S 2, W 3), or an endpoint: a tile, the
uncore agents, the outer device. -/
inductive FabNode where
  | router (k : Nat)
  | edge (d : Nat)
  | tile (t : Nat)
  | uncore
  | device
deriving DecidableEq, Repr

/-- A place of the fabric. -/
structure FabPlace where
  slab : Nat
  node : FabNode
deriving DecidableEq, Repr

/-- A flit (R313): the header of its packet as it stands, its number in the packet (0 for the header flit) and its data. -/
structure Flit where
  hdr : BitVec 512
  idx : Nat
  data : BitVec 512
deriving DecidableEq, Repr

/-- What the receiver of a flit finds (R321): both codewords good, one or both corrected, or worse. -/
inductive FlitResult where
  | good
  | corrected (both : Bool)
  | dropped
deriving DecidableEq, Repr

/-- What another package brings to a collective (R333): the figures of the digest in its first packet, which of the
collectives that name the job it belongs to, and the piece of each of its members as received, each element's bits as a
little-endian word. -/
structure CollPeer where
  opcode : Nat
  op : Nat
  dtype : Nat
  npkg : Nat
  prank : Nat
  sizes : List Nat
  turn : Nat
  pieces : List (List (BitVec 8))
deriving DecidableEq, Repr

/-- A bus access size with its byte enables, for REGISTER_WRITE (R500 to R502). -/
structure BusWrite where
  len : Nat
  be : BitVec 8
  data : BitVec 64
deriving DecidableEq, Repr

/-- What a cycle of the array finds (R63, R72): no word ready, a word ready, or the array waiting on a load (R54). -/
inductive Cyc where
  | idle
  | ready
  | stall
deriving DecidableEq, Repr

/-- What a tile did in the throttle period that ends, outside whole ramp phases and the load stalls of a swap: the context it
worked for, cycles that consumed a word, dummy operations, ramp holds, stationary rows read for the next block, vector
cycles and epilogue waits (R53, R71, R72, R182, R452), and the cycles of a ramp phase that the gating of the next period
cuts short (R66). -/
structure TileAct where
  tile : Nat
  ctx : Nat
  work : Nat
  dummy : Nat
  hold : Nat
  rows : Nat
  vec : Nat
  epi : Nat
  cut : List Cyc
deriving DecidableEq, Repr

/-- What the meter measured since its last event: counter cycles, energy in millijoules, and the extremes and flags
of the interval (R479, R483). -/
structure MeterSample where
  cycles : Nat
  energy : Nat
  pMax : Nat
  pMin : Nat
  vMin : Nat
  vMax : Nat
  overload : Bool
  voltRange : Bool
deriving DecidableEq, Repr

/-- An instruction of the block: one constructor for each row of spec/opcode_table.json. -/
inductive Instr where
  -- ring commands (c: context, q: SEQ)
  | nop (c q : Nat)
  | descCreate (c q : Nat)
  | descDestroy (c q : Nat)
  | descRelease (c q : Nat)
  | epiCreate (c q : Nat)
  | convCreate (c q : Nat)
  | vecLoad (c q : Nat)
  | vecLoadSwitch (c q : Nat)
  | arraySet (c q : Nat)
  | matrixProduct (c q : Nat)
  | infusion (c q : Nat)
  | conv (c q : Nat)
  | copy (c q : Nat)
  | permutingCopy (c q : Nat)
  | gather (c q : Nat)
  | scatter (c q : Nat)
  | eltwise (c q : Nat)
  | rowstat (c q : Nat)
  | softmax (c q : Nat)
  | pool (c q : Nat)
  | resample (c q : Nat)
  | cropResize (c q : Nat)
  | random (c q : Nat)
  | strain (c q : Nat)
  /-- `peers`: what each other package brings, in the order of ranks (R330 to R335). -/
  | allreduce (c q : Nat) (peers : List CollPeer)
  | reduceScatter (c q : Nat) (peers : List CollPeer)
  | allgather (c q : Nat) (peers : List CollPeer)
  | blend (c q : Nat) (peers : List CollPeer)
  | kvSeqCreate (c q : Nat)
  | kvAppend (c q : Nat)
  | kvFork (c q : Nat)
  | kvTruncate (c q : Nat)
  | kvSeqFree (c q : Nat)
  | kvReclaim (c q : Nat)
  | kvSet (c q : Nat)
  | brewSeed (c q : Nat)
  | brewStream (c q : Nat)
  | bankOwn (c q : Nat)
  | linkJob (c q : Nat)
  | ctxDefine (c q : Nat)
  | ctxUndefine (c q : Nat)
  | regionAlloc (c q : Nat)
  | regionFree (c q : Nat)
  | modelLoad (c q : Nat)
  | modelUnload (c q : Nat)
  | ctxSuspend (c q : Nat)
  | ctxResume (c q : Nat)
  | ctxSave (c q : Nat)
  | ctxRestore (c q : Nat)
  | ctxReset (c q : Nat)
  | schedSet (c q : Nat)
  | vcOpen (c q : Nat)
  | vcClose (c q : Nat)
  | vcEncode (c q : Nat)
  | vcDecode (c q : Nat)
  | vcRate (c q : Nat)
  -- rings
  /-- `view` is the page's owner as addressed: a PF page of a context or a VF page of a local slot (R349).
  `cells` are the host memory bytes that the host wrote before the doorbell, as keys of R341. -/
  | sqTail (src : Src) (page : Nat) (value : BitVec 32) (cells : List (Nat × BitVec 8))
  | cqHead (src : Src) (page : Nat) (value : BitVec 32)
  | entryFetch (c n : Nat)
  | issueDecision (p : Nat)
  /-- The next staging step of a tile's walk lands in its half of the staging space: `aAt` is where each stationary block
  lies, `bAt` where each 2 KiB chunk of the stream lies, as bank and bank byte address (R134, R545). -/
  | stagingFetchDone (c q tile : Nat) (aAt bAt : List (Nat × Nat))
  | commandComplete (c q : Nat)
  | ringEnable (src : Src) (page : Nat)
  | ringDisable (src : Src) (page : Nat)
  | ringDrained (c : Nat)
  | ringAckContinue (src : Src) (page : Nat)
  | ringAckFlush (src : Src) (page : Nat)
  | cqIrqTimeout (r : IrqRing)
  | evqEnable (src : Src) (func : Nat)
  | evqHead (src : Src) (func : Nat) (value : BitVec 32)
  | pcieConfigWrite (func : Nat) (w : CfgWrite)
  | pcieFailover (t : FailTrigger)
  | failoverSwitch
  | failoverLinkUp (speed width : Nat)
  -- contexts and scheduling
  | ctxAdmit (p : Nat)
  | swapOutDone (c : Nat)
  | swapInDone (c : Nat)
  | sliceExpire (p : Nat)
  | ctxControlSuspend (src : Src) (page : Nat)
  | ctxControlResume (src : Src) (page : Nat)
  | tileHang (gtid : Nat)
  | preFailureWarning (slab : Nat)
  | plannedCoreRetirement (slab : Nat)
  | evacWaitExpire (slab : Nat)
  | spareSelfTest (slab : Nat) (pass : Bool)
  -- ramps, throttle and array control
  /-- `cut`: the cycles of the ramp phase that the new ramp cuts short (R64). -/
  | rampUp (gtid : Nat) (cut : List Cyc)
  /-- `cycles`: what each cycle of the phase found (R63). -/
  | rampPhaseEnd (gtid : Nat) (cycles : List Cyc)
  | rampDown (gtid : Nat) (cut : List Cyc)
  | throttlePeriod (slab : Nat) (acts : List TileAct)
  /-- `counted`: how many of the load stalls before the swap fell into gated periods or ramp phases, which count them (R72). -/
  | shadowSwap (gtid counted : Nat)
  | tileClockGate (gtid : Nat)
  | arrayCtrlWrite (src : Src) (slab : Nat) (value : BitVec 32)
  | powerLimitWrite (src : Src) (value : BitVec 32)
  /-- `watts`: input power now; `v12` and `v48`: the supplies in mV and in units of 10 mV (R542). -/
  | powerSample (watts v12 v48 : Nat)
  | powerRateRaise
  -- register rows of the blocks
  | vtblSlopeWrite (src : Src) (slab : Nat) (value : BitVec 32)
  | kvReserveWrite (src : Src) (p : Nat) (value : BitVec 32)
  | kvClearMin (src : Src) (p : Nat)
  | labFlush (src : Src) (slab : Nat)
  | winClearPeak (src : Src)
  | aqClear (src : Src) (page : Nat)
  | bankOwnWrite (src : Src) (gtid bank : Nat) (value : BitVec 32)
  /-- Host window accesses: the aperture's tile, bank, view (0 plain, 1 SET, 2 CLEAR, 3 FADD) and offset in the view
  (R273). -/
  | hostWindowRead (src : Src) (gtid bank view a len : Nat) (found : PacketFinding)
  /-- `found`: what the read of a codeword that is written in part finds (R263, R277). -/
  | hostWindowWrite (src : Src) (gtid bank view a : Nat) (data : List (BitVec 8)) (found : PacketFinding)
  | aliasSetWrite (src : Src) (gtid bank a : Nat) (data : List (BitVec 8)) (found : PacketFinding)
  | aliasClearWrite (src : Src) (gtid bank a : Nat) (data : List (BitVec 8)) (found : PacketFinding)
  /-- A FetchAdd of `len` bytes on the plain, SET or CLEAR view. -/
  | iadd (src : Src) (gtid bank view a len : Nat) (operand : BitVec 32) (found : PacketFinding)
  /-- A FetchAdd on the FADD view. -/
  | fadd (src : Src) (gtid bank a len : Nat) (operand : BitVec 32) (found : PacketFinding)
  /-- A Swap, or with `compare` a CompareAndSwap, on any view. -/
  | swap (src : Src) (gtid bank view a len : Nat) (compare : Option (BitVec 32)) (operand : BitVec 32) (found : PacketFinding)
  | patinaCtrlWrite (src : Src) (slab : Nat) (value : BitVec 32)
  /-- `found`: what the copies of step 1 find, as tile, bank, line, and whether it cannot be corrected (R278). -/
  | patinaRegionStart (slab : Nat) (found : List (Nat × Nat × Nat × Bool))
  | tileRetirement (gtid : Nat)
  | tileRetireCopyDone (gtid : Nat)
  | wakeClearDone (slab : Nat)
  /-- `header`: the header flit (R313); `q`: the command that the packet carries work of. -/
  | packetDeliver (header : BitVec 512) (q : Nat) (body : PacketBody) (found : PacketFinding)
  | hbmScrubWrite (src : Src) (slab : Nat) (value : BitVec 32)
  | hbmScrubPass (slab : Nat) (corrected : Nat) (failed : List Nat)
  | stackSubstitute (p : Nat)
  -- links
  /-- A flit goes from one place to a neighbouring one. `inject`: the flit that an endpoint sends; a router or an edge port
sends from its buffers (R317, R318). -/
  | flitReceive (dst src : FabPlace) (inject : Option Flit) (r : FlitResult)
  /-- `atomic`: the packet that had no answer is ATOMIC; `dest`: the slab it was sent to. -/
  | transportResend (slab tseq : Nat) (atomic : Bool) (dest : Nat)
  | linkEnWrite (src : Src) (port : Nat) (en : Bool)
  | linkRetrainWrite (src : Src) (port : Nat)
  /-- `symbols`: the 512 symbols of the frame as received (R325). -/
  | linkFrameRx (port : Nat) (symbols : List Nat)
  | linkTrained (port : Nat) (peerPort : Nat) (peerDigest : BitVec 384) (peerEpoch : BitVec 32)
  | linkTrainingTimeout (port : Nat)
  /-- `header`: the header slot (R327). -/
  | linkPacketRx (port vc : Nat) (header : BitVec 512) (tagOk : Bool)
  /-- `tag`: the `PEER_TAG` that the message carries. -/
  | hello (c job : Nat) (tag : BitVec 32)
  /-- `verified`: the checks of R444 hold at the end that receives the message; `serial`: what the sender's slab
  certificate carries. -/
  | reply (c job : Nat) (verified : Bool) (serial : BitVec 64)
  | finish (c job : Nat) (verified : Bool) (serial : BitVec 64) (peerWire : Nat) (peerEpoch : BitVec 32)
  | linkOpenTimeout (c q : Nat)
  | collTimeout (c q : Nat)
  -- coder cores
  | vcFrameStart (core : Nat)
  | vcPieceDone (core : Nat)
  | vcClaimTimeout (core : Nat)
  | vcReset (src : Src) (slab : Nat)
  | vcCoreResetDone (slab : Nat)
  | vcFrameAssemble (c stream : Nat)
  -- security
  | idRecord
  | attest
  | stageFw
  | stageArm
  | certAdd
  -- Armature
  | armApply
  | armRevert
  | armReturn
  | armCheck
  | partitionSwitch (p : Nat)
  | digestExchange (p : Nat)
  | digestReplyTimeout (p slab : Nat)
  | discordRepair (p : Nat)
  -- meter
  | meterPeriodTick (m : MeterSample)
  | mReadReq (m : MeterSample)
  | mirrorRequest (m : MeterSample)
  | meterSpacingEnd (m : MeterSample)
  | meterPowerUp (m : MeterSample)
  | meterPowerDown (m : MeterSample)
  | sealChange (coverClosed filmOk : Bool) (m : MeterSample)
  | mPeriodWrite (value : BitVec 32)
  | meterPortWrite (addr : BitVec 16) (data : List (BitVec 8))
  | meterPortRead (len : Nat)
  | mtrSnapReq (src : Src)
  | mirrorRecord
  | mirrorTimeout
  -- register interface
  | registerWrite (src : Src) (bar : Nat) (addr : Nat) (w : BusWrite)
  | aliasViewWrite (src : Src) (view : View) (addr : Nat) (value : BitVec 32)
  | indDataAccess (src : Src) (write : Option (BitVec 32))
  | indirectTimeout (src : Src) (write : Option (BitVec 32))
  | mgmtPrivateWrite (data : List (BitVec 8))
  | mgmtPrivateRead
  /-- `ind`: the address is an `IND_ADDR` value (R449). -/
  | regAccess (ind : Bool) (addr : BitVec 32) (write : Option (BitVec 32))
  | memAccess (hbm : Bool) (addr : Nat) (write : Option (BitVec 32))
  | secStatus
  | idcode
  | extest (v : Nat)
  | samplePreload (v : Nat)
  | bypass (bit : Bool)
  -- power and reset
  | coldPowerOn
  | pwrOkFall
  | vin48Brownout
  | p12vStbyFall
  | sysResetAssert
  | sysResetDeassert
  | perstAssert
  | perstDeassert (speed width : Nat)
  | hotReset
  | secondaryBusReset
  | linkDisable
  | pfFlr
  | vfFlr (n : Nat)
  | vfEnableClear
  | warm (src : Src)
  | preset (src : Src) (p : Nat)
  | stby (src : Src)
  | pwrSlabOffWrite (src : Src) (word : Nat) (value : BitVec 32)
  | slabPwr (slab : Nat) (pass : Bool)
  /-- `tiles` and `stack`: the hottest tile site and the slab's stack, in °C. -/
  | thermalSample (slab tiles stack : Nat)
  | thermalRateRaise (slab tiles stack : Nat)
  | thermalTrip
  | oscFail (which : Bool)
  | p12vStbyRise
  | standbyLost
  | vcCoreFault (core : Nat)
  | patinaRegionDone (gtid bank : Nat) (failLines : List Nat)
deriving DecidableEq, Repr

end Sys2Proof
end

