-- ==== Sys2Proof/Config.lean ====
section
/-! DEFINITION. What a device fixes and the spec does not: opaque free values, opaque functions where the spec names
a computation without giving its bits, the fixed geometry of R21, and the Armature this model ships with (log 1). -/

namespace Sys2Proof.Config

open Sys2Proof

/-! ## Free values (log 6) -/

/-- The value of the n-th open choice. -/
opaque freeValue (w : Nat) : Nat → BitVec w

/-- `STEPPING` and `BUILD` of `PKG_ID` (R37). -/
opaque pkgCode : BitVec 16

/-- Program words and table entries of the shipped slots 0 to 3 (R156): slot, then index. -/
opaque shippedProgram (slot index : Nat) : DWord
opaque shippedTable (slot index : Nat) : Word × Word

/-- What the shipped program of a slot makes of an FP32 operand, where R156 states no value (log 9). -/
opaque shippedFn (slot : Nat) (x : Word) : Word

/-- The FP32 results of tanh for positive finite arguments and of the logistic function for finite ones (log 10). -/
opaque tanhPos (x : Word) : Word
opaque logistic (x : Word) : Word

/-! ## Cryptography and identity (log 12) -/

/-- SHA-384 of a byte string. -/
opaque sha384 (bytes : List Byte) : BitVec 384

/-- The two signatures, as bytes, of a key over a digest: Ed25519 (64 bytes) and ML-DSA-65 (3,309 bytes). -/
opaque edSign (key : Nat) (digest : BitVec 384) : List Byte
opaque mldsaSign (key : Nat) (digest : BitVec 384) : List Byte

/-- Do both signatures of an image header verify under a certificate of the store (R441 steps 2 to 4)? -/
opaque imageSigned (header : List Byte) (certs : List (BitVec 384)) : Bool

/-- Is a byte string a valid certificate of role 2 (R438, R451)? -/
opaque certValid (bytes : List Byte) : Bool

/-- AES-256 in XTS mode and AES-256-GMAC, cut to 64 bits, under the keys of an owner (R293, R294): which key, the tweak
or nonce, the bytes. -/
opaque xts (key : Nat × Nat) (tweak : BitVec 128) (bytes : List Byte) : List Byte
opaque gmac (key : Nat × Nat) (nonce : BitVec 96) (bytes : List Byte) : BitVec 64

/-- Certificate bytes: of the device CA, of an anchor, of a slab, and of the meter and its CA. -/
opaque deviceCaCert : List Byte
opaque anchorCert (slab : Nat) : List Byte
opaque slabCert (anchor slab : Nat) : List Byte
opaque meterCert (serial : Nat) : List Byte
opaque meterCaCert : List Byte

/-- How many image-signing certificates the store has room for. -/
opaque certRoom : Nat

/-- The `SUBJECT_ID` of the certificate of an anchor, of the shipped image signer and of a meter. -/
opaque anchorId (slab : Nat) : BitVec 384
opaque signerId : BitVec 384
opaque meterId (serial : Nat) : BitVec 384

/-- The device serial (R445) and the serial of the meter fitted at manufacture. -/
opaque deviceSerial : DWord
opaque meterSerial : Nat

/-- Does a slab's extractor reproduce its seed at a start (R435)? -/
opaque pufOk (slab start : Nat) : Bool

/-- Number of cells of the boundary register (log 29). -/
opaque boundaryCells : Nat

/-- Does the port of corner slab 9 or 99 lie on its north or south edge (R21, log 39)? -/
opaque cornerPort (slab : Nat) : Bool

/-- The keys of a job derived from its handshake (R444): the draw number and the end. -/
opaque jobKey (draw : Nat) (upper : Bool) : BitVec 256

/-- The first 8 bytes of a log record's HMAC (R472). -/
opaque logTag (rseq : Nat) : BitVec 64

/-- `SW_CHECKSUM` of the meter (R481). -/
opaque meterChecksum : Word

/-- Version, SVN and digest of the shipped firmware and of the shipped Armature (log 1). -/
opaque fwVersion : Word
opaque fwSvn : Word
opaque fwDigest : BitVec 384
opaque armVersion : Word
opaque armSvn : Word
opaque armDigest : BitVec 384

/-! ## Coder output (log 13) -/

/-- Coded pieces, in piece order, that an encoder makes of a picture: stream parameters, frame number, quantiser, pass, whether a
key frame, the picture's sample values, the references' and, for each reference, the vectors of R427. -/
opaque coderUnit (params : Nat) (frame quant pass : Nat) (key : Bool) (picture : List Nat) (refs : List (List Nat))
  (motion : List (List (Int × Int))) : List (List Byte)

/-- The bytes of `OUT`: the pieces in order with the format's headers, tile sizes or entry points (R423). -/
opaque coderAssemble (params : Nat) (frame quant : Nat) (key : Bool) (pieces : List (List Byte)) : List Byte

/-- The reconstruction and the motion field (vector and distance in frames of each 8 × 8 block, none for an intra block) that
coding gives a reference frame; `pass` is 4 for the flat key frame of R429. -/
opaque coderRecon (params : Nat) (frame quant pass : Nat) (key : Bool) (picture : List Nat) (refs : List (List Nat))
  (motion : List (List (Int × Int))) : List Nat × List (Option ((Int × Int) × Nat))

/-- Global motion at an 8 × 8 block, in eighths of a sample, as the translation and rotzoom parameters that the quarter-resolution
pass estimates give it (R427). -/
opaque globalMotion (params w h : Nat) (cur ref : List Nat) (bx by_ : Nat) : Int × Int

/-- Prediction of the 8 × 8 luma samples at a position by a vector in eighths: the codec's interpolation filters. -/
opaque predictBlock (params w h : Nat) (ref : List Nat) (x y : Nat) (dx dy : Int) : List Nat

/-- Lambda at a quantiser, and the bit cost of a vector (R427). -/
opaque motionLambda (params quant : Nat) : Nat
opaque vectorBits (params frame bx by_ : Nat) (dx dy : Int) : Nat

/-- allow_high_precision_mv of an AV1 frame (R427). -/
opaque highPrecision (params frame quant : Nat) : Bool

/-- The bytes of a fallback frame (R429): at most 256 + ceil(NCTU / 4). -/
opaque coderFallback (params frame : Nat) (key : Bool) : List Byte

/-- The quantiser that the rate model sets for pass 1, before clamping (R429). -/
opaque rateQuant (params frame : Nat) (fullness : Nat) : Nat

/-- The pieces in which a decoder codes a unit, as its bitstream allows (R421). -/
opaque decodePieces (params frame : Nat) (unit : List Byte) : Nat

/-- What decoding a unit gives, with the reference frames held: a status of R430 or 0, whether it is a key unit, whether a
picture comes out, its order count, its size, and its samples in the order Y, then Cb and Cr interleaved. -/
opaque decodeUnit (params frame : Nat) (refs : List (List Nat)) (unit : List Byte) :
  Nat × Bool × Bool × Nat × (Nat × Nat) × List Nat

/-- The reference frames held after a unit has been decoded. -/
opaque decodeRefs (params frame : Nat) (refs : List (List Nat)) (unit : List Byte) : List (List Nat)

/-! ## Geometry (R21, R22) -/

/-- The slab bridged to stack n. -/
def stackSlab : List Nat :=
  [1, 2, 3, 6, 7, 8, 19, 29, 39, 69, 79, 89, 98, 97, 96, 93, 92, 91, 80, 70, 60, 30, 20, 10]

/-- The slab that carries port n. -/
def portSlab : List Nat := [4, 5, 9, 49, 59, 99, 95, 94]

/-- The stack bridged to a slab. -/
def slabStack (n : Nat) : Option Nat := stackSlab.findIdx? (· == n)

/-- The port a slab carries. -/
def slabPort (n : Nat) : Option Nat := portSlab.findIdx? (· == n)

/-- Does the slab carry a PCIe PHY? -/
def slabPcie (n : Nat) : Bool := n == 40 || n == 50

/-- The package spares at shipment. -/
def shippedSpares : List Nat := [44, 45, 54, 55]

/-- Number of allocation units of the device (R289). -/
def allocUnits : Nat := 266335

/-! ## The Armature shipped with this model (log 1) -/

def arrayCtrl : Word := 0x00001034
def patinaCtrl : Word := 0x80000400
def hbmScrub : Word := 0x80000008
def fabCtrl : Word := 0x00000040
def linkCtrl : Word := 0x80000064
def vcCtrl : Word := 0x00001388
def schedCtrl : Word := 0x00000064
def powerLimit : Nat := 1900
def rateCap : Nat := 16
def kvLeaves : Nat := 1048576
def concInterval : Nat := 4096
def armEpoch : Nat := 1

/-- Partition n of the shipped map: x0, y0, width, height, first allocation unit, allocation units. -/
def partRect : Nat → Option (Nat × Nat × Nat × Nat × Nat × Nat)
  | 0 => some (0, 0, 4, 8, 256, 66519)
  | 1 => some (6, 0, 4, 8, 66775, 66519)
  | 2 => some (0, 8, 10, 2, 133294, 66519)
  | 3 => some (4, 0, 2, 8, 199813, 66519)
  | _ => none

/-- A value at a byte offset of a little-endian number. -/
def at_ (off v : Nat) : Nat := v <<< (8 * off)

/-- Partition entry n of the shipped payload (R454). -/
def payloadPart (n : Nat) : Nat :=
  match partRect n with
  | none => 0
  | some (x, y, w, h, b, u) =>
    at_ 0 x + at_ 1 y + at_ 2 w + at_ 3 h + at_ 4 b + at_ 8 u + at_ 0xC kvLeaves
      + at_ 0x14 schedCtrl.toNat + at_ 0x18 1 + at_ 0x19 1 + at_ 0x1C concInterval

/-- Slab entry s of the shipped payload (R455). -/
def payloadSlab (s : Nat) : Nat :=
  (match shippedSpares.findIdx? (· == s) with
    | some r => at_ 0 2 + at_ 1 r
    | none => at_ 0 1)
    + at_ 4 arrayCtrl.toNat + at_ 8 patinaCtrl.toNat + at_ 0xC hbmScrub.toNat + at_ 0x10 fabCtrl.toNat
    + at_ 0x14 linkCtrl.toNat + at_ 0x18 vcCtrl.toNat

/-- Port entry of the shipped payload (R456): enabled, any peer. -/
def payloadPort : Nat := at_ 0 1 + at_ 1 0xFF

/-- The shipped payload of 4,160 bytes (R453), as a little-endian number. -/
def payload : Nat :=
  at_ 0 1 + at_ 4 powerLimit + at_ 6 (2 * rateCap + 1)
    + ((List.range 24).map fun n => at_ (0x40 + 0x20 * n) (payloadPart n)).sum
    + ((List.range 100).map fun n => at_ (0x340 + 0x20 * n) (payloadSlab n)).sum
    + ((List.range 8).map fun n => at_ (0xFC0 + 0x10 * n) payloadPort).sum

end Sys2Proof.Config
end

