-- ==== Sys2Proof/Machine/State.lean ====
section
/-! DEFINITION. The state of the S100: plain data, holding every register, table, buffer and mode the spec
names. Records that exist many times (slabs, tiles, banks, contexts, functions, ports, partitions) are sparse tables:
an index that a table does not list has the record that reset gives it (`Slab.init`, `Ctx.init`, ...). Memories are
sparse lists of bytes of the same kind. -/

namespace Sys2Proof.Machine

open Sys2Proof

/-- The reasons this machine stops with a fault. None is needed: the S100 answers every bad access with a bus
error, a status or an event, which are state. `unreachable` is kept for the interface and no meaning raises it: safe. -/
inductive Fault where
  | unreachable
deriving DecidableEq, Repr

/-- The reasons this machine refuses a command. `notModelled` is raised by an arm of `exec` that has no meaning
yet: safe, since nothing is claimed of that command. -/
inductive Refusal where
  | notModelled (mnemonic : String)
deriving DecidableEq, Repr

/-! ## The surroundings and the model's own fields -/

/-- What the last read answered (R273, R449, R502, R539): nothing yet, data bytes, Unsupported Request, Completer
Abort, or a test-port capture of a width. -/
inductive Resp where
  | none
  | data (bytes : List (BitVec 8))
  | unsupported
  | abort
  | capture (width : Nat) (value : Nat)
deriving DecidableEq, Repr

/-- The model's own fields and the host's side of the link: free-value counter, last answer, MSI-X messages sent
(function, vector), host memory by key `function * 2^64 + bus address`, key ranges whose accesses fail, fetch order, and the bank accesses that wait for a clear (R284), oldest first. -/
structure Env where
  free : Nat
  resp : Resp
  msis : List (Nat × Nat)
  hostMem : Mem
  hostFail : List (Nat × Nat)
  fetchStamp : Nat
  waits : List Instr
deriving DecidableEq, Repr

/-! ## Package-wide blocks -/

/-- Package block (R37) and package-wide facts. `samples` holds the input power samples of the last 1 ms in watts, newest first
(R34). `retiredSlab` is 0x7F for none (R337). -/
structure Pkg where
  powerLimit : BitVec 16
  step : Nat
  pAvg : BitVec 16
  samples : List Nat
  events : Word
  rateCap : Nat
  vfBar4 : Bool
  retiredSlab : Nat
  unroutable : Bool
  lostStacks : List Nat
deriving DecidableEq, Repr

/-- Register interface block (R515). -/
structure Rif where
  indStride : Word
  indAddr : Word
  log0 : Word
  log1 : Word
  log2 : Word
  count : Word
  data : Word
deriving DecidableEq, Repr

/-- Where a failover stands (R369). -/
inductive FailoverPhase where
  | idle
  | held
  | switched
deriving DecidableEq, Repr

/-- An event whose record waits for the host link (R369): the function, and what R364 puts into the record. -/
structure HeldEvent where
  func : Nat
  code : Nat
  slab : Nat
  ctx : Nat
  dws : List Nat
deriving DecidableEq, Repr

/-- PCIe block and host link (R340, R368 to R374). While a failover holds outbound requests (R369): the vectors to signal, the
events and the completion records (context and SEQ) whose writes wait, and the writes of packets (function, address, bytes),
oldest first. -/
structure Pcie where
  activeSlab : Nat
  standbyOk : Bool
  speed : Nat
  width : Nat
  failovers : Word
  events : Word
  phase : FailoverPhase
  trigger : Nat
  cfg : List (Nat × Word)
  cfgMirror : List (Nat × Word)
  vfs : Nat
  linkDown : Bool
  msiHeld : List (Nat × Nat)
  evHeld : List HeldEvent
  recHeld : List (Nat × Nat)
  wrHeld : List (Nat × Nat × List Byte)
deriving DecidableEq, Repr

/-- Header fields of a signed image (R440) and, its payload as a little-endian number (R453). `good` says that both
signatures, the certificate and the payload digest check: the facts of R441 steps 2 to 5, opaque to this model. -/
structure Image where
  version : Word
  svn : Word
  epoch : Word
  digest : BitVec 384
  good : Bool
  plen : Nat
  payload : Nat
deriving DecidableEq, Repr

/-- Security block (R450), firmware slots and floors (R439, R442). `cmd` is what `SEC_CMD` holds, `run` the write of `GO` that
started the operation in progress. -/
structure Sec where
  cmd : Word
  run : Word
  busy : Bool
  result : Nat
  addr : DWord
  len : Word
  nonce : BitVec 384
  primaryOk : Bool
  secondaryOk : Bool
  anchor : Nat
  fwRun : Bool
  fwA : Option Image
  fwB : Option Image
  fwFloor : Word
  armFloor : Word
  certs : List (BitVec 384)
  hsFail : Word
  events : Word
deriving DecidableEq, Repr

/-- A log record of the flash area (R472); its tag is opaque. -/
structure LogRec where
  kind : Nat
  slab : Nat
  arg0 : Nat
  arg1 : Nat
  arg2 : Nat
  lcycle : DWord
deriving DecidableEq, Repr

/-- Armature block and repair state (R458, R472, R476). `log` holds the newest record first; the `RSEQ` of the newest
is its length from the start of life, `logCount`. -/
structure Arm where
  slotA : Option Image
  slotB : Option Image
  curB : Bool
  prevValid : Bool
  reverted : BitVec 24
  cmdOp : Nat
  cmdMask : BitVec 24
  busy : Bool
  result : Nat
  refuseOff : Word
  replaceReq : Word
  events : Word
  logIdx : Word
  log : List LogRec
  logCount : Nat
  epochReject : Word
deriving DecidableEq, Repr

/-- The rest of the Armature block: what `ARM_CMD` holds, whether the operation's checks have passed, the partitions it
still has to serve, last discord, link start failures. -/
structure Arm2 where
  reg : Word
  started : Bool
  todo : List Nat
  discordPart : Nat
  discord : BitVec 128
  portFails : List (Nat × Nat)
deriving DecidableEq, Repr

/-- A meter reading record's signed fields (R483); constants and the serial are added when it is read. -/
structure Reading where
  rseq : Nat
  kind : Nat
  flags : Nat
  period : Nat
  ctrStart : Nat
  ctrEnd : Nat
  eTotal : Nat
  eInterval : Nat
  pMax : Nat
  pMin : Nat
  vMin : Nat
  vMax : Nat
  aseq : Nat
  powerups : Nat
  serial : Nat
deriving DecidableEq, Repr

/-- A reading with the two digests it carries (R483, R487). -/
structure ReadingRec where
  r : Reading
  prev : BitVec 384
  audit : BitVec 384
deriving DecidableEq, Repr

/-- An audit record of the meter (R487). -/
structure Audit where
  aseq : Nat
  kind : Nat
  ctr : Nat
  eTotal : Nat
  old : Nat
  new : Nat
  rseq : Nat
deriving DecidableEq, Repr

/-- The Ahnast meter (section 18). -/
structure Meter where
  powered : Bool
  ctr : DWord
  energy : DWord
  period : Word
  refused : Bool
  sel : DWord
  asel : Word
  addr : BitVec 16
  records : List ReadingRec
  rseq : Nat
  audit : List Audit
  coverClosed : Bool
  filmOk : Bool
  flags : Nat
  waiting : Nat
deriving DecidableEq, Repr

/-- The rest of the meter: interval statistics, power-ups, the serial, and records sent towards the mirror (R490). -/
structure Meter2 where
  pMax : Nat
  pMin : Nat
  vMin : Nat
  vMax : Nat
  powerups : Word
  gapNext : Bool
  sealOpenSeen : Bool
  serial : Nat
  fitted : Bool
  mirrorOut : List ReadingRec
deriving DecidableEq, Repr

/-- Meter mirror block (R491 to R493). `actBase` and `actReq` hold each context's activity at the previous and at the last
request, `edge` a rising edge of the request line that the meter has not seen yet. -/
structure Mtr where
  present : Bool
  sealOk : Bool
  pend : Bool
  changed : Bool
  snapSeq : Word
  events : Word
  appBase : Nat
  app : List (Nat × DWord)
  appU : DWord
  snap : Option ReadingRec
  certSeen : Bool
  actBase : List (Nat × Nat)
  actReq : List (Nat × Nat)
  edge : Bool
deriving DecidableEq, Repr

/-- Power states of the module (R518, R537). -/
inductive PwrState where
  | unpowered
  | standbyPwr
  | standbyTrip
  | standbyStby
  | inReset
  | running
deriving DecidableEq, Repr

/-- Package controller space (R542) and pins (R517). -/
structure Pkc where
  recovery : Bool
  ready : Bool
  step : Nat
  identityLess : Bool
  rstBusy : Bool
  rstResult : Nat
  rstPart : Nat
  rstCause : Nat
  rstCount : Word
  slabOff : BitVec 128
  v12 : Nat
  v48 : Nat
  power : PwrState
  alertMask : Word
  wakeMask : Word
  events : Word
deriving DecidableEq, Repr

/-- The rest of the package controller: supply pins and flags, the trip latch, whether the next start records a trip (R525),
whether the supplies have been sampled, cold power-ons so far, slabs powered on again whose self-test runs (R538),
management and test ports. `jtagDrive` is what EXTEST drives onto the pins. -/
structure Pkc2 where
  pwrOk : Bool
  sysResetN : Bool
  perstN : Bool
  refclkOk : Bool
  lrefOk : Bool
  oscAOk : Bool
  oscBOk : Bool
  tripped : Bool
  tripStart : Bool
  sampled : Bool
  starts : Nat
  repowered : List Nat
  mgmtAddr : Word
  mgmtInd : Bool
  jtagBoundary : Nat
  jtagDrive : Option Nat
deriving DecidableEq, Repr

/-! ## Slabs -/

/-- Slab states of R38. -/
inductive SlabSt where
  | active
  | spare
  | serving
  | coreRetired
  | retired
deriving DecidableEq, Repr

/-- HBM controller registers of a bridged slab (R310). -/
structure HbmCtl where
  trained : Bool
  clearing : Bool
  temp : Nat
  scrub : Word
  rd : DWord
  wr : DWord
  corr : DWord
  ue : Word
  macfail : Word
  mhit : DWord
  mmiss : DWord
  events : Word
  err0 : Word
  err1 : Word
deriving DecidableEq, Repr

/-- The input of a router or edge port from a neighbouring place: the flits it holds, oldest first (R318). -/
structure FabIn where
  node : FabNode
  src : FabPlace
  flits : List Flit
deriving DecidableEq, Repr

/-- An output of a router or edge port towards a neighbouring place (R317): for each channel that a packet holds, the input
it comes from and its class there; the channel and, for each channel, the input served last. -/
structure FabOut where
  node : FabNode
  dst : FabPlace
  held : List (Nat × FabPlace × Nat)
  lastVc : Nat
  lastIn : List (Nat × Nat)
deriving DecidableEq, Repr

/-- Fabric registers of a slab (R337), its inputs that hold flits and its outputs that have sent any (R317, R318), failed
replays in a row of the flit at an input (R321), and the packets it has sent and not had answered: transport number,
resends so far, whether it is ATOMIC, destination slab (R322). -/
structure Fab where
  ctrl : Word
  corr : DWord
  replay : Word
  resend : Word
  misroute : Word
  events : Word
  edgeN : DWord
  edgeE : DWord
  edgeS : DWord
  edgeW : DWord
  ins : List FabIn
  outs : List FabOut
  flitFails : List (FabNode × FabPlace × Nat)
  sends : List (Nat × Nat × Bool × Nat)
deriving DecidableEq, Repr

/-- Coder core states (R432). -/
inductive VcSt where
  | idle
  | busy
  | resetting
deriving DecidableEq, Repr

/-- A claim of a coder core: its ticket, its piece (none while it waits for a re-issue slot), and whether it has timed
out once (R424). -/
structure VcClaim where
  ticket : Nat
  piece : Option Nat
  timedOut : Bool
deriving DecidableEq, Repr

/-- Coder core registers and work of a slab (R432, R417, R423). `ctx` and `stream` name the frame
that the core serves while it is busy. -/
structure Vc where
  ctrl : Word
  st : VcSt
  ctx : Nat
  stream : Nat
  claim : Option VcClaim
  pieces : Word
  reissues : Word
  fallbacks : Word
  resets : Word
  events : Word
  busy : DWord
deriving DecidableEq, Repr

/-- A look-aside buffer entry: context, Caddy sequence, table line, its sixteen words (R194). -/
structure LabEntry where
  ctx : Nat
  seq : Nat
  line : Nat
  words : List Word
deriving DecidableEq, Repr

/-- One bank of a function slot: up to 32 program words and the table entries, by index, that were written (R152), value
and slope. `shipped` says that the content is the one shipped for the slot, which the spec does not list. -/
structure SlotBank where
  shipped : Bool
  prog : List DWord
  table : List (Nat × Word × Word)
deriving DecidableEq, Repr

/-- The two banks of the eight function slots of a tile (R152). -/
structure Slots where
  bank0 : List SlotBank
  bank1 : List SlotBank
deriving DecidableEq, Repr

/-- Vector control of a slab: which bank of each slot is active, and the table registers (R159, R180). -/
structure Vec where
  active : BitVec 8
  vtblSel : Word
  vtblVal : Word
  vtblSlope : Word
  events : Word
deriving DecidableEq, Repr

/-- A slab: structure (R40), array control (R69), Patina (R286), page-walk unit (R223) and the blocks above. -/
structure Slab where
  st : SlabSt
  serves : Nat
  pufFail : Bool
  coreOn : Bool
  cycle : DWord
  tileMap : BitVec 512
  siteState : BitVec 160
  arrayCtrl : Word
  arrayEvents : Word
  thermalRate : Nat
  temp : Nat
  periodOk : Bool
  vec : Vec
deriving DecidableEq, Repr

/-- The rest of a slab. `patinaPos` is the test region started last, `patinaNext` the next one, `sweepOpen` says that the
last region of a sweep runs (R279, R286). -/
structure Slab2 where
  patinaCtrl : Word
  patinaPos : Nat
  patinaNext : Nat
  sweepOpen : Bool
  patinaSweeps : Word
  bankEvents : Word
  bankErr0 : Word
  bankErr1 : Word
  lab : List LabEntry
  labHit : DWord
  labMiss : DWord
  labInval : DWord
  hbm : HbmCtl
  fab : Fab
  vc : Vc
  epochs : List (Nat × Word)
  warning : Bool
  corrWindow : Nat
  moveTile : Option (Nat × Nat)
deriving DecidableEq, Repr

/-! ## Link ports -/

/-- Port states of R324. -/
inductive PortSt where
  | disabled
  | training
  | active
  | retrain
  | failed
deriving DecidableEq, Repr

/-- A package link port (R324 to R327, R338, R456). -/
structure Port where
  ctrl : Word
  st : PortSt
  laneOk : Nat
  peerPort : Nat
  fecSym : DWord
  fecUe : Word
  replays : Word
  retrains : Word
  authfail : Word
  events : Word
  tx : DWord
  rx : DWord
  failsInRow : Nat
  rxNext : Nat
  txNext : Nat
  txAcked : Nat
deriving DecidableEq, Repr

/-- The rest of a port: replay requests in a row and the frame they name, slot credits for each channel, slots of its own
buffers in use, whether the frames it sends carry `NAK`, slots of each channel that wait to be sent, what training
exchanged, and what the Armature expects of the peer (R326, R456). -/
structure Port2 where
  naks : Nat
  nakSeq : Nat
  credits : List Nat
  rxUsed : List Nat
  nakOut : Bool
  wait : List Nat
  peerDigest : BitVec 384
  peerEpoch : Word
  expPort : Nat
  expSerial : DWord
deriving DecidableEq, Repr

/-! ## Tiles and banks -/

/-- Ramp phases of R62: steady, ramping up, ramping down. -/
inductive RampDir where
  | steady
  | up
  | down
deriving DecidableEq, Repr

/-- A staging step that has landed and whose half the array has not freed (R134, R545): its number in the walk, and where
its blocks of A and its 2 KiB chunks of B lie, as bank and bank byte address. -/
structure Landed where
  step : Nat
  a : List (Nat × Nat)
  b : List (Nat × Nat)
deriving DecidableEq, Repr

/-- How far a tile has walked its share of a matrix command (R134): the command, staging steps landed, stationary blocks
streamed, words streamed against the last one (none before the first), and the landed steps whose bytes are still held. -/
structure Walk where
  c : Nat
  q : Nat
  steps : Nat
  blocks : Nat
  words : Option Nat
  held : List Landed
deriving DecidableEq, Repr

/-- The array and vector side of a tile position (R42, R62, R71, R182, R285). `shadowRows` counts the rows of the next
block that the shadow set holds; `SHADOW_READY` shows that all 128 are there. -/
structure Tile where
  form : Nat
  frac : Nat
  dir : RampDir
  credit : Nat
  shadowRows : Nat
  busy : Bool
  swaps : Word
  work : DWord
  dummy : DWord
  rampHold : DWord
  loadStall : DWord
  throttle : DWord
  rampLen : Nat
  gated : Bool
deriving DecidableEq, Repr

/-- The rest of a tile. The stationary sets hold slot (r, c) at byte 2·(128·r + c), and behind the 32 KiB of slots the
block exponents of row r at 32768 + 64·r (R42, R110); the accumulator memory holds entry i at byte 4·i. -/
structure Tile2 where
  active : Mem
  shadow : Mem
  acc : Mem
  walk : Option Walk
  slots : Slots
  vecBusy : DWord
  vecEpiwait : DWord
  eccCorr : DWord
  ownerRefused : Word
  retiring : Bool
deriving DecidableEq, Repr

/-- Key owners of R298: the session, or a context with the generation of its memory key. -/
inductive KeyOwner where
  | session
  | ctx (c gen : Nat)
deriving DecidableEq, Repr

/-- A bank of a tile (R262, R265, R278 to R281, R285). `holder` is the resident context that holds it, `lastKey` the
context, as it was defined, that held it last (R268); `testing` is the region under test and `turn` the next region in
turn, `testNext` the regions to test ahead of their turn (R277, R279), `corrected` the lines corrected once since their
last test, `spared` the lines replaced with their spare lines, `badSpares` the spare lines that failed (R280). -/
structure Bank where
  owner : Nat
  peer : Nat
  holder : Option Nat
  lastKey : Option KeyOwner
  clearing : Bool
  redirectHeld : Bool
  testing : Option Nat
  turn : Nat
  testNext : List Nat
  corrected : List Nat
  spared : List (Nat × Nat)
  badSpares : List Nat
deriving DecidableEq, Repr

/-! ## HBM -/

/-- State of a granule or half (R295). -/
inductive GranSt where
  | unwritten
  | valid
  | poisoned
deriving DecidableEq, Repr

/-- A record of R295 with the key owner that wrote each half; the MACs follow from it and the contents (R294). -/
structure GranRec where
  st0 : GranSt
  ctr0 : BitVec 56
  key0 : KeyOwner
  st1 : GranSt
  ctr1 : BitVec 56
  key1 : KeyOwner
deriving DecidableEq, Repr

/-- HBM contents by device address, the records that are not UNWRITTEN with counter 0, and key generations. -/
structure Hbm where
  mem : Mem
  recs : Tbl GranRec
  session : Nat
  keyGen : List (Nat × Nat)
deriving DecidableEq, Repr

/-! ## Partitions -/

/-- A partition's entry as it runs (R454), its sequencer and its Caddy. -/
structure Part where
  defd : Bool
  x0 : Nat
  y0 : Nat
  w : Nat
  h : Nat
  hbmBase : Nat
  hbmUnits : Nat
  leaves : Nat
  owner : Nat
  concInterval : Nat
  epoch : Word
  schedCtrl : Word
  kvReserve : BitVec 24
  kvFreeMin : BitVec 24
deriving DecidableEq, Repr

/-- Why a partition's issue is stopped (R282, R302, R403, R462, R467). -/
inductive StopCause where
  | armSwitch
  | stackLoss
  | warning (slab : Nat)
  | tileMove (gtid : Nat)
  | discord
deriving DecidableEq, Repr

/-- A digest exchange in progress (R466, R467): slabs queried, slabs found to disagree, which attempt it is, and whether
it has ended in a disagreement that waits for its repair. -/
structure Exch where
  waiting : List Nat
  bad : List Nat
  attempt : Nat
  judged : Bool
deriving DecidableEq, Repr

/-- Counters and queues of a partition. `leafTab` maps a leaf in use to its REFS and its owning context (R184); `slice`
is the slice holder and `sliceLast` the last one, from which the next is counted (R382). -/
structure Part2 where
  issued : DWord
  refused : DWord
  hazard : DWord
  pseqEvents : Word
  kvEvents : Word
  kvAlloc : DWord
  kvCow : DWord
  leafTab : List (Nat × Nat × Nat)
  subst : List Nat
  unbacked : Bool
  schedEvents : Word
  schedEvictions : Word
  slice : Option Nat
  sliceLast : Nat
  rrLc : Nat
  rrBe : Nat
  stopped : List StopCause
  concCount : Word
  concDiscords : Word
  sinceExch : Nat
  exch : Option Exch
deriving DecidableEq, Repr

/-! ## Contexts -/

/-- Context states of R379. -/
inductive CtxSt where
  | free
  | loaded
  | resident
  | running
  | blocked
  | blockedKv
  | swapped
  | halted
  | lost
deriving DecidableEq, Repr

/-- Ring states that are stored: DISABLED, enabled, DRAINING. HALTED and BLOCKED_KV are read from the failure records
and the context (R372). -/
inductive RingSt where
  | disabled
  | enabled
  | draining
deriving DecidableEq, Repr

/-- A context's rings (R344 to R351, R372). `halts` lists the unacknowledged failure records as SEQ and status.
`refetch` is the SEQ of a fetch that failed (R350), and
`flushLeft` how many unfetched entries a FLUSH covers (R360). -/
structure Ring where
  st : RingSt
  halts : List (Nat × Nat)
  haltPosted : Bool
  dead : Bool
  sqBase : DWord
  cqBase : DWord
  sqLog2 : BitVec 5
  cqLog2 : BitVec 5
  sqHead : Nat
  sqTail : Nat
  cqTail : Nat
  cqPhase : Bool
  cqHead : Nat
  seqNext : Word
  refetch : Option Nat
  flushLeft : Nat
deriving DecidableEq, Repr

/-- Coalescing of a ring's interrupt, and its event register (R367, R372, R373). -/
structure RingIrq where
  en : Bool
  count : BitVec 8
  time : BitVec 16
  unsig : Nat
  events : Word
deriving DecidableEq, Repr

/-- A region's space (R96, R389). -/
inductive Space where
  | hbm
  | host
  | bank
deriving DecidableEq, Repr

/-- A region of a context (R389): length, bank mask, first rank, tile count, bank offset, allocation units, host
address, the model that made it (R387), and who else claims it (a sequence, R191, or a coder stream, R416). -/
structure Region where
  space : Space
  len : Nat
  mask : Nat
  first : Nat
  tiles : Nat
  off : Nat
  units : List Nat
  hostAddr : Nat
  model : Option Nat
  claimed : Bool
deriving DecidableEq, Repr

/-- A bound chain: its 128 bytes and the descriptors it names, by the offset of the naming field (R162). -/
structure Chain where
  raw : Blob
  descs : List (Nat × Blob)
deriving DecidableEq, Repr

/-- What a handle is bound to: a descriptor, a permute descriptor with its copies (R115), a chain, or a convolution
plan with its copies (R230). -/
inductive Obj where
  | desc (raw : Blob)
  | perm (raw src dst : Blob)
  | chain (c : Chain)
  | plan (raw : Blob) (descs : List (Nat × Blob)) (chains : List (Nat × Chain))
deriving DecidableEq, Repr

/-- A Caddy sequence (R189). -/
structure KvSeq where
  region : Nat
  len : Nat
  maxTok : Nat
  nb : Nat
  h : Nat
  dcode : Nat
  kfmt : Nat
deriving DecidableEq, Repr

/-- A stream table entry of the Brew (R250). -/
structure Stream where
  next : Word
  cbase : DWord
  exhausted : Bool
deriving DecidableEq, Repr

/-- A model: its regions and the allocation units of its weight store (R390, R392). -/
structure Model where
  regions : List Nat
  units : List Nat
deriving DecidableEq, Repr

/-- Where a ring command stands: fetched; issued; issued and acted on, waiting for something else before it ends; or
finished with its record still to be written. -/
inductive CmdPhase where
  | fetched
  | issued
  | acted
  | done
deriving DecidableEq, Repr

/-- A byte range of a region that a command reads or writes (R145). -/
structure Foot where
  rid : Nat
  reg : Region
  lo : Int
  hi : Int
  wr : Bool
deriving DecidableEq, Repr

/-- What a command bound at its issue (R144, R159, R251): the objects its handles named, its regions, the key and
draw index, the active slot banks, its footprint, the object it binds if it is a creating command, the form of each
work tile (R60) and the leaves it took (R198). -/
structure Bound where
  objs : List (Nat × Obj)
  regs : List (Nat × Region)
  key : BitVec 128
  draw : Nat
  cbase : DWord
  slots : BitVec 8
  foots : List Foot
  newObj : Option Obj
  earlier : List Nat
  forms : List (Nat × Nat)
  leaves : List Nat
deriving DecidableEq, Repr

/-- A command in flight (R143): its entry, place in its life, fetch order, what it bound, its
record so far, and whether it has issued (a refused one never does). -/
structure Cmd where
  seq : Nat
  entry : Entry
  phase : CmdPhase
  stamp : Nat
  bound : Bound
  status : Nat
  aflags : BitVec 8
  dw : List Word
  aq : List Nat
  issued : Bool
  interrupted : Bool
deriving DecidableEq, Repr

/-- States of a link job (R328). -/
inductive JobSt where
  | opening
  | open
  | failed
deriving DecidableEq, Repr

/-- A link job slot (R328, R329, R444). `peerSubject` is the anchor that the peer's identity record names, `hs` counts the
handshake messages seen, and `colls` the collectives that have named the job and ended (R333). The two keys are opaque values. -/
structure Job where
  st : JobSt
  port : Nat
  peerTag : Word
  peerId : DWord
  peerSubject : Option (BitVec 384)
  openSeq : Nat
  stamp : Nat
  peerWire : Nat
  peerEpoch : Word
  pctrTx : Nat
  pctrRx : Nat
  keyLo : BitVec 256
  keyHi : BitVec 256
  hs : Nat
  colls : Nat
  failEpoch : Bool
deriving DecidableEq, Repr

/-- A frame in progress of a coder stream (R417 to R429): its command, whether it is a key frame, the pass, whether the
filter phase of a tiled AV1 frame runs, the quantiser, pieces of the phase, re-issues written in it, pieces reported
committed, and the status and detail words of an attempt that failed. -/
structure VcFrame where
  q : Nat
  key : Bool
  pass : Nat
  filter : Bool
  quant : Nat
  np : Nat
  reissues : Nat
  committed : List Nat
  fail : Option (Nat × List Nat)
deriving DecidableEq, Repr

/-- A motion vector in eighths of a luma sample (R427). -/
structure MotionVec where
  x : Int
  y : Int
deriving DecidableEq, Repr

/-- A reference slot (R416, R427): the reconstructed samples, the motion field (vector and distance in frames of each 8 × 8 block,
none for an intra block), and the number of the frame. -/
structure VcRef where
  pixels : List Nat
  field : List (Option (MotionVec × Nat))
  frame : Nat
deriving DecidableEq, Repr

/-- A coder stream (R413 to R420, R428): its parameter block, the rates that take effect at the next key frame, frames
so far and since the last key frame, the fullness in units of 1/(90000·FPS_NUM) bits, whether only a key unit is accepted, the
positions whose cores it uses, and the reference slots in use, nearest first. -/
structure VcStream where
  params : Blob
  newRate : Option (Nat × Nat)
  frames : Nat
  sinceKey : Nat
  fullness : Nat
  needKey : Bool
  cores : List Nat
  refs : List VcRef
  frame : Option VcFrame
deriving DecidableEq, Repr

/-- The eight counters of R93, with `NAN` and `IROUND` last. -/
structure Aq where
  trunc : DWord
  vanish : DWord
  zero : DWord
  poison : DWord
  sat : DWord
  nan : DWord
  iround : DWord
deriving DecidableEq, Repr

/-- Profiling counters of a context (R452). -/
structure Prof where
  array : DWord
  vec : DWord
  hbmRd : DWord
  hbmWr : DWord
  cmds : DWord
  opacc : DWord
deriving DecidableEq, Repr

/-- Whether a swap of the context is in progress (R386). -/
inductive Swapping where
  | none
  | out
  | in
deriving DecidableEq, Repr

/-- Definition and scheduling state of a context (R379, R406). -/
structure CtxReg where
  st : CtxSt
  res : Bool
  geobound : Bool
  unplaced : Bool
  lc : Bool
  part : Nat
  func : Nat
  slot : Nat
  slice : Nat
  quota : Word
  lossReason : Nat
  lossSlab : Nat
  blockedAt : DWord
  swapins : Word
  evictions : Word
  events : Word
deriving DecidableEq, Repr

/-- More scheduling state: runnable order, saved mark, swap in progress, control writes waiting for the issue
decision (R397), whether the swap store holds what a swap-out wrote (R386) and its units, geometry at an evacuation (R404). -/
structure CtxSched where
  runnableAt : Option Nat
  blockedStamp : Nat
  saved : Bool
  swapping : Swapping
  wantSusp : Bool
  wantRes : Bool
  stored : Bool
  swapUnits : List Nat
  geo : Option (Nat × Nat)
deriving DecidableEq, Repr

/-- A context (R341, R372, R376, R406). -/
structure Ctx where
  reg : CtxReg
  sched : CtxSched
  ring : Ring
  irq : RingIrq
  aq : Aq
  prof : Prof
  cmds : List Cmd
  handles : List (Nat × Obj)
  regions : List (Nat × Region)
  models : List (Nat × Model)
  seqs : List (Nat × KvSeq)
  key : BitVec 128
  streams : List (Nat × Stream)
  jobs : List (Nat × Job)
  vcs : List (Nat × VcStream)
deriving DecidableEq, Repr

/-- Nothing bound. -/
def Bound.none : Bound :=
  { objs := [], regs := [], key := 0, draw := 0, cbase := 0, slots := 0, foots := [], newObj := .none,
    earlier := [], forms := [], leaves := [] }

/-! ## Functions -/

/-- An MSI-X table entry (R343). -/
structure Msix where
  addr : DWord
  data : Word
  masked : Bool
deriving DecidableEq, Repr

/-- A function block (R373) with its event ring and MSI-X state. -/
structure Fn where
  en : Bool
  log2 : BitVec 5
  base : DWord
  head : Nat
  tail : Nat
  phase : Bool
  irq : RingIrq
  dropped : Word
  owed : Nat
  eseq : Word
  msix : List (Nat × Msix)
  pba : List Nat
deriving DecidableEq, Repr

/-! ## The whole state -/

/-- The state of the S100, with the queue of commands that wait, oldest first. -/
structure State where
  pending : List Instr
  env : Env
  pkg : Pkg
  rif : Rif
  pcie : Pcie
  sec : Sec
  arm : Arm
  arm2 : Arm2
  mtr : Mtr
  meter : Meter
  meter2 : Meter2
  pkc : Pkc
  pkc2 : Pkc2
  winPeak : Nat
  slabs : Tbl Slab
  slabs2 : Tbl Slab2
  ports : Tbl Port
  ports2 : Tbl Port2
  tiles : Tbl Tile
  tiles2 : Tbl Tile2
  banks : Tbl Bank
  parts : Tbl Part
  parts2 : Tbl Part2
  ctxs : Tbl Ctx
  funcs : Tbl Fn
  bankMem : Mem
  hbm : Hbm
deriving DecidableEq, Repr

/-! ## Reset: the device after step 9 of R526 with the shipped Armature (log 1, log 2) -/

def Env.init : Env :=
  { free := 0, resp := .none, msis := [], hostMem := [], hostFail := [], fetchStamp := 0, waits := [] }

def Pkg.init : Pkg :=
  { powerLimit := BitVec.ofNat 16 Config.powerLimit, step := 0, pAvg := 0, samples := [], events := 0, rateCap := Config.rateCap,
    vfBar4 := true, retiredSlab := 0x7F, unroutable := false, lostStacks := [] }

def Rif.init : Rif :=
  { indStride := 1, indAddr := 0, log0 := 0, log1 := 0, log2 := 0, count := 0, data := 0 }

def Pcie.init : Pcie :=
  { activeSlab := 40, standbyOk := true, speed := 0, width := 0, failovers := 0, events := 0, phase := .idle,
    trigger := 0, cfg := [], cfgMirror := [], vfs := 0, linkDown := false, msiHeld := [], evHeld := [], recHeld := [],
    wrHeld := [] }

/-- The shipped firmware in slot A (log 1). -/
def fwShipped : Image :=
  { version := Config.fwVersion, svn := Config.fwSvn, epoch := 0, digest := Config.fwDigest, good := true, plen := 0,
    payload := 0 }

/-- The shipped Armature in slot A (log 1). -/
def armShipped : Image :=
  { version := Config.armVersion, svn := Config.armSvn, epoch := BitVec.ofNat 32 Config.armEpoch,
    digest := Config.armDigest, good := true, plen := 4160, payload := Config.payload }

def Sec.init : Sec :=
  { cmd := 0, run := 0, busy := false, result := 0, addr := 0, len := 0, nonce := 0, primaryOk := true, secondaryOk := true,
    anchor := 40, fwRun := false, fwA := some fwShipped, fwB := none, fwFloor := Config.fwSvn,
    armFloor := Config.armSvn, certs := [Config.signerId], hsFail := 0, events := 0 }

def Arm.init : Arm :=
  { slotA := some armShipped, slotB := none, curB := false, prevValid := false, reverted := 0, cmdOp := 0,
    cmdMask := 0, busy := false, result := 0, refuseOff := 0xFFFFFFFF, replaceReq := 0, events := 0, logIdx := 0,
    log := [], logCount := 0, epochReject := 0 }

def Arm2.init : Arm2 := { reg := 0, started := false, todo := [], discordPart := 0, discord := 0, portFails := [] }

def Meter.init : Meter :=
  { powered := true, ctr := 0, energy := 0, period := 900, refused := false, sel := 0, asel := 0, addr := 0,
    records := [], rseq := 0, audit := [], coverClosed := true, filmOk := true, flags := 0, waiting := 0 }

def Meter2.init : Meter2 :=
  { pMax := 0, pMin := 0, vMin := 0, vMax := 0, powerups := 0, gapNext := false, sealOpenSeen := false,
    serial := Config.meterSerial, fitted := true, mirrorOut := [] }

def Mtr.init : Mtr :=
  { present := false, sealOk := false, pend := false, changed := false, snapSeq := 0, events := 0, appBase := 0x1E,
    app := [], appU := 0, snap := none, certSeen := false, actBase := [], actReq := [], edge := false }

def Pkc.init : Pkc :=
  { recovery := false, ready := true, step := 9, identityLess := false, rstBusy := false, rstResult := 0, rstPart := 0,
    rstCause := 0, rstCount := 0, slabOff := 0, v12 := 0, v48 := 0, power := .running, alertMask := 0xFF, wakeMask := 0,
    events := 0 }

def Pkc2.init : Pkc2 :=
  { pwrOk := true, sysResetN := true, perstN := true, refclkOk := true, lrefOk := true, oscAOk := true, oscBOk := true,
    tripped := false, tripStart := false, sampled := false, starts := 0, repowered := [], mgmtAddr := 0, mgmtInd := false, jtagBoundary := 0, jtagDrive := none }

/-- Site t serves tile t (R40): byte t of the map is t. -/
def tileMapInit : BitVec 512 :=
  BitVec.ofNat 512 ((List.range 64).map fun t => t <<< (8 * t)).sum

/-- Sites 64 and 65 are SPARE (R40). -/
def siteStateInit : BitVec 160 := BitVec.ofNat 160 (5 <<< 128)

/-- The shipped content of slot k, or an emptied slot (R152). -/
def SlotBank.shippedAt : SlotBank := { shipped := true, prog := [], table := [] }
def SlotBank.empty : SlotBank := { shipped := false, prog := [], table := [] }

def Slots.init : Slots :=
  { bank0 := [.shippedAt, .shippedAt, .shippedAt, .shippedAt, .empty, .empty, .empty, .empty],
    bank1 := [.empty, .empty, .empty, .empty, .empty, .empty, .empty, .empty] }

def Vec.init : Vec :=
  { active := 0, vtblSel := 0, vtblVal := 0, vtblSlope := 0, events := 0 }

/-- Slab n after bring-up: a package spare of R21 or an ACTIVE slab. -/
def Slab.init (n : Nat) : Slab :=
  let spare := Config.shippedSpares.contains n
  { st := if spare then .spare else .active, serves := if spare then 0xFF else n,
    pufFail := false, coreOn := !spare, cycle := 0,
    tileMap := tileMapInit, siteState := siteStateInit, arrayCtrl := Config.arrayCtrl, arrayEvents := 0,
    thermalRate := 16, temp := 0, periodOk := true, vec := Vec.init }

def HbmCtl.init (n : Nat) : HbmCtl :=
  { trained := (Config.slabStack n).isSome, clearing := false, temp := 0, scrub := Config.hbmScrub, rd := 0, wr := 0,
    corr := 0, ue := 0, macfail := 0, mhit := 0, mmiss := 0, events := 0, err0 := 0, err1 := 0 }

def Fab.init : Fab :=
  { ctrl := Config.fabCtrl, corr := 0, replay := 0, resend := 0, misroute := 0, events := 0, edgeN := 0, edgeE := 0,
    edgeS := 0, edgeW := 0, ins := [], outs := [], flitFails := [], sends := [] }

def Vc.init : Vc :=
  { ctrl := Config.vcCtrl, st := .idle, ctx := 0, stream := 0, claim := none, pieces := 0, reissues := 0,
    fallbacks := 0, resets := 0, events := 0, busy := 0 }

/-- The epoch table of every slab after bring-up (R463). -/
def epochsInit : List (Nat × Word) := [(0, 1), (1, 1), (2, 1), (3, 1)]

def Slab2.init (n : Nat) : Slab2 :=
  { patinaCtrl := Config.patinaCtrl, patinaPos := 0, patinaNext := 0, sweepOpen := false, patinaSweeps := 0, bankEvents := 0, bankErr0 := 0, bankErr1 := 0,
    lab := [], labHit := 0, labMiss := 0, labInval := 0, hbm := HbmCtl.init n, fab := Fab.init, vc := Vc.init,
    epochs := epochsInit, warning := false, corrWindow := 0, moveTile := none }

/-- A port with `EN` set stands in TRAINING (R324). -/
def Port.init : Port :=
  { ctrl := Config.linkCtrl, st := .training, laneOk := 0, peerPort := 0, fecSym := 0, fecUe := 0, replays := 0,
    retrains := 0, authfail := 0, events := 0, tx := 0, rx := 0, failsInRow := 0, rxNext := 0, txNext := 0,
    txAcked := 0 }

def Port2.init : Port2 :=
  { naks := 0, nakSeq := 0, credits := [4096, 4096, 4096, 4096], rxUsed := [0, 0, 0, 0], nakOut := false, wait := [0, 0, 0, 0], peerDigest := 0,
    peerEpoch := 0, expPort := 0xFF, expSerial := 0 }

def Tile.init : Tile :=
  { form := 0, frac := 0, dir := .steady, credit := 0, shadowRows := 0, busy := false, swaps := 0, work := 0,
    dummy := 0, rampHold := 0, loadStall := 0, throttle := 0, rampLen := 4, gated := false }

def Tile2.init : Tile2 :=
  { active := [], shadow := [], acc := [], walk := none, slots := Slots.init, vecBusy := 0, vecEpiwait := 0, eccCorr := 0, ownerRefused := 0,
    retiring := false }

def Bank.init : Bank :=
  { owner := 0, peer := 0, holder := none, lastKey := none, clearing := false, redirectHeld := false, testing := none,
    turn := 0, testNext := [], corrected := [], spared := [], badSpares := [] }

def GranRec.init : GranRec :=
  { st0 := .unwritten, ctr0 := 0, key0 := .session, st1 := .unwritten, ctr1 := 0, key1 := .session }

def Hbm.init : Hbm := { mem := [], recs := [], session := 0, keyGen := [] }

/-- Partition n of the shipped Armature (log 1). -/
def Part.init (n : Nat) : Part :=
  match Config.partRect n with
  | none =>
    { defd := false, x0 := 0, y0 := 0, w := 0, h := 0, hbmBase := 0, hbmUnits := 0, leaves := 0, owner := 0,
      concInterval := 0, epoch := 0, schedCtrl := 0, kvReserve := 0, kvFreeMin := 0 }
  | some (x, y, w, h, b, u) =>
    { defd := true, x0 := x, y0 := y, w := w, h := h, hbmBase := b, hbmUnits := u, leaves := Config.kvLeaves,
      owner := 1, concInterval := Config.concInterval, epoch := BitVec.ofNat 32 Config.armEpoch,
      schedCtrl := Config.schedCtrl, kvReserve := 0, kvFreeMin := BitVec.ofNat 24 Config.kvLeaves }

def Part2.init : Part2 :=
  { issued := 0, refused := 0, hazard := 0, pseqEvents := 0, kvEvents := 0, kvAlloc := 0, kvCow := 0, leafTab := [],
    subst := [], unbacked := false, schedEvents := 0, schedEvictions := 0, slice := none, sliceLast := 0, rrLc := 0, rrBe := 0,
    stopped := [], concCount := 0, concDiscords := 0, sinceExch := 0, exch := none }

def Ring.init : Ring :=
  { st := .disabled, halts := [], haltPosted := false, dead := false, sqBase := 0, cqBase := 0, sqLog2 := 6, cqLog2 := 6,
    sqHead := 0, sqTail := 0, cqTail := 0, cqPhase := true, cqHead := 0, seqNext := 0, refetch := none, flushLeft := 0 }

def RingIrq.init : RingIrq := { en := true, count := 1, time := 0, unsig := 0, events := 0 }

def CtxReg.init : CtxReg :=
  { st := .free, res := false, geobound := false, unplaced := false, lc := false, part := 0, func := 0, slot := 0,
    slice := 0, quota := 0, lossReason := 0, lossSlab := 0, blockedAt := 0, swapins := 0, evictions := 0, events := 0 }

def CtxSched.init : CtxSched :=
  { runnableAt := none, blockedStamp := 0, saved := false, swapping := .none, wantSusp := false, wantRes := false,
    stored := false, swapUnits := [], geo := none }

def Aq.init : Aq := { trunc := 0, vanish := 0, zero := 0, poison := 0, sat := 0, nan := 0, iround := 0 }

def Prof.init : Prof := { array := 0, vec := 0, hbmRd := 0, hbmWr := 0, cmds := 0, opacc := 0 }

/-- Context c after bring-up: FREE, but for context 0, which is always defined (R376); the management context is shown
as LOADED (log 31). The key of a context that has never been defined is 0 (log 2). -/
def Ctx.init (c : Nat) : Ctx :=
  { reg := { CtxReg.init with st := if c = 0 then .loaded else .free }, sched := .init, ring := .init, irq := .init,
    aq := .init, prof := .init, cmds := [], handles := [], regions := [], models := [], seqs := [], key := 0,
    streams := [], jobs := [], vcs := [] }

def Fn.init : Fn :=
  { en := false, log2 := 6, base := 0, head := 0, tail := 0, phase := true, irq := .init, dropped := 0, owed := 0,
    eseq := 0, msix := [], pba := [] }

/-- The device right after reset: running, READY, no command waiting, memories and tables with nothing listed. -/
def State.reset : State :=
  { pending := [], env := .init, pkg := .init, rif := .init, pcie := .init, sec := .init, arm := .init, arm2 := .init,
    mtr := .init, meter := .init, meter2 := .init, pkc := .init, pkc2 := .init, winPeak := 0, slabs := [], slabs2 := [],
    ports := [], ports2 := [], tiles := [], tiles2 := [], banks := [], parts := [], parts2 := [], ctxs := [],
    funcs := [], bankMem := [], hbm := .init }

end Sys2Proof.Machine
end

