-- ==== Sys2Proof/Machine/Ops.lean ====
section
/-! DEFINITION. The named operations over the state: sparse tables and memories, little-endian fields, the accessors of
every table, free values, host memory, MSI-X, the event rings (R364 to R367), and the geometry of slabs, partitions
and tiles (R7, R8, R28, R127, R388). -/

namespace Sys2Proof.Machine

open Sys2Proof

/-! ## Tables and memories -/

/-- The record at index k; an unlisted index has the record `d k`. -/
def tget {α : Type} (d : Nat → α) : Tbl α → Nat → α
  | [], k => d k
  | (j, v) :: r, k => if j = k then v else tget d r k

/-- Insert before the first larger index. -/
def tins {α : Type} (k : Nat) (v : α) : Tbl α → Tbl α
  | [] => [(k, v)]
  | (j, w) :: r => if k < j then (k, v) :: (j, w) :: r else (j, w) :: tins k v r

/-- Remove an index. -/
def tdel {α : Type} (k : Nat) (t : Tbl α) : Tbl α := t.filter fun p => p.1 != k

/-- Write a record, keeping the canonical form: the default record is not listed. -/
def tput {α : Type} [DecidableEq α] (d : Nat → α) (t : Tbl α) (k : Nat) (v : α) : Tbl α :=
  if v = d k then tdel k t else tins k v (tdel k t)

/-- The canonical form: rising indices, no entry equal to the default. -/
def twf {α : Type} [DecidableEq α] (d : Nat → α) : Tbl α → Bool
  | [] => true
  | (k, v) :: r => decide (v ≠ d k) && r.all (fun p => decide (k < p.1)) && twf d r

/-- What an unlisted byte reads as: 0 (R284, R296; host memory: log 5). -/
def zeroByte (_ : Nat) : Byte := 0

/-- One byte of a memory. -/
def mget (m : Mem) (a : Nat) : Byte := tget zeroByte m a

/-- Write one byte. -/
def mput (m : Mem) (a : Nat) (b : Byte) : Mem := tput zeroByte m a b

/-- The canonical form of a memory. -/
def Memory.wf (m : Mem) : Bool := twf zeroByte m

/-- `n` bytes from an address. -/
def mread (m : Mem) (a n : Nat) : List Byte := (List.range n).map fun i => mget m (a + i)

/-- Write bytes from an address. -/
def mwrite (m : Mem) (a : Nat) : List Byte → Mem
  | [] => m
  | b :: bs => mwrite (mput m a b) (a + 1) bs

/-- Set `n` bytes from an address to zero, by dropping their entries. -/
def mclear (m : Mem) (a n : Nat) : Mem := m.filter fun p => p.1 < a || a + n ≤ p.1

/-- Write each listed byte. -/
def mwriteAll (m : Mem) : List (Nat × Byte) → Mem
  | [] => m
  | (a, b) :: r => mwriteAll (mput m a b) r

/-- An association list's value. -/
def aget {α : Type} (l : List (Nat × α)) (k : Nat) : Option α := (l.find? fun p => p.1 == k).map Prod.snd

/-- Set an association list's value, in rising order of key. -/
def aput {α : Type} (l : List (Nat × α)) (k : Nat) (v : α) : List (Nat × α) := tins k v (tdel k l)

/-- Remove a key. -/
def adel {α : Type} (l : List (Nat × α)) (k : Nat) : List (Nat × α) := tdel k l

/-! ## Bits and bytes -/

/-- The number of a little-endian byte string. -/
def ofBytes : List Byte → Nat
  | [] => 0
  | b :: bs => b.toNat + 256 * ofBytes bs

/-- `n` little-endian bytes of a number. -/
def toBytes : Nat → Nat → List Byte
  | 0, _ => []
  | n + 1, v => BitVec.ofNat 8 v :: toBytes n (v / 256)

/-- Bits `lo + w - 1` to `lo` of a number. -/
def bits (v lo w : Nat) : Nat := (v >>> lo) % 2 ^ w

/-- One bit. -/
def bit (v i : Nat) : Bool := v.testBit i

/-- Bits of a field at byte offset `o`, from bit `lo`. -/
def fld (v o lo w : Nat) : Nat := bits v (8 * o + lo) w

/-- A byte field of `w` bits at byte offset `o`, from bit 0. -/
def fld0 (v o w : Nat) : Nat := bits v (8 * o) w

/-- Two's complement value of a w-bit number. -/
def toSigned (w v : Nat) : Int := if 2 ^ (w - 1) ≤ v % 2 ^ w then (v % 2 ^ w : Nat) - (2 ^ w : Nat) else (v % 2 ^ w : Nat)

/-- Ceiling of a quotient, 0 for a zero divisor. -/
def cdiv (a b : Nat) : Nat := (a + b - 1) / b

/-- Round up to a multiple of m. -/
def roundUp (a m : Nat) : Nat := cdiv a m * m

/-- Do the low 32 bits of a 64-bit counter come first (R500)? Cell 0 is LO, cell 1 is HI. -/
def half (v : DWord) (hi : Bool) : Word := if hi then (v >>> 32).setWidth 32 else v.setWidth 32

/-- A Bool as a bit. -/
def b2n (b : Bool) : Nat := if b then 1 else 0

/-- Put a value at a bit position. -/
def sh (v n : Nat) : Nat := v <<< n

/-- A register cell of a number. -/
def w32 (v : Nat) : Word := BitVec.ofNat 32 v

/-! ## Accessors -/

def State.slab (s : State) (n : Nat) : Slab := tget Slab.init s.slabs n
def State.slab2 (s : State) (n : Nat) : Slab2 := tget Slab2.init s.slabs2 n
def State.port (s : State) (n : Nat) : Port := tget (fun _ => Port.init) s.ports n
def State.port2 (s : State) (n : Nat) : Port2 := tget (fun _ => Port2.init) s.ports2 n
def State.tile (s : State) (n : Nat) : Tile := tget (fun _ => Tile.init) s.tiles n
def State.tile2 (s : State) (n : Nat) : Tile2 := tget (fun _ => Tile2.init) s.tiles2 n
/-- Bank k of global tile id g is record 4g + k. -/
def State.bank (s : State) (n : Nat) : Bank := tget (fun _ => Bank.init) s.banks n
def State.part (s : State) (n : Nat) : Part := tget Part.init s.parts n
def State.part2 (s : State) (n : Nat) : Part2 := tget (fun _ => Part2.init) s.parts2 n
def State.ctx (s : State) (n : Nat) : Ctx := tget Ctx.init s.ctxs n
def State.fn (s : State) (n : Nat) : Fn := tget (fun _ => Fn.init) s.funcs n

def State.setSlab (s : State) (n : Nat) (v : Slab) : State := { s with slabs := tput Slab.init s.slabs n v }
def State.setSlab2 (s : State) (n : Nat) (v : Slab2) : State := { s with slabs2 := tput Slab2.init s.slabs2 n v }
def State.setPort (s : State) (n : Nat) (v : Port) : State := { s with ports := tput (fun _ => Port.init) s.ports n v }
def State.setPort2 (s : State) (n : Nat) (v : Port2) : State := { s with ports2 := tput (fun _ => Port2.init) s.ports2 n v }
def State.setTile (s : State) (n : Nat) (v : Tile) : State := { s with tiles := tput (fun _ => Tile.init) s.tiles n v }
def State.setTile2 (s : State) (n : Nat) (v : Tile2) : State := { s with tiles2 := tput (fun _ => Tile2.init) s.tiles2 n v }
def State.setBank (s : State) (n : Nat) (v : Bank) : State := { s with banks := tput (fun _ => Bank.init) s.banks n v }
def State.setPart (s : State) (n : Nat) (v : Part) : State := { s with parts := tput Part.init s.parts n v }
def State.setPart2 (s : State) (n : Nat) (v : Part2) : State := { s with parts2 := tput (fun _ => Part2.init) s.parts2 n v }
def State.setCtx (s : State) (n : Nat) (v : Ctx) : State := { s with ctxs := tput Ctx.init s.ctxs n v }
def State.setFn (s : State) (n : Nat) (v : Fn) : State := { s with funcs := tput (fun _ => Fn.init) s.funcs n v }

def State.modSlab (s : State) (n : Nat) (f : Slab → Slab) : State := s.setSlab n (f (s.slab n))
def State.modSlab2 (s : State) (n : Nat) (f : Slab2 → Slab2) : State := s.setSlab2 n (f (s.slab2 n))
def State.modPort (s : State) (n : Nat) (f : Port → Port) : State := s.setPort n (f (s.port n))
def State.modPort2 (s : State) (n : Nat) (f : Port2 → Port2) : State := s.setPort2 n (f (s.port2 n))
def State.modTile (s : State) (n : Nat) (f : Tile → Tile) : State := s.setTile n (f (s.tile n))
def State.modTile2 (s : State) (n : Nat) (f : Tile2 → Tile2) : State := s.setTile2 n (f (s.tile2 n))
def State.modBank (s : State) (n : Nat) (f : Bank → Bank) : State := s.setBank n (f (s.bank n))
def State.modPart (s : State) (n : Nat) (f : Part → Part) : State := s.setPart n (f (s.part n))
def State.modPart2 (s : State) (n : Nat) (f : Part2 → Part2) : State := s.setPart2 n (f (s.part2 n))
def State.modCtx (s : State) (n : Nat) (f : Ctx → Ctx) : State := s.setCtx n (f (s.ctx n))
def State.modFn (s : State) (n : Nat) (f : Fn → Fn) : State := s.setFn n (f (s.fn n))

/-- Fold a change of state over a list. -/
def forAll {α : Type} (l : List α) (f : α → State → State) (s : State) : State := l.foldl (fun t a => f a t) s

/-! ## Free values (log 6) -/

/-- The next free value of width w, and the state with the counter advanced. -/
def State.takeFree (s : State) (w : Nat) : BitVec w × State :=
  (Config.freeValue w s.env.free, { s with env := { s.env with free := s.env.free + 1 } })

/-! ## Host memory (R341, R354) -/

/-- Key of a bus address of a function. -/
def hostKey (f a : Nat) : Nat := f * 2 ^ 64 + a % 2 ^ 64

/-- Does an access of n bytes fail on the host side? The host link being down fails every access. -/
def hostFails (s : State) (f a n : Nat) : Bool :=
  s.pcie.linkDown || s.env.hostFail.any fun r => decide (hostKey f a < r.2 ∧ r.1 < hostKey f a + n)

/-- The first address in a range whose access fails (R352). -/
def hostFailAddr (s : State) (f a n : Nat) : Nat :=
  if s.pcie.linkDown then a else
  match (s.env.hostFail.filter fun r => decide (hostKey f a < r.2 ∧ r.1 < hostKey f a + n)) with
  | [] => a
  | r :: rs => let lo := rs.foldl (fun m x => min m x.1) r.1
    max (hostKey f a) lo - f * 2 ^ 64

/-- Read n bytes of host memory. -/
def hostRead (s : State) (f a n : Nat) : List Byte := mread s.env.hostMem (hostKey f a) n

/-- Write bytes of host memory; nothing is written where the access fails. -/
def hostWrite (s : State) (f a : Nat) (bs : List Byte) : State :=
  if hostFails s f a bs.length then s
  else { s with env := { s.env with hostMem := mwrite s.env.hostMem (hostKey f a) bs } }

/-- The answer of a read (log 17). -/
def State.answer (s : State) (r : Resp) : State := { s with env := { s.env with resp := r } }

/-! ## MSI-X (R343, R367, R370) -/

/-- A function's MSI-X table entry; masked where the host has written none (log 16). -/
def Fn.vec (f : Fn) (v : Nat) : Msix := (aget f.msix v).getD { addr := 0, data := 0, masked := true }

/-- Signal a vector: held during a failover, lost with the host link, pending while masked, sent otherwise. -/
def sendMsi (f v : Nat) (s : State) : State :=
  if s.pcie.phase ≠ .idle then
    { s with pcie := { s.pcie with msiHeld := if s.pcie.msiHeld.contains (f, v) then s.pcie.msiHeld else s.pcie.msiHeld ++ [(f, v)] } }
  else if s.pcie.linkDown then s
  else if ((s.fn f).vec v).masked then
    s.modFn f fun x => { x with pba := if x.pba.contains v then x.pba else x.pba ++ [v] }
  else { s with env := { s.env with msis := s.env.msis ++ [(f, v)] } }

/-! ## Event rings (R364 to R366) -/

/-- The record of an event (R364). -/
def eventRec (code slab eseq ctx : Nat) (dws : List Nat) (phase : Bool) : List Byte :=
  toBytes 2 code ++ toBytes 1 slab ++ toBytes 1 0 ++ toBytes 4 eseq ++ toBytes 2 ctx ++ toBytes 2 0
    ++ toBytes 4 (dws.getD 0 0) ++ toBytes 4 (dws.getD 1 0) ++ toBytes 4 (dws.getD 2 0) ++ toBytes 4 (dws.getD 3 0)
    ++ toBytes 4 (sh (b2n phase) 31)

/-- Ring size of an event ring. -/
def Fn.size (f : Fn) : Nat := 2 ^ f.log2.toNat

/-- Unconsumed records. -/
def Fn.used (f : Fn) : Nat := (f.tail + f.size - f.head) % f.size

/-- Has the ring a free slot (R344, R366)? -/
def Fn.room (f : Fn) : Bool := f.en && decide (f.used + 1 < f.size)

/-- After a record: advance the tail, its phase and `ESEQ`; count the record towards the interrupt. -/
def Fn.advance (f : Fn) : Fn :=
  let t := (f.tail + 1) % f.size
  { f with
    tail := t, phase := if t = 0 then !f.phase else f.phase, eseq := f.eseq + 1,
    irq := { f.irq with unsig := f.irq.unsig + 1 } }

/-- Send the event ring's interrupt once its count is reached (R367). -/
def evqSignal (f : Nat) (s : State) : State :=
  let x := s.fn f
  if x.irq.en && decide (x.irq.count.toNat ≤ x.irq.unsig) then
    sendMsi f 0 (s.setFn f { x with irq := { x.irq with unsig := 0 } })
  else s

/-- An event lost: counted, and owed an `OVERFLOW` record. -/
def evLost (f : Nat) (hostFault : Bool) (s : State) : State :=
  s.modFn f fun x => { x with
    dropped := x.dropped + 1, owed := x.owed + 1,
    irq := { x.irq with events := x.irq.events ||| (if hostFault then 0x11 else 0x01) } }

/-- Write one record into a ring that has room; a write that fails on the host side loses the event (R366). -/
def evPut (f code slab ctx : Nat) (dws : List Nat) (s : State) : State :=
  let x := s.fn f
  let a := x.base.toNat + 32 * x.tail
  if hostFails s f a 32 then evLost f true s
  else evqSignal f ((hostWrite s f a (eventRec code slab x.eseq.toNat ctx dws x.phase)).setFn f x.advance)

/-- Write the `OVERFLOW` record that is owed, if the ring has room. Where its own write fails it stays owed, its count as it is,
and `HOSTMEM` is set (R366; log 53). -/
def evOverflow (f : Nat) (s : State) : State :=
  let x := s.fn f
  if x.owed = 0 ∨ x.room = false then s
  else
    let a := x.base.toNat + 32 * x.tail
    if hostFails s f a 32 then s.modFn f fun x => { x with irq := { x.irq with events := x.irq.events ||| 0x10 } }
    else evPut f 0x0007 0xFF 0xFFFF [x.owed] (s.setFn f { x with owed := 0 })

/-- Post one event to one function, without reporting the edges it may cause. -/
def postRaw (f code slab ctx : Nat) (dws : List Nat) (s : State) : State :=
  let s := evOverflow f s
  let x := s.fn f
  if x.room && x.owed == 0 then evPut f code slab ctx dws s else evLost f false s

/-- Where a function's `FN_EVENTS` lies: the PF block's BAR0 offset, or the offset in a VF's BAR0. -/
def fnEventsAddr (f : Nat) : Nat := if f = 0 then 0xA0020 else 0x40020

/-- Post an event and report the rising edges of `FN_EVENTS` that the posting causes (R375), which may themselves be
lost: at most one further edge each for `OVERFLOW` and `HOSTMEM` of the function and of the PF. -/
def postFuel : Nat → Nat → Nat → Nat → Nat → List Nat → State → State
  | 0, f, code, slab, ctx, dws, s => postRaw f code slab ctx dws s
  | n + 1, f, code, slab, ctx, dws, s =>
    let old := (s.fn f).irq.events
    let t := postRaw f code slab ctx dws s
    let new := (t.fn f).irq.events
    let rise := (new &&& ~~~old).toNat
    let t := if bit rise 0 then postFuel n 0 0x0001 0xFF 0xFFFF [fnEventsAddr f, 0, new.toNat] t else t
    if bit rise 4 then postFuel n 0 0x0001 0xFF 0xFFFF [fnEventsAddr f, 4, new.toNat] t else t

/-- Post an event to a function (R364); during a failover its record waits for the link (R369). -/
def post (f code slab ctx : Nat) (dws : List Nat) (s : State) : State :=
  if s.pcie.phase = .idle then postFuel 3 f code slab ctx dws s
  else
    { s with pcie := { s.pcie with
      evHeld := s.pcie.evHeld ++ [{ func := f, code := code, slab := slab, ctx := ctx, dws := dws }] } }

/-- Write the `OVERFLOW` record that a function is owed once its ring can take it, and report a failure of that write. During a
failover it waits: the next record is written after it. -/
def payOverflow (f : Nat) (s : State) : State :=
  if s.pcie.phase = .idle then
    let t := evOverflow f s
    let new := (t.fn f).irq.events
    if bit (new &&& ~~~(s.fn f).irq.events).toNat 4 then post 0 0x0001 0xFF 0xFFFF [fnEventsAddr f, 4, new.toNat] t else t
  else s

/-- Post an event to a function and to the PF, once where they are the same (R365). -/
def postBoth (f code slab ctx : Nat) (dws : List Nat) (s : State) : State :=
  let s := post f code slab ctx dws s
  if f = 0 then s else post 0 code slab ctx dws s

/-- Report each rising edge between two values of the event register at `addr` as a `REG_EDGE` event (R365). -/
def regEdge (addr slab : Nat) (old new : Word) (s : State) : State :=
  forAll (List.range 32)
    (fun i t => if bit new.toNat i && !bit old.toNat i then post 0 0x0001 slab 0xFFFF [addr, i, new.toNat] t else t) s

/-! ### Setting event bits, one operation a block -/

def pkgEvent (m : Word) (s : State) : State :=
  let o := s.pkg.events
  regEdge 0x58 0xFF o (o ||| m) { s with pkg := { s.pkg with events := o ||| m } }

def pcieEvent (m : Word) (s : State) : State :=
  let o := s.pcie.events
  regEdge 0x2000C 0xFF o (o ||| m) { s with pcie := { s.pcie with events := o ||| m } }

def secEvent (m : Word) (s : State) : State :=
  let o := s.sec.events
  regEdge 0x30064 0xFF o (o ||| m) { s with sec := { s.sec with events := o ||| m } }

def armEvent (m : Word) (s : State) : State :=
  let o := s.arm.events
  regEdge 0x4001C 0xFF o (o ||| m) { s with arm := { s.arm with events := o ||| m } }

def mtrEvent (m : Word) (s : State) : State :=
  let o := s.mtr.events
  regEdge 0x5000C 0xFF o (o ||| m) { s with mtr := { s.mtr with events := o ||| m } }

/-- Package controller events, at their indirect address (R510). -/
def pkcEvent (m : Word) (s : State) : State :=
  let o := s.pkc.events
  regEdge 0xFE000058 0xFF o (o ||| m) { s with pkc := { s.pkc with events := o ||| m } }

def pseqEvent (p : Nat) (m : Word) (s : State) : State :=
  let o := (s.part2 p).pseqEvents
  regEdge (0x6011C + 0x100 * p) 0xFF o (o ||| m) (s.modPart2 p fun x => { x with pseqEvents := o ||| m })

def kvEvent (p : Nat) (m : Word) (s : State) : State :=
  let o := (s.part2 p).kvEvents
  regEdge (0x70014 + 0x40 * p) 0xFF o (o ||| m) (s.modPart2 p fun x => { x with kvEvents := o ||| m })

def schedEvent (p : Nat) (m : Word) (s : State) : State :=
  let o := (s.part2 p).schedEvents
  regEdge (0x90008 + 0x10 * p) 0xFF o (o ||| m) (s.modPart2 p fun x => { x with schedEvents := o ||| m })

/-- An indirect address (R510). -/
def indAddrOf (slab off : Nat) : Nat := sh slab 24 + off

def arrayEvent (n : Nat) (m : Word) (s : State) : State :=
  let o := (s.slab n).arrayEvents
  regEdge (indAddrOf n 0x804) n o (o ||| m) (s.modSlab n fun x => { x with arrayEvents := o ||| m })

def vecEvent (n : Nat) (m : Word) (s : State) : State :=
  let o := (s.slab n).vec.events
  regEdge (indAddrOf n 0x2010) n o (o ||| m) (s.modSlab n fun x => { x with vec := { x.vec with events := o ||| m } })

def bankEvent (n : Nat) (m : Word) (s : State) : State :=
  let o := (s.slab2 n).bankEvents
  regEdge (indAddrOf n 0x500C) n o (o ||| m) (s.modSlab2 n fun x => { x with bankEvents := o ||| m })

def hbmEvent (n : Nat) (m : Word) (s : State) : State :=
  let o := (s.slab2 n).hbm.events
  regEdge (indAddrOf n 0x6038) n o (o ||| m) (s.modSlab2 n fun x => { x with hbm := { x.hbm with events := o ||| m } })

def fabEvent (n : Nat) (m : Word) (s : State) : State :=
  let o := (s.slab2 n).fab.events
  regEdge (indAddrOf n 0x701C) n o (o ||| m) (s.modSlab2 n fun x => { x with fab := { x.fab with events := o ||| m } })

def vcEvent (n : Nat) (m : Word) (s : State) : State :=
  let o := (s.slab2 n).vc.events
  regEdge (indAddrOf n 0x8018) n o (o ||| m) (s.modSlab2 n fun x => { x with vc := { x.vc with events := o ||| m } })

/-- Events of port p, in the indirect space of its slab. -/
def linkEvent (p : Nat) (m : Word) (s : State) : State :=
  let o := (s.port p).events
  let n := Config.portSlab.getD p 0
  regEdge (indAddrOf n 0x7120) n o (o ||| m) (s.modPort p fun x => { x with events := o ||| m })

/-! ## Slots sent on a link (R325, R326) -/

/-- DATA frames sent and not acknowledged. -/
def unacked (s : State) (p : Nat) : Nat := ((s.port p).txNext + 4095 - (s.port p).txAcked) % 4096

/-- How many of the waiting slots of each channel go out, against its credits, with room for n slots in all; channels in
rising order (log 51). -/
def slotsOut : List Nat → List Nat → Nat → List Nat
  | w :: ws, c :: cs, n => let k := min (min w c) n; k :: slotsOut ws cs (n - k)
  | _, _, _ => []

/-- Subtract lists entry by entry. -/
def subAll (a b : List Nat) : List Nat := (a.zip b).map fun x => x.1 - x.2

/-- An ACTIVE port sends what its credits and its 512 frames allow, nine slots to a frame. -/
def drainPort (p : Nat) (s : State) : State :=
  let y := s.port2 p
  let out := slotsOut y.wait y.credits (9 * (512 - unacked s p))
  if (s.port p).st = .active ∧ 0 < out.sum then
    (s.modPort p fun x => { x with
      tx := x.tx + BitVec.ofNat 64 out.sum, txNext := (x.txNext + cdiv out.sum 9) % 4096 }).modPort2 p fun z => { z with
      credits := subAll z.credits out, wait := subAll z.wait out }
  else s

/-- Slots of a channel go to a port. -/
def sendSlots (p vc n : Nat) (s : State) : State :=
  drainPort p (s.modPort2 p fun y => { y with wait := y.wait.set vc (y.wait.getD vc 0 + n) })

/-- The notice that a job has closed: one management slot (R328; log 51). -/
def closeNotice (x : Job) (s : State) : State := if x.st = .open then sendSlots x.port 3 1 s else s

def ringEvent (c : Nat) (m : Word) (s : State) : State :=
  let o := (s.ctx c).irq.events
  regEdge (0x100003C + 0x1000 * c) 0xFF o (o ||| m)
    (s.modCtx c fun x => { x with irq := { x.irq with events := o ||| m } })

def ctxEvent (c : Nat) (m : Word) (s : State) : State :=
  let o := (s.ctx c).reg.events
  regEdge (0x1000828 + 0x1000 * c) 0xFF o (o ||| m)
    (s.modCtx c fun x => { x with reg := { x.reg with events := o ||| m } })

def fnEvent (f : Nat) (m : Word) (s : State) : State :=
  let o := (s.fn f).irq.events
  regEdge (fnEventsAddr f) 0xFF o (o ||| m) (s.modFn f fun x => { x with irq := { x.irq with events := o ||| m } })

/-! ## Geometry -/

def slabX (n : Nat) : Nat := n % 10
def slabY (n : Nat) : Nat := n / 10

/-- Global tile ids of a slab's positions (R8). -/
def slabTiles (n : Nat) : List Nat := (List.range 64).map fun t => 64 * n + t

def SlabSt.code : SlabSt → Nat
  | .active => 1
  | .spare => 2
  | .serving => 3
  | .coreRetired => 4
  | .retired => 5

/-- The slab that serves a position (R28, R38), if any. -/
def serverOf (s : State) (pos : Nat) : Option Nat :=
  if (s.slab pos).st = .active then some pos
  else (List.range 100).find? fun n => (s.slab n).st == .serving && (s.slab n).serves == pos

/-- Is the slab in service, ACTIVE or SERVING (R37)? -/
def inService (s : State) (n : Nat) : Bool := (s.slab n).st == .active || (s.slab n).st == .serving

/-- Are the core-region registers of a slab live (R513)? -/
def coreLive (s : State) (n : Nat) : Bool :=
  (s.slab n).coreOn && (s.slab n).st != .retired && (s.slab n).st != .coreRetired

/-- Idle spares (R37, R470). -/
def idleSpares (s : State) : List Nat := (List.range 100).filter fun n => (s.slab n).st == .spare

/-- Positions of a partition's rectangle in ascending slab id (R28, R388). -/
def Part.positions (p : Part) : List Nat :=
  if p.defd then
    (List.range p.h).flatMap fun j => (List.range p.w).map fun i => 10 * (p.y0 + j) + p.x0 + i
  else []

/-- Does the partition's rectangle cover the position? -/
def Part.covers (p : Part) (pos : Nat) : Bool :=
  p.defd && decide (p.x0 ≤ slabX pos ∧ slabX pos < p.x0 + p.w ∧ p.y0 ≤ slabY pos ∧ slabY pos < p.y0 + p.h)

/-- The partition that covers a position. -/
def partOf (s : State) (pos : Nat) : Option Nat := (List.range 24).find? fun p => (s.part p).covers pos

/-- Member slabs of a partition: the servers of its positions (R28). -/
def members (s : State) (p : Nat) : List Nat := (s.part p).positions.filterMap (serverOf s)

/-- The position a slab serves, or its own id. -/
def posOf (s : State) (n : Nat) : Nat := if (s.slab n).st = .serving then (s.slab n).serves else n

/-- The slab that runs a partition's sequencer: the server of its lowest-numbered position that has one. -/
def seqSlab (s : State) (p : Nat) : Nat := ((members s p).head?).getD 0

/-- Morton rank of (u, v) (R127). -/
def mrank (u v : Nat) : Nat :=
  bits u 0 1 + 2 * bits v 0 1 + 4 * bits u 1 1 + 8 * bits v 1 1 + 16 * bits u 2 1 + 32 * bits v 2 1

/-- Tile index 8v + u of a Morton rank. -/
def tileOfMrank (r : Nat) : Nat :=
  let u := bits r 0 1 + 2 * bits r 2 1 + 4 * bits r 4 1
  let v := bits r 1 1 + 2 * bits r 3 1 + 4 * bits r 5 1
  8 * v + u

/-- Global tile id of a partition rank (R388), the position's own slab id naming it (R8). -/
def gtidOfRank (p : Part) (r : Nat) : Option Nat :=
  (p.positions[r / 64]?).map fun pos => 64 * pos + tileOfMrank (r % 64)

/-- Partition rank of a global tile id. -/
def rankOfGtid (p : Part) (g : Nat) : Option Nat :=
  (p.positions.findIdx? (· == g / 64)).map fun j => 64 * j + mrank (g % 8) (g / 8 % 8)

/-- Has the rank's position a member (R388)? -/
def rankAvail (s : State) (p : Part) (r : Nat) : Bool :=
  match p.positions[r / 64]? with
  | none => false
  | some pos => (serverOf s pos).isSome

/-- The tiles of a bank region, in rank order (R388). -/
def regionTiles (p : Part) (r : Region) : List Nat :=
  (List.range r.tiles).filterMap fun i => gtidOfRank p (r.first + i)

/-- Banks of a mask in ascending number. -/
def maskBanks (m : Nat) : List Nat := (List.range 4).filter fun k => bit m k

/-- Record index of a bank. -/
def bankIx (g k : Nat) : Nat := 4 * g + k

/-- Key of a bank byte: global tile id * 2^23 + bank * 2^21 + bank byte address (R449). -/
def bankKey (g k a : Nat) : Nat := g * 2 ^ 23 + k * 2 ^ 21 + a

/-- Bytes of a bank (R262). -/
def bankBytes : Nat := 640 * 2048

/-! ## Contexts -/

/-- Indices that a table lists. -/
def tkeys {α : Type} (t : Tbl α) : List Nat := t.map Prod.fst

/-- Defined contexts, ascending; context 0 is always defined (R376). -/
def definedCtxs (s : State) : List Nat :=
  0 :: (tkeys s.ctxs).filter fun c => decide (c ≠ 0) && (s.ctx c).reg.st != .free

/-- Defined contexts of a partition. -/
def ctxsOf (s : State) (p : Nat) : List Nat :=
  (definedCtxs s).filter fun c => decide (c ≠ 0) && (s.ctx c).reg.part == p

/-- Resident contexts of a partition; one that swaps in counts as resident (R384). -/
def residents (s : State) (p : Nat) : List Nat :=
  (ctxsOf s p).filter fun c => (s.ctx c).reg.res || (s.ctx c).sched.swapping == .in

/-- Contexts of a function. -/
def ctxsOfFn (s : State) (f : Nat) : List Nat :=
  (definedCtxs s).filter fun c => decide (c ≠ 0) && (s.ctx c).reg.func == f

/-- The context in a VF's local slot (R343). -/
def slotCtx (s : State) (f i : Nat) : Option Nat :=
  (ctxsOfFn s f).find? fun c => (s.ctx c).reg.slot == i

/-- Is the fabric powered: the device runs, or bring-up waits at step 8 for `PERST#` (R526, R527)? -/
def State.live (s : State) : Bool :=
  s.pkc.power == .running || (s.pkc.power == .inReset && s.pkc.step == 8)

/-- Does the host link carry requests: it is not lost, and no failover holds it (R369, R371)? -/
def linkServes (s : State) : Bool := !s.pcie.linkDown && s.pcie.phase == .idle

/-- Does the source reach the device (R340, R369, R497, R518, R528, R539)? A VF must be enabled; in the recovery state the PF
alone is there. -/
def srcLive (s : State) : Src → Bool
  | .pf => s.pkc.power == .running && linkServes s && (s.pkc.ready || s.pkc.recovery)
  | .vf n => s.pkc.power == .running && linkServes s && s.pkc.ready && decide (1 ≤ n ∧ n ≤ s.pcie.vfs)
  | .jtag => s.pkc.power == .running || s.pkc.power == .inReset
  | .i3c => s.pkc.power != .unpowered

/-- Is the source the operator, the PF or the IEEE 1149.1 port (R13), and does it reach the device? -/
def isOperatorAt (s : State) : Src → Bool
  | .pf => srcLive s .pf
  | .jtag => srcLive s .jtag
  | _ => false

/-- The operator at a block that the recovery state does not serve (R528). -/
def isOperator (s : State) (src : Src) : Bool := isOperatorAt s src && !s.pkc.recovery

/-- May the source write at all (R497)? -/
def mayWrite : Src → Bool
  | .i3c => false
  | _ => true

/-- The context a page names, for the PF by its number, for a VF by its local slot (R342, R343). -/
def pageCtx (s : State) (src : Src) (page : Nat) : Option Nat :=
  if srcLive s src && !s.pkc.recovery then
    match src with
    | .vf n => if page < 64 then slotCtx s n page else none
    | _ => if page < 1024 ∧ (page = 0 ∨ (s.ctx page).reg.st ≠ .free) then some page else none
  else none

/-- The function number of a source. -/
def srcFunc : Src → Nat
  | .vf n => n
  | _ => 0

/-- The partition's epoch as a context's entries must carry it (R376, R463). -/
def ctxEpoch (s : State) (c : Nat) : Word :=
  if c = 0 then
    match (if s.arm.curB then s.arm.slotB else s.arm.slotA) with
    | some a => a.epoch
    | none => 0
  else (s.part (s.ctx c).reg.part).epoch

/-- Commands in flight in the device and in a partition (R143, R147). -/
def winUsed (s : State) : Nat := ((definedCtxs s).map fun c => (s.ctx c).cmds.length).sum
def partInflight (s : State) (p : Nat) : Nat := ((ctxsOf s p).map fun c => (s.ctx c).cmds.length).sum

/-- A command of a context. -/
def getCmd (s : State) (c q : Nat) : Option Cmd := (s.ctx c).cmds.find? fun m => m.seq == q

/-- Change a command of a context. -/
def modCmd (c q : Nat) (f : Cmd → Cmd) (s : State) : State :=
  s.modCtx c fun x => { x with cmds := x.cmds.map fun m => if m.seq = q then f m else m }

/-- Fields of an entry's header (R345). -/
def Cmd.opcode (m : Cmd) : Nat := fld0 m.entry.toNat 0 8
def Cmd.fence (m : Cmd) : Bool := bit m.entry.toNat 15
def Cmd.irq (m : Cmd) : Bool := bit m.entry.toNat 14
def Cmd.epoch (m : Cmd) : Nat := fld0 m.entry.toNat 4 32
def Cmd.tag (m : Cmd) : Nat := fld0 m.entry.toNat 8 32

/-- A field of an entry at a byte offset (R345). -/
def Cmd.f (m : Cmd) (off w : Nat) : Nat := fld0 m.entry.toNat off w

/-- A field of an entry from a bit of a byte. -/
def Cmd.fb (m : Cmd) (off lo w : Nat) : Nat := fld m.entry.toNat off lo w

end Sys2Proof.Machine
end

