-- ==== Sys2Proof/Machine/Rings.lean ====
section
/-! DEFINITION. Rings, doorbells, fetching, completion, acknowledgements and event rings (section 13): the meanings
of SQ_TAIL to EVQ_HEAD, NOP and the ring controls, and the operations every command uses to end. -/

namespace Sys2Proof.Machine

open Sys2Proof

/-! ## Ring and context state -/

/-- Ring sizes in slots (R344). -/
def Ring.sqSize (r : Ring) : Nat := 2 ^ r.sqLog2.toNat
def Ring.cqSize (r : Ring) : Nat := 2 ^ r.cqLog2.toNat

/-- Entries the doorbell covers that are not fetched. -/
def Ring.waiting (r : Ring) : Nat := (r.sqTail + r.sqSize - r.sqHead) % r.sqSize

/-- Records not consumed. -/
def Ring.unread (r : Ring) : Nat := (r.cqTail + r.cqSize - r.cqHead) % r.cqSize

/-- Has the completion ring a free slot (R349)? -/
def Ring.cqRoom (r : Ring) : Bool := decide (r.unread + 1 < r.cqSize)

/-- `STATE` of `RING_STATE` (R372): 0 DISABLED, 1 RUNNING, 2 HALTED, 3 BLOCKED_KV, 4 DRAINING. A ring whose record writes have
failed stays HALTED (R360). -/
def Ctx.ringState (x : Ctx) : Nat :=
  if x.ring.dead then 2
  else
    match x.ring.st with
    | .disabled => 0
    | .draining => 4
    | .enabled => if x.reg.st = .blockedKv then 3 else if x.ring.halts ≠ [] then 2 else 1

/-- Is an issued command in flight (R379)? -/
def Ctx.busy (x : Ctx) : Bool := x.cmds.any Cmd.issued

/-- The oldest entry that has not issued, in ring order. -/
def Ctx.oldest (x : Ctx) : Option Cmd := x.cmds.find? fun m => m.phase == .fetched

/-- Does `FENCE` hold the command back: has an earlier command of the context not completed (R146)? -/
def Ctx.fenced (x : Ctx) (m : Cmd) : Bool :=
  m.fence && x.cmds.any fun e => decide (e.stamp < m.stamp)

/-- Is a command of the context issuable (R379)? -/
def Ctx.issuable (x : Ctx) : Bool :=
  x.ringState == 1 &&
    match x.oldest with
    | some m => !x.fenced m
    | none => decide (0 < x.ring.waiting)

/-- Blocked as R385 means it: BLOCKED, BLOCKED_KV or HALTED with nothing in flight and no swap in progress. -/
def Ctx.isBlocked (x : Ctx) : Bool :=
  (x.reg.st == .blocked || x.reg.st == .blockedKv || x.reg.st == .halted) && !x.busy && x.sched.swapping == .none

/-- The state of R380 that a resident context has by the definitions of R379. -/
def Ctx.settled (x : Ctx) : CtxSt :=
  if x.busy then .running else if x.issuable then .resident else .blocked

/-- Bring a context's state to what R379 and R380 say after any change of its ring or commands; note when it becomes
blocked (R385) and when it becomes runnable (R384). -/
def settle (c : Nat) (s : State) : State :=
  let x := s.ctx c
  if c = 0 then s else
  let st := match x.reg.st with
    | .resident | .running | .blocked => if x.sched.swapping = .none then x.settled else x.reg.st
    | st => st
  let x := { x with reg := { x.reg with st := st, geobound := x.reg.geobound && x.cmds.any Cmd.interrupted } }
  let stamp := s.env.fetchStamp + 1
  let x :=
    if x.isBlocked then
      if x.sched.blockedStamp = 0 then
        { x with reg := { x.reg with blockedAt := (s.slab (seqSlab s x.reg.part)).cycle }, sched := { x.sched with blockedStamp := stamp } }
      else x
    else { x with sched := { x.sched with blockedStamp := 0 } }
  let x :=
    match x.reg.st with
    | .loaded | .swapped =>
      if (x.issuable || x.busy) && x.sched.swapping == .none then
        if x.sched.runnableAt.isSome then x else { x with sched := { x.sched with runnableAt := some stamp } }
      else { x with sched := { x.sched with runnableAt := none } }
    | _ => { x with sched := { x.sched with runnableAt := none } }
  { s.setCtx c x with env := { s.env with fetchStamp := stamp } }

/-- Set a context's state. -/
def setSt (c : Nat) (st : CtxSt) (res : Bool) (s : State) : State :=
  s.modCtx c fun x => { x with reg := { x.reg with st := st, res := res } }

/-! ## Ending a command -/

/-- Statuses of R363 and R430. -/
inductive Status where
  | ok | okEmpty | cmd | desc | format | shape | overlap | form | capacity | owner | perm | state | epoch | kvSeq
  | kvLimit | brewStreams | job | link | peer | nofit | geometry | hostmem | aborted
  | vcParam | vcBusy | vcStream | vcBitstream | vcUnsupported | vcRetries | vcCore | vcShape
deriving DecidableEq, Repr

def Status.code : Status → Nat
  | .ok => 0x0000 | .okEmpty => 0x0001 | .cmd => 0x0101 | .desc => 0x0102 | .format => 0x0103 | .shape => 0x0104
  | .overlap => 0x0105 | .form => 0x0106 | .capacity => 0x0107 | .owner => 0x0108 | .perm => 0x0109 | .state => 0x010A
  | .epoch => 0x010B | .kvSeq => 0x010C | .kvLimit => 0x010D | .brewStreams => 0x010F | .job => 0x0110 | .link => 0x0111
  | .peer => 0x0112 | .nofit => 0x0113 | .geometry => 0x0114 | .hostmem => 0x0115 | .aborted => 0x0116
  | .vcParam => 0x0180 | .vcBusy => 0x0181 | .vcStream => 0x0182 | .vcBitstream => 0x0183 | .vcUnsupported => 0x0184
  | .vcRetries => 0x0185 | .vcCore => 0x0186 | .vcShape => 0x0187

/-- Is a status a failure that halts the ring (R359)? -/
def isFailure (status : Nat) : Bool := decide (0x0100 ≤ status) && status != 0x0116

/-- The form in which a tile's array is used: that of a command of any context in flight (R60), 0 when idle. -/
def tileForm (s : State) (g : Nat) : Nat :=
  ((definedCtxs s).findSome? fun c => (s.ctx c).cmds.findSome? fun m =>
    if m.phase = .issued ∨ m.phase = .acted then aget m.bound.forms g else none).getD 0

/-- Bring `FORM` and `BUSY` of tiles to what the commands in flight use (R71). -/
def fixForms (gs : List Nat) (s : State) : State :=
  forAll gs (fun g t => t.modTile g fun x => { x with
    form := tileForm t g, busy := tileForm t g != 0, gated := x.gated && tileForm t g == 0 }) s

/-- Tiles whose arrays a command uses. -/
def cmdTiles (s : State) (c q : Nat) : List Nat :=
  match getCmd s c q with
  | some m => m.bound.forms.map Prod.fst
  | none => []

/-- End a command with a status and detail words; its record is written by COMMAND_COMPLETE. -/
def finish (c q : Nat) (st : Status) (dw : List Nat) (s : State) : State :=
  fixForms (cmdTiles s c q) (modCmd c q (fun m => { m with phase := .done, status := st.code, dw := dw.map w32 }) s)

/-- End a command that counted events under R93 and set flags under R92. -/
def finishA (c q : Nat) (st : Status) (dw : List Nat) (aflags : Nat) (aq : List Nat) (s : State) : State :=
  modCmd c q (fun m => { m with aflags := BitVec.ofNat 8 aflags, aq := aq }) (finish c q st dw s)

/-- Opcodes whose effect the checks of later commands of the context see at once (R144, R207). -/
def shapesChecks (op : Nat) : Bool :=
  decide (0x02 ≤ op ∧ op ≤ 0x05) || decide (0x40 ≤ op ∧ op ≤ 0x46) || op == 0x48 || op == 0x49 || op == 0x4B
    || decide (0x50 ≤ op ∧ op ≤ 0x55) || op == 0x60 || op == 0x61

/-- Has an earlier command of the context, whose effect this one's checks saw, still to have it (log 48)? -/
def Ctx.behind (x : Ctx) (m : Cmd) : Bool :=
  x.cmds.any fun e => e.phase == .issued && shapesChecks e.opcode && decide (e.stamp < m.stamp)

/-- A command in flight that has issued and still has to do its work, after those whose effect its checks saw. One that
an evacuation interrupted goes on once its context is resident again (R403). -/
def running? (s : State) (c q : Nat) : Option Cmd :=
  match getCmd s c q with
  | some m =>
    if m.phase = .issued && (!m.interrupted || (s.ctx c).reg.res) && !(s.ctx c).behind m then some m else none
  | none => none

/-- Complete every fetched, unissued entry of a context with E_ABORTED (R344, R360). -/
def abortFetched (c : Nat) (s : State) : State :=
  s.modCtx c fun x => { x with cmds := x.cmds.map fun m =>
    if m.phase = .fetched then { m with phase := .done, status := Status.aborted.code } else m }

/-- The bytes of a completion record (R351). -/
def recordBytes (m : Cmd) (c : Nat) (phase : Bool) : List Byte :=
  toBytes 2 m.status ++ toBytes 1 m.opcode ++ toBytes 1 m.aflags.toNat ++ toBytes 4 m.seq ++ toBytes 4 m.tag
    ++ toBytes 4 (m.dw.getD 0 0).toNat ++ toBytes 4 (m.dw.getD 1 0).toNat ++ toBytes 4 (m.dw.getD 2 0).toNat
    ++ toBytes 4 (m.dw.getD 3 0).toNat ++ toBytes 4 (sh (b2n phase) 31 + c)

/-- The MSI-X vector of a context's completion ring (R367). -/
def cqVector (x : Ctx) (c : Nat) : Nat := if x.reg.func = 0 then 1 + c else 1 + x.reg.slot

/-- Send a completion ring's interrupt if it is due: `now`, or once `COUNT` records are unsignalled (R367). -/
def cqDue (c : Nat) (now : Bool) (s : State) : State :=
  let x := s.ctx c
  if x.irq.en && !x.ring.dead && (now || decide (x.irq.count.toNat ≤ x.irq.unsig)) then
    sendMsi x.reg.func (cqVector x c) (s.setCtx c { x with irq := { x.irq with unsig := 0 } })
  else s

/-- Count a record towards the interrupt, and send it when R367 says so. -/
def cqSignal (c : Nat) (now : Bool) (s : State) : State :=
  cqDue c now (s.modCtx c fun x => { x with irq := { x.irq with unsig := x.irq.unsig + 1 } })

/-- The counters of R93 after adding a command's counts, in one step. -/
def Aq.add (a : Aq) (n : List Nat) : Aq :=
  { trunc := a.trunc + BitVec.ofNat 64 (n.getD 0 0), vanish := a.vanish + BitVec.ofNat 64 (n.getD 1 0),
    zero := a.zero + BitVec.ofNat 64 (n.getD 2 0), poison := a.poison + BitVec.ofNat 64 (n.getD 3 0),
    sat := a.sat + BitVec.ofNat 64 (n.getD 4 0), nan := a.nan + BitVec.ofNat 64 (n.getD 5 0),
    iround := a.iround + BitVec.ofNat 64 (n.getD 6 0) }

/-- How far a SEQ lies behind `SEQ_NEXT`, modulo 2^32 (R359). -/
def behind (r : Ring) (q : Nat) : Nat := (r.seqNext.toNat + 2 ^ 32 - q) % 2 ^ 32

/-- The earliest unacknowledged failure in ring order (R359). -/
def Ring.haltFirst (r : Ring) : Option (Nat × Nat) :=
  r.halts.foldl (fun best h =>
    match best with
    | none => some h
    | some b => if behind r b.1 < behind r h.1 then some h else some b) none

/-- Entry of a ring into HALTED on a failure record (R359), with its event once for each acknowledgement. -/
def ringHalt (c q status : Nat) (s : State) : State :=
  let s := s.modCtx c fun x => { x with ring := { x.ring with halts := x.ring.halts ++ [(q, status)] } }
  let x := s.ctx c
  if x.ring.haltPosted then s
  else
    let h := x.ring.haltFirst.getD (q, status)
    postBoth x.reg.func 0x0002 0xFF c [h.1, h.2]
      (s.modCtx c fun x => { x with ring := { x.ring with haltPosted := true } })

/-- Remove a command from the window. -/
def dropCmd (c q : Nat) (s : State) : State :=
  s.modCtx c fun x => { x with cmds := x.cmds.filter fun m => m.seq != q }

/-- The ring's record writes have failed on the host side (R360): it halts with no record, for good. -/
def ringDead (c : Nat) (s : State) : State :=
  ringEvent c 1 (s.modCtx c fun x => { x with
    ring := { x.ring with dead := true }, cmds := x.cmds.filter fun m => m.phase != .fetched })

/-- Write the record of a finished command (R351, R353, R355, R359, R367). -/
def writeRecord (c : Nat) (m : Cmd) (s : State) : State :=
  let x := s.ctx c
  let a := x.ring.cqBase.toNat + 32 * x.ring.cqTail
  if hostFails s x.reg.func a 32 then ringDead c (dropCmd c m.seq s)
  else
    let s := hostWrite s x.reg.func a (recordBytes m c x.ring.cqPhase)
    let t := (x.ring.cqTail + 1) % x.ring.cqSize
    let s := s.modCtx c fun y => { y with
      ring := { y.ring with cqTail := t, cqPhase := if t = 0 then !y.ring.cqPhase else y.ring.cqPhase },
      prof := { y.prof with cmds := y.prof.cmds + 1 } }
    let s := dropCmd c m.seq s
    let s := cqSignal c (isFailure m.status || m.irq) s
    if isFailure m.status then ringHalt c m.seq m.status s else s

/-- Can the context's records be written: a free slot (R349), or a ring that takes none (R360)? -/
def recordRoom (s : State) (c : Nat) : Bool := (s.ctx c).ring.dead || (s.ctx c).ring.cqRoom

/-- The end of a finished command whose record can be written (R353): the counts of R93 are added, the record is written, the
window place is freed. -/
def recordCmd (c : Nat) (m : Cmd) (s : State) : State :=
  let s := s.modCtx c fun x => { x with aq := x.aq.add m.aq }
  if (s.ctx c).ring.dead then settle c (dropCmd c m.seq s) else settle c (writeRecord c m s)

/-- A record waits for the host link (R369). -/
def holdRecord (c q : Nat) (s : State) : State :=
  if s.pcie.recHeld.contains (c, q) then s else { s with pcie := { s.pcie with recHeld := s.pcie.recHeld ++ [(c, q)] } }

/-- COMMAND_COMPLETE (R353): the record of a finished command is written once its ring has room; during a failover it waits for
the link (R369). -/
def execCommandComplete (c q : Nat) (s : State) : Host.Outcome State Fault Refusal :=
  match getCmd s c q with
  | some m =>
    if m.phase = .done ∧ recordRoom s c then
      .next (if s.pcie.phase = .idle then recordCmd c m s else holdRecord c q s)
    else .next s
  | none => .next s

/-- NOP (R346): completes OK and touches nothing. -/
def execNop (c q : Nat) (s : State) : Host.Outcome State Fault Refusal :=
  match running? s c q with
  | some m => if m.opcode = 0x01 then .next (finish c q .ok [] s) else .next s
  | none => .next s

/-! ## Doorbells -/

/-- Does the context answer doorbells and acknowledgements (R349, R360, R399)? -/
def Ctx.ringLive (x : Ctx) : Bool := x.ring.st == .enabled && !x.ring.dead && x.reg.st != .lost

/-- The context of a doorbell page: only the functions have BAR2 (R342, R497). -/
def doorbellCtx (s : State) (src : Src) (page : Nat) : Option Nat :=
  match src with
  | .jtag => none
  | .i3c => none
  | _ => pageCtx s src page

/-- SQ_TAIL (R349): the host's earlier writes to its memory become visible with the doorbell (log 5). -/
def execSqTail (src : Src) (page : Nat) (value : BitVec 32) (cells : List (Nat × Byte)) (s : State) :
    Host.Outcome State Fault Refusal :=
  let s := { s with env := { s.env with hostMem := mwriteAll s.env.hostMem cells } }
  match doorbellCtx s src page with
  | none => .next s
  | some c =>
    let x := s.ctx c
    let t := value.toNat % 2 ^ 16
    if x.ringLive && decide (t < x.ring.sqSize) then
      .next (settle c (s.setCtx c { x with ring := { x.ring with sqTail := t } }))
    else .next (ringEvent c 4 s)

/-- CQ_HEAD (R349): frees the records up to the value, which must lie between the head and `CQ_TAIL`. -/
def execCqHead (src : Src) (page : Nat) (value : BitVec 32) (s : State) : Host.Outcome State Fault Refusal :=
  match doorbellCtx s src page with
  | none => .next s
  | some c =>
    let x := s.ctx c
    let h := value.toNat % 2 ^ 16
    if x.ringLive && decide (h < x.ring.cqSize)
        && decide ((h + x.ring.cqSize - x.ring.cqHead) % x.ring.cqSize ≤ x.ring.unread) then
      .next (s.setCtx c { x with ring := { x.ring with cqHead := h } })
    else .next (ringEvent c 4 s)

/-! ## Fetching -/

/-- Has the context entries to fetch that nothing of its own holds back (R143, R350, R383)? -/
def Ctx.fetchable (x : Ctx) (c : Nat) : Bool :=
  x.ring.st == .enabled && !x.ring.dead && (c == 0 || x.reg.res) && decide (x.cmds.length < 256)
    && decide (0 < x.ring.waiting)
    && match x.ring.refetch with
      | none => true
      | some q => x.ring.halts == [] && x.cmds.all fun m => m.seq != q

/-- First element after `k` in rising order, wrapping. -/
def nextAfter (l : List Nat) (k : Nat) : Option Nat :=
  match l.find? fun c => decide (k < c) with
  | some c => some c
  | none => l.head?

/-- Who gets the window place that frees, among the contexts of a partition (R383). -/
def nextFetcher (s : State) (p : Nat) : Option Nat :=
  let can := (residents s p).filter fun c => (s.ctx c).fetchable c
  let lc := can.filter fun c => (s.ctx c).reg.lc
  let be := can.filter fun c => !(s.ctx c).reg.lc
  match nextAfter lc (s.part2 p).rrLc with
  | some c => some c
  | none =>
    match (s.part2 p).slice with
    | some h => if be.contains h then some h else nextAfter be (s.part2 p).rrBe
    | none => nextAfter be (s.part2 p).rrBe

/-- May context c fetch now? With one place left in the device window, the order of R383 decides. -/
def mayFetch (s : State) (c : Nat) : Bool :=
  (s.ctx c).fetchable c && decide (winUsed s < 4096) && s.pcie.phase == .idle
    && !s.pkg.unroutable && (winUsed s != 4095 || c == 0 || nextFetcher s (s.ctx c).reg.part == some c)

/-- One entry arrives (R350): it takes the next SEQ; a failed fetch keeps its SEQ and its slot, so that the next fetch
takes them again (R372). -/
def fetchOne (c : Nat) (s : State) : State :=
  if mayFetch s c then
    let x := s.ctx c
    let q := x.ring.seqNext.toNat
    let a := x.ring.sqBase.toNat + 64 * x.ring.sqHead
    let stamp := s.env.fetchStamp + 1
    let new : Cmd :=
      { seq := q, entry := 0, phase := .fetched, stamp := stamp, bound := .none, status := 0, aflags := 0, dw := [],
        aq := [], issued := false, interrupted := false }
    let s := { s with env := { s.env with fetchStamp := stamp } }
    let s :=
      if hostFails s x.reg.func a 64 then
        let fa := hostFailAddr s x.reg.func a 64
        s.setCtx c { x with
          ring := { x.ring with refetch := some q },
          cmds := x.cmds ++ [{ new with
            phase := .done, status := Status.hostmem.code, dw := [w32 fa, w32 (fa / 2 ^ 32)] }] }
      else
        let e := BitVec.ofNat 512 (ofBytes (hostRead s x.reg.func a 64))
        let aborted := decide (0 < x.ring.flushLeft)
        s.setCtx c { x with
          ring := { x.ring with
            seqNext := x.ring.seqNext + 1, refetch := none, sqHead := (x.ring.sqHead + 1) % x.ring.sqSize,
            flushLeft := x.ring.flushLeft - 1 },
          cmds := x.cmds ++ [{ new with
            entry := e, phase := if aborted then .done else .fetched,
            status := if aborted then Status.aborted.code else 0 }] }
    let s := { s with winPeak := max s.winPeak (winUsed s) }
    let p := (s.ctx c).reg.part
    let s := if c ≠ 0 then s.modPart2 p fun y => if x.reg.lc then { y with rrLc := c } else { y with rrBe := c } else s
    let s := if c ≠ 0 ∧ 256 ≤ (s.ctx c).cmds.length then pseqEvent p 2 s else s
    let full := decide (4096 ≤ winUsed s)
    forAll (List.range 24)
      (fun p t => if full && (residents t p).any (fun c => (t.ctx c).fetchable c) then pseqEvent p 1 t else t) s
  else s

/-- Fetch up to n entries. -/
def fetchN (c : Nat) : Nat → State → State
  | 0, s => s
  | n + 1, s => fetchN c n (fetchOne c s)

/-- ENTRY_FETCH (R350): the arrival of up to n entries of a ring. -/
def execEntryFetch (c n : Nat) (s : State) : Host.Outcome State Fault Refusal :=
  .next (settle c (fetchN c (min n 64) s))

/-! ## Ring control -/

/-- Are a ring's base and size as R344 asks? -/
def ringCfgOk (base : DWord) (log2 : BitVec 5) : Bool :=
  base.toNat % 4096 == 0 && decide (6 ≤ log2.toNat ∧ log2.toNat ≤ 16)

/-- Context page writes reach a defined context that is not LOST, from the PF, its VF or the test port (R372, R399). -/
def pageWrite (s : State) (src : Src) (page : Nat) : Option Nat :=
  if mayWrite src then
    match pageCtx s src page with
    | some c => if (s.ctx c).reg.st = .lost then none else some c
    | none => none
  else none

/-- RING_ENABLE (R344): `EN` = 1 checks the configuration and resets the pointers. A ring whose record writes have failed leaves
its state by a reset alone (R360). -/
def execRingEnable (src : Src) (page : Nat) (s : State) : Host.Outcome State Fault Refusal :=
  match pageWrite s src page with
  | none => .next s
  | some c =>
    let x := s.ctx c
    if x.ring.dead then .next s else
    match x.ring.st with
    | .enabled => .next s
    | .draining => .next (ringEvent c 8 s)
    | .disabled =>
      if ringCfgOk x.ring.sqBase x.ring.sqLog2 && ringCfgOk x.ring.cqBase x.ring.cqLog2 then
        .next (settle c (s.setCtx c { x with
          ring := { x.ring with
            st := .enabled, halts := [], haltPosted := false, sqHead := 0, sqTail := 0, cqTail := 0, cqPhase := true,
            cqHead := 0, seqNext := 0, refetch := none, flushLeft := 0 },
          irq := { x.irq with unsig := 0 } }))
      else .next (ringEvent c 16 s)

/-- RING_DISABLE (R344): fetching stops, unissued entries end with E_ABORTED, the ring drains. -/
def execRingDisable (src : Src) (page : Nat) (s : State) : Host.Outcome State Fault Refusal :=
  match pageWrite s src page with
  | none => .next s
  | some c =>
    if (s.ctx c).ring.st = .enabled ∧ (s.ctx c).ring.dead = false then
      .next (settle c (abortFetched c (s.modCtx c fun x => { x with
        ring := { x.ring with st := .draining, refetch := none, flushLeft := 0 } })))
    else .next s

/-- RING_DRAINED (R344): with nothing in flight the draining ring enters DISABLED. -/
def execRingDrained (c : Nat) (s : State) : Host.Outcome State Fault Refusal :=
  let x := s.ctx c
  if x.ring.st = .draining ∧ x.ring.dead = false ∧ x.cmds = [] then
    .next (settle c (s.setCtx c { x with ring := { x.ring with st := .disabled } }))
  else .next s

/-- The context an acknowledgement reaches, and whether its ring is HALTED (R360, R399). -/
def ackCtx (s : State) (src : Src) (page : Nat) : Option (Nat × Bool) :=
  if mayWrite src then
    match pageCtx s src page with
    | some c => some (c, (s.ctx c).ringState == 2 && !(s.ctx c).ring.dead && (s.ctx c).reg.st != .lost)
    | none => none
  else none

/-- Every failure record written so far is acknowledged. -/
def ackHalts (c : Nat) (s : State) : State :=
  s.modCtx c fun x => { x with ring := { x.ring with halts := [], haltPosted := false } }

/-- RING_ACK_CONTINUE (R360): issue resumes at the first entry that has not issued. -/
def execRingAckContinue (src : Src) (page : Nat) (s : State) : Host.Outcome State Fault Refusal :=
  match ackCtx s src page with
  | none => .next s
  | some (c, true) => .next (settle c (ackHalts c s))
  | some (c, false) => .next (ringEvent c 2 s)

/-- RING_ACK_FLUSH (R360): every unissued entry up to the known tail ends with E_ABORTED; then issue resumes. -/
def execRingAckFlush (src : Src) (page : Nat) (s : State) : Host.Outcome State Fault Refusal :=
  match ackCtx s src page with
  | none => .next s
  | some (c, true) =>
    .next (settle c (abortFetched c (ackHalts c
      (s.modCtx c fun x => { x with ring := { x.ring with flushLeft := x.ring.waiting } }))))
  | some (c, false) => .next (ringEvent c 2 s)

/-- CQ_IRQ_TIMEOUT (R367): the coalescing time since the first unsignalled record has passed. -/
def execCqIrqTimeout (r : IrqRing) (s : State) : Host.Outcome State Fault Refusal :=
  match r with
  | .cq c =>
    let x := s.ctx c
    if x.irq.en && decide (0 < x.irq.unsig) && !x.ring.dead then
      .next (sendMsi x.reg.func (cqVector x c) (s.setCtx c { x with irq := { x.irq with unsig := 0 } }))
    else .next s
  | .evq f =>
    let x := s.fn f
    if x.irq.en && decide (0 < x.irq.unsig) then
      .next (sendMsi f 0 (s.setFn f { x with irq := { x.irq with unsig := 0 } }))
    else .next s

/-! ## Event ring control -/

/-- May the source write the function block: the PF and the test port the PF's, a VF its own (R373, R497)? -/
def fnWrite (s : State) (src : Src) (f : Nat) : Bool :=
  srcLive s src && !s.pkc.recovery && mayWrite src && f == srcFunc src

/-- EVQ_ENABLE (R344, R375): checks the base and size; a record owed for lost events is then written. -/
def execEvqEnable (src : Src) (f : Nat) (s : State) : Host.Outcome State Fault Refusal :=
  if fnWrite s src f then
    let x := s.fn f
    if x.en then .next s
    else if ringCfgOk x.base x.log2 then
      .next (payOverflow f (s.setFn f { x with
        en := true, head := 0, tail := 0, phase := true, eseq := 0, irq := { x.irq with unsig := 0 } }))
    else .next (fnEvent f 2 s)
  else .next s

/-- EVQ_HEAD (R375): frees consumed slots, after which a record owed for lost events is written (R366). -/
def execEvqHead (src : Src) (f : Nat) (value : BitVec 32) (s : State) : Host.Outcome State Fault Refusal :=
  if fnWrite s src f then
    let x := s.fn f
    let h := value.toNat % 2 ^ 16
    if x.en && decide (h < x.size) && decide ((h + x.size - x.head) % x.size ≤ x.used) then
      .next (payOverflow f (s.setFn f { x with head := h }))
    else .next (fnEvent f 8 s)
  else .next s

end Sys2Proof.Machine
end

