-- ==== Sys2Proof/Machine/Hbm.lean ====
section
/-! DEFINITION. External memory (section 11): the device address map, the pool and Caddy arrays of a partition,
granule records and keys, reads and writes under a key, and lost stacks. -/

namespace Sys2Proof.Machine

open Sys2Proof

/-- Bytes of an allocation unit, a unit and a granule (R288, R289). -/
def allocBytes : Nat := 3145728
def granBytes : Nat := 2048

/-- First device address past the last (R289). -/
def daEnd : Nat := Config.allocUnits * allocBytes

/-- The stack that holds a device address (R289). -/
def daStack (da : Nat) : Nat :=
  let u := da / 4096
  (u % 768 + u / 768) % 24

/-- The bridged slab of a device address. -/
def daSlab (da : Nat) : Nat := Config.stackSlab.getD (daStack da) 0

/-! ## Places on a stack (R288, R289)

A stack is 266,335 groups of 33 units; the 7 units above them and the last 2 KiB never hold data. -/

/-- Group of a device address, and the data unit of that group on its stack. -/
def groupOf (da : Nat) : Nat := da / 4096 / 768
def dataUnit (da : Nat) : Nat := da / 4096 % 768 / 24

/-- Local unit that holds a device address; local unit 33k is the group's metadata unit. -/
def localUnit (da : Nat) : Nat := 33 * groupOf da + 1 + dataUnit da

/-- Number of a granule within its group, 0 to 63. -/
def groupGranule (da : Nat) : Nat := 2 * dataUnit da + da / granBytes % 2

/-- Stack-local byte of an address, and of its granule's record. -/
def stackByte (da : Nat) : Nat := 4096 * localUnit da + da % 4096
def recordByte (da : Nat) : Nat := 4096 * (33 * groupOf da) + 64 * groupGranule da

/-- First local unit above the groups, the number kept for link training, and the bytes of a stack. -/
def trainUnit : Nat := 33 * Config.allocUnits
def trainUnits : Nat := 7
def stackBytes : Nat := 4096 * (trainUnit + trainUnits) + granBytes

/-! ## The firmware area (R290, R303) -/

/-- Is the address one of the firmware area? -/
def inFirmware (da : Nat) : Bool := decide (da < 256 * allocBytes)

/-- The other copy of a byte of the firmware area: 128 allocation units above, or below. -/
def fwOther (da : Nat) : Nat := if da < 128 * allocBytes then da + 128 * allocBytes else da - 128 * allocBytes

/-- The copies of a byte of the firmware area on stacks in service, the addressed one first. -/
def fwCopies (s : State) (da : Nat) : List Nat :=
  [da, fwOther da].filter fun a => !s.pkg.lostStacks.contains (daStack a)

/-! ## A partition's range (R290, R291) -/

def Part.top (p : Part) : Nat := (p.hbmBase + p.hbmUnits) * allocBytes
def Part.payloadBase (p : Part) : Nat := p.top - 32768 * p.leaves
def Part.footerBase (p : Part) : Nat := (p.payloadBase - 1024 * p.leaves) / 2048 * 2048
/-- First allocation unit above the pool. -/
def Part.poolEnd (p : Part) : Nat := p.footerBase / allocBytes
def Part.poolSize (p : Part) : Nat := p.poolEnd - p.hbmBase

/-- Allocation units a context holds: HBM regions, weight stores and swap store (R406). -/
def Ctx.units (x : Ctx) : List Nat :=
  x.regions.flatMap (fun r => r.2.units) ++ x.models.flatMap (fun m => m.2.units) ++ x.sched.swapUnits

/-- Allocation units in use in a partition's pool, substitutes included. -/
def usedUnits (s : State) (p : Nat) : List Nat :=
  (ctxsOf s p).flatMap (fun c => (s.ctx c).units) ++ (s.part2 p).subst

/-- `HBM_POOL_FREE` (R309). -/
def poolFree (s : State) (p : Nat) : Nat := (s.part p).poolSize - (usedUnits s p).length

/-- The lowest `n` units from `u` on that are not in use (R389). -/
def lowestFree (used : List Nat) (lim : Nat) : Nat → Nat → Nat → List Nat
  | 0, _, _ => []
  | fuel + 1, u, n =>
    if n = 0 ∨ lim ≤ u then []
    else if used.contains u then lowestFree used lim fuel (u + 1) n
    else u :: lowestFree used lim fuel (u + 1) (n - 1)

/-- The lowest free allocation units of a partition's pool. -/
def takeUnits (s : State) (p n : Nat) : List Nat :=
  let used := usedUnits s p
  lowestFree used (s.part p).poolEnd (n + used.length) (s.part p).hbmBase n

/-- Device address of a byte of a run of allocation units. -/
def unitsDa (units : List Nat) (o : Nat) : Nat := (units.getD (o / allocBytes) 0) * allocBytes + o % allocBytes

/-! ## Records and keys -/

def hrec (s : State) (g : Nat) : GranRec := tget (fun _ => GranRec.init) s.hbm.recs g

def setRec (s : State) (g : Nat) (r : GranRec) : State :=
  { s with hbm := { s.hbm with recs := tput (fun _ => GranRec.init) s.hbm.recs g r } }

/-- A context's memory key (R443): its number and the generation of its key. -/
def ctxKey (s : State) (c : Nat) : KeyOwner := .ctx c ((aget s.hbm.keyGen c).getD 0)

/-- A new memory key for a context. -/
def newKey (c : Nat) (s : State) : State :=
  { s with hbm := { s.hbm with keyGen := aput s.hbm.keyGen c ((aget s.hbm.keyGen c).getD 0 + 1) } }

/-- Does the device address lie in a Caddy footer array, whose granules are in half mode (R295)? -/
def isFooter (s : State) (da : Nat) : Bool :=
  (List.range 24).any fun p =>
    (s.part p).defd && decide ((s.part p).footerBase ≤ da ∧ da < (s.part p).payloadBase)

/-- Which half of its granule an address lies in. -/
def highHalf (da : Nat) : Bool := 1 ≤ da % granBytes / 1024

/-- State, counter and key of the granule, or half, at a device address. -/
def granAt (s : State) (da : Nat) : GranSt × BitVec 56 × KeyOwner :=
  let r := hrec s (da / granBytes)
  if isFooter s da && highHalf da then (r.st1, r.ctr1, r.key1) else (r.st0, r.ctr0, r.key0)

/-- Set state, counter and key of the granule, or half, at a device address. -/
def setGran (s : State) (da : Nat) (st : GranSt) (ctr : BitVec 56) (k : KeyOwner) : State :=
  let g := da / granBytes
  let r := hrec s g
  setRec s g (if isFooter s da && highHalf da then { r with st1 := st, ctr1 := ctr, key1 := k }
    else { r with st0 := st, ctr0 := ctr, key0 := k })

/-- Bytes that one integrity code covers at a device address. -/
def spanAt (s : State) (da : Nat) : Nat := if isFooter s da then 1024 else granBytes

/-- Why an access of HBM fails (R296, R300, R302): an uncorrectable codeword or a granule POISONED by one, a MAC, or a
counter that would wrap. -/
inductive HbmBad where
  | poisoned
  | mac
  | wrap
deriving DecidableEq, Repr

/-- Lost 4 KiB units in an allocation unit: 32 for each stack lost (R302). -/
def lostPerUnit (s : State) : Nat := 32 * s.pkg.lostStacks.length

/-- Allocation units of a partition whose lost units need a substitute: regions, stores and Caddy arrays (R302). -/
def lossUnits (s : State) (p : Nat) : List Nat :=
  let x := s.part p
  (ctxsOf s p).flatMap (fun c => (s.ctx c).units)
    ++ (if x.leaves = 0 then [] else (List.range (x.hbmBase + x.hbmUnits - x.poolEnd)).map fun i => x.poolEnd + i)

/-- Substitute units that a number of allocation units needs (R302). -/
def substNeed (s : State) (n : Nat) : Nat :=
  let alive := 24 - s.pkg.lostStacks.length
  if s.pkg.lostStacks = [] then 0 else cdiv (n * lostPerUnit s) (32 * alive)

/-- The partition in whose range an address lies. -/
def partOfDa (s : State) (da : Nat) : Option Nat :=
  (List.range 24).find? fun p =>
    (s.part p).defd && decide ((s.part p).hbmBase * allocBytes ≤ da ∧ da < (s.part p).top)

/-- 4 KiB units of an allocation unit whose stack is in service, ascending. -/
def liveSlots (lost : List Nat) (u : Nat) : List Nat := (List.range 768).filter fun j => !lost.contains ((j + u) % 24)

/-- Number of the 4 KiB unit `un` among the lost units of a partition: by allocation unit, then by place in it. -/
def lostIndex (s : State) (p : Nat) (lost : List Nat) (un : Nat) : Nat :=
  let k := un / 768
  ((lossUnits s p).filter fun u => decide (u < k)).length * (32 * lost.length)
    + ((List.range (un % 768)).filter fun j => lost.contains ((j + k) % 24)).length

/-- The 4 KiB unit that stores unit `un` when `lost` are the lost stacks (R302): itself, or its place in the substitutes;
none where no substitute covers it. -/
def homeUnit (s : State) (lost : List Nat) (un : Nat) : Option Nat :=
  if !lost.contains ((un % 768 + un / 768) % 24) then some un
  else
    match partOfDa s (un * 4096) with
    | none => none
    | some p =>
      if (lossUnits s p).contains (un / 768) then
        let n := lostIndex s p lost un
        let per := 32 * (24 - lost.length)
        ((s.part2 p).subst[n / per]?).map fun v => 768 * v + (liveSlots lost v).getD (n % per) 0
      else none

/-- Where a device address is stored (R289, R302). -/
def homeDa (s : State) (da : Nat) : Option Nat :=
  (homeUnit s s.pkg.lostStacks (da / 4096)).map fun v => 4096 * v + da % 4096

/-- The slab whose controller serves a device address; the retired one where nothing stores it. -/
def homeSlab (s : State) (da : Nat) : Nat := daSlab ((homeDa s da).getD da)

/-- Does a device address lie on a lost stack without a substitute (R302)? -/
def unbackedDa (s : State) (da : Nat) : Bool := (homeDa s da).isNone

/-- Can bytes at a device address be read under a key (R292, R296, R299, R300)? `found` is what the checks of the codes
find in a granule that is read, by its device index: the symbol code comes before the key. -/
def granBadF (s : State) (found : Option (Nat × HbmBad)) (key : KeyOwner) (da : Nat) : Option HbmBad :=
  let here := (found.filter fun f => f.1 == da / granBytes).map Prod.snd
  if unbackedDa s da then some .poisoned
  else
    match granAt s da with
    | (.unwritten, _, _) => none
    | (.poisoned, _, _) => some .poisoned
    | (.valid, _, k) => if here = some .poisoned then some .poisoned else if k = key then here else some .mac

/-- The same with nothing found. -/
def granBad (s : State) (key : KeyOwner) (da : Nat) : Option HbmBad := granBadF s none key da

/-- First failing device address of a read, checked granule by granule. -/
def readBad (s : State) (found : Option (Nat × HbmBad)) (key : KeyOwner) : Nat → Nat → Nat → Option (Nat × HbmBad)
  | 0, _, _ => none
  | fuel + 1, da, len =>
    if len = 0 then none
    else
      match granBadF s found key da with
      | some b => some (da, b)
      | none =>
        let step := spanAt s da - da % spanAt s da
        readBad s found key fuel (da + step) (len - step)

/-- Why a span cannot be written (R296): written in part, it must read well first; an unbacked unit takes no write; and
its counter must not wrap. -/
def spanBad (s : State) (found : Option (Nat × HbmBad)) (key : KeyOwner) (whole : Bool) (da : Nat) : Option HbmBad :=
  match (if whole && !unbackedDa s da then none else granBadF s found key da) with
  | some b => some b
  | none => if (granAt s da).2.1 = BitVec.allOnes 56 then some .wrap else none

/-- First failing device address of a write. -/
def writeBad (s : State) (found : Option (Nat × HbmBad)) (key : KeyOwner) : Nat → Nat → Nat → Option (Nat × HbmBad)
  | 0, _, _ => none
  | fuel + 1, da, len =>
    if len = 0 then none
    else
      let span := spanAt s da
      let step := span - da % span
      match spanBad s found key (da % span == 0 && decide (span ≤ len)) da with
      | some b => some (da, b)
      | none => writeBad s found key fuel (da + step) (len - step)

/-- Number of granules an access of `len` bytes can touch, as fuel. -/
def spanFuel (len : Nat) : Nat := len / 1024 + 2

/-- Read HBM bytes; an UNWRITTEN granule reads as zero because unlisted bytes do (R296). -/
def hbmRead (s : State) (da len : Nat) : List Byte := mread s.hbm.mem da len

/-- Mark the spans of a write VALID under the key, one counter step each (R296). -/
def markValid (key : KeyOwner) : Nat → Nat → Nat → State → State
  | 0, _, _, s => s
  | fuel + 1, da, len, s =>
    if len = 0 then s
    else
      let step := spanAt s da - da % spanAt s da
      let ctr := (granAt s da).2.1
      markValid key fuel (da + step) (len - step) (setGran s da .valid (ctr + 1) key)

/-- Write HBM bytes under a key. -/
def hbmWrite (key : KeyOwner) (da : Nat) (bs : List Byte) (s : State) : State :=
  let s := markValid key (spanFuel bs.length) da bs.length s
  { s with hbm := { s.hbm with mem := mwrite s.hbm.mem da bs } }

/-- Set the records of a range UNWRITTEN, counters 0: its bytes read as zero (R296, R297). The range is whole granules,
or one footer half. -/
def hbmUnwrite (da len : Nat) (s : State) : State :=
  let recs := s.hbm.recs.filterMap fun (g, r) =>
    if g * granBytes + granBytes ≤ da ∨ da + len ≤ g * granBytes then some (g, r)
    else if len < granBytes then
      some (g, if highHalf da then { r with st1 := .unwritten, ctr1 := 0, key1 := .session }
        else { r with st0 := .unwritten, ctr0 := 0, key0 := .session })
    else none
  { s with hbm := { s.hbm with mem := mclear s.hbm.mem da len, recs := recs.filter fun p => p.2 != GranRec.init } }

/-- Set the records of allocation units UNWRITTEN (R297). -/
def unwriteUnits (units : List Nat) (s : State) : State :=
  forAll units (fun u t => hbmUnwrite (u * allocBytes) allocBytes t) s

/-- Write bytes at an offset of a run of allocation units, 2 KiB at a time from a 2 KiB boundary; a granule that takes no
write is POISONED. -/
def putUnits (key : KeyOwner) (units : List Nat) (o : Nat) (bs : List Byte) (s : State) : State :=
  forAll (List.range (cdiv bs.length granBytes)) (fun i t =>
    let da := unitsDa units (o + granBytes * i)
    match spanBad t none key true da with
    | some _ => setGran t da .poisoned (granAt t da).2.1 key
    | none => hbmWrite key da ((bs.drop (granBytes * i)).take granBytes) t) s

/-! ## The record and its codes (R293 to R295) -/

/-- Which key of an owner: 0 with the session, or 1 + a context with the generation of its key (R298). -/
def KeyOwner.id (s : State) : KeyOwner → Nat × Nat
  | .session => (0, s.hbm.session)
  | .ctx c g => (c + 1, g)

/-- Tweak of a granule or half: device index, counter, and in bit 127 the half (R293, R295). -/
def xtsTweak (g : Nat) (ctr : BitVec 56) (hi : Bool) : BitVec 128 :=
  BitVec.ofNat 128 (g % 2 ^ 40 + sh ctr.toNat 40 + sh (b2n hi) 127)

/-- Nonce of its MAC: device index in bits 39:0 and counter above it, whose top bit is the half (R294, R295; log 49). -/
def macNonce (g : Nat) (ctr : BitVec 56) (hi : Bool) : BitVec 96 :=
  BitVec.ofNat 96 (g % 2 ^ 40 + sh ctr.toNat 40) ||| BitVec.ofNat 96 (sh (b2n hi) 95)

/-- The MAC of a granule, or of a half, over its ciphertext (R294). -/
def granMac (s : State) (g : Nat) (ctr : BitVec 56) (key : KeyOwner) (hi : Bool) (da len : Nat) : BitVec 64 :=
  Config.gmac (key.id s) (macNonce g ctr hi) (Config.xts (key.id s) (xtsTweak g ctr hi) (hbmRead s da len))

def GranSt.code : GranSt → Nat
  | .unwritten => 0
  | .valid => 1
  | .poisoned => 2

/-- The 64 bytes of a granule's record, as a number (R295). -/
def recordBits (s : State) (g : Nat) : Nat :=
  let r := hrec s g
  let da := g * granBytes
  let foot := isFooter s da
  let mac (st : GranSt) (ctr : BitVec 56) (k : KeyOwner) (hi : Bool) (a n : Nat) : Nat :=
    if st = .unwritten then 0 else (granMac s g ctr k hi a n).toNat
  mac r.st0 r.ctr0 r.key0 false da (if foot then 1024 else granBytes) + sh r.ctr0.toNat 64 + sh r.st0.code 120
    + (if foot then
        sh (mac r.st1 r.ctr1 r.key1 true (da + 1024) 1024) 128 + sh r.ctr1.toNat 192 + sh r.st1.code 248
      else 0)

/-! ## Whose bytes they are (R298) -/

/-- The context under whose key an area of HBM is, 0 for the session. -/
def daCtx (s : State) (da : Nat) : Nat :=
  let u := da / allocBytes
  match (definedCtxs s).find? fun c => (s.ctx c).units.contains u with
  | some c => c
  | none =>
    match partOfDa s da with
    | none => 0
    | some p =>
      let x := s.part p
      let leaf := if x.payloadBase ≤ da then some ((da - x.payloadBase) / 32768)
        else if x.footerBase ≤ da then some ((da - x.footerBase) / 1024) else none
      match leaf.bind fun l => aget (s.part2 p).leafTab l with
      | some r => r.2
      | none => 0

/-- The key of an area. -/
def daKey (s : State) (da : Nat) : KeyOwner := if daCtx s da = 0 then .session else ctxKey s (daCtx s da)

/-- `OWNER` of `HBM_ERR_LOG0` (R310): 0 region, 1 weight store, 2 Caddy, 3 firmware. -/
def areaOf (s : State) (da : Nat) : Nat :=
  if inFirmware da then 3
  else
    match (List.range 24).find? (fun p => (s.part p).defd && decide ((s.part p).footerBase ≤ da ∧ da < (s.part p).top)) with
    | some _ => 2
    | none => if (definedCtxs s).any (fun c => (s.ctx c).models.any fun m => m.2.units.contains (da / allocBytes)) then 1 else 0

/-- `KIND` of `HBM_ERR_LOG0` (R310). -/
def HbmBad.code : HbmBad → Nat
  | .poisoned => 0
  | .mac => 1
  | .wrap => 2

/-- Record a failed access on its controller (R300, R310): POISONED, counters, log and event. A counter that would wrap
moves no counter and raises `MACFAIL` (log 49). -/
def hbmFailLog (da : Nat) (bad : HbmBad) (s : State) : State :=
  let n := homeSlab s da
  let c := daCtx s da
  let s := setGran s da .poisoned (granAt s da).2.1 (granAt s da).2.2
  let half := b2n (isFooter s da && highHalf da)
  let s := s.modSlab2 n fun x => { x with hbm := { x.hbm with
    ue := if bad = .poisoned then x.hbm.ue + 1 else x.hbm.ue,
    macfail := if bad = .mac then x.hbm.macfail + 1 else x.hbm.macfail,
    err0 := w32 (sh bad.code 30 + sh half 29 + sh (areaOf s da) 27 + sh c 17),
    err1 := w32 (da / granBytes) } }
  hbmEvent n (if bad = .poisoned then 1 else 2) s

/-! ## Counting accesses (R310, R452) -/

/-- A controller reads or writes a granule, for a context or none. Which records its cache holds is not stated: a free
value decides between a hit and a miss. -/
def countGran (ctx : Option Nat) (da rd wr : Nat) (s : State) : State :=
  let r := s.takeFree 1
  let s := r.2
  let s := s.modSlab2 (homeSlab s da) fun x => { x with hbm := { x.hbm with
    rd := x.hbm.rd + BitVec.ofNat 64 rd, wr := x.hbm.wr + BitVec.ofNat 64 wr,
    mhit := if r.1 = 1 then x.hbm.mhit + 1 else x.hbm.mhit, mmiss := if r.1 = 1 then x.hbm.mmiss else x.hbm.mmiss + 1 } }
  match ctx with
  | none => s
  | some c => s.modCtx c fun x => { x with prof := { x.prof with
      hbmRd := x.prof.hbmRd + BitVec.ofNat 64 rd, hbmWr := x.prof.hbmWr + BitVec.ofNat 64 wr } }

/-- Count an access granule by granule (R296, R305): a read of an UNWRITTEN granule reads no data, a write that covers one
in part reads it first. -/
def countAcc (ctx : Option Nat) (wr : Bool) : Nat → Nat → Nat → State → State
  | 0, _, _, s => s
  | fuel + 1, da, len, s =>
    if len = 0 then s
    else
      let span := spanAt s da
      let step := span - da % span
      let whole := da % span == 0 && decide (span ≤ len)
      let data := (granAt s da).1 != .unwritten && (!wr || !whole)
      countAcc ctx wr fuel (da + step) (len - step) (countGran ctx da (b2n data) (b2n wr) s)

end Sys2Proof.Machine
end

