-- ==== Sys2Proof/Machine/Banks.lean ====
section
/-! DEFINITION. Tile banks (section 10): bytes, owners and their checks, refusals and their log, clearing, and who holds
a bank. -/

namespace Sys2Proof.Machine

open Sys2Proof

/-- Bytes of a bank. -/
def bankRead (s : State) (g k a n : Nat) : List Byte := mread s.bankMem (bankKey g k a) n

/-- Write bytes of a bank. -/
def bankWrite (g k a : Nat) (bs : List Byte) (s : State) : State :=
  { s with bankMem := mwrite s.bankMem (bankKey g k a) bs }

/-- A 32-bit word of a bank, little-endian. -/
def bankWord (s : State) (g k a : Nat) : Nat := ofBytes (bankRead s g k a 4)

/-- Clear a bank to zero data (R284). -/
def clearBank (g k : Nat) (s : State) : State :=
  { s with bankMem := mclear s.bankMem (bankKey g k 0) (2 ^ 21) }

/-- Clear every bank of a tile and make its owners NONE and unassigned (R284); what its lines are stays (R281). -/
def clearTile (g : Nat) (s : State) : State :=
  let s := { s with bankMem := mclear s.bankMem (bankKey g 0 0) (2 ^ 23) }
  let s := forAll (List.range 4) (fun k t => t.modBank (bankIx g k) fun b =>
    { b with owner := 0, peer := 0, holder := none, lastKey := none }) s
  s.modTile2 g fun x => { x with active := [], shadow := [], acc := [], walk := none, slots := Slots.init }

/-- Does the bank clear, so that accesses to it wait (R284)? -/
def bankClearing (s : State) (g k : Nat) : Bool := (s.bank (bankIx g k)).clearing

/-- The banks of a tile begin to clear, or have cleared. -/
def setClearing (on : Bool) (g : Nat) (s : State) : State :=
  forAll (List.range 4) (fun k t => t.modBank (bankIx g k) fun b => { b with clearing := on }) s

/-- Does some bank of a position clear? -/
def posClearing (s : State) (pos : Nat) : Bool :=
  (slabTiles pos).any fun g => (List.range 4).any fun k => bankClearing s g k

/-- A bank access waits for the clear to end (R284). -/
def holdAcc (i : Instr) (s : State) : State := { s with env := { s.env with waits := s.env.waits ++ [i] } }

/-- The spare lines of a bank that are neither in use nor unusable, and their number, `SPARE_LINES` (R280, R285). -/
def Bank.spares (b : Bank) : List Nat :=
  (List.range 8).filter fun i => !b.badSpares.contains i && !b.spared.any fun e => e.2 == i
def Bank.spareLines (b : Bank) : Nat := b.spares.length

/-- Kinds of command access (R266). -/
inductive CmdKind where
  | array
  | dma
  | vector
deriving DecidableEq, Repr

/-- What an access to a bank does, as `KIND` of `BANK_ERR_LOG0` codes it (R286). -/
inductive AccKind where
  | read | write | iadd | fadd | swap | set | clear
deriving DecidableEq, Repr

def AccKind.code : AccKind → Nat
  | .read => 0 | .write => 1 | .iadd => 2 | .fadd => 3 | .swap => 4 | .set => 5 | .clear => 6

/-- Who accesses a bank: the host window of a function, a coder core of a context, or the engine of a tile for a
command of a context. -/
inductive Agent where
  | window (func : Nat)
  | coder (slab ctx : Nat)
  | cmd (ctx tile : Nat) (kind : CmdKind)
deriving DecidableEq, Repr

/-- Does the bank's owner allow the access (R265)? -/
def ownerAdmits (s : State) (g k : Nat) (a : Agent) (kind : AccKind) : Bool :=
  let b := s.bank (bankIx g k)
  let holds (c : Nat) := b.holder == some c
  match a with
  | .window f =>
    (f == 0 && kind == .read) ||
      match b.holder with
      | none => false
      | some c => (s.ctx c).reg.func == f && (b.owner == 6 || (b.owner == 7 && kind != .write))
  | .coder _ c => b.owner == 7 && kind != .write && holds c
  | .cmd c t ck =>
    holds c &&
      match b.owner with
      | 1 => true
      | 2 => ck == .array
      | 3 => ck == .vector
      | 4 => ck == .dma
      | 5 => t == b.peer && t != g
      | 7 => kind != .write
      | _ => false

/-- `SRC` and `SRC_ID` of `BANK_ERR_LOG0` (R286). -/
def Agent.log (g : Nat) : Agent → Nat × Nat
  | .window f => (0, f)
  | .coder n _ => (1, n)
  | .cmd _ t _ => (if t = g then 2 else 3, t)

/-- The slab whose registers serve a position; the position itself where none serves it. -/
def bankSlab (s : State) (g : Nat) : Nat := (serverOf s (g / 64)).getD (g / 64)

/-- A refused access (R272): no byte changes; it is counted, logged and reported. -/
def ownerRefused (g k a : Nat) (ag : Agent) (kind : AccKind) (s : State) : State :=
  let n := bankSlab s g
  let (src, id) := ag.log g
  let s := s.modTile2 g fun x => { x with ownerRefused := x.ownerRefused + 1 }
  let s := s.modSlab2 n fun x => { x with
    bankErr0 := w32 (sh kind.code 28 + sh src 24 + sh id 8 + sh k 6 + g % 64), bankErr1 := w32 (a % 2 ^ 21) }
  bankEvent n 2 s

/-! ## Holding banks (R264, R268) -/

/-- The banks of a region: tile and bank. -/
def regionBanks (p : Part) (r : Region) : List (Nat × Nat) :=
  if r.space = .bank then (regionTiles p r).flatMap fun g => (maskBanks r.mask).map fun k => (g, k) else []

/-- The banks of a context's bank regions. -/
def ctxBanks (s : State) (c : Nat) : List (Nat × Nat) :=
  ((s.ctx c).regions.flatMap fun r => regionBanks (s.part (s.ctx c).reg.part) r.2).eraseDups

/-- A context takes a bank, with an owner: it clears when a different context held it last, and accesses wait until it
has (R268, R284). A context defined anew under the same id is a different one. -/
def takeBank (c owner peer : Nat) (gk : Nat × Nat) (s : State) : State :=
  let b := s.bank (bankIx gk.1 gk.2)
  let key := ctxKey s c
  let other := b.lastKey.isSome && b.lastKey != some key
  let s := if other then clearBank gk.1 gk.2 s else s
  s.modBank (bankIx gk.1 gk.2) fun x =>
    { x with holder := some c, lastKey := some key, owner := owner, peer := peer, clearing := x.clearing || other }

/-- A bank becomes NONE and unassigned (R268). -/
def releaseBank (gk : Nat × Nat) (s : State) : State :=
  s.modBank (bankIx gk.1 gk.2) fun x => { x with holder := none, owner := 0, peer := 0 }

/-- Is the tile in service in the partition (R269, R271): its position has a member? -/
def tileInService (s : State) (p g : Nat) : Bool :=
  decide (g < 6400) && (s.part p).covers (g / 64) && (serverOf s (g / 64)).isSome

/-! ## Swap (R386) -/

/-- The 2 KiB pieces of the bank regions that are no weight regions, in the order of the swap store: tile, bank, bank
byte address (log 49). -/
def swapPieces (s : State) (c : Nat) : List (Nat × Nat × Nat) :=
  (s.ctx c).regions.flatMap fun r =>
    if r.2.space = .bank ∧ r.2.model = none then
      (regionBanks (s.part (s.ctx c).reg.part) r.2).flatMap fun gk =>
        (List.range (r.2.len / 2048)).map fun i => (gk.1, gk.2, r.2.off + 2048 * i)
    else []

/-- The banks whose owner registers follow the pieces in the swap store, region by region. -/
def swapOwners (s : State) (c : Nat) : List (Nat × Nat) :=
  (s.ctx c).regions.flatMap fun r => regionBanks (s.part (s.ctx c).reg.part) r.2

/-- An owner register as the swap store keeps it: `OWNER` in bits 3:0, `PEER` from bit 16. -/
def ownerWord (b : Bank) : Nat := b.owner + sh b.peer 16

/-- What a swap-out writes (R386): the pieces, then the owner registers, in whole granules. -/
def swapImage (s : State) (c : Nat) : List Byte :=
  let own := (swapOwners s c).flatMap fun gk => toBytes 4 (ownerWord (s.bank (bankIx gk.1 gk.2)))
  ((swapPieces s c).flatMap fun x => bankRead s x.1 x.2.1 x.2.2 2048)
    ++ own ++ List.replicate (roundUp own.length granBytes - own.length) 0

/-- Granules of the swap store that a swap-out writes. -/
def swapGrans (s : State) (c : Nat) : Nat := (swapPieces s c).length + cdiv (4 * (swapOwners s c).length) granBytes

/-- Swap-out: bank bytes other than weights and the owner registers go to the swap store; the banks are released. -/
def swapOut (c : Nat) (s : State) : State :=
  let t := putUnits (ctxKey s c) (s.ctx c).sched.swapUnits 0 (swapImage s c) s
  let t := t.modCtx c fun x => { x with sched := { x.sched with stored := true } }
  forAll (ctxBanks s c) releaseBank t

/-- Bytes of a model's weight region in its weight store, by rank and bank (R391): offset of the region in the store. -/
def weightOff (s : State) (c m rid : Nat) : Nat :=
  match aget (s.ctx c).models m with
  | none => 0
  | some md =>
    ((md.regions.takeWhile (· != rid)).map fun i =>
      match aget (s.ctx c).regions i with
      | some r => r.tiles * (maskBanks r.mask).length * r.len
      | none => 0).sum

/-- The weight store's bytes of the i-th tile and b-th bank of a weight region. -/
def weightBytes (s : State) (c m rid i b : Nat) : List Byte :=
  match aget (s.ctx c).models m, aget (s.ctx c).regions rid with
  | some md, some r =>
    let o := weightOff s c m rid + (i * (maskBanks r.mask).length + b) * r.len
    (List.range r.len).map fun j => mget s.hbm.mem (unitsDa md.units (o + j))
  | _, _ => []

/-- Where the banks hold a byte of a weight store (R391): tile, bank and bank byte address, by regions from one on. -/
def weightCell (s : State) (c : Nat) : List Nat → Nat → Option (Nat × Nat × Nat)
  | [], _ => none
  | i :: l, o =>
    match aget (s.ctx c).regions i with
    | none => weightCell s c l o
    | some r =>
      let ks := maskBanks r.mask
      let n := r.tiles * ks.length * r.len
      if o < n then
        let j := o / r.len
        ((regionTiles (s.part (s.ctx c).reg.part) r)[j / ks.length]?).map fun g =>
          (g, ks.getD (j % ks.length) 0, r.off + o % r.len)
      else weightCell s c l (o - n)

/-- Load a context's weight regions from their weight stores on the tiles of a set (R32, R308, R386). -/
def loadWeightsAt (on : Nat → Bool) (c : Nat) (s : State) : State :=
  forAll ((s.ctx c).regions) (fun (rid, r) t =>
    match r.model with
    | none => t
    | some m =>
      let tiles := regionTiles (s.part (s.ctx c).reg.part) r
      forAll ((List.range tiles.length).filter fun i => on (tiles.getD i 0)) (fun i t =>
        forAll (List.range (maskBanks r.mask).length) (fun b t =>
          bankWrite (tiles.getD i 0) ((maskBanks r.mask).getD b 0) r.off (weightBytes s c m rid i b) t) t) t) s

/-- Load all of a context's weight regions. -/
def loadWeights (c : Nat) (s : State) : State := loadWeightsAt (fun _ => true) c s

/-- The owner register of the i-th bank of the swap store; the partition's default where none is stored. -/
def storedOwner (s : State) (c i : Nat) : Nat :=
  let o := 2048 * (swapPieces s c).length + 4 * i
  if (s.ctx c).sched.stored then ofBytes (hbmRead s (unitsDa (s.ctx c).sched.swapUnits o) 4)
  else (s.part (s.ctx c).reg.part).owner

/-- Swap-in: clear the banks, fill weight regions from their stores and the rest from the swap store, restore owners. -/
def swapIn (c : Nat) (s : State) : State :=
  let key := ctxKey s c
  let t := forAll (ctxBanks s c) (fun gk t =>
    let i := (swapOwners s c).findIdx (· == gk)
    let w := storedOwner s c i
    (clearBank gk.1 gk.2 t).modBank (bankIx gk.1 gk.2) fun b =>
      { b with holder := some c, lastKey := some key, owner := w % 16, peer := w / 2 ^ 16 }) s
  let t := loadWeights c t
  if (s.ctx c).sched.stored then
    forAll (swapPieces s c).zipIdx (fun x t =>
      bankWrite x.1.1 x.1.2.1 x.1.2.2 (hbmRead s (unitsDa (s.ctx c).sched.swapUnits (2048 * x.2)) 2048) t) t
  else t

/-- First granule of what a swap-in reads from the swap store that cannot be read (R300). -/
def swapBad (s : State) (c : Nat) : Option (Nat × HbmBad) :=
  if (s.ctx c).sched.stored then
    (List.range (swapGrans s c)).findSome? fun i =>
      let da := unitsDa (s.ctx c).sched.swapUnits (granBytes * i)
      (granBad s (ctxKey s c) da).map fun b => (da, b)
  else none

end Sys2Proof.Machine
end

