-- ==== Sys2Proof/Machine/Num.lean ====
section
/-! DEFINITION. Exact numbers and number formats (section 03): the values that elements decode to, exact sums
and products, the roundings of R84, R89 and R256, and the conversions of R89 and R90. -/

namespace Sys2Proof.Machine

/-- A number as the S100 sees an element: NaN, a signed infinity, or exactly `(-1)^neg * m * 2^e`. -/
inductive Num where
  | nan
  | inf (neg : Bool)
  | fin (neg : Bool) (m : Nat) (e : Int)
deriving DecidableEq, Repr, Inhabited

/-- Positive zero. -/
def Num.zero : Num := .fin false 0 0

/-- The number of an integer. -/
def Num.ofInt (i : Int) : Num := .fin (i < 0) i.natAbs 0

/-- 2^k as a natural number, 1 for a negative k. -/
def pow2 (k : Int) : Nat := 2 ^ k.toNat

/-- The signed integer `(-1)^neg * m * 2^(e - g)`, exact where `g ≤ e`. -/
def scaled (neg : Bool) (m : Nat) (e g : Int) : Int :=
  let v : Int := (m * pow2 (e - g) : Nat)
  if neg then -v else v

/-- Is the number a zero of either sign? -/
def Num.isZero : Num → Bool
  | .fin _ m _ => m == 0
  | _ => false

def Num.isNan : Num → Bool
  | .nan => true
  | _ => false

def Num.isInf : Num → Bool
  | .inf _ => true
  | _ => false

/-- Sign bit; NaN counts as positive, the sign of the canonical NaN (R78). -/
def Num.neg? : Num → Bool
  | .nan => false
  | .inf n => n
  | .fin n _ _ => n

def Num.negate : Num → Num
  | .nan => .nan
  | .inf n => .inf (!n)
  | .fin n m e => .fin (!n) m e

def Num.abs : Num → Num
  | .nan => .nan
  | .inf _ => .inf false
  | .fin _ m e => .fin false m e

/-- Exact sum, with the rules of IEEE 754 for infinities and for the sign of a zero sum. -/
def Num.add : Num → Num → Num
  | .nan, _ => .nan
  | _, .nan => .nan
  | .inf a, .inf b => if a == b then .inf a else .nan
  | .inf a, .fin .. => .inf a
  | .fin .., .inf b => .inf b
  | .fin n1 m1 e1, .fin n2 m2 e2 =>
    if m1 = 0 ∧ m2 = 0 then .fin (n1 && n2) 0 0
    else if m1 = 0 then .fin n2 m2 e2
    else if m2 = 0 then .fin n1 m1 e1
    else
      let g := min e1 e2
      let v := scaled n1 m1 e1 g + scaled n2 m2 e2 g
      if v = 0 then .fin false 0 0 else .fin (v < 0) v.natAbs g

def Num.sub (x y : Num) : Num := x.add y.negate

/-- Exact product (R82): infinity times zero is NaN. -/
def Num.mul : Num → Num → Num
  | .nan, _ => .nan
  | _, .nan => .nan
  | .inf a, .inf b => .inf (a != b)
  | .inf a, .fin n m _ => if m = 0 then .nan else .inf (a != n)
  | .fin n m _, .inf b => if m = 0 then .nan else .inf (n != b)
  | .fin n1 m1 e1, .fin n2 m2 e2 =>
    if m1 = 0 ∨ m2 = 0 then .fin (n1 != n2) 0 0 else .fin (n1 != n2) (m1 * m2) (e1 + e2)

/-- Exact order of two finite numbers or infinities; NaN is below nothing and above nothing. -/
def Num.lt : Num → Num → Bool
  | .nan, _ => false
  | _, .nan => false
  | .inf a, .inf b => a && !b
  | .inf a, .fin .. => a
  | .fin .., .inf b => !b
  | .fin n1 m1 e1, .fin n2 m2 e2 =>
    let g := min e1 e2
    decide (scaled n1 m1 e1 g < scaled n2 m2 e2 g)

def Num.le (x y : Num) : Bool := !x.isNan && !y.isNan && !(y.lt x)

def Num.eqv (x y : Num) : Bool := x.le y && y.le x

/-- A rounding mode: to nearest even, stochastic with the 32 bits y0 (R256), or to nearest with ties decided by
the direction σ (R84). -/
inductive Rnd where
  | ne
  | sr (y0 : Nat)
  | dir (sigma : Int)
deriving DecidableEq, Repr

/-- The magnitude `m / 2^sh` rounded to an integer; `neg` is the sign of the number. -/
def shiftRnd (r : Rnd) (neg : Bool) (m sh : Nat) : Nat :=
  let q := m >>> sh
  let rem := m - (q <<< sh)
  if rem = 0 then q
  else
    let twice := 2 * rem
    let u := 2 ^ sh
    match r with
    | .ne => if u < twice then q + 1 else if twice < u then q else q + q % 2
    | .sr y0 => if y0 * u < rem * 2 ^ 32 then q + 1 else q
    | .dir s =>
      if u < twice then q + 1
      else if twice < u then q
      else if s = 0 then q + q % 2
      else if (0 < s) != neg then q + 1
      else q

/-- The magnitude `m * 2^e` in units of `2^g`, rounded. -/
def toGrid (r : Rnd) (neg : Bool) (m : Nat) (e g : Int) : Nat :=
  if g ≤ e then m * pow2 (e - g) else shiftRnd r neg m (g - e).toNat

/-- How a floating-point format spends its top exponent code (R76). -/
inductive TopCode where
  | ieee
  | e4m3
  | none
deriving DecidableEq, Repr

/-- A floating-point format of R76. -/
structure FFmt where
  ew : Nat
  mw : Nat
  bias : Nat
  top : TopCode
deriving DecidableEq, Repr

def fp32 : FFmt := { ew := 8, mw := 23, bias := 127, top := .ieee }
def bf16 : FFmt := { ew := 8, mw := 7, bias := 127, top := .ieee }
def fp16 : FFmt := { ew := 5, mw := 10, bias := 15, top := .ieee }
def e4m3 : FFmt := { ew := 4, mw := 3, bias := 7, top := .e4m3 }
def e5m2 : FFmt := { ew := 5, mw := 2, bias := 15, top := .ieee }
def e2m1 : FFmt := { ew := 2, mw := 1, bias := 1, top := .none }

/-- Exponent of the least significant bit of a subnormal. -/
def FFmt.minLsb (f : FFmt) : Int := 1 - (f.bias : Int) - f.mw

/-- Largest finite significand and the exponent of its least significant bit (R76). -/
def FFmt.largest (f : FFmt) : Nat × Int :=
  match f.top with
  | .ieee => (2 ^ (f.mw + 1) - 1, ((2 ^ f.ew - 2 : Nat) : Int) - f.bias - f.mw)
  | .e4m3 => (2 ^ (f.mw + 1) - 2, ((2 ^ f.ew - 1 : Nat) : Int) - f.bias - f.mw)
  | .none => (2 ^ (f.mw + 1) - 1, ((2 ^ f.ew - 1 : Nat) : Int) - f.bias - f.mw)

/-- The canonical NaN (R78); for FP4, which has none, the code of +0 (R89). -/
def FFmt.canonNan (f : FFmt) : Nat :=
  match f.top with
  | .ieee => (2 ^ f.ew - 1) * 2 ^ f.mw + 2 ^ (f.mw - 1)
  | .e4m3 => 2 ^ (f.ew + f.mw) - 1
  | .none => 0

/-- The number a pattern of the format stands for (R76). -/
def FFmt.decode (f : FFmt) (bits : Nat) : Num :=
  let m := bits % 2 ^ f.mw
  let e := (bits >>> f.mw) % 2 ^ f.ew
  let s := (bits >>> (f.mw + f.ew)) % 2 == 1
  let allOnes := e == 2 ^ f.ew - 1
  match f.top, allOnes with
  | .ieee, true => if m = 0 then .inf s else .nan
  | .e4m3, true => if m = 2 ^ f.mw - 1 then .nan else .fin s (m + 2 ^ f.mw) ((e : Int) - f.bias - f.mw)
  | _, _ => if e = 0 then .fin s m f.minLsb else .fin s (m + 2 ^ f.mw) ((e : Int) - f.bias - f.mw)

/-- The sign bit in place. -/
def FFmt.signBit (f : FFmt) (neg : Bool) : Nat := if neg then 2 ^ (f.ew + f.mw) else 0

/-- The infinity of a format that has one. -/
def FFmt.infBits (f : FFmt) (neg : Bool) : Nat := f.signBit neg + (2 ^ f.ew - 1) * 2 ^ f.mw

/-- The pattern of the largest finite magnitude. -/
def FFmt.maxBits (f : FFmt) (neg : Bool) : Nat :=
  f.signBit neg +
    match f.top with
    | .ieee => (2 ^ f.ew - 1) * 2 ^ f.mw - 1
    | .e4m3 => 2 ^ (f.ew + f.mw) - 2
    | .none => 2 ^ (f.ew + f.mw) - 1

/-- Grid exponent of the format at a non-zero magnitude `m * 2^e`, its exponent range unbounded above (R89). -/
def FFmt.grid (f : FFmt) (m : Nat) (e : Int) : Int :=
  max (e + (Nat.log2 m : Int) - f.mw) f.minLsb

/-- The pattern of `q * 2^g`, already on the grid and within the range; a zero keeps the sign (DESIGN CHOICE, log 46). -/
def FFmt.pack (f : FFmt) (neg : Bool) (q : Nat) (g : Int) : Nat :=
  let (q, g) := if q = 2 ^ (f.mw + 1) then (q / 2, g + 1) else (q, g)
  f.signBit neg +
    if q < 2 ^ f.mw then q
    else (g + f.mw + f.bias).toNat * 2 ^ f.mw + (q - 2 ^ f.mw)

/-- What a conversion wrote: the bits, and whether it set `SAT` or `NAN` (R89). -/
structure Conv where
  bits : Nat
  sat : Bool
  nan : Bool
deriving DecidableEq, Repr

/-- Does `q * 2^g` exceed the largest finite magnitude? -/
def FFmt.beyond (f : FFmt) (q : Nat) (g : Int) : Bool :=
  let (lm, le) := f.largest
  let b := min g le
  decide (lm * pow2 (le - b) < q * pow2 (g - b))

/-- R89 for a floating-point destination. -/
def FFmt.convert (f : FFmt) (r : Rnd) : Num → Conv
  | .nan => { bits := f.canonNan, sat := false, nan := f.top != .none }
  | .inf n =>
    if f.top == .ieee then { bits := f.infBits n, sat := false, nan := false }
    else { bits := f.maxBits n, sat := true, nan := false }
  | .fin n m e =>
    if m = 0 then { bits := f.signBit n, sat := false, nan := false }
    else
      let g := f.grid m e
      let q := toGrid r n m e g
      if f.beyond q g then
        { bits := if f.top == .ieee then f.infBits n else f.maxBits n, sat := true, nan := false }
      else { bits := f.pack n q g, sat := false, nan := false }

/-- Range of a w-bit integer element (R77). -/
def intRange (w : Nat) (uns : Bool) : Int × Int :=
  if uns then (0, (2 ^ w : Nat) - 1) else (-((2 ^ (w - 1) : Nat) : Int), ((2 ^ (w - 1) : Nat) : Int) - 1)

/-- The w-bit two's complement pattern of an integer. -/
def intBits (w : Nat) (i : Int) : Nat := (i % ((2 ^ w : Nat) : Int)).toNat

/-- R89 for an integer destination of width w. -/
def convertInt (w : Nat) (uns : Bool) (r : Rnd) : Num → Conv
  | .nan => { bits := 0, sat := false, nan := false }
  | .inf n =>
    let (lo, hi) := intRange w uns
    { bits := intBits w (if n then lo else hi), sat := true, nan := false }
  | .fin n m e =>
    let (lo, hi) := intRange w uns
    let q := toGrid r n m e 0
    let v : Int := if n then -(q : Int) else q
    { bits := intBits w (max lo (min hi v)), sat := decide (v < lo ∨ hi < v), nan := false }

/-- The integer of a w-bit element (R77). -/
def decodeInt (w : Nat) (uns : Bool) (bits : Nat) : Int :=
  let b := bits % 2 ^ w
  if !uns && 2 ^ (w - 1) ≤ b then (b : Int) - (2 ^ w : Nat) else b

/-- An FP32 pattern decoded. -/
def dec32 (b : Nat) : Num := fp32.decode b

/-- RNE to FP32, as a pattern, overflowing to infinity. -/
def enc32 (x : Num) : Nat := (fp32.convert .ne x).bits

/-- RNE to FP32, as a number. -/
def rnd32 (x : Num) : Num := dec32 (enc32 x)

/-- FP32 addition, multiplication and fused multiply-add, each rounded once. -/
def fadd (a b : Num) : Num := rnd32 (a.add b)
def fsub (a b : Num) : Num := rnd32 (a.sub b)
def fmul (a b : Num) : Num := rnd32 (a.mul b)
def ffma (a b c : Num) : Num := rnd32 ((a.mul b).add c)

/-- A number that rounds as the exact quotient of two finite non-zero numbers does: 70 bits and a sticky bit. -/
def divSticky (n1 : Bool) (m1 : Nat) (e1 : Int) (n2 : Bool) (m2 : Nat) (e2 : Int) : Num :=
  let k := 70 + Nat.log2 m2
  let a := m1 <<< k
  let q := a / m2
  let st := if q * m2 = a then 0 else 1
  .fin (n1 != n2) (2 * q + st) (e1 - e2 - k - 1)

/-- The exact quotient as far as rounding can tell, with the rules of IEEE 754 for zeros and infinities. -/
def Num.div : Num → Num → Num
  | .nan, _ => .nan
  | _, .nan => .nan
  | .inf _, .inf _ => .nan
  | .inf a, .fin n _ _ => .inf (a != n)
  | .fin n _ _, .inf b => .fin (n != b) 0 0
  | .fin n1 m1 e1, .fin n2 m2 e2 =>
    if m2 = 0 then (if m1 = 0 then .nan else .inf (n1 != n2))
    else if m1 = 0 then .fin (n1 != n2) 0 0
    else divSticky n1 m1 e1 n2 m2 e2

def fdiv (a b : Num) : Num := rnd32 (a.div b)

/-- Bit-by-bit integer square root: `k` more bits of the root of `n`. -/
def isqrtGo (n : Nat) : Nat → Nat → Nat
  | 0, r => r
  | k + 1, r => if (r + 2 ^ k) * (r + 2 ^ k) ≤ n then isqrtGo n k (r + 2 ^ k) else isqrtGo n k r

/-- Integer square root. -/
def isqrt (n : Nat) : Nat := isqrtGo n (Nat.log2 n / 2 + 1) 0

/-- A number that rounds as the exact square root does. -/
def Num.sqrt : Num → Num
  | .nan => .nan
  | .inf n => if n then .nan else .inf false
  | .fin n m e =>
    if m = 0 then .fin n 0 0
    else if n then .nan
    else
      let (m, e) := if e % 2 = 0 then (m, e) else (2 * m, e - 1)
      let a := m <<< 128
      let q := isqrt a
      let st := if q * q = a then 0 else 1
      .fin false (2 * q + st) (e / 2 - 64 - 1)

/-- The higher and the lower of two FP32 numbers (R150): canonical NaN where either is NaN, -0 below +0. -/
def vMax (a b : Num) : Num :=
  if a.isNan || b.isNan then .nan
  else if a.lt b then b
  else if b.lt a then a
  else if a.neg? then b else a
def vMin (a b : Num) : Num :=
  if a.isNan || b.isNan then .nan
  else if a.lt b then a
  else if b.lt a then b
  else if a.neg? then a else b

/-- `k` of R90. -/
def blkK (w : Nat) (uns : Bool) : Int := (w : Int) - 2 + (if uns then 1 else 0)

/-- The largest magnitude of a block, infinities counted as the largest finite FP32 number (R90 step 3). -/
def blkMax (xs : List Num) : Num :=
  xs.foldl (fun acc x =>
    let y : Num := match x with
      | .inf _ => .fin false fp32.largest.1 fp32.largest.2
      | _ => x.abs
    if acc.lt y then y else acc) .zero

/-- What converting a block of 16 values wrote (R90): the exponent byte, the element bits, which elements set
`SAT`, and whether the exponent was clamped to 254. -/
structure BlkConv where
  exp : Nat
  elems : List Nat
  sats : List Bool
  expSat : Bool
  nan : Bool
deriving DecidableEq, Repr

/-- One element of a block under exponent code `code` (R90 step 4). -/
def blkElem (w : Nat) (uns : Bool) (code : Nat) (clamped : Bool) (r : Rnd) (x : Num) : Nat × Bool :=
  let (lo, hi) := intRange w uns
  match x with
  | .nan => (0, false)
  | .inf n => (intBits w (if n then lo else hi), true)
  | .fin n m e =>
    let q := toGrid r n m e ((code : Int) - 127)
    let v : Int := if n then -(q : Int) else q
    let out := decide (v < lo ∨ hi < v)
    (intBits w (max lo (min hi v)), out && (clamped || (uns && decide (v < 0))))

/-- R90, with one rounding mode for each element. -/
def convertBlk (w : Nat) (uns : Bool) (rs : List Rnd) (xs : List Num) : BlkConv :=
  if xs.any Num.isNan then
    { exp := 0xFF, elems := xs.map fun _ => 0, sats := xs.map fun _ => false, expSat := false, nan := true }
  else
    match blkMax xs with
    | .fin _ (m + 1) e =>
      let h : Int := e + (Nat.log2 (m + 1) : Int) - blkK w uns
      let code := (max 1 (min 254 (h + 127))).toNat
      let clamped := decide (254 < h + 127)
      let es := (xs.zip rs).map fun (x, r) => blkElem w uns code clamped r x
      { exp := code, elems := es.map Prod.fst, sats := es.map Prod.snd, expSat := clamped, nan := false }
    | _ => { exp := 0, elems := xs.map fun _ => 0, sats := xs.map fun _ => false, expSat := false, nan := false }

end Sys2Proof.Machine
end

