-- ==== Sys2Proof/Machine/Operands.lean ====
section
/-! DEFINITION. Operands (section 04): the fields of a descriptor, element addressing in the LINEAR, STREAM and
STATIONARY layouts, bit planes, swizzles, ranges, aliasing and overlap, bank pieces, and the reading and writing of
elements through a descriptor. -/

namespace Sys2Proof.Machine

open Sys2Proof

/-! ## Operand types (R73 to R75) -/

def tyFmt (t : Nat) : Nat := t % 16
def tyUns (t : Nat) : Bool := bit t 4

/-- Element width of a format code (R74, R99). -/
def fmtWidth : Nat → Nat
  | 0 => 32
  | 1 | 2 => 16
  | 5 | 7 | 10 => 4
  | 8 => 2
  | _ => 8

/-- Is the format code a block format? -/
def fmtBlk (f : Nat) : Bool := f == 9 || f == 10

/-- Integer and block codes, which `UNS` applies to (R75). -/
def fmtInt (f : Nat) : Bool := decide (6 ≤ f ∧ f ≤ 10)

/-- A type byte with no reserved bit or code, and `UNS` only where it applies (R73 to R75). -/
def tyOk (t : Nat) : Bool := decide (t < 32) && decide (tyFmt t ≤ 10) && (!tyUns t || fmtInt (tyFmt t))

/-- The floating-point format of a code. -/
def fmtF : Nat → FFmt
  | 1 => bf16
  | 2 => fp16
  | 3 => e4m3
  | 4 => e5m2
  | 5 => e2m1
  | _ => fp32

/-! ## Descriptor fields (R98) -/

def dField (d : Blob) (off w : Nat) : Nat := fld0 d.toNat off w
def dDtype (d : Blob) : Nat := dField d 0x00 8
def dRank (d : Blob) : Nat := dField d 0x01 3
def dKind (d : Blob) : Nat := fld d.toNat 0x02 4 2
def dLayout (d : Blob) : Nat := dField d 0x02 4
def dSwz (d : Blob) : Nat := dField d 0x03 4
def dPadMode (d : Blob) : Nat := dField d 0x04 2
def dRegion (d : Blob) : Nat := dField d 0x06 16
def dBase (d : Blob) : Nat := dField d 0x08 64
def dPadValue (d : Blob) : Nat := dField d 0x10 32
def dLead (d : Blob) : Nat := dField d 0x14 8
def dTrail (d : Blob) : Nat := dField d 0x15 8
def dSegs (d : Blob) : Nat := fld d.toNat 0x16 2 2
def dPlog (d : Blob) : Nat := dField d 0x16 2
def dExpOff (d : Blob) : Nat := dField d 0x18 64
def dSize (d : Blob) (k : Nat) : Nat := dField d (0x20 + 4 * k) 32
def dStride (d : Blob) (k : Nat) : Int := toSigned 64 (dField d (0x38 + 8 * k) 64)
def dSrc (d : Blob) : Nat := dField d 0x68 16
def dDst (d : Blob) : Nat := dField d 0x6A 16
def dPerm (d : Blob) (k : Nat) : Nat := bits (dField d 0x6C 32) (3 * k) 3

/-- Rank as used: a descriptor that passed R103 has 1 to 6 dimensions. -/
def dDims (d : Blob) : Nat := max 1 (min (dRank d) 6)

/-- Sizes of the dimensions. -/
def dSizes (d : Blob) : List Nat := (List.range (dDims d)).map (dSize d)

/-- S of `SEGS` (R98). -/
def dS (d : Blob) : Nat := 4 ^ dSegs d

/-- p of `PLOG`. -/
def dP (d : Blob) : Nat := 2 ^ dPlog d

/-- Width of an element in bits (R99). -/
def dWidth (d : Blob) : Nat := if dKind d = 1 then 32 else fmtWidth (tyFmt (dDtype d))

/-- Has the tensor a block format? -/
def dBlk (d : Blob) : Bool := dKind d == 0 && fmtBlk (tyFmt (dDtype d))

/-- Slice bytes (R108). -/
def sliceBytes (p w : Nat) : Nat := max 1 (p * w / 8)

def dSb (d : Blob) : Nat := sliceBytes (dP d) (dWidth d)

/-- K indices of a K block, word bytes (R109) and row bytes (R110) of an array layout. -/
def dKw (d : Blob) : Nat := 128 * dP d * dS d
def wordBytes (sb p segs : Nat) (blk : Bool) : Nat := 128 * segs * sb + (if blk then 8 * p * segs else 0)
def rowBytes (sb p : Nat) (blk : Bool) : Nat := 128 * sb + (if blk then 8 * p else 0)
def dWb (d : Blob) : Nat := wordBytes (dSb d) (dP d) (dS d) (dBlk d)
def dRb (d : Blob) : Nat := rowBytes (dSb d) (dP d) (dBlk d)
def dKBlocks (d : Blob) : Nat := cdiv (dSize d 0) (dKw d)

/-! ## Ranges, aliasing, overlap -/

/-- `lo` and `hi` of R104: the extreme element offsets of a LINEAR descriptor. -/
def dSpan (d : Blob) : Int × Int :=
  (List.range (dDims d)).foldl (fun acc k =>
    let v := ((dSize d k : Int) - 1) * dStride d k
    if v < 0 then (acc.1 + v, acc.2) else (acc.1, acc.2 + v)) (0, 0)

/-- Bytes of a STREAM's first bank (R109). -/
def streamReach (d : Blob) (nbanks : Nat) : Nat :=
  let q := dKBlocks d * (dLead d + dSize d 1 + dTrail d) * dWb d
  let c := cdiv q 2048
  let c1 := cdiv c nbanks
  if q = 0 then 0
  else if (c - 1) % nbanks = 0 then (c1 - 1) * 2048 + (q - (c - 1) * 2048) else c1 * 2048

/-- Bytes of a STATIONARY layout (R110). -/
def stationaryReach (d : Blob) : Nat := cdiv (dSize d 1) (128 / dS d) * dKBlocks d * 128 * dRb d

/-- The byte ranges a descriptor covers, first and last byte inclusive: R104, R109, R110. Empty ranges are left out. -/
def dRanges (d : Blob) (nbanks : Nat) : List (Int × Int) :=
  match dLayout d with
  | 0 =>
    if (dSizes d).any (· == 0) then []
    else
      let (lo, hi) := dSpan d
      let w : Int := dWidth d
      let main := (dBase d + lo * w / 8, dBase d + (hi * w + w - 1) / 8)
      if dBlk d then
        [main, ((dBase d : Int) + dExpOff d + lo / 16, (dBase d : Int) + dExpOff d + hi / 16)]
      else [main]
  | 1 => let r := streamReach d nbanks; if r = 0 then [] else [((dBase d : Int), (dBase d : Int) + r - 1)]
  | _ => let r := stationaryReach d; if r = 0 then [] else [((dBase d : Int), (dBase d : Int) + r - 1)]

/-- Do all ranges lie in a region of the length, and `BASE` too where nothing is covered (R104, R109)? -/
def dInside (d : Blob) (nbanks len : Nat) : Bool :=
  match dRanges d nbanks with
  | [] => decide (dBase d ≤ len)
  | rs => rs.all fun r => decide (0 ≤ r.1 ∧ r.2 < (len : Int))

/-- Insert by absolute stride. -/
def insStride (x : Nat × Nat) : List (Nat × Nat) → List (Nat × Nat)
  | [] => [x]
  | y :: r => if x.1 ≤ y.1 then x :: y :: r else y :: insStride x r

/-- Dimensions of size above 1 as (|stride|, size), ascending by stride. -/
def strideOrder (d : Blob) : List (Nat × Nat) :=
  (List.range (dDims d)).foldl (fun l k => if 1 < dSize d k then insStride ((dStride d k).natAbs, dSize d k) l else l) []

/-- Every stride exceeds the reach of those before it. -/
def distinctGo : List (Nat × Nat) → Nat → Bool
  | [], _ => true
  | (st, n) :: r, sum => decide (sum < st) && distinctGo r (sum + (n - 1) * st)

/-- Aliased under R105 (array layouts place every element once). -/
def dAliased (d : Blob) : Bool := dLayout d == 0 && !distinctGo (strideOrder d) 0

/-- Overlap under R116: the same region, and byte ranges that intersect. -/
def dOverlap (a b : Blob) (na nb : Nat) : Bool :=
  dRegion a == dRegion b &&
    (dRanges a na).any fun x => (dRanges b nb).any fun y => decide (x.1 ≤ y.2 ∧ y.1 ≤ x.2)

/-! ## Swizzles (R107) -/

/-- The field of `w` bits at `lo` XORed with the field of the same width at `from_`. -/
def xorField (a lo w from_ : Nat) : Nat := a ^^^ ((bits a from_ w) <<< lo)

/-- Physical bank address of an unswizzled one; in mode 5 both fields are taken from the unswizzled address (log 33). -/
def swizzle (mode a : Nat) : Nat :=
  match mode with
  | 1 => xorField a 7 4 11
  | 2 => xorField a 7 4 12
  | 3 => xorField a 7 4 13
  | 4 => xorField a 7 4 14
  | 5 => xorField a 7 4 11 ^^^ ((bits a 7 3) <<< 4)
  | _ => a

/-! ## An operand: a descriptor with its region -/

/-- A descriptor with what it needs to be accessed: its region, the region's tiles in rank order, the region's banks
and the function whose host memory it may name. -/
structure Opd where
  raw : Blob
  reg : Region
  tiles : List Nat
  banks : List Nat
  func : Nat
deriving DecidableEq, Repr

/-- An empty region, for a region id that names none. -/
def Region.empty : Region :=
  { space := .host, len := 0, mask := 0, first := 0, tiles := 0, off := 0, units := [], hostAddr := 0, model := none,
    claimed := false }

/-- The operand of a descriptor under a list of regions. -/
def mkOpd (s : State) (c : Nat) (regs : List (Nat × Region)) (d : Blob) : Opd :=
  let r := (aget regs (dRegion d)).getD Region.empty
  let x := s.ctx c
  { raw := d, reg := r, tiles := if r.space = .bank then regionTiles (s.part x.reg.part) r else [],
    banks := if r.space = .bank then maskBanks r.mask else [], func := x.reg.func }

/-- Is the operand bank-resident (R128)? -/
def Opd.resident (o : Opd) : Bool := o.reg.space == .bank

/-- Number of banks, 1 outside bank regions. -/
def Opd.nb (o : Opd) : Nat := max 1 o.banks.length

/-- Extent along a dimension, all pieces of a bank-resident operand joined along dimension 1 (R121, R130;
DEDUCED, log 46). -/
def Opd.size (o : Opd) (k : Nat) : Nat :=
  if k = 1 ∧ o.resident ∧ 2 ≤ dRank o.raw then dSize o.raw 1 * o.tiles.length else dSize o.raw k

/-- Does the operand supply n indices along dimension 1: exactly, or by pieces that cover them (R121, R130)? -/
def Opd.covers (o : Opd) (n : Nat) : Bool := if o.resident then decide (n ≤ o.size 1) else o.size 1 == n

/-- Extents of all dimensions. -/
def Opd.sizes (o : Opd) : List Nat := (List.range (dDims o.raw)).map o.size

/-- Extent along a dimension, 1 in dimensions beyond the rank: what rules compare that speak of sizes alone. -/
def Opd.ext (o : Opd) (k : Nat) : Nat := if k < dDims o.raw then o.size k else 1

/-- Do two operands have equal extents in the dimensions that are named? -/
def sameExt (ks : List Nat) (a b : Opd) : Bool := ks.all fun k => a.ext k == b.ext k

/-- Tile rank and index within its piece along dimension 1 (R130). -/
def Opd.piece (o : Opd) (i1 : Nat) : Nat × Nat :=
  let p := dSize o.raw 1
  if o.resident ∧ 2 ≤ dRank o.raw ∧ 0 < p then (i1 / p, i1 % p) else (0, i1)

/-- Element offset of coordinates in a LINEAR layout (R99). -/
def linOffset (d : Blob) (co : List Nat) : Int :=
  ((List.range (dDims d)).map fun k => ((co.getD k 0 : Nat) : Int) * dStride d k).sum

/-- Where an element, or the exponent byte of its block, lies: tile rank, index of the bank in the mask, byte offset
before swizzling, and its position in a plane block (R99, R100, R102, R108 to R110, R130). A LINEAR operand in a
region of several banks lies in the first bank of the mask (log 34). -/
def Opd.place (o : Opd) (co : List Nat) (exp : Bool) : Nat × Nat × Int × Nat :=
  let d := o.raw
  let w := dWidth d
  let (rank, i1) := o.piece (co.getD 1 0)
  let b := if w < 8 then 8 / w else 1
  match dLayout d with
  | 0 =>
    let e := linOffset d (co.set 1 i1)
    if exp then (rank, 0, (dBase d : Int) + dExpOff d + e / 16, 0)
    else (rank, 0, (dBase d : Int) + e * w / 8, (e % (b : Int)).toNat)
  | 1 =>
    let k := co.getD 0 0
    let kk := k % dKw d
    let q0 := (k / dKw d * (dLead d + dSize d 1 + dTrail d) + dLead d + i1) * dWb d
    let e := kk % dP d
    let q := if exp then q0 + 128 * dS d * dSb d + kk / 16 else q0 + kk / dP d * dSb d + e * w / 8
    let ch := q / 2048
    (rank, ch % o.nb, ((dBase d + ch / o.nb * 2048 + q % 2048 : Nat) : Int), if exp then 0 else e % b)
  | _ =>
    let k := co.getD 0 0
    let t := 128 / dS d
    let kk := k % dKw d
    let sl := kk / dP d
    let r := sl % 128
    let col := sl / 128 * t + i1 % t
    let row0 := dBase d + (i1 / t * dKBlocks d + k / dKw d) * 128 * dRb d
    let e := kk % dP d
    let g := 16 / dP d
    if exp then
      (rank, 0, ((row0 + (r - r % g + col / (8 * dP d)) * dRb d + 128 * dSb d + col % (8 * dP d) : Nat) : Int), 0)
    else (rank, 0, ((row0 + r * dRb d + col * dSb d + e * w / 8 : Nat) : Int), e % b)

/-! ## Cells -/

/-- A byte of one of the three spaces, by its key: a device address, a host key or a bank key. -/
structure CellAt where
  space : Space
  key : Nat
deriving DecidableEq, Repr

/-- The cell of a byte offset in a region: of the i-th tile and the b-th bank in a bank region. -/
def Opd.cell (o : Opd) (rank bankNo : Nat) (off : Int) : CellAt :=
  let a := off.toNat
  match o.reg.space with
  | .hbm => { space := .hbm, key := unitsDa o.reg.units a }
  | .host => { space := .host, key := hostKey o.func (o.reg.hostAddr + a) }
  | .bank => { space := .bank, key := bankKey (o.tiles.getD rank 0) (o.banks.getD bankNo 0) (swizzle (dSwz o.raw) (o.reg.off + a)) }

/-- The byte of a cell. -/
def cellGet (s : State) (x : CellAt) : Byte :=
  match x.space with
  | .hbm => mget s.hbm.mem x.key
  | .host => mget s.env.hostMem x.key
  | .bank => mget s.bankMem x.key

/-- The bytes of an element, or of its exponent. -/
def Opd.cells (o : Opd) (co : List Nat) (exp : Bool) : List CellAt :=
  let (rank, bk, off, _) := o.place co exp
  let n := if exp then 1 else max 1 (dWidth o.raw / 8)
  (List.range n).map fun (i : Nat) => o.cell rank bk (off + (i : Int))

/-- Bits i·b + j of a plane byte, ascending i: the w bits of element j (R100). -/
def planeBits (w j v : Nat) : Nat := ((List.range w).map fun i => b2n (bit v (i * (8 / w) + j)) * 2 ^ i).sum

/-- The plane byte of element j with the bits v, and the mask of its bits. -/
def planePut (w j v : Nat) : Nat := ((List.range w).map fun i => b2n (bit v i) * 2 ^ (i * (8 / w) + j)).sum

/-- The bytes of a slice of elements of width w, ascending K, at the bit positions of R100. A slice shorter than one byte
keeps those positions: element j has bit i at place i·(8/w) + j, and the places of the elements that are not there are
zero (DESIGN CHOICE, log 46: R108 pads such a slice with zero bits at the top). -/
def packSlice (w : Nat) (els : List Nat) : List Byte :=
  if 8 ≤ w then els.flatMap fun v => toBytes (w / 8) v
  else
    let b := 8 / w
    (List.range (max 1 (els.length * w / 8))).map fun i =>
      ((els.drop (b * i)).take b).zipIdx.foldl (fun acc t => acc ||| BitVec.ofNat 8 (planePut w t.2 t.1)) 0

/-- The bits of element e of a packed slice. -/
def unpackSlice (w e : Nat) (bs : List Byte) : Nat :=
  if 8 ≤ w then ofBytes ((bs.drop (e * (w / 8))).take (w / 8))
  else planeBits w (e % (8 / w)) (bs.getD (e / (8 / w)) 0).toNat

/-- Raw bits of the element at coordinates. -/
def Opd.rawAt (o : Opd) (s : State) (co : List Nat) : Nat :=
  let v := ofBytes ((o.cells co false).map (cellGet s))
  let w := dWidth o.raw
  if w < 8 then planeBits w (o.place co false).2.2.2 v else v

/-- Exponent byte of the block of an element. -/
def Opd.expAt (o : Opd) (s : State) (co : List Nat) : Nat := ofBytes ((o.cells co true).map (cellGet s))

/-- Value of an element of a type byte from its bits and, for a block format, its exponent (R76, R77, R79, R126). -/
def elemNum (kind t raw exp : Nat) : Num :=
  let f := tyFmt t
  if kind = 1 then Num.ofInt (decodeInt 32 false raw)
  else if fmtBlk f then
    if exp = 0 then .zero
    else if exp = 0xFF then .nan
    else
      let i := decodeInt (fmtWidth f) (tyUns t) raw
      .fin (i < 0) i.natAbs ((exp : Int) - 127)
  else if fmtInt f then Num.ofInt (decodeInt (fmtWidth f) (tyUns t) raw)
  else (fmtF f).decode raw

/-- Value of the element at coordinates. -/
def Opd.numAt (o : Opd) (s : State) (co : List Nat) : Num :=
  elemNum (dKind o.raw) (dDtype o.raw) (o.rawAt s co) (if dBlk o.raw then o.expAt s co else 0)

/-- Coordinates clamped into the extents (R112). -/
def Opd.clamp (o : Opd) (co : List Int) : List Nat :=
  (List.range (dDims o.raw)).map fun k => (max 0 (min ((o.size k : Int) - 1) (co.getD k 0))).toNat

/-- Do coordinates lie inside the extents? -/
def Opd.inBounds (o : Opd) (co : List Int) : Bool :=
  (List.range (dDims o.raw)).all fun k => decide (0 ≤ co.getD k 0 ∧ co.getD k 0 < (o.size k : Int))

/-! ## Writes -/

/-- A write of the bits of a byte under a mask (R101). -/
structure Wr where
  cell : CellAt
  mask : Byte
  val : Byte
deriving DecidableEq, Repr

/-- Writes of an element's bits. -/
def Opd.wrRaw (o : Opd) (co : List Nat) (v : Nat) : List Wr :=
  let w := dWidth o.raw
  let cs := o.cells co false
  if w < 8 then
    let j := (o.place co false).2.2.2
    cs.map fun x => { cell := x, mask := BitVec.ofNat 8 (planePut w j (2 ^ w - 1)), val := BitVec.ofNat 8 (planePut w j v) }
  else (cs.zip (toBytes (w / 8) v)).map fun (x, b) => { cell := x, mask := 0xFF, val := b }

/-- Write of a block's exponent byte. -/
def Opd.wrExp (o : Opd) (co : List Nat) (v : Nat) : List Wr :=
  (o.cells co true).map fun x => { cell := x, mask := 0xFF, val := BitVec.ofNat 8 v }

/-- Merge one write into its memory. -/
def putWr (s : State) (w : Wr) : State :=
  let v := (cellGet s w.cell &&& ~~~w.mask) ||| (w.val &&& w.mask)
  match w.cell.space with
  | .hbm => { s with hbm := { s.hbm with mem := mput s.hbm.mem w.cell.key v } }
  | .host => { s with env := { s.env with hostMem := mput s.env.hostMem w.cell.key v } }
  | .bank => { s with bankMem := mput s.bankMem w.cell.key v }

/-- The parts of a device address range, one integrity span each, that a list of addresses touches. -/
def spansOf (s : State) (das : List Nat) : List Nat := (das.map fun a => a - a % spanAt s a).eraseDups

/-- Mark the written spans VALID under a key, each once (R296). -/
def markSpans (key : KeyOwner) (das : List Nat) (s : State) : State :=
  forAll (spansOf s das) (fun a t => setGran t a .valid ((granAt t a).2.1 + 1) key) s

/-- The device addresses among a list of cells. -/
def hbmCells (l : List CellAt) : List Nat := (l.filter fun x => x.space == .hbm).map CellAt.key

/-- Apply all writes of a command of context c. -/
def applyWrs (c : Nat) (ws : List Wr) (s : State) : State :=
  ws.foldl putWr (markSpans (ctxKey s c) (hbmCells (ws.map Wr.cell)) s)

/-! ## Conversion into a destination (R89, R90) -/

/-- Convert one value to a non-block element of a descriptor. -/
def convElem (d : Blob) (r : Rnd) (x : Num) : Conv :=
  let t := dDtype d
  let f := tyFmt t
  if dKind d = 1 then convertInt 32 false r x
  else if fmtInt f then convertInt (fmtWidth f) (tyUns t) r x
  else (fmtF f).convert r x

/-- What converting a run of values along dimension 0 wrote: the writes, the `SAT` and `NAN` flags, and the saturation
events of R93. -/
structure Stored where
  wrs : List Wr
  sat : Bool
  nan : Bool
  events : Nat
deriving DecidableEq, Repr

def Stored.empty : Stored := { wrs := [], sat := false, nan := false, events := 0 }

def Stored.append (a b : Stored) : Stored :=
  { wrs := a.wrs ++ b.wrs, sat := a.sat || b.sat, nan := a.nan || b.nan, events := a.events + b.events }

/-- Store one value at coordinates of a destination without block format. -/
def Opd.storeOne (o : Opd) (co : List Nat) (r : Rnd) (x : Num) : Stored :=
  let v := convElem o.raw r x
  { wrs := o.wrRaw co v.bits, sat := v.sat, nan := v.nan, events := b2n v.sat }

/-- Store a block of 16 values whose first lies at the coordinates. -/
def Opd.storeBlk (o : Opd) (co : List Nat) (rs : List Rnd) (xs : List Num) : Stored :=
  let t := dDtype o.raw
  let v := convertBlk (fmtWidth (tyFmt t)) (tyUns t) rs xs
  let el := (List.range v.elems.length).flatMap fun i => o.wrRaw (co.set 0 (co.getD 0 0 + i)) (v.elems.getD i 0)
  { wrs := o.wrExp co v.exp ++ el, sat := v.expSat || v.sats.any id, nan := v.nan,
    events := b2n v.expSat + (v.sats.filter id).length }

/-- Store a whole row of values along dimension 0, element by element or block by block. -/
def Opd.storeRow (o : Opd) (co : List Nat) (rs : List Rnd) (xs : List Num) : Stored :=
  if dBlk o.raw then
    (List.range (xs.length / 16)).foldl (fun acc j =>
      acc.append (o.storeBlk (co.set 0 (16 * j)) ((rs.drop (16 * j)).take 16) ((xs.drop (16 * j)).take 16))) .empty
  else
    (List.range xs.length).foldl (fun acc i =>
      acc.append (o.storeOne (co.set 0 i) (rs.getD i .ne) (xs.getD i .zero))) .empty

/-! ## Coordinates -/

/-- All coordinates of a list of sizes, dimension 0 fastest. -/
def coordsOf : List Nat → List (List Nat)
  | [] => [[]]
  | n :: r => (coordsOf r).flatMap fun t => (List.range n).map fun i => i :: t

/-- Coordinates of every row: dimension 0 is 0. -/
def rowCoords (sizes : List Nat) : List (List Nat) :=
  match sizes with
  | [] => [[]]
  | _ :: r => (coordsOf r).map fun t => 0 :: t

/-- Number of elements. -/
def sizeProd (l : List Nat) : Nat := l.foldl (· * ·) 1

/-- Row-major index of coordinates, dimension 0 fastest (R113, R177). -/
def linIndex : List Nat → List Nat → Nat
  | n :: ns, i :: is => i + n * linIndex ns is
  | _, _ => 0

/-- Coordinates of an index in a list of sizes, dimension 0 fastest. -/
def unIndex : List Nat → Nat → List Nat
  | [], _ => []
  | n :: ns, i => (i % n) :: unIndex ns (i / n)

/-- R123: coordinates 2 and up of a batch index in a descriptor; none when the index is too large, or a size
is 0 (DEDUCED, log 46). -/
def batchCoords (sizes : List Nat) (b : Nat) : Option (List Nat) :=
  let up := sizes.drop 2
  if up.length = 0 then some []
  else if up.any (· == 0) then none
  else if sizeProd up ≤ b then none else some (unIndex up b)

/-- Footprints of an operand (R145); an operand that is no STREAM lies in the first bank of its mask (log 34). -/
def Opd.feet (o : Opd) (wr : Bool) : List Foot :=
  let mask := if dLayout o.raw = 1 then o.reg.mask else ((o.banks.head?).map fun k => 2 ^ k).getD o.reg.mask
  (dRanges o.raw o.nb).map fun r =>
    { rid := dRegion o.raw, reg := { o.reg with mask := mask }, lo := r.1, hi := r.2, wr := wr }

end Sys2Proof.Machine
end

