-- ==== Sys2Proof/Machine/Checks.lean ====
section
/-! DEFINITION. Checks at issue (R138, R139, R267, R352): refusals with their detail words, reserved fields, handles and
regions as later commands see them, the owner check, footprints and conflicts (R145). -/

namespace Sys2Proof.Machine

open Sys2Proof

/-- A refusal: its status and detail words. -/
structure Ref where
  st : Status
  dw : List Nat
deriving DecidableEq, Repr

/-- What the checks at issue decide. -/
inductive Verdict where
  | refuse (r : Ref)
  | empty
  | issue (b : Bound)
  /-- An append that does not obtain its leaves (R200): its sequence, and the leaves it needs. -/
  | noPage (seq need : Nat)
deriving DecidableEq, Repr

/-- A fault in the entry (R352): the lowest failing offset; `atStruct` adds the structure at fault. -/
def entryRef (st : Status) (off : Nat) : Ref := { st := st, dw := [sh 0xFFFF 16 + off % 256, 0xFFFFFFFF] }

/-- A fault inside a structure (R352, R547). -/
def structRef (st : Status) (handle off : Nat) : Ref := { st := st, dw := [sh handle 16 + 0xFF, off] }

/-- The statuses that can find a bound structure at fault (log 35). -/
def Status.ofStruct : Status → Bool
  | .desc | .format | .shape | .overlap => true
  | _ => false

/-- A fault at an entry field that names a bound structure names its handle too (R352, log 35). -/
def Ref.atStruct (r : Ref) (fields : List Nat) (bound : Nat → Option Nat) : Ref :=
  match r.dw with
  | [w, n] =>
    let off := w % 256
    if r.st.ofStruct && n == 0xFFFFFFFF && fields.contains off then
      match bound off with
      | some h => { r with dw := [sh h 16 + off, n] }
      | none => r
    else r
  | _ => r

/-- The lowest offset whose test fails. -/
def lowest (l : List (Bool × Nat)) : Option Nat :=
  l.foldl (fun b t => if t.1 then (match b with | none => some t.2 | some v => some (min v t.2)) else b) none

/-- One order of a check table over entry fields. -/
def chk (st : Status) (l : List (Bool × Nat)) : Option Ref := (lowest l).map (entryRef st)

/-- One order of a check table over fields of a structure. -/
def chkIn (st : Status) (handle : Nat) (l : List (Bool × Nat)) : Option Ref := (lowest l).map (structRef st handle)

/-- The first refusal of a list of orders. -/
def firstRef : List (Option Ref) → Option Ref
  | [] => none
  | some r :: _ => some r
  | none :: l => firstRef l

/-- Non-zero bytes of a range are reserved fields of their own. -/
def resvBytes (v off n : Nat) : List (Bool × Nat) :=
  (List.range n).map fun i => (fld0 v (off + i) 8 != 0, off + i)

/-- Reserved bits `w` from bit `lo` of the field at `off`. -/
def resvBits (v off lo w : Nat) : Bool × Nat := (fld v off lo w != 0, off)

/-- The reserved fields of the common header (R345). -/
def hdrResv (v : Nat) : List (Bool × Nat) :=
  resvBits v 0x01 0 6 :: (resvBytes v 0x02 2 ++ resvBytes v 0x0C 4)

/-- The body as a number, and its reserved bytes and header together. -/
def bodyResv (m : Cmd) (ranges : List (Nat × Nat)) : List (Bool × Nat) :=
  hdrResv m.entry.toNat ++ ranges.flatMap fun r => resvBytes m.entry.toNat r.1 (r.2 - r.1)

/-! ## Handles and regions -/

def handleObj (s : State) (c h : Nat) : Option Obj := aget (s.ctx c).handles h

/-- A bound data or index descriptor. -/
def getDesc (s : State) (c h : Nat) : Option Blob :=
  match handleObj s c h with
  | some (.desc d) => some d
  | _ => none

/-- A bound descriptor of a kind and layout. -/
def descIs (d : Option Blob) (kind layout : Nat) : Bool :=
  match d with
  | some d => dKind d == kind && dLayout d == layout
  | none => false

/-- A region of the context. -/
def getRegion (s : State) (c r : Nat) : Option Region := aget (s.ctx c).regions r

/-- The operand of a descriptor, with the regions as they stand. -/
def opdOf (s : State) (c : Nat) (d : Blob) : Opd := mkOpd s c (s.ctx c).regions d

/-- The operand of a handle, an all-zero descriptor where none is bound. -/
def opdH (s : State) (c h : Nat) : Opd := opdOf s c ((getDesc s c h).getD 0)

/-- A handle field: 0 to 4095, or 0xFFFF where that is allowed. -/
def badHandle (h : Nat) (noneOk : Bool) : Bool := !(decide (h < 4096) || (noneOk && h == 0xFFFF))

/-- Is the descriptor missing, not LINEAR, or not of one of the kinds? -/
def notLinear (s : State) (c h : Nat) (kinds : List Nat) : Bool :=
  match getDesc s c h with
  | some d => !(dLayout d == 0 && kinds.contains (dKind d))
  | none => true

/-- Does a descriptor lie on a weight region, which no command may write (R387)? -/
def onWeights (s : State) (c : Nat) (d : Blob) : Bool :=
  match getRegion s c (dRegion d) with
  | some r => r.model.isSome
  | none => false

/-- A destination must be LINEAR, not aliased (R105), and not on a weight region (R387). -/
def badDest (s : State) (c h : Nat) (kinds : List Nat) : Bool :=
  notLinear s c h kinds || dAliased ((getDesc s c h).getD 0) || onWeights s c ((getDesc s c h).getD 0)

/-- Overlap of the operands of two handles under R116. -/
def overlapH (s : State) (c h g : Nat) : Bool :=
  let a := opdH s c h
  let b := opdH s c g
  dOverlap a.raw b.raw a.nb b.nb

/-- Identical in all 128 bytes. -/
def sameDesc (s : State) (c h g : Nat) : Bool := (getDesc s c h).isSome && getDesc s c h == getDesc s c g

/-! ## Owners at issue (R267, R546) -/

/-- A bank access of a command: tile and bank, engine's tile, kind, whether it writes, and the lowest bank byte address of
the operand there, which a refusal reports (R286). -/
structure BankAcc where
  g : Nat
  k : Nat
  tile : Nat
  kind : CmdKind
  wr : Bool
  a : Nat
deriving DecidableEq, Repr

/-- Set the owner of every bank of a region (R269). -/
def ownRegion (c rid owner peer : Nat) (s : State) : State :=
  match getRegion s c rid with
  | none => s
  | some r => forAll (regionBanks (s.part (s.ctx c).reg.part) r)
      (fun gk t => t.modBank (bankIx gk.1 gk.2) fun b => { b with owner := owner, peer := peer }) s

/-- The owners as they will stand once every issued `BANK_OWN` of the context has taken effect (R267). -/
def ownView (s : State) (c : Nat) : State :=
  ((s.ctx c).cmds.filter fun m => m.phase == .issued && m.opcode == 0x4A).foldl
    (fun t m => ownRegion c (m.f 0x10 16) (m.fb 0x12 0 4) (m.fb 0x14 0 13) t) s

/-- Is the access admitted? -/
def accAdmitted (s : State) (c : Nat) (a : BankAcc) : Bool :=
  ownerAdmits s a.g a.k (.cmd c a.tile a.kind) (if a.wr then .write else .read)

/-- E_OWNER on the first access that its bank's owner does not allow (R267, R352). -/
def chkOwner (s : State) (c : Nat) (l : List BankAcc) : Option Ref :=
  let v := ownView s c
  (l.find? fun a => !accAdmitted v c a).map fun a => { st := .owner, dw := [a.g, a.k] }

/-- Ranks of the tiles that hold elements of a bank operand whose dimension 1 lies below `n`. -/
def Opd.ranks (o : Opd) (n : Nat) : List Nat :=
  if o.resident then
    if dRank o.raw < 2 then [0]
    else (List.range o.tiles.length).filter fun i => decide (i * dSize o.raw 1 < n)
  else []

/-- The banks in which an operand's elements lie: all of the mask for a STREAM, otherwise the first. -/
def Opd.usedBanks (o : Opd) : List Nat := if dLayout o.raw = 1 then o.banks else o.banks.take 1

/-- The lowest bank byte address of a bank operand in each of its banks. -/
def Opd.lowAddr (o : Opd) : Nat :=
  match o.feet false with
  | f :: fs => (fs.foldl (fun a e => min a (e.lo + (o.reg.off : Int))) (f.lo + (o.reg.off : Int))).toNat
  | [] => o.reg.off

/-- Accesses to the banks of an operand on the i-th tile of its region, by the engine of a tile. -/
def Opd.accOn (o : Opd) (kind : CmdKind) (wr : Bool) (tile i : Nat) : List BankAcc :=
  o.usedBanks.map fun k => { g := o.tiles.getD i 0, k := k, tile := tile, kind := kind, wr := wr, a := o.lowAddr }

/-- What staging does to a tile's own banks of the region: the DMA engine writes them, the array reads them. -/
def Opd.stageAccs (o : Opd) (g : Nat) : List BankAcc :=
  o.banks.flatMap fun k =>
    [{ g := g, k := k, tile := g, kind := .dma, wr := true, a := o.reg.off },
     { g := g, k := k, tile := g, kind := .array, wr := false, a := o.reg.off }]

/-- Accesses of a bank operand, with the engine's tile for each rank. -/
def Opd.accs (o : Opd) (n : Nat) (kind : CmdKind) (wr : Bool) (eng : Nat → Nat) : List BankAcc :=
  (o.ranks n).flatMap fun i => o.accOn kind wr (eng i) i

/-- The tile that the sequencer assigns to index i1 along dimension 1 of a data-traffic or vector command: the tile of
the destination's piece, where the destination lies in banks (log 36). -/
def Opd.tileFor (d : Opd) (i1 : Nat) : Option Nat := if d.resident then d.tiles[(d.piece i1).1]? else none

/-- Accesses of a data-traffic or vector command with a destination and sources, all of one kind. -/
def trafficAccs (srcs : List Opd) (d : Opd) (kind : CmdKind) : List BankAcc :=
  srcs.flatMap (fun o => o.accs (o.size 1) kind false
      (fun i => (d.tileFor (i * dSize o.raw 1)).getD (o.tiles.getD i 0)))
    ++ d.accs (d.size 1) kind true (fun i => d.tiles.getD i 0)

/-! ## Conflicts (R145) -/

/-- Two bank ranges that meet in some bank. -/
def bankFootMeet (a b : Foot) : Bool :=
  (a.reg.mask &&& b.reg.mask) != 0
    && decide (a.reg.first < b.reg.first + b.reg.tiles ∧ b.reg.first < a.reg.first + a.reg.tiles)
    && decide (a.lo + (a.reg.off : Int) ≤ b.hi + (b.reg.off : Int) ∧ b.lo + (b.reg.off : Int) ≤ a.hi + (a.reg.off : Int))

/-- Do two footprints conflict? Host regions meet by the host bytes that they name. -/
def footMeet (a b : Foot) : Bool :=
  (a.wr || b.wr) &&
    if a.reg.space == .bank && b.reg.space == .bank then bankFootMeet a b
    else if a.reg.space == .host && b.reg.space == .host then
      decide (a.lo + (a.reg.hostAddr : Int) ≤ b.hi + (b.reg.hostAddr : Int)
        ∧ b.lo + (b.reg.hostAddr : Int) ≤ a.hi + (a.reg.hostAddr : Int))
    else a.rid == b.rid && decide (a.lo ≤ b.hi ∧ b.lo ≤ a.hi)

/-- Does the command wait under R145 for an earlier one of its context that has not finished its accesses? -/
def hazardWait (s : State) (c : Nat) (m : Cmd) : Bool :=
  (s.ctx c).cmds.any fun e => e.phase == .issued && decide (e.stamp < m.stamp)
    && e.bound.foots.any fun a => m.bound.foots.any fun b => footMeet a b

/-- Does the command need the host link while a failover holds it (R369): a model image, or an operand in host memory? -/
def hostWaits (s : State) (m : Cmd) : Bool :=
  s.pcie.phase != .idle && (m.opcode == 0x54 || m.bound.foots.any fun f => f.reg.space == .host)

/-- Must the command wait, for the host link (R369), under R145 or under R284 for a bank that clears? -/
def mustWait (s : State) (c : Nat) (m : Cmd) : Bool :=
  (m.bound.foots.any fun f => (regionBanks (s.part (s.ctx c).reg.part) f.reg).any fun gk => bankClearing s gk.1 gk.2)
    || hazardWait s c m || hostWaits s m

/-- The command at a row: issued, of the row's opcode, and free to touch its bytes. -/
def ready? (s : State) (c q op : Nat) : Option Cmd :=
  match running? s c q with
  | some m => if m.opcode = op ∧ mustWait s c m = false then some m else none
  | none => none

/-- Bind the objects of handles (R144). -/
def bindObjs (s : State) (c : Nat) (hs : List Nat) : List (Nat × Obj) :=
  hs.filterMap fun h => (handleObj s c h).map fun o => (h, o)

/-- The contents of a tile's function slots under a selection of banks (R152, R159), as they stand: an expert write
reaches the commands that are bound to the bank (R160). -/
def slotsAt (s : State) (g : Nat) (sel : BitVec 8) : List SlotBank :=
  let v := (s.tile2 g).slots
  (List.range 8).map fun k => if bit sel.toNat k then v.bank1.getD k .empty else v.bank0.getD k .empty

/-- The first tile, by Morton rank, of the slab that runs a context's partition sequencer. -/
def seqTile (s : State) (c : Nat) : Nat := 64 * posOf s (seqSlab s (s.ctx c).reg.part)

/-- The tile that computes index i1 of a vector command: the tile of the destination's piece, or of the source's, or where
neither lies in banks the first tile of the sequencer's slab (log 36). -/
def vecTile (s : State) (c : Nat) (d x : Opd) (i1 : Nat) : Nat := ((d.tileFor i1).orElse fun _ => x.tileFor i1).getD (seqTile s c)

/-- The active banks of a context's partition, as a command binds them at issue. -/
def activeSlots (s : State) (c : Nat) : BitVec 8 := (s.slab (seqSlab s (s.ctx c).reg.part)).vec.active

/-- What a command that names handles binds at issue. -/
def mkBound (s : State) (c : Nat) (hs : List Nat) (feet : List Foot) : Bound :=
  { Bound.none with
    objs := bindObjs s c hs, regs := (s.ctx c).regions, key := (s.ctx c).key, slots := activeSlots s c, foots := feet,
    earlier := ((s.ctx c).cmds.filter fun m => m.phase != .fetched).map Cmd.seq }

/-- The bound object of a handle. -/
def Cmd.obj (m : Cmd) (h : Nat) : Option Obj := aget m.bound.objs h

/-- The bound descriptor of a handle, as an operand. -/
def Cmd.opd (m : Cmd) (s : State) (c h : Nat) : Opd :=
  match m.obj h with
  | some (.desc d) => mkOpd s c m.bound.regs d
  | _ => mkOpd s c m.bound.regs 0

/-- A command draws from a stream (R251): the verdict of the stream check, which comes last (R252). -/
def chkStream (s : State) (c id off : Nat) : Option Ref :=
  match aget (s.ctx c).streams id with
  | some e => if e.exhausted then some { st := .state, dw := [sh 0xFFFF 16 + off, 0xFFFFFFFF, id] } else none
  | none => if 256 ≤ (s.ctx c).streams.length then some { st := .brewStreams, dw := [id] } else none

/-- The verdict of a list of checks, and what the command binds if all pass. -/
def verdict (checks : List (Option Ref)) (b : Bound) : Verdict :=
  match firstRef checks with
  | some r => .refuse r
  | none => .issue b

/-- The verdict where an empty command ends with OK_EMPTY between two parts of its checks (R122). -/
def verdictE (before : List (Option Ref)) (isEmpty : Bool) (after : List (Option Ref)) (b : Bound) : Verdict :=
  match firstRef before with
  | some r => .refuse r
  | none => if isEmpty then .empty else verdict after b

end Sys2Proof.Machine
end

