-- ==== Sys2Proof/Machine/Loss.lean ====
section
/-! DEFINITION. Leaves and their release (R184, R195, R202, R203), freeing what a context holds (R389, R401), swap
stores and substitute units (R302, R389), and the loss of a context (R398, R399). -/

namespace Sys2Proof.Machine

open Sys2Proof

/-! ## Leaves -/

/-- `KV_FREE` of a partition. -/
def kvFree (s : State) (p : Nat) : Nat := (s.part p).leaves - (s.part2 p).leafTab.length

/-- Tokens in a leaf (R186) and bytes of a row. -/
def KvSeq.tl (q : KvSeq) : Nat := if q.kfmt = 1 then 256 else 128
def KvSeq.d (q : KvSeq) : Nat := if q.dcode = 1 then 128 else 64
def KvSeq.kb (q : KvSeq) : Nat := q.d * (if q.kfmt = 1 then 4 else 8) / 8

/-- Blocks that a number of tokens needs. -/
def KvSeq.blocks (q : KvSeq) (n : Nat) : Nat := cdiv n q.tl

/-- Device address of a byte of a sequence's leaf table. -/
def tableDa (s : State) (c : Nat) (q : KvSeq) (o : Nat) : Nat :=
  unitsDa (((getRegion s c q.region).map Region.units).getD []) o

/-- Offset of the entry of head h, block b (R190). -/
def entryOff (q : KvSeq) (h b : Nat) : Nat := 0x40 + 4 * (h * q.nb + b)

/-- The table entry of a head and block: its leaf, if valid. -/
def seqLeaf (s : State) (c : Nat) (q : KvSeq) (h b : Nat) : Option Nat :=
  let v := ofBytes (hbmRead s (tableDa s c q (entryOff q h b)) 4)
  if bit v 31 then some (v % 2 ^ 24) else none

/-- Leaves of a sequence at blocks from `b0` on, over all heads. -/
def seqLeaves (s : State) (c : Nat) (q : KvSeq) (b0 : Nat) : List Nat :=
  (List.range q.h).flatMap fun h => (List.range (q.nb - b0)).filterMap fun i => seqLeaf s c q h (b0 + i)

/-- `REFS` of a leaf. -/
def leafRefs (s : State) (p l : Nat) : Nat := ((aget (s.part2 p).leafTab l).map Prod.fst).getD 0

/-- Release a leaf once (R202). -/
def releaseLeaf (p l : Nat) (s : State) : State :=
  let x := s.part2 p
  let tab := match aget x.leafTab l with
    | some (r, o) => if r ≤ 1 then adel x.leafTab l else aput x.leafTab l (r - 1, o)
    | none => x.leafTab
  s.setPart2 p { x with leafTab := tab }

/-- Invalidate the LAB entries of a sequence on every member slab (R195). -/
def labInvalidate (c seq : Nat) (s : State) : State :=
  forAll (members s (s.ctx c).reg.part) (fun n t => t.modSlab2 n fun x =>
    let gone := x.lab.filter fun e => e.ctx == c && e.seq == seq
    { x with
      lab := x.lab.filter fun e => !(e.ctx == c && e.seq == seq), labInval := x.labInval + BitVec.ofNat 64 gone.length }) s

/-- Free a sequence (R202): release its leaves, unbind it, leave its region allocated. -/
def freeSeq (c id : Nat) (s : State) : State :=
  match aget (s.ctx c).seqs id with
  | none => s
  | some q =>
    let s := forAll (seqLeaves s c q 0) (fun l t => releaseLeaf (s.ctx c).reg.part l t) s
    labInvalidate c id (s.modCtx c fun x => { x with
      seqs := adel x.seqs id,
      regions := x.regions.map fun r => if r.1 = q.region then (r.1, { r.2 with claimed := false }) else r })

/-- Free every sequence of a context (R203). -/
def freeSeqs (c : Nat) (s : State) : State := forAll ((s.ctx c).seqs.map Prod.fst) (fun i t => freeSeq c i t) s

/-! ## Substitutes and swap stores -/

/-- Free units from the top of the pool downward. -/
def highestFree (used : List Nat) (lo : Nat) : Nat → Nat → Nat → List Nat
  | 0, _, _ => []
  | fuel + 1, u, n =>
    if n = 0 ∨ u ≤ lo then []
    else if used.contains (u - 1) then highestFree used lo fuel (u - 1) n
    else (u - 1) :: highestFree used lo fuel (u - 1) (n - 1)

/-- Bring the substitutes of a partition to what its allocation units need (R302); short of room, mark it unbacked. -/
def fixSubst (p : Nat) (s : State) : State :=
  let x := s.part2 p
  let need := substNeed s (lossUnits s p).length
  let have_ := x.subst.take need
  let used := usedUnits s p
  let more := highestFree used (s.part p).hbmBase (need + used.length) (s.part p).poolEnd (need - have_.length)
  if s.pkg.lostStacks = [] ∧ x.subst = [] ∧ x.unbacked = false then s
  else s.modPart2 p fun x => { x with
    subst := have_ ++ more, unbacked := decide ((have_ ++ more).length < need) }

/-- Distinct tiles on which the context has a bank region. -/
def regionTileSet (s : State) (c : Nat) : List Nat := ((ctxBanks s c).map Prod.fst).eraseDups

/-- Bytes of a context's swap store (R389): its bank regions other than weights, and 320 KiB for each of its tiles. -/
def swapBytes (s : State) (c : Nat) : Nat :=
  ((s.ctx c).regions.map fun r =>
    if r.2.space = .bank ∧ r.2.model = none then
      r.2.len * (maskBanks r.2.mask).length * (regionTiles (s.part (s.ctx c).reg.part) r.2).length
    else 0).sum + 327680 * (regionTileSet s c).length

/-- Allocation units of the swap store. -/
def swapNeed (s : State) (c : Nat) : Nat := cdiv (swapBytes s c) allocBytes

/-- Grow or shrink the swap store to its need. -/
def fixSwap (c : Nat) (s : State) : State :=
  let n := swapNeed s c
  let x := (s.ctx c).sched.swapUnits
  let more := takeUnits s (s.ctx c).reg.part (n - x.length)
  let s := unwriteUnits more s
  fixSubst (s.ctx c).reg.part
    (s.modCtx c fun y => { y with sched := { y.sched with swapUnits := x.take n ++ more } })

/-! ## Freeing -/

/-- Does a chain hold a descriptor on the region? -/
def Chain.names (ch : Chain) (rid : Nat) : Bool := ch.descs.any fun d => dRegion d.2 == rid

/-- Is an object a descriptor on the region, or does it hold a copy of one (log 37)? -/
def Obj.names (o : Obj) (rid : Nat) : Bool :=
  match o with
  | .desc d => dRegion d == rid
  | .perm _ a b => dRegion a == rid || dRegion b == rid
  | .chain ch => ch.names rid
  | .plan _ ds cs => (ds.any fun d => dRegion d.2 == rid) || cs.any fun x => x.2.names rid

/-- Unbind the descriptors that name a region (R97). -/
def unbindRegion (c rid : Nat) (s : State) : State :=
  s.modCtx c fun x => { x with handles := x.handles.filter fun h => !h.2.names rid }

/-- Abandon the claims of the cores that serve a stream. -/
def dropClaims (c vs : Nat) (s : State) : State :=
  forAll (tkeys s.slabs2) (fun n t =>
    if (t.slab2 n).vc.claim.isSome && (t.slab2 n).vc.ctx == c && (t.slab2 n).vc.stream == vs then
      t.modSlab2 n fun x => { x with vc := { x.vc with st := .idle, claim := none, ctx := 0, stream := 0 } }
    else t) s

/-- The regions of a coder stream: `WORK` and `JOB` (R414). -/
def VcStream.work (v : VcStream) : Nat := fld0 v.params.toNat 0x0C 16
def VcStream.job (v : VcStream) : Nat := fld0 v.params.toNat 0x0E 16

/-- Close a coder stream: its slots are free and its regions open to descriptors again (R415, R416). -/
def closeVc (c vs : Nat) (s : State) : State :=
  match aget (s.ctx c).vcs vs with
  | none => s
  | some v =>
    dropClaims c vs (s.modCtx c fun x => { x with
      vcs := adel x.vcs vs,
      regions := x.regions.map fun r =>
        if r.1 = v.work ∨ r.1 = v.job then (r.1, { r.2 with claimed := false }) else r })

/-- Close every coder stream of a context. -/
def closeVcs (c : Nat) (s : State) : State := forAll ((s.ctx c).vcs.map Prod.fst) (fun i t => closeVc c i t) s

/-- Free a region (R389): its sequence, the coder stream that uses it (log 41), its descriptors, its units, and the banks that no other region of the context
covers. -/
def freeRegion (c rid : Nat) (s : State) : State :=
  match getRegion s c rid with
  | none => s
  | some r =>
    let s := forAll (((s.ctx c).seqs.filter fun q => q.2.region == rid).map Prod.fst) (fun i t => freeSeq c i t) s
    let s := forAll (((s.ctx c).vcs.filter fun v => v.2.work == rid || v.2.job == rid).map Prod.fst) (fun i t => closeVc c i t) s
    let s := unbindRegion c rid s
    let s := s.modCtx c fun x => { x with regions := adel x.regions rid }
    let left := ctxBanks s c
    let s := forAll (regionBanks (s.part (s.ctx c).reg.part) r)
      (fun gk t => if (t.bank (bankIx gk.1 gk.2)).holder == some c && !left.contains gk then releaseBank gk t else t) s
    fixSubst (s.ctx c).reg.part s

/-- Free several regions, then settle the swap store. -/
def freeRegions (c : Nat) (rids : List Nat) (s : State) : State :=
  fixSwap c (forAll rids (fun r t => freeRegion c r t) s)

/-- Bank regions other than weight regions. -/
def plainBanks (x : Ctx) : List Nat :=
  (x.regions.filter fun r => r.2.space == .bank && r.2.model == none).map Prod.fst

/-- What `CTX_RESET` with `KEEP` = 1 frees: handles, sequences, link jobs, coder streams, bank regions other than
weights (R399, R401). -/
def freeHeld (c : Nat) (s : State) : State :=
  let s := closeVcs c (freeSeqs c s)
  let s := forAll ((s.ctx c).jobs.map Prod.snd) closeNotice s
  let s := s.modCtx c fun x => { x with handles := [], jobs := [] }
  freeRegions c (plainBanks (s.ctx c)) s

/-- Release every bank that the context still holds. -/
def releaseAll (c : Nat) (s : State) : State :=
  forAll (ctxBanks s c)
    (fun gk t => if (t.bank (bankIx gk.1 gk.2)).holder == some c then releaseBank gk t else t) s

/-! ## Loss (R398, R399) -/

/-- Loss of a context: its commands stop with no record, it frees what R399 names, and `CTX_LOST` is posted. -/
def loseCtx (reason slab c : Nat) (s : State) : State :=
  let x := s.ctx c
  if c = 0 ∨ x.reg.st = .free ∨ x.reg.st = .lost then s
  else
    let q := match x.cmds.head? with
      | some m => m.seq
      | none => x.ring.seqNext.toNat
    let tiles := x.cmds.flatMap fun m => m.bound.forms.map Prod.fst
    let s := s.modCtx c fun y => { y with cmds := [], ring := { y.ring with refetch := none, flushLeft := 0 } }
    let s := fixForms tiles s
    let s := releaseAll c (freeHeld c s)
    let s := s.modCtx c fun y => { y with
      reg := { y.reg with
        st := .lost, res := false, geobound := false, lossReason := reason, lossSlab := slab },
      sched := { y.sched with
        runnableAt := none, blockedStamp := 0, saved := false, swapping := .none, wantSusp := false, wantRes := false,
        stored := false, geo := none } }
    let s := ctxEvent c 1 s
    postBoth x.reg.func 0x0005 slab c [reason, slab, q] s

/-- Contexts that a fault of a slab's partition takes (R398): the resident, and those with commands in flight. -/
def faultCtxs (s : State) (p : Nat) : List Nat :=
  (ctxsOf s p).filter fun c =>
    (s.ctx c).reg.res || (s.ctx c).sched.swapping == .in || (s.ctx c).busy

/-- A containment fault in a partition: its contexts are lost. -/
def partitionFault (reason slab p : Nat) (s : State) : State :=
  forAll (faultCtxs s p) (fun c t => loseCtx reason slab c t) s

/-! ## Failed accesses of external memory (R300) -/

/-- What the resident banks hold of a granule of a weight store. -/
def residentGran (s : State) (da : Nat) : Option (List Byte) :=
  let c := daCtx s da
  let u := da / allocBytes
  ((s.ctx c).models.find? fun m => m.2.units.contains u).bind fun m =>
    let o := allocBytes * m.2.units.findIdx (· == u) + da % allocBytes
    (weightCell s c m.2.regions (o - o % granBytes)).map fun x => bankRead s x.1 x.2.1 x.2.2 granBytes

/-- Firmware rewrites a granule whole, under the key of its area: VALID again, with its event. -/
def rewriteGran (da : Nat) (bs : List Byte) (s : State) : State :=
  let a := da - da % granBytes
  hbmEvent (homeSlab s a) 8 (hbmWrite (daKey s a) a bs s)

/-- Firmware rewrites a granule of a resident model's weight store from the banks; what lies past the model's bytes stays
as it was. -/
def repairWeights (da : Nat) (s : State) : State :=
  rewriteGran da ((residentGran s da).getD (hbmRead s (da - da % granBytes) granBytes)) s

/-- Firmware rewrites a granule of its area from the second copy, if that can be read. -/
def repairFirmware (da : Nat) (s : State) : State :=
  let a := fwOther (da - da % granBytes)
  if (granBad s .session a).isNone ∧ (fwCopies s da).contains a then rewriteGran da (hbmRead s a granBytes) s else s

/-- An access that fails: recorded, then confined to the key owner of the granule. -/
def hbmFault (da : Nat) (bad : HbmBad) (s : State) : State :=
  let o := daCtx s da
  let s := hbmFailLog da bad s
  match areaOf s da with
  | 3 => repairFirmware da s
  | 1 => if (s.ctx o).reg.res then repairWeights da s else loseCtx 4 (homeSlab s da) o s
  | _ => loseCtx 4 (homeSlab s da) o s

/-! ## Accesses of commands in HBM, host memory and banks -/

/-- Why a command's accesses stop it after issue. -/
inductive AccFail where
  | hbm (da : Nat) (bad : HbmBad)
  | host (addr : Nat)
  | owner (g k : Nat) (acc : BankAcc)
deriving DecidableEq, Repr

/-- First device address of a list that cannot be read under the context's key (R300). -/
def hbmReadFail (s : State) (c : Nat) (das : List Nat) : Option AccFail :=
  ((spansOf s das).findSome? fun a => (granBad s (ctxKey s c) a).map fun b => (a, b)).map fun p => .hbm p.1 p.2

/-- First span that cannot be written (R296, R302). -/
def hbmWriteFail (s : State) (c : Nat) (ws : List Wr) : Option AccFail :=
  let das := ((ws.filter fun w => w.cell.space == .hbm && w.mask == 0xFF).map fun w => w.cell.key).eraseDups
  let all := hbmCells (ws.map Wr.cell)
  ((spansOf s all).findSome? fun a =>
    let whole := decide (((das.filter fun d => a ≤ d && d < a + spanAt s a)).length = spanAt s a)
    (spanBad s none (ctxKey s c) whole a).map fun b => (a, b)).map fun p => .hbm p.1 p.2

/-- First host address that cannot be reached. -/
def hostFail (s : State) (f : Nat) (keys : List Nat) : Option AccFail :=
  (keys.find? fun k => hostFails s f (k - f * 2 ^ 64) 1).map fun k => .host (k - f * 2 ^ 64)

/-- First bank access that the owner in force does not allow (R271, R272). -/
def ownerFail (s : State) (c : Nat) (l : List BankAcc) : Option AccFail :=
  (l.find? fun a => !accAdmitted s c a).map fun a => .owner a.g a.k a

/-- Keys of one space. -/
def spaceKeys (sp : Space) (l : List CellAt) : List Nat := (l.filter fun x => x.space == sp).map CellAt.key

/-- What stops a command that reads cells, writes bytes and makes bank accesses, if anything. -/
def accFail (s : State) (c : Nat) (rd : List CellAt) (ws : List Wr) (accs : List BankAcc) : Option AccFail :=
  let f := (s.ctx c).reg.func
  match ownerFail s c accs with
  | some x => some x
  | none =>
    match hostFail s f (spaceKeys .host (rd ++ ws.map Wr.cell)) with
    | some x => some x
    | none =>
      match hbmReadFail s c (hbmCells rd) with
      | some x => some x
      | none => hbmWriteFail s c ws

/-- The outcome of a failed access: E_OWNER with the refusal's report, E_HOSTMEM, or loss of the context (R300). Nothing is
written or counted under R93, and AFLAGS is 0 (DESIGN CHOICE, log 20). -/
def failCmd (c q : Nat) (x : AccFail) (s : State) : State :=
  match x with
  | .owner g k acc =>
    finish c q .owner [g, k] (ownerRefused g k acc.a (.cmd c acc.tile acc.kind) (if acc.wr then .write else .read) s)
  | .host a => finish c q .hostmem [a % 2 ^ 32, a / 2 ^ 32] s
  | .hbm da b => loseCtx 4 (homeSlab s da) c (hbmFault da b s)

/-- Run a command: if every access succeeds, write its bytes and end it; otherwise end it as the failure says. -/
def runCmd (c q : Nat) (rd : List CellAt) (ws : List Wr) (accs : List BankAcc) (done : State → State) (s : State) :
    State :=
  match accFail s c rd ws accs with
  | some x => failCmd c q x s
  | none => done (applyWrs c ws s)

end Sys2Proof.Machine
end

