-- ==== Sys2Proof/Machine/Flags.lean ====
section
/-! DEFINITION. Arithmetic flags and counts (R92, R93): what a command gathers as it computes, and what its record and
its context's counters receive. -/

namespace Sys2Proof.Machine

open Sys2Proof

/-- The flags of R92 and the counts of R93 that a command has gathered. -/
structure Tally where
  sat : Bool
  ovf : Bool
  nan : Bool
  poison : Bool
  vanish : Bool
  iround : Bool
  nTrunc : Nat
  nVanish : Nat
  nZero : Nat
  nPoison : Nat
  nSat : Nat
  nNan : Nat
  nIround : Nat
deriving DecidableEq, Repr

def Tally.zero : Tally :=
  { sat := false, ovf := false, nan := false, poison := false, vanish := false, iround := false, nTrunc := 0,
    nVanish := 0, nZero := 0, nPoison := 0, nSat := 0, nNan := 0, nIround := 0 }

/-- Both tallies together. -/
def Tally.add (a b : Tally) : Tally :=
  { sat := a.sat || b.sat, ovf := a.ovf || b.ovf, nan := a.nan || b.nan, poison := a.poison || b.poison,
    vanish := a.vanish || b.vanish, iround := a.iround || b.iround, nTrunc := a.nTrunc + b.nTrunc,
    nVanish := a.nVanish + b.nVanish, nZero := a.nZero + b.nZero, nPoison := a.nPoison + b.nPoison,
    nSat := a.nSat + b.nSat, nNan := a.nNan + b.nNan, nIround := a.nIround + b.nIround }

/-- `AFLAGS` (R92). -/
def Tally.aflags (t : Tally) : Nat :=
  b2n t.sat + 2 * b2n t.ovf + 4 * b2n t.nan + 8 * b2n t.poison + 16 * b2n t.vanish + 32 * b2n t.iround

/-- The counts in the order of R94. -/
def Tally.counts (t : Tally) : List Nat :=
  [t.nTrunc, t.nVanish, t.nZero, t.nPoison, t.nSat, t.nNan, t.nIround]

/-- What stored results contribute. -/
def Stored.tally (x : Stored) : Tally := { Tally.zero with sat := x.sat, nan := x.nan, nSat := x.events }

/-- Flags only, as a conversion that R93 does not count gives them. -/
def Tally.flagsOnly (t : Tally) : Tally :=
  { Tally.zero with sat := t.sat, ovf := t.ovf, nan := t.nan, poison := t.poison, vanish := t.vanish, iround := t.iround }

/-- End a command with its tally. -/
def finishT (c q : Nat) (st : Status) (dw : List Nat) (t : Tally) (s : State) : State :=
  finishA c q st dw t.aflags t.counts s

/-- The work of a data command as its operands and the state give it: the cells it reads, the bits it writes, its bank
accesses (R272), its detail words, its tally, and how many free values it uses. -/
structure Work where
  rd : List CellAt
  wrs : List Wr
  accs : List BankAcc
  dw : List Nat
  t : Tally
  free : Nat

def Work.none : Work := { rd := [], wrs := [], accs := [], dw := [], t := .zero, free := 0 }

/-- Count a use of free values. -/
def useFree (n : Nat) (s : State) : State := { s with env := { s.env with free := s.env.free + n } }

/-- Do a command's work: if every access succeeds its bits are written, `more` follows, and it ends OK; otherwise it ends
as the failure says (R145, R270, R354). -/
def Work.run (w : Work) (c q : Nat) (more : State → State) (s : State) : State :=
  runCmd c q w.rd w.wrs w.accs (fun t => finishT c q .ok w.dw w.t (more (useFree w.free t))) s

end Sys2Proof.Machine
end

