-- ==== Sys2Proof/Machine/Accum.lean ====
section
/-! DEFINITION. The accumulator lanes of the array (R79 to R88): operand elements, groups of sixteen exact products, the
alignment window and its single rounding, INT32 accumulation, and the tensor scale. -/

namespace Sys2Proof.Machine

open Sys2Proof

/-- An array operand element: its value, its integer for integer and block formats, and the exponent code of its block
(127 outside block formats). -/
structure El where
  v : Num
  i : Int
  blk : Bool
  code : Nat
deriving DecidableEq, Repr

/-- An exact zero, as in a slot beyond the extent (R111). -/
def El.zero : El := { v := .zero, i := 0, blk := false, code := 127 }

def El.poisoned (e : El) : Bool := e.blk && e.code == 0xFF
def El.zeroBlk (e : El) : Bool := e.blk && e.code == 0

/-- The element of a type byte with its bits and exponent code. -/
def elOf (t raw exp : Nat) : El :=
  let f := tyFmt t
  let blk := fmtBlk f
  { v := elemNum 0 t raw exp, i := if fmtInt f then decodeInt (fmtWidth f) (tyUns t) raw else 0, blk := blk,
    code := if blk then exp else 127 }

/-- The element at coordinates of an operand. -/
def Opd.elAt (o : Opd) (s : State) (co : List Nat) : El :=
  elOf (dDtype o.raw) (o.rawAt s co) (if dBlk o.raw then o.expAt s co else 0)

/-- Is the format pair narrow, so that the window is 40 bits (R83)? -/
def windowBits (ta tb : Nat) : Nat :=
  if fmtWidth (tyFmt ta) ≤ 8 ∧ fmtWidth (tyFmt tb) ≤ 8 then 40 else 56

/-! ## One group into an FP32 accumulator (R80, R82 to R84) -/

/-- Bit position of the most significant 1 of a non-zero product. -/
def Num.msb : Num → Option Int
  | .fin _ (m + 1) e => some (e + (Nat.log2 (m + 1) : Int))
  | _ => none

/-- The highest position over the products. -/
def maxMsb (ps : List Num) : Option Int :=
  ps.foldl (fun b p =>
    match b, p.msb with
    | none, x => x
    | some a, some x => some (max a x)
    | some a, none => some a) none

/-- A product cut below position b: its signed value in units of 2^b, whether it lost a bit, whether it vanished. -/
def cutBelow (b : Int) : Num → Int × Bool × Bool
  | .fin n m e =>
    let q : Nat := if b ≤ e then m * pow2 (e - b) else m >>> (b - e).toNat
    let lost := if b ≤ e then false else q <<< (b - e).toNat != m
    (if n then -(q : Int) else q, lost, m != 0 && q == 0)
  | _ => (0, false, false)

/-- The windowed sum of a group: its value, its direction, whether a bit was lost, whether a product vanished. -/
structure GSum where
  sum : Num
  sigma : Int
  trunc : Bool
  vanish : Bool
deriving DecidableEq, Repr

def windowSum (w : Nat) (ps : List Num) : GSum :=
  match maxMsb ps with
  | none => { sum := .zero, sigma := 0, trunc := false, vanish := false }
  | some x =>
    let b := x - (w : Int) + 1
    let cs := ps.map fun p => (cutBelow b p, p.neg?)
    let v : Int := cs.foldl (fun a t => a + t.1.1) 0
    let stp := cs.any fun t => t.1.2.1 && !t.2
    let stn := cs.any fun t => t.1.2.1 && t.2
    { sum := .fin (v < 0) v.natAbs b, sigma := if stp && !stn then 1 else if stn && !stp then -1 else 0,
      trunc := stp || stn, vanish := cs.any fun t => t.1.2.2 }

/-- ρ of R84 on the exact sum of the accumulator and the group. -/
def accRound (acc : Num) (g : GSum) : Num × Bool :=
  if g.sum.isZero then (acc, false)
  else
    match acc with
    | .nan => (.nan, false)
    | .inf n => (.inf n, false)
    | _ =>
      let v := acc.add g.sum
      if v.isZero then (.zero, false)
      else
        let r := fp32.convert (.dir g.sigma) v
        (dec32 r.bits, r.sat)

/-- One group of pairs into an FP32 accumulator, with its tally. -/
def groupF (w : Nat) (acc : Num) (ps : List (El × El)) : Num × Tally :=
  if ps.any fun p => p.1.poisoned || p.2.poisoned then (.nan, { Tally.zero with nPoison := 1 })
  else if ps.any fun p => p.1.zeroBlk || p.2.zeroBlk then (acc, { Tally.zero with nZero := 1 })
  else
    let xs := ps.map fun p => p.1.v.mul p.2.v
    let r :=
      if xs.any Num.isNan then (Num.nan, Tally.zero)
      else if xs.any Num.isInf then ((xs.filter Num.isInf).foldl Num.add acc, Tally.zero)
      else
        let g := windowSum w xs
        let (v, ovf) := accRound acc g
        (v, { Tally.zero with ovf := ovf, vanish := g.vanish, nTrunc := b2n g.trunc, nVanish := b2n g.vanish })
    (r.1, { r.2 with nNan := b2n (r.1.isNan && !acc.isNan) })

/-! ## One group into an INT32 accumulator (R80, R87) -/

/-- An integer times a power of two, rounded to nearest even when fractions are discarded. -/
def scaleInt (g s : Int) : Int × Bool :=
  if 0 ≤ s then (g * pow2 s, false)
  else
    let q : Int := shiftRnd .ne (g < 0) g.natAbs (-s).toNat
    (if g < 0 then -q else q, g % (2 ^ (-s).toNat : Nat) != 0)

/-- One group of pairs into an INT32 accumulator, with its tally. -/
def groupI (acc : Int) (ps : List (El × El)) : Int × Tally :=
  if ps.any fun p => p.1.poisoned || p.2.poisoned then (acc, { Tally.zero with poison := true, nPoison := 1 })
  else if ps.any fun p => p.1.zeroBlk || p.2.zeroBlk then (acc, { Tally.zero with nZero := 1 })
  else
    let g : Int := ps.foldl (fun a p => a + p.1.i * p.2.i) 0
    let codes := match ps with
      | p :: _ => (p.1.code, p.2.code)
      | [] => (127, 127)
    let (t, fr) := scaleInt g (((codes.1 : Int) - 127) + ((codes.2 : Int) - 127))
    let (lo, hi) := intRange 32 false
    let v := acc + t
    let out := decide (v < lo ∨ hi < v)
    (max lo (min hi v), { Tally.zero with sat := out, iround := fr, nSat := b2n out, nIround := b2n fr })

/-! ## A lane -/

/-- An accumulator: FP32 or INT32 (R86). -/
inductive AccV where
  | f (x : Num)
  | i (n : Int)
deriving DecidableEq, Repr

/-- Start value (R81). -/
def AccV.start (int : Bool) : AccV := if int then .i 0 else .f .zero

/-- One group into an accumulator. -/
def groupAcc (w : Nat) (a : AccV) (ps : List (El × El)) : AccV × Tally :=
  match a with
  | .f x => let r := groupF w x ps; (.f r.1, r.2)
  | .i n => let r := groupI n ps; (.i r.1, r.2)

/-- All groups in ascending order (R81). -/
def lane (w : Nat) (start : AccV) (groups : List (List (El × El))) : AccV × Tally :=
  groups.foldl (fun st g => let r := groupAcc w st.1 g; (r.1, st.2.add r.2)) (start, .zero)

/-- The groups of a reduction over k < n: pairs by K index, sixteen at a time. -/
def groupsOf (n : Nat) (pair : Nat → El × El) : List (List (El × El)) :=
  (List.range (cdiv n 16)).map fun g => (List.range (min 16 (n - 16 * g))).map fun i => pair (16 * g + i)

/-- Raw bits of an accumulator (R124). -/
def AccV.raw : AccV → Nat
  | .f x => enc32 x
  | .i n => intBits 32 n

/-- The value after the tensor scale (R88): a number, exact for an unscaled INT32. -/
def AccV.scaled (a : AccV) (sa sb : Nat) : Num :=
  match a with
  | .f x => rnd32 ((x.mul (dec32 sa)).mul (dec32 sb))
  | .i n => if sa = 0x3F800000 ∧ sb = 0x3F800000 then .ofInt n else rnd32 (((Num.ofInt n).mul (dec32 sa)).mul (dec32 sb))

/-- Array inputs (R74) and their rate factor (R48). -/
def arrayFmt (f : Nat) : Bool := decide (1 ≤ f ∧ f ≤ 10)
def rateOf (ta tb : Nat) : Nat := 16 / max (fmtWidth (tyFmt ta)) (fmtWidth (tyFmt tb))

end Sys2Proof.Machine
end

