-- ==== Sys2Proof/Machine/Special.lean ====
section
/-! DEFINITION. Special functions as real numbers (R151, R156, R257): dyadic values that agree with the exact ones to 2^-170
or better, the error bounds that an FP32 result is held to, and the correctly rounded normal quantile. -/

namespace Sys2Proof.Machine

open Sys2Proof

/-! ## Fixed point: an integer i stands for i * 2^-192 -/

def fxBits : Nat := 192

/-- ln 2 and 1 / sqrt(2 pi), cut to 192 bits. -/
def fxLn2 : Int := 4350955369971217654477563090224794165364344896676135745069
def fxPhi0 : Int := 2504201280626952864894549311249338563268063356138482501336

/-- A dyadic number in fixed point, cut towards zero. -/
def fxOf (neg : Bool) (m : Nat) (e : Int) : Int :=
  let k : Int := e + fxBits
  let v : Int := ((if 0 ≤ k then m * pow2 k else m >>> (-k).toNat : Nat) : Int)
  if neg then -v else v

/-- The number that a fixed-point integer times 2^k stands for. -/
def fxNum (v k : Int) : Num := .fin (decide (v < 0)) v.natAbs (k - fxBits)

/-- Product of two fixed-point numbers. -/
def fxMul (a b : Int) : Int := a * b / (2 ^ fxBits : Nat)

/-- Sum of the terms t, t·r/k, t·r²/(k(k+1)), …, `n` of them. -/
def fxExpSum (r : Int) : Nat → Int → Nat → Int
  | 0, _, _ => 0
  | n + 1, t, k => t + fxExpSum r n (fxMul t r / (k : Int)) (k + 1)

/-- e^x for a fixed-point x: a mantissa and a power of two. -/
def fxExp (x : Int) : Int × Int :=
  let k := (2 * x + fxLn2) / (2 * fxLn2)
  (fxExpSum (x - k * fxLn2) 48 ((2 ^ fxBits : Nat) : Int) 1, k)

/-- e^x. -/
def exactExp (x : Int) : Num := fxNum (fxExp x).1 (fxExp x).2

/-- e^x in fixed point, for x not above 0. -/
def fxExpNeg (x : Int) : Int :=
  let r := fxExp x
  if 0 ≤ r.2 then r.1 * (2 ^ r.2.toNat : Nat) else r.1 / (2 ^ (-r.2).toNat : Nat)

/-- A quotient of numbers to 256 bits. -/
def exactDiv (a b : Num) : Num :=
  match a, b with
  | .fin n1 m1 e1, .fin n2 (m2 + 1) e2 =>
    let k := 256 + Nat.log2 (m2 + 1)
    .fin (n1 != n2) ((m1 <<< k) / (m2 + 1)) (e1 - e2 - k)
  | _, _ => .zero

/-- The logistic function of x within ±300: e^x / (1 + e^x). -/
def exactLogistic (x : Int) : Num :=
  let v := exactExp x
  exactDiv v ((Num.ofInt 1).add v)

/-- tanh of a fixed-point x from 0 on: (1 - e^(-2x)) / (1 + e^(-2x)). -/
def exactTanh (x : Int) : Num :=
  let v := fxExpNeg (-2 * x)
  let one : Int := (2 ^ fxBits : Nat)
  exactDiv (fxNum (one - v) 0) (fxNum (one + v) 0)

/-- Sum of x^(2k+1) / (1·3·…·(2k+1)), `n` terms from `t` on. -/
def fxPhiSum (x2 : Int) : Nat → Int → Nat → Int
  | 0, _, _ => 0
  | n + 1, t, k => t + fxPhiSum x2 n (fxMul t x2 / ((k + 2 : Nat) : Int)) (k + 2)

/-- The normal distribution function in fixed point, for x within ±16. -/
def fxNormal (x : Int) : Int :=
  let x2 := fxMul x x
  let g := fxExp (-x2 / 2)
  let d := fxMul (fxMul fxPhi0 g.1) (fxPhiSum x2 640 x 1)
  (2 ^ (fxBits - 1) : Nat) + (if 0 ≤ g.2 then d * (2 ^ g.2.toNat : Nat) else d / (2 ^ (-g.2).toNat : Nat))

/-- 1 / sqrt(m * 2^e). -/
def exactRsqrt (m : Nat) (e : Int) : Num :=
  let (m, e) := if e % 2 = 0 then (m, e) else (2 * m, e - 1)
  .fin false (isqrt (2 ^ 560 / m)) (-280 - e / 2)

/-! ## Error bounds -/

/-- The unit in the last place of FP32 at a value. -/
def ulp32 : Num → Num
  | .fin _ (m + 1) e => .fin false 1 (fp32.grid (m + 1) e)
  | _ => .fin false 1 fp32.minLsb

/-- Is a result nearer to the exact value than a bound, or, unless `strict`, as near? -/
def nearTo (strict : Bool) (cand exact bound : Num) : Bool :=
  let d := (cand.sub exact).abs
  if strict then d.lt bound else d.le bound

/-- A result that the spec bounds and does not fix: the free candidate where it keeps the bound, else the nearest. -/
def boundedVal (strict : Bool) (cand exact bound : Num) : Num := if nearTo strict cand exact bound then cand else rnd32 exact

/-- `k` ulp of the exact value, or `2^-24` where that is larger. -/
def ulps (k : Nat) (orAbs : Bool) (exact : Num) : Num :=
  let b := (Num.ofInt k).mul (ulp32 exact)
  let a := Num.fin false 1 (-24)
  if orAbs && b.lt a then a else b

/-! ## The normal quantile (R257) -/

/-- Bisection on FP32 patterns: the least positive pattern w whose upper midpoint has a distribution value of p or more. All
quantiles lie below 8. -/
def quantileGo (p : Int) : Nat → Nat → Nat
  | 0, w => w
  | n + 1, w =>
    let v := w + 2 ^ n
    match (if v < 0x41000000 then (dec32 (v - 1)).add (dec32 v) else .nan) with
    | .fin _ m e => if fxNormal (fxOf false m (e - 1)) < p then quantileGo p n v else quantileGo p n w
    | _ => quantileGo p n w

/-- The quantile at (i + 1/2) * 2^-24, rounded to nearest. -/
def normalQuantile (i : Nat) : Num :=
  let p (j : Nat) : Int := (2 * j + 1 : Nat) * (2 ^ (fxBits - 25) : Nat)
  if 2 ^ 23 ≤ i then dec32 (quantileGo (p i) 31 0) else (dec32 (quantileGo (p (2 ^ 24 - 1 - i)) 31 0)).negate

end Sys2Proof.Machine
end

