-- ==== Sys2Proof/Machine/Desc.lean ====
section
/-! DEFINITION. Descriptors, chains and convolution plans (sections 04, 06, 08): their checks at creation and the
meanings of DESC_CREATE, DESC_DESTROY, DESC_RELEASE, EPI_CREATE and CONV_CREATE. -/

namespace Sys2Proof.Machine

open Sys2Proof

/-! ## Checks of a descriptor (R103, R109, R110) -/

/-- The region a descriptor names, where the context may use it: not one that a sequence or a coder stream holds. -/
def descRegion (s : State) (c : Nat) (d : Blob) : Option Region :=
  match getRegion s c (dRegion d) with
  | some r => if r.claimed then none else some r
  | none => none

/-- Fields that no data or index descriptor may fill, with the tests that depend on the layout. An index descriptor may fill
`PAD_MODE` (DESIGN CHOICE, log 46). -/
def descFieldFaults (d : Blob) : List (Bool × Nat) :=
  let v := d.toNat
  let arr := dLayout d == 1 || dLayout d == 2
  let idx := dKind d == 1
  let w := dWidth d
  let blk := dBlk d
  [(!tyOk (dDtype d) || (idx && dDtype d != 0), 0x00),
   resvBits v 0x01 3 5,
   (dRank d == 0 || dRank d == 7 || (arr && dRank d != 2), 0x01),
   resvBits v 0x02 6 2,
   (dKind d == 3 || decide (3 ≤ dLayout d) || (idx && (dLayout d != 0 || dPadValue d != 0)), 0x02),
   resvBits v 0x03 4 4,
   (decide (6 ≤ dSwz d) || (arr && dSwz d != 0), 0x03),
   resvBits v 0x04 2 6,
   (decide (2 ≤ dPadMode d) || (arr && dPadMode d != 0) || (blk && dPadMode d == 1 && dPadValue d != 0), 0x04),
   (arr && dPadValue d != 0 || decide (2 ^ w ≤ dPadValue d), 0x10),
   (if dLayout d == 1 then decide (6 < dLead d) else dLead d != 0, 0x14),
   (if dLayout d == 1 then decide (6 < dTrail d) else dTrail d != 0, 0x15),
   resvBits v 0x16 4 4,
   (if arr then dSegs d == 3 else dSegs d != 0 || dPlog d != 0, 0x16),
   (!(blk && dLayout d == 0) && dExpOff d != 0, 0x18),
   (blk && dLayout d == 0 && dSize d 0 % 16 != 0, 0x20),
   (blk && dLayout d == 0 && dStride d 0 != 1, 0x38),
   (dSrc d != 0, 0x68), (dDst d != 0, 0x6A), (dField d 0x6C 32 != 0, 0x6C)]
    ++ resvBytes v 0x05 1 ++ resvBytes v 0x17 1 ++ resvBytes v 0x70 16
    ++ (List.range 6).map (fun k => (decide (dRank d ≤ k) && dSize d k != 1, 0x20 + 4 * k))
    ++ (List.range 6).map (fun k => ((decide (dRank d ≤ k) || arr) && dStride d k != 0, 0x38 + 8 * k))
    ++ (List.range 5).map fun k =>
      (blk && dLayout d == 0 && decide (k + 1 < dRank d) && dStride d (k + 1) % 16 != 0, 0x38 + 8 * (k + 1))

/-- Tests that need the region: its space and banks, the swizzle, the alignment and the range. -/
def descRegionFaults (r : Option Region) (d : Blob) : List (Bool × Nat) :=
  match r with
  | none => [(true, 0x06)]
  | some r =>
    let nb := (maskBanks r.mask).length
    let bank := r.space == .bank
    let align := match dLayout d with
      | 0 => max 1 (dWidth d / 8)
      | 1 => if 2 ≤ nb then 2048 else 64
      | _ => 64
    let bankOk := match dLayout d with
      | 0 => true
      | 1 => bank && decide (1 ≤ nb ∧ nb ≤ 3)
      | _ => bank && nb == 1
    [(!bankOk, 0x06),
     (dSwz d != 0 && !(bank && r.off % 2048 == 0 && r.len % 2048 == 0), 0x03),
     (dBase d % align != 0 || !(dInside d nb r.len || (dLayout d != 0 && dSegs d == 3)), 0x08)]

/-- Is `PERM` a permutation of the first n dimensions, and the identity above (R115)? -/
def permOk (d : Blob) (n : Nat) : Bool :=
  (List.range 6).all fun k =>
    if k < n then decide (dPerm d k < n) && (List.range n).all fun j => j == k || dPerm d j != dPerm d k
    else dPerm d k == k

/-- The exactly coincident transpose of R117. -/
def inPlaceOk (r : Option Region) (perm src dst : Blob) : Bool :=
  let big := (List.range (dDims src)).filter fun k => decide (1 < dSize src k)
  src == dst && (match r with | some r => r.space != .host | none => false) &&
    match big with
    | [a, b] =>
      dSize src a == dSize src b && decide (dSize src a ≤ 128) && dPerm perm a == b && dPerm perm b == a
        && (List.range (dDims src)).all fun k => k == a || k == b || dPerm perm k == k
    | _ => false

/-- Fields that a permute descriptor leaves zero, `KIND` apart (R115): offset and width. -/
def zeroFields : List (Nat × Nat) :=
  [(0x00, 8), (0x01, 8), (0x03, 8), (0x04, 8), (0x05, 8), (0x06, 16), (0x08, 64), (0x10, 32), (0x14, 8), (0x15, 8),
   (0x16, 8), (0x17, 8), (0x18, 64)]
    ++ (List.range 6).map (fun k => (0x20 + 4 * k, 32)) ++ (List.range 6).map fun k => (0x38 + 8 * k, 64)

/-- The check of a permute descriptor (R115 to R117): the object it makes, or a status and an offset. -/
def checkPermute (s : State) (c : Nat) (d : Blob) : Except (Status × Nat) Obj :=
  let v := d.toNat
  let src := getDesc s c (dSrc d)
  let dst := getDesc s c (dDst d)
  let a := src.getD 0
  let b := dst.getD 0
  let n := dDims a
  let zero := zeroFields.map fun t => (fld0 v t.1 t.2 != 0, t.1)
  let faults := zero ++ resvBytes v 0x70 16 ++
    [(fld v 0x02 0 4 != 0 || fld v 0x02 6 2 != 0, 0x02), (bits (dField d 0x6C 32) 18 14 != 0, 0x6C),
     (!descIs src 0 0, 0x68), (!descIs dst 0 0, 0x6A)]
  let more :=
    [(dRank a != dRank b || dDtype a != dDtype b, 0x68),
     (!permOk d n, 0x6C),
     ((List.range n).any fun k => dSize b k != dSize a (dPerm d k), 0x68),
     (dAliased b, 0x6A),
     (dBlk a && dPerm d 0 != 0, 0x6C)]
  match lowest (faults ++ if descIs src 0 0 && descIs dst 0 0 then more else []) with
  | some o => .error (.desc, o)
  | none =>
    let r := getRegion s c (dRegion a)
    let nb := (maskBanks ((r.getD Region.empty).mask)).length
    if dOverlap a b nb nb && !inPlaceOk r d a b then .error (.overlap, 0x68)
    else .ok (.perm d a b)

/-- The check of a 128-byte descriptor (R103, R115). -/
def checkDesc (s : State) (c : Nat) (d : Blob) : Except (Status × Nat) Obj :=
  if dKind d = 2 then checkPermute s c d
  else
    match lowest (descFieldFaults d ++ descRegionFaults (descRegion s c d) d) with
    | some o => .error (.desc, o)
    | none => .ok (.desc d)

/-! ## Chains (R163 to R166) -/

def chNpro (v : Nat) : Nat := fld0 v 0x00 2
def chNepi (v : Nat) : Nat := fld0 v 0x01 4
def chStatRounded (v : Nat) : Bool := fld v 0x02 0 1 == 1
def chEps (v : Nat) : Nat := fld0 v 0x04 32
def chIn (v i : Nat) : Nat := fld0 v (0x08 + 2 * i) 16
def chSout (v : Nat) : Nat := fld0 v 0x10 16

/-- A step: its code, argument and immediate. -/
structure ChStep where
  op : Nat
  arg : Nat
  imm : Nat
deriving DecidableEq, Repr

def chStep (v off : Nat) : ChStep := { op := fld0 v off 8, arg := fld0 v (off + 1) 8, imm := fld0 v (off + 4) 32 }

/-- Offsets of the prologue and epilogue steps. -/
def proOff (i : Nat) : Nat := 0x18 + 8 * i
def epiOff (i : Nat) : Nat := 0x28 + 8 * i

def chPro (v : Nat) : List ChStep := (List.range (min (chNpro v) 2)).map fun i => chStep v (proOff i)
def chEpi (v : Nat) : List ChStep := (List.range (min (chNepi v) 8)).map fun i => chStep v (epiOff i)

/-- Function ids of ACT (R164). -/
def actOk (a : Nat) : Bool := (decide (1 ≤ a ∧ a ≤ 3)) || decide (0x10 ≤ a ∧ a ≤ 0x17)

/-- Faults of a prologue or epilogue step at an offset: its code, the `ARG` bits it does not use, and an `IMM` that no
step but SCALE has. -/
def proStepFaults (t : ChStep) (o : Nat) : List (Bool × Nat) :=
  [(!(t.op == 1 || t.op == 2), o), (decide ((if t.op = 1 then 4 else 16) ≤ t.arg), o + 1), (t.imm != 0, o + 4)]
def epiArgOk (t : ChStep) : Bool :=
  match t.op with
  | 1 | 2 | 3 | 6 | 7 => decide (t.arg < 4)
  | 5 => actOk t.arg
  | _ => t.arg == 0
def epiStepFaults (t : ChStep) (o : Nat) : List (Bool × Nat) :=
  [(t.op == 0 || decide (8 < t.op), o), (!epiArgOk t, o + 1), (t.op != 4 && t.imm != 0, o + 4)]

/-- `IN` slots that a prologue step names. -/
def proIns (t : ChStep) : List Nat := if t.op = 1 then [t.arg % 4] else [t.arg % 4, t.arg / 4 % 4]

/-- `IN` slot that an epilogue step names. -/
def epiIns (t : ChStep) : List Nat := if [1, 2, 3, 6, 7].contains t.op then [t.arg % 4] else []

/-- `IN` slots used as statistics records. -/
def chStatIns (v : Nat) : List Nat := (chPro v).flatMap fun t => if t.op = 1 then [t.arg % 4] else []

def chHasStats (v : Nat) : Bool := (chEpi v).any fun t => t.op == 8

/-- A step entry beyond the count is zero (R163). -/
def stepZero (v o : Nat) : List (Bool × Nat) :=
  [(fld0 v o 8 != 0, o), (fld0 v (o + 1) 8 != 0, o + 1), (fld0 v (o + 4) 32 != 0, o + 4)] ++ resvBytes v (o + 2) 2

/-- Faults of a chain (R166). A second STATS step is at fault at its own offset (DEDUCED, log 52). -/
def chainFaults (s : State) (c v : Nat) : List (Bool × Nat) :=
  let eps := dec32 (chEps v)
  let npro := chNpro v
  let nepi := chNepi v
  let step (used : Bool) (faults : ChStep → Nat → List (Bool × Nat)) (o : Nat) : List (Bool × Nat) :=
    if used then faults (chStep v o) o ++ resvBytes v (o + 2) 2 else stepZero v o
  let pro := (List.range 2).flatMap fun i => step (decide (i < npro)) proStepFaults (proOff i)
  let epi := (List.range 8).flatMap fun i => step (decide (i < nepi)) epiStepFaults (epiOff i)
  let used := (chPro v).flatMap proIns ++ (chEpi v).flatMap epiIns
  let stats := chStatIns v
  let ins := (List.range 4).map fun i =>
    (if chIn v i = 0xFFFF then used.contains i
      else if stats.contains i then !descIs (getDesc s c (chIn v i)) 1 0
      else !descIs (getDesc s c (chIn v i)) 0 0, 0x08 + 2 * i)
  let stats2 := ((List.range (min nepi 8)).filter fun i => (chStep v (epiOff i)).op == 8).drop 1
  let last := (chEpi v)[nepi - 1]?
  [resvBits v 0x00 2 6, (decide (2 < npro), 0x00), resvBits v 0x01 4 4, (decide (8 < nepi), 0x01),
   resvBits v 0x02 1 7,
   (chStatRounded v && !(match last with | some t => t.op == 8 | none => false), 0x02),
   (eps.isNan || eps.isInf || (bit (chEps v) 31), 0x04),
   ((chHasStats v && chSout v == 0xFFFF) || (!chHasStats v && chSout v != 0xFFFF)
      || (chSout v != 0xFFFF && !descIs (getDesc s c (chSout v)) 1 0), 0x10)]
    ++ resvBytes v 0x03 1 ++ resvBytes v 0x12 6 ++ resvBytes v 0x68 24 ++ pro ++ epi ++ ins ++ stats2.map fun i => (true, epiOff i)

/-- Descriptors that a chain names, by the offset of the naming field. -/
def chainDescs (s : State) (c v : Nat) : List (Nat × Blob) :=
  [0x08, 0x0A, 0x0C, 0x0E, 0x10].filterMap fun o => (getDesc s c (fld0 v o 16)).map fun d => (o, d)

def checkChain (s : State) (c : Nat) (d : Blob) : Except (Status × Nat) Obj :=
  match lowest (chainFaults s c d.toNat) with
  | some o => .error (.desc, o)
  | none => .ok (.chain { raw := d, descs := chainDescs s c d.toNat })

/-! ## Convolution plans (R230 to R232) -/

def plLayers (v : Nat) : Nat := fld0 v 0x00 3

/-- Offset of layer l's entry. -/
def layOff (l : Nat) : Nat := 0x20 + 0x18 * l

/-- A bound chain of the context. -/
def getChain (s : State) (c h : Nat) : Option Chain :=
  match handleObj s c h with
  | some (.chain ch) => some ch
  | _ => none

/-- Faults of one layer's entry. -/
def layerFaults (s : State) (c v l n : Nat) : List (Bool × Nat) :=
  let o := layOff l
  if n ≤ l then resvBytes v o 0x18
  else
    let w := getDesc s c (fld0 v o 16)
    let e := fld0 v (o + 2) 16
    let ch := getChain s c e
    let chv := ((ch.map Chain.raw).getD 0).toNat
    [(!(descIs w 0 0 || descIs w 0 1), o),
     (e != 0xFFFF && (ch.isNone || chNpro chv != 0
        || (l + 1 != n && (chEpi chv).any fun t => t.op == 6 || t.op == 7 || t.op == 8)), o + 2),
     (fld0 v (o + 8) 8 == 0, o + 8), (fld0 v (o + 9) 8 == 0, o + 9),
     (fld v (o + 0xE) 13 1 != 0 || (l == 0 && fld v (o + 0xE) 12 1 != 0) || fld v (o + 0xE) 0 12 == 0, o + 0xE)]

def planFaults (s : State) (c v : Nat) : List (Bool × Nat) :=
  let n := plLayers v
  [resvBits v 0x00 3 5, (n == 0 || decide (4 < n), 0x00)] ++ resvBytes v 0x01 1 ++ resvBytes v 0x06 0x1A
    ++ (List.range 4).flatMap fun l => layerFaults s c v l n

def checkPlan (s : State) (c : Nat) (d : Blob) : Except (Status × Nat) Obj :=
  let v := d.toNat
  match lowest (planFaults s c v) with
  | some o => .error (.desc, o)
  | none =>
    let ls := List.range (plLayers v)
    .ok (.plan d (ls.filterMap fun l => (getDesc s c (fld0 v (layOff l) 16)).map fun x => (l, x))
      (ls.filterMap fun l => (getChain s c (fld0 v (layOff l + 2) 16)).map fun x => (l, x)))

/-! ## The creating commands (R347) -/

/-- Check a creating command: entry, handle, the read of its structure, and the structure. -/
def checkCreate (s : State) (c : Nat) (m : Cmd) (struct : Blob → Except (Status × Nat) Obj) : Verdict :=
  let h := m.f 0x10 16
  let a := m.f 0x18 64
  let f := (s.ctx c).reg.func
  match firstRef
    [chk .cmd (bodyResv m [(0x12, 0x18), (0x20, 0x40)] ++ [(decide (4096 ≤ h), 0x10), (a % 128 != 0, 0x18)]),
     chk .state [((handleObj s c h).isSome, 0x10)],
     if hostFails s f a 128 then
       let fa := hostFailAddr s f a 128
       some { st := .hostmem, dw := [fa % 2 ^ 32, fa / 2 ^ 32] }
     else none] with
  | some r => .refuse r
  | none =>
    match struct (BitVec.ofNat 1024 (ofBytes (hostRead s f a 128))) with
    | .error (st, o) => .refuse (structRef st h o)
    | .ok o => .issue { (mkBound s c [] []) with objs := [(h, o)], newObj := some o }

def checkDescCreate (s : State) (c : Nat) (m : Cmd) : Verdict := checkCreate s c m (checkDesc s c)
def checkEpiCreate (s : State) (c : Nat) (m : Cmd) : Verdict := checkCreate s c m (checkChain s c)
def checkConvCreate (s : State) (c : Nat) (m : Cmd) : Verdict := checkCreate s c m (checkPlan s c)

def checkDescDestroy (s : State) (c : Nat) (m : Cmd) : Verdict :=
  let h := m.f 0x10 16
  verdict
    [chk .cmd (bodyResv m [(0x12, 0x40)] ++ [(decide (4096 ≤ h), 0x10)]),
     chk .state [((handleObj s c h).isNone, 0x10)]]
    (mkBound s c [h] [])

/-- Bind what the checks at issue made to the command's handle. -/
def bindNew (c q op : Nat) (s : State) : State :=
  match running? s c q with
  | some m =>
    match m.bound.newObj with
    | some o =>
      if m.opcode = op then
        finish c q .ok [] (s.modCtx c fun x => { x with handles := aput x.handles (m.f 0x10 16) o })
      else s
    | none => s
  | none => s

/-- DESC_CREATE (R97, R103): binds the checked descriptor. -/
def execDescCreate (c q : Nat) (s : State) : Host.Outcome State Fault Refusal := .next (bindNew c q 0x02 s)

/-- EPI_CREATE (R162): binds the checked chain and the descriptors it names. -/
def execEpiCreate (c q : Nat) (s : State) : Host.Outcome State Fault Refusal := .next (bindNew c q 0x04 s)

/-- CONV_CREATE (R230): binds the checked plan with its descriptors and chains. -/
def execConvCreate (c q : Nat) (s : State) : Host.Outcome State Fault Refusal := .next (bindNew c q 0x05 s)

/-- A command has had its effect and waits for something else. -/
def setActed (c q : Nat) (s : State) : State := modCmd c q (fun m => { m with phase := .acted }) s

/-- DESC_DESTROY (R97): unbinds the handle for every later command; its record waits for DESC_RELEASE. -/
def execDescDestroy (c q : Nat) (s : State) : Host.Outcome State Fault Refusal :=
  match running? s c q with
  | some m =>
    if m.opcode = 0x03 then
      .next (setActed c q (s.modCtx c fun x => { x with handles := adel x.handles (m.f 0x10 16) }))
    else .next s
  | none => .next s

/-- A command in flight that has acted, of an opcode. -/
def acted? (s : State) (c q op : Nat) : Option Cmd :=
  match getCmd s c q with
  | some m => if m.phase = .acted ∧ m.opcode = op then some m else none
  | none => none

/-- Does an earlier command in flight name the handle? -/
def namedEarlier (s : State) (c : Nat) (m : Cmd) (h : Nat) : Bool :=
  (s.ctx c).cmds.any fun e => decide (e.stamp < m.stamp) && (e.obj h).isSome

/-- A command that unbound objects ends, or waits for the earlier commands that name them (R97). -/
def endUnbound (c : Nat) (m : Cmd) (objs : List (Nat × Obj)) (s : State) : State :=
  if objs.any fun o => namedEarlier s c m o.1 then
    setActed c m.seq (modCmd c m.seq (fun x => { x with bound := { x.bound with objs := objs } }) s)
  else finish c m.seq .ok [] s

/-- The handles of a context whose objects name one of some regions. -/
def handlesOn (s : State) (c : Nat) (rids : List Nat) : List (Nat × Obj) :=
  (s.ctx c).handles.filter fun h => rids.any h.2.names

/-- A command that has unbound handles and waits: DESC_DESTROY, REGION_FREE or MODEL_UNLOAD. -/
def unbinder? (s : State) (c q : Nat) : Option Cmd :=
  match acted? s c q 0x03, acted? s c q 0x53, acted? s c q 0x55 with
  | some m, _, _ => some m
  | none, some m, _ => some m
  | none, none, x => x

/-- DESC_RELEASE (R97): every earlier command that names the handles has completed; the record may be written. -/
def execDescRelease (c q : Nat) (s : State) : Host.Outcome State Fault Refusal :=
  match unbinder? s c q with
  | some m => if m.bound.objs.any fun o => namedEarlier s c m o.1 then .next s else .next (finish c q .ok [] s)
  | none => .next s

end Sys2Proof.Machine
end

