-- ==== Sys2Proof/Machine/Brew.lean ====
section
/-! DEFINITION. The Brew (section 09): the block, keys, stream tables, draws and stochastic rounding, and the meanings
of BREW_SEED and BREW_STREAM. -/

namespace Sys2Proof.Machine

open Sys2Proof

/-! ## The block (R247) -/

/-- Four 32-bit words. -/
structure Quad where
  x0 : Word
  x1 : Word
  x2 : Word
  x3 : Word
deriving DecidableEq, Repr

def Quad.get (k : Quad) (i : Nat) : Word :=
  match i % 4 with
  | 0 => k.x0
  | 1 => k.x1
  | 2 => k.x2
  | _ => k.x3

def rotA (r : Nat) : Nat := [13, 23, 6, 17].getD (r % 4) 0
def rotB (r : Nat) : Nat := [9, 26, 15, 4].getD (r % 4) 0

/-- One round of the block. -/
def brewRound (k : Quad) (r : Nat) (x : Quad) : Quad :=
  let rk := k.get r + BitVec.ofNat 32 (r + 1) * 0x63D18B2F
  let x0 := x.x0 + (x.x1 ^^^ rk)
  let x3 := (x.x3 ^^^ x0).rotateLeft (rotA r)
  let x2 := x.x2 + x3
  let x1 := (x.x1 ^^^ x2).rotateLeft (rotB r)
  if r % 4 = 3 then { x0 := x0 ^^^ k.get (r / 4 + 1), x1 := x3, x2 := x2 ^^^ k.get (r / 4 + 3), x3 := x1 }
  else { x0 := x0, x1 := x3, x2 := x2, x3 := x1 }

/-- The Brew block. -/
def brewBlock (k x : Quad) : Quad :=
  let y := (List.range 16).foldl (fun y r => brewRound k r y) x
  { x0 := y.x0 + k.x2, x1 := y.x1 + k.x3, x2 := y.x2 + k.x0, x3 := y.x3 + k.x1 }

/-- A key held as 128 bits, k0 lowest. -/
def quadOf (v : BitVec 128) : Quad :=
  { x0 := v.extractLsb' 0 32, x1 := v.extractLsb' 32 32, x2 := v.extractLsb' 64 32, x3 := v.extractLsb' 96 32 }

def Quad.pack (q : Quad) : BitVec 128 := q.x3 ++ q.x2 ++ q.x1 ++ q.x0

/-- The derivation key of R249. -/
def deriveKey : Quad := { x0 := 0x62726577, x1 := 0x73746565, x2 := 0x70617469, x3 := 0x6E610000 }

/-- The key of a seed (R249). -/
def seedKey (seed : BitVec 64) : BitVec 128 :=
  (brewBlock deriveKey { x0 := seed.extractLsb' 0 32, x1 := seed.extractLsb' 32 32, x2 := 0, x3 := 0 }).pack

/-- y0 to y3 at a draw, coordinate and stream (R248). -/
def brewAt (key : BitVec 128) (draw coord sid : Nat) : Quad :=
  brewBlock (quadOf key)
    { x0 := BitVec.ofNat 32 draw, x1 := BitVec.ofNat 32 coord, x2 := BitVec.ofNat 32 (coord / 2 ^ 32),
      x3 := BitVec.ofNat 32 sid }

/-- The block for an element of a command: `CBASE` is added to its linear index (R253). -/
def Cmd.brew (m : Cmd) (sid lin : Nat) : Quad :=
  brewAt m.bound.key m.bound.draw ((m.bound.cbase.toNat + lin) % 2 ^ 64) sid

/-- The rounding of an element: stochastic under R256 with `SR` = 1, to nearest otherwise. -/
def Cmd.rnd (m : Cmd) (sr : Bool) (sid lin : Nat) : Rnd := if sr then .sr (m.brew sid lin).x0.toNat else .ne

/-! ## Draws (R251) -/

/-- Take a draw of a stream: the key, the index and the base go to the command; `NEXT` moves on. -/
def takeDraw (c q sid : Nat) (s : State) : State :=
  let e := (aget (s.ctx c).streams sid).getD { next := 0, cbase := 0, exhausted := false }
  let e' : Stream := if e.next = 0xFFFFFFFF then { e with exhausted := true } else { e with next := e.next + 1 }
  modCmd c q (fun m => { m with bound := { m.bound with draw := e.next.toNat, cbase := e.cbase } })
    (s.modCtx c fun x => { x with streams := aput x.streams sid e' })

/-! ## BREW_SEED and BREW_STREAM (R255) -/

def checkBrewSeed (s : State) (c : Nat) (m : Cmd) : Verdict :=
  verdict [chk .cmd (bodyResv m [(0x10, 0x18), (0x20, 0x40)])] (mkBound s c [] [])

def checkBrewStream (s : State) (c : Nat) (m : Cmd) : Verdict :=
  let act := m.fb 0x14 0 2
  let sid := m.f 0x10 32
  verdict
    [chk .cmd (bodyResv m [(0x15, 0x18), (0x1C, 0x20), (0x28, 0x40)] ++
      [resvBits m.entry.toNat 0x14 2 6, (act == 3, 0x14)]),
     if act = 0 ∧ aget (s.ctx c).streams sid = none ∧ 256 ≤ (s.ctx c).streams.length then
       some { st := .brewStreams, dw := [sid] }
     else none]
    (mkBound s c [] [])

/-- BREW_SEED (R249, R255): a new key, an empty stream table. -/
def execBrewSeed (c q : Nat) (s : State) : Host.Outcome State Fault Refusal :=
  match running? s c q with
  | some m =>
    if m.opcode = 0x48 then
      .next (finish c q .ok [] (s.modCtx c fun x => { x with
        key := seedKey (BitVec.ofNat 64 (m.f 0x18 64)), streams := [] }))
    else .next s
  | none => .next s

/-- BREW_STREAM (R255): sets, drops or drops all entries of the stream table. -/
def execBrewStream (c q : Nat) (s : State) : Host.Outcome State Fault Refusal :=
  match running? s c q with
  | some m =>
    if m.opcode = 0x49 then
      let sid := m.f 0x10 32
      let e : Stream := { next := w32 (m.f 0x18 32), cbase := BitVec.ofNat 64 (m.f 0x20 64), exhausted := false }
      .next (finish c q .ok [] (s.modCtx c fun x => { x with
        streams := match m.fb 0x14 0 2 with
          | 0 => aput x.streams sid e
          | 1 => adel x.streams sid
          | _ => [] }))
    else .next s
  | none => .next s

end Sys2Proof.Machine
end

