-- ==== Sys2Proof/Machine/Traffic.lean ====
section
/-! DEFINITION. Data traffic (R113 to R117, R125, R126): COPY, PERMUTING_COPY, GATHER and SCATTER, their checks at issue
and what they move. -/

namespace Sys2Proof.Machine

open Sys2Proof

/-! ## Moving bits -/

/-- Cells that reading the elements at coordinates touches, exponents of a block format included. -/
def Opd.readCells (o : Opd) (cos : List (List Nat)) : List CellAt :=
  cos.flatMap fun co => o.cells co false ++ if dBlk o.raw then o.cells co true else []

/-- Writes that move the bits of one element, and of its block's exponent for a block format. -/
def moveElem (s : State) (a : Opd) (ca : List Nat) (b : Opd) (cb : List Nat) : List Wr :=
  b.wrRaw cb (a.rawAt s ca) ++ if dBlk b.raw then b.wrExp cb (a.expAt s ca) else []

/-- Bytes that an array layout's words and rows hold, for the zero fill of R111. -/
def arrayZeros (o : Opd) : List Wr :=
  match dLayout o.raw with
  | 0 => []
  | 1 =>
    let q := dKBlocks o.raw * (dLead o.raw + dSize o.raw 1 + dTrail o.raw) * dWb o.raw
    (List.range o.tiles.length).flatMap fun t => (List.range q).map fun i =>
      { cell := o.cell t (i / 2048 % o.nb) ((dBase o.raw + i / 2048 / o.nb * 2048 + i % 2048 : Nat) : Int), mask := 0xFF, val := 0 }
  | _ =>
    (List.range o.tiles.length).flatMap fun t => (List.range (stationaryReach o.raw)).map fun i =>
      { cell := o.cell t 0 ((dBase o.raw + i : Nat) : Int), mask := 0xFF, val := 0 }

/-- Convert a source row by row into a destination (R89, R90, R126). -/
def convertRows (m : Cmd) (sr : Bool) (sid : Nat) (d : Opd) (val : List Nat → Num) : Stored :=
  (rowCoords d.sizes).foldl (fun acc co =>
    let cos := (List.range (d.size 0)).map fun i => co.set 0 i
    acc.append (d.storeRow co (cos.map fun x => m.rnd sr sid (linIndex d.sizes x)) (cos.map val))) .empty

/-- Elements of an index operand in linear order (R113). -/
def indexList (s : State) (o : Opd) : List Int :=
  (coordsOf o.sizes).map fun co => decodeInt 32 false (o.rawAt s co)

/-! ## COPY (R125, R126) -/

/-- `SR` and `SR_STREAM` of the data-traffic and vector bodies. -/
def Cmd.sr16 (m : Cmd) : Bool := m.fb 0x16 7 1 == 1
def Cmd.sid18 (m : Cmd) : Nat := m.f 0x18 32

def checkCopy (s : State) (c : Nat) (m : Cmd) : Verdict :=
  let hs := m.f 0x10 16
  let hd := m.f 0x12 16
  let a := opdH s c hs
  let d := opdH s c hd
  let isData (h : Nat) := match getDesc s c h with | some x => dKind x != 2 | none => false
  let same := sameDesc s c hs hd
  verdict
    [chk .cmd (bodyResv m [(0x14, 0x16), (0x17, 0x18), (0x1C, 0x40)] ++
       [resvBits m.entry.toNat 0x16 0 7, (badHandle hs false, 0x10), (badHandle hd false, 0x12),
        (m.sid18 != 0 && !m.sr16, 0x16)]),
     chk .desc [(!isData hs, 0x10), (!isData hd || dAliased d.raw || onWeights s c d.raw, 0x12)],
     if same then none else chkOwner s c (trafficAccs [a] d .dma),
     chk .shape [(dRank a.raw != dRank d.raw || a.sizes != d.sizes, 0x10)],
     chk .overlap [(!same && overlapH s c hs hd, 0x10)],
     if m.sr16 then chkStream s c m.sid18 0x18 else none]
    (mkBound s c [hs, hd] (if same then [] else a.feet false ++ d.feet true))

/-- The work of COPY (R126): bits where type and kind agree, otherwise each element exactly to a value and one rounding;
nothing where both operands are the same descriptor. -/
def copyWork (s : State) (c : Nat) (m : Cmd) : Work :=
  let a := m.opd s c (m.f 0x10 16)
  let d := m.opd s c (m.f 0x12 16)
  if a.raw = d.raw then .none
  else
    let cos := coordsOf d.sizes
    let x : Stored :=
      if dDtype a.raw = dDtype d.raw ∧ dKind a.raw = dKind d.raw then
        { Stored.empty with wrs := cos.flatMap fun co => moveElem s a co d co }
      else convertRows m m.sr16 m.sid18 d fun co => a.numAt s co
    { Work.none with rd := a.readCells cos, wrs := arrayZeros d ++ x.wrs, accs := trafficAccs [a] d .dma, t := x.tally }

/-- COPY (R126): bits where type and kind agree, otherwise each element exactly to a value and one rounding. -/
def execCopy (c q : Nat) (s : State) : Host.Outcome State Fault Refusal :=
  match ready? s c q 0x20 with
  | none => .next s
  | some m => .next ((copyWork s c m).run c q id s)

/-! ## PERMUTING_COPY (R115 to R117) -/

/-- The permute descriptor a handle names. -/
def permOf (o : Option Obj) : Option (Blob × Blob × Blob) :=
  match o with
  | some (.perm p a b) => some (p, a, b)
  | _ => none

def checkPermCopy (s : State) (c : Nat) (m : Cmd) : Verdict :=
  let h := m.f 0x10 16
  let p := permOf (handleObj s c h)
  let a := opdOf s c ((p.map fun t => t.2.1).getD 0)
  let d := opdOf s c ((p.map fun t => t.2.2).getD 0)
  verdict
    [chk .cmd (bodyResv m [(0x12, 0x40)] ++ [(badHandle h false, 0x10)]),
     chk .desc [(p.isNone || onWeights s c d.raw, 0x10)],
     chkOwner s c (trafficAccs [a] d .dma)]
    (mkBound s c [h] (a.feet false ++ d.feet true))

/-- Source coordinates of destination coordinates under `PERM` (R98, R115). -/
def permCoords (p : Blob) (n : Nat) (co : List Nat) : List Nat :=
  (List.range n).map fun k =>
    match (List.range n).find? fun d => dPerm p d == k with
    | some d => co.getD d 0
    | none => 0

/-- The work of PERMUTING_COPY (R115, R117): the whole source is read before any element is written. -/
def permWork (s : State) (c : Nat) (m : Cmd) : Option Work :=
  match permOf (m.obj (m.f 0x10 16)) with
  | none => none
  | some (p, ra, rd) =>
    let a := mkOpd s c m.bound.regs ra
    let d := mkOpd s c m.bound.regs rd
    let cos := coordsOf d.sizes
    let src := cos.map (permCoords p (dDims ra))
    let ws := (cos.zip src).flatMap fun (cd, cs) => moveElem s a cs d cd
    some { Work.none with rd := a.readCells src, wrs := ws, accs := trafficAccs [a] d .dma }

/-- PERMUTING_COPY (R115, R117): the whole source is read before any element is written. -/
def execPermutingCopy (c q : Nat) (s : State) : Host.Outcome State Fault Refusal :=
  match ready? s c q 0x21 with
  | none => .next s
  | some m =>
    match permWork s c m with
    | none => .next s
    | some w => .next (w.run c q id s)

/-! ## GATHER and SCATTER (R113, R114) -/

def Cmd.axis (m : Cmd) : Nat := m.fb 0x16 0 3

/-- Formats of an accumulating scatter (R114). -/
def accOk (d : Blob) : Bool := dKind d == 0 && [0, 1, 2, 6].contains (tyFmt (dDtype d))

/-- Shapes of R113 and R114: `big` has size L along the axis, and the other sizes agree. -/
def axisShape (sm big : Opd) (axis n : Nat) : Bool :=
  decide (axis < dRank sm.raw) && decide (axis < dRank big.raw) && big.size axis == n
    && sameExt ((List.range 6).filter (· != axis)) sm big

/-- The common checks of gather and scatter. -/
def checkAxis (s : State) (c : Nat) (m : Cmd) (isScatter : Bool) : Verdict :=
  let hs := m.f 0x10 16
  let hi := m.f 0x12 16
  let hd := m.f 0x14 16
  let a := opdH s c hs
  let ix := opdH s c hi
  let d := opdH s c hd
  let accum := isScatter && m.sr16
  let n := sizeProd ix.sizes
  let resv := if isScatter then resvBits m.entry.toNat 0x16 3 4 else resvBits m.entry.toNat 0x16 3 5
  verdict
    [chk .cmd (bodyResv m [(0x17, 0x40)] ++
       [resv, (badHandle hs false, 0x10), (badHandle hi false, 0x12), (badHandle hd false, 0x14),
        (decide (5 < m.axis), 0x16)]),
     chk .desc [(notLinear s c hs [0, 1], 0x10), (notLinear s c hi [1], 0x12), (badDest s c hd [0, 1], 0x14)],
     chkOwner s c (trafficAccs [a, ix] d .dma),
     chk .format [(dDtype a.raw != dDtype d.raw || dKind a.raw != dKind d.raw, 0x10), (accum && !accOk d.raw, 0x14)],
     chk .shape [(decide (dRank a.raw ≤ m.axis ∨ dRank d.raw ≤ m.axis), 0x16),
       (!(if isScatter then axisShape d a m.axis n else axisShape a d m.axis n), 0x10)],
     chk .overlap [(overlapH s c hs hd, 0x10), (overlapH s c hi hd, 0x12)]]
    (mkBound s c [hs, hi, hd] (a.feet false ++ ix.feet false ++ d.feet true))

def checkGather (s : State) (c : Nat) (m : Cmd) : Verdict := checkAxis s c m false
def checkScatter (s : State) (c : Nat) (m : Cmd) : Verdict := checkAxis s c m true

/-- Move one element along an axis. Along dimension 0 of a block format the spec states no exponent for the
destination's block: it is a free value (log 28). -/
def axisMove (s : State) (axis : Nat) (free : Nat) (a : Opd) (ca : List Nat) (d : Opd) (cd : List Nat) : List Wr :=
  if dBlk d.raw ∧ axis = 0 then
    d.wrRaw cd (a.rawAt s ca) ++ d.wrExp cd (Config.freeValue 8 (free + linIndex d.sizes cd / 16)).toNat
  else moveElem s a ca d cd

/-- A zero element of a destination. -/
def zeroElem (d : Opd) (co : List Nat) : List Wr := d.wrRaw co 0 ++ if dBlk d.raw then d.wrExp co 0 else []

/-- The work of GATHER (R113). -/
def gatherWork (s : State) (c : Nat) (m : Cmd) : Work :=
  let a := m.opd s c (m.f 0x10 16)
  let ix := m.opd s c (m.f 0x12 16)
  let d := m.opd s c (m.f 0x14 16)
  let ids := indexList s ix
  let na := a.size m.axis
  let cos := coordsOf d.sizes
  let src (co : List Nat) : List Nat :=
    co.set m.axis (max 0 (min ((na : Int) - 1) (ids.getD (co.getD m.axis 0) 0))).toNat
  let ws := cos.flatMap fun co =>
    if na = 0 then zeroElem d co else axisMove s m.axis s.env.free a (src co) d co
  let rd := ix.readCells (coordsOf ix.sizes) ++ if na = 0 then [] else a.readCells (cos.map src)
  let fr := if dBlk d.raw ∧ m.axis = 0 then sizeProd d.sizes / 16 else 0
  { Work.none with rd := rd, wrs := ws, accs := trafficAccs [a, ix] d .dma, free := fr }

/-- GATHER (R113). -/
def execGather (c q : Nat) (s : State) : Host.Outcome State Fault Refusal :=
  match ready? s c q 0x22 with
  | none => .next s
  | some m => .next ((gatherWork s c m).run c q id s)

/-- Positions j of an index list that hold the value i, ascending. -/
def positionsOf (ids : List Int) (i : Nat) : List Nat :=
  (List.range ids.length).filter fun j => ids.getD j 0 == (i : Int)

/-- Clamp a sum into the INT32 range (R114), with the flag. -/
def clamp32 (v : Int) : Int × Bool :=
  let (lo, hi) := intRange 32 false
  (max lo (min hi v), decide (v < lo ∨ hi < v))

/-- One destination element of an accumulating scatter (R114): its existing value and its contributions in order. -/
def scatterAcc (d : Opd) (co : List Nat) (old : Num) (xs : List Num) : Stored :=
  match tyFmt (dDtype d.raw) with
  | 6 =>
    let toI : Num → Int := fun x => match x with | .fin n v _ => if n then -(v : Int) else v | _ => 0
    let (v, n) := xs.foldl (fun acc x =>
      let r := clamp32 (acc.1 + toI x)
      (r.1, acc.2 + b2n r.2)) (toI old, 0)
    let st := d.storeOne co .ne (Num.ofInt v)
    { st with sat := st.sat || decide (0 < n), events := st.events + n }
  | _ => d.storeOne co .ne (xs.foldl fadd old)

/-- The work of SCATTER (R114). -/
def scatterWork (s : State) (c : Nat) (m : Cmd) : Work :=
  let a := m.opd s c (m.f 0x10 16)
  let ix := m.opd s c (m.f 0x12 16)
  let d := m.opd s c (m.f 0x14 16)
  let ids := indexList s ix
  let nd := d.size m.axis
  let skipped := (ids.filter fun i => decide (i < 0 ∨ (nd : Int) ≤ i)).length
  let cos := (coordsOf d.sizes).filter fun co => positionsOf ids (co.getD m.axis 0) != []
  let from_ (co : List Nat) (j : Nat) : List Nat := co.set m.axis j
  let x : Stored :=
    if m.sr16 then
      cos.foldl (fun acc co =>
        acc.append (scatterAcc d co (d.numAt s co)
          ((positionsOf ids (co.getD m.axis 0)).map fun j => a.numAt s (from_ co j)))) .empty
    else
      { Stored.empty with
        wrs := cos.flatMap fun co =>
          axisMove s m.axis s.env.free a (from_ co ((positionsOf ids (co.getD m.axis 0)).getLastD 0)) d co }
  let rd := ix.readCells (coordsOf ix.sizes)
    ++ a.readCells (cos.flatMap fun co => (positionsOf ids (co.getD m.axis 0)).map (from_ co))
    ++ if m.sr16 then d.readCells cos else []
  let fr := if dBlk d.raw ∧ m.axis = 0 then sizeProd d.sizes / 16 else 0
  { rd := rd, wrs := x.wrs, accs := trafficAccs [a, ix] d .dma, dw := [skipped], t := x.tally, free := fr }

/-- SCATTER (R114). -/
def execScatter (c q : Nat) (s : State) : Host.Outcome State Fault Refusal :=
  match ready? s c q 0x23 with
  | none => .next s
  | some m => .next ((scatterWork s c m).run c q id s)

end Sys2Proof.Machine
end

