-- ==== Sys2Proof/Machine/Vector.lean ====
section
/-! DEFINITION. The vector engine's arithmetic (section 06): special functions, micro-programs, chains, row statistics
and normalisation on read. -/

namespace Sys2Proof.Machine

open Sys2Proof

/-! ## Special functions (R151) -/

/-- An argument in fixed point, held within ±300, beyond which no result of R151 changes by as much as a bound. -/
def fxArg (n : Bool) (m : Nat) (e : Int) : Int :=
  let top := Num.ofInt 300
  if top.lt (.fin false m e) then fxOf n 300 0 else fxOf n m e

/-- tanh: odd bit for bit, ±1 at ±∞, less than 1 ulp from the exact value; which of the results in that bound is open (log
10). -/
def vTanh : Num → Num
  | .nan => .nan
  | .inf n => .fin n 1 0
  | .fin n m e =>
    if m = 0 then .fin n 0 0
    else
      let exact := exactTanh (fxArg false m e)
      let r := boundedVal true (dec32 (Config.tanhPos (w32 (enc32 (.fin false m e)))).toNat) exact (ulps 1 false exact)
      if n then r.negate else r

/-- The logistic function: 1 and +0 at the infinities, less than 1 ulp from the exact value. -/
def vLogistic : Num → Num
  | .nan => .nan
  | .inf n => if n then .zero else .fin false 1 0
  | .fin n m e =>
    let exact := exactLogistic (fxArg n m e)
    boundedVal true (dec32 (Config.logistic (w32 (enc32 (.fin n m e)))).toNat) exact (ulps 1 false exact)

/-! ## Micro-programs (R152 to R155) -/

/-- A number compared with the decimal `n / d`. -/
def Num.gtDec (x : Num) (n : Int) (d : Nat) : Bool := (Num.ofInt n).lt (x.mul (Num.ofInt d))
def Num.ltDec (x : Num) (n : Int) (d : Nat) : Bool := (x.mul (Num.ofInt d)).lt (Num.ofInt n)

/-- What the program of a slot comes to at a finite number inside its domain: exactly, and within which bound (R156). -/
def shippedExact (slot : Nat) (n : Bool) (m : Nat) (e : Int) : Num × Num :=
  let x := Num.fin n m e
  match slot with
  | 0 =>
    let v := exactExp (fxArg n m e)
    (v, if x.ltDec (-873365) 10000 then .fin false 1 (-149) else ulps 2 false v)
  | 1 =>
    let v := x.mul (fxNum (fxNormal (fxArg n m e)) 0)
    (v, ulps 3 true v)
  | 2 =>
    let v := x.mul (exactLogistic (fxArg n m e))
    (v, ulps 3 true v)
  | _ =>
    let v := exactRsqrt m e
    (v, (Num.fin false 3 (-1)).mul (ulps 1 false v))

/-- What a shipped program gives: the values that R156 states, and inside its domain a result within its bound; which one is
open (log 9). exp gives 1 at ±0 (DESIGN CHOICE, log 9: the rule gives only the bound there). -/
def shippedVal (slot : Nat) (x : Num) : Num :=
  let one := Num.fin false 1 0
  let inside : Num :=
    match x with
    | .fin n m e =>
      let v := shippedExact slot n m e
      boundedVal false (dec32 (Config.shippedFn slot (w32 (enc32 x))).toNat) v.1 v.2
    | _ => .zero
  if x.isNan then .nan
  else
    match slot with
    | 0 =>
      if x.isZero then one
      else if x.gtDec 887228 10000 then .inf false
      else if x.ltDec (-103973) 1000 then .zero
      else inside
    | 1 =>
      if x.gtDec 10 1 || x.eqv (.ofInt 10) then x
      else if x.ltDec (-15) 1 || x.eqv (.ofInt (-15)) then .fin true 0 0
      else inside
    | 2 =>
      if x.gtDec 32 1 || x.eqv (.ofInt 32) then x
      else if x.ltDec (-110) 1 || x.eqv (.ofInt (-110)) then .fin true 0 0
      else inside
    | _ =>
      match x with
      | .fin n 0 _ => .inf n
      | .inf false => .zero
      | _ => if x.neg? then .nan else inside

/-- Steps of the shipped programs (R156). -/
def shippedSteps (slot : Nat) : Nat := [7, 11, 9, 9].getD slot 0

/-- Table entry i of a bank: value and slope. -/
def SlotBank.entry (b : SlotBank) (slot i : Nat) : Word × Word :=
  match aget b.table i with
  | some e => e
  | none => if b.shipped then Config.shippedTable slot i else (0, 0)

/-- Program words of a bank: a shipped program has its steps, then END. -/
def SlotBank.words (b : SlotBank) (slot : Nat) : List DWord :=
  if b.shipped then
    (List.range 32).map fun j => if j < shippedSteps slot then Config.shippedProgram slot j else 0
  else b.prog

/-- Does the bank hold a program? -/
def SlotBank.loaded (b : SlotBank) : Bool := b.shipped || b.prog != []

/-- `LUT` (R155). -/
def vLut (b : SlotBank) (slot : Nat) (u : Num) : Num :=
  let look (i : Nat) (f : Num) : Num :=
    let (v, sl) := b.entry slot i
    ffma (dec32 sl.toNat) f (dec32 v.toNat)
  match u with
  | .nan => .nan
  | .inf n => if n then look 0 .zero else look 255 (.fin false 1 0)
  | .fin n m e =>
    if n && m != 0 then look 0 .zero
    else
      let i := if 0 ≤ e then m * pow2 e else m >>> (-e).toNat
      if 256 ≤ i then look 255 (.fin false 1 0) else look i (u.sub (.ofInt i))

/-- `SCALE2` in mode 0 (R155). -/
def vScale (a b : Num) : Num :=
  if a.isNan || b.isNan then .nan
  else
    let n : Int := match b with
      | .inf true => -512
      | .inf false => 512
      | .fin neg m e =>
        let q : Int := toGrid .ne neg m e 0
        max (-512) (min 512 (if neg then -q else q))
      | .nan => 0
    match a with
    | .fin neg m e => rnd32 (.fin neg m (e + n))
    | x => x

/-- `SCALE2` in mode 1: mantissa and even exponent (R155). -/
def vNormalise : Num → Num × Num
  | .fin n (m + 1) e =>
    let h : Int := e + (Nat.log2 (m + 1) : Int)
    let ev := h - h % 2
    (.fin n (m + 1) (e - ev), .ofInt ev)
  | x => (x, .zero)

/-- Does the comparison of `CSEL` hold? -/
def vCompare (mode : Nat) (a b : Num) : Bool :=
  match mode with
  | 0 => a.lt b
  | 1 => a.le b
  | 2 => a.eqv b
  | 3 => !(a.eqv b)
  | 4 => a.isNan || b.isNan
  | 5 => a.isInf
  | _ => false

/-- One step on the sixteen registers. Where `DST` and `SC` of a normalising SCALE2 name one register, the exponent stands
last (DESIGN CHOICE, log 46: R155 does not order the two results). -/
def microStep (b : SlotBank) (slot : Nat) (w : Nat) (q : List Num) : List Num :=
  let dst := bits w 56 4
  let imm := dec32 (bits w 0 32)
  let isel := bits w 42 2
  let va := q.getD (bits w 52 4) .zero
  let vb := if isel = 1 then imm else q.getD (bits w 48 4) .zero
  let vc := if isel = 2 then imm else q.getD (bits w 44 4) .zero
  match bits w 60 4 with
  | 1 => q.set dst (ffma va vb vc)
  | 2 =>
    if bits w 39 3 = 0 then q.set dst (vScale va vb)
    else
      let (m, e) := vNormalise va
      (q.set dst m).set (bits w 44 4) e
  | 3 => if vCompare (bits w 39 3) va vb then q.set dst vc else q
  | 4 => q.set dst (vLut b slot va)
  | _ => q

/-- Run the words up to END. -/
def microRun (b : SlotBank) (slot : Nat) : List DWord → List Num → List Num
  | [], q => q
  | w :: r, q => if bits w.toNat 60 4 = 0 then q else microRun b slot r (microStep b slot w.toNat q)

/-- The function of a slot's bank at an input (R153). -/
def slotFn (b : SlotBank) (slot : Nat) (x : Num) : Num :=
  if b.shipped && b.table == [] then shippedVal slot x
  else (microRun b slot (b.words slot) (x :: List.replicate 15 .zero)).getD 0 .zero

/-- A word of a program image as R154 allows it. -/
def stepWordOk (w : Nat) : Bool :=
  let op := bits w 60 4
  let mode := bits w 39 3
  bits w 32 7 == 0 && bits w 42 2 != 3 &&
    match op with
    | 1 | 4 => mode == 0
    | 2 => decide (mode ≤ 1)
    | 3 => decide (mode ≤ 5)
    | _ => false

/-- Image offset of the first word of an image that breaks R154 or R158; `none` where it is sound. -/
def imageFault (ws : List Nat) : Option Nat :=
  match ws.findIdx? fun w => bits w 60 4 == 0 with
  | none => some 0
  | some n =>
    ((List.range ws.length).find? fun j =>
      let w := ws.getD j 0
      if j < n then !stepWordOk w else w != 0).map (8 * ·)

/-! ## Chains at work (R164, R167) -/

/-- ACT (R164). -/
def actFn (slots : List SlotBank) (id : Nat) (y : Num) : Num :=
  match id with
  | 1 => if y.isNan then .nan else if Num.zero.lt y then y else .zero
  | 2 => vTanh y
  | 3 => vLogistic y
  | _ => slotFn (slots.getD (id - 0x10) .empty) (id - 0x10) y

/-- What a chain needs at an element: its inputs as operands by `IN` slot, the coordinates 2 and up in each, the
function slots, and the element's row and column. -/
structure ChEnv where
  ins : List Opd
  ups : List (List Nat)
  slots : List SlotBank
  row : Nat
  col : Nat
deriving DecidableEq, Repr

/-- An input element of a chain as FP32. -/
def ChEnv.inAt (e : ChEnv) (s : State) (slot i0 i1 : Nat) : Num :=
  match e.ins[slot]? with
  | some o => o.numAt s (i0 :: i1 :: e.ups.getD slot [])
  | none => .zero

/-- Raw bits of an input element, for a statistics record. -/
def ChEnv.rawAt (e : ChEnv) (s : State) (slot i0 i1 : Nat) : Nat :=
  match e.ins[slot]? with
  | some o => o.rawAt s (i0 :: i1 :: e.ups.getD slot [])
  | none => 0

/-- Mean and reciprocal deviation of a statistics record (R176). -/
def normOf (slots : List SlotBank) (eps n mean m2 : Nat) : Num × Num :=
  let var := if n = 0 then .zero else fdiv (dec32 m2) (.ofInt n)
  (dec32 mean, slotFn (slots.getD 3 .empty) 3 (fadd var (dec32 eps)))

/-- One prologue step on an element of row m at index k (R164, R176). -/
def proApply (s : State) (v : Nat) (e : ChEnv) (k : Nat) (t : ChStep) (x : Num) : Num :=
  if t.op = 1 then
    let i := t.arg % 4
    let (mean, inv) := normOf e.slots (chEps v) (e.rawAt s i 0 e.row) (e.rawAt s i 1 e.row) (e.rawAt s i 2 e.row)
    fmul (fsub x mean) inv
  else ffma x (e.inAt s (t.arg % 4) k 0) (e.inAt s (t.arg / 4 % 4) k 0)

/-- The prologue of a chain on an element. -/
def proRun (s : State) (v : Nat) (e : ChEnv) (k : Nat) (x : Num) : Num :=
  (chPro v).foldl (fun y t => proApply s v e k t y) x

/-- One epilogue step (R164). -/
def epiApply (s : State) (e : ChEnv) (t : ChStep) (y : Num) : Num :=
  match t.op with
  | 1 => fadd y (e.inAt s (t.arg % 4) e.col 0)
  | 2 => fmul y (e.inAt s (t.arg % 4) e.col 0)
  | 3 => fmul y (e.inAt s (t.arg % 4) e.row 0)
  | 4 => fmul y (dec32 t.imm)
  | 5 => actFn e.slots t.arg y
  | 6 => fadd y (e.inAt s (t.arg % 4) e.col e.row)
  | 7 => fmul y (e.inAt s (t.arg % 4) e.col e.row)
  | _ => y

/-- The epilogue on an element: its result, and the value that its STATS step saw. -/
def epiRun (s : State) (v : Nat) (e : ChEnv) (y : Num) : Num × Num :=
  (chEpi v).foldl (fun acc t => if t.op = 8 then (acc.1, acc.1) else (epiApply s e t acc.1, acc.2)) (y, .zero)

/-- Cells that the chain's inputs for a set of rows, columns and operand indices lie in. -/
def chainCells (v : Nat) (e : ChEnv) (rows cols ks : List Nat) : List CellAt :=
  let read (slot : Nat) (cos : List (List Nat)) : List CellAt :=
    match e.ins[slot]? with
    | some o => o.readCells (cos.map fun co => co ++ e.ups.getD slot [])
    | none => []
  ((chPro v).flatMap fun t =>
      if t.op = 1 then read (t.arg % 4) (rows.flatMap fun r => [[0, r], [1, r], [2, r]])
      else read (t.arg % 4) (ks.map fun k => [k, 0]) ++ read (t.arg / 4 % 4) (ks.map fun k => [k, 0]))
    ++ (chEpi v).flatMap fun t =>
      match t.op with
      | 1 | 2 => read (t.arg % 4) (cols.map fun n => [n, 0])
      | 3 => read (t.arg % 4) (rows.map fun r => [r, 0])
      | 6 | 7 => read (t.arg % 4) (rows.flatMap fun r => cols.map fun n => [n, r])
      | _ => []

/-! ## Row statistics (R171 to R173) -/

/-- Count, mean and M2 of a row's values, as the three record words. -/
def rowStats (xs : List Num) : Nat × Nat × Nat :=
  let n := xs.length
  if xs.any fun x => x.isNan || x.isInf then (n, fp32.canonNan, fp32.canonNan)
  else if n = 0 then (0, 0, 0)
  else
    let s1 := xs.foldl Num.add .zero
    let s2 := xs.foldl (fun a x => a.add (x.mul x)) .zero
    let nn := Num.ofInt n
    let m2 := rnd32 (((nn.mul s2).sub (s1.mul s1)).div nn)
    (n, enc32 (s1.div nn), enc32 (if m2.isZero || m2.neg? then .zero else m2))

/-- Writes of a statistics record for row m through `SOUT` (R173). -/
def statWrs (o : Opd) (row : Nat) (up : List Nat) (r : Nat × Nat × Nat) : List Wr :=
  [r.1, r.2.1, r.2.2, 0].zipIdx.flatMap fun (v, i) => o.wrRaw (i :: row :: up) v

/-! ## Checks on a command that names a chain (R165, R166) -/

/-- What an `IN` slot is used as. -/
inductive Role where
  | stat | gain | column | row | elem
deriving DecidableEq, Repr

/-- The roles of the `IN` slots. -/
def chRoles (v : Nat) : List (Nat × Role) :=
  (chPro v).flatMap (fun t =>
      if t.op = 1 then [(t.arg % 4, Role.stat)] else [(t.arg % 4, Role.gain), (t.arg / 4 % 4, Role.gain)])
    ++ (chEpi v).flatMap fun t =>
      match t.op with
      | 1 | 2 => [(t.arg % 4, Role.column)]
      | 3 => [(t.arg % 4, Role.row)]
      | 6 | 7 => [(t.arg % 4, Role.elem)]
      | _ => []

/-- The sizes 0 and 1 of each role for a destination of `rows` by `cols`, an operand of `orows` by `k`. -/
def roleShape (r : Role) (rows cols orows k : Nat) : Nat × Nat :=
  match r with
  | .stat => (4, orows)
  | .gain => (k, 1)
  | .column => (cols, 1)
  | .row => (rows, 1)
  | .elem => (cols, rows)

/-- The operand of a field of a chain. -/
def chOpd (s : State) (c : Nat) (regs : List (Nat × Region)) (ch : Chain) (off : Nat) : Opd :=
  mkOpd s c regs ((aget ch.descs off).getD 0)

/-- All four inputs. -/
def chIns (s : State) (c : Nat) (regs : List (Nat × Region)) (ch : Chain) : List Opd :=
  (List.range 4).map fun i => chOpd s c regs ch (0x08 + 2 * i)

/-- Order 1: an ACT that names an operator slot with no program. -/
def chkAct (s : State) (c he : Nat) (ch : Option Chain) : Option Ref :=
  match ch with
  | none => none
  | some ch =>
    let v := ch.raw.toNat
    let slots := slotsAt s (seqTile s c) (activeSlots s c)
    chkIn .cmd he ((chEpi v).zipIdx.map fun (t, i) =>
      (t.op == 5 && decide (0x10 ≤ t.arg) && !(slots.getD (t.arg - 0x10) .empty).loaded, epiOff i))

/-- Order 2: the handle must be a chain, and its `SOUT` no weight region. -/
def chkChain (s : State) (c he off : Nat) (ch : Option Chain) : Option Ref :=
  if he = 0xFFFF then none
  else
    match ch with
    | none => some (entryRef .desc off)
    | some ch =>
      let v := ch.raw.toNat
      if chSout v ≠ 0xFFFF ∧ onWeights s c ((aget ch.descs 0x10).getD 0) then some (structRef .desc he 0x10)
      else if chSout v ≠ 0xFFFF ∧ dAliased ((aget ch.descs 0x10).getD 0) then some (structRef .desc he 0x10)
      else none

/-- Order 3: data inputs are FP32, BF16 or FP16. -/
def chkChainFmt (he : Nat) (ch : Option Chain) : Option Ref :=
  match ch with
  | none => none
  | some ch => chkIn .format he ((List.range 4).map fun i =>
      (match aget ch.descs (0x08 + 2 * i) with
        | some d => dKind d == 0 && !(decide (dDtype d ≤ 2))
        | none => false, 0x08 + 2 * i))

/-- Order 4: the shapes of R165; `batch` is the batch index, or none where dimensions from 2 up must be 1. -/
def chkChainShape (s : State) (c he : Nat) (ch : Option Chain) (rows cols orows k : Nat) (batch : Option Nat) :
    Option Ref :=
  match ch with
  | none => none
  | some ch =>
    let v := ch.raw.toNat
    let regs := (s.ctx c).regions
    let bad (o : Opd) (sh : Nat × Nat) : Bool :=
      o.size 0 != sh.1 || !o.covers sh.2 ||
        match batch with
        | some b => (batchCoords o.sizes b).isNone
        | none => (o.sizes.drop 2).any (· != 1)
    chkIn .shape he
      ((chRoles v).map (fun t => (bad (chOpd s c regs ch (0x08 + 2 * t.1)) (roleShape t.2 rows cols orows k), 0x08 + 2 * t.1))
        ++ [(chHasStats v && (decide (2 ^ 31 ≤ cols) || bad (chOpd s c regs ch 0x10) (4, rows)), 0x10)])

/-- Order 5: `D` and `SOUT` against the inputs, and `SOUT` against `D` and the operands (R116, R166). -/
def chkChainOverlap (s : State) (c he : Nat) (ch : Option Chain) (d : Opd) (operands : List Opd) : Option Ref :=
  match ch with
  | none => none
  | some ch =>
    let v := ch.raw.toNat
    let regs := (s.ctx c).regions
    let used := (chRoles v).map Prod.fst
    let meet (a b : Opd) : Bool := dOverlap a.raw b.raw a.nb b.nb
    let so := chOpd s c regs ch 0x10
    chkIn .overlap he
      (used.map (fun i => (meet d (chOpd s c regs ch (0x08 + 2 * i))
          || (chHasStats v && meet so (chOpd s c regs ch (0x08 + 2 * i))), 0x08 + 2 * i))
        ++ [(chHasStats v && (meet so d || operands.any (meet so)), 0x10)])

/-- Footprints of a chain: its inputs read, its `SOUT` written. -/
def chainFeet (s : State) (c : Nat) (ch : Option Chain) : List Foot :=
  match ch with
  | none => []
  | some ch =>
    let regs := (s.ctx c).regions
    ((chRoles ch.raw.toNat).flatMap fun t => (chOpd s c regs ch (0x08 + 2 * t.1)).feet false)
      ++ if chHasStats ch.raw.toNat then (chOpd s c regs ch 0x10).feet true else []

/-- Operands of a chain's used inputs, and of `SOUT`. -/
def chainOpds (s : State) (c : Nat) (regs : List (Nat × Region)) (ch : Option Chain) : List Opd × List Opd :=
  match ch with
  | none => ([], [])
  | some ch =>
    ((chRoles ch.raw.toNat).map fun t => chOpd s c regs ch (0x08 + 2 * t.1),
      if chHasStats ch.raw.toNat then [chOpd s c regs ch 0x10] else [])

/-- The chain a handle is bound to in a command. -/
def Cmd.chain (m : Cmd) (h : Nat) : Option Chain :=
  match m.obj h with
  | some (.chain ch) => some ch
  | _ => none

/-- The function slots of the tile that computes index i1 of a vector command, in the banks that the command bound. -/
def Cmd.slotsFor (m : Cmd) (s : State) (c : Nat) (d x : Opd) (i1 : Nat) : List SlotBank :=
  slotsAt s (vecTile s c d x i1) m.bound.slots

end Sys2Proof.Machine
end

