-- ==== Sys2Proof/Machine/Eltwise.lean ====
section
/-! DEFINITION. Element-wise commands and function slots (sections 06, 09): ELTWISE, ROWSTAT, SOFTMAX, RANDOM, STRAIN,
VEC_LOAD, VEC_LOAD_SWITCH and VTBL_SLOPE_WRITE. -/

namespace Sys2Proof.Machine

open Sys2Proof

/-! ## ELTWISE, ROWSTAT, SOFTMAX (R177, R178) -/

/-- Flattened rows of a list of sizes (R177). -/
def rowsOf (sizes : List Nat) : Nat := sizeProd (sizes.drop 1)

/-- Coordinates 1 and up of flattened row m. -/
def rowCo (sizes : List Nat) (m : Nat) : List Nat := unIndex (sizes.drop 1) m

/-- An element of X as FP32: exact, but for a block element beyond the range, which is rounded once (log 28). -/
def Opd.f32At (o : Opd) (s : State) (co : List Nat) : Num := rnd32 (o.numAt s co)

/-- The chain environment of an element-wise command at a row and column. -/
def eltEnv (ins : List Opd) (slots : List SlotBank) (row col : Nat) : ChEnv :=
  { ins := ins, ups := ins.map fun o => List.replicate (dDims o.raw - 2) 0, slots := slots, row := row, col := col }

def checkEltwise (s : State) (c : Nat) (m : Cmd) : Verdict :=
  let hx := m.f 0x10 16
  let hd := m.f 0x12 16
  let he := m.f 0x14 16
  let x := opdH s c hx
  let d := opdH s c hd
  let ch := getChain s c he
  let (ins, outs) := chainOpds s c (s.ctx c).regions ch
  let rows := rowsOf d.sizes
  let cols := d.size 0
  verdict
    [chk .cmd (bodyResv m [(0x17, 0x18), (0x1C, 0x40)] ++
       [resvBits m.entry.toNat 0x16 0 7, (badHandle hx false, 0x10), (badHandle hd false, 0x12),
        (badHandle he true, 0x14), (m.sid18 != 0 && !m.sr16, 0x16)]),
     chkAct s c he ch,
     chk .desc [(notLinear s c hx [0], 0x10), (badDest s c hd [0], 0x12)],
     chkChain s c he 0x14 ch,
     chkOwner s c (trafficAccs (x :: ins) d .vector ++ outs.flatMap fun o => trafficAccs [] o .vector),
     chkChainFmt he ch,
     chk .shape [(dRank x.raw != dRank d.raw || x.sizes != d.sizes, 0x10)],
     chkChainShape s c he ch rows cols rows cols none,
     chk .overlap [(!sameDesc s c hx hd && overlapH s c hx hd, 0x10)],
     chkChainOverlap s c he ch d [x],
     if m.sr16 then chkStream s c m.sid18 0x18 else none]
    (mkBound s c [hx, hd, he] (x.feet false ++ d.feet true ++ chainFeet s c ch))

/-- The work of ELTWISE (R177): prologue, epilogue and conversion of each element, with the row statistics of a STATS
step. -/
def eltwiseWork (s : State) (c : Nat) (m : Cmd) : Work :=
  let x := m.opd s c (m.f 0x10 16)
  let d := m.opd s c (m.f 0x12 16)
  let ch := m.chain (m.f 0x14 16)
  let v := ((ch.map Chain.raw).getD 0).toNat
  let ins := match ch with | some h => chIns s c m.bound.regs h | none => []
  let (used, outs) := chainOpds s c m.bound.regs ch
  let slots (r : Nat) := m.slotsFor s c d x ((rowCo d.sizes r).headD 0)
  let rows := rowsOf d.sizes
  let cols := List.range (d.size 0)
  let rowOf (r : Nat) : List (Num × Num) := cols.map fun n =>
    let e := eltEnv ins (slots r) r n
    epiRun s v e (proRun s v e n (x.f32At s (n :: rowCo d.sizes r)))
  let one (r : Nat) : Stored × List Wr :=
    let ys := rowOf r
    let rs := cols.map fun n => m.rnd m.sr16 m.sid18 (linIndex d.sizes (n :: rowCo d.sizes r))
    let st := d.storeRow (0 :: rowCo d.sizes r) rs (ys.map Prod.fst)
    let seen := if chStatRounded v then
        let t := applyWrs c st.wrs s
        cols.map fun n => d.f32At t (n :: rowCo d.sizes r)
      else ys.map Prod.snd
    (st, outs.flatMap fun o => statWrs o r (List.replicate (dDims o.raw - 2) 0) (rowStats seen))
  let all := (List.range rows).map one
  let st := all.foldl (fun a t => a.append t.1) Stored.empty
  let rd := x.readCells (coordsOf d.sizes) ++ chainCells v (eltEnv ins [] 0 0) (List.range rows) cols cols
  { Work.none with
    rd := rd, wrs := st.wrs ++ all.flatMap Prod.snd,
    accs := trafficAccs (x :: used) d .vector ++ outs.flatMap fun o => trafficAccs [] o .vector, t := st.tally }

/-- ELTWISE (R177): prologue, epilogue and conversion of each element, with the row statistics of a STATS step. -/
def execEltwise (c q : Nat) (s : State) : Host.Outcome State Fault Refusal :=
  match ready? s c q 0x24 with
  | none => .next s
  | some m => .next ((eltwiseWork s c m).run c q id s)

def checkRowstat (s : State) (c : Nat) (m : Cmd) : Verdict :=
  let hx := m.f 0x10 16
  let ho := m.f 0x12 16
  let x := opdH s c hx
  let o := opdH s c ho
  verdict
    [chk .cmd (bodyResv m [(0x14, 0x40)] ++ [(badHandle hx false, 0x10), (badHandle ho false, 0x12)]),
     chk .desc [(notLinear s c hx [0], 0x10), (badDest s c ho [1], 0x12)],
     chkOwner s c (trafficAccs [x] o .vector),
     chk .shape [(o.size 0 != 4 || !o.covers (rowsOf x.sizes) || (o.sizes.drop 2).any (· != 1), 0x12)],
     chk .overlap [(overlapH s c hx ho, 0x10)]]
    (mkBound s c [hx, ho] (x.feet false ++ o.feet true))

/-- The work of ROWSTAT (R177): the statistics record of each row of X. -/
def rowstatWork (s : State) (c : Nat) (m : Cmd) : Work :=
  let x := m.opd s c (m.f 0x10 16)
  let o := m.opd s c (m.f 0x12 16)
  let ws := (List.range (rowsOf x.sizes)).flatMap fun r =>
    statWrs o r (List.replicate (dDims o.raw - 2) 0)
      (rowStats ((List.range (x.size 0)).map fun n => x.f32At s (n :: rowCo x.sizes r)))
  { Work.none with rd := x.readCells (coordsOf x.sizes), wrs := ws, accs := trafficAccs [x] o .vector }

/-- ROWSTAT (R177): the statistics record of each row of X. -/
def execRowstat (c q : Nat) (s : State) : Host.Outcome State Fault Refusal :=
  match ready? s c q 0x25 with
  | none => .next s
  | some m => .next ((rowstatWork s c m).run c q id s)

def checkSoftmax (s : State) (c : Nat) (m : Cmd) : Verdict :=
  let hx := m.f 0x10 16
  let hd := m.f 0x12 16
  let x := opdH s c hx
  let d := opdH s c hd
  verdict
    [chk .cmd (bodyResv m [(0x14, 0x16), (0x17, 0x18), (0x1C, 0x40)] ++
       [resvBits m.entry.toNat 0x16 0 7, (badHandle hx false, 0x10), (badHandle hd false, 0x12),
        (m.sid18 != 0 && !m.sr16, 0x16)]),
     chk .desc [(notLinear s c hx [0], 0x10), (badDest s c hd [0], 0x12)],
     chkOwner s c (trafficAccs [x] d .vector),
     chk .shape [(dRank x.raw != dRank d.raw || x.sizes != d.sizes, 0x10)],
     chk .overlap [(!sameDesc s c hx hd && overlapH s c hx hd, 0x10)],
     if m.sr16 then chkStream s c m.sid18 0x18 else none]
    (mkBound s c [hx, hd] (x.feet false ++ d.feet true))

/-- SOFTMAX of a row (R178), before the conversion. -/
def softmaxRow (slots : List SlotBank) (xs : List Num) : List Num :=
  if xs.any fun x => x.isNan || x == .inf false then xs.map fun _ => .nan
  else if xs.all fun x => x == .inf true then xs.map fun _ => .zero
  else
    let mx := xs.foldl vMax (.inf true)
    let es := xs.map fun x => slotFn (slots.getD 0 .empty) 0 (fsub x mx)
    let r := fdiv (.ofInt 1) (rnd32 (es.foldl Num.add .zero))
    es.map fun e => fmul e r

/-- The work of SOFTMAX (R178). -/
def softmaxWork (s : State) (c : Nat) (m : Cmd) : Work :=
  let x := m.opd s c (m.f 0x10 16)
  let d := m.opd s c (m.f 0x12 16)
  let slots (r : Nat) := m.slotsFor s c d x ((rowCo d.sizes r).headD 0)
  let cols := List.range (d.size 0)
  let st := (List.range (rowsOf d.sizes)).foldl (fun acc r =>
    let ys := softmaxRow (slots r) (cols.map fun n => x.f32At s (n :: rowCo d.sizes r))
    let rs := cols.map fun n => m.rnd m.sr16 m.sid18 (linIndex d.sizes (n :: rowCo d.sizes r))
    acc.append (d.storeRow (0 :: rowCo d.sizes r) rs ys)) Stored.empty
  { Work.none with rd := x.readCells (coordsOf d.sizes), wrs := st.wrs, accs := trafficAccs [x] d .vector, t := st.tally }

/-- SOFTMAX (R178). -/
def execSoftmax (c q : Nat) (s : State) : Host.Outcome State Fault Refusal :=
  match ready? s c q 0x26 with
  | none => .next s
  | some m => .next ((softmaxWork s c m).run c q id s)

/-! ## RANDOM (R257) -/

def Cmd.dist (m : Cmd) : Nat := m.fb 0x14 0 2

def checkRandom (s : State) (c : Nat) (m : Cmd) : Verdict :=
  let hd := m.f 0x10 16
  let hx := m.f 0x12 16
  let d := opdH s c hd
  let x := opdH s c hx
  let drop := m.dist == 3
  let a := dec32 (m.f 0x1C 32)
  let b := dec32 (m.f 0x20 32)
  let bits := m.dist == 0
  verdict
    [chk .cmd (bodyResv m [(0x15, 0x18), (0x28, 0x40)] ++
       [resvBits m.entry.toNat 0x14 2 6, (badHandle hd false, 0x10),
        (if drop then badHandle hx false else hx != 0xFFFF, 0x12),
        ((bits || drop) && m.f 0x20 32 != 0, 0x20), (!drop && m.f 0x24 32 != 0, 0x24)]),
     chk .desc [(if bits then badDest s c hd [1] else badDest s c hd [0, 1], 0x10),
       (drop && notLinear s c hx [0], 0x12)],
     chkOwner s c (trafficAccs (if drop then [x] else []) d .vector),
     chk .format [(a.isNan || a.isInf, 0x1C), (b.isNan || b.isInf || (m.dist == 2 && b.neg? && !b.isZero), 0x20),
       (drop && !(decide (dDtype x.raw ≤ 2)), 0x12)],
     chk .shape [(drop && (dRank x.raw != dRank d.raw || x.sizes != d.sizes), 0x10)],
     chk .overlap [(drop && !sameDesc s c hx hd && overlapH s c hx hd, 0x10)],
     chkStream s c (m.f 0x18 32) 0x18]
    (mkBound s c (if drop then [hd, hx] else [hd]) (d.feet true ++ if drop then x.feet false else []))

/-- The value of a draw before conversion (R257). -/
def randomVal (m : Cmd) (y0 : Nat) (x : Num) : Num :=
  let a := dec32 (m.f 0x1C 32)
  let b := dec32 (m.f 0x20 32)
  match m.dist with
  | 1 => rnd32 (a.add (Num.mul (.fin false (y0 / 256) (-24)) (b.sub a)))
  | 2 => ffma (normalQuantile (y0 / 256)) b a
  | _ => if m.f 0x24 32 ≤ y0 then fmul x a else .zero

/-- The work of RANDOM (R257). -/
def randomWork (s : State) (c : Nat) (m : Cmd) : Work :=
  let d := m.opd s c (m.f 0x10 16)
  let x := m.opd s c (m.f 0x12 16)
  let drop := m.dist == 3
  let y0 (co : List Nat) : Nat := (m.brew (m.f 0x18 32) (linIndex d.sizes co)).x0.toNat
  let st : Stored :=
    if m.dist = 0 then { Stored.empty with wrs := (coordsOf d.sizes).flatMap fun co => d.wrRaw co (y0 co) }
    else (rowCoords d.sizes).foldl (fun acc co =>
      let cos := (List.range (d.size 0)).map fun i => co.set 0 i
      acc.append (d.storeRow co (cos.map fun _ => .ne) (cos.map fun k => randomVal m (y0 k) (if drop then x.numAt s k else .zero)))) .empty
  { Work.none with
    rd := if drop then x.readCells (coordsOf d.sizes) else [], wrs := st.wrs,
    accs := trafficAccs (if drop then [x] else []) d .vector, t := st.tally }

/-- RANDOM (R257). -/
def execRandom (c q : Nat) (s : State) : Host.Outcome State Fault Refusal :=
  match ready? s c q 0x2A with
  | none => .next s
  | some m => .next ((randomWork s c m).run c q id s)

/-! ## STRAIN (R259 to R261) -/

def checkStrain (s : State) (c : Nat) (m : Cmd) : Verdict :=
  let hx := m.f 0x10 16
  let hd := m.f 0x12 16
  let hp := m.f 0x14 16
  let ha := m.f 0x16 16
  let x := opdH s c hx
  let d := opdH s c hd
  let p := opdH s c hp
  let a := opdH s c ha
  let usesP := hp != 0xFFFF
  let usesA := ha != 0xFFFF
  let rows := rowsOf x.sizes
  let t := dec32 (m.f 0x1C 32)
  let tp := dec32 (m.f 0x20 32)
  let rowShape (o : Opd) (n : Nat) : Bool := o.size 0 != n || !o.covers rows || (o.sizes.drop 2).any (· != 1)
  let outs := d :: if usesP then [p] else []
  let ins := x :: if usesA then [a] else []
  verdictE
    [chk .cmd (bodyResv m [(0x1A, 0x1C), (0x28, 0x40)] ++
       [resvBits m.entry.toNat 0x18 11 5, (decide (1024 < m.fb 0x18 0 11), 0x18), (badHandle hx false, 0x10),
        (badHandle hd false, 0x12), (badHandle hp true, 0x14), (badHandle ha true, 0x16)]),
     chk .desc [(notLinear s c hx [0], 0x10), (badDest s c hd [1], 0x12), (usesP && badDest s c hp [0], 0x14),
       (usesA && notLinear s c ha [1], 0x16)],
     chkOwner s c (trafficAccs ins d .vector ++ if usesP then trafficAccs [] p .vector else []),
     chk .format [(!(decide (dDtype x.raw ≤ 2)), 0x10), (usesP && dDtype p.raw != 0, 0x14),
       (t.isNan || t.isInf || (t.neg? && !t.isZero), 0x1C),
       (!(Num.zero.lt tp && tp.le (.ofInt 1)), 0x20)]]
    (rows == 0)
    [chk .shape [(x.size 0 == 0 || decide (262144 < x.size 0), 0x10), (rowShape d 1, 0x12), (usesP && rowShape p 1, 0x14),
       (usesA && rowShape a 4, 0x16)],
     chk .overlap [(overlapH s c hd hx || (usesP && overlapH s c hd hp) || (usesA && overlapH s c hd ha), 0x10),
       (usesP && (overlapH s c hp hx || (usesA && overlapH s c hp ha)), 0x10), (usesA && overlapH s c ha hx, 0x10)],
     chkStream s c (m.f 0x24 32) 0x24]
    (mkBound s c [hx, hd, hp, ha] (ins.flatMap (fun o => o.feet false) ++ outs.flatMap fun o => o.feet true))

/-- Insert into an order by descending logit, ties in ascending index. -/
def insLogit (x : Num × Nat) : List (Num × Nat) → List (Num × Nat)
  | [] => [x]
  | y :: r => if y.1.lt x.1 then x :: y :: r else y :: insLogit x r

/-- Running sums of a list of numbers. -/
def runningSums (acc : Num) : List Num → List Num
  | [] => []
  | x :: r => let v := acc.add x; v :: runningSums v r

/-- A row of the Strainer (R260): token, probability, and whether the row was sampled. -/
def strainRow (slots : List SlotBank) (logits : List Num) (temp tp : Num) (k : Nat) (y0 y1 : Nat) : Nat × Num :=
  let ent := (logits.zipIdx).filter fun t => !t.1.isNan
  match ent.find? fun t => t.1 == .inf false with
  | some t => (t.2, .ofInt 1)
  | none =>
    if ent.all fun t => t.1 == .inf true then (0xFFFFFFFF, .zero)
    else
      let sorted := ent.foldl (fun l t => insLogit t l) []
      match sorted with
      | [] => (0xFFFFFFFF, .zero)
      | top :: _ =>
        if temp.isZero then (top.2, .ofInt 1)
        else
          let kept := if k = 0 then sorted else sorted.take k
          let es := kept.map fun t => (slotFn (slots.getD 0 .empty) 0 (rnd32 ((t.1.sub top.1).div temp)), t.2)
          let z := es.foldl (fun a e => a.add e.1) Num.zero
          let sums := runningSums .zero (es.map Prod.fst)
          let n := match sums.findIdx? fun v => (tp.mul z).le v with
            | some i => i + 1
            | none => es.length
          let pre := es.take (max 1 n)
          let z' := pre.foldl (fun a e => a.add e.1) Num.zero
          let target := (Num.ofInt (y0 * 2 ^ 32 + y1 : Nat)).mul z'
          let sums' := runningSums .zero (pre.map Prod.fst)
          let hit := sums'.findIdx? fun v => target.lt (v.mul (.ofInt (2 ^ 64 : Nat)))
          match hit with
          | some i =>
            let e := pre.getD i (Num.zero, 0)
            (e.2, fdiv e.1 z')
          | none => (top.2, fdiv ((pre.headD (Num.zero, 0)).1) z')

/-- Are a row's parameters in range (R259)? -/
def strainParamOk (temp tp : Num) (k : Nat) : Bool :=
  !temp.isNan && !temp.isInf && (temp.isZero || !temp.neg?) && Num.zero.lt tp && tp.le (.ofInt 1)
    && decide (k ≤ 1024)

/-- The work of STRAIN (R259, R260). -/
def strainWork (s : State) (c : Nat) (m : Cmd) : Work :=
  let x := m.opd s c (m.f 0x10 16)
  let d := m.opd s c (m.f 0x12 16)
  let p := m.opd s c (m.f 0x14 16)
  let a := m.opd s c (m.f 0x16 16)
  let usesP := m.f 0x14 16 != 0xFFFF
  let usesA := m.f 0x16 16 != 0xFFFF
  let slots (r : Nat) := m.slotsFor s c d x r
  let rows := List.range (rowsOf x.sizes)
  let up (o : Opd) := List.replicate (dDims o.raw - 2) 0
  let one (r : Nat) : List Wr × Stored × Nat :=
    let par (i : Nat) : Nat := a.rawAt s (i :: r :: up a)
    let (temp, tp, k) := if usesA then (dec32 (par 0), dec32 (par 1), par 2)
      else (dec32 (m.f 0x1C 32), dec32 (m.f 0x20 32), m.fb 0x18 0 11)
    let ok := strainParamOk temp tp k && (!usesA || par 3 == 0)
    let y := m.brew (m.f 0x24 32) r
    let (tok, pr) := if ok then
        strainRow (slots r) ((List.range (x.size 0)).map fun n => x.f32At s (n :: rowCo x.sizes r)) temp tp k y.x0.toNat y.x1.toNat
      else (0xFFFFFFFF, .zero)
    (d.wrRaw (0 :: r :: up d) tok, if usesP then p.storeOne (0 :: r :: up p) .ne pr else .empty, b2n (!ok))
  let all := rows.map one
  let st := all.foldl (fun acc t => acc.append t.2.1) Stored.empty
  let skipped := (all.map fun t => t.2.2).sum
  let rd := x.readCells (coordsOf x.sizes)
    ++ if usesA then a.readCells (rows.flatMap fun r => (List.range 4).map fun i => i :: r :: up a) else []
  { rd := rd, wrs := all.flatMap (fun t => t.1) ++ st.wrs,
    accs := trafficAccs (x :: if usesA then [a] else []) d .vector ++ if usesP then trafficAccs [] p .vector else [],
    dw := [skipped], t := st.tally, free := 0 }

/-- STRAIN (R259, R260). -/
def execStrain (c q : Nat) (s : State) : Host.Outcome State Fault Refusal :=
  match ready? s c q 0x2B with
  | none => .next s
  | some m => .next ((strainWork s c m).run c q id s)

/-! ## Function slots (R158 to R160, R180) -/

def checkVecLoad (s : State) (c : Nat) (m : Cmd) : Verdict :=
  let slot := m.fb 0x10 0 3
  verdict
    [chk .cmd (bodyResv m [(0x11, 0x18), (0x20, 0x40)] ++
       [resvBits m.entry.toNat 0x10 3 5, (decide (slot < 4), 0x10), (m.f 0x18 64 % 256 != 0, 0x18)]),
     if (s.ctx c).reg.func = 0 then none else some (entryRef .perm 0x00)]
    (mkBound s c [] [])

/-- VEC_LOAD (R158, R159): the accepted load waits for VEC_LOAD_SWITCH. -/
def execVecLoad (c q : Nat) (s : State) : Host.Outcome State Fault Refusal :=
  match running? s c q with
  | some m => if m.opcode = 0x06 then .next (setActed c q s) else .next s
  | none => .next s

/-- Is a command of the partition, other than a load, bound to the bank of the slot that is not active (R159)? -/
def boundInactive (s : State) (p slot : Nat) (act : BitVec 8) : Bool :=
  (ctxsOf s p).any fun c => (s.ctx c).cmds.any fun m =>
    (m.phase == .issued || m.phase == .acted) && m.opcode != 0x06
      && bit m.bound.slots.toNat slot != bit act.toNat slot

/-- Do the member slabs take part in a copy of slots that has not ended (R161)? -/
def slotCopyBusy (s : State) (p : Nat) : Bool := (members s p).any fun n => (s.slab2 n).moveTile.isSome || posClearing s (posOf s n)

/-- The bank an image makes: its program and its whole table. -/
def imageBank (ws : List Nat) : SlotBank :=
  { shipped := false, prog := (ws.take 32).map (BitVec.ofNat 64),
    table := (List.range 256).map fun i => (i, w32 (ws.getD (32 + i) 0), w32 (ws.getD (32 + i) 0 / 2 ^ 32)) }

/-- A bank written into a slot: into bank 1 where `one` holds, otherwise into bank 0. -/
def Slots.put (v : Slots) (one : Bool) (slot : Nat) (b : SlotBank) : Slots :=
  { bank0 := if one then v.bank0 else v.bank0.set slot b, bank1 := if one then v.bank1.set slot b else v.bank1 }

/-- Write a slot's inactive bank on every tile of a slab and make it active. -/
def switchSlot (slot : Nat) (b : SlotBank) (n : Nat) (s : State) : State :=
  let v := (s.slab n).vec
  let one := !bit v.active.toNat slot
  let s := forAll (slabTiles (posOf s n)) (fun g t => t.modTile2 g fun x => { x with slots := x.slots.put one slot b }) s
  vecEvent n 1 (s.modSlab n fun x => { x with vec := { v with active := v.active ^^^ BitVec.ofNat 8 (2 ^ slot) } })

/-- VEC_LOAD_SWITCH (R159): reads and checks the image, writes the inactive bank everywhere, and switches. -/
def execVecLoadSwitch (c q : Nat) (s : State) : Host.Outcome State Fault Refusal :=
  match acted? s c q 0x06 with
  | none => .next s
  | some m =>
    let p := (s.ctx c).reg.part
    let slot := m.fb 0x10 0 3
    let act := (s.slab (seqSlab s p)).vec.active
    if s.pcie.phase != .idle || boundInactive s p slot act || slotCopyBusy s p then .next s
    else
      let f := (s.ctx c).reg.func
      let a := m.f 0x18 64
      if hostFails s f a 2304 then
        let fa := hostFailAddr s f a 2304
        .next (finish c q .hostmem [fa % 2 ^ 32, fa / 2 ^ 32] s)
      else
        let ws := (List.range 288).map fun i => ofBytes (hostRead s f (a + 8 * i) 8)
        match imageFault (ws.take 32) with
        | some o => .next (finish c q .cmd (structRef .cmd 0xFFFF o).dw s)
        | none => .next (finish c q .ok [] (forAll (members s p) (fun n t => switchSlot slot (imageBank ws) n t) s))

/-- One entry of a bank's table written (R157, R160). -/
def SlotBank.putEntry (b : SlotBank) (e : Nat) (v sl : Word) : SlotBank := { b with table := aput b.table e (v, sl) }

/-- The active bank of a slot. -/
def Slots.bank (v : Slots) (one : Bool) (slot : Nat) : SlotBank := (if one then v.bank1 else v.bank0).getD slot .empty

/-- Commit an entry into the active bank of a slot on a tile (R160). -/
def putTblEntry (one : Bool) (slot e : Nat) (v sl : Word) (g : Nat) (s : State) : State :=
  s.modTile2 g fun x => { x with slots := x.slots.put one slot ((x.slots.bank one slot).putEntry e v sl) }

/-- VTBL_SLOPE_WRITE (R160, R180, R181): commits the staged value with the slope on every tile of the slab, then advances
the entry. -/
def execVtblSlopeWrite (src : Src) (slab : Nat) (value : BitVec 32) (s : State) : Host.Outcome State Fault Refusal :=
  if isOperator s src && coreLive s slab then
    let v := (s.slab slab).vec
    let slot := bits v.vtblSel.toNat 8 3
    let e := bits v.vtblSel.toNat 0 8
    let s := forAll (slabTiles (posOf s slab)) (putTblEntry (bit v.active.toNat slot) slot e v.vtblVal value) s
    let v' : Vec := { v with vtblSlope := value, vtblSel := w32 (sh slot 8 + (e + 1) % 256) }
    .next (vecEvent slab 2 (s.modSlab slab fun x => { x with vec := v' }))
  else .next s

end Sys2Proof.Machine
end

