-- ==== Sys2Proof/Machine/Chisel.lean ====
section
/-! DEFINITION. The Chisel's planning (R43, R56, R60, R61, R127 to R137, R140): work tiles, shares, gangs, forms and the
capacity that a plan needs. The choices change no result (R137); they decide E_FORM and E_CAPACITY and what `ARR_STATE`
shows. -/

namespace Sys2Proof.Machine

open Sys2Proof

/-! ## A matrix command's operands -/

/-- What a matrix command works with: stationary and streamed operand, destination, initial accumulators, the staging
region as an operand without fields, the chain, and whether `A` or `B` lies in a bank region (R132). -/
structure Mx where
  a : Opd
  b : Opd
  d : Opd
  ci : Opd
  st : Opd
  ch : Option Chain
  res : Bool
deriving DecidableEq, Repr

/-- A descriptor that names a region and nothing else. -/
def regionBlob (rid : Nat) : Blob := BitVec.ofNat 1024 (sh rid 48)

/-- The chain's bytes, all zero for none. -/
def Mx.cv (x : Mx) : Nat := ((x.ch.map Chain.raw).getD 0).toNat

/-- Must the operand be staged (R128)? -/
def Opd.staged (o : Opd) : Bool := dLayout o.raw == 0

/-- Extents (R121). -/
def Mx.m (x : Mx) : Nat := x.d.size 1
def Mx.n (x : Mx) : Nat := x.d.size 0
def Mx.k (x : Mx) : Nat := x.a.size 0

/-- Rate factor of the operands (R48). -/
def Mx.p (x : Mx) : Nat := rateOf (dDtype x.a.raw) (dDtype x.b.raw)

/-- The work tiles (R129). -/
def Mx.work (x : Mx) : List Nat :=
  if x.b.resident then x.b.tiles else if x.a.resident then x.a.tiles else x.st.tiles

/-! ## Shares (R131) -/

/-- A work tile's share: its global tile id, first token, tokens, first column, columns. -/
structure Share where
  g : Nat
  t0 : Nat
  tn : Nat
  c0 : Nat
  cn : Nat
deriving DecidableEq, Repr

/-- Part j of u units cut into g parts: first unit and number of units. -/
def cutPart (u g j : Nat) : Nat × Nat := (j * (u / g) + min j (u % g), u / g + if j < u % g then 1 else 0)

/-- The part of units of 128 in an extent. -/
def partRange (ext g j : Nat) : Nat × Nat :=
  let (u0, un) := cutPart (cdiv ext 128) g j
  (128 * u0, min ext (128 * (u0 + un)) - 128 * u0)

/-- The piece of rank i within an extent. -/
def pieceRange (ext p i : Nat) : Nat × Nat := (i * p, min ext ((i + 1) * p) - i * p)

/-- The shares that hold work. -/
def Mx.shares (x : Mx) : List Share :=
  let w := x.work
  let all := (List.range w.length).map fun i =>
    if x.b.resident then
      let (c0, cn) := pieceRange x.n (dSize x.b.raw 1) i
      { g := w.getD i 0, t0 := 0, tn := x.m, c0 := c0, cn := cn : Share }
    else if x.a.resident then
      let (t0, tn) := pieceRange x.m (dSize x.a.raw 1) i
      { g := w.getD i 0, t0 := t0, tn := tn, c0 := 0, cn := x.n }
    else
      let gm := min (cdiv x.m 128) w.length
      let gn := min (cdiv x.n 128) (w.length / max 1 gm)
      if i < gm * gn then
        let (t0, tn) := partRange x.m gm (i % gm)
        let (c0, cn) := partRange x.n gn (i / gm)
        { g := w.getD i 0, t0 := t0, tn := tn, c0 := c0, cn := cn }
      else { g := w.getD i 0, t0 := 0, tn := 0, c0 := 0, cn := 0 }
  all.filter fun h => decide (0 < h.tn ∧ 0 < h.cn)

/-- The share that computes an element. -/
def shareOf (l : List Share) (m n : Nat) : Option Share :=
  l.find? fun h => decide (h.t0 ≤ m ∧ m < h.t0 + h.tn ∧ h.c0 ≤ n ∧ n < h.c0 + h.cn)

/-! ## Forms (R43, R61) -/

/-- Token slots and segments of a form code; a gang is Square per tile. -/
def formT : Nat → Nat
  | 2 => 32
  | 3 => 8
  | _ => 128
def formS : Nat → Nat
  | 2 => 4
  | 3 => 16
  | _ => 1

/-- Gang side of a form code. -/
def formG : Nat → Nat
  | 4 => 2
  | 5 => 4
  | _ => 1

/-- Does the form agree with an array-layout operand's `SEGS` and `PLOG` (R133)? -/
def formFits (x : Mx) (f : Nat) : Bool :=
  [x.a, x.b].all fun o => o.staged || (dS o.raw == formS f && dP o.raw == x.p)

/-- The single-tile forms that agree with the layouts. -/
def singleForms (x : Mx) : List Nat := [1, 2, 3].filter (formFits x)

/-- Kw of a form, in gang blocks for a gang (R135). -/
def formKw (x : Mx) (f : Nat) : Nat := max 1 (128 * x.p * formS f * formG f)

/-- Row and word bytes of the operands in a form, each at its own width (R49, R109, R110). -/
def Mx.rb (x : Mx) : Nat := rowBytes (sliceBytes x.p (dWidth x.a.raw)) x.p (dBlk x.a.raw)
def Mx.wb (x : Mx) (f : Nat) : Nat := wordBytes (sliceBytes x.p (dWidth x.b.raw)) x.p (formS f) (dBlk x.b.raw)

/-- Banks that hold the stream. -/
def Mx.streamBanks (x : Mx) : Nat := if x.b.staged then x.st.nb else x.b.nb

/-- Sustained words in 16 cycles (R50, R51). A stationary load that shares the stream's banks takes one cycle in eight from
it only while it lasts (R51); `est` does not count it (DESIGN CHOICE, log 46). -/
def rate16 (x : Mx) (f : Nat) : Nat := max 1 (min 16 (16 * 2048 * x.streamBanks / max 1 (x.wb f)))

/-- `est` of R60. -/
def formEst (x : Mx) (mt nt f : Nat) : Nat :=
  cdiv mt (formT f) * cdiv x.k (formKw x f) * max nt 128 * 16 / rate16 x f

/-- The first form of least estimate. -/
def pickForm (x : Mx) (mt nt : Nat) (fs : List Nat) : Option Nat :=
  fs.foldl (fun b f =>
    match b with
    | none => some f
    | some g => some (if formEst x mt nt f < formEst x mt nt g then f else g)) none

/-! ## Plans (R135, R136) -/

/-- The pins of a command, in the order `PIN_MA`, `PIN_NA`, `PIN_KS`, `ORD1` to `ORD3`, and the chain's `ACC_EL` and
`ACC_ROW`. -/
structure Pins where
  ma : Nat
  na : Nat
  ks : Nat
  ord1 : Nat
  ord2 : Nat
  ord3 : Nat
  el : Nat
  row : Nat
deriving DecidableEq, Repr

def ceil2k (n : Nat) : Nat := roundUp n 2048

/-- `stage_bytes`. -/
def Mx.stageBytes (x : Mx) : Nat := x.st.reg.len * x.st.banks.length

/-- Columns that `ma` tokens per tile leave in the accumulator memory. -/
def planCap (u : Pins) (ma : Nat) : Nat := (65536 - u.row * ma) / ((1 + u.el) * max 1 ma)

/-- Bytes of the stationary rows of `k` K blocks for `ma` tokens per tile, and of the stream of `k` K blocks. -/
def planA (x : Mx) (f ma k : Nat) : Nat :=
  if x.a.staged then ceil2k (ma / formT f * k * (128 * formG f) * x.rb) else 0
def planB (x : Mx) (f na k : Nat) : Nat :=
  if x.b.staged then ceil2k (k * (na + 2 * (formG f - 1)) * x.wb f) else 0

def planFits (x : Mx) (f ma na k : Nat) : Bool := decide (2 * (planA x f ma k + planB x f na k) ≤ x.stageBytes)

/-- The largest element of a descending range that passes a test. -/
def largest (hi lo : Nat) (t : Nat → Bool) : Option Nat :=
  ((List.range (hi + 1 - lo)).find? fun i => t (hi - i)).map fun i => hi - i

/-- A plan (R134, R135): tokens per tile and columns of an accumulator tile, K blocks per staging step, and the three
orders as the fields of byte 0x35 code them: `ord1` 1 NONE, 2 KEEP_A, 3 KEEP_B; `ord2` 1 MN, 2 NM; `ord3` 1 TK, 2 KT. -/
structure Plan where
  ma : Nat
  na : Nat
  ks : Nat
  ord1 : Nat
  ord2 : Nat
  ord3 : Nat
deriving DecidableEq, Repr

/-- A plan, or what is short of it: `CAP_RES`, `CAP_NEED`, `CAP_HAVE` (R140). -/
inductive Planned where
  | plan (p : Plan)
  | short (res need have_ : Nat)
deriving DecidableEq, Repr

/-- `keep_fits(A)`: one undoubled panel of A with the doubled staging of B (R135). -/
def keepFits (x : Mx) (f ma na ks nkb : Nat) : Bool :=
  decide (planA x f ma nkb + 2 * planB x f na ks ≤ x.stageBytes)

/-- The order of `ORD1` that holds: the pinned one, as NONE where R136 says so, or the plan's own. -/
def planOrd1 (x : Mx) (u : Pins) (f ma na ks nkb : Nat) : Nat :=
  if u.ord1 = 0 then
    if x.a.staged && ks == nkb && u.ord2 != 2 && keepFits x f ma na ks nkb then 2 else 1
  else if (u.ord1 == 2 && x.a.staged || u.ord1 == 3 && x.b.staged) && ks == nkb then u.ord1 else 1

/-- Is a keeping order pinned that fixes Ks at all K blocks (R134, R136)? -/
def keepPinned (x : Mx) (u : Pins) : Bool :=
  (u.ord1 == 2 && x.a.staged || u.ord1 == 3 && x.b.staged) && u.ks == 0

/-- `plan()` of R135 for a share of `mt` tokens and `nt` columns in a form, each pin in place of the choice it names
(R136). What is not pinned is chosen by R135 as it stands, from n0 columns and one K block; the pinned plan is then held
to `cap` and `fits` (log 46). -/
def planFor (x : Mx) (u : Pins) (f mt nt : Nat) : Planned :=
  let t := formT f
  let nkb := cdiv x.k (formKw x f)
  let bts := max 1 (cdiv mt (t * formG f))
  let n0 := min nt 128
  let need (ma na k : Nat) : Planned :=
    if planCap u ma < na then .short 1 ((1 + u.el) * ma * na + u.row * ma) 65536
    else .short 2 (2 * (planA x f ma k + planB x f na k)) x.stageBytes
  let ma? := if u.ma ≠ 0 then some (min (roundUp u.ma t) (bts * t))
    else (largest bts 1 fun bt => decide (n0 ≤ planCap u (t * bt)) && planFits x f (t * bt) n0 1).map (t * ·)
  match ma? with
  | none => need t n0 1
  | some ma =>
    let v := (largest (min nt (planCap u ma)) (n0 + 1) fun v => planFits x f ma v 1).getD n0
    let na := if u.na ≠ 0 then min u.na nt else cdiv nt (max 1 (cdiv nt (max 1 v)))
    let ks := if u.ks ≠ 0 then min u.ks nkb else if keepPinned x u then nkb
      else (largest nkb 1 fun k => planFits x f ma na k).getD 1
    if planCap u ma < na ∨ planFits x f ma na ks = false then need ma na ks
    else
      let o1 := planOrd1 x u f ma na ks nkb
      .plan { ma := ma, na := na, ks := ks, ord1 := o1, ord2 := if u.ord2 ≠ 0 then u.ord2 else if o1 = 3 then 2 else 1,
              ord3 := max 1 u.ord3 }

/-- What is short of a form's plan for a share, or nothing. -/
def planShort (x : Mx) (u : Pins) (f mt nt : Nat) : Option (Nat × Nat × Nat) :=
  match planFor x u f mt nt with
  | .plan _ => none
  | .short r n h => some (r, n, h)

/-! ## Gangs (R56, R59, R132) -/

/-- The tiles of the aligned gang of side g that holds a tile, by gang row then column. -/
def gangTiles (g gt : Nat) : List Nat :=
  let u0 := gt % 8 / g * g
  let v0 := gt / 8 % 8 / g * g
  (List.range g).flatMap fun gi => (List.range g).map fun gj => gt / 64 * 64 + 8 * (v0 + gi) + u0 + gj

/-- Is the position served by a site that is no spare? -/
def ownSite (s : State) (gt : Nat) : Bool :=
  match serverOf s (gt / 64) with
  | none => false
  | some n => decide (fld0 (s.slab n).tileMap.toNat (gt % 64) 8 < 64)

/-- Is the enable bit of gangs of side g set on the slab that serves the tile? -/
def gangOn (s : State) (g gt : Nat) : Bool :=
  match serverOf s (gt / 64) with
  | none => false
  | some n => bit (s.slab n).arrayCtrl.toNat (if g = 2 then 5 else 4)

/-- The combined share of the gang of side g that holds a share, where the gang lies within the command's tile set. -/
def gangShare (s : State) (x : Mx) (g : Nat) (h : Share) : Option (Nat × Nat) :=
  let ts := gangTiles g h.g
  let hs := x.shares.filter fun e => ts.contains e.g
  let lo := hs.foldl (fun a e => min a e.t0) h.t0
  let total := hs.foldl (fun a e => a + e.tn) 0
  if x.a.staged && x.b.staged && !x.res && hs.length == g * g && ts.all (ownSite s) && gangOn s g h.g
      && hs.all (fun e => e.c0 == h.c0 && e.cn == h.cn && decide (e.t0 + e.tn ≤ lo + total)) then
    some (total, h.cn)
  else none

/-- Does the rule of R60 want the gang on its combined share? -/
def gangWanted (x : Mx) (g m n : Nat) : Bool :=
  decide (128 * g ≤ m ∧ 128 * g * x.p ≤ x.k ∧ (if g = 2 then 1041 else 1398) ≤ n)

/-! ## Choice of form for a share (R60, R61, R133) -/

/-- A form code, or what is short (R140). -/
inductive Choice where
  | form (f : Nat)
  | short (d : Nat × Nat × Nat)
deriving DecidableEq, Repr

/-- The gang that R60 picks for a share, GANG4 before GANG2: on the gang's combined share Square is best, the bounds of
R59 hold and the gang's plan fits. `bounded` holds the plans to their capacity. -/
def pickGang (s : State) (x : Mx) (u : Pins) (h : Share) (bounded : Bool) : Option Nat :=
  [5, 4].find? fun f =>
    match gangShare s x (formG f) h with
    | none => false
    | some (m, n) =>
      gangWanted x (formG f) m n
        && pickForm x m n ((singleForms x).filter fun e => !bounded || (planShort x u e m n).isNone) == some 1
        && (!bounded || (planShort x u f m n).isNone)

/-- The form of a share under the command's `FORM`. Under a pinned gang, a share that lies in no gang of the command takes
its form as under AUTO (DESIGN CHOICE: R61 says only that the tile set must hold one such gang; log 46). -/
def chooseForm (s : State) (x : Mx) (u : Pins) (pin : Nat) (h : Share) : Choice :=
  let one (f m n : Nat) : Choice :=
    match planShort x u f m n with
    | none => .form f
    | some d => .short d
  let auto : Choice :=
    match pickGang s x u h true with
    | some f => .form f
    | none =>
      match pickForm x h.tn h.cn ((singleForms x).filter fun f => (planShort x u f h.tn h.cn).isNone) with
      | some f => .form f
      | none =>
        let f := (pickGang s x u h false).getD ((pickForm x h.tn h.cn (singleForms x)).getD 1)
        let (m, n) := (gangShare s x (formG f) h).getD (h.tn, h.cn)
        .short ((planShort x u f m n).getD (2, x.stageBytes, x.stageBytes))
  if pin = 0 then auto
  else if pin ≤ 3 then one pin h.tn h.cn
  else
    match gangShare s x (formG pin) h with
    | some (m, n) => one pin m n
    | none => auto

/-- E_FORM (R61, R132): a pinned gang that the tile set does not hold, or that is not enabled. -/
def chkForm (s : State) (x : Mx) (pin off : Nat) : Option Ref :=
  chk .form [(decide (4 ≤ pin) && !(x.shares.any fun h => (gangShare s x (formG pin) h).isSome), off)]

/-- E_CAPACITY on the lowest-ranked failing work tile (R138, R140). -/
def chkCapacity (s : State) (x : Mx) (u : Pins) (pin : Nat) : Option Ref :=
  x.shares.findSome? fun h =>
    match chooseForm s x u pin h with
    | .form _ => none
    | .short (res, need, have_) => some { st := .capacity, dw := [res, h.g, need, have_] }

/-- The form of every tile that holds a share. -/
def tileForms (s : State) (x : Mx) (u : Pins) (pin : Nat) : List (Nat × Nat) :=
  x.shares.map fun h =>
    (h.g, match chooseForm s x u pin h with
      | .form f => f
      | .short _ => 0)

/-- `ACC_EL` and `ACC_ROW` of a chain (R164). -/
def chainAcc (v : Nat) : Nat × Nat :=
  let l := chEpi v
  ((l.filter fun t => t.op == 6 || t.op == 7).length,
    (l.filter fun t => t.op == 3).length + 32 * (l.filter fun t => t.op == 8).length)

end Sys2Proof.Machine
end

