-- ==== Sys2Proof/Machine/Matrix.lean ====
section
/-! DEFINITION. The matrix product (R120 to R142, R167, R171 to R174): its checks at issue and its result. -/

namespace Sys2Proof.Machine

open Sys2Proof

/-! ## Fields of the body (R120) -/

def Cmd.mxType (m : Cmd) (second : Bool) : Nat := m.f (if second then 0x1D else 0x1C) 8
def Cmd.mxForm (m : Cmd) : Nat := m.fb 0x1E 0 4
def Cmd.mxAcc (m : Cmd) : Nat := m.fb 0x1E 4 2
def Cmd.mxRaw (m : Cmd) : Bool := m.fb 0x1E 6 1 == 1
def Cmd.mxAccIn (m : Cmd) : Bool := m.fb 0x1E 7 1 == 1
def Cmd.mxSr (m : Cmd) : Bool := m.fb 0x1F 0 1 == 1
def Cmd.mxSid (m : Cmd) : Nat := m.f 0x2C 32
def Cmd.mxBidx (m : Cmd) : Nat := m.f 0x28 32

/-- The operands of a matrix command, from a way to look up descriptors and the chain. -/
def mkMx (m : Cmd) (look : Nat → Opd) (reg : Nat → Opd) (ch : Option Chain) : Mx :=
  { a := look (m.f 0x10 16), b := look (m.f 0x12 16), d := look (m.f 0x14 16), ci := look (m.f 0x16 16),
    st := reg (m.f 0x1A 16), ch := ch,
    res := (look (m.f 0x10 16)).resident || (look (m.f 0x12 16)).resident }

/-- The operands as they stand at issue, and as a command bound them. -/
def mxAt (s : State) (c : Nat) (m : Cmd) : Mx :=
  mkMx m (opdH s c) (fun r => opdOf s c (regionBlob r)) (getChain s c (m.f 0x18 16))
def mxOf (s : State) (c : Nat) (m : Cmd) : Mx :=
  mkMx m (m.opd s c) (fun r => mkOpd s c m.bound.regs (regionBlob r)) (m.chain (m.f 0x18 16))

def mxPins (m : Cmd) (x : Mx) : Pins :=
  let (el, row) := if m.mxRaw then (0, 0) else chainAcc x.cv
  { ma := m.f 0x30 16, na := m.f 0x32 16, ks := m.f 0x34 8, ord1 := m.fb 0x35 0 2, ord2 := m.fb 0x35 2 2, ord3 := m.fb 0x35 4 2, el := el, row := row }

/-! ## Accesses (R266, R546) -/

/-- Ranks of a bank operand whose pieces meet a range of its dimension 1. -/
def Opd.ranksIn (o : Opd) (lo n : Nat) : List Nat :=
  if o.resident then
    if dRank o.raw < 2 then [0]
    else (List.range o.tiles.length).filter fun i =>
      decide (i * dSize o.raw 1 < lo + n ∧ lo < (i + 1) * dSize o.raw 1)
  else []

/-- Accesses of one kind that the engine of a tile makes to a range of a bank operand. -/
def Opd.accsIn (o : Opd) (lo n : Nat) (kind : CmdKind) (wr : Bool) (tile : Nat) : List BankAcc :=
  (o.ranksIn lo n).flatMap (o.accOn kind wr tile)

/-- Reads of a range of an operand that the arrays of the tiles it lies on make in place. -/
def Opd.inPlaceAccs (o : Opd) (lo n : Nat) : List BankAcc :=
  (o.ranksIn lo n).flatMap fun i => o.accOn .array false (o.tiles.getD i 0) i

/-- Accesses to a chain's inputs and to `SOUT` for a share. -/
def chainAccs (s : State) (c : Nat) (regs : List (Nat × Region)) (ch : Option Chain) (h : Share) : List BankAcc :=
  match ch with
  | none => []
  | some ch =>
    let v := ch.raw.toNat
    (chRoles v).flatMap (fun t =>
        let o := chOpd s c regs ch (0x08 + 2 * t.1)
        match t.2 with
        | .stat | .row | .elem => o.accsIn h.t0 h.tn .vector false h.g
        | .gain | .column => o.accsIn 0 1 .vector false h.g)
      ++ if chHasStats v then (chOpd s c regs ch 0x10).accsIn h.t0 h.tn .vector true h.g else []

/-- Accesses of a matrix command for a share. -/
def mxShareAccs (s : State) (c : Nat) (regs : List (Nat × Region)) (x : Mx) (accIn : Bool) (h : Share) : List BankAcc :=
  let rd (o : Opd) (lo n : Nat) := if o.staged then o.accsIn lo n .dma false h.g else o.inPlaceAccs lo n
  let stage := if x.a.staged || x.b.staged then x.st.stageAccs h.g else []
  rd x.a h.t0 h.tn ++ rd x.b h.c0 h.cn ++ stage
    ++ (if accIn then x.ci.accsIn h.t0 h.tn .vector false h.g else [])
    ++ chainAccs s c regs x.ch h ++ x.d.accsIn h.t0 h.tn .vector true h.g

def mxAccs (s : State) (c : Nat) (regs : List (Nat × Region)) (x : Mx) (accIn : Bool) : List BankAcc :=
  x.shares.flatMap (mxShareAccs s c regs x accIn)

/-! ## Checks at issue (R138, R166) -/

/-- A descriptor of the type that raw accumulators have (R124). -/
def rawType (int : Bool) (d : Blob) : Bool := if int then dKind d == 1 else dKind d == 0 && dDtype d == 0

/-- Is the operand type byte one that the array takes (R91)? -/
def arrayTypeOk (t : Nat) : Bool := tyOk t && arrayFmt (tyFmt t)

/-- Faults of R128 and R129 at `STAGE`, where an operand must be staged. -/
def stageBad (s : State) (c : Nat) (x : Mx) (rid : Nat) : Bool :=
  (x.a.staged || x.b.staged) &&
    (match getRegion s c rid with
      | none => true
      | some r => r.space != .bank || r.model.isSome || r.claimed || !(x.work.all x.st.tiles.contains))

/-- Layouts that agree neither with p, nor with a pinned form, nor with each other. -/
def layoutBad (x : Mx) (pin : Nat) (o : Opd) : Bool :=
  !o.staged &&
    ((x.p != 0 && dP o.raw != x.p) || (pin != 0 && dS o.raw != formS pin)
      || [x.a, x.b].any fun e => !e.staged && dS e.raw != dS o.raw)

/-- Footprint of `STAGE`: the whole region, written. -/
def stageFeet (x : Mx) (rid : Nat) : List Foot :=
  if x.a.staged || x.b.staged then [{ rid := rid, reg := x.st.reg, lo := 0, hi := (x.st.reg.len : Int) - 1, wr := true }]
  else []

def checkMatrixProduct (s : State) (c : Nat) (m : Cmd) : Verdict :=
  let v := m.entry.toNat
  let ha := m.f 0x10 16
  let hb := m.f 0x12 16
  let hd := m.f 0x14 16
  let hc := m.f 0x16 16
  let he := m.f 0x18 16
  let rid := m.f 0x1A 16
  let x := mxAt s c m
  let u := mxPins m x
  let pin := m.mxForm
  let int := m.mxAcc == 1
  let o1 := m.fb 0x35 0 2
  let o2 := m.fb 0x35 2 2
  let isArr (d : Option Blob) (l : Nat) : Bool := descIs d 0 0 || descIs d 0 l
  let pro := (chPro x.cv) != []
  let bad (o : Opd) : Bool := (batchCoords o.sizes m.mxBidx).isNone
  let ov (p q : Opd) : Bool := dOverlap p.raw q.raw p.nb q.nb
  let (sa, sb) := (dec32 (m.f 0x20 32), dec32 (m.f 0x24 32))
  let ops := [x.a, x.b] ++ if m.mxAccIn then [x.ci] else []
  verdictE
    [chk .cmd (bodyResv m [(0x36, 0x40)] ++
       [(badHandle ha false, 0x10), (badHandle hb false, 0x12), (badHandle hd false, 0x14), (badHandle hc true, 0x16),
        ((hc != 0xFFFF) != m.mxAccIn, 0x16), (badHandle he true, 0x18), (m.mxRaw && he != 0xFFFF, 0x18),
        (decide (1024 ≤ rid ∧ rid ≠ 0xFFFF), 0x1A), (decide (6 ≤ pin) || (m.mxRaw && m.mxSr), 0x1E),
        resvBits v 0x1F 1 7, (m.mxSid != 0 && !m.mxSr, 0x1F),
        resvBits v 0x35 6 2, (m.fb 0x35 4 2 == 3 || o2 == 3 || (o1 == 2 && o2 == 2) || (o1 == 3 && o2 == 1), 0x35)]),
     chkAct s c he x.ch,
     chk .desc [(!isArr (getDesc s c ha) 2 || layoutBad x pin x.a || (pro && !x.a.staged), 0x10),
       (!isArr (getDesc s c hb) 1 || layoutBad x pin x.b, 0x12), (badDest s c hd [0, 1], 0x14),
       (m.mxAccIn && notLinear s c hc [0, 1], 0x16), (stageBad s c x rid, 0x1A)],
     chkChain s c he 0x18 x.ch,
     chkOwner s c (mxAccs s c (s.ctx c).regions x m.mxAccIn),
     chk .format [(!arrayTypeOk (m.mxType false) || m.mxType false != dDtype x.a.raw, 0x1C),
       (!arrayTypeOk (m.mxType true) || m.mxType true != dDtype x.b.raw, 0x1D),
       (decide (2 ≤ m.mxAcc) || (int && !(fmtInt (tyFmt (m.mxType false)) && fmtInt (tyFmt (m.mxType true)))), 0x1E),
       (sa.isNan || sa.isInf, 0x20), (sb.isNan || sb.isInf, 0x24),
       (m.mxAccIn && !rawType int x.ci.raw, 0x16), (m.mxRaw && !rawType int x.d.raw, 0x14)],
     chkChainFmt he x.ch]
    (x.m == 0 || x.n == 0)
    [chk .shape [(!x.a.covers x.m, 0x10), (x.b.size 0 != x.k || !x.b.covers x.n, 0x12),
       (m.mxAccIn && (x.ci.size 0 != x.n || !x.ci.covers x.m), 0x16),
       (bad x.a || bad x.b || bad x.d || (m.mxAccIn && bad x.ci), 0x28)],
     chkChainShape s c he x.ch x.m x.n x.m x.k (some m.mxBidx),
     chk .overlap [(ov x.d x.a, 0x10), (ov x.d x.b, 0x12), (m.mxAccIn && hc != hd && ov x.ci x.d, 0x14)],
     chkChainOverlap s c he x.ch x.d ops,
     chkForm s x pin 0x1E,
     chkCapacity s x u pin,
     if m.mxSr then chkStream s c m.mxSid 0x2C else none]
    { (mkBound s c [ha, hb, hd, hc, he]
        (x.a.feet false ++ x.b.feet false ++ x.d.feet true ++ (if m.mxAccIn then x.ci.feet false else [])
          ++ chainFeet s c x.ch ++ stageFeet x rid)) with
      forms := tileForms s x u pin }

/-! ## The result -/

/-- Elements of A for a token, and the tally of a prologue's conversion back (R167 step 1). -/
def proRow (s : State) (x : Mx) (e : ChEnv) (up : List Nat) (k : Nat) : List El × Tally :=
  let at_ (i : Nat) : List Nat := i :: e.row :: up
  if (chPro x.cv) == [] then ((List.range k).map fun i => x.a.elAt s (at_ i), .zero)
  else
    let ys := (List.range k).map fun i => proRun s x.cv e i (x.a.f32At s (at_ i))
    let t := dDtype x.a.raw
    if dBlk x.a.raw then
      (List.range (cdiv k 16)).foldl (fun acc j =>
        let b := convertBlk (fmtWidth (tyFmt t)) (tyUns t) (List.replicate 16 .ne) ((ys.drop (16 * j)).take 16)
        (acc.1 ++ b.elems.map fun r => elOf t r b.exp,
          acc.2.add { Tally.zero with sat := b.expSat || b.sats.any id, nan := b.nan })) ([], .zero)
    else
      ys.foldl (fun acc y =>
        let r := convElem x.a.raw .ne y
        (acc.1 ++ [elOf t r.bits 0], acc.2.add { Tally.zero with sat := r.sat, nan := r.nan })) ([], .zero)

/-- Upper coordinates of an operand under `BIDX`. -/
def Cmd.upOf (m : Cmd) (o : Opd) : List Nat := (batchCoords o.sizes m.mxBidx).getD []

/-- The tile that computes an element. -/
def mxTile (x : Mx) (row col : Nat) : Nat := ((shareOf x.shares row col).map Share.g).getD 0

/-- The chain environment of a row and column of a matrix command, with the slots of the tile that computes them. -/
def mxEnv (s : State) (c : Nat) (m : Cmd) (x : Mx) (row col : Nat) : ChEnv :=
  let ins := match x.ch with | some h => chIns s c m.bound.regs h | none => []
  { ins := ins, ups := ins.map m.upOf, slots := slotsAt s (mxTile x row col) m.bound.slots, row := row, col := col }

/-- Each tile that computes a part of a row, with the row's elements of A as its prologue makes them, and their tally. -/
def mxProRows (s : State) (c : Nat) (m : Cmd) (x : Mx) (mi : Nat) : List (Nat × List El × Tally) :=
  ((x.shares.filter fun h => decide (h.t0 ≤ mi ∧ mi < h.t0 + h.tn)).map fun h => (h.g, h.c0)).map fun h =>
    (h.1, proRow s x (mxEnv s c m x mi h.2) (m.upOf x.a) x.k)

/-- The accumulator of an element (R80 to R87, R122, R124). -/
def mxLane (s : State) (m : Cmd) (x : Mx) (row : List El) (mi ni : Nat) : AccV × Tally :=
  let ub := m.upOf x.b
  let start : AccV :=
    if m.mxAccIn then
      let r := x.ci.rawAt s (ni :: mi :: m.upOf x.ci)
      if m.mxAcc = 1 then .i (toSigned 32 r) else .f (dec32 r)
    else AccV.start (m.mxAcc == 1)
  lane (windowBits (m.mxType false) (m.mxType true)) start
    (groupsOf row.length fun k => (row.getD k El.zero, x.b.elAt s (k :: ni :: ub)))

/-- One row of the result: what it stores, its tally, and its statistics record. -/
structure MxRow where
  st : Stored
  t : Tally
  stats : List Wr
deriving DecidableEq, Repr

def mxRow (s : State) (c : Nat) (m : Cmd) (x : Mx) (mi : Nat) : MxRow :=
  let cols := List.range x.n
  let ud := m.upOf x.d
  let own := mxProRows s c m x mi
  let rowOf (ni : Nat) : List El := ((aget own (mxTile x mi ni)).getD ([], Tally.zero)).1
  let tp := (own.head?.map fun r => r.2.2).getD Tally.zero
  let accs := cols.map fun ni => mxLane s m x (rowOf ni) mi ni
  let t := accs.foldl (fun a r => a.add r.2) tp
  if m.mxRaw then
    let nan := accs.any fun r => (r.1.scaled 0x3F800000 0x3F800000).isNan
    { st := { Stored.empty with
        wrs := (cols.zip accs).flatMap fun (ni, r) => x.d.wrRaw (ni :: mi :: ud) r.1.raw }
      t := { t with nan := t.nan || nan }, stats := [] }
  else
    let ys := (cols.zip accs).map fun (ni, r) =>
      let y0 := r.1.scaled (m.f 0x20 32) (m.f 0x24 32)
      if (chEpi x.cv) == [] then (y0, y0) else epiRun s x.cv (mxEnv s c m x mi ni) (rnd32 y0)
    let rs := cols.map fun ni => m.rnd m.mxSr m.mxSid (linIndex x.d.sizes (ni :: mi :: ud))
    let st := x.d.storeRow (0 :: mi :: ud) rs (ys.map Prod.fst)
    let stats := match x.ch with
      | some ch =>
        if chHasStats x.cv then
          let seen := if chStatRounded x.cv then
              let t := applyWrs c st.wrs s
              cols.map fun ni => x.d.f32At t (ni :: mi :: ud)
            else ys.map Prod.snd
          let so := chOpd s c m.bound.regs ch 0x10
          statWrs so mi (m.upOf so) (rowStats seen)
        else []
      | none => []
    { st := st, t := t.add st.tally, stats := stats }

/-- Cells that a matrix command reads. -/
def mxReads (s : State) (c : Nat) (m : Cmd) (x : Mx) : List CellAt :=
  let rows := List.range x.m
  let cols := List.range x.n
  let ks := List.range x.k
  let grid (is js : List Nat) (up : List Nat) : List (List Nat) := js.flatMap fun j => is.map fun i => i :: j :: up
  x.a.readCells (grid ks rows (m.upOf x.a)) ++ x.b.readCells (grid ks cols (m.upOf x.b))
    ++ (if m.mxAccIn then x.ci.readCells (grid cols rows (m.upOf x.ci)) else [])
    ++ if m.mxRaw then [] else chainCells x.cv (mxEnv s c m x 0 0) rows cols ks

/-- The work of MATRIX_PRODUCT (R120, R137): every element of D, whole, with the flags and counts of R92 and R93. -/
def matrixWork (s : State) (c : Nat) (m : Cmd) : Work :=
  let x := mxOf s c m
  let rows := (List.range x.m).map (mxRow s c m x)
  let t := rows.foldl (fun a r => a.add r.t) Tally.zero
  { Work.none with
    rd := mxReads s c m x, wrs := rows.flatMap fun r => r.st.wrs ++ r.stats,
    accs := mxAccs s c m.bound.regs x m.mxAccIn, t := t }

/-- MATRIX_PRODUCT (R120, R137): every element of D, whole, with the flags and counts of R92 and R93. -/
def execMatrixProduct (c q : Nat) (s : State) : Host.Outcome State Fault Refusal :=
  match ready? s c q 0x10 with
  | none => .next s
  | some m => .next ((matrixWork s c m).run c q id s)

end Sys2Proof.Machine
end

