-- ==== Sys2Proof/Machine/Caddy.lean ====
section
/-! DEFINITION. The Caddy (section 07): sequences, leaf tables, appends, forks, releases, the look-aside buffers, and
the meanings of the Caddy commands and register rows. -/

namespace Sys2Proof.Machine

open Sys2Proof

/-! ## Sequences -/

def getSeq (s : State) (c id : Nat) : Option KvSeq := aget (s.ctx c).seqs id

/-- The footprint of a sequence: the whole of its region (R206). -/
def seqFeet (s : State) (c id : Nat) (wr : Bool) : List Foot :=
  match getSeq s c id with
  | none => []
  | some q =>
    match getRegion s c q.region with
    | none => []
    | some r => [{ rid := q.region, reg := r, lo := 0, hi := (r.len : Int) - 1, wr := wr }]

/-- Bytes of a leaf table (R189). -/
def tableBytes (h nb : Nat) : Nat := 64 + 4 * h * nb

/-- Writes of a little-endian number into a sequence's leaf table. -/
def tabWrs (s : State) (c : Nat) (q : KvSeq) (off n v : Nat) : List Wr :=
  (toBytes n v).zipIdx.map fun (b, i) => { cell := { space := .hbm, key := tableDa s c q (off + i) }, mask := 0xFF, val := b }

/-- A table entry's word (R190). -/
def entryWord (leaf : Option Nat) : Nat :=
  match leaf with
  | some l => 2 ^ 31 + l
  | none => 0

/-- One cell for each span of the table, which reading it touches. -/
def tableCells (s : State) (c : Nat) (q : KvSeq) : List CellAt :=
  (List.range (cdiv (tableBytes q.h q.nb) 1024)).map fun i => { space := .hbm, key := tableDa s c q (1024 * i) }

/-! ## Leaves (R186, R187) -/

/-- Device address of a key (or value) row of a slot, and of its scale. -/
def rowDa (p : Part) (q : KvSeq) (leaf slot : Nat) (value : Bool) : Nat :=
  p.payloadBase + 32768 * leaf + slot * q.kb + if value then 0x4000 else 0
def scaleDa (p : Part) (leaf slot : Nat) (value : Bool) : Nat :=
  p.footerBase + 1024 * leaf + 2 * slot + if value then 0x200 else 0

/-- `n` cells of HBM. -/
def hbmRun (da n : Nat) : List CellAt := (List.range n).map fun i => { space := .hbm, key := da + i }

/-- Writes of bytes at a device address. -/
def hbmWrs (da : Nat) (bs : List Byte) : List Wr :=
  bs.zipIdx.map fun (b, i) => { cell := { space := .hbm, key := da + i }, mask := 0xFF, val := b }

/-- Take leaves of a partition for a context, lowest ids first (R184, R198, log 22): their records become UNWRITTEN
(R297), and the counts and the low-water mark move. -/
def takeLeaves (c n : Nat) (s : State) : List Nat × State :=
  let p := (s.ctx c).reg.part
  let part := s.part p
  let before := kvFree s p
  let used := (s.part2 p).leafTab.map Prod.fst
  let ls := lowestFree used part.leaves (n + used.length) 0 n
  let s := s.modPart2 p fun x => { x with
    leafTab := ls.foldl (fun t l => aput t l (1, c)) x.leafTab, kvAlloc := x.kvAlloc + BitVec.ofNat 64 ls.length }
  let s := forAll ls (fun l t =>
    hbmUnwrite (part.footerBase + 1024 * l) 1024 (hbmUnwrite (part.payloadBase + 32768 * l) 32768 t)) s
  let now := kvFree s p
  let s := s.modPart p fun x => { x with kvFreeMin := BitVec.ofNat 24 (min x.kvFreeMin.toNat now) }
  (ls, if part.kvReserve.toNat ≤ before ∧ now < part.kvReserve.toNat then kvEvent p 2 s else s)

/-! ## Quantisation (R197) -/

/-- A quantised row: its FP16 scale, its element codes, and the flags. -/
structure KvRow where
  scale : Nat
  els : List Nat
  sat : Bool
  nan : Bool
deriving DecidableEq, Repr

def quantRow (w : Nat) (xs : List Num) : KvRow :=
  let qm : Nat := if w = 8 then 127 else 7
  if xs.any Num.isNan then { scale := 0x7E00, els := xs.map fun _ => 0, sat := false, nan := true }
  else
    let a := xs.foldl (fun m x => let y := if x.neg? then x.negate else x; if m.lt y then y else m) Num.zero
    let q := a.div (.ofInt qm)
    let big := (Num.ofInt 65504).lt q
    let sc := if big then 0x7BFF else (fp16.convert .ne q).bits
    let sv := fp16.decode sc
    let el (x : Num) : Int :=
      match x with
      | .inf n => if n then -(qm : Int) else qm
      | _ =>
        match x.div sv with
        | .fin n m e =>
          let r : Int := toGrid .ne n m e 0
          max (-(qm : Int)) (min qm (if n then -r else r))
        | _ => 0
    { scale := sc, els := if sv.isZero then xs.map fun _ => 0 else xs.map fun x => intBits w (el x), sat := big,
      nan := false }

/-! ## Checks at issue (R208) -/

/-- E_KV_SEQ or E_KV_LIMIT: the record's first word is the Caddy `SEQ` (R352). -/
def seqRef (st : Status) (id : Nat) : Ref := { st := st, dw := [id] }

/-- A sequence id field of the body that is reserved or too large. -/
def badSeq (id : Nat) : Bool := decide (1024 ≤ id)

/-- E_KV_SEQ for an unbound sequence. -/
def chkSeq (s : State) (c id : Nat) : Option Ref := if (getSeq s c id).isNone then some (seqRef .kvSeq id) else none

def checkKvSeqCreate (s : State) (c : Nat) (m : Cmd) : Verdict :=
  let id := m.f 0x10 16
  let rid := m.f 0x12 16
  let h := m.f 0x16 8
  let mt := m.f 0x18 32
  let nb := cdiv mt (if m.fb 0x17 0 1 = 1 then 256 else 128)
  let r := getRegion s c rid
  let bad := match r with
    | none => true
    | some r => r.space != .hbm || decide (r.len < tableBytes h nb) || r.claimed
        || (s.ctx c).handles.any fun o => o.2.names rid
  verdict
    [chk .cmd (bodyResv m [(0x14, 0x16), (0x1C, 0x40)] ++
       [(badSeq id, 0x10), (decide (1024 ≤ rid), 0x12), (h == 0 || decide (64 < h), 0x16), resvBits m.entry.toNat 0x17 2 6,
        (mt == 0 || decide (2 ^ 24 < mt), 0x18)]),
     chk .desc [(bad, 0x12)],
     chk .state [((getSeq s c id).isSome, 0x10)]]
    { (mkBound s c [] []) with
      foots := match r with
        | some g => [{ rid := rid, reg := g, lo := 0, hi := (g.len : Int) - 1, wr := true }]
        | none => [] }

/-- Is the last leaf of head 0 shared, so that an append copies (R198)? -/
def appendCow (s : State) (c : Nat) (q : KvSeq) : Bool :=
  q.len % q.tl != 0 &&
    match seqLeaf s c q 0 (q.blocks q.len - 1) with
    | some l => decide (1 < leafRefs s (s.ctx c).reg.part l)
    | none => false

/-- Leaves that an append of n tokens needs (R198). -/
def appendNeed (s : State) (c : Nat) (q : KvSeq) (n : Nat) : Nat :=
  q.h * (q.blocks (q.len + n) - q.blocks q.len) + if appendCow s c q then q.h else 0

/-- Can the context obtain that many leaves now (R198)? -/
def leavesOk (s : State) (c need : Nat) : Bool :=
  let p := (s.ctx c).reg.part
  let free := kvFree s p
  if (s.ctx c).reg.lc then decide (need ≤ free) else decide (need + (s.part p).kvReserve.toNat ≤ free)

def checkKvAppend (s : State) (c : Nat) (m : Cmd) : Verdict :=
  let id := m.f 0x10 16
  let hk := m.f 0x12 16
  let hv := m.f 0x14 16
  let k := opdH s c hk
  let v := opdH s c hv
  let q := (getSeq s c id).getD { region := 0, len := 0, maxTok := 0, nb := 0, h := 0, dcode := 0, kfmt := 0 }
  let n := k.size 2
  let shape (o : Opd) : Bool := dRank o.raw == 3 && o.size 0 == q.d && o.size 1 == q.h && o.size 2 == n
  let accs := (k.accs (k.size 1) .vector false fun i => k.tiles.getD i 0)
    ++ v.accs (v.size 1) .vector false fun i => v.tiles.getD i 0
  let need := appendNeed s c q n
  match verdictE
    [chk .cmd (bodyResv m [(0x16, 0x40)] ++
       [(badSeq id, 0x10), (badHandle hk false, 0x12), (badHandle hv false, 0x14)]),
     chk .desc [(notLinear s c hk [0], 0x12), (notLinear s c hv [0], 0x14)],
     chkOwner s c accs,
     chkSeq s c id,
     chk .format [(!(decide (dDtype k.raw ≤ 2)), 0x12), (!(decide (dDtype v.raw ≤ 2)), 0x14)]]
    (n == 0)
    [chk .shape [(!shape k, 0x12), (!shape v, 0x14)],
     if q.maxTok < q.len + n then some (seqRef .kvLimit id) else none]
    (mkBound s c [hk, hv] (k.feet false ++ v.feet false ++ seqFeet s c id true)) with
  | .issue b => if leavesOk s c need then .issue b else .noPage id need
  | x => x

/-- What an append that issues takes in the same step (R198): as many leaves as the sequences need that its checks saw. -/
def issueKvAppend (c q : Nat) (m : Cmd) (seen s : State) : State :=
  match getSeq seen c (m.f 0x10 16) with
  | none => s
  | some sq =>
    let n := (opdH seen c (m.f 0x12 16)).size 2
    let (ls, s) := takeLeaves c (appendNeed seen c sq n) s
    modCmd c q (fun x => { x with bound := { x.bound with leaves := ls } }) s

def checkKvFork (s : State) (c : Nat) (m : Cmd) : Verdict :=
  let id := m.f 0x10 16
  let pid := m.f 0x12 16
  let plen := m.f 0x18 32
  let dflt : KvSeq := { region := 0, len := 0, maxTok := 0, nb := 0, h := 0, dcode := 0, kfmt := 0 }
  let ch := (getSeq s c id).getD dflt
  let pa := (getSeq s c pid).getD dflt
  let shared := (List.range pa.h).flatMap fun h => (List.range (pa.blocks plen)).filterMap fun b => seqLeaf s c pa h b
  verdict
    [chk .cmd (bodyResv m [(0x14, 0x18), (0x1C, 0x40)] ++
       [(badSeq id || id == pid, 0x10), (badSeq pid, 0x12)]),
     chkSeq s c id, chkSeq s c pid,
     chk .state [(ch.len != 0, 0x10)],
     chk .shape [(ch.h != pa.h || ch.dcode != pa.dcode || ch.kfmt != pa.kfmt || decide (ch.maxTok < plen), 0x10),
       (decide (pa.len < plen), 0x18)],
     if shared.any fun l => decide (65535 ≤ leafRefs s (s.ctx c).reg.part l) then some (seqRef .kvLimit id) else none]
    (mkBound s c [] (seqFeet s c id true ++ seqFeet s c pid false))

def checkKvTruncate (s : State) (c : Nat) (m : Cmd) : Verdict :=
  let id := m.f 0x10 16
  verdict
    [chk .cmd (bodyResv m [(0x12, 0x18), (0x1C, 0x40)] ++ [(badSeq id, 0x10)]),
     chkSeq s c id,
     chk .shape [(match getSeq s c id with | some q => decide (q.len < m.f 0x18 32) | none => false, 0x18)]]
    (mkBound s c [] (seqFeet s c id true))

def checkKvSeqFree (s : State) (c : Nat) (m : Cmd) : Verdict :=
  let id := m.f 0x10 16
  verdict [chk .cmd (bodyResv m [(0x12, 0x40)] ++ [(badSeq id, 0x10)]), chkSeq s c id]
    (mkBound s c [] (seqFeet s c id true))

/-- May the context reclaim from the target at all (R204)? -/
def reclaimPerm (s : State) (c t : Nat) : Bool :=
  (s.ctx c).reg.func == 0 || ((s.ctx c).reg.func == (s.ctx t).reg.func && (s.ctx t).reg.st != .free)

def checkKvReclaim (s : State) (c : Nat) (m : Cmd) : Verdict :=
  let id := m.f 0x10 16
  let t := m.f 0x12 16
  let x := (s.ctx t).reg
  verdict
    [chk .cmd (bodyResv m [(0x14, 0x40)] ++ [(badSeq id && id != 0xFFFF, 0x10), (t == 0 || decide (1024 ≤ t), 0x12)]),
     if reclaimPerm s c t then none else some (entryRef .perm 0x12),
     if id = 0xFFFF then none else chkSeq s t id,
     chk .state [((s.ctx c).reg.func == 0 && x.lc && x.func != 0, 0x12)]]
    (mkBound s c [] [])

def checkKvSet (s : State) (c : Nat) (m : Cmd) : Verdict :=
  verdict
    [chk .cmd (bodyResv m [(0x10, 0x18), (0x1C, 0x40)] ++ [resvBits m.entry.toNat 0x18 24 8]),
     if (s.ctx c).reg.func = 0 then none else some (entryRef .perm 0x00)]
    (mkBound s c [] [])

/-! ## The commands -/

/-- The sequence that KV_SEQ_CREATE binds (R189). -/
def newSeq (m : Cmd) : KvSeq :=
  let mt := m.f 0x18 32
  let kf := m.fb 0x17 0 1
  { region := m.f 0x12 16, len := 0, maxTok := mt, nb := cdiv mt (if kf = 1 then 256 else 128), h := m.f 0x16 8,
    dcode := m.fb 0x17 1 1, kfmt := kf }

/-- The work of KV_SEQ_CREATE (R190): the table's header, every entry invalid. -/
def seqCreateWork (s : State) (c : Nat) (m : Cmd) : Work :=
  let sq := newSeq m
  let hdr := tabWrs s c sq 0x04 4 sq.maxTok ++ tabWrs s c sq 0x08 4 sq.nb ++ tabWrs s c sq 0x0C 1 sq.h
    ++ tabWrs s c sq 0x0D 1 (2 * sq.dcode + sq.kfmt) ++ tabWrs s c sq 0x0E 2 (m.f 0x10 16)
  { Work.none with wrs := tabWrs s c sq 0 (tableBytes sq.h sq.nb) 0 ++ hdr }

/-- KV_SEQ_CREATE (R189, R190): binds the sequence and writes its table, every entry invalid. -/
def execKvSeqCreate (c q : Nat) (s : State) : Host.Outcome State Fault Refusal :=
  match ready? s c q 0x40 with
  | none => .next s
  | some m =>
    let sq := newSeq m
    .next ((seqCreateWork s c m).run c q (fun t => t.modCtx c fun x => { x with
      seqs := aput x.seqs (m.f 0x10 16) sq,
      regions := x.regions.map fun r => if r.1 = sq.region then (r.1, { r.2 with claimed := true }) else r }) s)

/-- What an append writes and reads (R199): writes, cells read, and the flags. -/
structure AppendRun where
  wrs : List Wr
  rd : List CellAt
  t : Tally
  cow : Nat
deriving DecidableEq, Repr

/-- The leaf that an append leaves in place for head h, block b: a copied leaf, a new one, or the one there was. -/
def appendLeaf (s : State) (c : Nat) (q : KvSeq) (cow : Bool) (ls : List Nat) (b0 b1 h b : Nat) : Nat :=
  if b0 ≤ b then ls.getD ((if cow then q.h else 0) + h * (b1 - b0) + (b - b0)) 0
  else if cow then ls.getD h 0
  else (seqLeaf s c q h b).getD 0

def appendRun (s : State) (c : Nat) (m : Cmd) (q : KvSeq) : AppendRun :=
  let p := s.part (s.ctx c).reg.part
  let k := m.opd s c (m.f 0x12 16)
  let v := m.opd s c (m.f 0x14 16)
  let n := k.size 2
  let ls := m.bound.leaves
  let b0 := q.blocks q.len
  let b1 := q.blocks (q.len + n)
  let cow := decide (q.h * (b1 - b0) < ls.length)
  let heads := List.range q.h
  let w := if q.kfmt = 1 then 4 else 8
  let old (h : Nat) : Nat := (seqLeaf s c q h (b0 - 1)).getD 0
  let kept := List.range (if cow then q.len % q.tl else 0)
  let copies := heads.flatMap fun h => kept.flatMap fun t => [false, true].flatMap fun vv =>
    hbmWrs (rowDa p q (ls.getD h 0) t vv) (hbmRead s (rowDa p q (old h) t vv) q.kb)
      ++ hbmWrs (scaleDa p (ls.getD h 0) t vv) (hbmRead s (scaleDa p (old h) t vv) 2)
  let copyRd := heads.flatMap fun h => kept.flatMap fun t => [false, true].flatMap fun vv =>
    hbmRun (rowDa p q (old h) t vv) q.kb ++ hbmRun (scaleDa p (old h) t vv) 2
  let one (h t : Nat) (vv : Bool) : List Wr × Tally :=
    let o := if vv then v else k
    let r := quantRow w ((List.range q.d).map fun j => o.numAt s [j, h, t])
    let tok := q.len + t
    let leaf := appendLeaf s c q cow ls b0 b1 h (tok / q.tl)
    (hbmWrs (rowDa p q leaf (tok % q.tl) vv) (packSlice w r.els)
        ++ hbmWrs (scaleDa p leaf (tok % q.tl) vv) (toBytes 2 r.scale),
      { Tally.zero with sat := r.sat, nan := r.nan })
  let rows := heads.flatMap fun h => (List.range n).flatMap fun t => [one h t false, one h t true]
  let entries := heads.flatMap fun h =>
    (List.range (b1 - (if cow then b0 - 1 else b0))).flatMap fun i =>
      let b := (if cow then b0 - 1 else b0) + i
      tabWrs s c q (entryOff q h b) 4 (entryWord (some (appendLeaf s c q cow ls b0 b1 h b)))

  { wrs := copies ++ rows.flatMap Prod.fst ++ entries ++ tabWrs s c q 0 4 (q.len + n),
    rd := tableCells s c q ++ copyRd ++ k.readCells (coordsOf k.sizes) ++ v.readCells (coordsOf v.sizes),
    t := rows.foldl (fun a r => a.add r.2) .zero, cow := if cow then q.h else 0 }

/-- Set a sequence's length. -/
def setLen (c id len : Nat) (s : State) : State :=
  s.modCtx c fun x => { x with seqs := x.seqs.map fun e => if e.1 = id then (id, { e.2 with len := len }) else e }

/-- The work of KV_APPEND (R196 to R199): a shared last leaf is copied; rows, scales, entries and the length are
written. -/
def appendWork (s : State) (c : Nat) (m : Cmd) (sq : KvSeq) : Work :=
  let r := appendRun s c m sq
  let k := m.opd s c (m.f 0x12 16)
  let v := m.opd s c (m.f 0x14 16)
  { rd := r.rd, wrs := r.wrs,
    accs := (k.accs (k.size 1) .vector false fun i => k.tiles.getD i 0)
      ++ v.accs (v.size 1) .vector false fun i => v.tiles.getD i 0,
    dw := [sq.len + k.size 2, m.bound.leaves.length, r.cow], t := r.t.flagsOnly, free := 0 }

/-- KV_APPEND (R196 to R199): copies a shared last leaf, writes rows, scales, entries and the length. -/
def execKvAppend (c q : Nat) (s : State) : Host.Outcome State Fault Refusal :=
  match ready? s c q 0x41 with
  | none => .next s
  | some m =>
    let id := m.f 0x10 16
    match getSeq s c id with
    | none => .next s
    | some sq =>
      let r := appendRun s c m sq
      let p := (s.ctx c).reg.part
      let n := (m.opd s c (m.f 0x12 16)).size 2
      let olds := (List.range r.cow).map fun h => (seqLeaf s c sq h (sq.blocks sq.len - 1)).getD 0
      .next ((appendWork s c m sq).run c q (fun t =>
        let t := forAll olds (fun l u => releaseLeaf p l u) t
        let t := t.modPart2 p fun x => { x with kvCow := x.kvCow + BitVec.ofNat 64 r.cow }
        labInvalidate c id (setLen c id (sq.len + n) t)) s)

/-- Raise a leaf's `REFS`. -/
def addRef (p l : Nat) (s : State) : State :=
  s.modPart2 p fun x => { x with
    leafTab := match aget x.leafTab l with
      | some (r, o) => aput x.leafTab l (r + 1, o)
      | none => x.leafTab }

/-- The blocks, by head, of a parent's first tokens (R201). -/
def forkPairs (pa : KvSeq) (plen : Nat) : List (Nat × Nat) :=
  (List.range pa.h).flatMap fun h => (List.range (pa.blocks plen)).map fun b => (h, b)

/-- The work of KV_FORK (R201): the child's entries name the parent's leaves. -/
def forkWork (s : State) (c : Nat) (m : Cmd) (ch pa : KvSeq) : Work :=
  let plen := m.f 0x18 32
  { Work.none with
    rd := tableCells s c pa ++ tableCells s c ch,
    wrs := (forkPairs pa plen).flatMap
        (fun hb => tabWrs s c ch (entryOff ch hb.1 hb.2) 4 (entryWord (seqLeaf s c pa hb.1 hb.2)))
      ++ tabWrs s c ch 0 4 plen }

/-- KV_FORK (R201): the child shares the leaves of the parent's first tokens. -/
def execKvFork (c q : Nat) (s : State) : Host.Outcome State Fault Refusal :=
  match ready? s c q 0x42 with
  | none => .next s
  | some m =>
    let id := m.f 0x10 16
    let plen := m.f 0x18 32
    match getSeq s c id, getSeq s c (m.f 0x12 16) with
    | some ch, some pa =>
      let ls := (forkPairs pa plen).filterMap fun hb => seqLeaf s c pa hb.1 hb.2
      .next ((forkWork s c m ch pa).run c q (fun t =>
        labInvalidate c id (setLen c id plen (forAll ls (addRef (s.ctx c).reg.part) t))) s)
    | _, _ => .next s

/-- The blocks, by head, past a new length (R202). -/
def cutPairs (sq : KvSeq) (len : Nat) : List (Nat × Nat) :=
  let b0 := sq.blocks len
  (List.range sq.h).flatMap fun h => (List.range (sq.blocks sq.len - b0)).map fun i => (h, b0 + i)

/-- The work of KV_TRUNCATE (R202): the entries past the new length become invalid. -/
def truncateWork (s : State) (c : Nat) (sq : KvSeq) (len : Nat) : Work :=
  if sq.len = len then .none
  else { Work.none with
    rd := tableCells s c sq,
    wrs := (cutPairs sq len).flatMap (fun hb => tabWrs s c sq (entryOff sq hb.1 hb.2) 4 0) ++ tabWrs s c sq 0 4 len }

/-- KV_TRUNCATE (R202): releases the leaves past the new length. -/
def execKvTruncate (c q : Nat) (s : State) : Host.Outcome State Fault Refusal :=
  match ready? s c q 0x43 with
  | none => .next s
  | some m =>
    let id := m.f 0x10 16
    let len := m.f 0x18 32
    match getSeq s c id with
    | none => .next s
    | some sq =>
      let ls := (cutPairs sq len).filterMap fun hb => seqLeaf s c sq hb.1 hb.2
      .next ((truncateWork s c sq len).run c q (fun t =>
        if sq.len = len then t
        else labInvalidate c id (setLen c id len (forAll ls (releaseLeaf (s.ctx c).reg.part) t))) s)

/-- KV_SEQ_FREE (R202). -/
def execKvSeqFree (c q : Nat) (s : State) : Host.Outcome State Fault Refusal :=
  match ready? s c q 0x44 with
  | none => .next s
  | some m => .next (finish c q .ok [] (freeSeq c (m.f 0x10 16) s))

/-- Has a context an issued command whose footprint meets a region? -/
def regionBusy (s : State) (c rid : Nat) : Bool :=
  (s.ctx c).cmds.any fun m => (m.phase == .issued || m.phase == .acted) && m.bound.foots.any fun f => f.rid == rid

/-- KV_RECLAIM (R204): frees sequences of another context once none of its commands uses them. -/
def execKvReclaim (c q : Nat) (s : State) : Host.Outcome State Fault Refusal :=
  match running? s c q with
  | none => .next s
  | some m =>
    let id := m.f 0x10 16
    let t := m.f 0x12 16
    let ids := if id = 0xFFFF then (s.ctx t).seqs.map Prod.fst else [id]
    let busy := ids.any fun i => match getSeq s t i with | some sq => regionBusy s t sq.region | none => false
    if m.opcode = 0x45 ∧ busy = false then
      let s := forAll ids (fun i u => freeSeq t i u) s
      let s := kvEvent (s.ctx t).reg.part 4 s
      let s := post (s.ctx t).reg.func 0x0004 0xFF t [id, c] s
      .next (finish c q .ok [] s)
    else .next s

/-- KV_SET (R205): the reserve, at most L. -/
def execKvSet (c q : Nat) (s : State) : Host.Outcome State Fault Refusal :=
  match running? s c q with
  | none => .next s
  | some m =>
    if m.opcode = 0x46 then
      .next (finish c q .ok [] (s.modPart (s.ctx c).reg.part fun p =>
        { p with kvReserve := BitVec.ofNat 24 (min (m.fb 0x18 0 24) p.leaves) }))
    else .next s

/-! ## Register rows (R221 to R224) -/

/-- KV_RESERVE_WRITE (R205, R222): the operator's write, clamped at L. -/
def execKvReserveWrite (src : Src) (p : Nat) (value : BitVec 32) (s : State) : Host.Outcome State Fault Refusal :=
  if isOperator s src && (s.part p).defd then
    let v := bits value.toNat 0 24
    let l := (s.part p).leaves
    let s := s.modPart p fun x => { x with kvReserve := BitVec.ofNat 24 (min v l) }
    .next (if l < v then kvEvent p 8 s else s)
  else .next s

/-- KV_CLEAR_MIN (R221): the low-water mark starts again at `KV_FREE`. -/
def execKvClearMin (src : Src) (p : Nat) (s : State) : Host.Outcome State Fault Refusal :=
  if isOperator s src && (s.part p).defd then
    .next (s.modPart p fun x => { x with kvFreeMin := BitVec.ofNat 24 (kvFree s p) })
  else .next s

/-- LAB_FLUSH (R223, R224): every entry of the slab is invalidated. -/
def execLabFlush (src : Src) (slab : Nat) (s : State) : Host.Outcome State Fault Refusal :=
  if isOperator s src && slab < 100 && (s.slab slab).st != .retired then .next (s.modSlab2 slab fun x => { x with lab := [] })
  else .next s

/-! ## Walking (R194) -/

/-- One lookup on a slab: a hit moves its entry to the front; a miss fills, replacing the least recently used of 64. -/
def labWalk (n c id : Nat) (q : KvSeq) (h b : Nat) (s : State) : State :=
  let idx := h * q.nb + b
  let line := idx / 16
  let x := s.slab2 n
  let isIt (e : LabEntry) : Bool := e.ctx == c && e.seq == id && e.line == line
  match x.lab.find? isIt with
  | some e => s.setSlab2 n { x with lab := e :: x.lab.filter (fun y => !isIt y), labHit := x.labHit + 1 }
  | none =>
    let words := (List.range 16).map fun i => w32 (ofBytes (hbmRead s (tableDa s c q (0x40 + 64 * line + 4 * i)) 4))
    let e : LabEntry := { ctx := c, seq := id, line := line, words := words }
    s.setSlab2 n { x with lab := e :: x.lab.take 63, labMiss := x.labMiss + 1 }

end Sys2Proof.Machine
end

