-- ==== Sys2Proof/Machine/Frames.lean ====
section
/-! DEFINITION. Link frames (R325): the Reed-Solomon code over 10-bit symbols and the layout of the payload. -/

namespace Sys2Proof.Machine

open Sys2Proof

/-! ## GF(2^10) with x^10 + x^3 + 1 -/

/-- Multiply by x. -/
def gfX (a : Nat) : Nat := if 512 ≤ a then (2 * a) ^^^ 1033 else 2 * a

/-- Product, over the bits of `b` from the top. -/
def gfMulN (a b : Nat) : Nat → Nat
  | 0 => 0
  | n + 1 => gfX (gfMulN a (b / 2) n) ^^^ (if b % 2 = 1 then a else 0)

def gfMul (a b : Nat) : Nat := gfMulN a b 10

/-- Power, over the bits of the exponent. -/
def gfPowN (a e : Nat) : Nat → Nat
  | 0 => 1
  | n + 1 => let r := gfPowN a (e / 2) n; let q := gfMul r r; if e % 2 = 1 then gfMul q a else q

def gfPow (a e : Nat) : Nat := gfPowN a (e % 1023) 10
def gfInv (a : Nat) : Nat := gfPow a 1022

/-- The n-th power of the root alpha = x. -/
def gfAlpha (n : Nat) : Nat := gfPow 2 n

/-- A polynomial, highest coefficient first, at a point. -/
def gfHorner (x : Nat) (l : List Nat) : Nat := l.foldl (fun v c => gfMul v x ^^^ c) 0

/-- A polynomial, lowest coefficient first, at a point. -/
def gfEval (l : List Nat) (x : Nat) : Nat := gfHorner x l.reverse

/-! ## The code

Symbol s is the coefficient of x^(511 - s): symbols 0 to 479 carry the payload, 480 to 511 the check (log 51). -/

/-- Symbols of a frame, of its payload, and roots. -/
def frameSyms : Nat := 512
def frameData : Nat := 480
def frameRoots : Nat := 32

/-- The syndromes at the 32 generator roots. -/
def syndromes (r : List Nat) : List Nat := (List.range frameRoots).map fun j => gfHorner (gfAlpha j) r

/-- Add a multiple of a shifted polynomial: c + d * x^m * b. -/
def gfAxpy (c b : List Nat) (d m : Nat) : List Nat :=
  let sft := List.replicate m 0 ++ b
  (List.range (max c.length sft.length)).map fun i => c.getD i 0 ^^^ gfMul d (sft.getD i 0)

/-- The running values of Berlekamp and Massey's algorithm: locator, the one before its last change, its degree, the shift,
and the discrepancy at that change. -/
structure Bm where
  c : List Nat
  b : List Nat
  l : Nat
  m : Nat
  d : Nat
deriving DecidableEq, Repr

/-- One syndrome. -/
def bmStep (syn : List Nat) (x : Bm) (n : Nat) : Bm :=
  let d := (List.range (x.l + 1)).foldl (fun v i => if i ≤ n then v ^^^ gfMul (x.c.getD i 0) (syn.getD (n - i) 0) else v) 0
  if d = 0 then { x with m := x.m + 1 }
  else
    let c := gfAxpy x.c x.b (gfMul d (gfInv x.d)) x.m
    if 2 * x.l ≤ n then { c := c, b := x.c, l := n + 1 - x.l, m := 1, d := d } else { x with c := c, m := x.m + 1 }

/-- The error locator and its degree. -/
def locator (syn : List Nat) : List Nat × Nat :=
  let x := (List.range frameRoots).foldl (bmStep syn) { c := [1], b := [1], l := 0, m := 1, d := 1 }
  (x.c, x.l)

/-- Product of syndromes and locator below x^32. -/
def evaluator (syn c : List Nat) : List Nat :=
  (List.range frameRoots).map fun n =>
    (List.range (n + 1)).foldl (fun v i => v ^^^ gfMul (c.getD i 0) (syn.getD (n - i) 0)) 0

/-- The formal derivative at a point: the odd coefficients. -/
def derivAt (c : List Nat) (x : Nat) : Nat :=
  gfEval ((List.range (c.length - 1)).map fun i => if i % 2 = 0 then c.getD (i + 1) 0 else 0) x

/-- Decode the symbols of a frame: its payload symbols and how many symbols were corrected, or none where more than 16
are wrong. -/
def decodeFrame (r : List Nat) : Option (List Nat × Nat) :=
  let syn := syndromes r
  if syn.all (· == 0) then some (r.take frameData, 0)
  else
    let (c, l) := locator syn
    let ev := evaluator syn c
    let fixed := r.zipIdx.map fun (v, i) =>
      let e := frameSyms - 1 - i
      let inv := gfAlpha (1023 - e)
      if gfEval c inv = 0 then v ^^^ gfMul (gfAlpha e) (gfMul (gfEval ev inv) (gfInv (derivAt c inv))) else v
    if l ≤ 16 ∧ (syndromes fixed).all (· == 0) then some (fixed.take frameData, l) else none

/-! ## The payload -/

/-- The 600 bytes as a little-endian number, symbol s in bits 10s + 9 to 10s. -/
def payloadNat : List Nat → Nat
  | [] => 0
  | x :: l => x + 1024 * payloadNat l

/-- A frame's fields: type, sequence number, replay request, acknowledgement, credits, and the channel of each valid slot. -/
structure Frame where
  ftype : Nat
  fseq : Nat
  nak : Bool
  ack : Nat
  credits : List Nat
  slots : List Nat
deriving DecidableEq, Repr

def frameOf (v : Nat) : Frame :=
  { ftype := fld v 0 12 4, fseq := fld v 0 0 12, nak := fld v 2 15 1 == 1, ack := fld v 2 0 12,
    credits := (List.range 4).map fun i => fld0 v (8 + 2 * i) 16,
    slots := (List.range 9).filterMap fun i =>
      if fld v 0x10 (4 * i + 3) 1 = 1 then some (fld v 0x10 (4 * i + 1) 2) else none }

end Sys2Proof.Machine
end

