-- ==== Sys2Proof/Machine/Links.lean ====
section
/-! DEFINITION. Package links, link jobs and collectives (section 12, R444): port states and frames, the key exchange,
packets of a job, ALLREDUCE, REDUCE_SCATTER, ALLGATHER and BLEND. -/

namespace Sys2Proof.Machine

open Sys2Proof

/-! ## Jobs -/

/-- The job in a slot of a context. -/
def getJob (s : State) (c j : Nat) : Option Job := aget (s.ctx c).jobs j

def setJob (c j : Nat) (x : Job) (s : State) : State := s.modCtx c fun y => { y with jobs := aput y.jobs j x }

def dropJob (c j : Nat) (s : State) : State := s.modCtx c fun y => { y with jobs := adel y.jobs j }

/-- Every job of the device: its context, slot and record. -/
def allJobs (s : State) : List (Nat × Nat × Job) :=
  (definedCtxs s).flatMap fun c => (s.ctx c).jobs.map fun j => (c, j.1, j.2)

/-- Jobs of a port. -/
def portJobs (s : State) (p : Nat) : List (Nat × Nat × Job) := (allJobs s).filter fun j => j.2.2.port == p

/-- Open jobs of a port, `JOBS` of R338. -/
def openJobs (s : State) (p : Nat) : Nat := ((portJobs s p).filter fun j => j.2.2.st == .open).length

/-- `RJOB` of rank r (R330). -/
def Cmd.rjob (m : Cmd) (r : Nat) : Nat := m.f (0x18 + 2 * r) 16

/-- Is the command a collective? -/
def Cmd.isColl (m : Cmd) : Bool := decide (0x2C ≤ m.opcode ∧ m.opcode ≤ 0x2F)

def Cmd.npkg (m : Cmd) : Nat := m.fb 0x15 0 4
def Cmd.prank (m : Cmd) : Nat := m.fb 0x16 0 4

/-- Ranks of the other packages. -/
def Cmd.otherRanks (m : Cmd) : List Nat := (List.range m.npkg).filter fun r => r != m.prank

/-- Job slots that a collective uses. -/
def Cmd.collJobs (m : Cmd) : List Nat := if m.isColl then m.otherRanks.map m.rjob else []

/-- Does a command use the job in a slot? -/
def Cmd.usesJob (m : Cmd) (j : Nat) : Bool :=
  m.collJobs.contains j || (m.opcode == 0x4B && m.f 0x10 16 == j && m.fb 0x13 0 2 == 0)

/-- End the commands in flight that use a failed job (R335): E_EPOCH for an epoch mismatch, E_LINK otherwise. -/
def endUsers (c j port : Nat) (epoch : Bool) (s : State) : State :=
  forAll (((s.ctx c).cmds.filter fun m => (m.phase == .issued || m.phase == .acted) && m.usesJob j).map Cmd.seq)
    (fun q t => if epoch then finish c q .epoch [(ctxEpoch t c).toNat] t else finish c q .link [port, j] t) s

/-- A job fails (R326, R328, R329): its commands end, and it keeps its slot until it is closed. An OPEN that ends so
holds no job. -/
def failJob (c j : Nat) (epoch : Bool) (s : State) : State :=
  match getJob s c j with
  | none => s
  | some x =>
    match x.st with
    | .failed => s
    | .opening => linkEvent x.port 16 (dropJob c j (endUsers c j x.port false s))
    | .open => linkEvent x.port 16 (setJob c j { x with st := .failed, failEpoch := epoch } (endUsers c j x.port epoch s))

/-- Every job of a port fails. -/
def failPort (p : Nat) (s : State) : State := forAll (portJobs s p) (fun j t => failJob j.1 j.2.1 false t) s

/-! ## Ports (R324, R326, R338, R339) -/

/-- Enter TRAINING, with `bad` trainings in a row failed so far, or FAILED after three (R324). -/
def retryTraining (p bad : Nat) (s : State) : State :=
  if 3 ≤ bad then
    linkEvent p 4 (failPort p (s.modPort p fun x => { x with st := .failed, failsInRow := bad, laneOk := 0 }))
  else s.modPort p fun x => { x with st := .training, failsInRow := bad, laneOk := 0 }

/-- `EN` written (R339): clearing fails the port's jobs and squelches its lanes; setting starts training. -/
def portEnable (p : Nat) (en : Bool) (s : State) : State :=
  let x := s.port p
  let was := x.st != .disabled
  if en then
    let s := s.modPort p fun x => { x with ctrl := x.ctrl ||| 0x80000000 }
    if was then s else s.modPort p fun x => { x with st := .training, failsInRow := 0 }
  else
    failPort p (s.modPort p fun x => { x with
      ctrl := x.ctrl &&& 0x7FFFFFFF, st := .disabled, laneOk := 0, failsInRow := 0 })

/-- Start of RETRAIN from ACTIVE (R324, R326). -/
def startRetrain (p : Nat) (s : State) : State :=
  if (s.port p).st = .active then
    (s.modPort p fun x => { x with st := .retrain, retrains := x.retrains + 1 }).modPort2 p fun x => { x with naks := 0 }
  else s

/-- Has the port's slab its link PHY: it is not RETIRED (R40)? -/
def portLive (s : State) (p : Nat) : Bool := (s.slab (Config.portSlab.getD p 0)).st != .retired

/-- LINK_EN_WRITE (R339). -/
def execLinkEnWrite (src : Src) (p : Nat) (en : Bool) (s : State) : Host.Outcome State Fault Refusal :=
  if isOperator s src && portLive s p then .next (portEnable p en s) else .next s

/-- LINK_RETRAIN_WRITE (R338). -/
def execLinkRetrainWrite (src : Src) (p : Nat) (s : State) : Host.Outcome State Fault Refusal :=
  if isOperator s src && portLive s p then .next (startRetrain p s) else .next s

/-- LINK_TRAINED (R324, R456): ACTIVE after a training; after a RETRAIN sequence state and jobs are kept. A peer port
that the Armature does not expect fails the training. -/
def execLinkTrained (p peerPort : Nat) (dig : BitVec 384) (ep : BitVec 32) (s : State) :
    Host.Outcome State Fault Refusal :=
  if !s.live then .next s else
  let x := s.port p
  let y := s.port2 p
  let wrong := decide (y.expPort ≠ 0xFF ∧ y.expPort ≠ peerPort)
  if x.st = .training ∨ x.st = .retrain then
    if wrong then
      .next (retryTraining p (x.failsInRow + 1) (if x.st = .retrain then failPort p s else s))
    else
      let s := (s.setPort p { x with st := .active, laneOk := 15, peerPort := peerPort, failsInRow := 0 }).setPort2 p
        { y with peerDigest := dig, peerEpoch := ep, naks := 0 }
      if x.st = .retrain then .next (drainPort p (linkEvent p 2 s))
      else
        let s := s.modPort p fun z => { z with rxNext := 0, txNext := 0, txAcked := 0xFFF }
        .next (linkEvent p 1 (s.modPort2 p fun z => { z with
          credits := [4096, 4096, 4096, 4096], rxUsed := [0, 0, 0, 0], nakSeq := 0, nakOut := false, wait := [0, 0, 0, 0] }))
  else .next s

/-- LINK_TRAINING_TIMEOUT (R324, R326): a training that takes 50 ms fails; out of RETRAIN the jobs fail too. -/
def execLinkTrainingTimeout (p : Nat) (s : State) : Host.Outcome State Fault Refusal :=
  if !s.live then .next s else
  let x := s.port p
  match x.st with
  | .training => .next (retryTraining p (x.failsInRow + 1) s)
  | .retrain => .next (retryTraining p (x.failsInRow + 1) (failPort p s))
  | _ => .next s

/-- Occurrences of a virtual channel. -/
def countVc (l : List Nat) (v : Nat) : Nat := (l.filter (· == v)).length

/-- Acknowledgement, replay request and credits of a frame (R325, R326). -/
def frameAck (p : Nat) (nak : Bool) (ack : Nat) (credits : List Nat) (s : State) : State :=
  let x := s.port p
  let y := s.port2 p
  let moved := ack != x.txAcked
  let naks := if nak then (if moved || y.nakSeq != ack then 1 else y.naks + 1) else if moved then 0 else y.naks
  let s := s.setPort p { x with txAcked := ack, replays := if nak then x.replays + 1 else x.replays }
  let s := s.setPort2 p { y with
    naks := naks, nakSeq := if nak then ack else y.nakSeq,
    credits := (List.range 4).map fun v => min 4096 (y.credits.getD v 0 + credits.getD v 0) }
  if 16 ≤ naks then startRetrain p s else drainPort p s

/-- The slots of a frame that is taken in order go into the receive buffer; one out of order is dropped. -/
def takeFrame (p : Nat) (f : Frame) (s : State) : State :=
  if f.ftype = 0 ∧ f.fseq = (s.port p).rxNext then
    (s.modPort p fun x => { x with
      rxNext := (x.rxNext + 1) % 4096, rx := x.rx + BitVec.ofNat 64 f.slots.length }).modPort2 p fun y => { y with
      rxUsed := (List.range 4).map fun v => y.rxUsed.getD v 0 + countVc f.slots v, nakOut := false }
  else s

/-- LINK_FRAME_RX (R325, R326): a frame that fails its FEC is dropped, with every later one until its sequence number comes
again, and a replay is asked for; DATA frames are taken in order only; training frames and reserved types have no effect
on an ACTIVE port. -/
def execLinkFrameRx (p : Nat) (symbols : List Nat) (s : State) : Host.Outcome State Fault Refusal :=
  if !s.live then .next s else
  if (s.port p).st = .active then
    match decodeFrame symbols with
    | none =>
      .next ((s.modPort p fun x => { x with fecUe := x.fecUe + 1 }).modPort2 p fun y => { y with nakOut := true })
    | some (data, fec) =>
      let f := frameOf (payloadNat data)
      let s := s.modPort p fun x => { x with fecSym := x.fecSym + BitVec.ofNat 64 fec }
      if f.ftype = 0 ∨ f.ftype = 2 then .next (frameAck p f.nak f.ack f.credits (takeFrame p f s)) else .next s
  else .next s

/-- Fields of a link header slot (R327). -/
def lJob (h : BitVec 512) : Nat := fld0 h.toNat 0x00 16
def lLen (h : BitVec 512) : Nat := fld0 h.toNat 0x02 8
def lType (h : BitVec 512) : Nat := fld0 h.toNat 0x03 8
def lPctr (h : BitVec 512) : Nat := fld0 h.toNat 0x04 64
def lEpochTx (h : BitVec 512) : Word := w32 (fld0 h.toNat 0x0C 32)
def lEpochRx (h : BitVec 512) : Word := w32 (fld0 h.toNat 0x10 32)

/-- LINK_PACKET_RX (R327, R329): the packet leaves the receive buffer; tag, counter and both epochs are checked, and a packet
that fails them fails its job. What a management packet of wire id 0xFFFF carries is HELLO, REPLY or FINISH, or the notice
that a job has closed, on which nothing is stated; a packet of more than 64 slots or of a reserved type is dropped (log
51). -/
def execLinkPacketRx (p vc : Nat) (h : BitVec 512) (tagOk : Bool) (s : State) : Host.Outcome State Fault Refusal :=
  if !s.live then .next s else
  let wire := lJob h
  let s := s.modPort2 p fun y => { y with rxUsed := y.rxUsed.set vc (y.rxUsed.getD vc 0 - (lLen h + 1)) }
  let c := wire / 16
  match (if wire = 0xFFFF ∨ 64 < lLen h ∨ 7 < lType h then none else getJob s c (wire % 16)) with
  | none => .next s
  | some j =>
    if j.st = .open ∧ j.port = p then
      let ep := lEpochTx h != j.peerEpoch || lEpochRx h != ctxEpoch s c
      if tagOk && lPctr h == j.pctrRx && !ep then .next (setJob c (wire % 16) { j with pctrRx := j.pctrRx + 1 } s)
      else
        .next (failJob c (wire % 16) (tagOk && lPctr h == j.pctrRx)
          (linkEvent p 8 (s.modPort p fun x => { x with authfail := x.authfail + 1 })))
    else .next s

/-! ## LINK_JOB and the key exchange (R328, R444) -/

/-- May a context open no further job in a slot on a port (R328)? -/
def jobsFull (s : State) (c j p : Nat) : Bool :=
  (getJob s c j).isSome || decide (16 ≤ (s.ctx c).jobs.length) || decide (64 ≤ (portJobs s p).length)
    || decide (256 ≤ (allJobs s).length)

def checkLinkJob (s : State) (c : Nat) (m : Cmd) : Verdict :=
  let j := m.f 0x10 16
  let p := m.f 0x12 8
  let act := m.fb 0x13 0 2
  let held := (getJob s c j).isSome
  verdict
    [chk .cmd (bodyResv m [(0x20, 0x40)] ++
       [(decide (16 ≤ j), 0x10), (decide (8 ≤ p), 0x12), resvBits m.entry.toNat 0x13 2 6, (decide (2 ≤ act), 0x13)]),
     if act = 0 ∧ jobsFull s c j p = true then
       some { st := .job, dw := [p, j] }
     else none,
     chk .state [(act == 1 && !held, 0x10)]]
    (mkBound s c [] [])

/-- The anchor that an identity record names (R445), if it is one. -/
def recordSubject (bs : List Byte) : Option (BitVec 384) :=
  if ofBytes (bs.take 4) = 0x31445A56 ∧ ofBytes ((bs.drop 4).take 4) = 1 then
    some (BitVec.ofNat 384 (ofBytes ((bs.drop 0x10).take 48)))
  else none

/-- A job closes: its keys are destroyed and the peer is told. -/
def closeJob (c j : Nat) (s : State) : State :=
  match getJob s c j with
  | some x => dropJob c j (closeNotice x s)
  | none => s

/-- LINK_JOB (R328): OPEN puts the job in OPENING and waits for the exchange; CLOSE waits for the commands that use the
job, and destroys its keys. -/
def execLinkJob (c q : Nat) (s : State) : Host.Outcome State Fault Refusal :=
  match running? s c q with
  | none => .next s
  | some m =>
    let j := m.f 0x10 16
    let p := m.f 0x12 8
    let f := (s.ctx c).reg.func
    let a := m.f 0x18 64
    if m.opcode ≠ 0x4B then .next s
    else if m.fb 0x13 0 2 = 1 then
      if (s.ctx c).cmds.any fun e => (e.phase == .issued || e.phase == .acted) && e.usesJob j then .next s
      else .next (finish c q .ok [] (closeJob c j s))
    else if (s.port p).st ≠ .active then .next (finish c q .link [p, j] s)
    else if s.pcie.phase ≠ .idle then .next s
    else if jobsFull s c j p then .next (finish c q .job [p, j] s)
    else if hostFails s f a 11072 then
      let fa := hostFailAddr s f a 11072
      .next (finish c q .hostmem [fa % 2 ^ 32, fa / 2 ^ 32] s)
    else
      let x : Job :=
        { st := .opening, port := p, peerTag := w32 (m.f 0x14 32), peerId := BitVec.ofNat 64 a,
          peerSubject := recordSubject (hostRead s f a 11072), openSeq := q,
          stamp := m.stamp, peerWire := 0, peerEpoch := 0, pctrTx := 0, pctrRx := 0, keyLo := 0, keyHi := 0, hs := 0, colls := 0,
          failEpoch := false }
      .next (setActed c q (setJob c j x s))

/-- The lower end of a job (R329): the lower port id, ties broken by the lower identity digest. -/
def isLower (s : State) (p : Nat) : Bool :=
  let x := s.port p
  decide (p < x.peerPort) || (p == x.peerPort && decide ((Config.anchorId s.sec.anchor).toNat < (s.port2 p).peerDigest.toNat))

/-- A job that is OPENING and has seen `n` messages of its exchange. -/
def opening? (s : State) (c j n : Nat) : Option Job :=
  match getJob s c j with
  | some x => if x.st = .opening ∧ x.hs = n ∧ (s.port x.port).st = .active then some x else none
  | none => none

/-- Is the job the oldest of those with its tag on its port that have seen no message (R444)? -/
def oldestOpening (s : State) (x : Job) : Bool :=
  (portJobs s x.port).all fun k =>
    !(k.2.2.st == .opening && k.2.2.hs == 0 && k.2.2.peerTag == x.peerTag) || decide (x.stamp ≤ k.2.2.stamp)

/-- A failed check of the exchange (R444). -/
def failOpen (c j : Nat) (x : Job) (s : State) : State :=
  secEvent 4 (dropJob c j (finish c x.openSeq .link [x.port, j]
    { s with sec := { s.sec with hsFail := s.sec.hsFail + 1 } }))

/-- Does this end accept the peer's certificate: every check of R444, that the anchor named is the one that training
exchanged, and the serial that the Armature expects (R456)? -/
def acceptsPeer (s : State) (x : Job) (verified : Bool) (receives : Bool) (serial : DWord) : Bool :=
  let e := (s.port2 x.port).expSerial
  verified && (!receives || (x.peerSubject == some (s.port2 x.port).peerDigest && (e == 0 || e == serial)))

/-- Slots of a message of n bytes: 64 bytes to a data slot, 64 data slots and a header slot to a packet (R327). -/
def messageSlots (n : Nat) : Nat := cdiv n 64 + cdiv n 4096

/-- Slots of the three messages of R444: tag, wire ids, keys, random value; wire id, key, ciphertext, certificate of 5,504
bytes and signatures of 64 and 3,309; certificate and signatures. -/
def helloSlots : Nat := messageSlots (4 + 4 + 32 + 1184 + 32)
def replySlots : Nat := messageSlots (2 + 32 + 1088 + 5504 + 64 + 3309)
def finishSlots : Nat := messageSlots (5504 + 64 + 3309)

/-- A message of the exchange, sent by this end on the management channel, or received. -/
def message (mine : Bool) (p n : Nat) (s : State) : State := if mine then sendSlots p 3 n s else s

/-- HELLO (R328, R444): the lower end's message opens the exchange of the oldest job with its tag. -/
def execHello (c j : Nat) (tag : BitVec 32) (s : State) : Host.Outcome State Fault Refusal :=
  match opening? s c j 0 with
  | some x =>
    if x.peerTag = tag ∧ oldestOpening s x = true then
      .next (message (isLower s x.port) x.port helloSlots (setJob c j { x with hs := 1 } s))
    else .next s
  | none => .next s

/-- REPLY (R444): the lower end checks the upper end's certificate and signatures. -/
def execReply (c j : Nat) (verified : Bool) (serial : BitVec 64) (s : State) : Host.Outcome State Fault Refusal :=
  match opening? s c j 1 with
  | some x =>
    let s := message (!isLower s x.port) x.port replySlots s
    if acceptsPeer s x verified (isLower s x.port) serial then .next (setJob c j { x with hs := 2 } s)
    else .next (failOpen c j x s)
  | none => .next s

/-- FINISH (R328, R444): the upper end checks the lower end; the keys are derived, wire ids and epochs are bound, and
the OPEN completes. -/
def execFinish (c j : Nat) (verified : Bool) (serial : BitVec 64) (peerWire : Nat) (peerEpoch : BitVec 32) (s : State) :
    Host.Outcome State Fault Refusal :=
  match opening? s c j 2 with
  | some x =>
    let s := message (isLower s x.port) x.port finishSlots s
    if acceptsPeer s x verified (!isLower s x.port) serial then
      let n := s.env.free
      let s := useFree 1 s
      let y : Job := { x with
        st := .open, hs := 3, peerWire := peerWire, peerEpoch := peerEpoch, keyLo := Config.jobKey n false,
        keyHi := Config.jobKey n true }
      .next (finish c x.openSeq .ok [] (setJob c j y s))
    else .next (failOpen c j x s)
  | none => .next s

/-- LINK_OPEN_TIMEOUT (R328): no match within 1 s. -/
def execLinkOpenTimeout (c q : Nat) (s : State) : Host.Outcome State Fault Refusal :=
  match acted? s c q 0x4B with
  | some m =>
    let j := m.f 0x10 16
    match getJob s c j with
    | some x => if x.st = .opening then .next (dropJob c j (finish c q .link [x.port, j] s)) else .next s
    | none => .next s
  | none => .next s

/-! ## Collectives (R330 to R336) -/

/-- Tiles of an operand's region in rank order, or one place where it lies in HBM or host memory (R331). -/
def Opd.pieces (o : Opd) : List Opd := if o.resident then o.tiles.map fun g => { o with tiles := [g] } else [o]

/-- Sizes of a piece. -/
def Opd.pieceSizes (o : Opd) : List Nat := dSizes o.raw

/-- Flattened rows of a piece (R177). -/
def Opd.pieceRows (o : Opd) : Nat := rowsOf o.pieceSizes

/-- Start and number of the rows of part j of u rows cut into g parts (R131). -/
def cutRows (u g j : Nat) : Nat × Nat :=
  let f := u / g
  let r := u % g
  (j * f + min j r, f + b2n (decide (j < r)))

/-- Bank accesses of a collective: each piece by the engine of its own tile (R546, log 36). -/
def collAccs (a d : Opd) : List BankAcc :=
  let acc (o : Opd) (wr : Bool) : List BankAcc :=
    if o.resident then (List.range o.tiles.length).flatMap fun i => o.accOn .dma wr (o.tiles.getD i 0) i else []
  acc a false ++ acc d true

/-- The sizes of R330 for g members of which n are here, the first at place `b` of the global order. -/
def collSizesOff (op : Nat) (a d : Opd) (g n b : Nat) : Bool :=
  match op with
  | 0x2D => (List.range n).any fun i => d.pieceRows != (cutRows a.pieceRows g (b + i)).2
  | 0x2E => d.pieceRows != g * a.pieceRows
  | _ => false

/-- The sizes of R330 as far as they show at issue: how many members other packages have does not (log 24). -/
def collSizesBad (op : Nat) (m : Cmd) (a d : Opd) : Bool :=
  let n := a.pieces.length
  if a.resident && a.tiles.length != d.tiles.length then true
  else
    match op with
    | 0x2D => a.pieceSizes.headD 1 != d.pieceSizes.headD 1 || (m.npkg == 1 && collSizesOff op a d n n 0)
    | 0x2E =>
      a.pieceSizes.headD 1 != d.pieceSizes.headD 1 || d.pieceRows % max 1 a.pieceRows != 0
        || decide (d.pieceRows < (n + m.npkg - 1) * a.pieceRows) || (m.npkg == 1 && collSizesOff op a d n n 0)
    | _ => a.pieceSizes != d.pieceSizes

def checkColl (s : State) (c : Nat) (m : Cmd) : Verdict :=
  let hs := m.f 0x10 16
  let hd := m.f 0x12 16
  let op := m.fb 0x14 0 2
  let a := opdH s c hs
  let d := opdH s c hd
  let code := m.opcode
  let v := m.entry.toNat
  let ranks := List.range 9
  let badJob (r : Nat) : Bool :=
    if r = m.prank ∨ m.npkg ≤ r then m.rjob r != 0xFFFF else decide (16 ≤ m.rjob r)
  let jobs := m.collJobs
  let down := jobs.find? fun j =>
    match getJob s c j with
    | some x => !(x.st == .open && (s.port x.port).st == .active)
    | none => true
  let stat (o : Opd) : Bool := code == 0x2F && !(dKind o.raw == 1 && dSize o.raw 0 == 4)
  verdict
    [chk .cmd (bodyResv m [(0x17, 0x18), (0x2A, 0x40)] ++
       [resvBits v 0x14 2 6, resvBits v 0x15 4 4, resvBits v 0x16 4 4, (badHandle hs false, 0x10),
        (badHandle hd false, 0x12), (op == 3 || (decide (0x2E ≤ code) && op != 0), 0x14),
        (m.npkg == 0 || decide (9 < m.npkg), 0x15), (decide (m.npkg ≤ m.prank), 0x16)]
        ++ ranks.map fun r => (badJob r, 0x18 + 2 * r)),
     chk .desc [(notLinear s c hs [0, 1], 0x10), (badDest s c hd [0, 1], 0x12), (a.reg.space != d.reg.space, 0x10)],
     chkOwner s c (collAccs a d),
     down.map fun j => { st := .job, dw := [((getJob s c j).map Job.port).getD 0, j] },
     chk .format [(dBlk a.raw || stat a, 0x10), (dBlk d.raw || stat d, 0x12),
       (dDtype d.raw != dDtype a.raw && dDtype d.raw != 0, 0x10)],
     chk .shape [(collSizesBad code m a d, 0x10)],
     chk .overlap [(overlapH s c hs hd && !(code == 0x2C && sameDesc s c hs hd), 0x10)]]
    (mkBound s c [hs, hd] (a.feet false ++ d.feet true))

/-- One level of the tree of R332: pairs are combined, an odd last value is carried. -/
def pairUp {α : Type} (op : α → α → α) : List α → List α
  | a :: b :: r => op a b :: pairUp op r
  | l => l

/-- The tree of R332; `n` bounds the number of levels. -/
def treeFold {α : Type} (op : α → α → α) : Nat → List α → Option α
  | _, [] => none
  | _, [a] => some a
  | 0, a :: _ => some a
  | n + 1, l => treeFold op n (pairUp op l)

/-- A value with the saturation events that made it. -/
abbrev RedVal := Num × Nat

/-- The integer of an exact integer value. -/
def Num.toInt : Num → Int
  | .fin n m _ => if n then -(m : Int) else m
  | _ => 0

/-- One operation of a reduction (R332): integers add in INT32 with clamping, floats round once to FP32. -/
def redOp (op : Nat) (isInt : Bool) (a b : RedVal) : RedVal :=
  let n := a.2 + b.2
  match op with
  | 1 => (vMax a.1 b.1, n)
  | 2 => (vMin a.1 b.1, n)
  | _ =>
    if isInt then
      let r := clamp32 (a.1.toInt + b.1.toInt)
      (Num.ofInt r.1, n + b2n r.2)
    else (fadd a.1 b.1, n)

/-- A statistics record: count, and the bits of mean and M2 (R173). -/
abbrev StatRec := Nat × Nat × Nat

/-- The merge of R175. -/
def statMerge (a b : StatRec) : StatRec :=
  let (na, ma, qa) := a
  let (nb, mb, qb) := b
  if na = 0 then b
  else if nb = 0 then a
  else
    let n := na + nb
    let nan := fp32.canonNan
    if 2 ^ 31 ≤ n then (2 ^ 31 - 1, nan, nan)
    else if (dec32 ma).isNan || (dec32 mb).isNan || (dec32 qa).isNan || (dec32 qb).isNan then (n, nan, nan)
    else
      let d := fsub (dec32 mb) (dec32 ma)
      let mean := ffma d (fdiv (Num.ofInt nb) (Num.ofInt n)) (dec32 ma)
      let t := fmul d d
      let u := fdiv (Num.ofInt (na * nb : Nat)) (Num.ofInt n)
      let q := ffma t u (fadd (dec32 qa) (dec32 qb))
      (n, enc32 mean, enc32 (if q.isZero || q.neg? then .zero else q))

/-- Raw bits of every element of a local piece, in linear order. -/
def pieceRaw (s : State) (o : Opd) : List Nat := (coordsOf o.pieceSizes).map fun co => o.rawAt s co

/-- Raw bits of a received piece: a little-endian word for each element. -/
def wordsOf : Nat → List Byte → List Nat
  | 0, _ => []
  | n + 1, l => ofBytes (l.take 4) :: wordsOf n (l.drop 4)

/-- Does what a package brings belong to the collective that is next on its job (R333)? -/
def peerDue (s : State) (c : Nat) (m : Cmd) (r : Nat) (p : CollPeer) : Bool :=
  ((getJob s c (m.rjob r)).map Job.colls) == some p.turn

/-- Do the figures of its digest match this package's command, and its pieces their size (R333)? -/
def peerAgrees (m : Cmd) (a : Opd) (r : Nat) (p : CollPeer) : Bool :=
  p.opcode == m.opcode && p.op == m.fb 0x14 0 2 && p.dtype == dDtype a.raw && p.npkg == m.npkg && p.prank == r
    && p.sizes == a.pieceSizes && !p.pieces.isEmpty && p.pieces.all fun x => x.length == 4 * sizeProd a.pieceSizes

/-- The packages other than this one that disagree, by the job that reaches them. -/
def collDiffers (m : Cmd) (a : Opd) (peers : List CollPeer) : Option Nat :=
  ((m.otherRanks.zip peers).find? fun x => !peerAgrees m a x.1 x.2).map fun x => m.rjob x.1

/-- Members of the packages with a rank below r (R331). -/
def membersBelow (m : Cmd) (peers : List CollPeer) (r : Nat) : Nat :=
  (((m.otherRanks.zip peers).filter fun x => decide (x.1 < r)).map fun x => x.2.pieces.length).sum

/-- Raw bits of every member's piece in global order: packages by rank, the members of each in its place (R331). -/
def memberRaws (s : State) (m : Cmd) (a : Opd) (peers : List CollPeer) : List (List Nat) :=
  let own := a.pieces.map (pieceRaw s)
  let far := m.otherRanks.zip peers
  let of (l : List (Nat × CollPeer)) : List (List Nat) :=
    l.flatMap fun x => x.2.pieces.map (wordsOf (sizeProd a.pieceSizes))
  of (far.filter fun x => decide (x.1 < m.prank)) ++ own ++ of (far.filter fun x => decide (m.prank < x.1))

/-- Element i of every member, as values of the source's type. -/
def memberVals (a : Opd) (raws : List (List Nat)) (i : Nat) : List RedVal :=
  raws.map fun r => (elemNum (dKind a.raw) (dDtype a.raw) (r.getD i 0) 0, 0)

/-- The reduction of element i (R332). -/
def reduceAt (m : Cmd) (a : Opd) (raws : List (List Nat)) (i : Nat) : RedVal :=
  let isInt := dKind a.raw == 1 || fmtInt (tyFmt (dDtype a.raw))
  (treeFold (redOp (m.fb 0x14 0 2) isInt) raws.length (memberVals a raws i)).getD (.zero, 0)

/-- The merged record of row r. -/
def blendAt (raws : List (List Nat)) (r : Nat) : StatRec :=
  (treeFold statMerge raws.length
    (raws.map fun w => (w.getD (4 * r) 0, w.getD (4 * r + 1) 0, w.getD (4 * r + 2) 0))).getD (0, 0, 0)

/-- Store values in linear order into a piece. -/
def storePiece (d : Opd) (vals : List RedVal) : Stored :=
  ((coordsOf d.pieceSizes).zipIdx).foldl (fun acc p =>
    let v := vals.getD p.2 (.zero, 0)
    let x := d.storeOne p.1 .ne v.1
    acc.append { x with sat := x.sat || decide (0 < v.2), events := x.events + v.2 }) .empty

/-- What the `DST` piece of the member at place g of the global order receives (R330). -/
def collPiece (op : Nat) (m : Cmd) (a d : Opd) (raws : List (List Nat)) (g : Nat) : Stored :=
  let cols := a.pieceSizes.headD 1
  let n := sizeProd a.pieceSizes
  match op with
  | 0x2C => storePiece d ((List.range n).map (reduceAt m a raws))
  | 0x2D =>
    let (r0, rn) := cutRows a.pieceRows raws.length g
    storePiece d ((List.range (rn * cols)).map fun j => reduceAt m a raws (r0 * cols + j))
  | 0x2E =>
    storePiece d (raws.flatMap fun r => r.map fun v => (elemNum (dKind a.raw) (dDtype a.raw) v 0, 0))
  | _ =>
    { Stored.empty with wrs := (List.range a.pieceRows).flatMap fun r =>
        let x := blendAt raws r
        [x.1, x.2.1, x.2.2, 0].zipIdx.flatMap fun p => d.wrRaw ((coordsOf d.pieceSizes).getD (4 * r + p.2) []) p.1 }

/-- Slots and packets sent on a job's port for a collective: how many the exchange takes is not stated, so they are free
values (log 28). The job has served one more collective (R333). -/
def linkSend (c j : Nat) (s : State) : State :=
  match getJob s c j with
  | none => s
  | some x =>
    let n := s.env.free
    let s := useFree 2 s
    let s := sendSlots x.port 2 (Config.freeValue 32 n).toNat s
    setJob c j { x with pctrTx := x.pctrTx + (Config.freeValue 32 (n + 1)).toNat, colls := x.colls + 1 } s

/-- The work of a collective whose members' pieces are known (R330, R332 to R335). -/
def collWork (op : Nat) (s : State) (c : Nat) (m : Cmd) (raws : List (List Nat)) (b : Nat) : Work :=
  let a := m.opd s c (m.f 0x10 16)
  let d := m.opd s c (m.f 0x12 16)
  let ds := d.pieces
  let all := (List.range ds.length).foldl (fun acc i =>
    acc.append (collPiece op m a (ds.getD i d) raws (b + i))) Stored.empty
  { Work.none with
    rd := a.pieces.flatMap fun o => o.readCells (coordsOf o.pieceSizes), wrs := all.wrs, accs := collAccs a d,
    t := all.tally }

/-- E_PEER over the job that reaches a package that disagrees. -/
def peerFails (c q j : Nat) (s : State) : State := finish c q .peer [((getJob s c j).map Job.port).getD 0, j] s

/-- A collective at its row: it waits for what every other package brings to it; figures or sizes that differ end it with
E_PEER, otherwise every member's result is formed (R331 to R335). -/
def runColl (op c q : Nat) (peers : List CollPeer) (s : State) : State :=
  match ready? s c q op with
  | none => s
  | some m =>
    let a := m.opd s c (m.f 0x10 16)
    let d := m.opd s c (m.f 0x12 16)
    let pairs := m.otherRanks.zip peers
    if peers.length = m.npkg - 1 ∧ pairs.all (fun x => peerDue s c m x.1 x.2) then
      let t := forAll m.collJobs (fun j t => linkSend c j t) s
      match collDiffers m a peers with
      | some j => peerFails c q j t
      | none =>
        let raws := memberRaws s m a peers
        let b := membersBelow m peers m.prank
        if collSizesOff op a d raws.length a.pieces.length b then peerFails c q (m.collJobs.headD 0) t
        else (collWork op s c m raws b).run c q id t
    else s

/-- ALLREDUCE (R330, R332). -/
def execAllreduce (c q : Nat) (peers : List CollPeer) (s : State) : Host.Outcome State Fault Refusal :=
  .next (runColl 0x2C c q peers s)

/-- REDUCE_SCATTER (R330, R332). -/
def execReduceScatter (c q : Nat) (peers : List CollPeer) (s : State) : Host.Outcome State Fault Refusal :=
  .next (runColl 0x2D c q peers s)

/-- ALLGATHER (R330). -/
def execAllgather (c q : Nat) (peers : List CollPeer) (s : State) : Host.Outcome State Fault Refusal :=
  .next (runColl 0x2E c q peers s)

/-- BLEND (R175, R332). -/
def execBlend (c q : Nat) (peers : List CollPeer) (s : State) : Host.Outcome State Fault Refusal :=
  .next (runColl 0x2F c q peers s)

/-- COLL_TIMEOUT (R335): a collective that has waited too long for its peers. -/
def execCollTimeout (c q : Nat) (s : State) : Host.Outcome State Fault Refusal :=
  match running? s c q with
  | some m =>
    match m.collJobs with
    | j :: _ =>
      let s := forAll m.collJobs (fun j t => match getJob t c j with
        | some x => setJob c j { x with colls := x.colls + 1 } t
        | none => t) s
      .next (finish c q .link [((getJob s c j).map Job.port).getD 0, j] s)
    | [] => .next s
  | none => .next s

end Sys2Proof.Machine
end

