-- ==== Sys2Proof/Machine/Contexts.lean ====
section
/-! DEFINITION. Contexts, regions and models (section 14): definition, the fit check, allocation, models, control
commands, context reset, admission, eviction, swaps and slices. -/

namespace Sys2Proof.Machine

open Sys2Proof

/-! ## CTX_DEFINE, CTX_UNDEFINE and the context reset (R377, R378, R401) -/

/-- Does the context hold a bank region: has it bank state to bring back (R379, R380)? -/
def Ctx.hasBanks (x : Ctx) : Bool := x.regions.any fun r => r.2.space == .bank

def checkCtxDefine (s : State) (c : Nat) (m : Cmd) : Verdict :=
  let t := m.f 0x10 16
  let fn := m.f 0x12 8
  let slot := m.fb 0x13 0 6
  let p := m.fb 0x14 0 5
  let lc := m.fb 0x15 0 1 == 1
  let sl := m.f 0x16 16
  let v := m.entry.toNat
  verdict
    [chk .cmd (bodyResv m [(0x1C, 0x40)] ++
       [resvBits v 0x13 6 2, resvBits v 0x14 5 3, resvBits v 0x15 1 7, (t == 0 || decide (1024 ≤ t), 0x10),
        (decide (32 ≤ fn), 0x12), (slot != 0 && fn == 0, 0x13), (decide (24 ≤ p), 0x14),
        (if lc then sl != 0 else !decide (2 ≤ sl ∧ sl ≤ 1000), 0x16)]),
     chk .perm [(c != 0, 0x00)],
     chk .state [((s.ctx t).reg.st != .free, 0x10), (decide (s.pcie.vfs < fn), 0x12),
       (fn != 0 && (slotCtx s fn slot).isSome, 0x13), (!(s.part p).defd, 0x14)]]
    (mkBound s c [] [])

def checkCtxUndefine (s : State) (c : Nat) (m : Cmd) : Verdict :=
  let t := m.f 0x10 16
  let x := s.ctx t
  verdict
    [chk .cmd (bodyResv m [(0x12, 0x40)] ++ [(t == 0 || decide (1024 ≤ t), 0x10)]),
     chk .perm [(c != 0, 0x00)],
     chk .state [(x.reg.st == .free || x.ring.st != .disabled || x.cmds != [], 0x10)]]
    (mkBound s c [] [])

/-- CTX_DEFINE (R377): the context stands in LOADED with a new memory key (R443). -/
def execCtxDefine (c q : Nat) (s : State) : Host.Outcome State Fault Refusal :=
  match running? s c q with
  | some m =>
    if m.opcode = 0x50 then
      let t := m.f 0x10 16
      let x := { Ctx.init t with
        reg := { CtxReg.init with
          st := .loaded, lc := m.fb 0x15 0 1 == 1, part := m.fb 0x14 0 5, func := m.f 0x12 8, slot := m.fb 0x13 0 6,
          slice := m.f 0x16 16, quota := w32 (m.f 0x18 32) },
        key := seedKey 0 }
      .next (finish c q .ok [] (newKey t (s.setCtx t x)))
    else .next s
  | none => .next s

/-- Free every model with its weight store, and every region (R401 with `KEEP` = 0). -/
def freeAll (c : Nat) (s : State) : State :=
  let s := freeHeld c s
  let s := freeRegions c ((s.ctx c).regions.map Prod.fst) s
  fixSwap c (s.modCtx c fun x => { x with models := [] })

/-- The context reset of R401 and R530. With `KEEP` = 1 models and HBM and host regions stay. -/
def resetCtx (c : Nat) (keep : Bool) (s : State) : State :=
  let tiles := (s.ctx c).cmds.flatMap fun m => m.bound.forms.map Prod.fst
  let s := s.modCtx c fun x => { x with cmds := [] }
  let s := fixForms tiles s
  let s := releaseAll c s
  let s := if keep then freeHeld c s else newKey c (freeAll c s)
  let s := s.modCtx c fun x => { x with
    ring := .init, irq := .init, aq := .init, key := seedKey 0, streams := [],
    reg := { x.reg with
      st := if x.models ≠ [] then .swapped else .loaded, res := false, geobound := false, unplaced := false },
    sched := { x.sched with
      runnableAt := none, blockedStamp := 0, saved := false, swapping := .none, wantSusp := false, wantRes := false,
      stored := false, geo := none } }
  fixSubst (s.ctx c).reg.part s

/-- CTX_UNDEFINE (R377): freed as by a reset with `KEEP` = 0, then FREE; its memory key is discarded (R443). -/
def execCtxUndefine (c q : Nat) (s : State) : Host.Outcome State Fault Refusal :=
  match running? s c q with
  | some m =>
    let t := m.f 0x10 16
    if m.opcode = 0x51 ∧ (s.ctx t).sched.swapping = .none then
      .next (finish c q .ok [] ((resetCtx t false s).setCtx t (Ctx.init t)))
    else .next s
  | none => .next s

/-! ## The fit check (R393) -/

/-- A wish of an allocation: a bank range on a run of ranks, or HBM units. -/
structure Wish where
  mask : Nat
  first : Nat
  tiles : Nat
  len : Nat
  weight : Bool
deriving DecidableEq, Repr

/-- Ranks of a wish. -/
def Wish.ranks (w : Wish) : List Nat := (List.range w.tiles).map fun i => w.first + i

/-- A refusal of the Maquette: resource, where, need and have. -/
abbrev NoFit := Nat × Nat × Nat × Nat

/-- Check 1 RANKS. -/
def fitRanks (s : State) (p : Part) (ws : List Wish) : Option NoFit :=
  let top := ws.foldl (fun m w => max m (w.first + w.tiles)) 0
  let have_ := 64 * (p.positions.filter fun pos => (serverOf s pos).isSome).length
  if 64 * p.w * p.h < top then some (1, 0xFFFFFFFF, top, have_)
  else
    let bad := p.positions.zipIdx.find? fun (pos, j) =>
      (serverOf s pos).isNone && ws.any fun w => decide (w.first < 64 * (j + 1) ∧ 64 * j < w.first + w.tiles)
    bad.map fun b => (1, b.1, top, have_)

/-- Banks of a tile that another context holds. -/
def heldByOther (s : State) (c g : Nat) : List Nat :=
  (List.range 4).filter fun k => match (s.bank (bankIx g k)).holder with
    | some o => o != c
    | none => false

/-- Banks that wishes name on a rank. -/
def wishBanks (ws : List Wish) (r : Nat) : List Nat :=
  (List.range 4).filter fun k => ws.any fun w => decide (w.first ≤ r ∧ r < w.first + w.tiles) && bit w.mask k

/-- Check 2 BANKS: the lowest tile on which a named bank is held. -/
def fitBanks (s : State) (c : Nat) (p : Part) (ws : List Wish) : Option NoFit :=
  let ranks := (ws.flatMap Wish.ranks).eraseDups
  let bad := ranks.filterMap fun r => (gtidOfRank p r).bind fun g =>
    if (heldByOther s c g).any (wishBanks ws r).contains then some (g, (wishBanks ws r).length, 4 - (heldByOther s c g).length)
    else none
  (bad.foldl (fun m x => match m with
    | none => some x
    | some y => if x.1 < y.1 then some x else some y) none).map fun x => (2, x.1, x.2.1, x.2.2)

/-- Byte ranges of a context's bank regions that meet the mask on ranks `first` to `first + n - 1`. -/
def takenRanges (regs : List Region) (mask first n : Nat) : List (Nat × Nat) :=
  (regs.filter fun r => r.space == .bank && (r.mask &&& mask) != 0
      && decide (r.first < first + n ∧ first < r.first + r.tiles)).map fun r => (r.off, r.len)

/-- Free gaps of a bank, as start and length: from 0 or the end of a range to the next range or the end of the bank. -/
def freeGaps (taken : List (Nat × Nat)) : List (Nat × Nat) :=
  (0 :: taken.map fun t => t.1 + t.2).filterMap fun a =>
    if taken.any fun t => decide (t.1 ≤ a ∧ a < t.1 + t.2) then none
    else
      let e := taken.foldl (fun m t => if a ≤ t.1 then min m t.1 else m) bankBytes
      if a < e then some (a, e - a) else none

/-- The lowest free offset of a length (R389). -/
def lowestGap (taken : List (Nat × Nat)) (len : Nat) : Option Nat :=
  (freeGaps taken).foldl (fun m g => if len ≤ g.2 then (match m with
    | none => some g.1
    | some a => some (min a g.1)) else m) none

/-- Largest free gap. -/
def largestGap (taken : List (Nat × Nat)) : Nat := (freeGaps taken).foldl (fun m g => max m g.2) 0

/-- The region of a wish at a bank offset. -/
def Wish.region (w : Wish) (model : Option Nat) (off : Nat) : Region :=
  { space := .bank, len := w.len, mask := w.mask, first := w.first, tiles := w.tiles, off := off, units := [],
    hostAddr := 0, model := model, claimed := false }

/-- Check 3 BYTES of one wish among the context's regions: its offset, or the refusal. -/
def fitBytes (p : Part) (regs : List Region) (w : Wish) : Except NoFit Nat :=
  let all := takenRanges regs w.mask w.first w.tiles
  match lowestGap all w.len with
  | some o => .ok o
  | none =>
    let i := ((List.range w.tiles).find? fun i =>
      (lowestGap (takenRanges regs w.mask w.first (i + 1)) w.len).isNone).getD 0
    .error (3, (gtidOfRank p (w.first + i)).getD 0, w.len, largestGap all)

/-- Check 3 for several wishes in order: the regions made, or the refusal. -/
def fitAll (p : Part) (model : Option Nat) : List Wish → List Region → List Region → Except NoFit (List Region)
  | [], _, made => .ok made
  | w :: r, regs, made =>
    match fitBytes p regs w with
    | .error e => .error e
    | .ok o => let g := w.region model o
      fitAll p model r (regs ++ [g]) (made ++ [g])

/-- Units of the swap store that the context would need with further regions. -/
def swapNeedWith (s : State) (c : Nat) (made : List Region) : Nat :=
  let base := 2 ^ 20
  let extra := made.zipIdx.map fun (r, i) => (base + i, r)
  swapNeed (s.modCtx c fun x => { x with regions := x.regions ++ extra }) c

/-- Checks 4 POOL and 5 QUOTA for `n` units besides the swap store's growth `grow`. -/
def fitUnits (s : State) (c p n grow : Nat) : Option NoFit :=
  let need := n + grow
  let sub := substNeed s ((lossUnits s p).length + need) - (s.part2 p).subst.length
  let quota := (s.ctx c).reg.quota.toNat
  let held := (s.ctx c).units.length
  if (s.part2 p).unbacked ∨ poolFree s p < need + sub then some (4, 0xFFFFFFFF, need + sub, poolFree s p)
  else if quota ≠ 0 ∧ quota < held + need then some (5, 0xFFFFFFFF, need, quota - held)
  else none

/-- The Maquette for wishes of a context and `n` units of HBM: the regions, or the refusal. -/
def maquette (s : State) (c : Nat) (model : Option Nat) (ws : List Wish) (n : Nat) : Except NoFit (List Region) :=
  let x := s.ctx c
  let p := s.part x.reg.part
  match fitRanks s p ws with
  | some e => .error e
  | none =>
    match fitBanks s c p ws with
    | some e => .error e
    | none =>
      match fitAll p model ws (x.regions.map Prod.snd) [] with
      | .error e => .error e
      | .ok made =>
        match fitUnits s c x.reg.part n (swapNeedWith s c made - x.sched.swapUnits.length) with
        | some e => .error e
        | none => .ok made

/-- The refusal of R393. -/
def noFitRef (e : NoFit) : Ref := { st := .nofit, dw := [e.1, e.2.1, e.2.2.1, e.2.2.2] }

/-! ## REGION_ALLOC and REGION_FREE (R389) -/

/-- The wish of a REGION_ALLOC entry. -/
def allocWish (m : Cmd) : Wish :=
  { mask := m.fb 0x13 0 4, first := m.f 0x14 16, tiles := m.f 0x16 16, len := m.f 0x18 64, weight := false }

/-- A bank region's length, mask and tile count as R389 asks. -/
def bankLenBad (len : Nat) : Bool := len % 2048 != 0 || decide (len < 2048) || decide (bankBytes < len)
def tilesBad (n : Nat) : Bool := n == 0 || decide (6400 < n)

/-- The Maquette of a REGION_ALLOC. -/
def allocFit (s : State) (c : Nat) (m : Cmd) : Except NoFit (List Region) :=
  match m.fb 0x12 0 2 with
  | 2 => maquette s c none [allocWish m] 0
  | 0 => maquette s c none [] (cdiv (m.f 0x18 64) allocBytes)
  | _ => .ok []

def checkRegionAlloc (s : State) (c : Nat) (m : Cmd) : Verdict :=
  let rid := m.f 0x10 16
  let sp := m.fb 0x12 0 2
  let w := allocWish m
  let v := m.entry.toNat
  let bank := sp == 2
  verdict
    [chk .cmd (bodyResv m [(0x28, 0x40)] ++
       [resvBits v 0x12 2 6, resvBits v 0x13 4 4, (decide (1024 ≤ rid), 0x10), (sp == 3, 0x12),
        (if bank then w.mask == 0 else w.mask != 0, 0x13), (!bank && w.first != 0, 0x14),
        (if bank then tilesBad w.tiles else w.tiles != 0, 0x16), (w.len == 0 || (bank && bankLenBad w.len), 0x18),
        (sp != 1 && m.f 0x20 64 != 0, 0x20)]),
     chk .state [((getRegion s c rid).isSome, 0x10)],
     match allocFit s c m with
     | .error e => some (noFitRef e)
     | .ok _ => none]
    (mkBound s c [] [])

/-- Add a region to a context. -/
def addRegion (c rid : Nat) (r : Region) (s : State) : State :=
  s.modCtx c fun x => { x with regions := aput x.regions rid r }

/-- A context takes the banks of a new region: those that hold no other region of it get the default owner (R268). -/
def takeRegionBanks (c : Nat) (r : Region) (s : State) : State :=
  let p := s.part (s.ctx c).reg.part
  forAll (regionBanks p r)
    (fun gk t => if (t.bank (bankIx gk.1 gk.2)).holder = some c then t else takeBank c p.owner 0 gk t) s

/-- REGION_ALLOC (R389): allocates in the region's space once the fit check passes. -/
def execRegionAlloc (c q : Nat) (s : State) : Host.Outcome State Fault Refusal :=
  match ready? s c q 0x52 with
  | none => .next s
  | some m =>
    let rid := m.f 0x10 16
    let len := m.f 0x18 64
    let p := (s.ctx c).reg.part
    match allocFit s c m with
    | .error e => .next (finish c q .nofit (noFitRef e).dw s)
    | .ok made =>
      match m.fb 0x12 0 2 with
      | 0 =>
        let units := takeUnits s p (cdiv len allocBytes)
        let r : Region := { Region.empty with space := .hbm, len := len, units := units }
        .next (finish c q .ok [] (fixSubst p (addRegion c rid r (unwriteUnits units s))))
      | 1 =>
        .next (finish c q .ok []
          (addRegion c rid { Region.empty with space := .host, len := len, hostAddr := m.f 0x20 64 } s))
      | _ =>
        let r := made.headD Region.empty
        .next (finish c q .ok [] (fixSwap c (addRegion c rid r (takeRegionBanks c r s))))

/-- The whole of a region, written (R389). -/
def wholeFoot (rid : Nat) (r : Region) : Foot := { rid := rid, reg := r, lo := 0, hi := (r.len : Int) - 1, wr := true }

def checkRegionFree (s : State) (c : Nat) (m : Cmd) : Verdict :=
  let rid := m.f 0x10 16
  let r := getRegion s c rid
  let bad := match r with
    | none => true
    | some r => r.model.isSome
  verdict
    [chk .cmd (bodyResv m [(0x12, 0x40)] ++ [(decide (1024 ≤ rid), 0x10)]),
     chk .state [(bad, 0x10)]]
    { (mkBound s c [] []) with
      foots := match r with
        | some g => [wholeFoot rid g]
        | none => [] }

/-- REGION_FREE (R97, R389): the descriptors that name the region are unbound under the ordering of DESC_DESTROY. -/
def execRegionFree (c q : Nat) (s : State) : Host.Outcome State Fault Refusal :=
  match ready? s c q 0x53 with
  | none => .next s
  | some m => .next (endUnbound c m (handlesOn s c [m.f 0x10 16]) (freeRegions c [m.f 0x10 16] s))

/-! ## MODEL_LOAD and MODEL_UNLOAD (R390 to R392) -/

/-- An entry of a placement image (R391). -/
structure PlEntry where
  rid : Nat
  wish : Wish
  doff : Nat
deriving DecidableEq, Repr

/-- Bytes that an entry's data takes. -/
def PlEntry.bytes (e : PlEntry) : Nat := e.wish.tiles * (maskBanks e.wish.mask).length * e.wish.len

/-- Entry r of an image held as a number. -/
def plEntry (v r : Nat) : PlEntry :=
  let b := 0x40 + 32 * r
  let w : Wish :=
    { mask := fld v (b + 2) 0 4, first := fld0 v (b + 4) 16, tiles := fld0 v (b + 6) 16, len := fld0 v (b + 8) 32,
      weight := true }
  { rid := fld0 v b 16, wish := w, doff := fld0 v (b + 0x10) 64 }

def plCount (v : Nat) : Nat := fld0 v 0x04 16

def plEntries (v : Nat) : List PlEntry := (List.range (plCount v)).map (plEntry v)

/-- Faults of the image's header and entries (R392 step 3). -/
def imageFaults (s : State) (c v plen : Nat) : List (Bool × Nat) :=
  let n := plCount v
  let es := plEntries v
  let entry (r : Nat) : List (Bool × Nat) :=
    let b := 0x40 + 32 * r
    let e := plEntry v r
    [(decide (1024 ≤ e.rid) || (getRegion s c e.rid).isSome || (es.take r).any (fun o => o.rid == e.rid), b),
     (e.wish.mask == 0 || fld v (b + 2) 4 4 != 0, b + 2), (tilesBad e.wish.tiles, b + 6),
     (bankLenBad e.wish.len, b + 8), (e.doff % 4096 != 0 || decide (plen < e.doff + e.bytes), b + 0x10)]
      ++ resvBytes v (b + 3) 1 ++ resvBytes v (b + 0x0C) 4 ++ resvBytes v (b + 0x18) 8
  [(fld0 v 0x00 32 != 1 || decide (plen < 0x40), 0x00),
   (n == 0 || decide (256 < n) || decide (plen < 0x40 + 32 * n), 0x04),
   (fld0 v 0x08 64 != (es.map PlEntry.bytes).sum, 0x08)]
    ++ resvBytes v 0x06 2 ++ resvBytes v 0x10 0x30
    ++ if 256 < n then [] else (List.range n).flatMap entry

/-- E_HOSTMEM at the first failing address of a read. -/
def hostRef (s : State) (f a n : Nat) : Option Ref :=
  if hostFails s f a n then
    let fa := hostFailAddr s f a n
    some { st := .hostmem, dw := [fa % 2 ^ 32, fa / 2 ^ 32] }
  else none

/-- The image's header and entries as a number: a header alone where its count is out of range. -/
def readImage (s : State) (f a : Nat) : Nat :=
  let h := ofBytes (hostRead s f a 0x40)
  let n := plCount h
  if n = 0 ∨ 256 < n then h else ofBytes (hostRead s f a (0x40 + 32 * n))

/-- What the checks of a MODEL_LOAD find: the image, or a refusal. -/
def loadImage (s : State) (c : Nat) (m : Cmd) : Except Ref Nat :=
  let f := (s.ctx c).reg.func
  let a := m.f 0x18 64
  match hostRef s f a 0x40 with
  | some r => .error r
  | none =>
    let n := plCount (ofBytes (hostRead s f a 0x40))
    match (if n = 0 ∨ 256 < n then none else hostRef s f a (0x40 + 32 * n)) with
    | some r => .error r
    | none =>
      let v := readImage s f a
      match chkIn .cmd 0xFFFF (imageFaults s c v (m.f 0x20 64)) with
      | some r => .error r
      | none => .ok v

/-- Units of the weight store. -/
def storeUnits (v : Nat) : Nat := cdiv (fld0 v 0x08 64) allocBytes

/-- The Maquette of an image. -/
def loadFit (s : State) (c : Nat) (m : Cmd) (v : Nat) : Except NoFit (List Region) :=
  maquette s c (some (m.fb 0x10 0 6)) ((plEntries v).map PlEntry.wish) (storeUnits v)

def checkModelLoad (s : State) (c : Nat) (m : Cmd) : Verdict :=
  let k := m.fb 0x10 0 6
  let img := loadImage s c m
  verdict
    [chk .cmd (bodyResv m [(0x12, 0x18), (0x28, 0x40)] ++
       [(fld m.entry.toNat 0x10 6 10 != 0, 0x10), (m.f 0x18 64 % 4096 != 0, 0x18)]),
     chk .state [((aget (s.ctx c).models k).isSome, 0x10)],
     match img with
     | .error r => some r
     | .ok v =>
       match loadFit s c m v with
       | .error e => some (noFitRef e)
       | .ok _ => none]
    (mkBound s c [] [])

/-- Copy one entry's data into its region's banks, as R391 lays it out. -/
def loadBanks (c : Nat) (r : Region) (bs : List Byte) (s : State) : State :=
  let tiles := regionTiles (s.part (s.ctx c).reg.part) r
  let ks := maskBanks r.mask
  forAll (List.range tiles.length) (fun i t =>
    forAll (List.range ks.length) (fun b t =>
      bankWrite (tiles.getD i 0) (ks.getD b 0) r.off ((bs.drop ((i * ks.length + b) * r.len)).take r.len) t) t) s

/-- MODEL_LOAD (R392): regions, weight store, and both copies of the data; a failed read leaves nothing behind. -/
def execModelLoad (c q : Nat) (s : State) : Host.Outcome State Fault Refusal :=
  match ready? s c q 0x54 with
  | none => .next s
  | some m =>
    let k := m.fb 0x10 0 6
    let f := (s.ctx c).reg.func
    let a := m.f 0x18 64
    match loadImage s c m with
    | .error r => .next (finish c q r.st r.dw s)
    | .ok v =>
      let es := plEntries v
      match loadFit s c m v with
      | .error e => .next (finish c q .nofit (noFitRef e).dw s)
      | .ok made =>
        match es.findSome? fun e => hostRef s f (a + e.doff) e.bytes with
        | some r => .next (finish c q r.st r.dw s)
        | none =>
          let data := es.map fun e => hostRead s f (a + e.doff) e.bytes
          let units := takeUnits s (s.ctx c).reg.part (storeUnits v)
          let s := unwriteUnits units s
          let s := forAll (es.zip made) (fun em t => addRegion c em.1.rid em.2 (takeRegionBanks c em.2 t)) s
          let s := s.modCtx c fun x => { x with
            models := aput x.models k { regions := es.map PlEntry.rid, units := units } }
          let s := putUnits (ctxKey s c) units 0 data.flatten s
          let s := forAll (made.zip data) (fun rd t => loadBanks c rd.1 rd.2 t) s
          .next (finish c q .ok [] (fixSwap c s))

def checkModelUnload (s : State) (c : Nat) (m : Cmd) : Verdict :=
  let md := aget (s.ctx c).models (m.fb 0x10 0 6)
  verdict
    [chk .cmd (bodyResv m [(0x12, 0x40)] ++ [(fld m.entry.toNat 0x10 6 10 != 0, 0x10)]),
     chk .state [(md.isNone, 0x10)]]
    { (mkBound s c [] []) with
      foots := match md with
        | some d => d.regions.filterMap fun rid => (getRegion s c rid).map (wholeFoot rid)
        | none => [] }

/-- MODEL_UNLOAD (R97, R392). -/
def execModelUnload (c q : Nat) (s : State) : Host.Outcome State Fault Refusal :=
  match ready? s c q 0x55 with
  | none => .next s
  | some m =>
    let k := m.fb 0x10 0 6
    let rids := ((aget (s.ctx c).models k).map Model.regions).getD []
    let objs := handlesOn s c rids
    let s := (freeRegions c rids s).modCtx c fun x => { x with models := adel x.models k }
    .next (endUnbound c m objs (fixSubst (s.ctx c).reg.part s))

/-! ## Swaps (R386) -/

/-- The first granule of a context's weight stores that cannot be read (R300). -/
def weightBad (s : State) (c : Nat) : Option (Nat × HbmBad) :=
  let key := ctxKey s c
  (s.ctx c).models.findSome? fun md => md.2.units.findSome? fun u =>
    (readBad s none key (allocBytes / granBytes + 1) (u * allocBytes) allocBytes)

/-- A context leaves its banks: to SWAPPED or LOADED from BLOCKED, keeping HALTED and BLOCKED_KV (R380). -/
def leaveBanks (c : Nat) (s : State) : State :=
  let s := swapOut c s
  s.modCtx c fun x => { x with
    reg := { x.reg with
      res := false,
      st := match x.reg.st with
        | .halted => .halted
        | .blockedKv => .blockedKv
        | _ => if x.hasBanks then .swapped else .loaded },
    sched := { x.sched with swapping := .none } }

/-- Every CTX_SAVE that waits for the swap-out of a context (R395): its issuer and sequence number. -/
def waitingSaves (s : State) (t : Nat) : List (Nat × Nat) :=
  (definedCtxs s).flatMap fun c => ((s.ctx c).cmds.filter fun m =>
    m.phase == .acted && m.opcode == 0x58 && m.f 0x10 16 == t).map fun m => (c, m.seq)

/-- SWAP_OUT_DONE (R386): the banks are released; a CTX_SAVE of the context completes. -/
def execSwapOutDone (c : Nat) (s : State) : Host.Outcome State Fault Refusal :=
  if (s.ctx c).sched.swapping = .out then
    let saves := waitingSaves s c
    let s := leaveBanks c s
    let s := s.modCtx c fun x => { x with sched := { x.sched with saved := decide (saves ≠ []) } }
    .next (settle c (forAll saves (fun w t => finish w.1 w.2 .ok [] t) s))
  else .next s

/-- SWAP_IN_DONE (R386): the banks are filled; the context is RESIDENT, or stays HALTED and resident. -/
def execSwapInDone (c : Nat) (s : State) : Host.Outcome State Fault Refusal :=
  if (s.ctx c).sched.swapping = .in then
    match (weightBad s c).or (swapBad s c) with
    | some (da, b) => .next (hbmFault da b s)
    | none =>
      let s := swapIn c s
      .next (settle c (s.modCtx c fun x => { x with
        reg := { x.reg with
          res := true, swapins := x.reg.swapins + 1, st := if x.reg.st = .swapped then .resident else x.reg.st },
        sched := { x.sched with swapping := .none, stored := false } }))
  else .next s

/-! ## Admission and eviction (R384, R385) -/

/-- Runnable contexts of a partition in the order in which they are considered (R384). -/
def runnables (s : State) (p : Nat) : List Nat :=
  let l := (ctxsOf s p).filter fun c => (s.ctx c).sched.runnableAt.isSome
  let key (c : Nat) : Nat × Nat × Nat :=
    (b2n (!(s.ctx c).reg.lc), ((s.ctx c).sched.runnableAt).getD 0, c)
  let lt (a b : Nat × Nat × Nat) : Bool :=
    decide (a.1 < b.1) || (a.1 == b.1 && (decide (a.2.1 < b.2.1) || (a.2.1 == b.2.1 && decide (a.2.2 ≤ b.2.2))))
  l.mergeSort fun a b => lt (key a) (key b)

/-- Resident contexts that hold a bank the candidate needs. -/
def bankHolders (s : State) (p c : Nat) : List Nat :=
  let banks := ctxBanks s c
  (residents s p).filter fun o => o != c && banks.any fun gk => (s.bank (bankIx gk.1 gk.2)).holder == some o

/-- Have all ranks that the context's bank regions need a member (R404, R471)? -/
def ranksPlaced (s : State) (c : Nat) : Bool :=
  let p := s.part (s.ctx c).reg.part
  (s.ctx c).regions.all fun r => r.2.space != .bank || (List.range r.2.tiles).all fun i => rankAvail s p (r.2.first + i)

/-- May the candidate be admitted (R384)? -/
def admissible (s : State) (p c : Nat) : Bool :=
  decide ((residents s p).length < 16) && (bankHolders s p c).isEmpty && ranksPlaced s c

/-- Admit a context: RESIDENT at once from LOADED; from SWAPPED it holds its banks while it swaps in. -/
def makeResident (c : Nat) (s : State) : State :=
  if (s.ctx c).reg.st = .swapped then
    let s := forAll (ctxBanks s c)
      (fun gk t => t.modBank (bankIx gk.1 gk.2) fun b => { b with holder := some c, owner := 0, peer := 0 }) s
    settle c (s.modCtx c fun x => { x with sched := { x.sched with swapping := .in, runnableAt := none } })
  else
    settle c (s.modCtx c fun x => { x with
      reg := { x.reg with st := .resident, res := true }, sched := { x.sched with runnableAt := none } })

/-- May a victim be evicted (R385)? -/
def evictable (s : State) (p c : Nat) : Bool := !(s.ctx c).reg.lc || bit (s.part p).schedCtrl.toNat 31

/-- The context blocked longest, best-effort before latency-critical. -/
def longestBlocked (s : State) (p : Nat) (l : List Nat) : Option Nat :=
  let ok := l.filter (evictable s p)
  let be := ok.filter fun c => !(s.ctx c).reg.lc
  (if be = [] then ok else be).foldl (fun m c => match m with
    | none => some c
    | some d =>
      if (s.ctx c).sched.blockedStamp < (s.ctx d).sched.blockedStamp then some c else some d) none

/-- The victims for a candidate, if every needed one is eligible (R385). -/
def victims (s : State) (p c : Nat) : Option (List Nat) :=
  let hs := bankHolders s p c
  let rest := (residents s p).filter fun o => !hs.contains o
  if !(residents s p).all (fun o => (s.ctx o).isBlocked) || !ranksPlaced s c then none
  else if !hs.all (evictable s p) then none
  else if rest.length < 16 then some hs
  else (longestBlocked s p rest).map fun v => hs ++ [v]

/-- Begin the eviction of a context: its swap-out starts, the counters move. -/
def evict (p c : Nat) (s : State) : State :=
  let lc := (s.ctx c).reg.lc
  let s := s.modCtx c fun x => { x with
    reg := { x.reg with evictions := x.reg.evictions + 1 }, sched := { x.sched with swapping := .out } }
  let s := s.modPart2 p fun x => { x with schedEvictions := x.schedEvictions + 1 }
  let s := if lc then schedEvent p 2 s else s
  ctxEvent c 2 s

/-- Consider candidates in order: take in the first that fits, or evict for the first for which that is possible. -/
def considerAll (p : Nat) : List Nat → State → State
  | [], s => s
  | c :: r, s =>
    if admissible s p c then makeResident c s
    else
      match victims s p c with
      | some vs => forAll vs (fun v t => evict p v t) s
      | none => considerAll p r s

/-- CTX_ADMIT (R384, R385). -/
def execCtxAdmit (p : Nat) (s : State) : Host.Outcome State Fault Refusal :=
  .next (considerAll p (runnables s p) s)

/-! ## Control commands (R394 to R397) -/

/-- Permission of R394: context 0, or another context of the target's function. -/
def mayControl (s : State) (c t : Nat) : Bool :=
  c == 0 || ((s.ctx t).reg.st != .free && (s.ctx c).reg.func == (s.ctx t).reg.func)

/-- Order 1 for a target field. -/
def badTarget (c t : Nat) : Bool := t == 0 || decide (1024 ≤ t) || t == c

/-- R380's suspend row. -/
def CtxSt.suspendable : CtxSt → Bool
  | .loaded | .swapped | .resident | .running | .blocked | .blockedKv => true
  | _ => false

/-- Checks that the control commands share. -/
def checkControl (s : State) (c : Nat) (m : Cmd) (resv : List (Bool × Nat)) (bad : Ctx → Bool) : Verdict :=
  let t := m.f 0x10 16
  verdict
    [chk .cmd (bodyResv m [(0x14, 0x40)] ++ resv ++ [(badTarget c t, 0x10)]),
     chk .perm [(!mayControl s c t, 0x10)],
     chk .state [((s.ctx t).reg.st == .free || bad (s.ctx t), 0x10)]]
    (mkBound s c [] [])

/-- Bytes 0x12 and 0x13 reserved. -/
def resv12 (m : Cmd) : List (Bool × Nat) := resvBytes m.entry.toNat 0x12 2

def checkCtxSuspend (s : State) (c : Nat) (m : Cmd) : Verdict :=
  checkControl s c m (resv12 m) fun x => !x.reg.st.suspendable

def checkCtxResume (s : State) (c : Nat) (m : Cmd) : Verdict :=
  checkControl s c m (resv12 m) fun x => !(x.reg.st == .halted || x.reg.st == .blockedKv) || x.reg.unplaced

def checkCtxSave (s : State) (c : Nat) (m : Cmd) : Verdict :=
  checkControl s c m (resv12 m) fun x => !(x.reg.st == .halted && !x.busy)

def checkCtxReset (s : State) (c : Nat) (m : Cmd) : Verdict :=
  checkControl s c m ((fld0 m.entry.toNat 0x12 8 != 0, 0x12) :: [resvBits m.entry.toNat 0x13 1 7]) fun _ => false

/-- Suspend (R380, R395). -/
def suspend (t : Nat) (s : State) : State :=
  settle t (s.modCtx t fun x => { x with reg := { x.reg with st := .halted } })

/-- Resume (R380): by the definitions of R379 when resident, otherwise SWAPPED or LOADED. -/
def resume (t : Nat) (s : State) : State :=
  settle t (s.modCtx t fun x => { x with
    reg := { x.reg with st := if x.reg.res then .resident else if x.hasBanks then .swapped else .loaded },
    sched := { x.sched with saved := false } })

/-- A running command of an opcode with its target. -/
def control? (s : State) (c q op : Nat) : Option (Cmd × Nat) :=
  match running? s c q with
  | some m => if m.opcode = op then some (m, m.f 0x10 16) else none
  | none => none

/-- CTX_SUSPEND (R395). -/
def execCtxSuspend (c q : Nat) (s : State) : Host.Outcome State Fault Refusal :=
  match control? s c q 0x56 with
  | some (_, t) => if (s.ctx t).reg.st.suspendable then .next (finish c q .ok [] (suspend t s)) else .next (finish c q .ok [] s)
  | none => .next s

/-- CTX_RESUME (R395). -/
def execCtxResume (c q : Nat) (s : State) : Host.Outcome State Fault Refusal :=
  match control? s c q 0x57 with
  | some (_, t) =>
    if (s.ctx t).reg.st = .halted ∨ (s.ctx t).reg.st = .blockedKv then .next (finish c q .ok [] (resume t s))
    else .next (finish c q .ok [] s)
  | none => .next s

/-- CTX_SAVE (R395): a resident target swaps out first. -/
def execCtxSave (c q : Nat) (s : State) : Host.Outcome State Fault Refusal :=
  match control? s c q 0x58 with
  | some (_, t) =>
    if (s.ctx t).sched.swapping ≠ .none then .next s
    else if (s.ctx t).reg.res then
      .next (setActed c q (s.modCtx t fun x => { x with sched := { x.sched with swapping := .out } }))
    else .next (finish c q .ok [] (s.modCtx t fun x => { x with sched := { x.sched with saved := true } }))
  | none => .next s

/-- CTX_RESET (R401): waits for a swap of the target. -/
def execCtxReset (c q : Nat) (s : State) : Host.Outcome State Fault Refusal :=
  match control? s c q 0x5A with
  | some (m, t) =>
    if (s.ctx t).sched.swapping ≠ .none ∨ (s.ctx t).reg.st = .free then .next s
    else .next (finish c q .ok [] (settle t (resetCtx t (m.fb 0x13 0 1 == 1) s)))
  | none => .next s

/-! ### CTX_RESTORE (R402, R404) -/

/-- The earliest interrupted command. -/
def firstInterrupted (x : Ctx) : Nat :=
  match x.cmds.find? Cmd.interrupted with
  | some m => m.seq
  | none => 0

/-- The detail words of E_GEOMETRY (R404). -/
def geometryWords (s : State) (t p : Nat) : List Nat :=
  let g := ((s.ctx t).sched.geo).getD ((s.part (s.ctx t).reg.part).w, (s.part (s.ctx t).reg.part).h)
  [firstInterrupted (s.ctx t), sh g.1 8 + g.2, sh (s.part p).w 8 + (s.part p).h]

/-- Is the target bound to a geometry that partition p has not? -/
def geoBad (s : State) (t p : Nat) : Bool :=
  let g := ((s.ctx t).sched.geo).getD ((s.part (s.ctx t).reg.part).w, (s.part (s.ctx t).reg.part).h)
  (s.ctx t).reg.geobound && (g.1 != (s.part p).w || g.2 != (s.part p).h)

/-- Candidates for `FIRST`: congruent to the old one modulo 64, or the old one alone for a bound context. -/
def firstCands (p : Part) (bound : Bool) (old : Nat) : List Nat :=
  if bound then [old] else (List.range (p.w * p.h)).map fun j => 64 * j + old % 64

/-- Checks 1 to 3 for one region at one place. -/
def fitAt (s : State) (t : Nat) (p : Part) (placed : List Region) (w : Wish) : Except NoFit Nat :=
  match fitRanks s p [w] with
  | some e => .error e
  | none =>
    match fitBanks s t p [w] with
    | some e => .error e
    | none => fitBytes p placed w

/-- Place one region: the lowest place that fits, or the refusal at the lowest place (log 40). -/
def placeOne (s : State) (t : Nat) (p : Part) (bound : Bool) (placed : List Region) (r : Region) : Except NoFit Region :=
  let w (f : Nat) : Wish := { mask := r.mask, first := f, tiles := r.tiles, len := r.len, weight := r.model.isSome }
  let cs := firstCands p bound r.first
  match cs.findSome? fun f => match fitAt s t p placed (w f) with
    | .ok o => some { r with first := f, off := o }
    | .error _ => none with
  | some g => .ok g
  | none =>
    match fitAt s t p placed (w (cs.headD 0)) with
    | .error e => .error e
    | .ok _ => .error (1, 0xFFFFFFFF, 0, 0)

/-- Place every bank region in ascending id: the new table of regions. -/
def placeAll (s : State) (t : Nat) (p : Part) (bound : Bool) :
    List (Nat × Region) → List (Nat × Region) → Except NoFit (List (Nat × Region))
  | [], done => .ok done
  | (i, r) :: l, done =>
    if r.space = .bank then
      match placeOne s t p bound (done.map Prod.snd) r with
      | .error e => .error e
      | .ok g => placeAll s t p bound l (done ++ [(i, g)])
    else placeAll s t p bound l (done ++ [(i, r)])

/-- Distinct leaves of a context's sequences. -/
def ctxLeaves (s : State) (t : Nat) : List Nat :=
  ((s.ctx t).seqs.flatMap fun q => seqLeaves s t q.2 0).eraseDups

/-- Check 6 LEAVES (R393): the moved leaves are free under R198's rule for the context's class. -/
def fitLeaves (s : State) (t p : Nat) : Option NoFit :=
  let need := (ctxLeaves s t).length
  let free := kvFree s p
  let usable := if (s.ctx t).reg.lc then free else free - (s.part p).kvReserve.toNat
  if usable < need then some (6, 0xFFFFFFFF, need, usable) else none

/-- The Maquette of a restore into partition p: the regions as placed there. -/
def restoreFit (s : State) (t p : Nat) (discard : Bool) : Except NoFit (List (Nat × Region)) :=
  let x := s.ctx t
  match placeAll s t (s.part p) (x.reg.geobound && !discard) x.regions [] with
  | .error e => .error e
  | .ok regs =>
    match fitUnits (s.modCtx t fun y => { y with reg := { y.reg with quota := 0 } }) t p x.units.length 0 with
    | some e => .error e
    | none =>
      match fitLeaves s t p with
      | some e => .error e
      | none => .ok regs

def checkCtxRestore (s : State) (c : Nat) (m : Cmd) : Verdict :=
  let t := m.f 0x10 16
  let p := m.fb 0x12 0 5
  let x := s.ctx t
  let disc := m.fb 0x13 1 1 == 1
  let v := m.entry.toNat
  let moves := x.reg.st != .free && p != x.reg.part
  verdict
    [chk .cmd (bodyResv m [(0x14, 0x40)] ++
       [resvBits v 0x12 5 3, (fld v 0x13 0 1 != 0 || fld v 0x13 2 6 != 0, 0x13), (badTarget c t, 0x10),
        (decide (24 ≤ p), 0x12)]),
     chk .perm [(!mayControl s c t, 0x10), (moves && c != 0, 0x12)],
     chk .state [(!(x.reg.st == .halted && !x.reg.res && x.sched.swapping == .none), 0x10),
       (moves && !(s.part p).defd, 0x12)],
     if moves ∧ geoBad s t p ∧ !disc then some { st := .geometry, dw := geometryWords s t p } else none,
     if moves then
       match restoreFit s t p disc with
       | .error e => some (noFitRef e)
       | .ok _ => none
     else none]
    (mkBound s c [] [])

/-- Copy the bytes and records of a device range to another, under the records' own keys (R402, R443). -/
def copyRange (src dst len : Nat) (s : State) : State :=
  let bytes := (s.hbm.mem.filter fun x => decide (src ≤ x.1 ∧ x.1 < src + len)).map fun x => (x.1 - src + dst, x.2)
  let s := hbmUnwrite dst len s
  let grans := (List.range (cdiv len 1024)).map fun i => 1024 * i
  let s := forAll grans (fun o t =>
    let g := granAt t (src + o)
    if (src + o) % spanAt t (src + o) = 0 then
      (if g.1 = .unwritten then t else setGran t (dst + o) g.1 g.2.1 g.2.2)
    else t) s
  { s with hbm := { s.hbm with mem := mwriteAll s.hbm.mem bytes } }

/-- The new id of a unit or leaf under a list of pairs. -/
def mapped (l : List (Nat × Nat)) (u : Nat) : Nat := (aget l u).getD u

/-- Rewrite the leaf ids of a sequence's table (R402). -/
def remapTable (t : Nat) (l : List (Nat × Nat)) (q : KvSeq) (s : State) : State :=
  forAll (List.range q.h) (fun h s =>
    forAll (List.range q.nb) (fun b s =>
      match seqLeaf s t q h b with
      | some leaf =>
        { s with hbm := { s.hbm with
            mem := mwrite s.hbm.mem (tableDa s t q (entryOff q h b)) (toBytes 4 (entryWord (some (mapped l leaf)))) } }
      | none => s) s) s

/-- Move a saved context into partition p with its regions as placed there (R402). -/
def moveCtx (t p : Nat) (regs : List (Nat × Region)) (s : State) : State :=
  let x := s.ctx t
  let po := x.reg.part
  let leaves := ctxLeaves s t
  let refs := leaves.map fun l => (l, leafRefs s po l)
  let s := forAll (x.seqs.map Prod.fst) (fun i u => labInvalidate t i u) s
  let fresh := takeUnits s p x.units.length
  let umap := x.units.zip fresh
  let s := forAll umap (fun ab u => copyRange (ab.1 * allocBytes) (ab.2 * allocBytes) allocBytes u) s
  let s := s.modPart2 po fun y => { y with leafTab := y.leafTab.filter fun l => !leaves.contains l.1 }
  let s := s.modCtx t fun y => { y with reg := { y.reg with part := p } }
  let (ids, s) := takeLeaves t leaves.length s
  let lmap := leaves.zip ids
  let a := s.part po
  let b := s.part p
  let s := forAll lmap (fun l u =>
    copyRange (a.footerBase + 1024 * l.1) (b.footerBase + 1024 * l.2) 1024
      (copyRange (a.payloadBase + 32768 * l.1) (b.payloadBase + 32768 * l.2) 32768 u)) s
  let s := s.modPart2 p fun y => { y with
    leafTab := lmap.foldl (fun m l => aput m l.2 (mapped refs l.1, t)) y.leafTab }
  let s := s.modCtx t fun y => { y with
    regions := regs.map fun r => (r.1, { r.2 with units := r.2.units.map (mapped umap) }),
    models := y.models.map fun m => (m.1, { m.2 with units := m.2.units.map (mapped umap) }),
    reg := { y.reg with unplaced := false },
    sched := { y.sched with
      swapUnits := y.sched.swapUnits.map (mapped umap) } }
  let s := forAll ((s.ctx t).seqs.map Prod.snd) (fun q u => remapTable t lmap q u) s
  settle t (fixSubst p (fixSubst po s))

/-- End the interrupted commands of a context with E_GEOMETRY in its own ring (R404). -/
def discardInterrupted (t p : Nat) (s : State) : State :=
  let dw := geometryWords s t p
  forAll (((s.ctx t).cmds.filter fun m => m.interrupted && (m.phase == .issued || m.phase == .acted)).map Cmd.seq)
    (fun q u => finish t q .geometry dw u) s

/-- CTX_RESTORE (R395, R402, R404). -/
def execCtxRestore (c q : Nat) (s : State) : Host.Outcome State Fault Refusal :=
  match control? s c q 0x59 with
  | some (m, t) =>
    let p := m.fb 0x12 0 5
    let disc := m.fb 0x13 1 1 == 1
    if p = (s.ctx t).reg.part then .next (finish c q .ok [] s)
    else
      match restoreFit s t p disc with
      | .error e => .next (finish c q .nofit (noFitRef e).dw s)
      | .ok regs =>
        let s := if disc then discardInterrupted t p s else s
        .next (finish c q .ok [] (moveCtx t p regs s))
  | none => .next s

/-! ### SCHED_SET and CTX_CONTROL (R397, R407, R408) -/

def checkSchedSet (s : State) (c : Nat) (m : Cmd) : Verdict :=
  let v := m.f 0x10 32
  verdict
    [chk .cmd (bodyResv m [(0x14, 0x40)] ++ [(bits v 16 15 != 0 || bits v 0 16 == 0, 0x10)]),
     chk .perm [(c == 0 || (s.ctx c).reg.func != 0, 0x00)]]
    (mkBound s c [] [])

/-- `SCHED_CTRL` as written: reserved bits dropped, `EVAC_WAIT` of 0 taken as 1 (R408). -/
def schedCtrlVal (v : Nat) : Word := w32 (sh (bits v 31 1) 31 + max 1 (bits v 0 16))

/-- SCHED_SET (R397). -/
def execSchedSet (c q : Nat) (s : State) : Host.Outcome State Fault Refusal :=
  match running? s c q with
  | some m =>
    if m.opcode = 0x5B then
      .next (finish c q .ok [] (s.modPart (s.ctx c).reg.part fun x => { x with schedCtrl := schedCtrlVal (m.f 0x10 32) }))
    else .next s
  | none => .next s

/-- An expert control write waits for the partition's next issue decision (R397). -/
def controlWrite (src : Src) (page : Nat) (susp : Bool) (s : State) : State :=
  if mayWrite src then
    match pageCtx s src page with
    | none => s
    | some c =>
      if c = 0 ∨ (s.ctx c).reg.st = .lost then ctxEvent c 8 s
      else s.modCtx c fun x => { x with
        sched := { x.sched with wantSusp := x.sched.wantSusp || susp, wantRes := x.sched.wantRes || !susp } }
  else s

/-- CTX_CONTROL_SUSPEND (R397). -/
def execCtxControlSuspend (src : Src) (page : Nat) (s : State) : Host.Outcome State Fault Refusal :=
  .next (controlWrite src page true s)

/-- CTX_CONTROL_RESUME (R397). -/
def execCtxControlResume (src : Src) (page : Nat) (s : State) : Host.Outcome State Fault Refusal :=
  .next (controlWrite src page false s)

/-- The sequencer acts on the control writes of a context (R397, R408). -/
def actControl (c : Nat) (s : State) : State :=
  let x := s.ctx c
  let s := if x.sched.wantSusp then (if x.reg.st.suspendable then suspend c s else ctxEvent c 8 s) else s
  let s :=
    if x.sched.wantRes then
      let y := s.ctx c
      if (y.reg.st = .halted ∨ y.reg.st = .blockedKv) ∧ y.reg.unplaced = false then resume c s else ctxEvent c 8 s
    else s
  if x.sched.wantSusp || x.sched.wantRes then
    s.modCtx c fun y => { y with sched := { y.sched with wantSusp := false, wantRes := false } }
  else s

/-! ## Slices (R382) -/

/-- Has a resident context a candidate: an oldest unissued entry that nothing of its own holds back (R381)? -/
def Ctx.candidate (x : Ctx) : Option Cmd :=
  if (x.reg.st == .resident || x.reg.st == .running) && x.ringState == 1 && x.sched.swapping == .none then
    match x.oldest with
    | some m => if x.fenced m then none else some m
    | none => none
  else none

/-- Best-effort residents with a candidate. -/
def sliceCands (s : State) (p : Nat) : List Nat :=
  (residents s p).filter fun c => !(s.ctx c).reg.lc && (s.ctx c).candidate.isSome

/-- SLICE_EXPIRE (R382): the slice passes to the next best-effort resident with a candidate, or waits for one. -/
def execSliceExpire (p : Nat) (s : State) : Host.Outcome State Fault Refusal :=
  match (s.part2 p).slice with
  | some h =>
    let next := nextAfter (sliceCands s p) h
    .next (s.modPart2 p fun x => { x with slice := next, sliceLast := next.getD h })
  | none => .next s

end Sys2Proof.Machine
end

