-- ==== Sys2Proof/Machine/Map.lean ====
section
/-! DEFINITION. The Armatures a device holds and runs (R453 to R458), the repair log and replacement requests (R472,
R473), the choice of a spare (R470), and bus errors (R501 to R503). -/

namespace Sys2Proof.Machine

open Sys2Proof

/-! ## Armatures -/

/-- The current and the other Armature slot (R458). -/
def armCur (s : State) : Option Image := if s.arm.curB then s.arm.slotB else s.arm.slotA
def armOther (s : State) : Option Image := if s.arm.curB then s.arm.slotA else s.arm.slotB

/-- The previous Armature, when there is one. -/
def armPrev (s : State) : Option Image := if s.arm.prevValid then armOther s else none

/-- Does the partition run the previous Armature? -/
def revertedPart (s : State) (p : Nat) : Bool := bit s.arm.reverted.toNat p

/-- Does the partition still have to switch under an accepted APPLY, so that it runs the Armature that is now the
previous one (R459, R462)? -/
def yetToApply (s : State) (p : Nat) : Bool := s.arm.busy && s.arm.cmdOp == 1 && s.arm2.todo.contains p

/-- The Armature a partition runs. -/
def armRun (s : State) (p : Nat) : Option Image :=
  if revertedPart s p || yetToApply s p then armPrev s else armCur s

/-- A payload field of an Armature: byte offset, first bit, width; 0 without an Armature. -/
def payField (a : Option Image) (off lo w : Nat) : Nat :=
  match a with
  | some i => fld i.payload off lo w
  | none => 0

/-- Offsets of a partition entry, a slab entry and a port entry (R453). -/
def partOff (n : Nat) : Nat := 0x40 + 0x20 * n
def slabOff (n : Nat) : Nat := 0x340 + 0x20 * n
def portOff (p : Nat) : Nat := 0xFC0 + 0x10 * p

/-- The Armature that a position's partition runs; the current one for a position in no partition (R461). -/
def armOfPos (s : State) (pos : Nat) : Option Image :=
  match partOf s pos with
  | some p => armRun s p
  | none => armCur s

/-! ## The log and replacement requests (R472, R473) -/

/-- The active anchor's local cycle counter. -/
def anchorCycle (s : State) : DWord := (s.slab s.sec.anchor).cycle

/-- Write a log record; the ring holds 24,576. -/
def logFact (kind slab arg0 arg1 arg2 : Nat) (s : State) : State :=
  let r : LogRec := { kind := kind, slab := slab, arg0 := arg0, arg1 := arg1, arg2 := arg2, lcycle := anchorCycle s }
  { s with arm := { s.arm with log := (r :: s.arm.log).take 24576, logCount := s.arm.logCount + 1 } }

/-- Set a reason of REPLACE_REQUEST, once: logged, shown and posted once (R473, R474). -/
def replace (reason slab : Nat) (s : State) : State :=
  if bit s.arm.replaceReq.toNat reason then s
  else
    let s := { s with arm := { s.arm with replaceReq := s.arm.replaceReq ||| w32 (sh 1 reason) } }
    let s := armEvent 16 (logFact 7 slab reason 0 0 s)
    post 0 0x0111 slab 0xFFFF [reason, slab] s

/-! ## Spares (R470) -/

/-- Slab hops between two slabs. -/
def hops (a b : Nat) : Nat :=
  (max (slabX a) (slabX b) - min (slabX a) (slabX b)) + (max (slabY a) (slabY b) - min (slabY a) (slabY b))

/-- The spare that takes a position: fewest hops, then lowest rank of the Armature that applies, then lowest id. -/
def chooseSpare (s : State) (pos : Nat) : Option Nat :=
  let rank (n : Nat) : Nat := payField (armOfPos s pos) (slabOff n + 1) 0 8
  (idleSpares s).foldl (fun best n => match best with
    | none => some n
    | some b =>
      if hops n pos < hops b pos ∨ (hops n pos = hops b pos ∧ rank n < rank b) then some n else some b) none

/-! ## Digest exchanges (R466) -/

/-- Slabs that an exchange queries: all that are not RETIRED. -/
def liveSlabs (s : State) : List Nat := (List.range 100).filter fun n => (s.slab n).st != .retired

/-- Start a digest exchange of a partition, unless one runs. -/
def startExch (p : Nat) (s : State) : State :=
  if (s.part2 p).exch.isSome then s
  else s.modPart2 p fun x => { x with sinceExch := 0, exch := some { waiting := liveSlabs s, bad := [], attempt := 1, judged := false } }

/-- Count an operator access to a context's state (R448). -/
def opAccess (c : Nat) (s : State) : State :=
  if c = 0 then s else s.modCtx c fun x => { x with prof := { x.prof with opacc := x.prof.opacc + 1 } }

/-! ## Bus errors (R501 to R503, R515, R516) -/

/-- Record a bus error of the PF, VF or indirect paths. -/
def busLog (kind src func view off : Nat) (write : Bool) (data : Nat) (s : State) : State :=
  { s with rif := { s.rif with
      log0 := w32 (sh kind 28 + sh src 24 + sh func 16 + sh (b2n write) 15 + sh view 13), log1 := w32 off,
      log2 := w32 (off / 2 ^ 32), count := s.rif.count + 1, data := w32 data } }

/-- A read that is a bus error: Unsupported Request. -/
def busReadError (kind src func view off : Nat) (s : State) : State :=
  (busLog kind src func view off false 0 s).answer .unsupported

/-- A write that is a bus error: dropped, logged and posted to the PF and to the writing VF. -/
def busWriteError (kind src func view off data : Nat) (s : State) : State :=
  let s := busLog kind src func view off true data s
  postBoth func 0x0120 0xFF 0xFFFF [s.rif.log0.toNat, s.rif.log1.toNat, s.rif.log2.toNat, s.rif.data.toNat] s

end Sys2Proof.Machine
end

