-- ==== Sys2Proof/Machine/Motion.lean ====
section
/-! DEFINITION. Motion search of the video encoder (R427): candidates, SAD, the diamond, sub-pixel refinement and ties. What the
rule leaves to AV1 and HEVC (interpolation, the vectors' bit cost, lambda, the global motion's estimate) is opaque
(log 13); the order of blocks and the steps it does not name are choices (log 54). -/

namespace Sys2Proof.Machine

open Sys2Proof

/-- What one search works on: the stream's parameters, the luma size, the picture's and the reference's luma samples, and the
distance in frames to the reference. -/
structure MotionIn where
  params : Nat
  w : Nat
  h : Nat
  cur : List Nat
  ref : List Nat
  dist : Nat
  quant : Nat
  frame : Nat
deriving DecidableEq, Repr

/-- A vector of whole samples. -/
def MotionVec.whole (x y : Int) : MotionVec := { x := 8 * x, y := 8 * y }

/-- The integer position of a vector: its nearest whole sample. -/
def MotionVec.int (v : MotionVec) : Int × Int := ((v.x + 4) / 8, (v.y + 4) / 8)

/-- |x| + |y|. -/
def MotionVec.size (v : MotionVec) : Nat := v.x.natAbs + v.y.natAbs

/-- A reference sample; outside the picture the clamped one (R112, EDGE). -/
def edgeSample (w h : Nat) (px : List Nat) (x y : Int) : Nat :=
  let cx := (max 0 (min ((w : Int) - 1) x)).toNat
  let cy := (max 0 (min ((h : Int) - 1) y)).toNat
  px.getD (w * cy + cx) 0

/-- The samples of an 8 × 8 block that lie in the picture: column, row. -/
def blockSamples (w h bx by_ : Nat) : List (Nat × Nat) :=
  (List.range 8).flatMap fun j => ((List.range 8).map fun i => (8 * bx + i, 8 * by_ + j)).filter fun p =>
    decide (p.1 < w ∧ p.2 < h)

/-- Sum of absolute differences at an integer position. -/
def MotionIn.sad (m : MotionIn) (bx by_ : Nat) (dx dy : Int) : Nat :=
  ((blockSamples m.w m.h bx by_).map fun p =>
    let a : Int := m.cur.getD (m.w * p.2 + p.1) 0
    (a - edgeSample m.w m.h m.ref (p.1 + dx) (p.2 + dy)).natAbs).sum

/-! ## Ties -/

/-- A scored vector: its cost, the candidate it comes from, and the vector. -/
structure Scored where
  cost : Nat
  cand : Nat
  vec : MotionVec
deriving DecidableEq, Repr

/-- Lower cost, then earlier candidate, then smaller |x| + |y|. -/
def Scored.before (a b : Scored) : Bool :=
  decide (a.cost < b.cost) || a.cost == b.cost &&
    (decide (a.cand < b.cand) || a.cand == b.cand && decide (a.vec.size < b.vec.size))

/-- The first of a list that no other is before. -/
def Scored.best (x : Scored) (l : List Scored) : Scored := l.foldl (fun b y => if y.before b then y else b) x

/-! ## Candidates -/

/-- The piece that codes an 8 × 8 block (R421): tiles cut uniformly, slices of CTUs in raster order, rows of CTUs. -/
def pieceOf (split px py cols rows bx by_ : Nat) : Nat :=
  let cx := bx / 8
  let cy := by_ / 8
  let part (u g x : Nat) : Nat := ((List.range g).filter fun i => decide (0 < i ∧ (cutPart u g i).1 ≤ x)).length
  let tile (u g x : Nat) : Nat := ((List.range g).filter fun i => decide (0 < i ∧ i * u / g ≤ x)).length
  match split with
  | 1 => tile rows py cy * px + tile cols px cx
  | 2 => part (cols * rows) px (cy * cols + cx)
  | 3 => cy
  | _ => 0

/-- A field's vector scaled by the ratio of frame distances. -/
def scaleVec (d : Nat) (e : MotionVec × Nat) : MotionVec :=
  { x := (2 * e.1.x * d + e.2) / (2 * e.2 : Int), y := (2 * e.1.y * d + e.2) / (2 * e.2 : Int) }

/-- Candidates of a block in their order: zero, the global motion, the vectors found for the left, above, above-right and
above-left blocks of its piece, the co-located vector and its right-hand neighbour's. -/
def candidates (piece : Nat → Nat → Nat) (bw bh : Nat) (found : List MotionVec) (global : MotionVec)
    (field : List (Option (MotionVec × Nat))) (d bx by_ : Nat) : List MotionVec :=
  let at_ (dx dy : Int) : List MotionVec :=
    let x := (bx : Int) + dx
    let y := (by_ : Int) + dy
    if 0 ≤ x ∧ x < (bw : Int) ∧ 0 ≤ y ∧ piece x.toNat y.toNat = piece bx by_ then (found[y.toNat * bw + x.toNat]?).toList else []
  let co (x : Nat) : List MotionVec :=
    if x < bw ∧ by_ < bh then
      match field[by_ * bw + x]? with
      | some (some e) => [scaleVec d e]
      | _ => []
    else []
  [{ x := 0, y := 0 }, global] ++ at_ (-1) 0 ++ at_ 0 (-1) ++ at_ 1 (-1) ++ at_ (-1) (-1) ++ co bx ++ co (bx + 1)

/-! ## Refinement -/

/-- Up to n steps of the diamond of radius 1 around a position, within the search range of the candidate's. -/
def diamond (sad : Int → Int → Nat) (sh_ sv : Nat) (cx cy : Int) : Nat → Scored → Scored
  | 0, x => x
  | n + 1, x =>
    let p := x.vec.int
    let pts := [(p.1 - 1, p.2), (p.1 + 1, p.2), (p.1, p.2 - 1), (p.1, p.2 + 1)].filter fun q =>
      decide ((q.1 - cx).natAbs ≤ sh_ ∧ (q.2 - cy).natAbs ≤ sv)
    let y := x.best (pts.map fun q => { cost := sad q.1 q.2, cand := x.cand, vec := .whole q.1 q.2 })
    if y = x then x else diamond sad sh_ sv cx cy n y

/-- One butterfly stage of a Hadamard transform over pairs h apart. -/
def hadStage (h : Nat) (v : List Int) : List Int :=
  (List.range v.length).map fun i =>
    if i / h % 2 = 0 then v.getD i 0 + v.getD (i + h) 0 else v.getD (i - h) 0 - v.getD i 0

/-- Sum of absolute values of the 8 × 8 Hadamard transform of differences. -/
def satd (v : List Int) : Nat := (([1, 2, 4, 8, 16, 32].foldl (fun a h => hadStage h a) v).map Int.natAbs).sum

/-- SATD of a block against its prediction, plus lambda times the vector's bit cost. -/
def MotionIn.score (m : MotionIn) (bx by_ : Nat) (v : MotionVec) : Nat :=
  let pred := Config.predictBlock m.params m.w m.h m.ref (8 * bx) (8 * by_) v.x v.y
  let diff := (List.range 64).map fun i =>
    let x := 8 * bx + i % 8
    let y := 8 * by_ + i / 8
    if x < m.w ∧ y < m.h then ((m.cur.getD (m.w * y + x) 0 : Nat) : Int) - ((pred.getD i 0 : Nat) : Int) else 0
  satd diff + Config.motionLambda m.params m.quant * Config.vectorBits m.params m.frame bx by_ v.x v.y

/-- One sub-pixel step: the best of a vector and its neighbours at a distance in eighths. -/
def MotionIn.subStep (m : MotionIn) (bx by_ d : Nat) (x : Scored) : Scored :=
  x.best (((List.range 9).filter (· != 4)).map fun i =>
    let v : MotionVec := { x := x.vec.x + d * ((i % 3 : Nat) - 1 : Int), y := x.vec.y + d * ((i / 3 : Nat) - 1 : Int) }
    { cost := m.score bx by_ v, cand := x.cand, vec := v })

/-- Sub-pixel refinement: half-pel, quarter-pel, and eighth-pel for AV1 when high precision is allowed. -/
def MotionIn.subPixel (m : MotionIn) (eighth : Bool) (bx by_ : Nat) (x : Scored) : MotionVec :=
  let a := { x with cost := m.score bx by_ x.vec }
  let b := m.subStep bx by_ 2 (m.subStep bx by_ 4 a)
  (if eighth then m.subStep bx by_ 1 b else b).vec

/-! ## The search (R427) -/

/-- The vector of one block: every candidate by SAD, the best two refined, the better of them refined further. -/
def MotionIn.block (m : MotionIn) (eighth : Bool) (sh_ sv bx by_ : Nat) (cands : List MotionVec) : MotionVec :=
  let sad := m.sad bx by_
  let scored := cands.zipIdx.map fun (v, i) =>
    ({ cost := sad v.int.1 v.int.2, cand := i, vec := .whole v.int.1 v.int.2 } : Scored)
  match scored with
  | [] => { x := 0, y := 0 }
  | a :: l =>
    let first := a.best l
    let refine (x : Scored) : Scored := diamond sad sh_ sv x.vec.int.1 x.vec.int.2 16 x
    let two := match scored.filter fun x => x.cand != first.cand with
      | [] => refine first
      | b :: r => (refine first).best [refine (b.best r)]
    m.subPixel eighth bx by_ two

/-- The vectors of every block of a picture against one reference, in raster order. -/
def MotionIn.search (m : MotionIn) (eighth : Bool) (sh_ sv : Nat) (piece : Nat → Nat → Nat)
    (field : List (Option (MotionVec × Nat))) : List MotionVec :=
  let bw := cdiv m.w 8
  let bh := cdiv m.h 8
  (List.range (bw * bh)).foldl (fun found i =>
    let g := Config.globalMotion m.params m.w m.h m.cur m.ref (i % bw) (i / bw)
    found ++ [m.block eighth sh_ sv (i % bw) (i / bw)
      (candidates piece bw bh found { x := g.1, y := g.2 } field m.dist (i % bw) (i / bw))]) []

end Sys2Proof.Machine
end

