-- ==== Sys2Proof/Machine/Coder.lean ====
section
/-! DEFINITION. Video coder cores (section 15): streams, frames cut into pieces that cores claim and commit in a job
block, re-issues and resets, the buffer model and the passes of a frame. The bits that the coders make are opaque
(log 13). -/

namespace Sys2Proof.Machine

open Sys2Proof

/-! ## Parameter blocks (R414) -/

/-- A field of a parameter block. -/
def vpf (p : Nat) (off w : Nat) : Nat := fld0 p off w

def vpHevc (p : Nat) : Bool := fld p 0x00 0 2 == 1
def vpDecode (p : Nat) : Bool := bit p 2
def vpD10 (p : Nat) : Bool := bit p 3
def vpW (p : Nat) : Nat := vpf p 0x02 16
def vpH (p : Nat) : Nat := vpf p 0x04 16
def vpSplit (p : Nat) : Nat := fld p 0x06 0 2
def vpCores (p : Nat) : Nat := vpf p 0x07 8
def vpPx (p : Nat) : Nat := vpf p 0x08 8
def vpPy (p : Nat) : Nat := vpf p 0x09 8
def vpFirst (p : Nat) : Nat := vpf p 0x0A 8
def vpWork (p : Nat) : Nat := vpf p 0x0C 16
def vpJob (p : Nat) : Nat := vpf p 0x0E 16
def vpMode (p : Nat) : Nat := fld p 0x10 0 2
def vpNref (p : Nat) : Nat := vpf p 0x11 8
def vpGop (p : Nat) : Nat := vpf p 0x12 16
def vpRate (p : Nat) : Nat := vpf p 0x14 32
def vpMax (p : Nat) : Nat := vpf p 0x18 32
def vpCpb (p : Nat) : Nat := vpf p 0x1C 32
def vpNum (p : Nat) : Nat := vpf p 0x24 16
def vpDen (p : Nat) : Nat := vpf p 0x26 16

/-- Number of 64 × 64 CTBs and of their rows. -/
def vpRows (p : Nat) : Nat := cdiv (vpH p) 64
def vpCols (p : Nat) : Nat := cdiv (vpW p) 64
def vpCtu (p : Nat) : Nat := vpRows p * vpCols p

/-- Pieces of a frame's first phase (R421). -/
def vpPieces (p : Nat) : Nat :=
  match vpSplit p with
  | 0 => 1
  | 1 => vpPx p * vpPy p
  | 2 => vpPx p
  | _ => vpRows p

/-- Largest fallback frame in bytes (R429). -/
def vpFallback (p : Nat) : Nat := 256 + cdiv (vpCtu p) 4

/-- R428's minimum on a rate: MAXRATE·FPS_DEN/FPS_NUM is at least 8·(256 + ceil(NCTU/4)) bits. -/
def vpRateOk (p maxrate : Nat) : Bool := vpNum p != 0 && decide (8 * vpFallback p * vpNum p ≤ maxrate * vpDen p)

/-- Bytes of one reference slot and of `WORK` (R416). -/
def vpSlot (p : Nat) : Nat :=
  let b := if vpD10 p then 2 else 1
  4096 * cdiv (6 * vpW p * vpH p * b + vpW p * vpH p) 16384
def vpWorkBytes (p : Nat) : Nat :=
  (vpNref p + 2) * vpSlot p + if vpDecode p then 0 else vpPieces p * (4096 * cdiv (vpCpb p) 32768)

/-- Range of a quantiser field. -/
def quantOk (p q : Nat) : Bool :=
  if vpHevc p then decide (q ≤ if vpD10 p then 63 else 51) else decide (1 ≤ q ∧ q ≤ 255)

/-- The split's columns and rows in range (R409, R414, R421). -/
def splitOk (p : Nat) : Bool :=
  let x := vpPx p
  let y := vpPy p
  match vpSplit p with
  | 1 =>
    decide (1 ≤ x ∧ 1 ≤ y ∧ x * y ≤ 128) && (if vpHevc p then decide (x ≤ 20 ∧ y ≤ 22) else decide (x ≤ 64))
  | 2 => vpHevc p && decide (1 ≤ x ∧ x ≤ 128) && y == 1
  | 3 => vpHevc p && x == 0 && y == 0 && decide (vpRows p ≤ 128)
  | _ => x == 0 && y == 0

/-- Fields outside R409, R414 or R428. -/
def paramsBad (p : Nat) : Bool :=
  let zero (off n : Nat) : Bool := (List.range n).all fun i => fld0 p (off + i) 8 == 0
  let size := decide (16 ≤ vpW p ∧ vpW p ≤ 8192 ∧ vpW p % 2 = 0) && decide (16 ≤ vpH p ∧ vpH p ≤ 4352 ∧ vpH p % 2 = 0)
  let level := if vpHevc p then decide (30 ≤ vpf p 1 8 ∧ vpf p 1 8 ≤ 186) else decide (vpf p 1 8 ≤ 18)
  let resv := fld p 0 5 3 == 0 && decide (fld p 0 0 2 ≤ 1) && fld p 6 2 6 == 0 && fld p 0x10 6 2 == 0
    && fld p 0x10 2 2 == 0 && zero 0x2E 0x52
  let common := resv && size && level && decide (1 ≤ vpCores p ∧ vpCores p ≤ 16)
  let dec := fld p 0 4 1 == 0 && vpSplit p == 0 && zero 0x08 2 && zero 0x10 1 && zero 0x12 0x1C
    && decide (1 ≤ vpNref p ∧ vpNref p ≤ 16)
  let enc := splitOk p && vpMode p != 3 && decide (1 ≤ vpNref p ∧ vpNref p ≤ 7)
    && (vpMode p != 1 || vpMax p == vpRate p) && vpRateOk p (vpMax p) && decide (8 * vpFallback p ≤ vpCpb p)
    && ((List.range 4).all fun i => quantOk p (vpf p (0x28 + i) 8))
    && decide (8 ≤ vpf p 0x2C 8 ∧ vpf p 0x2C 8 ≤ 128) && vpf p 0x2C 8 % 8 == 0
    && decide (8 ≤ vpf p 0x2D 8 ∧ vpf p 0x2D 8 ≤ 64) && vpf p 0x2D 8 % 8 == 0
  !(common && if vpDecode p then dec else enc)

/-- Positions of a partition that have members, in ascending slab id: index n is core rank n (R415). -/
def corePositions (s : State) (p : Nat) : List Nat := (s.part p).positions.filter fun pos => (serverOf s pos).isSome

/-- Streams bound to the core of a position, `SLOTS` of R432. -/
def streamsAt (s : State) (pos : Nat) : Nat :=
  ((definedCtxs s).map fun c => ((s.ctx c).vcs.filter fun v => v.2.cores.contains pos).length).sum

/-! ## VC_OPEN (R413 to R416, R431) -/

/-- `VS` with its reserved bits, and the fields that the coder bodies share. -/
def Cmd.vs (m : Cmd) : Nat := m.f 0x10 16
def badVs (m : Cmd) : Bool × Nat := (decide (63 < m.vs), 0x10)

/-- The parameter block in host memory, if it can be read. -/
def paramBlock (s : State) (c : Nat) (m : Cmd) : Option Nat :=
  let f := (s.ctx c).reg.func
  if hostFails s f (m.f 0x18 64) 128 then none else some (ofBytes (hostRead s f (m.f 0x18 64) 128))

/-- Is a region named by a bound object, a sequence or a stream of the context (R416, R191)? -/
def regionUsed (s : State) (c rid : Nat) : Bool :=
  (s.ctx c).handles.any (fun h => h.2.names rid) ||
    match getRegion s c rid with
    | some r => r.claimed
    | none => false

/-- The bank that holds the job block: tile, bank and offset of the region's first tile. -/
def jobPlace (s : State) (c rid : Nat) : Option (Nat × Nat × Nat) :=
  match getRegion s c rid with
  | some r =>
    if r.space = .bank then
      match (regionTiles (s.part (s.ctx c).reg.part) r).head?, (maskBanks r.mask).head? with
      | some g, some k => some (g, k, r.off)
      | _, _ => none
    else none
  | none => none

/-- E_OWNER where the job block's bank is not SHARED under the context (R431). -/
def chkJobOwner (s : State) (c rid : Nat) : Option Ref :=
  match jobPlace s c rid with
  | some (g, k, _) =>
    let b := (ownView s c).bank (bankIx g k)
    if b.owner = 7 ∧ b.holder = some c then none else some { st := .owner, dw := [g, k] }
  | none => none

/-- `WORK` and `JOB` as R416 asks. -/
def vcRegionRefs (s : State) (c p : Nat) : Option Ref :=
  let w := getRegion s c (vpWork p)
  let j := getRegion s c (vpJob p)
  let badW := match w with
    | some r => r.space != .hbm || regionUsed s c (vpWork p)
    | none => true
  let badJ := match j with
    | some r => r.space != .bank || r.model.isSome || (maskBanks r.mask).length != 1 || regionUsed s c (vpJob p)
    | none => true
  chkIn .desc 0xFFFF [(badW, 0x0C), (badJ, 0x0E)]

def regionLen (s : State) (c rid : Nat) : Nat := ((getRegion s c rid).map Region.len).getD 0

/-- The positions of a stream's cores. -/
def vcCores (s : State) (c p : Nat) : List Nat :=
  ((corePositions s (s.ctx c).reg.part).drop (vpFirst p)).take (vpCores p)

def checkVcOpen (s : State) (c : Nat) (m : Cmd) : Verdict :=
  let blk := paramBlock s c m
  let p := blk.getD 0
  let f := (s.ctx c).reg.func
  let after (l : List (Option Ref)) : List (Option Ref) := if blk.isSome then l else []
  let short := fun (st : Status) (b : Bool) => if b then some ({ st := st, dw := [] } : Ref) else none
  verdict
    ([chk .cmd (bodyResv m [(0x12, 0x18), (0x20, 0x40)] ++ [badVs m, (m.f 0x18 64 % 128 != 0, 0x18)])]
      ++ after [vcRegionRefs s c p, chkJobOwner s c (vpJob p)]
      ++ [chk .state [((aget (s.ctx c).vcs m.vs).isSome, 0x10)], hostRef s f (m.f 0x18 64) 128]
      ++ after
        [short .vcParam (paramsBad p || decide ((corePositions s (s.ctx c).reg.part).length < vpFirst p + vpCores p)),
         chkIn .shape 0xFFFF [(decide (regionLen s c (vpWork p) < vpWorkBytes p), 0x0C),
           (decide (regionLen s c (vpJob p) < 2048), 0x0E)],
         short .vcBusy ((vcCores s c p).any fun pos => decide (16 ≤ streamsAt s pos))])
    (mkBound s c [] [])

/-- Units of the fullness: 90,000·FPS_NUM to a bit. -/
def vpUnit (p : Nat) : Nat := 90000 * vpNum p

/-- VC_OPEN (R415, R428). The parameter block is read again; a read that now fails ends the command. -/
def execVcOpen (c q : Nat) (s : State) : Host.Outcome State Fault Refusal :=
  match running? s c q with
  | none => .next s
  | some m =>
    if m.opcode = 0x60 ∧ s.pcie.phase = .idle then
      match paramBlock s c m with
      | none =>
        let a := hostFailAddr s (s.ctx c).reg.func (m.f 0x18 64) 128
        .next (finish c q .hostmem [a % 2 ^ 32, a / 2 ^ 32] s)
      | some p =>
        let v : VcStream :=
          { params := BitVec.ofNat 1024 p, newRate := none, frames := 0, sinceKey := 0,
            fullness := min (vpCpb p * vpUnit p) (vpRate p * vpf p 0x20 32 * vpNum p), needKey := false,
            cores := vcCores s c p, refs := [], frame := none }
        .next (finish c q .ok [] (s.modCtx c fun x => { x with
          vcs := aput x.vcs m.vs v,
          regions := x.regions.map fun r =>
            if r.1 = vpWork p ∨ r.1 = vpJob p then (r.1, { r.2 with claimed := true }) else r }))
    else .next s

/-! ## The other coder commands: checks (R431) -/

/-- A stream of a context. -/
def getVc (s : State) (c v : Nat) : Option VcStream := aget (s.ctx c).vcs v

def setVc (c v : Nat) (x : VcStream) (s : State) : State := s.modCtx c fun y => { y with vcs := aput y.vcs v x }

/-- The stream's one footprint: `WORK` and `JOB`, written (R417). -/
def vcFeet (s : State) (c v : Nat) : List Foot :=
  match getVc s c v with
  | none => []
  | some x => [x.work, x.job].filterMap fun rid => (getRegion s c rid).map (wholeFoot rid)

/-- E_VC_STREAM where the stream is not open. -/
def chkOpen (s : State) (c v : Nat) : Option Ref :=
  if (getVc s c v).isSome then none else some { st := .vcStream, dw := [] }

def vcParams (s : State) (c v : Nat) : Nat := ((getVc s c v).map fun x => x.params.toNat).getD 0

def checkVcClose (s : State) (c : Nat) (m : Cmd) : Verdict :=
  verdict [chk .cmd (bodyResv m [(0x12, 0x40)] ++ [badVs m]), chkOpen s c m.vs] (mkBound s c [] (vcFeet s c m.vs))

def checkVcRate (s : State) (c : Nat) (m : Cmd) : Verdict :=
  let p := vcParams s c m.vs
  let bad := !vpDecode p && (!vpRateOk p (m.f 0x1C 32) || (vpMode p == 1 && m.f 0x18 32 != m.f 0x1C 32))
  verdict
    [chk .cmd (bodyResv m [(0x12, 0x18), (0x20, 0x40)] ++ [badVs m]), chkOpen s c m.vs,
     if bad then some { st := .vcParam, dw := [] } else none]
    (mkBound s c [] (vcFeet s c m.vs))

/-- A handle that is no LINEAR data descriptor in an HBM or host region, or, as a destination, is aliased. -/
def badCoderOpd (s : State) (c h : Nat) (dest : Bool) : Bool :=
  notLinear s c h [0] || (opdH s c h).reg.space == .bank || (dest && dAliased (opdH s c h).raw)

/-- The type of a picture's planes (R411). -/
def planeType (p : Nat) : Nat := if vpD10 p then 0x02 else 0x16

/-- Sizes of `Y` and `C` that break R411, for a picture of W × H. -/
def badLuma (y : Opd) (w h : Nat) : Bool := dRank y.raw != 2 || y.sizes != [w, h]
def badChroma (x : Opd) (w h : Nat) : Bool := dRank x.raw != 3 || x.sizes != [2, w / 2, h / 2]

def checkVcEncode (s : State) (c : Nat) (m : Cmd) : Verdict :=
  let (hy, hc, ho) := (m.f 0x12 16, m.f 0x14 16, m.f 0x16 16)
  let p := vcParams s c m.vs
  let job := match getVc s c m.vs with
    | some x => chkJobOwner s c x.job
    | none => none
  let (y, ch, o) := (opdH s c hy, opdH s c hc, opdH s c ho)
  verdict
    [chk .cmd (bodyResv m [(0x20, 0x40)] ++ [badVs m, (badHandle hy false, 0x12), (badHandle hc false, 0x14),
       (badHandle ho false, 0x16), (decide (2 ≤ m.f 0x18 64), 0x18)]),
     chk .desc [(badCoderOpd s c hy false, 0x12), (badCoderOpd s c hc false, 0x14), (badCoderOpd s c ho true, 0x16)],
     job, chkOpen s c m.vs,
     chk .state [(vpDecode p, 0x10)],
     chk .format [(dDtype y.raw != planeType p, 0x12), (dDtype ch.raw != planeType p, 0x14), (dDtype o.raw != 0x16, 0x16)],
     chk .shape [(badLuma y (vpW p) (vpH p), 0x12), (badChroma ch (vpW p) (vpH p), 0x14),
       (dRank o.raw != 1 || decide (o.size 0 * 8 < vpCpb p), 0x16)],
     chk .overlap [(overlapH s c ho hy, 0x12), (overlapH s c ho hc, 0x14)]]
    (mkBound s c [hy, hc, ho] (vcFeet s c m.vs ++ y.feet false ++ ch.feet false ++ o.feet true))

def checkVcDecode (s : State) (c : Nat) (m : Cmd) : Verdict :=
  let (hi, hy, hc) := (m.f 0x12 16, m.f 0x14 16, m.f 0x16 16)
  let p := vcParams s c m.vs
  let job := match getVc s c m.vs with
    | some x => chkJobOwner s c x.job
    | none => none
  let (i, y, ch) := (opdH s c hi, opdH s c hy, opdH s c hc)
  let (w, h) := (y.size 0, y.size 1)
  verdict
    [chk .cmd (bodyResv m [(0x1C, 0x40)] ++ [badVs m, (badHandle hi false, 0x12), (badHandle hy false, 0x14),
       (badHandle hc false, 0x16)]),
     chk .desc [(badCoderOpd s c hi false, 0x12), (badCoderOpd s c hy true, 0x14), (badCoderOpd s c hc true, 0x16)],
     job, chkOpen s c m.vs,
     chk .state [(!vpDecode p, 0x10)],
     chk .format [(dDtype i.raw != 0x16, 0x12), (dDtype y.raw != planeType p, 0x14), (dDtype ch.raw != planeType p, 0x16)],
     chk .shape [(dRank i.raw != 1 || decide (i.size 0 < m.f 0x18 32), 0x12),
       (badLuma y w h || decide (vpW p < w) || decide (vpH p < h) || w % 2 != 0 || h % 2 != 0, 0x14),
       (badChroma ch w h, 0x16)],
     chk .overlap [(overlapH s c hy hi, 0x14), (overlapH s c hc hi, 0x16)]]
    (mkBound s c [hi, hy, hc] (vcFeet s c m.vs ++ i.feet false ++ y.feet true ++ ch.feet true))

/-! ## The job block (R422) -/

/-- A word of the job block: its bank, offset, and the agent's right to a kind of access. -/
abbrev JobPlace := Nat × Nat × Nat

def jobWord (s : State) (j : JobPlace) (o : Nat) : Nat := bankWord s j.1 j.2.1 (j.2.2 + o)

def jobPut (j : JobPlace) (o v : Nat) (s : State) : State := bankWrite j.1 j.2.1 (j.2.2 + o) (toBytes 4 v) s

def jobAdmits (s : State) (n c : Nat) (j : JobPlace) (k : AccKind) : Bool := ownerAdmits s j.1 j.2.1 (.coder n c) k

/-- Change a stream's frame. -/
def modFrame (c v : Nat) (f : VcFrame → VcFrame) (s : State) : State :=
  match getVc s c v with
  | some x => setVc c v { x with frame := x.frame.map f } s
  | none => s

/-- An attempt fails: the first failure decides how the frame ends (R424, R426). -/
def frameFail (c v : Nat) (st : Status) (dw : List Nat) (s : State) : State :=
  modFrame c v (fun f => if f.fail.isSome then f else { f with fail := some (st.code, dw) }) s

/-- A coder access that the owner refuses (R272, R426). -/
def jobRefused (n c v : Nat) (j : JobPlace) (o : Nat) (k : AccKind) (s : State) : State :=
  frameFail c v .owner [j.1, j.2.1] (ownerRefused j.1 j.2.1 (j.2.2 + o) (.coder n c) k s)

/-- The controller initialises the block for a phase: swaps of every word it uses (R422). -/
def initJob (c v np : Nat) (s : State) : State :=
  let n := seqSlab s (s.ctx c).reg.part
  match (getVc s c v).bind fun x => jobPlace s c x.job with
  | none => s
  | some j =>
    if jobAdmits s n c j .swap then
      jobPut j 8 np (bankWrite j.1 j.2.1 j.2.2 (List.replicate 0x640 0) s)
    else jobRefused n c v j 0 .swap s

/-- Begin a phase or a pass of a frame: fresh tickets (R429). -/
def startPhase (c v : Nat) (f : VcFrame) (s : State) : State :=
  initJob c v f.np (modFrame c v (fun _ => { f with reissues := 0, committed := [] }) s)

/-! ## VC_CLOSE, VC_RATE, VC_ENCODE, VC_DECODE -/

/-- VC_CLOSE (R415). -/
def execVcClose (c q : Nat) (s : State) : Host.Outcome State Fault Refusal :=
  match ready? s c q 0x61 with
  | none => .next s
  | some m => .next (finish c q .ok [] (closeVc c m.vs s))

/-- VC_RATE (R420): takes effect at the next key frame. -/
def execVcRate (c q : Nat) (s : State) : Host.Outcome State Fault Refusal :=
  match ready? s c q 0x64 with
  | none => .next s
  | some m =>
    match getVc s c m.vs with
    | none => .next (finish c q .vcStream [] s)
    | some x => .next (finish c q .ok [] (setVc c m.vs { x with newRate := some (m.f 0x18 32, m.f 0x1C 32) } s))

/-- A parameter block with new rates. -/
def setRate (p : Nat) (r : Nat × Nat) : Nat :=
  p - sh (vpRate p) 0xA0 - sh (vpMax p) 0xC0 + sh r.1 0xA0 + sh r.2 0xC0

/-- Is the next frame a key frame (R418)? -/
def nextKey (x : VcStream) (force : Bool) : Bool :=
  force || x.frames == 0 || (vpGop x.params.toNat != 0 && decide (vpGop x.params.toNat ≤ x.sinceKey))

/-- The quantiser of pass 1 (R429). -/
def firstQuant (p n fullness : Nat) (key : Bool) : Nat :=
  if vpMode p = 0 then vpf p (if key then 0x28 else 0x29) 8
  else max (vpf p 0x2A 8) (min (vpf p 0x2B 8) (Config.rateQuant p n fullness))

/-- VC_ENCODE (R418): the frame controller sets the frame up; its cores take it (VC_FRAME_START) and its record comes
with VC_FRAME_ASSEMBLE. -/
def execVcEncode (c q : Nat) (s : State) : Host.Outcome State Fault Refusal :=
  match ready? s c q 0x62 with
  | none => .next s
  | some m =>
    match getVc s c m.vs with
    | none => .next (finish c q .vcStream [] s)
    | some x =>
      if x.frame.isSome then .next s
      else
        let key := nextKey x (m.fb 0x18 0 1 == 1)
        let p := match x.newRate with
          | some r => if key then setRate x.params.toNat r else x.params.toNat
          | none => x.params.toNat
        let f : VcFrame :=
          { q := q, key := key, pass := 1, filter := false, quant := firstQuant p x.frames x.fullness key,
            np := vpPieces p, reissues := 0, committed := [], fail := none }
        .next (startPhase c m.vs f (setVc c m.vs { x with
          params := BitVec.ofNat 1024 p, newRate := if key then none else x.newRate, frame := some f } s))

/-- Bytes of a unit that a decode names (R419). -/
def unitBytes (m : Cmd) (s : State) (c : Nat) : List Byte :=
  let i := m.opd s c (m.f 0x12 16)
  (List.range (m.f 0x18 32)).map fun k => BitVec.ofNat 8 (i.rawAt s [k])

/-- VC_DECODE (R419, R421). -/
def execVcDecode (c q : Nat) (s : State) : Host.Outcome State Fault Refusal :=
  match ready? s c q 0x63 with
  | none => .next s
  | some m =>
    match getVc s c m.vs with
    | none => .next (finish c q .vcStream [] s)
    | some x =>
      if x.frame.isSome then .next s
      else
        let np := max 1 (min 128 (Config.decodePieces x.params.toNat x.frames (unitBytes m s c)))
        let f : VcFrame :=
          { q := q, key := false, pass := 1, filter := false, quant := 0, np := np, reissues := 0, committed := [],
            fail := none }
        .next (startPhase c m.vs f (setVc c m.vs { x with frame := some f } s))

/-! ## Cores (R417, R423, R424) -/

def modVc (n : Nat) (f : Vc → Vc) (s : State) : State := s.modSlab2 n fun x => { x with vc := f x.vc }

/-- Is the coder core of a slab in service? -/
def coreServes (s : State) (n : Nat) : Bool := inService s n && (s.slab n).coreOn

/-- A core without a frame. -/
def vcIdle (n : Nat) (s : State) : State :=
  modVc n (fun x => { x with st := .idle, claim := none, ctx := 0, stream := 0 }) s

/-- The core draws a ticket of a frame, and stops on the frame where the tickets are used up (R423). -/
def nextTicket (n c v : Nat) (s : State) : State :=
  match getVc s c v, (getVc s c v).bind fun x => jobPlace s c x.job with
  | some x, some j =>
    if jobAdmits s n c j .iadd then
      let t := jobWord s j 0
      let np := (x.frame.map VcFrame.np).getD 0
      let s := jobPut j 0 (t + 1) s
      let claim (p : Option Nat) : State :=
        modVc n (fun y => { y with
          st := .busy, ctx := c, stream := v, claim := some { ticket := t, piece := p, timedOut := false } }) s
      if t < np then claim (some t)
      else if t < 2 * np then
        let r := jobWord s j (0x240 + 4 * (t - np))
        if r ≠ 0 then claim (some (r - 1))
        else if jobWord s j 4 % 2 = 1 then vcIdle n s
        else claim none
      else vcIdle n s
    else vcIdle n (jobRefused n c v j 0 .iadd s)
  | _, _ => vcIdle n s

/-- Frames waiting on a core: context and stream, latency-critical contexts first, then in issue order (R417). -/
def waitingFrame (s : State) (pos : Nat) : Option (Nat × Nat) :=
  let all := (definedCtxs s).flatMap fun c => (s.ctx c).vcs.filterMap fun (v, x) =>
    match x.frame, jobPlace s c x.job with
    | some f, some j =>
      if x.cores.contains pos && f.fail.isNone && decide (jobWord s j 0 < 2 * f.np) && jobWord s j 4 % 2 == 0 then
        some (b2n (!(s.ctx c).reg.lc), ((getCmd s c f.q).map Cmd.stamp).getD 0, c, v)
      else none
    | _, _ => none
  (all.foldl (fun best e => match best with
    | none => some e
    | some b => if e.1 < b.1 ∨ (e.1 = b.1 ∧ e.2.1 < b.2.1) then some e else some b) none).map fun e => e.2.2

/-- VC_FRAME_START (R417): an idle core takes a waiting frame. -/
def execVcFrameStart (core : Nat) (s : State) : Host.Outcome State Fault Refusal :=
  let x := (s.slab2 core).vc
  if coreServes s core ∧ x.st = .idle ∧ x.claim = none then
    match waitingFrame s (posOf s core) with
    | some (c, v) => .next (nextTicket core c v s)
    | none => .next s
  else .next s

/-- May a wavefront row finish: has the row above published its whole width (R423)? -/
def rowReady (s : State) (j : JobPlace) (p piece : Nat) : Bool :=
  vpSplit p != 3 || vpDecode p || piece == 0 || jobWord s j (0x440 + 4 * (piece - 1)) == vpCols p

/-- VC_PIECE_DONE (R423): commit by swap; the first commit counts; then the next ticket. -/
def execVcPieceDone (core : Nat) (s : State) : Host.Outcome State Fault Refusal :=
  let x := (s.slab2 core).vc
  let (c, v) := (x.ctx, x.stream)
  match x.claim.bind (fun k => k.piece.map fun p => (k.ticket, p)), getVc s c v,
      (getVc s c v).bind fun y => jobPlace s c y.job with
  | some (t, p), some y, some j =>
    if x.st = .busy && rowReady s j y.params.toNat p then
      let s := (modVc core (fun z => { z with busy := z.busy + (Config.freeValue 32 s.env.free).setWidth 64 }) s)
      let s := { s with env := { s.env with free := s.env.free + 1 } }
      if jobAdmits s core c j .swap then
        let s := if vpSplit y.params.toNat = 3 ∧ vpDecode y.params.toNat = false then
            jobPut j (0x440 + 4 * p) (vpCols y.params.toNat) s
          else s
        let old := jobWord s j (0x40 + 4 * p)
        let s := jobPut j (0x40 + 4 * p) (t + 1) s
        let s := if old = 0 then
            modFrame c v (fun f => { f with committed := f.committed ++ [p] })
              (modVc core (fun z => { z with pieces := z.pieces + 1 }) s)
          else s
        let failed := match y.frame with
          | some f => f.fail.isSome
          | none => true
        if failed then .next (vcIdle core s) else .next (nextTicket core c v s)
      else .next (vcIdle core (jobRefused core c v j (0x40 + 4 * p) .swap s))
    else .next s
  | _, _, _ => .next s

/-- The core whose ticket waits for re-issue slot r takes the piece (R423). -/
def handPiece (c v ticket p : Nat) (s : State) : State :=
  forAll (tkeys s.slabs2) (fun n t =>
    let x := (t.slab2 n).vc
    match x.claim with
    | some k =>
      if x.ctx = c ∧ x.stream = v ∧ k.ticket = ticket ∧ k.piece = none then
        modVc n (fun y => { y with claim := some { k with piece := some p } }) t
      else t
    | none => t) s

/-- Re-issue a claimed piece that has no commit (R424); the answer says whether one was written. -/
def reissue (c v p : Nat) (s : State) : State × Bool :=
  match getVc s c v, (getVc s c v).bind fun x => jobPlace s c x.job with
  | some x, some j =>
    match x.frame with
    | none => (s, false)
    | some f =>
      let n := seqSlab s (s.ctx c).reg.part
      if f.fail.isSome || f.committed.contains p then (s, false)
      else if f.np ≤ f.reissues then (frameFail c v .vcRetries [] s, false)
      else if jobAdmits s n c j .swap then
        (handPiece c v (f.np + f.reissues) p (modFrame c v (fun g => { g with reissues := g.reissues + 1 })
          (jobPut j (0x240 + 4 * f.reissues) (p + 1) s)), true)
      else (jobRefused n c v j (0x240 + 4 * f.reissues) .swap s, false)
  | _, _ => (s, false)

/-- Re-issue a piece of a core, counted on it (R432). -/
def reissueOf (n c v p : Nat) (s : State) : State × Bool :=
  let r := reissue c v p s
  if r.2 then (vcEvent n 2 (modVc n (fun x => { x with reissues := x.reissues + 1 }) r.1), true) else r

/-- Reset of a coder core (R424, R433): its claims are abandoned and re-issued. `stays` says that the core comes back. -/
def resetCore (cause n : Nat) (stays : Bool) (s : State) : State :=
  let x := (s.slab2 n).vc
  let s := modVc n (fun y => { y with
    st := if stays then .resetting else .idle, claim := none, ctx := 0, stream := 0, resets := y.resets + 1 }) s
  let r := match x.claim.bind VcClaim.piece with
    | some p => reissueOf n x.ctx x.stream p s
    | none => (s, false)
  post 0 0x0140 n 0xFFFF [cause, b2n r.2] (vcEvent n 4 r.1)

/-- VC_CLAIM_TIMEOUT (R424): a first expiry re-issues the piece; a claim three times as old resets the core. -/
def execVcClaimTimeout (core : Nat) (s : State) : Host.Outcome State Fault Refusal :=
  let x := (s.slab2 core).vc
  match x.claim with
  | none => .next s
  | some k =>
    match k.piece with
    | none => .next s
    | some p =>
      if k.timedOut then .next (resetCore 1 core true s)
      else
        .next (reissueOf core x.ctx x.stream p
          (modVc core (fun y => { y with claim := some { k with timedOut := true } }) s)).1

/-- VC_RESET (R424, R433). -/
def execVcReset (src : Src) (slab : Nat) (s : State) : Host.Outcome State Fault Refusal :=
  if isOperator s src && coreServes s slab then
    if (s.slab2 slab).vc.st = .resetting then .next s else .next (resetCore 2 slab true s)
  else .next s

/-- VC_CORE_RESET_DONE (R424). -/
def execVcCoreResetDone (slab : Nat) (s : State) : Host.Outcome State Fault Refusal :=
  if (s.slab2 slab).vc.st = .resetting then .next (vcIdle slab s) else .next s

/-- VC_CORE_FAULT (R424). -/
def execVcCoreFault (core : Nat) (s : State) : Host.Outcome State Fault Refusal :=
  if !s.live then .next s else
  if coreServes s core && (s.slab2 core).vc.st != .resetting then .next (resetCore 0 core true s) else .next s

/-! ## The end of a frame (R423 to R429) -/

/-- Has some core a piece of the stream's frame in hand? -/
def attempting (s : State) (c v : Nat) : Bool :=
  (tkeys s.slabs2).any fun n =>
    let x := (s.slab2 n).vc
    match x.claim with
    | some k => x.ctx == c && x.stream == v && k.piece.isSome
    | none => false

/-- Has some core of the stream a position in service? -/
def coresLeft (s : State) (x : VcStream) : Bool := x.cores.any fun pos => (serverOf s pos).isSome

/-- End a command with a status code as stored. -/
def finishCode (c q code : Nat) (dw : List Nat) (s : State) : State :=
  modCmd c q (fun m => { m with phase := .done, status := code, dw := dw.map w32 }) s

/-- The frame leaves its stream; the frame counter moves where a frame came out. -/
def endFrame (c v : Nat) (s : State) : State :=
  match getVc s c v with
  | some x => dropClaims c v (setVc c v { x with frame := none } s)
  | none => s

/-- Is a number an integer? -/
def Num.isInt : Num → Bool
  | .fin _ m e => decide (0 ≤ e) || m % 2 ^ (-e).toNat == 0
  | _ => false

/-- A picture sample as the encoder takes it, with its flags (R411). -/
def encSample (o : Opd) (s : State) (co : List Nat) : Nat × Tally :=
  if dDtype o.raw = 0x02 then
    let x := o.numAt s co
    let v := convertInt 10 true .ne x
    (v.bits, { Tally.zero with sat := v.sat || (x != .nan && !x.isInt), nan := x == .nan })
  else (o.rawAt s co, .zero)

/-- The samples of both planes in order. -/
def pictureOf (s : State) (y ch : Opd) : List (Nat × Tally) :=
  (coordsOf y.sizes).map (encSample y s) ++ (coordsOf ch.sizes).map (encSample ch s)

/-- ceil(6·log2(b/f)), 1,000 where f is 0; a frame that fits and whose piece overflows may give a negative one (R429). -/
def sixLog (b f : Nat) : Int :=
  if f < b then ((List.range 1000).find? fun n => decide (b ^ 6 ≤ 2 ^ n * f ^ 6)).getD 1000
  else -(((List.range 1000).filter fun n => decide (2 ^ (n + 1) * b ^ 6 ≤ f ^ 6)).length : Int)

/-- The quantiser of pass 2 and of pass 3 (R429). -/
def nextQuant (p q1 pass b f : Nat) : Nat :=
  if pass = 1 then min (vpf p 0x2B 8) ((q1 : Int) + (if vpHevc p then 1 else 4) * (sixLog b f + 1)).toNat
  else if vpHevc p then (if vpD10 p then 63 else 51) else 255

/-- Bytes after filler, and the fullness after the frame, both under R428. -/
def bufferAfter (p fullness bytes : Nat) : Nat × Nat :=
  let u := vpUnit p
  if vpMode p = 1 then
    let r := vpRate p * vpDen p * 90000
    let n := if vpCpb p * u < fullness - 8 * bytes * u + r then cdiv (fullness + r - vpCpb p * u) (8 * u) else bytes
    (n, fullness - 8 * n * u + r)
  else (bytes, min (vpCpb p * u) (fullness - 8 * bytes * u + vpMax p * vpDen p * 90000))

/-- Write bytes into a bitstream buffer from element 0. -/
def streamWrs (o : Opd) (bs : List Byte) : List Wr :=
  bs.zipIdx.flatMap fun (b, i) => o.wrRaw [i] b.toNat

/-- The vectors of R427 of a picture against each reference that a frame may use: none for a key frame, otherwise the nearest
three. -/
def motionOf (p : Nat) (x : VcStream) (f : VcFrame) (pic : List Nat) : List (List MotionVec) :=
  let near := if f.key then [] else x.refs.take 3
  let field := ((near.head?).map VcRef.field).getD []
  near.map fun r =>
    let m : MotionIn :=
      { params := p, w := vpW p, h := vpH p, cur := pic, ref := r.pixels, dist := x.frames - r.frame, quant := f.quant,
        frame := x.frames }
    m.search (!vpHevc p && Config.highPrecision p x.frames f.quant) (vpf p 0x2C 8) (vpf p 0x2D 8)
      (pieceOf (vpSplit p) (vpPx p) (vpPy p) (vpCols p) (vpRows p)) field

/-- Vectors as pairs. -/
def motionPairs (l : List (List MotionVec)) : List (List (Int × Int)) := l.map fun vs => vs.map fun v => (v.x, v.y)

/-- The reference slots after a frame: the frame becomes the nearest reference, after a key frame the only one; a fallback frame
that is no key frame leaves them (R418, R429). -/
def refsAfter (p : Nat) (x : VcStream) (f : VcFrame) (pic : List Nat) (fallback : Bool) : List VcRef :=
  if fallback && !f.key then x.refs
  else
    let r := Config.coderRecon p x.frames f.quant (if fallback then 4 else f.pass) f.key pic (x.refs.map VcRef.pixels)
      (motionPairs (motionOf p x f pic))
    let new : VcRef :=
      { pixels := r.1, field := r.2.map fun e => e.map fun v => ({ x := v.1.1, y := v.1.2 }, v.2), frame := x.frames }
    (new :: if f.key then [] else x.refs).take (vpNref p)

/-- Emit an encoded frame: filler, `OUT`, the buffer model, the reference and the record (R418, R428). -/
def emitFrame (c v : Nat) (x : VcStream) (f : VcFrame) (m : Cmd) (bs : List Byte) (fallback : Bool) (quant : Nat)
    (pic : List (Nat × Tally)) (s : State) : State :=
  let p := x.params.toNat
  let y := m.opd s c (m.f 0x12 16)
  let ch := m.opd s c (m.f 0x14 16)
  let o := m.opd s c (m.f 0x16 16)
  let (n, after) := bufferAfter p x.fullness bs.length
  let pad := (List.range (n - bs.length)).map fun i => Config.freeValue 8 (s.env.free + i)
  let tally := pic.foldl (fun a e => a.add e.2) Tally.zero
  let dw := [n, f.pass + sh (b2n fallback) 4 + sh (b2n f.key) 5, quant, after / vpUnit p]
  let done (t : State) : State :=
    let t := useFree pad.length t
    let t := setVc c v { x with
      frames := x.frames + 1, sinceKey := if f.key then 1 else x.sinceKey + 1, fullness := after,
      refs := refsAfter p x f (pic.map Prod.fst) fallback, frame := none } t
    let sq := seqSlab t (t.ctx c).reg.part
    let t := if fallback then vcEvent sq 1 (modVc sq (fun z => { z with fallbacks := z.fallbacks + 1 }) t) else t
    finishT c f.q .ok dw tally.flagsOnly t
  let s := dropClaims c v s
  let s := setVc c v { x with frame := none } s
  runCmd c f.q (y.readCells (coordsOf y.sizes) ++ ch.readCells (coordsOf ch.sizes)) (streamWrs o (bs ++ pad)) [] done s

/-- Does a piece overflow its area of `WORK` (R416, R429)? -/
def pieceOverflow (p : Nat) (pieces : List (List Byte)) : Bool :=
  pieces.any fun b => decide (4096 * cdiv (vpCpb p) 32768 < b.length)

/-- The last phase of a pass of an encode has committed (R429). -/
def encodeDone (c v : Nat) (x : VcStream) (f : VcFrame) (m : Cmd) (s : State) : State :=
  let p := x.params.toNat
  let pic := pictureOf s (m.opd s c (m.f 0x12 16)) (m.opd s c (m.f 0x14 16))
  let px := pic.map Prod.fst
  let pieces := Config.coderUnit p x.frames f.quant f.pass f.key px (x.refs.map VcRef.pixels) (motionPairs (motionOf p x f px))
  let bs := Config.coderAssemble p x.frames f.quant f.key pieces
  let b := 8 * bs.length
  if b * vpUnit p ≤ x.fullness ∧ pieceOverflow p pieces = false then emitFrame c v x f m bs false f.quant pic s
  else if f.pass < 3 then
    startPhase c v { f with
      pass := f.pass + 1, filter := false, quant := nextQuant p f.quant f.pass (b * vpUnit p) x.fullness, np := vpPieces p }
      (dropClaims c v s)
  else
    emitFrame c v x f m ((Config.coderFallback p x.frames f.key).take (vpFallback p)) true f.quant pic s

/-- A decode whose pieces have committed (R419). -/
def decodeDone (c v : Nat) (x : VcStream) (f : VcFrame) (m : Cmd) (s : State) : State :=
  let p := x.params.toNat
  let i := m.opd s c (m.f 0x12 16)
  let y := m.opd s c (m.f 0x14 16)
  let ch := m.opd s c (m.f 0x16 16)
  let n := m.f 0x18 32
  let held := x.refs.map VcRef.pixels
  let (st, key, shown, order, size, px) := Config.decodeUnit p x.frames held (unitBytes m s c)
  let refs := (Config.decodeRefs p x.frames held (unitBytes m s c)).map fun r =>
    { pixels := r, field := [], frame := x.frames : VcRef }
  let s := setVc c v { x with frame := none } (dropClaims c v s)
  let keep (need : Bool) (t : State) : State := setVc c v { x with frames := x.frames + 1, needKey := need, frame := none } t
  let step (need : Bool) (t : State) : State :=
    setVc c v { x with frames := x.frames + 1, needKey := need, refs := refs, frame := none } t
  let rd := (List.range n).flatMap fun k => i.cells [k] false
  if n ≠ 0 ∧ x.needKey ∧ key = false then
    runCmd c f.q rd [] [] (fun t => finish c f.q .vcBitstream [] (keep true t)) s
  else if st = Status.vcBitstream.code then
    runCmd c f.q rd [] [] (fun t => finish c f.q .vcBitstream [] (keep true t)) s
  else if st = Status.vcUnsupported.code then
    runCmd c f.q rd [] [] (fun t => finish c f.q .vcUnsupported [] (keep true t)) s
  else
    let need := x.needKey && !(key && n != 0)
    if shown ∧ size ≠ (y.size 0, y.size 1) then
      runCmd c f.q rd [] [] (fun t => finish c f.q .vcShape [] (step need t)) s
    else if shown then
      let put (o : Opd) (off : Nat) : List Wr := (coordsOf o.sizes).flatMap fun co =>
        let w := px.getD (off + linIndex o.sizes co) 0
        o.wrRaw co (if vpD10 p then (fp16.convert .ne (Num.ofInt (w % 1024 : Nat))).bits else w % 256)
      runCmd c f.q rd (put y 0 ++ put ch (sizeProd y.sizes)) []
        (fun t => finish c f.q .ok [1, order] (step need t)) s
    else runCmd c f.q rd [] [] (fun t => finish c f.q .ok [0, 0] (step need t)) s

/-- The controller sets `DONE` with the SET view (R422); a refusal fails the frame. -/
def setDone (c v : Nat) (j : JobPlace) (s : State) : State :=
  let n := seqSlab s (s.ctx c).reg.part
  if jobAdmits s n c j .set then jobPut j 4 (jobWord s j 4 ||| 1) s else jobRefused n c v j 4 .set s

/-- The frame's next phase, or its end, once every piece is committed. -/
def phaseDone (c v : Nat) (x : VcStream) (f : VcFrame) (m : Cmd) (s : State) : State :=
  let p := x.params.toNat
  if vpDecode p then decodeDone c v x f m s
  else if vpHevc p = false ∧ vpSplit p = 1 ∧ f.filter = false then
    startPhase c v { f with filter := true, np := cdiv (vpRows p) 8 } (dropClaims c v s)
  else encodeDone c v x f m s

/-- VC_FRAME_ASSEMBLE (R423 to R426, R429): once no attempt is in hand, a failed frame ends with its status; a phase
whose pieces are all committed sets `DONE` and goes on or ends. -/
def execVcFrameAssemble (c stream : Nat) (s : State) : Host.Outcome State Fault Refusal :=
  match getVc s c stream with
  | none => .next s
  | some x =>
    match x.frame with
    | none => .next s
    | some f =>
      if attempting s c stream then .next s
      else
        match f.fail with
        | some (code, dw) => .next (finishCode c f.q code dw (endFrame c stream s))
        | none =>
          if coresLeft s x = false then .next (finish c f.q .vcCore [] (endFrame c stream s))
          else
            match getCmd s c f.q, jobPlace s c x.job with
            | some m, some j =>
              if hostWaits s m then .next s
              else if f.committed.length = f.np then
                let s := setDone c stream j s
                match ((getVc s c stream).bind VcStream.frame).bind VcFrame.fail with
                | some (code, dw) => .next (finishCode c f.q code dw (endFrame c stream s))
                | none => .next (phaseDone c stream x f m s)
              else .next s
            | _, _ => .next s

end Sys2Proof.Machine
end

