-- ==== Sys2Proof/Machine/Mesh.lean ====
section
/-! DEFINITION. The mesh (R312 to R319): the header flit, the places of the fabric and how they are joined, routes and
buffer classes, input buffers and their credits, and the arbitration of an output. -/

namespace Sys2Proof.Machine

open Sys2Proof

/-! ## The header flit (R313) -/

/-- Fields of a header, as a little-endian number. -/
def hDslab (h : BitVec 512) : Nat := fld0 h.toNat 0x00 8
def hDep (h : BitVec 512) : Nat := fld0 h.toNat 0x01 8
def hSslab (h : BitVec 512) : Nat := fld0 h.toNat 0x02 8
def hSep (h : BitVec 512) : Nat := fld0 h.toNat 0x03 8
def hType (h : BitVec 512) : Nat := fld h.toNat 0x04 4 4
def hVc (h : BitVec 512) : Nat := fld h.toNat 0x04 2 2
def hClass (h : BitVec 512) : Nat := fld h.toNat 0x04 0 2
def hLen (h : BitVec 512) : Nat := fld0 h.toNat 0x05 8
def hPart (h : BitVec 512) : Nat := fld0 h.toNat 0x06 8
def hCtx (h : BitVec 512) : Nat := fld0 h.toNat 0x08 16
def hTseq (h : BitVec 512) : Nat := fld0 h.toNat 0x0A 16
def hEpoch (h : BitVec 512) : Word := w32 (fld0 h.toNat 0x0C 32)
def hAddr (h : BitVec 512) : Nat := fld0 h.toNat 0x10 64

/-- The header with another buffer class: the one field that changes on the way (R319). -/
def setClass (h : BitVec 512) (c : Nat) : BitVec 512 :=
  (h &&& ~~~(BitVec.ofNat 512 (sh 3 32))) ||| BitVec.ofNat 512 (sh (c % 4) 32)

/-- The virtual channel of a packet type (R317): READ, WRITE and ATOMIC 0, RESP and ACK 1, COLL 2, MGMT and EVENT 3. -/
def vcOfType : Nat → Option Nat
  | 0 | 1 | 3 => some 0
  | 2 | 7 => some 1
  | 4 => some 2
  | 5 | 6 => some 3
  | _ => none

/-- The endpoint that a `DEP` or `SEP` names. -/
def endpoint (e : Nat) : Option FabNode :=
  if e < 64 then some (.tile e) else if e = 0x40 then some .uncore else if e = 0x41 then some .device else none

/-- Does a header keep to R313 and R317: no reserved value, at most 64 data flits, the channel of its type? -/
def headerOk (h : BitVec 512) : Bool :=
  (endpoint (hDep h)).isSome && (endpoint (hSep h)).isSome && vcOfType (hType h) == some (hVc h)
    && decide (hLen h ≤ 64 ∧ hPart h < 32 ∧ hCtx h < 1024 ∧ hDslab h < 100 ∧ hSslab h < 100)

/-! ## Places (R7, R21, R312) -/

/-- The slab across an edge, N 0, E 1, S 2, W 3, and that slab's own edge (R7). -/
def acrossEdge (n edge : Nat) : Option (Nat × Nat) :=
  match edge with
  | 0 => if slabY n < 9 then some (n + 10, 2) else none
  | 1 => if slabX n < 9 then some (n + 1, 3) else none
  | 2 => if 0 < slabY n then some (n - 10, 0) else none
  | _ => if 0 < slabX n then some (n - 1, 1) else none

/-- Does an outer edge carry the slab's device (R21, log 39)? -/
def deviceOn (n e : Nat) : Bool :=
  (acrossEdge n e).isNone &&
    if n = 0 ∨ n = 90 then false
    else if n = 9 then (if Config.cornerPort 9 then e == 2 else e == 1)
    else if n = 99 then (if Config.cornerPort 99 then e == 0 else e == 1)
    else true

/-- The edge of a slab's outer device. -/
def deviceEdge (n : Nat) : Option Nat := (List.range 4).find? (deviceOn n)

/-- Does router 8v + u lie along an edge? -/
def alongEdge (k e : Nat) : Bool :=
  match e with
  | 0 => k / 8 == 7
  | 1 => k % 8 == 7
  | 2 => k / 8 == 0
  | _ => k % 8 == 0

/-- Are two routers of a slab neighbours? -/
def nextRouters (a b : Nat) : Bool :=
  (a / 8 == b / 8 && (a % 8 + 1 == b % 8 || b % 8 + 1 == a % 8))
    || (a % 8 == b % 8 && (a / 8 + 1 == b / 8 || b / 8 + 1 == a / 8))

/-- Does a path lead from one place to another (R312, R314)? A device is entered from, and enters, the routers along its
edge, and is entered from an edge port of its own edge. -/
def joined (a b : FabPlace) : Bool :=
  if a.slab = b.slab then
    match a.node, b.node with
    | .router x, .router y => nextRouters x y
    | .router x, .edge e => alongEdge x e && (acrossEdge a.slab e).isSome
    | .edge e, .router x => alongEdge x e && (acrossEdge a.slab e).isSome
    | .edge e, .edge f => e != f
    | .router x, .tile t => x == t
    | .tile t, .router x => x == t
    | .router x, .uncore => x == 0
    | .uncore, .router x => x == 0
    | .router x, .device => (deviceEdge a.slab).any (alongEdge x)
    | .device, .router x => (deviceEdge a.slab).any (alongEdge x)
    | .edge e, .device => deviceEdge a.slab == some e
    | _, _ => false
  else
    match a.node, b.node with
    | .edge e, .edge f => acrossEdge a.slab e == some (b.slab, f)
    | _, _ => false

/-- Is the place an endpoint? -/
def isEnd : FabNode → Bool
  | .router _ => false
  | .edge _ => false
  | _ => true

/-- The places of a slab, and those that an input of a place can come from, in the order of their service (log 50). -/
def slabNodes : List FabNode :=
  (List.range 64).map .router ++ (List.range 4).map .edge ++ (List.range 64).map .tile ++ [.uncore, .device]

def inputsOf (p : FabPlace) : List FabPlace :=
  let own := slabNodes.map fun x => { slab := p.slab, node := x : FabPlace }
  let far := match p.node with
    | .edge e => (acrossEdge p.slab e).toList.map fun m => { slab := m.1, node := .edge m.2 : FabPlace }
    | _ => []
  (own ++ far).filter fun q => joined q p

/-! ## Routes (R314, R319) -/

/-- Would the crossing of an edge enter the slab that is routed around? -/
def entersRetired (s : State) (n e : Nat) : Bool := (acrossEdge n e).map Prod.fst == some s.pkg.retiredSlab

/-- The edge by which a packet of a class leaves slab n on its way to slab d, and its class there. -/
def exitEdge (s : State) (n d cls : Nat) : Nat × Nat :=
  let (x, y, dx, dy) := (slabX n, slabY n, slabX d, slabY d)
  let ex := if x < dx then 1 else 3
  let ey := if y < dy then 0 else 2
  let aroundX := if y < dy ∨ (y = dy ∧ y < 9) then 0 else 2
  let aroundY := if x = 9 then 3 else 1
  match cls with
  | 0 =>
    if x ≠ dx then (if entersRetired s n ex then (aroundX, 1) else (ex, 0))
    else if entersRetired s n ey then (aroundY, 1) else (ey, 0)
  | 1 => (if x ≠ dx then aroundX else aroundY, 1)
  | 2 => (if x ≠ dx then ex else ey, 2)
  | _ => (if y ≠ dy then ey else ex, 3)

/-- The class of a packet that has crossed an edge: one that was led around moves on to class 2 or 3. -/
def arrivedClass (e cls : Nat) : Nat := if cls = 1 then (if e % 2 = 0 then 2 else 3) else cls

/-- Router position of an endpoint in its slab, where a free coordinate of a device takes the given one. -/
def endPos (n dep u v : Nat) : Nat × Nat :=
  if dep < 64 then (dep % 8, dep / 8)
  else if dep = 0x40 then (0, 0)
  else
    match deviceEdge n with
    | some 0 => (u, 7)
    | some 1 => (7, v)
    | some 2 => (u, 0)
    | _ => (0, v)

/-- One router step towards a position, u before v; none at the position. -/
def stepTo (k tu tv : Nat) : Option Nat :=
  let (u, v) := (k % 8, k / 8)
  if u < tu then some (k + 1) else if tu < u then some (k - 1)
  else if v < tv then some (k + 8) else if tv < v then some (k - 8) else none

/-- The router by which an arrival at an edge enters its destination slab: in the destination's row or column. -/
def entryRouter (n dep e : Nat) : Nat :=
  let (tu, tv) := endPos n dep 0 0
  match e with
  | 0 => 56 + tu
  | 1 => 8 * tv + 7
  | 2 => tu
  | _ => 8 * tv

/-- The next place of a flit at a router or edge port, and its class there (R314, R319). `src` is where it came from. -/
def nextHop (s : State) (at_ src : FabPlace) (h : BitVec 512) : Option (FabPlace × Nat) :=
  let n := at_.slab
  let d := hDslab h
  let dep := hDep h
  let here (x : FabNode) : FabPlace := { slab := n, node := x }
  match at_.node with
  | .router k =>
    if n = d then
      let (tu, tv) := endPos n dep (k % 8) (k / 8)
      match stepTo k tu tv with
      | some j => some (here (.router j), hClass h)
      | none => (endpoint dep).map fun x => (here x, hClass h)
    else
      let (e, c) := exitEdge s n d (hClass h)
      if alongEdge k e then some (here (.edge e), c)
      else
        let j := match e with
          | 0 => k + 8
          | 1 => k + 1
          | 2 => k - 8
          | _ => k - 1
        some (here (.router j), c)
  | .edge e =>
    if src.slab = n then (acrossEdge n e).map fun m => ({ slab := m.1, node := .edge m.2 }, hClass h)
    else
      let c := arrivedClass e (hClass h)
      if n = d then
        if dep = 0x41 ∧ deviceEdge n = some e then some (here .device, c)
        else some (here (.router (entryRouter n dep e)), c)
      else
        let (f, c) := exitEdge s n d c
        some (here (.edge f), c)
  | _ => none

/-! ## Buffers and credits (R318) -/

def modFab (n : Nat) (f : Fab → Fab) (s : State) : State := s.modSlab2 n fun x => { x with fab := f x.fab }

/-- Flits that an input holds. -/
def inFlits (s : State) (p src : FabPlace) : List Flit :=
  (((s.slab2 p.slab).fab.ins.find? fun i => i.node == p.node && i.src == src).map FabIn.flits).getD []

/-- Set the flits of an input; one that holds none is not listed. -/
def setInFlits (p src : FabPlace) (l : List Flit) (s : State) : State :=
  modFab p.slab (fun x =>
    let rest := x.ins.filter fun i => !(i.node == p.node && i.src == src)
    { x with ins := if l = [] then rest else rest ++ [{ node := p.node, src := src, flits := l }] }) s

/-- The flits of a channel and class, oldest first. -/
def laneFlits (l : List Flit) (vc cls : Nat) : List Flit := l.filter fun f => hVc f.hdr == vc && hClass f.hdr == cls

/-- Slots of an input for each channel and class: 16 at a router; 384 in class 0 and 32 in each other at an edge port. -/
def laneRoom (x : FabNode) (cls : Nat) : Nat :=
  match x with
  | .router _ => 16
  | .edge _ => if cls = 0 then 384 else 32
  | _ => 0

/-- Credits that a sender holds for an input's channel and class: its free slots; an endpoint takes every flit. -/
def credits (s : State) (p src : FabPlace) (vc cls : Nat) : Nat :=
  if isEnd p.node then 1 else laneRoom p.node cls - (laneFlits (inFlits s p src) vc cls).length

/-! ## Arbitration (R317) -/

def outOf (s : State) (src dst : FabPlace) : FabOut :=
  ((s.slab2 src.slab).fab.outs.find? fun o => o.node == src.node && o.dst == dst).getD
    { node := src.node, dst := dst, held := [], lastVc := 2, lastIn := [] }

def setOut (src dst : FabPlace) (o : FabOut) (s : State) : State :=
  modFab src.slab (fun x => { x with
    outs := x.outs.filter (fun p => !(p.node == src.node && p.dst == dst)) ++ [o] }) s

/-- A list from the element after the k-th on, round and round. -/
def rotate {α : Type} (l : List α) (k : Nat) : List α := l.drop (k + 1) ++ l.take (k + 1)

/-- The oldest flit of an input's channel and class, if its next place is `dst` and a credit for it is held there. -/
def laneReady (s : State) (src dst i : FabPlace) (vc cls : Nat) : Option Flit :=
  (laneFlits (inFlits s src i) vc cls).head?.bind fun f =>
    match nextHop s src i f.hdr with
    | some (p, c) => if p = dst ∧ 0 < credits s dst src vc c then some f else none
    | none => none

/-- The flit that a channel offers to an output: of the packet that holds it, or else of classes 3, 2 and 1 before class 0
and of the inputs in turn. With it the input and the class it waits in. -/
def vcOffer (s : State) (src dst : FabPlace) (vc : Nat) : Option (FabPlace × Nat × Flit) :=
  let o := outOf s src dst
  match aget o.held vc with
  | some (i, c) => (laneReady s src dst i vc c).map fun f => (i, c, f)
  | none =>
    let ins := rotate (inputsOf src) ((aget o.lastIn vc).getD (inputsOf src).length)
    [3, 2, 1, 0].findSome? fun c => ins.findSome? fun i => (laneReady s src dst i vc c).map fun f => (i, c, f)

/-- The flit that an output sends next: channel 3 first, then the others in turn. -/
def pickFlit (s : State) (src dst : FabPlace) : Option (FabPlace × Nat × Flit) :=
  (3 :: rotate [0, 1, 2] (outOf s src dst).lastVc).findSome? (vcOffer s src dst)

/-- A flit leaves its input for an output, which its packet holds until its last flit. -/
def popFlit (src dst : FabPlace) (i : FabPlace) (c : Nat) (f : Flit) (s : State) : State :=
  let o := outOf s src dst
  let vc := hVc f.hdr
  let s := setInFlits src i ((inFlits s src i).erase f) s
  setOut src dst { o with
    held := if f.idx < hLen f.hdr then aput o.held vc (i, c) else adel o.held vc,
    lastVc := if vc = 3 then o.lastVc else vc,
    lastIn := aput o.lastIn vc ((inputsOf src).findIdx (· == i)) } s

/-- A flit enters an input in a class; an endpoint takes it. -/
def pushFlit (dst src : FabPlace) (c : Nat) (f : Flit) (s : State) : State :=
  if isEnd dst.node then s
  else setInFlits dst src (inFlits s dst src ++ [{ f with hdr := setClass f.hdr c }]) s

/-! ## Counting (R337) -/

/-- Count a flit on the outbound counter of an edge. -/
def countOut (n e : Nat) (s : State) : State :=
  modFab n (fun x => match e with
    | 0 => { x with edgeN := x.edgeN + 1 }
    | 1 => { x with edgeE := x.edgeE + 1 }
    | 2 => { x with edgeS := x.edgeS + 1 }
    | _ => { x with edgeW := x.edgeW + 1 }) s

/-- Count a flit that leaves a slab by an edge: to a neighbour, or to the outer device. -/
def countEdge (src dst : FabPlace) (s : State) : State :=
  if src.slab ≠ dst.slab then
    match src.node with
    | .edge e => countOut src.slab e s
    | _ => s
  else if dst.node = .device then
    match deviceEdge src.slab with
    | some e => countOut src.slab e s
    | none => s
  else s

/-- The flit that a place sends to a neighbouring one, with the input and class it leaves: an endpoint's own, which takes
its first place there, or the one that the output picks. -/
def offered (s : State) (src dst : FabPlace) (inject : Option Flit) : Option (Option (FabPlace × Nat) × Nat × Flit) :=
  if isEnd src.node then
    inject.bind fun f =>
      if headerOk f.hdr && hClass f.hdr == 0 && hSslab f.hdr == src.slab && endpoint (hSep f.hdr) == some src.node
          && decide (0 < credits s dst src (hVc f.hdr) 0) then some (none, 0, f)
      else none
  else
    (pickFlit s src dst).bind fun x =>
      (nextHop s src x.1 x.2.2.hdr).map fun (_, c) => (some (x.1, x.2.1), c, x.2.2)

/-- A packet that its source keeps until it is answered (R322): READ, WRITE, ATOMIC and COLL. -/
def keepSent (src : FabPlace) (f : Flit) (s : State) : State :=
  let t := hType f.hdr
  if isEnd src.node ∧ f.idx = 0 ∧ (t = 0 ∨ t = 1 ∨ t = 3 ∨ t = 4) then
    modFab src.slab (fun x => { x with
      sends := if x.sends.any fun e => e.1 == hTseq f.hdr then x.sends
        else x.sends ++ [(hTseq f.hdr, 0, t == 3, hDslab f.hdr)] }) s
  else s

/-- The flit moves on. -/
def moveFlit (src dst : FabPlace) (from_ : Option (FabPlace × Nat)) (c : Nat) (f : Flit) (s : State) : State :=
  let s := match from_ with
    | some (i, cls) => popFlit src dst i cls f s
    | none => keepSent src f s
  pushFlit dst src c f s

/-- Failed replays in a row of the flit at an input, and their update. -/
def failsAt (s : State) (dst src : FabPlace) : Nat :=
  (((s.slab2 dst.slab).fab.flitFails.find? fun e => e.1 == dst.node && e.2.1 == src).map fun e => e.2.2).getD 0

def setFails (dst src : FabPlace) (k : Nat) (s : State) : State :=
  modFab dst.slab (fun x =>
    let rest := x.flitFails.filter fun e => !(e.1 == dst.node && e.2.1 == src)
    { x with flitFails := if k = 0 then rest else rest ++ [(dst.node, src, k)] }) s

/-- A slab's fabric is gone: what it held is lost, and its neighbours' outputs to it are free (R24, R319). -/
def dropFabric (n : Nat) (s : State) : State :=
  forAll (tkeys s.slabs2) (fun m t => modFab m (fun x =>
    if m = n then { x with ins := [], outs := [], flitFails := [], sends := [] }
    else { x with
      ins := x.ins.filter fun i => i.src.slab != n, outs := x.outs.filter fun o => o.dst.slab != n,
      flitFails := x.flitFails.filter fun e => e.2.1.slab != n }) t) s

end Sys2Proof.Machine
end

