-- ==== Sys2Proof/Machine/Pcie.lean ====
section
/-! DEFINITION. The host link (R340 to R343, R368 to R371): configuration writes, failover to the standby slab, and its
loss. -/

namespace Sys2Proof.Machine

open Sys2Proof

/-- Write an MSI-X table entry; unmasking a vector that is pending sends it (R367). -/
def msixWrite (f v : Nat) (e : Msix) (s : State) : State :=
  let s := s.modFn f fun x => { x with msix := aput x.msix v e }
  if e.masked = false ∧ (s.fn f).pba.contains v then
    sendMsi f v (s.modFn f fun x => { x with pba := x.pba.filter (· != v) })
  else s

/-- Entries of a function's MSI-X table (R343, R498). -/
def msixCount (f : Nat) : Nat := if f = 0 then 1025 else 65

/-- PCIE_CONFIG_WRITE (R368): the configuration is mirrored to the standby before the write completes. Enabling VFs
opens their functions, up to the 31 of R340 (log 16). -/
def execPcieConfigWrite (func : Nat) (w : CfgWrite) (s : State) : Host.Outcome State Fault Refusal :=
  if !s.live || !linkServes s then .next s else
  match w with
  | .dword o v =>
    .next { s with pcie := { s.pcie with
      cfg := aput s.pcie.cfg (func * 4096 + o % 4096) v, cfgMirror := aput s.pcie.cfgMirror (func * 4096 + o % 4096) v } }
  | .vfEnable n =>
    if func = 0 ∧ 1 ≤ n ∧ n ≤ 31 then .next { s with pcie := { s.pcie with vfs := n } } else .next s
  | .msix v a d m =>
    if v < msixCount func then .next (msixWrite func v { addr := a, data := d, masked := m } s) else .next s

/-- A failover starts: outbound requests are held (R369). -/
def startFailover (trigger : Nat) (s : State) : State :=
  if s.pcie.phase = .idle ∧ s.pcie.standbyOk then
    { s with pcie := { s.pcie with phase := .held, trigger := trigger } }
  else s

/-- The record of a finished command that waited for the link, if its ring has room for it. -/
def makeRecord (e : Nat × Nat) (s : State) : State :=
  match getCmd s e.1 e.2 with
  | some m => if m.phase = .done ∧ recordRoom s e.1 then recordCmd e.1 m s else s
  | none => s

/-- What a failover held is written while vectors still wait to be signalled: the writes of packets, then the records and the events, each
in their order (R369, R370; log 53). -/
def writeHeld (s : State) : State :=
  let p := s.pcie
  let s := { s with pcie := { p with wrHeld := [], recHeld := [] } }
  let s := forAll p.wrHeld (fun w t => hostWrite t w.1 w.2.1 w.2.2) s
  let s := forAll p.recHeld makeRecord s
  let es := s.pcie.evHeld
  let s := { s with pcie := { s.pcie with evHeld := [] } }
  let s := forAll es (fun e t => postFuel 3 e.func e.code e.slab e.ctx e.dws t) s
  let s := forAll (p.recHeld.map Prod.fst).eraseDups (fun c t => cqDue c (decide (0 < (t.ctx c).irq.unsig)) t) s
  forAll (es.map HeldEvent.func).eraseDups (fun f t =>
    let x := t.fn f
    if x.irq.en && decide (0 < x.irq.unsig) then sendMsi f 0 (t.setFn f { x with irq := { x.irq with unsig := 0 } }) else t) s

/-- Outbound requests are no longer held; each vector with something to signal since the trigger is signalled once (R370). -/
def releaseHeld (s : State) : State :=
  let s := writeHeld s
  let held := s.pcie.msiHeld
  forAll held (fun v t => sendMsi v.1 v.2 t) { s with pcie := { s.pcie with phase := .idle, msiHeld := [] } }

/-- The host link is lost (R371): what was held for it fails. -/
def loseLink (s : State) : State :=
  let s := { s with pcie := { s.pcie with linkDown := true, speed := 0, width := 0 } }
  let s := if s.pcie.phase = .idle then s else releaseHeld s
  replace 4 s.pcie.activeSlab s

/-- The active controller fails (R368, R371): a failover, or the loss of the host link. -/
def activeFails (trigger : Nat) (s : State) : State :=
  if s.pcie.standbyOk then startFailover trigger s else if s.pcie.linkDown then s else loseLink s

/-- The standby controller fails or its slab retires (R371). -/
def standbyFails (s : State) : State :=
  if s.pcie.standbyOk then
    replace 5 50 (pcieEvent 2 { s with pcie := { s.pcie with standbyOk := false } })
  else s

/-- PCIE_FAILOVER (R368, R371): a full retirement of slab 40, a fault of the active controller, or the operator's write. -/
def execPcieFailover (t : FailTrigger) (s : State) : Host.Outcome State Fault Refusal :=
  if !s.live then .next s else
  match t with
  | .retirement =>
    if s.pcie.activeSlab = 40 ∧ (s.slab 40).st = .retired ∧ s.pcie.phase = .idle then .next (activeFails 0 s) else .next s
  | .controllerFault => if s.pcie.phase ≠ .held then .next (activeFails 1 s) else .next s
  | .operator => .next (startFailover 2 s)

/-- FAILOVER_SWITCH (R369): the selector switches to slab 50, whose controller has the mirrored state. -/
def execFailoverSwitch (s : State) : Host.Outcome State Fault Refusal :=
  if !s.live then .next s else
  if s.pcie.phase = .held then
    .next { s with pcie := { s.pcie with
      phase := .switched, activeSlab := 50, standbyOk := false, speed := 0, width := 0, cfg := s.pcie.cfgMirror } }
  else .next s

/-- FAILOVER_LINK_UP (R370): what waited is written, one MSI-X goes out on every vector that had something to signal, then
PCIE_FAILOVER. Reads without a completion and recent writes that the S100 repeats change nothing (log 53). -/
def execFailoverLinkUp (speed width : Nat) (s : State) : Host.Outcome State Fault Refusal :=
  if !s.live then .next s else
  if s.pcie.phase = .switched then
    let s := { s with pcie := { s.pcie with speed := speed, width := width, failovers := s.pcie.failovers + 1 } }
    let s := pcieEvent (if speed < 6 ∨ width < 16 then 5 else 1) (releaseHeld s)
    .next (forAll ((List.range 32).filter fun f => (s.fn f).en)
      (fun f t => post f 0x0006 0xFF 0xFFFF [s.pcie.trigger, 50] t) s)
  else .next s

/-- STANDBY_LOST (R371). -/
def execStandbyLost (s : State) : Host.Outcome State Fault Refusal :=
  if !s.live then .next s else .next (standbyFails s)

end Sys2Proof.Machine
end

