-- ==== Sys2Proof/Machine/Retire.lean ====
section
/-! DEFINITION. Retirements (R19, R20, R23, R24, R161, R277 to R284, R319 to R323, R398, R403, R404, R469 to R473): tile
sites, core and full retirement, spares that take positions, evacuation, and the fabric's errors. -/

namespace Sys2Proof.Machine

open Sys2Proof

/-! ## Issue stops -/

def addStop (p : Nat) (x : StopCause) (s : State) : State :=
  if (s.part2 p).stopped.contains x then s else s.modPart2 p fun y => { y with stopped := y.stopped ++ [x] }

def dropStop (p : Nat) (x : StopCause) (s : State) : State :=
  s.modPart2 p fun y => { y with stopped := y.stopped.filter (· != x) }

/-- Issued commands of a partition that have not finished. -/
def openCmds (s : State) (p : Nat) : List (Nat × Cmd) :=
  (ctxsOf s p).flatMap fun c => ((s.ctx c).cmds.filter fun m => m.phase == .issued || m.phase == .acted).map fun m => (c, m)

/-- Has a command work at a tile: an array it uses, or bank bytes of its footprint there? -/
def Cmd.atTile (s : State) (c : Nat) (m : Cmd) (g : Nat) : Bool :=
  m.bound.forms.any (fun f => f.1 == g) || m.bound.foots.any fun f =>
    f.reg.space == .bank && (regionTiles (s.part (s.ctx c).reg.part) f.reg).contains g

/-- Has a command work at a position: at one of its tiles, or a coder frame on its core? -/
def Cmd.atPos (s : State) (c : Nat) (m : Cmd) (pos : Nat) : Bool :=
  m.bound.forms.any (fun f => f.1 / 64 == pos)
    || (m.bound.foots.any fun f =>
      f.reg.space == .bank && (regionTiles (s.part (s.ctx c).reg.part) f.reg).any fun g => g / 64 == pos)
    || (s.ctx c).vcs.any fun v => v.2.cores.contains pos && (v.2.frame.map VcFrame.q) == some m.seq

def workAtTile (s : State) (p g : Nat) : Bool := (openCmds s p).any fun e => e.2.atTile s e.1 g
def workAtPos (s : State) (p pos : Nat) : Bool := (openCmds s p).any fun e => e.2.atPos s e.1 pos

/-! ## Tile sites (R19, R40) -/

def siteOf (x : Slab) (t : Nat) : Nat := bits x.tileMap.toNat (8 * t) 7
def siteSt (x : Slab) (k : Nat) : Nat := bits x.siteState.toNat (2 * k) 2

/-- The lower-numbered spare site that is free. -/
def spareSite (x : Slab) : Option Nat := [64, 65].find? fun k => siteSt x k == 1

/-- Site `k` takes tile index t; the old site is RETIRED. -/
def takeSite (t k : Nat) (x : Slab) : Slab :=
  let old := siteOf x t
  { x with
    tileMap := BitVec.ofNat 512 (x.tileMap.toNat - sh old (8 * t) + sh k (8 * t)),
    siteState := BitVec.ofNat 160 (x.siteState.toNat - sh (siteSt x old) (2 * old) + sh 2 (2 * old) - sh (siteSt x k) (2 * k)) }

/-- A bank's lines as a site of the given repair state has them, next tested at a region; what the bank holds and who owns
it stay. -/
def freshLines (turn : Nat) (site : Bank) (b : Bank) : Bank :=
  { b with
    redirectHeld := site.redirectHeld, spared := site.spared, badSpares := site.badSpares, testing := none, turn := turn,
    testNext := [], corrected := [] }

/-- A spare site's lines in the four banks of a tile. -/
def freshTile (turn g : Nat) (s : State) : State :=
  forAll (List.range 4) (fun k t => t.modBank (bankIx g k) (freshLines turn Bank.init)) s

/-- The region that a slab's background test starts next. -/
def patinaRegion (s : State) (n : Nat) : Nat := (s.slab2 n).patinaNext

/-! ## Positions and spares -/

/-- What `RAMP_OFF` set to 1 does to a tile: a ramp in progress ends at its goal (R68). -/
def Tile.rampStop (x : Tile) : Tile :=
  match x.dir with
  | .steady => x
  | .up => { x with frac := 8, dir := .steady, credit := 0 }
  | .down => { x with frac := 0, dir := .steady, credit := 0 }

/-- `RAMP_OFF` of a slab went from 0 to 1 (R68). -/
def rampsStop (n : Nat) (s : State) : State :=
  if inService s n then forAll (slabTiles (posOf s n)) (fun g t => t.modTile g Tile.rampStop) s else s

/-- The six control words of a slab entry, from an Armature (R455, R461). An `ARRAY_CTRL` that sets `RAMP_OFF` is reported
(R69). -/
def applyWords (n : Nat) (a : Option Image) (s : State) : State :=
  let w (o : Nat) : Word := w32 (payField a (slabOff n + o) 0 32)
  let off := bit (w 4).toNat 31 && !bit (s.slab n).arrayCtrl.toNat 31
  let s := s.modSlab n fun x => { x with arrayCtrl := w 4 }
  let s := if off then arrayEvent n 1 (rampsStop n s) else s
  let s := s.modSlab2 n fun x => { x with
    patinaCtrl := w 8, hbm := { x.hbm with scrub := w 0xC }, fab := { x.fab with ctrl := w 0x10 },
    vc := { x.vc with ctrl := w 0x18 } }
  match Config.slabPort n with
  | some p => portEnable p (bit (w 0x14).toNat 31) (s.modPort p fun x => { x with ctrl := w 0x14 })
  | none => s

/-- The operator slots 4 to 7 of another tile beside the reloaded slots 0 to 3 (R161, R284). -/
def slotsFrom (src : Slots) : Slots :=
  { bank0 := Slots.init.bank0.take 4 ++ src.bank0.drop 4, bank1 := Slots.init.bank1.take 4 ++ src.bank1.drop 4 }

/-- Fill slots 4 to 7 of a cleared tile from another tile (R161). -/
def fillSlots (src g : Nat) (s : State) : State :=
  let v := (s.tile2 src).slots
  s.modTile2 g fun x => { x with slots := slotsFrom v }

/-- The member of a partition with the lowest rank on a slab other than n. -/
def lowestOther (s : State) (p n : Nat) : Option Nat := (members s p).find? (· != n)

/-- The banks of a position are cleared, as a fresh site has them (R284). -/
def clearPos (pos : Nat) (s : State) : State := forAll (slabTiles pos) clearTile s

/-- The tile registers of slab n start afresh as it begins to serve a position; its sites keep their repairs, which the
repair table holds under the slab's own position (R281). -/
def freshPos (n pos : Nat) (s : State) : State :=
  let turn := patinaRegion s n
  forAll (slabTiles pos) (fun g t =>
    let own := 64 * n + g % 64
    forAll (List.range 4) (fun k u => u.modBank (bankIx g k) (freshLines turn (u.bank (bankIx own k))))
      ((t.setTile g Tile.init).modTile2 g fun x =>
        { Tile2.init with active := x.active, shadow := x.shadow, acc := x.acc, slots := x.slots })) s

/-- The core region of slab n wakes to serve a position (R23, R284): everything clears, the operator's slots and their
active banks come from the lowest other member of the partition (R161), and accesses wait for the clear. -/
def wakePos (n pos : Nat) (s : State) : State :=
  let s := freshPos n pos (clearPos pos s)
  let s := forAll (slabTiles pos) (setClearing true) s
  let other := (partOf s pos).bind fun p => lowestOther s p n
  let s := match other with
    | some m => forAll (slabTiles pos) (fillSlots (64 * posOf s m)) s
    | none => s
  let act := match other with
    | some m => (s.slab m).vec.active &&& 0xF0
    | none => 0
  (s.modSlab n fun x => { x with vec := { Vec.init with active := act } }).modSlab2 n fun x => { x with lab := [] }

/-- Weights at a position reload from their weight stores (R32, R283), its own share alone; a store that cannot be read
leaves the resident bytes, from which firmware rewrites it (R300). -/
def reloadWeights (p pos : Nat) (s : State) : State :=
  forAll (residents s p) (fun c t => if (weightBad t c).isSome then t else loadWeightsAt (fun g => g / 64 == pos) c t) s

/-- A spare takes a position (R161, R283, R470): planned, with the retiring slab's contents; otherwise cleared. -/
def spareServes (sp pos old : Nat) (planned : Bool) (s : State) : State :=
  let oldVec := (s.slab old).vec
  let s := logFact 6 sp pos pos 0 s
  let s := s.modSlab sp fun x => { x with st := .serving, serves := pos, coreOn := true }
  let s := applyWords sp (armOfPos s pos) s
  let s :=
    if planned then
      let s := freshPos sp pos s
      let s := s.modSlab sp fun x => { x with vec := { Vec.init with active := oldVec.active } }
      let s := s.modSlab2 sp fun x => { x with lab := [] }
      match partOf s pos with
      | some i => reloadWeights i pos s
      | none => s
    else wakePos sp pos s
  if idleSpares s = [] then replace 0 sp s else s

/-- A context loses the place of a rank it needs (R404, R471): HALTED, not resident, UNPLACED. -/
def unplace (c : Nat) (s : State) : State :=
  let saves := waitingSaves s c
  let s :=
    if (s.ctx c).reg.res then swapOut c s
    else if (s.ctx c).sched.swapping = .in then releaseAll c s else s
  let s := ctxEvent c 4 (s.modCtx c fun x => { x with
    reg := { x.reg with st := .halted, res := false, unplaced := true }, sched := { x.sched with swapping := .none } })
  settle c (forAll saves (fun w t => finish w.1 w.2 .ok [] t) s)

/-- Has the context a bank region on the position's ranks? -/
def usesPos (s : State) (c pos : Nat) : Bool := (ctxBanks s c).any fun gk => gk.1 / 64 == pos

/-- A position loses its member with no spare left (R471, R404). -/
def positionLost (pos old : Nat) (planned : Bool) (s : State) : State :=
  let s := replace 1 old s
  match partOf s pos with
  | none => clearPos pos s
  | some p =>
    let hit := (ctxsOf s p).filter fun c =>
      usesPos s c pos && ((s.ctx c).reg.geobound || (planned && ((s.ctx c).reg.res || (s.ctx c).sched.swapping == .in)))
    clearPos pos (forAll hit unplace s)

/-- A slab in service leaves its position, which moves to a spare if one is idle. -/
def leavePosition (n : Nat) (st : SlabSt) (planned : Bool) (s : State) : State :=
  let pos := posOf s n
  let s := s.modSlab n fun x => { x with st := st, serves := 0xFF, coreOn := false }
  let s := s.modSlab2 n fun x => { x with lab := [], warning := false, moveTile := none }
  match chooseSpare s pos with
  | some sp => spareServes sp pos n planned s
  | none => positionLost pos n planned s

/-- `TILE_MAP` moves and warnings of a slab that leaves lose their point: their stops end. -/
def dropSlabStops (p pos n : Nat) (s : State) : State :=
  forAll (slabTiles pos) (fun g t => dropStop p (.tileMove g) t) (dropStop p (.warning n) s)

/-- Core retirement (R24, R283, R398): an unplanned one first loses the contexts of the slab's partition. -/
def coreRetire (n : Nat) (planned : Bool) (reason : Nat) (s : State) : State :=
  if inService s n then
    let pos := posOf s n
    let p := partOf s pos
    let s := match p with
      | some i => dropSlabStops i pos n (if planned then s else partitionFault reason n i s)
      | none => s
    let s := resetCore 3 n false s
    let s := bankEvent n 32 (logFact 4 n (if planned then 0 else reason) pos 0 s)
    leavePosition n .coreRetired planned s
  else s

/-! ## Full retirement (R24, R302, R320, R371, R436) -/

/-- A stack is lost with its bridged slab: every partition stops issue until its lost units are redirected. -/
def loseStack (n k : Nat) (s : State) : State :=
  let s := { s with pkg := { s.pkg with lostStacks := s.pkg.lostStacks ++ [k] } }
  let s := s.modSlab2 n fun x => { x with hbm := { x.hbm with trained := false } }
  let s := forAll ((List.range 24).filter fun p => (s.part p).defd) (fun p t => addStop p .stackLoss t) s
  replace 2 n s

/-- A port is lost with its slab. -/
def losePort (n p : Nat) (s : State) : State := replace 3 n (portEnable p false s)

/-- What the anchors make of the loss of slab 40 or 50 (R436). -/
def loseAnchor (n : Nat) (s : State) : State :=
  let s := { s with sec := { s.sec with
    primaryOk := s.sec.primaryOk && n != 40, secondaryOk := s.sec.secondaryOk && n != 50 } }
  let s := if n = 40 ∧ s.sec.anchor = 40 ∧ s.sec.secondaryOk then
      secEvent 8 { s with sec := { s.sec with anchor := 50 } }
    else s
  if s.sec.primaryOk != s.sec.secondaryOk then replace 6 n s else s

/-- The host link when slab 40 or 50 is lost. -/
def losePcie (n : Nat) (s : State) : State :=
  if s.pcie.activeSlab = n then activeFails 0 s else if n = 50 then standbyFails s else s

/-- What hangs on the slab's edge is lost (R24). -/
def loseEdge (n : Nat) (s : State) : State :=
  let s := match Config.slabStack n with
    | some k => loseStack n k s
    | none => s
  let s := match Config.slabPort n with
    | some p => losePort n p s
    | none => s
  if Config.slabPcie n then losePcie n (loseAnchor n s) else s

/-- The core region of a slab is powered on again: cleared, its slots reloaded, and filled where a partition covers it
(R161, R284, R538). -/
def powerOn (n : Nat) (s : State) : State :=
  let s := wakePos n n (s.modSlab n fun x => { x with coreOn := true })
  { s with
    pkc := { s.pkc with slabOff := s.pkc.slabOff &&& ~~~(BitVec.ofNat 128 (sh 1 n)) },
    pkc2 := { s.pkc2 with repowered := s.pkc2.repowered.filter (· != n) ++ [n] } }

/-- A second full retirement: the fabric cannot be routed, and all command service ends (R320). -/
def unroutable (n : Nat) (s : State) : State :=
  let s := { s with pkg := { s.pkg with unroutable := true } }
  let s := s.modCtx 0 fun x => { x with cmds := [] }
  replace 7 n (forAll (definedCtxs s) (fun c t => loseCtx 5 n c t) s)

/-- The neighbours of a slab that is routed around begin to detour packets (R319, R337, log 43). -/
def detour (n : Nat) (s : State) : State :=
  forAll ((List.range 4).filterMap fun e => acrossEdge n e)
    (fun m t => if (t.slab m.1).st = .retired then t else fabEvent m.1 1 t) s

/-- Full retirement (R24, R320). -/
def fullRetire (n : Nat) (planned : Bool) (reason : Nat) (s : State) : State :=
  if (s.slab n).st = .retired then s
  else
    let serving := inService s n
    let pos := posOf s n
    let p := if serving then partOf s pos else none
    let first := s.pkg.retiredSlab == 0x7F
    let s := match p with
      | some i => dropSlabStops i pos n (if planned then s else partitionFault reason n i s)
      | none => s
    let s := if serving then resetCore 3 n false s else s
    let s := bankEvent n 32 (logFact 5 n (if planned then 0 else reason) (if serving then pos else 0xFF) 0 s)
    let s := if first then detour n { s with pkg := { s.pkg with retiredSlab := n } } else s
    let s := if serving then leavePosition n .retired planned s
      else s.modSlab n fun x => { x with st := .retired, serves := 0xFF, coreOn := false }
    let s := loseEdge n (dropFabric n s)
    if first then s else unroutable n s

/-! ## Tile retirement (R282) -/

/-- Complete the move of tile index t of a slab to a site. The counters of R71 and R182 start again at zero; a copied
tile keeps its stationary sets and accumulators. -/
def moveSite (n t k kind : Nat) (s : State) : State :=
  let old := siteOf (s.slab n) t
  let s := logFact kind n old 0 0 s
  let g := 64 * posOf s n + t
  let s := (s.setTile g Tile.init).modTile2 g fun x => { x with vecBusy := 0, vecEpiwait := 0 }
  freshTile (patinaRegion s n) g (bankEvent n 16 (s.modSlab n (takeSite t k)))

/-- Unplanned retirement of a tile's site: the spare site takes the position cleared; without one, the slab's core
retires (R24, R282). -/
def unplannedTile (g reason : Nat) (s : State) : State :=
  match serverOf s (g / 64) with
  | none => s
  | some n =>
    match spareSite (s.slab n) with
    | some k =>
      let s := match partOf s (g / 64) with
        | some p => dropStop p (.tileMove g) (partitionFault reason n p s)
        | none => s
      let s := s.modSlab2 n fun x => { x with moveTile := none }
      let s := fillSlots (if g % 64 = 0 then g + 1 else g - g % 64) g (clearTile g (moveSite n (g % 64) k 3 s))
      (setClearing true g s).modTile2 g fun x => { x with retiring := false }
    | none => coreRetire n false reason s

/-- An uncorrectable bank error (R277). -/
def bankUe (g : Nat) (s : State) : State :=
  match serverOf s (g / 64) with
  | none => s
  | some n => unplannedTile g 1 (bankEvent n 4 s)

/-- A corrected codeword of a bank line (R277): a line corrected twice since its last test has its region tested next, ahead
of its turn. Lines 640 and up are in no region. -/
def bankCorrected (g k line : Nat) (s : State) : State :=
  let s := s.modTile2 g fun x => { x with eccCorr := x.eccCorr + 1 }
  s.modBank (bankIx g k) fun b =>
    if b.corrected.contains line then
      if line < 640 ∧ b.testNext.contains (line / 2) = false then { b with testNext := b.testNext ++ [line / 2] } else b
    else { b with corrected := line :: b.corrected }

/-- TILE_HANG (R398): a tile that holds an issued share. -/
def execTileHang (g : Nat) (s : State) : Host.Outcome State Fault Refusal :=
  if !s.live then .next s else
  match partOf s (g / 64) with
  | none => .next s
  | some p =>
    if (openCmds s p).any fun e => e.2.bound.forms.any fun f => f.1 == g then .next (unplannedTile g 2 s) else .next s

/-- Has the tile a bank whose region stays redirected to its save lines (R281)? -/
def tileHeld (s : State) (g : Nat) : Bool := (List.range 4).any fun k => (s.bank (bankIx g k)).redirectHeld

/-- TILE_RETIREMENT (R282): with no work at the position, the spare site is cleared and the copy begins; without a spare
site, the slab's planned core retirement takes its place (R281). -/
def execTileRetirement (g : Nat) (s : State) : Host.Outcome State Fault Refusal :=
  if !s.live then .next s else
  match serverOf s (g / 64) with
  | none => .next s
  | some n =>
    let p := partOf s (g / 64)
    let busy := match p with
      | some i => workAtTile s i g
      | none => false
    if tileHeld s g && !busy && (s.slab2 n).moveTile.isNone then
      match spareSite (s.slab n), p with
      | some k, _ =>
        .next ((s.modSlab2 n fun x => { x with moveTile := some (g % 64, k) }).modTile2 g fun x => { x with retiring := true })
      | none, some i => .next (addStop i (.warning n) (dropStop i (.tileMove g) s))
      | none, none => .next (coreRetire n true 0 s)
    else .next s

/-- TILE_RETIRE_COPY_DONE (R282): the banks, owners and slots are in the spare site; issue resumes. -/
def execTileRetireCopyDone (g : Nat) (s : State) : Host.Outcome State Fault Refusal :=
  if !s.live then .next s else
  match serverOf s (g / 64) with
  | none => .next s
  | some n =>
    match (s.slab2 n).moveTile with
    | some (t, k) =>
      if t = g % 64 then
        let s := (moveSite n t k 2 s).modSlab2 n fun x => { x with moveTile := none }
        let s := s.modTile2 g fun x => { x with retiring := false }
        match partOf s (g / 64) with
        | some p => .next (dropStop p (.tileMove g) s)
        | none => .next s
      else .next s
    | none => .next s

/-! ## Background test (R278 to R281) -/

/-- A bank starts a region: one that is to be tested ahead of its turn, otherwise the next in turn. A bank whose last region
has not finished, or whose region stays redirected, starts none (R277, R279, R281). -/
def Bank.startRegion (b : Bank) : Bank :=
  if b.testing.isSome || b.redirectHeld then b
  else
    match b.testNext with
    | r :: rs => { b with testing := some r, testNext := rs }
    | [] => { b with testing := some (b.turn % 320), turn := (b.turn + 1) % 320 }

/-- What the copy of step 1 finds in a bank's region (R277, R278): tile, bank, line, and whether it cannot be corrected. -/
def patinaFound (f : Nat × Nat × Nat × Bool) (s : State) : State :=
  if f.2.2.2 then bankUe f.1 s else bankCorrected f.1 f.2.1 f.2.2.1 s

/-- Is a finding of step 1 one of a region that has just started? -/
def foundIn (s t : State) (f : Nat × Nat × Nat × Bool) : Bool :=
  let b := t.bank (bankIx f.1 f.2.1)
  (s.bank (bankIx f.1 f.2.1)).testing.isNone && b.testing.isSome && (b.testing == some (f.2.2.1 / 2))

/-- PATINA_REGION_START (R278, R279): every bank whose last region has finished starts its next one, which is copied to the
save lines with correction; a sweep that has started its last region counts as completed at the latest now. -/
def execPatinaRegionStart (slab : Nat) (found : List (Nat × Nat × Nat × Bool)) (s : State) :
    Host.Outcome State Fault Refusal :=
  if !s.live then .next s else
  let x := s.slab2 slab
  if coreLive s slab && inService s slab && bit x.patinaCtrl.toNat 31 then
    let r := x.patinaNext % 320
    let t := s.modSlab2 slab fun y => { y with
      patinaPos := r, patinaNext := (r + 1) % 320, sweepOpen := r == 319,
      patinaSweeps := if x.sweepOpen then y.patinaSweeps + 1 else y.patinaSweeps }
    let tiles := slabTiles (posOf s slab)
    let t := forAll tiles (fun g t => forAll (List.range 4) (fun k t => t.modBank (bankIx g k) Bank.startRegion) t) t
    .next (forAll (found.filter fun f => tiles.contains f.1 && foundIn s t f) patinaFound t)
  else .next s

/-- One failing line of a test (R280, R281): a spare line takes it, or the region stays redirected. Lines 642 and up are
the spare lines themselves, which become unusable; so does a spare line that fails in the place of the line it took. -/
def failLine (n g k line : Nat) (s : State) : State :=
  let b := s.bank (bankIx g k)
  if 642 ≤ line then
    s.setBank (bankIx g k) { b with badSpares := b.badSpares.filter (· != line - 642) ++ [line - 642] }
  else
    match b.spares with
    | i :: _ =>
      let bad := b.badSpares ++ (b.spared.filter fun e => e.1 == line).map Prod.snd
      bankEvent n 8 (logFact 1 n (siteOf (s.slab n) (g % 64)) k line
        (s.setBank (bankIx g k) { b with spared := aput b.spared line i, badSpares := bad }))
    | [] =>
      let s := bankEvent n 1 (s.setBank (bankIx g k) { b with redirectHeld := true })
      match partOf s (g / 64) with
      | some p => addStop p (.tileMove g) s
      | none => s

/-- The last region of a sweep has ended in every bank of the slab: the sweep is completed (R286). -/
def sweepEnds (n : Nat) (s : State) : State :=
  let runs := (slabTiles (posOf s n)).any fun g => (List.range 4).any fun k => (s.bank (bankIx g k)).testing.isSome
  if (s.slab2 n).sweepOpen && !runs then
    s.modSlab2 n fun x => { x with sweepOpen := false, patinaSweeps := x.patinaSweeps + 1 }
  else s

/-- PATINA_REGION_DONE (R278, R280): step 4 of a bank's region. The lines of the region count as tested. -/
def execPatinaRegionDone (g k : Nat) (failLines : List Nat) (s : State) : Host.Outcome State Fault Refusal :=
  if !s.live then .next s else
  match serverOf s (g / 64), (s.bank (bankIx g k)).testing with
  | some n, some r =>
    let s := s.modBank (bankIx g k) fun b => { b with
      testing := none, corrected := b.corrected.filter fun l => l / 2 != r }
    .next (sweepEnds n (forAll failLines (fun l t => failLine n g k l t) s))
  | _, _ => .next s

/-- PATINA_CTRL_WRITE (R286, R287). -/
def execPatinaCtrlWrite (src : Src) (slab : Nat) (value : BitVec 32) (s : State) : Host.Outcome State Fault Refusal :=
  if isOperator s src && coreLive s slab then
    let v := value.toNat
    .next (s.modSlab2 slab fun x => { x with patinaCtrl := w32 (sh (bits v 31 1) 31 + max 1 (bits v 0 16)) })
  else .next s

/-! ## Self-test (R23) -/

/-- SPARE_SELF_TEST (R23): a spare that fails is RETIRED and no longer counted; its fabric still forwards. -/
def execSpareSelfTest (slab : Nat) (pass : Bool) (s : State) : Host.Outcome State Fault Refusal :=
  if !s.live then .next s else
  if (s.slab slab).st = .spare ∧ pass = false then
    .next (s.modSlab slab fun x => { x with st := .retired, serves := 0xFF, coreOn := false })
  else .next s

/-! ## Warnings and evacuation (R403) -/

/-- The partition of a slab in service. -/
def slabPart (s : State) (n : Nat) : Option Nat := if inService s n then partOf s (posOf s n) else none

/-- PRE_FAILURE_WARNING (R403): the partition stops issue and waits. -/
def execPreFailureWarning (slab : Nat) (s : State) : Host.Outcome State Fault Refusal :=
  if !s.live then .next s else
  match slabPart s slab with
  | some p =>
    .next (schedEvent p 1 (addStop p (.warning slab) (s.modSlab2 slab fun x => { x with warning := true })))
  | none => .next s

/-- PLANNED_CORE_RETIREMENT (R283, R403): at the boundary where no command has work on the slab. -/
def execPlannedCoreRetirement (slab : Nat) (s : State) : Host.Outcome State Fault Refusal :=
  if !s.live then .next s else
  match slabPart s slab with
  | some p =>
    if (s.part2 p).stopped.contains (.warning slab) && !workAtPos s p (posOf s slab) then .next (coreRetire slab true 0 s)
    else .next s
  | none => .next s

/-- May an evacuation interrupt the command: a data-traffic, vector or matrix command (R403)? -/
def Cmd.interruptible (m : Cmd) : Bool := decide (0x10 ≤ m.opcode ∧ m.opcode ≤ 0x3F)

/-- A resident context leaves its banks for an evacuation: SWAPPED, its issued commands interrupted, `GEOBOUND` set
where there are any. HALTED and BLOCKED_KV keep their state, as R380 has it for an eviction (log 42). -/
def evacuate (p c : Nat) (s : State) : State :=
  let saves := waitingSaves s c
  let x := s.ctx c
  let hit := x.cmds.any fun m => m.phase == .issued
  let s := if x.reg.res then swapOut c s else releaseAll c s
  let s := s.modCtx c fun y => { y with
    cmds := y.cmds.map fun m => if m.phase = .issued then { m with interrupted := true } else m,
    reg := { y.reg with
      res := false, geobound := y.reg.geobound || hit,
      st := match y.reg.st with
        | .halted => .halted
        | .blockedKv => .blockedKv
        | _ => .swapped },
    sched := { y.sched with
      swapping := .none, geo := if hit then some ((s.part p).w, (s.part p).h) else y.sched.geo } }
  settle c (forAll saves (fun w t => finish w.1 w.2 .ok [] t) s)

/-- EVAC_WAIT_EXPIRE (R403): with work still on the slab, the partition is evacuated and the slab's core retires.
Commands outside opcodes 0x10 to 0x3F are waited for. -/
def execEvacWaitExpire (slab : Nat) (s : State) : Host.Outcome State Fault Refusal :=
  if !s.live then .next s else
  match slabPart s slab with
  | some p =>
    let cmds := openCmds s p
    if (s.part2 p).stopped.contains (.warning slab) && workAtPos s p (posOf s slab)
        && cmds.all (fun e => e.2.interruptible) then
      let s := forAll (residents s p) (fun c t => evacuate p c t) s
      .next (schedEvent p 4 (coreRetire slab true 0 s))
    else .next s
  | none => .next s

/-! ## The fabric's errors (R321, R322, R337) -/

/-- FLIT_RECEIVE (R312 to R321): a flit goes from a place to a neighbouring one against a credit, chosen as R317 has it;
the receiver corrects it, or drops it and has it replayed. A flit that fails after 8 replays fails the link, and the
receiving slab retires. -/
def execFlitReceive (dst src : FabPlace) (inject : Option Flit) (r : FlitResult) (s : State) :
    Host.Outcome State Fault Refusal :=
  if !s.live then .next s else
  if (s.slab dst.slab).st = .retired ∨ (s.slab src.slab).st = .retired ∨ joined src dst = false then .next s
  else
    match offered s src dst inject with
    | none => .next s
    | some (i, c, f) =>
      let t := countEdge src dst s
      match r with
      | .dropped =>
        let k := failsAt s dst src
        if 8 ≤ k then .next (fullRetire dst.slab false 3 (fabEvent dst.slab 8 t))
        else .next (setFails dst src (k + 1) (modFab dst.slab (fun x => { x with replay := x.replay + 1 }) t))
      | .corrected b =>
        .next (moveFlit src dst i c f (setFails dst src 0
          (modFab dst.slab (fun x => { x with corr := x.corr + (if b then 2 else 1) }) t)))
      | .good => .next (moveFlit src dst i c f (setFails dst src 0 t))

/-- An error that resends do not resolve is charged to the destination slab (R322). -/
def chargeSlab (n dest : Nat) (s : State) : State := fullRetire dest false 3 (fabEvent n 4 s)

/-- TRANSPORT_RESEND (R322): the expiry of `XPORT_TIMEOUT` for a packet; up to three resends, none of an ATOMIC. -/
def execTransportResend (slab tseq : Nat) (atomic : Bool) (dest : Nat) (s : State) : Host.Outcome State Fault Refusal :=
  if !s.live then .next s else
  if (s.slab slab).st = .retired then .next s
  else
    let sends := (s.slab2 slab).fab.sends
    let e := (sends.find? fun x => x.1 == tseq).getD (tseq, 0, atomic, dest)
    let rest := sends.filter fun x => x.1 != tseq
    if e.2.2.1 || decide (3 ≤ e.2.1) then .next (chargeSlab slab e.2.2.2 (modFab slab (fun x => { x with sends := rest }) s))
    else .next (modFab slab (fun x => { x with
      resend := x.resend + 1, sends := rest ++ [(tseq, e.2.1 + 1, e.2.2)] }) s)

end Sys2Proof.Machine
end

