-- ==== Sys2Proof/Machine/Fabric.lean ====
section
/-! DEFINITION. Packets at their endpoint (R300, R323, R463, R464), the scrub of a stack (R301, R311), and substitutes
after a stack is lost (R302). -/

namespace Sys2Proof.Machine

open Sys2Proof

/-! ## PACKET_DELIVER (R323, R464) -/

/-- The agent that a bank access of a packet is made by. -/
def engineAgent (e : Engine) (ctx tile : Nat) : Agent :=
  match e with
  | .array => .cmd ctx tile .array
  | .dma => .cmd ctx tile .dma
  | .vector => .cmd ctx tile .vector
  | .coder => .coder tile ctx

/-- What a packet asks of its endpoint: an access of a bank, of HBM or of host memory, the answer to a packet, or something
that the row of its sender does. -/
inductive PacketAcc where
  | bank (g k a : Nat)
  | hbm (da : Nat)
  | host (addr : Nat)
  | answer
  | other
deriving DecidableEq, Repr

/-- The access of a header, as its `DEP` implies (R313): the bank byte address of a tile carries the bank in bits 22:21
(log 50). -/
def packetAcc (s : State) (h : BitVec 512) : PacketAcc :=
  let n := hDslab h
  let a := hAddr h
  match vcOfType (hType h) with
  | some 1 => .answer
  | some 0 =>
    if hType h = 3 then .other
    else
      match endpoint (hDep h) with
      | some (.tile t) => .bank (64 * posOf s n + t) (a / 2 ^ 21 % 4) (a % 2 ^ 21)
      | some .device =>
        if Config.slabPcie n then .host a else if (Config.slabStack n).isSome then .hbm a else .other
      | _ => .other
  | _ => .other

/-- Do a packet's `PART` and `CTX` match the state that it addresses (R323), at the slab that it names? -/
def packetFits (s : State) (h : BitVec 512) : Bool :=
  let part := hPart h
  let ctx := hCtx h
  match packetAcc s h with
  | .bank g k a =>
    inService s (hDslab h) && partOf s (g / 64) == some part && (s.bank (bankIx g k)).holder == some ctx
      && decide (hAddr h < 2 ^ 23 ∧ a < bankBytes)
  | .hbm da =>
    partOfDa s da == some part && homeSlab s da == hDslab h && ctx != 0 && daCtx s da == ctx
      && decide (da < daEnd)
  | .host _ => hDslab h == s.pcie.activeSlab && ctx != 0 && (s.ctx ctx).reg.st != .free && (s.ctx ctx).reg.part == part
  | .answer => true
  | .other => true

/-- Has a packet the body of its type, as long as its `LEN` says? -/
def bodyFits (h : BitVec 512) : PacketBody → Bool
  | .read n _ _ => hType h == 0 && hLen h == 0 && decide (n ≤ 4096)
  | .write bs _ _ => hType h == 1 && hLen h == cdiv bs.length 64
  | .other => hType h != 0 && hType h != 1

/-- A packet at an endpoint that it does not fit: dropped, counted, raised. -/
def misroute (dest : Nat) (s : State) : State :=
  fabEvent dest 2 (modFab dest (fun x => { x with misroute := x.misroute + 1 }) s)

/-- The command that a packet came from ends after issue (R272, R464). -/
def failSender (c q : Nat) (st : Status) (dw : List Nat) (s : State) : State :=
  match running? s c q with
  | some _ => finish c q st dw s
  | none => s

/-- What a bank reports of the codewords an access read (R277). -/
def bankFound (g : Nat) (found : PacketFinding) (s : State) : State :=
  match found with
  | .bankCorrected k line => bankCorrected g k line s
  | .bankUe _ _ => bankUe g s
  | _ => s

/-- What the controller finds in a granule that an access reads, as a failure (R292). -/
def hbmFinding : PacketFinding → Option (Nat × HbmBad)
  | .hbmUe g => some (g, .poisoned)
  | .hbmMac g => some (g, .mac)
  | _ => none

/-- Codewords that the controller corrects in an access (R300, R310); an UNWRITTEN granule is not read (R296). -/
def hbmFixed (da len : Nat) (found : PacketFinding) (s : State) : State :=
  match found with
  | .hbmCorrected g n =>
    if da / granBytes ≤ g ∧ g * granBytes < da + len ∧ (granAt s (g * granBytes)).1 ≠ .unwritten then
      s.modSlab2 (homeSlab s da) fun x => { x with hbm := { x.hbm with corr := x.hbm.corr + BitVec.ofNat 64 n } }
    else s
  | _ => s

/-- Is the finding an uncorrectable one of a bank, so that the access returns no data? -/
def fatalFinding : PacketFinding → Bool
  | .bankUe _ _ => true
  | _ => false

/-- Does a write of n bytes read codewords first, because it covers some in part (R263)? -/
def partCodeword (a n : Nat) : Bool := a % 32 != 0 || (a + n) % 32 != 0

/-- What a write finds: nothing where it reads no codeword. -/
def writeFound (a n : Nat) (found : PacketFinding) : PacketFinding := if partCodeword a n then found else .clean

/-- A bank access of a packet: refused by the owner, or performed. -/
def packetBank (c q g k a tile : Nat) (e : Engine) (data : Option (List Byte)) (found : PacketFinding) (s : State) :
    State :=
  let ag := engineAgent e c tile
  let kind : AccKind := if data.isSome then .write else .read
  if ownerAdmits s g k ag kind then
    match data with
    | some bs =>
      let found := writeFound a bs.length found
      let s := bankFound g found s
      if fatalFinding found then s else bankWrite g k a bs s
    | none => bankFound g found s
  else failSender c q .owner [g, k] (ownerRefused g k a ag kind s)

/-- An HBM access of a packet (R292, R296, R299, R300): every granule is checked; a write lands only if all its spans can
be written. -/
def packetHbm (c da : Nat) (body : PacketBody) (found : PacketFinding) (s : State) : State :=
  let key := ctxKey s c
  let bad := hbmFinding found
  match body with
  | .read len _ _ =>
    let t := hbmFixed da len found (countAcc (some c) false (spanFuel len) da len s)
    match readBad t bad key (spanFuel len) da len with
    | some (a, b) => hbmFault a b t
    | none => t
  | .write bs _ _ =>
    let n := bs.length
    let t := hbmFixed da n found (countAcc (some c) true (spanFuel n) da n s)
    match writeBad t bad key (spanFuel n) da n with
    | some (a, b) => hbmFault a b t
    | none => hbmWrite key da bs t
  | .other => s

/-- A host access of a packet: what a write carries lands in host memory of the context's function (R341), once the link
carries it (R369). -/
def packetHost (c a : Nat) (body : PacketBody) (s : State) : State :=
  let f := (s.ctx c).reg.func
  match body with
  | .write bs _ _ =>
    if s.pcie.phase = .idle then hostWrite s f a bs
    else { s with pcie := { s.pcie with wrHeld := s.pcie.wrHeld ++ [(f, a, bs)] } }
  | _ => s

/-- PACKET_DELIVER (R313, R322, R323, R463, R464). A fabric that cannot be routed carries no data (R320). -/
def execPacketDeliver (h : BitVec 512) (q : Nat) (body : PacketBody) (found : PacketFinding) (s : State) :
    Host.Outcome State Fault Refusal :=
  let dest := hDslab h
  let part := hPart h
  let ctx := hCtx h
  if !s.live then .next s else
  if (s.slab dest).st = .retired then .next s
  else if found = .misrouted ∨ headerOk h = false ∨ bodyFits h body = false ∨ packetFits s h = false then
    .next (misroute dest s)
  else if hEpoch h ≠ 0 ∧ (aget (s.slab2 dest).epochs part).getD 0 ≠ hEpoch h then
    let s := { s with arm := { s.arm with epochReject := s.arm.epochReject + 1 } }
    .next (startExch part (failSender ctx q .epoch [(s.part part).epoch.toNat] s))
  else if s.pkg.unroutable then .next s
  else
    match packetAcc s h, body with
    | .bank g k a, .read _ tile e =>
      .next (if bankClearing s g k then holdAcc (.packetDeliver h q body found) s
        else packetBank ctx q g k a tile e none found s)
    | .bank g k a, .write bs tile e =>
      .next (if bankClearing s g k then holdAcc (.packetDeliver h q body found) s
        else packetBank ctx q g k a tile e (some bs) found s)
    | .hbm da, _ => .next (packetHbm ctx da body found s)
    | .host a, _ => .next (packetHost ctx a body s)
    | .answer, _ => .next (modFab dest (fun x => { x with sends := x.sends.filter fun e => e.1 != hTseq h }) s)
    | _, _ => .next s

/-! ## The scrub (R301, R311) -/

/-- HBM_SCRUB_WRITE (R310, R311). -/
def execHbmScrubWrite (src : Src) (slab : Nat) (value : BitVec 32) (s : State) : Host.Outcome State Fault Refusal :=
  if isOperator s src && (Config.slabStack slab).isSome && (s.slab slab).st != .retired then
    let v := value.toNat
    .next (s.modSlab2 slab fun x => { x with hbm := { x.hbm with scrub := w32 (sh (bits v 31 1) 31 + max 1 (bits v 0 16)) } })
  else .next s

/-- HBM_SCRUB_PASS (R301): codewords corrected, granules poisoned, the pass done. -/
def execHbmScrubPass (slab corrected : Nat) (failed : List Nat) (s : State) : Host.Outcome State Fault Refusal :=
  if !s.live then .next s else
  match Config.slabStack slab with
  | none => .next s
  | some k =>
    if (s.slab slab).st != .retired && bit (s.slab2 slab).hbm.scrub.toNat 31 then
      let s := s.modSlab2 slab fun x => { x with hbm := { x.hbm with corr := x.hbm.corr + BitVec.ofNat 64 corrected } }
      let s := forAll (failed.filter fun da => ((homeDa s da).map daStack) == some k) (fun da t => hbmFailLog da .poisoned t) s
      .next (hbmEvent slab 4 s)
    else .next s

/-! ## Losing a stack (R302, R303) -/

/-- The 4 KiB units of a partition whose storage lay on the stack lost last: on it, or redirected to it. -/
def newlyLost (s : State) (p : Nat) : List Nat :=
  let old := s.pkg.lostStacks.dropLast
  let k := s.pkg.lostStacks.getLastD 24
  (lossUnits s p).flatMap fun u => (List.range 768).filterMap fun j =>
    let un := 768 * u + j
    if ((homeUnit s old un).map fun v => daStack (4096 * v)) = some k then some un else none

/-- Poison both granules of a 4 KiB unit, and both halves of footer granules. -/
def poisonUnit (da : Nat) (s : State) : State :=
  forAll ((List.range 4).map fun i => da + 1024 * i)
    (fun a t => setGran t a .poisoned (granAt t a).2.1 (granAt t a).2.2) s

/-- Allocation units of weight stores whose contexts are resident: rewritten at once from the banks. -/
def residentStores (s : State) (p : Nat) : List Nat :=
  (residents s p).flatMap fun c => (s.ctx c).models.flatMap fun m => m.2.units

/-- STACK_SUBSTITUTE (R302): once nothing of the partition is in flight, its lost units are redirected and poisoned,
resident weight stores are rewritten, and issue resumes. -/
def execStackSubstitute (p : Nat) (s : State) : Host.Outcome State Fault Refusal :=
  if !s.live then .next s else
  if (s.part2 p).stopped.contains .stackLoss && (openCmds s p).isEmpty then
    let lost := newlyLost s p
    let keep := residentStores s p
    let s := fixSubst p (forAll lost (fun un t => poisonUnit (4096 * un) t) s)
    let s := forAll (lost.filter fun un => keep.contains (un / 768) && (homeUnit s s.pkg.lostStacks un).isSome)
      (fun un t => repairWeights (4096 * un + granBytes) (repairWeights (4096 * un) t)) s
    .next (dropStop p .stackLoss s)
  else .next s

end Sys2Proof.Machine
end

