-- ==== Sys2Proof/Machine/Security.lean ====
section
/-! DEFINITION. The security block's operations (R438 to R446, R450, R451): identity records, attestation reports, staged
images and certificates. -/

namespace Sys2Proof.Machine

open Sys2Proof

/-! ## Firmware slots and images (R439 to R442) -/

/-- Does a slot's image verify against a floor (R441)? Its signatures, certificate and payload digest are `good`. -/
def slotOk (i : Option Image) (floor : Word) : Bool :=
  match i with
  | some x => x.good && decide (floor.toNat ≤ x.svn.toNat)
  | none => false

/-- The running firmware. -/
def fwRunning (s : State) : Option Image := if s.sec.fwRun then s.sec.fwB else s.sec.fwA

/-- A field of the running firmware, 0 without one. -/
def fwField (s : State) (f : Image → Nat) : Nat :=
  match fwRunning s with
  | some i => f i
  | none => 0

/-- Bytes of a list from an offset. -/
def sub (l : List Byte) (o n : Nat) : List Byte := (l.drop o).take n

/-- A field of `n` bytes of a list, little-endian. -/
def num (l : List Byte) (o n : Nat) : Nat := ofBytes (sub l o n)

/-- A byte string brought to a length, with zeros at the end. -/
def fixLen (n : Nat) (l : List Byte) : List Byte := (List.range n).map fun i => l.getD i 0

/-- The image in a byte string (R440), with what R441 steps 2 to 5 find. -/
def parseImage (certs : List (BitVec 384)) (l : List Byte) : Image :=
  { version := w32 (num l 0x08 4), svn := w32 (num l 0x0C 4), epoch := w32 (num l 0x10 4),
    digest := Config.sha384 (sub l 0 0x100),
    good := Config.imageSigned (sub l 0 0x1000) certs
      && (Config.sha384 (l.drop 0x1000)).toNat == num l 0x20 48,
    plen := num l 0x18 8, payload := ofBytes (l.drop 0x1000) }

/-- Step 1 of R441 but for the lengths: magic, type, header version and reserved bytes. -/
def headerBad (type : Nat) (l : List Byte) : Bool :=
  num l 0 4 != 0x31495A56 || num l 4 2 != type || num l 6 2 != 1 || num l 0x14 4 != 0 || num l 0x80 128 != 0
    || num l 0xE2D 467 != 0

/-- The lengths: `SEC_LEN` bytes are the header and the payload, which fits its slot; an Armature's has 4,160 bytes
(R453). -/
def lengthBad (type len : Nat) (l : List Byte) : Bool :=
  decide (len < 0x1000) || num l 0x18 8 + 0x1000 != len
    || if type = 2 then num l 0x18 8 != 4160 else decide (0x600000 < len)

/-! ## Ending an operation -/

/-- An operation ends with a result and sets DONE (R450). -/
def secDone (result : Nat) (s : State) : State :=
  secEvent 1 { s with sec := { s.sec with busy := false, result := result } }

/-- Is an operation with this code running (R451)? Each reads or writes host memory, which waits during a failover (R369). -/
def secOp? (s : State) (op : Nat) : Bool := s.pcie.phase == .idle && s.sec.busy && bits s.sec.run.toNat 0 4 == op

/-- Have neither of the anchors keys (R528)? -/
def noIdentity (s : State) : Bool := !s.sec.primaryOk && !s.sec.secondaryOk

/-- A bad argument: an address that is not a multiple of 4 KiB, or no identity to work under (R528). -/
def secBad (s : State) : Bool := noIdentity s || s.sec.addr.toNat % 4096 != 0

/-- Write an output to the PF's host memory: too long for `SEC_LEN`, or failing, it writes nothing (R451). -/
def secOutput (bs : List Byte) (s : State) : State :=
  if s.sec.len.toNat < bs.length then secDone 5 s
  else if hostFails s 0 s.sec.addr.toNat bs.length then secDone 2 s
  else secDone 0 (hostWrite s 0 s.sec.addr.toNat bs)

/-! ## ID_RECORD and ATTEST (R445, R446) -/

/-- `CTX` and `DEV` of `SEC_CMD`. -/
def secCtx (s : State) : Nat := bits s.sec.run.toNat 16 10
def secDev (s : State) : Bool := bit s.sec.run.toNat 15

/-- Is `CTX` FREE without `DEV`? -/
def secNoCtx (s : State) : Bool := !secDev s && (s.ctx (secCtx s)).reg.st == .free

/-- The identity record of 11,072 bytes. -/
def idRecord (s : State) : List Byte :=
  toBytes 4 0x31445A56 ++ toBytes 4 1 ++ toBytes 8 Config.deviceSerial.toNat
    ++ toBytes 48 (Config.anchorId s.sec.anchor).toNat ++ fixLen 5504 Config.deviceCaCert
    ++ fixLen 5504 (Config.anchorCert s.sec.anchor)

/-- ID_RECORD (R445, R451). -/
def execIdRecord (s : State) : Host.Outcome State Fault Refusal :=
  if secOp? s 1 then
    if secBad s then .next (secDone 1 s)
    else if secNoCtx s then .next (secDone 6 s)
    else .next (secOutput (idRecord s) s)
  else .next s

/-- The partition a report speaks of: that of its context. -/
def reportPart (s : State) : Option Nat :=
  if secDev s || secCtx s == 0 then none else some (s.ctx (secCtx s)).reg.part

/-- Slabs whose certificates a report carries. -/
def reportSlabs (s : State) : List Nat :=
  if secDev s then (List.range 100).filter (inService s)
  else match reportPart s with
    | some p => (List.range 100).filter fun n => (members s p).contains n
    | none => []

/-- The head of a report, bytes 0x0000 to 0x01FF. `open_` holds `CLASS`, `FUNC` and `OP_ACCESS` of a device report, which
the spec leaves open. -/
def reportHead (s : State) (open_ : Nat) : List Byte :=
  let x := s.ctx (secCtx s)
  let a := match reportPart s with
    | some p => armRun s p
    | none => armCur s
  let g (f : Image → Nat) : Nat := match a with
    | some i => f i
    | none => 0
  let dev := secDev s
  fixLen 0x200
    (toBytes 4 0x31415A56 ++ toBytes 4 1 ++ toBytes 8 Config.deviceSerial.toNat ++ toBytes 48 s.sec.nonce.toNat
      ++ toBytes 48 (Config.anchorId s.sec.anchor).toNat ++ toBytes 48 (fwField s fun i => i.digest.toNat)
      ++ toBytes 4 (fwField s fun i => i.version.toNat) ++ toBytes 4 (fwField s fun i => i.svn.toNat)
      ++ toBytes 4 (g fun i => i.epoch.toNat) ++ toBytes 4 (g fun i => i.svn.toNat) ++ toBytes 48 (g fun i => i.digest.toNat)
      ++ toBytes 2 (if dev then 0xFFFF else secCtx s) ++ toBytes 1 ((reportPart s).getD 0xFF)
      ++ toBytes 1 (if dev then bits open_ 0 8 else b2n x.reg.lc) ++ toBytes 1 (if dev then bits open_ 8 8 else x.reg.func)
      ++ toBytes 3 0 ++ toBytes 8 (if dev then bits open_ 16 64 else x.prof.opacc.toNat)
      ++ toBytes 1 (reportSlabs s).length ++ toBytes 15 0
      ++ (List.range 100).map fun n => BitVec.ofNat 8 (s.slab n).st.code)

/-- A report: its head, the two signatures over the head and the certificates, and the certificates. -/
def report (s : State) (open_ : Nat) : List Byte :=
  let head := reportHead s open_
  let certs := (reportSlabs s).flatMap fun n => fixLen 5504 (Config.slabCert s.sec.anchor n)
  let d := Config.sha384 (head ++ certs)
  head ++ fixLen 64 (Config.edSign s.sec.anchor d) ++ fixLen 3309 (Config.mldsaSign s.sec.anchor d) ++ fixLen 211 []
    ++ certs

/-- ATTEST (R446, R451). -/
def execAttest (s : State) : Host.Outcome State Fault Refusal :=
  if secOp? s 2 then
    if secBad s then .next (secDone 1 s)
    else if secNoCtx s then .next (secDone 6 s)
    else
      let (v, t) := s.takeFree 80
      .next (secOutput (report s v.toNat) t)
  else .next s

/-! ## Staging (R441, R451, R460, R528) -/

/-- The image at the address, or the result that refuses it. Steps 1 to 6 of R441: a wrong length gives 5, another
fault of step 1 gives 1, steps 2 to 5 give 3 and step 6 gives 4 (log 25). -/
def stageRead (s : State) (type : Nat) (floor : Word) : Except Nat Image :=
  let n := s.sec.len.toNat
  if secBad s then .error 1
  else if hostFails s 0 s.sec.addr.toNat n then .error 2
  else
    let l := hostRead s 0 s.sec.addr.toNat n
    let i := parseImage s.sec.certs l
    if lengthBad type n l then .error 5
    else if headerBad type l then .error 1
    else if i.good = false then .error 3
    else if i.svn.toNat < floor.toNat then .error 4
    else .ok i

/-- STAGE_FW (R451): into the firmware slot that is not running; in the recovery state into the first that does not
verify (R528). -/
def execStageFw (s : State) : Host.Outcome State Fault Refusal :=
  if secOp? s 3 then
    match stageRead s 1 s.sec.fwFloor with
    | .error r => .next (secDone r s)
    | .ok i =>
      let toB := if s.pkc.recovery then slotOk s.sec.fwA s.sec.fwFloor else !s.sec.fwRun
      .next (secDone 0 { s with sec :=
        if toB then { s.sec with fwB := some i } else { s.sec with fwA := some i } })
  else .next s

/-- Does any partition run the previous Armature, or still have to leave it (R460)? -/
def prevInUse (s : State) : Bool := s.arm.reverted != 0 || !s.arm2.todo.isEmpty

/-- STAGE_ARM (R451, R458, R460): into the configuration slot that is not current; the previous Armature is then gone. -/
def execStageArm (s : State) : Host.Outcome State Fault Refusal :=
  if secOp? s 4 then
    if prevInUse s then .next (secDone 1 s)
    else
      match stageRead s 2 s.sec.armFloor with
      | .error r => .next (secDone r s)
      | .ok i =>
        let toB := if s.pkc.recovery then slotOk s.arm.slotA s.sec.armFloor else !s.arm.curB
        .next (secDone 0 { s with arm :=
          if toB then { s.arm with slotB := some i, prevValid := false }
          else { s.arm with slotA := some i, prevValid := false } })
  else .next s

/-- CERT_ADD (R451): a valid role 2 certificate; result 5 when the store is full. -/
def execCertAdd (s : State) : Host.Outcome State Fault Refusal :=
  if secOp? s 5 then
    if secBad s || decide (s.sec.len.toNat < 5504) then .next (secDone 1 s)
    else if hostFails s 0 s.sec.addr.toNat 5504 then .next (secDone 2 s)
    else
      let l := hostRead s 0 s.sec.addr.toNat 5504
      let id := BitVec.ofNat 384 (num l 0x10 48)
      if !Config.certValid l || num l 4 2 != 2 then .next (secDone 3 s)
      else if s.sec.certs.contains id then .next (secDone 0 s)
      else if Config.certRoom ≤ s.sec.certs.length then .next (secDone 5 s)
      else .next (secDone 0 { s with sec := { s.sec with certs := s.sec.certs ++ [id] } })
  else .next s

end Sys2Proof.Machine
end

