-- ==== Sys2Proof/Machine/Armature.lean ====
section
/-! DEFINITION. The Armature and Concordance (R453 to R468, R477): admissible payloads, apply, revert, return and check,
the switch of a partition, and digest exchanges. -/

namespace Sys2Proof.Machine

open Sys2Proof

/-! ## Admissible payloads (R457) -/

/-- A failing test and the payload offset of its field. -/
abbrev Fault1 := Bool × Nat

/-- A field of a payload. -/
def pf (v off lo w : Nat) : Nat := fld v off lo w

/-- The fields of a payload that belong to no entry. -/
def topFaults (v : Nat) : List Fault1 :=
  [ (pf v 0 0 32 != 1, 0x00), (decide (pf v 4 0 16 < 400) || decide (1900 < pf v 4 0 16), 0x04),
    (pf v 6 6 10 != 0 || pf v 6 1 5 == 0 || decide (16 < pf v 6 1 5), 0x06), (bits v (8 * 0x0C) (8 * 0x34) != 0, 0x0C) ]

/-- Is partition entry n valid? -/
def entryValid (v n : Nat) : Bool := bit (pf v (partOff n + 0x19) 0 8) 0

/-- The rectangle of an entry: x0, y0, width, height. -/
def entryRect (v n : Nat) : Nat × Nat × Nat × Nat :=
  (pf v (partOff n) 0 8, pf v (partOff n + 1) 0 8, pf v (partOff n + 2) 0 8, pf v (partOff n + 3) 0 8)

/-- Does an entry's rectangle cover a position? -/
def entryCovers (v n pos : Nat) : Bool :=
  let (x, y, w, h) := entryRect v n
  entryValid v n && decide (x ≤ slabX pos ∧ slabX pos < x + w ∧ y ≤ slabY pos ∧ slabY pos < y + h)

/-- A valid partition entry alone (R28, R290, R291, R454). -/
def validFaults (v n : Nat) : List Fault1 :=
  let o := partOff n
  let (x, y, w, h) := entryRect v n
  let b := pf v (o + 4) 0 32
  let u := pf v (o + 8) 0 32
  let l := pf v (o + 0xC) 0 32
  let room := u * allocBytes
  [ (x % 2 != 0 || decide (10 < x + w), o), (y % 2 != 0 || decide (10 < y + h), o + 1),
    (w % 2 != 0 || decide (w < 2), o + 2), (h % 2 != 0 || decide (h < 2), o + 3),
    (decide (b < 256) || decide (Config.allocUnits < b + u), o + 4), (decide (Config.allocUnits < u), o + 8),
    (decide (2 ^ 24 ≤ l) || decide (room < roundUp (33 * 1024 * l) 2048), o + 0xC),
    (decide (l < pf v (o + 0x10) 0 32), o + 0x10),
    (pf v (o + 0x14) 16 15 != 0 || pf v (o + 0x14) 0 16 == 0, o + 0x14),
    (pf v (o + 0x18) 0 8 == 0 || decide (7 < pf v (o + 0x18) 0 8), o + 0x18), (pf v (o + 0x19) 1 7 != 0, o + 0x19),
    (pf v (o + 0x1A) 0 16 != 0, o + 0x1A),
    (pf v (o + 0x1C) 0 32 != 0 && decide (pf v (o + 0x1C) 0 32 < 256), o + 0x1C) ]

/-- An entry that defines no partition is zero in every other field. -/
def emptyFaults (v n : Nat) : List Fault1 :=
  let o := partOff n
  [ (pf v o 0 8 != 0, o), (pf v (o + 1) 0 8 != 0, o + 1), (pf v (o + 2) 0 8 != 0, o + 2), (pf v (o + 3) 0 8 != 0, o + 3),
    (pf v (o + 4) 0 32 != 0, o + 4), (pf v (o + 8) 0 32 != 0, o + 8), (pf v (o + 0xC) 0 32 != 0, o + 0xC),
    (pf v (o + 0x10) 0 32 != 0, o + 0x10), (pf v (o + 0x14) 0 32 != 0, o + 0x14), (pf v (o + 0x18) 0 8 != 0, o + 0x18),
    (pf v (o + 0x19) 1 7 != 0, o + 0x19), (pf v (o + 0x1A) 0 16 != 0, o + 0x1A), (pf v (o + 0x1C) 0 32 != 0, o + 0x1C) ]

/-- The valid entries. -/
def validParts (v : Nat) : List Nat := (List.range 24).filter (entryValid v)

/-- Overlaps of two valid entries, told at the lower one (log 44). -/
def pairFaults (v : Nat) : List Fault1 :=
  (validParts v).flatMap fun a => ((validParts v).filter fun b => decide (a < b)).flatMap fun b =>
    [ ((List.range 100).any fun pos => entryCovers v a pos && entryCovers v b pos, partOff a),
      (decide (pf v (partOff a + 4) 0 32 < pf v (partOff b + 4) 0 32 + pf v (partOff b + 8) 0 32
        ∧ pf v (partOff b + 4) 0 32 < pf v (partOff a + 4) 0 32 + pf v (partOff a + 8) 0 32), partOff a + 4) ]

/-- `ROLE` of a slab entry. -/
def roleOf (v n : Nat) : Nat := pf v (slabOff n) 0 8

/-- A slab entry (R455): its control words in the ranges of their registers. -/
def slabFaults (v n : Nat) : List Fault1 :=
  let o := slabOff n
  let w (i : Nat) : Nat := pf v (o + i) 0 32
  [ (roleOf v n != 1 && roleOf v n != 2, o), (roleOf v n == 1 && pf v (o + 1) 0 8 != 0, o + 1), (pf v (o + 2) 0 16 != 0, o + 2),
    (bits (w 4) 16 15 != 0 || bits (w 4) 6 2 != 0 || bits (w 4) 8 8 == 0 || decide (bits (w 4) 0 4 < 2)
      || decide (8 < bits (w 4) 0 4), o + 4),
    (bits (w 8) 16 15 != 0 || bits (w 8) 0 16 == 0, o + 8), (bits (w 0xC) 16 15 != 0 || bits (w 0xC) 0 16 == 0, o + 0xC),
    (bits (w 0x10) 16 16 != 0 || bits (w 0x10) 0 16 == 0, o + 0x10),
    (bits (w 0x14) 30 1 != 0 || bits (w 0x14) 8 22 != 0 || bits (w 0x14) 0 8 == 0, o + 0x14),
    (bits (w 0x18) 16 16 != 0 || decide (bits (w 0x18) 0 16 < 100), o + 0x18), (w 0x1C != 0, o + 0x1C) ]

/-- Has a slab a recorded fact, which stands over its `ROLE` (R469)? -/
def recorded (s : State) (n : Nat) : Bool :=
  (s.slab n).st == .serving || (s.slab n).st == .coreRetired || (s.slab n).st == .retired

/-- Slabs that count as spares of a payload. -/
def payloadSpares (s : State) (v : Nat) : List Nat :=
  (List.range 100).filter fun n => roleOf v n == 2 && !recorded s n

/-- The spares of a payload: at least four, ranks apart (R457, R469). -/
def spareFaults (s : State) (v : Nat) : List Fault1 :=
  let sp := payloadSpares s v
  (decide (sp.length < 4), slabOff 0) ::
    sp.flatMap fun a => (sp.filter fun b => decide (a < b)).map fun b =>
      (pf v (slabOff a + 1) 0 8 == pf v (slabOff b + 1) 0 8, slabOff a + 1)

/-- Partitions without a member (R28): none of its positions has an ACTIVE slab or a serving spare; and a map with no
partition. -/
def memberFaults (s : State) (v : Nat) : List Fault1 :=
  ((validParts v).isEmpty, partOff 0 + 0x19) ::
    (validParts v).map fun n =>
      (((List.range 100).filter (entryCovers v n)).all fun pos =>
        !((roleOf v pos == 1 && !recorded s pos)
          || (List.range 100).any fun k => (s.slab k).st == .serving && (s.slab k).serves == pos), partOff n)

/-- A port entry (R456). -/
def portFaults (v p : Nat) : List Fault1 :=
  let o := portOff p
  [ (pf v o 1 7 != 0, o), (decide (8 ≤ pf v (o + 1) 0 8) && pf v (o + 1) 0 8 != 0xFF, o + 1), (pf v (o + 2) 0 48 != 0, o + 2) ]

/-- Every failing field of a payload against the present map. -/
def payFaults (s : State) (v : Nat) : List Fault1 :=
  topFaults v ++ (List.range 24).flatMap (fun n => if entryValid v n then validFaults v n else emptyFaults v n)
    ++ pairFaults v ++ memberFaults s v ++ (List.range 100).flatMap (slabFaults v) ++ spareFaults s v
    ++ (List.range 8).flatMap (portFaults v)

/-- The payload offset of the lowest failing field of an inadmissible payload. -/
def inadmissible (s : State) (v : Nat) : Option Nat := lowest (payFaults s v)

/-- A payload with its partition entries taken from another for some partitions (R460). -/
def mixPayload (base other : Nat) (fromOther : Nat → Bool) : Nat :=
  (List.range 24).foldl (fun v n =>
    if fromOther n then v - sh (bits base (8 * partOff n) 256) (8 * partOff n) + sh (bits other (8 * partOff n) 256) (8 * partOff n)
    else v) base

/-! ## Changed partitions (R461) -/

/-- Does partition n change between two payloads: its shape, range, leaves or validity, or a role in its rectangle? -/
def changedPart (a b n : Nat) : Bool :=
  let o := partOff n
  bits a (8 * o) 128 != bits b (8 * o) 128 || entryValid a n != entryValid b n
    || (List.range 100).any fun k => (entryCovers a n k || entryCovers b n k) && roleOf a k != roleOf b k

/-- The payload of an Armature. -/
def payOf (a : Option Image) : Nat :=
  match a with
  | some i => i.payload
  | none => 0

/-- Does a changed partition among these hold a defined context? -/
def changedInUse (s : State) (ps : List Nat) (target : Option Image) : Bool :=
  ps.any fun p => changedPart (payOf (armRun s p)) (payOf target) p && !(ctxsOf s p).isEmpty

/-! ## Settings that follow an Armature -/

/-- The device-wide settings of the current Armature (R459, R460). -/
def deviceWide (s : State) : State :=
  let a := armCur s
  let s := { s with pkg := { s.pkg with
    powerLimit := BitVec.ofNat 16 (payField a 4 0 16), rateCap := payField a 6 1 5 } }
  forAll (List.range 8) (fun p t => t.modPort2 p fun x => { x with
    expPort := payField a (portOff p + 1) 0 8, expSerial := BitVec.ofNat 64 (payField a (portOff p + 8) 0 64) }) s

/-- The entry of partition n as the Armature gives it (R454). -/
def partFrom (a : Option Image) (n : Nat) : Part :=
  let o := partOff n
  let v := payOf a
  if entryValid v n then
    { defd := true, x0 := pf v o 0 8, y0 := pf v (o + 1) 0 8, w := pf v (o + 2) 0 8, h := pf v (o + 3) 0 8,
      hbmBase := pf v (o + 4) 0 19, hbmUnits := pf v (o + 8) 0 19, leaves := pf v (o + 0xC) 0 24,
      owner := pf v (o + 0x18) 0 4, concInterval := pf v (o + 0x1C) 0 32,
      epoch := match a with
        | some i => i.epoch
        | none => 0,
      schedCtrl := w32 (pf v (o + 0x14) 0 32), kvReserve := BitVec.ofNat 24 (pf v (o + 0x10) 0 24),
      kvFreeMin := BitVec.ofNat 24 (pf v (o + 0xC) 0 24) }
  else
    { defd := false, x0 := 0, y0 := 0, w := 0, h := 0, hbmBase := 0, hbmUnits := 0, leaves := 0, owner := 0,
      concInterval := 0, epoch := 0, schedCtrl := 0, kvReserve := 0, kvFreeMin := 0 }

/-- A slab takes its role, unless a fact is recorded of it, and its control words (R461, R469). A spare that becomes ACTIVE
wakes (R23); `wake` is false in bring-up, whose memory is clear. -/
def refreshSlab (wake : Bool) (n : Nat) (s : State) : State :=
  let a := armOfPos s (posOf s n)
  let role := payField a (slabOff n) 0 8
  let s :=
    if (s.slab n).st = .active ∧ role = 2 then
      s.modSlab n fun x => { x with st := .spare, serves := 0xFF, coreOn := false }
    else if (s.slab n).st = .spare ∧ role = 1 then
      let s := s.modSlab n fun x => { x with st := .active, serves := n, coreOn := true }
      if wake then wakePos n n s else s
    else s
  if (s.slab n).st = .retired then s else applyWords n a s

/-- Slabs that take their words from the current Armature: in no partition, or idle spares. -/
def looseSlabs (s : State) : List Nat :=
  (List.range 100).filter fun n => (s.slab n).st == .spare || (partOf s (posOf s n)).isNone

/-! ## Operations (R459, R460, R477) -/

/-- Is an operation with this code waiting to start? -/
def armOp? (s : State) (op : Nat) : Bool := s.arm.busy && s.arm.cmdOp == op && !s.arm2.started

/-- An operation ends. -/
def armDone (result : Nat) (refuse : Nat) (s : State) : State :=
  armEvent 1 { s with
    arm := { s.arm with busy := false, result := result, refuseOff := w32 refuse },
    arm2 := { s.arm2 with started := false, todo := [] } }

/-- A refusal other than 5 shows no offset. -/
def armRefuse (result : Nat) (s : State) : State := armDone result 0xFFFFFFFF s

/-- Partitions of `PMASK`. -/
def maskParts (s : State) : List Nat := (List.range 24).filter fun p => bit s.arm.cmdMask.toNat p

/-- Does `PMASK` name a partition that is not defined? -/
def maskBad (s : State) : Bool := (maskParts s).any fun p => !(s.part p).defd

/-- The operation is accepted: its partitions stop issue and switch one by one; with none to switch it ends. -/
def armStart (todo : List Nat) (s : State) : State :=
  let s := { s with arm2 := { s.arm2 with started := true, todo := todo } }
  if todo = [] then armDone 0 0xFFFFFFFF s else forAll todo (fun p t => addStop p .armSwitch t) s

/-- ARM_APPLY (R459). -/
def execArmApply (s : State) : Host.Outcome State Fault Refusal :=
  if armOp? s 1 then
    let cand := armOther s
    if s.arm.cmdMask ≠ 0 then .next (armRefuse 1 s)
    else if slotOk cand s.sec.armFloor = false then .next (armRefuse 2 s)
    else
      match cand with
      | none => .next (armRefuse 2 s)
      | some i =>
        let cur := match armCur s with
          | some x => x.epoch.toNat
          | none => 0
        if i.epoch.toNat ≤ cur then .next (armRefuse 3 s)
        else
          match inadmissible s i.payload with
          | some o => .next (armDone 5 o s)
          | none =>
            if changedInUse s (List.range 24) cand then .next (armRefuse 4 s)
            else
              let todo := (List.range 24).filter fun p =>
                ((s.part p).defd || entryValid i.payload p) && !revertedPart s p
              let s := { s with
                arm := { s.arm with curB := !s.arm.curB, prevValid := true, reverted := 0 },
                sec := { s.sec with
                  armFloor := if s.sec.armFloor.toNat < i.svn.toNat then i.svn else s.sec.armFloor,
                  fwFloor := w32 (max s.sec.fwFloor.toNat (pf i.payload 8 0 32)) } }
              let s := logFact 8 0xFF 0xFF 0 i.epoch.toNat (armStart todo (deviceWide s))
              .next (forAll (looseSlabs s) (refreshSlab true) s)
  else .next s

/-- What REVERT and RETURN check last, and their start (R460). -/
def armMove (target : Option Image) (todo : List Nat) (s : State) : State :=
  let mixed := mixPayload (payOf (armCur s)) (payOf (armPrev s)) fun n =>
    if todo.contains n then !revertedPart s n else revertedPart s n
  match inadmissible s mixed with
  | some o => armDone 5 o s
  | none => if changedInUse s todo target then armRefuse 4 s else armStart todo s

/-- The power limit of the current Armature (R33, R460). -/
def restoreLimit (s : State) : State :=
  { s with pkg := { s.pkg with powerLimit := BitVec.ofNat 16 (payField (armCur s) 4 0 16) } }

/-- ARM_REVERT (R460): the named partitions move to the previous Armature. -/
def execArmRevert (s : State) : Host.Outcome State Fault Refusal :=
  if armOp? s 2 then
    if maskBad s then .next (armRefuse 1 s)
    else if (armPrev s).isNone then .next (armRefuse 6 s)
    else if slotOk (armPrev s) s.sec.armFloor = false then .next (armRefuse 7 s)
    else
      let t := armMove (armPrev s) ((maskParts s).filter fun p => !revertedPart s p) s
      if t.arm.result = 0 ∨ t.arm.busy then .next (restoreLimit t) else .next t
  else .next s

/-- ARM_RETURN (R460): the named partitions move back to the current Armature. -/
def execArmReturn (s : State) : Host.Outcome State Fault Refusal :=
  if armOp? s 3 then
    if maskBad s then .next (armRefuse 1 s)
    else .next (armMove (armCur s) ((maskParts s).filter (revertedPart s)) s)
  else .next s

/-- ARM_CHECK (R477): one exchange in each named partition. -/
def execArmCheck (s : State) : Host.Outcome State Fault Refusal :=
  if armOp? s 4 then
    if maskBad s then .next (armRefuse 1 s)
    else
      let ps := maskParts s
      let s := { s with arm2 := { s.arm2 with started := true, todo := ps } }
      .next (if ps = [] then armDone 0 0xFFFFFFFF s else forAll ps startExch s)
  else .next s

/-! ## Switching a partition (R462) -/

/-- The Armature that a partition of the running operation moves to. -/
def switchTarget (s : State) : Option Image := if s.arm.cmdOp = 2 then armPrev s else armCur s

/-- A changed partition is set up afresh; its counters and events stay (R148). -/
def freshPart2 (x : Part2) : Part2 :=
  { x with
    leafTab := [], subst := [], unbacked := false, slice := none, sliceLast := 0, rrLc := 0, rrBe := 0, sinceExch := 0, exch := none }

/-- Slabs that a partition's switch reaches: of its rectangle before and after, and spares that serve there. -/
def switchSlabs (s : State) (old new : Part) : List Nat :=
  (List.range 100).filter fun n => old.covers (posOf s n) || new.covers (posOf s n)

/-- Has every defined partition moved to the previous Armature? -/
def allReverted (s : State) : Bool := (List.range 24).all fun p => !(s.part p).defd || revertedPart s p

/-- After a full revert the slots exchange their roles (R460), and POWER_LIMIT is restored once more (DESIGN CHOICE, log 55). -/
def exchangeSlots (s : State) : State :=
  if s.arm.cmdOp = 2 ∧ allReverted s then
    let s := deviceWide { s with arm := { s.arm with curB := !s.arm.curB, reverted := 0 } }
    forAll (looseSlabs s) (refreshSlab true) s
  else s

/-- Is a digest exchange running (R468)? -/
def exchRuns (s : State) : Bool := (List.range 24).any fun p => (s.part2 p).exch.isSome

/-- Steps 3 to 5 of R462 for a partition. -/
def switchPart (p : Nat) (s : State) : State :=
  let target := switchTarget s
  let changed := changedPart (payOf (armRun s p)) (payOf target) p
  let old := s.part p
  let new := partFrom target p
  let mask : BitVec 24 :=
    if s.arm.cmdOp = 2 then s.arm.reverted ||| BitVec.ofNat 24 (sh 1 p)
    else s.arm.reverted &&& ~~~(BitVec.ofNat 24 (sh 1 p))
  let s := { s with
    arm2 := { s.arm2 with todo := s.arm2.todo.filter (· != p) }, arm := { s.arm with reverted := mask } }
  let s := s.setPart p (if changed then new else { new with kvFreeMin := old.kvFreeMin })
  let s := if changed then s.modPart2 p freshPart2 else s
  let s := forAll (new.positions.filter fun n => bit s.pkc.slabOff.toNat n) powerOn s
  let s := forAll (switchSlabs s old new) (refreshSlab true) s
  let setEpoch (l : List (Nat × Word)) : List (Nat × Word) := if new.defd then aput l p new.epoch else adel l p
  let s := forAll (liveSlabs s) (fun n t => t.modSlab2 n fun x => { x with epochs := setEpoch x.epochs }) s
  let s := forAll (ctxsOf s p) (fun c t => forAll ((t.ctx c).jobs.map Prod.fst) (fun j u => failJob c j false u) t) s
  let s := armEvent 2 s
  let dws := [p, new.epoch.toNat, old.epoch.toNat]
  let fs := ((ctxsOf s p).map fun c => (s.ctx c).reg.func).eraseDups.filter (· != 0)
  let s := forAll fs (fun f t => post f 0x0112 0xFF 0xFFFF dws t) (post 0 0x0112 0xFF 0xFFFF dws s)
  let s := if s.arm.cmdOp = 2 then logFact 9 0xFF p 0 new.epoch.toNat s
    else if s.arm.cmdOp = 3 then logFact 10 0xFF p 0 new.epoch.toNat s else s
  if new.defd then startExch p s else dropStop p .armSwitch s

/-- PARTITION_SWITCH (R462): nothing issued of the partition is in flight and no exchange runs; `BUSY` ends with the last
partition. -/
def execPartitionSwitch (p : Nat) (s : State) : Host.Outcome State Fault Refusal :=
  if s.arm.busy && s.arm2.started && s.arm.cmdOp != 4 && s.arm2.todo.contains p && (openCmds s p).isEmpty && !exchRuns s then
    let s := switchPart p s
    .next (if s.arm2.todo = [] then armDone 0 0xFFFFFFFF (exchangeSlots s) else s)
  else .next s

/-! ## Digest exchanges (R465 to R467) -/

/-- DIGEST_REPLY_TIMEOUT (R466): a slab that has not replied in time disagrees. -/
def execDigestReplyTimeout (p slab : Nat) (s : State) : Host.Outcome State Fault Refusal :=
  match (s.part2 p).exch with
  | some e =>
    if e.waiting.contains slab then
      let e := { e with waiting := e.waiting.filter (· != slab), bad := e.bad ++ [slab] }
      .next (s.modPart2 p fun x => { x with exch := some e })
    else .next s
  | none => .next s

/-- An exchange ends for a CHECK (R477). -/
def checkEnds (p : Nat) (s : State) : State :=
  if s.arm.busy && s.arm2.started && s.arm.cmdOp == 4 && s.arm2.todo.contains p then
    let s := { s with arm2 := { s.arm2 with todo := s.arm2.todo.filter (· != p) } }
    if s.arm2.todo = [] then armDone 0 0xFFFFFFFF s else s
  else s

/-- Every slab agrees (R462 step 7, R467). -/
def exchAgrees (p : Nat) (repaired : Bool) (s : State) : State :=
  let s := dropStop p .discord (s.modPart2 p fun x => { x with exch := none })
  let s := if s.arm2.started && s.arm2.todo.contains p && s.arm.cmdOp != 4 then s else dropStop p .armSwitch s
  if repaired then armEvent 4 (logFact 11 0xFF p 0 (s.part p).epoch.toNat s) else s

/-- The slabs as a mask. -/
def slabMask (l : List Nat) : Nat := l.foldl (fun m n => if bit m n then m else m + sh 1 n) 0

/-- Some slabs disagree (R467, R474): raised, recorded, and issue stops. -/
def exchDiscord (p : Nat) (e : Exch) (bad : List Nat) (s : State) : State :=
  let m := slabMask bad
  let e := { e with waiting := [], bad := bad, judged := true }
  let s := s.modPart2 p fun x => { x with concDiscords := x.concDiscords + 1, exch := some e }
  let s := { s with arm2 := { s.arm2 with discordPart := p, discord := BitVec.ofNat 128 m } }
  let s := armEvent 8 s
  let s := post 0 0x0110 0xFF 0xFFFF [bits m 0 32, bits m 32 32, bits m 64 32, bits m 96 32 + sh p 24] s
  addStop p .discord s

/-- DIGEST_EXCHANGE (R466): the replies are in; a slab whose epoch table differs disagrees, as does one that timed out. -/
def execDigestExchange (p : Nat) (s : State) : Host.Outcome State Fault Refusal :=
  if !s.live then .next s else
  match (s.part2 p).exch with
  | some e =>
    if e.judged then .next s
    else
      let stale := e.waiting.filter fun n =>
        (s.slab n).st != .retired && (aget (s.slab2 n).epochs p).getD 0 != (s.part p).epoch
      let bad := (e.bad.filter fun n => (s.slab n).st != .retired) ++ stale
      let s := s.modPart2 p fun x => { x with concCount := x.concCount + 1 }
      .next (checkEnds p (if bad = [] then exchAgrees p (decide (1 < e.attempt)) s else exchDiscord p e bad s))
  | none => .next s

/-- The sequencer sends the partition's configuration again to slabs that disagree (R467). -/
def resendEpoch (p : Nat) (bad : List Nat) (s : State) : State :=
  forAll bad (fun n t => t.modSlab2 n fun x => { x with epochs := aput x.epochs p (t.part p).epoch }) s

/-- DISCORD_REPAIR (R467): with nothing issued in flight, the configuration is sent again and the exchange repeated, up to
three in all; then each slab that still disagrees retires as planned, and issue resumes. -/
def execDiscordRepair (p : Nat) (s : State) : Host.Outcome State Fault Refusal :=
  match (s.part2 p).exch with
  | some e =>
    if e.judged && (openCmds s p).isEmpty then
      if e.attempt < 3 then
        let e' : Exch := { waiting := liveSlabs s, bad := [], attempt := e.attempt + 1, judged := false }
        .next ((resendEpoch p e.bad s).modPart2 p fun x => { x with exch := some e' })
      else
        let s := forAll e.bad (fun n t => fullRetire n true 0 t) s
        .next (exchAgrees p false s)
    else .next s
  | none => .next s

end Sys2Proof.Machine
end

