-- ==== Sys2Proof/Machine/Infusion.lean ====
section
/-! DEFINITION. Infusion, the fused attention command (R209 to R220): its operands, checks at issue, staging need and
result. -/

namespace Sys2Proof.Machine

open Sys2Proof

/-! ## Fields and operands (R209, R210) -/

def Cmd.ifCaddy (m : Cmd) : Bool := m.fb 0x1B 7 1 == 1
def Cmd.ifCausal (m : Cmd) : Bool := m.fb 0x1B 6 1 == 1
def Cmd.ifSr (m : Cmd) : Bool := m.fb 0x1B 5 1 == 1
def Cmd.ifForm (m : Cmd) : Nat := m.fb 0x1B 0 4
def Cmd.ifTq (m : Cmd) : Nat := m.f 0x1C 8
def Cmd.ifTp (m : Cmd) : Nat := m.f 0x1D 8
def Cmd.ifKs (m : Cmd) : Nat := 2 ^ m.fb 0x1E 0 3
def Cmd.ifKvh (m : Cmd) : Nat := m.f 0x1A 8
def Cmd.ifSid (m : Cmd) : Nat := m.f 0x2C 32

/-- What an Infusion reads and writes: queries, keys and values as descriptors, output, staging, and the sequence. -/
structure Ix where
  qo : Opd
  k : Opd
  v : Opd
  d : Opd
  st : Opd
  seq : Option KvSeq
deriving DecidableEq, Repr

def mkIx (m : Cmd) (look reg : Nat → Opd) (seq : Option KvSeq) : Ix :=
  { qo := look (m.f 0x10 16), k := look (m.f 0x12 16), v := look (m.f 0x14 16), d := look (m.f 0x16 16),
    st := reg (m.f 0x18 16), seq := seq }

def ixAt (s : State) (c : Nat) (m : Cmd) : Ix :=
  mkIx m (opdH s c) (fun r => opdOf s c (regionBlob r)) (if m.ifCaddy then getSeq s c (m.f 0x12 16) else none)
def ixOf (s : State) (c : Nat) (m : Cmd) : Ix :=
  mkIx m (m.opd s c) (fun r => mkOpd s c m.bound.regs (regionBlob r))
    (if m.ifCaddy then getSeq s c (m.f 0x12 16) else none)

def Ix.mq (x : Ix) : Nat := x.qo.size 1
def Ix.dim (x : Ix) : Nat := x.qo.size 0

/-- Nk (R210). -/
def Ix.nk (x : Ix) (m : Cmd) : Nat :=
  match x.seq with
  | some q => if m.f 0x38 32 = 0 then q.len else m.f 0x38 32
  | none => if m.ifCaddy then 0 else x.k.size 1

/-- Type bytes of keys and values. -/
def Ix.tk (x : Ix) : Nat := match x.seq with | some q => if q.kfmt = 1 then 7 else 6 | none => dDtype x.k.raw
def Ix.tv (x : Ix) : Nat := match x.seq with | some q => if q.kfmt = 1 then 7 else 6 | none => dDtype x.v.raw

/-- `BIDX` of an operand. -/
def Cmd.ifUp (m : Cmd) (o : Opd) : List Nat := (batchCoords o.sizes (m.f 0x28 32)).getD []

/-! ## Shares (R216) -/

/-- A tile's share: its token part and its key parts. -/
structure IShare where
  g : Nat
  t0 : Nat
  tn : Nat
  p0 : Nat
  pn : Nat
deriving DecidableEq, Repr

def ixShares (x : Ix) (ks : Nat) : List IShare :=
  let w := x.st.tiles
  let gm := min (cdiv x.mq 128) w.length
  let gn := min ks (w.length / max 1 gm)
  ((List.range w.length).filterMap fun i =>
    if i < gm * gn then
      let (t0, tn) := partRange x.mq gm (i % gm)
      let (p0, pn) := cutPart ks gn (i / gm)
      some { g := w.getD i 0, t0 := t0, tn := tn, p0 := p0, pn := pn : IShare }
    else none).filter fun h => decide (0 < h.tn ∧ 0 < h.pn)

/-- Key blocks of a part: first block and number. -/
def keyPart (nk ks i : Nat) : Nat × Nat := cutPart (cdiv nk 128) ks i

/-! ## Forms and staging need (R217, R218) -/

def ixKw (p f : Nat) : Nat := max 1 (128 * p * formS f)

/-- Staging need per tile (R218). -/
def ixNeed (x : Ix) (m : Cmd) (f : Nat) : Nat :=
  let pq := rateOf m.ifTq x.tk
  let pp := rateOf m.ifTp x.tv
  let nb := cdiv x.dim (ixKw pq f)
  let rb (p t : Nat) := rowBytes (sliceBytes p (fmtWidth (tyFmt t))) p false
  let wb (p t : Nat) := wordBytes (sliceBytes p (fmtWidth (tyFmt t))) p (formS f) false
  ceil2k (nb * 128 * rb pq m.ifTq) + 2 * ceil2k (nb * 128 * wb pq x.tk) + 2 * ceil2k (x.dim * wb pp x.tv)
    + 2 * ceil2k (128 * rb pp m.ifTp)

/-- Steps of a slot's program up to END; 7 for the shipped slot 0 (R217). -/
def slotSteps (b : SlotBank) : Nat :=
  if b.shipped then 7 else (b.prog.takeWhile fun w => bits w.toNat 60 4 != 0).length

/-- The estimate that takes the place of `est` (R217), scaled as R60 scales a stream that R51 cannot feed. -/
def ixEst (x : Ix) (m : Cmd) (c0 rows keys f : Nat) : Nat :=
  let pq := rateOf m.ifTq x.tk
  let arr := 128 * cdiv x.dim (ixKw pq f) + max x.dim 128
  let wb := wordBytes (sliceBytes pq (fmtWidth (tyFmt x.tk))) pq (formS f) false
  let r16 := max 1 (min 16 (16 * 2048 * x.st.nb / max 1 wb))
  let one (r : Nat) := max (arr * 16 / r16) (cdiv (r * (128 * (6 + c0) + x.dim + 10)) 256)
  cdiv keys 128 * (((List.range (cdiv rows (formT f))).map fun i => one (min (formT f) (rows - i * formT f))).sum)

/-- The form of a share: the pinned one, or the best of those that fit. -/
def ixForm (s : State) (c : Nat) (x : Ix) (m : Cmd) (h : IShare) (bounded : Bool) : Option Nat :=
  let c0 := slotSteps ((slotsAt s h.g (activeSlots s c)).getD 0 .empty)
  let fs := (if m.ifForm = 0 then [1, 2, 3] else [m.ifForm]).filter fun f =>
    !bounded || decide (ixNeed x m f ≤ x.st.reg.len * x.st.banks.length)
  fs.foldl (fun b f =>
    match b with
    | none => some f
    | some g => some (if ixEst x m c0 h.tn (x.nk m) f < ixEst x m c0 h.tn (x.nk m) g then f else g)) none

def chkIxCapacity (s : State) (c : Nat) (x : Ix) (m : Cmd) : Option Ref :=
  (ixShares x m.ifKs).findSome? fun h =>
    match ixForm s c x m h true with
    | some _ => none
    | none =>
      let f := (ixForm s c x m h false).getD 1
      some { st := .capacity, dw := [2, h.g, ixNeed x m f, x.st.reg.len * x.st.banks.length] }

/-! ## Accesses -/

/-- The accesses of each share: its queries and the keys and values of its key parts alone (R216, R546). -/
def ixAccs (x : Ix) (m : Cmd) : List BankAcc :=
  let hs := ixShares x m.ifKs
  hs.flatMap (fun h =>
    x.qo.accsIn h.t0 h.tn .dma false h.g
      ++ (if m.ifCaddy then [] else (List.range h.pn).flatMap fun i =>
        let (b0, bn) := keyPart (x.nk m) m.ifKs (h.p0 + i)
        let n := min (x.nk m) (128 * (b0 + bn)) - 128 * b0
        x.k.accsIn (128 * b0) n .dma false h.g ++ x.v.accsIn (128 * b0) n .dma false h.g)
      ++ x.st.stageAccs h.g)
    ++ (hs.filter fun h => h.p0 == 0).flatMap fun h => x.d.accsIn h.t0 h.tn .vector true h.g

/-! ## Checks at issue (R220) -/

def checkInfusion (s : State) (c : Nat) (m : Cmd) : Verdict :=
  let v := m.entry.toNat
  let hq := m.f 0x10 16
  let hk := m.f 0x12 16
  let hv := m.f 0x14 16
  let hd := m.f 0x16 16
  let rid := m.f 0x18 16
  let cad := m.ifCaddy
  let x := ixAt s c m
  let d := x.dim
  let cg := m.f 0x30 32
  let tau := dec32 (m.f 0x20 32)
  let fmtOk (t : Nat) : Bool := tyOk t && decide (1 ≤ tyFmt t ∧ tyFmt t ≤ 8)
  let bad (o : Opd) : Bool := (batchCoords o.sizes (m.f 0x28 32)).isNone
  let ov (p : Opd) : Bool := dOverlap x.d.raw p.raw x.d.nb p.nb
  let h := ((x.seq.map KvSeq.h).getD 0)
  let len := ((x.seq.map KvSeq.len).getD 0)
  let stBad := match getRegion s c rid with
    | none => true
    | some r => r.space != .bank || r.model.isSome || r.claimed
  verdictE
    [chk .cmd (bodyResv m [(0x3C, 0x40)] ++
       [(badHandle hq false, 0x10), (if cad then badSeq hk else badHandle hk false, 0x12),
        (if cad then hv != 0xFFFF else badHandle hv false, 0x14), (badHandle hd false, 0x16),
        (decide (1024 ≤ rid ∧ rid ≠ 0xFFFF), 0x18), (!cad && m.ifKvh != 0, 0x1A),
        (m.fb 0x1B 4 1 != 0 || decide (6 ≤ m.ifForm), 0x1B), resvBits v 0x1E 3 5, (decide (4 < m.fb 0x1E 0 3), 0x1E),
        ((m.ifSid != 0 && !m.ifSr) || (cg != 0) != m.ifCausal || (m.f 0x34 32 != 0 && !m.ifCausal)
          || (!cad && m.f 0x38 32 != 0), 0x1B),
        (decide (2 ^ 24 < cg), 0x30)]),
     chk .desc [(notLinear s c hq [0], 0x10), (!cad && notLinear s c hk [0], 0x12), (!cad && notLinear s c hv [0], 0x14),
       (badDest s c hd [0], 0x16), (stBad, 0x18)],
     if cad then chkSeq s c hk else none,
     chkOwner s c (ixAccs x m),
     chk .format [(!cad && !fmtOk x.tk, 0x12), (!cad && !fmtOk x.tv, 0x14), (decide (4 < dDtype x.d.raw), 0x16),
       (!fmtOk m.ifTq || m.ifTq != dDtype x.qo.raw, 0x1C), (!(decide (1 ≤ m.ifTp ∧ m.ifTp ≤ 3)), 0x1D),
       (tau.isNan || tau.isInf, 0x20)]]
    (x.mq == 0)
    [chk .shape [(!(d == 64 || d == 128) || decide (2 ^ 32 < m.f 0x24 32 + x.mq), 0x10),
       (match x.seq with | some q => q.d != d | none => x.k.size 0 != d, 0x12),
       (!cad && (x.v.size 0 != d || x.v.size 1 != x.k.size 1), 0x14),
       (x.d.size 0 != d || !x.d.covers x.mq, 0x16), (cad && decide (h ≤ m.ifKvh), 0x1A),
       (cad && decide (len < m.f 0x38 32), 0x38),
       (bad x.qo || bad x.d || (!cad && (bad x.k || bad x.v)), 0x28)],
     chk .overlap [(ov x.qo, 0x10), (!cad && ov x.k, 0x12), (!cad && ov x.v, 0x14)],
     chk .form [(decide (4 ≤ m.ifForm), 0x1B)],
     chkIxCapacity s c x m,
     if m.ifSr then chkStream s c m.ifSid 0x2C else none]
    { (mkBound s c (if cad then [hq, hd] else [hq, hk, hv, hd])
        (x.qo.feet false ++ x.d.feet true
          ++ (if cad then seqFeet s c hk false else x.k.feet false ++ x.v.feet false)
          ++ [{ rid := rid, reg := x.st.reg, lo := 0, hi := (x.st.reg.len : Int) - 1, wr := true }])) with
      forms := (ixShares x m.ifKs).map fun h => (h.g, (ixForm s c x m h true).getD 1) }

/-! ## Keys and values -/

/-- The leaf and slot of a key of the command's head. -/
def ixLeaf (s : State) (c : Nat) (m : Cmd) (q : KvSeq) (n : Nat) : Nat × Nat :=
  ((seqLeaf s c q m.ifKvh (n / q.tl)).getD 0, n % q.tl)

/-- The bits of element i of key (or value) n. -/
def ixKvRaw (s : State) (c : Nat) (m : Cmd) (x : Ix) (value : Bool) (n i : Nat) : Nat :=
  match x.seq with
  | some q =>
    let (l, t) := ixLeaf s c m q n
    let da := rowDa (s.part (s.ctx c).reg.part) q l t value
    if q.kfmt = 1 then planeBits 4 (i % 2) (ofBytes (hbmRead s (da + i / 2) 1)) else ofBytes (hbmRead s (da + i) 1)
  | none => let o := if value then x.v else x.k
    o.rawAt s (i :: n :: m.ifUp o)

/-- Element i of key (or value) n. -/
def ixKv (s : State) (c : Nat) (m : Cmd) (x : Ix) (value : Bool) (n i : Nat) : El :=
  elOf (if value then x.tv else x.tk) (ixKvRaw s c m x value n i) 0

/-- The scale of key (or value) n. -/
def ixScale (s : State) (c : Nat) (m : Cmd) (x : Ix) (value : Bool) (n : Nat) : Num :=
  match x.seq with
  | some q =>
    let (l, t) := ixLeaf s c m q n
    fp16.decode (ofBytes (hbmRead s (scaleDa (s.part (s.ctx c).reg.part) l t value) 2))
  | none => .ofInt 1

/-- Visibility (R211). -/
def ixVisible (m : Cmd) (row n : Nat) : Bool :=
  let p := m.f 0x24 32 + row
  let cg := m.f 0x30 32
  (!m.ifCausal || decide (n / cg ≤ p / cg)) && (m.f 0x34 32 == 0 || decide (p < n + m.f 0x34 32))

/-! ## A row (R212 to R214) -/

/-- State of a row within a part. -/
structure AttSt where
  mx : Num
  l : Num
  o : List Num
deriving DecidableEq, Repr

def AttSt.start (d : Nat) : AttSt := { mx := .inf true, l := .zero, o := List.replicate d .zero }

/-- Largest of a list under R150, from −∞. -/
def maxAll (xs : List Num) : Num := xs.foldl vMax (.inf true)

/-- The keys of a key block. -/
def blockKeys (nk j : Nat) : List Nat := (List.range (min 128 (nk - 128 * j))).map fun i => 128 * j + i

/-- The scores of a row against keys, with what each product raised (R212 steps 1 and 2). -/
def attScores (s : State) (c : Nat) (m : Cmd) (x : Ix) (row : Nat) (qe : List El) (ns : List Nat) : List (Num × Tally) :=
  ns.map fun n =>
    let r := lane (windowBits m.ifTq x.tk) (.f .zero)
      (groupsOf x.dim fun i => (qe.getD i El.zero, ixKv s c m x false n i))
    let acc := match r.1 with | .f v => v | .i v => .ofInt v
    (if ixVisible m row n then rnd32 ((acc.mul (ixScale s c m x false n)).mul (dec32 (m.f 0x20 32))) else .inf true, r.2)

/-- The weight of each key under a row maximum: +0 where it is masked. -/
def attExps (e0 : Num → Num) (ss : List Num) (mn : Num) : List Num :=
  ss.map fun v => if v == .inf true then .zero else e0 (fsub v mn)

/-- The probabilities' bits, in the type of `TYPE_P`: zero for a masked key. -/
def attProbs (s : State) (c : Nat) (m : Cmd) (x : Ix) (row : Nat) (ns : List Nat) (es : List Num) : List Nat :=
  (ns.zip es).map fun (n, e) =>
    if ixVisible m row n then ((fmtF (tyFmt m.ifTp)).convert .ne (fmul e (ixScale s c m x true n))).bits else 0

/-- One key block for a row (R212). -/
def attBlock (s : State) (c : Nat) (m : Cmd) (x : Ix) (e0 : Num → Num) (row : Nat) (qe : List El) (nk j : Nat)
    (st : AttSt × Tally) : AttSt × Tally :=
  let ns := blockKeys nk j
  let sc := attScores s c m x row qe ns
  let t := sc.foldl (fun a r => a.add r.2) st.2
  let ss := sc.map Prod.fst
  let mb := maxAll ss
  if mb == .inf true then (st.1, t)
  else
    let mn := vMax st.1.mx mb
    let a := if st.1.mx.eqv mn then .ofInt 1 else e0 (fsub st.1.mx mn)
    let es := attExps e0 ss mn
    let l := ffma st.1.l a (rnd32 (es.foldl Num.add .zero))
    let ps := (attProbs s c m x row ns es).map fun p => elOf m.ifTp p 0
    let cs := (List.range x.dim).map fun i =>
      lane (windowBits m.ifTp x.tv) (.f .zero)
        (groupsOf ns.length fun k =>
          (ps.getD k El.zero,
            if ixVisible m row (ns.getD k 0) then ixKv s c m x true (ns.getD k 0) i else El.zero))
    let t := cs.foldl (fun a r => a.add r.2) t
    let o := (st.1.o.zip cs).map fun (v, r) => ffma v a (match r.1 with | .f w => w | .i w => .ofInt w)
    ({ mx := mn, l := l, o := o }, t)

/-- Merge of two parts (R213). -/
def attMerge (e0 : Num → Num) (a b : AttSt) : AttSt :=
  let mx := vMax a.mx b.mx
  if mx == .inf true then a
  else
    let aa := if a.mx.eqv mx then .ofInt 1 else e0 (fsub a.mx mx)
    let ab := if b.mx.eqv mx then .ofInt 1 else e0 (fsub b.mx mx)
    { mx := mx, l := ffma a.l aa (fmul b.l ab), o := (a.o.zip b.o).map fun (p, q) => ffma p aa (fmul q ab) }

/-- Exponential of slot 0 on the slab of a tile. -/
def ixExp (s : State) (m : Cmd) (g : Nat) : Num → Num :=
  slotFn ((slotsAt s g m.bound.slots).getD 0 .empty) 0

/-- The tile that computes a part of a row. -/
def ixTile (hs : List IShare) (row part : Nat) : Nat :=
  ((hs.find? fun h => decide (h.t0 ≤ row ∧ row < h.t0 + h.tn ∧ h.p0 ≤ part ∧ part < h.p0 + h.pn)).map IShare.g).getD 0

/-- The elements of a query row. -/
def ixQuery (s : State) (m : Cmd) (x : Ix) (row : Nat) : List El :=
  (List.range x.dim).map fun i => x.qo.elAt s (i :: row :: m.ifUp x.qo)

/-- State of a row after the first n key blocks of a part. -/
def attPart (s : State) (c : Nat) (m : Cmd) (x : Ix) (row part n : Nat) : AttSt × Tally :=
  let nk := x.nk m
  let e0 := ixExp s m (ixTile (ixShares x m.ifKs) row part)
  (List.range n).foldl (fun st j => attBlock s c m x e0 row (ixQuery s m x row) nk ((keyPart nk m.ifKs part).1 + j) st)
    (AttSt.start x.dim, Tally.zero)

/-- The bits of probability k of a row in key block `jj` of a part, as the vector engine stages it (R210, R212). -/
def ixProbRaw (s : State) (c : Nat) (m : Cmd) (x : Ix) (row part jj k : Nat) : Nat :=
  let nk := x.nk m
  let ns := blockKeys nk ((keyPart nk m.ifKs part).1 + jj)
  let ss := (attScores s c m x row (ixQuery s m x row) ns).map Prod.fst
  let mb := maxAll ss
  let mn := vMax (attPart s c m x row part jj).1.mx mb
  if mb == .inf true then 0
  else (attProbs s c m x row ns (attExps (ixExp s m (ixTile (ixShares x m.ifKs) row part)) ss mn)).getD k 0

/-- A row's output, whether it was fully masked, and its tally. -/
def attRow (s : State) (c : Nat) (m : Cmd) (x : Ix) (row : Nat) : List Num × Bool × Tally :=
  let parts := (List.range m.ifKs).map fun i => attPart s c m x row i (keyPart (x.nk m) m.ifKs i).2
  let t := parts.foldl (fun a r => a.add r.2) Tally.zero
  let e0 := ixExp s m (ixTile (ixShares x m.ifKs) row 0)
  let st := match parts.map Prod.fst with
    | [] => AttSt.start x.dim
    | p :: ps => ps.foldl (attMerge e0) p
  if st.l.isZero then (List.replicate x.dim .zero, true, t) else (st.o.map fun o => fdiv o st.l, false, t)

/-- Cells that an Infusion reads. -/
def ixReads (s : State) (c : Nat) (m : Cmd) (x : Ix) : List CellAt :=
  let ns := List.range (x.nk m)
  let p := s.part (s.ctx c).reg.part
  let grid (o : Opd) (js : List Nat) : List (List Nat) :=
    js.flatMap fun j => (List.range x.dim).map fun i => i :: j :: m.ifUp o
  x.qo.readCells (grid x.qo (List.range x.mq)) ++
    match x.seq with
    | some q => tableCells s c q ++ ns.flatMap fun n =>
        let (l, t) := ixLeaf s c m q n
        [false, true].flatMap fun vv => hbmRun (rowDa p q l t vv) q.kb ++ hbmRun (scaleDa p l t vv) 2
    | none => x.k.readCells (grid x.k ns) ++ x.v.readCells (grid x.v ns)

/-- The walks of a command's shares: each tile's slab looks up each leaf block of its parts in ascending order. -/
def ixWalks (c : Nat) (m : Cmd) (x : Ix) (s : State) : State :=
  match x.seq with
  | none => s
  | some q =>
    forAll (ixShares x m.ifKs) (fun h t =>
      let blocks := ((List.range h.pn).flatMap fun i =>
        let (b0, bn) := keyPart (x.nk m) m.ifKs (h.p0 + i)
        (List.range bn).map fun j => 128 * (b0 + j) / q.tl).eraseDups
      forAll blocks (fun b u => labWalk (bankSlab u h.g) c (m.f 0x12 16) q m.ifKvh b u) t) s

/-- The work of INFUSION (R209 to R219). -/
def infusionWork (s : State) (c : Nat) (m : Cmd) : Work :=
  let x := ixOf s c m
  let rows := (List.range x.mq).map fun r => (r, attRow s c m x r)
  let ud := m.ifUp x.d
  let st := rows.foldl (fun acc (r, ys) =>
    let rs := (List.range x.dim).map fun i => m.rnd m.ifSr m.ifSid (linIndex x.d.sizes (i :: r :: ud))
    acc.append (x.d.storeRow (0 :: r :: ud) rs ys.1)) Stored.empty
  let masked := (rows.filter fun r => r.2.2.1).length
  let t := rows.foldl (fun a r => a.add r.2.2.2) st.tally
  { rd := ixReads s c m x, wrs := st.wrs, accs := ixAccs x m, dw := [masked], t := t, free := 0 }

/-- INFUSION (R209 to R219). -/
def execInfusion (c q : Nat) (s : State) : Host.Outcome State Fault Refusal :=
  match ready? s c q 0x11 with
  | none => .next s
  | some m => .next ((infusionWork s c m).run c q (ixWalks c m (ixOf s c m)) s)

end Sys2Proof.Machine
end

