-- ==== Sys2Proof/Machine/Conv.lean ====
section
/-! DEFINITION. Convolution (R225 to R242): image operands and padding, layers on the array and on the vector engine,
fused plans, the checks at issue and the result. -/

namespace Sys2Proof.Machine

open Sys2Proof

/-! ## Layers of a plan (R231) -/

/-- A layer entry with its filter and chain. -/
structure Layer where
  raw : Nat
  f : Opd
  ch : Option Chain
deriving DecidableEq, Repr

def Layer.fl (l : Layer) (off w : Nat) : Nat := fld0 l.raw off w
def Layer.kh (l : Layer) : Nat := fld l.raw 6 0 4 + 1
def Layer.kw (l : Layer) : Nat := fld l.raw 6 4 4 + 1
def Layer.sh (l : Layer) : Nat := fld l.raw 7 0 4 + 1
def Layer.sw (l : Layer) : Nat := fld l.raw 7 4 4 + 1
def Layer.dh (l : Layer) : Nat := l.fl 8 8
def Layer.dw (l : Layer) : Nat := l.fl 9 8
def Layer.pt (l : Layer) : Nat := l.fl 0xA 8
def Layer.pb (l : Layer) : Nat := l.fl 0xB 8
def Layer.pl (l : Layer) : Nat := l.fl 0xC 8
def Layer.pr (l : Layer) : Nat := l.fl 0xD 8
def Layer.acc (l : Layer) : Nat := fld l.raw 0xE 14 2
def Layer.ipad (l : Layer) : Bool := fld l.raw 0xE 12 1 == 1
def Layer.g (l : Layer) : Nat := max 1 (fld l.raw 0xE 0 12)
def Layer.tw (l : Layer) : Nat := l.fl 4 8
def Layer.to (l : Layer) : Nat := l.fl 5 8
def Layer.cv (l : Layer) : Nat := ((l.ch.map Chain.raw).getD 0).toNat

/-- Output rows or columns of R226, rounded toward minus infinity. -/
def convExt (n p0 p1 d k st : Nat) : Int := ((n + p0 + p1 : Int) - d * (k - 1 : Int) - 1) / (st : Int) + 1

def Layer.ho (l : Layer) (h : Nat) : Int := convExt h l.pt l.pb l.dh l.kh l.sh
def Layer.wo (l : Layer) (w : Nat) : Int := convExt w l.pl l.pr l.dw l.kw l.sw

/-- Columns of the filter as the layer's Cout (R231). -/
def Layer.cout (l : Layer) : Nat := dSize l.f.raw 1

/-! ## Operands of a CONV -/

structure Cx where
  x : Opd
  d : Opd
  ci : Opd
  st : Opd
  ls : List Layer
deriving DecidableEq, Repr

def Cmd.cvSr (m : Cmd) : Bool := m.fb 0x26 7 1 == 1
def Cmd.cvEdge (m : Cmd) : Bool := m.fb 0x26 6 1 == 1
def Cmd.cvAccIn (m : Cmd) : Bool := m.fb 0x26 5 1 == 1
def Cmd.cvRaw (m : Cmd) : Bool := m.fb 0x26 4 1 == 1
def Cmd.cvForm (m : Cmd) : Nat := m.fb 0x26 0 4
def Cmd.cvSid (m : Cmd) : Nat := m.f 0x1C 32
def Cmd.cvBidx (m : Cmd) : Nat := m.f 0x18 32

/-- The plan a handle names. -/
def planOf (o : Option Obj) : Option (Blob × List (Nat × Blob) × List (Nat × Chain)) :=
  match o with
  | some (.plan r ds cs) => some (r, ds, cs)
  | _ => none

def mkCx (s : State) (c : Nat) (regs : List (Nat × Region)) (m : Cmd) (look reg : Nat → Opd) (o : Option Obj) : Cx :=
  let (raw, ds, cs) := (planOf o).getD (0, [], [])
  { x := look (m.f 0x10 16), d := look (m.f 0x14 16), ci := look (m.f 0x28 16), st := reg (m.f 0x16 16),
    ls := (List.range (plLayers raw.toNat)).map fun l =>
      { raw := bits raw.toNat (8 * layOff l) 192, f := mkOpd s c regs ((aget ds l).getD 0), ch := aget cs l } }

def cxAt (s : State) (c : Nat) (m : Cmd) : Cx :=
  mkCx s c (s.ctx c).regions m (opdH s c) (fun r => opdOf s c (regionBlob r)) (handleObj s c (m.f 0x12 16))
def cxOf (s : State) (c : Nat) (m : Cmd) : Cx :=
  mkCx s c m.bound.regs m (m.opd s c) (fun r => mkOpd s c m.bound.regs (regionBlob r)) (m.obj (m.f 0x12 16))

/-- Image extents: channels, columns, rows (R225). -/
def Opd.imgC (o : Opd) : Nat := o.size 0
def Opd.imgW (o : Opd) : Nat := o.size 1
def Opd.imgH (o : Opd) : Nat := o.size 2

/-- Dimensions 3 and up of an image under a member index (R123, R225). -/
def imgUp (o : Opd) (b : Nat) : Option (List Nat) :=
  let up := o.sizes.drop 3
  if up = [] then some [] else if up.any (· == 0) then none else if sizeProd up ≤ b then none else some (unIndex up b)

/-- Output extents of every layer, rows then columns. -/
def layerExts : List Layer → Int → Int → List (Int × Int)
  | [], _, _ => []
  | l :: r, h, w => let e := (l.ho h.toNat, l.wo w.toNat); e :: layerExts r e.1 e.2

def Cx.exts (x : Cx) : List (Int × Int) := layerExts x.ls x.x.imgH x.x.imgW

/-- Input channels of layer i. -/
def Cx.cin (x : Cx) (i : Nat) : Nat := if i = 0 then x.x.imgC else ((x.ls[i - 1]?).map Layer.cout).getD 0

/-- Output channels of layer i: of the last layer as `D` has them where a resident filter comes in pieces. -/
def Cx.cout (x : Cx) (i : Nat) : Nat :=
  match x.ls[i]? with
  | none => 0
  | some l => if i + 1 = x.ls.length ∧ l.f.resident then x.d.imgC else l.cout

/-- Type byte of layer i's input. -/
def Cx.tin (x : Cx) (i : Nat) : Nat := if i = 0 then dDtype x.x.raw else ((x.ls[i - 1]?).map Layer.to).getD 0

/-- Output rows and columns of the command. -/
def Cx.out (x : Cx) : Nat × Nat := ((x.exts.getLastD (0, 0)).1.toNat, (x.exts.getLastD (0, 0)).2.toNat)

/-! ## The implicit matrix product (R226, R239) -/

/-- A two-dimensional descriptor that lies in no region. -/
def flatBlob (t s0 s1 : Nat) : Blob :=
  BitVec.ofNat 1024 (t + sh 2 8 + sh 0xFFFF 48 + sh s0 0x100 + sh s1 0x120 + sh 1 0x140 + sh 1 0x160 + sh 1 0x180 + sh 1 0x1A0)

def flatOpd (t s0 s1 : Nat) : Opd := { raw := flatBlob t s0 s1, reg := Region.empty, tiles := [], banks := [], func := 0 }

/-- The matrix product of a plan of one layer with one group. -/
def Cx.mx (x : Cx) : Mx :=
  match x.ls with
  | l :: _ =>
    let (ho, wo) := x.out
    { a := flatOpd (x.tin 0) (l.kh * l.kw * x.cin 0) (ho * wo), b := l.f, d := flatOpd 0 (x.cout 0) (ho * wo), ci := x.ci,
      st := x.st, ch := l.ch, res := x.x.resident || l.f.resident }
  | [] => { a := x.x, b := x.x, d := x.d, ci := x.ci, st := x.st, ch := none, res := true }

/-- Is the command an ordinary matrix product? -/
def Cx.plain (x : Cx) : Bool :=
  match x.ls with
  | [l] => l.g == 1
  | _ => false

/-- Pins of a CONV: it has none but the form, and its chain's entries (R234). -/
def cvPins (m : Cmd) (x : Cx) : Pins :=
  let (el, row) := if m.cvRaw then (0, 0) else chainAcc x.mx.cv
  { ma := 0, na := 0, ks := 0, ord1 := 0, ord2 := 0, ord3 := 0, el := el, row := row }

/-! ## Regions and spatial tiles of fused and grouped plans (R238 to R240) -/

/-- A rectangle of pixels of a layer's output: first row and column, rows and columns. -/
structure Rect where
  y0 : Nat
  x0 : Nat
  hn : Nat
  wn : Nat
deriving DecidableEq, Repr

/-- Does a rectangle hold a pixel? -/
def Rect.has (r : Rect) (y x : Nat) : Bool := decide (r.y0 ≤ y ∧ y < r.y0 + r.hn ∧ r.x0 ≤ x ∧ x < r.x0 + r.wn)

/-- Rows (or columns) that t outputs of a layer need of its input. -/
def needBack (t st d k : Nat) : Nat := (t - 1) * st + d * (k - 1) + 1

/-- The rows (or columns) of an extent of n that outputs a to a + t - 1 need: first one and number. Rows outside the extent
are padding (R238); under EDGE they read the row at the edge. -/
def backRange (a t st d k pad n : Nat) (edge : Bool) : Nat × Nat :=
  if t = 0 ∨ n = 0 then (0, 0)
  else
    let lo : Int := (a * st : Nat) - (pad : Int)
    let hi : Int := lo + needBack t st d k - 1
    if edge then
      let lo := max 0 (min ((n : Int) - 1) lo)
      let hi := max 0 (min ((n : Int) - 1) hi)
      (lo.toNat, (hi - lo + 1).toNat)
    else
      let lo := max 0 lo
      let hi := min ((n : Int) - 1) hi
      (lo.toNat, (hi - lo + 1).toNat)

/-- Does layer i read its padding as the edge (R227)? -/
def Cx.edgeIn (x : Cx) (i : Nat) : Bool :=
  if i = 0 then dPadMode x.x.raw == 0 else ((x.ls[i]?).map Layer.ipad).getD false

/-- Rows and columns of the input of layer i. -/
def Cx.inExt (x : Cx) (i : Nat) : Nat × Nat :=
  if i = 0 then (x.x.imgH, x.x.imgW) else let e := x.exts.getD (i - 1) (0, 0); (e.1.toNat, e.2.toNat)

/-- The region of layer i's input that a rectangle of its output needs (R238). -/
def Cx.backRect (x : Cx) (i : Nat) (l : Layer) (r : Rect) : Rect :=
  let (h, w) := x.inExt i
  let (y0, hn) := backRange r.y0 r.hn l.sh l.dh l.kh l.pt h (x.edgeIn i)
  let (x0, wn) := backRange r.x0 r.wn l.sw l.dw l.kw l.pl w (x.edgeIn i)
  { y0 := y0, x0 := x0, hn := hn, wn := wn }

/-- The output region of every layer that a rectangle of the last one needs, layer 0 first. -/
def Cx.regions (x : Cx) (r : Rect) : List Rect :=
  (((List.range x.ls.length).zip x.ls).drop 1).foldr (fun (i, l) acc => x.backRect i l (acc.headD r) :: acc) [r]

/-- Bytes of a region of n pixels of a type, exponents included. -/
def pixBytes (t ch n : Nat) : Nat :=
  let f := tyFmt t
  ceil2k (cdiv (n * ch * fmtWidth f) 8 + if fmtBlk f then n * ch / 16 else 0)

/-- Bytes of X's region and of every intermediate for a spatial tile, from the last layer back. -/
def regionNeed (x : Cx) : Nat → Nat → Nat → Nat
  | 0, _, _ => 0
  | i + 1, h, w =>
    match x.ls[i]? with
    | none => 0
    | some l =>
      let h' := needBack h l.sh l.dh l.kh
      let w' := needBack w l.sw l.dw l.kw
      pixBytes (x.tin i) (x.cin i) (h' * w') + regionNeed x i h' w'

/-- The doubled filter terms in a form. -/
def filterNeed (x : Cx) (f : Nat) : Nat :=
  ((List.range x.ls.length).map fun i =>
    match x.ls[i]? with
    | none => 0
    | some l =>
      if l.g = 1 ∧ l.f.staged then
        let p := rateOf (x.tin i) l.tw
        2 * ceil2k (min (x.cout i) 128 * wordBytes (sliceBytes p (dWidth l.f.raw)) p (formS f) (dBlk l.f.raw))
      else 0).sum

/-- What a spatial tile lacks in a form (R140). -/
def spatialShort (x : Cx) (f h w : Nat) : Option (Nat × Nat × Nat) :=
  let t := formT f
  let acc := (List.range x.ls.length).findSome? fun i =>
    match x.ls[i]? with
    | none => none
    | some l =>
      let (el, row) := chainAcc l.cv
      let n0 := min (x.cout i) 128
      let need := (1 + el) * t * n0 + row * t
      if l.g = 1 ∧ 65536 < need then some (1, need, 65536) else none
  match acc with
  | some d => some d
  | none =>
    let need := regionNeed x x.ls.length h w + filterNeed x f
    let have_ := x.st.reg.len * x.st.banks.length
    if have_ < need then some (2, need, have_) else none

/-- Layers that the array computes (R237). -/
def Cx.arrayLayers (x : Cx) : List (Nat × Layer) := ((List.range x.ls.length).zip x.ls).filter fun e => e.2.g == 1

/-- Does a form agree with the layout of every resident filter (R133)? -/
def Cx.formFits (x : Cx) (f : Nat) : Bool :=
  x.arrayLayers.all fun (i, l) => l.f.staged || (dS l.f.raw == formS f && dP l.f.raw == rateOf (x.tin i) l.tw)

/-- A resident filter whose layout agrees neither with its rate, nor with a pinned form, nor with another filter. -/
def Cx.layoutBad (x : Cx) (pin i : Nat) (l : Layer) : Bool :=
  l.g == 1 && !l.f.staged
    && (dP l.f.raw != rateOf (x.tin i) l.tw || (pin != 0 && dS l.f.raw != formS pin)
      || x.arrayLayers.any fun e => !e.2.f.staged && dS e.2.f.raw != dS l.f.raw)

/-- `est` of R60 summed over the array layers of a fused plan, each over the pixels that a tile of h × w needs of it. -/
def Cx.est (x : Cx) (h w f : Nat) : Nat :=
  let rs := x.regions { y0 := 0, x0 := 0, hn := h, wn := w }
  (x.arrayLayers.map fun (i, l) =>
    let r := rs.getD i { y0 := 0, x0 := 0, hn := 0, wn := 0 }
    let p := rateOf (x.tin i) l.tw
    let wb := wordBytes (sliceBytes p (dWidth l.f.raw)) p (formS f) (dBlk l.f.raw)
    let nb := if l.f.staged then x.st.nb else l.f.nb
    cdiv (r.hn * r.wn) (formT f) * cdiv (l.kh * l.kw * x.cin i) (max 1 (128 * p * formS f)) * max (x.cout i) 128 * 16
      / max 1 (min 16 (16 * 2048 * nb / max 1 wb))).sum

/-- The first form of least estimate among those that remain (R60, R133). -/
def Cx.pick (x : Cx) (h w : Nat) (fs : List Nat) : Option Nat :=
  fs.foldl (fun b f =>
    match b with
    | none => some f
    | some g => some (if x.est h w f < x.est h w g then f else g)) none

/-- Pinned output rows and columns of a spatial tile, 0 where the Chisel chooses. -/
def planTile (raw : Nat) : Nat × Nat := (fld0 raw 2 16, fld0 raw 4 16)

/-- Sides of the spatial tiles in a form: the largest square, up to the output's extent, that fits, with each pinned side
in place of the chosen one (R240). -/
def Cx.sides (x : Cx) (raw f : Nat) : Nat × Nat :=
  let (ho, wo) := x.out
  let (ph, pw) := planTile raw
  let side (t : Nat) : Nat × Nat := (if ph ≠ 0 then ph else min t (max 1 ho), if pw ≠ 0 then pw else min t (max 1 wo))
  side ((largest (max 1 (max ho wo)) 1 fun t => (spatialShort x f (side t).1 (side t).2).isNone).getD 1)

/-- The smallest spatial tile of R240: 1 × 1, or as pinned. -/
def leastTile (raw : Nat) : Nat × Nat := (max 1 (planTile raw).1, max 1 (planTile raw).2)

/-- The forms that a fused or grouped plan may take, those of R133 unless one is pinned. -/
def Cx.forms (x : Cx) (pin : Nat) : List Nat := if pin = 0 then [1, 2, 3].filter x.formFits else [pin]

/-- The form of a fused or grouped plan on its tiles: by R60 among the forms whose smallest tile fits. -/
def Cx.form (x : Cx) (raw pin : Nat) : Nat :=
  let (h, w) := leastTile raw
  (x.pick h w ((x.forms pin).filter fun f => (spatialShort x f h w).isNone)).getD 1

/-- E_CAPACITY of a fused or grouped plan: the 1 × 1 tile or the pinned one fails in every form; reported for the form that
R60 would pick with capacity unbounded (R140). -/
def chkSpatial (x : Cx) (raw : Nat) (pin : Nat) : Option Ref :=
  let (h, w) := leastTile raw
  let fs := x.forms pin
  if fs.any fun f => (spatialShort x f h w).isNone then none
  else (spatialShort x ((x.pick h w fs).getD 1) h w).map fun d =>
    { st := .capacity, dw := [d.1, x.st.tiles.headD 0, d.2.1, d.2.2] }

/-- A spatial tile: the work tile that computes it, and its rectangle of the output (R239). -/
structure STile where
  g : Nat
  r : Rect
deriving DecidableEq, Repr

/-- The spatial tiles in raster order, cut among the work tiles as R131 cuts units (R239). -/
def Cx.spatial (x : Cx) (raw f : Nat) : List STile :=
  let (ho, wo) := x.out
  let (th, tw) := x.sides raw f
  let ws := x.st.tiles
  let nh := cdiv ho (max 1 th)
  let nw := cdiv wo (max 1 tw)
  (List.range ws.length).flatMap fun j =>
    let (u0, un) := cutPart (nh * nw) ws.length j
    (List.range un).map fun i =>
      let y := (u0 + i) / max 1 nw * th
      let xx := (u0 + i) % max 1 nw * tw
      { g := ws.getD j 0, r := { y0 := y, x0 := xx, hn := min th (ho - y), wn := min tw (wo - xx) } }

/-! ## Padding (R112, R227) -/

/-- How taps outside an input read: the edge, or a value that is masked when it is zero padding. -/
inductive PadAs where
  | edge
  | value (e : El) (masked : Bool)
deriving DecidableEq, Repr

/-- The input of a layer: extents, padding, and its elements by channel, row and column. -/
structure CvIn where
  ch : Nat
  w : Nat
  h : Nat
  pad : PadAs
  els : List El
deriving DecidableEq, Repr

def CvIn.at_ (x : CvIn) (c y xx : Nat) : El := x.els.getD (c + x.ch * (xx + x.w * y)) El.zero

/-- A tap at signed coordinates, and whether it is masked. -/
def CvIn.tap (x : CvIn) (c : Nat) (y xx : Int) : El × Bool :=
  if 0 ≤ y ∧ y < x.h ∧ 0 ≤ xx ∧ xx < x.w then (x.at_ c y.toNat xx.toNat, false)
  else
    match x.pad with
    | .edge => (x.at_ c (max 0 (min ((x.h : Int) - 1) y)).toNat (max 0 (min ((x.w : Int) - 1) xx)).toNat, false)
    | .value e z => (e, z)

/-- The padding of an image operand. -/
def Opd.padAs (o : Opd) : PadAs :=
  if dPadMode o.raw = 0 then .edge
  else
    let e := elOf (dDtype o.raw) (dPadValue o.raw) 0
    .value e (e.v.isZero || dBlk o.raw)

/-- The image of an operand as a layer's input. -/
def cvImage (s : State) (o : Opd) (up : List Nat) : CvIn :=
  { ch := o.imgC, w := o.imgW, h := o.imgH, pad := o.padAs,
    els := (List.range o.imgH).flatMap fun y => (List.range o.imgW).flatMap fun x =>
      (List.range o.imgC).map fun c => o.elAt s (c :: x :: y :: up) }

/-! ## One layer -/

/-- The tap of K index k of an output pixel for group gr of the layer (R226, R237). -/
def layerTap (l : Layer) (x : CvIn) (cg gr y xx k : Nat) : El × Bool :=
  let c := k % cg
  let kw := k / cg % l.kw
  let kh := k / cg / l.kw
  x.tap (gr * cg + c) ((y * l.sh : Nat) - (l.pt : Int) + (kh * l.dh : Nat)) ((xx * l.sw : Nat) - (l.pl : Int) + (kw * l.dw : Nat))

/-- A pair under a masked tap: its product is an exact zero (R227). -/
def maskPair (t : El × Bool) (w : El) : El × El :=
  if t.2 then (El.zero, { w with v := .zero, i := 0 }) else (t.1, w)

/-- Where a layer is computed: the context and command, the layer with the type of its input, the slots of the tile that
computes it, and its chain's inputs. -/
structure CvCtx where
  c : Nat
  m : Cmd
  l : Layer
  tin : Nat
  ups : List Nat
  slots : List SlotBank
  ins : List Opd
deriving DecidableEq, Repr

/-- The value of an output element before the epilogue, its raw accumulator, and its tally. -/
def layerAcc (s : State) (u : CvCtx) (x : CvIn) (start : AccV) (cout y xx o : Nat) : Num × Nat × Tally :=
  let l := u.l
  let cg := x.ch / l.g
  let kn := l.kh * l.kw * cg
  let gr := o / max 1 (cout / l.g)
  let w (k : Nat) : El := l.f.elAt s (k :: o :: u.ups)
  if l.g = 1 then
    let taps (k : Nat) := layerTap l x cg 0 y xx k
    let gs := (List.range (cdiv kn 16)).filter fun g =>
      !((List.range (min 16 (kn - 16 * g))).all fun i => (taps (16 * g + i)).2)
    let groups := gs.map fun g => (List.range (min 16 (kn - 16 * g))).map fun i =>
      maskPair (taps (16 * g + i)) (w (16 * g + i))
    let r := lane (windowBits u.tin l.tw) start groups
    (r.1.scaled (l.fl 0x10 32) (l.fl 0x14 32), r.1.raw, r.2)
  else
    let acc := (List.range kn).foldl (fun a k =>
      let t := layerTap l x cg gr y xx k
      if t.2 then a else ffma t.1.v (w k).v a) Num.zero
    (rnd32 ((acc.mul (dec32 (l.fl 0x10 32))).mul (dec32 (l.fl 0x14 32))), enc32 acc, .zero)

/-- The epilogue on an output element: the value to convert, and the value that STATS sees. -/
def layerEpi (s : State) (u : CvCtx) (row o : Nat) (y0 : Num) : Num × Num :=
  let e : ChEnv :=
    { ins := u.ins, ups := u.ins.map fun i => (batchCoords i.sizes u.m.cvBidx).getD [], slots := u.slots, row := row, col := o }
  if (chEpi u.l.cv) == [] then (y0, y0) else epiRun s u.l.cv e (rnd32 y0)

/-- Convert a pixel's channels to a type as elements, with the flags (R89, R90, R234). -/
def convPixel (t : Nat) (ys : List Num) : List El × Tally :=
  let d := flatBlob t 16 1
  if fmtBlk (tyFmt t) then
    (List.range (cdiv ys.length 16)).foldl (fun acc j =>
      let b := convertBlk (fmtWidth (tyFmt t)) (tyUns t) (List.replicate 16 .ne) ((ys.drop (16 * j)).take 16)
      (acc.1 ++ b.elems.map fun r => elOf t r b.exp,
        acc.2.add { Tally.zero with sat := b.expSat || b.sats.any id, nan := b.nan })) ([], .zero)
  else
    ys.foldl (fun acc y =>
      let r := convElem d .ne y
      (acc.1 ++ [elOf t r.bits 0], acc.2.add { Tally.zero with sat := r.sat, nan := r.nan })) ([], .zero)

/-- The pixels of an inner layer in a region, as the next layer's input, and their flags (R236, R238). Pixels outside the
region are not computed, and no tap of the region's users reads them. -/
def innerLayer (s : State) (u : CvCtx) (x : CvIn) (cout ho wo : Nat) (r : Rect) (edge : Bool) : CvIn × Tally :=
  let px := (List.range ho).flatMap fun y => (List.range wo).map fun xx =>
    if r.has y xx then
      let os := (List.range cout).map fun o =>
        let r := layerAcc s u x (AccV.start (u.l.acc == 1)) cout y xx o
        ((layerEpi s u (y * wo + xx) o r.1).1, r.2.2)
      let cv := convPixel u.l.to (os.map Prod.fst)
      (cv.1, (os.foldl (fun a r => a.add r.2) cv.2).flagsOnly)
    else (List.replicate cout El.zero, Tally.zero)
  let zero : El := if fmtBlk (tyFmt u.l.to) then elOf u.l.to 0 0 else El.zero
  ({ ch := cout, w := wo, h := ho, pad := if edge then .edge else .value zero true, els := px.flatMap Prod.fst },
    px.foldl (fun a p => a.add p.2) .zero)

/-- The inputs of the layers of a spatial tile, from X: each inner layer's region after the one before it, and the flags of
the pixels computed on the way. -/
def cvLayers (s : State) (mk : Nat → Layer → CvCtx) (x : Cx) (rs : List Rect) : List (Nat × Layer) → CvIn → List CvIn × Tally
  | [], img => ([img], .zero)
  | (i, l) :: rest, img =>
    let e := x.exts.getD i (0, 0)
    let (img', t) := innerLayer s (mk i l) img (x.cout i) e.1.toNat e.2.toNat
      (rs.getD i { y0 := 0, x0 := 0, hn := 0, wn := 0 }) (x.edgeIn (i + 1))
    let (is, t') := cvLayers s mk x rs rest img'
    (img :: is, t.add t')

/-! ## Accesses, footprint and checks (R239, R242) -/

/-- A layer as a tile computes it. -/
def cvCtx (s : State) (c : Nat) (m : Cmd) (regs : List (Nat × Region)) (x : Cx) (i : Nat) (l : Layer) (g : Nat) : CvCtx :=
  { c := c, m := m, l := l, tin := x.tin i, ups := (batchCoords l.f.sizes m.cvBidx).getD [],
    slots := slotsAt s g m.bound.slots, ins := match l.ch with | some h => chIns s c regs h | none => [] }

/-- The raw plan that a command bound, and the form its fused tiles run in. -/
def Cmd.cvPlan (m : Cmd) : Nat := ((planOf (m.obj (m.f 0x12 16))).map fun t => t.1.toNat).getD 0
def Cmd.cvUsed (m : Cmd) : Nat := ((m.bound.forms.head?).map Prod.snd).getD 1

/-- Input pixels that the taps of an output pixel touch: row and column. Taps outside read the edge, or nothing (R112, R227,
R229). -/
def tapPixels (l : Layer) (edge : Bool) (h w y xx : Nat) : List (Nat × Nat) :=
  (List.range l.kh).flatMap fun a => (List.range l.kw).filterMap fun b =>
    let r : Int := (y * l.sh : Nat) - (l.pt : Int) + (a * l.dh : Nat)
    let k : Int := (xx * l.sw : Nat) - (l.pl : Int) + (b * l.dw : Nat)
    if 0 ≤ r ∧ r < h ∧ 0 ≤ k ∧ k < w then some (r.toNat, k.toNat)
    else if edge && h != 0 && w != 0 then
      some ((max 0 (min ((h : Int) - 1) r)).toNat, (max 0 (min ((w : Int) - 1) k)).toNat)
    else none

/-- The pixels of X that the output pixels of layer 0 touch, each once. -/
def Cx.xPixels (x : Cx) (px : List (Nat × Nat)) : List (Nat × Nat) :=
  match x.ls with
  | [] => []
  | l :: _ => (px.flatMap fun p => tapPixels l (x.edgeIn 0) x.x.imgH x.x.imgW p.1 p.2).eraseDups

/-- The pixels of a rectangle. -/
def Rect.pixels (r : Rect) : List (Nat × Nat) :=
  (List.range r.hn).flatMap fun a => (List.range r.wn).map fun b => (r.y0 + a, r.x0 + b)

/-- A part of the command's work: the tile, the output pixels of its last layer and of layer 0, and for a plain
convolution its columns. -/
structure CvPart where
  g : Nat
  out : List (Nat × Nat)
  first : List (Nat × Nat)
  c0 : Nat
  cn : Nat
  share : Share
deriving DecidableEq, Repr

/-- The parts of the command's work on its tiles: the shares of R131, or the spatial tiles of R239. -/
def Cx.parts (x : Cx) (raw f : Nat) : List CvPart :=
  let wo := x.out.2
  let cout := x.cout (x.ls.length - 1)
  if x.plain then x.mx.shares.map fun h =>
    let px := (List.range h.tn).map fun i => ((h.t0 + i) / wo, (h.t0 + i) % wo)
    { g := h.g, out := px, first := px, c0 := h.c0, cn := h.cn, share := h }
  else (x.spatial raw f).map fun t =>
    let first := ((x.regions t.r).headD t.r).pixels
    { g := t.g, out := t.r.pixels, first := first, c0 := 0, cn := cout,
      share := { g := t.g, t0 := t.r.y0 * wo + t.r.x0, tn := (t.r.hn - 1) * wo + t.r.wn, c0 := 0, cn := cout } }

/-- The output rows of layer i that the command computes: all of a plain convolution, or those of some tile's region. -/
def Cx.rowsOf (x : Cx) (i raw f : Nat) : List Nat :=
  if x.plain then List.range (x.out.1 * x.out.2)
  else
    let wo := (x.exts.getD i (0, 0)).2.toNat
    ((x.spatial raw f).flatMap fun t => ((x.regions t.r).getD i t.r).pixels.map fun p => p.1 * wo + p.2).eraseDups

/-- Accesses to the pieces of a bank operand that hold some indices of dimension 1. -/
def Opd.accsAt (o : Opd) (ix : List Nat) (kind : CmdKind) (wr : Bool) (tile : Nat) : List BankAcc :=
  if o.resident then
    ((if dRank o.raw < 2 then [0] else (ix.map fun i => (o.piece i).1).eraseDups).flatMap (o.accOn kind wr tile))
  else []

/-- Columns of `D` that the tile of some output pixels writes: theirs, and those of the border that copies or surrounds
them (R241). -/
def cvCols (m : Cmd) (wo : Nat) (px : List (Nat × Nat)) : List Nat :=
  let (opl, opr) := (m.fb 0x24 4 4, m.fb 0x24 0 4)
  let ow := m.f 0x22 16
  let xs := (px.map Prod.snd).eraseDups
  xs.map (ow + ·) ++ (if xs.contains 0 then (List.range opl).map (ow - opl + ·) else [])
    ++ if xs.contains (wo - 1) then (List.range opr).map (ow + wo + ·) else []

/-- Accesses (R546): each tile reads what its part needs of X, of the filters, of `C` and of the chains' inputs, stages
into its own banks, and writes what it finishes of `D` and of `SOUT`. -/
def cvAccs (s : State) (c : Nat) (regs : List (Nat × Region)) (m : Cmd) (x : Cx) (raw f : Nat) : List BankAcc :=
  let wo := x.out.2
  (x.parts raw f).flatMap fun p =>
    let filter (o : Opd) : List BankAcc :=
      if o.staged then (if x.plain then o.accsIn p.c0 p.cn .dma false p.g else o.accsIn 0 (o.size 1) .dma false p.g)
      else o.inPlaceAccs (if x.plain then p.c0 else 0) (if x.plain then p.cn else o.size 1)
    x.x.accsAt ((x.xPixels p.first).map Prod.snd).eraseDups .dma false p.g
      ++ x.ls.flatMap (fun l => filter l.f ++ chainAccs s c regs l.ch p.share) ++ x.st.stageAccs p.g
      ++ (if m.cvAccIn then x.ci.accsAt ((p.out.map Prod.snd).eraseDups.map (m.f 0x22 16 + ·)) .vector false p.g else [])
      ++ x.d.accsAt (cvCols m wo p.out).eraseDups .vector true p.g

/-- Is the object a convolution plan? -/
def isPlan (o : Option Obj) : Bool := (planOf o).isSome

def checkConv (s : State) (c : Nat) (m : Cmd) : Verdict :=
  let hx := m.f 0x10 16
  let hp := m.f 0x12 16
  let hd := m.f 0x14 16
  let rid := m.f 0x16 16
  let hc := m.f 0x28 16
  let o := handleObj s c hp
  let raw := ((planOf o).map fun t => t.1.toNat).getD 0
  let x := cxAt s c m
  let is := (List.range x.ls.length).zip x.ls
  let multi := decide (1 < x.ls.length)
  let grouped := x.ls.any fun l => l.g != 1
  let (ho, wo) := x.out
  let (opt, opb, opl, opr) := (m.fb 0x24 12 4, m.fb 0x24 8 4, m.fb 0x24 4 4, m.fb 0x24 0 4)
  let (oh, ow) := (m.f 0x20 16, m.f 0x22 16)
  let int := (x.ls.headD { raw := 0, f := x.x, ch := none }).acc == 1
  let last := x.ls.length - 1
  let stBad := match getRegion s c rid with
    | none => true
    | some r => r.space != .bank || r.model.isSome || r.claimed || (x.plain && stageBad s c x.mx rid)
  let isImg (h : Nat) := !notLinear s c h [0, 1]
  let f3 (n : Nat) := dec32 n
  let inf (n : Nat) : Bool := (f3 n).isNan || (f3 n).isInf
  let vecOk (t : Nat) : Bool := [1, 2, 3, 4, 6].contains (tyFmt t)
  let ov (p q : Opd) : Bool := dOverlap p.raw q.raw p.nb q.nb
  let fltEmpty := x.exts.any (fun e => decide (e.1 ≤ 0 ∨ e.2 ≤ 0)) || x.x.sizes.any (· == 0)
  let u := cvPins m x
  let f := if x.arrayLayers.isEmpty then 0 else x.form raw m.cvForm
  match firstRef
    [chk .cmd (bodyResv m [(0x27, 0x28), (0x2A, 0x40)] ++
       [(badHandle hx false, 0x10), (badHandle hp false, 0x12), (badHandle hd false, 0x14),
        (decide (1024 ≤ rid ∧ rid ≠ 0xFFFF), 0x16), (m.cvSid != 0 && !m.cvSr, 0x1C), (badHandle hc true, 0x28),
        ((hc != 0xFFFF) != m.cvAccIn, 0x28), (decide (6 ≤ m.cvForm), 0x26),
        (m.cvRaw && m.cvSr, 0x26), (isPlan o && (m.cvAccIn || m.cvRaw) && (multi || grouped), 0x12),
        (isPlan o && m.cvRaw && x.ls.any (fun l => l.ch.isSome), 0x12)])] with
  | some r => .refuse r
  | none =>
    verdictE
      ((is.map fun (i, l) => chkAct s c (fld0 raw (layOff i + 2) 16) l.ch) ++
      [chk .desc [(!isImg hx || (match getDesc s c hx with | some d => dKind d != 0 | none => true), 0x10), (!isPlan o, 0x12),
         (badDest s c hd [0, 1] || (!m.cvRaw && dKind x.d.raw != 0), 0x14), (stBad, 0x16), (m.cvAccIn && notLinear s c hc [0, 1], 0x28)],
       chkIn .desc hp (is.map fun (i, l) =>
         ((multi && !(l.f.staged || decide (x.cout i ≤ dSize l.f.raw 1)))
           || (if x.plain then layoutBad x.mx m.cvForm l.f else x.layoutBad m.cvForm i l), layOff i))]
      ++ (is.map fun (i, l) => chkChain s c (fld0 raw (layOff i + 2) 16) 0x12 l.ch)
      ++ [chkOwner s c (if fltEmpty then [] else cvAccs s c (s.ctx c).regions m x raw (max 1 f)),
       chk .format [(!arrayTypeOk (dDtype x.x.raw), 0x10),
         (m.cvRaw && !rawType int x.d.raw, 0x14),
         ((x.ls.getLastD { raw := 0, f := x.x, ch := none }).to != dDtype x.d.raw, 0x14),
         (m.cvAccIn && !rawType int x.ci.raw, 0x28)],
       chkIn .format hp (is.flatMap fun (i, l) =>
         [(!arrayTypeOk l.tw || l.tw != dDtype l.f.raw, layOff i + 4),
          (!tyOk l.to || (i != last && !arrayTypeOk l.to), layOff i + 5),
          (decide (2 ≤ l.acc) || (l.acc == 1 && !(fmtInt (tyFmt (x.tin i)) && fmtInt (tyFmt l.tw))), layOff i + 0xE),
          (inf (l.fl 0x10 32), layOff i + 0x10), (inf (l.fl 0x14 32), layOff i + 0x14),
          (l.g != 1 && (!vecOk l.tw || !vecOk (x.tin i)), layOff i + 4), (l.g != 1 && l.acc != 0, layOff i + 0xE)])]
      ++ is.map fun (i, l) => chkChainFmt (fld0 raw (layOff i + 2) 16) l.ch)
      fltEmpty
      ([chk .shape [(!(decide (3 ≤ dRank x.x.raw)), 0x10),
         (!(decide (3 ≤ dRank x.d.raw)) || x.cout last != x.d.imgC, 0x14),
         ((imgUp x.x m.cvBidx).isNone || (imgUp x.d m.cvBidx).isNone || (m.cvAccIn && (imgUp x.ci m.cvBidx).isNone)
           || x.ls.any (fun l => (batchCoords l.f.sizes m.cvBidx).isNone), 0x18),
         (decide (oh < opt) || decide (x.d.imgH < oh + ho + opb), 0x20),
         (decide (ow < opl) || decide (x.d.imgW < ow + wo + opr), 0x22),
         (m.cvAccIn && (x.ci.sizes.take 3 != x.d.sizes.take 3), 0x28)],
        chkIn .shape hp (is.map fun (i, l) =>
          (x.cin i % l.g != 0 || x.cout i % l.g != 0 || l.f.size 0 != l.kh * l.kw * (x.cin i / l.g) || !l.f.covers (x.cout i)
            || ((fmtBlk (tyFmt (x.tin i)) || fmtBlk (tyFmt l.tw)) && x.cin i / l.g % 16 != 0)
            || (i != last && fmtBlk (tyFmt l.to) && x.cout i % 16 != 0), layOff i))]
      ++ (is.map fun (i, l) =>
        let e := x.exts.getD i (0, 0)
        chkChainShape s c (fld0 raw (layOff i + 2) 16) l.ch (e.1.toNat * e.2.toNat) (x.cout i) (e.1.toNat * e.2.toNat)
          (l.kh * l.kw * x.cin i) (some m.cvBidx))
      ++ [chk .overlap [(ov x.d x.x, 0x10), (x.ls.any (fun l => ov x.d l.f), 0x12), (m.cvAccIn && hc != hd && ov x.ci x.d, 0x14)]]
      ++ (is.map fun (i, l) => chkChainOverlap s c (fld0 raw (layOff i + 2) 16) l.ch x.d
          (x.x :: l.f :: if m.cvAccIn then [x.ci] else []))
      ++ [chk .form [(decide (4 ≤ m.cvForm) && !x.plain, 0x26)],
        if x.plain then chkForm s x.mx m.cvForm 0x26 else none,
        if x.plain then chkCapacity s x.mx u m.cvForm else chkSpatial x raw m.cvForm,
        if m.cvSr then chkStream s c m.cvSid 0x1C else none])
      { (mkBound s c [hx, hp, hd, hc]
          (x.x.feet false ++ x.d.feet true ++ x.ls.flatMap (fun l => l.f.feet false ++ chainFeet s c l.ch)
            ++ (if m.cvAccIn then x.ci.feet false else [])
            ++ [{ rid := rid, reg := x.st.reg, lo := 0, hi := (x.st.reg.len : Int) - 1, wr := true }])) with
        forms := if x.plain then tileForms s x.mx u m.cvForm
          else x.st.tiles.map fun g => (g, f) }

/-! ## The command -/

/-- Border pixels of the rectangle (R241): row and column in `D`, and the valid pixel that an edge fill copies. -/
def cvBorder (m : Cmd) (ho wo : Nat) : List (Nat × Nat × Nat × Nat) :=
  let (opt, opb, opl, opr) := (m.fb 0x24 12 4, m.fb 0x24 8 4, m.fb 0x24 4 4, m.fb 0x24 0 4)
  let (oh, ow) := (m.f 0x20 16, m.f 0x22 16)
  (List.range (opt + ho + opb)).flatMap fun r => (List.range (opl + wo + opr)).filterMap fun k =>
    if opt ≤ r ∧ r < opt + ho ∧ opl ≤ k ∧ k < opl + wo then none
    else some (oh - opt + r, ow - opl + k, oh + min (ho - 1) (r - opt), ow + min (wo - 1) (k - opl))

/-- Coordinates in `D` of channel o of an output pixel. -/
def Cmd.cvAt (m : Cmd) (o : Opd) (y xx ch : Nat) : List Nat :=
  ch :: (m.f 0x22 16 + xx) :: (m.f 0x20 16 + y) :: (imgUp o m.cvBidx).getD []

/-- Start of an accumulator of the last layer. -/
def cvStart (s : State) (m : Cmd) (x : Cx) (l : Layer) (y xx o : Nat) : AccV :=
  if m.cvAccIn then
    let r := x.ci.rawAt s (m.cvAt x.ci y xx o)
    if l.acc = 1 then .i (toSigned 32 r) else .f (dec32 r)
  else AccV.start (l.acc == 1)

/-- One output pixel of the last layer: what it stores, its tally, and its statistics record. `u o` is the layer as the
tile of channel o computes it. -/
def cvPixel (s : State) (c : Nat) (m : Cmd) (x : Cx) (l : Layer) (u : Nat → CvCtx) (img : CvIn) (y xx : Nat) :
    Stored × Tally × List Wr :=
  let wo := x.out.2
  let cout := x.cout (x.ls.length - 1)
  let os := (List.range cout).map fun o => (o, layerAcc s (u o) img (cvStart s m x l y xx o) cout y xx o)
  let t := os.foldl (fun a r => a.add r.2.2.2) Tally.zero
  if m.cvRaw then
    let nan := l.acc == 0 && os.any fun r => (dec32 r.2.2.1).isNan
    ({ Stored.empty with wrs := os.flatMap fun r => x.d.wrRaw (m.cvAt x.d y xx r.1) r.2.2.1 },
      { t with nan := t.nan || nan }, [])
  else
    let ys := os.map fun r => layerEpi s (u r.1) (y * wo + xx) r.1 r.2.1
    let rs := (List.range cout).map fun o => m.rnd m.cvSr m.cvSid (linIndex x.d.sizes (m.cvAt x.d y xx o))
    let st := x.d.storeRow (m.cvAt x.d y xx 0) rs (ys.map Prod.fst)
    let stats := match l.ch with
      | some ch =>
        if chHasStats l.cv then
          let seen := if chStatRounded l.cv then
              let t := applyWrs c st.wrs s
              (List.range cout).map fun o => x.d.f32At t (m.cvAt x.d y xx o)
            else ys.map Prod.snd
          let so := chOpd s c m.bound.regs ch 0x10
          statWrs so (y * wo + xx) ((batchCoords so.sizes m.cvBidx).getD []) (rowStats seen)
        else []
      | none => []
    let nans := if l.g = 1 then 0 else (os.filter fun r => (dec32 r.2.2.1).isNan).length
    (st, (t.add st.tally).add { Tally.zero with nNan := nans }, stats)

/-- The units of work of a command with the inputs of their layers: the whole output of a plain convolution, whose elements
belong to the tiles of its shares, or each spatial tile. -/
def cvUnits (s : State) (c : Nat) (m : Cmd) (x : Cx) : List (Rect × (Nat → Nat → Nat → Nat) × List CvIn × Tally) :=
  let (ho, wo) := x.out
  let img := cvImage s x.x ((imgUp x.x m.cvBidx).getD [])
  if x.plain then
    [({ y0 := 0, x0 := 0, hn := ho, wn := wo }, fun y xx o => mxTile x.mx (y * wo + xx) o, [img], .zero)]
  else (x.spatial m.cvPlan (max 1 m.cvUsed)).map fun t =>
    let n := x.ls.length
    let ls := cvLayers s (fun i l => cvCtx s c m m.bound.regs x i l t.g) x (x.regions t.r)
      (((List.range n).zip x.ls).take (n - 1)) img
    (t.r, fun _ _ _ => t.g, ls.1, ls.2)

/-- Cells that a CONV reads: the pixels of X that some tap of a needed pixel touches (R229), the filters, and `C`. -/
def cvReads (s : State) (c : Nat) (m : Cmd) (x : Cx) : List CellAt :=
  let upX := (imgUp x.x m.cvBidx).getD []
  let ps := x.parts m.cvPlan (max 1 m.cvUsed)
  let px := x.xPixels (ps.flatMap CvPart.first).eraseDups
  let cout := x.cout (x.ls.length - 1)
  let chans (n : Nat) (f : Nat → List Nat) : List (List Nat) := (List.range n).map f
  x.x.readCells (px.flatMap fun p => chans x.x.imgC fun ch => ch :: p.2 :: p.1 :: upX)
    ++ x.ls.flatMap (fun l => l.f.readCells ((coordsOf (l.f.sizes.take 2)).map fun co =>
        co ++ (batchCoords l.f.sizes m.cvBidx).getD []))
    ++ (if m.cvAccIn then x.ci.readCells ((ps.flatMap CvPart.out).eraseDups.flatMap fun p =>
        chans cout (m.cvAt x.ci p.1 p.2)) else [])
    ++ ((List.range x.ls.length).zip x.ls).flatMap fun (i, l) =>
      let ins : List Opd := match l.ch with | some h => chIns s c m.bound.regs h | none => []
      let e : ChEnv := { ins := ins, ups := ins.map fun o => (batchCoords o.sizes m.cvBidx).getD [], slots := [], row := 0, col := 0 }
      chainCells l.cv e (x.rowsOf i m.cvPlan (max 1 m.cvUsed)) (List.range (x.cout i)) []

/-- The work of CONV (R233 to R241). -/
def convWork (s : State) (c : Nat) (m : Cmd) : Option Work :=
  let x := cxOf s c m
  let n := x.ls.length
  match x.ls[n - 1]? with
  | none => none
  | some l =>
    let (ho, wo) := x.out
    let cout := x.cout (n - 1)
    let upD := (imgUp x.d m.cvBidx).getD []
    let units := cvUnits s c m x
    let px := units.flatMap fun (r, tile, imgs, _) =>
      r.pixels.map fun p => cvPixel s c m x l (fun o => cvCtx s c m m.bound.regs x (n - 1) l (tile p.1 p.2 o))
        (imgs.getLastD (cvImage s x.x [])) p.1 p.2
    let ws := px.flatMap fun p => p.1.wrs ++ p.2.2
    let after := applyWrs c ws s
    let border := (cvBorder m ho wo).flatMap fun (r, k, vr, vk) =>
      (List.range cout).flatMap fun o =>
        if m.cvEdge then moveElem after x.d (o :: vk :: vr :: upD) x.d (o :: k :: r :: upD)
        else zeroElem x.d (o :: k :: r :: upD)
    let t := px.foldl (fun a p => a.add p.2.1) (units.foldl (fun a u => a.add u.2.2.2) .zero)
    some { Work.none with
      rd := cvReads s c m x, wrs := ws ++ border,
      accs := cvAccs s c m.bound.regs m x m.cvPlan (max 1 m.cvUsed), t := t }

/-- CONV (R233 to R241). -/
def execConv (c q : Nat) (s : State) : Host.Outcome State Fault Refusal :=
  match ready? s c q 0x12 with
  | none => .next s
  | some m =>
    match convWork s c m with
    | none => .next s
    | some w => .next (w.run c q id s)

end Sys2Proof.Machine
end

