-- ==== Sys2Proof/Machine/Stream.lean ====
section
/-! DEFINITION. The array at work (R41 to R58, R134, R135, R210, R545): the staging steps and stationary blocks of each
tile's share in the order of its plan, the landing of a staging step in array layout, the loading of the shadow set, and
the swap that streams a block's words into the accumulator memory. Results reach `D` as R137 says whatever the walk: the
meanings of the matrix commands give them. -/

namespace Sys2Proof.Machine

open Sys2Proof

/-! ## Packing into array layout (R46, R47, R109 to R111) -/

/-- The bits and block exponent of a staged element; zero beyond the extents (R111). -/
structure SEl where
  raw : Nat
  exp : Nat
deriving DecidableEq, Repr

def SEl.zero : SEl := { raw := 0, exp := 0 }

/-- Row r of a stationary block of T token slots from K index k0 (R110). -/
def stationaryRow (t p w : Nat) (blk : Bool) (k0 r : Nat) (el : Nat → Nat → SEl) : List Byte :=
  let kOf (col row : Nat) : Nat := k0 + p * (128 * (col / t) + row)
  (List.range 128).flatMap (fun col =>
      packSlice w ((List.range p).map fun e => (el (kOf col r + e) (col % t)).raw))
    ++ if blk then
        let i := r % (16 / p)
        (List.range (8 * p)).map fun j =>
          BitVec.ofNat 8 (el (kOf (8 * p * i + j) (r - i)) ((8 * p * i + j) % t)).exp
      else []

/-- One word of the stream for a column, from K index k0 (R109). -/
def streamWord (sg p w : Nat) (blk : Bool) (k0 : Nat) (el : Nat → SEl) : List Byte :=
  (List.range (128 * sg)).flatMap (fun i => packSlice w ((List.range p).map fun e => (el (k0 + p * i + e)).raw))
    ++ if blk then (List.range (8 * p * sg)).map fun i => BitVec.ofNat 8 (el (k0 + 16 * i)).exp else []

/-! ## Array jobs -/

/-- One product that a tile's array computes, with its plan: form, rate factor, type bytes of the stationary and of the
streamed operand, first token and tokens of the share, first column and columns, reduction length, the plan, which
operands are staged, their elements by K index and token or column, the start of an accumulator, whether a K block holds
no live tap for a range of tokens (R228), and the filler that a gang needs (R57). -/
structure AJob where
  f : Nat
  p : Nat
  ta : Nat
  tb : Nat
  t0 : Nat
  mt : Nat
  c0 : Nat
  nt : Nat
  k : Nat
  plan : Plan
  stA : Bool
  stB : Bool
  elA : Nat → Nat → SEl
  elB : Nat → Nat → SEl
  start : Nat → Nat → AccV
  skip : Nat → Nat → Nat → Bool

/-- K indices of a K block (R135). -/
def AJob.kw (j : AJob) : Nat := max 1 (128 * j.p * formS j.f * formG j.f)
def AJob.nkb (j : AJob) : Nat := cdiv j.k j.kw

/-- Row and word bytes (R109, R110). -/
def AJob.rb (j : AJob) : Nat :=
  rowBytes (sliceBytes j.p (fmtWidth (tyFmt j.ta))) j.p (fmtBlk (tyFmt j.ta))
def AJob.wb (j : AJob) : Nat :=
  wordBytes (sliceBytes j.p (fmtWidth (tyFmt j.tb))) j.p (formS j.f) (fmtBlk (tyFmt j.tb))

/-- A stationary block of a job: its staging step, the step in which its rows were staged, first token of the block, first
column and columns of its accumulator tile, first token of that tile, K block, first K block of the step, and its place
among the step's blocks. -/
structure ABlock where
  step : Nat
  stepA : Nat
  stepB : Nat
  tok : Nat
  c0 : Nat
  cn : Nat
  m0 : Nat
  kb : Nat
  kb0 : Nat
  ix : Nat
deriving DecidableEq, Repr

/-- Accumulator tiles in the order of `ORD2`, as numbers along M and along N (R134). -/
def AJob.tiles (j : AJob) : List (Nat × Nat) :=
  let nm := cdiv j.mt (max 1 (j.plan.ma * formG j.f))
  let nn := cdiv j.nt (max 1 j.plan.na)
  if j.plan.ord2 = 2 then (List.range nn).flatMap fun i => (List.range nm).map fun m => (m, i)
  else (List.range nm).flatMap fun m => (List.range nn).map fun i => (m, i)

/-- Staging steps of a job: accumulator tile and group of Ks K blocks. -/
def AJob.steps (j : AJob) : List ((Nat × Nat) × Nat) :=
  j.tiles.flatMap fun t => (List.range (cdiv j.nkb (max 1 j.plan.ks))).map fun g => (t, g)

/-- The step that stages A's panel for a step, and the one that stages B's: an earlier one where `ORD1` keeps it. -/
def AJob.stepOfA (j : AJob) (i : Nat) : Nat :=
  match j.steps[i]? with
  | some (t, g) => if j.plan.ord1 = 2 then (j.steps.findIdx fun e => e.1.1 == t.1 && e.2 == g) else i
  | none => i
def AJob.stepOfB (j : AJob) (i : Nat) : Nat :=
  match j.steps[i]? with
  | some (t, g) => if j.plan.ord1 = 3 then (j.steps.findIdx fun e => e.1.2 == t.2 && e.2 == g) else i
  | none => i

/-- The K blocks of a step, and its token blocks. -/
def AJob.stepKbs (j : AJob) (g : Nat) : List Nat :=
  (List.range (min j.plan.ks (j.nkb - g * j.plan.ks))).map (g * j.plan.ks + ·)
def AJob.stepToks (j : AJob) (m : Nat) : List Nat :=
  let t := formT j.f * formG j.f
  let m0 := m * j.plan.ma * formG j.f
  (List.range (cdiv (min (j.plan.ma * formG j.f) (j.mt - m0)) (max 1 t))).map fun i => j.t0 + m0 + i * t

/-- Token and K blocks of a step in the order of A's staging: token blocks first. A K block with no live tap is not
staged (R228). -/
def AJob.stageOrder (j : AJob) (m g : Nat) : List (Nat × Nat) :=
  ((j.stepToks m).flatMap fun tk => (j.stepKbs g).map fun kb => (tk, kb)).filter fun b =>
    !j.skip b.1 (formT j.f * formG j.f) b.2

/-- The stationary blocks of a step in the order of `ORD3`. Where a step holds fewer than all K blocks, the order holds
within the step (DEDUCED, log 46). -/
def AJob.stepBlocks (j : AJob) (i : Nat) : List ABlock :=
  match j.steps[i]? with
  | none => []
  | some (t, g) =>
    let st := j.stageOrder t.1 g
    let order := if j.plan.ord3 = 2 then (j.stepKbs g).flatMap fun kb => st.filter (·.2 == kb) else st
    order.map fun b =>
      { step := i, stepA := j.stepOfA i, stepB := j.stepOfB i, tok := b.1, c0 := j.c0 + t.2 * j.plan.na,
        cn := min j.plan.na (j.nt - t.2 * j.plan.na), m0 := j.t0 + t.1 * j.plan.ma * formG j.f, kb := b.2,
        kb0 := g * j.plan.ks, ix := st.findIdx (· == b) }

def AJob.blocks (j : AJob) : List ABlock := (List.range j.steps.length).flatMap j.stepBlocks

/-! ## What a tile stages and streams -/

/-- Row and column of a tile in the gang of its form (R56). -/
def gangRow (f g : Nat) : Nat := g / 8 % 8 % formG f
def gangCol (f g : Nat) : Nat := g % 8 % formG f

/-- Elements of A for a token of the share, and of B for a column, zero beyond the extents (R111, R141). -/
def AJob.a (j : AJob) (k tok : Nat) : SEl := if tok < j.t0 + j.mt ∧ k < j.k then j.elA k tok else SEl.zero
def AJob.b (j : AJob) (k col : Nat) : SEl := if col < j.c0 + j.nt ∧ k < j.k then j.elB k col else SEl.zero

/-- Row r of a block's stationary rows for gang column gj: 128·g rows (R57, R58). -/
def AJob.rowBytes (j : AJob) (b : ABlock) (gj r : Nat) : List Byte :=
  stationaryRow (formT j.f) j.p (fmtWidth (tyFmt j.ta)) (fmtBlk (tyFmt j.ta)) (b.kb * j.kw) r
    fun k i => j.a k (b.tok + 128 * gj + i)

/-- Word n of a block's stream for gang row gi; the filler words around the block's columns are zero (R57). -/
def AJob.wordOf (j : AJob) (kb gi c0 cn n : Nat) : List Byte :=
  let lead := 2 * gi
  if lead ≤ n ∧ n < lead + cn then
    streamWord (formS j.f) j.p (fmtWidth (tyFmt j.tb)) (fmtBlk (tyFmt j.tb)) (kb * j.kw + 128 * j.p * gi)
      fun k => if k < kb * j.kw + 128 * j.p * gi + 128 * j.p * formS j.f then j.b k (c0 + n - lead) else SEl.zero
  else List.replicate j.wb 0

/-- Words of a block with its filler. -/
def AJob.words (j : AJob) (cn : Nat) : Nat := cn + 2 * (formG j.f - 1)

/-- The stationary blocks that a tile stages in a step, each as bytes: none but in the south row of a gang. -/
def AJob.stageA (j : AJob) (i g : Nat) : List (List Byte) :=
  match j.steps[i]? with
  | none => []
  | some (t, gr) =>
    if j.stA && gangRow j.f g == 0 && j.stepOfA i == i then
      (j.stageOrder t.1 gr).map fun b =>
        let blk : ABlock := { step := i, stepA := i, stepB := i, tok := b.1, c0 := 0, cn := 0, m0 := 0, kb := b.2, kb0 := 0, ix := 0 }
        (List.range (128 * formG j.f)).flatMap (j.rowBytes blk (gangCol j.f g))
    else []

/-- The stream that a tile stages in a step: none but in the west column of a gang. -/
def AJob.stageB (j : AJob) (i g : Nat) : List Byte :=
  match j.steps[i]? with
  | none => []
  | some (t, gr) =>
    if j.stB && gangCol j.f g == 0 && j.stepOfB i == i then
      let cn := min j.plan.na (j.nt - t.2 * j.plan.na)
      (j.stepKbs gr).flatMap fun kb =>
        (List.range (j.words cn)).flatMap (j.wordOf kb (gangRow j.f g) (j.c0 + t.2 * j.plan.na) cn)
    else []

/-! ## The jobs of a tile -/

/-- The elements of an operand as staged, from its own layout. -/
def Opd.sEl (o : Opd) (s : State) (co : List Nat) : SEl :=
  { raw := o.rawAt s co, exp := if dBlk o.raw then o.expAt s co else 0 }

/-- An element of A of a matrix product, as its prologue on a tile leaves it (R167 step 1, R170). -/
def mxElA (s : State) (c : Nat) (m : Cmd) (x : Mx) (col k tok : Nat) : SEl :=
  if (chPro x.cv) == [] then x.a.sEl s (k :: tok :: m.upOf x.a)
  else
    let e := mxEnv s c m x tok col
    let y (j : Nat) : Num := proRun s x.cv e j (x.a.f32At s (j :: tok :: m.upOf x.a))
    let ty := dDtype x.a.raw
    if dBlk x.a.raw then
      let b := convertBlk (fmtWidth (tyFmt ty)) (tyUns ty) (List.replicate 16 .ne)
        ((List.range 16).map fun j => y (k / 16 * 16 + j))
      { raw := b.elems.getD (k % 16) 0, exp := b.exp }
    else { raw := (convElem x.a.raw .ne (y k)).bits, exp := 0 }

/-- The plan of a tile's share in its form; a form's smallest plan where the share is planned no more. -/
def planOr (x : Mx) (u : Pins) (f mt nt : Nat) : Plan :=
  match planFor x u f mt nt with
  | .plan p => p
  | .short .. => { ma := formT f, na := max 1 (min nt 128), ks := 1, ord1 := 1, ord2 := 1, ord3 := 1 }

/-- The share of a tile: in a gang, the gang's combined share (R132). -/
def tileShare (s : State) (x : Mx) (f g : Nat) : Option (Nat × Nat × Nat × Nat) :=
  match x.shares.find? (·.g == g) with
  | none => none
  | some h =>
    if formG f = 1 then some (h.t0, h.tn, h.c0, h.cn)
    else
      let hs := x.shares.filter fun e => (gangTiles (formG f) g).contains e.g
      (gangShare s x (formG f) h).map fun mn => (hs.foldl (fun a e => min a e.t0) h.t0, mn.1, h.c0, h.cn)

/-- The job of a tile for a matrix product whose stationary elements a function gives. -/
def mxJob (s : State) (x : Mx) (u : Pins) (f g : Nat) (elA elB : Nat → Nat → SEl) (start : Nat → Nat → AccV)
    (skip : Nat → Nat → Nat → Bool) : List AJob :=
  match tileShare s x f g with
  | none => []
  | some (t0, tn, c0, cn) =>
    [{ f := f, p := x.p, ta := dDtype x.a.raw, tb := dDtype x.b.raw, t0 := t0, mt := tn, c0 := c0, nt := cn, k := x.k,
       plan := planOr x u f tn cn, stA := x.a.staged, stB := x.b.staged, elA := elA, elB := elB, start := start, skip := skip }]

/-- Start of an accumulator from `C` under `ACC_IN`, otherwise zero (R81, R124). -/
def accStart (s : State) (accIn int : Bool) (ci : Opd) (co : List Nat) : AccV :=
  if accIn then
    let r := ci.rawAt s co
    if int then .i (toSigned 32 r) else .f (dec32 r)
  else AccV.start int

def matrixJobs (s : State) (c : Nat) (m : Cmd) (f g : Nat) : List AJob :=
  let x := mxOf s c m
  mxJob s x (mxPins m x) f g (mxElA s c m x (((x.shares.find? (·.g == g)).map Share.c0).getD 0))
    (fun k n => x.b.sEl s (k :: n :: m.upOf x.b))
    (fun t n => accStart s m.mxAccIn (m.mxAcc == 1) x.ci (n :: t :: m.upOf x.ci)) fun _ _ _ => false

/-- An element under a tap as staged: a masked tap is zero (R227). -/
def tapSEl (ty : Nat) (t : El × Bool) : SEl :=
  if t.2 then SEl.zero
  else
    let f := tyFmt ty
    if fmtInt f then { raw := intBits (fmtWidth f) t.1.i, exp := if fmtBlk f then t.1.code else 0 }
    else { raw := ((fmtF f).convert .ne t.1.v).bits, exp := 0 }

/-- A layer's product on tokens of its output as a job: the whole output of a plain convolution, or a region of a fused
one; a K block is skipped where every tap of its tokens is masked (R228). -/
def convJob (s : State) (u : CvCtx) (img : CvIn) (f : Nat) (plan : Plan) (stA : Bool) (tok : Nat → Nat × Nat)
    (t0 mt c0 nt : Nat) (start : Nat → Nat → AccV) : AJob :=
  let l := u.l
  let kn := l.kh * l.kw * img.ch
  let p := rateOf u.tin l.tw
  let tap (k i : Nat) := layerTap l img img.ch 0 (tok i).1 (tok i).2 k
  let kw := max 1 (128 * p * formS f * formG f)
  { f := f, p := p, ta := u.tin, tb := l.tw, t0 := t0, mt := mt, c0 := c0, nt := nt, k := kn, plan := plan,
    stA := stA, stB := l.f.staged, elA := fun k i => tapSEl u.tin (tap k i),
    elB := fun k n => l.f.sEl s (k :: n :: u.ups), start := start,
    skip := fun i n kb => (List.range n).all fun e => t0 + mt ≤ i + e || (List.range kw).all fun k =>
      kn ≤ kb * kw + k || (tap (kb * kw + k) (i + e)).2 }

/-- The jobs of a CONV on a tile: one product for a plain one; for a fused plan, each spatial tile's layers in order, each
over its region of R238 with the smallest plan of R240. Grouped layers run on the vector engine (R237). -/
def convJobs (s : State) (c : Nat) (m : Cmd) (f g : Nat) : List AJob :=
  let x := cxOf s c m
  let mk := cvCtx s c m m.bound.regs x
  if x.plain then
    match x.ls with
    | l :: _ =>
      let img := cvImage s x.x ((imgUp x.x m.cvBidx).getD [])
      let wo := x.out.2
      match tileShare s x.mx f g with
      | none => []
      | some (t0, tn, c0, cn) =>
        [convJob s (mk 0 l g) img f (planOr x.mx (cvPins m x) f tn cn) true (fun t => (t / wo, t % wo)) t0 tn c0 cn
          fun t n => cvStart s m x l (t / wo) (t % wo) n]
    | [] => []
  else
    ((cvUnits s c m x).filter fun u => u.2.1 0 0 0 == g).flatMap fun (r, _, imgs, _) =>
      ((List.range x.ls.length).zip (x.ls.zip (imgs.zip (x.regions r)))).filterMap fun (i, l, img, r) =>
        if l.g = 1 then
          some (convJob s (mk i l g) img f
            { ma := formT f, na := max 1 (min (x.cout i) 128), ks := 1, ord1 := 1, ord2 := 1, ord3 := 1 } false
            (fun t => (r.y0 + t / max 1 r.wn, r.x0 + t % max 1 r.wn)) 0 (r.hn * r.wn) 0 (x.cout i)
            fun _ _ => AccV.start (l.acc == 1))
        else none

/-- The jobs of an INFUSION on a tile: for each query block and key block of its parts the score product, whose queries
are staged with the first key block, and the value product, whose probabilities come from the vector engine (R210,
R212, R216). Keys and values at and beyond Nk are zeros. -/
def infusionJobs (s : State) (c : Nat) (m : Cmd) (f g : Nat) : List AJob :=
  let x := ixOf s c m
  let nk := x.nk m
  match (ixShares x m.ifKs).find? (·.g == g) with
  | none => []
  | some h =>
    let t := formT f
    let pq := rateOf m.ifTq x.tk
    let pp := rateOf m.ifTp x.tv
    let plan (ks : Nat) (n : Nat) : Plan := { ma := t, na := n, ks := ks, ord1 := 1, ord2 := 1, ord3 := 1 }
    (List.range (cdiv h.tn t)).flatMap fun qb =>
      let t0 := h.t0 + qb * t
      let tn := min t (h.tn - qb * t)
      (List.range h.pn).flatMap fun i =>
        let (b0, bn) := keyPart nk m.ifKs (h.p0 + i)
        (List.range bn).flatMap fun jj =>
          let b := b0 + jj
          let kv (v : Bool) (n e : Nat) : SEl :=
            if n < nk then { raw := ixKvRaw s c m x v n e, exp := 0 } else SEl.zero
          [{ f := f, p := pq, ta := m.ifTq, tb := x.tk, t0 := t0, mt := tn, c0 := 0, nt := 128, k := x.dim,
             plan := plan (max 1 (cdiv x.dim (ixKw pq f))) 128, stA := i == 0 && jj == 0, stB := true,
             elA := fun k tok => x.qo.sEl s (k :: tok :: m.ifUp x.qo), elB := fun k n => kv false (128 * b + n) k,
             start := fun _ _ => AccV.start false, skip := fun _ _ _ => false },
           { f := f, p := pp, ta := m.ifTp, tb := x.tv, t0 := t0, mt := tn, c0 := 0, nt := x.dim, k := 128,
             plan := plan 1 x.dim, stA := false, stB := true,
             elA := fun k tok => { raw := ixProbRaw s c m x tok (h.p0 + i) jj k, exp := 0 },
             elB := fun k e => kv true (128 * b + k) e, start := fun _ _ => AccV.start false, skip := fun _ _ _ => false }]

/-- The jobs of a tile under a matrix command. -/
def arrayJobs (s : State) (c : Nat) (m : Cmd) (f g : Nat) : List AJob :=
  match m.opcode with
  | 0x10 => matrixJobs s c m f g
  | 0x11 => infusionJobs s c m f g
  | 0x12 => convJobs s c m f g
  | _ => []

/-! ## The walk -/

/-- The job that holds entry i of the concatenated lists of a measure, and the entry's place within it. -/
def jobAt (size : AJob → Nat) : List AJob → Nat → Nat → Option (AJob × Nat × Nat)
  | [], _, _ => none
  | j :: r, i, before => if i < size j then some (j, i, before) else jobAt size r (i - size j) (before + j.steps.length)

/-- Step i of a walk: its job, its number in the job, and how many steps earlier jobs have. -/
def walkStep (js : List AJob) (i : Nat) : Option (AJob × Nat × Nat) := jobAt (fun j => j.steps.length) js i 0

/-- Block i of a walk. -/
def walkBlock (js : List AJob) (i : Nat) : Option (AJob × ABlock × Nat) :=
  (jobAt (fun j => j.blocks.length) js i 0).bind fun (j, k, n) => (j.blocks[k]?).map fun b => (j, b, n)

/-- The command that uses a tile's array, with its context. -/
def tileCmd (s : State) (g : Nat) : Option (Nat × Cmd) :=
  (definedCtxs s).findSome? fun c => ((s.ctx c).cmds.find? fun m =>
    (m.phase == .issued || m.phase == .acted) && m.bound.forms.any fun f => f.1 == g).map fun m => (c, m)

/-- The walk of a tile for a command: afresh where the tile walks another one. -/
def walkOf (s : State) (g c q : Nat) : Walk :=
  match (s.tile2 g).walk with
  | some w => if w.c = c ∧ w.q = q then w else { c := c, q := q, steps := 0, blocks := 0, words := none, held := [] }
  | none => { c := c, q := q, steps := 0, blocks := 0, words := none, held := [] }

/-- Number of the step that the next block of a walk belongs to. -/
def walkFront (js : List AJob) (w : Walk) : Nat :=
  match walkBlock js w.blocks with
  | some (_, b, n) => n + b.step
  | none => (js.map fun j => j.steps.length).sum

/-- Is a half of the staging space free for the next step (R545)? -/
def halfFree (js : List AJob) (w : Walk) : Bool := decide (w.steps < walkFront js w + 2)

/-- The chunks of byte lists with where each lies, of at most `size` bytes each. -/
def chunksAt (size : Nat) (ats : List (Nat × Nat)) (bs : List Byte) : List ((Nat × Nat) × List Byte) :=
  ats.zipIdx.map fun (t, i) => (t, (bs.drop (size * i)).take size)

/-- Does a chunk lie within the staging region's banks? -/
def chunkInside (st : Opd) (x : (Nat × Nat) × List Byte) : Bool :=
  st.banks.contains x.1.1 && decide (st.reg.off ≤ x.1.2 ∧ x.1.2 + x.2.length ≤ st.reg.off + st.reg.len)

/-- The staging region of a matrix command. -/
def stageOpd (s : State) (c : Nat) (m : Cmd) : Opd :=
  let rid := match m.opcode with
    | 0x10 => m.f 0x1A 16
    | 0x11 => m.f 0x18 16
    | _ => m.f 0x16 16
  mkOpd s c m.bound.regs (regionBlob rid)

/-- The cells that a command's staging reads. -/
def stageReads (s : State) (c : Nat) (m : Cmd) : List CellAt :=
  match m.opcode with
  | 0x10 => mxReads s c m (mxOf s c m)
  | 0x11 => ixReads s c m (ixOf s c m)
  | 0x12 => cvReads s c m (cxOf s c m)
  | _ => []

/-- STAGING_FETCH_DONE (R47, R134, R210, R545): the next staging step of the tile's walk lands in array layout in the half
that is free. Operands that do not place the whole step inside the staging region name no landing of this device, and change
nothing. A source that fails and a bank that its owner withholds from the DMA engine end the command (R272, R354). -/
def execStagingFetchDone (c q g : Nat) (aAt bAt : List (Nat × Nat)) (s : State) : Host.Outcome State Fault Refusal :=
  match running? s c q with
  | none => .next s
  | some m =>
    match aget m.bound.forms g, mustWait s c m with
    | some f, false =>
      let js := arrayJobs s c m f g
      let w := walkOf s g c q
      match walkStep js w.steps, halfFree js w with
      | some (j, i, _), true =>
        let a := j.stageA i g
        let b := chunksAt 2048 bAt (j.stageB i g)
        let put := aAt.zip a ++ b
        if a.length ≠ aAt.length ∨ (j.stageB i g).length ≠ (b.map fun x => x.2.length).sum
            ∨ !put.all (chunkInside (stageOpd s c m)) then .next s
        else
        let accs := put.map fun x => { g := g, k := x.1.1, tile := g, kind := .dma, wr := true, a := x.1.2 : BankAcc }
        match accFail s c (stageReads s c m) [] accs with
        | some e => .next (failCmd c q e s)
        | none =>
          let s := forAll put (fun x u => bankWrite g x.1.1 x.1.2 x.2 u) s
          let held := { step := w.steps, a := aAt, b := bAt : Landed } :: w.held
          .next (s.modTile2 g fun x => { x with walk := some { w with steps := w.steps + 1, held := held } })
      | _, _ => .next s
    | _, _ => .next s

/-! ## Loading and swapping (R53 to R58) -/

/-- A byte of a staged run of chunks of a size. -/
def heldByte (s : State) (g size : Nat) (ats : List (Nat × Nat)) (i : Nat) : Byte :=
  match ats[i / size]? with
  | some (k, a) => mget s.bankMem (bankKey g k (a + i % size))
  | none => 0

/-- The step of a walk that holds, by its number. -/
def heldStep (w : Walk) (i : Nat) : Option Landed := w.held.find? (·.step == i)

/-- Row r of a block for gang column gj, as it lies in the bank of the column's south tile, or in place (R53, R58). -/
def rowFrom (s : State) (j : AJob) (b : ABlock) (n south gj r : Nat) (w : Walk) : List Byte :=
  if j.stA then
    match heldStep w (n + b.stepA) with
    | some l =>
      match l.a[b.ix]? with
      | some (k, a) => (List.range j.rb).map fun i => mget s.bankMem (bankKey south k (a + r * j.rb + i))
      | none => j.rowBytes b gj r
    | none => j.rowBytes b gj r
  else j.rowBytes b gj r

/-- Word n of a block's stream for gang row gi, as it lies in the banks of the row's west tile, or in place. -/
def wordFrom (s : State) (j : AJob) (b : ABlock) (before west gi n : Nat) (w : Walk) : List Byte :=
  if j.stB then
    match heldStep w (before + b.stepB) with
    | some l =>
      let first := ((b.kb - b.kb0) * j.words b.cn + n) * j.wb
      (List.range j.wb).map fun i => heldByte s west 2048 l.b (first + i)
    | none => j.wordOf b.kb gi b.c0 b.cn n
  else j.wordOf b.kb gi b.c0 b.cn n

/-- A row written into the slots of a stationary set: two bytes a slot, and its exponents behind the slots. -/
def setRow (j : AJob) (r : Nat) (bs : List Byte) (m : Mem) : Mem :=
  let sb := sliceBytes j.p (fmtWidth (tyFmt j.ta))
  let slots := (List.range 128).flatMap fun c => (List.range sb).map fun i => (2 * (128 * r + c) + i, bs.getD (c * sb + i) 0)
  let exps := (List.range (j.rb - 128 * sb)).map fun i => (32768 + 64 * r + i, bs.getD (128 * sb + i) 0)
  mwriteAll m (slots ++ exps)

/-- Element k of token slot t from a stationary set (R44, R110). -/
def setEl (j : AJob) (m : Mem) (t k : Nat) : El :=
  let w := fmtWidth (tyFmt j.ta)
  let sb := sliceBytes j.p w
  let sl := k / j.p
  let r := sl % 128
  let col := sl / 128 * formT j.f + t
  let bs := (List.range sb).map fun i => mget m (2 * (128 * r + col) + i)
  let g := 16 / j.p
  let exp := if fmtBlk (tyFmt j.ta) then
      (mget m (32768 + 64 * (r - r % g + col / (8 * j.p)) + col % (8 * j.p))).toNat
    else 0
  elOf j.ta (unpackSlice w (k % j.p) bs) exp

/-- Element k of a word. -/
def wordEl (j : AJob) (bs : List Byte) (k : Nat) : El :=
  let w := fmtWidth (tyFmt j.tb)
  let sb := sliceBytes j.p w
  elOf j.tb (unpackSlice w (k % j.p) ((bs.drop (k / j.p * sb)).take sb))
    (if fmtBlk (tyFmt j.tb) then (bs.getD (128 * formS j.f * sb + k / 16) 0).toNat else 0)

/-- An accumulator entry as it stands, and its 32 bits. -/
def accOf (int : Bool) (raw : Nat) : AccV := if int then .i (toSigned 32 raw) else .f (dec32 raw)

/-- The tiles of a job on a tile: its gang, by gang row then column, or itself. -/
def jobTiles (f g : Nat) : List Nat := gangTiles (formG f) g

/-- Load rows `from_` to `from_ + n - 1` of a block into the shadow set of a tile that is not ganged (R53). -/
def loadRows (w : Walk) (j : AJob) (b : ABlock) (before from_ n g : Nat) (s : State) : State :=
  let m := (List.range n).foldl (fun m i => setRow j (from_ + i) (rowFrom s j b before g 0 (from_ + i) w) m) (s.tile2 g).shadow
  (s.modTile2 g fun x => { x with shadow := m }).modTile g fun x => { x with shadowRows := from_ + n }

/-- Has every step that a block needs landed on the tiles that stage it? -/
def landed (s : State) (c q : Nat) (j : AJob) (b : ABlock) (before g : Nat) : Bool :=
  (!j.stA && !j.stB) || (jobTiles j.f g).all fun e =>
    let needs := (j.stA && gangRow j.f e == 0) || (j.stB && gangCol j.f e == 0)
    !needs || decide (before + b.step < (walkOf s e c q).steps)

/-- The rows that a throttle period reads for the next block of a tile that is not ganged: as many as the block still
lacks, while its bytes have landed (R53). -/
def shadowLoad (n g : Nat) (s : State) : State :=
  match tileCmd s g with
  | none => s
  | some (c, m) =>
    match aget m.bound.forms g with
    | none => s
    | some f =>
      let w := walkOf s g c m.seq
      match walkBlock (arrayJobs s c m f g) w.blocks with
      | some (j, b, before) =>
        if formG f = 1 ∧ landed s c m.seq j b before g = true then
          let have_ := (s.tile g).shadowRows
          loadRows w j b before have_ (min n (128 - have_)) g (s.modTile2 g fun x => { x with walk := some w })
        else s
      | none => s

/-- Load stalls before a block is in the active set (R54, R55, R58): of a gang its load and, after a block, its drain; of a
single tile what the words of the block before it do not hide, and 127 cycles after the array was idle (DEDUCED, log
46). -/
def loadStalls (f : Nat) (before : Option Nat) : Nat :=
  let g := formG f
  if g = 1 then
    match before with
    | some n => 128 - n
    | none => 127
  else 128 * g + if before.isSome then 4 * (g - 1) else 0

/-- Stream a block's words against the active sets into the accumulator memory of the north tile of each gang column
(R41, R57): each column's groups in ascending K order, on top of what earlier K blocks left. -/
def streamBlock (c q : Nat) (j : AJob) (b : ABlock) (before g : Nat) (s : State) : State :=
  let n := formG j.f
  let ts := jobTiles j.f g
  let tile (gi gj : Nat) := ts.getD (n * gi + gj) g
  let live := min j.kw (j.k - b.kb * j.kw)
  let int (a : AccV) : Bool := match a with | .i _ => true | .f _ => false
  forAll (List.range n) (fun gj u =>
    let north := tile (n - 1) gj
    let toks := min (formT j.f) (j.t0 + j.mt - (b.tok + 128 * gj))
    let entries := (List.range b.cn).flatMap fun i =>
      let word (gi : Nat) : List Byte := wordFrom s j b before (tile gi 0) gi (2 * gi + i) (walkOf s (tile gi 0) c q)
      let words := (List.range n).map word
      (List.range toks).flatMap fun t =>
        let tok := b.tok + 128 * gj + t
        let ix := 4 * ((b.tok - b.m0) / n * b.cn + t * b.cn + i)
        let st := j.start tok (b.c0 + i)
        let a0 := if b.kb = 0 then st else accOf (int st) (ofBytes ((List.range 4).map fun e => mget (s.tile2 north).acc (ix + e)))
        let seg := 128 * j.p * formS j.f
        let a := lane (windowBits j.ta j.tb) a0 (groupsOf live fun k =>
          (setEl j (s.tile2 (tile (k / seg) gj)).active t (k % seg), wordEl j (words.getD (k / seg) []) (k % seg)))
        (toBytes 4 a.1.raw).zipIdx.map fun e => (ix + e.2, e.1)
    u.modTile2 north fun x => { x with acc := mwriteAll x.acc entries }) s

/-- The next block enters the active sets: of a single tile from its complete shadow set, of a gang row by row through the
tiles of each column (R54, R58). -/
def enterBlock (c q : Nat) (j : AJob) (b : ABlock) (before g : Nat) (s : State) : State :=
  if formG j.f = 1 then
    let have_ := (s.tile g).shadowRows
    let s := loadRows (walkOf s g c q) j b before have_ (128 - have_) g s
    (s.modTile2 g fun x => { x with active := x.shadow, shadow := [] }).modTile g fun x => { x with shadowRows := 0 }
  else
    let n := formG j.f
    let ts := jobTiles j.f g
    forAll ts.zipIdx (fun (e, i) u =>
      let south := ts.getD (i % n) g
      let w := walkOf s south c q
      let rows := (List.range 128).foldl
        (fun m r => setRow j r (rowFrom s j b before south (i % n) (128 * (i / n) + r) w) m) []
      u.modTile2 e fun x => { x with active := rows }) s

/-- SHADOW_SWAP (R54, R57, R58): once the last row of the next block has been read, the block enters the active sets of the
tile or of its whole gang, the swap and the load stalls before it are counted, and its words stream into the accumulator
memory. Until the block's bytes have landed nothing swaps. Load stalls of a gated period are the throttle's (R72). -/
def execShadowSwap (g counted : Nat) (s : State) : Host.Outcome State Fault Refusal :=
  if !s.live then .next s else
  match tileCmd s g with
  | none => .next s
  | some (c, m) =>
    match aget m.bound.forms g with
    | none => .next s
    | some f =>
      let w := walkOf s g c m.seq
      match walkBlock (arrayJobs s c m f g) w.blocks with
      | none => .next s
      | some (j, b, before) =>
        if landed s c m.seq j b before g then
          let stall := loadStalls f w.words - counted
          let s := forAll (jobTiles f g) (fun e t => t.modTile2 e fun x => { x with walk := some (walkOf s e c m.seq) }) s
          let s := streamBlock c m.seq j b before g (enterBlock c m.seq j b before g s)
          .next (forAll (jobTiles f g) (fun e t =>
            let w := walkOf t e c m.seq
            let w := { w with blocks := w.blocks + 1, words := some (j.words b.cn) }
            let w := { w with held := w.held.filter fun l => decide (walkFront (arrayJobs s c m f e) w ≤ l.step) || j.plan.ord1 != 1 }
            (t.modTile2 e fun x => { x with walk := some w }).modTile e fun x => { x with
              swaps := x.swaps + 1, loadStall := x.loadStall + BitVec.ofNat 64 stall }) s)
        else .next s

end Sys2Proof.Machine
end

