-- ==== Sys2Proof/Machine/Array.lean ====
section
/-! DEFINITION. The array around its products: ramps (R62 to R65), throttling (R66, R67, R524), clock gating (R28, R536),
the array control word (R68 to R70), and the power cap (R33 to R36). -/

namespace Sys2Proof.Machine

open Sys2Proof

/-! ## The control word (R69) -/

def rampOff (v : Nat) : Bool := bit v 31
def idleGap (v : Nat) : Nat := bits v 8 8
def rampLenOf (v : Nat) : Nat := bits v 0 4

/-- A control word with its fields clamped (R70) and its reserved bits zero. -/
def arrayClamp (v : Nat) : Nat :=
  sh (bits v 31 1) 31 + sh (max 1 (idleGap v)) 8 + sh (bits v 4 2) 4 + min 8 (max 2 (rampLenOf v))

/-- Was a field of the written word clamped? -/
def arrayClamped (v : Nat) : Bool := idleGap v == 0 || decide (rampLenOf v < 2) || decide (8 < rampLenOf v)

/-- Write `ARRAY_CTRL` of a slab (R68, R70). -/
def setArrayCtrl (n v : Nat) (s : State) : State :=
  let off := rampOff v && !rampOff (s.slab n).arrayCtrl.toNat
  let s := s.modSlab n fun x => { x with arrayCtrl := w32 (arrayClamp v) }
  let s := if off then rampsStop n s else s
  if arrayClamped v || off then arrayEvent n (w32 (2 * b2n (arrayClamped v) + b2n off)) s else s

/-- ARRAY_CTRL_WRITE (R68, R70): from any other source than the PF or the test port it is dropped. -/
def execArrayCtrlWrite (src : Src) (slab : Nat) (value : BitVec 32) (s : State) : Host.Outcome State Fault Refusal :=
  if isOperator s src && coreLive s slab then .next (setArrayCtrl slab value.toNat s) else .next s

/-- The slabs that an `ARRAY_SET` names (R348). -/
def arraySlabs (s : State) (c : Nat) (m : Cmd) : List Nat :=
  let ms := members s (s.ctx c).reg.part
  if m.f 0x14 8 = 0xFF then ms else ms.filter (· == m.f 0x14 8)

/-- The checks of ARRAY_SET (R348). -/
def checkArraySet (s : State) (c : Nat) (m : Cmd) : Verdict :=
  let v := m.entry.toNat
  verdict
    [ chk .cmd (bodyResv m [(0x15, 0x40)] ++
        [resvBits v 0x10 6 2, resvBits v 0x10 16 15, ((arraySlabs s c m).isEmpty, 0x14)]),
      if (s.ctx c).reg.func ≠ 0 then some (entryRef .perm 0) else none ] (mkBound s c [] [])

/-- Is the partition at a command boundary for a command: has every command fetched before it, in any context of the
partition, done its work or stopped to wait (DEDUCED, log 47)? -/
def atBoundary (s : State) (p : Nat) (m : Cmd) : Bool :=
  (openCmds s p).all fun e => e.2.phase != .issued || e.2.interrupted || decide (m.stamp ≤ e.2.stamp)

/-- ARRAY_SET (R68, R348): the change applies at the partition's command boundary, on each named member. -/
def execArraySet (c q : Nat) (s : State) : Host.Outcome State Fault Refusal :=
  match ready? s c q 0x07 with
  | some m =>
    if atBoundary s (s.ctx c).reg.part m then
      .next (finish c q .ok [] (forAll (arraySlabs s c m) (fun n t => setArrayCtrl n (m.f 0x10 32) t) s))
    else .next s
  | none => .next s

/-! ## Ramps (R62 to R65) -/

/-- The tiles that ramp and throttle with a tile, south-west tile first: its gang, or itself (R67). -/
def lockStep (s : State) (g : Nat) : List Nat := gangTiles (formG (s.tile g).form) g

/-- The tile that directs a tile's ramps: the south-west one of its gang (R67). -/
def rampLead (s : State) (g : Nat) : Nat := ((lockStep s g).head?).getD g

/-- Take over the ramp of another tile. -/
def Tile.follow (y x : Tile) : Tile :=
  { x with frac := y.frac, dir := y.dir, credit := y.credit, rampLen := y.rampLen, gated := y.gated }

/-- Put the tiles that are in lock step with a tile into one ramp. -/
def setRamp (g : Nat) (y : Tile) (s : State) : State :=
  forAll (lockStep s g) (fun h t => t.modTile h y.follow) s

/-- Control word of the slab that serves a tile's position. -/
def tileCtrl (s : State) (g : Nat) : Nat := (s.slab (bankSlab s g)).arrayCtrl.toNat

/-- Is the tile's slab in a gated throttle period? -/
def tileGated (s : State) (g : Nat) : Bool := !(s.slab (bankSlab s g)).periodOk

/-- Are the tile's array and engines without a clock: its position is in no partition (R28), or nothing has used it for 64
cycles (R536)? -/
def clockOff (s : State) (g : Nat) : Bool := (partOf s (g / 64)).isNone || (s.tile g).gated

/-- A ramp up starts at the phase one eighth above the present fraction (R64); without ramps the fraction goes to 8/8
(R68). -/
def Tile.rampUp (off : Bool) (len : Nat) (x : Tile) : Tile :=
  if off then { x with frac := 8, dir := .steady, credit := 0, gated := false }
  else { x with frac := min 8 (x.frac + 1), dir := .up, credit := 0, rampLen := len, gated := false }

/-- A ramp down starts at the phase one eighth below the present fraction (R64). -/
def Tile.rampDown (off : Bool) (len : Nat) (x : Tile) : Tile :=
  if off then { x with frac := 0, dir := .steady, credit := 0 }
  else { x with frac := x.frac - 1, dir := .down, credit := 0, rampLen := len }

/-- What the cycles of a phase counted: words, dummy operations, holds and load stalls, and the credit at its end. -/
structure PhaseCount where
  work : Nat
  dummy : Nat
  hold : Nat
  load : Nat
  credit : Nat
deriving DecidableEq, Repr

/-- One cycle of a ramp (R62, R63, R72): at a credit of 8 it is active and consumes a word or is a dummy operation; a
ready word in another cycle is held; a cycle that waits on a load counts as that. -/
def phaseCycle (frac : Nat) (k : PhaseCount) (c : Cyc) : PhaseCount :=
  let active := decide (8 ≤ k.credit + frac)
  let k := { k with credit := k.credit + frac - if active then 8 else 0 }
  match c with
  | .stall => { k with load := k.load + 1 }
  | .ready => if active then { k with work := k.work + 1 } else { k with hold := k.hold + 1 }
  | .idle => if active then { k with dummy := k.dummy + 1 } else k

/-- The first n cycles of a phase; a cycle that is not listed had no ready word. -/
def phaseRun (x : Tile) (n : Nat) (cycles : List Cyc) : PhaseCount :=
  ((List.range n).map fun i => cycles.getD i .idle).foldl (phaseCycle x.frac)
    { work := 0, dummy := 0, hold := 0, load := 0, credit := x.credit }

/-- The context whose command uses a tile's array (R60). -/
def tileUser (s : State) (g : Nat) : Option Nat := (tileCmd s g).map Prod.fst

/-- Credit a context with array cycles and vector cycles (R452). -/
def creditCtx (c work vec : Nat) (s : State) : State :=
  if c = 0 ∨ (s.ctx c).reg.st = .free then s
  else s.modCtx c fun x => { x with prof := { x.prof with
    array := x.prof.array + BitVec.ofNat 64 work, vec := x.prof.vec + BitVec.ofNat 64 vec } }

/-- Count a phase's cycles on a tile; in a gated period they count as throttled with the period (R72). -/
def countPhase (k : PhaseCount) (g : Nat) (s : State) : State :=
  if tileGated s g then s
  else
    let s := s.modTile g fun x => { x with
      work := x.work + BitVec.ofNat 64 k.work, dummy := x.dummy + BitVec.ofNat 64 k.dummy,
      rampHold := x.rampHold + BitVec.ofNat 64 k.hold, loadStall := x.loadStall + BitVec.ofNat 64 k.load }
    match tileUser s g with
    | some c => creditCtx c k.work 0 s
    | none => s

/-- The cycles of a phase that a new ramp cuts short count on every tile in lock step; a steady array has none. -/
def cutPhase (g : Nat) (cut : List Cyc) (s : State) : State :=
  let x := s.tile (rampLead s g)
  if x.dir = .steady then s
  else forAll (lockStep s g) (countPhase (phaseRun x (min x.rampLen cut.length) cut)) s

/-- RAMP_UP (R64): a word becomes ready at fraction 0/8 or during a ramp down, in a permitted period; the south-west
tile of a gang decides, and the whole gang follows (R67). -/
def execRampUp (g : Nat) (cut : List Cyc) (s : State) : Host.Outcome State Fault Refusal :=
  if !s.live then .next s else
  let x := s.tile (rampLead s g)
  if !tileGated s g && ((x.frac == 0 && x.dir == .steady) || x.dir == .down) then
    let v := tileCtrl s g
    .next (setRamp g (x.rampUp (rampOff v) (rampLenOf v)) (cutPhase g cut s))
  else .next s

/-- RAMP_DOWN (R64): `IDLE_GAP` cycles have passed without a ready word, at 8/8 or during a ramp up. -/
def execRampDown (g : Nat) (cut : List Cyc) (s : State) : Host.Outcome State Fault Refusal :=
  if !s.live then .next s else
  let x := s.tile (rampLead s g)
  if 0 < x.frac ∧ x.dir ≠ .down then
    let v := tileCtrl s g
    .next (setRamp g (x.rampDown (rampOff v) (rampLenOf v)) (cutPhase g cut s))
  else .next s

/-- The next phase, or the end of the ramp (R62). -/
def Tile.nextPhase (credit : Nat) (x : Tile) : Tile :=
  match x.dir with
  | .steady => x
  | .up => if 8 ≤ x.frac then { x with dir := .steady, credit := 0 } else { x with frac := x.frac + 1, credit := credit }
  | .down => if x.frac = 0 then { x with dir := .steady, credit := 0 } else { x with frac := x.frac - 1, credit := credit }

/-- RAMP_PHASE_END (R62): the cycles of the phase count, the fraction moves by one eighth, and after the eighth phase it
is steady. In a gated period no word is ready. -/
def execRampPhaseEnd (g : Nat) (cycles : List Cyc) (s : State) : Host.Outcome State Fault Refusal :=
  if !s.live then .next s else
  let x := s.tile (rampLead s g)
  if x.dir = .steady then .next s
  else
    let k := phaseRun x x.rampLen (if tileGated s g then [] else cycles)
    .next (setRamp g (x.nextPhase k.credit) (forAll (lockStep s g) (countPhase k) s))

/-! ## Throttling (R66, R524) -/

/-- The issue rate of a slab, in sixteenths. -/
def issueRate (s : State) (n : Nat) : Nat := min (16 - s.pkg.step) (min s.pkg.rateCap (s.slab n).thermalRate)

/-- Is period i of a group of 16 permitted at rate q? -/
def periodPermitted (q i : Nat) : Bool := decide (i * q / 16 < (i + 1) * q / 16)

/-- An activity cut to what 128 cycles can hold, holds before dummy operations before words (R72); with `RAMP_OFF` there are
no dummy operations (R68). -/
def fitAct (off : Bool) (a : TileAct) : TileAct :=
  let h := min 128 a.hold
  let d := if off then 0 else min (128 - h) a.dummy
  { a with hold := h, dummy := d, work := min (128 - h - d) a.work, vec := min 128 a.vec, epi := min 128 a.epi }

/-- Count what a tile did in a period that was permitted (R71, R182, R452); in a gated one only its vector engine
counts. Work ends clock gating (R536). The stationary rows read go to the shadow set (R53). -/
def countAct (permitted : Bool) (act : TileAct) (s : State) : State :=
  let a := fitAct (rampOff (tileCtrl s act.tile)) act
  let n (v : Nat) : DWord := BitVec.ofNat 64 v
  let s := s.modTile a.tile fun x =>
    let x := { x with gated := x.gated && a.work + a.dummy + a.hold + a.rows + a.vec == 0 }
    if permitted then { x with
      work := x.work + n a.work, dummy := x.dummy + n a.dummy, rampHold := x.rampHold + n a.hold }
    else x
  let s := s.modTile2 a.tile fun x => { x with
    vecBusy := x.vecBusy + n a.vec, vecEpiwait := x.vecEpiwait + n (if permitted then a.epi else 0) }
  shadowLoad a.rows a.tile (creditCtx a.ctx (if permitted then a.work else 0) a.vec s)

/-- A tile as its period ends: what it did is counted, and in a gated period its 128 cycles are throttled unless its clock
was off (R72, R536). -/
def periodTile (permitted : Bool) (acts : List TileAct) (g : Nat) (s : State) : State :=
  let s := match acts.find? (·.tile == g) with
    | some a => countAct permitted a s
    | none => s
  if permitted || clockOff s g then s else s.modTile g fun x => { x with throttle := x.throttle + 128 }

/-- The cycles of a ramp phase that a tile reports as cut short at the end of a period. -/
def cutOf (acts : List TileAct) (g : Nat) : List Cyc :=
  match acts.find? (·.tile == g) with
  | some a => a.cut
  | none => []

/-- The period that begins is gated: an array above 0/8 ramps down at once (R66); the cycles of the phase it cuts short
belong to the period that ended. -/
def gateTile (v : Nat) (acts : List TileAct) (g : Nat) (s : State) : State :=
  let x := s.tile (rampLead s g)
  if 0 < x.frac ∧ x.dir ≠ .down then setRamp g (x.rampDown (rampOff v) (rampLenOf v)) (cutPhase g (cutOf acts g) s) else s

/-- THROTTLE_PERIOD (R66): the period that ends is counted, the slab's cycle counter reaches the next multiple of 128 (log
7), and the period that begins there is permitted or gated by its number in its group of 16. A slab in no partition has
no array clock (R28). -/
def execThrottlePeriod (slab : Nat) (acts : List TileAct) (s : State) : Host.Outcome State Fault Refusal :=
  if !s.live then .next s else
  let cycle := ((s.slab slab).cycle.toNat / 128 + 1) * 128
  let tick (x : Slab) : Slab := { x with cycle := BitVec.ofNat 64 cycle }
  let pos := posOf s slab
  if coreLive s slab && inService s slab && (partOf s pos).isSome then
    let s := forAll (slabTiles pos) (periodTile (s.slab slab).periodOk acts) s
    let ok := periodPermitted (issueRate s slab) (cycle / 128 % 16)
    let s := if ok then s else forAll (slabTiles pos) (gateTile (s.slab slab).arrayCtrl.toNat acts) s
    .next (s.modSlab slab fun x => { tick x with periodOk := ok })
  else .next (s.modSlab slab tick)

/-! ## Clocks -/

/-- TILE_CLOCK_GATE (R536): nothing to do for 64 cycles; contents do not change, and the gating ends with the next
work. -/
def execTileClockGate (g : Nat) (s : State) : Host.Outcome State Fault Refusal :=
  if !s.live then .next s else
  let busy := match partOf s (g / 64) with
    | some p => workAtTile s p g
    | none => false
  if !busy && (s.tile g).frac == 0 then .next (s.modTile g fun x => { x with gated := true }) else .next s

/-! ## The power cap (R33 to R37) -/

/-- POWER_LIMIT_WRITE (R33): clamped to 400 to 1900; the next sample uses it. -/
def execPowerLimitWrite (src : Src) (value : BitVec 32) (s : State) : Host.Outcome State Fault Refusal :=
  if isOperatorAt s src then
    let v := value.toNat % 2 ^ 16
    let w := min 1900 (max 400 v)
    let s := { s with pkg := { s.pkg with powerLimit := BitVec.ofNat 16 w } }
    .next (if w = v then s else pkgEvent 2 s)
  else .next s

/-- The running average over the last 1 ms as a sum of samples and how many there are (R34): at most 100 samples of 10 µs
each, fewer while the controller has not sampled for 1 ms (DESIGN CHOICE, log 47). -/
def powerSum (s : State) : Nat := s.pkg.samples.sum
def powerCount (s : State) : Nat := max 1 s.pkg.samples.length

/-- Take a sample, in watts; the average is shown in units of 10 W. -/
def addSample (watts : Nat) (s : State) : State :=
  let s := { s with pkg := { s.pkg with samples := (watts :: s.pkg.samples).take 100 } }
  { s with pkg := { s.pkg with pAvg := BitVec.ofNat 16 (min 65535 (powerSum s / (10 * powerCount s))) } }

/-- Does every slab in service run at 1/16? -/
def allAtFloor (s : State) : Bool := (List.range 100).all fun n => !inService s n || issueRate s n == 1

/-- The supplies as sampled (R542). -/
def setSupplies (v12 v48 : Nat) (s : State) : State :=
  let p := { s.pkc with v12 := min 65535 v12, v48 := min 65535 v48 }
  { s with pkc := p, pkc2 := { s.pkc2 with sampled := true } }

/-- POWER_SAMPLE (R34, R36): `watts` is the sample; the rate goes down one step while the average is at or above the limit. -/
def execPowerSample (watts v12 v48 : Nat) (s : State) : Host.Outcome State Fault Refusal :=
  if !s.live then .next s else
  let s := addSample watts (setSupplies v12 v48 s)
  if 10 * s.pkg.powerLimit.toNat * powerCount s ≤ powerSum s then
    if allAtFloor s then .next (pkgEvent 4 s)
    else
      let first := s.pkg.step == 0
      let s := { s with pkg := { s.pkg with step := min 15 (s.pkg.step + 1) } }
      .next (if first then pkgEvent 1 s else s)
  else .next s

/-- POWER_RATE_RAISE (R34): one step up while the average is below 95 % of the limit. -/
def execPowerRateRaise (s : State) : Host.Outcome State Fault Refusal :=
  if !s.live then .next s else
  if 100 * powerSum s < 950 * s.pkg.powerLimit.toNat * powerCount s then
    .next { s with pkg := { s.pkg with step := s.pkg.step - 1 } }
  else .next s

/-! ## Window and arithmetic counters -/

/-- WIN_CLEAR_PEAK (R147). -/
def execWinClearPeak (src : Src) (s : State) : Host.Outcome State Fault Refusal :=
  if isOperator s src then .next { s with winPeak := winUsed s } else .next s

/-- AQ_CLEAR (R95): between two commands' additions. -/
def execAqClear (src : Src) (page : Nat) (s : State) : Host.Outcome State Fault Refusal :=
  match pageWrite s src page with
  | some c => .next (s.modCtx c fun x => { x with aq := .init })
  | none => .next s

end Sys2Proof.Machine
end

