-- ==== Sys2Proof/Machine/Image.lean ====
section
/-! DEFINITION. Pooling, resampling and crop-and-resize (R243 to R246): checks at issue and results. -/

namespace Sys2Proof.Machine

open Sys2Proof

/-! ## Window taps (R112) -/

/-- The pixel, row and column, that a tap reads (R112): its own inside the image, the clamped one under EDGE; none where
`PAD_VALUE` answers. -/
def Opd.tapPix (o : Opd) (y x : Int) : Option (Nat × Nat) :=
  if decide (0 ≤ y ∧ y < (o.imgH : Int) ∧ 0 ≤ x ∧ x < (o.imgW : Int)) || dPadMode o.raw == 0 then
    some ((max 0 (min ((o.imgH : Int) - 1) y)).toNat, (max 0 (min ((o.imgW : Int) - 1) x)).toNat)
  else none

/-- The value at a channel, signed row and column, and upper coordinates: the element a tap reads, or `PAD_VALUE`. -/
def Opd.tapNum (o : Opd) (s : State) (c : Nat) (y x : Int) (up : List Nat) : Num :=
  match o.tapPix y x with
  | some p => o.numAt s (c :: p.2 :: p.1 :: up)
  | none => elemNum (dKind o.raw) (dDtype o.raw) (dPadValue o.raw) 0

/-- Coordinates of the elements that taps at signed rows and columns of a channel read. -/
def Opd.tapCos (o : Opd) (c : Nat) (ts : List (Int × Int)) (up : List Nat) : List (List Nat) :=
  ts.filterMap fun t => (o.tapPix t.1 t.2).map fun p => c :: p.2 :: p.1 :: up

/-- Does a command whose D holds elements need a pixel of an image that has none (E_SHAPE; log 52)? An image without rows or
columns serves every tap by `PAD_VALUE` where its `PAD_MODE` is VALUE. -/
def pixelsMissing (x d : Opd) : Bool :=
  sizeProd d.sizes != 0 && (x.imgH == 0 || x.imgW == 0) && dPadMode x.raw == 0

/-- Checks that the three commands share. -/
def imgChecks (s : State) (c : Nat) (m : Cmd) (resv : List (Bool × Nat)) (boxes : Bool) : List (Option Ref) :=
  let hx := m.f 0x10 16
  let hd := m.f 0x12 16
  let hb := m.f 0x14 16
  let x := opdH s c hx
  let d := opdH s c hd
  let b := opdH s c hb
  [chk .cmd (resv ++ [(badHandle hx false, 0x10), (badHandle hd false, 0x12), (boxes && badHandle hb false, 0x14),
     (m.sid18 != 0 && !m.sr16, 0x16)]),
   chk .desc [(notLinear s c hx [0], 0x10), (badDest s c hd [0], 0x12), (boxes && notLinear s c hb [1], 0x14)],
   chkOwner s c (trafficAccs (x :: if boxes then [b] else []) d .vector)]

/-- Overlap and stream checks that the three commands share. -/
def imgLate (s : State) (c : Nat) (m : Cmd) (boxes : Bool) : List (Option Ref) :=
  [chk .overlap [(overlapH s c (m.f 0x10 16) (m.f 0x12 16), 0x10), (boxes && overlapH s c (m.f 0x14 16) (m.f 0x12 16), 0x12)],
   if m.sr16 then chkStream s c m.sid18 0x18 else none]

/-- What the three commands bind. -/
def imgBound (s : State) (c : Nat) (m : Cmd) (boxes : Bool) : Bound :=
  let hs := [m.f 0x10 16, m.f 0x12 16] ++ if boxes then [m.f 0x14 16] else []
  mkBound s c hs ((opdH s c (m.f 0x10 16)).feet false ++ (opdH s c (m.f 0x12 16)).feet true
    ++ if boxes then (opdH s c (m.f 0x14 16)).feet false else [])

/-- Write every element of D from a function of its coordinates. -/
def imgStore (m : Cmd) (d : Opd) (val : List Nat → Num) : Stored := convertRows m m.sr16 m.sid18 d val

/-! ## POOL (R244) -/

def Cmd.plKh (m : Cmd) : Nat := m.fb 0x17 0 4 + 1
def Cmd.plKw (m : Cmd) : Nat := m.fb 0x17 4 4 + 1
def Cmd.plAvg (m : Cmd) : Bool := m.fb 0x16 6 1 == 1
def Cmd.plIgn (m : Cmd) : Bool := m.fb 0x16 5 1 == 1

/-- Output extents of a pooling window. -/
def poolExt (m : Cmd) (x : Opd) : Int × Int :=
  (convExt x.imgH (m.f 0x20 8) (m.f 0x21 8) (m.f 0x1D 8) m.plKh (m.fb 0x1C 0 4 + 1),
   convExt x.imgW (m.f 0x22 8) (m.f 0x23 8) (m.f 0x1E 8) m.plKw (m.fb 0x1C 4 4 + 1))

def checkPool (s : State) (c : Nat) (m : Cmd) : Verdict :=
  let x := opdH s c (m.f 0x10 16)
  let d := opdH s c (m.f 0x12 16)
  let e := poolExt m x
  verdictE
    (imgChecks s c m (bodyResv m [(0x14, 0x16), (0x1F, 0x20), (0x24, 0x40)] ++
      [resvBits m.entry.toNat 0x16 0 5, (m.f 0x1D 8 == 0, 0x1D), (m.f 0x1E 8 == 0, 0x1E)]) false)
    (decide (e.1 ≤ 0 ∨ e.2 ≤ 0) || x.sizes.any (· == 0))
    (chk .shape [(decide (dRank x.raw < 3), 0x10),
       (decide (dRank d.raw < 3) || (d.imgH : Int) != e.1 || (d.imgW : Int) != e.2 || !sameExt [0, 3, 4, 5] d x, 0x12)]
      :: imgLate s c m false)
    (imgBound s c m false)

/-- The window of an output pixel: signed rows and columns of its included taps. -/
def poolTaps (m : Cmd) (x : Opd) (oy ox : Nat) : List (Int × Int) :=
  let (sh_, sw_) := (m.fb 0x1C 0 4 + 1, m.fb 0x1C 4 4 + 1)
  let (dh, dw) := (m.f 0x1D 8, m.f 0x1E 8)
  let all := (List.range m.plKh).flatMap fun kh => (List.range m.plKw).map fun kw =>
    ((oy * sh_ + kh * dh : Nat) - (m.f 0x20 8 : Int), (ox * sw_ + kw * dw : Nat) - (m.f 0x22 8 : Int))
  if m.plIgn then
    all.filter fun t => decide (0 ≤ t.1 ∧ t.1 < (x.imgH : Int) ∧ 0 ≤ t.2 ∧ t.2 < (x.imgW : Int))
  else all

/-- The result of a window (R244). -/
def poolVal (avg : Bool) (xs : List Num) : Num :=
  match xs with
  | [] => .zero
  | y :: ys => if avg then (xs.foldl Num.add .zero).div (.ofInt xs.length) else ys.foldl vMax y

/-- The work of POOL (R244). -/
def poolWork (s : State) (c : Nat) (m : Cmd) : Work :=
  let x := m.opd s c (m.f 0x10 16)
  let d := m.opd s c (m.f 0x12 16)
  let st := imgStore m d fun co =>
    poolVal m.plAvg ((poolTaps m x (co.getD 2 0) (co.getD 1 0)).map fun t =>
      x.tapNum s (co.getD 0 0) t.1 t.2 (co.drop 3))
  let rd := (coordsOf d.sizes).flatMap fun co =>
    x.tapCos (co.getD 0 0) (poolTaps m x (co.getD 2 0) (co.getD 1 0)) (co.drop 3)
  { Work.none with rd := x.readCells rd.eraseDups, wrs := st.wrs, accs := trafficAccs [x] d .vector, t := st.tally }

/-- POOL (R244). -/
def execPool (c q : Nat) (s : State) : Host.Outcome State Fault Refusal :=
  match ready? s c q 0x27 with
  | none => .next s
  | some m => .next ((poolWork s c m).run c q id s)

/-! ## Sampling (R245) -/

/-- A source coordinate: a numerator over a positive denominator. -/
structure Ratio where
  num : Int
  den : Nat
deriving DecidableEq, Repr

/-- Nearest: floor(s + 1/2). -/
def Ratio.nearest (r : Ratio) : Int := (2 * r.num + r.den) / (2 * r.den : Int)

/-- Bilinear: the lower index, and the fraction in 1/256, ties to even. -/
def Ratio.split (r : Ratio) : Int × Nat :=
  let i0 := r.num / (r.den : Int)
  let v := (r.num % (r.den : Int)).toNat * 256
  let q := v / r.den
  let rem := v % r.den
  let q := if r.den < 2 * rem ∨ (2 * rem = r.den ∧ q % 2 = 1) then q + 1 else q
  if q = 256 then (i0 + 1, 0) else (i0, q)

/-- The taps of a sample with their weights in 1/65536: the nearest pixel, or the bilinear four without those of weight 0. -/
def sampleTaps (bilin : Bool) (y x : Ratio) : List (Nat × Int × Int) :=
  if bilin then
    let (i, f) := y.split
    let (j, g) := x.split
    [((256 - f) * (256 - g), i, j), (f * (256 - g), i + 1, j), ((256 - f) * g, i, j + 1), (f * g, i + 1, j + 1)].filter
      (·.1 != 0)
  else [(65536, y.nearest, x.nearest)]

/-- A sample at a row and a column coordinate. -/
def sampleAt (bilin : Bool) (y x : Ratio) (tap : Int → Int → Num) : Num :=
  if bilin then
    ((sampleTaps bilin y x).map fun t => (Num.fin false t.1 (-16)).mul (tap t.2.1 t.2.2)).foldl Num.add .zero
  else tap y.nearest x.nearest

def Cmd.bilin (m : Cmd) : Bool := m.fb 0x16 6 1 == 1

/-! ## RESAMPLE (R245) -/

def checkResample (s : State) (c : Nat) (m : Cmd) : Verdict :=
  let x := opdH s c (m.f 0x10 16)
  let d := opdH s c (m.f 0x12 16)
  verdict
    (imgChecks s c m (bodyResv m [(0x14, 0x16), (0x17, 0x18), (0x24, 0x40)] ++
        [resvBits m.entry.toNat 0x16 0 6, (m.f 0x1C 16 == 0, 0x1C), (m.f 0x1E 16 == 0, 0x1E), (m.f 0x20 16 == 0, 0x20),
         (m.f 0x22 16 == 0, 0x22)]) false
      ++ chk .shape [(decide (dRank x.raw < 3), 0x10),
        (decide (dRank d.raw < 3) || !sameExt [0, 3, 4, 5] d x, 0x12),
        (pixelsMissing x d, 0x10)]
      :: imgLate s c m false)
    (imgBound s c m false)

/-- Source coordinate of an output index under a factor. -/
def resampleAt (num den i : Nat) : Ratio := { num := ((2 * i + 1) * den : Nat) - (num : Int), den := 2 * num }

/-- The work of RESAMPLE (R245). -/
def resampleWork (s : State) (c : Nat) (m : Cmd) : Work :=
  let x := m.opd s c (m.f 0x10 16)
  let d := m.opd s c (m.f 0x12 16)
  let yc (co : List Nat) : Ratio := resampleAt (m.f 0x1C 16) (m.f 0x1E 16) (co.getD 2 0)
  let xc (co : List Nat) : Ratio := resampleAt (m.f 0x20 16) (m.f 0x22 16) (co.getD 1 0)
  let st := imgStore m d fun co =>
    sampleAt m.bilin (yc co) (xc co) fun y xx => x.tapNum s (co.getD 0 0) y xx (co.drop 3)
  let rd := (coordsOf d.sizes).flatMap fun co =>
    x.tapCos (co.getD 0 0) ((sampleTaps m.bilin (yc co) (xc co)).map Prod.snd) (co.drop 3)
  { Work.none with rd := x.readCells rd.eraseDups, wrs := st.wrs, accs := trafficAccs [x] d .vector, t := st.tally }

/-- RESAMPLE (R245). -/
def execResample (c q : Nat) (s : State) : Host.Outcome State Fault Refusal :=
  match ready? s c q 0x28 with
  | none => .next s
  | some m => .next ((resampleWork s c m).run c q id s)

/-! ## CROP_RESIZE (R246) -/

def checkCropResize (s : State) (c : Nat) (m : Cmd) : Verdict :=
  let x := opdH s c (m.f 0x10 16)
  let d := opdH s c (m.f 0x12 16)
  let b := opdH s c (m.f 0x14 16)
  verdict
    (imgChecks s c m (bodyResv m [(0x17, 0x18), (0x1C, 0x40)] ++ [resvBits m.entry.toNat 0x16 0 6]) true
      ++ chk .shape [(decide (dRank x.raw < 3) || (x.ext 3 != 0 && pixelsMissing x d), 0x10),
        (decide (dRank d.raw < 3) || d.imgC != x.imgC || d.ext 3 != b.ext 1 || (d.sizes.drop 4).any (· != 1), 0x12),
        (b.size 0 != 8 || (b.sizes.drop 2).any (· != 1), 0x14)]
      :: imgLate s c m true)
    (imgBound s c m true)

/-- Source coordinate of an output index of a box side. -/
def cropAt (a b : Int) (n i : Nat) : Ratio :=
  { num := 2 * n * a + (2 * i + 1) * (b - a) - 256 * n, den := 512 * n }

/-- The work of CROP_RESIZE (R246). -/
def cropWork (s : State) (c : Nat) (m : Cmd) : Work :=
  let x := m.opd s c (m.f 0x10 16)
  let d := m.opd s c (m.f 0x12 16)
  let b := m.opd s c (m.f 0x14 16)
  let rec_ (n i : Nat) : Nat := b.rawAt s (i :: n :: List.replicate (dDims b.raw - 2) 0)
  let sg (n i : Nat) : Int := toSigned 32 (rec_ n i)
  let good (n : Nat) : Bool :=
    decide (rec_ n 0 < x.ext 3) && rec_ n 5 == 0 && rec_ n 6 == 0 && rec_ n 7 == 0
  let yc (co : List Nat) : Ratio := cropAt (sg (co.getD 3 0) 1) (sg (co.getD 3 0) 3) d.imgH (co.getD 2 0)
  let xc (co : List Nat) : Ratio := cropAt (sg (co.getD 3 0) 2) (sg (co.getD 3 0) 4) d.imgW (co.getD 1 0)
  let up (co : List Nat) : List Nat := rec_ (co.getD 3 0) 0 :: List.replicate (dDims x.raw - 4) 0
  let st := imgStore m d fun co =>
    if good (co.getD 3 0) then sampleAt m.bilin (yc co) (xc co) fun y xx => x.tapNum s (co.getD 0 0) y xx (up co)
    else .zero
  let rd := ((coordsOf d.sizes).filter fun co => good (co.getD 3 0)).flatMap fun co =>
    x.tapCos (co.getD 0 0) ((sampleTaps m.bilin (yc co) (xc co)).map Prod.snd) (up co)
  let skipped := ((List.range (b.ext 1)).filter fun n => !good n).length
  { rd := x.readCells rd.eraseDups ++ b.readCells (coordsOf b.sizes), wrs := st.wrs,
    accs := trafficAccs [x, b] d .vector, dw := [skipped], t := st.tally, free := 0 }

/-- CROP_RESIZE (R246). -/
def execCropResize (c q : Nat) (s : State) : Host.Outcome State Fault Refusal :=
  match ready? s c q 0x29 with
  | none => .next s
  | some m => .next ((cropWork s c m).run c q id s)

end Sys2Proof.Machine
end

