-- ==== Sys2Proof/Machine/Windows.lean ====
section
/-! DEFINITION. The host window and handover of banks (R265 to R276): window reads and writes, alias writes, atomic
operations, BANK_OWN by command and by register. -/

namespace Sys2Proof.Machine

open Sys2Proof

/-! ## Window accesses -/

/-- The offset of a window access in BAR4 (R273). -/
def winOff (g k view a : Nat) : Nat := g * 0x2000000 + k * 0x800000 + view * 0x200000 + a

/-- Is the source a function whose requests the host link does not carry now (R369, R371)? -/
def hostGone (s : State) (src : Src) : Bool :=
  match src with
  | .pf => !linkServes s
  | .vf _ => !linkServes s
  | _ => false

/-- The function whose host window an access uses, if the source has one (R342). A fabric that cannot be routed serves no
window (R320; log 50). -/
def winFunc (s : State) (src : Src) : Option Nat :=
  if s.pkg.unroutable then none else
  match src with
  | .pf => if srcLive s src && !s.pkc.recovery then some 0 else none
  | .vf n => if srcLive s src && s.pkg.vfBar4 then some n else none
  | _ => none

/-- Does the function own the bank's context (R273)? -/
def winOwns (s : State) (f g k : Nat) : Bool :=
  match (s.bank (bankIx g k)).holder with
  | some c => (s.ctx c).reg.func == f
  | none => false

/-- The `KIND` of the bus error that an access of n bytes is, if any: `form` says that its form is one of those R273
refuses. -/
def winError (s : State) (f g k a n : Nat) (form rd : Bool) : Option Nat :=
  if 6400 ≤ g then some 0
  else if form ∨ bankBytes < a + n then some 6
  else if winOwns s f g k ∨ (rd ∧ f = 0) then none else some 7

/-- Answer a read that the bank's owner does not allow (R272). -/
def winAbort (f g k a : Nat) (kind : AccKind) (s : State) : State :=
  (ownerRefused g k a (.window f) kind s).answer .abort

/-- Bytes of a read; a position that no slab serves has no bank, and what it returns is open. -/
def winBytes (g k a n : Nat) (s : State) : State :=
  if (serverOf s (g / 64)).isSome then s.answer (.data (bankRead s g k a n))
  else
    (useFreeN n s).answer (.data ((List.range n).map fun i => Config.freeValue 8 (s.env.free + i)))
where
  /-- Count uses of free values. -/
  useFreeN (n : Nat) (s : State) : State := { s with env := { s.env with free := s.env.free + n } }

/-- HOST_WINDOW_READ (R273, R277): any view reads the bank's bytes; an uncorrectable codeword returns no data. -/
def execHostWindowRead (src : Src) (g k view a len : Nat) (found : PacketFinding) (s : State) :
    Host.Outcome State Fault Refusal :=
  match winFunc s src with
  | none => .next (if hostGone s src then s else s.answer .unsupported)
  | some f =>
    match winError s f g k a len false true with
    | some e => .next (busReadError e 3 f view (winOff g k view a) s)
    | none =>
      if bankClearing s g k then .next (holdAcc (.hostWindowRead src g k view a len found) s)
      else if ownerAdmits s g k (.window f) .read then
        let s := match (s.bank (bankIx g k)).holder with
          | some c => if f = 0 then opAccess c s else s
          | none => s
        if fatalFinding found then .next (bankFound g found (s.answer .abort))
        else .next (winBytes g k a len (bankFound g found s))
      else .next (winAbort f g k a .read s)

/-- The bytes after an alias write (R276). -/
def aliasBytes (set : Bool) (old data : List Byte) : List Byte :=
  (old.zip data).map fun (o, d) => if set then o ||| d else o &&& ~~~d

/-- A write through a view: 0 plain, 1 SET, 2 CLEAR, 3 FADD. An alias write reads its codewords, a plain one those that it
covers in part; where they cannot be corrected no byte is written (R263, R276, R277). -/
def windowWrite (src : Src) (g k view a : Nat) (data : List Byte) (found : PacketFinding) (s : State) : State :=
  match winFunc s src with
  | none => s
  | some f =>
    let crosses := (view == 1 || view == 2) && decide (a / 64 ≠ (a + data.length - 1) / 64)
    match winError s f g k a data.length (view == 3 || crosses) false with
    | some e => busWriteError e 3 f view (winOff g k view a) (ofBytes (data.take 4)) s
    | none =>
      let kind : AccKind := match view with
        | 1 => .set
        | 2 => .clear
        | _ => .write
      if bankClearing s g k then holdAcc (.hostWindowWrite src g k view a data found) s
      else if ownerAdmits s g k (.window f) kind then
        let found := if view = 0 then writeFound a data.length found else found
        let old := bankRead s g k a data.length
        let s := bankFound g found s
        if fatalFinding found then s
        else bankWrite g k a (if view = 0 then data else aliasBytes (view == 1) old data) s
      else ownerRefused g k a (.window f) kind s

/-- HOST_WINDOW_WRITE (R273). -/
def execHostWindowWrite (src : Src) (g k view a : Nat) (data : List (BitVec 8)) (found : PacketFinding) (s : State) :
    Host.Outcome State Fault Refusal :=
  .next (windowWrite src g k view a data found s)

/-- ALIAS_SET_WRITE (R276). -/
def execAliasSetWrite (src : Src) (g k a : Nat) (data : List (BitVec 8)) (found : PacketFinding) (s : State) :
    Host.Outcome State Fault Refusal :=
  .next (windowWrite src g k 1 a data found s)

/-- ALIAS_CLEAR_WRITE (R276). -/
def execAliasClearWrite (src : Src) (g k a : Nat) (data : List (BitVec 8)) (found : PacketFinding) (s : State) :
    Host.Outcome State Fault Refusal :=
  .next (windowWrite src g k 2 a data found s)

/-! ## Atomic operations (R274) -/

/-- The new value of a bank word. -/
def atomicNew (kind : AccKind) (old operand : Nat) : Nat :=
  match kind with
  | .iadd => (old + operand) % 2 ^ 32
  | .fadd => enc32 (fadd (dec32 old) (dec32 operand))
  | _ => operand

/-- The command that an atomic operation is, to make it again. -/
def atomicInstr (src : Src) (g k view a n : Nat) (kind : AccKind) (operand : Word) (found : PacketFinding) : Instr :=
  match kind with
  | .iadd => .iadd src g k view a n operand found
  | .fadd => .fadd src g k a n operand found
  | _ => .swap src g k view a n none operand found

/-- An atomic operation of n bytes through a view. A misaligned one is a Malformed TLP and reaches no bank. One whose
codeword cannot be corrected returns no data and writes nothing (R277). -/
def windowAtomic (src : Src) (g k view a n : Nat) (bad : Bool) (kind : AccKind) (operand : Word) (found : PacketFinding)
    (s : State) : State :=
  match winFunc s src with
  | none => if hostGone s src then s else s.answer .unsupported
  | some f =>
    if n = 4 ∧ a % 4 ≠ 0 then s
    else
      match winError s f g k a n (bad || n != 4 || view == 1 || view == 2) false with
      | some e => busReadError e 3 f view (winOff g k view a) s
      | none =>
        if bankClearing s g k then holdAcc (atomicInstr src g k view a n kind operand found) s
        else if ownerAdmits s g k (.window f) kind then
          if fatalFinding found then bankFound g found (s.answer .abort)
          else
            let old := bankWord s g k a
            (bankWrite g k a (toBytes 4 (atomicNew kind old operand.toNat)) (bankFound g found s)).answer
              (.data (toBytes 4 old))
        else winAbort f g k a kind s

/-- IADD (R274). -/
def execIadd (src : Src) (g k view a len : Nat) (operand : BitVec 32) (found : PacketFinding) (s : State) :
    Host.Outcome State Fault Refusal :=
  .next (windowAtomic src g k view a len false .iadd operand found s)

/-- FADD (R274). -/
def execFadd (src : Src) (g k a len : Nat) (operand : BitVec 32) (found : PacketFinding) (s : State) :
    Host.Outcome State Fault Refusal :=
  .next (windowAtomic src g k 3 a len false .fadd operand found s)

/-- SWAP (R274); a CompareAndSwap is a bus error. -/
def execSwap (src : Src) (g k view a len : Nat) (compare : Option (BitVec 32)) (operand : BitVec 32)
    (found : PacketFinding) (s : State) : Host.Outcome State Fault Refusal :=
  .next (windowAtomic src g k view a len compare.isSome .swap operand found s)

/-! ## The end of a clear (R284) -/

/-- An access that waited is made. -/
def makeAcc (i : Instr) (s : State) : State :=
  match i with
  | .packetDeliver h q b f =>
    match execPacketDeliver h q b f s with
    | .next t => t
    | _ => s
  | .hostWindowRead src g k view a len f =>
    match execHostWindowRead src g k view a len f s with
    | .next t => t
    | _ => s
  | .hostWindowWrite src g k view a bs f => windowWrite src g k view a bs f s
  | .iadd src g k view a n o f => windowAtomic src g k view a n false .iadd o f s
  | .fadd src g k a n o f => windowAtomic src g k 3 a n false .fadd o f s
  | .swap src g k view a n x o f => windowAtomic src g k view a n x.isSome .swap o f s
  | _ => s

/-- WAKE_CLEAR_DONE (R284): the banks of the slab's position have cleared, and the accesses that waited are made in their
order. -/
def execWakeClearDone (slab : Nat) (s : State) : Host.Outcome State Fault Refusal :=
  if !s.live then .next s else
  let s := forAll (slabTiles (posOf s slab)) (setClearing false) s
  .next (forAll s.env.waits makeAcc { s with env := { s.env with waits := [] } })

/-! ## Handover (R269, R271) -/

/-- The banks of a bank region, whole and written (R269). -/
def ownFoot (rid : Nat) (r : Region) : Foot :=
  { rid := rid, reg := { r with off := 0 }, lo := 0, hi := (2 ^ 21 : Nat) - 1, wr := true }

def checkBankOwn (s : State) (c : Nat) (m : Cmd) : Verdict :=
  let rid := m.f 0x10 16
  let owner := m.fb 0x12 0 4
  let peer := m.fb 0x14 0 13
  let v := m.entry.toNat
  let r := (getRegion s c rid).filter fun r => r.space == .bank
  let badPeer := if owner = 5 then !tileInService s (s.ctx c).reg.part peer else peer != 0
  verdict
    [chk .cmd (bodyResv m [(0x13, 0x14), (0x16, 0x40)] ++
       [resvBits v 0x12 4 4, resvBits v 0x14 13 3, (decide (8 ≤ owner), 0x12), (badPeer, 0x14)]),
     chk .desc [(r.isNone, 0x10)]]
    { (mkBound s c [] []) with
      foots := match r with
        | some x => [ownFoot rid x]
        | none => [] }

/-- BANK_OWN (R269): once every earlier command that touches the banks has finished. -/
def execBankOwn (c q : Nat) (s : State) : Host.Outcome State Fault Refusal :=
  match ready? s c q 0x4A with
  | none => .next s
  | some m => .next (finish c q .ok [] (ownRegion c (m.f 0x10 16) (m.fb 0x12 0 4) (m.fb 0x14 0 13) s))

/-- BANK_OWN_WRITE (R271, R285): the register of tile t of a slab is that of the position it serves. A reserved owner, or
a peer outside the partition, changes nothing. -/
def execBankOwnWrite (src : Src) (gtid bank : Nat) (value : BitVec 32) (s : State) : Host.Outcome State Fault Refusal :=
  let n := gtid / 64
  if isOperator s src && coreLive s n then
    let g := 64 * posOf s n + gtid % 64
    let v := value.toNat
    let owner := bits v 0 4
    let peer := bits v 16 13
    let inPart := match partOf s (g / 64) with
      | some p => tileInService s p peer
      | none => false
    if 8 ≤ owner ∨ (owner = 5 ∧ inPart = false) then .next s
    else
      let s := match (s.bank (bankIx g bank)).holder with
        | some c => opAccess c s
        | none => s
      .next (s.modBank (bankIx g bank) fun b => { b with owner := owner, peer := peer })
  else .next s

end Sys2Proof.Machine
end

