-- ==== Sys2Proof/Machine/Issue.lean ====
section
/-! DEFINITION. The issue decision (R138, R139, R144, R357, R376, R381, R382): which command a sequencer takes, its checks,
and what issuing, refusing or halting it does. -/

namespace Sys2Proof.Machine

open Sys2Proof

/-! ## Checks by opcode (R346) -/

/-- The check of NOP: its body is reserved (R346). -/
def checkNop (s : State) (c : Nat) (m : Cmd) : Verdict :=
  verdict [chk .cmd (bodyResv m [(0x10, 0x40)])] (mkBound s c [] [])

/-- An unknown opcode (R346). -/
def unknownOp : Verdict := .refuse (entryRef .cmd 0)

/-- Creating commands, `VEC_LOAD`, `ARRAY_SET` and `NOP`. -/
def checkLow (s : State) (c : Nat) (m : Cmd) : Verdict :=
  match m.opcode with
  | 0x01 => checkNop s c m
  | 0x02 => checkDescCreate s c m
  | 0x03 => checkDescDestroy s c m
  | 0x04 => checkEpiCreate s c m
  | 0x05 => checkConvCreate s c m
  | 0x06 => checkVecLoad s c m
  | 0x07 => checkArraySet s c m
  | 0x10 => checkMatrixProduct s c m
  | 0x11 => checkInfusion s c m
  | 0x12 => checkConv s c m
  | _ => unknownOp

/-- Data traffic, vector and image commands, and collectives. -/
def checkMid (s : State) (c : Nat) (m : Cmd) : Verdict :=
  match m.opcode with
  | 0x20 => checkCopy s c m
  | 0x21 => checkPermCopy s c m
  | 0x22 => checkGather s c m
  | 0x23 => checkScatter s c m
  | 0x24 => checkEltwise s c m
  | 0x25 => checkRowstat s c m
  | 0x26 => checkSoftmax s c m
  | 0x27 => checkPool s c m
  | 0x28 => checkResample s c m
  | 0x29 => checkCropResize s c m
  | 0x2A => checkRandom s c m
  | 0x2B => checkStrain s c m
  | 0x2C => checkColl s c m
  | 0x2D => checkColl s c m
  | 0x2E => checkColl s c m
  | 0x2F => checkColl s c m
  | _ => unknownOp

/-- Caddy, Brew, owner and link commands. -/
def checkHigh (s : State) (c : Nat) (m : Cmd) : Verdict :=
  match m.opcode with
  | 0x40 => checkKvSeqCreate s c m
  | 0x41 => checkKvAppend s c m
  | 0x42 => checkKvFork s c m
  | 0x43 => checkKvTruncate s c m
  | 0x44 => checkKvSeqFree s c m
  | 0x45 => checkKvReclaim s c m
  | 0x46 => checkKvSet s c m
  | 0x48 => checkBrewSeed s c m
  | 0x49 => checkBrewStream s c m
  | 0x4A => checkBankOwn s c m
  | 0x4B => checkLinkJob s c m
  | _ => unknownOp

/-- Context, region, model and coder commands. -/
def checkCtl (s : State) (c : Nat) (m : Cmd) : Verdict :=
  match m.opcode with
  | 0x50 => checkCtxDefine s c m
  | 0x51 => checkCtxUndefine s c m
  | 0x52 => checkRegionAlloc s c m
  | 0x53 => checkRegionFree s c m
  | 0x54 => checkModelLoad s c m
  | 0x55 => checkModelUnload s c m
  | 0x56 => checkCtxSuspend s c m
  | 0x57 => checkCtxResume s c m
  | 0x58 => checkCtxSave s c m
  | 0x59 => checkCtxRestore s c m
  | 0x5A => checkCtxReset s c m
  | 0x5B => checkSchedSet s c m
  | 0x60 => checkVcOpen s c m
  | 0x61 => checkVcClose s c m
  | 0x62 => checkVcEncode s c m
  | 0x63 => checkVcDecode s c m
  | 0x64 => checkVcRate s c m
  | _ => unknownOp

/-- Opcodes that the management context accepts (R376). -/
def mgmtOp (op : Nat) : Bool :=
  op == 0x01 || op == 0x50 || op == 0x51 || decide (0x56 ≤ op ∧ op ≤ 0x5A)

/-- Entry fields that name handles, by opcode. With `CADDY` the field 0x12 of Infusion names a sequence (R209). -/
def handleFields (m : Cmd) : List Nat :=
  match m.opcode with
  | 0x10 => [0x10, 0x12, 0x14, 0x16, 0x18]
  | 0x11 => if m.ifCaddy then [0x10, 0x16] else [0x10, 0x12, 0x14, 0x16]
  | 0x12 => [0x10, 0x12, 0x14, 0x28]
  | 0x21 => [0x10]
  | 0x22 | 0x23 | 0x24 | 0x29 => [0x10, 0x12, 0x14]
  | 0x2B => [0x10, 0x12, 0x14, 0x16]
  | 0x41 => [0x12, 0x14]
  | 0x62 | 0x63 => [0x12, 0x14, 0x16]
  | op => if 0x20 ≤ op ∧ op ≤ 0x2F then [0x10, 0x12] else []

/-- A refusal with the handle of the structure at fault. -/
def withStruct (s : State) (c : Nat) (m : Cmd) (v : Verdict) : Verdict :=
  match v with
  | .refuse r =>
    .refuse (r.atStruct (handleFields m) fun off =>
      if (handleObj s c (m.f off 16)).isSome then some (m.f off 16) else none)
  | _ => v

/-- The verdict of all checks: the epoch first (R357), then those of the opcode. -/
def checkCmd (s : State) (c : Nat) (m : Cmd) : Verdict :=
  let op := m.opcode
  withStruct s c m <|
  if m.epoch ≠ (ctxEpoch s c).toNat then .refuse { st := .epoch, dw := [(ctxEpoch s c).toNat] }
  else if c = 0 ∧ mgmtOp op = false then unknownOp
  else if op < 0x20 then checkLow s c m
  else if op < 0x40 then checkMid s c m
  else if op < 0x50 then checkHigh s c m
  else checkCtl s c m

/-! ## What the checks see (R144, R207) -/

/-- The effect of an issued command that the checks of later ones see. -/
def actShape (c : Nat) (m : Cmd) (s : State) : State :=
  let q := m.seq
  let o := match m.opcode with
    | 0x02 => execDescCreate c q s
    | 0x03 => execDescDestroy c q s
    | 0x04 => execEpiCreate c q s
    | 0x05 => execConvCreate c q s
    | 0x40 => execKvSeqCreate c q s
    | 0x41 => execKvAppend c q s
    | 0x42 => execKvFork c q s
    | 0x43 => execKvTruncate c q s
    | 0x44 => execKvSeqFree c q s
    | 0x45 => execKvReclaim c q s
    | 0x46 => execKvSet c q s
    | 0x48 => execBrewSeed c q s
    | 0x49 => execBrewStream c q s
    | 0x4B => execLinkJob c q s
    | 0x50 => execCtxDefine c q s
    | 0x51 => execCtxUndefine c q s
    | 0x52 => execRegionAlloc c q s
    | 0x53 => execRegionFree c q s
    | 0x54 => execModelLoad c q s
    | 0x55 => execModelUnload c q s
    | 0x60 => execVcOpen c q s
    | 0x61 => execVcClose c q s
    | _ => .next s
  match o with
  | .next t => t
  | _ => s

/-- The issued commands of a context whose effect its next checks see and that have not had it, in ring order. -/
def unseen (s : State) (c : Nat) : List Cmd :=
  (s.ctx c).cmds.filter fun m => m.phase == .issued && shapesChecks m.opcode

/-- The state as the issued commands of a context will leave it, for the checks of its next one (R144, R207): each has
its effect in ring order, whatever else is in flight. -/
def seenBy (s : State) (c : Nat) : State :=
  let ms := unseen s c
  if ms = [] then s
  else
    let t := s.modCtx c fun x => { x with cmds := ms }
    let t := { t with pcie := { t.pcie with phase := .idle }, banks := t.banks.map fun b => (b.1, { b.2 with clearing := false }) }
    let t := forAll ms (actShape c) t
    t.modCtx c fun x => { x with cmds := (s.ctx c).cmds }

/-! ## Candidates -/

/-- Has a command failed before issue and its record not been written, so that nothing after it issues (R139)? -/
def Ctx.failing (x : Ctx) : Bool := x.cmds.any fun m => m.phase == .done && !m.issued && isFailure m.status

/-- Commands whose checks at issue read a structure of host memory. -/
def issueReadsHost (op : Nat) : Bool := op == 0x02 || op == 0x04 || op == 0x05 || op == 0x54 || op == 0x60

/-- The candidate of a context of a partition, or of the management context (R376, R381). One whose checks read host memory is
none while a failover holds that read (R369; log 53). -/
def candOf (s : State) (c : Nat) : Option Cmd :=
  Option.filter (fun m => s.pcie.phase == .idle || !issueReadsHost m.opcode) <|
  let x := s.ctx c
  if x.failing then none
  else if c = 0 then
    if x.ringState = 1 then (match x.oldest with
      | some m => if x.fenced m then none else some m
      | none => none) else none
  else x.candidate

/-- The latency-critical candidate that goes first: fetched earliest, then the lower context id. -/
def lcChoice (s : State) (p : Nat) : Option Nat :=
  (((residents s p).filter fun c => (s.ctx c).reg.lc).foldl (fun best c =>
    match candOf s c, best with
    | none, b => b
    | some m, none => some (c, m.stamp)
    | some m, some b => if m.stamp < b.2 then some (c, m.stamp) else some b) none).map Prod.fst

/-- The best-effort contexts that have a candidate now. -/
def beCands (s : State) (p : Nat) : List Nat :=
  (residents s p).filter fun c => !(s.ctx c).reg.lc && (candOf s c).isSome

/-- Whose candidate goes; the slice holder and the last holder after the decision (R381, R382). The slice ends at a
decision at which its holder has no candidate; with no candidate at all there is no decision. -/
def choose (s : State) (p : Nat) : Option Nat × Option Nat × Nat :=
  let x := s.part2 p
  let be := beCands s p
  let last := x.slice.getD x.sliceLast
  let still := x.slice.filter be.contains
  match lcChoice s p, still with
  | some c, _ => (some c, still, last)
  | none, some h => (some h, some h, last)
  | none, none =>
    match nextAfter be last with
    | some h => (some h, some h, h)
    | none => (none, x.slice, x.sliceLast)

/-! ## Deciding -/

/-- The stream that a command draws from (R251). -/
def Cmd.drawsFrom (m : Cmd) : Option Nat :=
  match m.opcode with
  | 0x10 => if m.mxSr then some m.mxSid else none
  | 0x11 => if m.ifSr then some m.ifSid else none
  | 0x12 => if m.cvSr then some m.cvSid else none
  | 0x20 => if m.sr16 then some m.sid18 else none
  | 0x24 => if m.sr16 then some m.sid18 else none
  | 0x26 => if m.sr16 then some m.sid18 else none
  | 0x27 => if m.sr16 then some m.sid18 else none
  | 0x28 => if m.sr16 then some m.sid18 else none
  | 0x29 => if m.sr16 then some m.sid18 else none
  | 0x2A => some (m.f 0x18 32)
  | 0x2B => some (m.f 0x24 32)
  | _ => none

/-- Count an issued command of a partition; a digest exchange starts after `CONC_INTERVAL` of them (R466). -/
def countIssue (p : Nat) (s : State) : State :=
  let s := s.modPart2 p fun x => { x with issued := x.issued + 1, sinceExch := x.sinceExch + 1 }
  let n := (s.part p).concInterval
  if n ≠ 0 ∧ n ≤ (s.part2 p).sinceExch then startExch p s else s

/-- The partition of a context's sequencer; the management context counts nowhere. -/
def countFor (c : Nat) (f : Nat → State → State) (s : State) : State :=
  if c = 0 then s else f (s.ctx c).reg.part s

/-- A command issues (R251, R198, R60): it binds, takes its draw and its leaves, and uses its tiles. `seen` is what its
checks saw. -/
def issueCmd (c : Nat) (m : Cmd) (b : Bound) (seen s : State) : State :=
  let s := modCmd c m.seq (fun x => { x with phase := .issued, issued := true, bound := b }) s
  let s := match m.drawsFrom with
    | some sid => takeDraw c m.seq sid s
    | none => s
  let s := fixForms (b.forms.map Prod.fst) s
  let s := if m.opcode = 0x41 then issueKvAppend c m.seq m seen s else s
  countFor c countIssue s

/-- A command refused at issue has no effect but its record (R139). -/
def refuseCmd (c : Nat) (m : Cmd) (r : Ref) (s : State) : State :=
  let s := modCmd c m.seq (fun x => { x with phase := .done, status := r.st.code, dw := r.dw.map w32 }) s
  countFor c (fun p t => t.modPart2 p fun x => { x with refused := x.refused + 1 }) s

/-- An empty command ends at once (R122); it names its handles until its record is written (R97). -/
def emptyCmd (c : Nat) (m : Cmd) (seen s : State) : State :=
  let objs := bindObjs seen c ((handleFields m).map fun o => m.f o 16)
  let s := modCmd c m.seq (fun x => { x with
    phase := .done, issued := true, status := Status.okEmpty.code, bound := { x.bound with objs := objs } }) s
  countFor c countIssue s

/-- An append halts its context for want of leaves (R200). -/
def haltAppend (c : Nat) (m : Cmd) (seq need : Nat) (s : State) : State :=
  let p := (s.ctx c).reg.part
  let s := setSt c .blockedKv true s
  let s := kvEvent p 1 s
  postBoth (s.ctx c).reg.func 0x0003 0xFF c [m.seq, seq, need, kvFree s p] s

/-- Does a stop of the partition hold the command back: any stop, but for a tile move only with work at the tile
(R282)? -/
def stopHolds (s : State) (c : Nat) (m : Cmd) (p : Nat) : Bool :=
  (s.part2 p).stopped.any fun x =>
    match x with
    | .tileMove g => m.atTile s c g
    | _ => true

/-- Must the decision wait because an earlier command of the context that sets keys or streams of the Brew has still to act
(log 48)? -/
def brewWaits (s : State) (c : Nat) (m : Cmd) : Bool :=
  (m.drawsFrom.isSome || m.opcode == 0x48 || m.opcode == 0x49)
    && (unseen s c).any fun e => e.opcode == 0x48 || e.opcode == 0x49

/-- The verdict on a candidate, from what its checks see; an append takes only leaves that are free now (R198). -/
def verdictOf (s seen : State) (c : Nat) (m : Cmd) : Verdict :=
  match checkCmd seen c m with
  | .issue b =>
    let need := match getSeq seen c (m.f 0x10 16) with
      | some sq => appendNeed seen c sq ((opdH seen c (m.f 0x12 16)).size 2)
      | none => 0
    if m.opcode = 0x41 ∧ leavesOk s c need = false then .noPage (m.f 0x10 16) need else .issue b
  | v => v

/-- Decide a candidate. -/
def decideCmd (c : Nat) (m : Cmd) (s : State) : State :=
  let p := (s.ctx c).reg.part
  let seen := seenBy s c
  let v := verdictOf s seen c m
  let trial := match v with
    | .issue b => { m with bound := b }
    | _ => m
  if (c ≠ 0 ∧ stopHolds s c trial p) ∨ brewWaits s c m then s
  else
    settle c (match v with
      | .refuse r => refuseCmd c m r s
      | .empty => emptyCmd c m seen s
      | .issue b => issueCmd c m b seen s
      | .noPage q n => haltAppend c m q n s)

/-- The fabric cycles in which some command of the partition waited under R145 since the last decision: an open number
where one waits now (log 14). -/
def countHazard (p : Nat) (s : State) : State :=
  if (openCmds s p).any fun e => e.2.phase == .issued && hazardWait s e.1 e.2 then
    let (v, s) := s.takeFree 64
    s.modPart2 p fun x => { x with hazard := x.hazard + v }
  else s

/-- The control writes that wait for a partition's decision (R397). -/
def actControls (p : Nat) (s : State) : State := forAll (ctxsOf s p) actControl s

/-- ISSUE_DECISION: partition p below 24 takes one command; 24 is the management context's sequencer. -/
def execIssueDecision (p : Nat) (s : State) : Host.Outcome State Fault Refusal :=
  if s.pkg.unroutable then .next s
  else if p = 24 then
    match candOf s 0 with
    | some m => .next (decideCmd 0 m s)
    | none => .next s
  else if (s.part p).defd then
    let s := countHazard p (actControls p s)
    let (c?, slice, last) := choose s p
    let s := s.modPart2 p fun x => { x with slice := slice, sliceLast := last }
    match c? with
    | some c =>
      match candOf s c with
      | some m => .next (decideCmd c m s)
      | none => .next s
    | none => .next s
  else .next s

end Sys2Proof.Machine
end

