-- ==== Sys2Proof/Machine/Meter.lean ====
section
/-! DEFINITION. The Ahnast meter (R478 to R489, R494 to R496), and its mirror with the apportionment (R490 to R493). -/

namespace Sys2Proof.Machine

open Sys2Proof

/-! ## Measuring -/

/-- Is the seal intact (R488)? -/
def sealIntact (m : Meter) : Bool := m.coverClosed && m.filmOk

/-- Counter and energy at the end of the last record, which is where the interval in progress starts (R484). -/
def lastEnd (m : Meter) : Nat × Nat :=
  match m.records.head? with
  | some x => (x.r.ctrEnd, x.r.eTotal)
  | none => (0, 0)

/-- The meter measures up to an event (R479, R480): counter, energy, the interval's extremes and flags. -/
def meterRun (x : MeterSample) (s : State) : State :=
  let m := s.meter
  let fresh := m.ctr.toNat == (lastEnd m).1
  let lo (a b : Nat) : Nat := if fresh then b else min a b
  let hi (a b : Nat) : Nat := if fresh then b else max a b
  { s with
    meter := { m with
      ctr := m.ctr + BitVec.ofNat 64 x.cycles, energy := m.energy + BitVec.ofNat 64 x.energy,
      flags := m.flags ||| (4 * b2n x.overload + 8 * b2n x.voltRange) },
    meter2 := { s.meter2 with
      pMax := hi s.meter2.pMax x.pMax, pMin := lo s.meter2.pMin x.pMin, vMin := lo s.meter2.vMin x.vMin,
      vMax := hi s.meter2.vMax x.vMax, sealOpenSeen := s.meter2.sealOpenSeen || !sealIntact m } }

/-! ## The audit trail (R487) -/

/-- The 64 bytes of an audit record. -/
def auditBytes (a : Audit) : List Byte :=
  toBytes 4 a.aseq ++ toBytes 1 a.kind ++ toBytes 3 0 ++ toBytes 8 a.ctr ++ toBytes 8 a.eTotal ++ toBytes 4 a.old
    ++ toBytes 4 a.new ++ toBytes 8 a.rseq ++ toBytes 24 0

/-- `AUDIT_DIGEST` of a trail, newest record first. -/
def auditDigest : List Audit → BitVec 384
  | [] => 0
  | a :: l => Config.sha384 (toBytes 48 (auditDigest l).toNat ++ auditBytes a)

/-- Are 4,032 records used, so that `AUDIT_FULL` is set? -/
def auditFull (m : Meter) : Bool := decide (4032 ≤ m.audit.length)

/-- Append an audit record while there is room. -/
def auditAdd (kind old new : Nat) (m : Meter) : Meter :=
  if 4096 ≤ m.audit.length then m
  else
    let a : Audit := { aseq := m.audit.length + 1, kind := kind, ctr := m.ctr.toNat, eTotal := m.energy.toNat, old := old,
                       new := new, rseq := m.rseq }
    { m with audit := a :: m.audit }

/-! ## Reading records (R483 to R485) -/

/-- The signed part of a record, bytes 0x000 to 0x0FF. -/
def signedPart (x : ReadingRec) : List Byte :=
  let r := x.r
  fixLen 0x100
    (toBytes 4 0x31525A56 ++ toBytes 4 1 ++ toBytes 8 r.serial ++ toBytes 8 r.rseq ++ toBytes 1 r.kind ++ toBytes 1 r.flags
      ++ toBytes 2 0 ++ toBytes 4 Config.meterChecksum.toNat ++ toBytes 4 0x00020100 ++ toBytes 4 r.period
      ++ toBytes 8 r.ctrStart ++ toBytes 8 r.ctrEnd ++ toBytes 8 r.eTotal ++ toBytes 8 r.eInterval ++ toBytes 4 r.pMax
      ++ toBytes 4 r.pMin ++ toBytes 2 r.vMin ++ toBytes 2 r.vMax ++ toBytes 4 r.aseq ++ toBytes 4 r.powerups ++ toBytes 4 0
      ++ toBytes 48 (Config.meterId r.serial).toNat ++ toBytes 48 x.prev.toNat ++ toBytes 48 x.audit.toNat)

/-- The key that a meter signs with, apart from those of the slabs. -/
def meterKey (serial : Nat) : Nat := 256 + serial

/-- A reading record of 4,096 bytes. -/
def readingBytes (x : ReadingRec) : List Byte :=
  let head := signedPart x
  let d := Config.sha384 head
  head ++ fixLen 64 (Config.edSign (meterKey x.r.serial) d) ++ fixLen 3309 (Config.mldsaSign (meterKey x.r.serial) d)
    ++ fixLen 467 []

/-- The next record, as the meter stands, for the triggers `kind`. -/
def nextReading (s : State) (kind : Nat) : ReadingRec :=
  let m := s.meter
  let prev := match m.records.head? with
    | some x => Config.sha384 (signedPart x)
    | none => 0
  { r := { rseq := m.rseq + 1, kind := kind,
           flags := (m.flags ||| b2n s.meter2.sealOpenSeen ||| 2 * b2n s.meter2.gapNext ||| 16 * b2n (auditFull m)) % 32,
           period := m.period.toNat, ctrStart := (lastEnd m).1, ctrEnd := m.ctr.toNat, eTotal := m.energy.toNat,
           eInterval := m.energy.toNat - (lastEnd m).2, pMax := s.meter2.pMax, pMin := s.meter2.pMin,
           vMin := s.meter2.vMin, vMax := s.meter2.vMax, aseq := m.audit.length, powerups := s.meter2.powerups.toNat,
           serial := s.meter2.serial },
    prev := prev, audit := auditDigest m.audit }

/-- Form a reading; one that serves a mirror request goes to the mirror (R490). The next interval starts. -/
def formReading (s : State) : State :=
  let kind := s.meter.waiting % 32
  let x := nextReading s kind
  { s with
    meter := { s.meter with
      rseq := s.meter.rseq + 1, records := (x :: s.meter.records).take 8192, waiting := 0, flags := 0 },
    meter2 := { s.meter2 with
      gapNext := false, sealOpenSeen := !sealIntact s.meter,
      mirrorOut := if bit kind 2 then s.meter2.mirrorOut ++ [x] else s.meter2.mirrorOut } }

/-- Has the spacing of 100 ms since the last record passed (R485)? -/
def spacingOver (m : Meter) : Bool := m.records.isEmpty || decide ((lastEnd m).1 + 2400000 ≤ m.ctr.toNat)

/-- Serve the triggers that wait, once the spacing has passed. -/
def serveReading (s : State) : State :=
  if s.meter.waiting != 0 && spacingOver s.meter then formReading s else s

/-- A trigger arrives (R485). -/
def trigger (b : Nat) (s : State) : State :=
  serveReading { s with meter := { s.meter with waiting := s.meter.waiting ||| sh 1 b } }

/-- METER_PERIOD_TICK (R485): the counter reaches a multiple of the period. -/
def execMeterPeriodTick (m : MeterSample) (s : State) : Host.Outcome State Fault Refusal :=
  if s.meter.powered && (s.meter.ctr.toNat + m.cycles) % (s.meter.period.toNat * 24000000) == 0 then
    .next (trigger 0 (meterRun m s))
  else .next s

/-- M_READ_REQ (R485): a port request. -/
def execMReadReq (m : MeterSample) (s : State) : Host.Outcome State Fault Refusal :=
  if s.meter.powered then .next (trigger 1 (meterRun m s)) else .next s

/-- MIRROR_REQUEST (R490): the rising edge that MTR_SNAP_REQ made. -/
def execMirrorRequest (m : MeterSample) (s : State) : Host.Outcome State Fault Refusal :=
  if s.meter.powered && s.mtr.edge then
    .next (trigger 2 (meterRun m { s with mtr := { s.mtr with edge := false } }))
  else .next s

/-- METER_SPACING_END (R485): the triggers that wait are served. -/
def execMeterSpacingEnd (m : MeterSample) (s : State) : Host.Outcome State Fault Refusal :=
  if s.meter.powered then .next (serveReading (meterRun m s)) else .next s

/-- METER_POWER_UP (R480, R485, R487): counter and energy resume; the event is audited and a reading formed, whose
POWER_GAP shows the gap. -/
def execMeterPowerUp (m : MeterSample) (s : State) : Host.Outcome State Fault Refusal :=
  if s.meter.powered || !s.meter2.fitted then .next s
  else
    let s := { s with
      meter := { auditAdd 4 0 0 s.meter with powered := true },
      meter2 := { s.meter2 with powerups := s.meter2.powerups + 1, gapNext := true } }
    .next (trigger 3 (meterRun m s))

/-- METER_POWER_DOWN (R480): counter and energy are committed from the hold-up capacitor; triggers that wait are lost. -/
def execMeterPowerDown (m : MeterSample) (s : State) : Host.Outcome State Fault Refusal :=
  if s.meter.powered then
    let s := meterRun m s
    .next { s with meter := { s.meter with powered := false, waiting := 0 } }
  else .next s

/-- SEAL_CHANGE (R488): a change of the seal's state is audited and forms a reading. -/
def execSealChange (coverClosed filmOk : Bool) (m : MeterSample) (s : State) : Host.Outcome State Fault Refusal :=
  let was := sealIntact s.meter
  let put (x : Meter) : Meter := { x with coverClosed := coverClosed, filmOk := filmOk }
  if s.meter.powered then
    let s := meterRun m s
    let s := { s with meter := put s.meter }
    let is := sealIntact s.meter
    if is = was then .next s
    else
      .next (trigger 4 { s with
        meter := auditAdd (if is then 3 else 2) 0 0 s.meter,
        meter2 := { s.meter2 with sealOpenSeen := s.meter2.sealOpenSeen || !is } })
  else .next { s with meter := put s.meter }

/-! ## The meter port (R494 to R496) -/

def setRefused (v : Bool) (s : State) : State := { s with meter := { s.meter with refused := v } }

/-- A write of `M_PERIOD` (R496): audited before it takes effect, or refused. -/
def periodWrite (v : Nat) (s : State) : State :=
  if v < 60 ∨ 86400 < v ∨ auditFull s.meter then setRefused true s
  else
    let m := auditAdd 1 s.meter.period.toNat v s.meter
    setRefused false { s with meter := { m with period := w32 v } }

/-- M_PERIOD_WRITE (R496). -/
def execMPeriodWrite (value : BitVec 32) (s : State) : Host.Outcome State Fault Refusal :=
  if s.meter.powered then .next (periodWrite value.toNat s) else .next s

/-- A write of one meter register of 32 bits (R495, R496). A port request waits for the meter's next event, at which it is
served. -/
def meterRegWrite (a v : Nat) (s : State) : State :=
  match a with
  | 0x000C => periodWrite v s
  | 0x0010 =>
    let w := if bit v 0 then s.meter.waiting ||| 2 else s.meter.waiting
    setRefused false { s with meter := { s.meter with waiting := w } }
  | 0x001C => setRefused false { s with meter := { s.meter with sel := (s.meter.sel >>> 32 <<< 32) + BitVec.ofNat 64 v } }
  | 0x0020 =>
    setRefused false { s with meter := { s.meter with sel := BitVec.ofNat 64 (sh v 32 + s.meter.sel.toNat % 2 ^ 32) } }
  | 0x0024 => setRefused false { s with meter := { s.meter with asel := w32 v } }
  | _ => setRefused true s

/-- Write whole registers from an address on; a register that the data covers in part is refused (log 45). -/
def meterWrites : Nat → Nat → List Byte → State → State
  | 0, _, _, s => s
  | _ + 1, _, [], s => s
  | n + 1, a, l, s =>
    if a % 4 = 0 ∧ 4 ≤ l.length then meterWrites n (a + 4) (l.drop 4) (meterRegWrite a (num l 0 4) s)
    else setRefused true s

/-- METER_PORT_WRITE (R494): sets the register address, and writes the data that follows it. -/
def execMeterPortWrite (addr : BitVec 16) (data : List (BitVec 8)) (s : State) : Host.Outcome State Fault Refusal :=
  if s.meter.powered then
    .next (meterWrites data.length addr.toNat data { s with meter := { s.meter with addr := addr } })
  else .next s

/-- `M_STATUS`. -/
def meterStatus (s : State) : Nat :=
  let m := s.meter
  sh (b2n (sealIntact m)) 31 + sh (bits m.flags 3 1) 30 + sh (bits m.flags 2 1) 29 + sh (b2n (auditFull m)) 28
    + sh (b2n m.refused) 27

/-- The record that `M_SEL` selects, zeros when it is not held. -/
def selRecord (m : Meter) : List Byte :=
  match m.records.find? fun x => x.r.rseq == m.sel.toNat with
  | some x => readingBytes x
  | none => []

/-- The audit record that `M_ASEL` selects. -/
def selAudit (m : Meter) : List Byte :=
  match m.audit.find? fun a => a.aseq == m.asel.toNat with
  | some a => auditBytes a
  | none => []

/-- Registers 0x0000 to 0x0027 of the port. -/
def meterRegs (s : State) : List Byte :=
  let m := s.meter
  toBytes 4 (meterStatus s) ++ toBytes 4 0x00020100 ++ toBytes 4 Config.meterChecksum.toNat ++ toBytes 4 m.period.toNat
    ++ toBytes 4 0 ++ toBytes 8 m.rseq ++ toBytes 8 m.sel.toNat ++ toBytes 4 m.asel.toNat

/-- One byte of the port's address space (R495); unlisted offsets read zero. -/
def meterByte (s : State) (rec aud : List Byte) (a : Nat) : Byte :=
  if a < 0x28 then (meterRegs s).getD a 0
  else if 0x1000 ≤ a ∧ a < 0x2000 then rec.getD (a - 0x1000) 0
  else if 0x2000 ≤ a ∧ a < 0x2040 then aud.getD (a - 0x2000) 0
  else if 0x3000 ≤ a ∧ a < 0x4580 then (Config.meterCert s.meter2.serial).getD (a - 0x3000) 0
  else if 0x5000 ≤ a ∧ a < 0x6580 then Config.meterCaCert.getD (a - 0x5000) 0
  else 0

/-- METER_PORT_READ (R494): data from the address, which moves on. -/
def execMeterPortRead (len : Nat) (s : State) : Host.Outcome State Fault Refusal :=
  if s.meter.powered then
    let a := s.meter.addr.toNat
    let rec_ := selRecord s.meter
    let aud := selAudit s.meter
    let s' := s.answer (.data ((List.range len).map fun i => meterByte s rec_ aud ((a + i) % 2 ^ 16)))
    .next { s' with meter := { s'.meter with addr := BitVec.ofNat 16 (a + len) } }
  else .next (s.answer .none)

/-! ## The mirror (R491 to R493) -/

/-- Activity of a context in quarters of an array cycle (R493). -/
def ctxActivity (s : State) (c : Nat) : Nat :=
  let x := (s.ctx c).prof
  4 * x.array.toNat + x.vec.toNat + 256 * (x.hbmRd.toNat + x.hbmWr.toNat)

/-- Activity of every defined context, as a table. -/
def activities (s : State) : List (Nat × Nat) := ((definedCtxs s).filter (· != 0)).map fun c => (c, ctxActivity s c)

/-- A mirror request fails (R491). -/
def snapFail (s : State) : State := mtrEvent 2 { s with mtr := { s.mtr with pend := false } }

/-- MTR_SNAP_REQ (R491): raises the request line unless a request is pending; without a meter it fails at once. -/
def snapReq (s : State) : State :=
  if s.mtr.pend then s
  else if s.meter2.fitted = false then snapFail { s with mtr := { s.mtr with present := false } }
  else { s with mtr := { s.mtr with pend := true, edge := true, actReq := activities s } }

def execMtrSnapReq (src : Src) (s : State) : Host.Outcome State Fault Refusal :=
  if isOperator s src then .next (snapReq s) else .next s

/-- Activity of a partition between the two requests. -/
def partActivity (s : State) (p : Nat) : Nat :=
  ((s.mtr.actReq.filter fun e => (s.ctx e.1).reg.st != .free && (s.ctx e.1).reg.part == p).map fun e =>
    e.2 - (aget s.mtr.actBase e.1).getD 0).sum

/-- Members of a partition, and slabs in service whose positions lie in no partition. -/
def memberCount (s : State) (p : Nat) : Nat := (members s p).length
def looseCount (s : State) : Nat :=
  ((List.range 100).filter fun n => inService s n && (partOf s (posOf s n)).isNone).length

/-- The shares of an energy: of each defined partition, and of the positions in none (R493). -/
def shares (s : State) (e : Nat) : List (Nat × Nat) × Nat :=
  let ps := (List.range 24).filter fun p => (s.part p).defd
  let b := s.mtr.appBase
  let tot := (ps.map (partActivity s)).sum
  let mem := (ps.map (memberCount s)).sum
  let share (p : Nat) : Nat :=
    if tot = 0 then
      if mem = 0 then 0 else e * memberCount s p * (b * mem + (100 - b) * 96) / (100 * 96 * mem)
    else e * (b * memberCount s p * tot + (100 - b) * partActivity s p * 96) / (100 * 96 * tot)
  let u := e * b * looseCount s / 9600
  let l := ps.map fun p => (p, share p)
  let rest := e - u - (l.map Prod.snd).sum
  match l with
  | [] => ([], u)
  | (p, v) :: r => ((p, v + rest) :: r, u)

/-- A record replaces the snapshot whole (R491, R493). -/
def installSnap (x : ReadingRec) (s : State) : State :=
  let old := s.mtr.snap
  let changed := match old with
    | some y => y.r.serial != x.r.serial
    | none => false
  let (app, u) := match old with
    | some y => if changed then ([], 0) else shares s (x.r.eTotal - y.r.eTotal)
    | none => ([], 0)
  let sealNow := sealIntact s.meter
  let ev := 1 + 8 * b2n changed + 4 * b2n (s.mtr.certSeen && sealNow != s.mtr.sealOk)
  mtrEvent (w32 ev) { s with mtr := { s.mtr with
    present := true, sealOk := sealNow, pend := false, changed := changed, snapSeq := s.mtr.snapSeq + 1,
    snap := some x, certSeen := true, app := app.map fun a => (a.1, BitVec.ofNat 64 a.2), appU := BitVec.ofNat 64 u,
    actBase := s.mtr.actReq } }

/-- MIRROR_RECORD (R491): a record formed for a mirror request arrives; none is ever discarded. -/
def execMirrorRecord (s : State) : Host.Outcome State Fault Refusal :=
  match s.meter2.mirrorOut with
  | x :: r => .next (installSnap x { s with meter2 := { s.meter2 with mirrorOut := r } })
  | [] => .next s

/-- MIRROR_TIMEOUT (R491): 150 ms without a record. -/
def execMirrorTimeout (s : State) : Host.Outcome State Fault Refusal :=
  if s.mtr.pend then .next (snapFail s) else .next s

end Sys2Proof.Machine
end

