-- ==== Sys2Proof/Machine/Power.lean ====
section
/-! DEFINITION. Temperatures, bring-up, resets, standby and the package controller's pins (section 20; R434 to R436, R442,
R458 where a start decides something). -/

namespace Sys2Proof.Machine

open Sys2Proof

/-! ## Conditions and pins (R524, R525, R540, R542) -/

/-- Is the slab bridged to a stack? -/
def bridged (n : Nat) : Bool := (Config.slabStack n).isSome

/-- Stack temperature of a slab, 0 without a stack. -/
def stackTemp (s : State) (n : Nat) : Nat := if bridged n then (s.slab2 n).hbm.temp else 0

/-- Is a sensor of the slab at its throttle level (R524)? -/
def slabHot (s : State) (n : Nat) : Bool := decide (100 ≤ (s.slab n).temp) || decide (95 ≤ stackTemp s n)

/-- `THERM_WARN` (R524). -/
def thermWarn (s : State) : Bool := (List.range 100).any (slabHot s)

/-- The slab whose tile sites are hottest, the lowest of equals. -/
def hottest (s : State) : Nat :=
  (List.range 100).foldl (fun b n => if (s.slab b).temp < (s.slab n).temp then n else b) 0

/-- `HBM_TMAX`. -/
def hbmTmax (s : State) : Nat := (List.range 100).foldl (fun m n => max m (stackTemp s n)) 0

/-- `ALERT_STATUS` (R542): the supply flags hold once the supplies have been sampled. -/
def alertStatus (s : State) : Nat :=
  let v12 := s.pkc.v12
  let v48 := s.pkc.v48
  b2n (thermWarn s) + 2 * b2n (decide (85 < hbmTmax s))
    + 4 * b2n (s.pkc2.sampled && (decide (v48 < 4000) || decide (6000 < v48)))
    + 8 * b2n (s.pkc2.sampled && (decide (v12 < 11400) || decide (12600 < v12)))
    + 16 * b2n (s.pkc2.oscAOk != s.pkc2.oscBOk) + 32 * b2n (s.arm.replaceReq != 0) + 64 * b2n s.pkc.recovery
    + 128 * b2n s.pkc2.tripped

/-- `ALERT#` is low, `WAKE#` is low, `THERMTRIP#` is low (R519, R525, R540). -/
def alertLow (s : State) : Bool := s.pkc.power != .unpowered && (BitVec.ofNat 32 (alertStatus s) &&& s.pkc.alertMask) != 0
def wakeLow (s : State) : Bool := s.pkc.power == .standbyStby && (BitVec.ofNat 32 (alertStatus s) &&& s.pkc.wakeMask) != 0
def thermTripLow (s : State) : Bool := s.pkc.power != .unpowered && s.pkc2.tripped

/-! ## Temperature samples -/

/-- New readings of a slab's sensors, with the events of R310 and R542. -/
def setTemps (n tiles stack : Nat) (s : State) : State :=
  let warn := thermWarn s
  let old := stackTemp s n
  let s := s.modSlab n fun x => { x with temp := min 255 tiles }
  let s := if bridged n then s.modSlab2 n fun x => { x with hbm := { x.hbm with temp := min 255 stack } } else s
  let s := if bridged n && decide (old ≤ 85) && decide (85 < stack) then hbmEvent n 16 s else s
  if thermWarn s && !warn then pkcEvent 4 s else s

/-- Has the slab live sensors? -/
def sensed (s : State) (n : Nat) : Bool := s.live && (s.slab n).st != .retired

/-- THERMAL_SAMPLE (R524): a hot slab's thermal rate falls by one step, to 1/16 at least. -/
def execThermalSample (n tiles stack : Nat) (s : State) : Host.Outcome State Fault Refusal :=
  if sensed s n then
    let s := setTemps n tiles stack s
    .next (if slabHot s n then s.modSlab n fun x => { x with thermalRate := max 1 (x.thermalRate - 1) } else s)
  else .next s

/-- THERMAL_RATE_RAISE (R524): with every sensor cool the thermal rate rises by one step. -/
def execThermalRateRaise (n tiles stack : Nat) (s : State) : Host.Outcome State Fault Refusal :=
  if sensed s n then
    let s := setTemps n tiles stack s
    .next (if (s.slab n).temp < 97 ∧ stackTemp s n < 92 then
      s.modSlab n fun x => { x with thermalRate := min 16 (x.thermalRate + 1) } else s)
  else .next s

/-- OSC_FAIL (R542): `which` names oscillator B. -/
def execOscFail (which : Bool) (s : State) : Host.Outcome State Fault Refusal :=
  if s.pkc.power = .unpowered then .next s
  else
    let p := if which then { s.pkc2 with oscBOk := false } else { s.pkc2 with oscAOk := false }
    .next (pkcEvent 8 { s with pkc2 := p })

/-! ## What a device reset leaves (R530) -/

/-- A slab after a reset: its place in the map, its sites and its counter stay. -/
def Slab.restart (n : Nat) (x : Slab) : Slab :=
  { Slab.init n with
    st := x.st, serves := x.serves, pufFail := x.pufFail, coreOn := false, cycle := x.cycle, tileMap := x.tileMap,
    siteState := x.siteState }

/-- The rest of a slab after a reset: a lost stack stays untrained. -/
def Slab2.restart (n : Nat) (live : Bool) : Slab2 :=
  let x := Slab2.init n
  { x with hbm := { x.hbm with trained := x.hbm.trained && live }, epochs := [] }

/-- A bank after a reset: its spare lines are repair state (R472). -/
def Bank.restart (b : Bank) : Bank := { Bank.init with spared := b.spared, badSpares := b.badSpares }

/-- No partition is defined. -/
def noPart : Part := partFrom none 0

/-- Everything that a device reset takes is gone; no core region is powered, no partition or context defined. Flash,
repair state, host memory, the meter and the package controller's kept fields stay (R530, R543). -/
def wipe (s : State) : State :=
  let t : State :=
    { State.reset with
      pending := s.pending, env := { s.env with waits := [] }, meter := s.meter, meter2 := s.meter2,
      pkg := { Pkg.init with
        retiredSlab := s.pkg.retiredSlab, unroutable := s.pkg.unroutable, lostStacks := s.pkg.lostStacks },
      pcie := { Pcie.init with
        activeSlab := s.pcie.activeSlab, standbyOk := s.pcie.standbyOk, linkDown := s.pcie.linkDown, speed := 0,
        width := 0 },
      sec := { Sec.init with
        primaryOk := s.sec.primaryOk, secondaryOk := s.sec.secondaryOk, anchor := s.sec.anchor, fwRun := s.sec.fwRun,
        fwA := s.sec.fwA, fwB := s.sec.fwB, fwFloor := s.sec.fwFloor, armFloor := s.sec.armFloor, certs := s.sec.certs },
      arm := { Arm.init with
        slotA := s.arm.slotA, slotB := s.arm.slotB, curB := s.arm.curB, prevValid := s.arm.prevValid,
        reverted := s.arm.reverted, replaceReq := s.arm.replaceReq, log := s.arm.log, logCount := s.arm.logCount },
      arm2 := { Arm2.init with portFails := s.arm2.portFails },
      pkc := { Pkc.init with
        recovery := false, ready := false, step := 0, rstCount := s.pkc.rstCount, rstCause := s.pkc.rstCause,
        slabOff := s.pkc.slabOff, alertMask := s.pkc.alertMask, wakeMask := s.pkc.wakeMask,
        identityLess := s.pkc.identityLess },
      pkc2 := { s.pkc2 with sampled := false, repowered := [] },
      hbm := { Hbm.init with session := s.hbm.session + 1, keyGen := s.hbm.keyGen } }
  let t := forAll (List.range 100) (fun n t =>
    (t.setSlab n ((s.slab n).restart n)).setSlab2 n (Slab2.restart n ((s.slab n).st != .retired))) t
  let t := forAll s.banks (fun b t => t.setBank b.1 b.2.restart) t
  forAll (List.range 24) (fun p t => t.setPart p noPart) t

/-! ## Bring-up from step 4 (R442, R458, R526 to R528) -/

/-- The slot that step 3 of R442 runs: false for A, true for B. -/
def chooseFw (s : State) : Option Bool :=
  let a := slotOk s.sec.fwA s.sec.fwFloor
  let b := slotOk s.sec.fwB s.sec.fwFloor
  let better : Bool :=
    match s.sec.fwA, s.sec.fwB with
    | some x, some y => decide (x.svn.toNat < y.svn.toNat ∨ (x.svn = y.svn ∧ x.version.toNat < y.version.toNat))
    | _, _ => false
  if a && b then some better else if a then some false else if b then some true else none

/-- The Armatures that R458 selects: the state with slot, `PREV_VALID` and `REVERTED` settled, or none. -/
def chooseArm (s : State) : Option State :=
  let other := armOther s
  if slotOk (armCur s) s.sec.armFloor then
    let prev := s.arm.prevValid && slotOk other s.sec.armFloor
      && (other.map Image.epoch != (armCur s).map Image.epoch)
    some (if prev then s else { s with arm := { s.arm with prevValid := false, reverted := 0 } })
  else if slotOk other s.sec.armFloor then
    some (armEvent 32 { s with arm := { s.arm with curB := !s.arm.curB, prevValid := false, reverted := 0 } })
  else none

/-- The larger of a floor and the `SVN` of an image (R442). -/
def raiseFloor (f : Word) (i : Option Image) : Word :=
  match i with
  | some x => if f.toNat < x.svn.toNat then x.svn else f
  | none => f

/-- The recovery state (R528), at the step that failed: the PF alone comes up. -/
def recover (step : Nat) (s : State) : State :=
  { s with
    pkc := { s.pkc with recovery := true, ready := false, step := step,
                        power := if s.pkc2.perstN then .running else .inReset },
    pcie := { s.pcie with vfs := 0 } }

/-- The core region of a slab in service is powered, unless `PWR_SLAB_OFF` holds it off; a member's is always on (R538). -/
def wakeCore (n : Nat) (s : State) : State :=
  if inService s n then
    let covered := (partOf s (posOf s n)).isSome
    let s := if covered then
        { s with pkc := { s.pkc with slabOff := s.pkc.slabOff &&& ~~~(BitVec.ofNat 128 (sh 1 n)) } }
      else s
    s.modSlab n fun x => { x with coreOn := covered || !bit s.pkc.slabOff.toNat n }
  else s

/-- Steps 5 to 8 once an Armature is current: device-wide settings, partitions with their epochs, slabs, substitutes. -/
def setUp (s : State) : State :=
  let s := { s with
    sec := { s.sec with armFloor := raiseFloor s.sec.armFloor (armCur s) },
    pkg := { s.pkg with vfBar4 := payField (armCur s) 6 0 1 == 1 } }
  let s := deviceWide s
  let s := forAll (List.range 24) (fun p t => t.setPart p (partFrom (armRun t p) p)) s
  let s := forAll (List.range 100) (refreshSlab false) s
  let s := forAll (List.range 100) wakeCore s
  let tab := ((List.range 24).filter fun p => (s.part p).defd).map fun p => (p, (s.part p).epoch)
  let s := forAll (List.range 100) (fun n t =>
    if (t.slab n).st = .retired then t else t.modSlab2 n fun x => { x with epochs := tab }) s
  let s := forAll ((List.range 24).filter fun p => (s.part p).defd) fixSubst s
  let one := s.sec.primaryOk != s.sec.secondaryOk
  if one then replace 6 (if s.sec.primaryOk then 50 else 40) s else s

/-- The host link has trained (R370, R374). -/
def linkUp (speed width : Nat) (s : State) : State :=
  if s.pcie.linkDown then s
  else
    let s := { s with pcie := { s.pcie with speed := speed, width := width } }
    if speed < 6 ∨ width < 16 then pcieEvent 4 s else s

/-- The link trains again with a partner that says nothing of rate and width: both are open, within R340. -/
def linkRetrains (s : State) : State :=
  let a := s.takeFree 3
  let b := a.2.takeFree 3
  linkUp (1 + a.1.toNat % 6) (2 ^ (b.1.toNat % 5)) b.2

/-- Step 9, unless `PERST#` is asserted: then bring-up waits at step 8 (R527). -/
def finishStart (s : State) : State :=
  if s.pkc2.perstN then
    { s with pkc := { s.pkc with ready := true, step := 9, power := .running } }
  else { s with pkc := { s.pkc with ready := false, step := 8, power := .inReset } }

/-- Bring-up from step 4 on a wiped device. -/
def bringUp (s : State) : State :=
  match chooseFw s with
  | none => recover 4 s
  | some b =>
    let s := { s with sec := { s.sec with fwRun := b } }
    let s := { s with sec := { s.sec with fwFloor := raiseFloor s.sec.fwFloor (fwRunning s) } }
    match chooseArm s with
    | none => recover 5 s
    | some s => finishStart (setUp s)

/-! ## Device warm reset (R529, R530, R533) -/

/-- Stop of all service; bring-up runs at once, or when `SYS_RESET#` is released. A partition reset that was waiting ends
absorbed (R534). -/
def warmWipe (cause : Nat) (s : State) : State :=
  let t := wipe s
  let absorbed := if s.pkc.rstBusy then 2 else 0
  { t with
    pkc := { t.pkc with
      rstCause := cause, rstCount := s.pkc.rstCount + 1, step := 4, power := .inReset, rstResult := absorbed,
      rstPart := if s.pkc.rstBusy then s.pkc.rstPart else 0 },
    pcie := { t.pcie with vfs := 0 } }

/-- The start of the bring-up that a device warm reset runs; without an identity it is not retried (R528). -/
def warmStart (s : State) : State := if s.pkc.identityLess then recover 3 s else bringUp s

/-- A device warm reset. -/
def warmReset (cause : Nat) (s : State) : State :=
  let t := warmStart (warmWipe cause s)
  if t.pkc.power = .running then linkRetrains t else t

/-- Is the host's port there to reset the device? -/
def hostThere (s : State) : Bool := srcLive s .pf

/-- WARM (R529, R533). -/
def execWarm (src : Src) (s : State) : Host.Outcome State Fault Refusal :=
  if isOperatorAt s src then .next (warmReset 8 s) else .next s

/-- HOT_RESET, SECONDARY_BUS_RESET, LINK_DISABLE and PF_FLR (R529). -/
def execHotReset (s : State) : Host.Outcome State Fault Refusal := if hostThere s then .next (warmReset 4 s) else .next s
def execSecondaryBusReset (s : State) : Host.Outcome State Fault Refusal :=
  if hostThere s then .next (warmReset 5 s) else .next s
def execLinkDisable (s : State) : Host.Outcome State Fault Refusal := if hostThere s then .next (warmReset 6 s) else .next s
def execPfFlr (s : State) : Host.Outcome State Fault Refusal := if hostThere s then .next (warmReset 7 s) else .next s

/-! ## Standby and supplies (R522, R525, R537) -/

/-- Are the converters fed from `VIN48` on? -/
def converters (s : State) : Bool := s.pkc.power == .running || s.pkc.power == .inReset

/-- Device standby: contexts, banks, HBM, keys and the fabric's state are lost. -/
def enterStandby (why : PwrState) (s : State) : State :=
  let t := wipe s
  let t := { t with
    pkc := { t.pkc with power := why, identityLess := false, rstCount := s.pkc.rstCount, events := s.pkc.events },
    pcie := { t.pcie with vfs := 0 } }
  forAll (List.range 100) (fun n t => t.modSlab n fun x => { x with cycle := 0 }) t

/-- PWR_OK_FALL (R537). -/
def execPwrOkFall (s : State) : Host.Outcome State Fault Refusal :=
  if s.pkc.power = .unpowered then .next s
  else
    let s := { s with pkc2 := { s.pkc2 with pwrOk := false } }
    if converters s then .next (enterStandby .standbyPwr s)
    else if s.pkc.power = .standbyStby then .next { s with pkc := { s.pkc with power := .standbyPwr } }
    else .next s

/-- VIN48_BROWNOUT (R522): as a fall of `PWR_OK`, whose pin stays high. -/
def execVin48Brownout (s : State) : Host.Outcome State Fault Refusal :=
  if s.pkc2.pwrOk && converters s then .next (enterStandby .standbyPwr s)
  else if s.pkc2.pwrOk && s.pkc.power == .standbyStby then .next { s with pkc := { s.pkc with power := .standbyPwr } }
  else .next s

/-- THERMAL_TRIP (R525). -/
def execThermalTrip (s : State) : Host.Outcome State Fault Refusal :=
  if converters s then
    let t := enterStandby .standbyTrip s
    .next { t with pkc2 := { t.pkc2 with tripped := true, tripStart := true } }
  else .next s

/-- STBY (R537, R543). -/
def execStby (src : Src) (s : State) : Host.Outcome State Fault Refusal :=
  if isOperatorAt s src then .next (enterStandby .standbyStby s) else .next s

/-- P12V_STBY_FALL (R518, R525): the module is unpowered; the trip latch clears and the pins are not sensed. -/
def execP12vStbyFall (s : State) : Host.Outcome State Fault Refusal :=
  if s.pkc.power = .unpowered then .next s
  else
    let t := if converters s then enterStandby .unpowered s else s
    .next { t with
      pkc := { Pkc.init with ready := false, step := 0, power := .unpowered },
      pkc2 := { t.pkc2 with
        pwrOk := false, tripped := false, sampled := false, mgmtAddr := 0, mgmtInd := false, jtagDrive := none } }

/-- P12V_STBY_RISE (R537): standby, as after a fall of `PWR_OK`. -/
def execP12vStbyRise (s : State) : Host.Outcome State Fault Refusal :=
  if s.pkc.power = .unpowered then .next { s with pkc := { s.pkc with power := .standbyPwr } } else .next s

/-! ## Cold power-on (R434 to R436, R526) -/

/-- Local cycle counters at the end of bring-up are open (R27). -/
def freeCycles (s : State) : State :=
  forAll (List.range 100) (fun n t =>
    if (t.slab n).st = .retired then t
    else
      let a := t.takeFree 64
      a.2.modSlab n fun x => { x with cycle := a.1 }) s

/-- Step 3: which seeds are reproduced, and the anchor that follows (R435, R436). -/
def deriveKeys (s : State) : State :=
  let ok (n : Nat) : Bool := Config.pufOk n s.pkc2.starts
  let s := forAll ((List.range 100).filter fun n => (s.slab n).st != .retired) (fun n t =>
    t.modSlab n fun x => { x with pufFail := !ok n }) s
  let p := (s.slab 40).st != .retired && ok 40
  let q := (s.slab 50).st != .retired && ok 50
  let old := s.sec.anchor
  let now := if p then 40 else if q then 50 else old
  let s := { s with sec := { s.sec with primaryOk := p, secondaryOk := q, anchor := now } }
  let s := if now = old then s else secEvent 8 s
  if (List.range 100).any fun n => (s.slab n).pufFail then secEvent 16 s else s

/-- Slabs whose seeds failed are retired before they take work (R435). -/
def retireFailed (s : State) : State :=
  forAll ((List.range 100).filter fun n => (s.slab n).pufFail && (s.slab n).st != .retired) (fun n t => fullRetire n true 0 t) s

/-- Bring-up from step 1, for a cause of `RST_CAUSE`; all that a reset takes is already gone in standby. -/
def coldStart (cause : Nat) (s : State) : State :=
  let s := { s with
    pkc := { Pkc.init with ready := false, step := 1, power := .inReset, rstCause := if s.pkc2.tripStart then 9 else cause },
    pkc2 := { s.pkc2 with tripped := false, tripStart := false, starts := s.pkc2.starts + 1 },
    pcie := { Pcie.init with
      activeSlab := if (s.slab 40).st = .retired then 50 else 40,
      standbyOk := (s.slab 40).st != .retired && (s.slab 50).st != .retired,
      linkDown := (s.slab 40).st == .retired && (s.slab 50).st == .retired, speed := 0, width := 0 },
    mtr := Mtr.init }
  let s := deriveKeys s
  if noIdentity s then recover 3 { s with pkc := { s.pkc with identityLess := true } }
  else
    let t := bringUp s
    freeCycles (if t.pkc.recovery then t else retireFailed t)

/-- A cold power-on with the link trained at once where `PERST#` is not asserted. -/
def coldOn (cause : Nat) (s : State) : State :=
  let t := coldStart cause s
  if t.pkc.power = .running then linkRetrains t else t

/-- A cold power-on while `SYS_RESET#` is asserted: the device stays in reset before step 4 (R529). -/
def heldStart (cause : Nat) (s : State) : State :=
  let t := wipe (coldStart cause s)
  { t with pkc := { t.pkc with step := 4, power := .inReset } }

/-- COLD_POWER_ON (R526, R529): the rising edge of `PWR_OK`. -/
def execColdPowerOn (s : State) : Host.Outcome State Fault Refusal :=
  if s.pkc.power = .unpowered ∨ s.pkc2.pwrOk then .next s
  else
    let s := { s with pkc2 := { s.pkc2 with pwrOk := true } }
    .next (if s.pkc2.sysResetN then coldOn 0 s else heldStart 0 s)

/-! ## Reset pins (R518, R527, R529) -/

/-- SYS_RESET_ASSERT: the device stays in reset while the pin is low. -/
def execSysResetAssert (s : State) : Host.Outcome State Fault Refusal :=
  if s.pkc.power = .unpowered ∨ s.pkc2.sysResetN = false then .next s
  else
    let s := { s with pkc2 := { s.pkc2 with sysResetN := false } }
    if converters s then .next (warmWipe 2 s) else .next s

/-- SYS_RESET_DEASSERT: the warm bring-up starts, or standby entered by `STBY` is left. -/
def execSysResetDeassert (s : State) : Host.Outcome State Fault Refusal :=
  if s.pkc.power = .unpowered ∨ s.pkc2.sysResetN then .next s
  else
    let s := { s with pkc2 := { s.pkc2 with sysResetN := true, jtagDrive := none } }
    if s.pkc.power = .inReset then
      let t := warmStart s
      .next (if t.pkc.power = .running then linkRetrains t else t)
    else if s.pkc.power = .standbyStby ∧ s.pkc2.pwrOk then .next (coldOn 1 s)
    else .next s

/-- PERST_ASSERT: after step 9 a device warm reset, whose bring-up waits at step 8; in the recovery state the functions go
down with the link. -/
def execPerstAssert (s : State) : Host.Outcome State Fault Refusal :=
  if s.pkc.power = .unpowered ∨ s.pkc2.perstN = false then .next s
  else
    let s := { s with pkc2 := { s.pkc2 with perstN := false } }
    if s.pkc.power = .running ∧ s.pkc.ready then .next (warmReset 3 s)
    else if s.pkc.power = .running then .next { s with
      pkc := { s.pkc with power := .inReset }, pcie := { s.pcie with speed := 0, width := 0 } }
    else .next s

/-- PERST_DEASSERT: link training, and step 9 where bring-up waits for it; standby entered by `STBY` is left. -/
def execPerstDeassert (speed width : Nat) (s : State) : Host.Outcome State Fault Refusal :=
  if s.pkc.power = .unpowered ∨ s.pkc2.perstN then .next s
  else
    let s := { s with pkc2 := { s.pkc2 with perstN := true } }
    if s.pkc.power = .standbyStby ∧ s.pkc2.pwrOk then
      .next (if s.pkc2.sysResetN then linkUp speed width (coldStart 1 s) else heldStart 1 s)
    else if s.pkc.power = .inReset ∧ s.pkc2.sysResetN then
      if s.pkc.recovery then .next (linkUp speed width { s with pkc := { s.pkc with power := .running } })
      else .next (linkUp speed width (finishStart s))
    else .next s

/-! ## Function-level reset (R529 to R531) -/

/-- Reset of a VF: its contexts, its function block and MSI-X, its configuration space; queued events are discarded. -/
def resetVf (f : Nat) (s : State) : State :=
  let cs := ctxsOfFn s f
  let s := forAll cs (fun c t => resetCtx c false t) s
  let keep (l : List (Nat × Word)) : List (Nat × Word) := l.filter fun e => e.1 / 4096 != f
  let s := { s.setFn f Fn.init with pcie := { s.pcie with
    cfg := keep s.pcie.cfg, cfgMirror := keep s.pcie.cfgMirror, msiHeld := s.pcie.msiHeld.filter fun v => v.1 != f } }
  post 0 0x0130 0xFF 0xFFFF [f, cs.length] s

/-- Does a swap of one of the contexts hold a reset back (R401, R534)? -/
def swapHolds (s : State) (cs : List Nat) : Bool := cs.any fun c => (s.ctx c).sched.swapping != .none

/-- VF_FLR (R531). -/
def execVfFlr (n : Nat) (s : State) : Host.Outcome State Fault Refusal :=
  if srcLive s (.vf n) && !swapHolds s (ctxsOfFn s n) then .next (resetVf n s) else .next s

/-- VF_ENABLE_CLEAR (R529): every VF is reset, and no VF is enabled. -/
def execVfEnableClear (s : State) : Host.Outcome State Fault Refusal :=
  let fs := (List.range s.pcie.vfs).map (· + 1)
  if srcLive s .pf && s.pkc.ready && !fs.any (fun f => swapHolds s (ctxsOfFn s f)) then
    let s := forAll fs resetVf s
    .next { s with pcie := { s.pcie with vfs := 0 } }
  else .next s

/-! ## Partition reset (R530, R532, R534) -/

/-- Does another operation hold the reset back: a swap or evacuation of a context, an exchange, a switch or a map update? -/
def presetHeld (s : State) (p : Nat) : Bool :=
  swapHolds s (ctxsOf s p) || exchRuns s || (s.arm.busy && s.arm2.started)
    || (s.part2 p).stopped.any fun x => match x with
      | .tileMove _ => true
      | .warning _ => true
      | _ => false

/-- A member slab at a partition reset: banks cleared, slots reloaded, control words from the Armature. -/
def presetSlab (n : Nat) (s : State) : State :=
  let s := clearPos (posOf s n) s
  let s := s.modSlab n fun x => { x with vec := { x.vec with active := Vec.init.active } }
  applyWords n (armOfPos s (posOf s n)) (s.modSlab2 n fun x => { x with lab := [] })

/-- The partition reset itself. -/
def presetPart (p : Nat) (s : State) : State :=
  let cs := ctxsOf s p
  let fs := (cs.map fun c => (s.ctx c).reg.func).eraseDups.filter (· != 0)
  let s := forAll cs (fun c t => resetCtx c false t) s
  let s := forAll (members s p) presetSlab s
  let x := s.part p
  let s := hbmUnwrite (x.hbmBase * allocBytes) (x.hbmUnits * allocBytes) s
  let fresh := partFrom (armRun s p) p
  let s := s.setPart p { x with kvReserve := fresh.kvReserve, schedCtrl := fresh.schedCtrl }
  let s := s.modPart2 p fun x => { x with leafTab := [], slice := none, sliceLast := 0, rrLc := 0, rrBe := 0 }
  let s := { s with pkc := { s.pkc with rstBusy := false, rstResult := 0, rstPart := p } }
  let s := forAll fs (fun f t => post f 0x0131 0xFF 0xFFFF [p, cs.length] t) (post 0 0x0131 0xFF 0xFFFF [p, cs.length] s)
  pkcEvent 1 s

/-- PRESET (R532, R543): an undefined partition gives result 1; a reset that must wait shows BUSY. -/
def execPreset (src : Src) (p : Nat) (s : State) : Host.Outcome State Fault Refusal :=
  if isOperator s src then
    if (s.part p).defd = false then .next { s with pkc := { s.pkc with rstResult := 1 } }
    else if presetHeld s p then .next { s with pkc := { s.pkc with rstBusy := true, rstPart := p } }
    else .next (presetPart p s)
  else .next s

/-! ## Core regions that no partition covers (R538, R543) -/

/-- A core region goes dark: its banks, stationary sets and slots lose their contents. -/
def powerOff (n : Nat) (s : State) : State :=
  let s := s.modSlab n fun x => { x with coreOn := false, vec := Vec.init }
  let s := s.modSlab2 n fun x => { x with lab := [] }
  let s := freshPos n n (clearPos n s)
  { s with
    pkc := { s.pkc with slabOff := s.pkc.slabOff ||| BitVec.ofNat 128 (sh 1 n) },
    pkc2 := { s.pkc2 with repowered := s.pkc2.repowered.filter (· != n) } }

/-- One bit of `PWR_SLAB_OFF`. -/
def offBit (n : Nat) (want : Bool) (s : State) : State :=
  let is := bit s.pkc.slabOff.toNat n
  if want then
    if is then s
    else if (s.slab n).st = .active ∧ partOf s n = none then powerOff n s
    else pkcEvent 16 s
  else if is then powerOn n s else s

/-- PWR_SLAB_OFF_WRITE (R538, R543): the bits of slabs 32·word to 32·word + 31. -/
def execPwrSlabOffWrite (src : Src) (word : Nat) (value : BitVec 32) (s : State) : Host.Outcome State Fault Refusal :=
  if isOperatorAt s src then
    .next (forAll ((List.range 32).filter fun i => decide (32 * word + i < 100))
      (fun i t => offBit (32 * word + i) (bit value.toNat i) t) s)
  else .next s

/-- SLAB_PWR (R538): the region has been cleared and tested; one that fails its test is retired. -/
def execSlabPwr (n : Nat) (pass : Bool) (s : State) : Host.Outcome State Fault Refusal :=
  if s.pkc2.repowered.contains n && !posClearing s n then
    let s := { s with pkc2 := { s.pkc2 with repowered := s.pkc2.repowered.filter (· != n) } }
    .next (if pass then pkcEvent 2 s else coreRetire n true 0 s)
  else .next s

end Sys2Proof.Machine
end

