-- ==== Sys2Proof/Machine/Regs.lean ====
section
/-! DEFINITION. Every register of the S100 (R498 to R516): where it lies, its access code, what a read returns, and what a
write does. -/

namespace Sys2Proof.Machine

open Sys2Proof

/-! ## Locations -/

/-- Access codes of R14. -/
inductive Acc where
  | ro
  | rw
  | rwi
  | wo
  | w1c
deriving DecidableEq, Repr

/-- A register location: the block and the offset in it. A context page keeps the source and the page as addressed. -/
inductive Loc where
  | pkg (o : Nat)
  | rif (o : Nat)
  | pcie (o : Nat)
  | sec (o : Nat)
  | arm (o : Nat)
  | mtr (o : Nat)
  | seq (o : Nat)
  | kv (o : Nat)
  | hbm (o : Nat)
  | sched (o : Nat)
  | fn (f o : Nat)
  | prof (o : Nat)
  | msix (f o : Nat)
  | pba (f o : Nat)
  | page (src : Src) (n o : Nat)
  | slab (n o : Nat)
  | pkc (o : Nat)
deriving DecidableEq, Repr

/-- A register of a 64 KiB block (R498). -/
def blockLoc (b o : Nat) : Option Loc :=
  match b with
  | 0 => some (.pkg o)
  | 1 => some (.rif o)
  | 2 => some (.pcie o)
  | 3 => some (.sec o)
  | 4 => some (.arm o)
  | 5 => some (.mtr o)
  | 6 => some (.seq o)
  | 7 => some (.kv o)
  | 8 => some (.hbm o)
  | 9 => some (.sched o)
  | 10 => some (.fn 0 o)
  | _ => none

/-- The view that a number in an address selects (R499). -/
def viewOf (n : Nat) : View :=
  match n with
  | 0 => .plain
  | 1 => .set
  | 2 => .clear
  | _ => .toggle

/-- `VIEW` of `BUS_ERR_LOG0`. -/
def viewCode : View → Nat
  | .plain => 0
  | .set => 1
  | .clear => 2
  | .toggle => 3

/-- What an offset of the PF's BAR0 names (R498, R499). -/
def pfLoc (src : Src) (a : Nat) : View × Option Loc :=
  if a < 0xB0000 then (viewOf (a / 0x4000 % 4), blockLoc (a / 0x10000) (a % 0x4000))
  else if 0x100000 ≤ a ∧ a < 0x110000 then (.plain, some (.prof (a - 0x100000)))
  else if 0x200000 ≤ a ∧ a < 0x204010 then (.plain, some (.msix 0 (a - 0x200000)))
  else if 0x208000 ≤ a ∧ a < 0x208088 then (.plain, some (.pba 0 (a - 0x208000)))
  else if 0x1000000 ≤ a ∧ a < 0x1400000 then (.plain, some (.page src ((a - 0x1000000) / 0x1000) (a % 0x1000)))
  else (.plain, none)

/-- What an offset of a VF's BAR0 names (R343). -/
def vfLoc (n a : Nat) : Option Loc :=
  if a < 0x40000 then some (.page (.vf n) (a / 0x1000) (a % 0x1000))
  else if a < 0x50000 then some (.fn n (a - 0x40000))
  else if a < 0x50410 then some (.msix n (a - 0x50000))
  else if 0x58000 ≤ a ∧ a < 0x58010 then some (.pba n (a - 0x58000))
  else none

/-- Does the recovery state serve the location (R528)? -/
def servedInRecovery : Loc → Bool
  | .pkg _ => true
  | .rif _ => true
  | .pcie _ => true
  | .sec _ => true
  | .pkc _ => true
  | _ => false

/-- A location that the device serves as it now stands. -/
def served (s : State) (l : Option Loc) : Option Loc :=
  match l with
  | some x => if s.pkc.recovery && !servedInRecovery x then none else some x
  | none => none

/-- What a BAR0 offset of a source names. -/
def barLoc (s : State) (src : Src) (a : Nat) : View × Option Loc :=
  match src with
  | .vf n => (.plain, served s (vfLoc n a))
  | _ => let r := pfLoc src a
    (r.1, served s r.2)

/-- What an indirect address names (R510, R512); none where it names no space. -/
def indLoc (a : Nat) : Option Loc :=
  let n := a / 2 ^ 24 % 256
  let o := a % 2 ^ 16 / 4 * 4
  if n < 100 then some (.slab n o) else if n = 0xFE then some (.pkc o) else none

/-! ## Access codes -/

/-- Is a number within bounds? -/
def within (lo hi o : Nat) : Bool := decide (lo ≤ o ∧ o ≤ hi)

def accPkg (o : Nat) : Option Acc :=
  if o = 0 ∨ o = 4 ∨ o = 0x54 ∨ within 0x10 0x40 o then some .ro
  else if o = 0x50 then some .rwi else if o = 0x58 then some .w1c else none

def accRif (o : Nat) : Option Acc :=
  if o = 0 ∨ within 0x20 0x30 o then some .ro
  else if o = 4 ∨ o = 8 ∨ o = 0x10 ∨ o = 0x14 then some .rw else none

def accPcie (o : Nat) : Option Acc :=
  match o with
  | 0 => some .ro
  | 4 => some .rwi
  | 8 => some .ro
  | 0xC => some .w1c
  | _ => none

def accSec (o : Nat) : Option Acc :=
  if o = 4 ∨ within 0x50 0x60 o then some .ro
  else if o = 0 ∨ within 8 0x10 o ∨ within 0x20 0x4C o then some .rw
  else if o = 0x64 then some .w1c else none

def accArm (o : Nat) : Option Acc :=
  if within 0 8 o ∨ within 0x10 0x18 o ∨ within 0x24 0x3C o ∨ within 0x40 0x5C o then some .ro
  else if o = 0xC ∨ o = 0x20 then some .rw
  else if o = 0x1C then some .w1c
  else if within 0x100 0x27C o && decide (o % 16 ≠ 12) then some .ro else none

def accMtr (o : Nat) : Option Acc :=
  if o = 0 ∨ o = 8 ∨ within 0x100 0x1C4 o ∨ within 0x1000 0x1FFC o ∨ within 0x2000 0x357C o then some .ro
  else if o = 4 then some .wo else if o = 0xC then some .w1c else if o = 0x10 then some .rw else none

def accSeq (o : Nat) : Option Acc :=
  if o < 0x100 then
    if o = 0 ∨ o = 4 then some .ro else if o = 8 then some .wo else none
  else if (o - 0x100) / 0x100 < 24 then
    if o % 0x100 ≤ 0x18 then some .ro else if o % 0x100 = 0x1C then some .w1c else none
  else none

def accKv (o : Nat) : Option Acc :=
  if o / 0x40 < 24 then
    match o % 0x40 with
    | 0x08 => some .rwi
    | 0x10 => some .wo
    | 0x14 => some .w1c
    | r => if r ≤ 0x28 then some .ro else none
  else none

def accHbm (o : Nat) : Option Acc := if o / 0x20 < 24 ∧ o % 0x20 ≤ 0x14 then some .ro else none

def accSched (o : Nat) : Option Acc :=
  if o / 0x10 < 24 then
    match o % 0x10 with
    | 0 => some .rwi
    | 8 => some .w1c
    | _ => some .ro
  else none

def accFn (o : Nat) : Option Acc :=
  if within 0 0xC o ∨ o = 0x18 then some .rw
  else if o = 0x10 then some .wo
  else if o = 0x14 ∨ o = 0x1C ∨ o = 0x24 ∨ within 0x100 0x1FC o then some .ro
  else if o = 0x20 then some .w1c else none

def accPage (o : Nat) : Option Acc :=
  match o with
  | 0x00C => some .wo
  | 0x03C => some .w1c
  | 0x138 => some .wo
  | 0x804 => some .rwi
  | 0x828 => some .w1c
  | _ =>
    if o = 0 ∨ within 0x10 0x18 o ∨ within 0x20 0x28 o ∨ o = 0x30 then some .rw
    else if o ≤ 0x38 ∨ within 0x100 0x134 o ∨ within 0x800 0x824 o then some .ro else none

def accHbmCtl (o : Nat) : Option Acc :=
  if o = 0x6004 then some .rwi else if o = 0x6038 then some .w1c else if within 0x6000 0x6040 o then some .ro else none

def accLink (o : Nat) : Option Acc :=
  if o = 0x7100 then some .rwi else if o = 0x7120 then some .w1c else if within 0x7100 0x7130 o then some .ro else none

def accVc (o : Nat) : Option Acc :=
  if o = 0x8000 ∨ o = 0x801C then some .rwi
  else if o = 0x8018 then some .w1c else if within 0x8000 0x8024 o then some .ro else none

/-- Bank control and tile bank blocks. -/
def accBank (o : Nat) : Option Acc :=
  if within 0x4000 0x4FFC o then
    if o % 0x40 ≤ 0xC then some .rwi else if o % 0x40 ≤ 0x20 then some .ro else none
  else
    match o with
    | 0x5000 => some .rwi
    | 0x5004 => some .ro
    | 0x5008 => some .ro
    | 0x500C => some .w1c
    | 0x5010 => some .ro
    | 0x5014 => some .ro
    | _ => none

/-- Vector control, tile vector blocks and the page-walk unit. -/
def accVec (o : Nat) : Option Acc :=
  if within 0x2400 0x27FC o ∨ o = 0x2000 ∨ within 0x3000 0x3014 o then some .ro
  else if within 0x2004 0x200C o ∨ o = 0x3018 then some .rwi
  else if o = 0x2010 then some .w1c else none

/-- A slab's indirect space (R512). -/
def accSlab (o : Nat) : Option Acc :=
  if o < 0x800 then
    if o = 0 ∨ o = 8 ∨ o = 0xC ∨ within 0x10 0x60 o then some .ro else none
  else if o = 0x800 then some .rwi
  else if o = 0x804 then some .w1c
  else if within 0x1000 0x1FFC o then (if o % 0x40 ≤ 0x2C then some .ro else none)
  else if o < 0x4000 then accVec o
  else if o < 0x6000 then accBank o
  else if o < 0x7000 then accHbmCtl o
  else if o < 0x7100 then
    if o = 0x7000 then some .rwi else if o = 0x701C then some .w1c
    else if within 0x7000 0x703C o then some .ro else none
  else if o < 0x8000 then accLink o
  else accVc o

def accPkc (o : Nat) : Option Acc :=
  if o = 8 then some .wo
  else if within 0 0x14 o ∨ within 0x30 0x4C o then some .ro
  else if o = 0x18 ∨ within 0x20 0x2C o then some .rwi
  else if o = 0x50 ∨ o = 0x54 then some .rw
  else if o = 0x58 then some .w1c else none

/-- The access code of a location; none where it is reserved. -/
def Loc.acc : Loc → Option Acc
  | .pkg o => accPkg o
  | .rif o => accRif o
  | .pcie o => accPcie o
  | .sec o => accSec o
  | .arm o => accArm o
  | .mtr o => accMtr o
  | .seq o => accSeq o
  | .kv o => accKv o
  | .hbm o => accHbm o
  | .sched o => accSched o
  | .fn _ o => accFn o
  | .prof o => if o % 0x40 ≤ 0x2C then some .ro else none
  | .msix _ _ => some .rw
  | .pba _ _ => some .ro
  | .page _ _ o => accPage o
  | .slab _ o => accSlab o
  | .pkc o => accPkc o

/-- Registers of the core region (R512). -/
def coreRegion (o : Nat) : Bool :=
  within 0x0800 0x2FFF o || within 0x3000 0x30FF o || within 0x4000 0x50FF o || within 0x8000 0x80FF o

/-- Is the location one that reads zero and ignores writes (R40, R148, R222, R309, R310, R338, R343, R408, R513)? -/
def Loc.dead (s : State) : Loc → Bool
  | .seq o => decide (0x100 ≤ o) && !(s.part ((o - 0x100) / 0x100)).defd
  | .kv o => !(s.part (o / 0x40)).defd
  | .hbm o => !(s.part (o / 0x20)).defd
  | .sched o => !(s.part (o / 0x10)).defd
  | .page src n _ => (pageCtx s src n).isNone
  | .slab n o =>
    if (s.slab n).st = .retired then o != 0
    else (coreRegion o && !coreLive s n && o != 0x8004) || (within 0x6000 0x60FF o && (Config.slabStack n).isNone)
      || (within 0x7100 0x71FF o && (Config.slabPort n).isNone)
  | _ => false

/-- Is the location one that reads, but ignores writes: `SLAB_INFO` of a RETIRED slab and `VC_STATUS` of a slab without its
core region (R40, R501, R513)? -/
def Loc.readOnlyNow (s : State) : Loc → Bool
  | .slab n o => (o == 0 && (s.slab n).st == .retired) || (o == 0x8004 && !coreLive s n)
  | _ => false

/-- Does a vacant page answer at every offset (R343)? -/
def Loc.vacant (s : State) : Loc → Bool
  | .page src n o => (Loc.page src n o).dead s
  | _ => false

/-! ## Reads -/

/-- A word of a 64-bit counter: the low half at `o`, the high half at `o + 4`. -/
def cnt (v : DWord) (base o : Nat) : Nat := (half v (o != base)).toNat

/-- The word at byte offset `o` of a byte string. -/
def wordAt (l : List Byte) (o : Nat) : Nat := num l o 4

def readPkg (s : State) (o : Nat) : Nat :=
  match o with
  | 0x00 => sh 0x64 24 + sh Config.pkgCode.toNat 8
  | 0x04 =>
    0x0A0A0000 + sh ((List.range 100).filter (inService s)).length 8 + (idleSpares s).length
  | 0x50 => s.pkg.powerLimit.toNat
  | 0x54 => sh (b2n (s.pkg.step != 0)) 31 + sh s.pkg.step 24 + s.pkg.pAvg.toNat
  | 0x58 => s.pkg.events.toNat
  | _ =>
    let w := (o - 0x10) / 4
    ((List.range 8).map fun i => if 8 * w + i < 100 then sh (s.slab (8 * w + i)).st.code (4 * i) else 0).sum

def readRif (s : State) (o : Nat) : Nat :=
  match o with
  | 0x00 => 0x00010000
  | 0x04 => s.rif.indStride.toNat
  | 0x08 => s.rif.indAddr.toNat
  | 0x20 => s.rif.log0.toNat
  | 0x24 => s.rif.log1.toNat
  | 0x28 => s.rif.log2.toNat
  | 0x2C => s.rif.count.toNat
  | 0x30 => s.rif.data.toNat
  | _ => 0

def readPcie (s : State) (o : Nat) : Nat :=
  match o with
  | 0x0 => sh s.pcie.activeSlab 24 + sh (b2n s.pcie.standbyOk) 23 + sh s.pcie.speed 8 + s.pcie.width
  | 0x8 => s.pcie.failovers.toNat
  | 0xC => s.pcie.events.toNat
  | _ => 0

/-- `SEC_ANCHOR` (R450, R528). -/
def secAnchor (s : State) : Nat :=
  sh (b2n s.sec.secondaryOk) 9 + sh (b2n s.sec.primaryOk) 8 + (if noIdentity s then 0 else s.sec.anchor)

def readSec (s : State) (o : Nat) : Nat :=
  match o with
  | 0x00 => sh (b2n s.sec.busy) 31 + s.sec.cmd.toNat
  | 0x04 => sh (b2n s.sec.busy) 31 + s.sec.result
  | 0x08 => (half s.sec.addr false).toNat
  | 0x0C => (half s.sec.addr true).toNat
  | 0x10 => s.sec.len.toNat
  | 0x50 => secAnchor s
  | 0x54 => fwField s fun i => i.version.toNat
  | 0x58 => fwField s fun i => i.svn.toNat
  | 0x5C =>
    sh (b2n s.sec.fwRun) 31 + 8 * b2n (slotOk s.sec.fwA s.sec.fwFloor) + 4 * b2n (slotOk s.sec.fwB s.sec.fwFloor)
      + 2 * b2n (slotOk s.arm.slotA s.sec.armFloor) + b2n (slotOk s.arm.slotB s.sec.armFloor)
  | 0x60 => s.sec.hsFail.toNat
  | 0x64 => s.sec.events.toNat
  | _ => bits s.sec.nonce.toNat (8 * (o - 0x20)) 32

/-- The bytes of the log record with an `RSEQ`, the first being 1; none where the log does not hold it (R472, R476). -/
def logBytes (s : State) (k : Nat) : List Byte :=
  if 1 ≤ k ∧ k ≤ s.arm.logCount then
    match s.arm.log[s.arm.logCount - k]? with
    | some r =>
      toBytes 4 k ++ toBytes 1 r.kind ++ toBytes 1 r.slab ++ toBytes 1 r.arg0 ++ toBytes 1 r.arg1 ++ toBytes 4 r.arg2
        ++ toBytes 4 0 ++ toBytes 8 r.lcycle.toNat ++ toBytes 8 (Config.logTag k).toNat
    | none => []
  else []

/-- Epoch of an Armature, 0 without one. -/
def epochOf (a : Option Image) : Nat :=
  match a with
  | some i => i.epoch.toNat
  | none => 0

def readArm (s : State) (o : Nat) : Nat :=
  match o with
  | 0x00 => epochOf (armCur s)
  | 0x04 => epochOf (armPrev s)
  | 0x08 => sh (b2n s.arm.curB) 31 + sh (b2n (armPrev s).isSome) 30 + s.arm.reverted.toNat
  | 0x0C => sh (b2n s.arm.busy) 31 + s.arm2.reg.toNat
  | 0x10 => sh (b2n s.arm.busy) 31 + s.arm.result
  | 0x14 => s.arm.refuseOff.toNat
  | 0x18 => s.arm.replaceReq.toNat
  | 0x1C => s.arm.events.toNat
  | 0x20 => s.arm.logIdx.toNat
  | 0x24 => s.arm.logCount
  | 0x28 => s.arm.epochReject.toNat
  | 0x2C => s.arm2.discordPart
  | _ =>
    if o < 0x40 then bits s.arm2.discord.toNat (8 * (o - 0x30)) 32
    else if o < 0x60 then wordAt (logBytes s s.arm.logIdx.toNat) (o - 0x40)
    else
      let p := (o - 0x100) / 16
      match o % 16 with
      | 0 => (s.part p).epoch.toNat
      | 4 => (s.part2 p).concCount.toNat
      | _ => (s.part2 p).concDiscords.toNat

def readMtr (s : State) (o : Nat) : Nat :=
  let m := s.mtr
  match o with
  | 0x00 => sh (b2n m.present) 31 + sh (b2n m.sealOk) 30 + sh (b2n m.pend) 29 + sh (b2n m.changed) 28
  | 0x08 => m.snapSeq.toNat
  | 0x0C => m.events.toNat
  | 0x10 => m.appBase
  | _ =>
    if o < 0x1C0 then (half ((aget m.app ((o - 0x100) / 8)).getD 0) (o % 8 != 0)).toNat
    else if o < 0x1000 then cnt m.appU 0x1C0 o
    else
      match m.snap with
      | none => 0
      | some x => if o < 0x2000 then wordAt (readingBytes x) (o - 0x1000)
        else wordAt (fixLen 5504 (Config.meterCert x.r.serial)) (o - 0x2000)

def readSeq (s : State) (o : Nat) : Nat :=
  if o < 0x100 then (if o = 0 then winUsed s else s.winPeak)
  else
    let p := (o - 0x100) / 0x100
    let x := s.part2 p
    match o % 0x100 with
    | 0x00 => partInflight s p
    | 0x04 => cnt x.issued 4 4
    | 0x08 => cnt x.issued 4 8
    | 0x0C => cnt x.refused 4 4
    | 0x10 => cnt x.refused 4 8
    | 0x14 => cnt x.hazard 4 4
    | 0x18 => cnt x.hazard 4 8
    | _ => x.pseqEvents.toNat

def readKv (s : State) (o : Nat) : Nat :=
  let p := o / 0x40
  let x := s.part2 p
  match o % 0x40 with
  | 0x00 => (s.part p).leaves
  | 0x04 => kvFree s p
  | 0x08 => (s.part p).kvReserve.toNat
  | 0x0C => (s.part p).kvFreeMin.toNat
  | 0x14 => x.kvEvents.toNat
  | 0x18 => cnt x.kvAlloc 0 0
  | 0x1C => cnt x.kvAlloc 0 4
  | 0x20 => cnt x.kvCow 0 0
  | 0x24 => cnt x.kvCow 0 4
  | _ => ((ctxsOf s p).filter fun c => (s.ctx c).reg.st == .blockedKv).length

def readHbm (s : State) (o : Nat) : Nat :=
  let p := o / 0x20
  let x := s.part p
  match o % 0x20 with
  | 0x00 => x.hbmBase
  | 0x04 => x.hbmUnits
  | 0x08 => poolFree s p
  | 0x0C => x.payloadBase / 2 ^ 12
  | 0x10 => x.footerBase / 2 ^ 11
  | _ => sh (b2n (s.part2 p).unbacked) 31 + (s.part2 p).subst.length

def readSched (s : State) (o : Nat) : Nat :=
  let p := o / 0x10
  match o % 0x10 with
  | 0x0 => (s.part p).schedCtrl.toNat
  | 0x4 => sh (runnables s p).length 16 + (residents s p).length
  | 0x8 => (s.part2 p).schedEvents.toNat
  | _ => (s.part2 p).schedEvictions.toNat

/-- `CQ_IRQ` and `EVQ_IRQ`. -/
def RingIrq.reg (x : RingIrq) : Nat := sh (b2n x.en) 31 + sh x.count.toNat 16 + x.time.toNat

def readFn (s : State) (f o : Nat) : Nat :=
  let x := s.fn f
  match o with
  | 0x00 => sh (b2n x.en) 31
  | 0x04 => x.log2.toNat
  | 0x08 => cnt x.base 8 8
  | 0x0C => cnt x.base 8 0xC
  | 0x14 => sh (b2n x.phase) 31 + x.tail
  | 0x18 => x.irq.reg
  | 0x1C => x.dropped.toNat
  | 0x20 => x.irq.events.toNat
  | 0x24 => sh f 24 + (if f = 0 then 0 else (ctxsOfFn s f).length)
  | _ =>
    if f = 0 ∨ o < 0x100 then 0
    else match slotCtx s f ((o - 0x100) / 4) with
      | some c => sh 1 31 + c
      | none => 0

def readProf (s : State) (o : Nat) : Nat :=
  let x := (s.ctx (o / 0x40)).prof
  let r := o % 0x40
  let v := match r / 8 with
    | 0 => x.array
    | 1 => x.vec
    | 2 => x.hbmRd
    | 3 => x.hbmWr
    | 4 => x.cmds
    | _ => x.opacc
  if (s.ctx (o / 0x40)).reg.st = .free then 0 else (half v (r % 8 != 0)).toNat

def readMsix (s : State) (f o : Nat) : Nat :=
  let e := (s.fn f).vec (o / 16)
  match o % 16 with
  | 0 => (half e.addr false).toNat
  | 4 => (half e.addr true).toNat
  | 8 => e.data.toNat
  | _ => b2n e.masked

def readPba (s : State) (f o : Nat) : Nat :=
  ((List.range 32).map fun i => sh (b2n ((s.fn f).pba.contains (8 * o + i))) i).sum

def CtxSt.code : CtxSt → Nat
  | .free => 0
  | .loaded => 1
  | .resident => 2
  | .running => 3
  | .blocked => 4
  | .blockedKv => 5
  | .swapped => 6
  | .halted => 7
  | .lost => 8

/-- `HALT_SEQ` (R372). -/
def haltSeq (x : Ctx) : Nat :=
  match x.ring.haltFirst with
  | some h => h.1
  | none => 0

/-- The arithmetic counters of a page (R94). -/
def readAq (x : Aq) (o : Nat) : Nat :=
  let v := match o / 8 with
    | 0 => x.trunc
    | 1 => x.vanish
    | 2 => x.zero
    | 3 => x.poison
    | 4 => x.sat
    | 5 => x.nan
    | _ => x.iround
  (half v (o % 8 != 0)).toNat

/-- The context state registers (R406). -/
def readCtxState (x : Ctx) (c o : Nat) : Nat :=
  let r := x.reg
  match o with
  | 0x800 =>
    sh r.st.code 28 + sh (b2n r.res) 27 + sh (b2n r.geobound) 26 + sh (b2n r.unplaced) 25 + sh (b2n r.lc) 21
      + sh r.part 16 + c
  | 0x808 => sh r.func 24 + sh r.slot 16 + r.slice
  | 0x80C => r.quota.toNat
  | 0x810 => x.units.length
  | 0x814 => sh r.lossReason 24 + sh r.lossSlab 16
  | 0x818 => cnt r.blockedAt 0x818 0x818
  | 0x81C => cnt r.blockedAt 0x818 0x81C
  | 0x820 => r.swapins.toNat
  | 0x824 => r.evictions.toNat
  | 0x828 => r.events.toNat
  | _ => 0

def readPage (s : State) (c o : Nat) : Nat :=
  let x := s.ctx c
  let r := x.ring
  match o with
  | 0x00 => sh (b2n (r.st == .enabled)) 31
  | 0x04 => sh x.ringState 29 + sh r.halts.length 16 + x.cmds.length
  | 0x08 => haltSeq x
  | 0x10 => cnt r.sqBase 0x10 0x10
  | 0x14 => cnt r.sqBase 0x10 0x14
  | 0x18 => r.sqLog2.toNat
  | 0x1C => r.sqHead
  | 0x20 => cnt r.cqBase 0x20 0x20
  | 0x24 => cnt r.cqBase 0x20 0x24
  | 0x28 => r.cqLog2.toNat
  | 0x2C => sh (b2n r.cqPhase) 31 + r.cqTail
  | 0x30 => x.irq.reg
  | 0x34 => r.seqNext.toNat
  | 0x38 => (ctxEpoch s c).toNat
  | 0x3C => x.irq.events.toNat
  | _ => if o < 0x800 then (if 0x100 ≤ o then readAq x.aq (o - 0x100) else 0) else readCtxState x c o

/-! ### A slab's indirect space -/

/-- `SLAB_INFO` (R40). -/
def slabInfo (s : State) (n : Nat) : Nat :=
  sh ((Config.slabPort n).getD 0xFF) 24 + sh ((Config.slabStack n).getD 0xFF) 16 + sh (s.slab n).serves 8
    + sh (b2n (Config.slabPort n).isSome) 6 + sh (b2n (Config.slabPcie n)) 5 + sh (b2n (bridged n)) 4
    + (s.slab n).st.code

/-- The tile whose registers lie in block t of a slab. -/
def blockTile (s : State) (n t : Nat) : Nat := 64 * posOf s n + t

def RampDir.code : RampDir → Nat
  | .steady => 0
  | .up => 1
  | .down => 2

def readTileArr (x : Tile) (o : Nat) : Nat :=
  match o with
  | 0x00 => sh x.form 28 + sh x.frac 12 + sh x.dir.code 10 + 2 * b2n (x.shadowRows == 128) + b2n x.busy
  | 0x04 => x.swaps.toNat
  | 0x08 => cnt x.work 8 8
  | 0x0C => cnt x.work 8 0xC
  | 0x10 => cnt x.dummy 0x10 0x10
  | 0x14 => cnt x.dummy 0x10 0x14
  | 0x18 => cnt x.rampHold 0x18 0x18
  | 0x1C => cnt x.rampHold 0x18 0x1C
  | 0x20 => cnt x.loadStall 0x20 0x20
  | 0x24 => cnt x.loadStall 0x20 0x24
  | 0x28 => cnt x.throttle 0x28 0x28
  | _ => cnt x.throttle 0x28 0x2C

/-- Is a command in flight still bound to the bank of slot k that is not active on the slab (R180)? -/
def oldBound (s : State) (n k : Nat) : Bool :=
  match slabPart s n with
  | some p => (openCmds s p).any fun e => e.2.issued && bit e.2.bound.slots.toNat k != bit (s.slab n).vec.active.toNat k
  | none => false

/-- `VEC_SLOTS` (R180). -/
def vecSlots (s : State) (n : Nat) : Nat :=
  let v := (s.slab n).vec
  ((List.range 8).map fun k =>
    let on1 := bit v.active.toNat k
    let b := (s.tile2 (blockTile s n 0)).slots.bank on1 k
    sh (8 * b2n b.loaded + 4 * b2n on1 + 2 * b2n (oldBound s n k)) (4 * k)).sum

def readVec (s : State) (n o : Nat) : Nat :=
  let v := (s.slab n).vec
  let x := s.slab2 n
  match o with
  | 0x2000 => vecSlots s n
  | 0x2004 => v.vtblSel.toNat
  | 0x2008 => v.vtblVal.toNat
  | 0x200C => v.vtblSlope.toNat
  | 0x2010 => v.events.toNat
  | 0x3000 => cnt x.labHit 0 0
  | 0x3004 => cnt x.labHit 0 4
  | 0x3008 => cnt x.labMiss 0 0
  | 0x300C => cnt x.labMiss 0 4
  | 0x3010 => cnt x.labInval 0 0
  | 0x3014 => cnt x.labInval 0 4
  | 0x3018 => 0
  | _ =>
    let y := s.tile2 (blockTile s n ((o - 0x2400) / 16))
    match o % 16 with
    | 0x0 => cnt y.vecBusy 0 0
    | 0x4 => cnt y.vecBusy 0 4
    | 0x8 => cnt y.vecEpiwait 0 0
    | _ => cnt y.vecEpiwait 0 4

/-- `BANK_OWN_k` (R285). -/
def bankOwnReg (b : Bank) : Nat :=
  sh (b2n b.holder.isSome) 31 + sh b.peer 16 + sh (b.holder.getD 0) 4 + b.owner

def readBank (s : State) (n o : Nat) : Nat :=
  let x := s.slab2 n
  match o with
  | 0x5000 => x.patinaCtrl.toNat
  | 0x5004 => x.patinaPos
  | 0x5008 => x.patinaSweeps.toNat
  | 0x500C => x.bankEvents.toNat
  | 0x5010 => x.bankErr0.toNat
  | 0x5014 => x.bankErr1.toNat
  | _ =>
    let g := blockTile s n ((o - 0x4000) / 0x40)
    let b (k : Nat) : Bank := s.bank (bankIx g k)
    let r := o % 0x40
    if r ≤ 0xC then bankOwnReg (b (r / 4))
    else match r with
      | 0x10 => ((List.range 4).map fun k => sh (b k).spareLines (8 * k)).sum
      | 0x14 => ((List.range 4).map fun k =>
          sh (8 * b2n (b k).clearing + 4 * b2n (b k).testing.isSome + 2 * b2n (b k).redirectHeld) (4 * k)).sum
      | 0x18 => cnt (s.tile2 g).eccCorr 0x18 0x18
      | 0x1C => cnt (s.tile2 g).eccCorr 0x18 0x1C
      | _ => (s.tile2 g).ownerRefused.toNat

def readHbmCtl (x : HbmCtl) (o : Nat) : Nat :=
  match o with
  | 0x6000 => sh (b2n x.trained) 31 + sh (b2n x.clearing) 30 + sh (b2n (decide (85 < x.temp))) 29 + x.temp
  | 0x6004 => x.scrub.toNat
  | 0x6008 => cnt x.rd 0 0
  | 0x600C => cnt x.rd 0 4
  | 0x6010 => cnt x.wr 0 0
  | 0x6014 => cnt x.wr 0 4
  | 0x6018 => cnt x.corr 0 0
  | 0x601C => cnt x.corr 0 4
  | 0x6020 => x.ue.toNat
  | 0x6024 => x.macfail.toNat
  | 0x6028 => cnt x.mhit 0 0
  | 0x602C => cnt x.mhit 0 4
  | 0x6030 => cnt x.mmiss 0 0
  | 0x6034 => cnt x.mmiss 0 4
  | 0x6038 => x.events.toNat
  | 0x603C => x.err0.toNat
  | _ => x.err1.toNat

/-- What lies across an edge, N 0, E 1, S 2, W 3 (R337): a neighbour, a retired one, an outer device, or nothing. -/
def edgeCode (s : State) (n e : Nat) : Nat :=
  match acrossEdge n e with
  | some (m, _) => if (s.slab m).st = .retired then 1 else 0
  | none => if deviceOn n e then 2 else 3

def readFab (s : State) (n o : Nat) : Nat :=
  let x := (s.slab2 n).fab
  match o with
  | 0x7000 => x.ctrl.toNat
  | 0x7004 => sh s.pkg.retiredSlab 16 + ((List.range 4).map fun e => sh (edgeCode s n e) (2 * e)).sum
  | 0x7008 => cnt x.corr 8 8
  | 0x700C => cnt x.corr 8 0xC
  | 0x7010 => x.replay.toNat
  | 0x7014 => x.resend.toNat
  | 0x7018 => x.misroute.toNat
  | 0x701C => x.events.toNat
  | _ =>
    let v := match (o - 0x7020) / 8 with
      | 0 => x.edgeN
      | 1 => x.edgeE
      | 2 => x.edgeS
      | _ => x.edgeW
    (half v (o % 8 != 0)).toNat

def PortSt.code : PortSt → Nat
  | .disabled => 0
  | .training => 1
  | .active => 2
  | .retrain => 3
  | .failed => 4

def readLink (s : State) (p o : Nat) : Nat :=
  let x := s.port p
  match o with
  | 0x7100 => x.ctrl.toNat
  | 0x7104 => sh x.st.code 29 + sh x.laneOk 24 + sh x.peerPort 21 + sh (openJobs s p) 8
  | 0x7108 => cnt x.fecSym 0 0
  | 0x710C => cnt x.fecSym 0 4
  | 0x7110 => x.fecUe.toNat
  | 0x7114 => x.replays.toNat
  | 0x7118 => x.retrains.toNat
  | 0x711C => x.authfail.toNat
  | 0x7120 => x.events.toNat
  | 0x7124 => cnt x.tx 0 0
  | 0x7128 => cnt x.tx 0 4
  | 0x712C => cnt x.rx 0 0
  | _ => cnt x.rx 0 4

def VcSt.code : VcSt → Nat
  | .idle => 0
  | .busy => 1
  | .resetting => 2

def readVc (s : State) (n o : Nat) : Nat :=
  let x := (s.slab2 n).vc
  match o with
  | 0x8000 => x.ctrl.toNat
  | 0x8004 =>
    if coreLive s n then
      sh x.st.code 30 + sh (streamsAt s (posOf s n)) 16 + (if x.st = .busy then x.ctx else 0)
    else 0xC0000000
  | 0x8008 => x.pieces.toNat
  | 0x800C => x.reissues.toNat
  | 0x8010 => x.fallbacks.toNat
  | 0x8014 => x.resets.toNat
  | 0x8018 => x.events.toNat
  | 0x8020 => cnt x.busy 0 0
  | 0x8024 => cnt x.busy 0 4
  | _ => 0

def readSlab (s : State) (n o : Nat) : Nat :=
  let x := s.slab n
  if o < 0x800 then
    match o with
    | 0x00 => slabInfo s n
    | 0x08 => cnt x.cycle 8 8
    | 0x0C => cnt x.cycle 8 0xC
    | _ => if o < 0x50 then bits x.tileMap.toNat (8 * (o - 0x10)) 32 else bits x.siteState.toNat (8 * (o - 0x50)) 32
  else if o < 0x1000 then (if o = 0x800 then x.arrayCtrl.toNat else x.arrayEvents.toNat)
  else if o < 0x2000 then readTileArr (s.tile (blockTile s n ((o - 0x1000) / 0x40))) (o % 0x40)
  else if o < 0x4000 then readVec s n o
  else if o < 0x6000 then readBank s n o
  else if o < 0x7000 then readHbmCtl (s.slab2 n).hbm o
  else if o < 0x7100 then readFab s n o
  else if o < 0x8000 then (match Config.slabPort n with
    | some p => readLink s p o
    | none => 0)
  else readVc s n o

/-- Core regions that are powered, as `PWR_SLAB_ON` shows them. -/
def slabOnWord (s : State) (w : Nat) : Nat :=
  ((List.range 32).map fun i => if 32 * w + i < 100 then sh (b2n (s.slab (32 * w + i)).coreOn) i else 0).sum

def readPkc (s : State) (o : Nat) : Nat :=
  let k := s.pkc
  let q := s.pkc2
  match o with
  | 0x00 => 0x00010000
  | 0x04 => sh (b2n k.recovery) 31 + sh (b2n k.ready) 30 + k.step
  | 0x0C => sh (b2n k.rstBusy) 31 + sh k.rstResult 8 + k.rstPart
  | 0x10 => k.rstCause
  | 0x14 => k.rstCount.toNat
  | 0x40 => sh k.v12 16 + k.v48
  | 0x44 =>
    sh (b2n q.pwrOk) 31 + sh (b2n q.sysResetN) 30 + sh (b2n q.perstN) 29 + sh (b2n q.refclkOk) 28 + sh (b2n q.lrefOk) 27
      + sh (b2n q.oscAOk) 26 + sh (b2n q.oscBOk) 25
  | 0x48 =>
    sh (b2n q.tripped) 31 + sh (b2n (thermWarn s)) 30 + sh (hbmTmax s) 16 + sh (hottest s) 8 + (s.slab (hottest s)).temp
  | 0x4C => alertStatus s
  | 0x50 => k.alertMask.toNat
  | 0x54 => k.wakeMask.toNat
  | 0x58 => k.events.toNat
  | _ =>
    if 0x20 ≤ o ∧ o < 0x30 then bits k.slabOff.toNat (8 * (o - 0x20)) 32
    else if 0x30 ≤ o ∧ o < 0x40 then slabOnWord s ((o - 0x30) / 4) else 0

/-- What a read of a register returns: zero where it reads zero, and for write-only registers (R14). -/
def Loc.read (s : State) (l : Loc) : Word :=
  if l.dead s || l.acc == some .wo then 0
  else w32 (match l with
    | .pkg o => readPkg s o
    | .rif o => readRif s o
    | .pcie o => readPcie s o
    | .sec o => readSec s o
    | .arm o => readArm s o
    | .mtr o => readMtr s o
    | .seq o => readSeq s o
    | .kv o => readKv s o
    | .hbm o => readHbm s o
    | .sched o => readSched s o
    | .fn f o => readFn s f o
    | .prof o => readProf s o
    | .msix f o => readMsix s f o
    | .pba f o => readPba s f o
    | .page src n o =>
      match pageCtx s src n with
      | some c => readPage s c o
      | none => 0
    | .slab n o => readSlab s n o
    | .pkc o => readPkc s o)

end Sys2Proof.Machine
end

