-- ==== Sys2Proof/Machine/RegWrite.lean ====
section
/-! DEFINITION. What a write of a register does (R344, R360, R372 to R375, R397, R450, R476, R492, R515, R542 and the chapters
of the blocks), and the paths that reach registers: BAR0, the doorbells, the indirect pair, the alias views, the test port
and the management port (R449, R497 to R514, R539). -/

namespace Sys2Proof.Machine

open Sys2Proof

/-! ## Writes -/

/-- The state after a meaning that another row shares, or the same state. -/
def thenOf (o : Host.Outcome State Fault Refusal) (s : State) : State :=
  match o with
  | .next t => t
  | _ => s

/-- Put one half into a 64-bit register. -/
def setHalf (v : DWord) (hi : Bool) (w : Word) : DWord :=
  if hi then w ++ v.setWidth 32 else (v >>> 32).setWidth 32 ++ w

def writePkg (src : Src) (o : Nat) (v : Word) (s : State) : State :=
  if o = 0x50 then thenOf (execPowerLimitWrite src v s) s
  else { s with pkg := { s.pkg with events := s.pkg.events &&& ~~~v } }

def writeRif (o : Nat) (v : Word) (s : State) : State :=
  if o = 4 then { s with rif := { s.rif with indStride := v &&& 0xFF } }
  else { s with rif := { s.rif with indAddr := v &&& 0xFF00FFFC } }

def writePcie (o : Nat) (v : Word) (s : State) : State :=
  if o = 4 then (if bit v.toNat 0 then startFailover 2 s else s)
  else { s with pcie := { s.pcie with events := s.pcie.events &&& ~~~v } }

/-- A write of `SEC_CMD` (R450, R451): dropped with `GO` while busy; a reserved `OP` ends with result 1. -/
def writeSecCmd (v : Word) (s : State) : State :=
  if bit v.toNat 31 then
    if s.sec.busy then secEvent 2 s
    else
      let s := { s with sec := { s.sec with cmd := v &&& 0x03FF800F, run := v } }
      let op := bits v.toNat 0 4
      if 1 ≤ op ∧ op ≤ 5 then { s with sec := { s.sec with busy := true } } else secDone 1 s
  else { s with sec := { s.sec with cmd := v &&& 0x03FF800F } }

def writeSec (o : Nat) (v : Word) (s : State) : State :=
  match o with
  | 0x00 => writeSecCmd v s
  | 0x08 => { s with sec := { s.sec with addr := setHalf s.sec.addr false v } }
  | 0x0C => { s with sec := { s.sec with addr := setHalf s.sec.addr true v } }
  | 0x10 => { s with sec := { s.sec with len := v } }
  | 0x64 => { s with sec := { s.sec with events := s.sec.events &&& ~~~v } }
  | _ =>
    let k := 8 * (o - 0x20)
    let mask : BitVec 384 := BitVec.ofNat 384 (sh 0xFFFFFFFF k)
    { s with sec := { s.sec with nonce := (s.sec.nonce &&& ~~~mask) ||| BitVec.ofNat 384 (sh v.toNat k) } }

/-- A write of `ARM_CMD` (R476, R477): dropped with `GO` while busy; a reserved `OP` ends with result 1. -/
def writeArmCmd (v : Word) (s : State) : State :=
  if bit v.toNat 31 && s.arm.busy then s
  else
    let s := { s with arm2 := { s.arm2 with reg := v &&& 0x0FFFFFFF } }
    if bit v.toNat 31 then
      let op := bits v.toNat 24 4
      let s := { s with
        arm := { s.arm with cmdOp := op, cmdMask := v.setWidth 24, busy := true },
        arm2 := { s.arm2 with started := false, todo := [] } }
      if 1 ≤ op ∧ op ≤ 4 then s else armRefuse 1 s
    else s

def writeArm (o : Nat) (v : Word) (s : State) : State :=
  match o with
  | 0x0C => writeArmCmd v s
  | 0x1C => { s with arm := { s.arm with events := s.arm.events &&& ~~~v } }
  | _ => { s with arm := { s.arm with logIdx := v } }

/-- A write of `APP_CTRL`: above 100 percent the value kept is open. -/
def writeAppCtrl (v : Word) (s : State) : State :=
  let b := bits v.toNat 0 8
  if b ≤ 100 then { s with mtr := { s.mtr with appBase := b } }
  else
    let r := s.takeFree 8
    { r.2 with mtr := { r.2.mtr with appBase := r.1.toNat % 101 } }

def writeMtr (src : Src) (o : Nat) (v : Word) (s : State) : State :=
  match o with
  | 0x04 => if bit v.toNat 0 then thenOf (execMtrSnapReq src s) s else s
  | 0x0C => { s with mtr := { s.mtr with events := s.mtr.events &&& ~~~v } }
  | _ => writeAppCtrl v s

def writeSeq (src : Src) (o : Nat) (v : Word) (s : State) : State :=
  if o < 0x100 then (if bit v.toNat 0 then thenOf (execWinClearPeak src s) s else s)
  else s.modPart2 ((o - 0x100) / 0x100) fun x => { x with pseqEvents := x.pseqEvents &&& ~~~v }

def writeKv (src : Src) (o : Nat) (v : Word) (s : State) : State :=
  let p := o / 0x40
  match o % 0x40 with
  | 0x08 => thenOf (execKvReserveWrite src p v s) s
  | 0x10 => if bit v.toNat 0 then thenOf (execKvClearMin src p s) s else s
  | _ => s.modPart2 p fun x => { x with kvEvents := x.kvEvents &&& ~~~v }

def writeSched (o : Nat) (v : Word) (s : State) : State :=
  let p := o / 0x10
  if o % 0x10 = 0 then s.modPart p fun x => { x with schedCtrl := schedCtrlVal v.toNat }
  else s.modPart2 p fun x => { x with schedEvents := x.schedEvents &&& ~~~v }

/-- `CQ_IRQ` and `EVQ_IRQ`: a `COUNT` of 0 sets 1 (R375). -/
def RingIrq.set (v : Word) (x : RingIrq) : RingIrq :=
  { x with
    en := bit v.toNat 31, count := BitVec.ofNat 8 (max 1 (bits v.toNat 16 8)), time := v.setWidth 16 }

/-- Size and base of an event ring, which it takes only while disabled (R375). -/
def writeEvqCfg (f : Nat) (g : Fn → Fn) (s : State) : State := if (s.fn f).en then fnEvent f 4 s else s.modFn f g

def writeFn (src : Src) (f o : Nat) (v : Word) (s : State) : State :=
  match o with
  | 0x00 => if bit v.toNat 31 then thenOf (execEvqEnable src f s) s else s.modFn f fun x => { x with en := false }
  | 0x04 => writeEvqCfg f (fun x => { x with log2 := v.setWidth 5 }) s
  | 0x08 => writeEvqCfg f (fun x => { x with base := setHalf x.base false v }) s
  | 0x0C => writeEvqCfg f (fun x => { x with base := setHalf x.base true v }) s
  | 0x10 => thenOf (execEvqHead src f v s) s
  | 0x18 => evqSignal f (s.modFn f fun x => { x with irq := x.irq.set v })
  | _ => s.modFn f fun x => { x with irq := { x.irq with events := x.irq.events &&& ~~~v } }

def writeMsix (f o : Nat) (v : Word) (s : State) : State :=
  let e := (s.fn f).vec (o / 16)
  let e' := match o % 16 with
    | 0 => { e with addr := setHalf e.addr false v }
    | 4 => { e with addr := setHalf e.addr true v }
    | 8 => { e with data := v }
    | _ => { e with masked := bit v.toNat 0 }
  msixWrite f (o / 16) e' s

/-- Bases and sizes of a context's rings, which they take only while DISABLED (R344); none of a LOST context. -/
def writeRingCfg (c : Nat) (g : Ring → Ring) (s : State) : State :=
  if (s.ctx c).reg.st = .lost then s
  else if (s.ctx c).ring.st = .disabled then s.modCtx c fun x => { x with ring := g x.ring }
  else ringEvent c 8 s

/-- `RING_ACK`: reserved actions are ignored with `ACK_IGNORED` (R360). -/
def writeAck (src : Src) (n c : Nat) (v : Word) (s : State) : State :=
  match bits v.toNat 0 2 with
  | 1 => thenOf (execRingAckContinue src n s) s
  | 2 => thenOf (execRingAckFlush src n s) s
  | _ => ringEvent c 2 s

/-- `CTX_CONTROL` (R397, R408). -/
def writeCtxControl (src : Src) (n c : Nat) (v : Word) (s : State) : State :=
  match bits v.toNat 0 2 with
  | 1 => thenOf (execCtxControlSuspend src n s) s
  | 2 => thenOf (execCtxControlResume src n s) s
  | 3 => ctxEvent c 8 s
  | _ => s

/-- The page of context c, as `src` names it by page n. -/
def writePage (src : Src) (n c o : Nat) (v : Word) (s : State) : State :=
  match o with
  | 0x00 => if bit v.toNat 31 then thenOf (execRingEnable src n s) s else thenOf (execRingDisable src n s) s
  | 0x0C => writeAck src n c v s
  | 0x10 => writeRingCfg c (fun r => { r with sqBase := setHalf r.sqBase false v }) s
  | 0x14 => writeRingCfg c (fun r => { r with sqBase := setHalf r.sqBase true v }) s
  | 0x18 => writeRingCfg c (fun r => { r with sqLog2 := v.setWidth 5 }) s
  | 0x20 => writeRingCfg c (fun r => { r with cqBase := setHalf r.cqBase false v }) s
  | 0x24 => writeRingCfg c (fun r => { r with cqBase := setHalf r.cqBase true v }) s
  | 0x28 => writeRingCfg c (fun r => { r with cqLog2 := v.setWidth 5 }) s
  | 0x30 => if (s.ctx c).reg.st = .lost then s else cqDue c false (s.modCtx c fun x => { x with irq := x.irq.set v })
  | 0x3C => s.modCtx c fun x => { x with irq := { x.irq with events := x.irq.events &&& ~~~v } }
  | 0x138 => if bit v.toNat 0 then thenOf (execAqClear src n s) s else s
  | 0x804 => writeCtxControl src n c v s
  | _ => s.modCtx c fun x => { x with reg := { x.reg with events := x.reg.events &&& ~~~v } }

/-- `LINK_CTRL` (R338, R339): the timeout, then `EN`, then RETRAIN. -/
def writeLinkCtrl (p : Nat) (v : Word) (s : State) : State :=
  let t := w32 (max 1 (bits v.toNat 0 8))
  let s := s.modPort p fun x => { x with ctrl := (x.ctrl &&& 0x80000000) ||| t }
  let s := portEnable p (bit v.toNat 31) s
  if bit v.toNat 30 then startRetrain p s else s

/-- A block's event bits, cleared where 1 is written. -/
def clearSlabEvents (n o : Nat) (v : Word) (s : State) : State :=
  match o with
  | 0x0804 => s.modSlab n fun x => { x with arrayEvents := x.arrayEvents &&& ~~~v }
  | 0x2010 => s.modSlab n fun x => { x with vec := { x.vec with events := x.vec.events &&& ~~~v } }
  | 0x500C => s.modSlab2 n fun x => { x with bankEvents := x.bankEvents &&& ~~~v }
  | 0x6038 => s.modSlab2 n fun x => { x with hbm := { x.hbm with events := x.hbm.events &&& ~~~v } }
  | 0x701C => s.modSlab2 n fun x => { x with fab := { x.fab with events := x.fab.events &&& ~~~v } }
  | 0x7120 =>
    match Config.slabPort n with
    | some p => s.modPort p fun x => { x with events := x.events &&& ~~~v }
    | none => s
  | _ => s.modSlab2 n fun x => { x with vc := { x.vc with events := x.vc.events &&& ~~~v } }

def writeSlab (src : Src) (n o : Nat) (v : Word) (s : State) : State :=
  if accSlab o = some .w1c then clearSlabEvents n o v s
  else if within 0x4000 0x4FFC o then
    thenOf (execBankOwnWrite src (64 * n + (o - 0x4000) / 0x40) (o % 0x40 / 4) v s) s
  else
    match o with
    | 0x0800 => thenOf (execArrayCtrlWrite src n v s) s
    | 0x2004 => s.modSlab n fun x => { x with vec := { x.vec with vtblSel := v &&& 0x7FF } }
    | 0x2008 => s.modSlab n fun x => { x with vec := { x.vec with vtblVal := v } }
    | 0x200C => thenOf (execVtblSlopeWrite src n v s) s
    | 0x3018 => if bit v.toNat 0 then thenOf (execLabFlush src n s) s else s
    | 0x5000 => thenOf (execPatinaCtrlWrite src n v s) s
    | 0x6004 => thenOf (execHbmScrubWrite src n v s) s
    | 0x7000 =>
      s.modSlab2 n fun x => { x with fab := { x.fab with ctrl := w32 (max 1 (bits v.toNat 0 16)) } }
    | 0x7100 =>
      match Config.slabPort n with
      | some p => writeLinkCtrl p v s
      | none => s
    | 0x8000 => s.modSlab2 n fun x => { x with vc := { x.vc with ctrl := w32 (max 100 (bits v.toNat 0 16)) } }
    | 0x801C => if bit v.toNat 0 then thenOf (execVcReset src n s) s else s
    | _ => s

/-- `RST_CTRL` (R542, R543): both bits, or neither, start nothing. -/
def writeRstCtrl (src : Src) (v : Word) (s : State) : State :=
  match bits v.toNat 30 2 with
  | 1 => if bits v.toNat 0 5 < 24 then thenOf (execPreset src (bits v.toNat 0 5) s) s
    else { s with pkc := { s.pkc with rstResult := 1 } }
  | 2 => thenOf (execWarm src s) s
  | 3 => { s with pkc := { s.pkc with rstResult := 1 } }
  | _ => s

def writePkc (src : Src) (o : Nat) (v : Word) (s : State) : State :=
  match o with
  | 0x08 => writeRstCtrl src v s
  | 0x18 => if bit v.toNat 31 then thenOf (execStby src s) s else s
  | 0x50 => { s with pkc := { s.pkc with alertMask := v &&& 0xFF } }
  | 0x54 => { s with pkc := { s.pkc with wakeMask := v &&& 0xFF } }
  | 0x58 => { s with pkc := { s.pkc with events := s.pkc.events &&& ~~~v } }
  | _ => thenOf (execPwrSlabOffWrite src ((o - 0x20) / 4) v s) s

/-- A write that reaches a writable register which is not dead; the paths below see to that. -/
def Loc.write (src : Src) (l : Loc) (v : Word) (s : State) : State :=
  match l with
  | .pkg o => writePkg src o v s
  | .rif o => writeRif o v s
  | .pcie o => writePcie o v s
  | .sec o => writeSec o v s
  | .arm o => writeArm o v s
  | .mtr o => writeMtr src o v s
  | .seq o => writeSeq src o v s
  | .kv o => writeKv src o v s
  | .hbm _ => s
  | .sched o => writeSched o v s
  | .fn f o => writeFn src f o v s
  | .prof _ => s
  | .msix f o => writeMsix f o v s
  | .pba _ _ => s
  | .page src' n o =>
    match pageCtx s src' n with
    | some c => writePage src' n c o v s
    | none => s
  | .slab n o => writeSlab src n o v s
  | .pkc o => writePkc src o v s

/-! ## Judging an access (R501) -/

/-- Is a location one of the two `IND_DATA` offsets? -/
def Loc.isIndData : Loc → Bool
  | .rif o => o == 0x10 || o == 0x14
  | _ => false

/-- Does an access code take alias writes (R504)? -/
def Acc.aliased : Acc → Bool
  | .rw => true
  | .rwi => true
  | _ => false

/-- What a write to a location comes to: a bus error of a `KIND`, nothing, or the write. -/
inductive Judged where
  | error (kind : Nat)
  | ignored
  | ok (l : Loc)
deriving DecidableEq, Repr

/-- Judge a 32-bit write through a view. -/
def judgeWrite (s : State) (view : View) (l : Option Loc) : Judged :=
  match l with
  | none => .error 0
  | some l =>
    if l.vacant s then .ignored
    else
      match l.acc with
      | none => .error 0
      | some a =>
        if l.dead s || l.readOnlyNow s then .ignored
        else if view ≠ .plain ∧ (a.aliased = false ∨ l.isIndData) then .error 3
        else if a = .ro then .error 1
        else .ok l

/-- Judge a read: a bus error of a `KIND`, or the value. -/
def judgeRead (s : State) (view : View) (l : Option Loc) : Except Nat Word :=
  match l with
  | none => .error 0
  | some l =>
    if l.vacant s then .ok 0
    else if l.acc.isNone then .error 0
    else if view ≠ .plain ∧ l.isIndData then .error 3
    else .ok (l.read s)

/-- The value that a write through a view brings (R504). -/
def viewValue (view : View) (old v : Word) : Word :=
  match view with
  | .plain => v
  | .set => old ||| v
  | .clear => old &&& ~~~v
  | .toggle => old ^^^ v

/-! ## The indirect pair (R510 to R514) -/

/-- `OFF` after an access (R511). -/
def indAdvance (s : State) : State :=
  let a := s.rif.indAddr.toNat
  let o := (a % 2 ^ 16 + 4 * s.rif.indStride.toNat) % 2 ^ 16
  { s with rif := { s.rif with indAddr := w32 (a / 2 ^ 24 * 2 ^ 24 + o) } }

/-- The location that an indirect access reaches: none where `IND_ADDR` names no space. -/
def indTarget (s : State) : Option (Option Loc) := (indLoc s.rif.indAddr.toNat).map fun l => served s (some l)

/-- An indirect write. -/
def indWrite (src : Src) (v : Word) (s : State) : State :=
  let a := s.rif.indAddr.toNat
  match indTarget s with
  | none => busWriteError 4 4 0 0 a v.toNat s
  | some l =>
    match judgeWrite s .plain l with
    | .error k => busWriteError k 4 0 0 a v.toNat s
    | .ignored => indAdvance s
    | .ok l => indAdvance (l.write src v s)

/-- An indirect read. -/
def indRead (s : State) : State :=
  let a := s.rif.indAddr.toNat
  match indTarget s with
  | none => busReadError 4 4 0 0 a s
  | some l =>
    match judgeRead s .plain l with
    | .error k => busReadError k 4 0 0 a s
    | .ok w => (indAdvance s).answer (.data (toBytes 4 w.toNat))

/-- IND_DATA_ACCESS (R511): the pair serves the PF alone. -/
def execIndDataAccess (src : Src) (write : Option (BitVec 32)) (s : State) : Host.Outcome State Fault Refusal :=
  if src = .pf ∧ srcLive s .pf then
    match write with
    | some v => .next (indWrite src v s)
    | none => .next (indRead s)
  else .next s

/-! ## BAR writes (R500 to R508) -/

/-- One 32-bit write of BAR0 at a word's address. A restart of the device that the write causes leaves no trace of it but
its own. -/
def barWrite (src : Src) (code f a : Nat) (v : Word) (s : State) : State :=
  let (view, l) := barLoc s src a
  match judgeWrite s view l with
  | .error k => busWriteError k code f (viewCode view) a v.toNat s
  | .ignored => s
  | .ok l =>
    if l.isIndData then indWrite src v s
    else l.write src (viewValue view (l.read s) v) s

/-- Byte enables of word i of an access. -/
def enables (be : BitVec 8) (i : Nat) : Nat := bits be.toNat (4 * i) 4

/-- Words of a bus write that are touched: address, data, and whether all four bytes are enabled. -/
def busWords (addr : Nat) (w : BusWrite) : List (Nat × Word × Bool) :=
  ((List.range (cdiv w.len 4)).filter fun i => enables w.be i != 0).map fun i =>
    (addr + 4 * i, w32 (bits w.data.toNat (32 * i) 32), enables w.be i == 15)

/-- Does a write obey the length and alignment of R500? -/
def busAligned (addr : Nat) (w : BusWrite) : Bool := (w.len == 4 || w.len == 8) && addr % w.len == 0

/-- A write into BAR0: the lower address first, each word judged on its own. -/
def bar0Write (src : Src) (addr : Nat) (w : BusWrite) (s : State) : State :=
  let f := srcFunc src
  let code := if f = 0 then 0 else 1
  forAll (busWords addr w) (fun e t =>
    if busAligned addr w && e.2.2 then barWrite src code f e.1 e.2.1 t
    else busWriteError 2 code f (viewCode (barLoc t src e.1).1) e.1 e.2.1.toNat t) s

/-- A write into BAR2 (R349): a doorbell is one aligned 32-bit write. -/
def bar2Write (src : Src) (addr : Nat) (w : BusWrite) (s : State) : State :=
  let f := srcFunc src
  let pages := if f = 0 then 1024 else 64
  let n := addr / 0x1000
  let v := w32 (bits w.data.toNat 0 32)
  if w.len ≠ 4 ∨ addr % 4 ≠ 0 ∨ enables w.be 0 ≠ 15 then
    forAll (busWords addr w) (fun e t => busWriteError 2 2 f 0 e.1 e.2.1.toNat t) s
  else if pages ≤ n then busWriteError 0 2 f 0 addr v.toNat s
  else if (doorbellCtx s src n).isNone then s
  else
    match addr % 0x1000 with
    | 0 => thenOf (execSqTail src n v [] s) s
    | 4 => thenOf (execCqHead src n v s) s
    | _ => busWriteError 0 2 f 0 addr v.toNat s

/-- A read of n bytes of BAR2 (R349): of 4 or 8 aligned bytes it returns zero, whatever the page; any other is a bus error. No row
of the table is a read of a register: this says what one answers (log 53). -/
def bar2Read (src : Src) (addr n : Nat) (s : State) : State :=
  if (n = 4 ∨ n = 8) ∧ addr % n = 0 then s.answer (.data (List.replicate n 0)) else busReadError 2 2 (srcFunc src) 0 addr s

/-- REGISTER_WRITE (R500 to R508): a write of a function into one of its BARs; BAR4 is the host window (R273). -/
def execRegisterWrite (src : Src) (bar addr : Nat) (w : BusWrite) (s : State) : Host.Outcome State Fault Refusal :=
  if (src = .pf ∨ srcFunc src ≠ 0) ∧ srcLive s src then
    match bar with
    | 0 => .next (bar0Write src addr w s)
    | 2 => .next (bar2Write src addr w s)
    | _ =>
      execHostWindowWrite src (addr / 0x2000000) (addr / 0x800000 % 4) (addr / 0x200000 % 4) (addr % 0x200000)
        (toBytes w.len w.data.toNat) .clean s
  else .next s

/-- ALIAS_VIEW_WRITE (R504): `addr` is the base-view offset in BAR0; the write goes through the named view. The test port
writes as the PF, its errors unlogged (R497, R502). -/
def execAliasViewWrite (src : Src) (view : View) (addr : Nat) (value : BitVec 32) (s : State) :
    Host.Outcome State Fault Refusal :=
  if srcLive s src && mayWrite src && src != .jtag then
    let f := srcFunc src
    .next (barWrite src (if f = 0 then 0 else 1) f (addr + 0x4000 * viewCode view) value s)
  else .next s

/-- INDIRECT_TIMEOUT (R514): a slab that is not RETIRED does not answer. The test and management ports show `ERR`. -/
def execIndirectTimeout (src : Src) (write : Option (BitVec 32)) (s : State) : Host.Outcome State Fault Refusal :=
  if !srcLive s src then .next s else
  match src with
  | .pf =>
    let n := s.rif.indAddr.toNat / 2 ^ 24
    if n < 100 ∧ (s.slab n).st ≠ .retired then
      match write with
      | some v => .next (busWriteError 5 4 0 0 s.rif.indAddr.toNat v.toNat s)
      | none => .next (busReadError 5 4 0 0 s.rif.indAddr.toNat s)
    else .next s
  | .jtag => .next (s.answer (.capture 66 (2 ^ 65 + 2 ^ 64)))
  | .i3c => .next (s.answer (.data [0, 0, 0, 0, 1]))
  | .vf _ => .next s

/-! ## The test port (R449) -/

/-- What a path that names each location directly reaches: a BAR0 offset of the PF or an indirect address. -/
def directLoc (s : State) (ind : Bool) (a : Nat) : Except Nat (View × Option Loc) :=
  if ind then
    match indLoc a with
    | none => .error 4
    | some l => .ok (.plain, served s (some l))
  else if a % 4 ≠ 0 then .error 2
  else
    let r := barLoc s .jtag a
    match r.2 with
    | some l => if l.isIndData then .error 4 else .ok r
    | none => .ok r

/-- A read of such a path: the value, or none for an error. -/
def directRead (s : State) (ind : Bool) (a : Nat) : Option Word :=
  match directLoc s ind a with
  | .error _ => none
  | .ok (view, l) =>
    match judgeRead s view l with
    | .error _ => none
    | .ok w => some w

/-- The next Capture-DR of an access of w bits: `DONE`, `ERR` and the data; the bits between are open. -/
def jtagAnswer (w : Nat) (err : Bool) (data : Nat) (s : State) : State :=
  let r := s.takeFree (w - 34)
  r.2.answer (.capture w (sh 1 (w - 1) + sh (b2n err) (w - 2) + sh r.1.toNat 32 + data))

/-- REG_ACCESS (R449, R497): a read or write as the PF's of a BAR0 offset, or with `IND` of an indirect location. -/
def execRegAccess (ind : Bool) (addr : BitVec 32) (write : Option (BitVec 32)) (s : State) : Host.Outcome State Fault Refusal :=
  if !srcLive s .jtag then .next s else
  let s := { s with pkc2 := { s.pkc2 with jtagDrive := none } }
  let a := addr.toNat
  match write with
  | none =>
    match directRead s ind a with
    | some w => .next (jtagAnswer 66 false w.toNat s)
    | none => .next (jtagAnswer 66 true 0 s)
  | some v =>
    match directLoc s ind a with
    | .error _ => .next (jtagAnswer 66 true 0 s)
    | .ok (view, l) =>
      match judgeWrite s view l with
      | .error _ => .next (jtagAnswer 66 true 0 s)
      | .ignored => .next (jtagAnswer 66 false 0 s)
      | .ok l => .next (jtagAnswer 66 false 0 (l.write .jtag (viewValue view (l.read s) v) s))

/-- A word of HBM as the test port reads it, or writes it (R300, R449). -/
def memWord (da : Nat) (write : Option Word) (s : State) : State :=
  let key := daKey s da
  match write with
  | none =>
    let t := countAcc none false (spanFuel 4) da 4 s
    match granBad t key da with
    | some b => jtagAnswer 98 true 0 (hbmFault da b t)
    | none => jtagAnswer 98 false (ofBytes (hbmRead t da 4)) t
  | some v =>
    let t := countAcc none true (spanFuel 4) da 4 s
    match writeBad t none key (spanFuel 4) da 4 with
    | some (a, b) => jtagAnswer 98 true 0 (hbmFault a b t)
    | none => jtagAnswer 98 false 0 (hbmWrite key da (toBytes 4 v.toNat) t)

/-- MEM_ACCESS to HBM. The firmware area is served from the copy whose stack is in service; what is written goes to both
copies that are (R290, R303; log 49). -/
def memHbm (da : Nat) (write : Option Word) (s : State) : State :=
  if da % 4 ≠ 0 ∨ daEnd < da + 4 then jtagAnswer 98 true 0 s
  else
    let t := opAccess (daCtx s da) s
    if inFirmware da then
      match fwCopies t da, write with
      | [], _ => jtagAnswer 98 true 0 t
      | a :: _, none => memWord a write t
      | l, some _ => l.foldl (fun u a => memWord a write u) t
    else memWord da write t

/-- MEM_ACCESS to a bank. -/
def memBank (addr : Nat) (write : Option Word) (s : State) : State :=
  let g := addr / 2 ^ 23
  let k := addr / 2 ^ 21 % 4
  let a := addr % 2 ^ 21
  if addr % 4 ≠ 0 ∨ 6400 ≤ g ∨ bankBytes < a + 4 ∨ (serverOf s (g / 64)).isNone then jtagAnswer 98 true 0 s
  else
    let t := match (s.bank (bankIx g k)).holder with
      | some c => opAccess c s
      | none => s
    match write with
    | none => jtagAnswer 98 false (bankWord s g k a) t
    | some v => jtagAnswer 98 false 0 (bankWrite g k a (toBytes 4 v.toNat) t)

/-- MEM_ACCESS (R448, R449): a word of any bank, whatever its owner, or of HBM under the owning key. -/
def execMemAccess (hbm : Bool) (addr : Nat) (write : Option (BitVec 32)) (s : State) : Host.Outcome State Fault Refusal :=
  if !srcLive s .jtag then .next s else
  let s := { s with pkc2 := { s.pkc2 with jtagDrive := none } }
  if !s.live || s.pkc.recovery || s.pkg.unroutable then .next (jtagAnswer 98 true 0 s)
  else .next (if hbm then memHbm addr write s else memBank addr write s)

/-- An instruction of the test port that captures a value at once. -/
def jtagCapture (w v : Nat) (s : State) : Host.Outcome State Fault Refusal :=
  if srcLive s .jtag then
    .next ({ s with pkc2 := { s.pkc2 with jtagDrive := none } }.answer (.capture w v))
  else .next s

/-- SEC_STATUS, IDCODE and BYPASS (R449). What is shifted into the bypass bit comes out of it. -/
def execSecStatus (s : State) : Host.Outcome State Fault Refusal := jtagCapture 32 (secAnchor s) s
def execIdcode (s : State) : Host.Outcome State Fault Refusal := jtagCapture 32 0x15310A4B s
def execBypass (x : Bool) (s : State) : Host.Outcome State Fault Refusal := jtagCapture 1 (b2n x) s

/-- What the pins show to the boundary register is open. -/
def boundaryCapture (s : State) : State :=
  let r := s.takeFree Config.boundaryCells
  r.2.answer (.capture Config.boundaryCells r.1.toNat)

/-- SAMPLE_PRELOAD (R449): the boundary register takes the value and drives nothing. -/
def execSamplePreload (v : Nat) (s : State) : Host.Outcome State Fault Refusal :=
  if srcLive s .jtag then
    .next (boundaryCapture { s with pkc2 := { s.pkc2 with
      jtagBoundary := v % 2 ^ Config.boundaryCells, jtagDrive := none } })
  else .next s

/-- EXTEST (R449): drives the pins only while SYS_RESET# is asserted, and otherwise acts as BYPASS. -/
def execExtest (v : Nat) (s : State) : Host.Outcome State Fault Refusal :=
  if srcLive s .jtag then
    if s.pkc2.sysResetN then jtagCapture 1 (v % 2) s
    else
      let x := v % 2 ^ Config.boundaryCells
      .next (boundaryCapture { s with pkc2 := { s.pkc2 with jtagBoundary := x, jtagDrive := some x } })
  else .next s

/-! ## The management port (R539) -/

/-- MGMT_PRIVATE_WRITE (R539): 5 bytes set the read address; any other length is ignored. -/
def execMgmtPrivateWrite (data : List (BitVec 8)) (s : State) : Host.Outcome State Fault Refusal :=
  if srcLive s .i3c ∧ data.length = 5 then
    .next { s with pkc2 := { s.pkc2 with
      mgmtInd := bit (data.headD 0).toNat 0, mgmtAddr := w32 (ofBytes (data.drop 1)) } }
  else .next s

/-- Do only the package block and the package controller answer: in standby, and until step 4 of bring-up? -/
def mgmtNarrow (s : State) : Bool := !converters s || decide (s.pkc.step < 4)

/-- The locations that the management port reaches as the device stands. -/
def mgmtRead (s : State) : Option Word :=
  let ind := s.pkc2.mgmtInd
  let a := s.pkc2.mgmtAddr.toNat
  if mgmtNarrow s && !(if ind then a / 2 ^ 24 == 0xFE else decide (a < 0x10000)) then none else directRead s ind a

/-- MGMT_PRIVATE_READ (R539): the value and a status byte; an error returns zero data with `ERR`. -/
def execMgmtPrivateRead (s : State) : Host.Outcome State Fault Refusal :=
  if srcLive s .i3c then
    match mgmtRead s with
    | some w => .next (s.answer (.data (toBytes 4 w.toNat ++ [0])))
    | none => .next (s.answer (.data [0, 0, 0, 0, 1]))
  else .next s

end Sys2Proof.Machine
end

