-- ==== Sys2Proof/Machine/Dispatch.lean ====
section
/-! DEFINITION. One arm for each row of the operation table: the effect of a command on everything but the queue. -/

namespace Sys2Proof.Machine

open Sys2Proof

/-- The effect of a command on everything but the queue. -/
def exec (i : Instr) (s : State) : Host.Outcome State Fault Refusal :=
  match i with
  | .nop c q => Sys2Proof.Machine.execNop c q s
  | .descCreate c q => Sys2Proof.Machine.execDescCreate c q s
  | .descDestroy c q => Sys2Proof.Machine.execDescDestroy c q s
  | .descRelease c q => Sys2Proof.Machine.execDescRelease c q s
  | .epiCreate c q => Sys2Proof.Machine.execEpiCreate c q s
  | .convCreate c q => Sys2Proof.Machine.execConvCreate c q s
  | .vecLoad c q => Sys2Proof.Machine.execVecLoad c q s
  | .vecLoadSwitch c q => Sys2Proof.Machine.execVecLoadSwitch c q s
  | .arraySet c q => Sys2Proof.Machine.execArraySet c q s
  | .matrixProduct c q => Sys2Proof.Machine.execMatrixProduct c q s
  | .infusion c q => Sys2Proof.Machine.execInfusion c q s
  | .conv c q => Sys2Proof.Machine.execConv c q s
  | .copy c q => Sys2Proof.Machine.execCopy c q s
  | .permutingCopy c q => Sys2Proof.Machine.execPermutingCopy c q s
  | .gather c q => Sys2Proof.Machine.execGather c q s
  | .scatter c q => Sys2Proof.Machine.execScatter c q s
  | .eltwise c q => Sys2Proof.Machine.execEltwise c q s
  | .rowstat c q => Sys2Proof.Machine.execRowstat c q s
  | .softmax c q => Sys2Proof.Machine.execSoftmax c q s
  | .pool c q => Sys2Proof.Machine.execPool c q s
  | .resample c q => Sys2Proof.Machine.execResample c q s
  | .cropResize c q => Sys2Proof.Machine.execCropResize c q s
  | .random c q => Sys2Proof.Machine.execRandom c q s
  | .strain c q => Sys2Proof.Machine.execStrain c q s
  | .allreduce c q peers => Sys2Proof.Machine.execAllreduce c q peers s
  | .reduceScatter c q peers => Sys2Proof.Machine.execReduceScatter c q peers s
  | .allgather c q peers => Sys2Proof.Machine.execAllgather c q peers s
  | .blend c q peers => Sys2Proof.Machine.execBlend c q peers s
  | .kvSeqCreate c q => Sys2Proof.Machine.execKvSeqCreate c q s
  | .kvAppend c q => Sys2Proof.Machine.execKvAppend c q s
  | .kvFork c q => Sys2Proof.Machine.execKvFork c q s
  | .kvTruncate c q => Sys2Proof.Machine.execKvTruncate c q s
  | .kvSeqFree c q => Sys2Proof.Machine.execKvSeqFree c q s
  | .kvReclaim c q => Sys2Proof.Machine.execKvReclaim c q s
  | .kvSet c q => Sys2Proof.Machine.execKvSet c q s
  | .brewSeed c q => Sys2Proof.Machine.execBrewSeed c q s
  | .brewStream c q => Sys2Proof.Machine.execBrewStream c q s
  | .bankOwn c q => Sys2Proof.Machine.execBankOwn c q s
  | .linkJob c q => Sys2Proof.Machine.execLinkJob c q s
  | .ctxDefine c q => Sys2Proof.Machine.execCtxDefine c q s
  | .ctxUndefine c q => Sys2Proof.Machine.execCtxUndefine c q s
  | .regionAlloc c q => Sys2Proof.Machine.execRegionAlloc c q s
  | .regionFree c q => Sys2Proof.Machine.execRegionFree c q s
  | .modelLoad c q => Sys2Proof.Machine.execModelLoad c q s
  | .modelUnload c q => Sys2Proof.Machine.execModelUnload c q s
  | .ctxSuspend c q => Sys2Proof.Machine.execCtxSuspend c q s
  | .ctxResume c q => Sys2Proof.Machine.execCtxResume c q s
  | .ctxSave c q => Sys2Proof.Machine.execCtxSave c q s
  | .ctxRestore c q => Sys2Proof.Machine.execCtxRestore c q s
  | .ctxReset c q => Sys2Proof.Machine.execCtxReset c q s
  | .schedSet c q => Sys2Proof.Machine.execSchedSet c q s
  | .vcOpen c q => Sys2Proof.Machine.execVcOpen c q s
  | .vcClose c q => Sys2Proof.Machine.execVcClose c q s
  | .vcEncode c q => Sys2Proof.Machine.execVcEncode c q s
  | .vcDecode c q => Sys2Proof.Machine.execVcDecode c q s
  | .vcRate c q => Sys2Proof.Machine.execVcRate c q s
  | .sqTail src page value cells => Sys2Proof.Machine.execSqTail src page value cells s
  | .cqHead src page value => Sys2Proof.Machine.execCqHead src page value s
  | .entryFetch c n => Sys2Proof.Machine.execEntryFetch c n s
  | .issueDecision p => Sys2Proof.Machine.execIssueDecision p s
  | .stagingFetchDone c q tile aAt bAt => Sys2Proof.Machine.execStagingFetchDone c q tile aAt bAt s
  | .commandComplete c q => Sys2Proof.Machine.execCommandComplete c q s
  | .ringEnable src page => Sys2Proof.Machine.execRingEnable src page s
  | .ringDisable src page => Sys2Proof.Machine.execRingDisable src page s
  | .ringDrained c => Sys2Proof.Machine.execRingDrained c s
  | .ringAckContinue src page => Sys2Proof.Machine.execRingAckContinue src page s
  | .ringAckFlush src page => Sys2Proof.Machine.execRingAckFlush src page s
  | .cqIrqTimeout r => Sys2Proof.Machine.execCqIrqTimeout r s
  | .evqEnable src func => Sys2Proof.Machine.execEvqEnable src func s
  | .evqHead src func value => Sys2Proof.Machine.execEvqHead src func value s
  | .pcieConfigWrite func w => Sys2Proof.Machine.execPcieConfigWrite func w s
  | .pcieFailover t => Sys2Proof.Machine.execPcieFailover t s
  | .failoverSwitch => Sys2Proof.Machine.execFailoverSwitch s
  | .failoverLinkUp speed width => Sys2Proof.Machine.execFailoverLinkUp speed width s
  | .ctxAdmit p => Sys2Proof.Machine.execCtxAdmit p s
  | .swapOutDone c => Sys2Proof.Machine.execSwapOutDone c s
  | .swapInDone c => Sys2Proof.Machine.execSwapInDone c s
  | .sliceExpire p => Sys2Proof.Machine.execSliceExpire p s
  | .ctxControlSuspend src page => Sys2Proof.Machine.execCtxControlSuspend src page s
  | .ctxControlResume src page => Sys2Proof.Machine.execCtxControlResume src page s
  | .tileHang gtid => Sys2Proof.Machine.execTileHang gtid s
  | .preFailureWarning slab => Sys2Proof.Machine.execPreFailureWarning slab s
  | .plannedCoreRetirement slab => Sys2Proof.Machine.execPlannedCoreRetirement slab s
  | .evacWaitExpire slab => Sys2Proof.Machine.execEvacWaitExpire slab s
  | .spareSelfTest slab pass => Sys2Proof.Machine.execSpareSelfTest slab pass s
  | .rampUp gtid cut => Sys2Proof.Machine.execRampUp gtid cut s
  | .rampPhaseEnd gtid cycles => Sys2Proof.Machine.execRampPhaseEnd gtid cycles s
  | .rampDown gtid cut => Sys2Proof.Machine.execRampDown gtid cut s
  | .throttlePeriod slab acts => Sys2Proof.Machine.execThrottlePeriod slab acts s
  | .shadowSwap gtid counted => Sys2Proof.Machine.execShadowSwap gtid counted s
  | .tileClockGate gtid => Sys2Proof.Machine.execTileClockGate gtid s
  | .arrayCtrlWrite src slab value => Sys2Proof.Machine.execArrayCtrlWrite src slab value s
  | .powerLimitWrite src value => Sys2Proof.Machine.execPowerLimitWrite src value s
  | .powerSample watts v12 v48 => Sys2Proof.Machine.execPowerSample watts v12 v48 s
  | .powerRateRaise => Sys2Proof.Machine.execPowerRateRaise s
  | .vtblSlopeWrite src slab value => Sys2Proof.Machine.execVtblSlopeWrite src slab value s
  | .kvReserveWrite src p value => Sys2Proof.Machine.execKvReserveWrite src p value s
  | .kvClearMin src p => Sys2Proof.Machine.execKvClearMin src p s
  | .labFlush src slab => Sys2Proof.Machine.execLabFlush src slab s
  | .winClearPeak src => Sys2Proof.Machine.execWinClearPeak src s
  | .aqClear src page => Sys2Proof.Machine.execAqClear src page s
  | .bankOwnWrite src gtid bank value => Sys2Proof.Machine.execBankOwnWrite src gtid bank value s
  | .hostWindowRead src gtid bank view a len found => Sys2Proof.Machine.execHostWindowRead src gtid bank view a len found s
  | .hostWindowWrite src gtid bank view a data found => Sys2Proof.Machine.execHostWindowWrite src gtid bank view a data found s
  | .aliasSetWrite src gtid bank a data found => Sys2Proof.Machine.execAliasSetWrite src gtid bank a data found s
  | .aliasClearWrite src gtid bank a data found => Sys2Proof.Machine.execAliasClearWrite src gtid bank a data found s
  | .iadd src gtid bank view a len operand found => Sys2Proof.Machine.execIadd src gtid bank view a len operand found s
  | .fadd src gtid bank a len operand found => Sys2Proof.Machine.execFadd src gtid bank a len operand found s
  | .swap src gtid bank view a len compare operand found => Sys2Proof.Machine.execSwap src gtid bank view a len compare operand found s
  | .patinaCtrlWrite src slab value => Sys2Proof.Machine.execPatinaCtrlWrite src slab value s
  | .patinaRegionStart slab found => Sys2Proof.Machine.execPatinaRegionStart slab found s
  | .tileRetirement gtid => Sys2Proof.Machine.execTileRetirement gtid s
  | .tileRetireCopyDone gtid => Sys2Proof.Machine.execTileRetireCopyDone gtid s
  | .wakeClearDone slab => Sys2Proof.Machine.execWakeClearDone slab s
  | .packetDeliver header q body found => Sys2Proof.Machine.execPacketDeliver header q body found s
  | .hbmScrubWrite src slab value => Sys2Proof.Machine.execHbmScrubWrite src slab value s
  | .hbmScrubPass slab corrected failed => Sys2Proof.Machine.execHbmScrubPass slab corrected failed s
  | .stackSubstitute p => Sys2Proof.Machine.execStackSubstitute p s
  | .flitReceive dst src inject r => Sys2Proof.Machine.execFlitReceive dst src inject r s
  | .transportResend slab tseq atomic dest => Sys2Proof.Machine.execTransportResend slab tseq atomic dest s
  | .linkEnWrite src port en => Sys2Proof.Machine.execLinkEnWrite src port en s
  | .linkRetrainWrite src port => Sys2Proof.Machine.execLinkRetrainWrite src port s
  | .linkFrameRx port symbols => Sys2Proof.Machine.execLinkFrameRx port symbols s
  | .linkTrained port peerPort peerDigest peerEpoch => Sys2Proof.Machine.execLinkTrained port peerPort peerDigest peerEpoch s
  | .linkTrainingTimeout port => Sys2Proof.Machine.execLinkTrainingTimeout port s
  | .linkPacketRx port vc header tagOk => Sys2Proof.Machine.execLinkPacketRx port vc header tagOk s
  | .hello c job tag => Sys2Proof.Machine.execHello c job tag s
  | .reply c job verified serial => Sys2Proof.Machine.execReply c job verified serial s
  | .finish c job verified serial peerWire peerEpoch => Sys2Proof.Machine.execFinish c job verified serial peerWire peerEpoch s
  | .linkOpenTimeout c q => Sys2Proof.Machine.execLinkOpenTimeout c q s
  | .collTimeout c q => Sys2Proof.Machine.execCollTimeout c q s
  | .vcFrameStart core => Sys2Proof.Machine.execVcFrameStart core s
  | .vcPieceDone core => Sys2Proof.Machine.execVcPieceDone core s
  | .vcClaimTimeout core => Sys2Proof.Machine.execVcClaimTimeout core s
  | .vcReset src slab => Sys2Proof.Machine.execVcReset src slab s
  | .vcCoreResetDone slab => Sys2Proof.Machine.execVcCoreResetDone slab s
  | .vcFrameAssemble c stream => Sys2Proof.Machine.execVcFrameAssemble c stream s
  | .idRecord => Sys2Proof.Machine.execIdRecord s
  | .attest => Sys2Proof.Machine.execAttest s
  | .stageFw => Sys2Proof.Machine.execStageFw s
  | .stageArm => Sys2Proof.Machine.execStageArm s
  | .certAdd => Sys2Proof.Machine.execCertAdd s
  | .armApply => Sys2Proof.Machine.execArmApply s
  | .armRevert => Sys2Proof.Machine.execArmRevert s
  | .armReturn => Sys2Proof.Machine.execArmReturn s
  | .armCheck => Sys2Proof.Machine.execArmCheck s
  | .partitionSwitch p => Sys2Proof.Machine.execPartitionSwitch p s
  | .digestExchange p => Sys2Proof.Machine.execDigestExchange p s
  | .digestReplyTimeout p slab => Sys2Proof.Machine.execDigestReplyTimeout p slab s
  | .discordRepair p => Sys2Proof.Machine.execDiscordRepair p s
  | .meterPeriodTick m => Sys2Proof.Machine.execMeterPeriodTick m s
  | .mReadReq m => Sys2Proof.Machine.execMReadReq m s
  | .mirrorRequest m => Sys2Proof.Machine.execMirrorRequest m s
  | .meterSpacingEnd m => Sys2Proof.Machine.execMeterSpacingEnd m s
  | .meterPowerUp m => Sys2Proof.Machine.execMeterPowerUp m s
  | .meterPowerDown m => Sys2Proof.Machine.execMeterPowerDown m s
  | .sealChange coverClosed filmOk m => Sys2Proof.Machine.execSealChange coverClosed filmOk m s
  | .mPeriodWrite value => Sys2Proof.Machine.execMPeriodWrite value s
  | .meterPortWrite addr data => Sys2Proof.Machine.execMeterPortWrite addr data s
  | .meterPortRead len => Sys2Proof.Machine.execMeterPortRead len s
  | .mtrSnapReq src => Sys2Proof.Machine.execMtrSnapReq src s
  | .mirrorRecord => Sys2Proof.Machine.execMirrorRecord s
  | .mirrorTimeout => Sys2Proof.Machine.execMirrorTimeout s
  | .registerWrite src bar addr w => Sys2Proof.Machine.execRegisterWrite src bar addr w s
  | .aliasViewWrite src view addr value => Sys2Proof.Machine.execAliasViewWrite src view addr value s
  | .indDataAccess src write => Sys2Proof.Machine.execIndDataAccess src write s
  | .indirectTimeout src write => Sys2Proof.Machine.execIndirectTimeout src write s
  | .mgmtPrivateWrite data => Sys2Proof.Machine.execMgmtPrivateWrite data s
  | .mgmtPrivateRead => Sys2Proof.Machine.execMgmtPrivateRead s
  | .regAccess ind addr write => Sys2Proof.Machine.execRegAccess ind addr write s
  | .memAccess hbm addr write => Sys2Proof.Machine.execMemAccess hbm addr write s
  | .secStatus => Sys2Proof.Machine.execSecStatus s
  | .idcode => Sys2Proof.Machine.execIdcode s
  | .extest v => Sys2Proof.Machine.execExtest v s
  | .samplePreload v => Sys2Proof.Machine.execSamplePreload v s
  | .bypass bit => Sys2Proof.Machine.execBypass bit s
  | .coldPowerOn => Sys2Proof.Machine.execColdPowerOn s
  | .pwrOkFall => Sys2Proof.Machine.execPwrOkFall s
  | .vin48Brownout => Sys2Proof.Machine.execVin48Brownout s
  | .p12vStbyFall => Sys2Proof.Machine.execP12vStbyFall s
  | .sysResetAssert => Sys2Proof.Machine.execSysResetAssert s
  | .sysResetDeassert => Sys2Proof.Machine.execSysResetDeassert s
  | .perstAssert => Sys2Proof.Machine.execPerstAssert s
  | .perstDeassert speed width => Sys2Proof.Machine.execPerstDeassert speed width s
  | .hotReset => Sys2Proof.Machine.execHotReset s
  | .secondaryBusReset => Sys2Proof.Machine.execSecondaryBusReset s
  | .linkDisable => Sys2Proof.Machine.execLinkDisable s
  | .pfFlr => Sys2Proof.Machine.execPfFlr s
  | .vfFlr n => Sys2Proof.Machine.execVfFlr n s
  | .vfEnableClear => Sys2Proof.Machine.execVfEnableClear s
  | .warm src => Sys2Proof.Machine.execWarm src s
  | .preset src p => Sys2Proof.Machine.execPreset src p s
  | .stby src => Sys2Proof.Machine.execStby src s
  | .pwrSlabOffWrite src word value => Sys2Proof.Machine.execPwrSlabOffWrite src word value s
  | .slabPwr slab pass => Sys2Proof.Machine.execSlabPwr slab pass s
  | .thermalSample slab tiles stack => Sys2Proof.Machine.execThermalSample slab tiles stack s
  | .thermalRateRaise slab tiles stack => Sys2Proof.Machine.execThermalRateRaise slab tiles stack s
  | .thermalTrip => Sys2Proof.Machine.execThermalTrip s
  | .oscFail which => Sys2Proof.Machine.execOscFail which s
  | .p12vStbyRise => Sys2Proof.Machine.execP12vStbyRise s
  | .standbyLost => Sys2Proof.Machine.execStandbyLost s
  | .vcCoreFault core => Sys2Proof.Machine.execVcCoreFault core s
  | .patinaRegionDone gtid bank failLines => Sys2Proof.Machine.execPatinaRegionDone gtid bank failLines s

end Sys2Proof.Machine
end

