-- ==== Sys2Proof/Safety.lean ====
section
/-! DEFINITION. What a well-kept state is, every sparse table and memory in its canonical form, and what lasts from one
state to the next. -/

namespace Sys2Proof.Machine

open Sys2Proof

/-- The canonical form of everything the state holds by index or by address: indices strictly rising, and nothing
listed that an unlisted index has anyway. Equal contents are then equal data. -/
structure State.Canonical (s : State) : Prop where
  slabs : twf Slab.init s.slabs = true
  slabs2 : twf Slab2.init s.slabs2 = true
  ports : twf (fun _ => Port.init) s.ports = true
  ports2 : twf (fun _ => Port2.init) s.ports2 = true
  tiles : twf (fun _ => Tile.init) s.tiles = true
  tiles2 : twf (fun _ => Tile2.init) s.tiles2 = true
  banks : twf (fun _ => Bank.init) s.banks = true
  parts : twf Part.init s.parts = true
  parts2 : twf (fun _ => Part2.init) s.parts2 = true
  ctxs : twf Ctx.init s.ctxs = true
  funcs : twf (fun _ => Fn.init) s.funcs = true
  bankMem : Memory.wf s.bankMem = true
  hbmMem : Memory.wf s.hbm.mem = true
  hbmRecs : twf (fun _ => GranRec.init) s.hbm.recs = true
  hostMem : Memory.wf s.env.hostMem = true

/-- What no command and no event takes back: the floors against old firmware and old Armatures (R441, R442), the numbers
of the repair log and of the meter's readings (R472, R483), and the meter's audit trail (R487), newest record first. -/
structure Lasting (s t : State) : Prop where
  fwFloor : s.sec.fwFloor.toNat ≤ t.sec.fwFloor.toNat
  armFloor : s.sec.armFloor.toNat ≤ t.sec.armFloor.toNat
  logCount : s.arm.logCount ≤ t.arm.logCount
  rseq : s.meter.rseq ≤ t.meter.rseq
  audit : s.meter.audit <:+ t.meter.audit

/-- `t` is `s` after events were posted: only records in the functions' event rings or waiting for
the link, the MSI-X messages they send, and the functions' own counts have changed (R363 to R367, R375). -/
def Posted (s t : State) : Prop :=
  t = { s with
    env := { s.env with hostMem := t.env.hostMem, msis := t.env.msis },
    pcie := { s.pcie with msiHeld := t.pcie.msiHeld, evHeld := t.pcie.evHeld }, funcs := t.funcs }

/-- Command q of context c has ended with a status and detail words; COMMAND_COMPLETE writes its record (R351, R353). -/
def Ended (s : State) (c q : Nat) (st : Status) (dw : List Nat) : Prop :=
  ∃ m, getCmd s c q = some m ∧ m.phase = .done ∧ m.status = st.code ∧ m.dw = dw.map w32

/-- What a list of writes makes of the byte v of a cell: the writes to that cell, each merged under its mask, in order
(R101). A cell that no write names keeps its byte. -/
def merged (ws : List Wr) (x : CellAt) (v : Byte) : Byte :=
  ws.foldl (fun v w => if w.cell = x then (v &&& ~~~w.mask) ||| (w.val &&& w.mask) else v) v

/-- A command of context c, and nothing else of any context, differs: what ending a command leaves of the contexts. -/
def OnlyCmds (c : Nat) (s t : State) : Prop :=
  t.ctx c = { s.ctx c with cmds := (t.ctx c).cmds } ∧ ∀ d, d ≠ c → t.ctx d = s.ctx d

/-- What doing a data command's work leaves behind: the command ended OK with its detail words, flags and counts; every
byte of every memory is as the work's own writes make it (R101, R145); besides that only the integrity records of the
granules written (R296), the forms of the command's tiles (R71) and the count of free values changed. -/
structure Worked (w : Work) (c q : Nat) (s t : State) : Prop where
  ended : ∃ m, getCmd t c q = some m ∧ m.phase = .done ∧ m.status = Status.ok.code ∧ m.dw = w.dw.map w32 ∧
    m.aflags = BitVec.ofNat 8 w.t.aflags ∧ m.aq = w.t.counts
  bytes : ∀ x : CellAt, cellGet t x = merged w.wrs x (cellGet s x)
  cmds : OnlyCmds c s t
  rest : t = { s with
    env := { s.env with hostMem := t.env.hostMem, free := s.env.free + w.free }, bankMem := t.bankMem,
    hbm := { s.hbm with mem := t.hbm.mem, recs := t.hbm.recs }, ctxs := t.ctxs, tiles := t.tiles }

/-- Record x follows record y exactly (R484). -/
def Follows (x y : ReadingRec) : Prop :=
  x.r.rseq = y.r.rseq + 1 ∧ x.r.ctrStart = y.r.ctrEnd ∧ x.r.eInterval = x.r.eTotal - y.r.eTotal ∧
    x.prev = Config.sha384 (signedPart y)

/-- A list of records, newest first, each following the next one. -/
def Chained : List ReadingRec → Prop
  | [] => True
  | [_] => True
  | x :: y :: r => Follows x y ∧ Chained (y :: r)

/-- An audit trail, newest record first, numbered from 1 without a gap (R487). -/
def Numbered : List Audit → Prop
  | [] => True
  | a :: r => a.aseq = r.length + 1 ∧ Numbered r

/-- The meter's store: at most 8,192 readings, chained, the newest with the last number given out (R484); an audit trail
of at most 4,096 records, numbered (R487). -/
structure MeterKept (m : Meter) : Prop where
  few : m.records.length ≤ 8192
  last : ∀ x ∈ m.records.head?, x.r.rseq = m.rseq
  chained : Chained m.records
  trail : m.audit.length ≤ 4096
  numbered : Numbered m.audit

/-- The parts of the state that a frame names: the fields of `State` but for the queue, and host memory by itself. -/
inductive SField where
  | env
  | hostMem
  | pkg
  | rif
  | pcie
  | sec
  | arm
  | arm2
  | mtr
  | meter
  | meter2
  | pkc
  | pkc2
  | winPeak
  | slabs
  | slabs2
  | ports
  | ports2
  | tiles
  | tiles2
  | banks
  | parts
  | parts2
  | ctxs
  | funcs
  | bankMem
  | hbm
deriving DecidableEq, Repr

/-- Every part. -/
def SField.all : List SField :=
  [.env, .hostMem, .pkg, .rif, .pcie, .sec, .arm, .arm2, .mtr, .meter, .meter2, .pkc, .pkc2, .winPeak, .slabs, .slabs2,
    .ports, .ports2, .tiles, .tiles2, .banks, .parts, .parts2, .ctxs, .funcs, .bankMem, .hbm]

/-- The part is the same in both states. -/
def SField.Same (f : SField) (s t : State) : Prop :=
  match f with
  | .env => t.env = s.env
  | .hostMem => t.env.hostMem = s.env.hostMem
  | .pkg => t.pkg = s.pkg
  | .rif => t.rif = s.rif
  | .pcie => t.pcie = s.pcie
  | .sec => t.sec = s.sec
  | .arm => t.arm = s.arm
  | .arm2 => t.arm2 = s.arm2
  | .mtr => t.mtr = s.mtr
  | .meter => t.meter = s.meter
  | .meter2 => t.meter2 = s.meter2
  | .pkc => t.pkc = s.pkc
  | .pkc2 => t.pkc2 = s.pkc2
  | .winPeak => t.winPeak = s.winPeak
  | .slabs => t.slabs = s.slabs
  | .slabs2 => t.slabs2 = s.slabs2
  | .ports => t.ports = s.ports
  | .ports2 => t.ports2 = s.ports2
  | .tiles => t.tiles = s.tiles
  | .tiles2 => t.tiles2 = s.tiles2
  | .banks => t.banks = s.banks
  | .parts => t.parts = s.parts
  | .parts2 => t.parts2 = s.parts2
  | .ctxs => t.ctxs = s.ctxs
  | .funcs => t.funcs = s.funcs
  | .bankMem => t.bankMem = s.bankMem
  | .hbm => t.hbm = s.hbm

/-- The parts of the state that a command may change: events reach `funcs`, `pcie` and the host's memory, a ring command's
end its context and the forms of its tiles, a loss of a context whatever it held, a reset everything but the meter. -/
def touched : Instr → List SField
  | .mgmtPrivateRead =>
    [.env]
  | .powerRateRaise =>
    [.pkg]
  | .failoverSwitch =>
    [.pcie]
  | .mPeriodWrite .. | .meterPortWrite .. =>
    [.meter]
  | .p12vStbyRise =>
    [.pkc]
  | .mgmtPrivateWrite .. =>
    [.pkc2]
  | .winClearPeak .. =>
    [.winPeak]
  | .spareSelfTest .. =>
    [.slabs]
  | .labFlush .. | .patinaCtrlWrite .. | .hbmScrubWrite .. | .vcCoreResetDone .. =>
    [.slabs2]
  | .tileClockGate .. =>
    [.tiles]
  | .kvClearMin .. =>
    [.parts]
  | .sliceExpire .. | .digestReplyTimeout .. =>
    [.parts2]
  | .descDestroy .. | .vecLoad .. | .aqClear .. =>
    [.ctxs]
  | .meterPortRead .. =>
    [.env, .meter]
  | .secStatus | .idcode | .extest .. | .samplePreload .. | .bypass .. =>
    [.env, .pkc2]
  | .ringDisable .. | .ringDrained .. =>
    [.env, .ctxs]
  | .meterPeriodTick .. | .mReadReq .. | .meterSpacingEnd .. | .meterPowerUp .. | .meterPowerDown ..
  | .sealChange .. =>
    [.meter, .meter2]
  | .linkRetrainWrite .. | .linkFrameRx .. =>
    [.ports, .ports2]
  | .shadowSwap .. =>
    [.tiles, .tiles2]
  | .nop .. | .descCreate .. | .descRelease .. | .epiCreate .. | .convCreate .. | .brewSeed .. | .brewStream ..
  | .ctxSave .. | .vcOpen .. | .vcRate .. | .rampUp .. | .rampPhaseEnd .. | .rampDown .. | .linkOpenTimeout ..
  | .collTimeout .. =>
    [.tiles, .ctxs]
  | .bankOwnWrite .. =>
    [.banks, .ctxs]
  | .pcieConfigWrite .. =>
    [.env, .pcie, .funcs]
  | .ctxSuspend .. | .ctxResume .. =>
    [.env, .tiles, .ctxs]
  | .mirrorRequest .. =>
    [.mtr, .meter, .meter2]
  | .vcClose .. =>
    [.slabs2, .tiles, .ctxs]
  | .hello .. =>
    [.ports, .ports2, .ctxs]
  | .bankOwn .. =>
    [.tiles, .banks, .ctxs]
  | .kvSet .. | .schedSet .. =>
    [.tiles, .parts, .ctxs]
  | .ctxDefine .. =>
    [.tiles, .ctxs, .hbm]
  | .evqEnable .. | .evqHead .. =>
    [.env, .hostMem, .pcie, .funcs]
  | .cqIrqTimeout .. =>
    [.env, .pcie, .ctxs, .funcs]
  | .throttlePeriod .. =>
    [.slabs, .tiles, .tiles2, .ctxs]
  | .kvSeqFree .. =>
    [.slabs2, .tiles, .parts2, .ctxs]
  | .linkJob .. =>
    [.ports, .ports2, .tiles, .ctxs]
  | .powerLimitWrite .. =>
    [.env, .hostMem, .pkg, .pcie, .funcs]
  | .indirectTimeout .. =>
    [.env, .hostMem, .rif, .pcie, .funcs]
  | .idRecord | .attest | .stageFw | .certAdd =>
    [.env, .hostMem, .pcie, .sec, .funcs]
  | .standbyLost =>
    [.env, .hostMem, .pcie, .arm, .funcs]
  | .mtrSnapReq .. | .mirrorTimeout =>
    [.env, .hostMem, .pcie, .mtr, .funcs]
  | .sqTail .. | .cqHead .. | .commandComplete .. | .ringEnable .. | .ringAckContinue .. | .ringAckFlush ..
  | .failoverLinkUp .. | .ctxControlSuspend .. | .ctxControlResume .. =>
    [.env, .hostMem, .pcie, .ctxs, .funcs]
  | .swapOutDone .. =>
    [.env, .tiles, .banks, .ctxs, .hbm]
  | .stageArm =>
    [.env, .hostMem, .pcie, .sec, .arm, .funcs]
  | .mirrorRecord =>
    [.env, .hostMem, .pcie, .mtr, .meter2, .funcs]
  | .oscFail .. =>
    [.env, .hostMem, .pcie, .pkc, .pkc2, .funcs]
  | .arrayCtrlWrite .. =>
    [.env, .hostMem, .pcie, .slabs, .tiles, .funcs]
  | .vtblSlopeWrite .. =>
    [.env, .hostMem, .pcie, .slabs, .tiles2, .funcs]
  | .preFailureWarning .. =>
    [.env, .hostMem, .pcie, .slabs2, .parts2, .funcs]
  | .hbmScrubPass .. =>
    [.env, .hostMem, .pcie, .slabs2, .funcs, .hbm]
  | .kvReserveWrite .. =>
    [.env, .hostMem, .pcie, .parts, .parts2, .funcs]
  | .regionFree .. | .modelUnload .. =>
    [.slabs2, .tiles, .banks, .parts2, .ctxs, .hbm]
  | .regionAlloc .. | .modelLoad .. =>
    [.tiles, .banks, .parts2, .ctxs, .bankMem, .hbm]
  | .powerSample .. =>
    [.env, .hostMem, .pkg, .pcie, .pkc, .pkc2, .funcs]
  | .armReturn | .armCheck | .digestExchange .. =>
    [.env, .hostMem, .pcie, .arm, .arm2, .parts2, .funcs]
  | .thermalSample .. | .thermalRateRaise .. =>
    [.env, .hostMem, .pcie, .pkc, .slabs, .slabs2, .funcs]
  | .entryFetch .. =>
    [.env, .hostMem, .pcie, .winPeak, .parts2, .ctxs, .funcs]
  | .arraySet .. =>
    [.env, .hostMem, .pcie, .slabs, .tiles, .ctxs, .funcs]
  | .stackSubstitute .. =>
    [.env, .hostMem, .pcie, .slabs2, .parts2, .funcs, .hbm]
  | .linkEnWrite .. | .linkTrainingTimeout .. =>
    [.env, .hostMem, .pcie, .ports, .tiles, .ctxs, .funcs]
  | .ctxAdmit .. =>
    [.env, .hostMem, .pcie, .banks, .parts2, .ctxs, .funcs]
  | .armRevert =>
    [.env, .hostMem, .pkg, .pcie, .arm, .arm2, .parts2, .funcs]
  | .pcieFailover .. =>
    [.env, .hostMem, .pcie, .arm, .meter, .meter2, .ctxs, .funcs]
  | .patinaRegionDone .. =>
    [.env, .hostMem, .pcie, .arm, .slabs2, .banks, .parts2, .funcs]
  | .vecLoadSwitch .. =>
    [.env, .hostMem, .pcie, .slabs, .tiles, .tiles2, .ctxs, .funcs]
  | .kvReclaim .. =>
    [.env, .hostMem, .pcie, .slabs2, .tiles, .parts2, .ctxs, .funcs]
  | .vcFrameStart .. | .vcPieceDone .. | .vcClaimTimeout .. | .vcReset .. | .vcCoreFault .. =>
    [.env, .hostMem, .pcie, .slabs2, .tiles2, .ctxs, .funcs, .bankMem]
  | .linkTrained .. | .linkPacketRx .. =>
    [.env, .hostMem, .pcie, .ports, .ports2, .tiles, .ctxs, .funcs]
  | .ctxUndefine .. =>
    [.slabs2, .ports, .ports2, .tiles, .banks, .parts2, .ctxs, .hbm]
  | .reply .. | .finish .. =>
    [.env, .hostMem, .pcie, .sec, .ports, .ports2, .tiles, .ctxs, .funcs]
  | .vcEncode .. | .vcDecode .. =>
    [.env, .hostMem, .pcie, .slabs2, .tiles, .tiles2, .ctxs, .funcs, .bankMem]
  | .issueDecision .. =>
    [.env, .hostMem, .pcie, .tiles, .parts, .parts2, .ctxs, .funcs, .hbm]
  | .ctxReset .. =>
    [.env, .slabs2, .ports, .ports2, .tiles, .banks, .parts2, .ctxs, .hbm]
  | .ctxRestore .. =>
    [.env, .hostMem, .pcie, .slabs2, .tiles, .parts, .parts2, .ctxs, .funcs, .hbm]
  | .tileRetireCopyDone .. =>
    [.env, .hostMem, .pcie, .arm, .slabs, .slabs2, .tiles, .tiles2, .banks, .parts2, .funcs]
  | .pwrSlabOffWrite .. =>
    [.env, .hostMem, .pcie, .pkc, .pkc2, .slabs, .slabs2, .tiles, .tiles2, .banks, .funcs, .bankMem]
  | .vfFlr .. | .vfEnableClear =>
    [.env, .hostMem, .pcie, .slabs2, .ports, .ports2, .tiles, .banks, .parts2, .ctxs, .funcs, .hbm]
  | .swapInDone .. =>
    [.env, .hostMem, .pcie, .slabs2, .ports, .ports2, .tiles, .banks, .parts2, .ctxs, .funcs, .bankMem, .hbm]
  | .memAccess .. =>
    [.env, .hostMem, .pcie, .pkc2, .slabs2, .ports, .ports2, .tiles, .banks, .parts2, .ctxs, .funcs, .bankMem, .hbm]
  | .matrixProduct .. | .infusion .. | .conv .. | .copy .. | .permutingCopy .. | .gather .. | .scatter ..
  | .eltwise .. | .rowstat .. | .softmax .. | .pool .. | .resample .. | .cropResize .. | .random .. | .strain ..
  | .allreduce .. | .reduceScatter .. | .allgather .. | .blend .. | .kvSeqCreate .. | .kvAppend .. | .kvFork ..
  | .kvTruncate .. | .stagingFetchDone .. | .vcFrameAssemble .. =>
    [.env, .hostMem, .pcie, .slabs2, .ports, .ports2, .tiles, .tiles2, .banks, .parts2, .ctxs, .funcs, .bankMem, .hbm]
  | .tileHang .. | .plannedCoreRetirement .. | .evacWaitExpire .. | .patinaRegionStart .. | .tileRetirement ..
  | .packetDeliver .. =>
    [.env, .hostMem, .pcie, .arm, .slabs, .slabs2, .ports, .ports2, .tiles, .tiles2, .banks, .parts2, .ctxs, .funcs,
    .bankMem, .hbm]
  | .hostWindowRead .. | .hostWindowWrite .. | .aliasSetWrite .. | .aliasClearWrite .. | .iadd .. | .fadd ..
  | .swap .. | .wakeClearDone .. =>
    [.env, .hostMem, .rif, .pcie, .arm, .slabs, .slabs2, .ports, .ports2, .tiles, .tiles2, .banks, .parts2, .ctxs,
    .funcs, .bankMem, .hbm]
  | .preset .. =>
    [.env, .hostMem, .pcie, .pkc, .slabs, .slabs2, .ports, .ports2, .tiles, .tiles2, .banks, .parts, .parts2, .ctxs,
    .funcs, .bankMem, .hbm]
  | .armApply =>
    [.env, .hostMem, .pkg, .pcie, .sec, .arm, .arm2, .slabs, .slabs2, .ports, .ports2, .tiles, .tiles2, .banks,
    .parts2, .ctxs, .funcs, .bankMem]
  | .slabPwr .. =>
    [.env, .hostMem, .pcie, .arm, .pkc, .pkc2, .slabs, .slabs2, .ports, .ports2, .tiles, .tiles2, .banks, .parts2,
    .ctxs, .funcs, .bankMem, .hbm]
  | .flitReceive .. | .transportResend .. | .discordRepair .. =>
    [.env, .hostMem, .pkg, .pcie, .sec, .arm, .meter, .meter2, .slabs, .slabs2, .ports, .ports2, .tiles, .tiles2,
    .banks, .parts2, .ctxs, .funcs, .bankMem, .hbm]
  | .partitionSwitch .. =>
    [.env, .hostMem, .pkg, .pcie, .arm, .arm2, .pkc, .pkc2, .slabs, .slabs2, .ports, .ports2, .tiles, .tiles2,
    .banks, .parts, .parts2, .ctxs, .funcs, .bankMem]
  | .sysResetDeassert =>
    [.env, .hostMem, .pkg, .pcie, .sec, .arm, .mtr, .meter, .meter2, .pkc, .pkc2, .slabs, .slabs2, .ports, .ports2,
    .tiles, .tiles2, .banks, .parts, .parts2, .ctxs, .funcs, .bankMem, .hbm]
  | .registerWrite .. | .aliasViewWrite .. | .indDataAccess .. | .regAccess .. | .pwrOkFall | .vin48Brownout
  | .p12vStbyFall | .sysResetAssert | .perstAssert | .hotReset | .secondaryBusReset | .linkDisable | .pfFlr
  | .warm .. | .stby .. | .thermalTrip =>
    [.env, .hostMem, .pkg, .rif, .pcie, .sec, .arm, .arm2, .mtr, .pkc, .pkc2, .winPeak, .slabs, .slabs2, .ports,
    .ports2, .tiles, .tiles2, .banks, .parts, .parts2, .ctxs, .funcs, .bankMem, .hbm]
  | .coldPowerOn | .perstDeassert .. =>
    [.env, .hostMem, .pkg, .rif, .pcie, .sec, .arm, .arm2, .mtr, .meter, .meter2, .pkc, .pkc2, .winPeak, .slabs,
    .slabs2, .ports, .ports2, .tiles, .tiles2, .banks, .parts, .parts2, .ctxs, .funcs, .bankMem, .hbm]

end Sys2Proof.Machine
end

