-- ==== Sys2Proof/Machine/Follow.lean ====
section
/-! DEFINITION. What the statements call by name: a command that has ended, a context brought up to date. -/

namespace Sys2Proof.Machine

open Sys2Proof

/-- Command q of context c has gone from `s` to `t` by ending with a status and detail words, and nothing else has
happened: no other command and no other part of any context changed, no tile but in its form, and no other part. -/
structure Finished (c q : Nat) (st : Status) (dw : List Nat) (s t : State) : Prop where
  ended : ∃ m, getCmd s c q = some m ∧
    getCmd t c q = some { m with phase := .done, status := st.code, dw := dw.map w32 }
  others : ∀ r, r ≠ q → getCmd t c r = getCmd s c r
  cmds : OnlyCmds c s t
  tiles : ∀ g, t.tile g = { s.tile g with
    form := (t.tile g).form, busy := (t.tile g).busy, gated := (t.tile g).gated }
  rest : t = { s with ctxs := t.ctxs, tiles := t.tiles }

/-- Context c has been brought up to date (R379, R380, R384, R385): its state, the times since when it has been blocked
or runnable and `GEOBOUND` may differ, and nothing else. -/
structure Refreshed (c : Nat) (s t : State) : Prop where
  same : t.ctx c = { s.ctx c with
    reg := { (s.ctx c).reg with
      st := (t.ctx c).reg.st, geobound := (t.ctx c).reg.geobound, blockedAt := (t.ctx c).reg.blockedAt },
    sched := { (s.ctx c).sched with
      blockedStamp := (t.ctx c).sched.blockedStamp, runnableAt := (t.ctx c).sched.runnableAt } }
  others : ∀ d, d ≠ c → t.ctx d = s.ctx d
  rest : t = { s with ctxs := t.ctxs, env := { s.env with fetchStamp := t.env.fetchStamp } }

/-- Command q of context c has had its effect and waits for something else before it ends (R97, R159, R328, R395). -/
structure Acted (c q : Nat) (s t : State) : Prop where
  acted : ∃ m, getCmd s c q = some m ∧ getCmd t c q = some { m with phase := .acted }
  others : ∀ r, r ≠ q → getCmd t c r = getCmd s c r
  cmds : OnlyCmds c s t
  rest : t = { s with ctxs := t.ctxs }

/-- The data command i of command q of context c, whose entry is m: its opcode and its work, the reads, writes, bank
accesses, flags and counts that its rules give it. -/
def DataWork (c q : Nat) (s : State) (m : Cmd) (i : Instr) (op : Nat) (w : Work) : Prop :=
  (i = .matrixProduct c q ∧ op = 0x10 ∧ w = matrixWork s c m) ∨
  (i = .conv c q ∧ op = 0x12 ∧ convWork s c m = some w) ∨
  (i = .copy c q ∧ op = 0x20 ∧ w = copyWork s c m) ∨
  (i = .permutingCopy c q ∧ op = 0x21 ∧ permWork s c m = some w) ∨
  (i = .gather c q ∧ op = 0x22 ∧ w = gatherWork s c m) ∨
  (i = .scatter c q ∧ op = 0x23 ∧ w = scatterWork s c m) ∨
  (i = .eltwise c q ∧ op = 0x24 ∧ w = eltwiseWork s c m) ∨
  (i = .rowstat c q ∧ op = 0x25 ∧ w = rowstatWork s c m) ∨
  (i = .softmax c q ∧ op = 0x26 ∧ w = softmaxWork s c m) ∨
  (i = .pool c q ∧ op = 0x27 ∧ w = poolWork s c m) ∨
  (i = .resample c q ∧ op = 0x28 ∧ w = resampleWork s c m) ∨
  (i = .cropResize c q ∧ op = 0x29 ∧ w = cropWork s c m) ∨
  (i = .random c q ∧ op = 0x2A ∧ w = randomWork s c m) ∨
  (i = .strain c q ∧ op = 0x2B ∧ w = strainWork s c m)

end Sys2Proof.Machine
end

