-- ==== Sys2Proof/Certificates/Slice0/Obligations.lean ====
section
/-! DEFINITION. The statements about the S100 that are proved of this model. -/

open Sys2Proof Sys2Proof.Machine

/-- For every state and every command i at the front of its queue, step answers what exec answers for i in that state
with i taken off the queue. -/
def Obligations.StepRunsTheFrontCommand : Prop :=
  ∀ (s : State) (i : Instr) (r : List Instr), s.pending = i :: r → step s = exec i { s with pending := r }

/-- For every state whose queue is empty, step answers that same state. This is the model's own choice, DESIGN CHOICE
of log entry 3: the device's own events are commands too. -/
def Obligations.EmptyQueueIdles : Prop :=
  ∀ s : State, s.pending = [] → step s = .next s

/-- For every command i and state s there is a t with exec i s = next t; t has the queue of s; and each part of the
state (the fields of State but the queue, and host memory by itself) that touched i does not list is the same in t as
in s. The list is the frame of each of the 203 rows. -/
def Obligations.EveryCommandChangesOnlyItsParts : Prop :=
  ∀ (i : Instr) (s : State), ∃ t, exec i s = .next t ∧ t.pending = s.pending ∧ ∀ f, f ∉ touched i → f.Same s t

/-- State.reset holds every table and memory in its canonical form, and its meter's readings and audit trail fit
together. (That no reading is held at reset is the model's choice, log 1.) -/
def Obligations.ResetMeetsTheInvariants : Prop :=
  State.reset.Canonical ∧ MeterKept State.reset.meter ∧ State.reset.pending = []

/-- For every state whose tables (slabs, ports, tiles, banks, partitions, contexts, functions) and memories (tile
banks, HBM, host memory) are in canonical form (indices strictly rising, no entry equal to what an unlisted index
has), if step answers next t then t is in canonical form too. -/
def Obligations.StepKeepsCanonicalForm : Prop :=
  ∀ s t : State, s.Canonical → step s = .next t → t.Canonical

/-- For all states s and t with step s = next t: neither floor against old firmware or old Armatures falls, the last
numbers of the repair log and of the meter's readings do not fall, and the audit trail of s is the older part of that
of t. -/
def Obligations.StepTakesBackNothingThatLasts : Prop :=
  ∀ s t : State, step s = .next t → Lasting s t

/-- For every command i that is none of the meter's periodic tick, port request, mirror request, spacing end, power-
up, power-down, seal change, PERIOD write, port write and port read, exec i answers a next state with the same meter:
nothing the S100's other commands, resets and writes do can change a meter parameter, a record or the trail. -/
def Obligations.NothingOutsideTouchesTheMeter : Prop :=
  ∀ (i : Instr) (s t : State), exec i s = .next t → t.meter ≠ s.meter →
    (∃ m, i = .meterPeriodTick m) ∨ (∃ m, i = .mReadReq m) ∨ (∃ m, i = .mirrorRequest m) ∨
    (∃ m, i = .meterSpacingEnd m) ∨ (∃ m, i = .meterPowerUp m) ∨ (∃ m, i = .meterPowerDown m) ∨
    (∃ a b m, i = .sealChange a b m) ∨ (∃ v, i = .mPeriodWrite v) ∨ (∃ a d, i = .meterPortWrite a d) ∨
    ∃ n, i = .meterPortRead n

/-- In every state whose meter store is in order (the readings chained, the newest with the last number, the audit
trail numbered), a step gives a state whose store is in order again: CTR_START of each reading is CTR_END of the one
before, E_INTERVAL is the difference of the two E_TOTAL, PREV_DIGEST is the digest of the one before, and RSEQ is one
more. A step either keeps the readings held or adds one at the newest end, keeping the 8,192 most recent. -/
def Obligations.ReadingsFitTogether : Prop :=
  ∀ s t : State, MeterKept s.meter → step s = .next t → MeterKept t.meter ∧
    (t.meter.records = s.meter.records ∨ ∃ x, t.meter.records = (x :: s.meter.records).take 8192)

/-- For every source that is a VF or the management port, each command that writes a register the spec gives to the
operator alone answers next with the very state it found: array control, table slope, KV reserve and low-water mark,
LAB flush, window peak, bank owner, Patina and scrub control, link enable and retrain, coder reset, the mirror's
request, the power limit, warm reset, standby, partition reset and slab power-off. -/
def Obligations.OtherSourcesAreDropped : Prop :=
  ∀ (s : State) (src : Src), src = .i3c ∨ (∃ n, src = .vf n) → ∀ (n k : Nat) (v : BitVec 32) (en : Bool),
    exec (.arrayCtrlWrite src n v) s = .next s ∧ exec (.vtblSlopeWrite src n v) s = .next s ∧
    exec (.kvReserveWrite src n v) s = .next s ∧ exec (.kvClearMin src n) s = .next s ∧
    exec (.labFlush src n) s = .next s ∧ exec (.winClearPeak src) s = .next s ∧
    exec (.bankOwnWrite src n k v) s = .next s ∧ exec (.patinaCtrlWrite src n v) s = .next s ∧
    exec (.hbmScrubWrite src n v) s = .next s ∧ exec (.linkEnWrite src n en) s = .next s ∧
    exec (.linkRetrainWrite src n) s = .next s ∧ exec (.vcReset src n) s = .next s ∧
    exec (.mtrSnapReq src) s = .next s ∧ exec (.powerLimitWrite src v) s = .next s ∧ exec (.warm src) s = .next s ∧
    exec (.stby src) s = .next s ∧ exec (.preset src n) s = .next s ∧ exec (.pwrSlabOffWrite src k v) s = .next s

/-- For every context c, sequence number q and state s in which command q of c has issued and is a NOP (opcode 0x01),
exec of NOP answers a next state in which that command has ended with status OK and no detail words; no other command,
no other part of any context and no other part of the state changed, but the forms of the tiles the command holds.
Completes: NOP. -/
def Obligations.NopEndsOkAndTouchesNothing : Prop :=
  ∀ (c q : Nat) (s : State) (m : Cmd), running? s c q = some m → m.opcode = 0x01 →
    ∃ t, exec (.nop c q) s = .next t ∧ Finished c q .ok [] s t

/-- For a creating command that has issued (opcode 0x02, 0x04 or 0x05) and for which the checks at issue made an
object, the matching row answers a next state in which the handle of field 0x10 names that object, every other handle
is as it was, the command has ended OK, and nothing else of the context and of the state changed. Completes:
DESC_CREATE, EPI_CREATE, CONV_CREATE. -/
def Obligations.CreatingCommandsBindTheirHandle : Prop :=
  ∀ (c q : Nat) (s : State) (m : Cmd) (o : Obj) (i : Instr), running? s c q = some m → m.bound.newObj = some o →
    (i = .descCreate c q ∧ m.opcode = 0x02) ∨ (i = .epiCreate c q ∧ m.opcode = 0x04) ∨
      (i = .convCreate c q ∧ m.opcode = 0x05) →
    ∃ t, exec i s = .next t ∧
      (∀ h, aget (t.ctx c).handles h = if h = m.f 0x10 16 then some o else aget (s.ctx c).handles h) ∧
      Finished c q .ok [] (s.modCtx c fun x => { x with handles := (t.ctx c).handles }) t

/-- A DESC_DESTROY that has issued leaves the handle of field 0x10 unbound and every other handle as it was, and
waits. The release of a DESC_DESTROY, a REGION_FREE or a MODEL_UNLOAD that waits ends it OK with nothing else changed
once no earlier command of the context that is in flight names a handle that it unbound; while one does, the release
changes nothing. Completes: DESC_DESTROY, DESC_RELEASE. -/
def Obligations.DestroyUnbindsAndReleaseWaits : Prop :=
  ∀ (c q : Nat) (s : State) (m : Cmd),
    (running? s c q = some m → m.opcode = 0x03 → ∃ t, exec (.descDestroy c q) s = .next t ∧
      (∀ h, aget (t.ctx c).handles h = if h = m.f 0x10 16 then none else aget (s.ctx c).handles h) ∧
      Acted c q (s.modCtx c fun x => { x with handles := (t.ctx c).handles }) t) ∧
    (getCmd s c q = some m → m.phase = .acted → m.opcode ∈ [0x03, 0x53, 0x55] →
      if ∃ o ∈ m.bound.objs, ∃ e ∈ (s.ctx c).cmds, e.stamp < m.stamp ∧ (e.obj o.1).isSome then
        exec (.descRelease c q) s = .next s
      else ∃ t, exec (.descRelease c q) s = .next t ∧ Finished c q .ok [] s t)

/-- Let K(seed) be the output words, y0 lowest, of the Brew block under the key (0x62726577, 0x73746565, 0x70617469,
0x6E610000) at the counter (seed[31:0], seed[63:32], 0, 0). A BREW_SEED that has issued answers a next state in which
its context's key is K of field 0x18, the stream table is empty, the command has ended OK and nothing else changed. A
CTX_DEFINE that has issued answers a next state in which the context it defines has the key K(0). Completes:
BREW_SEED. -/
def Obligations.SeedsMakeTheKey : Prop :=
  ∀ (c q : Nat) (s : State) (m : Cmd), running? s c q = some m →
    let K (seed : BitVec 64) : BitVec 128 :=
      let y := brewBlock { x0 := 0x62726577, x1 := 0x73746565, x2 := 0x70617469, x3 := 0x6E610000 }
        { x0 := seed.extractLsb' 0 32, x1 := seed.extractLsb' 32 32, x2 := 0, x3 := 0 }
      y.x3 ++ y.x2 ++ y.x1 ++ y.x0
    (m.opcode = 0x48 → ∃ t, exec (.brewSeed c q) s = .next t ∧
      Finished c q .ok [] (s.modCtx c fun x => { x with key := K (BitVec.ofNat 64 (m.f 0x18 64)), streams := [] }) t) ∧
    (m.opcode = 0x50 → ∃ t, exec (.ctxDefine c q) s = .next t ∧ (t.ctx (m.f 0x10 16)).key = K 0)

/-- A BREW_STREAM that has issued answers a next state in which the command has ended OK and only its context's stream
table changed: with ACTION 0 the entry of STREAM holds the given NEXT and CBASE and is not exhausted, with ACTION 1 it
is gone, and every other entry is as it was; with ACTION 2 the table is empty. Completes: BREW_STREAM. -/
def Obligations.BrewStreamSetsOrDropsEntries : Prop :=
  ∀ (c q : Nat) (s : State) (m : Cmd), running? s c q = some m → m.opcode = 0x49 →
    ∃ t, exec (.brewStream c q) s = .next t ∧
      (∀ sid, aget (t.ctx c).streams sid =
        match m.fb 0x14 0 2 with
        | 0 => if sid = m.f 0x10 32 then
            some { next := w32 (m.f 0x18 32), cbase := BitVec.ofNat 64 (m.f 0x20 64), exhausted := false }
          else aget (s.ctx c).streams sid
        | 1 => if sid = m.f 0x10 32 then none else aget (s.ctx c).streams sid
        | _ => none) ∧
      Finished c q .ok [] (s.modCtx c fun x => { x with streams := (t.ctx c).streams }) t

/-- A CTX_DEFINE that has issued answers a next state in which the context of field 0x10 has the registers of a
context that has never been used, but for the state LOADED and the class, partition, function, slot, slice and quota
of its body (and its Brew key); its memory key is of a new generation; the command has ended OK and nothing else
changed. A CTX_UNDEFINE that has issued, of a context that does not swap, leaves that context as reset has it, ends
OK, and changes no other context. Completes: CTX_DEFINE, CTX_UNDEFINE. -/
def Obligations.ContextsAreDefinedAndUndefined : Prop :=
  ∀ (c q : Nat) (s : State) (m : Cmd), running? s c q = some m → m.f 0x10 16 ≠ c →
    (m.opcode = 0x50 → ∃ t, exec (.ctxDefine c q) s = .next t ∧
      t.ctx (m.f 0x10 16) = { Ctx.init (m.f 0x10 16) with
        reg := { CtxReg.init with
          st := .loaded, lc := m.fb 0x15 0 1 == 1, part := m.fb 0x14 0 5, func := m.f 0x12 8, slot := m.fb 0x13 0 6,
          slice := m.f 0x16 16, quota := w32 (m.f 0x18 32) },
        key := (t.ctx (m.f 0x10 16)).key } ∧
      (∀ j, aget t.hbm.keyGen j =
        if j = m.f 0x10 16 then some ((aget s.hbm.keyGen j).getD 0 + 1) else aget s.hbm.keyGen j) ∧
      Finished c q .ok [] { s.setCtx (m.f 0x10 16) (t.ctx (m.f 0x10 16)) with
        hbm := { s.hbm with keyGen := t.hbm.keyGen } } t) ∧
    (m.opcode = 0x51 → (s.ctx (m.f 0x10 16)).sched.swapping = .none → ∃ t, exec (.ctxUndefine c q) s = .next t ∧
      t.ctx (m.f 0x10 16) = Ctx.init (m.f 0x10 16) ∧ Ended t c q .ok [] ∧
      t.ctx c = { s.ctx c with cmds := (t.ctx c).cmds } ∧
      ∀ d, d ≠ m.f 0x10 16 → d ≠ c → t.ctx d = s.ctx d)

/-- A REGION_ALLOC that may act and whose fit check passes answers a next state in which its region id names a region:
in HBM with the lowest free allocation units, in host memory at the given address, or in the tile banks as the fit
check placed it. Where the fit check fails it ends E_NOFIT and changes nothing else. A REGION_FREE that may act
unbinds its region and exactly the handles of the context that name it, and no other region id. The first ends OK; so
does the other, but while an earlier command of the context in flight names one of those handles it waits, as a
DESC_DESTROY does (R97). No other context changes. Completes: REGION_ALLOC, REGION_FREE. -/
def Obligations.RegionsAreMadeAndFreed : Prop :=
  ∀ (c q : Nat) (s : State) (m : Cmd),
    (∀ e, ready? s c q 0x52 = some m → allocFit s c m = .error e →
      ∃ t, exec (.regionAlloc c q) s = .next t ∧ Finished c q .nofit (noFitRef e).dw s t) ∧
    (∀ made, ready? s c q 0x52 = some m → allocFit s c m = .ok made →
      ∃ t r, exec (.regionAlloc c q) s = .next t ∧ aget (t.ctx c).regions (m.f 0x10 16) = some r ∧
        (m.fb 0x12 0 2 = 0 → r.space = .hbm ∧ r.len = m.f 0x18 64 ∧
          r.units = takeUnits s (s.ctx c).reg.part (cdiv (m.f 0x18 64) allocBytes)) ∧
        (m.fb 0x12 0 2 = 1 → r.space = .host ∧ r.len = m.f 0x18 64 ∧ r.hostAddr = m.f 0x20 64) ∧
        (2 ≤ m.fb 0x12 0 2 → r = made.headD Region.empty) ∧
        (∀ i, i ≠ m.f 0x10 16 → aget (t.ctx c).regions i = aget (s.ctx c).regions i) ∧
        Ended t c q .ok [] ∧ (t.ctx c).handles = (s.ctx c).handles ∧ ∀ d, d ≠ c → t.ctx d = s.ctx d) ∧
    (ready? s c q 0x53 = some m → (getRegion s c (m.f 0x10 16)).isSome →
      ∃ t, exec (.regionFree c q) s = .next t ∧ aget (t.ctx c).regions (m.f 0x10 16) = none ∧
        (∀ i, i ≠ m.f 0x10 16 → (aget (t.ctx c).regions i).isSome = (aget (s.ctx c).regions i).isSome) ∧
        (t.ctx c).handles = (s.ctx c).handles.filter (fun h => !h.2.names (m.f 0x10 16)) ∧
        (if ∃ h ∈ (s.ctx c).handles, h.2.names (m.f 0x10 16) = true ∧
            ∃ e ∈ (s.ctx c).cmds, e.stamp < m.stamp ∧ (e.obj h.1).isSome then
          ∃ y, getCmd t c q = some y ∧ y.phase = .acted
        else Ended t c q .ok []) ∧ ∀ d, d ≠ c → t.ctx d = s.ctx d)

/-- A MODEL_LOAD that may act, whose image and data can be read and pass their checks and the fit check, answers a
next state in which its model id names the image's region ids with the lowest free units as weight store, and every
region of the image is bound; where the image or the fit check fails, it ends with that status and changes nothing
else. A MODEL_UNLOAD that may act unbinds the model and each of its regions, and no other model. The first ends OK; so
does the other, but while an earlier command of the context in flight names a handle on one of the regions it waits,
as a DESC_DESTROY does (R97). No other context changes. Completes: MODEL_LOAD, MODEL_UNLOAD. -/
def Obligations.ModelsAreLoadedAndUnloaded : Prop :=
  ∀ (c q : Nat) (s : State) (m : Cmd),
    (∀ r, ready? s c q 0x54 = some m → loadImage s c m = .error r →
      ∃ t, exec (.modelLoad c q) s = .next t ∧ Finished c q r.st r.dw s t) ∧
    (∀ v e, ready? s c q 0x54 = some m → loadImage s c m = .ok v → loadFit s c m v = .error e →
      ∃ t, exec (.modelLoad c q) s = .next t ∧ Finished c q .nofit (noFitRef e).dw s t) ∧
    (∀ v made, ready? s c q 0x54 = some m → loadImage s c m = .ok v → loadFit s c m v = .ok made →
      (∀ e ∈ plEntries v, hostRef s (s.ctx c).reg.func (m.f 0x18 64 + e.doff) e.bytes = none) →
      ∃ t, exec (.modelLoad c q) s = .next t ∧
        aget (t.ctx c).models (m.fb 0x10 0 6) = some
          { regions := (plEntries v).map PlEntry.rid, units := takeUnits s (s.ctx c).reg.part (storeUnits v) } ∧
        (∀ em ∈ (plEntries v).zip made, (aget (t.ctx c).regions em.1.rid).isSome) ∧
        Ended t c q .ok [] ∧ ∀ d, d ≠ c → t.ctx d = s.ctx d) ∧
    (∀ md, ready? s c q 0x55 = some m → aget (s.ctx c).models (m.fb 0x10 0 6) = some md →
      ∃ t, exec (.modelUnload c q) s = .next t ∧
        (∀ k, aget (t.ctx c).models k = if k = m.fb 0x10 0 6 then none else aget (s.ctx c).models k) ∧
        (∀ i ∈ md.regions, aget (t.ctx c).regions i = none) ∧
        (if ∃ h ∈ (s.ctx c).handles, (∃ i ∈ md.regions, h.2.names i = true) ∧
            ∃ e ∈ (s.ctx c).cmds, e.stamp < m.stamp ∧ (e.obj h.1).isSome then
          ∃ y, getCmd t c q = some y ∧ y.phase = .acted
        else Ended t c q .ok []) ∧ ∀ d, d ≠ c → t.ctx d = s.ctx d)

/-- A VEC_LOAD that has issued is accepted and waits. With no failover of the host link, when no command of its
partition is bound to the slot's inactive bank and no copy of slots runs, VEC_LOAD_SWITCH answers a next state. Where
its image can be read and passes its check, the command has ended OK and, on every member slab (of a partition whose
rectangle lies in the grid) and on no other, the slot's inactive bank of every tile is the image, that bank is the
active one and SLOT_LOADED is set; nothing else of any slab or tile changed. Where the image cannot be read it ends
with E_HOSTMEM, and where it fails its check with E_CMD, and changes nothing else. A write of VTBL_SLOPE by the
operator puts the staged value and the slope into the selected entry of the slot's active bank on every tile of the
slab, and the selection moves on to the next entry. Completes: VEC_LOAD, VEC_LOAD_SWITCH, VTBL_SLOPE_WRITE. -/
def Obligations.VectorSlotsAreLoadedAndWritten : Prop :=
  (∀ (c q : Nat) (s : State) (m : Cmd), running? s c q = some m → m.opcode = 0x06 →
    ∃ t, exec (.vecLoad c q) s = .next t ∧ Acted c q s t) ∧
  (∀ (c q : Nat) (s : State) (m : Cmd), getCmd s c q = some m → m.phase = .acted → m.opcode = 0x06 →
    s.pcie.phase = .idle →
    boundInactive s (s.ctx c).reg.part (m.fb 0x10 0 3) (s.slab (seqSlab s (s.ctx c).reg.part)).vec.active = false →
    slotCopyBusy s (s.ctx c).reg.part = false →
    let ws := (List.range 288).map fun i => ofBytes (hostRead s (s.ctx c).reg.func (m.f 0x18 64 + 8 * i) 8)
    let k := m.fb 0x10 0 3
    let ms := members s (s.ctx c).reg.part
    (hostFails s (s.ctx c).reg.func (m.f 0x18 64) 2304 = true → ∃ t fa, exec (.vecLoadSwitch c q) s = .next t ∧
      fa = hostFailAddr s (s.ctx c).reg.func (m.f 0x18 64) 2304 ∧
      Finished c q .hostmem [fa % 2 ^ 32, fa / 2 ^ 32] s t) ∧
    (∀ o, hostFails s (s.ctx c).reg.func (m.f 0x18 64) 2304 = false → imageFault (ws.take 32) = some o →
      ∃ t, exec (.vecLoadSwitch c q) s = .next t ∧ Finished c q .cmd (structRef .cmd 0xFFFF o).dw s t) ∧
    (hostFails s (s.ctx c).reg.func (m.f 0x18 64) 2304 = false → imageFault (ws.take 32) = none →
      (s.part (s.ctx c).reg.part).x0 + (s.part (s.ctx c).reg.part).w ≤ 10 →
      ∃ t, exec (.vecLoadSwitch c q) s = .next t ∧ Ended t c q .ok [] ∧
        (∀ n, t.slab n = if n ∈ ms then
          { s.slab n with vec := { (s.slab n).vec with
            active := (s.slab n).vec.active ^^^ BitVec.ofNat 8 (2 ^ k), events := (s.slab n).vec.events ||| 1 } }
          else s.slab n) ∧
        (∀ n ∈ ms, ∀ g ∈ slabTiles (posOf s n),
          let z := (s.tile2 g).slots
          t.tile2 g = { s.tile2 g with
            slots := if bit (s.slab n).vec.active.toNat k then { z with bank0 := z.bank0.set k (imageBank ws) }
              else { z with bank1 := z.bank1.set k (imageBank ws) } }) ∧
        ∀ g, (∀ n ∈ ms, g ∉ slabTiles (posOf s n)) → t.tile2 g = s.tile2 g)) ∧
  ∀ (src : Src) (n : Nat) (value : BitVec 32) (s : State), isOperator s src = true → coreLive s n = true →
    ∃ t, exec (.vtblSlopeWrite src n value) s = .next t ∧
      let v := (s.slab n).vec
      let k := bits v.vtblSel.toNat 8 3
      let e := bits v.vtblSel.toNat 0 8
      let put (b : List SlotBank) := b.set k { b.getD k .empty with table := aput (b.getD k .empty).table e (v.vtblVal, value) }
      (∀ g, let z := (s.tile2 g).slots
        t.tile2 g = if g ∈ slabTiles (posOf s n) then { s.tile2 g with
          slots := if bit v.active.toNat k then { z with bank1 := put z.bank1 } else { z with bank0 := put z.bank0 } }
        else s.tile2 g) ∧
      Posted ({ s with tiles2 := t.tiles2 }.modSlab n fun x => { x with vec := { v with
        vtblSlope := value, vtblSel := w32 (sh k 8 + (e + 1) % 256), events := v.events ||| 2 } }) t

/-- A write of ARRAY_CTRL by the operator to a slab whose core is live answers a next state whose ARRAY_CTRL has
RAMP_OFF, GANG2_EN and GANG4_EN as written, IDLE_GAP as written but 1 for 0, and RAMP_LEN the nearest value from 2 to
8; CTRL_CLAMPED is set exactly when a field was clamped, besides what the register held, and RAMP_DISABLED where
RAMP_OFF goes from 0 to 1. There, on a slab in service, a tile of the slab ramping up stands at 8/8 and one ramping
down at 0/8. No other slab changes. An ARRAY_SET that may act, at the command boundary of its partition, does the same
to every member slab it names and ends OK; before that boundary (log 47) it waits. Completes: ARRAY_CTRL_WRITE,
ARRAY_SET. -/
def Obligations.ArrayControlIsClamped : Prop :=
  (∀ (src : Src) (n : Nat) (v : BitVec 32) (s : State), isOperator s src = true → coreLive s n = true →
    ∃ t, exec (.arrayCtrlWrite src n v) s = .next t ∧
      (let w := (t.slab n).arrayCtrl.toNat
       bits w 31 1 = bits v.toNat 31 1 ∧ bits w 8 8 = max 1 (bits v.toNat 8 8) ∧ bits w 4 2 = bits v.toNat 4 2 ∧
        bits w 0 4 = min 8 (max 2 (bits v.toNat 0 4))) ∧
      (bit (t.slab n).arrayEvents.toNat 1 = (bit (s.slab n).arrayEvents.toNat 1 || bits v.toNat 8 8 == 0 ||
        decide (bits v.toNat 0 4 < 2 ∨ 8 < bits v.toNat 0 4))) ∧
      (bit (t.slab n).arrayEvents.toNat 0 = (bit (s.slab n).arrayEvents.toNat 0 ||
        (bit v.toNat 31 && !bit (s.slab n).arrayCtrl.toNat 31))) ∧
      (∀ k, k ≠ n → t.slab k = s.slab k) ∧
      (bit v.toNat 31 = true → bit (s.slab n).arrayCtrl.toNat 31 = false → inService s n = true →
        ∀ g ∈ slabTiles (posOf s n),
          ((s.tile g).dir = .up → (t.tile g).frac = 8 ∧ (t.tile g).dir = .steady) ∧
          ((s.tile g).dir = .down → (t.tile g).frac = 0 ∧ (t.tile g).dir = .steady))) ∧
  ∀ (c q : Nat) (s : State) (m : Cmd), ready? s c q 0x07 = some m →
    (atBoundary s (s.ctx c).reg.part m = false → exec (.arraySet c q) s = .next s) ∧
    (atBoundary s (s.ctx c).reg.part m = true →
      ∃ t, exec (.arraySet c q) s = .next t ∧ Ended t c q .ok [] ∧ ∀ n,
        if n ∈ arraySlabs s c m then
          let w := (t.slab n).arrayCtrl.toNat
          bits w 31 1 = m.fb 0x10 31 1 ∧ bits w 8 8 = max 1 (m.fb 0x10 8 8) ∧ bits w 4 2 = m.fb 0x10 4 2 ∧
            bits w 0 4 = min 8 (max 2 (m.fb 0x10 0 4))
        else t.slab n = s.slab n)

/-- On a device that runs, for a tile and all the tiles in lock step with it, whose south-west one, the lead, decides.
A ramp up that may start (a permitted period, and the lead at 0/8 or ramping down) puts each tile one eighth above the
lead with no credit, 8/8 at most, or at 8/8 with RAMP_OFF. A ramp down (the lead above zero, no ramp down running)
puts each one eighth below the lead, or at 0/8 with RAMP_OFF. The end of a phase takes all of them, where the lead
ramps up, from 8/8 to steady and else one eighth up, and where it ramps down, from 0/8 to steady and else one eighth
down. No other tile changes. Completes: RAMP_UP, RAMP_DOWN, RAMP_PHASE_END. -/
def Obligations.RampsMoveByEighths : Prop :=
  ∀ (g : Nat) (s : State), s.live = true →
    let lead := s.tile (rampLead s g)
    let Moves (t : State) (P : Tile → Prop) := t = { s with tiles := t.tiles, ctxs := t.ctxs } ∧
      ∀ h, if h ∈ lockStep s g then P (t.tile h) else t.tile h = s.tile h
    (∀ cut, tileGated s g = false → lead.dir = .down ∨ (lead.frac = 0 ∧ lead.dir = .steady) →
      ∃ t, exec (.rampUp g cut) s = .next t ∧ Moves t fun x => x.credit = 0 ∧
        if bit (tileCtrl s g) 31 then x.frac = 8 ∧ x.dir = .steady
        else x.frac = min 8 (lead.frac + 1) ∧ x.dir = .up) ∧
    (∀ cut, 0 < lead.frac → lead.dir ≠ .down →
      ∃ t, exec (.rampDown g cut) s = .next t ∧ Moves t fun x => x.credit = 0 ∧
        if bit (tileCtrl s g) 31 then x.frac = 0 ∧ x.dir = .steady
        else x.frac = lead.frac - 1 ∧ x.dir = .down) ∧
    ∀ cycles, lead.dir ≠ .steady → ∃ t, exec (.rampPhaseEnd g cycles) s = .next t ∧ Moves t fun x =>
      match lead.dir with
      | .steady => False
      | .up => if 8 ≤ lead.frac then x.frac = lead.frac ∧ x.dir = .steady else x.frac = lead.frac + 1 ∧ x.dir = .up
      | .down => if lead.frac = 0 then x.frac = 0 ∧ x.dir = .steady else x.frac = lead.frac - 1 ∧ x.dir = .down

/-- The end of a throttle period, on a device that runs, takes the slab's local cycle counter to the next multiple of
128. On a slab in service with a live core, at a position of a partition, the period i that begins there, counted in
groups of 16 from cycle 0, is permitted exactly when floor((i+1)q/16) > floor(iq/16) for q = min(16 − STEP, RATE_CAP,
thermal rate); in a gated one every array of the slab whose lead stands above 0/8 and does not ramp down already
starts to ramp down from the lead's fraction, and with RAMP_OFF stands at 0/8. No other slab and no fraction of
another slab's tile changes. The gangs are assumed to be whole: tiles in lock step name the same tiles. Completes:
THROTTLE_PERIOD. -/
def Obligations.ThrottlePeriodsGateTheArray : Prop :=
  ∀ (n : Nat) (acts : List TileAct) (s : State), s.live = true →
    let cycle := ((s.slab n).cycle.toNat / 128 + 1) * 128
    let on := coreLive s n && inService s n && (partOf s (posOf s n)).isSome
    (on = false →
      exec (.throttlePeriod n acts) s = .next (s.modSlab n fun x => { x with cycle := BitVec.ofNat 64 cycle })) ∧
    (on = true → (∀ g ∈ slabTiles (posOf s n), ∀ h ∈ lockStep s g, lockStep s h = lockStep s g) →
      ∃ t, exec (.throttlePeriod n acts) s = .next t ∧
        let q := min (16 - s.pkg.step) (min s.pkg.rateCap (s.slab n).thermalRate)
        let i := cycle / 128 % 16
        let ok := decide (i * q / 16 < (i + 1) * q / 16)
        t.slab n = { s.slab n with cycle := BitVec.ofNat 64 cycle, periodOk := ok } ∧
        (∀ k, k ≠ n → t.slab k = s.slab k) ∧
        ∀ g, let lead := s.tile (rampLead s g)
          if ok = false ∧ g ∈ slabTiles (posOf s n) ∧ 0 < lead.frac ∧ lead.dir ≠ .down then
            if bit (s.slab n).arrayCtrl.toNat 31 then (t.tile g).frac = 0 ∧ (t.tile g).dir = .steady
            else (t.tile g).frac = lead.frac - 1 ∧ (t.tile g).dir = .down
          else (t.tile g).frac = (s.tile g).frac ∧ (t.tile g).dir = (s.tile g).dir)

/-- On a device that runs. For a tile that a matrix command uses in form f, whose next stationary block has landed
where it is staged, a swap takes the block into the active sets: of a single tile the shadow set with the rows it
still lacked, and the shadow set is empty again; of a gang every tile's own 128 rows of the block. It counts one swap
and the load stalls before it, less those counted already, on each tile of the form, and each walk is one block on.
Until the block has landed nothing changes. A tile without work and with its array at 0/8 has its clocks gated.
Nothing else changes but what the block's words add in the accumulator memory of these tiles. Completes: SHADOW_SWAP,
TILE_CLOCK_GATE. -/
def Obligations.SwapsAndClockGatesAreLocal : Prop :=
  ∀ (g : Nat) (s : State), s.live = true →
    (∀ counted c m f j b before, tileCmd s g = some (c, m) → aget m.bound.forms g = some f →
      walkBlock (arrayJobs s c m f g) (walkOf s g c m.seq).blocks = some (j, b, before) →
      let w := walkOf s g c m.seq
      let have_ := (s.tile g).shadowRows
      (landed s c m.seq j b before g = false → exec (.shadowSwap g counted) s = .next s) ∧
      (landed s c m.seq j b before g = true → ∃ t, exec (.shadowSwap g counted) s = .next t ∧
        t = { s with tiles := t.tiles, tiles2 := t.tiles2 } ∧
        (∀ e, t.tile e = if e ∈ jobTiles f g then { s.tile e with
            swaps := (s.tile e).swaps + 1, shadowRows := (t.tile e).shadowRows,
            loadStall := (s.tile e).loadStall + BitVec.ofNat 64 (loadStalls f w.words - counted) }
          else s.tile e) ∧
        (∀ e, if e ∈ jobTiles f g then ∃ v, (t.tile2 e).walk = some v ∧ v.blocks = (walkOf s e c m.seq).blocks + 1
          else t.tile2 e = s.tile2 e) ∧
        (formG f = 1 → (t.tile g).shadowRows = 0 ∧ (t.tile2 g).shadow = [] ∧
          (t.tile2 g).active = ((loadRows w j b before have_ (128 - have_) g s).tile2 g).shadow) ∧
        (formG f ≠ 1 → ∀ i e, (jobTiles f g)[i]? = some e →
          let south := (jobTiles f g).getD (i % formG f) g
          (t.tile2 e).active = (List.range 128).foldl (fun a r => setRow j r
            (rowFrom s j b before south (i % formG f) (128 * (i / formG f) + r) (walkOf s south c m.seq)) a) []))) ∧
    ((∀ p, partOf s (g / 64) = some p → workAtTile s p g = false) → (s.tile g).frac = 0 →
      exec (.tileClockGate g) s = .next (s.modTile g fun x => { x with gated := true }))

/-- A write of POWER_LIMIT by the operator sets the value's nearest in 400 to 1900, with LIMIT_CLAMPED where it
differs. On a device that runs, a sample joins the last 100, and P_AVG shows their average in units of 10 W. An
average below the limit does nothing else; at or above the limit it sets LIMIT_UNREACHABLE and keeps the step where
every slab in service issues at 1/16 already, and otherwise takes one step more, up to 15, with CAP_ENGAGED where the
step left 0. POWER_RATE_RAISE takes one step less while the average is below 95 % of the limit, and else changes
nothing. (That the average is over the samples there are, while they are fewer than 100, is the model's choice, log
47.) Completes: POWER_LIMIT_WRITE, POWER_SAMPLE, POWER_RATE_RAISE. -/
def Obligations.PowerIsCapped : Prop :=
  (∀ (src : Src) (v : BitVec 32) (s : State), isOperatorAt s src = true →
    ∃ t, exec (.powerLimitWrite src v) s = .next t ∧
      let w := min 1900 (max 400 (v.toNat % 2 ^ 16))
      Posted { s with pkg := { s.pkg with
        powerLimit := BitVec.ofNat 16 w, events := if w = v.toNat % 2 ^ 16 then s.pkg.events else s.pkg.events ||| 2 } } t) ∧
  ∀ s : State, s.live = true →
    (∀ watts v12 v48 : Nat, ∃ t, exec (.powerSample watts v12 v48) s = .next t ∧
      let samples := (watts :: s.pkg.samples).take 100
      let floor := ∀ n, n < 100 → inService s n = true → issueRate s n = 1
      let high := 10 * s.pkg.powerLimit.toNat * samples.length ≤ samples.sum
      t.pkg = { s.pkg with
        samples := samples, pAvg := BitVec.ofNat 16 (min 65535 (samples.sum / (10 * samples.length))),
        step := t.pkg.step, events := t.pkg.events } ∧
      (¬ high → t.pkg.step = s.pkg.step ∧ t.pkg.events = s.pkg.events) ∧
      (high → floor → t.pkg.step = s.pkg.step ∧ t.pkg.events = s.pkg.events ||| 4) ∧
      (high → ¬ floor → t.pkg.step = min 15 (s.pkg.step + 1) ∧
        t.pkg.events = if s.pkg.step = 0 then s.pkg.events ||| 1 else s.pkg.events) ∧
      Posted { s with
        pkg := t.pkg, pkc := { s.pkc with v12 := min 65535 v12, v48 := min 65535 v48 },
        pkc2 := { s.pkc2 with sampled := true } } t) ∧
    exec .powerRateRaise s = .next { s with pkg := { s.pkg with
      step := if 100 * s.pkg.samples.sum < 950 * s.pkg.powerLimit.toNat * max 1 s.pkg.samples.length then s.pkg.step - 1
        else s.pkg.step } }

/-- For each of the data commands (products, INFUSION, convolution, copies, gather, scatter, element-wise, row
statistics, softmax, pooling, resampling, crop, random and strain) that has issued (R381) and is free to touch its
bytes (no hazard of R145, no clearing bank of R284, no failover of R369), and whose work reads, writes and accesses
only what it may (R264, R300, R354): the row ANSWERS A NEXT STATE in which every byte of every memory is what the
work's writes make of it, in order and each under its mask, and every other byte is as it was; the command has ended
OK with the work's detail words, flags and counts; besides that only the integrity records of written granules, the
forms of its tiles and the count of free values changed. INFUSION also fills the look-aside buffers. Completes:
MATRIX_PRODUCT, INFUSION, CONV, COPY, PERMUTING_COPY, GATHER, SCATTER, ELTWISE, ROWSTAT, SOFTMAX, POOL, RESAMPLE,
CROP_RESIZE, RANDOM, STRAIN. -/
def Obligations.DataCommandsDoTheirWork : Prop :=
  ∀ (c q : Nat) (s : State) (m : Cmd),
    let Free (w : Work) := accFail s c w.rd w.wrs w.accs = none
    (ready? s c q 0x10 = some m → Free (matrixWork s c m) →
      ∃ t, exec (.matrixProduct c q) s = .next t ∧ Worked (matrixWork s c m) c q s t) ∧
    (ready? s c q 0x11 = some m → Free (infusionWork s c m) →
      ∃ t, exec (.infusion c q) s = .next t ∧ Worked (infusionWork s c m) c q { s with slabs2 := t.slabs2 } t) ∧
    (∀ w, ready? s c q 0x12 = some m → convWork s c m = some w → Free w →
      ∃ t, exec (.conv c q) s = .next t ∧ Worked w c q s t) ∧
    (ready? s c q 0x20 = some m → Free (copyWork s c m) →
      ∃ t, exec (.copy c q) s = .next t ∧ Worked (copyWork s c m) c q s t) ∧
    (∀ w, ready? s c q 0x21 = some m → permWork s c m = some w → Free w →
      ∃ t, exec (.permutingCopy c q) s = .next t ∧ Worked w c q s t) ∧
    (ready? s c q 0x22 = some m → Free (gatherWork s c m) →
      ∃ t, exec (.gather c q) s = .next t ∧ Worked (gatherWork s c m) c q s t) ∧
    (ready? s c q 0x23 = some m → Free (scatterWork s c m) →
      ∃ t, exec (.scatter c q) s = .next t ∧ Worked (scatterWork s c m) c q s t) ∧
    (ready? s c q 0x24 = some m → Free (eltwiseWork s c m) →
      ∃ t, exec (.eltwise c q) s = .next t ∧ Worked (eltwiseWork s c m) c q s t) ∧
    (ready? s c q 0x25 = some m → Free (rowstatWork s c m) →
      ∃ t, exec (.rowstat c q) s = .next t ∧ Worked (rowstatWork s c m) c q s t) ∧
    (ready? s c q 0x26 = some m → Free (softmaxWork s c m) →
      ∃ t, exec (.softmax c q) s = .next t ∧ Worked (softmaxWork s c m) c q s t) ∧
    (ready? s c q 0x27 = some m → Free (poolWork s c m) →
      ∃ t, exec (.pool c q) s = .next t ∧ Worked (poolWork s c m) c q s t) ∧
    (ready? s c q 0x28 = some m → Free (resampleWork s c m) →
      ∃ t, exec (.resample c q) s = .next t ∧ Worked (resampleWork s c m) c q s t) ∧
    (ready? s c q 0x29 = some m → Free (cropWork s c m) →
      ∃ t, exec (.cropResize c q) s = .next t ∧ Worked (cropWork s c m) c q s t) ∧
    (ready? s c q 0x2A = some m → Free (randomWork s c m) →
      ∃ t, exec (.random c q) s = .next t ∧ Worked (randomWork s c m) c q s t) ∧
    (ready? s c q 0x2B = some m → Free (strainWork s c m) →
      ∃ t, exec (.strain c q) s = .next t ∧ Worked (strainWork s c m) c q s t)

/-- A data command (INFUSION among them) that has issued and one of whose accesses fails: where a bank refuses it, the
command ends with E_OWNER naming the tile and the bank, OWNER_REFUSED of the tile counts it, and no byte of bank, HBM
or host memory changes but by the event it posts; where a host access fails, it ends with E_HOSTMEM and the address
and changes nothing else; where an HBM read fails, its context, if it is one that can be lost, is LOST with reason 4
and has no command in flight. (That a failing command writes no byte at all is the model's choice, log 20.) -/
def Obligations.RefusedAccessesChangeNoByte : Prop :=
  ∀ (c q : Nat) (s : State) (m : Cmd) (i : Instr) (op : Nat) (w : Work) (x : AccFail), ready? s c q op = some m →
    DataWork c q s m i op w ∨ (i = .infusion c q ∧ op = 0x11 ∧ w = infusionWork s c m) →
    accFail s c w.rd w.wrs w.accs = some x →
    ∃ t, exec i s = .next t ∧
      match x with
      | .owner g k _ => Ended t c q .owner [g, k] ∧ t.bankMem = s.bankMem ∧ t.hbm = s.hbm ∧ OnlyCmds c s t ∧
          (t.tile2 g).ownerRefused = (s.tile2 g).ownerRefused + 1
      | .host a => Finished c q .hostmem [a % 2 ^ 32, a / 2 ^ 32] s t
      | .hbm _ _ => c ≠ 0 → (s.ctx c).reg.st ≠ .free → (s.ctx c).reg.st ≠ .lost →
          (t.ctx c).reg.st = .lost ∧ (t.ctx c).reg.lossReason = 4 ∧ (t.ctx c).cmds = []

/-- STAGING_FETCH_DONE of a matrix command (MATRIX_PRODUCT, INFUSION or CONV) that has issued and may act, for a tile
that it uses in form f, with the next step of the tile's walk and a free half of the staging space; the operands place
the whole step, its stationary blocks in order and its stream in 2 KiB chunks, inside the command's staging region,
and its reads and its bank writes are admitted. It answers a next state in which exactly these bytes have been written
into the tile's banks, the walk is one step on and holds where the step landed, and nothing else changed: no byte
outside the staging region's banks and its bytes of them, no other tile. The command itself goes on. Where the
operands place it otherwise, nothing changes. Completes: STAGING_FETCH_DONE. -/
def Obligations.StagingWritesOnlyItsRegion : Prop :=
  ∀ (c q g : Nat) (aAt bAt : List (Nat × Nat)) (s : State) (m : Cmd) (f : Nat) (j : AJob) (i before : Nat),
    running? s c q = some m → aget m.bound.forms g = some f → mustWait s c m = false →
    let js := arrayJobs s c m f g
    let w := walkOf s g c q
    let put := aAt.zip (j.stageA i g) ++ chunksAt 2048 bAt (j.stageB i g)
    let fits := (j.stageA i g).length = aAt.length ∧
      (j.stageB i g).length = ((chunksAt 2048 bAt (j.stageB i g)).map fun x => x.2.length).sum ∧
      put.all (chunkInside (stageOpd s c m)) = true
    walkStep js w.steps = some (j, i, before) → halfFree js w = true →
    (¬ fits → exec (.stagingFetchDone c q g aAt bAt) s = .next s) ∧
    (fits → accFail s c (stageReads s c m) [] (put.map fun x =>
        { g := g, k := x.1.1, tile := g, kind := .dma, wr := true, a := x.1.2 : BankAcc }) = none →
      ∃ t, exec (.stagingFetchDone c q g aAt bAt) s = .next t ∧
        t = { s with bankMem := t.bankMem, tiles2 := t.tiles2 } ∧
        t.bankMem = put.foldl (fun mem x => mwrite mem (bankKey g x.1.1 x.1.2) x.2) s.bankMem ∧
        (∀ e, t.tile2 e = if e = g then { s.tile2 g with walk := some { w with
          steps := w.steps + 1, held := { step := w.steps, a := aAt, b := bAt } :: w.held } } else s.tile2 e) ∧
        ∀ key, mget t.bankMem key ≠ mget s.bankMem key → ∃ k a, key = bankKey g k a ∧
          (stageOpd s c m).banks.contains k = true ∧ (stageOpd s c m).reg.off ≤ a ∧
          a < (stageOpd s c m).reg.off + (stageOpd s c m).reg.len)

/-- ALLREDUCE, REDUCE_SCATTER, ALLGATHER and BLEND, issued and free to act, once every other package has brought what
the next collective on its job takes (R333); until then nothing changes. The command's jobs send their packets (only
port counters and queues, the jobs' packet and collective counts and the count of free values change). Where the
figures of a peer's first packet or the size of its pieces differ, it ends E_PEER naming the port and the job of the
first such peer; where they agree and the sizes of R330 do not fit the number of members, E_PEER too; otherwise every
byte is what the work of the collective makes of it, over the pieces of all members in global order, and the command
ends OK. One that waits past COLL_TIMEOUT ends with E_LINK naming its first job, and its turn on each job is over.
Completes: ALLREDUCE, REDUCE_SCATTER, ALLGATHER, BLEND, COLL_TIMEOUT. -/
def Obligations.CollectivesCombineOrFail : Prop :=
  (∀ (c q : Nat) (peers : List CollPeer) (s : State) (m : Cmd) (i : Instr) (op : Nat), ready? s c q op = some m →
    (i = .allreduce c q peers ∧ op = 0x2C) ∨ (i = .reduceScatter c q peers ∧ op = 0x2D) ∨
      (i = .allgather c q peers ∧ op = 0x2E) ∨ (i = .blend c q peers ∧ op = 0x2F) →
    let a := m.opd s c (m.f 0x10 16)
    let d := m.opd s c (m.f 0x12 16)
    let due := peers.length = m.npkg - 1 ∧ ∀ x ∈ m.otherRanks.zip peers, peerDue s c m x.1 x.2 = true
    let u := forAll m.collJobs (fun j t => linkSend c j t) s
    let raws := memberRaws s m a peers
    let b := membersBelow m peers m.prank
    let off := collSizesOff op a d raws.length a.pieces.length b
    let w := collWork op s c m raws b
    let Peer (j : Nat) := ∃ t, exec i s = .next t ∧ Finished c q .peer [((getJob s c j).map Job.port).getD 0, j] u t
    u = { s with env := { s.env with free := u.env.free }, ports := u.ports, ports2 := u.ports2, ctxs := u.ctxs } ∧
    u.ctx c = { s.ctx c with jobs := (u.ctx c).jobs } ∧ (∀ e, e ≠ c → u.ctx e = s.ctx e) ∧
    (¬ due → exec i s = .next s) ∧
    (∀ j, due → collDiffers m a peers = some j → Peer j) ∧
    (due → collDiffers m a peers = none → off = true → Peer (m.collJobs.headD 0)) ∧
    (due → collDiffers m a peers = none → off = false → accFail u c w.rd w.wrs w.accs = none →
      ∃ t, exec i s = .next t ∧ Worked w c q u t)) ∧
  ∀ (c q : Nat) (s : State) (m : Cmd) (j : Nat) (r : List Nat), running? s c q = some m → m.collJobs = j :: r →
    ∃ t, exec (.collTimeout c q) s = .next t ∧
      (∀ i, getJob t c i = (getJob s c i).map fun x => { x with colls := x.colls + m.collJobs.count i }) ∧
      Finished c q .link [((getJob s c j).map Job.port).getD 0, j]
        (s.modCtx c fun y => { y with jobs := (t.ctx c).jobs }) t

/-- Each of the four, issued, free to act and with all its accesses admitted, answers a next state in which every byte
of every memory is as its work's writes make it and the command has ended OK, with KV_LEN, KV_NEW and KV_COW as detail
words for an append. Besides that: a create binds the id to a sequence of the named region, length 0 and the named
MAXTOK, heads and formats; an append adds its tokens to the length and counts the leaves copied; a fork sets the
child's length to PLEN; a truncation sets the length to NEWLEN, and changes nothing where it is that already. No other
sequence, no other part of its context than its region's mark, and no other context changed. Completes: KV_SEQ_CREATE,
KV_APPEND, KV_FORK, KV_TRUNCATE. -/
def Obligations.SequencesAreCreatedGrownForkedAndCut : Prop :=
  ∀ (c q : Nat) (s : State) (m : Cmd) (op : Nat), ready? s c q op = some m →
    let id := m.f 0x10 16
    let Done (i : Instr) (w : Work) (k : KvSeq → KvSeq) :=
      accFail s c w.rd w.wrs w.accs = none → ∃ t u, exec i s = .next t ∧ Worked w c q u t ∧
        u = { s with ctxs := u.ctxs, parts2 := u.parts2, slabs2 := u.slabs2 } ∧
        u.ctx c = { s.ctx c with seqs := (u.ctx c).seqs } ∧ (∀ d, d ≠ c → u.ctx d = s.ctx d) ∧
        ∀ j, getSeq u c j = if j = id then (getSeq s c j).map k else getSeq s c j
    (op = 0x40 → ∀ w, w = seqCreateWork s c m → accFail s c w.rd w.wrs w.accs = none →
      ∃ t u, exec (.kvSeqCreate c q) s = .next t ∧ Worked w c q u t ∧ u = { s with ctxs := u.ctxs } ∧
        (∀ d, d ≠ c → u.ctx d = s.ctx d) ∧
        u.ctx c = { s.ctx c with seqs := (u.ctx c).seqs, regions := (u.ctx c).regions } ∧
        ∀ j, getSeq u c j = if j = id then some {
            region := m.f 0x12 16, len := 0, maxTok := m.f 0x18 32, h := m.f 0x16 8, dcode := m.fb 0x17 1 1,
            kfmt := m.fb 0x17 0 1, nb := cdiv (m.f 0x18 32) (if m.fb 0x17 0 1 = 1 then 256 else 128) }
          else getSeq s c j) ∧
    (op = 0x41 → ∀ sq, getSeq s c id = some sq →
      Done (.kvAppend c q) (appendWork s c m sq) fun x => { x with len := sq.len + (m.opd s c (m.f 0x12 16)).size 2 }) ∧
    (op = 0x42 → ∀ ch pa, getSeq s c id = some ch → getSeq s c (m.f 0x12 16) = some pa →
      Done (.kvFork c q) (forkWork s c m ch pa) fun x => { x with len := m.f 0x18 32 }) ∧
    (op = 0x43 → ∀ sq, getSeq s c id = some sq →
      Done (.kvTruncate c q) (truncateWork s c sq (m.f 0x18 32)) fun x => { x with len := m.f 0x18 32 })

/-- A KV_SEQ_FREE that may act leaves its sequence unbound and every other sequence of the context, every handle,
model and region id as they were, and ends OK; no other context changes. A KV_RECLAIM that has issued while no command
of its target is in flight on the named sequence (or on any, for 0xFFFF) leaves it, or all of them, of the target
unbound and ends OK; no handle, model or region id of the target is lost, and no context but its own and the target's
changes. Completes: KV_SEQ_FREE, KV_RECLAIM. -/
def Obligations.SequencesAreFreedAndReclaimed : Prop :=
  ∀ (c q : Nat) (s : State) (m : Cmd),
    (ready? s c q 0x44 = some m → ∃ t, exec (.kvSeqFree c q) s = .next t ∧
      (∀ j, getSeq t c j = if j = m.f 0x10 16 then none else getSeq s c j) ∧
      (t.ctx c).handles = (s.ctx c).handles ∧ (t.ctx c).models = (s.ctx c).models ∧
      (∀ r, (aget (t.ctx c).regions r).isSome = (aget (s.ctx c).regions r).isSome) ∧
      Ended t c q .ok [] ∧ ∀ d, d ≠ c → t.ctx d = s.ctx d) ∧
    (running? s c q = some m → m.opcode = 0x45 →
      let e := m.f 0x12 16
      let ids := if m.f 0x10 16 = 0xFFFF then (s.ctx e).seqs.map Prod.fst else [m.f 0x10 16]
      (∀ j ∈ ids, ∀ x, getSeq s e j = some x → regionBusy s e x.region = false) →
      ∃ t, exec (.kvReclaim c q) s = .next t ∧ (∀ j, getSeq t e j = if j ∈ ids then none else getSeq s e j) ∧
        (t.ctx e).handles = (s.ctx e).handles ∧ (t.ctx e).models = (s.ctx e).models ∧
        (∀ r, (aget (t.ctx e).regions r).isSome = (aget (s.ctx e).regions r).isSome) ∧
        Ended t c q .ok [] ∧ ∀ d, d ≠ c → d ≠ e → t.ctx d = s.ctx d)

/-- A KV_SET that has issued sets the reserve of its partition to the smaller of RESERVE and L; a SCHED_SET sets
SCHED_CTRL to its value without reserved bits, with 1 for a wait of 0. Both end OK and change nothing else. Completes:
KV_SET, SCHED_SET. -/
def Obligations.BasicControlsSetPartitionRegisters : Prop :=
  ∀ (c q : Nat) (s : State) (m : Cmd), running? s c q = some m →
    (m.opcode = 0x46 → ∃ t, exec (.kvSet c q) s = .next t ∧ Finished c q .ok []
      (s.modPart (s.ctx c).reg.part fun p => { p with kvReserve := BitVec.ofNat 24 (min (m.fb 0x18 0 24) p.leaves) }) t) ∧
    (m.opcode = 0x5B → ∃ t, exec (.schedSet c q) s = .next t ∧ Finished c q .ok []
      (s.modPart (s.ctx c).reg.part fun p => { p with
        schedCtrl := w32 (2 ^ 31 * m.fb 0x10 31 1 + max 1 (m.f 0x10 16)) }) t)

/-- From the operator (the PF or the test port): KV_RESERVE of a defined partition takes the smaller of the value and
L, with RESERVE_CLAMPED where it was cut; KV_CLEAR sets the low-water mark to the free leaves; LAB_FLUSH empties a
slab's look-aside buffer; WIN_CLEAR sets the peak to the commands in flight; PATINA_CTRL and HBM_SCRUB take their
enable bit and their interval, 1 for 0. AQ_CLEAR of a page clears the counters of that page's context. Each answers
the state with that one change. Completes: KV_RESERVE_WRITE, KV_CLEAR_MIN, LAB_FLUSH, WIN_CLEAR_PEAK,
PATINA_CTRL_WRITE, HBM_SCRUB_WRITE, AQ_CLEAR. -/
def Obligations.OperatorWritesTakeEffectAtOnce : Prop :=
  ∀ (s : State) (src : Src),
    (isOperator s src = true →
      (∀ p v, (s.part p).defd = true → ∃ t, exec (.kvReserveWrite src p v) s = .next t ∧
        let u := s.modPart p fun x => { x with kvReserve := BitVec.ofNat 24 (min (bits v.toNat 0 24) x.leaves) }
        Posted (if (s.part p).leaves < bits v.toNat 0 24 then
          u.modPart2 p fun x => { x with kvEvents := x.kvEvents ||| 8 } else u) t) ∧
      (∀ p, (s.part p).defd = true → exec (.kvClearMin src p) s = .next (s.modPart p fun x => { x with
        kvFreeMin := BitVec.ofNat 24 (x.leaves - (s.part2 p).leafTab.length) })) ∧
      (∀ n, n < 100 → (s.slab n).st ≠ .retired →
        exec (.labFlush src n) s = .next (s.modSlab2 n fun x => { x with lab := [] })) ∧
      exec (.winClearPeak src) s = .next { s with winPeak := winUsed s } ∧
      (∀ n v, coreLive s n = true → exec (.patinaCtrlWrite src n v) s = .next (s.modSlab2 n fun x => { x with
        patinaCtrl := w32 (2 ^ 31 * bits v.toNat 31 1 + max 1 (bits v.toNat 0 16)) })) ∧
      (∀ n v, (Config.slabStack n).isSome = true → (s.slab n).st ≠ .retired →
        exec (.hbmScrubWrite src n v) s = .next (s.modSlab2 n fun x => { x with hbm := { x.hbm with
          scrub := w32 (2 ^ 31 * bits v.toNat 31 1 + max 1 (bits v.toNat 0 16)) } }))) ∧
    (∀ page c, pageWrite s src page = some c →
      exec (.aqClear src page) s = .next (s.modCtx c fun x => { x with aq := .init }))

/-- For the context c that a doorbell page names to a function. A SQ_TAIL below the ring's size, to an enabled ring
that answers doorbells, becomes the tail, and the host's writes before it are visible; a CQ_HEAD below the size and
within the unread records becomes the head and changes nothing else. Every other value is dropped and sets DB_INVALID.
A page without a context has no ring, and a write there changes nothing but the host's own memory. Completes: SQ_TAIL,
CQ_HEAD. -/
def Obligations.DoorbellsMoveTheirIndex : Prop :=
  ∀ (src : Src) (page : Nat) (v : BitVec 32) (cells : List (Nat × BitVec 8)) (s : State),
    let u := { s with env := { s.env with hostMem := mwriteAll s.env.hostMem cells } }
    let k := v.toNat % 2 ^ 16
    (∀ c, doorbellCtx s src page = some c →
      let x := s.ctx c
      let live := x.ring.st = .enabled ∧ x.ring.dead = false ∧ x.reg.st ≠ .lost
      let n := 2 ^ x.ring.cqLog2.toNat
      let within := k < n ∧ (k + n - x.ring.cqHead) % n ≤ (x.ring.cqTail + n - x.ring.cqHead) % n
      (live → k < 2 ^ x.ring.sqLog2.toNat → ∃ t, exec (.sqTail src page v cells) s = .next t ∧
        Refreshed c (u.modCtx c fun x => { x with ring := { x.ring with sqTail := k } }) t) ∧
      (¬ (live ∧ k < 2 ^ x.ring.sqLog2.toNat) → ∃ t, exec (.sqTail src page v cells) s = .next t ∧
        Posted (u.modCtx c fun x => { x with irq := { x.irq with events := x.irq.events ||| 4 } }) t) ∧
      (live → within → exec (.cqHead src page v) s =
        .next (s.modCtx c fun x => { x with ring := { x.ring with cqHead := k } })) ∧
      (¬ (live ∧ within) → ∃ t, exec (.cqHead src page v) s = .next t ∧
        Posted (s.modCtx c fun x => { x with irq := { x.irq with events := x.irq.events ||| 4 } }) t)) ∧
    (doorbellCtx s src page = none →
      exec (.sqTail src page v cells) s = .next u ∧ exec (.cqHead src page v) s = .next s)

/-- An ENTRY_FETCH of one entry, where its context may fetch. Where the 64 bytes at the head's slot can be read, they
become the last command of the context's window with the number SEQ_NEXT, not issued (or ended E_ABORTED, under a
flush), and SEQ_NEXT and the head advance by one. Where they cannot, the command ends with E_HOSTMEM, naming the
address, and keeps its number and its slot for the next fetch. A fetch of n entries adds at most min(n, 64) and takes
nothing out of the window; a context that may not fetch gets none. No other context changes. Completes:
ENTRY_FETCH. -/
def Obligations.EntriesTakeTheNextNumber : Prop :=
  ∀ (c n : Nat) (s : State), ∃ t, exec (.entryFetch c n) s = .next t ∧ (∀ d, d ≠ c → t.ctx d = s.ctx d) ∧
    (s.ctx c).cmds <+: (t.ctx c).cmds ∧ (t.ctx c).cmds.length ≤ (s.ctx c).cmds.length + min n 64 ∧
    (mayFetch s c = false → Refreshed c s t) ∧
    (mayFetch s c = true → n = 1 →
      let r := (s.ctx c).ring
      let a := r.sqBase.toNat + 64 * r.sqHead
      let f := (s.ctx c).reg.func
      ∃ m, (t.ctx c).cmds = (s.ctx c).cmds ++ [m] ∧ m.seq = r.seqNext.toNat ∧ m.issued = false ∧
        if hostFails s f a 64 then
          let fa := hostFailAddr s f a 64
          m.phase = .done ∧ m.status = Status.hostmem.code ∧ m.dw = [w32 fa, w32 (fa / 2 ^ 32)] ∧
            (t.ctx c).ring = { r with refetch := some r.seqNext.toNat }
        else
          m.entry = BitVec.ofNat 512 (ofBytes (hostRead s f a 64)) ∧
          (if r.flushLeft = 0 then m.phase = .fetched else m.phase = .done ∧ m.status = Status.aborted.code) ∧
          (t.ctx c).ring = { r with
            seqNext := r.seqNext + 1, refetch := none, sqHead := (r.sqHead + 1) % 2 ^ r.sqLog2.toNat,
            flushLeft := r.flushLeft - 1 })

/-- For a finished command whose ring has room for its record, with no failover of the host link. Where the slot at
CQ_TAIL can be written, CQ_TAIL moves to the next slot, the phase turns where it wraps, the command leaves the window,
its arithmetic counts are added and CMDS counts it. Of a command that is no failure the slot then holds, byte by byte,
STATUS, OPCODE, AFLAGS, SEQ, TAG, the four detail words, and PHASE with the context; of a failure, HALTS gets its
number and status, and the ring is HALTED. Where the slot cannot be written the ring halts for good: CQ_TAIL stays,
HOSTMEM is set, and the entries that have not issued leave the window; such a ring writes no more records. No other
context changes. During a failover the record is held for the link's return and nothing else changes. A command that
has not finished, or for whose record there is no room, stays as it is. Completes: COMMAND_COMPLETE. -/
def Obligations.RecordsReportFinishedCommands : Prop :=
  ∀ (c q : Nat) (s : State) (m : Cmd), getCmd s c q = some m →
    (m.phase = .done → recordRoom s c = true → s.pcie.phase = .idle → ∃ t, exec (.commandComplete c q) s = .next t ∧
      (∀ d, d ≠ c → t.ctx d = s.ctx d) ∧ (t.ctx c).aq = (s.ctx c).aq.add m.aq ∧
      let r := (s.ctx c).ring
      let f := (s.ctx c).reg.func
      let a := r.cqBase.toNat + 32 * r.cqTail
      let next := (r.cqTail + 1) % 2 ^ r.cqLog2.toNat
      let halting := decide (0x0100 ≤ m.status) && m.status != 0x0116
      if r.dead then (t.ctx c).cmds = (s.ctx c).cmds.filter (fun e => e.seq != q) ∧ (t.ctx c).ring = r
      else if hostFails s f a 32 then
        (t.ctx c).ring = { r with dead := true } ∧
        (t.ctx c).cmds = (s.ctx c).cmds.filter (fun e => e.seq != q && e.phase != .fetched) ∧
        (t.ctx c).irq.events = (s.ctx c).irq.events ||| 1
      else
        (t.ctx c).cmds = (s.ctx c).cmds.filter (fun e => e.seq != q) ∧
        (t.ctx c).prof = { (s.ctx c).prof with cmds := (s.ctx c).prof.cmds + 1 } ∧
        (t.ctx c).ring = { r with
          cqTail := next, cqPhase := if next = 0 then !r.cqPhase else r.cqPhase,
          halts := if halting then r.halts ++ [(q, m.status)] else r.halts,
          haltPosted := (t.ctx c).ring.haltPosted } ∧
        (halting = false → hostRead t f a 32 =
          toBytes 2 m.status ++ toBytes 1 m.opcode ++ toBytes 1 m.aflags.toNat ++ toBytes 4 q ++ toBytes 4 m.tag ++
            toBytes 4 (m.dw.getD 0 0).toNat ++ toBytes 4 (m.dw.getD 1 0).toNat ++ toBytes 4 (m.dw.getD 2 0).toNat ++
            toBytes 4 (m.dw.getD 3 0).toNat ++ toBytes 4 (2 ^ 31 * (if r.cqPhase then 1 else 0) + c))) ∧
    (m.phase = .done → recordRoom s c = true → s.pcie.phase ≠ .idle →
      exec (.commandComplete c q) s = .next { s with pcie := { s.pcie with
        recHeld := if (c, q) ∈ s.pcie.recHeld then s.pcie.recHeld else s.pcie.recHeld ++ [(c, q)] } }) ∧
    (¬ (m.phase = .done ∧ recordRoom s c = true) → exec (.commandComplete c q) s = .next s)

/-- A write of EN to a context page that reaches context c. A ring whose record writes have failed takes neither value
and drains no more. Of any other: EN = 1 on a DISABLED ring whose bases are multiples of 4 KiB and whose sizes lie
from 6 to 16 starts it with SQ_HEAD, the tail, CQ_TAIL and SEQ_NEXT at 0 and phase 1; a bad base or size leaves it
disabled and sets CFG_INVALID; on an enabled ring the write does nothing; on a DRAINING one it is dropped and sets
CFG_DROPPED. EN = 0 puts an enabled ring in DRAINING and ends every entry that has not issued with E_ABORTED, and does
nothing otherwise. A DRAINING ring with nothing in flight enters DISABLED. Completes: RING_ENABLE, RING_DISABLE,
RING_DRAINED. -/
def Obligations.RingsStartDrainAndStop : Prop :=
  (∀ (src : Src) (page c : Nat) (s : State), pageWrite s src page = some c →
    let r := (s.ctx c).ring
    let fits (base : BitVec 64) (log2 : BitVec 5) := base.toNat % 4096 = 0 ∧ 6 ≤ log2.toNat ∧ log2.toNat ≤ 16
    let flag (m : BitVec 32) := s.modCtx c fun x => { x with irq := { x.irq with events := x.irq.events ||| m } }
    (r.dead = true → exec (.ringEnable src page) s = .next s ∧ exec (.ringDisable src page) s = .next s) ∧
    (r.st = .enabled → exec (.ringEnable src page) s = .next s) ∧
    (r.dead = false → r.st = .draining → ∃ t, exec (.ringEnable src page) s = .next t ∧ Posted (flag 8) t) ∧
    (r.dead = false → r.st = .disabled → ¬ (fits r.sqBase r.sqLog2 ∧ fits r.cqBase r.cqLog2) →
      ∃ t, exec (.ringEnable src page) s = .next t ∧ Posted (flag 16) t) ∧
    (r.dead = false → r.st = .disabled → fits r.sqBase r.sqLog2 → fits r.cqBase r.cqLog2 →
      ∃ t, exec (.ringEnable src page) s = .next t ∧ Refreshed c (s.modCtx c fun x => { x with
        ring := { x.ring with
          st := .enabled, halts := [], haltPosted := false, sqHead := 0, sqTail := 0, cqTail := 0, cqPhase := true,
          cqHead := 0, seqNext := 0, refetch := none, flushLeft := 0 },
        irq := { x.irq with unsig := 0 } }) t) ∧
    (r.st ≠ .enabled → exec (.ringDisable src page) s = .next s) ∧
    (r.dead = false → r.st = .enabled → ∃ t, exec (.ringDisable src page) s = .next t ∧ Refreshed c (s.modCtx c fun x => { x with
      ring := { x.ring with st := .draining, refetch := none, flushLeft := 0 },
      cmds := x.cmds.map fun m =>
        if m.phase = .fetched then { m with phase := .done, status := Status.aborted.code } else m }) t)) ∧
  ∀ (c : Nat) (s : State),
    if (s.ctx c).ring.st = .draining ∧ (s.ctx c).ring.dead = false ∧ (s.ctx c).cmds = [] then
      ∃ t, exec (.ringDrained c) s = .next t ∧
        Refreshed c (s.modCtx c fun x => { x with ring := { x.ring with st := .disabled } }) t
    else exec (.ringDrained c) s = .next s

/-- A write of RING_ACK that reaches context c. On a HALTED ring whose records can still be written, CONTINUE
acknowledges every failure record, and FLUSH does so too and ends every entry that has not issued with E_ABORTED, up
to the tail known now. On any other ring an acknowledgement is dropped and sets ACK_IGNORED. Completes:
RING_ACK_CONTINUE, RING_ACK_FLUSH. -/
def Obligations.AcknowledgementsReleaseHaltedRings : Prop :=
  ∀ (src : Src) (page c : Nat) (s : State), src ≠ .i3c → pageCtx s src page = some c →
    let x := s.ctx c
    let n := 2 ^ x.ring.sqLog2.toNat
    let halted := x.ring.st = .enabled ∧ x.reg.st ≠ .blockedKv ∧ x.ring.halts ≠ [] ∧ x.ring.dead = false ∧ x.reg.st ≠ .lost
    (halted →
      (∃ t, exec (.ringAckContinue src page) s = .next t ∧ Refreshed c (s.modCtx c fun x => { x with
        ring := { x.ring with halts := [], haltPosted := false } }) t) ∧
      ∃ t, exec (.ringAckFlush src page) s = .next t ∧ Refreshed c (s.modCtx c fun x => { x with
        ring := { x.ring with
          halts := [], haltPosted := false, flushLeft := (x.ring.sqTail + n - x.ring.sqHead) % n },
        cmds := x.cmds.map fun m =>
          if m.phase = .fetched then { m with phase := .done, status := Status.aborted.code } else m }) t) ∧
    (¬ halted → ∀ i, i = .ringAckContinue src page ∨ i = .ringAckFlush src page → ∃ t, exec i s = .next t ∧
      Posted (s.modCtx c fun x => { x with irq := { x.irq with events := x.irq.events ||| 2 } }) t)

/-- The coalescing time of a ring, with the interrupt enabled and records unsignalled, sends the ring's vector and
starts the count again: 1 + c for a completion ring of the PF, 1 + the local slot for a VF's, 0 for an event ring. A
vector that is signalled is sent as an MSI-X message, or stays pending while it is masked, or is held during a
failover, or is lost with the host link. Otherwise nothing happens. Completes: CQ_IRQ_TIMEOUT. -/
def Obligations.CoalescingTimeSendsTheVector : Prop :=
  ∀ (s : State),
    let Signalled (f v : Nat) (t : State) :=
      if s.pcie.phase ≠ .idle then (f, v) ∈ t.pcie.msiHeld ∧ t.env.msis = s.env.msis
      else if s.pcie.linkDown = true then t.pcie = s.pcie ∧ t.env.msis = s.env.msis ∧ (t.fn f).pba = (s.fn f).pba
      else if ((s.fn f).vec v).masked then v ∈ (t.fn f).pba ∧ t.env.msis = s.env.msis
      else t.env.msis = s.env.msis ++ [(f, v)]
    (∀ c, let x := s.ctx c
      if x.irq.en = true ∧ 0 < x.irq.unsig ∧ x.ring.dead = false then
        ∃ t, exec (.cqIrqTimeout (.cq c)) s = .next t ∧
          Signalled x.reg.func (if x.reg.func = 0 then 1 + c else 1 + x.reg.slot) t ∧
          Posted (s.modCtx c fun x => { x with irq := { x.irq with unsig := 0 } }) t
      else exec (.cqIrqTimeout (.cq c)) s = .next s) ∧
    ∀ f, if (s.fn f).irq.en = true ∧ 0 < (s.fn f).irq.unsig then
        ∃ t, exec (.cqIrqTimeout (.evq f)) s = .next t ∧ Signalled f 0 t ∧ Posted s t ∧
          (t.fn f).irq = { (s.fn f).irq with unsig := 0 }
      else exec (.cqIrqTimeout (.evq f)) s = .next s

/-- A write of EN to a function block from its own function (or the test port at the PF's). With a base that is a
multiple of 4 KiB and a size from 6 to 16 it enables the event ring with head, tail and ESEQ at 0 and phase 1; with
events lost before, the first record is an OVERFLOW that counts them; where its slot cannot be written, HOSTMEM is
set. A bad base or size leaves it disabled with CFG_INVALID set; on an enabled ring the write does nothing. An
EVQ_HEAD within the unread records of an enabled ring becomes the head, and with events lost and none unread the next
record written is the OVERFLOW; during a failover no record is written (log 53). Any other value is dropped with
DB_INVALID set. Completes: EVQ_ENABLE, EVQ_HEAD. -/
def Obligations.EventRingsStartAndFreeTheirSlots : Prop :=
  ∀ (src : Src) (f : Nat) (v : BitVec 32) (s : State), fnWrite s src f = true →
    let x := s.fn f
    let n := 2 ^ x.log2.toNat
    let k := v.toNat % 2 ^ 16
    let fits := x.base.toNat % 4096 = 0 ∧ 6 ≤ x.log2.toNat ∧ x.log2.toNat ≤ 16
    let within := x.en = true ∧ k < n ∧ (k + n - x.head) % n ≤ (x.tail + n - x.head) % n
    let fresh : Fn := { x with
      en := true, head := 0, tail := 0, phase := true, eseq := 0, irq := { x.irq with unsig := 0 } }
    (x.en = true → exec (.evqEnable src f) s = .next s) ∧
    (x.en = false → ¬ fits → ∃ t, exec (.evqEnable src f) s = .next t ∧
      Posted (s.modFn f fun y => { y with irq := { y.irq with events := y.irq.events ||| 2 } }) t) ∧
    (x.en = false → fits → x.owed = 0 → exec (.evqEnable src f) s = .next (s.setFn f fresh)) ∧
    (x.en = false → fits → s.pcie.phase ≠ .idle → exec (.evqEnable src f) s = .next (s.setFn f fresh)) ∧
    (x.en = false → fits → 0 < x.owed → s.pcie.phase = .idle → hostFails s f x.base.toNat 32 = true →
      ∃ t, exec (.evqEnable src f) s = .next t ∧ Posted s t ∧ bit (t.fn f).irq.events.toNat 4 = true) ∧
    (x.en = false → fits → 0 < x.owed → s.pcie.phase = .idle → hostFails s f x.base.toNat 32 = false →
      ∃ t, exec (.evqEnable src f) s = .next t ∧ Posted s t ∧
        hostRead t f x.base.toNat 32 = eventRec 0x0007 0xFF 0 0xFFFF [x.owed] true ∧
        (t.fn f).tail = 1 ∧ (t.fn f).eseq = 1 ∧ (t.fn f).en = true) ∧
    (within → x.owed = 0 → exec (.evqHead src f v) s = .next (s.modFn f fun y => { y with head := k })) ∧
    (within → s.pcie.phase ≠ .idle → exec (.evqHead src f v) s = .next (s.modFn f fun y => { y with head := k })) ∧
    (within → 0 < x.owed → k = x.tail → 1 < n → s.pcie.phase = .idle → hostFails s f (x.base.toNat + 32 * x.tail) 32 = false →
      ∃ t, exec (.evqHead src f v) s = .next t ∧ Posted s t ∧ (t.fn f).head = k ∧
        hostRead t f (x.base.toNat + 32 * x.tail) 32 = eventRec 0x0007 0xFF x.eseq.toNat 0xFFFF [x.owed] x.phase) ∧
    (¬ within → ∃ t, exec (.evqHead src f v) s = .next t ∧
      Posted (s.modFn f fun y => { y with irq := { y.irq with events := y.irq.events ||| 8 } }) t)

/-- On a live device. While the host link carries requests, a configuration dword that the host writes is held and
mirrored to the standby; VF Enable of 1 to 31 VFs opens them; an MSI-X entry that the function's table has is held,
and unmasking a vector that is pending makes it no longer pending. The operator's FAILOVER, and a fault of the active
controller, hold outbound requests while the standby is good; the switch then puts slab 50 in charge with the mirrored
configuration. The link's return ends the failover, shows rate and width and counts it, with DEGRADED where they are
below the highest, and writes and signals what was held: nothing is held any more, and only host memory, the messages
sent, the rings of contexts and functions changed besides. With no standby, a fault of the active controller takes the
host link and asks for a replacement, and where the link is lost already changes nothing. The loss of a good standby
clears STANDBY_OK, sets STANDBY_LOST and asks for one. Which vectors and configuration words there are is the family's
layout (log 16). Completes: PCIE_CONFIG_WRITE, PCIE_FAILOVER, FAILOVER_SWITCH, FAILOVER_LINK_UP, STANDBY_LOST. -/
def Obligations.TheHostLinkFailsOver : Prop :=
  ∀ s : State, s.live = true →
    (linkServes s = true →
      (∀ f o v, ∃ t, exec (.pcieConfigWrite f (.dword o v)) s = .next t ∧
        (∀ k, aget t.pcie.cfg k = if k = f * 4096 + o % 4096 then some v else aget s.pcie.cfg k) ∧
        (∀ k, aget t.pcie.cfgMirror k = if k = f * 4096 + o % 4096 then some v else aget s.pcie.cfgMirror k) ∧
        t = { s with pcie := { s.pcie with cfg := t.pcie.cfg, cfgMirror := t.pcie.cfgMirror } }) ∧
      (∀ n, 1 ≤ n → n ≤ 31 →
        exec (.pcieConfigWrite 0 (.vfEnable n)) s = .next { s with pcie := { s.pcie with vfs := n } }) ∧
      ∀ f v a d m, v < (if f = 0 then 1025 else 65) → ∃ t, exec (.pcieConfigWrite f (.msix v a d m)) s = .next t ∧
        (∀ k, aget (t.fn f).msix k = if k = v then some { addr := a, data := d, masked := m } else aget (s.fn f).msix k) ∧
        (m = false → v ∉ (t.fn f).pba) ∧ Posted s t) ∧
    (s.pcie.phase = .idle → s.pcie.standbyOk = true →
      exec (.pcieFailover .operator) s = .next { s with pcie := { s.pcie with phase := .held, trigger := 2 } } ∧
      exec (.pcieFailover .controllerFault) s = .next { s with pcie := { s.pcie with phase := .held, trigger := 1 } } ∧
      (s.pcie.activeSlab = 40 → (s.slab 40).st = .retired →
        exec (.pcieFailover .retirement) s = .next { s with pcie := { s.pcie with phase := .held, trigger := 0 } })) ∧
    (s.pcie.standbyOk = false → exec (.pcieFailover .operator) s = .next s) ∧
    (s.pcie.phase ≠ .held → s.pcie.standbyOk = false →
      (s.pcie.linkDown = true → exec (.pcieFailover .controllerFault) s = .next s) ∧
      (s.pcie.linkDown = false → ∃ t, exec (.pcieFailover .controllerFault) s = .next t ∧
        t.pcie.linkDown = true ∧ t.pcie.speed = 0 ∧ t.pcie.width = 0 ∧ bit t.arm.replaceReq.toNat 4 = true)) ∧
    (s.pcie.phase = .held → exec .failoverSwitch s = .next { s with pcie := { s.pcie with
      phase := .switched, activeSlab := 50, standbyOk := false, speed := 0, width := 0, cfg := s.pcie.cfgMirror } }) ∧
    (∀ speed width, s.pcie.phase = .switched → ∃ t, exec (.failoverLinkUp speed width) s = .next t ∧
      let u := { s with pcie := { s.pcie with
        phase := .idle, speed := speed, width := width, failovers := s.pcie.failovers + 1,
        events := s.pcie.events ||| if speed < 6 ∨ width < 16 then 5 else 1,
        msiHeld := [], wrHeld := [], recHeld := [], evHeld := [] } }
      t = { u with
        env := { s.env with hostMem := t.env.hostMem, msis := t.env.msis, fetchStamp := t.env.fetchStamp },
        ctxs := t.ctxs, funcs := t.funcs } ∧
      (s.pcie.wrHeld = [] → s.pcie.recHeld = [] → Posted u t)) ∧
    (s.pcie.standbyOk = true → ∃ t, exec .standbyLost s = .next t ∧ t.pcie.standbyOk = false ∧
      t.pcie.events = s.pcie.events ||| 2 ∧ bit t.arm.replaceReq.toNat 5 = true) ∧
    (s.pcie.standbyOk = false → exec .standbyLost s = .next s)

/-- A sequencer's decision, for the candidate m of the context c that it has chosen: p = 24 is the management
context's sequencer, else p is a defined partition that no stop holds; u is the state after the control writes that
waited have acted and the slice has been counted, and the checks see u as the commands issued before m will leave it
(R144). Where the checks refuse m, it ends with that status and those detail words and never issues; where it has
nothing to do it issues and ends OK_EMPTY; where they pass it issues, with the object it creates and the tiles that
the checks bound; where the partition lacks leaves for an append, m stays and its context stands in BLOCKED_KV. No
other command of c and no other context changes. A draw that must see an earlier Brew command act first waits (log
48). Completes: ISSUE_DECISION. -/
def Obligations.SequencersIssueOrRefuseTheirCandidate : Prop :=
  ∀ (s u : State) (p c : Nat) (m : Cmd), s.pkg.unroutable = false →
    (p = 24 ∧ c = 0 ∧ u = s) ∨ (p ≠ 24 ∧ c ≠ 0 ∧ (s.part p).defd = true ∧
      (let v := countHazard p (actControls p s)
       (choose v p).1 = some c ∧
       u = v.modPart2 p (fun x => { x with slice := (choose v p).2.1, sliceLast := (choose v p).2.2 }) ∧
       (u.part2 (u.ctx c).reg.part).stopped = [])) →
    candOf u c = some m → getCmd u c m.seq = some m →
    (brewWaits u c m = true → exec (.issueDecision p) s = .next u) ∧
    (brewWaits u c m = false → ∃ t, exec (.issueDecision p) s = .next t ∧
      (∀ r, r ≠ m.seq → getCmd t c r = getCmd u c r) ∧ (∀ d, d ≠ c → t.ctx d = u.ctx d) ∧
      match verdictOf u (seenBy u c) c m with
      | .refuse r => getCmd t c m.seq = some { m with phase := .done, status := r.st.code, dw := r.dw.map w32 }
      | .empty => ∃ m', getCmd t c m.seq = some m' ∧ m' = { m with
          phase := .done, issued := true, status := Status.okEmpty.code, bound := { m.bound with objs := m'.bound.objs } }
      | .issue b => ∃ m', getCmd t c m.seq = some m' ∧ m'.phase = .issued ∧ m'.issued = true ∧ m'.entry = m.entry ∧
          m'.stamp = m.stamp ∧ m'.bound.objs = b.objs ∧ m'.bound.newObj = b.newObj ∧ m'.bound.forms = b.forms
      | .noPage _ _ => getCmd t c m.seq = some m ∧ (t.ctx c).reg.res = true ∧ (c ≠ 0 → (t.ctx c).reg.st = .blockedKv))

/-- The control commands, issued, each with another context T (not the management context) as its target; each ends OK
and changes no third context. A suspend of T in a state that may be suspended makes it HALTED and keeps its banks. A
resume of a HALTED or BLOCKED_KV context leaves it SWAPPED or LOADED where it holds no banks, else RESIDENT, RUNNING
or BLOCKED. A save of one that is not resident marks it saved; of a resident one it starts the swap-out and waits. A
reset ends T's commands, handles, sequences, jobs, streams and rings, and without KEEP its models and regions too,
under a new memory key. A restore to T's own partition changes nothing else; to another one it moves T there, or ends
E_NOFIT with the fit check's words. A CTX_CONTROL write to the page of a context waits for the next decision; one to
the management context or to a lost one only sets CTL_INVALID. Completes: CTX_SUSPEND, CTX_RESUME, CTX_SAVE,
CTX_RESTORE, CTX_RESET, CTX_CONTROL_SUSPEND, CTX_CONTROL_RESUME. -/
def Obligations.ControlCommandsMoveTheirTarget : Prop :=
  (∀ (c q : Nat) (s : State) (m : Cmd), running? s c q = some m → m.f 0x10 16 ≠ c → m.f 0x10 16 ≠ 0 →
    let T := m.f 0x10 16
    let x := s.ctx T
    let Done (t : State) := Ended t c q .ok [] ∧ ∀ d, d ≠ T → d ≠ c → t.ctx d = s.ctx d
    (m.opcode = 0x56 → x.reg.st ∈ [.loaded, .swapped, .resident, .running, .blocked, .blockedKv] →
      ∃ t, exec (.ctxSuspend c q) s = .next t ∧ (t.ctx T).reg.st = .halted ∧ (t.ctx T).reg.res = x.reg.res ∧ Done t) ∧
    (m.opcode = 0x57 → x.reg.st = .halted ∨ x.reg.st = .blockedKv → x.sched.swapping = .none →
      ∃ t, exec (.ctxResume c q) s = .next t ∧ (t.ctx T).reg.res = x.reg.res ∧ (t.ctx T).sched.saved = false ∧
        (if x.reg.res then (t.ctx T).reg.st ∈ [.resident, .running, .blocked]
         else (t.ctx T).reg.st = if x.hasBanks then .swapped else .loaded) ∧ Done t) ∧
    (m.opcode = 0x58 → x.sched.swapping = .none → if x.reg.res then
        ∃ t, exec (.ctxSave c q) s = .next t ∧
          Acted c q (s.modCtx T fun y => { y with sched := { y.sched with swapping := .out } }) t
      else ∃ t, exec (.ctxSave c q) s = .next t ∧
          Finished c q .ok [] (s.modCtx T fun y => { y with sched := { y.sched with saved := true } }) t) ∧
    (m.opcode = 0x5A → x.sched.swapping = .none → x.reg.st ≠ .free → ∃ t, exec (.ctxReset c q) s = .next t ∧
      (t.ctx T).cmds = [] ∧ (t.ctx T).handles = [] ∧ (∀ i, getSeq t T i = none) ∧ (t.ctx T).jobs = [] ∧
      (∀ i, getVc t T i = none) ∧ (t.ctx T).ring = .init ∧ (t.ctx T).irq = .init ∧ (t.ctx T).aq = .init ∧
      (t.ctx T).reg.res = false ∧ (t.ctx T).reg.st = (if (t.ctx T).models ≠ [] then .swapped else .loaded) ∧
      (m.fb 0x13 0 1 = 0 → (t.ctx T).models = [] ∧ (∀ r, getRegion t T r = none) ∧
        aget t.hbm.keyGen T = some ((aget s.hbm.keyGen T).getD 0 + 1)) ∧ Done t) ∧
    (m.opcode = 0x59 → m.fb 0x12 0 5 = x.reg.part →
      ∃ t, exec (.ctxRestore c q) s = .next t ∧ Finished c q .ok [] s t) ∧
    (m.opcode = 0x59 → m.fb 0x12 0 5 ≠ x.reg.part →
      match restoreFit s T (m.fb 0x12 0 5) (m.fb 0x13 1 1 == 1) with
      | .error e => ∃ t, exec (.ctxRestore c q) s = .next t ∧ Finished c q .nofit (noFitRef e).dw s t
      | .ok _ => ∃ t, exec (.ctxRestore c q) s = .next t ∧ (t.ctx T).reg.part = m.fb 0x12 0 5 ∧
          (t.ctx T).reg.unplaced = false ∧ (t.ctx T).handles = x.handles ∧ Done t)) ∧
  ∀ (src : Src) (page c : Nat) (s : State), mayWrite src = true → pageCtx s src page = some c →
    if c = 0 ∨ (s.ctx c).reg.st = .lost then
      (∃ t, exec (.ctxControlSuspend src page) s = .next t ∧
        Posted (s.modCtx c fun x => { x with reg := { x.reg with events := x.reg.events ||| 8 } }) t) ∧
      ∃ t, exec (.ctxControlResume src page) s = .next t ∧
        Posted (s.modCtx c fun x => { x with reg := { x.reg with events := x.reg.events ||| 8 } }) t
    else ∃ t u, exec (.ctxControlSuspend src page) s = .next t ∧ exec (.ctxControlResume src page) s = .next u ∧
      t = s.modCtx c (fun x => { x with sched := { x.sched with wantSusp := true } }) ∧
      u = s.modCtx c (fun x => { x with sched := { x.sched with wantRes := true } })

/-- Admission, swaps and slices. The first runnable context of a partition, where it may be admitted: from LOADED it
is resident at once; from SWAPPED it takes hold of every bank it uses and swaps in. Where it may not and every needed
victim is eligible, each victim begins to swap out, and no other context changes. When a swap-out is done the context
holds no banks and is HALTED or BLOCKED_KV as it was, else SWAPPED or LOADED, and every command that waited to save it
has ended OK. When a swap-in is done and the weights and the swap store can be read, the context is resident, one more
swap-in is counted and its swap store holds nothing. The end of a slice passes it to the next best-effort resident
with a candidate. Completes: CTX_ADMIT, SWAP_OUT_DONE, SWAP_IN_DONE, SLICE_EXPIRE. -/
def Obligations.ContextsAreAdmittedAndSwapped : Prop :=
  (∀ (p c : Nat) (r : List Nat) (s : State), runnables s p = c :: r → c ≠ 0 →
    (admissible s p c = true → (s.ctx c).reg.st = .loaded → (s.ctx c).sched.swapping = .none →
      ∃ t, exec (.ctxAdmit p) s = .next t ∧ (t.ctx c).reg.res = true ∧
        (t.ctx c).reg.st ∈ [.resident, .running, .blocked] ∧ ∀ d, d ≠ c → t.ctx d = s.ctx d) ∧
    (admissible s p c = true → (s.ctx c).reg.st = .swapped →
      ∃ t, exec (.ctxAdmit p) s = .next t ∧ (t.ctx c).reg.st = .swapped ∧ (t.ctx c).sched.swapping = .in ∧
        (∀ gk ∈ ctxBanks s c, (t.bank (bankIx gk.1 gk.2)).holder = some c) ∧ ∀ d, d ≠ c → t.ctx d = s.ctx d) ∧
    (∀ vs, admissible s p c = false → victims s p c = some vs →
      ∃ t, exec (.ctxAdmit p) s = .next t ∧ (∀ v ∈ vs, (t.ctx v).sched.swapping = .out) ∧
        ∀ d, d ∉ vs → t.ctx d = s.ctx d)) ∧
  (∀ (c : Nat) (s : State), c ≠ 0 →
    ((s.ctx c).sched.swapping = .out → ∃ t, exec (.swapOutDone c) s = .next t ∧
      (t.ctx c).reg.res = false ∧ (t.ctx c).sched.swapping = .none ∧
      (t.ctx c).reg.st = (match (s.ctx c).reg.st with
        | .halted => .halted
        | .blockedKv => .blockedKv
        | _ => if (s.ctx c).hasBanks then .swapped else .loaded) ∧
      ((t.ctx c).sched.saved = true ↔ waitingSaves s c ≠ []) ∧
      ∀ w ∈ waitingSaves s c, (getCmd s w.1 w.2).isSome → Ended t w.1 w.2 .ok []) ∧
    ((s.ctx c).sched.swapping = .in → (weightBad s c).or (swapBad s c) = none →
      ∃ t, exec (.swapInDone c) s = .next t ∧
      (t.ctx c).reg.res = true ∧ (t.ctx c).reg.swapins = (s.ctx c).reg.swapins + 1 ∧
      (t.ctx c).sched.swapping = .none ∧ (t.ctx c).sched.stored = false ∧
      ((s.ctx c).reg.st = .swapped → (t.ctx c).reg.st ∈ [.resident, .running, .blocked]) ∧
      ∀ d, d ≠ c → t.ctx d = s.ctx d)) ∧
  ∀ (p h : Nat) (s : State), (s.part2 p).slice = some h →
    exec (.sliceExpire p) s = .next (s.modPart2 p fun x => { x with
      slice := nextAfter (sliceCands s p) h, sliceLast := (nextAfter (sliceCands s p) h).getD h })

/-- Retirements, on a live device. Let Gone say that slab n has left its position: CORE_RETIRED, serving none, its
core off, and, where a spare is idle, one of those with the fewest hops to the position SERVING it, with its core on;
no other slab's structure changes. A hang at a tile that a command uses: with a spare site, that site serves the tile,
its banks have the lines of a fresh site, belong to nobody and clear, and every context at fault is LOST with reason
2; with none, the slab is Gone. A warning stops the partition's issue. A warned slab is Gone once no command has work
at its position, and at the end of the wait too where only commands that may be interrupted have. A move of a tile
whose bank is redirected begins with its spare site, which serves the tile when the copy is done, and issue goes on. A
spare that fails its self-test is RETIRED. The end of a clear ends it in every bank of the slab's position, and an
access that waited is then made. Completes: TILE_HANG, PRE_FAILURE_WARNING, PLANNED_CORE_RETIREMENT, EVAC_WAIT_EXPIRE,
SPARE_SELF_TEST, TILE_RETIREMENT, TILE_RETIRE_COPY_DONE, WAKE_CLEAR_DONE. -/
def Obligations.RetirementMovesPositions : Prop :=
  ∀ s : State, s.live = true →
    let Gone (n : Nat) (t : State) :=
      (t.slab n).st = .coreRetired ∧ (t.slab n).serves = 0xFF ∧ (t.slab n).coreOn = false ∧
      (idleSpares s = [] → ∀ m, m ≠ n → t.slab m = s.slab m) ∧
      (idleSpares s ≠ [] → ∃ sp ∈ idleSpares s, (∀ m ∈ idleSpares s, hops sp (posOf s n) ≤ hops m (posOf s n)) ∧
        (t.slab sp).st = .serving ∧ (t.slab sp).serves = posOf s n ∧ (t.slab sp).coreOn = true ∧
        ∀ m, m ≠ n → m ≠ sp → t.slab m = s.slab m)
    (∀ g p n, partOf s (g / 64) = some p → serverOf s (g / 64) = some n →
      (∃ e ∈ openCmds s p, ∃ f ∈ e.2.bound.forms, f.1 = g) →
      (spareSite (s.slab n) = none → ∃ t, exec (.tileHang g) s = .next t ∧ Gone n t) ∧
      (∀ k, spareSite (s.slab n) = some k → siteOf (s.slab n) (g % 64) ≠ k → siteOf (s.slab n) (g % 64) < 80 →
        ∃ t, exec (.tileHang g) s = .next t ∧ siteOf (t.slab n) (g % 64) = k ∧ siteSt (t.slab n) k = 0 ∧
          siteSt (t.slab n) (siteOf (s.slab n) (g % 64)) = 2 ∧ (∀ j, j < 4 → t.bank (bankIx g j) =
            { Bank.init with clearing := true, turn := (s.slab2 n).patinaNext }) ∧
          ∀ c ∈ faultCtxs s p, c ≠ 0 → (s.ctx c).reg.st ≠ .free → (s.ctx c).reg.st ≠ .lost →
            (t.ctx c).reg.st = .lost ∧ (t.ctx c).reg.lossReason = 2)) ∧
    (∀ n p, slabPart s n = some p →
      (∃ t, exec (.preFailureWarning n) s = .next t ∧ (t.part2 p).stopped.contains (.warning n) = true ∧
        (t.slab2 n).warning = true ∧ (t.part2 p).schedEvents = (s.part2 p).schedEvents ||| 1) ∧
      ((s.part2 p).stopped.contains (.warning n) = true → workAtPos s p (posOf s n) = false →
        ∃ t, exec (.plannedCoreRetirement n) s = .next t ∧ Gone n t) ∧
      ((s.part2 p).stopped.contains (.warning n) = true → workAtPos s p (posOf s n) = true →
        (∀ e ∈ openCmds s p, 0x10 ≤ e.2.opcode ∧ e.2.opcode ≤ 0x3F) →
        ∃ t, exec (.evacWaitExpire n) s = .next t ∧ Gone n t)) ∧
    (∀ n, (s.slab n).st = .spare → exec (.spareSelfTest n true) s = .next s ∧
      exec (.spareSelfTest n false) s =
        .next (s.modSlab n fun x => { x with st := .retired, serves := 0xFF, coreOn := false })) ∧
    (∀ g p n k, partOf s (g / 64) = some p → serverOf s (g / 64) = some n → tileHeld s g = true →
      workAtTile s p g = false → (s.slab2 n).moveTile = none → spareSite (s.slab n) = some k →
      exec (.tileRetirement g) s = .next ((s.modSlab2 n fun x => { x with moveTile := some (g % 64, k) }).modTile2 g
        fun x => { x with retiring := true })) ∧
    (∀ g p n k, partOf s (g / 64) = some p → serverOf s (g / 64) = some n → (s.slab2 n).moveTile = some (g % 64, k) →
      k = 64 ∨ k = 65 → siteOf (s.slab n) (g % 64) ≠ k → siteOf (s.slab n) (g % 64) < 80 →
      ∃ t, exec (.tileRetireCopyDone g) s = .next t ∧ siteOf (t.slab n) (g % 64) = k ∧ siteSt (t.slab n) k = 0 ∧
        siteSt (t.slab n) (siteOf (s.slab n) (g % 64)) = 2 ∧ (t.slab2 n).moveTile = none ∧
        (t.part2 p).stopped.contains (.tileMove g) = false ∧ ∀ d, t.ctx d = s.ctx d) ∧
    ∀ n, let u := { forAll (slabTiles (posOf s n)) (setClearing false) s with env := { s.env with waits := [] } }
      (∀ g k, k < 4 → u.bank (bankIx g k) = if g ∈ slabTiles (posOf s n) then
        { s.bank (bankIx g k) with clearing := false } else s.bank (bankIx g k)) ∧
      (s.env.waits = [] → exec (.wakeClearDone n) s = .next u) ∧
      ∀ src g k a bs found, s.env.waits = [.hostWindowWrite src g k 0 a bs found] →
        exec (.wakeClearDone n) s = exec (.hostWindowWrite src g k 0 a bs found) u

/-- The background test of banks, on a live device. A region starts on a slab in service whose test is enabled: the
position shows it and the next one follows in turn, a sweep whose last region had started before is counted, every
bank of the slab's tiles that neither tests nor stays redirected starts a region, first one that waits to be tested
ahead of its turn and otherwise the next of its 320, and no other bank changes; a line of such a region that the copy
finds correctable counts at the tile. A bank's region ends: it no longer tests and its lines count as tested; of lines
0 to 641, each failing one takes a spare line, the region stays redirected exactly where there were more of them than
spare lines, and then its partition holds back the tile's work; a failing spare line becomes unusable; the last bank
to end the sweep's last region counts the sweep; no other bank changes. Completes: PATINA_REGION_START,
PATINA_REGION_DONE. -/
def Obligations.PatinaTestsEveryRegion : Prop :=
  ∀ s : State, s.live = true →
    (∀ n, coreLive s n = true → inService s n = true → bit (s.slab2 n).patinaCtrl.toNat 31 = true →
      let x := s.slab2 n
      let r := x.patinaNext % 320
      let free (b : Bank) := b.testing = none ∧ b.redirectHeld = false
      (∃ t, exec (.patinaRegionStart n []) s = .next t ∧
        t.slab2 n = { x with
          patinaPos := r, patinaNext := (r + 1) % 320, sweepOpen := r == 319,
          patinaSweeps := if x.sweepOpen = true then x.patinaSweeps + 1 else x.patinaSweeps } ∧
        (∀ g k, k < 4 → t.bank (bankIx g k) =
          let b := s.bank (bankIx g k)
          if g ∈ slabTiles (posOf s n) ∧ free b then
            match b.testNext with
            | [] => { b with testing := some (b.turn % 320), turn := (b.turn + 1) % 320 }
            | i :: l => { b with testing := some i, testNext := l }
          else b) ∧
        t = { s with slabs2 := t.slabs2, banks := t.banks }) ∧
      ∀ g k line, k < 4 → g ∈ slabTiles (posOf s n) → free (s.bank (bankIx g k)) →
        (s.bank (bankIx g k)).testNext.headD ((s.bank (bankIx g k)).turn % 320) = line / 2 →
        ∃ t, exec (.patinaRegionStart n [(g, k, line, false)]) s = .next t ∧
          (t.tile2 g).eccCorr = (s.tile2 g).eccCorr + 1) ∧
    ∀ g k n r fails, k < 4 → serverOf s (g / 64) = some n → (s.bank (bankIx g k)).testing = some r →
      let b := s.bank (bankIx g k)
      ∃ t, exec (.patinaRegionDone g k fails) s = .next t ∧
        let z := t.bank (bankIx g k)
        z.testing = none ∧ z.corrected = b.corrected.filter (fun l => l / 2 != r) ∧
        ((∀ l ∈ fails, l < 642) → z.spareLines = b.spareLines - fails.length ∧
          (z.redirectHeld = true ↔ b.redirectHeld = true ∨ b.spareLines < fails.length)) ∧
        (∀ l ∈ fails, 642 ≤ l → z.badSpares.contains (l - 642) = true) ∧
        (∀ p, partOf s (g / 64) = some p → b.redirectHeld = false → z.redirectHeld = true →
          (t.part2 p).stopped.contains (.tileMove g) = true) ∧
        ((s.slab2 n).sweepOpen = true → (∀ h ∈ slabTiles (posOf s n), ∀ j, j < 4 → (h, j) ≠ (g, k) →
          (s.bank (bankIx h j)).testing = none) → (t.slab2 n).patinaSweeps = (s.slab2 n).patinaSweeps + 1) ∧
        ∀ j, j ≠ bankIx g k → t.bank j = s.bank j

/-- Fabric packets, flits and the scrub, on a live device and at slabs that are not RETIRED. A packet found misrouted,
with a reserved value or a body its header does not announce, or whose PART and CTX do not fit what it addresses, is
dropped: MISROUTE is counted and raised, nothing else changes. One with a stale epoch is dropped and counted, and the
command it came from, if it still runs, ends E_EPOCH. On a fabric that cannot be routed a packet moves no data. Else
an answer takes its number from the packets sent; an access of a bank that clears waits; a clean one that the owner
admits reads nothing away and writes exactly its bytes; one that the owner refuses is counted at the tile, changes no
byte, and ends its command E_OWNER. A clean access of HBM under a key that admits it changes nothing but counts if it
reads and stores exactly its bytes if it writes; within one granule or footer half it counts one data read unless that
is UNWRITTEN or written whole, and a write one. A host write on a link that serves stores its bytes. A flit that a
place offers to its neighbour leaves its input and joins the neighbour's in its class there, crosses its edge's count,
corrected codewords are counted, and the failures there end; a dropped one moves nothing and is replayed and counted
up to eight times, then the receiving slab retires; nothing moves where nothing is offered. A packet without its
answer is sent again up to three times, an ATOMIC never: then its destination retires. A pass of the scrub that finds
no failed granule counts what it corrected. After a loss, and with nothing in flight, every unit that the loss took is
POISONED, but those of resident weight stores, and the partition's stop ends. Completes: PACKET_DELIVER, FLIT_RECEIVE,
TRANSPORT_RESEND, HBM_SCRUB_PASS, STACK_SUBSTITUTE. -/
def Obligations.PacketsReachTheirEndpoint : Prop :=
  ∀ s : State, s.live = true →
    (∀ h q body found, let dest := hDslab h
      let part := hPart h
      let c := hCtx h
      (s.slab dest).st ≠ .retired →
      let run := exec (.packetDeliver h q body found) s
      let fits := found ≠ .misrouted ∧ headerOk h = true ∧ bodyFits h body = true ∧ packetFits s h = true
      let stale := hEpoch h ≠ 0 ∧ (aget (s.slab2 dest).epochs part).getD 0 ≠ hEpoch h
      (¬ fits → ∃ t, run = .next t ∧
        Posted (s.modSlab2 dest fun x => { x with fab := { x.fab with
          misroute := x.fab.misroute + 1, events := x.fab.events ||| 2 } }) t) ∧
      (fits → stale → ∃ t, run = .next t ∧ t.arm = { s.arm with epochReject := s.arm.epochReject + 1 } ∧
        t.bankMem = s.bankMem ∧ t.hbm = s.hbm ∧
        ((running? s c q).isSome → Ended t c q .epoch [(s.part part).epoch.toNat])) ∧
      (fits → ¬ stale → s.pkg.unroutable = true → run = .next s) ∧
      (fits → ¬ stale → s.pkg.unroutable = false →
        (packetAcc s h = .other → run = .next s) ∧
        (packetAcc s h = .answer → run = .next (s.modSlab2 dest fun x => { x with fab := { x.fab with
          sends := x.fab.sends.filter fun e => e.1 != hTseq h } })) ∧
        (∀ g k a, packetAcc s h = .bank g k a → bankClearing s g k = true →
          run = .next { s with env := { s.env with waits := s.env.waits ++ [.packetDeliver h q body found] } }) ∧
        (∀ g k a len tile e, packetAcc s h = .bank g k a → bankClearing s g k = false → found = .clean →
          body = .read len tile e → ownerAdmits s g k (engineAgent e c tile) .read = true → run = .next s) ∧
        (∀ g k a bs tile e, packetAcc s h = .bank g k a → bankClearing s g k = false → found = .clean →
          body = .write bs tile e →
          (ownerAdmits s g k (engineAgent e c tile) .write = true →
            run = .next { s with bankMem := mwrite s.bankMem (bankKey g k a) bs }) ∧
          (ownerAdmits s g k (engineAgent e c tile) .write = false → ∃ t, run = .next t ∧
            t.bankMem = s.bankMem ∧ t.hbm = s.hbm ∧ (t.tile2 g).ownerRefused = (s.tile2 g).ownerRefused + 1 ∧
            ((running? s c q).isSome → Ended t c q .owner [g, k]))) ∧
        (∀ da len tile e, packetAcc s h = .hbm da → body = .read len tile e → found = .clean →
          let u := countAcc (some c) false (spanFuel len) da len s
          readBad u none (ctxKey s c) (spanFuel len) da len = none → run = .next u ∧
            u = { s with slabs2 := u.slabs2, ctxs := u.ctxs, env := u.env } ∧
            (0 < len → da % spanAt s da + len ≤ spanAt s da → (u.slab2 (homeSlab s da)).hbm.rd =
              (s.slab2 (homeSlab s da)).hbm.rd + if (granAt s da).1 = .unwritten then 0 else 1)) ∧
        (∀ da bs tile e, packetAcc s h = .hbm da → body = .write bs tile e → found = .clean →
          let n := bs.length
          let u := countAcc (some c) true (spanFuel n) da n s
          writeBad u none (ctxKey s c) (spanFuel n) da n = none → ∃ t, run = .next t ∧
            t.hbm.mem = mwrite s.hbm.mem da bs ∧ t.bankMem = s.bankMem ∧
            (0 < n → da % spanAt s da + n ≤ spanAt s da →
              (t.slab2 (homeSlab s da)).hbm.wr = (s.slab2 (homeSlab s da)).hbm.wr + 1 ∧
              (t.slab2 (homeSlab s da)).hbm.rd = (s.slab2 (homeSlab s da)).hbm.rd +
                if (granAt s da).1 = .unwritten ∨ n = spanAt s da then 0 else 1)) ∧
        ∀ a, packetAcc s h = .host a → (∀ len tile e, body = .read len tile e → run = .next s) ∧
          ∀ bs tile e, body = .write bs tile e → s.pcie.phase = .idle →
            run = .next (hostWrite s (s.ctx c).reg.func a bs))) ∧
    (∀ (dst src : FabPlace) inject, (s.slab dst.slab).st ≠ .retired → (s.slab src.slab).st ≠ .retired →
      joined src dst = true →
      let fails := failsAt s dst src
      let edges (t : State) := let x := (t.slab2 src.slab).fab
        [x.edgeN, x.edgeE, x.edgeS, x.edgeW]
      let way : Option Nat := if src.slab = dst.slab then (if dst.node = .device then deviceEdge src.slab else none)
        else match src.node with
          | .edge k => some (min k 3)
          | _ => none
      (offered s src dst inject = none → ∀ r, exec (.flitReceive dst src inject r) s = .next s) ∧
      ∀ i cls f, offered s src dst inject = some (i, cls, f) →
        let Crossed (t : State) := t = { s with slabs2 := t.slabs2 } ∧
          ∀ e, e < 4 → (edges t).getD e 0 = (edges s).getD e 0 + if way = some e then 1 else 0
        (∀ r n, r = .good ∧ n = 0 ∨ r = .corrected false ∧ n = 1 ∨ r = .corrected true ∧ n = 2 →
          ∃ t, exec (.flitReceive dst src inject r) s = .next t ∧ Crossed t ∧ failsAt t dst src = 0 ∧
            (t.slab2 dst.slab).fab.corr = (s.slab2 dst.slab).fab.corr + n ∧
            (isEnd dst.node = false →
              inFlits t dst src = inFlits s dst src ++ [{ f with hdr := setClass f.hdr cls }]) ∧
            ∀ j c, i = some (j, c) → inFlits t src j = (inFlits s src j).erase f) ∧
        (fails < 8 → ∃ t, exec (.flitReceive dst src inject .dropped) s = .next t ∧ Crossed t ∧
          failsAt t dst src = fails + 1 ∧ (t.slab2 dst.slab).fab.replay = (s.slab2 dst.slab).fab.replay + 1 ∧
          ∀ p j, inFlits t p j = inFlits s p j) ∧
        (8 ≤ fails → exec (.flitReceive dst src inject .dropped) s =
          .next (fullRetire dst.slab false 3 (fabEvent dst.slab 8 (countEdge src dst s))))) ∧
    (∀ n tseq atomic dest, (s.slab n).st ≠ .retired →
      let e := ((s.slab2 n).fab.sends.find? fun x => x.1 == tseq).getD (tseq, 0, atomic, dest)
      let rest := (s.slab2 n).fab.sends.filter fun x => x.1 != tseq
      (e.2.2.1 = false → e.2.1 < 3 → exec (.transportResend n tseq atomic dest) s = .next (s.modSlab2 n fun x =>
        { x with fab := { x.fab with
          resend := x.fab.resend + 1, sends := rest ++ [(tseq, e.2.1 + 1, e.2.2)] } })) ∧
      (e.2.2.1 = true ∨ 3 ≤ e.2.1 → exec (.transportResend n tseq atomic dest) s = .next
        (fullRetire e.2.2.2 false 3 (fabEvent n 4 (s.modSlab2 n fun x =>
          { x with fab := { x.fab with sends := rest } }))))) ∧
    (∀ n k, Config.slabStack n = some k → (s.slab n).st ≠ .retired → bit (s.slab2 n).hbm.scrub.toNat 31 = true →
      ∀ corrected, ∃ t, exec (.hbmScrubPass n corrected []) s = .next t ∧
        Posted (s.modSlab2 n fun x => { x with hbm := { x.hbm with
          corr := x.hbm.corr + BitVec.ofNat 64 corrected, events := x.hbm.events ||| 4 } }) t) ∧
    ∀ p, (s.part2 p).stopped.contains .stackLoss = true → openCmds s p = [] →
      ∃ t, exec (.stackSubstitute p) s = .next t ∧ (t.part2 p).stopped.contains .stackLoss = false ∧
        (∀ un ∈ newlyLost s p, (residentStores s p).contains (un / 768) = false →
          (granAt t (4096 * un)).1 = .poisoned ∧ (granAt t (4096 * un + granBytes)).1 = .poisoned) ∧
        t.bankMem = s.bankMem ∧ ∀ d, t.ctx d = s.ctx d

/-- The host window of a function f, on a tile of the device, within the bank, where the bank does not clear and f
owns its context. Where the bank's owner admits the access: a read returns the bytes and changes none; a plain write
stores its bytes; an alias write within 64 bytes sets or clears the written bits; IADD, FADD and SWAP of an aligned
word return the old word and store the sum modulo 2^32, the FP32 sum, or the operand. Where it does not: a read and an
atomic operation are answered with an abort, no byte changes, and OWNER_REFUSED of the tile counts. A write to a bank
that clears waits. A source without a window reads Unsupported Request, but nothing where the host link carries no
request, and writes nothing. Completes: HOST_WINDOW_READ, HOST_WINDOW_WRITE, ALIAS_SET_WRITE, ALIAS_CLEAR_WRITE, IADD,
FADD, SWAP. -/
def Obligations.TheHostWindowReachesOwnedBanks : Prop :=
  (∀ (src : Src) (f g k a : Nat) (s : State), winFunc s src = some f → g < 6400 → bankClearing s g k = false →
    winOwns s f g k = true →
    let may := ownerAdmits s g k (.window f)
    let old := bankWord s g k a
    let Stores (bs r : List Byte) (t : State) := t = { s with
      bankMem := mwrite s.bankMem (bankKey g k a) bs, env := { s.env with resp := .data r } }
    let Refused (t : State) := t.env.resp = .abort ∧ t.bankMem = s.bankMem ∧ t.hbm = s.hbm ∧
      (t.tile2 g).ownerRefused = (s.tile2 g).ownerRefused + 1
    (∀ view n, a + n ≤ bankBytes → (serverOf s (g / 64)).isSome →
      (may .read = true → ∃ t, exec (.hostWindowRead src g k view a n .clean) s = .next t ∧
        t.env.resp = .data (bankRead s g k a n) ∧ t.bankMem = s.bankMem ∧ t.hbm = s.hbm ∧
        (f ≠ 0 → t = { s with env := { s.env with resp := t.env.resp } })) ∧
      (may .read = false → ∃ t, exec (.hostWindowRead src g k view a n .clean) s = .next t ∧ Refused t)) ∧
    (∀ bs : List Byte, a + bs.length ≤ bankBytes →
      let was := bankRead s g k a bs.length
      (may .write = true → exec (.hostWindowWrite src g k 0 a bs .clean) s =
        .next { s with bankMem := mwrite s.bankMem (bankKey g k a) bs }) ∧
      (may .write = false → ∃ t, exec (.hostWindowWrite src g k 0 a bs .clean) s = .next t ∧ t.bankMem = s.bankMem ∧
        (t.tile2 g).ownerRefused = (s.tile2 g).ownerRefused + 1) ∧
      (a / 64 = (a + bs.length - 1) / 64 →
        (may .set = true → exec (.aliasSetWrite src g k a bs .clean) s =
          .next { s with bankMem := mwrite s.bankMem (bankKey g k a) (List.zipWith (· ||| ·) was bs) }) ∧
        (may .clear = true → exec (.aliasClearWrite src g k a bs .clean) s =
          .next { s with bankMem := mwrite s.bankMem (bankKey g k a) (List.zipWith (fun o d => o &&& ~~~d) was bs) }))) ∧
    (∀ v : BitVec 32, a % 4 = 0 → a + 4 ≤ bankBytes →
      (may .iadd = true → ∃ t, exec (.iadd src g k 0 a 4 v .clean) s = .next t ∧
        Stores (toBytes 4 ((old + v.toNat) % 2 ^ 32)) (toBytes 4 old) t) ∧
      (may .fadd = true → ∃ t, exec (.fadd src g k a 4 v .clean) s = .next t ∧
        Stores (toBytes 4 (enc32 (fadd (dec32 old) (dec32 v.toNat)))) (toBytes 4 old) t) ∧
      (may .swap = true → ∃ t, exec (.swap src g k 0 a 4 none v .clean) s = .next t ∧
        Stores (toBytes 4 v.toNat) (toBytes 4 old) t) ∧
      (may .iadd = false → ∃ t, exec (.iadd src g k 0 a 4 v .clean) s = .next t ∧ Refused t) ∧
      (may .fadd = false → ∃ t, exec (.fadd src g k a 4 v .clean) s = .next t ∧ Refused t) ∧
      (may .swap = false → ∃ t, exec (.swap src g k 0 a 4 none v .clean) s = .next t ∧ Refused t))) ∧
  (∀ (src : Src) (f g k a : Nat) (bs : List Byte) (s : State), winFunc s src = some f → g < 6400 →
    bankClearing s g k = true → winOwns s f g k = true → a + bs.length ≤ bankBytes →
    exec (.hostWindowWrite src g k 0 a bs .clean) s =
      .next { s with env := { s.env with waits := s.env.waits ++ [.hostWindowWrite src g k 0 a bs .clean] } }) ∧
  ∀ (src : Src) (s : State), winFunc s src = none → ∀ (g k view a n : Nat) (bs : List Byte),
    exec (.hostWindowRead src g k view a n .clean) s = .next (if hostGone s src then s
      else { s with env := { s.env with resp := .unsupported } }) ∧
    exec (.hostWindowWrite src g k view a bs .clean) s = .next s

/-- A BANK_OWN that has issued, whose earlier commands have finished and which names a bank region, gives exactly the
banks of that region the owner and the peer of its body, and ends OK. A write of a bank's owner register by the
operator, to a slab whose core is live, with an owner below 8 and, for owner 5, a peer in service in the partition,
sets owner and peer of the bank of the position that the slab serves, and no other bank; any other owner changes
nothing. Completes: BANK_OWN, BANK_OWN_WRITE. -/
def Obligations.OwnersAreHandedOver : Prop :=
  (∀ (c q : Nat) (s : State) (m : Cmd) (r : Region), ready? s c q 0x4A = some m →
    getRegion s c (m.f 0x10 16) = some r → ∃ t, exec (.bankOwn c q) s = .next t ∧
      (∀ g k, k < 4 → t.bank (bankIx g k) =
        if (g, k) ∈ regionBanks (s.part (s.ctx c).reg.part) r then
          { s.bank (bankIx g k) with owner := m.fb 0x12 0 4, peer := m.fb 0x14 0 13 }
        else s.bank (bankIx g k)) ∧
      Finished c q .ok [] { s with banks := t.banks } t) ∧
  ∀ (src : Src) (n tile k : Nat) (v : BitVec 32) (s : State), tile < 64 → isOperator s src = true →
    coreLive s n = true →
    let g := 64 * posOf s n + tile
    let owner := bits v.toNat 0 4
    let peer := bits v.toNat 16 13
    let fits := owner < 8 ∧ (owner = 5 → ∃ p, partOf s (g / 64) = some p ∧ tileInService s p peer = true)
    (¬ fits → exec (.bankOwnWrite src (64 * n + tile) k v) s = .next s) ∧
    (fits → ∃ t, exec (.bankOwnWrite src (64 * n + tile) k v) s = .next t ∧
      t.bank (bankIx g k) = { s.bank (bankIx g k) with owner := owner, peer := peer } ∧
      (∀ j, j ≠ bankIx g k → t.bank j = s.bank j) ∧ t = { s with banks := t.banks, ctxs := t.ctxs })

/-- A link port. A write of EN by the operator to a port whose slab is not RETIRED: set, a disabled port trains;
clear, the port is DISABLED without lanes and none of its jobs stays open. RETRAIN takes an ACTIVE port to RETRAIN and
counts it. On a live device a training or retraining that ends at the expected peer makes the port ACTIVE with all
lanes; a fresh one starts the sequence numbers, credits and buffers again, a retrain keeps them and sends what waits,
as far as credits and unacknowledged frames allow. One that ends at another peer, or takes too long, is a failed
training in a row: the port trains again, or after three is FAILED; out of RETRAIN its jobs fail as well. A frame of
512 symbols on an ACTIVE port: one that cannot be decoded is counted and a replay asked for; else its corrected
symbols count; DATA is taken exactly when its number is the next expected; the acknowledgement of DATA and IDLE is
taken in every case; another type does nothing else. Completes: LINK_EN_WRITE, LINK_RETRAIN_WRITE, LINK_TRAINED,
LINK_TRAINING_TIMEOUT, LINK_FRAME_RX. -/
def Obligations.PortsTrainAndFail : Prop :=
  ∀ (p : Nat) (s : State),
    let x := s.port p
    let JobsFail (t : State) := ∀ c j y, (c, j, y) ∈ portJobs s p → ∀ z, getJob t c j = some z → z.port = p → z.st = .failed
    (∀ src, isOperator s src = true → portLive s p = true →
      (x.st = .disabled → exec (.linkEnWrite src p true) s = .next (s.modPort p fun y => { y with
        ctrl := y.ctrl ||| 0x80000000, st := .training, failsInRow := 0 })) ∧
      (x.st ≠ .disabled → exec (.linkEnWrite src p true) s = .next (s.modPort p fun y => { y with
        ctrl := y.ctrl ||| 0x80000000 })) ∧
      (∃ t, exec (.linkEnWrite src p false) s = .next t ∧ (t.port p).st = .disabled ∧ (t.port p).laneOk = 0 ∧
        (t.port p).ctrl = x.ctrl &&& 0x7FFFFFFF ∧ JobsFail t) ∧
      (x.st = .active → ∃ t, exec (.linkRetrainWrite src p) s = .next t ∧ (t.port p).st = .retrain ∧
        (t.port p).retrains = x.retrains + 1 ∧ t = { s with ports := t.ports, ports2 := t.ports2 }) ∧
      (x.st ≠ .active → exec (.linkRetrainWrite src p) s = .next s)) ∧
    (s.live = true →
      (∀ peer dig ep, x.st = .training ∨ x.st = .retrain →
        let y := s.port2 p
        let out := slotsOut y.wait y.credits (9 * (512 - unacked s p))
        if y.expPort = 0xFF ∨ y.expPort = peer then
          ∃ t, exec (.linkTrained p peer dig ep) s = .next t ∧ (t.port p).st = .active ∧ (t.port p).laneOk = 15 ∧
            (t.port p).peerPort = peer ∧ (t.port p).failsInRow = 0 ∧ (t.port2 p).peerDigest = dig ∧
            (t.port2 p).peerEpoch = ep ∧ (∀ d, t.ctx d = s.ctx d) ∧
            (if x.st = .retrain then (t.port p).rxNext = x.rxNext ∧ (t.port p).txAcked = x.txAcked ∧
                (out.sum = 0 → (t.port p).txNext = x.txNext ∧ (t.port2 p).credits = y.credits) ∧
                (0 < out.sum → (t.port p).txNext = (x.txNext + cdiv out.sum 9) % 4096 ∧
                  (t.port p).tx = x.tx + BitVec.ofNat 64 out.sum ∧ (t.port2 p).credits = subAll y.credits out ∧
                  (t.port2 p).wait = subAll y.wait out)
              else (t.port p).rxNext = 0 ∧ (t.port p).txNext = 0 ∧ (t.port2 p).credits = [4096, 4096, 4096, 4096] ∧
                (t.port2 p).rxUsed = [0, 0, 0, 0] ∧ (t.port2 p).wait = [0, 0, 0, 0])
        else ∃ t, exec (.linkTrained p peer dig ep) s = .next t ∧ (t.port p).failsInRow = x.failsInRow + 1 ∧
          (t.port p).st = if 3 ≤ x.failsInRow + 1 then .failed else .training) ∧
      (x.st = .training ∨ x.st = .retrain → ∃ t, exec (.linkTrainingTimeout p) s = .next t ∧
        (t.port p).failsInRow = x.failsInRow + 1 ∧
        (t.port p).st = (if 3 ≤ x.failsInRow + 1 then .failed else .training) ∧
        (x.st = .retrain ∨ 3 ≤ x.failsInRow + 1 → JobsFail t)) ∧
      (x.st = .active → ∀ symbols,
        (decodeFrame symbols = none → exec (.linkFrameRx p symbols) s =
          .next ((s.modPort p fun y => { y with fecUe := y.fecUe + 1 }).modPort2 p fun y => { y with nakOut := true })) ∧
        ∀ data fec, decodeFrame symbols = some (data, fec) →
          let f := frameOf (payloadNat data)
          let taken := f.ftype = 0 ∧ f.fseq = x.rxNext
          (f.ftype ≠ 0 → f.ftype ≠ 2 → exec (.linkFrameRx p symbols) s =
            .next (s.modPort p fun y => { y with fecSym := y.fecSym + BitVec.ofNat 64 fec })) ∧
          (f.ftype = 0 ∨ f.ftype = 2 → ∃ t, exec (.linkFrameRx p symbols) s = .next t ∧
            (t.port p).fecSym = x.fecSym + BitVec.ofNat 64 fec ∧ (t.port p).txAcked = f.ack ∧
            (t.port p).rxNext = (if taken then (x.rxNext + 1) % 4096 else x.rxNext) ∧
            (t.port p).rx = if taken then x.rx + BitVec.ofNat 64 f.slots.length else x.rx)))

/-- Jobs of a link. An OPEN that has issued: on a port that is not ACTIVE it ends E_LINK; while the host link is held
it waits; past the limits of slots it ends E_JOB; where the peer certificate cannot be read, E_HOSTMEM with the
address; else its job is OPENING on that port and it waits. A CLOSE that no command uses drops the job, tells the peer
of an open one and ends OK. HELLO with the tag of the oldest such job, REPLY and FINISH take an OPENING job on an
ACTIVE port, in this order, through the exchange, each sent by one of the ends: where this end accepts the peer, the
last one makes the job open, with the peer's wire id and epoch and fresh counters, and its OPEN ends OK; where it does
not, the job is gone, its OPEN ends E_LINK, and the failure is counted. An OPEN without a match in time ends E_LINK
and its job is gone. A packet leaves the receive buffer; of an open job at its port, with a good tag, the next counter
and both epochs, it counts; another fails the job and is counted. Completes: LINK_JOB, HELLO, REPLY, FINISH,
LINK_OPEN_TIMEOUT, LINK_PACKET_RX. -/
def Obligations.JobsOpenByTheExchange : Prop :=
  (∀ (c q : Nat) (s : State) (m : Cmd), running? s c q = some m → m.opcode = 0x4B →
    let j := m.f 0x10 16
    let p := m.f 0x12 8
    let f := (s.ctx c).reg.func
    let a := m.f 0x18 64
    (m.fb 0x13 0 2 ≠ 1 → (s.port p).st ≠ .active →
      ∃ t, exec (.linkJob c q) s = .next t ∧ Finished c q .link [p, j] s t) ∧
    (m.fb 0x13 0 2 ≠ 1 → (s.port p).st = .active → s.pcie.phase ≠ .idle → exec (.linkJob c q) s = .next s) ∧
    (m.fb 0x13 0 2 ≠ 1 → (s.port p).st = .active → s.pcie.phase = .idle →
      (jobsFull s c j p = true → ∃ t, exec (.linkJob c q) s = .next t ∧ Finished c q .job [p, j] s t) ∧
      (jobsFull s c j p = false → hostFails s f a 11072 = true → ∃ t fa,
        exec (.linkJob c q) s = .next t ∧ fa = hostFailAddr s f a 11072 ∧
        Finished c q .hostmem [fa % 2 ^ 32, fa / 2 ^ 32] s t) ∧
      (jobsFull s c j p = false → hostFails s f a 11072 = false →
        ∃ t x, exec (.linkJob c q) s = .next t ∧ getJob t c j = some x ∧ x.st = .opening ∧ x.port = p ∧
          x.openSeq = q ∧ x.hs = 0 ∧ (∀ i, i ≠ j → getJob t c i = getJob s c i) ∧
          Acted c q (s.modCtx c fun y => { y with jobs := (t.ctx c).jobs }) t)) ∧
    (m.fb 0x13 0 2 = 1 → (∀ e ∈ (s.ctx c).cmds, e.phase = .issued ∨ e.phase = .acted → e.usesJob j = false) →
      let u := match getJob s c j with
        | some x => closeNotice x s
        | none => s
      ∃ t, exec (.linkJob c q) s = .next t ∧ (∀ i, getJob t c i = if i = j then none else getJob s c i) ∧
        Finished c q .ok [] (u.modCtx c fun y => { y with jobs := (t.ctx c).jobs }) t)) ∧
  (∀ (c j : Nat) (s : State) (x : Job) (m : Cmd), getJob s c j = some x → x.st = .opening →
    (s.port x.port).st = .active → getCmd s c x.openSeq = some m →
    let lower := isLower s x.port
    let Dropped (t : State) := getJob t c j = none ∧ Ended t c x.openSeq .link [x.port, j] ∧
      t.sec = { s.sec with hsFail := s.sec.hsFail + 1, events := s.sec.events ||| 4 }
    (x.hs = 0 → oldestOpening s x = true → exec (.hello c j x.peerTag) s =
      .next (message lower x.port helloSlots (setJob c j { x with hs := 1 } s))) ∧
    (∀ tag, tag ≠ x.peerTag → exec (.hello c j tag) s = .next s) ∧
    (∀ ok serial, x.hs = 1 → if acceptsPeer s x ok lower serial then
        exec (.reply c j ok serial) s = .next (setJob c j { x with hs := 2 } (message (!lower) x.port replySlots s))
      else ∃ t, exec (.reply c j ok serial) s = .next t ∧ Dropped t) ∧
    (∀ ok serial wire ep, x.hs = 2 → if acceptsPeer s x ok (!lower) serial then
        ∃ t y, exec (.finish c j ok serial wire ep) s = .next t ∧ getJob t c j = some y ∧ y.st = .open ∧
          y.peerWire = wire ∧ y.peerEpoch = ep ∧ y.port = x.port ∧ Ended t c x.openSeq .ok []
      else ∃ t, exec (.finish c j ok serial wire ep) s = .next t ∧ Dropped t)) ∧
  (∀ (c q : Nat) (s : State) (m : Cmd) (x : Job), acted? s c q 0x4B = some m →
    getJob s c (m.f 0x10 16) = some x → x.st = .opening → ∃ t, exec (.linkOpenTimeout c q) s = .next t ∧
      getJob t c (m.f 0x10 16) = none ∧ Ended t c q .link [x.port, m.f 0x10 16]) ∧
  ∀ (p vc : Nat) (h : BitVec 512) (tagOk : Bool) (s : State), s.live = true →
    let wire := lJob h
    let c := wire / 16
    let Left (t : State) := (t.port2 p).rxUsed = (s.port2 p).rxUsed.set vc ((s.port2 p).rxUsed.getD vc 0 - (lLen h + 1))
    (wire = 0xFFFF ∨ 64 < lLen h ∨ 7 < lType h → ∃ t, exec (.linkPacketRx p vc h tagOk) s = .next t ∧ Left t ∧
      t = { s with ports2 := t.ports2 }) ∧
    ∀ x : Job, wire ≠ 0xFFFF → lLen h ≤ 64 → lType h ≤ 7 → getJob s c (wire % 16) = some x → x.st = .open → x.port = p →
      let good := tagOk = true ∧ lPctr h = x.pctrRx ∧ lEpochTx h = x.peerEpoch ∧ lEpochRx h = ctxEpoch s c
      (good → ∃ t, exec (.linkPacketRx p vc h tagOk) s = .next t ∧ Left t ∧
        getJob t c (wire % 16) = some { x with pctrRx := x.pctrRx + 1 } ∧ (t.port p).authfail = (s.port p).authfail) ∧
      (¬ good → ∃ t y, exec (.linkPacketRx p vc h tagOk) s = .next t ∧ Left t ∧
        getJob t c (wire % 16) = some y ∧ y.st = .failed ∧ (t.port p).authfail = (s.port p).authfail + 1)

/-- The coder commands. A VC_OPEN that has issued waits while the host link is held; where its parameter block reads
it opens its stream with those parameters, no frame coded, no reference held and none in hand, claims its WORK and JOB
regions, and ends OK. Each of the others needs its stream (E_VC_STREAM without): VC_CLOSE closes it, abandons every
core's claim on it and ends OK; VC_RATE stores the rates for the next key frame and ends OK; VC_ENCODE and VC_DECODE,
where the stream has no frame in hand, put one there for this command at pass 1, with nothing committed, and the
command goes on; the rates stored take effect where it is a key frame. Completes: VC_OPEN, VC_CLOSE, VC_RATE,
VC_ENCODE, VC_DECODE. -/
def Obligations.CoderCommandsOpenAndFeedStreams : Prop :=
  ∀ (c q : Nat) (s : State) (m : Cmd),
    (running? s c q = some m → m.opcode = 0x60 → s.pcie.phase ≠ .idle → exec (.vcOpen c q) s = .next s) ∧
    (running? s c q = some m → m.opcode = 0x60 → s.pcie.phase = .idle → ∀ p, paramBlock s c m = some p →
      ∃ t, exec (.vcOpen c q) s = .next t ∧ (∀ v, v ≠ m.vs → getVc t c v = getVc s c v) ∧
      (∃ y, getVc t c m.vs = some y ∧ y.params = BitVec.ofNat 1024 p ∧ y.newRate = none ∧ y.frames = 0 ∧
        y.frame = none ∧ y.needKey = false ∧ y.refs = [] ∧ y.cores = vcCores s c p) ∧
      (∀ r, getRegion t c r = (getRegion s c r).map fun z =>
        if r = vpWork p ∨ r = vpJob p then { z with claimed := true } else z) ∧
      Finished c q .ok [] (s.modCtx c fun x => { x with vcs := (t.ctx c).vcs, regions := (t.ctx c).regions }) t) ∧
    (ready? s c q 0x61 = some m → ∃ t, exec (.vcClose c q) s = .next t ∧ getVc t c m.vs = none ∧ Ended t c q .ok [] ∧
      (∀ d, d ≠ c → t.ctx d = s.ctx d) ∧ ∀ x, getVc s c m.vs = some x → ∀ r, r = x.work ∨ r = x.job →
        ∀ z, getRegion t c r = some z → z.claimed = false) ∧
    (∀ i op, (i = .vcRate c q ∧ op = 0x64) ∨ (i = .vcEncode c q ∧ op = 0x62) ∨ (i = .vcDecode c q ∧ op = 0x63) →
      ready? s c q op = some m → getVc s c m.vs = none → ∃ t, exec i s = .next t ∧ Finished c q .vcStream [] s t) ∧
    (ready? s c q 0x64 = some m → ∀ x, getVc s c m.vs = some x → ∃ t, exec (.vcRate c q) s = .next t ∧
      getVc t c m.vs = some { x with newRate := some (m.f 0x18 32, m.f 0x1C 32) } ∧
      Finished c q .ok [] (s.modCtx c fun y => { y with vcs := (t.ctx c).vcs }) t) ∧
    (∀ x, getVc s c m.vs = some x → x.frame = none →
      (ready? s c q 0x62 = some m → ∃ t y f, exec (.vcEncode c q) s = .next t ∧ getVc t c m.vs = some y ∧
        y.frame = some f ∧ f.q = q ∧ f.pass = 1 ∧ f.key = nextKey x (m.fb 0x18 0 1 == 1) ∧ f.committed = [] ∧
        f.reissues = 0 ∧ y.frames = x.frames ∧ y.refs = x.refs ∧ y.fullness = x.fullness ∧ getCmd t c q = getCmd s c q ∧
        let p := match x.newRate with
          | some r => if f.key then setRate x.params.toNat r else x.params.toNat
          | none => x.params.toNat
        f.np = vpPieces p ∧ y.params = BitVec.ofNat 1024 p ∧ y.newRate = (if f.key then none else x.newRate)) ∧
      (ready? s c q 0x63 = some m → ∃ t y f, exec (.vcDecode c q) s = .next t ∧ getVc t c m.vs = some y ∧
        y.frame = some f ∧ f.q = q ∧ f.pass = 1 ∧ f.committed = [] ∧ f.reissues = 0 ∧ 1 ≤ f.np ∧ f.np ≤ 128 ∧
        y.frames = x.frames ∧ y.params = x.params ∧ y.refs = x.refs ∧ getCmd t c q = getCmd s c q))

/-- A coder core. An idle core in service with a waiting frame draws its next ticket, one below the frame's pieces
names that piece, and is BUSY with it; with none waiting nothing happens. A finished piece counts as committed, and
for the core, where its word of the job block was 0, and not again otherwise. A claim's first expiry marks it and
re-issues its piece: the frame counts a re-issue, or fails with E_VC_RETRIES when they are used up; a second expiry,
the operator's VC_RESET or a fault on a live device resets the core: RESETTING, no claim, one more reset. The end of
the reset makes it idle. A frame that no core attempts ends with its failure, or with E_VC_CORE where no core of its
stream is in service; short of its pieces it waits. Where its command need not wait for the host link, a decode that
has all of them ends with the unit's record (no picture shown: FRAMES 0) and the references that the unit leaves, one
it cannot parse with E_VC_BITSTREAM, and from then on only a key unit is accepted; an AV1 encode cut into tiles then
filters at the same pass. Completes: VC_FRAME_START, VC_PIECE_DONE, VC_CLAIM_TIMEOUT, VC_RESET, VC_CORE_FAULT,
VC_CORE_RESET_DONE, VC_FRAME_ASSEMBLE. -/
def Obligations.CoresClaimCommitAndReset : Prop :=
  ∀ (n : Nat) (s : State),
    let x := (s.slab2 n).vc
    let Resets (t : State) := (t.slab2 n).vc.st = .resetting ∧ (t.slab2 n).vc.claim = none ∧
      (t.slab2 n).vc.resets = x.resets + 1
    (coreServes s n = true → x.st = .idle → x.claim = none →
      (waitingFrame s (posOf s n) = none → exec (.vcFrameStart n) s = .next s) ∧
      ∀ c v y f j, waitingFrame s (posOf s n) = some (c, v) → getVc s c v = some y → y.frame = some f →
        jobPlace s c y.job = some j → jobAdmits s n c j .iadd = true → jobWord s j 0 < f.np →
        let k := jobWord s j 0
        exec (.vcFrameStart n) s = .next ((jobPut j 0 (k + 1) s).modSlab2 n fun z => { z with vc := { z.vc with
          st := .busy, ctx := c, stream := v, claim := some { ticket := k, piece := some k, timedOut := false } } })) ∧
    (∀ k p y f j, x.claim = some k → k.piece = some p → getVc s x.ctx x.stream = some y → y.frame = some f →
      jobPlace s x.ctx y.job = some j →
      (x.st = .busy → rowReady s j y.params.toNat p = true → jobAdmits s n x.ctx j .swap = true →
        ∃ t y' f', exec (.vcPieceDone n) s = .next t ∧ getVc t x.ctx x.stream = some y' ∧ y'.frame = some f' ∧
          if jobWord s j (0x40 + 4 * p) = 0 then
            f'.committed = f.committed ++ [p] ∧ (t.slab2 n).vc.pieces = x.pieces + 1
          else f'.committed = f.committed ∧ (t.slab2 n).vc.pieces = x.pieces) ∧
      (k.timedOut = false → f.fail = none → p ∉ f.committed →
        jobAdmits s (seqSlab s (s.ctx x.ctx).reg.part) x.ctx j .swap = true →
        ∃ t y' f', exec (.vcClaimTimeout n) s = .next t ∧ getVc t x.ctx x.stream = some y' ∧ y'.frame = some f' ∧
          (t.slab2 n).vc.claim = some { k with timedOut := true } ∧
          if f.np ≤ f.reissues then f'.fail = some (Status.vcRetries.code, []) ∧ f'.reissues = f.reissues
          else f'.fail = none ∧ f'.reissues = f.reissues + 1 ∧ (t.slab2 n).vc.reissues = x.reissues + 1)) ∧
    (∀ k p, x.claim = some k → k.piece = some p → k.timedOut = true →
      ∃ t, exec (.vcClaimTimeout n) s = .next t ∧ Resets t) ∧
    (coreServes s n = true → x.st ≠ .resetting →
      (∀ src, isOperator s src = true → ∃ t, exec (.vcReset src n) s = .next t ∧ Resets t) ∧
      (s.live = true → ∃ t, exec (.vcCoreFault n) s = .next t ∧ Resets t)) ∧
    (x.st = .resetting → exec (.vcCoreResetDone n) s = .next (s.modSlab2 n fun z =>
      { z with vc := { z.vc with st := .idle, claim := none, ctx := 0, stream := 0 } })) ∧
    (∀ c v y f, getVc s c v = some y → y.frame = some f → attempting s c v = false →
      (∀ code dw, f.fail = some (code, dw) → ∃ t, exec (.vcFrameAssemble c v) s = .next t ∧
        getVc t c v = some { y with frame := none } ∧ ∀ m, getCmd s c f.q = some m →
          getCmd t c f.q = some { m with phase := .done, status := code, dw := dw.map w32 }) ∧
      (f.fail = none → coresLeft s y = false → ∃ t, exec (.vcFrameAssemble c v) s = .next t ∧
        getVc t c v = some { y with frame := none } ∧ ((getCmd s c f.q).isSome → Ended t c f.q .vcCore [])) ∧
      (f.fail = none → coresLeft s y = true → f.committed.length ≠ f.np → exec (.vcFrameAssemble c v) s = .next s) ∧
      (∀ m j, f.fail = none → coresLeft s y = true → f.committed.length = f.np → getCmd s c f.q = some m →
        jobPlace s c y.job = some j → hostWaits s m = false → jobAdmits s (seqSlab s (s.ctx c).reg.part) c j .set = true →
        let u := jobPut j 4 (jobWord s j 4 ||| 1) s
        (vpDecode y.params.toNat = false → vpHevc y.params.toNat = false → vpSplit y.params.toNat = 1 →
          f.filter = false → ∃ t y' f', exec (.vcFrameAssemble c v) s = .next t ∧ getVc t c v = some y' ∧
            y'.frame = some f' ∧ f'.filter = true ∧ f'.pass = f.pass ∧ f'.committed = [] ∧
            f'.np = cdiv (vpRows y.params.toNat) 8) ∧
        (vpDecode y.params.toNat = true →
          let held := y.refs.map VcRef.pixels
          let r := Config.decodeUnit y.params.toNat y.frames held (unitBytes m u c)
          let w := setVc c v { y with frame := none } (dropClaims c v u)
          let rd := (List.range (m.f 0x18 32)).flatMap fun i => (m.opd u c (m.f 0x12 16)).cells [i] false
          accFail w c rd [] [] = none →
          (m.f 0x18 32 ≠ 0 ∧ y.needKey = true ∧ r.2.1 = false ∨ r.1 = Status.vcBitstream.code →
            ∃ t, exec (.vcFrameAssemble c v) s = .next t ∧ Ended t c f.q .vcBitstream [] ∧
              getVc t c v = some { y with frames := y.frames + 1, needKey := true, frame := none }) ∧
          (y.needKey = false → r.1 ≠ Status.vcBitstream.code → r.1 ≠ Status.vcUnsupported.code → r.2.2.1 = false →
            ∃ t, exec (.vcFrameAssemble c v) s = .next t ∧ Ended t c f.q .ok [0, 0] ∧
              getVc t c v = some { y with
                frames := y.frames + 1, needKey := false, frame := none,
                refs := (Config.decodeRefs y.params.toNat y.frames held (unitBytes m u c)).map fun z =>
                  { pixels := z, field := [], frame := y.frames } }))))

/-- The security block. Ending an operation clears BUSY, shows its result, sets DONE and posts the edge. ID_RECORD and
ATTEST end with 1 on a bad address or without an identity, 6 on a FREE context without DEV, 5 where SEC_LEN is too
short, 2 where the host fails, and otherwise with 0 after exactly their bytes are in host memory. STAGE_FW and
STAGE_ARM end with the first fault of R441 and stage nothing, or with 0 and the verified image in the slot that is not
in use (in the recovery state, A where A does not verify); STAGE_ARM ends with 1 while the previous Armature is in
use, and leaves no previous Armature. CERT_ADD adds a valid role 2 certificate that is not there yet, while there is
room. With no such operation running, or while the host link is held, each changes nothing. The result codes of the
staging steps are the model's reading (log 25). Completes: ID_RECORD, ATTEST, STAGE_FW, STAGE_ARM, CERT_ADD. -/
def Obligations.SecurityOperationsEndWithTheirResult : Prop :=
  ∀ s : State,
    let a := s.sec.addr.toNat
    let n := s.sec.len.toNat
    let Writes (run : Host.Outcome State Fault Refusal) (bs : List Byte) (u : State) :=
      (secBad s = true → run = .next (secDone 1 s)) ∧
      (secBad s = false → secNoCtx s = true → run = .next (secDone 6 s)) ∧
      (secBad s = false → secNoCtx s = false →
        (n < bs.length → run = .next (secDone 5 u)) ∧
        (bs.length ≤ n → hostFails s 0 a bs.length = true → run = .next (secDone 2 u)) ∧
        (bs.length ≤ n → hostFails s 0 a bs.length = false → run = .next (secDone 0 (hostWrite u 0 a bs)) ∧
          hostRead (hostWrite u 0 a bs) 0 a bs.length = bs))
    (∀ (r : Nat) (u : State), Posted { u with sec := { u.sec with
      busy := false, result := r, events := u.sec.events ||| 1 } } (secDone r u)) ∧
    (∀ type floor i, stageRead s type floor = .ok i → secBad s = false ∧ hostFails s 0 a n = false ∧ i.good = true ∧
      floor.toNat ≤ i.svn.toNat ∧ i = parseImage s.sec.certs (hostRead s 0 a n)) ∧
    (∀ i op, (i = .idRecord ∧ op = 1) ∨ (i = .attest ∧ op = 2) ∨ (i = .stageFw ∧ op = 3) ∨ (i = .stageArm ∧ op = 4) ∨
      (i = .certAdd ∧ op = 5) → secOp? s op = false → exec i s = .next s) ∧
    (secOp? s 1 = true → Writes (exec .idRecord s) (idRecord s) s) ∧
    (secOp? s 2 = true → Writes (exec .attest s) (report s (Config.freeValue 80 s.env.free).toNat)
      { s with env := { s.env with free := s.env.free + 1 } }) ∧
    (secOp? s 3 = true →
      (∀ r, stageRead s 1 s.sec.fwFloor = .error r → exec .stageFw s = .next (secDone r s)) ∧
      ∀ i, stageRead s 1 s.sec.fwFloor = .ok i → exec .stageFw s = .next (secDone 0 { s with sec :=
        if (if s.pkc.recovery then slotOk s.sec.fwA s.sec.fwFloor else !s.sec.fwRun) then { s.sec with fwB := some i }
        else { s.sec with fwA := some i } })) ∧
    (secOp? s 4 = true →
      (prevInUse s = true → exec .stageArm s = .next (secDone 1 s)) ∧
      (prevInUse s = false →
        (∀ r, stageRead s 2 s.sec.armFloor = .error r → exec .stageArm s = .next (secDone r s)) ∧
        ∀ i, stageRead s 2 s.sec.armFloor = .ok i → exec .stageArm s = .next (secDone 0 { s with arm :=
          if (if s.pkc.recovery then slotOk s.arm.slotA s.sec.armFloor else !s.arm.curB) then
            { s.arm with slotB := some i, prevValid := false }
          else { s.arm with slotA := some i, prevValid := false } }))) ∧
    (secOp? s 5 = true →
      let l := hostRead s 0 a 5504
      let id := BitVec.ofNat 384 (num l 0x10 48)
      (secBad s = true ∨ n < 5504 → exec .certAdd s = .next (secDone 1 s)) ∧
      (secBad s = false → 5504 ≤ n →
        (hostFails s 0 a 5504 = true → exec .certAdd s = .next (secDone 2 s)) ∧
        (hostFails s 0 a 5504 = false →
          (Config.certValid l = false ∨ num l 4 2 ≠ 2 → exec .certAdd s = .next (secDone 3 s)) ∧
          (Config.certValid l = true → num l 4 2 = 2 →
            (id ∈ s.sec.certs → exec .certAdd s = .next (secDone 0 s)) ∧
            (id ∉ s.sec.certs → Config.certRoom ≤ s.sec.certs.length → exec .certAdd s = .next (secDone 5 s)) ∧
            (id ∉ s.sec.certs → s.sec.certs.length < Config.certRoom → exec .certAdd s = .next (secDone 0
              { s with sec := { s.sec with certs := s.sec.certs ++ [id] } }))))))

/-- Operations on Armatures. Each does nothing unless it waits to start. A refusal leaves all but ARM_STATUS, the
offset and the DONE event as it was; an accepted operation ends at once with 0 where no partition has to move, and
otherwise stays BUSY with those partitions to do, issue stopped in each. APPLY refuses a mask (1), another slot that
does not verify (2), an epoch no greater (3), an inadmissible payload (5, its offset) and a changed partition in use
(4); accepted, the slots change roles, nothing is reverted, the floors rise to the Armature's, and its power limit and
rate cap hold. REVERT refuses an undefined partition (1), no previous Armature (6) or one that does not verify (7),
then as APPLY; accepted, the power limit is the current Armature's. RETURN refuses an undefined partition and then as
APPLY. CHECK refuses an undefined partition and else starts an exchange in each. Completes: APPLY, REVERT, RETURN,
CHECK. -/
def Obligations.ArmaturesAreAppliedRevertedAndReturned : Prop :=
  ∀ s : State,
    let Refused (i : Instr) (r o : Nat) := ∃ t, exec i s = .next t ∧ Posted { s with
      arm := { s.arm with busy := false, result := r, refuseOff := w32 o, events := s.arm.events ||| 1 },
      arm2 := { s.arm2 with started := false, todo := [] } } t
    let Starts (l : List Nat) (t : State) :=
      if l = [] then t.arm.busy = false ∧ t.arm.result = 0 else t.arm.busy = true ∧ t.arm2.started = true ∧
        t.arm2.todo = l ∧ ∀ p, p ∈ l → StopCause.armSwitch ∈ (t.part2 p).stopped
    let mixed (todo : List Nat) := mixPayload (payOf (armCur s)) (payOf (armPrev s)) fun n =>
      if todo.contains n then !revertedPart s n else revertedPart s n
    let none_ := 0xFFFFFFFF
    (∀ i op, (i = .armApply ∧ op = 1) ∨ (i = .armRevert ∧ op = 2) ∨ (i = .armReturn ∧ op = 3) ∨ (i = .armCheck ∧ op = 4) →
      (armOp? s op = false → exec i s = .next s) ∧
      (armOp? s op = true → op ≠ 1 → maskBad s = true → Refused i 1 none_)) ∧
    (armOp? s 1 = true →
      (s.arm.cmdMask ≠ 0 → Refused .armApply 1 none_) ∧
      (s.arm.cmdMask = 0 → slotOk (armOther s) s.sec.armFloor = false → Refused .armApply 2 none_) ∧
      ∀ i, s.arm.cmdMask = 0 → armOther s = some i → slotOk (some i) s.sec.armFloor = true →
        let e := ((armCur s).map fun x => x.epoch.toNat).getD 0
        (i.epoch.toNat ≤ e → Refused .armApply 3 none_) ∧
        (∀ o, e < i.epoch.toNat → inadmissible s i.payload = some o → Refused .armApply 5 o) ∧
        (e < i.epoch.toNat → inadmissible s i.payload = none →
          (changedInUse s (List.range 24) (some i) = true → Refused .armApply 4 none_) ∧
          (changedInUse s (List.range 24) (some i) = false → ∃ t, exec .armApply s = .next t ∧
            t.arm.curB = !s.arm.curB ∧ t.arm.prevValid = true ∧ t.arm.reverted = 0 ∧
            t.sec.armFloor = (if s.sec.armFloor.toNat < i.svn.toNat then i.svn else s.sec.armFloor) ∧
            t.sec.fwFloor = w32 (max s.sec.fwFloor.toNat (pf i.payload 8 0 32)) ∧
            t.pkg.powerLimit = BitVec.ofNat 16 (payField (some i) 4 0 16) ∧ t.pkg.rateCap = payField (some i) 6 1 5 ∧
            Starts ((List.range 24).filter fun p => ((s.part p).defd || entryValid i.payload p) && !revertedPart s p) t))) ∧
    (armOp? s 2 = true → maskBad s = false →
      (armPrev s = none → Refused .armRevert 6 none_) ∧
      (∀ i, armPrev s = some i → slotOk (some i) s.sec.armFloor = false → Refused .armRevert 7 none_) ∧
      ∀ i, armPrev s = some i → slotOk (some i) s.sec.armFloor = true →
        let l := (maskParts s).filter fun p => !revertedPart s p
        (∀ o, inadmissible s (mixed l) = some o → Refused .armRevert 5 o) ∧
        (inadmissible s (mixed l) = none → changedInUse s l (some i) = true → Refused .armRevert 4 none_) ∧
        (inadmissible s (mixed l) = none → changedInUse s l (some i) = false → ∃ t, exec .armRevert s = .next t ∧
          Starts l t ∧ t.pkg.powerLimit = BitVec.ofNat 16 (payField (armCur s) 4 0 16))) ∧
    (armOp? s 3 = true → maskBad s = false →
      let l := (maskParts s).filter (revertedPart s)
      (∀ o, inadmissible s (mixed l) = some o → Refused .armReturn 5 o) ∧
      (inadmissible s (mixed l) = none → changedInUse s l (armCur s) = true → Refused .armReturn 4 none_) ∧
      (inadmissible s (mixed l) = none → changedInUse s l (armCur s) = false → ∃ t, exec .armReturn s = .next t ∧
        Starts l t)) ∧
    (armOp? s 4 = true → maskBad s = false → ∃ t, exec .armCheck s = .next t ∧
      if maskParts s = [] then t.arm.busy = false ∧ t.arm.result = 0
      else t.arm = s.arm ∧ t.arm2.started = true ∧ t.arm2.todo = maskParts s ∧
        ∀ p, p ∈ maskParts s → (t.part2 p).exch.isSome)

/-- Partitions under an operation and their digest exchanges. A partition of the running operation with nothing issued
in flight, and no exchange running, switches: it has its entry of the Armature it moves to (a partition that does not
change keeps its low-water mark), it is no longer to do, BUSY ends with the last, and a defined one starts an
exchange. A reply that does not come counts as a disagreement. The replies in on a live device: every slab agrees, and
the exchange is over and no disagreement stops issue; or those that do not, timed out or with another epoch, are kept,
told in DISCORD, counted, and issue stops. The repair, with nothing in flight: the epoch is sent again to them and the
exchange repeated, at most three times; then each of them is RETIRED, and issue resumes. Completes: PARTITION_SWITCH,
DIGEST_REPLY_TIMEOUT, DIGEST_EXCHANGE, DISCORD_REPAIR. -/
def Obligations.PartitionsSwitchAndAgree : Prop :=
  ∀ (p : Nat) (s : State),
    let x := s.part2 p
    (s.arm.busy = true → s.arm2.started = true → s.arm.cmdOp ≠ 4 → p ∈ s.arm2.todo → openCmds s p = [] →
      exchRuns s = false →
      let target := switchTarget s
      let new := partFrom target p
      let todo := s.arm2.todo.filter (· != p)
      ∃ t, exec (.partitionSwitch p) s = .next t ∧
        t.part p = (if changedPart (payOf (armRun s p)) (payOf target) p then new
          else { new with kvFreeMin := (s.part p).kvFreeMin }) ∧
        (∀ q, q ≠ p → t.part q = s.part q) ∧ t.arm2.todo = todo ∧ (t.arm.busy = true ↔ todo ≠ []) ∧
        (new.defd = true → (t.part2 p).exch.isSome) ∧
        (new.defd = false → StopCause.armSwitch ∉ (t.part2 p).stopped)) ∧
    (∀ e slab, x.exch = some e → slab ∈ e.waiting → exec (.digestReplyTimeout p slab) s = .next (s.modPart2 p fun y =>
      { y with exch := some { e with waiting := e.waiting.filter (· != slab), bad := e.bad ++ [slab] } })) ∧
    (s.live = true → ∀ e, x.exch = some e → e.judged = false →
      let bad := (e.bad.filter fun n => (s.slab n).st != .retired) ++ e.waiting.filter fun n =>
        (s.slab n).st != .retired && (aget (s.slab2 n).epochs p).getD 0 != (s.part p).epoch
      ∃ t, exec (.digestExchange p) s = .next t ∧ (t.part2 p).concCount = x.concCount + 1 ∧
        if bad = [] then (t.part2 p).exch = none ∧ StopCause.discord ∉ (t.part2 p).stopped ∧
          (t.part2 p).concDiscords = x.concDiscords
        else (t.part2 p).exch = some { e with waiting := [], bad := bad, judged := true } ∧
          StopCause.discord ∈ (t.part2 p).stopped ∧ (t.part2 p).concDiscords = x.concDiscords + 1 ∧
          t.arm2.discordPart = p ∧ t.arm2.discord = BitVec.ofNat 128 (slabMask bad)) ∧
    (∀ e, x.exch = some e → e.judged = true → openCmds s p = [] →
      (e.attempt < 3 → exec (.discordRepair p) s = .next ((resendEpoch p e.bad s).modPart2 p fun y => { y with
        exch := some { waiting := liveSlabs s, bad := [], attempt := e.attempt + 1, judged := false } })) ∧
      (3 ≤ e.attempt → ∃ t, exec (.discordRepair p) s = .next t ∧ (t.part2 p).exch = none ∧
        StopCause.discord ∉ (t.part2 p).stopped ∧ ∀ n, n ∈ e.bad → (t.slab n).st = .retired))

/-- The meter. Powered, it measures up to each event: the counter and the energy grow by what the event's sample says.
A period's tick, a port request and the mirror's request (its edge then falls), a power-up and a change of the seal
are triggers 0 to 4. Where the spacing since the last record has passed, a reading is formed with the next number: its
trigger bit is set, it ends at this counter and energy, it is the newest of the 8,192 kept, and no trigger waits any
more. Otherwise the trigger waits and no reading is added; the end of the spacing serves what waits. A power-up of a
fitted meter counts, is audited (kind 4) and its reading shows the gap; a change of the seal is audited (3 intact, 2
broken). At a power-down counter and energy stay and what waits is lost. Without power nothing is measured. Completes:
METER_PERIOD_TICK, M_READ_REQ, MIRROR_REQUEST, METER_SPACING_END, METER_POWER_UP, METER_POWER_DOWN, SEAL_CHANGE. -/
def Obligations.TheMeterFormsReadingsWhenTriggered : Prop :=
  ∀ (s : State) (x : MeterSample),
    let m := s.meter
    let ctr := m.ctr + BitVec.ofNat 64 x.cycles
    let energy := m.energy + BitVec.ofNat 64 x.energy
    let spaced := m.records = [] ∨ (lastEnd m).1 + 2400000 ≤ ctr.toNat
    let Measured (t : State) := t.meter.ctr = ctr ∧ t.meter.energy = energy
    let Reading (b : Nat) (t : State) := t.meter.rseq = m.rseq + 1 ∧ t.meter.waiting = 0 ∧ ∃ r : ReadingRec,
      t.meter.records = (r :: m.records).take 8192 ∧ bit r.r.kind b = true ∧ r.r.rseq = m.rseq + 1 ∧
      r.r.ctrStart = (lastEnd m).1 ∧ r.r.ctrEnd = ctr.toNat ∧ r.r.eTotal = energy.toNat ∧
      r.r.eInterval = energy.toNat - (lastEnd m).2 ∧ (b = 3 → bit r.r.flags 1 = true)
    let Waits (w : Nat) (t : State) := t.meter.rseq = m.rseq ∧ t.meter.records = m.records ∧ t.meter.waiting = w
    let Triggered (b : Nat) (t : State) := Measured t ∧ (spaced → Reading b t) ∧ (¬ spaced → Waits (m.waiting ||| sh 1 b) t)
    let audited (k : Nat) (a : Audit) := a.aseq = m.audit.length + 1 ∧ a.kind = k ∧ a.rseq = m.rseq
    (m.powered = true →
      ((m.ctr.toNat + x.cycles) % (m.period.toNat * 24000000) = 0 →
        ∃ t, exec (.meterPeriodTick x) s = .next t ∧ Triggered 0 t ∧ t.meter.audit = m.audit) ∧
      (∃ t, exec (.mReadReq x) s = .next t ∧ Triggered 1 t ∧ t.meter.audit = m.audit) ∧
      (s.mtr.edge = true → ∃ t, exec (.mirrorRequest x) s = .next t ∧ Triggered 2 t ∧ t.mtr = { s.mtr with edge := false } ∧
        (spaced → ∃ r, t.meter2.mirrorOut = s.meter2.mirrorOut ++ [r] ∧ r.r.rseq = m.rseq + 1)) ∧
      (∃ t, exec (.meterSpacingEnd x) s = .next t ∧ Measured t ∧
        (m.waiting ≠ 0 → spaced → t.meter.rseq = m.rseq + 1 ∧ t.meter.waiting = 0) ∧
        (m.waiting = 0 ∨ ¬ spaced → Waits m.waiting t)) ∧
      (∃ t, exec (.meterPowerDown x) s = .next t ∧ Measured t ∧ Waits 0 t ∧ t.meter.powered = false) ∧
      (∀ c f, ∃ t, exec (.sealChange c f x) s = .next t ∧ Measured t ∧ t.meter.coverClosed = c ∧ t.meter.filmOk = f ∧
        ((c && f) = (m.coverClosed && m.filmOk) → Waits m.waiting t ∧ t.meter.audit = m.audit) ∧
        ((c && f) ≠ (m.coverClosed && m.filmOk) → Triggered 4 t ∧ (m.audit.length < 4096 → ∃ a,
          t.meter.audit = a :: m.audit ∧ audited (if (c && f) = true then 3 else 2) a)))) ∧
    (m.powered = false →
      (∀ i, i = .meterPeriodTick x ∨ i = .mReadReq x ∨ i = .mirrorRequest x ∨ i = .meterSpacingEnd x ∨
        i = .meterPowerDown x → exec i s = .next s) ∧
      (∀ c f, exec (.sealChange c f x) s = .next { s with meter := { m with coverClosed := c, filmOk := f } }) ∧
      (s.meter2.fitted = false → exec (.meterPowerUp x) s = .next s) ∧
      (s.meter2.fitted = true → ∃ t, exec (.meterPowerUp x) s = .next t ∧ Triggered 3 t ∧ t.meter.powered = true ∧
        t.meter2.powerups = s.meter2.powerups + 1 ∧ (m.audit.length < 4096 → ∃ a, t.meter.audit = a :: m.audit ∧ audited 4 a)))

/-- The meter's port and the mirror. Powered, a period of 60 to 86,400 seconds is audited with the old and the new
value and takes effect while AUDIT_FULL is clear; any other is refused and nothing changes. A port write sets the
address; with the four bytes of one register it writes the period, a port request, M_SEL's halves or M_ASEL, and any
other register is refused. A port read answers that many bytes of the port's space from the address, which moves on by
them. Without power writes change nothing and a read answers nothing. The operator's snapshot request raises the edge
and waits, unless one waits already; without a meter it fails. A record formed for the mirror replaces the snapshot,
counts, and ends the request; a time-out ends it with the failure event. That a write which covers a register in part
is refused is the model's choice (log 45). Completes: M_PERIOD_WRITE, METER_PORT_WRITE, METER_PORT_READ, MTR_SNAP_REQ,
MIRROR_RECORD, MIRROR_TIMEOUT. -/
def Obligations.ThePortAndTheMirrorServeReadings : Prop :=
  ∀ s : State,
    let m := s.meter
    let Period (v : Nat) (t : State) :=
      if 60 ≤ v ∧ v ≤ 86400 ∧ m.audit.length < 4032 then t.meter.period = w32 v ∧ t.meter.refused = false ∧
        ∃ a, t.meter.audit = a :: m.audit ∧ a.kind = 1 ∧ a.old = m.period.toNat ∧ a.new = v ∧ a.ctr = m.ctr.toNat ∧
          a.eTotal = m.energy.toNat
      else t.meter.period = m.period ∧ t.meter.refused = true ∧ t.meter.audit = m.audit
    let fails (u : State) (t : State) := Posted { u with mtr := { u.mtr with
      pend := false, events := u.mtr.events ||| 2 } } t
    (m.powered = true →
      (∀ v, ∃ t, exec (.mPeriodWrite v) s = .next t ∧ Period v.toNat t ∧ t = { s with meter := t.meter }) ∧
      (∀ a, exec (.meterPortWrite a []) s = .next { s with meter := { m with addr := a } }) ∧
      (∀ a b0 b1 b2 b3, let v := num [b0, b1, b2, b3] 0 4
        ∃ t, exec (.meterPortWrite a [b0, b1, b2, b3]) s = .next t ∧ t = { s with meter := t.meter } ∧
          t.meter.addr = a ∧ t.meter.records = m.records ∧
          (a = 0x0C → Period v t) ∧
          (a = 0x10 → t.meter.waiting = (if bit v 0 then m.waiting ||| 2 else m.waiting) ∧ t.meter.refused = false) ∧
          (a = 0x1C → t.meter.sel = (m.sel >>> 32 <<< 32) + BitVec.ofNat 64 v ∧ t.meter.refused = false) ∧
          (a = 0x20 → t.meter.sel = BitVec.ofNat 64 (sh v 32 + m.sel.toNat % 2 ^ 32) ∧ t.meter.refused = false) ∧
          (a = 0x24 → t.meter.asel = w32 v ∧ t.meter.refused = false) ∧
          (a ≠ 0x0C → a ≠ 0x10 → a ≠ 0x1C → a ≠ 0x20 → a ≠ 0x24 →
            t.meter = { m with addr := a, refused := true })) ∧
      (∀ n, exec (.meterPortRead n) s = .next { s with
        env := { s.env with resp := .data ((List.range n).map fun i =>
          meterByte s (selRecord m) (selAudit m) ((m.addr.toNat + i) % 2 ^ 16)) },
        meter := { m with addr := BitVec.ofNat 16 (m.addr.toNat + n) } })) ∧
    (m.powered = false → (∀ v, exec (.mPeriodWrite v) s = .next s) ∧ (∀ a d, exec (.meterPortWrite a d) s = .next s) ∧
      ∀ n, exec (.meterPortRead n) s = .next { s with env := { s.env with resp := .none } }) ∧
    (∀ src, isOperator s src = true →
      (s.mtr.pend = true → exec (.mtrSnapReq src) s = .next s) ∧
      (s.mtr.pend = false → s.meter2.fitted = true → exec (.mtrSnapReq src) s = .next { s with mtr := { s.mtr with
        pend := true, edge := true, actReq := activities s } }) ∧
      (s.mtr.pend = false → s.meter2.fitted = false → ∃ t, exec (.mtrSnapReq src) s = .next t ∧
        fails { s with mtr := { s.mtr with present := false } } t)) ∧
    (s.meter2.mirrorOut = [] → exec .mirrorRecord s = .next s) ∧
    (∀ x r, s.meter2.mirrorOut = x :: r → ∃ t, exec .mirrorRecord s = .next t ∧ t.meter2 = { s.meter2 with mirrorOut := r } ∧
      t.meter = m ∧ t.mtr.snap = some x ∧ t.mtr.snapSeq = s.mtr.snapSeq + 1 ∧ t.mtr.pend = false ∧ t.mtr.present = true ∧
      (s.mtr.snap = none → t.mtr.changed = false ∧ t.mtr.app = [] ∧ t.mtr.appU = 0) ∧
      ∀ y, s.mtr.snap = some y → (t.mtr.changed = true ↔ y.r.serial ≠ x.r.serial) ∧
        (y.r.serial = x.r.serial → let e := x.r.eTotal - y.r.eTotal
          t.mtr.app = (shares s e).1.map (fun a => (a.1, BitVec.ofNat 64 a.2)) ∧
          t.mtr.appU = BitVec.ofNat 64 (e * s.mtr.appBase * looseCount s / 9600))) ∧
    (s.mtr.pend = true → ∃ t, exec .mirrorTimeout s = .next t ∧ fails s t) ∧
    (s.mtr.pend = false → exec .mirrorTimeout s = .next s)

/-- Register writes of a function that is reached. A bus error drops the write: the error log shows its kind, source,
function, view, offset and data, and counts it, and the event is posted. One aligned word of BAR0 with all its bytes
is judged: an error of its kind, nothing, an indirect access, or the register's own write with what the view makes of
the value (set, clear or toggle over the old one); two words of an aligned eight bytes are judged the lower first; a
word of any other access is an error of kind 2. A doorbell of BAR2 is the row SQ_TAIL or CQ_HEAD with that value,
another offset or a page past the last is an error of kind 0, and a page without a context nothing. BAR4 is the host
window. An alias write is the judged word at the view's own offset. The indirect pair serves the PF: an address in no
space is an error of kind 4, an access that is no error moves OFF on by the stride, a read answers the register's
value or is unsupported. A slab that is not RETIRED and does not answer gives the PF an error of kind 5, and the two
ports their ERR bit. Completes: REGISTER_WRITE, ALIAS_VIEW_WRITE, IND_DATA_ACCESS, INDIRECT_TIMEOUT. -/
def Obligations.RegisterPathsJudgeEachWord : Prop :=
  ∀ (s : State) (src : Src), srcLive s src = true →
    let f := srcFunc src
    let code := if f = 0 then 0 else 1
    let Error (u : State) (kind c fn view off data : Nat) (t : State) := Posted { u with rif := { u.rif with
      log0 := w32 (sh kind 28 + sh c 24 + sh fn 16 + sh 1 15 + sh view 13), log1 := w32 off, log2 := w32 (off / 2 ^ 32),
      count := u.rif.count + 1, data := w32 data } } t
    let Judges (a : Nat) (v : Word) (t : State) :=
      let r := barLoc s src a
      match judgeWrite s r.1 r.2 with
      | .error k => Error s k code f (viewCode r.1) a v.toNat t
      | .ignored => t = s
      | .ok l => t = if l.isIndData then indWrite src v s else l.write src (viewValue r.1 (l.read s) v) s
    (src = .pf ∨ f ≠ 0 →
      (∀ a w, w.len = 4 → a % 4 = 0 → bits w.be.toNat 0 4 = 15 → ∃ t, exec (.registerWrite src 0 a w) s = .next t ∧
        Judges a (w32 (bits w.data.toNat 0 32)) t) ∧
      (∀ a w, w.len = 8 → a % 8 = 0 → bits w.be.toNat 0 4 = 15 → bits w.be.toNat 4 4 = 15 →
        exec (.registerWrite src 0 a w) s = .next (barWrite src code f (a + 4) (w32 (bits w.data.toNat 32 32))
          (barWrite src code f a (w32 (bits w.data.toNat 0 32)) s))) ∧
      (∀ a w, w.len = 4 → a % 4 ≠ 0 ∨ bits w.be.toNat 0 4 ≠ 15 → bits w.be.toNat 0 4 ≠ 0 →
        ∃ t, exec (.registerWrite src 0 a w) s = .next t ∧
          Error s 2 code f (viewCode (barLoc s src a).1) a (w32 (bits w.data.toNat 0 32)).toNat t) ∧
      (∀ a w, w.len = 4 → a % 4 = 0 → bits w.be.toNat 0 4 = 15 →
        let v := w32 (bits w.data.toNat 0 32)
        let n := a / 0x1000
        let pages := if f = 0 then 1024 else 64
        (pages ≤ n → ∃ t, exec (.registerWrite src 2 a w) s = .next t ∧ Error s 0 2 f 0 a v.toNat t) ∧
        (n < pages → doorbellCtx s src n = none → exec (.registerWrite src 2 a w) s = .next s) ∧
        (n < pages → (doorbellCtx s src n).isSome →
          (a % 0x1000 = 0 → exec (.registerWrite src 2 a w) s = exec (.sqTail src n v []) s) ∧
          (a % 0x1000 = 4 → exec (.registerWrite src 2 a w) s = exec (.cqHead src n v) s) ∧
          (a % 0x1000 ≠ 0 → a % 0x1000 ≠ 4 → ∃ t, exec (.registerWrite src 2 a w) s = .next t ∧
            Error s 0 2 f 0 a v.toNat t))) ∧
      (∀ a w, exec (.registerWrite src 4 a w) s = exec (.hostWindowWrite src (a / 0x2000000) (a / 0x800000 % 4)
        (a / 0x200000 % 4) (a % 0x200000) (toBytes w.len w.data.toNat) .clean) s)) ∧
    (src ≠ .i3c → src ≠ .jtag → ∀ view a v, ∃ t, exec (.aliasViewWrite src view a v) s = .next t ∧
      Judges (a + 0x4000 * viewCode view) v t) ∧
    (src = .pf →
      let i := s.rif.indAddr.toNat
      (indTarget s = none → (∀ v, ∃ t, exec (.indDataAccess src (some v)) s = .next t ∧ Error s 4 4 0 0 i v.toNat t) ∧
        exec (.indDataAccess src none) s = .next (busReadError 4 4 0 0 i s)) ∧
      (∀ l, indTarget s = some l →
        (∀ v, ∃ t, exec (.indDataAccess src (some v)) s = .next t ∧
          match judgeWrite s .plain l with
          | .error k => Error s k 4 0 0 i v.toNat t
          | .ignored => t = indAdvance s
          | .ok l => t = indAdvance (l.write src v s)) ∧
        (∀ k, judgeRead s .plain l = .error k → exec (.indDataAccess src none) s = .next (busReadError k 4 0 0 i s)) ∧
        (∀ w, judgeRead s .plain l = .ok w → ∃ t, exec (.indDataAccess src none) s = .next t ∧
          t.env.resp = .data (toBytes 4 w.toNat) ∧ t.rif = (indAdvance s).rif)) ∧
      (i / 2 ^ 24 < 100 → (s.slab (i / 2 ^ 24)).st ≠ .retired →
        (∀ v, ∃ t, exec (.indirectTimeout src (some v)) s = .next t ∧ Error s 5 4 0 0 i v.toNat t) ∧
        exec (.indirectTimeout src none) s = .next (busReadError 5 4 0 0 i s))) ∧
    (∀ w, (src = .jtag → exec (.indirectTimeout src w) s = .next { s with env := { s.env with
        resp := .capture 66 (2 ^ 65 + 2 ^ 64) } }) ∧
      (src = .i3c → exec (.indirectTimeout src w) s = .next { s with env := { s.env with
        resp := .data [0, 0, 0, 0, 1] } }))

/-- The test port and the management port, each where it is reached. A test-port instruction ends what EXTEST drives,
but for EXTEST itself while SYS_RESET# is asserted. SEC_STATUS captures the anchor and the keys, IDCODE 0x15310A4B,
BYPASS the bit shifted in. SAMPLE_PRELOAD loads the boundary register; EXTEST does too and drives it while SYS_RESET#
is asserted, and is BYPASS otherwise; what the pins show is a free value. REG_ACCESS captures DONE, ERR for a location
that is none or refuses the access, and a read's value; a write is the register's own. MEM_ACCESS is an error on a
device that is not live, recovers or cannot route, and at an address that is misaligned or names no storage; otherwise
it reads or writes that word of a bank whatever the owner, or of HBM under the key of its area (the firmware area at
each copy whose stack is in service, a read at the first), counts an access to the holder's state and the granules of
HBM, and what HBM cannot read or write is a failed access and an error. The bits that R449 does not name are a free
value. On the management port a write of five bytes sets the address and any other length changes nothing; a read
answers the value and a status byte 0, or zeros and 1. Completes: SEC_STATUS, IDCODE, BYPASS, SAMPLE_PRELOAD, EXTEST,
REG_ACCESS, MEM_ACCESS, MGMT_PRIVATE_WRITE, MGMT_PRIVATE_READ. -/
def Obligations.TheTestAndManagementPortsAnswer : Prop :=
  ∀ s : State,
    let quiet := { s with pkc2 := { s.pkc2 with jtagDrive := none } }
    let answers (r : Resp) (u : State) : State := { u with env := { u.env with resp := r } }
    let taken (u : State) : State := { u with env := { u.env with free := u.env.free + 1 } }
    let Captures (w err data : Nat) (u t : State) := t = answers (.capture w (sh 1 (w - 1) + sh err (w - 2) +
      sh (Config.freeValue (w - 34) u.env.free).toNat 32 + data)) (taken u)
    let Pins (u t : State) := t = answers (.capture Config.boundaryCells
      (Config.freeValue Config.boundaryCells u.env.free).toNat) (taken u)
    (srcLive s .jtag = true →
      exec .secStatus s = .next (answers (.capture 32 (secAnchor s)) quiet) ∧
      exec .idcode s = .next (answers (.capture 32 0x15310A4B) quiet) ∧
      (∀ b, exec (.bypass b) s = .next (answers (.capture 1 (b2n b)) quiet)) ∧
      (∀ v, ∃ t, exec (.samplePreload v) s = .next t ∧ Pins { s with pkc2 := { s.pkc2 with
        jtagBoundary := v % 2 ^ Config.boundaryCells, jtagDrive := none } } t) ∧
      (∀ v, s.pkc2.sysResetN = true → exec (.extest v) s = .next (answers (.capture 1 (v % 2)) quiet)) ∧
      (∀ v, s.pkc2.sysResetN = false → ∃ t, exec (.extest v) s = .next t ∧ Pins { s with pkc2 := { s.pkc2 with
        jtagBoundary := v % 2 ^ Config.boundaryCells, jtagDrive := some (v % 2 ^ Config.boundaryCells) } } t) ∧
      (∀ ind a, ∃ t, exec (.regAccess ind a none) s = .next t ∧
        match directRead quiet ind a.toNat with
        | some w => Captures 66 0 w.toNat quiet t
        | none => Captures 66 1 0 quiet t) ∧
      (∀ ind a v, ∃ t, exec (.regAccess ind a (some v)) s = .next t ∧
        match directLoc quiet ind a.toNat with
        | .error _ => Captures 66 1 0 quiet t
        | .ok r => match judgeWrite quiet r.1 r.2 with
          | .error _ => Captures 66 1 0 quiet t
          | .ignored => Captures 66 0 0 quiet t
          | .ok l => Captures 66 0 0 (l.write .jtag (viewValue r.1 (l.read quiet) v) quiet) t) ∧
      (∀ h a w, s.live = false ∨ s.pkc.recovery = true ∨ s.pkg.unroutable = true → ∃ t, exec (.memAccess h a w) s = .next t ∧
        Captures 98 1 0 quiet t) ∧
      (s.live = true → s.pkc.recovery = false → s.pkg.unroutable = false →
        (∀ a w, let g := a / 2 ^ 23
          let k := a / 2 ^ 21 % 4
          let o := a % 2 ^ 21
          let u := match (quiet.bank (bankIx g k)).holder with
            | some c => opAccess c quiet
            | none => quiet
          ∃ t, exec (.memAccess false a w) s = .next t ∧
            if a % 4 ≠ 0 ∨ 6400 ≤ g ∨ bankBytes < o + 4 ∨ serverOf quiet (g / 64) = none then Captures 98 1 0 quiet t
            else match w with
              | none => Captures 98 0 (bankWord s g k o) u t
              | some v => Captures 98 0 0 { u with bankMem := mwrite u.bankMem (bankKey g k o) (toBytes 4 v.toNat) } t) ∧
        (∀ a w, ∃ t, exec (.memAccess true a w) s = .next t ∧
          if a % 4 ≠ 0 ∨ daEnd < a + 4 then Captures 98 1 0 quiet t
          else let u := opAccess (daCtx quiet a) quiet
            let counted (wr : Bool) (d : Nat) := countAcc none wr (spanFuel 4) d 4 u
            let Reads (d : Nat) := let x := counted false d
              match granBad x (daKey u d) d with
              | none => Captures 98 0 (ofBytes (hbmRead x d 4)) x t
              | some b => Captures 98 1 0 (hbmFault d b x) t
            let Stores (d : Nat) (v : Word) := let x := counted true d
              match writeBad x none (daKey u d) (spanFuel 4) d 4 with
              | none => Captures 98 0 0 (hbmWrite (daKey u d) d (toBytes 4 v.toNat) x) t
              | some e => Captures 98 1 0 (hbmFault e.1 e.2 x) t
            match (if inFirmware a then fwCopies u a else [a]), w with
            | [], _ => Captures 98 1 0 u t
            | d :: _, none => Reads d
            | [d], some v => Stores d v
            | d :: e, some v => t = e.foldl (fun y i => memWord i (some v) y) (memWord d (some v) u)))) ∧
    (srcLive s .i3c = true →
      (∀ d, d.length = 5 → exec (.mgmtPrivateWrite d) s = .next { s with pkc2 := { s.pkc2 with
        mgmtInd := bit (d.headD 0).toNat 0, mgmtAddr := w32 (ofBytes (d.drop 1)) } }) ∧
      (∀ d, d.length ≠ 5 → exec (.mgmtPrivateWrite d) s = .next s) ∧
      (∀ w, mgmtRead s = some w → exec .mgmtPrivateRead s = .next (answers (.data (toBytes 4 w.toNat ++ [0])) s)) ∧
      (mgmtRead s = none → exec .mgmtPrivateRead s = .next (answers (.data [0, 0, 0, 0, 1]) s))) ∧
    (srcLive s .jtag = false → ∀ i, i = .secStatus ∨ i = .idcode ∨ (∃ b, i = .bypass b) ∨ (∃ v, i = .samplePreload v) ∨
      (∃ v, i = .extest v) ∨ (∃ d a w, i = .regAccess d a w) ∨ (∃ h a w, i = .memAccess h a w) → exec i s = .next s)

/-- Device resets. Each trigger of R529 (WARM by the operator, a hot reset, a secondary bus reset, a link disable or
an FLR of the PF from a live host port, PERST# after step 9) answers what the warm reset of its cause makes of the
state, and SYS_RESET# holds the device in the state before the bring-up: in reset at step 4, the cause and one more
reset counted, every context as it is before any definition, no partition, no bank byte and no HBM byte, and the
memory keys are those of a new session; the meter, the flash slots, the repair log and host memory are as they were.
From any state, PWR_OK falling, a brown-out, a trip and STBY end in the standby of their name with the same losses; a
trip latches. An unpowered module notices only its own supply. A start with no firmware that verifies ends in the
recovery state at step 4. Completes: WARM, HOT_RESET, SECONDARY_BUS_RESET, LINK_DISABLE, PF_FLR, PERST_ASSERT,
SYS_RESET_ASSERT, SYS_RESET_DEASSERT, PWR_OK_FALL, VIN48_BROWNOUT, THERMAL_TRIP, STBY, P12V_STBY_FALL, P12V_STBY_RISE,
COLD_POWER_ON, PERST_DEASSERT. -/
def Obligations.DeviceResetsLoseEverythingButWhatLasts : Prop :=
  ∀ s : State,
    let Lost (t : State) := (∀ c, t.ctx c = Ctx.init c) ∧ (∀ p, (t.part p).defd = false) ∧ t.bankMem = [] ∧ t.hbm.mem = [] ∧
      t.hbm.keyGen = s.hbm.keyGen ∧ t.hbm.session = s.hbm.session + 1 ∧ t.meter = s.meter ∧ t.meter2 = s.meter2 ∧ t.env = { s.env with waits := [] } ∧
      t.pending = s.pending ∧
      t.sec.fwA = s.sec.fwA ∧ t.sec.fwB = s.sec.fwB ∧ t.arm.slotA = s.arm.slotA ∧ t.arm.slotB = s.arm.slotB ∧
      t.arm.log = s.arm.log ∧ t.pcie.vfs = 0
    let Held (cause : Nat) (t : State) := Lost t ∧ t.pkc.power = .inReset ∧ t.pkc.step = 4 ∧ t.pkc.ready = false ∧
      t.pkc.recovery = false ∧ t.pkc.rstCause = cause ∧ t.pkc.rstCount = s.pkc.rstCount + 1 ∧ t.pkc.alertMask = s.pkc.alertMask
    let Restarted (u t : State) :=
      let b := if u.pkc.identityLess then recover 3 u else bringUp u
      t = if b.pkc.power = .running then linkRetrains b else b
    let on := s.pkc.power = .running ∨ s.pkc.power = .inReset
    (∀ i cause, (∃ src, i = .warm src ∧ isOperatorAt s src = true ∧ cause = 8) ∨
        (srcLive s .pf = true ∧ ((i = .hotReset ∧ cause = 4) ∨ (i = .secondaryBusReset ∧ cause = 5) ∨
          (i = .linkDisable ∧ cause = 6) ∨ (i = .pfFlr ∧ cause = 7))) →
      ∃ t u, exec i s = .next t ∧ Restarted u t ∧ Held cause u ∧ u.pkc2.perstN = s.pkc2.perstN) ∧
    (s.pkc.power = .running → s.pkc.ready = true → s.pkc2.perstN = true →
      ∃ t u, exec .perstAssert s = .next t ∧ Restarted u t ∧ Held 3 u ∧ u.pkc2.perstN = false) ∧
    (s.pkc2.sysResetN = true → on → ∃ t, exec .sysResetAssert s = .next t ∧ Held 2 t ∧ t.pkc2.sysResetN = false) ∧
    (s.pkc2.sysResetN = false → s.pkc.power = .inReset → ∃ t, exec .sysResetDeassert s = .next t ∧
      Restarted { s with pkc2 := { s.pkc2 with sysResetN := true, jtagDrive := none } } t) ∧
    (on → ∃ t, exec .pwrOkFall s = .next t ∧ Lost t ∧ t.pkc.power = .standbyPwr ∧ t.pkc2.pwrOk = false) ∧
    (on → s.pkc2.pwrOk = true → ∃ t, exec .vin48Brownout s = .next t ∧ Lost t ∧ t.pkc.power = .standbyPwr ∧ t.pkc2.pwrOk = true) ∧
    (on → ∃ t, exec .thermalTrip s = .next t ∧ Lost t ∧ t.pkc.power = .standbyTrip ∧ t.pkc2.tripped = true) ∧
    (∀ src, isOperatorAt s src = true → ∃ t, exec (.stby src) s = .next t ∧ Lost t ∧ t.pkc.power = .standbyStby) ∧
    (s.pkc.power ≠ .unpowered → ∃ t, exec .p12vStbyFall s = .next t ∧ t.pkc.power = .unpowered ∧ t.pkc2.tripped = false ∧
      t.meter = s.meter ∧ (on → Lost t)) ∧
    (s.pkc.power = .unpowered →
      exec .p12vStbyRise s = .next { s with pkc := { s.pkc with power := .standbyPwr } } ∧
      ∀ i, i = .coldPowerOn ∨ i = .pwrOkFall ∨ i = .thermalTrip ∨ i = .sysResetAssert ∨ i = .sysResetDeassert ∨
        i = .perstAssert ∨ (∃ a b, i = .perstDeassert a b) ∨ i = .p12vStbyFall ∨ (∃ b, i = .oscFail b) → exec i s = .next s) ∧
    (s.pkc.power ≠ .unpowered → s.pkc2.pwrOk = false →
      let u := { s with pkc2 := { s.pkc2 with pwrOk := true } }
      if s.pkc2.sysResetN = true then exec .coldPowerOn s = .next (coldOn 0 u)
      else ∃ t, exec .coldPowerOn s = .next t ∧ t.pkc.power = .inReset ∧ t.pkc.step = 4 ∧ ∀ c, t.ctx c = Ctx.init c) ∧
    (s.pkc2.sysResetN = true → s.pkc.power = .inReset → s.pkc2.perstN = false → s.pkc.recovery = false →
      ∀ speed width, ∃ t, exec (.perstDeassert speed width) s = .next t ∧ t.pkc.ready = true ∧ t.pkc.step = 9 ∧
        t.pkc.power = .running ∧ (s.pcie.linkDown = false → t.pcie.speed = speed ∧ t.pcie.width = width)) ∧
    (chooseFw s = none → bringUp s = recover 4 s)

/-- Resets of functions and partitions, and a slab's power and sensors. An FLR of a VF, and VF Enable cleared for
every VF, wait for a swap of its contexts; then the function's block is as after reset, its configuration words, held
messages and the commands of its contexts are gone, and no other function's configuration changes. A partition reset
of an undefined partition answers result 1; one that must wait is shown busy; one that runs ends with result 0 and
leaves no command in the partition. PWR_SLAB_OFF of an ACTIVE slab outside every partition takes the core region's
power, and PWR_REFUSED is set for any other; a powered slab whose banks have cleared and that passes its test sets
SLAB_PWR. A temperature sample shows the reading and lowers the thermal rate of a hot slab by one step, 1 at least;
cool sensors raise it by one, 16 at most. An oscillator's failure is shown, with its event. Completes: VF_FLR,
VF_ENABLE_CLEAR, PRESET, PWR_SLAB_OFF_WRITE, SLAB_PWR, THERMAL_SAMPLE, THERMAL_RATE_RAISE, OSC_FAIL. -/
def Obligations.FunctionsPartitionsAndSlabsReset : Prop :=
  ∀ s : State,
    (∀ n, 1 ≤ n → (ctxsOfFn s n).all (fun c => (s.ctx c).sched.swapping == .none) = true → srcLive s (.vf n) = true →
      ∃ t, exec (.vfFlr n) s = .next t ∧ t.fn n = Fn.init ∧
        (∀ a, aget t.pcie.cfg a = if a / 4096 = n then none else aget s.pcie.cfg a) ∧
        (∀ v ∈ t.pcie.msiHeld, v.1 ≠ n) ∧ ∀ c ∈ ctxsOfFn s n, (t.ctx c).cmds = []) ∧
    ((∀ n, 1 ≤ n → n ≤ s.pcie.vfs → ∀ c ∈ ctxsOfFn s n, (s.ctx c).sched.swapping = .none) → srcLive s .pf = true →
      s.pkc.ready = true → ∃ t, exec .vfEnableClear s = .next t ∧ t.pcie.vfs = 0) ∧
    (∀ src p, isOperator s src = true →
      ((s.part p).defd = false → exec (.preset src p) s = .next { s with pkc := { s.pkc with rstResult := 1 } }) ∧
      ((s.part p).defd = true → presetHeld s p = true →
        exec (.preset src p) s = .next { s with pkc := { s.pkc with rstBusy := true, rstPart := p } }) ∧
      ((s.part p).defd = true → presetHeld s p = false → ∃ t, exec (.preset src p) s = .next t ∧
        t.pkc.rstBusy = false ∧ t.pkc.rstResult = 0 ∧ t.pkc.rstPart = p ∧ t.pkc.events = s.pkc.events ||| 1 ∧
        t.meter = s.meter ∧ ∀ c ∈ ctxsOf s p, (t.ctx c).cmds = [])) ∧
    (∀ src word value, isOperatorAt s src = true → ∃ t, exec (.pwrSlabOffWrite src word value) s = .next t ∧
      ∀ i, i < 32 → 32 * word + i < 100 → bit value.toNat i = true → bit s.pkc.slabOff.toNat (32 * word + i) = false →
        ((s.slab (32 * word + i)).st = .active → partOf s (32 * word + i) = none →
          bit t.pkc.slabOff.toNat (32 * word + i) = true ∧ (t.slab (32 * word + i)).coreOn = false) ∧
        ((s.slab (32 * word + i)).st ≠ .active ∨ partOf s (32 * word + i) ≠ none →
          bit t.pkc.slabOff.toNat (32 * word + i) = false ∧ bit t.pkc.events.toNat 4 = true)) ∧
    (∀ n pass, n ∈ s.pkc2.repowered →
      (posClearing s n = true → exec (.slabPwr n pass) s = .next s) ∧
      (posClearing s n = false → ∃ t, exec (.slabPwr n pass) s = .next t ∧ n ∉ t.pkc2.repowered ∧
        (pass = true → t.pkc.events = s.pkc.events ||| 2))) ∧
    (∀ n tiles stack, n < 100 → s.live = true → (s.slab n).st ≠ .retired →
      let temp := min 255 tiles
      let stackT := if bridged n then min 255 stack else 0
      let rate := (s.slab n).thermalRate
      (∃ t, exec (.thermalSample n tiles stack) s = .next t ∧ (t.slab n).temp = temp ∧
        (t.slab n).thermalRate = if 100 ≤ temp ∨ 95 ≤ stackT then max 1 (rate - 1) else rate) ∧
      ∃ t, exec (.thermalRateRaise n tiles stack) s = .next t ∧ (t.slab n).temp = temp ∧
        (t.slab n).thermalRate = if temp < 97 ∧ stackT < 92 then min 16 (rate + 1) else rate) ∧
    (s.pkc.power ≠ .unpowered → ∀ b, ∃ t, exec (.oscFail b) s = .next t ∧ t.pkc.events = s.pkc.events ||| 8 ∧
      t.pkc2 = if b = true then { s.pkc2 with oscBOk := false } else { s.pkc2 with oscAOk := false })
end

