-- ==== Sys2Proof/Laws/Ops.lean ====
section
/-! SUPPORT. The laws of the sparse tables and memories: what a read after a write gives, and that every operation
keeps the canonical form. -/

namespace Sys2Proof.Machine

open Sys2Proof

-- Proofs one after another: the package compiles as one text under a memory limit.
set_option Elab.async false

variable {α : Type}

/-! ## Reading after writing -/

theorem tget_tdel_same (d : Nat → α) (t : Tbl α) (k : Nat) : tget d (tdel k t) k = d k := by
  induction t with
  | nil => rfl
  | cons p r ih =>
    obtain ⟨j, v⟩ := p
    by_cases h : j = k <;> simp_all [tdel, tget]

theorem tget_tdel_other (d : Nat → α) (t : Tbl α) {k j : Nat} (h : j ≠ k) : tget d (tdel k t) j = tget d t j := by
  induction t with
  | nil => rfl
  | cons p r ih =>
    obtain ⟨i, v⟩ := p
    by_cases hi : i = k
    · subst hi; simp_all [tdel, tget, Ne.symm h]
    · simp_all [tdel, tget]

theorem tget_tins_other (d : Nat → α) (v : α) (t : Tbl α) {k j : Nat} (h : j ≠ k) :
    tget d (tins k v t) j = tget d t j := by
  induction t with
  | nil => simp [tins, tget, Ne.symm h]
  | cons p r ih =>
    obtain ⟨i, w⟩ := p
    simp only [tins]
    split <;> simp_all [tget, Ne.symm h]

theorem tget_tins_same (d : Nat → α) (v : α) (t : Tbl α) (k : Nat) (h : ∀ p ∈ t, p.1 ≠ k) :
    tget d (tins k v t) k = v := by
  induction t with
  | nil => simp [tins, tget]
  | cons p r ih =>
    obtain ⟨i, w⟩ := p
    simp only [tins]
    split <;> simp_all [tget]

theorem tdel_ne (t : Tbl α) (k : Nat) : ∀ p ∈ tdel k t, p.1 ≠ k := by simp [tdel]

variable [DecidableEq α]

/-- A read after a write to the same index gives the record written. -/
@[simp] theorem tget_tput_same (d : Nat → α) (t : Tbl α) (k : Nat) (v : α) : tget d (tput d t k v) k = v := by
  unfold tput
  split
  · rename_i h; rw [tget_tdel_same, h]
  · exact tget_tins_same d v _ k (tdel_ne t k)

/-- A write leaves every other index alone. -/
theorem tget_tput_other (d : Nat → α) (t : Tbl α) {k j : Nat} (v : α) (h : j ≠ k) :
    tget d (tput d t k v) j = tget d t j := by
  unfold tput
  split
  · exact tget_tdel_other d t h
  · rw [tget_tins_other d v _ h, tget_tdel_other d t h]

/-- Both at once. -/
theorem tget_tput (d : Nat → α) (t : Tbl α) (k j : Nat) (v : α) :
    tget d (tput d t k v) j = if j = k then v else tget d t j := by
  split
  · rename_i h; rw [h, tget_tput_same]
  · rename_i h; exact tget_tput_other d t v h

/-! ## The canonical form -/

theorem twf_cons {d : Nat → α} {p : Nat × α} {r : Tbl α} :
    twf d (p :: r) = true ↔ p.2 ≠ d p.1 ∧ (∀ q ∈ r, p.1 < q.1) ∧ twf d r = true := by
  simp [twf, and_assoc]

theorem twf_filter {d : Nat → α} {t : Tbl α} (f : Nat × α → Bool) (h : twf d t = true) :
    twf d (t.filter f) = true := by
  induction t with
  | nil => exact h
  | cons p r ih =>
    rw [twf_cons] at h
    rw [List.filter_cons]
    split
    · exact twf_cons.mpr ⟨h.1, fun q hq => h.2.1 q (List.mem_of_mem_filter hq), ih h.2.2⟩
    · exact ih h.2.2

theorem twf_tdel {d : Nat → α} {t : Tbl α} (k : Nat) (h : twf d t = true) : twf d (tdel k t) = true :=
  twf_filter _ h

omit [DecidableEq α] in
theorem mem_tins {k : Nat} {v : α} {t : Tbl α} {q : Nat × α} (h : q ∈ tins k v t) : q = (k, v) ∨ q ∈ t := by
  induction t with
  | nil => simpa [tins] using h
  | cons p r ih =>
    simp only [tins] at h
    split at h
    · simpa using h
    · rcases List.mem_cons.mp h with h | h
      · exact .inr (h ▸ List.mem_cons_self)
      · exact (ih h).imp id (List.mem_cons_of_mem _)

theorem twf_tins {d : Nat → α} {t : Tbl α} {k : Nat} {v : α} (hv : v ≠ d k) (hk : ∀ p ∈ t, p.1 ≠ k)
    (h : twf d t = true) : twf d (tins k v t) = true := by
  induction t with
  | nil => simp [tins, twf, hv]
  | cons p r ih =>
    have h' := twf_cons.mp h
    obtain ⟨j, w⟩ := p
    simp only [tins]
    split
    · rename_i hlt
      refine twf_cons.mpr ⟨hv, fun q hq => ?_, h⟩
      rcases List.mem_cons.mp hq with rfl | hq
      · exact hlt
      · exact lt_trans hlt (h'.2.1 q hq)
    · rename_i hlt
      refine twf_cons.mpr ⟨h'.1, fun q hq => ?_, ih (fun p hp => hk p (List.mem_cons_of_mem _ hp)) h'.2.2⟩
      rcases mem_tins hq with rfl | hq
      · have := hk (j, w) List.mem_cons_self
        simp only at this ⊢
        omega
      · exact h'.2.1 q hq

/-- A table write keeps the canonical form. -/
theorem twf_tput {d : Nat → α} {t : Tbl α} (k : Nat) (v : α) (h : twf d t = true) : twf d (tput d t k v) = true := by
  unfold tput
  split
  · exact twf_tdel k h
  · rename_i hv; exact twf_tins hv (tdel_ne t k) (twf_tdel k h)

/-- Records rewritten in place, those that become the default dropped, keep the canonical form. -/
theorem twf_filterMap {d : Nat → α} {t : Tbl α} (f : Nat × α → Option (Nat × α))
    (hf : ∀ p q, f p = some q → q.1 = p.1) (h : twf d t = true) :
    twf d ((t.filterMap f).filter fun p => decide (p.2 ≠ d p.1)) = true := by
  induction t with
  | nil => exact h
  | cons p r ih =>
    rw [twf_cons] at h
    rw [List.filterMap_cons]
    split
    · exact ih h.2.2
    · rename_i q hq
      rw [List.filter_cons]
      split
      · rename_i hd
        refine twf_cons.mpr ⟨by simpa using hd, fun x hx => ?_, ih h.2.2⟩
        obtain ⟨y, hy, hyx⟩ := List.mem_filterMap.mp (List.mem_of_mem_filter hx)
        rw [hf _ _ hq, hf _ _ hyx]
        exact h.2.1 y hy
      · exact ih h.2.2

/-! ## Memories -/

/-- One byte after one byte was written. -/
theorem mget_mput (m : Mem) (a b : Nat) (v : Byte) : mget (mput m a v) b = if b = a then v else mget m b :=
  tget_tput _ _ _ _ _

theorem Memory.wf_mput {m : Mem} (a : Nat) (v : Byte) (h : Memory.wf m = true) : Memory.wf (mput m a v) = true :=
  twf_tput a v h

/-- One byte after a string of bytes was written: the string's byte inside its range, what it was outside. -/
theorem mget_mwrite (m : Mem) (a b : Nat) (bs : List Byte) :
    mget (mwrite m a bs) b = if a ≤ b ∧ b < a + bs.length then bs.getD (b - a) 0 else mget m b := by
  induction bs generalizing m a with
  | nil => simp only [mwrite, List.length_nil]; rw [if_neg (by omega)]
  | cons v r ih =>
    rw [mwrite, ih, mget_mput, List.length_cons]
    by_cases h0 : b = a
    · subst h0
      rw [if_neg (by omega), if_pos rfl, if_pos (by omega)]
      simp
    · by_cases h1 : a + 1 ≤ b ∧ b < a + 1 + r.length
      · rw [if_pos h1, if_pos (by omega)]
        obtain ⟨k, rfl⟩ : ∃ k, b = a + 1 + k := ⟨b - (a + 1), by omega⟩
        rw [show a + 1 + k - a = k + 1 by omega, show a + 1 + k - (a + 1) = k by omega]
        simp
      · rw [if_neg h1, if_neg h0, if_neg (by omega)]

theorem mget_mwrite_outside {m : Mem} {a b : Nat} {bs : List Byte} (h : b < a ∨ a + bs.length ≤ b) :
    mget (mwrite m a bs) b = mget m b := by
  rw [mget_mwrite, if_neg (by omega)]

theorem Memory.wf_mwrite {m : Mem} (a : Nat) (bs : List Byte) (h : Memory.wf m = true) :
    Memory.wf (mwrite m a bs) = true := by
  induction bs generalizing m a with
  | nil => exact h
  | cons b r ih => exact ih (a + 1) (Memory.wf_mput a b h)

theorem Memory.wf_mwriteAll {m : Mem} (l : List (Nat × Byte)) (h : Memory.wf m = true) :
    Memory.wf (mwriteAll m l) = true := by
  induction l generalizing m with
  | nil => exact h
  | cons p r ih => exact ih (Memory.wf_mput p.1 p.2 h)

/-- A byte at no listed address is left alone. -/
theorem mget_mwriteAll_outside {m : Mem} {b : Nat} {l : List (Nat × Byte)} (h : ∀ p ∈ l, p.1 ≠ b) :
    mget (mwriteAll m l) b = mget m b := by
  induction l generalizing m with
  | nil => rfl
  | cons p r ih =>
    obtain ⟨a, v⟩ := p
    rw [mwriteAll, ih fun q hq => h q (List.mem_cons_of_mem _ hq), mget_mput,
      if_neg (Ne.symm (h (a, v) List.mem_cons_self))]

theorem Memory.wf_mclear {m : Mem} (a n : Nat) (h : Memory.wf m = true) : Memory.wf (mclear m a n) = true :=
  twf_filter _ h

/-- A cleared range reads as zero; a byte outside it is left alone. -/
theorem mget_mclear (m : Mem) (a n b : Nat) :
    mget (mclear m a n) b = if a ≤ b ∧ b < a + n then 0 else mget m b := by
  induction m with
  | nil => simp [mclear, mget, tget, zeroByte]
  | cons p r ih =>
    obtain ⟨j, v⟩ := p
    simp only [mclear, mget, List.filter_cons] at ih ⊢
    by_cases hj : j < a ∨ a + n ≤ j
    · rw [if_pos (by simpa using hj)]
      simp only [tget]
      by_cases hb : j = b
      · subst hb; rw [if_pos rfl, if_pos rfl, if_neg (by omega)]
      · rw [if_neg hb, if_neg hb, ih]
    · rw [if_neg (by simpa using hj), ih]
      simp only [tget]
      by_cases hb : j = b
      · subst hb; rw [if_pos (by omega), if_pos (by omega)]
      · rw [if_neg hb]

theorem Memory.wf_nil : Memory.wf [] = true := rfl

end Sys2Proof.Machine
end

