-- ==== Sys2Proof/Laws/State.lean ====
section
/-! SUPPORT. The laws of the state's accessors: what each reads after each write, field by field, and that a change of
one record is a write of it. -/

namespace Sys2Proof.Machine

open Sys2Proof

-- Proofs one after another: the package compiles as one text under a memory limit.
set_option Elab.async false

/-! ## Slab -/

@[simp] theorem State.setSlab_slab_self (s : State) (n : Nat) (v : Slab) : (s.setSlab n v).slab n = v := tget_tput_same _ _ _ _
theorem State.setSlab_slab_other (s : State) {n m : Nat} (v : Slab) (h : m ≠ n) : (s.setSlab n v).slab m = s.slab m := tget_tput_other _ _ _ h
theorem State.setSlab_slab (s : State) (n m : Nat) (v : Slab) : (s.setSlab n v).slab m = if m = n then v else s.slab m := tget_tput _ _ _ _ _
@[simp] theorem State.modSlab_slab_self (s : State) (n : Nat) (f : Slab → Slab) : (s.modSlab n f).slab n = f (s.slab n) := tget_tput_same _ _ _ _
theorem State.modSlab_slab_other (s : State) {n m : Nat} (f : Slab → Slab) (h : m ≠ n) : (s.modSlab n f).slab m = s.slab m := tget_tput_other _ _ _ h
@[simp] theorem State.setSlab_pending (s : State) (n : Nat) (v : Slab) : (s.setSlab n v).pending = s.pending := rfl
@[simp] theorem State.setSlab_env (s : State) (n : Nat) (v : Slab) : (s.setSlab n v).env = s.env := rfl
@[simp] theorem State.setSlab_pkg (s : State) (n : Nat) (v : Slab) : (s.setSlab n v).pkg = s.pkg := rfl
@[simp] theorem State.setSlab_rif (s : State) (n : Nat) (v : Slab) : (s.setSlab n v).rif = s.rif := rfl
@[simp] theorem State.setSlab_pcie (s : State) (n : Nat) (v : Slab) : (s.setSlab n v).pcie = s.pcie := rfl
@[simp] theorem State.setSlab_sec (s : State) (n : Nat) (v : Slab) : (s.setSlab n v).sec = s.sec := rfl
@[simp] theorem State.setSlab_arm (s : State) (n : Nat) (v : Slab) : (s.setSlab n v).arm = s.arm := rfl
@[simp] theorem State.setSlab_arm2 (s : State) (n : Nat) (v : Slab) : (s.setSlab n v).arm2 = s.arm2 := rfl
@[simp] theorem State.setSlab_mtr (s : State) (n : Nat) (v : Slab) : (s.setSlab n v).mtr = s.mtr := rfl
@[simp] theorem State.setSlab_meter (s : State) (n : Nat) (v : Slab) : (s.setSlab n v).meter = s.meter := rfl
@[simp] theorem State.setSlab_meter2 (s : State) (n : Nat) (v : Slab) : (s.setSlab n v).meter2 = s.meter2 := rfl
@[simp] theorem State.setSlab_pkc (s : State) (n : Nat) (v : Slab) : (s.setSlab n v).pkc = s.pkc := rfl
@[simp] theorem State.setSlab_pkc2 (s : State) (n : Nat) (v : Slab) : (s.setSlab n v).pkc2 = s.pkc2 := rfl
@[simp] theorem State.setSlab_winPeak (s : State) (n : Nat) (v : Slab) : (s.setSlab n v).winPeak = s.winPeak := rfl
@[simp] theorem State.setSlab_slabs2 (s : State) (n : Nat) (v : Slab) : (s.setSlab n v).slabs2 = s.slabs2 := rfl
@[simp] theorem State.setSlab_ports (s : State) (n : Nat) (v : Slab) : (s.setSlab n v).ports = s.ports := rfl
@[simp] theorem State.setSlab_ports2 (s : State) (n : Nat) (v : Slab) : (s.setSlab n v).ports2 = s.ports2 := rfl
@[simp] theorem State.setSlab_tiles (s : State) (n : Nat) (v : Slab) : (s.setSlab n v).tiles = s.tiles := rfl
@[simp] theorem State.setSlab_tiles2 (s : State) (n : Nat) (v : Slab) : (s.setSlab n v).tiles2 = s.tiles2 := rfl
@[simp] theorem State.setSlab_banks (s : State) (n : Nat) (v : Slab) : (s.setSlab n v).banks = s.banks := rfl
@[simp] theorem State.setSlab_parts (s : State) (n : Nat) (v : Slab) : (s.setSlab n v).parts = s.parts := rfl
@[simp] theorem State.setSlab_parts2 (s : State) (n : Nat) (v : Slab) : (s.setSlab n v).parts2 = s.parts2 := rfl
@[simp] theorem State.setSlab_ctxs (s : State) (n : Nat) (v : Slab) : (s.setSlab n v).ctxs = s.ctxs := rfl
@[simp] theorem State.setSlab_funcs (s : State) (n : Nat) (v : Slab) : (s.setSlab n v).funcs = s.funcs := rfl
@[simp] theorem State.setSlab_bankMem (s : State) (n : Nat) (v : Slab) : (s.setSlab n v).bankMem = s.bankMem := rfl
@[simp] theorem State.setSlab_hbm (s : State) (n : Nat) (v : Slab) : (s.setSlab n v).hbm = s.hbm := rfl
@[simp] theorem State.modSlab_pending (s : State) (n : Nat) (f : Slab → Slab) : (s.modSlab n f).pending = s.pending := rfl
@[simp] theorem State.modSlab_env (s : State) (n : Nat) (f : Slab → Slab) : (s.modSlab n f).env = s.env := rfl
@[simp] theorem State.modSlab_pkg (s : State) (n : Nat) (f : Slab → Slab) : (s.modSlab n f).pkg = s.pkg := rfl
@[simp] theorem State.modSlab_rif (s : State) (n : Nat) (f : Slab → Slab) : (s.modSlab n f).rif = s.rif := rfl
@[simp] theorem State.modSlab_pcie (s : State) (n : Nat) (f : Slab → Slab) : (s.modSlab n f).pcie = s.pcie := rfl
@[simp] theorem State.modSlab_sec (s : State) (n : Nat) (f : Slab → Slab) : (s.modSlab n f).sec = s.sec := rfl
@[simp] theorem State.modSlab_arm (s : State) (n : Nat) (f : Slab → Slab) : (s.modSlab n f).arm = s.arm := rfl
@[simp] theorem State.modSlab_arm2 (s : State) (n : Nat) (f : Slab → Slab) : (s.modSlab n f).arm2 = s.arm2 := rfl
@[simp] theorem State.modSlab_mtr (s : State) (n : Nat) (f : Slab → Slab) : (s.modSlab n f).mtr = s.mtr := rfl
@[simp] theorem State.modSlab_meter (s : State) (n : Nat) (f : Slab → Slab) : (s.modSlab n f).meter = s.meter := rfl
@[simp] theorem State.modSlab_meter2 (s : State) (n : Nat) (f : Slab → Slab) : (s.modSlab n f).meter2 = s.meter2 := rfl
@[simp] theorem State.modSlab_pkc (s : State) (n : Nat) (f : Slab → Slab) : (s.modSlab n f).pkc = s.pkc := rfl
@[simp] theorem State.modSlab_pkc2 (s : State) (n : Nat) (f : Slab → Slab) : (s.modSlab n f).pkc2 = s.pkc2 := rfl
@[simp] theorem State.modSlab_winPeak (s : State) (n : Nat) (f : Slab → Slab) : (s.modSlab n f).winPeak = s.winPeak := rfl
@[simp] theorem State.modSlab_slabs2 (s : State) (n : Nat) (f : Slab → Slab) : (s.modSlab n f).slabs2 = s.slabs2 := rfl
@[simp] theorem State.modSlab_ports (s : State) (n : Nat) (f : Slab → Slab) : (s.modSlab n f).ports = s.ports := rfl
@[simp] theorem State.modSlab_ports2 (s : State) (n : Nat) (f : Slab → Slab) : (s.modSlab n f).ports2 = s.ports2 := rfl
@[simp] theorem State.modSlab_tiles (s : State) (n : Nat) (f : Slab → Slab) : (s.modSlab n f).tiles = s.tiles := rfl
@[simp] theorem State.modSlab_tiles2 (s : State) (n : Nat) (f : Slab → Slab) : (s.modSlab n f).tiles2 = s.tiles2 := rfl
@[simp] theorem State.modSlab_banks (s : State) (n : Nat) (f : Slab → Slab) : (s.modSlab n f).banks = s.banks := rfl
@[simp] theorem State.modSlab_parts (s : State) (n : Nat) (f : Slab → Slab) : (s.modSlab n f).parts = s.parts := rfl
@[simp] theorem State.modSlab_parts2 (s : State) (n : Nat) (f : Slab → Slab) : (s.modSlab n f).parts2 = s.parts2 := rfl
@[simp] theorem State.modSlab_ctxs (s : State) (n : Nat) (f : Slab → Slab) : (s.modSlab n f).ctxs = s.ctxs := rfl
@[simp] theorem State.modSlab_funcs (s : State) (n : Nat) (f : Slab → Slab) : (s.modSlab n f).funcs = s.funcs := rfl
@[simp] theorem State.modSlab_bankMem (s : State) (n : Nat) (f : Slab → Slab) : (s.modSlab n f).bankMem = s.bankMem := rfl
@[simp] theorem State.modSlab_hbm (s : State) (n : Nat) (f : Slab → Slab) : (s.modSlab n f).hbm = s.hbm := rfl
@[simp] theorem State.setSlab_slab2 (s : State) (n m : Nat) (v : Slab) : (s.setSlab n v).slab2 m = s.slab2 m := rfl
@[simp] theorem State.modSlab_slab2 (s : State) (n m : Nat) (f : Slab → Slab) : (s.modSlab n f).slab2 m = s.slab2 m := rfl
@[simp] theorem State.setSlab_port (s : State) (n m : Nat) (v : Slab) : (s.setSlab n v).port m = s.port m := rfl
@[simp] theorem State.modSlab_port (s : State) (n m : Nat) (f : Slab → Slab) : (s.modSlab n f).port m = s.port m := rfl
@[simp] theorem State.setSlab_port2 (s : State) (n m : Nat) (v : Slab) : (s.setSlab n v).port2 m = s.port2 m := rfl
@[simp] theorem State.modSlab_port2 (s : State) (n m : Nat) (f : Slab → Slab) : (s.modSlab n f).port2 m = s.port2 m := rfl
@[simp] theorem State.setSlab_tile (s : State) (n m : Nat) (v : Slab) : (s.setSlab n v).tile m = s.tile m := rfl
@[simp] theorem State.modSlab_tile (s : State) (n m : Nat) (f : Slab → Slab) : (s.modSlab n f).tile m = s.tile m := rfl
@[simp] theorem State.setSlab_tile2 (s : State) (n m : Nat) (v : Slab) : (s.setSlab n v).tile2 m = s.tile2 m := rfl
@[simp] theorem State.modSlab_tile2 (s : State) (n m : Nat) (f : Slab → Slab) : (s.modSlab n f).tile2 m = s.tile2 m := rfl
@[simp] theorem State.setSlab_bank (s : State) (n m : Nat) (v : Slab) : (s.setSlab n v).bank m = s.bank m := rfl
@[simp] theorem State.modSlab_bank (s : State) (n m : Nat) (f : Slab → Slab) : (s.modSlab n f).bank m = s.bank m := rfl
@[simp] theorem State.setSlab_part (s : State) (n m : Nat) (v : Slab) : (s.setSlab n v).part m = s.part m := rfl
@[simp] theorem State.modSlab_part (s : State) (n m : Nat) (f : Slab → Slab) : (s.modSlab n f).part m = s.part m := rfl
@[simp] theorem State.setSlab_part2 (s : State) (n m : Nat) (v : Slab) : (s.setSlab n v).part2 m = s.part2 m := rfl
@[simp] theorem State.modSlab_part2 (s : State) (n m : Nat) (f : Slab → Slab) : (s.modSlab n f).part2 m = s.part2 m := rfl
@[simp] theorem State.setSlab_ctx (s : State) (n m : Nat) (v : Slab) : (s.setSlab n v).ctx m = s.ctx m := rfl
@[simp] theorem State.modSlab_ctx (s : State) (n m : Nat) (f : Slab → Slab) : (s.modSlab n f).ctx m = s.ctx m := rfl
@[simp] theorem State.setSlab_fn (s : State) (n m : Nat) (v : Slab) : (s.setSlab n v).fn m = s.fn m := rfl
@[simp] theorem State.modSlab_fn (s : State) (n m : Nat) (f : Slab → Slab) : (s.modSlab n f).fn m = s.fn m := rfl

/-! ## Slab2 -/

@[simp] theorem State.setSlab2_slab2_self (s : State) (n : Nat) (v : Slab2) : (s.setSlab2 n v).slab2 n = v := tget_tput_same _ _ _ _
theorem State.setSlab2_slab2_other (s : State) {n m : Nat} (v : Slab2) (h : m ≠ n) : (s.setSlab2 n v).slab2 m = s.slab2 m := tget_tput_other _ _ _ h
theorem State.setSlab2_slab2 (s : State) (n m : Nat) (v : Slab2) : (s.setSlab2 n v).slab2 m = if m = n then v else s.slab2 m := tget_tput _ _ _ _ _
@[simp] theorem State.modSlab2_slab2_self (s : State) (n : Nat) (f : Slab2 → Slab2) : (s.modSlab2 n f).slab2 n = f (s.slab2 n) := tget_tput_same _ _ _ _
theorem State.modSlab2_slab2_other (s : State) {n m : Nat} (f : Slab2 → Slab2) (h : m ≠ n) : (s.modSlab2 n f).slab2 m = s.slab2 m := tget_tput_other _ _ _ h
@[simp] theorem State.setSlab2_pending (s : State) (n : Nat) (v : Slab2) : (s.setSlab2 n v).pending = s.pending := rfl
@[simp] theorem State.setSlab2_env (s : State) (n : Nat) (v : Slab2) : (s.setSlab2 n v).env = s.env := rfl
@[simp] theorem State.setSlab2_pkg (s : State) (n : Nat) (v : Slab2) : (s.setSlab2 n v).pkg = s.pkg := rfl
@[simp] theorem State.setSlab2_rif (s : State) (n : Nat) (v : Slab2) : (s.setSlab2 n v).rif = s.rif := rfl
@[simp] theorem State.setSlab2_pcie (s : State) (n : Nat) (v : Slab2) : (s.setSlab2 n v).pcie = s.pcie := rfl
@[simp] theorem State.setSlab2_sec (s : State) (n : Nat) (v : Slab2) : (s.setSlab2 n v).sec = s.sec := rfl
@[simp] theorem State.setSlab2_arm (s : State) (n : Nat) (v : Slab2) : (s.setSlab2 n v).arm = s.arm := rfl
@[simp] theorem State.setSlab2_arm2 (s : State) (n : Nat) (v : Slab2) : (s.setSlab2 n v).arm2 = s.arm2 := rfl
@[simp] theorem State.setSlab2_mtr (s : State) (n : Nat) (v : Slab2) : (s.setSlab2 n v).mtr = s.mtr := rfl
@[simp] theorem State.setSlab2_meter (s : State) (n : Nat) (v : Slab2) : (s.setSlab2 n v).meter = s.meter := rfl
@[simp] theorem State.setSlab2_meter2 (s : State) (n : Nat) (v : Slab2) : (s.setSlab2 n v).meter2 = s.meter2 := rfl
@[simp] theorem State.setSlab2_pkc (s : State) (n : Nat) (v : Slab2) : (s.setSlab2 n v).pkc = s.pkc := rfl
@[simp] theorem State.setSlab2_pkc2 (s : State) (n : Nat) (v : Slab2) : (s.setSlab2 n v).pkc2 = s.pkc2 := rfl
@[simp] theorem State.setSlab2_winPeak (s : State) (n : Nat) (v : Slab2) : (s.setSlab2 n v).winPeak = s.winPeak := rfl
@[simp] theorem State.setSlab2_slabs (s : State) (n : Nat) (v : Slab2) : (s.setSlab2 n v).slabs = s.slabs := rfl
@[simp] theorem State.setSlab2_ports (s : State) (n : Nat) (v : Slab2) : (s.setSlab2 n v).ports = s.ports := rfl
@[simp] theorem State.setSlab2_ports2 (s : State) (n : Nat) (v : Slab2) : (s.setSlab2 n v).ports2 = s.ports2 := rfl
@[simp] theorem State.setSlab2_tiles (s : State) (n : Nat) (v : Slab2) : (s.setSlab2 n v).tiles = s.tiles := rfl
@[simp] theorem State.setSlab2_tiles2 (s : State) (n : Nat) (v : Slab2) : (s.setSlab2 n v).tiles2 = s.tiles2 := rfl
@[simp] theorem State.setSlab2_banks (s : State) (n : Nat) (v : Slab2) : (s.setSlab2 n v).banks = s.banks := rfl
@[simp] theorem State.setSlab2_parts (s : State) (n : Nat) (v : Slab2) : (s.setSlab2 n v).parts = s.parts := rfl
@[simp] theorem State.setSlab2_parts2 (s : State) (n : Nat) (v : Slab2) : (s.setSlab2 n v).parts2 = s.parts2 := rfl
@[simp] theorem State.setSlab2_ctxs (s : State) (n : Nat) (v : Slab2) : (s.setSlab2 n v).ctxs = s.ctxs := rfl
@[simp] theorem State.setSlab2_funcs (s : State) (n : Nat) (v : Slab2) : (s.setSlab2 n v).funcs = s.funcs := rfl
@[simp] theorem State.setSlab2_bankMem (s : State) (n : Nat) (v : Slab2) : (s.setSlab2 n v).bankMem = s.bankMem := rfl
@[simp] theorem State.setSlab2_hbm (s : State) (n : Nat) (v : Slab2) : (s.setSlab2 n v).hbm = s.hbm := rfl
@[simp] theorem State.modSlab2_pending (s : State) (n : Nat) (f : Slab2 → Slab2) : (s.modSlab2 n f).pending = s.pending := rfl
@[simp] theorem State.modSlab2_env (s : State) (n : Nat) (f : Slab2 → Slab2) : (s.modSlab2 n f).env = s.env := rfl
@[simp] theorem State.modSlab2_pkg (s : State) (n : Nat) (f : Slab2 → Slab2) : (s.modSlab2 n f).pkg = s.pkg := rfl
@[simp] theorem State.modSlab2_rif (s : State) (n : Nat) (f : Slab2 → Slab2) : (s.modSlab2 n f).rif = s.rif := rfl
@[simp] theorem State.modSlab2_pcie (s : State) (n : Nat) (f : Slab2 → Slab2) : (s.modSlab2 n f).pcie = s.pcie := rfl
@[simp] theorem State.modSlab2_sec (s : State) (n : Nat) (f : Slab2 → Slab2) : (s.modSlab2 n f).sec = s.sec := rfl
@[simp] theorem State.modSlab2_arm (s : State) (n : Nat) (f : Slab2 → Slab2) : (s.modSlab2 n f).arm = s.arm := rfl
@[simp] theorem State.modSlab2_arm2 (s : State) (n : Nat) (f : Slab2 → Slab2) : (s.modSlab2 n f).arm2 = s.arm2 := rfl
@[simp] theorem State.modSlab2_mtr (s : State) (n : Nat) (f : Slab2 → Slab2) : (s.modSlab2 n f).mtr = s.mtr := rfl
@[simp] theorem State.modSlab2_meter (s : State) (n : Nat) (f : Slab2 → Slab2) : (s.modSlab2 n f).meter = s.meter := rfl
@[simp] theorem State.modSlab2_meter2 (s : State) (n : Nat) (f : Slab2 → Slab2) : (s.modSlab2 n f).meter2 = s.meter2 := rfl
@[simp] theorem State.modSlab2_pkc (s : State) (n : Nat) (f : Slab2 → Slab2) : (s.modSlab2 n f).pkc = s.pkc := rfl
@[simp] theorem State.modSlab2_pkc2 (s : State) (n : Nat) (f : Slab2 → Slab2) : (s.modSlab2 n f).pkc2 = s.pkc2 := rfl
@[simp] theorem State.modSlab2_winPeak (s : State) (n : Nat) (f : Slab2 → Slab2) : (s.modSlab2 n f).winPeak = s.winPeak := rfl
@[simp] theorem State.modSlab2_slabs (s : State) (n : Nat) (f : Slab2 → Slab2) : (s.modSlab2 n f).slabs = s.slabs := rfl
@[simp] theorem State.modSlab2_ports (s : State) (n : Nat) (f : Slab2 → Slab2) : (s.modSlab2 n f).ports = s.ports := rfl
@[simp] theorem State.modSlab2_ports2 (s : State) (n : Nat) (f : Slab2 → Slab2) : (s.modSlab2 n f).ports2 = s.ports2 := rfl
@[simp] theorem State.modSlab2_tiles (s : State) (n : Nat) (f : Slab2 → Slab2) : (s.modSlab2 n f).tiles = s.tiles := rfl
@[simp] theorem State.modSlab2_tiles2 (s : State) (n : Nat) (f : Slab2 → Slab2) : (s.modSlab2 n f).tiles2 = s.tiles2 := rfl
@[simp] theorem State.modSlab2_banks (s : State) (n : Nat) (f : Slab2 → Slab2) : (s.modSlab2 n f).banks = s.banks := rfl
@[simp] theorem State.modSlab2_parts (s : State) (n : Nat) (f : Slab2 → Slab2) : (s.modSlab2 n f).parts = s.parts := rfl
@[simp] theorem State.modSlab2_parts2 (s : State) (n : Nat) (f : Slab2 → Slab2) : (s.modSlab2 n f).parts2 = s.parts2 := rfl
@[simp] theorem State.modSlab2_ctxs (s : State) (n : Nat) (f : Slab2 → Slab2) : (s.modSlab2 n f).ctxs = s.ctxs := rfl
@[simp] theorem State.modSlab2_funcs (s : State) (n : Nat) (f : Slab2 → Slab2) : (s.modSlab2 n f).funcs = s.funcs := rfl
@[simp] theorem State.modSlab2_bankMem (s : State) (n : Nat) (f : Slab2 → Slab2) : (s.modSlab2 n f).bankMem = s.bankMem := rfl
@[simp] theorem State.modSlab2_hbm (s : State) (n : Nat) (f : Slab2 → Slab2) : (s.modSlab2 n f).hbm = s.hbm := rfl
@[simp] theorem State.setSlab2_slab (s : State) (n m : Nat) (v : Slab2) : (s.setSlab2 n v).slab m = s.slab m := rfl
@[simp] theorem State.modSlab2_slab (s : State) (n m : Nat) (f : Slab2 → Slab2) : (s.modSlab2 n f).slab m = s.slab m := rfl
@[simp] theorem State.setSlab2_port (s : State) (n m : Nat) (v : Slab2) : (s.setSlab2 n v).port m = s.port m := rfl
@[simp] theorem State.modSlab2_port (s : State) (n m : Nat) (f : Slab2 → Slab2) : (s.modSlab2 n f).port m = s.port m := rfl
@[simp] theorem State.setSlab2_port2 (s : State) (n m : Nat) (v : Slab2) : (s.setSlab2 n v).port2 m = s.port2 m := rfl
@[simp] theorem State.modSlab2_port2 (s : State) (n m : Nat) (f : Slab2 → Slab2) : (s.modSlab2 n f).port2 m = s.port2 m := rfl
@[simp] theorem State.setSlab2_tile (s : State) (n m : Nat) (v : Slab2) : (s.setSlab2 n v).tile m = s.tile m := rfl
@[simp] theorem State.modSlab2_tile (s : State) (n m : Nat) (f : Slab2 → Slab2) : (s.modSlab2 n f).tile m = s.tile m := rfl
@[simp] theorem State.setSlab2_tile2 (s : State) (n m : Nat) (v : Slab2) : (s.setSlab2 n v).tile2 m = s.tile2 m := rfl
@[simp] theorem State.modSlab2_tile2 (s : State) (n m : Nat) (f : Slab2 → Slab2) : (s.modSlab2 n f).tile2 m = s.tile2 m := rfl
@[simp] theorem State.setSlab2_bank (s : State) (n m : Nat) (v : Slab2) : (s.setSlab2 n v).bank m = s.bank m := rfl
@[simp] theorem State.modSlab2_bank (s : State) (n m : Nat) (f : Slab2 → Slab2) : (s.modSlab2 n f).bank m = s.bank m := rfl
@[simp] theorem State.setSlab2_part (s : State) (n m : Nat) (v : Slab2) : (s.setSlab2 n v).part m = s.part m := rfl
@[simp] theorem State.modSlab2_part (s : State) (n m : Nat) (f : Slab2 → Slab2) : (s.modSlab2 n f).part m = s.part m := rfl
@[simp] theorem State.setSlab2_part2 (s : State) (n m : Nat) (v : Slab2) : (s.setSlab2 n v).part2 m = s.part2 m := rfl
@[simp] theorem State.modSlab2_part2 (s : State) (n m : Nat) (f : Slab2 → Slab2) : (s.modSlab2 n f).part2 m = s.part2 m := rfl
@[simp] theorem State.setSlab2_ctx (s : State) (n m : Nat) (v : Slab2) : (s.setSlab2 n v).ctx m = s.ctx m := rfl
@[simp] theorem State.modSlab2_ctx (s : State) (n m : Nat) (f : Slab2 → Slab2) : (s.modSlab2 n f).ctx m = s.ctx m := rfl
@[simp] theorem State.setSlab2_fn (s : State) (n m : Nat) (v : Slab2) : (s.setSlab2 n v).fn m = s.fn m := rfl
@[simp] theorem State.modSlab2_fn (s : State) (n m : Nat) (f : Slab2 → Slab2) : (s.modSlab2 n f).fn m = s.fn m := rfl

/-! ## Port -/

@[simp] theorem State.setPort_port_self (s : State) (n : Nat) (v : Port) : (s.setPort n v).port n = v := tget_tput_same _ _ _ _
theorem State.setPort_port_other (s : State) {n m : Nat} (v : Port) (h : m ≠ n) : (s.setPort n v).port m = s.port m := tget_tput_other _ _ _ h
theorem State.setPort_port (s : State) (n m : Nat) (v : Port) : (s.setPort n v).port m = if m = n then v else s.port m := tget_tput _ _ _ _ _
@[simp] theorem State.modPort_port_self (s : State) (n : Nat) (f : Port → Port) : (s.modPort n f).port n = f (s.port n) := tget_tput_same _ _ _ _
theorem State.modPort_port_other (s : State) {n m : Nat} (f : Port → Port) (h : m ≠ n) : (s.modPort n f).port m = s.port m := tget_tput_other _ _ _ h
@[simp] theorem State.setPort_pending (s : State) (n : Nat) (v : Port) : (s.setPort n v).pending = s.pending := rfl
@[simp] theorem State.setPort_env (s : State) (n : Nat) (v : Port) : (s.setPort n v).env = s.env := rfl
@[simp] theorem State.setPort_pkg (s : State) (n : Nat) (v : Port) : (s.setPort n v).pkg = s.pkg := rfl
@[simp] theorem State.setPort_rif (s : State) (n : Nat) (v : Port) : (s.setPort n v).rif = s.rif := rfl
@[simp] theorem State.setPort_pcie (s : State) (n : Nat) (v : Port) : (s.setPort n v).pcie = s.pcie := rfl
@[simp] theorem State.setPort_sec (s : State) (n : Nat) (v : Port) : (s.setPort n v).sec = s.sec := rfl
@[simp] theorem State.setPort_arm (s : State) (n : Nat) (v : Port) : (s.setPort n v).arm = s.arm := rfl
@[simp] theorem State.setPort_arm2 (s : State) (n : Nat) (v : Port) : (s.setPort n v).arm2 = s.arm2 := rfl
@[simp] theorem State.setPort_mtr (s : State) (n : Nat) (v : Port) : (s.setPort n v).mtr = s.mtr := rfl
@[simp] theorem State.setPort_meter (s : State) (n : Nat) (v : Port) : (s.setPort n v).meter = s.meter := rfl
@[simp] theorem State.setPort_meter2 (s : State) (n : Nat) (v : Port) : (s.setPort n v).meter2 = s.meter2 := rfl
@[simp] theorem State.setPort_pkc (s : State) (n : Nat) (v : Port) : (s.setPort n v).pkc = s.pkc := rfl
@[simp] theorem State.setPort_pkc2 (s : State) (n : Nat) (v : Port) : (s.setPort n v).pkc2 = s.pkc2 := rfl
@[simp] theorem State.setPort_winPeak (s : State) (n : Nat) (v : Port) : (s.setPort n v).winPeak = s.winPeak := rfl
@[simp] theorem State.setPort_slabs (s : State) (n : Nat) (v : Port) : (s.setPort n v).slabs = s.slabs := rfl
@[simp] theorem State.setPort_slabs2 (s : State) (n : Nat) (v : Port) : (s.setPort n v).slabs2 = s.slabs2 := rfl
@[simp] theorem State.setPort_ports2 (s : State) (n : Nat) (v : Port) : (s.setPort n v).ports2 = s.ports2 := rfl
@[simp] theorem State.setPort_tiles (s : State) (n : Nat) (v : Port) : (s.setPort n v).tiles = s.tiles := rfl
@[simp] theorem State.setPort_tiles2 (s : State) (n : Nat) (v : Port) : (s.setPort n v).tiles2 = s.tiles2 := rfl
@[simp] theorem State.setPort_banks (s : State) (n : Nat) (v : Port) : (s.setPort n v).banks = s.banks := rfl
@[simp] theorem State.setPort_parts (s : State) (n : Nat) (v : Port) : (s.setPort n v).parts = s.parts := rfl
@[simp] theorem State.setPort_parts2 (s : State) (n : Nat) (v : Port) : (s.setPort n v).parts2 = s.parts2 := rfl
@[simp] theorem State.setPort_ctxs (s : State) (n : Nat) (v : Port) : (s.setPort n v).ctxs = s.ctxs := rfl
@[simp] theorem State.setPort_funcs (s : State) (n : Nat) (v : Port) : (s.setPort n v).funcs = s.funcs := rfl
@[simp] theorem State.setPort_bankMem (s : State) (n : Nat) (v : Port) : (s.setPort n v).bankMem = s.bankMem := rfl
@[simp] theorem State.setPort_hbm (s : State) (n : Nat) (v : Port) : (s.setPort n v).hbm = s.hbm := rfl
@[simp] theorem State.modPort_pending (s : State) (n : Nat) (f : Port → Port) : (s.modPort n f).pending = s.pending := rfl
@[simp] theorem State.modPort_env (s : State) (n : Nat) (f : Port → Port) : (s.modPort n f).env = s.env := rfl
@[simp] theorem State.modPort_pkg (s : State) (n : Nat) (f : Port → Port) : (s.modPort n f).pkg = s.pkg := rfl
@[simp] theorem State.modPort_rif (s : State) (n : Nat) (f : Port → Port) : (s.modPort n f).rif = s.rif := rfl
@[simp] theorem State.modPort_pcie (s : State) (n : Nat) (f : Port → Port) : (s.modPort n f).pcie = s.pcie := rfl
@[simp] theorem State.modPort_sec (s : State) (n : Nat) (f : Port → Port) : (s.modPort n f).sec = s.sec := rfl
@[simp] theorem State.modPort_arm (s : State) (n : Nat) (f : Port → Port) : (s.modPort n f).arm = s.arm := rfl
@[simp] theorem State.modPort_arm2 (s : State) (n : Nat) (f : Port → Port) : (s.modPort n f).arm2 = s.arm2 := rfl
@[simp] theorem State.modPort_mtr (s : State) (n : Nat) (f : Port → Port) : (s.modPort n f).mtr = s.mtr := rfl
@[simp] theorem State.modPort_meter (s : State) (n : Nat) (f : Port → Port) : (s.modPort n f).meter = s.meter := rfl
@[simp] theorem State.modPort_meter2 (s : State) (n : Nat) (f : Port → Port) : (s.modPort n f).meter2 = s.meter2 := rfl
@[simp] theorem State.modPort_pkc (s : State) (n : Nat) (f : Port → Port) : (s.modPort n f).pkc = s.pkc := rfl
@[simp] theorem State.modPort_pkc2 (s : State) (n : Nat) (f : Port → Port) : (s.modPort n f).pkc2 = s.pkc2 := rfl
@[simp] theorem State.modPort_winPeak (s : State) (n : Nat) (f : Port → Port) : (s.modPort n f).winPeak = s.winPeak := rfl
@[simp] theorem State.modPort_slabs (s : State) (n : Nat) (f : Port → Port) : (s.modPort n f).slabs = s.slabs := rfl
@[simp] theorem State.modPort_slabs2 (s : State) (n : Nat) (f : Port → Port) : (s.modPort n f).slabs2 = s.slabs2 := rfl
@[simp] theorem State.modPort_ports2 (s : State) (n : Nat) (f : Port → Port) : (s.modPort n f).ports2 = s.ports2 := rfl
@[simp] theorem State.modPort_tiles (s : State) (n : Nat) (f : Port → Port) : (s.modPort n f).tiles = s.tiles := rfl
@[simp] theorem State.modPort_tiles2 (s : State) (n : Nat) (f : Port → Port) : (s.modPort n f).tiles2 = s.tiles2 := rfl
@[simp] theorem State.modPort_banks (s : State) (n : Nat) (f : Port → Port) : (s.modPort n f).banks = s.banks := rfl
@[simp] theorem State.modPort_parts (s : State) (n : Nat) (f : Port → Port) : (s.modPort n f).parts = s.parts := rfl
@[simp] theorem State.modPort_parts2 (s : State) (n : Nat) (f : Port → Port) : (s.modPort n f).parts2 = s.parts2 := rfl
@[simp] theorem State.modPort_ctxs (s : State) (n : Nat) (f : Port → Port) : (s.modPort n f).ctxs = s.ctxs := rfl
@[simp] theorem State.modPort_funcs (s : State) (n : Nat) (f : Port → Port) : (s.modPort n f).funcs = s.funcs := rfl
@[simp] theorem State.modPort_bankMem (s : State) (n : Nat) (f : Port → Port) : (s.modPort n f).bankMem = s.bankMem := rfl
@[simp] theorem State.modPort_hbm (s : State) (n : Nat) (f : Port → Port) : (s.modPort n f).hbm = s.hbm := rfl
@[simp] theorem State.setPort_slab (s : State) (n m : Nat) (v : Port) : (s.setPort n v).slab m = s.slab m := rfl
@[simp] theorem State.modPort_slab (s : State) (n m : Nat) (f : Port → Port) : (s.modPort n f).slab m = s.slab m := rfl
@[simp] theorem State.setPort_slab2 (s : State) (n m : Nat) (v : Port) : (s.setPort n v).slab2 m = s.slab2 m := rfl
@[simp] theorem State.modPort_slab2 (s : State) (n m : Nat) (f : Port → Port) : (s.modPort n f).slab2 m = s.slab2 m := rfl
@[simp] theorem State.setPort_port2 (s : State) (n m : Nat) (v : Port) : (s.setPort n v).port2 m = s.port2 m := rfl
@[simp] theorem State.modPort_port2 (s : State) (n m : Nat) (f : Port → Port) : (s.modPort n f).port2 m = s.port2 m := rfl
@[simp] theorem State.setPort_tile (s : State) (n m : Nat) (v : Port) : (s.setPort n v).tile m = s.tile m := rfl
@[simp] theorem State.modPort_tile (s : State) (n m : Nat) (f : Port → Port) : (s.modPort n f).tile m = s.tile m := rfl
@[simp] theorem State.setPort_tile2 (s : State) (n m : Nat) (v : Port) : (s.setPort n v).tile2 m = s.tile2 m := rfl
@[simp] theorem State.modPort_tile2 (s : State) (n m : Nat) (f : Port → Port) : (s.modPort n f).tile2 m = s.tile2 m := rfl
@[simp] theorem State.setPort_bank (s : State) (n m : Nat) (v : Port) : (s.setPort n v).bank m = s.bank m := rfl
@[simp] theorem State.modPort_bank (s : State) (n m : Nat) (f : Port → Port) : (s.modPort n f).bank m = s.bank m := rfl
@[simp] theorem State.setPort_part (s : State) (n m : Nat) (v : Port) : (s.setPort n v).part m = s.part m := rfl
@[simp] theorem State.modPort_part (s : State) (n m : Nat) (f : Port → Port) : (s.modPort n f).part m = s.part m := rfl
@[simp] theorem State.setPort_part2 (s : State) (n m : Nat) (v : Port) : (s.setPort n v).part2 m = s.part2 m := rfl
@[simp] theorem State.modPort_part2 (s : State) (n m : Nat) (f : Port → Port) : (s.modPort n f).part2 m = s.part2 m := rfl
@[simp] theorem State.setPort_ctx (s : State) (n m : Nat) (v : Port) : (s.setPort n v).ctx m = s.ctx m := rfl
@[simp] theorem State.modPort_ctx (s : State) (n m : Nat) (f : Port → Port) : (s.modPort n f).ctx m = s.ctx m := rfl
@[simp] theorem State.setPort_fn (s : State) (n m : Nat) (v : Port) : (s.setPort n v).fn m = s.fn m := rfl
@[simp] theorem State.modPort_fn (s : State) (n m : Nat) (f : Port → Port) : (s.modPort n f).fn m = s.fn m := rfl

/-! ## Port2 -/

@[simp] theorem State.setPort2_port2_self (s : State) (n : Nat) (v : Port2) : (s.setPort2 n v).port2 n = v := tget_tput_same _ _ _ _
theorem State.setPort2_port2_other (s : State) {n m : Nat} (v : Port2) (h : m ≠ n) : (s.setPort2 n v).port2 m = s.port2 m := tget_tput_other _ _ _ h
theorem State.setPort2_port2 (s : State) (n m : Nat) (v : Port2) : (s.setPort2 n v).port2 m = if m = n then v else s.port2 m := tget_tput _ _ _ _ _
@[simp] theorem State.modPort2_port2_self (s : State) (n : Nat) (f : Port2 → Port2) : (s.modPort2 n f).port2 n = f (s.port2 n) := tget_tput_same _ _ _ _
theorem State.modPort2_port2_other (s : State) {n m : Nat} (f : Port2 → Port2) (h : m ≠ n) : (s.modPort2 n f).port2 m = s.port2 m := tget_tput_other _ _ _ h
@[simp] theorem State.setPort2_pending (s : State) (n : Nat) (v : Port2) : (s.setPort2 n v).pending = s.pending := rfl
@[simp] theorem State.setPort2_env (s : State) (n : Nat) (v : Port2) : (s.setPort2 n v).env = s.env := rfl
@[simp] theorem State.setPort2_pkg (s : State) (n : Nat) (v : Port2) : (s.setPort2 n v).pkg = s.pkg := rfl
@[simp] theorem State.setPort2_rif (s : State) (n : Nat) (v : Port2) : (s.setPort2 n v).rif = s.rif := rfl
@[simp] theorem State.setPort2_pcie (s : State) (n : Nat) (v : Port2) : (s.setPort2 n v).pcie = s.pcie := rfl
@[simp] theorem State.setPort2_sec (s : State) (n : Nat) (v : Port2) : (s.setPort2 n v).sec = s.sec := rfl
@[simp] theorem State.setPort2_arm (s : State) (n : Nat) (v : Port2) : (s.setPort2 n v).arm = s.arm := rfl
@[simp] theorem State.setPort2_arm2 (s : State) (n : Nat) (v : Port2) : (s.setPort2 n v).arm2 = s.arm2 := rfl
@[simp] theorem State.setPort2_mtr (s : State) (n : Nat) (v : Port2) : (s.setPort2 n v).mtr = s.mtr := rfl
@[simp] theorem State.setPort2_meter (s : State) (n : Nat) (v : Port2) : (s.setPort2 n v).meter = s.meter := rfl
@[simp] theorem State.setPort2_meter2 (s : State) (n : Nat) (v : Port2) : (s.setPort2 n v).meter2 = s.meter2 := rfl
@[simp] theorem State.setPort2_pkc (s : State) (n : Nat) (v : Port2) : (s.setPort2 n v).pkc = s.pkc := rfl
@[simp] theorem State.setPort2_pkc2 (s : State) (n : Nat) (v : Port2) : (s.setPort2 n v).pkc2 = s.pkc2 := rfl
@[simp] theorem State.setPort2_winPeak (s : State) (n : Nat) (v : Port2) : (s.setPort2 n v).winPeak = s.winPeak := rfl
@[simp] theorem State.setPort2_slabs (s : State) (n : Nat) (v : Port2) : (s.setPort2 n v).slabs = s.slabs := rfl
@[simp] theorem State.setPort2_slabs2 (s : State) (n : Nat) (v : Port2) : (s.setPort2 n v).slabs2 = s.slabs2 := rfl
@[simp] theorem State.setPort2_ports (s : State) (n : Nat) (v : Port2) : (s.setPort2 n v).ports = s.ports := rfl
@[simp] theorem State.setPort2_tiles (s : State) (n : Nat) (v : Port2) : (s.setPort2 n v).tiles = s.tiles := rfl
@[simp] theorem State.setPort2_tiles2 (s : State) (n : Nat) (v : Port2) : (s.setPort2 n v).tiles2 = s.tiles2 := rfl
@[simp] theorem State.setPort2_banks (s : State) (n : Nat) (v : Port2) : (s.setPort2 n v).banks = s.banks := rfl
@[simp] theorem State.setPort2_parts (s : State) (n : Nat) (v : Port2) : (s.setPort2 n v).parts = s.parts := rfl
@[simp] theorem State.setPort2_parts2 (s : State) (n : Nat) (v : Port2) : (s.setPort2 n v).parts2 = s.parts2 := rfl
@[simp] theorem State.setPort2_ctxs (s : State) (n : Nat) (v : Port2) : (s.setPort2 n v).ctxs = s.ctxs := rfl
@[simp] theorem State.setPort2_funcs (s : State) (n : Nat) (v : Port2) : (s.setPort2 n v).funcs = s.funcs := rfl
@[simp] theorem State.setPort2_bankMem (s : State) (n : Nat) (v : Port2) : (s.setPort2 n v).bankMem = s.bankMem := rfl
@[simp] theorem State.setPort2_hbm (s : State) (n : Nat) (v : Port2) : (s.setPort2 n v).hbm = s.hbm := rfl
@[simp] theorem State.modPort2_pending (s : State) (n : Nat) (f : Port2 → Port2) : (s.modPort2 n f).pending = s.pending := rfl
@[simp] theorem State.modPort2_env (s : State) (n : Nat) (f : Port2 → Port2) : (s.modPort2 n f).env = s.env := rfl
@[simp] theorem State.modPort2_pkg (s : State) (n : Nat) (f : Port2 → Port2) : (s.modPort2 n f).pkg = s.pkg := rfl
@[simp] theorem State.modPort2_rif (s : State) (n : Nat) (f : Port2 → Port2) : (s.modPort2 n f).rif = s.rif := rfl
@[simp] theorem State.modPort2_pcie (s : State) (n : Nat) (f : Port2 → Port2) : (s.modPort2 n f).pcie = s.pcie := rfl
@[simp] theorem State.modPort2_sec (s : State) (n : Nat) (f : Port2 → Port2) : (s.modPort2 n f).sec = s.sec := rfl
@[simp] theorem State.modPort2_arm (s : State) (n : Nat) (f : Port2 → Port2) : (s.modPort2 n f).arm = s.arm := rfl
@[simp] theorem State.modPort2_arm2 (s : State) (n : Nat) (f : Port2 → Port2) : (s.modPort2 n f).arm2 = s.arm2 := rfl
@[simp] theorem State.modPort2_mtr (s : State) (n : Nat) (f : Port2 → Port2) : (s.modPort2 n f).mtr = s.mtr := rfl
@[simp] theorem State.modPort2_meter (s : State) (n : Nat) (f : Port2 → Port2) : (s.modPort2 n f).meter = s.meter := rfl
@[simp] theorem State.modPort2_meter2 (s : State) (n : Nat) (f : Port2 → Port2) : (s.modPort2 n f).meter2 = s.meter2 := rfl
@[simp] theorem State.modPort2_pkc (s : State) (n : Nat) (f : Port2 → Port2) : (s.modPort2 n f).pkc = s.pkc := rfl
@[simp] theorem State.modPort2_pkc2 (s : State) (n : Nat) (f : Port2 → Port2) : (s.modPort2 n f).pkc2 = s.pkc2 := rfl
@[simp] theorem State.modPort2_winPeak (s : State) (n : Nat) (f : Port2 → Port2) : (s.modPort2 n f).winPeak = s.winPeak := rfl
@[simp] theorem State.modPort2_slabs (s : State) (n : Nat) (f : Port2 → Port2) : (s.modPort2 n f).slabs = s.slabs := rfl
@[simp] theorem State.modPort2_slabs2 (s : State) (n : Nat) (f : Port2 → Port2) : (s.modPort2 n f).slabs2 = s.slabs2 := rfl
@[simp] theorem State.modPort2_ports (s : State) (n : Nat) (f : Port2 → Port2) : (s.modPort2 n f).ports = s.ports := rfl
@[simp] theorem State.modPort2_tiles (s : State) (n : Nat) (f : Port2 → Port2) : (s.modPort2 n f).tiles = s.tiles := rfl
@[simp] theorem State.modPort2_tiles2 (s : State) (n : Nat) (f : Port2 → Port2) : (s.modPort2 n f).tiles2 = s.tiles2 := rfl
@[simp] theorem State.modPort2_banks (s : State) (n : Nat) (f : Port2 → Port2) : (s.modPort2 n f).banks = s.banks := rfl
@[simp] theorem State.modPort2_parts (s : State) (n : Nat) (f : Port2 → Port2) : (s.modPort2 n f).parts = s.parts := rfl
@[simp] theorem State.modPort2_parts2 (s : State) (n : Nat) (f : Port2 → Port2) : (s.modPort2 n f).parts2 = s.parts2 := rfl
@[simp] theorem State.modPort2_ctxs (s : State) (n : Nat) (f : Port2 → Port2) : (s.modPort2 n f).ctxs = s.ctxs := rfl
@[simp] theorem State.modPort2_funcs (s : State) (n : Nat) (f : Port2 → Port2) : (s.modPort2 n f).funcs = s.funcs := rfl
@[simp] theorem State.modPort2_bankMem (s : State) (n : Nat) (f : Port2 → Port2) : (s.modPort2 n f).bankMem = s.bankMem := rfl
@[simp] theorem State.modPort2_hbm (s : State) (n : Nat) (f : Port2 → Port2) : (s.modPort2 n f).hbm = s.hbm := rfl
@[simp] theorem State.setPort2_slab (s : State) (n m : Nat) (v : Port2) : (s.setPort2 n v).slab m = s.slab m := rfl
@[simp] theorem State.modPort2_slab (s : State) (n m : Nat) (f : Port2 → Port2) : (s.modPort2 n f).slab m = s.slab m := rfl
@[simp] theorem State.setPort2_slab2 (s : State) (n m : Nat) (v : Port2) : (s.setPort2 n v).slab2 m = s.slab2 m := rfl
@[simp] theorem State.modPort2_slab2 (s : State) (n m : Nat) (f : Port2 → Port2) : (s.modPort2 n f).slab2 m = s.slab2 m := rfl
@[simp] theorem State.setPort2_port (s : State) (n m : Nat) (v : Port2) : (s.setPort2 n v).port m = s.port m := rfl
@[simp] theorem State.modPort2_port (s : State) (n m : Nat) (f : Port2 → Port2) : (s.modPort2 n f).port m = s.port m := rfl
@[simp] theorem State.setPort2_tile (s : State) (n m : Nat) (v : Port2) : (s.setPort2 n v).tile m = s.tile m := rfl
@[simp] theorem State.modPort2_tile (s : State) (n m : Nat) (f : Port2 → Port2) : (s.modPort2 n f).tile m = s.tile m := rfl
@[simp] theorem State.setPort2_tile2 (s : State) (n m : Nat) (v : Port2) : (s.setPort2 n v).tile2 m = s.tile2 m := rfl
@[simp] theorem State.modPort2_tile2 (s : State) (n m : Nat) (f : Port2 → Port2) : (s.modPort2 n f).tile2 m = s.tile2 m := rfl
@[simp] theorem State.setPort2_bank (s : State) (n m : Nat) (v : Port2) : (s.setPort2 n v).bank m = s.bank m := rfl
@[simp] theorem State.modPort2_bank (s : State) (n m : Nat) (f : Port2 → Port2) : (s.modPort2 n f).bank m = s.bank m := rfl
@[simp] theorem State.setPort2_part (s : State) (n m : Nat) (v : Port2) : (s.setPort2 n v).part m = s.part m := rfl
@[simp] theorem State.modPort2_part (s : State) (n m : Nat) (f : Port2 → Port2) : (s.modPort2 n f).part m = s.part m := rfl
@[simp] theorem State.setPort2_part2 (s : State) (n m : Nat) (v : Port2) : (s.setPort2 n v).part2 m = s.part2 m := rfl
@[simp] theorem State.modPort2_part2 (s : State) (n m : Nat) (f : Port2 → Port2) : (s.modPort2 n f).part2 m = s.part2 m := rfl
@[simp] theorem State.setPort2_ctx (s : State) (n m : Nat) (v : Port2) : (s.setPort2 n v).ctx m = s.ctx m := rfl
@[simp] theorem State.modPort2_ctx (s : State) (n m : Nat) (f : Port2 → Port2) : (s.modPort2 n f).ctx m = s.ctx m := rfl
@[simp] theorem State.setPort2_fn (s : State) (n m : Nat) (v : Port2) : (s.setPort2 n v).fn m = s.fn m := rfl
@[simp] theorem State.modPort2_fn (s : State) (n m : Nat) (f : Port2 → Port2) : (s.modPort2 n f).fn m = s.fn m := rfl

/-! ## Tile -/

@[simp] theorem State.setTile_tile_self (s : State) (n : Nat) (v : Tile) : (s.setTile n v).tile n = v := tget_tput_same _ _ _ _
theorem State.setTile_tile_other (s : State) {n m : Nat} (v : Tile) (h : m ≠ n) : (s.setTile n v).tile m = s.tile m := tget_tput_other _ _ _ h
theorem State.setTile_tile (s : State) (n m : Nat) (v : Tile) : (s.setTile n v).tile m = if m = n then v else s.tile m := tget_tput _ _ _ _ _
@[simp] theorem State.modTile_tile_self (s : State) (n : Nat) (f : Tile → Tile) : (s.modTile n f).tile n = f (s.tile n) := tget_tput_same _ _ _ _
theorem State.modTile_tile_other (s : State) {n m : Nat} (f : Tile → Tile) (h : m ≠ n) : (s.modTile n f).tile m = s.tile m := tget_tput_other _ _ _ h
@[simp] theorem State.setTile_pending (s : State) (n : Nat) (v : Tile) : (s.setTile n v).pending = s.pending := rfl
@[simp] theorem State.setTile_env (s : State) (n : Nat) (v : Tile) : (s.setTile n v).env = s.env := rfl
@[simp] theorem State.setTile_pkg (s : State) (n : Nat) (v : Tile) : (s.setTile n v).pkg = s.pkg := rfl
@[simp] theorem State.setTile_rif (s : State) (n : Nat) (v : Tile) : (s.setTile n v).rif = s.rif := rfl
@[simp] theorem State.setTile_pcie (s : State) (n : Nat) (v : Tile) : (s.setTile n v).pcie = s.pcie := rfl
@[simp] theorem State.setTile_sec (s : State) (n : Nat) (v : Tile) : (s.setTile n v).sec = s.sec := rfl
@[simp] theorem State.setTile_arm (s : State) (n : Nat) (v : Tile) : (s.setTile n v).arm = s.arm := rfl
@[simp] theorem State.setTile_arm2 (s : State) (n : Nat) (v : Tile) : (s.setTile n v).arm2 = s.arm2 := rfl
@[simp] theorem State.setTile_mtr (s : State) (n : Nat) (v : Tile) : (s.setTile n v).mtr = s.mtr := rfl
@[simp] theorem State.setTile_meter (s : State) (n : Nat) (v : Tile) : (s.setTile n v).meter = s.meter := rfl
@[simp] theorem State.setTile_meter2 (s : State) (n : Nat) (v : Tile) : (s.setTile n v).meter2 = s.meter2 := rfl
@[simp] theorem State.setTile_pkc (s : State) (n : Nat) (v : Tile) : (s.setTile n v).pkc = s.pkc := rfl
@[simp] theorem State.setTile_pkc2 (s : State) (n : Nat) (v : Tile) : (s.setTile n v).pkc2 = s.pkc2 := rfl
@[simp] theorem State.setTile_winPeak (s : State) (n : Nat) (v : Tile) : (s.setTile n v).winPeak = s.winPeak := rfl
@[simp] theorem State.setTile_slabs (s : State) (n : Nat) (v : Tile) : (s.setTile n v).slabs = s.slabs := rfl
@[simp] theorem State.setTile_slabs2 (s : State) (n : Nat) (v : Tile) : (s.setTile n v).slabs2 = s.slabs2 := rfl
@[simp] theorem State.setTile_ports (s : State) (n : Nat) (v : Tile) : (s.setTile n v).ports = s.ports := rfl
@[simp] theorem State.setTile_ports2 (s : State) (n : Nat) (v : Tile) : (s.setTile n v).ports2 = s.ports2 := rfl
@[simp] theorem State.setTile_tiles2 (s : State) (n : Nat) (v : Tile) : (s.setTile n v).tiles2 = s.tiles2 := rfl
@[simp] theorem State.setTile_banks (s : State) (n : Nat) (v : Tile) : (s.setTile n v).banks = s.banks := rfl
@[simp] theorem State.setTile_parts (s : State) (n : Nat) (v : Tile) : (s.setTile n v).parts = s.parts := rfl
@[simp] theorem State.setTile_parts2 (s : State) (n : Nat) (v : Tile) : (s.setTile n v).parts2 = s.parts2 := rfl
@[simp] theorem State.setTile_ctxs (s : State) (n : Nat) (v : Tile) : (s.setTile n v).ctxs = s.ctxs := rfl
@[simp] theorem State.setTile_funcs (s : State) (n : Nat) (v : Tile) : (s.setTile n v).funcs = s.funcs := rfl
@[simp] theorem State.setTile_bankMem (s : State) (n : Nat) (v : Tile) : (s.setTile n v).bankMem = s.bankMem := rfl
@[simp] theorem State.setTile_hbm (s : State) (n : Nat) (v : Tile) : (s.setTile n v).hbm = s.hbm := rfl
@[simp] theorem State.modTile_pending (s : State) (n : Nat) (f : Tile → Tile) : (s.modTile n f).pending = s.pending := rfl
@[simp] theorem State.modTile_env (s : State) (n : Nat) (f : Tile → Tile) : (s.modTile n f).env = s.env := rfl
@[simp] theorem State.modTile_pkg (s : State) (n : Nat) (f : Tile → Tile) : (s.modTile n f).pkg = s.pkg := rfl
@[simp] theorem State.modTile_rif (s : State) (n : Nat) (f : Tile → Tile) : (s.modTile n f).rif = s.rif := rfl
@[simp] theorem State.modTile_pcie (s : State) (n : Nat) (f : Tile → Tile) : (s.modTile n f).pcie = s.pcie := rfl
@[simp] theorem State.modTile_sec (s : State) (n : Nat) (f : Tile → Tile) : (s.modTile n f).sec = s.sec := rfl
@[simp] theorem State.modTile_arm (s : State) (n : Nat) (f : Tile → Tile) : (s.modTile n f).arm = s.arm := rfl
@[simp] theorem State.modTile_arm2 (s : State) (n : Nat) (f : Tile → Tile) : (s.modTile n f).arm2 = s.arm2 := rfl
@[simp] theorem State.modTile_mtr (s : State) (n : Nat) (f : Tile → Tile) : (s.modTile n f).mtr = s.mtr := rfl
@[simp] theorem State.modTile_meter (s : State) (n : Nat) (f : Tile → Tile) : (s.modTile n f).meter = s.meter := rfl
@[simp] theorem State.modTile_meter2 (s : State) (n : Nat) (f : Tile → Tile) : (s.modTile n f).meter2 = s.meter2 := rfl
@[simp] theorem State.modTile_pkc (s : State) (n : Nat) (f : Tile → Tile) : (s.modTile n f).pkc = s.pkc := rfl
@[simp] theorem State.modTile_pkc2 (s : State) (n : Nat) (f : Tile → Tile) : (s.modTile n f).pkc2 = s.pkc2 := rfl
@[simp] theorem State.modTile_winPeak (s : State) (n : Nat) (f : Tile → Tile) : (s.modTile n f).winPeak = s.winPeak := rfl
@[simp] theorem State.modTile_slabs (s : State) (n : Nat) (f : Tile → Tile) : (s.modTile n f).slabs = s.slabs := rfl
@[simp] theorem State.modTile_slabs2 (s : State) (n : Nat) (f : Tile → Tile) : (s.modTile n f).slabs2 = s.slabs2 := rfl
@[simp] theorem State.modTile_ports (s : State) (n : Nat) (f : Tile → Tile) : (s.modTile n f).ports = s.ports := rfl
@[simp] theorem State.modTile_ports2 (s : State) (n : Nat) (f : Tile → Tile) : (s.modTile n f).ports2 = s.ports2 := rfl
@[simp] theorem State.modTile_tiles2 (s : State) (n : Nat) (f : Tile → Tile) : (s.modTile n f).tiles2 = s.tiles2 := rfl
@[simp] theorem State.modTile_banks (s : State) (n : Nat) (f : Tile → Tile) : (s.modTile n f).banks = s.banks := rfl
@[simp] theorem State.modTile_parts (s : State) (n : Nat) (f : Tile → Tile) : (s.modTile n f).parts = s.parts := rfl
@[simp] theorem State.modTile_parts2 (s : State) (n : Nat) (f : Tile → Tile) : (s.modTile n f).parts2 = s.parts2 := rfl
@[simp] theorem State.modTile_ctxs (s : State) (n : Nat) (f : Tile → Tile) : (s.modTile n f).ctxs = s.ctxs := rfl
@[simp] theorem State.modTile_funcs (s : State) (n : Nat) (f : Tile → Tile) : (s.modTile n f).funcs = s.funcs := rfl
@[simp] theorem State.modTile_bankMem (s : State) (n : Nat) (f : Tile → Tile) : (s.modTile n f).bankMem = s.bankMem := rfl
@[simp] theorem State.modTile_hbm (s : State) (n : Nat) (f : Tile → Tile) : (s.modTile n f).hbm = s.hbm := rfl
@[simp] theorem State.setTile_slab (s : State) (n m : Nat) (v : Tile) : (s.setTile n v).slab m = s.slab m := rfl
@[simp] theorem State.modTile_slab (s : State) (n m : Nat) (f : Tile → Tile) : (s.modTile n f).slab m = s.slab m := rfl
@[simp] theorem State.setTile_slab2 (s : State) (n m : Nat) (v : Tile) : (s.setTile n v).slab2 m = s.slab2 m := rfl
@[simp] theorem State.modTile_slab2 (s : State) (n m : Nat) (f : Tile → Tile) : (s.modTile n f).slab2 m = s.slab2 m := rfl
@[simp] theorem State.setTile_port (s : State) (n m : Nat) (v : Tile) : (s.setTile n v).port m = s.port m := rfl
@[simp] theorem State.modTile_port (s : State) (n m : Nat) (f : Tile → Tile) : (s.modTile n f).port m = s.port m := rfl
@[simp] theorem State.setTile_port2 (s : State) (n m : Nat) (v : Tile) : (s.setTile n v).port2 m = s.port2 m := rfl
@[simp] theorem State.modTile_port2 (s : State) (n m : Nat) (f : Tile → Tile) : (s.modTile n f).port2 m = s.port2 m := rfl
@[simp] theorem State.setTile_tile2 (s : State) (n m : Nat) (v : Tile) : (s.setTile n v).tile2 m = s.tile2 m := rfl
@[simp] theorem State.modTile_tile2 (s : State) (n m : Nat) (f : Tile → Tile) : (s.modTile n f).tile2 m = s.tile2 m := rfl
@[simp] theorem State.setTile_bank (s : State) (n m : Nat) (v : Tile) : (s.setTile n v).bank m = s.bank m := rfl
@[simp] theorem State.modTile_bank (s : State) (n m : Nat) (f : Tile → Tile) : (s.modTile n f).bank m = s.bank m := rfl
@[simp] theorem State.setTile_part (s : State) (n m : Nat) (v : Tile) : (s.setTile n v).part m = s.part m := rfl
@[simp] theorem State.modTile_part (s : State) (n m : Nat) (f : Tile → Tile) : (s.modTile n f).part m = s.part m := rfl
@[simp] theorem State.setTile_part2 (s : State) (n m : Nat) (v : Tile) : (s.setTile n v).part2 m = s.part2 m := rfl
@[simp] theorem State.modTile_part2 (s : State) (n m : Nat) (f : Tile → Tile) : (s.modTile n f).part2 m = s.part2 m := rfl
@[simp] theorem State.setTile_ctx (s : State) (n m : Nat) (v : Tile) : (s.setTile n v).ctx m = s.ctx m := rfl
@[simp] theorem State.modTile_ctx (s : State) (n m : Nat) (f : Tile → Tile) : (s.modTile n f).ctx m = s.ctx m := rfl
@[simp] theorem State.setTile_fn (s : State) (n m : Nat) (v : Tile) : (s.setTile n v).fn m = s.fn m := rfl
@[simp] theorem State.modTile_fn (s : State) (n m : Nat) (f : Tile → Tile) : (s.modTile n f).fn m = s.fn m := rfl

/-! ## Tile2 -/

@[simp] theorem State.setTile2_tile2_self (s : State) (n : Nat) (v : Tile2) : (s.setTile2 n v).tile2 n = v := tget_tput_same _ _ _ _
theorem State.setTile2_tile2_other (s : State) {n m : Nat} (v : Tile2) (h : m ≠ n) : (s.setTile2 n v).tile2 m = s.tile2 m := tget_tput_other _ _ _ h
theorem State.setTile2_tile2 (s : State) (n m : Nat) (v : Tile2) : (s.setTile2 n v).tile2 m = if m = n then v else s.tile2 m := tget_tput _ _ _ _ _
@[simp] theorem State.modTile2_tile2_self (s : State) (n : Nat) (f : Tile2 → Tile2) : (s.modTile2 n f).tile2 n = f (s.tile2 n) := tget_tput_same _ _ _ _
theorem State.modTile2_tile2_other (s : State) {n m : Nat} (f : Tile2 → Tile2) (h : m ≠ n) : (s.modTile2 n f).tile2 m = s.tile2 m := tget_tput_other _ _ _ h
@[simp] theorem State.setTile2_pending (s : State) (n : Nat) (v : Tile2) : (s.setTile2 n v).pending = s.pending := rfl
@[simp] theorem State.setTile2_env (s : State) (n : Nat) (v : Tile2) : (s.setTile2 n v).env = s.env := rfl
@[simp] theorem State.setTile2_pkg (s : State) (n : Nat) (v : Tile2) : (s.setTile2 n v).pkg = s.pkg := rfl
@[simp] theorem State.setTile2_rif (s : State) (n : Nat) (v : Tile2) : (s.setTile2 n v).rif = s.rif := rfl
@[simp] theorem State.setTile2_pcie (s : State) (n : Nat) (v : Tile2) : (s.setTile2 n v).pcie = s.pcie := rfl
@[simp] theorem State.setTile2_sec (s : State) (n : Nat) (v : Tile2) : (s.setTile2 n v).sec = s.sec := rfl
@[simp] theorem State.setTile2_arm (s : State) (n : Nat) (v : Tile2) : (s.setTile2 n v).arm = s.arm := rfl
@[simp] theorem State.setTile2_arm2 (s : State) (n : Nat) (v : Tile2) : (s.setTile2 n v).arm2 = s.arm2 := rfl
@[simp] theorem State.setTile2_mtr (s : State) (n : Nat) (v : Tile2) : (s.setTile2 n v).mtr = s.mtr := rfl
@[simp] theorem State.setTile2_meter (s : State) (n : Nat) (v : Tile2) : (s.setTile2 n v).meter = s.meter := rfl
@[simp] theorem State.setTile2_meter2 (s : State) (n : Nat) (v : Tile2) : (s.setTile2 n v).meter2 = s.meter2 := rfl
@[simp] theorem State.setTile2_pkc (s : State) (n : Nat) (v : Tile2) : (s.setTile2 n v).pkc = s.pkc := rfl
@[simp] theorem State.setTile2_pkc2 (s : State) (n : Nat) (v : Tile2) : (s.setTile2 n v).pkc2 = s.pkc2 := rfl
@[simp] theorem State.setTile2_winPeak (s : State) (n : Nat) (v : Tile2) : (s.setTile2 n v).winPeak = s.winPeak := rfl
@[simp] theorem State.setTile2_slabs (s : State) (n : Nat) (v : Tile2) : (s.setTile2 n v).slabs = s.slabs := rfl
@[simp] theorem State.setTile2_slabs2 (s : State) (n : Nat) (v : Tile2) : (s.setTile2 n v).slabs2 = s.slabs2 := rfl
@[simp] theorem State.setTile2_ports (s : State) (n : Nat) (v : Tile2) : (s.setTile2 n v).ports = s.ports := rfl
@[simp] theorem State.setTile2_ports2 (s : State) (n : Nat) (v : Tile2) : (s.setTile2 n v).ports2 = s.ports2 := rfl
@[simp] theorem State.setTile2_tiles (s : State) (n : Nat) (v : Tile2) : (s.setTile2 n v).tiles = s.tiles := rfl
@[simp] theorem State.setTile2_banks (s : State) (n : Nat) (v : Tile2) : (s.setTile2 n v).banks = s.banks := rfl
@[simp] theorem State.setTile2_parts (s : State) (n : Nat) (v : Tile2) : (s.setTile2 n v).parts = s.parts := rfl
@[simp] theorem State.setTile2_parts2 (s : State) (n : Nat) (v : Tile2) : (s.setTile2 n v).parts2 = s.parts2 := rfl
@[simp] theorem State.setTile2_ctxs (s : State) (n : Nat) (v : Tile2) : (s.setTile2 n v).ctxs = s.ctxs := rfl
@[simp] theorem State.setTile2_funcs (s : State) (n : Nat) (v : Tile2) : (s.setTile2 n v).funcs = s.funcs := rfl
@[simp] theorem State.setTile2_bankMem (s : State) (n : Nat) (v : Tile2) : (s.setTile2 n v).bankMem = s.bankMem := rfl
@[simp] theorem State.setTile2_hbm (s : State) (n : Nat) (v : Tile2) : (s.setTile2 n v).hbm = s.hbm := rfl
@[simp] theorem State.modTile2_pending (s : State) (n : Nat) (f : Tile2 → Tile2) : (s.modTile2 n f).pending = s.pending := rfl
@[simp] theorem State.modTile2_env (s : State) (n : Nat) (f : Tile2 → Tile2) : (s.modTile2 n f).env = s.env := rfl
@[simp] theorem State.modTile2_pkg (s : State) (n : Nat) (f : Tile2 → Tile2) : (s.modTile2 n f).pkg = s.pkg := rfl
@[simp] theorem State.modTile2_rif (s : State) (n : Nat) (f : Tile2 → Tile2) : (s.modTile2 n f).rif = s.rif := rfl
@[simp] theorem State.modTile2_pcie (s : State) (n : Nat) (f : Tile2 → Tile2) : (s.modTile2 n f).pcie = s.pcie := rfl
@[simp] theorem State.modTile2_sec (s : State) (n : Nat) (f : Tile2 → Tile2) : (s.modTile2 n f).sec = s.sec := rfl
@[simp] theorem State.modTile2_arm (s : State) (n : Nat) (f : Tile2 → Tile2) : (s.modTile2 n f).arm = s.arm := rfl
@[simp] theorem State.modTile2_arm2 (s : State) (n : Nat) (f : Tile2 → Tile2) : (s.modTile2 n f).arm2 = s.arm2 := rfl
@[simp] theorem State.modTile2_mtr (s : State) (n : Nat) (f : Tile2 → Tile2) : (s.modTile2 n f).mtr = s.mtr := rfl
@[simp] theorem State.modTile2_meter (s : State) (n : Nat) (f : Tile2 → Tile2) : (s.modTile2 n f).meter = s.meter := rfl
@[simp] theorem State.modTile2_meter2 (s : State) (n : Nat) (f : Tile2 → Tile2) : (s.modTile2 n f).meter2 = s.meter2 := rfl
@[simp] theorem State.modTile2_pkc (s : State) (n : Nat) (f : Tile2 → Tile2) : (s.modTile2 n f).pkc = s.pkc := rfl
@[simp] theorem State.modTile2_pkc2 (s : State) (n : Nat) (f : Tile2 → Tile2) : (s.modTile2 n f).pkc2 = s.pkc2 := rfl
@[simp] theorem State.modTile2_winPeak (s : State) (n : Nat) (f : Tile2 → Tile2) : (s.modTile2 n f).winPeak = s.winPeak := rfl
@[simp] theorem State.modTile2_slabs (s : State) (n : Nat) (f : Tile2 → Tile2) : (s.modTile2 n f).slabs = s.slabs := rfl
@[simp] theorem State.modTile2_slabs2 (s : State) (n : Nat) (f : Tile2 → Tile2) : (s.modTile2 n f).slabs2 = s.slabs2 := rfl
@[simp] theorem State.modTile2_ports (s : State) (n : Nat) (f : Tile2 → Tile2) : (s.modTile2 n f).ports = s.ports := rfl
@[simp] theorem State.modTile2_ports2 (s : State) (n : Nat) (f : Tile2 → Tile2) : (s.modTile2 n f).ports2 = s.ports2 := rfl
@[simp] theorem State.modTile2_tiles (s : State) (n : Nat) (f : Tile2 → Tile2) : (s.modTile2 n f).tiles = s.tiles := rfl
@[simp] theorem State.modTile2_banks (s : State) (n : Nat) (f : Tile2 → Tile2) : (s.modTile2 n f).banks = s.banks := rfl
@[simp] theorem State.modTile2_parts (s : State) (n : Nat) (f : Tile2 → Tile2) : (s.modTile2 n f).parts = s.parts := rfl
@[simp] theorem State.modTile2_parts2 (s : State) (n : Nat) (f : Tile2 → Tile2) : (s.modTile2 n f).parts2 = s.parts2 := rfl
@[simp] theorem State.modTile2_ctxs (s : State) (n : Nat) (f : Tile2 → Tile2) : (s.modTile2 n f).ctxs = s.ctxs := rfl
@[simp] theorem State.modTile2_funcs (s : State) (n : Nat) (f : Tile2 → Tile2) : (s.modTile2 n f).funcs = s.funcs := rfl
@[simp] theorem State.modTile2_bankMem (s : State) (n : Nat) (f : Tile2 → Tile2) : (s.modTile2 n f).bankMem = s.bankMem := rfl
@[simp] theorem State.modTile2_hbm (s : State) (n : Nat) (f : Tile2 → Tile2) : (s.modTile2 n f).hbm = s.hbm := rfl
@[simp] theorem State.setTile2_slab (s : State) (n m : Nat) (v : Tile2) : (s.setTile2 n v).slab m = s.slab m := rfl
@[simp] theorem State.modTile2_slab (s : State) (n m : Nat) (f : Tile2 → Tile2) : (s.modTile2 n f).slab m = s.slab m := rfl
@[simp] theorem State.setTile2_slab2 (s : State) (n m : Nat) (v : Tile2) : (s.setTile2 n v).slab2 m = s.slab2 m := rfl
@[simp] theorem State.modTile2_slab2 (s : State) (n m : Nat) (f : Tile2 → Tile2) : (s.modTile2 n f).slab2 m = s.slab2 m := rfl
@[simp] theorem State.setTile2_port (s : State) (n m : Nat) (v : Tile2) : (s.setTile2 n v).port m = s.port m := rfl
@[simp] theorem State.modTile2_port (s : State) (n m : Nat) (f : Tile2 → Tile2) : (s.modTile2 n f).port m = s.port m := rfl
@[simp] theorem State.setTile2_port2 (s : State) (n m : Nat) (v : Tile2) : (s.setTile2 n v).port2 m = s.port2 m := rfl
@[simp] theorem State.modTile2_port2 (s : State) (n m : Nat) (f : Tile2 → Tile2) : (s.modTile2 n f).port2 m = s.port2 m := rfl
@[simp] theorem State.setTile2_tile (s : State) (n m : Nat) (v : Tile2) : (s.setTile2 n v).tile m = s.tile m := rfl
@[simp] theorem State.modTile2_tile (s : State) (n m : Nat) (f : Tile2 → Tile2) : (s.modTile2 n f).tile m = s.tile m := rfl
@[simp] theorem State.setTile2_bank (s : State) (n m : Nat) (v : Tile2) : (s.setTile2 n v).bank m = s.bank m := rfl
@[simp] theorem State.modTile2_bank (s : State) (n m : Nat) (f : Tile2 → Tile2) : (s.modTile2 n f).bank m = s.bank m := rfl
@[simp] theorem State.setTile2_part (s : State) (n m : Nat) (v : Tile2) : (s.setTile2 n v).part m = s.part m := rfl
@[simp] theorem State.modTile2_part (s : State) (n m : Nat) (f : Tile2 → Tile2) : (s.modTile2 n f).part m = s.part m := rfl
@[simp] theorem State.setTile2_part2 (s : State) (n m : Nat) (v : Tile2) : (s.setTile2 n v).part2 m = s.part2 m := rfl
@[simp] theorem State.modTile2_part2 (s : State) (n m : Nat) (f : Tile2 → Tile2) : (s.modTile2 n f).part2 m = s.part2 m := rfl
@[simp] theorem State.setTile2_ctx (s : State) (n m : Nat) (v : Tile2) : (s.setTile2 n v).ctx m = s.ctx m := rfl
@[simp] theorem State.modTile2_ctx (s : State) (n m : Nat) (f : Tile2 → Tile2) : (s.modTile2 n f).ctx m = s.ctx m := rfl
@[simp] theorem State.setTile2_fn (s : State) (n m : Nat) (v : Tile2) : (s.setTile2 n v).fn m = s.fn m := rfl
@[simp] theorem State.modTile2_fn (s : State) (n m : Nat) (f : Tile2 → Tile2) : (s.modTile2 n f).fn m = s.fn m := rfl

/-! ## Bank -/

@[simp] theorem State.setBank_bank_self (s : State) (n : Nat) (v : Bank) : (s.setBank n v).bank n = v := tget_tput_same _ _ _ _
theorem State.setBank_bank_other (s : State) {n m : Nat} (v : Bank) (h : m ≠ n) : (s.setBank n v).bank m = s.bank m := tget_tput_other _ _ _ h
theorem State.setBank_bank (s : State) (n m : Nat) (v : Bank) : (s.setBank n v).bank m = if m = n then v else s.bank m := tget_tput _ _ _ _ _
@[simp] theorem State.modBank_bank_self (s : State) (n : Nat) (f : Bank → Bank) : (s.modBank n f).bank n = f (s.bank n) := tget_tput_same _ _ _ _
theorem State.modBank_bank_other (s : State) {n m : Nat} (f : Bank → Bank) (h : m ≠ n) : (s.modBank n f).bank m = s.bank m := tget_tput_other _ _ _ h
@[simp] theorem State.setBank_pending (s : State) (n : Nat) (v : Bank) : (s.setBank n v).pending = s.pending := rfl
@[simp] theorem State.setBank_env (s : State) (n : Nat) (v : Bank) : (s.setBank n v).env = s.env := rfl
@[simp] theorem State.setBank_pkg (s : State) (n : Nat) (v : Bank) : (s.setBank n v).pkg = s.pkg := rfl
@[simp] theorem State.setBank_rif (s : State) (n : Nat) (v : Bank) : (s.setBank n v).rif = s.rif := rfl
@[simp] theorem State.setBank_pcie (s : State) (n : Nat) (v : Bank) : (s.setBank n v).pcie = s.pcie := rfl
@[simp] theorem State.setBank_sec (s : State) (n : Nat) (v : Bank) : (s.setBank n v).sec = s.sec := rfl
@[simp] theorem State.setBank_arm (s : State) (n : Nat) (v : Bank) : (s.setBank n v).arm = s.arm := rfl
@[simp] theorem State.setBank_arm2 (s : State) (n : Nat) (v : Bank) : (s.setBank n v).arm2 = s.arm2 := rfl
@[simp] theorem State.setBank_mtr (s : State) (n : Nat) (v : Bank) : (s.setBank n v).mtr = s.mtr := rfl
@[simp] theorem State.setBank_meter (s : State) (n : Nat) (v : Bank) : (s.setBank n v).meter = s.meter := rfl
@[simp] theorem State.setBank_meter2 (s : State) (n : Nat) (v : Bank) : (s.setBank n v).meter2 = s.meter2 := rfl
@[simp] theorem State.setBank_pkc (s : State) (n : Nat) (v : Bank) : (s.setBank n v).pkc = s.pkc := rfl
@[simp] theorem State.setBank_pkc2 (s : State) (n : Nat) (v : Bank) : (s.setBank n v).pkc2 = s.pkc2 := rfl
@[simp] theorem State.setBank_winPeak (s : State) (n : Nat) (v : Bank) : (s.setBank n v).winPeak = s.winPeak := rfl
@[simp] theorem State.setBank_slabs (s : State) (n : Nat) (v : Bank) : (s.setBank n v).slabs = s.slabs := rfl
@[simp] theorem State.setBank_slabs2 (s : State) (n : Nat) (v : Bank) : (s.setBank n v).slabs2 = s.slabs2 := rfl
@[simp] theorem State.setBank_ports (s : State) (n : Nat) (v : Bank) : (s.setBank n v).ports = s.ports := rfl
@[simp] theorem State.setBank_ports2 (s : State) (n : Nat) (v : Bank) : (s.setBank n v).ports2 = s.ports2 := rfl
@[simp] theorem State.setBank_tiles (s : State) (n : Nat) (v : Bank) : (s.setBank n v).tiles = s.tiles := rfl
@[simp] theorem State.setBank_tiles2 (s : State) (n : Nat) (v : Bank) : (s.setBank n v).tiles2 = s.tiles2 := rfl
@[simp] theorem State.setBank_parts (s : State) (n : Nat) (v : Bank) : (s.setBank n v).parts = s.parts := rfl
@[simp] theorem State.setBank_parts2 (s : State) (n : Nat) (v : Bank) : (s.setBank n v).parts2 = s.parts2 := rfl
@[simp] theorem State.setBank_ctxs (s : State) (n : Nat) (v : Bank) : (s.setBank n v).ctxs = s.ctxs := rfl
@[simp] theorem State.setBank_funcs (s : State) (n : Nat) (v : Bank) : (s.setBank n v).funcs = s.funcs := rfl
@[simp] theorem State.setBank_bankMem (s : State) (n : Nat) (v : Bank) : (s.setBank n v).bankMem = s.bankMem := rfl
@[simp] theorem State.setBank_hbm (s : State) (n : Nat) (v : Bank) : (s.setBank n v).hbm = s.hbm := rfl
@[simp] theorem State.modBank_pending (s : State) (n : Nat) (f : Bank → Bank) : (s.modBank n f).pending = s.pending := rfl
@[simp] theorem State.modBank_env (s : State) (n : Nat) (f : Bank → Bank) : (s.modBank n f).env = s.env := rfl
@[simp] theorem State.modBank_pkg (s : State) (n : Nat) (f : Bank → Bank) : (s.modBank n f).pkg = s.pkg := rfl
@[simp] theorem State.modBank_rif (s : State) (n : Nat) (f : Bank → Bank) : (s.modBank n f).rif = s.rif := rfl
@[simp] theorem State.modBank_pcie (s : State) (n : Nat) (f : Bank → Bank) : (s.modBank n f).pcie = s.pcie := rfl
@[simp] theorem State.modBank_sec (s : State) (n : Nat) (f : Bank → Bank) : (s.modBank n f).sec = s.sec := rfl
@[simp] theorem State.modBank_arm (s : State) (n : Nat) (f : Bank → Bank) : (s.modBank n f).arm = s.arm := rfl
@[simp] theorem State.modBank_arm2 (s : State) (n : Nat) (f : Bank → Bank) : (s.modBank n f).arm2 = s.arm2 := rfl
@[simp] theorem State.modBank_mtr (s : State) (n : Nat) (f : Bank → Bank) : (s.modBank n f).mtr = s.mtr := rfl
@[simp] theorem State.modBank_meter (s : State) (n : Nat) (f : Bank → Bank) : (s.modBank n f).meter = s.meter := rfl
@[simp] theorem State.modBank_meter2 (s : State) (n : Nat) (f : Bank → Bank) : (s.modBank n f).meter2 = s.meter2 := rfl
@[simp] theorem State.modBank_pkc (s : State) (n : Nat) (f : Bank → Bank) : (s.modBank n f).pkc = s.pkc := rfl
@[simp] theorem State.modBank_pkc2 (s : State) (n : Nat) (f : Bank → Bank) : (s.modBank n f).pkc2 = s.pkc2 := rfl
@[simp] theorem State.modBank_winPeak (s : State) (n : Nat) (f : Bank → Bank) : (s.modBank n f).winPeak = s.winPeak := rfl
@[simp] theorem State.modBank_slabs (s : State) (n : Nat) (f : Bank → Bank) : (s.modBank n f).slabs = s.slabs := rfl
@[simp] theorem State.modBank_slabs2 (s : State) (n : Nat) (f : Bank → Bank) : (s.modBank n f).slabs2 = s.slabs2 := rfl
@[simp] theorem State.modBank_ports (s : State) (n : Nat) (f : Bank → Bank) : (s.modBank n f).ports = s.ports := rfl
@[simp] theorem State.modBank_ports2 (s : State) (n : Nat) (f : Bank → Bank) : (s.modBank n f).ports2 = s.ports2 := rfl
@[simp] theorem State.modBank_tiles (s : State) (n : Nat) (f : Bank → Bank) : (s.modBank n f).tiles = s.tiles := rfl
@[simp] theorem State.modBank_tiles2 (s : State) (n : Nat) (f : Bank → Bank) : (s.modBank n f).tiles2 = s.tiles2 := rfl
@[simp] theorem State.modBank_parts (s : State) (n : Nat) (f : Bank → Bank) : (s.modBank n f).parts = s.parts := rfl
@[simp] theorem State.modBank_parts2 (s : State) (n : Nat) (f : Bank → Bank) : (s.modBank n f).parts2 = s.parts2 := rfl
@[simp] theorem State.modBank_ctxs (s : State) (n : Nat) (f : Bank → Bank) : (s.modBank n f).ctxs = s.ctxs := rfl
@[simp] theorem State.modBank_funcs (s : State) (n : Nat) (f : Bank → Bank) : (s.modBank n f).funcs = s.funcs := rfl
@[simp] theorem State.modBank_bankMem (s : State) (n : Nat) (f : Bank → Bank) : (s.modBank n f).bankMem = s.bankMem := rfl
@[simp] theorem State.modBank_hbm (s : State) (n : Nat) (f : Bank → Bank) : (s.modBank n f).hbm = s.hbm := rfl
@[simp] theorem State.setBank_slab (s : State) (n m : Nat) (v : Bank) : (s.setBank n v).slab m = s.slab m := rfl
@[simp] theorem State.modBank_slab (s : State) (n m : Nat) (f : Bank → Bank) : (s.modBank n f).slab m = s.slab m := rfl
@[simp] theorem State.setBank_slab2 (s : State) (n m : Nat) (v : Bank) : (s.setBank n v).slab2 m = s.slab2 m := rfl
@[simp] theorem State.modBank_slab2 (s : State) (n m : Nat) (f : Bank → Bank) : (s.modBank n f).slab2 m = s.slab2 m := rfl
@[simp] theorem State.setBank_port (s : State) (n m : Nat) (v : Bank) : (s.setBank n v).port m = s.port m := rfl
@[simp] theorem State.modBank_port (s : State) (n m : Nat) (f : Bank → Bank) : (s.modBank n f).port m = s.port m := rfl
@[simp] theorem State.setBank_port2 (s : State) (n m : Nat) (v : Bank) : (s.setBank n v).port2 m = s.port2 m := rfl
@[simp] theorem State.modBank_port2 (s : State) (n m : Nat) (f : Bank → Bank) : (s.modBank n f).port2 m = s.port2 m := rfl
@[simp] theorem State.setBank_tile (s : State) (n m : Nat) (v : Bank) : (s.setBank n v).tile m = s.tile m := rfl
@[simp] theorem State.modBank_tile (s : State) (n m : Nat) (f : Bank → Bank) : (s.modBank n f).tile m = s.tile m := rfl
@[simp] theorem State.setBank_tile2 (s : State) (n m : Nat) (v : Bank) : (s.setBank n v).tile2 m = s.tile2 m := rfl
@[simp] theorem State.modBank_tile2 (s : State) (n m : Nat) (f : Bank → Bank) : (s.modBank n f).tile2 m = s.tile2 m := rfl
@[simp] theorem State.setBank_part (s : State) (n m : Nat) (v : Bank) : (s.setBank n v).part m = s.part m := rfl
@[simp] theorem State.modBank_part (s : State) (n m : Nat) (f : Bank → Bank) : (s.modBank n f).part m = s.part m := rfl
@[simp] theorem State.setBank_part2 (s : State) (n m : Nat) (v : Bank) : (s.setBank n v).part2 m = s.part2 m := rfl
@[simp] theorem State.modBank_part2 (s : State) (n m : Nat) (f : Bank → Bank) : (s.modBank n f).part2 m = s.part2 m := rfl
@[simp] theorem State.setBank_ctx (s : State) (n m : Nat) (v : Bank) : (s.setBank n v).ctx m = s.ctx m := rfl
@[simp] theorem State.modBank_ctx (s : State) (n m : Nat) (f : Bank → Bank) : (s.modBank n f).ctx m = s.ctx m := rfl
@[simp] theorem State.setBank_fn (s : State) (n m : Nat) (v : Bank) : (s.setBank n v).fn m = s.fn m := rfl
@[simp] theorem State.modBank_fn (s : State) (n m : Nat) (f : Bank → Bank) : (s.modBank n f).fn m = s.fn m := rfl

/-! ## Part -/

@[simp] theorem State.setPart_part_self (s : State) (n : Nat) (v : Part) : (s.setPart n v).part n = v := tget_tput_same _ _ _ _
theorem State.setPart_part_other (s : State) {n m : Nat} (v : Part) (h : m ≠ n) : (s.setPart n v).part m = s.part m := tget_tput_other _ _ _ h
theorem State.setPart_part (s : State) (n m : Nat) (v : Part) : (s.setPart n v).part m = if m = n then v else s.part m := tget_tput _ _ _ _ _
@[simp] theorem State.modPart_part_self (s : State) (n : Nat) (f : Part → Part) : (s.modPart n f).part n = f (s.part n) := tget_tput_same _ _ _ _
theorem State.modPart_part_other (s : State) {n m : Nat} (f : Part → Part) (h : m ≠ n) : (s.modPart n f).part m = s.part m := tget_tput_other _ _ _ h
@[simp] theorem State.setPart_pending (s : State) (n : Nat) (v : Part) : (s.setPart n v).pending = s.pending := rfl
@[simp] theorem State.setPart_env (s : State) (n : Nat) (v : Part) : (s.setPart n v).env = s.env := rfl
@[simp] theorem State.setPart_pkg (s : State) (n : Nat) (v : Part) : (s.setPart n v).pkg = s.pkg := rfl
@[simp] theorem State.setPart_rif (s : State) (n : Nat) (v : Part) : (s.setPart n v).rif = s.rif := rfl
@[simp] theorem State.setPart_pcie (s : State) (n : Nat) (v : Part) : (s.setPart n v).pcie = s.pcie := rfl
@[simp] theorem State.setPart_sec (s : State) (n : Nat) (v : Part) : (s.setPart n v).sec = s.sec := rfl
@[simp] theorem State.setPart_arm (s : State) (n : Nat) (v : Part) : (s.setPart n v).arm = s.arm := rfl
@[simp] theorem State.setPart_arm2 (s : State) (n : Nat) (v : Part) : (s.setPart n v).arm2 = s.arm2 := rfl
@[simp] theorem State.setPart_mtr (s : State) (n : Nat) (v : Part) : (s.setPart n v).mtr = s.mtr := rfl
@[simp] theorem State.setPart_meter (s : State) (n : Nat) (v : Part) : (s.setPart n v).meter = s.meter := rfl
@[simp] theorem State.setPart_meter2 (s : State) (n : Nat) (v : Part) : (s.setPart n v).meter2 = s.meter2 := rfl
@[simp] theorem State.setPart_pkc (s : State) (n : Nat) (v : Part) : (s.setPart n v).pkc = s.pkc := rfl
@[simp] theorem State.setPart_pkc2 (s : State) (n : Nat) (v : Part) : (s.setPart n v).pkc2 = s.pkc2 := rfl
@[simp] theorem State.setPart_winPeak (s : State) (n : Nat) (v : Part) : (s.setPart n v).winPeak = s.winPeak := rfl
@[simp] theorem State.setPart_slabs (s : State) (n : Nat) (v : Part) : (s.setPart n v).slabs = s.slabs := rfl
@[simp] theorem State.setPart_slabs2 (s : State) (n : Nat) (v : Part) : (s.setPart n v).slabs2 = s.slabs2 := rfl
@[simp] theorem State.setPart_ports (s : State) (n : Nat) (v : Part) : (s.setPart n v).ports = s.ports := rfl
@[simp] theorem State.setPart_ports2 (s : State) (n : Nat) (v : Part) : (s.setPart n v).ports2 = s.ports2 := rfl
@[simp] theorem State.setPart_tiles (s : State) (n : Nat) (v : Part) : (s.setPart n v).tiles = s.tiles := rfl
@[simp] theorem State.setPart_tiles2 (s : State) (n : Nat) (v : Part) : (s.setPart n v).tiles2 = s.tiles2 := rfl
@[simp] theorem State.setPart_banks (s : State) (n : Nat) (v : Part) : (s.setPart n v).banks = s.banks := rfl
@[simp] theorem State.setPart_parts2 (s : State) (n : Nat) (v : Part) : (s.setPart n v).parts2 = s.parts2 := rfl
@[simp] theorem State.setPart_ctxs (s : State) (n : Nat) (v : Part) : (s.setPart n v).ctxs = s.ctxs := rfl
@[simp] theorem State.setPart_funcs (s : State) (n : Nat) (v : Part) : (s.setPart n v).funcs = s.funcs := rfl
@[simp] theorem State.setPart_bankMem (s : State) (n : Nat) (v : Part) : (s.setPart n v).bankMem = s.bankMem := rfl
@[simp] theorem State.setPart_hbm (s : State) (n : Nat) (v : Part) : (s.setPart n v).hbm = s.hbm := rfl
@[simp] theorem State.modPart_pending (s : State) (n : Nat) (f : Part → Part) : (s.modPart n f).pending = s.pending := rfl
@[simp] theorem State.modPart_env (s : State) (n : Nat) (f : Part → Part) : (s.modPart n f).env = s.env := rfl
@[simp] theorem State.modPart_pkg (s : State) (n : Nat) (f : Part → Part) : (s.modPart n f).pkg = s.pkg := rfl
@[simp] theorem State.modPart_rif (s : State) (n : Nat) (f : Part → Part) : (s.modPart n f).rif = s.rif := rfl
@[simp] theorem State.modPart_pcie (s : State) (n : Nat) (f : Part → Part) : (s.modPart n f).pcie = s.pcie := rfl
@[simp] theorem State.modPart_sec (s : State) (n : Nat) (f : Part → Part) : (s.modPart n f).sec = s.sec := rfl
@[simp] theorem State.modPart_arm (s : State) (n : Nat) (f : Part → Part) : (s.modPart n f).arm = s.arm := rfl
@[simp] theorem State.modPart_arm2 (s : State) (n : Nat) (f : Part → Part) : (s.modPart n f).arm2 = s.arm2 := rfl
@[simp] theorem State.modPart_mtr (s : State) (n : Nat) (f : Part → Part) : (s.modPart n f).mtr = s.mtr := rfl
@[simp] theorem State.modPart_meter (s : State) (n : Nat) (f : Part → Part) : (s.modPart n f).meter = s.meter := rfl
@[simp] theorem State.modPart_meter2 (s : State) (n : Nat) (f : Part → Part) : (s.modPart n f).meter2 = s.meter2 := rfl
@[simp] theorem State.modPart_pkc (s : State) (n : Nat) (f : Part → Part) : (s.modPart n f).pkc = s.pkc := rfl
@[simp] theorem State.modPart_pkc2 (s : State) (n : Nat) (f : Part → Part) : (s.modPart n f).pkc2 = s.pkc2 := rfl
@[simp] theorem State.modPart_winPeak (s : State) (n : Nat) (f : Part → Part) : (s.modPart n f).winPeak = s.winPeak := rfl
@[simp] theorem State.modPart_slabs (s : State) (n : Nat) (f : Part → Part) : (s.modPart n f).slabs = s.slabs := rfl
@[simp] theorem State.modPart_slabs2 (s : State) (n : Nat) (f : Part → Part) : (s.modPart n f).slabs2 = s.slabs2 := rfl
@[simp] theorem State.modPart_ports (s : State) (n : Nat) (f : Part → Part) : (s.modPart n f).ports = s.ports := rfl
@[simp] theorem State.modPart_ports2 (s : State) (n : Nat) (f : Part → Part) : (s.modPart n f).ports2 = s.ports2 := rfl
@[simp] theorem State.modPart_tiles (s : State) (n : Nat) (f : Part → Part) : (s.modPart n f).tiles = s.tiles := rfl
@[simp] theorem State.modPart_tiles2 (s : State) (n : Nat) (f : Part → Part) : (s.modPart n f).tiles2 = s.tiles2 := rfl
@[simp] theorem State.modPart_banks (s : State) (n : Nat) (f : Part → Part) : (s.modPart n f).banks = s.banks := rfl
@[simp] theorem State.modPart_parts2 (s : State) (n : Nat) (f : Part → Part) : (s.modPart n f).parts2 = s.parts2 := rfl
@[simp] theorem State.modPart_ctxs (s : State) (n : Nat) (f : Part → Part) : (s.modPart n f).ctxs = s.ctxs := rfl
@[simp] theorem State.modPart_funcs (s : State) (n : Nat) (f : Part → Part) : (s.modPart n f).funcs = s.funcs := rfl
@[simp] theorem State.modPart_bankMem (s : State) (n : Nat) (f : Part → Part) : (s.modPart n f).bankMem = s.bankMem := rfl
@[simp] theorem State.modPart_hbm (s : State) (n : Nat) (f : Part → Part) : (s.modPart n f).hbm = s.hbm := rfl
@[simp] theorem State.setPart_slab (s : State) (n m : Nat) (v : Part) : (s.setPart n v).slab m = s.slab m := rfl
@[simp] theorem State.modPart_slab (s : State) (n m : Nat) (f : Part → Part) : (s.modPart n f).slab m = s.slab m := rfl
@[simp] theorem State.setPart_slab2 (s : State) (n m : Nat) (v : Part) : (s.setPart n v).slab2 m = s.slab2 m := rfl
@[simp] theorem State.modPart_slab2 (s : State) (n m : Nat) (f : Part → Part) : (s.modPart n f).slab2 m = s.slab2 m := rfl
@[simp] theorem State.setPart_port (s : State) (n m : Nat) (v : Part) : (s.setPart n v).port m = s.port m := rfl
@[simp] theorem State.modPart_port (s : State) (n m : Nat) (f : Part → Part) : (s.modPart n f).port m = s.port m := rfl
@[simp] theorem State.setPart_port2 (s : State) (n m : Nat) (v : Part) : (s.setPart n v).port2 m = s.port2 m := rfl
@[simp] theorem State.modPart_port2 (s : State) (n m : Nat) (f : Part → Part) : (s.modPart n f).port2 m = s.port2 m := rfl
@[simp] theorem State.setPart_tile (s : State) (n m : Nat) (v : Part) : (s.setPart n v).tile m = s.tile m := rfl
@[simp] theorem State.modPart_tile (s : State) (n m : Nat) (f : Part → Part) : (s.modPart n f).tile m = s.tile m := rfl
@[simp] theorem State.setPart_tile2 (s : State) (n m : Nat) (v : Part) : (s.setPart n v).tile2 m = s.tile2 m := rfl
@[simp] theorem State.modPart_tile2 (s : State) (n m : Nat) (f : Part → Part) : (s.modPart n f).tile2 m = s.tile2 m := rfl
@[simp] theorem State.setPart_bank (s : State) (n m : Nat) (v : Part) : (s.setPart n v).bank m = s.bank m := rfl
@[simp] theorem State.modPart_bank (s : State) (n m : Nat) (f : Part → Part) : (s.modPart n f).bank m = s.bank m := rfl
@[simp] theorem State.setPart_part2 (s : State) (n m : Nat) (v : Part) : (s.setPart n v).part2 m = s.part2 m := rfl
@[simp] theorem State.modPart_part2 (s : State) (n m : Nat) (f : Part → Part) : (s.modPart n f).part2 m = s.part2 m := rfl
@[simp] theorem State.setPart_ctx (s : State) (n m : Nat) (v : Part) : (s.setPart n v).ctx m = s.ctx m := rfl
@[simp] theorem State.modPart_ctx (s : State) (n m : Nat) (f : Part → Part) : (s.modPart n f).ctx m = s.ctx m := rfl
@[simp] theorem State.setPart_fn (s : State) (n m : Nat) (v : Part) : (s.setPart n v).fn m = s.fn m := rfl
@[simp] theorem State.modPart_fn (s : State) (n m : Nat) (f : Part → Part) : (s.modPart n f).fn m = s.fn m := rfl

/-! ## Part2 -/

@[simp] theorem State.setPart2_part2_self (s : State) (n : Nat) (v : Part2) : (s.setPart2 n v).part2 n = v := tget_tput_same _ _ _ _
theorem State.setPart2_part2_other (s : State) {n m : Nat} (v : Part2) (h : m ≠ n) : (s.setPart2 n v).part2 m = s.part2 m := tget_tput_other _ _ _ h
theorem State.setPart2_part2 (s : State) (n m : Nat) (v : Part2) : (s.setPart2 n v).part2 m = if m = n then v else s.part2 m := tget_tput _ _ _ _ _
@[simp] theorem State.modPart2_part2_self (s : State) (n : Nat) (f : Part2 → Part2) : (s.modPart2 n f).part2 n = f (s.part2 n) := tget_tput_same _ _ _ _
theorem State.modPart2_part2_other (s : State) {n m : Nat} (f : Part2 → Part2) (h : m ≠ n) : (s.modPart2 n f).part2 m = s.part2 m := tget_tput_other _ _ _ h
@[simp] theorem State.setPart2_pending (s : State) (n : Nat) (v : Part2) : (s.setPart2 n v).pending = s.pending := rfl
@[simp] theorem State.setPart2_env (s : State) (n : Nat) (v : Part2) : (s.setPart2 n v).env = s.env := rfl
@[simp] theorem State.setPart2_pkg (s : State) (n : Nat) (v : Part2) : (s.setPart2 n v).pkg = s.pkg := rfl
@[simp] theorem State.setPart2_rif (s : State) (n : Nat) (v : Part2) : (s.setPart2 n v).rif = s.rif := rfl
@[simp] theorem State.setPart2_pcie (s : State) (n : Nat) (v : Part2) : (s.setPart2 n v).pcie = s.pcie := rfl
@[simp] theorem State.setPart2_sec (s : State) (n : Nat) (v : Part2) : (s.setPart2 n v).sec = s.sec := rfl
@[simp] theorem State.setPart2_arm (s : State) (n : Nat) (v : Part2) : (s.setPart2 n v).arm = s.arm := rfl
@[simp] theorem State.setPart2_arm2 (s : State) (n : Nat) (v : Part2) : (s.setPart2 n v).arm2 = s.arm2 := rfl
@[simp] theorem State.setPart2_mtr (s : State) (n : Nat) (v : Part2) : (s.setPart2 n v).mtr = s.mtr := rfl
@[simp] theorem State.setPart2_meter (s : State) (n : Nat) (v : Part2) : (s.setPart2 n v).meter = s.meter := rfl
@[simp] theorem State.setPart2_meter2 (s : State) (n : Nat) (v : Part2) : (s.setPart2 n v).meter2 = s.meter2 := rfl
@[simp] theorem State.setPart2_pkc (s : State) (n : Nat) (v : Part2) : (s.setPart2 n v).pkc = s.pkc := rfl
@[simp] theorem State.setPart2_pkc2 (s : State) (n : Nat) (v : Part2) : (s.setPart2 n v).pkc2 = s.pkc2 := rfl
@[simp] theorem State.setPart2_winPeak (s : State) (n : Nat) (v : Part2) : (s.setPart2 n v).winPeak = s.winPeak := rfl
@[simp] theorem State.setPart2_slabs (s : State) (n : Nat) (v : Part2) : (s.setPart2 n v).slabs = s.slabs := rfl
@[simp] theorem State.setPart2_slabs2 (s : State) (n : Nat) (v : Part2) : (s.setPart2 n v).slabs2 = s.slabs2 := rfl
@[simp] theorem State.setPart2_ports (s : State) (n : Nat) (v : Part2) : (s.setPart2 n v).ports = s.ports := rfl
@[simp] theorem State.setPart2_ports2 (s : State) (n : Nat) (v : Part2) : (s.setPart2 n v).ports2 = s.ports2 := rfl
@[simp] theorem State.setPart2_tiles (s : State) (n : Nat) (v : Part2) : (s.setPart2 n v).tiles = s.tiles := rfl
@[simp] theorem State.setPart2_tiles2 (s : State) (n : Nat) (v : Part2) : (s.setPart2 n v).tiles2 = s.tiles2 := rfl
@[simp] theorem State.setPart2_banks (s : State) (n : Nat) (v : Part2) : (s.setPart2 n v).banks = s.banks := rfl
@[simp] theorem State.setPart2_parts (s : State) (n : Nat) (v : Part2) : (s.setPart2 n v).parts = s.parts := rfl
@[simp] theorem State.setPart2_ctxs (s : State) (n : Nat) (v : Part2) : (s.setPart2 n v).ctxs = s.ctxs := rfl
@[simp] theorem State.setPart2_funcs (s : State) (n : Nat) (v : Part2) : (s.setPart2 n v).funcs = s.funcs := rfl
@[simp] theorem State.setPart2_bankMem (s : State) (n : Nat) (v : Part2) : (s.setPart2 n v).bankMem = s.bankMem := rfl
@[simp] theorem State.setPart2_hbm (s : State) (n : Nat) (v : Part2) : (s.setPart2 n v).hbm = s.hbm := rfl
@[simp] theorem State.modPart2_pending (s : State) (n : Nat) (f : Part2 → Part2) : (s.modPart2 n f).pending = s.pending := rfl
@[simp] theorem State.modPart2_env (s : State) (n : Nat) (f : Part2 → Part2) : (s.modPart2 n f).env = s.env := rfl
@[simp] theorem State.modPart2_pkg (s : State) (n : Nat) (f : Part2 → Part2) : (s.modPart2 n f).pkg = s.pkg := rfl
@[simp] theorem State.modPart2_rif (s : State) (n : Nat) (f : Part2 → Part2) : (s.modPart2 n f).rif = s.rif := rfl
@[simp] theorem State.modPart2_pcie (s : State) (n : Nat) (f : Part2 → Part2) : (s.modPart2 n f).pcie = s.pcie := rfl
@[simp] theorem State.modPart2_sec (s : State) (n : Nat) (f : Part2 → Part2) : (s.modPart2 n f).sec = s.sec := rfl
@[simp] theorem State.modPart2_arm (s : State) (n : Nat) (f : Part2 → Part2) : (s.modPart2 n f).arm = s.arm := rfl
@[simp] theorem State.modPart2_arm2 (s : State) (n : Nat) (f : Part2 → Part2) : (s.modPart2 n f).arm2 = s.arm2 := rfl
@[simp] theorem State.modPart2_mtr (s : State) (n : Nat) (f : Part2 → Part2) : (s.modPart2 n f).mtr = s.mtr := rfl
@[simp] theorem State.modPart2_meter (s : State) (n : Nat) (f : Part2 → Part2) : (s.modPart2 n f).meter = s.meter := rfl
@[simp] theorem State.modPart2_meter2 (s : State) (n : Nat) (f : Part2 → Part2) : (s.modPart2 n f).meter2 = s.meter2 := rfl
@[simp] theorem State.modPart2_pkc (s : State) (n : Nat) (f : Part2 → Part2) : (s.modPart2 n f).pkc = s.pkc := rfl
@[simp] theorem State.modPart2_pkc2 (s : State) (n : Nat) (f : Part2 → Part2) : (s.modPart2 n f).pkc2 = s.pkc2 := rfl
@[simp] theorem State.modPart2_winPeak (s : State) (n : Nat) (f : Part2 → Part2) : (s.modPart2 n f).winPeak = s.winPeak := rfl
@[simp] theorem State.modPart2_slabs (s : State) (n : Nat) (f : Part2 → Part2) : (s.modPart2 n f).slabs = s.slabs := rfl
@[simp] theorem State.modPart2_slabs2 (s : State) (n : Nat) (f : Part2 → Part2) : (s.modPart2 n f).slabs2 = s.slabs2 := rfl
@[simp] theorem State.modPart2_ports (s : State) (n : Nat) (f : Part2 → Part2) : (s.modPart2 n f).ports = s.ports := rfl
@[simp] theorem State.modPart2_ports2 (s : State) (n : Nat) (f : Part2 → Part2) : (s.modPart2 n f).ports2 = s.ports2 := rfl
@[simp] theorem State.modPart2_tiles (s : State) (n : Nat) (f : Part2 → Part2) : (s.modPart2 n f).tiles = s.tiles := rfl
@[simp] theorem State.modPart2_tiles2 (s : State) (n : Nat) (f : Part2 → Part2) : (s.modPart2 n f).tiles2 = s.tiles2 := rfl
@[simp] theorem State.modPart2_banks (s : State) (n : Nat) (f : Part2 → Part2) : (s.modPart2 n f).banks = s.banks := rfl
@[simp] theorem State.modPart2_parts (s : State) (n : Nat) (f : Part2 → Part2) : (s.modPart2 n f).parts = s.parts := rfl
@[simp] theorem State.modPart2_ctxs (s : State) (n : Nat) (f : Part2 → Part2) : (s.modPart2 n f).ctxs = s.ctxs := rfl
@[simp] theorem State.modPart2_funcs (s : State) (n : Nat) (f : Part2 → Part2) : (s.modPart2 n f).funcs = s.funcs := rfl
@[simp] theorem State.modPart2_bankMem (s : State) (n : Nat) (f : Part2 → Part2) : (s.modPart2 n f).bankMem = s.bankMem := rfl
@[simp] theorem State.modPart2_hbm (s : State) (n : Nat) (f : Part2 → Part2) : (s.modPart2 n f).hbm = s.hbm := rfl
@[simp] theorem State.setPart2_slab (s : State) (n m : Nat) (v : Part2) : (s.setPart2 n v).slab m = s.slab m := rfl
@[simp] theorem State.modPart2_slab (s : State) (n m : Nat) (f : Part2 → Part2) : (s.modPart2 n f).slab m = s.slab m := rfl
@[simp] theorem State.setPart2_slab2 (s : State) (n m : Nat) (v : Part2) : (s.setPart2 n v).slab2 m = s.slab2 m := rfl
@[simp] theorem State.modPart2_slab2 (s : State) (n m : Nat) (f : Part2 → Part2) : (s.modPart2 n f).slab2 m = s.slab2 m := rfl
@[simp] theorem State.setPart2_port (s : State) (n m : Nat) (v : Part2) : (s.setPart2 n v).port m = s.port m := rfl
@[simp] theorem State.modPart2_port (s : State) (n m : Nat) (f : Part2 → Part2) : (s.modPart2 n f).port m = s.port m := rfl
@[simp] theorem State.setPart2_port2 (s : State) (n m : Nat) (v : Part2) : (s.setPart2 n v).port2 m = s.port2 m := rfl
@[simp] theorem State.modPart2_port2 (s : State) (n m : Nat) (f : Part2 → Part2) : (s.modPart2 n f).port2 m = s.port2 m := rfl
@[simp] theorem State.setPart2_tile (s : State) (n m : Nat) (v : Part2) : (s.setPart2 n v).tile m = s.tile m := rfl
@[simp] theorem State.modPart2_tile (s : State) (n m : Nat) (f : Part2 → Part2) : (s.modPart2 n f).tile m = s.tile m := rfl
@[simp] theorem State.setPart2_tile2 (s : State) (n m : Nat) (v : Part2) : (s.setPart2 n v).tile2 m = s.tile2 m := rfl
@[simp] theorem State.modPart2_tile2 (s : State) (n m : Nat) (f : Part2 → Part2) : (s.modPart2 n f).tile2 m = s.tile2 m := rfl
@[simp] theorem State.setPart2_bank (s : State) (n m : Nat) (v : Part2) : (s.setPart2 n v).bank m = s.bank m := rfl
@[simp] theorem State.modPart2_bank (s : State) (n m : Nat) (f : Part2 → Part2) : (s.modPart2 n f).bank m = s.bank m := rfl
@[simp] theorem State.setPart2_part (s : State) (n m : Nat) (v : Part2) : (s.setPart2 n v).part m = s.part m := rfl
@[simp] theorem State.modPart2_part (s : State) (n m : Nat) (f : Part2 → Part2) : (s.modPart2 n f).part m = s.part m := rfl
@[simp] theorem State.setPart2_ctx (s : State) (n m : Nat) (v : Part2) : (s.setPart2 n v).ctx m = s.ctx m := rfl
@[simp] theorem State.modPart2_ctx (s : State) (n m : Nat) (f : Part2 → Part2) : (s.modPart2 n f).ctx m = s.ctx m := rfl
@[simp] theorem State.setPart2_fn (s : State) (n m : Nat) (v : Part2) : (s.setPart2 n v).fn m = s.fn m := rfl
@[simp] theorem State.modPart2_fn (s : State) (n m : Nat) (f : Part2 → Part2) : (s.modPart2 n f).fn m = s.fn m := rfl

/-! ## Ctx -/

@[simp] theorem State.setCtx_ctx_self (s : State) (n : Nat) (v : Ctx) : (s.setCtx n v).ctx n = v := tget_tput_same _ _ _ _
theorem State.setCtx_ctx_other (s : State) {n m : Nat} (v : Ctx) (h : m ≠ n) : (s.setCtx n v).ctx m = s.ctx m := tget_tput_other _ _ _ h
theorem State.setCtx_ctx (s : State) (n m : Nat) (v : Ctx) : (s.setCtx n v).ctx m = if m = n then v else s.ctx m := tget_tput _ _ _ _ _
@[simp] theorem State.modCtx_ctx_self (s : State) (n : Nat) (f : Ctx → Ctx) : (s.modCtx n f).ctx n = f (s.ctx n) := tget_tput_same _ _ _ _
theorem State.modCtx_ctx_other (s : State) {n m : Nat} (f : Ctx → Ctx) (h : m ≠ n) : (s.modCtx n f).ctx m = s.ctx m := tget_tput_other _ _ _ h
@[simp] theorem State.setCtx_pending (s : State) (n : Nat) (v : Ctx) : (s.setCtx n v).pending = s.pending := rfl
@[simp] theorem State.setCtx_env (s : State) (n : Nat) (v : Ctx) : (s.setCtx n v).env = s.env := rfl
@[simp] theorem State.setCtx_pkg (s : State) (n : Nat) (v : Ctx) : (s.setCtx n v).pkg = s.pkg := rfl
@[simp] theorem State.setCtx_rif (s : State) (n : Nat) (v : Ctx) : (s.setCtx n v).rif = s.rif := rfl
@[simp] theorem State.setCtx_pcie (s : State) (n : Nat) (v : Ctx) : (s.setCtx n v).pcie = s.pcie := rfl
@[simp] theorem State.setCtx_sec (s : State) (n : Nat) (v : Ctx) : (s.setCtx n v).sec = s.sec := rfl
@[simp] theorem State.setCtx_arm (s : State) (n : Nat) (v : Ctx) : (s.setCtx n v).arm = s.arm := rfl
@[simp] theorem State.setCtx_arm2 (s : State) (n : Nat) (v : Ctx) : (s.setCtx n v).arm2 = s.arm2 := rfl
@[simp] theorem State.setCtx_mtr (s : State) (n : Nat) (v : Ctx) : (s.setCtx n v).mtr = s.mtr := rfl
@[simp] theorem State.setCtx_meter (s : State) (n : Nat) (v : Ctx) : (s.setCtx n v).meter = s.meter := rfl
@[simp] theorem State.setCtx_meter2 (s : State) (n : Nat) (v : Ctx) : (s.setCtx n v).meter2 = s.meter2 := rfl
@[simp] theorem State.setCtx_pkc (s : State) (n : Nat) (v : Ctx) : (s.setCtx n v).pkc = s.pkc := rfl
@[simp] theorem State.setCtx_pkc2 (s : State) (n : Nat) (v : Ctx) : (s.setCtx n v).pkc2 = s.pkc2 := rfl
@[simp] theorem State.setCtx_winPeak (s : State) (n : Nat) (v : Ctx) : (s.setCtx n v).winPeak = s.winPeak := rfl
@[simp] theorem State.setCtx_slabs (s : State) (n : Nat) (v : Ctx) : (s.setCtx n v).slabs = s.slabs := rfl
@[simp] theorem State.setCtx_slabs2 (s : State) (n : Nat) (v : Ctx) : (s.setCtx n v).slabs2 = s.slabs2 := rfl
@[simp] theorem State.setCtx_ports (s : State) (n : Nat) (v : Ctx) : (s.setCtx n v).ports = s.ports := rfl
@[simp] theorem State.setCtx_ports2 (s : State) (n : Nat) (v : Ctx) : (s.setCtx n v).ports2 = s.ports2 := rfl
@[simp] theorem State.setCtx_tiles (s : State) (n : Nat) (v : Ctx) : (s.setCtx n v).tiles = s.tiles := rfl
@[simp] theorem State.setCtx_tiles2 (s : State) (n : Nat) (v : Ctx) : (s.setCtx n v).tiles2 = s.tiles2 := rfl
@[simp] theorem State.setCtx_banks (s : State) (n : Nat) (v : Ctx) : (s.setCtx n v).banks = s.banks := rfl
@[simp] theorem State.setCtx_parts (s : State) (n : Nat) (v : Ctx) : (s.setCtx n v).parts = s.parts := rfl
@[simp] theorem State.setCtx_parts2 (s : State) (n : Nat) (v : Ctx) : (s.setCtx n v).parts2 = s.parts2 := rfl
@[simp] theorem State.setCtx_funcs (s : State) (n : Nat) (v : Ctx) : (s.setCtx n v).funcs = s.funcs := rfl
@[simp] theorem State.setCtx_bankMem (s : State) (n : Nat) (v : Ctx) : (s.setCtx n v).bankMem = s.bankMem := rfl
@[simp] theorem State.setCtx_hbm (s : State) (n : Nat) (v : Ctx) : (s.setCtx n v).hbm = s.hbm := rfl
@[simp] theorem State.modCtx_pending (s : State) (n : Nat) (f : Ctx → Ctx) : (s.modCtx n f).pending = s.pending := rfl
@[simp] theorem State.modCtx_env (s : State) (n : Nat) (f : Ctx → Ctx) : (s.modCtx n f).env = s.env := rfl
@[simp] theorem State.modCtx_pkg (s : State) (n : Nat) (f : Ctx → Ctx) : (s.modCtx n f).pkg = s.pkg := rfl
@[simp] theorem State.modCtx_rif (s : State) (n : Nat) (f : Ctx → Ctx) : (s.modCtx n f).rif = s.rif := rfl
@[simp] theorem State.modCtx_pcie (s : State) (n : Nat) (f : Ctx → Ctx) : (s.modCtx n f).pcie = s.pcie := rfl
@[simp] theorem State.modCtx_sec (s : State) (n : Nat) (f : Ctx → Ctx) : (s.modCtx n f).sec = s.sec := rfl
@[simp] theorem State.modCtx_arm (s : State) (n : Nat) (f : Ctx → Ctx) : (s.modCtx n f).arm = s.arm := rfl
@[simp] theorem State.modCtx_arm2 (s : State) (n : Nat) (f : Ctx → Ctx) : (s.modCtx n f).arm2 = s.arm2 := rfl
@[simp] theorem State.modCtx_mtr (s : State) (n : Nat) (f : Ctx → Ctx) : (s.modCtx n f).mtr = s.mtr := rfl
@[simp] theorem State.modCtx_meter (s : State) (n : Nat) (f : Ctx → Ctx) : (s.modCtx n f).meter = s.meter := rfl
@[simp] theorem State.modCtx_meter2 (s : State) (n : Nat) (f : Ctx → Ctx) : (s.modCtx n f).meter2 = s.meter2 := rfl
@[simp] theorem State.modCtx_pkc (s : State) (n : Nat) (f : Ctx → Ctx) : (s.modCtx n f).pkc = s.pkc := rfl
@[simp] theorem State.modCtx_pkc2 (s : State) (n : Nat) (f : Ctx → Ctx) : (s.modCtx n f).pkc2 = s.pkc2 := rfl
@[simp] theorem State.modCtx_winPeak (s : State) (n : Nat) (f : Ctx → Ctx) : (s.modCtx n f).winPeak = s.winPeak := rfl
@[simp] theorem State.modCtx_slabs (s : State) (n : Nat) (f : Ctx → Ctx) : (s.modCtx n f).slabs = s.slabs := rfl
@[simp] theorem State.modCtx_slabs2 (s : State) (n : Nat) (f : Ctx → Ctx) : (s.modCtx n f).slabs2 = s.slabs2 := rfl
@[simp] theorem State.modCtx_ports (s : State) (n : Nat) (f : Ctx → Ctx) : (s.modCtx n f).ports = s.ports := rfl
@[simp] theorem State.modCtx_ports2 (s : State) (n : Nat) (f : Ctx → Ctx) : (s.modCtx n f).ports2 = s.ports2 := rfl
@[simp] theorem State.modCtx_tiles (s : State) (n : Nat) (f : Ctx → Ctx) : (s.modCtx n f).tiles = s.tiles := rfl
@[simp] theorem State.modCtx_tiles2 (s : State) (n : Nat) (f : Ctx → Ctx) : (s.modCtx n f).tiles2 = s.tiles2 := rfl
@[simp] theorem State.modCtx_banks (s : State) (n : Nat) (f : Ctx → Ctx) : (s.modCtx n f).banks = s.banks := rfl
@[simp] theorem State.modCtx_parts (s : State) (n : Nat) (f : Ctx → Ctx) : (s.modCtx n f).parts = s.parts := rfl
@[simp] theorem State.modCtx_parts2 (s : State) (n : Nat) (f : Ctx → Ctx) : (s.modCtx n f).parts2 = s.parts2 := rfl
@[simp] theorem State.modCtx_funcs (s : State) (n : Nat) (f : Ctx → Ctx) : (s.modCtx n f).funcs = s.funcs := rfl
@[simp] theorem State.modCtx_bankMem (s : State) (n : Nat) (f : Ctx → Ctx) : (s.modCtx n f).bankMem = s.bankMem := rfl
@[simp] theorem State.modCtx_hbm (s : State) (n : Nat) (f : Ctx → Ctx) : (s.modCtx n f).hbm = s.hbm := rfl
@[simp] theorem State.setCtx_slab (s : State) (n m : Nat) (v : Ctx) : (s.setCtx n v).slab m = s.slab m := rfl
@[simp] theorem State.modCtx_slab (s : State) (n m : Nat) (f : Ctx → Ctx) : (s.modCtx n f).slab m = s.slab m := rfl
@[simp] theorem State.setCtx_slab2 (s : State) (n m : Nat) (v : Ctx) : (s.setCtx n v).slab2 m = s.slab2 m := rfl
@[simp] theorem State.modCtx_slab2 (s : State) (n m : Nat) (f : Ctx → Ctx) : (s.modCtx n f).slab2 m = s.slab2 m := rfl
@[simp] theorem State.setCtx_port (s : State) (n m : Nat) (v : Ctx) : (s.setCtx n v).port m = s.port m := rfl
@[simp] theorem State.modCtx_port (s : State) (n m : Nat) (f : Ctx → Ctx) : (s.modCtx n f).port m = s.port m := rfl
@[simp] theorem State.setCtx_port2 (s : State) (n m : Nat) (v : Ctx) : (s.setCtx n v).port2 m = s.port2 m := rfl
@[simp] theorem State.modCtx_port2 (s : State) (n m : Nat) (f : Ctx → Ctx) : (s.modCtx n f).port2 m = s.port2 m := rfl
@[simp] theorem State.setCtx_tile (s : State) (n m : Nat) (v : Ctx) : (s.setCtx n v).tile m = s.tile m := rfl
@[simp] theorem State.modCtx_tile (s : State) (n m : Nat) (f : Ctx → Ctx) : (s.modCtx n f).tile m = s.tile m := rfl
@[simp] theorem State.setCtx_tile2 (s : State) (n m : Nat) (v : Ctx) : (s.setCtx n v).tile2 m = s.tile2 m := rfl
@[simp] theorem State.modCtx_tile2 (s : State) (n m : Nat) (f : Ctx → Ctx) : (s.modCtx n f).tile2 m = s.tile2 m := rfl
@[simp] theorem State.setCtx_bank (s : State) (n m : Nat) (v : Ctx) : (s.setCtx n v).bank m = s.bank m := rfl
@[simp] theorem State.modCtx_bank (s : State) (n m : Nat) (f : Ctx → Ctx) : (s.modCtx n f).bank m = s.bank m := rfl
@[simp] theorem State.setCtx_part (s : State) (n m : Nat) (v : Ctx) : (s.setCtx n v).part m = s.part m := rfl
@[simp] theorem State.modCtx_part (s : State) (n m : Nat) (f : Ctx → Ctx) : (s.modCtx n f).part m = s.part m := rfl
@[simp] theorem State.setCtx_part2 (s : State) (n m : Nat) (v : Ctx) : (s.setCtx n v).part2 m = s.part2 m := rfl
@[simp] theorem State.modCtx_part2 (s : State) (n m : Nat) (f : Ctx → Ctx) : (s.modCtx n f).part2 m = s.part2 m := rfl
@[simp] theorem State.setCtx_fn (s : State) (n m : Nat) (v : Ctx) : (s.setCtx n v).fn m = s.fn m := rfl
@[simp] theorem State.modCtx_fn (s : State) (n m : Nat) (f : Ctx → Ctx) : (s.modCtx n f).fn m = s.fn m := rfl

/-! ## Fn -/

@[simp] theorem State.setFn_fn_self (s : State) (n : Nat) (v : Fn) : (s.setFn n v).fn n = v := tget_tput_same _ _ _ _
theorem State.setFn_fn_other (s : State) {n m : Nat} (v : Fn) (h : m ≠ n) : (s.setFn n v).fn m = s.fn m := tget_tput_other _ _ _ h
theorem State.setFn_fn (s : State) (n m : Nat) (v : Fn) : (s.setFn n v).fn m = if m = n then v else s.fn m := tget_tput _ _ _ _ _
@[simp] theorem State.modFn_fn_self (s : State) (n : Nat) (f : Fn → Fn) : (s.modFn n f).fn n = f (s.fn n) := tget_tput_same _ _ _ _
theorem State.modFn_fn_other (s : State) {n m : Nat} (f : Fn → Fn) (h : m ≠ n) : (s.modFn n f).fn m = s.fn m := tget_tput_other _ _ _ h
@[simp] theorem State.setFn_pending (s : State) (n : Nat) (v : Fn) : (s.setFn n v).pending = s.pending := rfl
@[simp] theorem State.setFn_env (s : State) (n : Nat) (v : Fn) : (s.setFn n v).env = s.env := rfl
@[simp] theorem State.setFn_pkg (s : State) (n : Nat) (v : Fn) : (s.setFn n v).pkg = s.pkg := rfl
@[simp] theorem State.setFn_rif (s : State) (n : Nat) (v : Fn) : (s.setFn n v).rif = s.rif := rfl
@[simp] theorem State.setFn_pcie (s : State) (n : Nat) (v : Fn) : (s.setFn n v).pcie = s.pcie := rfl
@[simp] theorem State.setFn_sec (s : State) (n : Nat) (v : Fn) : (s.setFn n v).sec = s.sec := rfl
@[simp] theorem State.setFn_arm (s : State) (n : Nat) (v : Fn) : (s.setFn n v).arm = s.arm := rfl
@[simp] theorem State.setFn_arm2 (s : State) (n : Nat) (v : Fn) : (s.setFn n v).arm2 = s.arm2 := rfl
@[simp] theorem State.setFn_mtr (s : State) (n : Nat) (v : Fn) : (s.setFn n v).mtr = s.mtr := rfl
@[simp] theorem State.setFn_meter (s : State) (n : Nat) (v : Fn) : (s.setFn n v).meter = s.meter := rfl
@[simp] theorem State.setFn_meter2 (s : State) (n : Nat) (v : Fn) : (s.setFn n v).meter2 = s.meter2 := rfl
@[simp] theorem State.setFn_pkc (s : State) (n : Nat) (v : Fn) : (s.setFn n v).pkc = s.pkc := rfl
@[simp] theorem State.setFn_pkc2 (s : State) (n : Nat) (v : Fn) : (s.setFn n v).pkc2 = s.pkc2 := rfl
@[simp] theorem State.setFn_winPeak (s : State) (n : Nat) (v : Fn) : (s.setFn n v).winPeak = s.winPeak := rfl
@[simp] theorem State.setFn_slabs (s : State) (n : Nat) (v : Fn) : (s.setFn n v).slabs = s.slabs := rfl
@[simp] theorem State.setFn_slabs2 (s : State) (n : Nat) (v : Fn) : (s.setFn n v).slabs2 = s.slabs2 := rfl
@[simp] theorem State.setFn_ports (s : State) (n : Nat) (v : Fn) : (s.setFn n v).ports = s.ports := rfl
@[simp] theorem State.setFn_ports2 (s : State) (n : Nat) (v : Fn) : (s.setFn n v).ports2 = s.ports2 := rfl
@[simp] theorem State.setFn_tiles (s : State) (n : Nat) (v : Fn) : (s.setFn n v).tiles = s.tiles := rfl
@[simp] theorem State.setFn_tiles2 (s : State) (n : Nat) (v : Fn) : (s.setFn n v).tiles2 = s.tiles2 := rfl
@[simp] theorem State.setFn_banks (s : State) (n : Nat) (v : Fn) : (s.setFn n v).banks = s.banks := rfl
@[simp] theorem State.setFn_parts (s : State) (n : Nat) (v : Fn) : (s.setFn n v).parts = s.parts := rfl
@[simp] theorem State.setFn_parts2 (s : State) (n : Nat) (v : Fn) : (s.setFn n v).parts2 = s.parts2 := rfl
@[simp] theorem State.setFn_ctxs (s : State) (n : Nat) (v : Fn) : (s.setFn n v).ctxs = s.ctxs := rfl
@[simp] theorem State.setFn_bankMem (s : State) (n : Nat) (v : Fn) : (s.setFn n v).bankMem = s.bankMem := rfl
@[simp] theorem State.setFn_hbm (s : State) (n : Nat) (v : Fn) : (s.setFn n v).hbm = s.hbm := rfl
@[simp] theorem State.modFn_pending (s : State) (n : Nat) (f : Fn → Fn) : (s.modFn n f).pending = s.pending := rfl
@[simp] theorem State.modFn_env (s : State) (n : Nat) (f : Fn → Fn) : (s.modFn n f).env = s.env := rfl
@[simp] theorem State.modFn_pkg (s : State) (n : Nat) (f : Fn → Fn) : (s.modFn n f).pkg = s.pkg := rfl
@[simp] theorem State.modFn_rif (s : State) (n : Nat) (f : Fn → Fn) : (s.modFn n f).rif = s.rif := rfl
@[simp] theorem State.modFn_pcie (s : State) (n : Nat) (f : Fn → Fn) : (s.modFn n f).pcie = s.pcie := rfl
@[simp] theorem State.modFn_sec (s : State) (n : Nat) (f : Fn → Fn) : (s.modFn n f).sec = s.sec := rfl
@[simp] theorem State.modFn_arm (s : State) (n : Nat) (f : Fn → Fn) : (s.modFn n f).arm = s.arm := rfl
@[simp] theorem State.modFn_arm2 (s : State) (n : Nat) (f : Fn → Fn) : (s.modFn n f).arm2 = s.arm2 := rfl
@[simp] theorem State.modFn_mtr (s : State) (n : Nat) (f : Fn → Fn) : (s.modFn n f).mtr = s.mtr := rfl
@[simp] theorem State.modFn_meter (s : State) (n : Nat) (f : Fn → Fn) : (s.modFn n f).meter = s.meter := rfl
@[simp] theorem State.modFn_meter2 (s : State) (n : Nat) (f : Fn → Fn) : (s.modFn n f).meter2 = s.meter2 := rfl
@[simp] theorem State.modFn_pkc (s : State) (n : Nat) (f : Fn → Fn) : (s.modFn n f).pkc = s.pkc := rfl
@[simp] theorem State.modFn_pkc2 (s : State) (n : Nat) (f : Fn → Fn) : (s.modFn n f).pkc2 = s.pkc2 := rfl
@[simp] theorem State.modFn_winPeak (s : State) (n : Nat) (f : Fn → Fn) : (s.modFn n f).winPeak = s.winPeak := rfl
@[simp] theorem State.modFn_slabs (s : State) (n : Nat) (f : Fn → Fn) : (s.modFn n f).slabs = s.slabs := rfl
@[simp] theorem State.modFn_slabs2 (s : State) (n : Nat) (f : Fn → Fn) : (s.modFn n f).slabs2 = s.slabs2 := rfl
@[simp] theorem State.modFn_ports (s : State) (n : Nat) (f : Fn → Fn) : (s.modFn n f).ports = s.ports := rfl
@[simp] theorem State.modFn_ports2 (s : State) (n : Nat) (f : Fn → Fn) : (s.modFn n f).ports2 = s.ports2 := rfl
@[simp] theorem State.modFn_tiles (s : State) (n : Nat) (f : Fn → Fn) : (s.modFn n f).tiles = s.tiles := rfl
@[simp] theorem State.modFn_tiles2 (s : State) (n : Nat) (f : Fn → Fn) : (s.modFn n f).tiles2 = s.tiles2 := rfl
@[simp] theorem State.modFn_banks (s : State) (n : Nat) (f : Fn → Fn) : (s.modFn n f).banks = s.banks := rfl
@[simp] theorem State.modFn_parts (s : State) (n : Nat) (f : Fn → Fn) : (s.modFn n f).parts = s.parts := rfl
@[simp] theorem State.modFn_parts2 (s : State) (n : Nat) (f : Fn → Fn) : (s.modFn n f).parts2 = s.parts2 := rfl
@[simp] theorem State.modFn_ctxs (s : State) (n : Nat) (f : Fn → Fn) : (s.modFn n f).ctxs = s.ctxs := rfl
@[simp] theorem State.modFn_bankMem (s : State) (n : Nat) (f : Fn → Fn) : (s.modFn n f).bankMem = s.bankMem := rfl
@[simp] theorem State.modFn_hbm (s : State) (n : Nat) (f : Fn → Fn) : (s.modFn n f).hbm = s.hbm := rfl
@[simp] theorem State.setFn_slab (s : State) (n m : Nat) (v : Fn) : (s.setFn n v).slab m = s.slab m := rfl
@[simp] theorem State.modFn_slab (s : State) (n m : Nat) (f : Fn → Fn) : (s.modFn n f).slab m = s.slab m := rfl
@[simp] theorem State.setFn_slab2 (s : State) (n m : Nat) (v : Fn) : (s.setFn n v).slab2 m = s.slab2 m := rfl
@[simp] theorem State.modFn_slab2 (s : State) (n m : Nat) (f : Fn → Fn) : (s.modFn n f).slab2 m = s.slab2 m := rfl
@[simp] theorem State.setFn_port (s : State) (n m : Nat) (v : Fn) : (s.setFn n v).port m = s.port m := rfl
@[simp] theorem State.modFn_port (s : State) (n m : Nat) (f : Fn → Fn) : (s.modFn n f).port m = s.port m := rfl
@[simp] theorem State.setFn_port2 (s : State) (n m : Nat) (v : Fn) : (s.setFn n v).port2 m = s.port2 m := rfl
@[simp] theorem State.modFn_port2 (s : State) (n m : Nat) (f : Fn → Fn) : (s.modFn n f).port2 m = s.port2 m := rfl
@[simp] theorem State.setFn_tile (s : State) (n m : Nat) (v : Fn) : (s.setFn n v).tile m = s.tile m := rfl
@[simp] theorem State.modFn_tile (s : State) (n m : Nat) (f : Fn → Fn) : (s.modFn n f).tile m = s.tile m := rfl
@[simp] theorem State.setFn_tile2 (s : State) (n m : Nat) (v : Fn) : (s.setFn n v).tile2 m = s.tile2 m := rfl
@[simp] theorem State.modFn_tile2 (s : State) (n m : Nat) (f : Fn → Fn) : (s.modFn n f).tile2 m = s.tile2 m := rfl
@[simp] theorem State.setFn_bank (s : State) (n m : Nat) (v : Fn) : (s.setFn n v).bank m = s.bank m := rfl
@[simp] theorem State.modFn_bank (s : State) (n m : Nat) (f : Fn → Fn) : (s.modFn n f).bank m = s.bank m := rfl
@[simp] theorem State.setFn_part (s : State) (n m : Nat) (v : Fn) : (s.setFn n v).part m = s.part m := rfl
@[simp] theorem State.modFn_part (s : State) (n m : Nat) (f : Fn → Fn) : (s.modFn n f).part m = s.part m := rfl
@[simp] theorem State.setFn_part2 (s : State) (n m : Nat) (v : Fn) : (s.setFn n v).part2 m = s.part2 m := rfl
@[simp] theorem State.modFn_part2 (s : State) (n m : Nat) (f : Fn → Fn) : (s.modFn n f).part2 m = s.part2 m := rfl
@[simp] theorem State.setFn_ctx (s : State) (n m : Nat) (v : Fn) : (s.setFn n v).ctx m = s.ctx m := rfl
@[simp] theorem State.modFn_ctx (s : State) (n m : Nat) (f : Fn → Fn) : (s.modFn n f).ctx m = s.ctx m := rfl

end Sys2Proof.Machine
end

