-- ==== Sys2Proof/Laws/Keeps.lean ====
section
/-! SUPPORT. The relation that every operation of the model keeps: the queue of waiting commands is left alone, a
canonical state stays canonical, what lasts stays, and nothing outside a list of parts changes. The lemmas here are for
the updates that all operations are made of. -/

namespace Sys2Proof.Machine

open Sys2Proof

-- Proofs one after another: the package compiles as one text under a memory limit.
set_option Elab.async false

/-- `t` has the queue of `s`, is canonical if `s` is, has lost nothing that lasts, and is `s` but for the parts `F`. -/
structure Keeps (F : List SField) (s t : State) : Prop where
  pending : t.pending = s.pending
  canonical : s.Canonical → t.Canonical
  lasting : Lasting s t
  only : ∀ f, f ∉ F → f.Same s t

variable {F : List SField} {s t : State}

theorem SField.Same.rfl {f : SField} {s : State} : f.Same s s := by cases f <;> exact Eq.refl _

theorem SField.Same.trans {f : SField} {u : State} (h : f.Same s t) (h' : f.Same t u) : f.Same s u := by
  cases f <;> exact Eq.trans h' h

theorem Lasting.refl (s : State) : Lasting s s :=
  ⟨le_rfl, le_rfl, le_rfl, le_rfl, List.suffix_rfl⟩

theorem Lasting.trans {u : State} (h : Lasting s t) (h' : Lasting t u) : Lasting s u :=
  ⟨h.fwFloor.trans h'.fwFloor, h.armFloor.trans h'.armFloor, h.logCount.trans h'.logCount, h.rseq.trans h'.rseq,
    h.audit.trans h'.audit⟩

theorem Keeps.refl (s : State) : Keeps F s s := ⟨rfl, id, .refl s, fun _ _ => .rfl⟩

theorem Keeps.trans {u : State} (h : Keeps F s t) (h' : Keeps F t u) : Keeps F s u :=
  ⟨h'.pending.trans h.pending, fun c => h'.canonical (h.canonical c), h.lasting.trans h'.lasting,
    fun f hf => (h.only f hf).trans (h'.only f hf)⟩

/-- To follow a chain of changes, follow one and forget what it was. -/
theorem Keeps.cut {u : State} (h : Keeps F s u) (k : Keeps F s u → Keeps F s t) : Keeps F s t := k h

theorem Keeps.keepEnv {p : Prop} (_ : Env) (h : p) : p := h
theorem Keeps.keepSec {p : Prop} (_ : Sec) (h : p) : p := h
theorem Keeps.keepArm {p : Prop} (_ : Arm) (h : p) : p := h
theorem Keeps.keepMeter {p : Prop} (_ : Meter) (h : p) : p := h

/-- What an update of parts without tables may change: each part is in the list, or is as it was. -/
structure LightIn (F : List SField) (t : State) (e : Env) (pkg : Pkg) (rif : Rif) (pcie : Pcie) (sec : Sec) (arm : Arm)
    (arm2 : Arm2) (mtr : Mtr) (meter2 : Meter2) (pkc : Pkc) (pkc2 : Pkc2) (w : Nat) : Prop where
  env : SField.env ∈ F ∨ e = t.env
  pkg : SField.pkg ∈ F ∨ pkg = t.pkg
  rif : SField.rif ∈ F ∨ rif = t.rif
  pcie : SField.pcie ∈ F ∨ pcie = t.pcie
  sec : SField.sec ∈ F ∨ sec = t.sec
  arm : SField.arm ∈ F ∨ arm = t.arm
  arm2 : SField.arm2 ∈ F ∨ arm2 = t.arm2
  mtr : SField.mtr ∈ F ∨ mtr = t.mtr
  meter2 : SField.meter2 ∈ F ∨ meter2 = t.meter2
  pkc : SField.pkc ∈ F ∨ pkc = t.pkc
  pkc2 : SField.pkc2 ∈ F ∨ pkc2 = t.pkc2
  winPeak : SField.winPeak ∈ F ∨ w = t.winPeak

/-- An update of fields that hold no table, no memory and no reading of the meter. -/
theorem Keeps.plain (h : Keeps F s t) {e pkg rif pcie sec arm arm2 mtr meter2 pkc pkc2 w}
    (he : e.hostMem = t.env.hostMem) (hf : t.sec.fwFloor.toNat ≤ sec.fwFloor.toNat)
    (ha : t.sec.armFloor.toNat ≤ sec.armFloor.toNat) (hl : t.arm.logCount ≤ arm.logCount)
    (o : LightIn F t e pkg rif pcie sec arm arm2 mtr meter2 pkc pkc2 w := by
      constructor <;> first | exact .inl (by assumption) | exact .inr rfl) :
    Keeps F s { t with
      env := e, pkg := pkg, rif := rif, pcie := pcie, sec := sec, arm := arm, arm2 := arm2, mtr := mtr,
      meter2 := meter2, pkc := pkc, pkc2 := pkc2, winPeak := w } :=
  ⟨h.pending, fun c => by obtain ⟨⟩ := h.canonical c; constructor <;> simp_all,
    h.lasting.trans ⟨hf, ha, hl, le_rfl, List.suffix_rfl⟩, fun f hn => (h.only f hn).trans <| by
      cases f <;> first
        | exact .refl _ | exact he
        | exact o.env.resolve_left hn | exact o.pkg.resolve_left hn | exact o.rif.resolve_left hn
        | exact o.pcie.resolve_left hn | exact o.sec.resolve_left hn | exact o.arm.resolve_left hn
        | exact o.arm2.resolve_left hn | exact o.mtr.resolve_left hn | exact o.meter2.resolve_left hn
        | exact o.pkc.resolve_left hn | exact o.pkc2.resolve_left hn | exact o.winPeak.resolve_left hn⟩

/-- An update that leaves the lasting fields as they are. -/
theorem Keeps.light (h : Keeps F s t) {e pkg rif pcie sec arm arm2 mtr meter2 pkc pkc2 w}
    (he : e.hostMem = t.env.hostMem) (hf : sec.fwFloor = t.sec.fwFloor) (ha : sec.armFloor = t.sec.armFloor)
    (hl : arm.logCount = t.arm.logCount)
    (o : LightIn F t e pkg rif pcie sec arm arm2 mtr meter2 pkc pkc2 w := by
      constructor <;> first | exact .inl (by assumption) | exact .inr rfl) :
    Keeps F s { t with
      env := e, pkg := pkg, rif := rif, pcie := pcie, sec := sec, arm := arm, arm2 := arm2, mtr := mtr,
      meter2 := meter2, pkc := pkc, pkc2 := pkc2, winPeak := w } :=
  h.plain he (hf ▸ le_rfl) (ha ▸ le_rfl) hl.ge o

/-- An update by the meter itself. -/
theorem Keeps.metered (h : Keeps F s t) {m m2} (hr : t.meter.rseq ≤ m.rseq) (hu : t.meter.audit <:+ m.audit)
    (hm : SField.meter ∈ F := by assumption)
    (h2 : SField.meter2 ∈ F ∨ m2 = t.meter2 := by first | exact .inl (by assumption) | exact .inr rfl) :
    Keeps F s { t with meter := m, meter2 := m2 } :=
  ⟨h.pending, fun c => by obtain ⟨⟩ := h.canonical c; constructor <;> simp_all,
    h.lasting.trans ⟨le_rfl, le_rfl, le_rfl, hr, hu⟩, fun f hn => (h.only f hn).trans <| by
      cases f <;> first | exact .refl _ | exact absurd hm hn | exact h2.resolve_left hn⟩

theorem Keeps.meterLight (h : Keeps F s t) {m m2} (hr : m.rseq = t.meter.rseq) (hu : m.audit = t.meter.audit)
    (hm : SField.meter ∈ F := by assumption)
    (h2 : SField.meter2 ∈ F ∨ m2 = t.meter2 := by first | exact .inl (by assumption) | exact .inr rfl) :
    Keeps F s { t with meter := m, meter2 := m2 } :=
  h.metered hr.ge (hu ▸ List.suffix_rfl) hm h2

/-- What an update of the memories may change. -/
structure MemoryIn (F : List SField) (t : State) (e : Env) (bm : Mem) (hbm : Hbm) : Prop where
  env : SField.env ∈ F ∨ e = t.env
  hostMem : SField.hostMem ∈ F ∨ e.hostMem = t.env.hostMem
  bankMem : SField.bankMem ∈ F ∨ bm = t.bankMem
  hbm : SField.hbm ∈ F ∨ hbm = t.hbm

/-- An update of the memories. -/
theorem Keeps.memory (h : Keeps F s t) {e bm hbm} (he : Memory.wf t.env.hostMem = true → Memory.wf e.hostMem = true)
    (hb : Memory.wf t.bankMem = true → Memory.wf bm = true)
    (hm : Memory.wf t.hbm.mem = true → Memory.wf hbm.mem = true)
    (hr : twf (fun _ => GranRec.init) t.hbm.recs = true → twf (fun _ => GranRec.init) hbm.recs = true)
    (o : MemoryIn F t e bm hbm := by
      constructor <;> first | exact .inl (by assumption) | exact .inr rfl) :
    Keeps F s { t with env := e, bankMem := bm, hbm := hbm } :=
  ⟨h.pending, fun c => by obtain ⟨⟩ := h.canonical c; constructor <;> simp_all,
    h.lasting.trans ⟨le_rfl, le_rfl, le_rfl, le_rfl, List.suffix_rfl⟩, fun f hn => (h.only f hn).trans <| by
      cases f <;> first
        | exact .refl _ | exact o.env.resolve_left hn | exact o.hostMem.resolve_left hn
        | exact o.bankMem.resolve_left hn | exact o.hbm.resolve_left hn⟩

theorem Keeps.setSlab (h : Keeps F s t) (n : Nat) (v : Slab) (hF : SField.slabs ∈ F := by assumption) :
    Keeps F s (t.setSlab n v) :=
  ⟨h.pending, fun c => { h.canonical c with slabs := twf_tput n v (h.canonical c).slabs },
    h.lasting.trans ⟨le_rfl, le_rfl, le_rfl, le_rfl, List.suffix_rfl⟩, fun f hn => (h.only f hn).trans <| by
      cases f <;> first | exact .refl _ | exact absurd hF hn⟩

theorem Keeps.modSlab (h : Keeps F s t) (n : Nat) (f : Slab → Slab) (hF : SField.slabs ∈ F := by assumption) :
    Keeps F s (t.modSlab n f) := h.setSlab n _ hF

theorem Keeps.setSlab2 (h : Keeps F s t) (n : Nat) (v : Slab2) (hF : SField.slabs2 ∈ F := by assumption) :
    Keeps F s (t.setSlab2 n v) :=
  ⟨h.pending, fun c => { h.canonical c with slabs2 := twf_tput n v (h.canonical c).slabs2 },
    h.lasting.trans ⟨le_rfl, le_rfl, le_rfl, le_rfl, List.suffix_rfl⟩, fun f hn => (h.only f hn).trans <| by
      cases f <;> first | exact .refl _ | exact absurd hF hn⟩

theorem Keeps.modSlab2 (h : Keeps F s t) (n : Nat) (f : Slab2 → Slab2) (hF : SField.slabs2 ∈ F := by assumption) :
    Keeps F s (t.modSlab2 n f) := h.setSlab2 n _ hF

theorem Keeps.setPort (h : Keeps F s t) (n : Nat) (v : Port) (hF : SField.ports ∈ F := by assumption) :
    Keeps F s (t.setPort n v) :=
  ⟨h.pending, fun c => { h.canonical c with ports := twf_tput n v (h.canonical c).ports },
    h.lasting.trans ⟨le_rfl, le_rfl, le_rfl, le_rfl, List.suffix_rfl⟩, fun f hn => (h.only f hn).trans <| by
      cases f <;> first | exact .refl _ | exact absurd hF hn⟩

theorem Keeps.modPort (h : Keeps F s t) (n : Nat) (f : Port → Port) (hF : SField.ports ∈ F := by assumption) :
    Keeps F s (t.modPort n f) := h.setPort n _ hF

theorem Keeps.setPort2 (h : Keeps F s t) (n : Nat) (v : Port2) (hF : SField.ports2 ∈ F := by assumption) :
    Keeps F s (t.setPort2 n v) :=
  ⟨h.pending, fun c => { h.canonical c with ports2 := twf_tput n v (h.canonical c).ports2 },
    h.lasting.trans ⟨le_rfl, le_rfl, le_rfl, le_rfl, List.suffix_rfl⟩, fun f hn => (h.only f hn).trans <| by
      cases f <;> first | exact .refl _ | exact absurd hF hn⟩

theorem Keeps.modPort2 (h : Keeps F s t) (n : Nat) (f : Port2 → Port2) (hF : SField.ports2 ∈ F := by assumption) :
    Keeps F s (t.modPort2 n f) := h.setPort2 n _ hF

theorem Keeps.setTile (h : Keeps F s t) (n : Nat) (v : Tile) (hF : SField.tiles ∈ F := by assumption) :
    Keeps F s (t.setTile n v) :=
  ⟨h.pending, fun c => { h.canonical c with tiles := twf_tput n v (h.canonical c).tiles },
    h.lasting.trans ⟨le_rfl, le_rfl, le_rfl, le_rfl, List.suffix_rfl⟩, fun f hn => (h.only f hn).trans <| by
      cases f <;> first | exact .refl _ | exact absurd hF hn⟩

theorem Keeps.modTile (h : Keeps F s t) (n : Nat) (f : Tile → Tile) (hF : SField.tiles ∈ F := by assumption) :
    Keeps F s (t.modTile n f) := h.setTile n _ hF

theorem Keeps.setTile2 (h : Keeps F s t) (n : Nat) (v : Tile2) (hF : SField.tiles2 ∈ F := by assumption) :
    Keeps F s (t.setTile2 n v) :=
  ⟨h.pending, fun c => { h.canonical c with tiles2 := twf_tput n v (h.canonical c).tiles2 },
    h.lasting.trans ⟨le_rfl, le_rfl, le_rfl, le_rfl, List.suffix_rfl⟩, fun f hn => (h.only f hn).trans <| by
      cases f <;> first | exact .refl _ | exact absurd hF hn⟩

theorem Keeps.modTile2 (h : Keeps F s t) (n : Nat) (f : Tile2 → Tile2) (hF : SField.tiles2 ∈ F := by assumption) :
    Keeps F s (t.modTile2 n f) := h.setTile2 n _ hF

theorem Keeps.setBank (h : Keeps F s t) (n : Nat) (v : Bank) (hF : SField.banks ∈ F := by assumption) :
    Keeps F s (t.setBank n v) :=
  ⟨h.pending, fun c => { h.canonical c with banks := twf_tput n v (h.canonical c).banks },
    h.lasting.trans ⟨le_rfl, le_rfl, le_rfl, le_rfl, List.suffix_rfl⟩, fun f hn => (h.only f hn).trans <| by
      cases f <;> first | exact .refl _ | exact absurd hF hn⟩

theorem Keeps.modBank (h : Keeps F s t) (n : Nat) (f : Bank → Bank) (hF : SField.banks ∈ F := by assumption) :
    Keeps F s (t.modBank n f) := h.setBank n _ hF

theorem Keeps.setPart (h : Keeps F s t) (n : Nat) (v : Part) (hF : SField.parts ∈ F := by assumption) :
    Keeps F s (t.setPart n v) :=
  ⟨h.pending, fun c => { h.canonical c with parts := twf_tput n v (h.canonical c).parts },
    h.lasting.trans ⟨le_rfl, le_rfl, le_rfl, le_rfl, List.suffix_rfl⟩, fun f hn => (h.only f hn).trans <| by
      cases f <;> first | exact .refl _ | exact absurd hF hn⟩

theorem Keeps.modPart (h : Keeps F s t) (n : Nat) (f : Part → Part) (hF : SField.parts ∈ F := by assumption) :
    Keeps F s (t.modPart n f) := h.setPart n _ hF

theorem Keeps.setPart2 (h : Keeps F s t) (n : Nat) (v : Part2) (hF : SField.parts2 ∈ F := by assumption) :
    Keeps F s (t.setPart2 n v) :=
  ⟨h.pending, fun c => { h.canonical c with parts2 := twf_tput n v (h.canonical c).parts2 },
    h.lasting.trans ⟨le_rfl, le_rfl, le_rfl, le_rfl, List.suffix_rfl⟩, fun f hn => (h.only f hn).trans <| by
      cases f <;> first | exact .refl _ | exact absurd hF hn⟩

theorem Keeps.modPart2 (h : Keeps F s t) (n : Nat) (f : Part2 → Part2) (hF : SField.parts2 ∈ F := by assumption) :
    Keeps F s (t.modPart2 n f) := h.setPart2 n _ hF

theorem Keeps.setCtx (h : Keeps F s t) (n : Nat) (v : Ctx) (hF : SField.ctxs ∈ F := by assumption) :
    Keeps F s (t.setCtx n v) :=
  ⟨h.pending, fun c => { h.canonical c with ctxs := twf_tput n v (h.canonical c).ctxs },
    h.lasting.trans ⟨le_rfl, le_rfl, le_rfl, le_rfl, List.suffix_rfl⟩, fun f hn => (h.only f hn).trans <| by
      cases f <;> first | exact .refl _ | exact absurd hF hn⟩

theorem Keeps.modCtx (h : Keeps F s t) (n : Nat) (f : Ctx → Ctx) (hF : SField.ctxs ∈ F := by assumption) :
    Keeps F s (t.modCtx n f) := h.setCtx n _ hF

theorem Keeps.setFn (h : Keeps F s t) (n : Nat) (v : Fn) (hF : SField.funcs ∈ F := by assumption) :
    Keeps F s (t.setFn n v) :=
  ⟨h.pending, fun c => { h.canonical c with funcs := twf_tput n v (h.canonical c).funcs },
    h.lasting.trans ⟨le_rfl, le_rfl, le_rfl, le_rfl, List.suffix_rfl⟩, fun f hn => (h.only f hn).trans <| by
      cases f <;> first | exact .refl _ | exact absurd hF hn⟩

theorem Keeps.modFn (h : Keeps F s t) (n : Nat) (f : Fn → Fn) (hF : SField.funcs ∈ F := by assumption) :
    Keeps F s (t.modFn n f) := h.setFn n _ hF

/-- A fold over a list keeps what each of its steps keeps. -/
theorem Keeps.forAll {α : Type} (h : Keeps F s t) (l : List α) (f : α → State → State)
    (hf : ∀ a u, Keeps F s u → Keeps F s (f a u)) : Keeps F s (forAll l f t) := by
  unfold Machine.forAll
  induction l generalizing t with
  | nil => exact h
  | cons a r ih => exact ih (hf a t h)

theorem Keeps.foldl {α : Type} (h : Keeps F s t) (l : List α) (f : State → α → State)
    (hf : ∀ u a, Keeps F s u → Keeps F s (f u a)) : Keeps F s (l.foldl f t) := by
  induction l generalizing t with
  | nil => exact h
  | cons a r ih => exact ih (hf t a h)

theorem Keeps.takeFree (h : Keeps F s t) (w : Nat) (hF : SField.env ∈ F := by assumption) :
    Keeps F s (t.takeFree w).2 := h.light rfl rfl rfl rfl

theorem Keeps.answer (h : Keeps F s t) (r : Resp) (hF : SField.env ∈ F := by assumption) :
    Keeps F s (t.answer r) := h.light rfl rfl rfl rfl

/-- A meaning answers a next state that keeps what `s` has. -/
def Yields (F : List SField) (s : State) (o : Host.Outcome State Fault Refusal) : Prop := ∃ u, o = .next u ∧ Keeps F s u

theorem Yields.next (h : Keeps F s t) : Yields F s (.next t) := ⟨t, rfl, h⟩

theorem Yields.cut {u : State} {o : Host.Outcome State Fault Refusal} (h : Keeps F s u) (k : Keeps F s u → Yields F s o) :
    Yields F s o := k h

theorem Yields.keeps {o : Host.Outcome State Fault Refusal} (h : Yields F s o) (e : o = .next t) : Keeps F s t := by
  obtain ⟨u, hu, k⟩ := h
  cases hu.symm.trans e
  exact k

end Sys2Proof.Machine
end

