-- ==== Sys2Proof/Laws/Posts.lean ====
section
/-! SUPPORT. What posting events changes, said once: host memory, messages and the functions' counts, and nothing
else. -/

namespace Sys2Proof.Machine

open Sys2Proof

-- Proofs one after another: the package compiles as one text under a memory limit.
set_option Elab.async false

variable {s t u : State}

theorem Posted.refl (s : State) : Posted s s := rfl

theorem Posted.trans (h : Posted s t) (h' : Posted t u) : Posted s u := by
  unfold Posted at *
  rw [h'.trans (by rw [h])]

theorem posted_hostWrite (s : State) (f a : Nat) (bs : List Byte) : Posted s (hostWrite s f a bs) := by
  unfold hostWrite
  split <;> rfl

theorem posted_modFn (s : State) (f : Nat) (g : Fn → Fn) : Posted s (s.modFn f g) := rfl

theorem posted_setFn (s : State) (f : Nat) (x : Fn) : Posted s (s.setFn f x) := rfl

theorem posted_sendMsi (f v : Nat) (s : State) : Posted s (sendMsi f v s) := by
  unfold sendMsi
  split
  · rfl
  · split
    · rfl
    · split <;> rfl

theorem posted_evqSignal (f : Nat) (s : State) : Posted s (evqSignal f s) := by
  unfold evqSignal
  dsimp only
  split
  · exact (posted_setFn s f _).trans (posted_sendMsi f 0 _)
  · rfl

theorem posted_evLost (f : Nat) (h : Bool) (s : State) : Posted s (evLost f h s) := rfl

theorem posted_evPut (f code slab ctx : Nat) (dws : List Nat) (s : State) : Posted s (evPut f code slab ctx dws s) := by
  unfold evPut
  dsimp only
  split
  · rfl
  · exact ((posted_hostWrite s f _ _).trans (posted_setFn _ f _)).trans (posted_evqSignal f _)

theorem posted_evOverflow (f : Nat) (s : State) : Posted s (evOverflow f s) := by
  unfold evOverflow
  dsimp only
  split
  · rfl
  · split
    · rfl
    · exact (posted_setFn s f _).trans (posted_evPut f _ _ _ _ _)

theorem posted_postRaw (f code slab ctx : Nat) (dws : List Nat) (s : State) :
    Posted s (postRaw f code slab ctx dws s) := by
  unfold postRaw
  dsimp only
  split
  · exact (posted_evOverflow f s).trans (posted_evPut f _ _ _ _ _)
  · exact (posted_evOverflow f s).trans (posted_evLost f _ _)

theorem posted_postFuel (n f code slab ctx : Nat) (dws : List Nat) (s : State) :
    Posted s (postFuel n f code slab ctx dws s) := by
  induction n generalizing f code slab ctx dws s with
  | zero => exact posted_postRaw ..
  | succ n ih =>
    simp only [postFuel]
    have h := posted_postRaw f code slab ctx dws s
    split <;> split
    · exact (h.trans (ih ..)).trans (ih ..)
    · exact h.trans (ih ..)
    · exact h.trans (ih ..)
    · exact h

theorem posted_post (f code slab ctx : Nat) (dws : List Nat) (s : State) : Posted s (post f code slab ctx dws s) := by
  unfold post
  split
  · exact posted_postFuel ..
  · rfl

theorem posted_payOverflow (f : Nat) (s : State) : Posted s (payOverflow f s) := by
  unfold payOverflow
  split
  · dsimp only
    split
    · exact (posted_evOverflow f s).trans (posted_post ..)
    · exact posted_evOverflow f s
  · rfl

theorem posted_postBoth (f code slab ctx : Nat) (dws : List Nat) (s : State) :
    Posted s (postBoth f code slab ctx dws s) := by
  unfold postBoth
  split
  · exact posted_post ..
  · exact (posted_post ..).trans (posted_post ..)

theorem posted_forAll {α : Type} (l : List α) (f : α → State → State) (h : ∀ a s, Posted s (f a s)) (s : State) :
    Posted s (forAll l f s) := by
  unfold forAll
  induction l generalizing s with
  | nil => rfl
  | cons a r ih => exact (h a s).trans (ih _)

theorem posted_regEdge (addr slab : Nat) (old new : Word) (s : State) : Posted s (regEdge addr slab old new s) := by
  refine posted_forAll _ _ (fun i t => ?_) s
  split
  · exact posted_post ..
  · rfl

theorem posted_pkgEvent (m : Word) (s : State) : Posted { s with pkg := { s.pkg with events := s.pkg.events ||| m } } (pkgEvent m s) := posted_regEdge ..

theorem posted_pcieEvent (m : Word) (s : State) : Posted { s with pcie := { s.pcie with events := s.pcie.events ||| m } } (pcieEvent m s) := posted_regEdge ..

theorem posted_secEvent (m : Word) (s : State) : Posted { s with sec := { s.sec with events := s.sec.events ||| m } } (secEvent m s) := posted_regEdge ..

theorem posted_armEvent (m : Word) (s : State) : Posted { s with arm := { s.arm with events := s.arm.events ||| m } } (armEvent m s) := posted_regEdge ..

theorem posted_mtrEvent (m : Word) (s : State) : Posted { s with mtr := { s.mtr with events := s.mtr.events ||| m } } (mtrEvent m s) := posted_regEdge ..

theorem posted_pkcEvent (m : Word) (s : State) : Posted { s with pkc := { s.pkc with events := s.pkc.events ||| m } } (pkcEvent m s) := posted_regEdge ..

theorem posted_pseqEvent (p : Nat) (m : Word) (s : State) :
    Posted (s.modPart2 p fun x => { x with pseqEvents := x.pseqEvents ||| m }) (pseqEvent p m s) := posted_regEdge ..

theorem posted_kvEvent (p : Nat) (m : Word) (s : State) :
    Posted (s.modPart2 p fun x => { x with kvEvents := x.kvEvents ||| m }) (kvEvent p m s) := posted_regEdge ..

theorem posted_schedEvent (p : Nat) (m : Word) (s : State) :
    Posted (s.modPart2 p fun x => { x with schedEvents := x.schedEvents ||| m }) (schedEvent p m s) := posted_regEdge ..

theorem posted_arrayEvent (n : Nat) (m : Word) (s : State) :
    Posted (s.modSlab n fun x => { x with arrayEvents := x.arrayEvents ||| m }) (arrayEvent n m s) := posted_regEdge ..

theorem posted_vecEvent (n : Nat) (m : Word) (s : State) :
    Posted (s.modSlab n fun x => { x with vec := { x.vec with events := x.vec.events ||| m } }) (vecEvent n m s) := posted_regEdge ..

theorem posted_bankEvent (n : Nat) (m : Word) (s : State) :
    Posted (s.modSlab2 n fun x => { x with bankEvents := x.bankEvents ||| m }) (bankEvent n m s) := posted_regEdge ..

theorem posted_hbmEvent (n : Nat) (m : Word) (s : State) :
    Posted (s.modSlab2 n fun x => { x with hbm := { x.hbm with events := x.hbm.events ||| m } }) (hbmEvent n m s) := posted_regEdge ..

theorem posted_fabEvent (n : Nat) (m : Word) (s : State) :
    Posted (s.modSlab2 n fun x => { x with fab := { x.fab with events := x.fab.events ||| m } }) (fabEvent n m s) := posted_regEdge ..

theorem posted_vcEvent (n : Nat) (m : Word) (s : State) :
    Posted (s.modSlab2 n fun x => { x with vc := { x.vc with events := x.vc.events ||| m } }) (vcEvent n m s) := posted_regEdge ..

theorem posted_linkEvent (p : Nat) (m : Word) (s : State) :
    Posted (s.modPort p fun x => { x with events := x.events ||| m }) (linkEvent p m s) := posted_regEdge ..

theorem posted_ringEvent (c : Nat) (m : Word) (s : State) :
    Posted (s.modCtx c fun x => { x with irq := { x.irq with events := x.irq.events ||| m } }) (ringEvent c m s) := posted_regEdge ..

theorem posted_ctxEvent (c : Nat) (m : Word) (s : State) :
    Posted (s.modCtx c fun x => { x with reg := { x.reg with events := x.reg.events ||| m } }) (ctxEvent c m s) := posted_regEdge ..

theorem posted_fnEvent (f : Nat) (m : Word) (s : State) :
    Posted (s.modFn f fun x => { x with irq := { x.irq with events := x.irq.events ||| m } }) (fnEvent f m s) := posted_regEdge ..

/-! ## What posting leaves, field by field -/

theorem Posted.pkg (h : Posted s t) : t.pkg = s.pkg := by unfold Posted at h; rw [h]
theorem Posted.rif (h : Posted s t) : t.rif = s.rif := by unfold Posted at h; rw [h]
theorem Posted.sec (h : Posted s t) : t.sec = s.sec := by unfold Posted at h; rw [h]
theorem Posted.arm (h : Posted s t) : t.arm = s.arm := by unfold Posted at h; rw [h]
theorem Posted.arm2 (h : Posted s t) : t.arm2 = s.arm2 := by unfold Posted at h; rw [h]
theorem Posted.mtr (h : Posted s t) : t.mtr = s.mtr := by unfold Posted at h; rw [h]
theorem Posted.meter (h : Posted s t) : t.meter = s.meter := by unfold Posted at h; rw [h]
theorem Posted.meter2 (h : Posted s t) : t.meter2 = s.meter2 := by unfold Posted at h; rw [h]
theorem Posted.pkc (h : Posted s t) : t.pkc = s.pkc := by unfold Posted at h; rw [h]
theorem Posted.pkc2 (h : Posted s t) : t.pkc2 = s.pkc2 := by unfold Posted at h; rw [h]
theorem Posted.winPeak (h : Posted s t) : t.winPeak = s.winPeak := by unfold Posted at h; rw [h]
theorem Posted.slabs (h : Posted s t) : t.slabs = s.slabs := by unfold Posted at h; rw [h]
theorem Posted.slabs2 (h : Posted s t) : t.slabs2 = s.slabs2 := by unfold Posted at h; rw [h]
theorem Posted.ports (h : Posted s t) : t.ports = s.ports := by unfold Posted at h; rw [h]
theorem Posted.ports2 (h : Posted s t) : t.ports2 = s.ports2 := by unfold Posted at h; rw [h]
theorem Posted.tiles (h : Posted s t) : t.tiles = s.tiles := by unfold Posted at h; rw [h]
theorem Posted.tiles2 (h : Posted s t) : t.tiles2 = s.tiles2 := by unfold Posted at h; rw [h]
theorem Posted.banks (h : Posted s t) : t.banks = s.banks := by unfold Posted at h; rw [h]
theorem Posted.parts (h : Posted s t) : t.parts = s.parts := by unfold Posted at h; rw [h]
theorem Posted.parts2 (h : Posted s t) : t.parts2 = s.parts2 := by unfold Posted at h; rw [h]
theorem Posted.ctxs (h : Posted s t) : t.ctxs = s.ctxs := by unfold Posted at h; rw [h]
theorem Posted.bankMem (h : Posted s t) : t.bankMem = s.bankMem := by unfold Posted at h; rw [h]
theorem Posted.hbm (h : Posted s t) : t.hbm = s.hbm := by unfold Posted at h; rw [h]
theorem Posted.pending (h : Posted s t) : t.pending = s.pending := by unfold Posted at h; rw [h]
theorem Posted.slab (h : Posted s t) (n : Nat) : t.slab n = s.slab n := congrArg (tget _ · n) h.slabs
theorem Posted.slab2 (h : Posted s t) (n : Nat) : t.slab2 n = s.slab2 n := congrArg (tget _ · n) h.slabs2
theorem Posted.port (h : Posted s t) (n : Nat) : t.port n = s.port n := congrArg (tget _ · n) h.ports
theorem Posted.port2 (h : Posted s t) (n : Nat) : t.port2 n = s.port2 n := congrArg (tget _ · n) h.ports2
theorem Posted.tile (h : Posted s t) (n : Nat) : t.tile n = s.tile n := congrArg (tget _ · n) h.tiles
theorem Posted.tile2 (h : Posted s t) (n : Nat) : t.tile2 n = s.tile2 n := congrArg (tget _ · n) h.tiles2
theorem Posted.bank (h : Posted s t) (n : Nat) : t.bank n = s.bank n := congrArg (tget _ · n) h.banks
theorem Posted.part (h : Posted s t) (n : Nat) : t.part n = s.part n := congrArg (tget _ · n) h.parts
theorem Posted.part2 (h : Posted s t) (n : Nat) : t.part2 n = s.part2 n := congrArg (tget _ · n) h.parts2
theorem Posted.ctx (h : Posted s t) (n : Nat) : t.ctx n = s.ctx n := congrArg (tget _ · n) h.ctxs

theorem Posted.getCmd (h : Posted s t) (c q : Nat) : Machine.getCmd t c q = Machine.getCmd s c q := by
  unfold Machine.getCmd; rw [h.ctx]

theorem Posted.near (h : Posted s t) (c : Nat) : (t.ctx c).cmds = (s.ctx c).cmds := by rw [h.ctx]

end Sys2Proof.Machine
end

