-- ==== Sys2Proof/Laws/Finish.lean ====
section
/-! SUPPORT. What ending a command and bringing its context up to date change: the command, the forms of its tiles, and
the scheduling state of its context. -/

namespace Sys2Proof.Machine

open Sys2Proof

-- Proofs one after another: the package compiles as one text under a memory limit.
set_option Elab.async false

variable {s t u : State} {c q : Nat}

/-! ## Commands of a context -/

theorem find_map_keep {α : Type} (p : α → Bool) (f : α → α) (hf : ∀ a, p (f a) = p a) (l : List α) :
    (l.map f).find? p = (l.find? p).map f := by
  induction l with
  | nil => rfl
  | cons a r ih =>
    simp only [List.map_cons, List.find?_cons, hf]
    split <;> simp_all

theorem modCmd_ctx_same (s : State) (c q : Nat) (f : Cmd → Cmd) :
    (modCmd c q f s).ctx c = { s.ctx c with cmds := (s.ctx c).cmds.map fun m => if m.seq = q then f m else m } :=
  State.modCtx_ctx_self ..

theorem modCmd_ctx_other (s : State) {c d : Nat} (q : Nat) (f : Cmd → Cmd) (h : d ≠ c) :
    (modCmd c q f s).ctx d = s.ctx d := State.modCtx_ctx_other _ _ h

/-- The changed command is found under its number, changed; every other is found as it was. -/
theorem getCmd_modCmd (s : State) (c q r : Nat) (f : Cmd → Cmd) (hf : ∀ m, (f m).seq = m.seq) :
    getCmd (modCmd c q f s) c r = (getCmd s c r).map fun m => if m.seq = q then f m else m := by
  unfold getCmd
  rw [modCmd_ctx_same]
  exact find_map_keep _ _ (fun m => by split <;> simp [hf]) _

theorem getCmd_seq (h : getCmd s c q = some m) : m.seq = q := by
  have := List.find?_some h
  simpa using this

theorem getCmd_modCmd_same (f : Cmd → Cmd) (hf : ∀ m, (f m).seq = m.seq) (h : getCmd s c q = some m) :
    getCmd (modCmd c q f s) c q = some (f m) := by
  rw [getCmd_modCmd _ _ _ _ _ hf, h, Option.map_some, if_pos (getCmd_seq h)]

/-! ## The forms of tiles -/

theorem fixForms_eq (gs : List Nat) (s : State) : fixForms gs s = { s with tiles := (fixForms gs s).tiles } := by
  unfold fixForms forAll
  induction gs generalizing s with
  | nil => rfl
  | cons g r ih => rw [List.foldl_cons, ih]; rfl

@[simp] theorem fixForms_ctxs (gs : List Nat) (s : State) : (fixForms gs s).ctxs = s.ctxs := by rw [fixForms_eq]

@[simp] theorem fixForms_ctx (gs : List Nat) (s : State) (d : Nat) : (fixForms gs s).ctx d = s.ctx d := by
  simp only [State.ctx, fixForms_ctxs]

@[simp] theorem fixForms_getCmd (gs : List Nat) (s : State) (d r : Nat) : getCmd (fixForms gs s) d r = getCmd s d r := by
  simp only [getCmd, fixForms_ctx]

/-! ## Ending a command -/

theorem finish_eq (c q : Nat) (st : Status) (dw : List Nat) (s : State) :
    finish c q st dw s = { s with
      ctxs := (finish c q st dw s).ctxs, tiles := (finish c q st dw s).tiles } := by
  unfold finish
  rw [fixForms_eq]
  rfl

theorem finish_ctx_same (c q : Nat) (st : Status) (dw : List Nat) (s : State) :
    (finish c q st dw s).ctx c = { s.ctx c with cmds := ((finish c q st dw s).ctx c).cmds } := by
  unfold finish
  rw [fixForms_ctx, modCmd_ctx_same]

theorem finish_ctx_other {d : Nat} (q : Nat) (st : Status) (dw : List Nat) (s : State) (h : d ≠ c) :
    (finish c q st dw s).ctx d = s.ctx d := by
  unfold finish
  rw [fixForms_ctx, modCmd_ctx_other _ _ _ h]

theorem finish_getCmd {m : Cmd} (st : Status) (dw : List Nat) (h : getCmd s c q = some m) :
    getCmd (finish c q st dw s) c q = some { m with phase := .done, status := st.code, dw := dw.map w32 } := by
  unfold finish
  rw [fixForms_getCmd]
  exact getCmd_modCmd_same _ (fun _ => rfl) h

theorem finish_ended {m : Cmd} (st : Status) (dw : List Nat) (h : getCmd s c q = some m) :
    Ended (finish c q st dw s) c q st dw := ⟨_, finish_getCmd st dw h, rfl, rfl, rfl⟩

theorem finishT_eq (c q : Nat) (st : Status) (dw : List Nat) (t : Tally) (s : State) :
    finishT c q st dw t s = { s with
      ctxs := (finishT c q st dw t s).ctxs, tiles := (finishT c q st dw t s).tiles } := by
  unfold finishT finishA
  rw [show ∀ (f : Cmd → Cmd) (x : State), modCmd c q f x = { x with ctxs := (modCmd c q f x).ctxs } from fun _ _ => rfl,
    finish_eq]

theorem finishT_ctx_same (c q : Nat) (st : Status) (dw : List Nat) (t : Tally) (s : State) :
    (finishT c q st dw t s).ctx c = { s.ctx c with cmds := ((finishT c q st dw t s).ctx c).cmds } := by
  unfold finishT finishA
  rw [modCmd_ctx_same, finish_ctx_same]

theorem finishT_ctx_other {d : Nat} (q : Nat) (st : Status) (dw : List Nat) (t : Tally) (s : State) (h : d ≠ c) :
    (finishT c q st dw t s).ctx d = s.ctx d := by
  unfold finishT finishA
  rw [modCmd_ctx_other _ _ _ h, finish_ctx_other _ _ _ _ h]

theorem finishT_getCmd {m : Cmd} (st : Status) (dw : List Nat) (t : Tally) (h : getCmd s c q = some m) :
    getCmd (finishT c q st dw t s) c q = some { m with
      phase := .done, status := st.code, dw := dw.map w32, aflags := BitVec.ofNat 8 t.aflags, aq := t.counts } := by
  unfold finishT finishA
  exact getCmd_modCmd_same (fun m => { m with aflags := BitVec.ofNat 8 t.aflags, aq := t.counts }) (fun _ => rfl)
    (finish_getCmd st dw h)

theorem finishT_ended {m : Cmd} (st : Status) (dw : List Nat) (t : Tally) (h : getCmd s c q = some m) :
    Ended (finishT c q st dw t s) c q st dw := ⟨_, finishT_getCmd st dw t h, rfl, rfl, rfl⟩

/-! ## Bringing a context up to date -/

theorem settle_eq (c : Nat) (s : State) : settle c s = { s with
    ctxs := (settle c s).ctxs, env := { s.env with fetchStamp := (settle c s).env.fetchStamp } } := by
  unfold settle
  dsimp only
  split <;> rfl

theorem settle_ctx_other {d : Nat} (s : State) (h : d ≠ c) : (settle c s).ctx d = s.ctx d := by
  unfold settle
  dsimp only
  split
  · rfl
  · exact State.setCtx_ctx_other _ _ h

/-- Only the state, the blocked stamps and the runnable mark of the context move. -/
theorem settle_ctx_same (c : Nat) (s : State) : (settle c s).ctx c = { s.ctx c with
    reg := { (s.ctx c).reg with
      st := ((settle c s).ctx c).reg.st, geobound := ((settle c s).ctx c).reg.geobound,
      blockedAt := ((settle c s).ctx c).reg.blockedAt },
    sched := { (s.ctx c).sched with
      blockedStamp := ((settle c s).ctx c).sched.blockedStamp, runnableAt := ((settle c s).ctx c).sched.runnableAt } } := by
  unfold settle
  extract_lets x st g1 x1 stamp g2 g3 x2 g4 x3
  split
  · rfl
  · have h2 : ∃ a b, x2 = { x1 with
        reg := { x1.reg with blockedAt := a }, sched := { x1.sched with blockedStamp := b } } := by
      unfold x2
      split
      · split <;> exact ⟨_, _, rfl⟩
      · exact ⟨_, _, rfl⟩
    have h3 : ∃ a, x3 = { x2 with sched := { x2.sched with runnableAt := a } } := by
      unfold x3
      split <;> (try split) <;> (try split) <;> exact ⟨_, rfl⟩
    obtain ⟨a, b, h2⟩ := h2
    obtain ⟨e, h3⟩ := h3
    show (s.setCtx c x3).ctx c = { s.ctx c with
      reg := { (s.ctx c).reg with
        st := ((s.setCtx c x3).ctx c).reg.st, geobound := ((s.setCtx c x3).ctx c).reg.geobound,
        blockedAt := ((s.setCtx c x3).ctx c).reg.blockedAt },
      sched := { (s.ctx c).sched with
        blockedStamp := ((s.setCtx c x3).ctx c).sched.blockedStamp,
        runnableAt := ((s.setCtx c x3).ctx c).sched.runnableAt } }
    rw [State.setCtx_ctx_self, h3, h2]

theorem settle_getCmd (s : State) (c d r : Nat) : getCmd (settle c s) d r = getCmd s d r := by
  unfold getCmd
  by_cases h : d = c
  · subst h; rw [settle_ctx_same]
  · rw [settle_ctx_other _ h]

end Sys2Proof.Machine
end

