-- ==== Sys2Proof/Laws/Work.lean ====
section
/-! SUPPORT. What a data command's work changes, said once: its own writes to the memories, the integrity records of the
granules written, and the end of the command. -/

namespace Sys2Proof.Machine

open Sys2Proof

-- Proofs one after another: the package compiles as one text under a memory limit.
set_option Elab.async false

variable {s t : State} {c q : Nat}

theorem putWr_eq (s : State) (w : Wr) : putWr s w = { s with
    env := { s.env with hostMem := (putWr s w).env.hostMem }, bankMem := (putWr s w).bankMem,
    hbm := { s.hbm with mem := (putWr s w).hbm.mem } } := by
  unfold putWr
  dsimp only
  split <;> rfl

theorem cellGet_putWr (s : State) (w : Wr) (x : CellAt) : cellGet (putWr s w) x =
    if w.cell = x then (cellGet s x &&& ~~~w.mask) ||| (w.val &&& w.mask) else cellGet s x := by
  obtain ⟨⟨sp, k⟩, mk, v⟩ := w
  obtain ⟨sq, j⟩ := x
  simp only [putWr, CellAt.mk.injEq]
  cases sp <;> cases sq <;> simp only [cellGet, mget_mput, reduceCtorEq, false_and, true_and, if_false]
  all_goals
    by_cases h : j = k
    · subst h; simp
    · simp [h, Ne.symm h]

theorem cellGet_foldl_putWr (ws : List Wr) (s : State) (x : CellAt) :
    cellGet (ws.foldl putWr s) x = merged ws x (cellGet s x) := by
  unfold merged
  induction ws generalizing s with
  | nil => rfl
  | cons w r ih => rw [List.foldl_cons, List.foldl_cons, ih, cellGet_putWr]

theorem markSpans_eq (key : KeyOwner) (das : List Nat) (s : State) : markSpans key das s = { s with
    hbm := { s.hbm with recs := (markSpans key das s).hbm.recs } } := by
  unfold markSpans forAll
  generalize spansOf s das = l
  induction l generalizing s with
  | nil => rfl
  | cons a r ih =>
    rw [List.foldl_cons, ih]
    rfl

theorem foldl_putWr_eq (ws : List Wr) (s : State) : ws.foldl putWr s = { s with
    env := { s.env with hostMem := (ws.foldl putWr s).env.hostMem }, bankMem := (ws.foldl putWr s).bankMem,
    hbm := { s.hbm with mem := (ws.foldl putWr s).hbm.mem } } := by
  induction ws generalizing s with
  | nil => rfl
  | cons w r ih =>
    rw [List.foldl_cons, ih, putWr_eq]

/-- Every byte after a command's writes. -/
theorem cellGet_applyWrs (c : Nat) (ws : List Wr) (s : State) (x : CellAt) :
    cellGet (applyWrs c ws s) x = merged ws x (cellGet s x) := by
  unfold applyWrs
  rw [cellGet_foldl_putWr, markSpans_eq]
  rfl

theorem applyWrs_eq (c : Nat) (ws : List Wr) (s : State) : applyWrs c ws s = { s with
    env := { s.env with hostMem := (applyWrs c ws s).env.hostMem }, bankMem := (applyWrs c ws s).bankMem,
    hbm := { s.hbm with mem := (applyWrs c ws s).hbm.mem, recs := (applyWrs c ws s).hbm.recs } } := by
  unfold applyWrs
  rw [foldl_putWr_eq, markSpans_eq]

theorem merged_nil (x : CellAt) (v : Byte) : merged [] x v = v := rfl

/-- A cell that no write names keeps its byte. -/
theorem merged_outside (ws : List Wr) (x : CellAt) (v : Byte) (h : ∀ w ∈ ws, w.cell ≠ x) : merged ws x v = v := by
  unfold merged
  induction ws generalizing v with
  | nil => rfl
  | cons w r ih =>
    rw [List.foldl_cons, if_neg (h w (by simp))]
    exact ih _ fun w' h' => h w' (by simp [h'])

/-- A command whose accesses all succeed does its work. -/
theorem Work.run_ok (w : Work) (more : State → State) (h : accFail s c w.rd w.wrs w.accs = Option.none) :
    w.run c q more s = finishT c q .ok w.dw w.t (more (useFree w.free (applyWrs c w.wrs s))) := by
  unfold Work.run runCmd
  rw [h]

/-- A command whose accesses fail ends as the failure says. -/
theorem Work.run_fail (w : Work) (more : State → State) (x : AccFail) (h : accFail s c w.rd w.wrs w.accs = some x) :
    w.run c q more s = failCmd c q x s := by
  unfold Work.run runCmd
  rw [h]

/-- What the work of a command without further effects leaves behind. -/
theorem Work.run_worked {m : Cmd} (w : Work) (hm : getCmd s c q = some m) (h : accFail s c w.rd w.wrs w.accs = Option.none) :
    Worked w c q s (w.run c q id s) := by
  rw [w.run_ok id h]
  have e := applyWrs_eq c w.wrs s
  have hc : ∀ d, (useFree w.free (applyWrs c w.wrs s)).ctx d = s.ctx d := fun d => by
    show (applyWrs c w.wrs s).ctx d = _
    rw [e]; rfl
  have hg : getCmd (useFree w.free (applyWrs c w.wrs s)) c q = some m := by
    unfold getCmd at *; rw [hc]; exact hm
  refine ⟨⟨_, finishT_getCmd _ _ _ hg, rfl, rfl, rfl, rfl, rfl⟩, fun x => ?_, ⟨?_, fun d hd => ?_⟩, ?_⟩
  · rw [finishT_eq]; exact cellGet_applyWrs c w.wrs s x
  · rw [finishT_ctx_same]; simp only [id, hc]
  · rw [finishT_ctx_other _ _ _ _ _ hd]; exact hc d
  · rw [finishT_eq]
    simp only [id, useFree]
    rw [e]

end Sys2Proof.Machine
end

