-- ==== Sys2Proof/Laws/Follow.lean ====
section
/-! SUPPORT. Ending a command and bringing a context up to date, as the statements name them. -/

namespace Sys2Proof.Machine

open Sys2Proof

-- Proofs one after another: the package compiles as one text under a memory limit.
set_option Elab.async false

variable {s t u : State} {c q : Nat}

theorem fixForms_tile (gs : List Nat) (s : State) (g : Nat) : (fixForms gs s).tile g = { s.tile g with
    form := ((fixForms gs s).tile g).form, busy := ((fixForms gs s).tile g).busy,
    gated := ((fixForms gs s).tile g).gated } := by
  unfold fixForms forAll
  induction gs generalizing s with
  | nil => rfl
  | cons a r ih =>
    rw [List.foldl_cons, ih]
    by_cases h : g = a
    · subst h; simp
    · rw [State.modTile_tile_other _ _ h]

theorem finish_others (c q r : Nat) (st : Status) (dw : List Nat) (s : State) (h : r ≠ q) :
    getCmd (finish c q st dw s) c r = getCmd s c r := by
  unfold finish
  rw [fixForms_getCmd,
    getCmd_modCmd s c q r (fun m => { m with phase := .done, status := st.code, dw := dw.map w32 }) (fun _ => rfl)]
  cases e : getCmd s c r with
  | none => rfl
  | some m => rw [Option.map_some, if_neg (by rw [getCmd_seq e]; exact h)]

theorem finished_finish {m : Cmd} (st : Status) (dw : List Nat) (h : getCmd s c q = some m) :
    Finished c q st dw s (finish c q st dw s) where
  ended := ⟨m, h, finish_getCmd st dw h⟩
  others r hr := finish_others c q r st dw s hr
  cmds := ⟨finish_ctx_same .., fun _ hd => finish_ctx_other _ _ _ _ hd⟩
  tiles g := by unfold finish; rw [fixForms_tile]; rfl
  rest := finish_eq ..

theorem refreshed_settle (c : Nat) (s : State) : Refreshed c s (settle c s) :=
  ⟨settle_ctx_same .., fun _ h => settle_ctx_other _ h, settle_eq ..⟩

theorem running?_getCmd {m : Cmd} (h : running? s c q = some m) : getCmd s c q = some m := by
  unfold running? at h
  split at h
  · split at h <;> simp_all
  · cases h

theorem modCmd_others (s : State) {q r : Nat} (c : Nat) (f : Cmd → Cmd) (hf : ∀ m, (f m).seq = m.seq) (h : r ≠ q) :
    getCmd (modCmd c q f s) c r = getCmd s c r := by
  rw [getCmd_modCmd _ _ _ _ _ hf]
  cases e : getCmd s c r with
  | none => rfl
  | some m => rw [Option.map_some, if_neg (by rw [getCmd_seq e]; exact h)]

theorem acted_setActed {m : Cmd} (h : getCmd s c q = some m) : Acted c q s (setActed c q s) where
  acted := ⟨m, h, getCmd_modCmd_same (fun m => { m with phase := .acted }) (fun _ => rfl) h⟩
  others _ hr := modCmd_others _ _ (fun m => { m with phase := .acted }) (fun _ => rfl) hr
  cmds := by
    refine ⟨?_, fun _ hd => modCmd_ctx_other _ _ _ hd⟩
    unfold setActed
    rw [modCmd_ctx_same]
  rest := rfl

/-! ## Association lists -/

@[simp] theorem aget_nil {α : Type} (k : Nat) : aget ([] : List (Nat × α)) k = none := rfl

theorem aget_cons {α : Type} (i : Nat) (v : α) (r : List (Nat × α)) (k : Nat) :
    aget ((i, v) :: r) k = if i = k then some v else aget r k := by
  unfold aget
  rw [List.find?_cons]
  by_cases h : i = k
  · simp [h]
  · simp [h, show (i == k) = false from by simp [h]]

theorem aget_adel {α : Type} (l : List (Nat × α)) (k j : Nat) :
    aget (adel l k) j = if j = k then none else aget l j := by
  induction l with
  | nil => simp [adel, tdel]
  | cons p r ih =>
    obtain ⟨i, v⟩ := p
    have e : adel ((i, v) :: r) k = if i = k then adel r k else (i, v) :: adel r k := by
      unfold adel tdel
      rw [List.filter_cons]
      by_cases h : i = k <;> simp [h]
    rw [e, aget_cons]
    by_cases h : i = k
    · rw [if_pos h, ih]
      by_cases hj : j = k
      · rw [if_pos hj, if_pos hj]
      · rw [if_neg hj, if_neg hj, if_neg (fun e => hj (by omega))]
    · rw [if_neg h, aget_cons, ih]
      by_cases hj : i = j
      · rw [if_pos hj, if_pos hj, if_neg (by omega)]
      · rw [if_neg hj, if_neg hj]

theorem aget_tins {α : Type} (l : List (Nat × α)) (k : Nat) (v : α) (j : Nat) (h : aget l k = none) :
    aget (tins k v l) j = if j = k then some v else aget l j := by
  induction l with
  | nil => simp [tins, aget_cons, eq_comm]
  | cons p r ih =>
    obtain ⟨i, w⟩ := p
    rw [aget_cons] at h
    have hi : i ≠ k := by rintro rfl; simp at h
    rw [if_neg hi] at h
    unfold tins
    split
    · rw [aget_cons]; simp [eq_comm]
    · rw [aget_cons, aget_cons, ih h]
      by_cases hij : i = j
      · rw [if_pos hij, if_pos hij, if_neg (by omega)]
      · rw [if_neg hij, if_neg hij]

theorem aget_aput {α : Type} (l : List (Nat × α)) (k : Nat) (v : α) (j : Nat) :
    aget (aput l k v) j = if j = k then some v else aget l j := by
  have h := aget_adel l k k
  rw [if_pos rfl] at h
  have e : aput l k v = tins k v (adel l k) := rfl
  rw [e, aget_tins _ _ _ _ h, aget_adel]
  split <;> rfl

end Sys2Proof.Machine
end

