-- ==== Sys2Proof/Laws/KeepsOps.lean ====
section
/-! SUPPORT. What every operation and meaning of Machine/Ops.lean keeps: the queue, the canonical form, what lasts, and every part
of the state outside its own list. -/

set_option linter.unreachableTactic false
set_option linter.unusedTactic false
set_option linter.unusedVariables false
set_option linter.tactic.unusedName false

namespace Sys2Proof.Machine

open Sys2Proof

-- Proofs one after another: the package compiles as one text under a memory limit.
set_option Elab.async false

variable {F : List SField} {s t : State}

theorem keeps_hostWrite (h : Keeps F s t) :
    ∀ x1 x2 x3, (hF : [SField.env, .hostMem] ⊆ F := by assumption) →
    Keeps F s (hostWrite t x1 x2 x3) := by
  intro x1 x2 x3 hF
  have b_env : SField.env ∈ F := hF (by decide)
  have b_hostMem : SField.hostMem ∈ F := hF (by decide)
  unfold hostWrite
  split
  · exact h
  · exact h.memory (Memory.wf_mwrite _ _) id id id

theorem keeps_sendMsi (h : Keeps F s t) :
    ∀ x0 x1, (hF : [SField.env, .pcie, .funcs] ⊆ F := by assumption) →
    Keeps F s (sendMsi x0 x1 t) := by
  intro x0 x1 hF
  have b_env : SField.env ∈ F := hF (by decide)
  have b_pcie : SField.pcie ∈ F := hF (by decide)
  have b_funcs : SField.funcs ∈ F := hF (by decide)
  unfold sendMsi
  repeat'
    first
    | with_reducible assumption | with_reducible apply Keeps.modFn
    | split | with_reducible refine Keeps.light ?_ rfl rfl rfl rfl

theorem keeps_evqSignal (h : Keeps F s t) :
    ∀ x0, (hF : [SField.env, .pcie, .funcs] ⊆ F := by assumption) →
    Keeps F s (evqSignal x0 t) := by
  intro x0 hF
  have b_funcs : SField.funcs ∈ F := hF (by decide)
  have f_sendMsi : [SField.env, .pcie, .funcs] ⊆ F := List.Subset.trans (by decide) hF
  unfold evqSignal
  repeat'
    first
    | with_reducible assumption | with_reducible apply keeps_sendMsi | with_reducible apply Keeps.setFn
    | (extract_lets +onlyGivenNames x
       refine Keeps.cut (u := x) ?_ fun hx => ?_
       (on_goal 1 => unfold x)
       (on_goal 2 => (clear_value x; rename' x => y)))
    | (extract_lets +onlyGivenNames x; refine Keeps.keepEnv x ?_; rename' x => y)
    | (extract_lets +onlyGivenNames x; refine Keeps.keepSec x ?_; rename' x => y)
    | (extract_lets +onlyGivenNames x; refine Keeps.keepArm x ?_; rename' x => y)
    | (extract_lets +onlyGivenNames x; refine Keeps.keepMeter x ?_; rename' x => y)
    | (extract_lets +onlyGivenNames x; clear_value x; rename' x => y)
    | split | with_reducible refine Keeps.light ?_ rfl rfl rfl rfl

theorem keeps_evLost (h : Keeps F s t) :
    ∀ x0 x1, (hF : [SField.funcs] ⊆ F := by assumption) →
    Keeps F s (evLost x0 x1 t) := by
  intro x0 x1 hF
  have b_funcs : SField.funcs ∈ F := hF (by decide)
  unfold evLost
  repeat'
    first
    | with_reducible assumption | with_reducible apply Keeps.modFn
    | (extract_lets +onlyGivenNames x
       refine Keeps.cut (u := x) ?_ fun hx => ?_
       (on_goal 1 => unfold x)
       (on_goal 2 => (clear_value x; rename' x => y)))
    | (extract_lets +onlyGivenNames x; refine Keeps.keepEnv x ?_; rename' x => y)
    | (extract_lets +onlyGivenNames x; refine Keeps.keepSec x ?_; rename' x => y)
    | (extract_lets +onlyGivenNames x; refine Keeps.keepArm x ?_; rename' x => y)
    | (extract_lets +onlyGivenNames x; refine Keeps.keepMeter x ?_; rename' x => y)
    | (extract_lets +onlyGivenNames x; clear_value x; rename' x => y)
    | split | with_reducible refine Keeps.light ?_ rfl rfl rfl rfl

theorem keeps_evPut (h : Keeps F s t) :
    ∀ x0 x1 x2 x3 x4, (hF : [SField.env, .hostMem, .pcie, .funcs] ⊆ F := by assumption) →
    Keeps F s (evPut x0 x1 x2 x3 x4 t) := by
  intro x0 x1 x2 x3 x4 hF
  have b_funcs : SField.funcs ∈ F := hF (by decide)
  have f_evLost : [SField.funcs] ⊆ F := List.Subset.trans (by decide) hF
  have f_evqSignal : [SField.env, .pcie, .funcs] ⊆ F := List.Subset.trans (by decide) hF
  have f_hostWrite : [SField.env, .hostMem] ⊆ F := List.Subset.trans (by decide) hF
  unfold evPut
  repeat'
    first
    | with_reducible assumption | with_reducible apply keeps_evLost | with_reducible apply keeps_evqSignal
    | with_reducible apply Keeps.setFn | with_reducible apply keeps_hostWrite
    | (extract_lets +onlyGivenNames x
       refine Keeps.cut (u := x) ?_ fun hx => ?_
       (on_goal 1 => unfold x)
       (on_goal 2 => (clear_value x; rename' x => y)))
    | (extract_lets +onlyGivenNames x; refine Keeps.keepEnv x ?_; rename' x => y)
    | (extract_lets +onlyGivenNames x; refine Keeps.keepSec x ?_; rename' x => y)
    | (extract_lets +onlyGivenNames x; refine Keeps.keepArm x ?_; rename' x => y)
    | (extract_lets +onlyGivenNames x; refine Keeps.keepMeter x ?_; rename' x => y)
    | (extract_lets +onlyGivenNames x; clear_value x; rename' x => y)
    | split | with_reducible refine Keeps.light ?_ rfl rfl rfl rfl

theorem keeps_evOverflow (h : Keeps F s t) :
    ∀ x0, (hF : [SField.env, .hostMem, .pcie, .funcs] ⊆ F := by assumption) →
    Keeps F s (evOverflow x0 t) := by
  intro x0 hF
  have b_funcs : SField.funcs ∈ F := hF (by decide)
  have f_evPut : [SField.env, .hostMem, .pcie, .funcs] ⊆ F := List.Subset.trans (by decide) hF
  unfold evOverflow
  repeat'
    first
    | with_reducible assumption | with_reducible apply keeps_evPut | with_reducible apply Keeps.modFn
    | with_reducible apply Keeps.setFn
    | (extract_lets +onlyGivenNames x
       refine Keeps.cut (u := x) ?_ fun hx => ?_
       (on_goal 1 => unfold x)
       (on_goal 2 => (clear_value x; rename' x => y)))
    | (extract_lets +onlyGivenNames x; refine Keeps.keepEnv x ?_; rename' x => y)
    | (extract_lets +onlyGivenNames x; refine Keeps.keepSec x ?_; rename' x => y)
    | (extract_lets +onlyGivenNames x; refine Keeps.keepArm x ?_; rename' x => y)
    | (extract_lets +onlyGivenNames x; refine Keeps.keepMeter x ?_; rename' x => y)
    | (extract_lets +onlyGivenNames x; clear_value x; rename' x => y)
    | split

theorem keeps_postRaw (h : Keeps F s t) :
    ∀ x0 x1 x2 x3 x4, (hF : [SField.env, .hostMem, .pcie, .funcs] ⊆ F := by assumption) →
    Keeps F s (postRaw x0 x1 x2 x3 x4 t) := by
  intro x0 x1 x2 x3 x4 hF
  have f_evOverflow : [SField.env, .hostMem, .pcie, .funcs] ⊆ F := List.Subset.trans (by decide) hF
  have f_evPut : [SField.env, .hostMem, .pcie, .funcs] ⊆ F := List.Subset.trans (by decide) hF
  have f_evLost : [SField.funcs] ⊆ F := List.Subset.trans (by decide) hF
  unfold postRaw
  repeat'
    first
    | with_reducible assumption | with_reducible apply keeps_evOverflow | with_reducible apply keeps_evPut
    | with_reducible apply keeps_evLost
    | (extract_lets +onlyGivenNames x
       refine Keeps.cut (u := x) ?_ fun hx => ?_
       (on_goal 1 => unfold x)
       (on_goal 2 => (clear_value x; rename' x => y)))
    | (extract_lets +onlyGivenNames x; refine Keeps.keepEnv x ?_; rename' x => y)
    | (extract_lets +onlyGivenNames x; refine Keeps.keepSec x ?_; rename' x => y)
    | (extract_lets +onlyGivenNames x; refine Keeps.keepArm x ?_; rename' x => y)
    | (extract_lets +onlyGivenNames x; refine Keeps.keepMeter x ?_; rename' x => y)
    | (extract_lets +onlyGivenNames x; clear_value x; rename' x => y)
    | split | with_reducible refine Keeps.light ?_ rfl rfl rfl rfl

theorem keeps_postFuel (h : Keeps F s t) :
    ∀ x0 x1 x2 x3 x4 x5, (hF : [SField.env, .hostMem, .pcie, .funcs] ⊆ F := by assumption) →
    Keeps F s (postFuel x0 x1 x2 x3 x4 x5 t) := by
  intro x0 x1 x2 x3 x4 x5 hF
  have f_postRaw : [SField.env, .hostMem, .pcie, .funcs] ⊆ F := List.Subset.trans (by decide) hF
  revert x0 x1 x2 x3 x4 x5
  intro n
  induction n generalizing t with
  | zero => intros; exact keeps_postRaw h _ _ _ _ _
  | succ n ih =>
    intros
    simp only [postFuel]
    split <;> split <;> (repeat' first | apply ih | exact keeps_postRaw h _ _ _ _ _)

theorem keeps_post (h : Keeps F s t) :
    ∀ x0 x1 x2 x3 x4, (hF : [SField.env, .hostMem, .pcie, .funcs] ⊆ F := by assumption) →
    Keeps F s (post x0 x1 x2 x3 x4 t) := by
  intro x0 x1 x2 x3 x4 hF
  have b_pcie : SField.pcie ∈ F := hF (by decide)
  have f_postFuel : [SField.env, .hostMem, .pcie, .funcs] ⊆ F := List.Subset.trans (by decide) hF
  unfold post
  repeat'
    first
    | with_reducible assumption | with_reducible apply keeps_postFuel
    | split | with_reducible refine Keeps.light ?_ rfl rfl rfl rfl

theorem keeps_payOverflow (h : Keeps F s t) :
    ∀ x0, (hF : [SField.env, .hostMem, .pcie, .funcs] ⊆ F := by assumption) →
    Keeps F s (payOverflow x0 t) := by
  intro x0 hF
  have f_evOverflow : [SField.env, .hostMem, .pcie, .funcs] ⊆ F := List.Subset.trans (by decide) hF
  have f_post : [SField.env, .hostMem, .pcie, .funcs] ⊆ F := List.Subset.trans (by decide) hF
  unfold payOverflow
  repeat'
    first
    | with_reducible assumption | with_reducible apply keeps_evOverflow | with_reducible apply keeps_post
    | (extract_lets +onlyGivenNames x
       refine Keeps.cut (u := x) ?_ fun hx => ?_
       (on_goal 1 => unfold x)
       (on_goal 2 => (clear_value x; rename' x => y)))
    | (extract_lets +onlyGivenNames x; refine Keeps.keepEnv x ?_; rename' x => y)
    | (extract_lets +onlyGivenNames x; refine Keeps.keepSec x ?_; rename' x => y)
    | (extract_lets +onlyGivenNames x; refine Keeps.keepArm x ?_; rename' x => y)
    | (extract_lets +onlyGivenNames x; refine Keeps.keepMeter x ?_; rename' x => y)
    | (extract_lets +onlyGivenNames x; clear_value x; rename' x => y)
    | split

theorem keeps_postBoth (h : Keeps F s t) :
    ∀ x0 x1 x2 x3 x4, (hF : [SField.env, .hostMem, .pcie, .funcs] ⊆ F := by assumption) →
    Keeps F s (postBoth x0 x1 x2 x3 x4 t) := by
  intro x0 x1 x2 x3 x4 hF
  have f_post : [SField.env, .hostMem, .pcie, .funcs] ⊆ F := List.Subset.trans (by decide) hF
  unfold postBoth
  repeat'
    first
    | with_reducible assumption | with_reducible apply keeps_post
    | (extract_lets +onlyGivenNames x
       refine Keeps.cut (u := x) ?_ fun hx => ?_
       (on_goal 1 => unfold x)
       (on_goal 2 => (clear_value x; rename' x => y)))
    | (extract_lets +onlyGivenNames x; refine Keeps.keepEnv x ?_; rename' x => y)
    | (extract_lets +onlyGivenNames x; refine Keeps.keepSec x ?_; rename' x => y)
    | (extract_lets +onlyGivenNames x; refine Keeps.keepArm x ?_; rename' x => y)
    | (extract_lets +onlyGivenNames x; refine Keeps.keepMeter x ?_; rename' x => y)
    | (extract_lets +onlyGivenNames x; clear_value x; rename' x => y)
    | split | with_reducible refine Keeps.light ?_ rfl rfl rfl rfl

theorem keeps_regEdge (h : Keeps F s t) :
    ∀ x0 x1 x2 x3, (hF : [SField.env, .hostMem, .pcie, .funcs] ⊆ F := by assumption) →
    Keeps F s (regEdge x0 x1 x2 x3 t) := by
  intro x0 x1 x2 x3 hF
  have f_post : [SField.env, .hostMem, .pcie, .funcs] ⊆ F := List.Subset.trans (by decide) hF
  unfold regEdge
  repeat'
    first
    | with_reducible assumption | with_reducible (refine Keeps.forAll ?_ _ _ fun _ _ _ => ?_)
    | with_reducible apply keeps_post
    | (extract_lets +onlyGivenNames x
       refine Keeps.cut (u := x) ?_ fun hx => ?_
       (on_goal 1 => unfold x)
       (on_goal 2 => (clear_value x; rename' x => y)))
    | (extract_lets +onlyGivenNames x; refine Keeps.keepEnv x ?_; rename' x => y)
    | (extract_lets +onlyGivenNames x; refine Keeps.keepSec x ?_; rename' x => y)
    | (extract_lets +onlyGivenNames x; refine Keeps.keepArm x ?_; rename' x => y)
    | (extract_lets +onlyGivenNames x; refine Keeps.keepMeter x ?_; rename' x => y)
    | (extract_lets +onlyGivenNames x; clear_value x; rename' x => y)
    | split | with_reducible refine Keeps.light ?_ rfl rfl rfl rfl

theorem keeps_pkgEvent (h : Keeps F s t) :
    ∀ x0, (hF : [SField.env, .hostMem, .pkg, .pcie, .funcs] ⊆ F := by assumption) →
    Keeps F s (pkgEvent x0 t) := by
  intro x0 hF
  have b_pkg : SField.pkg ∈ F := hF (by decide)
  have f_regEdge : [SField.env, .hostMem, .pcie, .funcs] ⊆ F := List.Subset.trans (by decide) hF
  unfold pkgEvent
  repeat'
    first
    | with_reducible assumption | with_reducible apply keeps_regEdge
    | (extract_lets +onlyGivenNames x
       refine Keeps.cut (u := x) ?_ fun hx => ?_
       (on_goal 1 => unfold x)
       (on_goal 2 => (clear_value x; rename' x => y)))
    | (extract_lets +onlyGivenNames x; refine Keeps.keepEnv x ?_; rename' x => y)
    | (extract_lets +onlyGivenNames x; refine Keeps.keepSec x ?_; rename' x => y)
    | (extract_lets +onlyGivenNames x; refine Keeps.keepArm x ?_; rename' x => y)
    | (extract_lets +onlyGivenNames x; refine Keeps.keepMeter x ?_; rename' x => y)
    | (extract_lets +onlyGivenNames x; clear_value x; rename' x => y)
    | split | with_reducible refine Keeps.light ?_ rfl rfl rfl rfl

theorem keeps_pcieEvent (h : Keeps F s t) :
    ∀ x0, (hF : [SField.env, .hostMem, .pcie, .funcs] ⊆ F := by assumption) →
    Keeps F s (pcieEvent x0 t) := by
  intro x0 hF
  have b_pcie : SField.pcie ∈ F := hF (by decide)
  have f_regEdge : [SField.env, .hostMem, .pcie, .funcs] ⊆ F := List.Subset.trans (by decide) hF
  unfold pcieEvent
  repeat'
    first
    | with_reducible assumption | with_reducible apply keeps_regEdge
    | (extract_lets +onlyGivenNames x
       refine Keeps.cut (u := x) ?_ fun hx => ?_
       (on_goal 1 => unfold x)
       (on_goal 2 => (clear_value x; rename' x => y)))
    | (extract_lets +onlyGivenNames x; refine Keeps.keepEnv x ?_; rename' x => y)
    | (extract_lets +onlyGivenNames x; refine Keeps.keepSec x ?_; rename' x => y)
    | (extract_lets +onlyGivenNames x; refine Keeps.keepArm x ?_; rename' x => y)
    | (extract_lets +onlyGivenNames x; refine Keeps.keepMeter x ?_; rename' x => y)
    | (extract_lets +onlyGivenNames x; clear_value x; rename' x => y)
    | split | with_reducible refine Keeps.light ?_ rfl rfl rfl rfl

theorem keeps_secEvent (h : Keeps F s t) :
    ∀ x0, (hF : [SField.env, .hostMem, .pcie, .sec, .funcs] ⊆ F := by assumption) →
    Keeps F s (secEvent x0 t) := by
  intro x0 hF
  have b_sec : SField.sec ∈ F := hF (by decide)
  have f_regEdge : [SField.env, .hostMem, .pcie, .funcs] ⊆ F := List.Subset.trans (by decide) hF
  unfold secEvent
  repeat'
    first
    | with_reducible assumption | with_reducible apply keeps_regEdge
    | (extract_lets +onlyGivenNames x
       refine Keeps.cut (u := x) ?_ fun hx => ?_
       (on_goal 1 => unfold x)
       (on_goal 2 => (clear_value x; rename' x => y)))
    | (extract_lets +onlyGivenNames x; refine Keeps.keepEnv x ?_; rename' x => y)
    | (extract_lets +onlyGivenNames x; refine Keeps.keepSec x ?_; rename' x => y)
    | (extract_lets +onlyGivenNames x; refine Keeps.keepArm x ?_; rename' x => y)
    | (extract_lets +onlyGivenNames x; refine Keeps.keepMeter x ?_; rename' x => y)
    | (extract_lets +onlyGivenNames x; clear_value x; rename' x => y)
    | split | with_reducible refine Keeps.light ?_ rfl rfl rfl rfl

theorem keeps_armEvent (h : Keeps F s t) :
    ∀ x0, (hF : [SField.env, .hostMem, .pcie, .arm, .funcs] ⊆ F := by assumption) →
    Keeps F s (armEvent x0 t) := by
  intro x0 hF
  have b_arm : SField.arm ∈ F := hF (by decide)
  have f_regEdge : [SField.env, .hostMem, .pcie, .funcs] ⊆ F := List.Subset.trans (by decide) hF
  unfold armEvent
  repeat'
    first
    | with_reducible assumption | with_reducible apply keeps_regEdge
    | (extract_lets +onlyGivenNames x
       refine Keeps.cut (u := x) ?_ fun hx => ?_
       (on_goal 1 => unfold x)
       (on_goal 2 => (clear_value x; rename' x => y)))
    | (extract_lets +onlyGivenNames x; refine Keeps.keepEnv x ?_; rename' x => y)
    | (extract_lets +onlyGivenNames x; refine Keeps.keepSec x ?_; rename' x => y)
    | (extract_lets +onlyGivenNames x; refine Keeps.keepArm x ?_; rename' x => y)
    | (extract_lets +onlyGivenNames x; refine Keeps.keepMeter x ?_; rename' x => y)
    | (extract_lets +onlyGivenNames x; clear_value x; rename' x => y)
    | split | with_reducible refine Keeps.light ?_ rfl rfl rfl rfl

theorem keeps_mtrEvent (h : Keeps F s t) :
    ∀ x0, (hF : [SField.env, .hostMem, .pcie, .mtr, .funcs] ⊆ F := by assumption) →
    Keeps F s (mtrEvent x0 t) := by
  intro x0 hF
  have b_mtr : SField.mtr ∈ F := hF (by decide)
  have f_regEdge : [SField.env, .hostMem, .pcie, .funcs] ⊆ F := List.Subset.trans (by decide) hF
  unfold mtrEvent
  repeat'
    first
    | with_reducible assumption | with_reducible apply keeps_regEdge
    | (extract_lets +onlyGivenNames x
       refine Keeps.cut (u := x) ?_ fun hx => ?_
       (on_goal 1 => unfold x)
       (on_goal 2 => (clear_value x; rename' x => y)))
    | (extract_lets +onlyGivenNames x; refine Keeps.keepEnv x ?_; rename' x => y)
    | (extract_lets +onlyGivenNames x; refine Keeps.keepSec x ?_; rename' x => y)
    | (extract_lets +onlyGivenNames x; refine Keeps.keepArm x ?_; rename' x => y)
    | (extract_lets +onlyGivenNames x; refine Keeps.keepMeter x ?_; rename' x => y)
    | (extract_lets +onlyGivenNames x; clear_value x; rename' x => y)
    | split | with_reducible refine Keeps.light ?_ rfl rfl rfl rfl

theorem keeps_pkcEvent (h : Keeps F s t) :
    ∀ x0, (hF : [SField.env, .hostMem, .pcie, .pkc, .funcs] ⊆ F := by assumption) →
    Keeps F s (pkcEvent x0 t) := by
  intro x0 hF
  have b_pkc : SField.pkc ∈ F := hF (by decide)
  have f_regEdge : [SField.env, .hostMem, .pcie, .funcs] ⊆ F := List.Subset.trans (by decide) hF
  unfold pkcEvent
  repeat'
    first
    | with_reducible assumption | with_reducible apply keeps_regEdge
    | (extract_lets +onlyGivenNames x
       refine Keeps.cut (u := x) ?_ fun hx => ?_
       (on_goal 1 => unfold x)
       (on_goal 2 => (clear_value x; rename' x => y)))
    | (extract_lets +onlyGivenNames x; refine Keeps.keepEnv x ?_; rename' x => y)
    | (extract_lets +onlyGivenNames x; refine Keeps.keepSec x ?_; rename' x => y)
    | (extract_lets +onlyGivenNames x; refine Keeps.keepArm x ?_; rename' x => y)
    | (extract_lets +onlyGivenNames x; refine Keeps.keepMeter x ?_; rename' x => y)
    | (extract_lets +onlyGivenNames x; clear_value x; rename' x => y)
    | split | with_reducible refine Keeps.light ?_ rfl rfl rfl rfl

theorem keeps_pseqEvent (h : Keeps F s t) :
    ∀ x0 x1, (hF : [SField.env, .hostMem, .pcie, .parts2, .funcs] ⊆ F := by assumption) →
    Keeps F s (pseqEvent x0 x1 t) := by
  intro x0 x1 hF
  have b_parts2 : SField.parts2 ∈ F := hF (by decide)
  have f_regEdge : [SField.env, .hostMem, .pcie, .funcs] ⊆ F := List.Subset.trans (by decide) hF
  unfold pseqEvent
  repeat'
    first
    | with_reducible assumption | with_reducible apply keeps_regEdge | with_reducible apply Keeps.modPart2
    | (extract_lets +onlyGivenNames x
       refine Keeps.cut (u := x) ?_ fun hx => ?_
       (on_goal 1 => unfold x)
       (on_goal 2 => (clear_value x; rename' x => y)))
    | (extract_lets +onlyGivenNames x; refine Keeps.keepEnv x ?_; rename' x => y)
    | (extract_lets +onlyGivenNames x; refine Keeps.keepSec x ?_; rename' x => y)
    | (extract_lets +onlyGivenNames x; refine Keeps.keepArm x ?_; rename' x => y)
    | (extract_lets +onlyGivenNames x; refine Keeps.keepMeter x ?_; rename' x => y)
    | (extract_lets +onlyGivenNames x; clear_value x; rename' x => y)
    | split | with_reducible refine Keeps.light ?_ rfl rfl rfl rfl

theorem keeps_kvEvent (h : Keeps F s t) :
    ∀ x0 x1, (hF : [SField.env, .hostMem, .pcie, .parts2, .funcs] ⊆ F := by assumption) →
    Keeps F s (kvEvent x0 x1 t) := by
  intro x0 x1 hF
  have b_parts2 : SField.parts2 ∈ F := hF (by decide)
  have f_regEdge : [SField.env, .hostMem, .pcie, .funcs] ⊆ F := List.Subset.trans (by decide) hF
  unfold kvEvent
  repeat'
    first
    | with_reducible assumption | with_reducible apply keeps_regEdge | with_reducible apply Keeps.modPart2
    | (extract_lets +onlyGivenNames x
       refine Keeps.cut (u := x) ?_ fun hx => ?_
       (on_goal 1 => unfold x)
       (on_goal 2 => (clear_value x; rename' x => y)))
    | (extract_lets +onlyGivenNames x; refine Keeps.keepEnv x ?_; rename' x => y)
    | (extract_lets +onlyGivenNames x; refine Keeps.keepSec x ?_; rename' x => y)
    | (extract_lets +onlyGivenNames x; refine Keeps.keepArm x ?_; rename' x => y)
    | (extract_lets +onlyGivenNames x; refine Keeps.keepMeter x ?_; rename' x => y)
    | (extract_lets +onlyGivenNames x; clear_value x; rename' x => y)
    | split | with_reducible refine Keeps.light ?_ rfl rfl rfl rfl

theorem keeps_schedEvent (h : Keeps F s t) :
    ∀ x0 x1, (hF : [SField.env, .hostMem, .pcie, .parts2, .funcs] ⊆ F := by assumption) →
    Keeps F s (schedEvent x0 x1 t) := by
  intro x0 x1 hF
  have b_parts2 : SField.parts2 ∈ F := hF (by decide)
  have f_regEdge : [SField.env, .hostMem, .pcie, .funcs] ⊆ F := List.Subset.trans (by decide) hF
  unfold schedEvent
  repeat'
    first
    | with_reducible assumption | with_reducible apply keeps_regEdge | with_reducible apply Keeps.modPart2
    | (extract_lets +onlyGivenNames x
       refine Keeps.cut (u := x) ?_ fun hx => ?_
       (on_goal 1 => unfold x)
       (on_goal 2 => (clear_value x; rename' x => y)))
    | (extract_lets +onlyGivenNames x; refine Keeps.keepEnv x ?_; rename' x => y)
    | (extract_lets +onlyGivenNames x; refine Keeps.keepSec x ?_; rename' x => y)
    | (extract_lets +onlyGivenNames x; refine Keeps.keepArm x ?_; rename' x => y)
    | (extract_lets +onlyGivenNames x; refine Keeps.keepMeter x ?_; rename' x => y)
    | (extract_lets +onlyGivenNames x; clear_value x; rename' x => y)
    | split | with_reducible refine Keeps.light ?_ rfl rfl rfl rfl

theorem keeps_arrayEvent (h : Keeps F s t) :
    ∀ x0 x1, (hF : [SField.env, .hostMem, .pcie, .slabs, .funcs] ⊆ F := by assumption) →
    Keeps F s (arrayEvent x0 x1 t) := by
  intro x0 x1 hF
  have b_slabs : SField.slabs ∈ F := hF (by decide)
  have f_regEdge : [SField.env, .hostMem, .pcie, .funcs] ⊆ F := List.Subset.trans (by decide) hF
  unfold arrayEvent
  repeat'
    first
    | with_reducible assumption | with_reducible apply keeps_regEdge | with_reducible apply Keeps.modSlab
    | (extract_lets +onlyGivenNames x
       refine Keeps.cut (u := x) ?_ fun hx => ?_
       (on_goal 1 => unfold x)
       (on_goal 2 => (clear_value x; rename' x => y)))
    | (extract_lets +onlyGivenNames x; refine Keeps.keepEnv x ?_; rename' x => y)
    | (extract_lets +onlyGivenNames x; refine Keeps.keepSec x ?_; rename' x => y)
    | (extract_lets +onlyGivenNames x; refine Keeps.keepArm x ?_; rename' x => y)
    | (extract_lets +onlyGivenNames x; refine Keeps.keepMeter x ?_; rename' x => y)
    | (extract_lets +onlyGivenNames x; clear_value x; rename' x => y)
    | split | with_reducible refine Keeps.light ?_ rfl rfl rfl rfl

theorem keeps_vecEvent (h : Keeps F s t) :
    ∀ x0 x1, (hF : [SField.env, .hostMem, .pcie, .slabs, .funcs] ⊆ F := by assumption) →
    Keeps F s (vecEvent x0 x1 t) := by
  intro x0 x1 hF
  have b_slabs : SField.slabs ∈ F := hF (by decide)
  have f_regEdge : [SField.env, .hostMem, .pcie, .funcs] ⊆ F := List.Subset.trans (by decide) hF
  unfold vecEvent
  repeat'
    first
    | with_reducible assumption | with_reducible apply keeps_regEdge | with_reducible apply Keeps.modSlab
    | (extract_lets +onlyGivenNames x
       refine Keeps.cut (u := x) ?_ fun hx => ?_
       (on_goal 1 => unfold x)
       (on_goal 2 => (clear_value x; rename' x => y)))
    | (extract_lets +onlyGivenNames x; refine Keeps.keepEnv x ?_; rename' x => y)
    | (extract_lets +onlyGivenNames x; refine Keeps.keepSec x ?_; rename' x => y)
    | (extract_lets +onlyGivenNames x; refine Keeps.keepArm x ?_; rename' x => y)
    | (extract_lets +onlyGivenNames x; refine Keeps.keepMeter x ?_; rename' x => y)
    | (extract_lets +onlyGivenNames x; clear_value x; rename' x => y)
    | split | with_reducible refine Keeps.light ?_ rfl rfl rfl rfl

theorem keeps_bankEvent (h : Keeps F s t) :
    ∀ x0 x1, (hF : [SField.env, .hostMem, .pcie, .slabs2, .funcs] ⊆ F := by assumption) →
    Keeps F s (bankEvent x0 x1 t) := by
  intro x0 x1 hF
  have b_slabs2 : SField.slabs2 ∈ F := hF (by decide)
  have f_regEdge : [SField.env, .hostMem, .pcie, .funcs] ⊆ F := List.Subset.trans (by decide) hF
  unfold bankEvent
  repeat'
    first
    | with_reducible assumption | with_reducible apply keeps_regEdge | with_reducible apply Keeps.modSlab2
    | (extract_lets +onlyGivenNames x
       refine Keeps.cut (u := x) ?_ fun hx => ?_
       (on_goal 1 => unfold x)
       (on_goal 2 => (clear_value x; rename' x => y)))
    | (extract_lets +onlyGivenNames x; refine Keeps.keepEnv x ?_; rename' x => y)
    | (extract_lets +onlyGivenNames x; refine Keeps.keepSec x ?_; rename' x => y)
    | (extract_lets +onlyGivenNames x; refine Keeps.keepArm x ?_; rename' x => y)
    | (extract_lets +onlyGivenNames x; refine Keeps.keepMeter x ?_; rename' x => y)
    | (extract_lets +onlyGivenNames x; clear_value x; rename' x => y)
    | split | with_reducible refine Keeps.light ?_ rfl rfl rfl rfl

theorem keeps_hbmEvent (h : Keeps F s t) :
    ∀ x0 x1, (hF : [SField.env, .hostMem, .pcie, .slabs2, .funcs] ⊆ F := by assumption) →
    Keeps F s (hbmEvent x0 x1 t) := by
  intro x0 x1 hF
  have b_slabs2 : SField.slabs2 ∈ F := hF (by decide)
  have f_regEdge : [SField.env, .hostMem, .pcie, .funcs] ⊆ F := List.Subset.trans (by decide) hF
  unfold hbmEvent
  repeat'
    first
    | with_reducible assumption | with_reducible apply keeps_regEdge | with_reducible apply Keeps.modSlab2
    | (extract_lets +onlyGivenNames x
       refine Keeps.cut (u := x) ?_ fun hx => ?_
       (on_goal 1 => unfold x)
       (on_goal 2 => (clear_value x; rename' x => y)))
    | (extract_lets +onlyGivenNames x; refine Keeps.keepEnv x ?_; rename' x => y)
    | (extract_lets +onlyGivenNames x; refine Keeps.keepSec x ?_; rename' x => y)
    | (extract_lets +onlyGivenNames x; refine Keeps.keepArm x ?_; rename' x => y)
    | (extract_lets +onlyGivenNames x; refine Keeps.keepMeter x ?_; rename' x => y)
    | (extract_lets +onlyGivenNames x; clear_value x; rename' x => y)
    | split | with_reducible refine Keeps.light ?_ rfl rfl rfl rfl

theorem keeps_fabEvent (h : Keeps F s t) :
    ∀ x0 x1, (hF : [SField.env, .hostMem, .pcie, .slabs2, .funcs] ⊆ F := by assumption) →
    Keeps F s (fabEvent x0 x1 t) := by
  intro x0 x1 hF
  have b_slabs2 : SField.slabs2 ∈ F := hF (by decide)
  have f_regEdge : [SField.env, .hostMem, .pcie, .funcs] ⊆ F := List.Subset.trans (by decide) hF
  unfold fabEvent
  repeat'
    first
    | with_reducible assumption | with_reducible apply keeps_regEdge | with_reducible apply Keeps.modSlab2
    | (extract_lets +onlyGivenNames x
       refine Keeps.cut (u := x) ?_ fun hx => ?_
       (on_goal 1 => unfold x)
       (on_goal 2 => (clear_value x; rename' x => y)))
    | (extract_lets +onlyGivenNames x; refine Keeps.keepEnv x ?_; rename' x => y)
    | (extract_lets +onlyGivenNames x; refine Keeps.keepSec x ?_; rename' x => y)
    | (extract_lets +onlyGivenNames x; refine Keeps.keepArm x ?_; rename' x => y)
    | (extract_lets +onlyGivenNames x; refine Keeps.keepMeter x ?_; rename' x => y)
    | (extract_lets +onlyGivenNames x; clear_value x; rename' x => y)
    | split | with_reducible refine Keeps.light ?_ rfl rfl rfl rfl

theorem keeps_vcEvent (h : Keeps F s t) :
    ∀ x0 x1, (hF : [SField.env, .hostMem, .pcie, .slabs2, .funcs] ⊆ F := by assumption) →
    Keeps F s (vcEvent x0 x1 t) := by
  intro x0 x1 hF
  have b_slabs2 : SField.slabs2 ∈ F := hF (by decide)
  have f_regEdge : [SField.env, .hostMem, .pcie, .funcs] ⊆ F := List.Subset.trans (by decide) hF
  unfold vcEvent
  repeat'
    first
    | with_reducible assumption | with_reducible apply keeps_regEdge | with_reducible apply Keeps.modSlab2
    | (extract_lets +onlyGivenNames x
       refine Keeps.cut (u := x) ?_ fun hx => ?_
       (on_goal 1 => unfold x)
       (on_goal 2 => (clear_value x; rename' x => y)))
    | (extract_lets +onlyGivenNames x; refine Keeps.keepEnv x ?_; rename' x => y)
    | (extract_lets +onlyGivenNames x; refine Keeps.keepSec x ?_; rename' x => y)
    | (extract_lets +onlyGivenNames x; refine Keeps.keepArm x ?_; rename' x => y)
    | (extract_lets +onlyGivenNames x; refine Keeps.keepMeter x ?_; rename' x => y)
    | (extract_lets +onlyGivenNames x; clear_value x; rename' x => y)
    | split | with_reducible refine Keeps.light ?_ rfl rfl rfl rfl

theorem keeps_linkEvent (h : Keeps F s t) :
    ∀ x0 x1, (hF : [SField.env, .hostMem, .pcie, .ports, .funcs] ⊆ F := by assumption) →
    Keeps F s (linkEvent x0 x1 t) := by
  intro x0 x1 hF
  have b_ports : SField.ports ∈ F := hF (by decide)
  have f_regEdge : [SField.env, .hostMem, .pcie, .funcs] ⊆ F := List.Subset.trans (by decide) hF
  unfold linkEvent
  repeat'
    first
    | with_reducible assumption | with_reducible apply keeps_regEdge | with_reducible apply Keeps.modPort
    | (extract_lets +onlyGivenNames x
       refine Keeps.cut (u := x) ?_ fun hx => ?_
       (on_goal 1 => unfold x)
       (on_goal 2 => (clear_value x; rename' x => y)))
    | (extract_lets +onlyGivenNames x; refine Keeps.keepEnv x ?_; rename' x => y)
    | (extract_lets +onlyGivenNames x; refine Keeps.keepSec x ?_; rename' x => y)
    | (extract_lets +onlyGivenNames x; refine Keeps.keepArm x ?_; rename' x => y)
    | (extract_lets +onlyGivenNames x; refine Keeps.keepMeter x ?_; rename' x => y)
    | (extract_lets +onlyGivenNames x; clear_value x; rename' x => y)
    | split | with_reducible refine Keeps.light ?_ rfl rfl rfl rfl

theorem keeps_drainPort (h : Keeps F s t) :
    ∀ x0, (hF : [SField.ports, .ports2] ⊆ F := by assumption) →
    Keeps F s (drainPort x0 t) := by
  intro x0 hF
  have b_ports : SField.ports ∈ F := hF (by decide)
  have b_ports2 : SField.ports2 ∈ F := hF (by decide)
  unfold drainPort
  repeat'
    first
    | with_reducible assumption | with_reducible apply Keeps.modPort | with_reducible apply Keeps.modPort2
    | (extract_lets +onlyGivenNames x
       refine Keeps.cut (u := x) ?_ fun hx => ?_
       (on_goal 1 => unfold x)
       (on_goal 2 => (clear_value x; rename' x => y)))
    | (extract_lets +onlyGivenNames x; refine Keeps.keepEnv x ?_; rename' x => y)
    | (extract_lets +onlyGivenNames x; refine Keeps.keepSec x ?_; rename' x => y)
    | (extract_lets +onlyGivenNames x; refine Keeps.keepArm x ?_; rename' x => y)
    | (extract_lets +onlyGivenNames x; refine Keeps.keepMeter x ?_; rename' x => y)
    | (extract_lets +onlyGivenNames x; clear_value x; rename' x => y)
    | split

theorem keeps_sendSlots (h : Keeps F s t) :
    ∀ x0 x1 x2, (hF : [SField.ports, .ports2] ⊆ F := by assumption) →
    Keeps F s (sendSlots x0 x1 x2 t) := by
  intro x0 x1 x2 hF
  have b_ports2 : SField.ports2 ∈ F := hF (by decide)
  have f_drainPort : [SField.ports, .ports2] ⊆ F := List.Subset.trans (by decide) hF
  unfold sendSlots
  repeat'
    first
    | with_reducible assumption | with_reducible apply keeps_drainPort | with_reducible apply Keeps.modPort2
    | split

theorem keeps_closeNotice (h : Keeps F s t) :
    ∀ x0, (hF : [SField.ports, .ports2] ⊆ F := by assumption) →
    Keeps F s (closeNotice x0 t) := by
  intro x0 hF
  have f_sendSlots : [SField.ports, .ports2] ⊆ F := List.Subset.trans (by decide) hF
  unfold closeNotice
  repeat'
    first
    | with_reducible assumption | with_reducible apply keeps_sendSlots
    | split

theorem keeps_ringEvent (h : Keeps F s t) :
    ∀ x0 x1, (hF : [SField.env, .hostMem, .pcie, .ctxs, .funcs] ⊆ F := by assumption) →
    Keeps F s (ringEvent x0 x1 t) := by
  intro x0 x1 hF
  have b_ctxs : SField.ctxs ∈ F := hF (by decide)
  have f_regEdge : [SField.env, .hostMem, .pcie, .funcs] ⊆ F := List.Subset.trans (by decide) hF
  unfold ringEvent
  repeat'
    first
    | with_reducible assumption | with_reducible apply keeps_regEdge | with_reducible apply Keeps.modCtx
    | (extract_lets +onlyGivenNames x
       refine Keeps.cut (u := x) ?_ fun hx => ?_
       (on_goal 1 => unfold x)
       (on_goal 2 => (clear_value x; rename' x => y)))
    | (extract_lets +onlyGivenNames x; refine Keeps.keepEnv x ?_; rename' x => y)
    | (extract_lets +onlyGivenNames x; refine Keeps.keepSec x ?_; rename' x => y)
    | (extract_lets +onlyGivenNames x; refine Keeps.keepArm x ?_; rename' x => y)
    | (extract_lets +onlyGivenNames x; refine Keeps.keepMeter x ?_; rename' x => y)
    | (extract_lets +onlyGivenNames x; clear_value x; rename' x => y)
    | split | with_reducible refine Keeps.light ?_ rfl rfl rfl rfl

theorem keeps_ctxEvent (h : Keeps F s t) :
    ∀ x0 x1, (hF : [SField.env, .hostMem, .pcie, .ctxs, .funcs] ⊆ F := by assumption) →
    Keeps F s (ctxEvent x0 x1 t) := by
  intro x0 x1 hF
  have b_ctxs : SField.ctxs ∈ F := hF (by decide)
  have f_regEdge : [SField.env, .hostMem, .pcie, .funcs] ⊆ F := List.Subset.trans (by decide) hF
  unfold ctxEvent
  repeat'
    first
    | with_reducible assumption | with_reducible apply keeps_regEdge | with_reducible apply Keeps.modCtx
    | (extract_lets +onlyGivenNames x
       refine Keeps.cut (u := x) ?_ fun hx => ?_
       (on_goal 1 => unfold x)
       (on_goal 2 => (clear_value x; rename' x => y)))
    | (extract_lets +onlyGivenNames x; refine Keeps.keepEnv x ?_; rename' x => y)
    | (extract_lets +onlyGivenNames x; refine Keeps.keepSec x ?_; rename' x => y)
    | (extract_lets +onlyGivenNames x; refine Keeps.keepArm x ?_; rename' x => y)
    | (extract_lets +onlyGivenNames x; refine Keeps.keepMeter x ?_; rename' x => y)
    | (extract_lets +onlyGivenNames x; clear_value x; rename' x => y)
    | split | with_reducible refine Keeps.light ?_ rfl rfl rfl rfl

theorem keeps_fnEvent (h : Keeps F s t) :
    ∀ x0 x1, (hF : [SField.env, .hostMem, .pcie, .funcs] ⊆ F := by assumption) →
    Keeps F s (fnEvent x0 x1 t) := by
  intro x0 x1 hF
  have b_funcs : SField.funcs ∈ F := hF (by decide)
  have f_regEdge : [SField.env, .hostMem, .pcie, .funcs] ⊆ F := List.Subset.trans (by decide) hF
  unfold fnEvent
  repeat'
    first
    | with_reducible assumption | with_reducible apply keeps_regEdge | with_reducible apply Keeps.modFn
    | (extract_lets +onlyGivenNames x
       refine Keeps.cut (u := x) ?_ fun hx => ?_
       (on_goal 1 => unfold x)
       (on_goal 2 => (clear_value x; rename' x => y)))
    | (extract_lets +onlyGivenNames x; refine Keeps.keepEnv x ?_; rename' x => y)
    | (extract_lets +onlyGivenNames x; refine Keeps.keepSec x ?_; rename' x => y)
    | (extract_lets +onlyGivenNames x; refine Keeps.keepArm x ?_; rename' x => y)
    | (extract_lets +onlyGivenNames x; refine Keeps.keepMeter x ?_; rename' x => y)
    | (extract_lets +onlyGivenNames x; clear_value x; rename' x => y)
    | split | with_reducible refine Keeps.light ?_ rfl rfl rfl rfl

theorem keeps_modCmd (h : Keeps F s t) :
    ∀ x0 x1 x2, (hF : [SField.ctxs] ⊆ F := by assumption) →
    Keeps F s (modCmd x0 x1 x2 t) := by
  intro x0 x1 x2 hF
  have b_ctxs : SField.ctxs ∈ F := hF (by decide)
  unfold modCmd
  repeat'
    first
    | with_reducible assumption | with_reducible apply Keeps.modCtx
    | (extract_lets +onlyGivenNames x
       refine Keeps.cut (u := x) ?_ fun hx => ?_
       (on_goal 1 => unfold x)
       (on_goal 2 => (clear_value x; rename' x => y)))
    | (extract_lets +onlyGivenNames x; refine Keeps.keepEnv x ?_; rename' x => y)
    | (extract_lets +onlyGivenNames x; refine Keeps.keepSec x ?_; rename' x => y)
    | (extract_lets +onlyGivenNames x; refine Keeps.keepArm x ?_; rename' x => y)
    | (extract_lets +onlyGivenNames x; refine Keeps.keepMeter x ?_; rename' x => y)
    | (extract_lets +onlyGivenNames x; clear_value x; rename' x => y)
    | split | with_reducible refine Keeps.light ?_ rfl rfl rfl rfl

end Sys2Proof.Machine
end

