-- ==== Sys2Proof/Laws/KeepsRings.lean ====
section
/-! SUPPORT. What every operation and meaning of Machine/Rings.lean keeps: the queue, the canonical form, what lasts, and every part
of the state outside its own list. -/

set_option linter.unreachableTactic false
set_option linter.unusedTactic false
set_option linter.unusedVariables false
set_option linter.tactic.unusedName false

namespace Sys2Proof.Machine

open Sys2Proof

-- Proofs one after another: the package compiles as one text under a memory limit.
set_option Elab.async false

variable {F : List SField} {s t : State}

theorem keeps_settle (h : Keeps F s t) :
    ∀ x0, (hF : [SField.env, .ctxs] ⊆ F := by assumption) →
    Keeps F s (settle x0 t) := by
  intro x0 hF
  have b_env : SField.env ∈ F := hF (by decide)
  have b_ctxs : SField.ctxs ∈ F := hF (by decide)
  revert x0
  intro c
  unfold settle
  dsimp only
  split
  · exact h
  · have hu := fun x => h.setCtx c x
    with_reducible exact (hu _).light rfl rfl rfl rfl

theorem keeps_setSt (h : Keeps F s t) :
    ∀ x0 x1 x2, (hF : [SField.ctxs] ⊆ F := by assumption) →
    Keeps F s (setSt x0 x1 x2 t) := by
  intro x0 x1 x2 hF
  have b_ctxs : SField.ctxs ∈ F := hF (by decide)
  unfold setSt
  repeat'
    first
    | with_reducible assumption | with_reducible apply Keeps.modCtx
    | (extract_lets +onlyGivenNames x
       refine Keeps.cut (u := x) ?_ fun hx => ?_
       (on_goal 1 => unfold x)
       (on_goal 2 => (clear_value x; rename' x => y)))
    | (extract_lets +onlyGivenNames x; refine Keeps.keepEnv x ?_; rename' x => y)
    | (extract_lets +onlyGivenNames x; refine Keeps.keepSec x ?_; rename' x => y)
    | (extract_lets +onlyGivenNames x; refine Keeps.keepArm x ?_; rename' x => y)
    | (extract_lets +onlyGivenNames x; refine Keeps.keepMeter x ?_; rename' x => y)
    | (extract_lets +onlyGivenNames x; clear_value x; rename' x => y)
    | split | with_reducible refine Keeps.light ?_ rfl rfl rfl rfl

theorem keeps_fixForms (h : Keeps F s t) :
    ∀ x0, (hF : [SField.tiles] ⊆ F := by assumption) →
    Keeps F s (fixForms x0 t) := by
  intro x0 hF
  have b_tiles : SField.tiles ∈ F := hF (by decide)
  unfold fixForms
  repeat'
    first
    | with_reducible assumption | with_reducible (refine Keeps.forAll ?_ _ _ fun _ _ _ => ?_)
    | with_reducible apply Keeps.modTile
    | (extract_lets +onlyGivenNames x
       refine Keeps.cut (u := x) ?_ fun hx => ?_
       (on_goal 1 => unfold x)
       (on_goal 2 => (clear_value x; rename' x => y)))
    | (extract_lets +onlyGivenNames x; refine Keeps.keepEnv x ?_; rename' x => y)
    | (extract_lets +onlyGivenNames x; refine Keeps.keepSec x ?_; rename' x => y)
    | (extract_lets +onlyGivenNames x; refine Keeps.keepArm x ?_; rename' x => y)
    | (extract_lets +onlyGivenNames x; refine Keeps.keepMeter x ?_; rename' x => y)
    | (extract_lets +onlyGivenNames x; clear_value x; rename' x => y)
    | split | with_reducible refine Keeps.light ?_ rfl rfl rfl rfl

theorem keeps_finish (h : Keeps F s t) :
    ∀ x0 x1 x2 x3, (hF : [SField.tiles, .ctxs] ⊆ F := by assumption) →
    Keeps F s (finish x0 x1 x2 x3 t) := by
  intro x0 x1 x2 x3 hF
  have f_fixForms : [SField.tiles] ⊆ F := List.Subset.trans (by decide) hF
  have f_modCmd : [SField.ctxs] ⊆ F := List.Subset.trans (by decide) hF
  unfold finish
  repeat'
    first
    | with_reducible assumption | with_reducible apply keeps_fixForms | with_reducible apply keeps_modCmd
    | (extract_lets +onlyGivenNames x
       refine Keeps.cut (u := x) ?_ fun hx => ?_
       (on_goal 1 => unfold x)
       (on_goal 2 => (clear_value x; rename' x => y)))
    | (extract_lets +onlyGivenNames x; refine Keeps.keepEnv x ?_; rename' x => y)
    | (extract_lets +onlyGivenNames x; refine Keeps.keepSec x ?_; rename' x => y)
    | (extract_lets +onlyGivenNames x; refine Keeps.keepArm x ?_; rename' x => y)
    | (extract_lets +onlyGivenNames x; refine Keeps.keepMeter x ?_; rename' x => y)
    | (extract_lets +onlyGivenNames x; clear_value x; rename' x => y)
    | split | with_reducible refine Keeps.light ?_ rfl rfl rfl rfl

theorem keeps_finishA (h : Keeps F s t) :
    ∀ x0 x1 x2 x3 x4 x5, (hF : [SField.tiles, .ctxs] ⊆ F := by assumption) →
    Keeps F s (finishA x0 x1 x2 x3 x4 x5 t) := by
  intro x0 x1 x2 x3 x4 x5 hF
  have f_modCmd : [SField.ctxs] ⊆ F := List.Subset.trans (by decide) hF
  have f_finish : [SField.tiles, .ctxs] ⊆ F := List.Subset.trans (by decide) hF
  unfold finishA
  repeat'
    first
    | with_reducible assumption | with_reducible apply keeps_modCmd | with_reducible apply keeps_finish
    | (extract_lets +onlyGivenNames x
       refine Keeps.cut (u := x) ?_ fun hx => ?_
       (on_goal 1 => unfold x)
       (on_goal 2 => (clear_value x; rename' x => y)))
    | (extract_lets +onlyGivenNames x; refine Keeps.keepEnv x ?_; rename' x => y)
    | (extract_lets +onlyGivenNames x; refine Keeps.keepSec x ?_; rename' x => y)
    | (extract_lets +onlyGivenNames x; refine Keeps.keepArm x ?_; rename' x => y)
    | (extract_lets +onlyGivenNames x; refine Keeps.keepMeter x ?_; rename' x => y)
    | (extract_lets +onlyGivenNames x; clear_value x; rename' x => y)
    | split | with_reducible refine Keeps.light ?_ rfl rfl rfl rfl

theorem keeps_abortFetched (h : Keeps F s t) :
    ∀ x0, (hF : [SField.ctxs] ⊆ F := by assumption) →
    Keeps F s (abortFetched x0 t) := by
  intro x0 hF
  have b_ctxs : SField.ctxs ∈ F := hF (by decide)
  unfold abortFetched
  repeat'
    first
    | with_reducible assumption | with_reducible apply Keeps.modCtx
    | (extract_lets +onlyGivenNames x
       refine Keeps.cut (u := x) ?_ fun hx => ?_
       (on_goal 1 => unfold x)
       (on_goal 2 => (clear_value x; rename' x => y)))
    | (extract_lets +onlyGivenNames x; refine Keeps.keepEnv x ?_; rename' x => y)
    | (extract_lets +onlyGivenNames x; refine Keeps.keepSec x ?_; rename' x => y)
    | (extract_lets +onlyGivenNames x; refine Keeps.keepArm x ?_; rename' x => y)
    | (extract_lets +onlyGivenNames x; refine Keeps.keepMeter x ?_; rename' x => y)
    | (extract_lets +onlyGivenNames x; clear_value x; rename' x => y)
    | split | with_reducible refine Keeps.light ?_ rfl rfl rfl rfl

theorem keeps_cqDue (h : Keeps F s t) :
    ∀ x0 x1, (hF : [SField.env, .pcie, .ctxs, .funcs] ⊆ F := by assumption) →
    Keeps F s (cqDue x0 x1 t) := by
  intro x0 x1 hF
  have b_ctxs : SField.ctxs ∈ F := hF (by decide)
  have f_sendMsi : [SField.env, .pcie, .funcs] ⊆ F := List.Subset.trans (by decide) hF
  unfold cqDue
  repeat'
    first
    | with_reducible assumption | with_reducible apply keeps_sendMsi | with_reducible apply Keeps.setCtx
    | (extract_lets +onlyGivenNames x
       refine Keeps.cut (u := x) ?_ fun hx => ?_
       (on_goal 1 => unfold x)
       (on_goal 2 => (clear_value x; rename' x => y)))
    | (extract_lets +onlyGivenNames x; refine Keeps.keepEnv x ?_; rename' x => y)
    | (extract_lets +onlyGivenNames x; refine Keeps.keepSec x ?_; rename' x => y)
    | (extract_lets +onlyGivenNames x; refine Keeps.keepArm x ?_; rename' x => y)
    | (extract_lets +onlyGivenNames x; refine Keeps.keepMeter x ?_; rename' x => y)
    | (extract_lets +onlyGivenNames x; clear_value x; rename' x => y)
    | split

theorem keeps_cqSignal (h : Keeps F s t) :
    ∀ x0 x1, (hF : [SField.env, .pcie, .ctxs, .funcs] ⊆ F := by assumption) →
    Keeps F s (cqSignal x0 x1 t) := by
  intro x0 x1 hF
  have b_ctxs : SField.ctxs ∈ F := hF (by decide)
  have f_cqDue : [SField.env, .pcie, .ctxs, .funcs] ⊆ F := List.Subset.trans (by decide) hF
  unfold cqSignal
  repeat'
    first
    | with_reducible assumption | with_reducible apply keeps_cqDue | with_reducible apply Keeps.modCtx
    | split

theorem keeps_ringHalt (h : Keeps F s t) :
    ∀ x0 x1 x2, (hF : [SField.env, .hostMem, .pcie, .ctxs, .funcs] ⊆ F := by assumption) →
    Keeps F s (ringHalt x0 x1 x2 t) := by
  intro x0 x1 x2 hF
  have b_ctxs : SField.ctxs ∈ F := hF (by decide)
  have f_postBoth : [SField.env, .hostMem, .pcie, .funcs] ⊆ F := List.Subset.trans (by decide) hF
  unfold ringHalt
  repeat'
    first
    | with_reducible assumption | with_reducible apply Keeps.modCtx | with_reducible apply keeps_postBoth
    | (extract_lets +onlyGivenNames x
       refine Keeps.cut (u := x) ?_ fun hx => ?_
       (on_goal 1 => unfold x)
       (on_goal 2 => (clear_value x; rename' x => y)))
    | (extract_lets +onlyGivenNames x; refine Keeps.keepEnv x ?_; rename' x => y)
    | (extract_lets +onlyGivenNames x; refine Keeps.keepSec x ?_; rename' x => y)
    | (extract_lets +onlyGivenNames x; refine Keeps.keepArm x ?_; rename' x => y)
    | (extract_lets +onlyGivenNames x; refine Keeps.keepMeter x ?_; rename' x => y)
    | (extract_lets +onlyGivenNames x; clear_value x; rename' x => y)
    | split | with_reducible refine Keeps.light ?_ rfl rfl rfl rfl

theorem keeps_dropCmd (h : Keeps F s t) :
    ∀ x0 x1, (hF : [SField.ctxs] ⊆ F := by assumption) →
    Keeps F s (dropCmd x0 x1 t) := by
  intro x0 x1 hF
  have b_ctxs : SField.ctxs ∈ F := hF (by decide)
  unfold dropCmd
  repeat'
    first
    | with_reducible assumption | with_reducible apply Keeps.modCtx
    | (extract_lets +onlyGivenNames x
       refine Keeps.cut (u := x) ?_ fun hx => ?_
       (on_goal 1 => unfold x)
       (on_goal 2 => (clear_value x; rename' x => y)))
    | (extract_lets +onlyGivenNames x; refine Keeps.keepEnv x ?_; rename' x => y)
    | (extract_lets +onlyGivenNames x; refine Keeps.keepSec x ?_; rename' x => y)
    | (extract_lets +onlyGivenNames x; refine Keeps.keepArm x ?_; rename' x => y)
    | (extract_lets +onlyGivenNames x; refine Keeps.keepMeter x ?_; rename' x => y)
    | (extract_lets +onlyGivenNames x; clear_value x; rename' x => y)
    | split | with_reducible refine Keeps.light ?_ rfl rfl rfl rfl

theorem keeps_ringDead (h : Keeps F s t) :
    ∀ x0, (hF : [SField.env, .hostMem, .pcie, .ctxs, .funcs] ⊆ F := by assumption) →
    Keeps F s (ringDead x0 t) := by
  intro x0 hF
  have b_ctxs : SField.ctxs ∈ F := hF (by decide)
  have f_ringEvent : [SField.env, .hostMem, .pcie, .ctxs, .funcs] ⊆ F := List.Subset.trans (by decide) hF
  unfold ringDead
  repeat'
    first
    | with_reducible assumption | with_reducible apply keeps_ringEvent | with_reducible apply Keeps.modCtx
    | (extract_lets +onlyGivenNames x
       refine Keeps.cut (u := x) ?_ fun hx => ?_
       (on_goal 1 => unfold x)
       (on_goal 2 => (clear_value x; rename' x => y)))
    | (extract_lets +onlyGivenNames x; refine Keeps.keepEnv x ?_; rename' x => y)
    | (extract_lets +onlyGivenNames x; refine Keeps.keepSec x ?_; rename' x => y)
    | (extract_lets +onlyGivenNames x; refine Keeps.keepArm x ?_; rename' x => y)
    | (extract_lets +onlyGivenNames x; refine Keeps.keepMeter x ?_; rename' x => y)
    | (extract_lets +onlyGivenNames x; clear_value x; rename' x => y)
    | split | with_reducible refine Keeps.light ?_ rfl rfl rfl rfl

theorem keeps_writeRecord (h : Keeps F s t) :
    ∀ x0 x1, (hF : [SField.env, .hostMem, .pcie, .ctxs, .funcs] ⊆ F := by assumption) →
    Keeps F s (writeRecord x0 x1 t) := by
  intro x0 x1 hF
  have b_ctxs : SField.ctxs ∈ F := hF (by decide)
  have f_ringDead : [SField.env, .hostMem, .pcie, .ctxs, .funcs] ⊆ F := List.Subset.trans (by decide) hF
  have f_dropCmd : [SField.ctxs] ⊆ F := List.Subset.trans (by decide) hF
  have f_hostWrite : [SField.env, .hostMem] ⊆ F := List.Subset.trans (by decide) hF
  have f_cqSignal : [SField.env, .pcie, .ctxs, .funcs] ⊆ F := List.Subset.trans (by decide) hF
  have f_ringHalt : [SField.env, .hostMem, .pcie, .ctxs, .funcs] ⊆ F := List.Subset.trans (by decide) hF
  unfold writeRecord
  repeat'
    first
    | with_reducible assumption | with_reducible apply keeps_ringDead | with_reducible apply keeps_dropCmd
    | with_reducible apply keeps_hostWrite | with_reducible apply Keeps.modCtx | with_reducible apply keeps_cqSignal
    | with_reducible apply keeps_ringHalt
    | (extract_lets +onlyGivenNames x
       refine Keeps.cut (u := x) ?_ fun hx => ?_
       (on_goal 1 => unfold x)
       (on_goal 2 => (clear_value x; rename' x => y)))
    | (extract_lets +onlyGivenNames x; refine Keeps.keepEnv x ?_; rename' x => y)
    | (extract_lets +onlyGivenNames x; refine Keeps.keepSec x ?_; rename' x => y)
    | (extract_lets +onlyGivenNames x; refine Keeps.keepArm x ?_; rename' x => y)
    | (extract_lets +onlyGivenNames x; refine Keeps.keepMeter x ?_; rename' x => y)
    | (extract_lets +onlyGivenNames x; clear_value x; rename' x => y)
    | split | with_reducible refine Keeps.light ?_ rfl rfl rfl rfl

theorem keeps_recordCmd (h : Keeps F s t) :
    ∀ x0 x1, (hF : [SField.env, .hostMem, .pcie, .ctxs, .funcs] ⊆ F := by assumption) →
    Keeps F s (recordCmd x0 x1 t) := by
  intro x0 x1 hF
  have b_ctxs : SField.ctxs ∈ F := hF (by decide)
  have f_settle : [SField.env, .ctxs] ⊆ F := List.Subset.trans (by decide) hF
  have f_dropCmd : [SField.ctxs] ⊆ F := List.Subset.trans (by decide) hF
  have f_writeRecord : [SField.env, .hostMem, .pcie, .ctxs, .funcs] ⊆ F := List.Subset.trans (by decide) hF
  unfold recordCmd
  repeat'
    first
    | with_reducible assumption | with_reducible apply keeps_settle | with_reducible apply keeps_dropCmd
    | with_reducible apply keeps_writeRecord | with_reducible apply Keeps.modCtx
    | (extract_lets +onlyGivenNames x
       refine Keeps.cut (u := x) ?_ fun hx => ?_
       (on_goal 1 => unfold x)
       (on_goal 2 => (clear_value x; rename' x => y)))
    | (extract_lets +onlyGivenNames x; refine Keeps.keepEnv x ?_; rename' x => y)
    | (extract_lets +onlyGivenNames x; refine Keeps.keepSec x ?_; rename' x => y)
    | (extract_lets +onlyGivenNames x; refine Keeps.keepArm x ?_; rename' x => y)
    | (extract_lets +onlyGivenNames x; refine Keeps.keepMeter x ?_; rename' x => y)
    | (extract_lets +onlyGivenNames x; clear_value x; rename' x => y)
    | split

theorem keeps_holdRecord (h : Keeps F s t) :
    ∀ x0 x1, (hF : [SField.pcie] ⊆ F := by assumption) →
    Keeps F s (holdRecord x0 x1 t) := by
  intro x0 x1 hF
  have b_pcie : SField.pcie ∈ F := hF (by decide)
  unfold holdRecord
  repeat'
    first
    | with_reducible assumption
    | split | with_reducible refine Keeps.light ?_ rfl rfl rfl rfl

theorem keeps_execCommandComplete (h : Keeps F s t) :
    ∀ x0 x1, (hF : [SField.env, .hostMem, .pcie, .ctxs, .funcs] ⊆ F := by assumption) →
    Yields F s (execCommandComplete x0 x1 t) := by
  intro x0 x1 hF
  have f_recordCmd : [SField.env, .hostMem, .pcie, .ctxs, .funcs] ⊆ F := List.Subset.trans (by decide) hF
  have f_holdRecord : [SField.pcie] ⊆ F := List.Subset.trans (by decide) hF
  unfold execCommandComplete
  repeat'
    first
    | with_reducible assumption | with_reducible apply keeps_recordCmd | with_reducible apply keeps_holdRecord
    | with_reducible apply Yields.next
    | split

theorem keeps_execNop (h : Keeps F s t) :
    ∀ x0 x1, (hF : [SField.tiles, .ctxs] ⊆ F := by assumption) →
    Yields F s (execNop x0 x1 t) := by
  intro x0 x1 hF
  have f_finish : [SField.tiles, .ctxs] ⊆ F := List.Subset.trans (by decide) hF
  unfold execNop
  repeat'
    first
    | with_reducible assumption | with_reducible apply keeps_finish | with_reducible apply Yields.next
    | (extract_lets +onlyGivenNames x
       refine Yields.cut (u := x) ?_ fun hx => ?_
       (on_goal 1 => unfold x)
       (on_goal 2 => (clear_value x; rename' x => y)))
    | (extract_lets +onlyGivenNames x
       refine Keeps.cut (u := x) ?_ fun hx => ?_
       (on_goal 1 => unfold x)
       (on_goal 2 => (clear_value x; rename' x => y)))
    | (extract_lets +onlyGivenNames x; refine Keeps.keepEnv x ?_; rename' x => y)
    | (extract_lets +onlyGivenNames x; refine Keeps.keepSec x ?_; rename' x => y)
    | (extract_lets +onlyGivenNames x; refine Keeps.keepArm x ?_; rename' x => y)
    | (extract_lets +onlyGivenNames x; refine Keeps.keepMeter x ?_; rename' x => y)
    | (extract_lets +onlyGivenNames x; clear_value x; rename' x => y)
    | split | with_reducible refine Keeps.light ?_ rfl rfl rfl rfl

theorem keeps_execSqTail (h : Keeps F s t) :
    ∀ x0 x1 x2 x3, (hF : [SField.env, .hostMem, .pcie, .ctxs, .funcs] ⊆ F := by assumption) →
    Yields F s (execSqTail x0 x1 x2 x3 t) := by
  intro x0 x1 x2 x3 hF
  have b_env : SField.env ∈ F := hF (by decide)
  have b_hostMem : SField.hostMem ∈ F := hF (by decide)
  have b_ctxs : SField.ctxs ∈ F := hF (by decide)
  have f_settle : [SField.env, .ctxs] ⊆ F := List.Subset.trans (by decide) hF
  have f_ringEvent : [SField.env, .hostMem, .pcie, .ctxs, .funcs] ⊆ F := List.Subset.trans (by decide) hF
  revert x0 x1 x2 x3
  intro src page v cells
  unfold execSqTail
  extract_lets e u
  have hx : Keeps F s u := h.memory (Memory.wf_mwriteAll _) id id id
  clear_value u
  dsimp only
  split
  · exact Yields.next hx
  · split
    · exact Yields.next (keeps_settle (hx.setCtx _ _) _)
    · exact Yields.next (keeps_ringEvent hx _ _)

theorem keeps_execCqHead (h : Keeps F s t) :
    ∀ x0 x1 x2, (hF : [SField.env, .hostMem, .pcie, .ctxs, .funcs] ⊆ F := by assumption) →
    Yields F s (execCqHead x0 x1 x2 t) := by
  intro x0 x1 x2 hF
  have b_ctxs : SField.ctxs ∈ F := hF (by decide)
  have f_ringEvent : [SField.env, .hostMem, .pcie, .ctxs, .funcs] ⊆ F := List.Subset.trans (by decide) hF
  unfold execCqHead
  repeat'
    first
    | with_reducible assumption | with_reducible apply Keeps.setCtx | with_reducible apply keeps_ringEvent
    | with_reducible apply Yields.next
    | (extract_lets +onlyGivenNames x
       refine Yields.cut (u := x) ?_ fun hx => ?_
       (on_goal 1 => unfold x)
       (on_goal 2 => (clear_value x; rename' x => y)))
    | (extract_lets +onlyGivenNames x
       refine Keeps.cut (u := x) ?_ fun hx => ?_
       (on_goal 1 => unfold x)
       (on_goal 2 => (clear_value x; rename' x => y)))
    | (extract_lets +onlyGivenNames x; refine Keeps.keepEnv x ?_; rename' x => y)
    | (extract_lets +onlyGivenNames x; refine Keeps.keepSec x ?_; rename' x => y)
    | (extract_lets +onlyGivenNames x; refine Keeps.keepArm x ?_; rename' x => y)
    | (extract_lets +onlyGivenNames x; refine Keeps.keepMeter x ?_; rename' x => y)
    | (extract_lets +onlyGivenNames x; clear_value x; rename' x => y)
    | split | with_reducible refine Keeps.light ?_ rfl rfl rfl rfl

theorem keeps_fetchOne (h : Keeps F s t) :
    ∀ x0, (hF : [SField.env, .hostMem, .pcie, .winPeak, .parts2, .ctxs, .funcs] ⊆ F := by assumption) →
    Keeps F s (fetchOne x0 t) := by
  intro x0 hF
  have b_env : SField.env ∈ F := hF (by decide)
  have b_winPeak : SField.winPeak ∈ F := hF (by decide)
  have b_parts2 : SField.parts2 ∈ F := hF (by decide)
  have b_ctxs : SField.ctxs ∈ F := hF (by decide)
  have f_pseqEvent : [SField.env, .hostMem, .pcie, .parts2, .funcs] ⊆ F := List.Subset.trans (by decide) hF
  revert x0
  intro c
  unfold fetchOne
  split
  · extract_lets x q a stamp new e u fa r en ab v w p w' w'' full
    have hu : Keeps F s u := h.light rfl rfl rfl rfl
    have hv : Keeps F s v := by
      unfold v
      split <;> exact hu.setCtx _ _
    have hw : Keeps F s w := hv.light rfl rfl rfl rfl
    have hw' : Keeps F s w' := by
      unfold w'
      split
      · exact hw.modPart2 _ _
      · exact hw
    have hw'' : Keeps F s w'' := by
      unfold w''
      split
      · exact keeps_pseqEvent hw' _ _
      · exact hw'
    refine hw''.forAll _ _ fun p u hu => ?_
    split
    · exact keeps_pseqEvent hu _ _
    · exact hu
  · exact h

theorem keeps_fetchN (h : Keeps F s t) :
    ∀ x0 x1, (hF : [SField.env, .hostMem, .pcie, .winPeak, .parts2, .ctxs, .funcs] ⊆ F := by assumption) →
    Keeps F s (fetchN x0 x1 t) := by
  intro x0 x1 hF
  have f_fetchOne : [SField.env, .hostMem, .pcie, .winPeak, .parts2, .ctxs, .funcs] ⊆ F := List.Subset.trans (by
      decide) hF
  revert x0 x1
  intro c n
  induction n generalizing t with
  | zero => exact h
  | succ n ih => exact ih (keeps_fetchOne h c)

theorem keeps_execEntryFetch (h : Keeps F s t) :
    ∀ x0 x1, (hF : [SField.env, .hostMem, .pcie, .winPeak, .parts2, .ctxs, .funcs] ⊆ F := by assumption) →
    Yields F s (execEntryFetch x0 x1 t) := by
  intro x0 x1 hF
  have f_settle : [SField.env, .ctxs] ⊆ F := List.Subset.trans (by decide) hF
  have f_fetchN : [SField.env, .hostMem, .pcie, .winPeak, .parts2, .ctxs, .funcs] ⊆ F := List.Subset.trans (by
      decide) hF
  unfold execEntryFetch
  repeat'
    first
    | with_reducible assumption | with_reducible apply keeps_settle | with_reducible apply keeps_fetchN
    | with_reducible apply Yields.next
    | (extract_lets +onlyGivenNames x
       refine Yields.cut (u := x) ?_ fun hx => ?_
       (on_goal 1 => unfold x)
       (on_goal 2 => (clear_value x; rename' x => y)))
    | (extract_lets +onlyGivenNames x
       refine Keeps.cut (u := x) ?_ fun hx => ?_
       (on_goal 1 => unfold x)
       (on_goal 2 => (clear_value x; rename' x => y)))
    | (extract_lets +onlyGivenNames x; refine Keeps.keepEnv x ?_; rename' x => y)
    | (extract_lets +onlyGivenNames x; refine Keeps.keepSec x ?_; rename' x => y)
    | (extract_lets +onlyGivenNames x; refine Keeps.keepArm x ?_; rename' x => y)
    | (extract_lets +onlyGivenNames x; refine Keeps.keepMeter x ?_; rename' x => y)
    | (extract_lets +onlyGivenNames x; clear_value x; rename' x => y)
    | split | with_reducible refine Keeps.light ?_ rfl rfl rfl rfl

theorem keeps_execRingEnable (h : Keeps F s t) :
    ∀ x0 x1, (hF : [SField.env, .hostMem, .pcie, .ctxs, .funcs] ⊆ F := by assumption) →
    Yields F s (execRingEnable x0 x1 t) := by
  intro x0 x1 hF
  have b_ctxs : SField.ctxs ∈ F := hF (by decide)
  have f_ringEvent : [SField.env, .hostMem, .pcie, .ctxs, .funcs] ⊆ F := List.Subset.trans (by decide) hF
  have f_settle : [SField.env, .ctxs] ⊆ F := List.Subset.trans (by decide) hF
  unfold execRingEnable
  repeat'
    first
    | with_reducible assumption | with_reducible apply keeps_ringEvent | with_reducible apply keeps_settle
    | with_reducible apply Keeps.setCtx | with_reducible apply Yields.next
    | (extract_lets +onlyGivenNames x
       refine Yields.cut (u := x) ?_ fun hx => ?_
       (on_goal 1 => unfold x)
       (on_goal 2 => (clear_value x; rename' x => y)))
    | (extract_lets +onlyGivenNames x
       refine Keeps.cut (u := x) ?_ fun hx => ?_
       (on_goal 1 => unfold x)
       (on_goal 2 => (clear_value x; rename' x => y)))
    | (extract_lets +onlyGivenNames x; refine Keeps.keepEnv x ?_; rename' x => y)
    | (extract_lets +onlyGivenNames x; refine Keeps.keepSec x ?_; rename' x => y)
    | (extract_lets +onlyGivenNames x; refine Keeps.keepArm x ?_; rename' x => y)
    | (extract_lets +onlyGivenNames x; refine Keeps.keepMeter x ?_; rename' x => y)
    | (extract_lets +onlyGivenNames x; clear_value x; rename' x => y)
    | split

theorem keeps_execRingDisable (h : Keeps F s t) :
    ∀ x0 x1, (hF : [SField.env, .ctxs] ⊆ F := by assumption) →
    Yields F s (execRingDisable x0 x1 t) := by
  intro x0 x1 hF
  have b_ctxs : SField.ctxs ∈ F := hF (by decide)
  have f_settle : [SField.env, .ctxs] ⊆ F := List.Subset.trans (by decide) hF
  have f_abortFetched : [SField.ctxs] ⊆ F := List.Subset.trans (by decide) hF
  unfold execRingDisable
  repeat'
    first
    | with_reducible assumption | with_reducible apply keeps_settle | with_reducible apply keeps_abortFetched
    | with_reducible apply Keeps.modCtx | with_reducible apply Yields.next
    | split

theorem keeps_execRingDrained (h : Keeps F s t) :
    ∀ x0, (hF : [SField.env, .ctxs] ⊆ F := by assumption) →
    Yields F s (execRingDrained x0 t) := by
  intro x0 hF
  have b_ctxs : SField.ctxs ∈ F := hF (by decide)
  have f_settle : [SField.env, .ctxs] ⊆ F := List.Subset.trans (by decide) hF
  unfold execRingDrained
  repeat'
    first
    | with_reducible assumption | with_reducible apply keeps_settle | with_reducible apply Keeps.setCtx
    | with_reducible apply Yields.next
    | (extract_lets +onlyGivenNames x
       refine Yields.cut (u := x) ?_ fun hx => ?_
       (on_goal 1 => unfold x)
       (on_goal 2 => (clear_value x; rename' x => y)))
    | (extract_lets +onlyGivenNames x
       refine Keeps.cut (u := x) ?_ fun hx => ?_
       (on_goal 1 => unfold x)
       (on_goal 2 => (clear_value x; rename' x => y)))
    | (extract_lets +onlyGivenNames x; refine Keeps.keepEnv x ?_; rename' x => y)
    | (extract_lets +onlyGivenNames x; refine Keeps.keepSec x ?_; rename' x => y)
    | (extract_lets +onlyGivenNames x; refine Keeps.keepArm x ?_; rename' x => y)
    | (extract_lets +onlyGivenNames x; refine Keeps.keepMeter x ?_; rename' x => y)
    | (extract_lets +onlyGivenNames x; clear_value x; rename' x => y)
    | split

theorem keeps_ackHalts (h : Keeps F s t) :
    ∀ x0, (hF : [SField.ctxs] ⊆ F := by assumption) →
    Keeps F s (ackHalts x0 t) := by
  intro x0 hF
  have b_ctxs : SField.ctxs ∈ F := hF (by decide)
  unfold ackHalts
  repeat'
    first
    | with_reducible assumption | with_reducible apply Keeps.modCtx
    | (extract_lets +onlyGivenNames x
       refine Keeps.cut (u := x) ?_ fun hx => ?_
       (on_goal 1 => unfold x)
       (on_goal 2 => (clear_value x; rename' x => y)))
    | (extract_lets +onlyGivenNames x; refine Keeps.keepEnv x ?_; rename' x => y)
    | (extract_lets +onlyGivenNames x; refine Keeps.keepSec x ?_; rename' x => y)
    | (extract_lets +onlyGivenNames x; refine Keeps.keepArm x ?_; rename' x => y)
    | (extract_lets +onlyGivenNames x; refine Keeps.keepMeter x ?_; rename' x => y)
    | (extract_lets +onlyGivenNames x; clear_value x; rename' x => y)
    | split | with_reducible refine Keeps.light ?_ rfl rfl rfl rfl

theorem keeps_execRingAckContinue (h : Keeps F s t) :
    ∀ x0 x1, (hF : [SField.env, .hostMem, .pcie, .ctxs, .funcs] ⊆ F := by assumption) →
    Yields F s (execRingAckContinue x0 x1 t) := by
  intro x0 x1 hF
  have f_settle : [SField.env, .ctxs] ⊆ F := List.Subset.trans (by decide) hF
  have f_ackHalts : [SField.ctxs] ⊆ F := List.Subset.trans (by decide) hF
  have f_ringEvent : [SField.env, .hostMem, .pcie, .ctxs, .funcs] ⊆ F := List.Subset.trans (by decide) hF
  unfold execRingAckContinue
  repeat'
    first
    | with_reducible assumption | with_reducible apply keeps_settle | with_reducible apply keeps_ackHalts
    | with_reducible apply keeps_ringEvent | with_reducible apply Yields.next
    | (extract_lets +onlyGivenNames x
       refine Yields.cut (u := x) ?_ fun hx => ?_
       (on_goal 1 => unfold x)
       (on_goal 2 => (clear_value x; rename' x => y)))
    | (extract_lets +onlyGivenNames x
       refine Keeps.cut (u := x) ?_ fun hx => ?_
       (on_goal 1 => unfold x)
       (on_goal 2 => (clear_value x; rename' x => y)))
    | (extract_lets +onlyGivenNames x; refine Keeps.keepEnv x ?_; rename' x => y)
    | (extract_lets +onlyGivenNames x; refine Keeps.keepSec x ?_; rename' x => y)
    | (extract_lets +onlyGivenNames x; refine Keeps.keepArm x ?_; rename' x => y)
    | (extract_lets +onlyGivenNames x; refine Keeps.keepMeter x ?_; rename' x => y)
    | (extract_lets +onlyGivenNames x; clear_value x; rename' x => y)
    | split | with_reducible refine Keeps.light ?_ rfl rfl rfl rfl

theorem keeps_execRingAckFlush (h : Keeps F s t) :
    ∀ x0 x1, (hF : [SField.env, .hostMem, .pcie, .ctxs, .funcs] ⊆ F := by assumption) →
    Yields F s (execRingAckFlush x0 x1 t) := by
  intro x0 x1 hF
  have b_ctxs : SField.ctxs ∈ F := hF (by decide)
  have f_settle : [SField.env, .ctxs] ⊆ F := List.Subset.trans (by decide) hF
  have f_abortFetched : [SField.ctxs] ⊆ F := List.Subset.trans (by decide) hF
  have f_ackHalts : [SField.ctxs] ⊆ F := List.Subset.trans (by decide) hF
  have f_ringEvent : [SField.env, .hostMem, .pcie, .ctxs, .funcs] ⊆ F := List.Subset.trans (by decide) hF
  unfold execRingAckFlush
  repeat'
    first
    | with_reducible assumption | with_reducible apply keeps_settle | with_reducible apply keeps_abortFetched
    | with_reducible apply keeps_ackHalts | with_reducible apply Keeps.modCtx | with_reducible apply keeps_ringEvent
    | with_reducible apply Yields.next
    | (extract_lets +onlyGivenNames x
       refine Yields.cut (u := x) ?_ fun hx => ?_
       (on_goal 1 => unfold x)
       (on_goal 2 => (clear_value x; rename' x => y)))
    | (extract_lets +onlyGivenNames x
       refine Keeps.cut (u := x) ?_ fun hx => ?_
       (on_goal 1 => unfold x)
       (on_goal 2 => (clear_value x; rename' x => y)))
    | (extract_lets +onlyGivenNames x; refine Keeps.keepEnv x ?_; rename' x => y)
    | (extract_lets +onlyGivenNames x; refine Keeps.keepSec x ?_; rename' x => y)
    | (extract_lets +onlyGivenNames x; refine Keeps.keepArm x ?_; rename' x => y)
    | (extract_lets +onlyGivenNames x; refine Keeps.keepMeter x ?_; rename' x => y)
    | (extract_lets +onlyGivenNames x; clear_value x; rename' x => y)
    | split | with_reducible refine Keeps.light ?_ rfl rfl rfl rfl

theorem keeps_execCqIrqTimeout (h : Keeps F s t) :
    ∀ x0, (hF : [SField.env, .pcie, .ctxs, .funcs] ⊆ F := by assumption) →
    Yields F s (execCqIrqTimeout x0 t) := by
  intro x0 hF
  have b_ctxs : SField.ctxs ∈ F := hF (by decide)
  have b_funcs : SField.funcs ∈ F := hF (by decide)
  have f_sendMsi : [SField.env, .pcie, .funcs] ⊆ F := List.Subset.trans (by decide) hF
  unfold execCqIrqTimeout
  repeat'
    first
    | with_reducible assumption | with_reducible apply keeps_sendMsi | with_reducible apply Keeps.setCtx
    | with_reducible apply Keeps.setFn | with_reducible apply Yields.next
    | (extract_lets +onlyGivenNames x
       refine Yields.cut (u := x) ?_ fun hx => ?_
       (on_goal 1 => unfold x)
       (on_goal 2 => (clear_value x; rename' x => y)))
    | (extract_lets +onlyGivenNames x
       refine Keeps.cut (u := x) ?_ fun hx => ?_
       (on_goal 1 => unfold x)
       (on_goal 2 => (clear_value x; rename' x => y)))
    | (extract_lets +onlyGivenNames x; refine Keeps.keepEnv x ?_; rename' x => y)
    | (extract_lets +onlyGivenNames x; refine Keeps.keepSec x ?_; rename' x => y)
    | (extract_lets +onlyGivenNames x; refine Keeps.keepArm x ?_; rename' x => y)
    | (extract_lets +onlyGivenNames x; refine Keeps.keepMeter x ?_; rename' x => y)
    | (extract_lets +onlyGivenNames x; clear_value x; rename' x => y)
    | split | with_reducible refine Keeps.light ?_ rfl rfl rfl rfl

theorem keeps_execEvqEnable (h : Keeps F s t) :
    ∀ x0 x1, (hF : [SField.env, .hostMem, .pcie, .funcs] ⊆ F := by assumption) →
    Yields F s (execEvqEnable x0 x1 t) := by
  intro x0 x1 hF
  have b_funcs : SField.funcs ∈ F := hF (by decide)
  have f_payOverflow : [SField.env, .hostMem, .pcie, .funcs] ⊆ F := List.Subset.trans (by decide) hF
  have f_fnEvent : [SField.env, .hostMem, .pcie, .funcs] ⊆ F := List.Subset.trans (by decide) hF
  unfold execEvqEnable
  repeat'
    first
    | with_reducible assumption | with_reducible apply keeps_payOverflow | with_reducible apply keeps_fnEvent
    | with_reducible apply Keeps.setFn | with_reducible apply Yields.next
    | (extract_lets +onlyGivenNames x
       refine Yields.cut (u := x) ?_ fun hx => ?_
       (on_goal 1 => unfold x)
       (on_goal 2 => (clear_value x; rename' x => y)))
    | (extract_lets +onlyGivenNames x
       refine Keeps.cut (u := x) ?_ fun hx => ?_
       (on_goal 1 => unfold x)
       (on_goal 2 => (clear_value x; rename' x => y)))
    | (extract_lets +onlyGivenNames x; refine Keeps.keepEnv x ?_; rename' x => y)
    | (extract_lets +onlyGivenNames x; refine Keeps.keepSec x ?_; rename' x => y)
    | (extract_lets +onlyGivenNames x; refine Keeps.keepArm x ?_; rename' x => y)
    | (extract_lets +onlyGivenNames x; refine Keeps.keepMeter x ?_; rename' x => y)
    | (extract_lets +onlyGivenNames x; clear_value x; rename' x => y)
    | split

theorem keeps_execEvqHead (h : Keeps F s t) :
    ∀ x0 x1 x2, (hF : [SField.env, .hostMem, .pcie, .funcs] ⊆ F := by assumption) →
    Yields F s (execEvqHead x0 x1 x2 t) := by
  intro x0 x1 x2 hF
  have b_funcs : SField.funcs ∈ F := hF (by decide)
  have f_payOverflow : [SField.env, .hostMem, .pcie, .funcs] ⊆ F := List.Subset.trans (by decide) hF
  have f_fnEvent : [SField.env, .hostMem, .pcie, .funcs] ⊆ F := List.Subset.trans (by decide) hF
  unfold execEvqHead
  repeat'
    first
    | with_reducible assumption | with_reducible apply keeps_payOverflow | with_reducible apply keeps_fnEvent
    | with_reducible apply Keeps.setFn | with_reducible apply Yields.next
    | (extract_lets +onlyGivenNames x
       refine Yields.cut (u := x) ?_ fun hx => ?_
       (on_goal 1 => unfold x)
       (on_goal 2 => (clear_value x; rename' x => y)))
    | (extract_lets +onlyGivenNames x
       refine Keeps.cut (u := x) ?_ fun hx => ?_
       (on_goal 1 => unfold x)
       (on_goal 2 => (clear_value x; rename' x => y)))
    | (extract_lets +onlyGivenNames x; refine Keeps.keepEnv x ?_; rename' x => y)
    | (extract_lets +onlyGivenNames x; refine Keeps.keepSec x ?_; rename' x => y)
    | (extract_lets +onlyGivenNames x; refine Keeps.keepArm x ?_; rename' x => y)
    | (extract_lets +onlyGivenNames x; refine Keeps.keepMeter x ?_; rename' x => y)
    | (extract_lets +onlyGivenNames x; clear_value x; rename' x => y)
    | split

end Sys2Proof.Machine
end

