-- ==== Sys2Proof/Laws/KeepsHbm.lean ====
section
/-! SUPPORT. What every operation and meaning of Machine/Hbm.lean keeps: the queue, the canonical form, what lasts, and every part
of the state outside its own list. -/

set_option linter.unreachableTactic false
set_option linter.unusedTactic false
set_option linter.unusedVariables false
set_option linter.tactic.unusedName false

namespace Sys2Proof.Machine

open Sys2Proof

-- Proofs one after another: the package compiles as one text under a memory limit.
set_option Elab.async false

variable {F : List SField} {s t : State}

theorem keeps_setRec (h : Keeps F s t) :
    ∀ x1 x2, (hF : [SField.hbm] ⊆ F := by assumption) →
    Keeps F s (setRec t x1 x2) := by
  intro x1 x2 hF
  have b_hbm : SField.hbm ∈ F := hF (by decide)
  revert x1 x2
  exact fun g r => h.memory id id id (twf_tput g r)

theorem keeps_newKey (h : Keeps F s t) :
    ∀ x0, (hF : [SField.hbm] ⊆ F := by assumption) →
    Keeps F s (newKey x0 t) := by
  intro x0 hF
  have b_hbm : SField.hbm ∈ F := hF (by decide)
  revert x0
  exact fun c => h.memory id id id id

theorem keeps_setGran (h : Keeps F s t) :
    ∀ x0 x1 x2 x3, (hF : [SField.hbm] ⊆ F := by assumption) →
    Keeps F s (setGran t x0 x1 x2 x3) := by
  intro x0 x1 x2 x3 hF
  have f_setRec : [SField.hbm] ⊆ F := List.Subset.trans (by decide) hF
  unfold setGran
  repeat'
    first
    | with_reducible assumption | with_reducible apply keeps_setRec
    | (extract_lets +onlyGivenNames x
       refine Keeps.cut (u := x) ?_ fun hx => ?_
       (on_goal 1 => unfold x)
       (on_goal 2 => (clear_value x; rename' x => y)))
    | (extract_lets +onlyGivenNames x; refine Keeps.keepEnv x ?_; rename' x => y)
    | (extract_lets +onlyGivenNames x; refine Keeps.keepSec x ?_; rename' x => y)
    | (extract_lets +onlyGivenNames x; refine Keeps.keepArm x ?_; rename' x => y)
    | (extract_lets +onlyGivenNames x; refine Keeps.keepMeter x ?_; rename' x => y)
    | (extract_lets +onlyGivenNames x; clear_value x; rename' x => y)
    | split

theorem keeps_markValid (h : Keeps F s t) :
    ∀ x0 x1 x2 x3, (hF : [SField.hbm] ⊆ F := by assumption) →
    Keeps F s (markValid x0 x1 x2 x3 t) := by
  intro x0 x1 x2 x3 hF
  have f_setGran : [SField.hbm] ⊆ F := List.Subset.trans (by decide) hF
  revert x0 x1 x2 x3
  intro k n
  induction n generalizing t with
  | zero => intros; exact h
  | succ n ih =>
    intros
    simp only [markValid]
    split
    · exact h
    · exact ih (keeps_setGran h _ _ _ _) _ _

theorem keeps_hbmWrite (h : Keeps F s t) :
    ∀ x0 x1 x2, (hF : [SField.hbm] ⊆ F := by assumption) →
    Keeps F s (hbmWrite x0 x1 x2 t) := by
  intro x0 x1 x2 hF
  have b_hbm : SField.hbm ∈ F := hF (by decide)
  have f_markValid : [SField.hbm] ⊆ F := List.Subset.trans (by decide) hF
  revert x0 x1 x2
  intro k da bs
  have hu := keeps_markValid h k (spanFuel bs.length) da bs.length
  exact hu.memory id id (Memory.wf_mwrite _ _) id

theorem keeps_hbmUnwrite (h : Keeps F s t) :
    ∀ x0 x1, (hF : [SField.hbm] ⊆ F := by assumption) →
    Keeps F s (hbmUnwrite x0 x1 t) := by
  intro x0 x1 hF
  have b_hbm : SField.hbm ∈ F := hF (by decide)
  revert x0 x1
  intros
  refine h.memory id id (Memory.wf_mclear _ _) fun hr => ?_
  refine Eq.trans (congrArg _ (List.filter_congr fun p _ => ?_)) (twf_filterMap _ ?_ hr)
  · by_cases hp : p.2 = GranRec.init <;> simp [hp]
  · rintro ⟨g, r⟩ q hq
    dsimp only at hq
    split at hq
    · cases hq; rfl
    · split at hq
      · cases hq; rfl
      · cases hq

theorem keeps_unwriteUnits (h : Keeps F s t) :
    ∀ x0, (hF : [SField.hbm] ⊆ F := by assumption) →
    Keeps F s (unwriteUnits x0 t) := by
  intro x0 hF
  have f_hbmUnwrite : [SField.hbm] ⊆ F := List.Subset.trans (by decide) hF
  unfold unwriteUnits
  repeat'
    first
    | with_reducible assumption | with_reducible (refine Keeps.forAll ?_ _ _ fun _ _ _ => ?_)
    | with_reducible apply keeps_hbmUnwrite
    | (extract_lets +onlyGivenNames x
       refine Keeps.cut (u := x) ?_ fun hx => ?_
       (on_goal 1 => unfold x)
       (on_goal 2 => (clear_value x; rename' x => y)))
    | (extract_lets +onlyGivenNames x; refine Keeps.keepEnv x ?_; rename' x => y)
    | (extract_lets +onlyGivenNames x; refine Keeps.keepSec x ?_; rename' x => y)
    | (extract_lets +onlyGivenNames x; refine Keeps.keepArm x ?_; rename' x => y)
    | (extract_lets +onlyGivenNames x; refine Keeps.keepMeter x ?_; rename' x => y)
    | (extract_lets +onlyGivenNames x; clear_value x; rename' x => y)
    | split | with_reducible refine Keeps.light ?_ rfl rfl rfl rfl

theorem keeps_putUnits (h : Keeps F s t) :
    ∀ x0 x1 x2 x3, (hF : [SField.hbm] ⊆ F := by assumption) →
    Keeps F s (putUnits x0 x1 x2 x3 t) := by
  intro x0 x1 x2 x3 hF
  have f_setGran : [SField.hbm] ⊆ F := List.Subset.trans (by decide) hF
  have f_hbmWrite : [SField.hbm] ⊆ F := List.Subset.trans (by decide) hF
  unfold putUnits
  repeat'
    first
    | with_reducible assumption | with_reducible apply keeps_setGran | with_reducible apply keeps_hbmWrite
    | with_reducible (refine Keeps.forAll ?_ _ _ fun _ _ _ => ?_)
    | (extract_lets +onlyGivenNames x
       refine Keeps.cut (u := x) ?_ fun hx => ?_
       (on_goal 1 => unfold x)
       (on_goal 2 => (clear_value x; rename' x => y)))
    | (extract_lets +onlyGivenNames x; refine Keeps.keepEnv x ?_; rename' x => y)
    | (extract_lets +onlyGivenNames x; refine Keeps.keepSec x ?_; rename' x => y)
    | (extract_lets +onlyGivenNames x; refine Keeps.keepArm x ?_; rename' x => y)
    | (extract_lets +onlyGivenNames x; refine Keeps.keepMeter x ?_; rename' x => y)
    | (extract_lets +onlyGivenNames x; clear_value x; rename' x => y)
    | split

theorem keeps_hbmFailLog (h : Keeps F s t) :
    ∀ x0 x1, (hF : [SField.env, .hostMem, .pcie, .slabs2, .funcs, .hbm] ⊆ F := by assumption) →
    Keeps F s (hbmFailLog x0 x1 t) := by
  intro x0 x1 hF
  have b_slabs2 : SField.slabs2 ∈ F := hF (by decide)
  have f_setGran : [SField.hbm] ⊆ F := List.Subset.trans (by decide) hF
  have f_hbmEvent : [SField.env, .hostMem, .pcie, .slabs2, .funcs] ⊆ F := List.Subset.trans (by decide) hF
  unfold hbmFailLog
  repeat'
    first
    | with_reducible assumption | with_reducible apply keeps_setGran | with_reducible apply keeps_hbmEvent
    | with_reducible apply Keeps.modSlab2
    | (extract_lets +onlyGivenNames x
       refine Keeps.cut (u := x) ?_ fun hx => ?_
       (on_goal 1 => unfold x)
       (on_goal 2 => (clear_value x; rename' x => y)))
    | (extract_lets +onlyGivenNames x; refine Keeps.keepEnv x ?_; rename' x => y)
    | (extract_lets +onlyGivenNames x; refine Keeps.keepSec x ?_; rename' x => y)
    | (extract_lets +onlyGivenNames x; refine Keeps.keepArm x ?_; rename' x => y)
    | (extract_lets +onlyGivenNames x; refine Keeps.keepMeter x ?_; rename' x => y)
    | (extract_lets +onlyGivenNames x; clear_value x; rename' x => y)
    | split

theorem keeps_countGran (h : Keeps F s t) :
    ∀ x0 x1 x2 x3, (hF : [SField.env, .slabs2, .ctxs] ⊆ F := by assumption) →
    Keeps F s (countGran x0 x1 x2 x3 t) := by
  intro x0 x1 x2 x3 hF
  have b_env : SField.env ∈ F := hF (by decide)
  have b_slabs2 : SField.slabs2 ∈ F := hF (by decide)
  have b_ctxs : SField.ctxs ∈ F := hF (by decide)
  unfold countGran
  cases x0 with
  | none => exact (h.takeFree 1).modSlab2 _ _
  | some c => exact ((h.takeFree 1).modSlab2 _ _).modCtx _ _

theorem keeps_countAcc (h : Keeps F s t) :
    ∀ x0 x1 x2 x3 x4, (hF : [SField.env, .slabs2, .ctxs] ⊆ F := by assumption) →
    Keeps F s (countAcc x0 x1 x2 x3 x4 t) := by
  intro x0 x1 x2 x3 x4 hF
  have f_countGran : [SField.env, .slabs2, .ctxs] ⊆ F := List.Subset.trans (by decide) hF
  induction x2 generalizing x3 x4 t with
  | zero => exact h
  | succ n ih =>
    simp only [countAcc]
    split
    · exact h
    · exact ih (keeps_countGran h _ _ _ _) _ _

end Sys2Proof.Machine
end

