-- ==== Sys2Proof/Laws/KeepsBanks.lean ====
section
/-! SUPPORT. What every operation and meaning of Machine/Banks.lean keeps: the queue, the canonical form, what lasts, and every part
of the state outside its own list. -/

set_option linter.unreachableTactic false
set_option linter.unusedTactic false
set_option linter.unusedVariables false
set_option linter.tactic.unusedName false

namespace Sys2Proof.Machine

open Sys2Proof

-- Proofs one after another: the package compiles as one text under a memory limit.
set_option Elab.async false

variable {F : List SField} {s t : State}

theorem keeps_bankWrite (h : Keeps F s t) :
    ∀ x0 x1 x2 x3, (hF : [SField.bankMem] ⊆ F := by assumption) →
    Keeps F s (bankWrite x0 x1 x2 x3 t) := by
  intro x0 x1 x2 x3 hF
  have b_bankMem : SField.bankMem ∈ F := hF (by decide)
  revert x0 x1 x2 x3
  exact fun g k a bs => h.memory id (Memory.wf_mwrite _ _) id id

theorem keeps_clearBank (h : Keeps F s t) :
    ∀ x0 x1, (hF : [SField.bankMem] ⊆ F := by assumption) →
    Keeps F s (clearBank x0 x1 t) := by
  intro x0 x1 hF
  have b_bankMem : SField.bankMem ∈ F := hF (by decide)
  revert x0 x1
  exact fun g k => h.memory id (Memory.wf_mclear _ _) id id

theorem keeps_clearTile (h : Keeps F s t) :
    ∀ x0, (hF : [SField.tiles2, .banks, .bankMem] ⊆ F := by assumption) →
    Keeps F s (clearTile x0 t) := by
  intro x0 hF
  have b_tiles2 : SField.tiles2 ∈ F := hF (by decide)
  have b_banks : SField.banks ∈ F := hF (by decide)
  have b_bankMem : SField.bankMem ∈ F := hF (by decide)
  revert x0
  intro g
  unfold clearTile
  have hu : Keeps F s { t with bankMem := mclear t.bankMem (bankKey g 0 0) (2 ^ 23) } :=
    h.memory id (Memory.wf_mclear _ _) id id
  exact (hu.forAll _ _ fun k u hu => hu.setBank _ _).modTile2 _ _

theorem keeps_setClearing (h : Keeps F s t) :
    ∀ x0 x1, (hF : [SField.banks] ⊆ F := by assumption) →
    Keeps F s (setClearing x0 x1 t) := by
  intro x0 x1 hF
  have b_banks : SField.banks ∈ F := hF (by decide)
  unfold setClearing
  repeat'
    first
    | with_reducible assumption | with_reducible apply Keeps.modBank
    | with_reducible (refine Keeps.forAll ?_ _ _ fun _ _ _ => ?_)
    | split

theorem keeps_holdAcc (h : Keeps F s t) :
    ∀ x0, (hF : [SField.env] ⊆ F := by assumption) →
    Keeps F s (holdAcc x0 t) := by
  intro x0 hF
  have b_env : SField.env ∈ F := hF (by decide)
  unfold holdAcc
  repeat'
    first
    | with_reducible assumption
    | split | with_reducible refine Keeps.light ?_ rfl rfl rfl rfl

theorem keeps_ownerRefused (h : Keeps F s t) :
    ∀ x0 x1 x2 x3 x4, (hF : [SField.env, .hostMem, .pcie, .slabs2, .tiles2, .funcs] ⊆ F := by assumption) →
    Keeps F s (ownerRefused x0 x1 x2 x3 x4 t) := by
  intro x0 x1 x2 x3 x4 hF
  have b_slabs2 : SField.slabs2 ∈ F := hF (by decide)
  have b_tiles2 : SField.tiles2 ∈ F := hF (by decide)
  have f_bankEvent : [SField.env, .hostMem, .pcie, .slabs2, .funcs] ⊆ F := List.Subset.trans (by decide) hF
  unfold ownerRefused
  repeat'
    first
    | with_reducible assumption | with_reducible apply Keeps.modTile2 | with_reducible apply Keeps.modSlab2
    | with_reducible apply keeps_bankEvent
    | (extract_lets +onlyGivenNames x
       refine Keeps.cut (u := x) ?_ fun hx => ?_
       (on_goal 1 => unfold x)
       (on_goal 2 => (clear_value x; rename' x => y)))
    | (extract_lets +onlyGivenNames x; refine Keeps.keepEnv x ?_; rename' x => y)
    | (extract_lets +onlyGivenNames x; refine Keeps.keepSec x ?_; rename' x => y)
    | (extract_lets +onlyGivenNames x; refine Keeps.keepArm x ?_; rename' x => y)
    | (extract_lets +onlyGivenNames x; refine Keeps.keepMeter x ?_; rename' x => y)
    | (extract_lets +onlyGivenNames x; clear_value x; rename' x => y)
    | split | with_reducible refine Keeps.light ?_ rfl rfl rfl rfl

theorem keeps_takeBank (h : Keeps F s t) :
    ∀ x0 x1 x2 x3, (hF : [SField.banks, .bankMem] ⊆ F := by assumption) →
    Keeps F s (takeBank x0 x1 x2 x3 t) := by
  intro x0 x1 x2 x3 hF
  have b_banks : SField.banks ∈ F := hF (by decide)
  have f_clearBank : [SField.bankMem] ⊆ F := List.Subset.trans (by decide) hF
  unfold takeBank
  repeat'
    first
    | with_reducible assumption | with_reducible apply keeps_clearBank | with_reducible apply Keeps.modBank
    | (extract_lets +onlyGivenNames x
       refine Keeps.cut (u := x) ?_ fun hx => ?_
       (on_goal 1 => unfold x)
       (on_goal 2 => (clear_value x; rename' x => y)))
    | (extract_lets +onlyGivenNames x; refine Keeps.keepEnv x ?_; rename' x => y)
    | (extract_lets +onlyGivenNames x; refine Keeps.keepSec x ?_; rename' x => y)
    | (extract_lets +onlyGivenNames x; refine Keeps.keepArm x ?_; rename' x => y)
    | (extract_lets +onlyGivenNames x; refine Keeps.keepMeter x ?_; rename' x => y)
    | (extract_lets +onlyGivenNames x; clear_value x; rename' x => y)
    | split

theorem keeps_releaseBank (h : Keeps F s t) :
    ∀ x0, (hF : [SField.banks] ⊆ F := by assumption) →
    Keeps F s (releaseBank x0 t) := by
  intro x0 hF
  have b_banks : SField.banks ∈ F := hF (by decide)
  unfold releaseBank
  repeat'
    first
    | with_reducible assumption | with_reducible apply Keeps.modBank
    | (extract_lets +onlyGivenNames x
       refine Keeps.cut (u := x) ?_ fun hx => ?_
       (on_goal 1 => unfold x)
       (on_goal 2 => (clear_value x; rename' x => y)))
    | (extract_lets +onlyGivenNames x; refine Keeps.keepEnv x ?_; rename' x => y)
    | (extract_lets +onlyGivenNames x; refine Keeps.keepSec x ?_; rename' x => y)
    | (extract_lets +onlyGivenNames x; refine Keeps.keepArm x ?_; rename' x => y)
    | (extract_lets +onlyGivenNames x; refine Keeps.keepMeter x ?_; rename' x => y)
    | (extract_lets +onlyGivenNames x; clear_value x; rename' x => y)
    | split | with_reducible refine Keeps.light ?_ rfl rfl rfl rfl

theorem keeps_swapOut (h : Keeps F s t) :
    ∀ x0, (hF : [SField.banks, .ctxs, .hbm] ⊆ F := by assumption) →
    Keeps F s (swapOut x0 t) := by
  intro x0 hF
  have b_ctxs : SField.ctxs ∈ F := hF (by decide)
  have f_putUnits : [SField.hbm] ⊆ F := List.Subset.trans (by decide) hF
  have f_releaseBank : [SField.banks] ⊆ F := List.Subset.trans (by decide) hF
  unfold swapOut
  repeat'
    first
    | with_reducible assumption | with_reducible apply keeps_putUnits | with_reducible apply keeps_releaseBank
    | with_reducible apply Keeps.modCtx | with_reducible (refine Keeps.forAll ?_ _ _ fun _ _ _ => ?_)
    | (extract_lets +onlyGivenNames x
       refine Keeps.cut (u := x) ?_ fun hx => ?_
       (on_goal 1 => unfold x)
       (on_goal 2 => (clear_value x; rename' x => y)))
    | (extract_lets +onlyGivenNames x; refine Keeps.keepEnv x ?_; rename' x => y)
    | (extract_lets +onlyGivenNames x; refine Keeps.keepSec x ?_; rename' x => y)
    | (extract_lets +onlyGivenNames x; refine Keeps.keepArm x ?_; rename' x => y)
    | (extract_lets +onlyGivenNames x; refine Keeps.keepMeter x ?_; rename' x => y)
    | (extract_lets +onlyGivenNames x; clear_value x; rename' x => y)
    | split

theorem keeps_loadWeightsAt (h : Keeps F s t) :
    ∀ x0 x1, (hF : [SField.bankMem] ⊆ F := by assumption) →
    Keeps F s (loadWeightsAt x0 x1 t) := by
  intro x0 x1 hF
  have f_bankWrite : [SField.bankMem] ⊆ F := List.Subset.trans (by decide) hF
  unfold loadWeightsAt
  repeat'
    first
    | with_reducible assumption | with_reducible apply keeps_bankWrite
    | with_reducible (refine Keeps.forAll ?_ _ _ fun _ _ _ => ?_)
    | (extract_lets +onlyGivenNames x
       refine Keeps.cut (u := x) ?_ fun hx => ?_
       (on_goal 1 => unfold x)
       (on_goal 2 => (clear_value x; rename' x => y)))
    | (extract_lets +onlyGivenNames x; refine Keeps.keepEnv x ?_; rename' x => y)
    | (extract_lets +onlyGivenNames x; refine Keeps.keepSec x ?_; rename' x => y)
    | (extract_lets +onlyGivenNames x; refine Keeps.keepArm x ?_; rename' x => y)
    | (extract_lets +onlyGivenNames x; refine Keeps.keepMeter x ?_; rename' x => y)
    | (extract_lets +onlyGivenNames x; clear_value x; rename' x => y)
    | split

theorem keeps_loadWeights (h : Keeps F s t) :
    ∀ x0, (hF : [SField.bankMem] ⊆ F := by assumption) →
    Keeps F s (loadWeights x0 t) := by
  intro x0 hF
  have f_loadWeightsAt : [SField.bankMem] ⊆ F := List.Subset.trans (by decide) hF
  unfold loadWeights
  repeat'
    first
    | with_reducible assumption | with_reducible apply keeps_loadWeightsAt
    | split

theorem keeps_swapIn (h : Keeps F s t) :
    ∀ x0, (hF : [SField.banks, .bankMem] ⊆ F := by assumption) →
    Keeps F s (swapIn x0 t) := by
  intro c hF
  have b_banks : SField.banks ∈ F := hF (by decide)
  have b_bankMem : SField.bankMem ∈ F := hF (by decide)
  have f_clearBank : [SField.bankMem] ⊆ F := List.Subset.trans (by decide) hF
  have f_bankWrite : [SField.bankMem] ⊆ F := List.Subset.trans (by decide) hF
  have f_loadWeights : [SField.bankMem] ⊆ F := List.Subset.trans (by decide) hF
  unfold swapIn
  extract_lets key t1 t2
  have h2 : Keeps F s t2 :=
    keeps_loadWeights (h.forAll _ _ fun gk u hu => (keeps_clearBank hu _ _).modBank _ _) c
  split
  · exact h2.forAll _ _ fun _ _ hu => keeps_bankWrite hu _ _ _ _
  · exact h2

end Sys2Proof.Machine
end

