-- ==== Sys2Proof/Laws/KeepsOperands.lean ====
section
/-! SUPPORT. What every operation and meaning of Machine/Operands.lean keeps: the queue, the canonical form, what lasts, and every part
of the state outside its own list. -/

set_option linter.unreachableTactic false
set_option linter.unusedTactic false
set_option linter.unusedVariables false
set_option linter.tactic.unusedName false

namespace Sys2Proof.Machine

open Sys2Proof

-- Proofs one after another: the package compiles as one text under a memory limit.
set_option Elab.async false

variable {F : List SField} {s t : State}

theorem keeps_putWr (h : Keeps F s t) :
    ∀ x1, (hF : [SField.env, .hostMem, .bankMem, .hbm] ⊆ F := by assumption) →
    Keeps F s (putWr t x1) := by
  intro x1 hF
  have b_env : SField.env ∈ F := hF (by decide)
  have b_hostMem : SField.hostMem ∈ F := hF (by decide)
  have b_bankMem : SField.bankMem ∈ F := hF (by decide)
  have b_hbm : SField.hbm ∈ F := hF (by decide)
  revert x1
  intro w
  unfold putWr
  dsimp only
  split
  · exact h.memory id id (Memory.wf_mput _ _) id
  · exact h.memory (Memory.wf_mput _ _) id id id
  · exact h.memory id (Memory.wf_mput _ _) id id

theorem keeps_markSpans (h : Keeps F s t) :
    ∀ x0 x1, (hF : [SField.hbm] ⊆ F := by assumption) →
    Keeps F s (markSpans x0 x1 t) := by
  intro x0 x1 hF
  have f_setGran : [SField.hbm] ⊆ F := List.Subset.trans (by decide) hF
  unfold markSpans
  repeat'
    first
    | with_reducible assumption | with_reducible (refine Keeps.forAll ?_ _ _ fun _ _ _ => ?_)
    | with_reducible apply keeps_setGran
    | (extract_lets +onlyGivenNames x
       refine Keeps.cut (u := x) ?_ fun hx => ?_
       (on_goal 1 => unfold x)
       (on_goal 2 => (clear_value x; rename' x => y)))
    | (extract_lets +onlyGivenNames x; refine Keeps.keepEnv x ?_; rename' x => y)
    | (extract_lets +onlyGivenNames x; refine Keeps.keepSec x ?_; rename' x => y)
    | (extract_lets +onlyGivenNames x; refine Keeps.keepArm x ?_; rename' x => y)
    | (extract_lets +onlyGivenNames x; refine Keeps.keepMeter x ?_; rename' x => y)
    | (extract_lets +onlyGivenNames x; clear_value x; rename' x => y)
    | split | with_reducible refine Keeps.light ?_ rfl rfl rfl rfl

theorem keeps_applyWrs (h : Keeps F s t) :
    ∀ x0 x1, (hF : [SField.env, .hostMem, .bankMem, .hbm] ⊆ F := by assumption) →
    Keeps F s (applyWrs x0 x1 t) := by
  intro x0 x1 hF
  have f_markSpans : [SField.hbm] ⊆ F := List.Subset.trans (by decide) hF
  have f_putWr : [SField.env, .hostMem, .bankMem, .hbm] ⊆ F := List.Subset.trans (by decide) hF
  revert x0 x1
  intro c ws
  exact (keeps_markSpans h _ _).foldl _ _ fun u a hu => keeps_putWr hu a

end Sys2Proof.Machine
end

