-- ==== Sys2Proof/Laws/KeepsChecks.lean ====
section
/-! SUPPORT. What every operation and meaning of Machine/Checks.lean keeps: the queue, the canonical form, what lasts, and every part
of the state outside its own list. -/

set_option linter.unreachableTactic false
set_option linter.unusedTactic false
set_option linter.unusedVariables false
set_option linter.tactic.unusedName false

namespace Sys2Proof.Machine

open Sys2Proof

-- Proofs one after another: the package compiles as one text under a memory limit.
set_option Elab.async false

variable {F : List SField} {s t : State}

theorem keeps_ownRegion (h : Keeps F s t) :
    ∀ x0 x1 x2 x3, (hF : [SField.banks] ⊆ F := by assumption) →
    Keeps F s (ownRegion x0 x1 x2 x3 t) := by
  intro x0 x1 x2 x3 hF
  have b_banks : SField.banks ∈ F := hF (by decide)
  unfold ownRegion
  repeat'
    first
    | with_reducible assumption | with_reducible (refine Keeps.forAll ?_ _ _ fun _ _ _ => ?_)
    | with_reducible apply Keeps.modBank
    | (extract_lets +onlyGivenNames x
       refine Keeps.cut (u := x) ?_ fun hx => ?_
       (on_goal 1 => unfold x)
       (on_goal 2 => (clear_value x; rename' x => y)))
    | (extract_lets +onlyGivenNames x; refine Keeps.keepEnv x ?_; rename' x => y)
    | (extract_lets +onlyGivenNames x; refine Keeps.keepSec x ?_; rename' x => y)
    | (extract_lets +onlyGivenNames x; refine Keeps.keepArm x ?_; rename' x => y)
    | (extract_lets +onlyGivenNames x; refine Keeps.keepMeter x ?_; rename' x => y)
    | (extract_lets +onlyGivenNames x; clear_value x; rename' x => y)
    | split | with_reducible refine Keeps.light ?_ rfl rfl rfl rfl

theorem keeps_ownView (h : Keeps F s t) :
    ∀ x1, (hF : [SField.banks] ⊆ F := by assumption) →
    Keeps F s (ownView t x1) := by
  intro x1 hF
  have f_ownRegion : [SField.banks] ⊆ F := List.Subset.trans (by decide) hF
  revert x1
  exact fun c => h.foldl _ _ fun u a hu => keeps_ownRegion hu _ _ _ _

end Sys2Proof.Machine
end

