-- ==== Sys2Proof/Laws/KeepsLoss.lean ====
section
/-! SUPPORT. What every operation and meaning of Machine/Loss.lean keeps: the queue, the canonical form, what lasts, and every part
of the state outside its own list. -/

set_option linter.unreachableTactic false
set_option linter.unusedTactic false
set_option linter.unusedVariables false
set_option linter.tactic.unusedName false

namespace Sys2Proof.Machine

open Sys2Proof

-- Proofs one after another: the package compiles as one text under a memory limit.
set_option Elab.async false

variable {F : List SField} {s t : State}

theorem keeps_releaseLeaf (h : Keeps F s t) :
    ∀ x0 x1, (hF : [SField.parts2] ⊆ F := by assumption) →
    Keeps F s (releaseLeaf x0 x1 t) := by
  intro x0 x1 hF
  have b_parts2 : SField.parts2 ∈ F := hF (by decide)
  unfold releaseLeaf
  repeat'
    first
    | with_reducible assumption | with_reducible apply Keeps.setPart2
    | (extract_lets +onlyGivenNames x
       refine Keeps.cut (u := x) ?_ fun hx => ?_
       (on_goal 1 => unfold x)
       (on_goal 2 => (clear_value x; rename' x => y)))
    | (extract_lets +onlyGivenNames x; refine Keeps.keepEnv x ?_; rename' x => y)
    | (extract_lets +onlyGivenNames x; refine Keeps.keepSec x ?_; rename' x => y)
    | (extract_lets +onlyGivenNames x; refine Keeps.keepArm x ?_; rename' x => y)
    | (extract_lets +onlyGivenNames x; refine Keeps.keepMeter x ?_; rename' x => y)
    | (extract_lets +onlyGivenNames x; clear_value x; rename' x => y)
    | split | with_reducible refine Keeps.light ?_ rfl rfl rfl rfl

theorem keeps_labInvalidate (h : Keeps F s t) :
    ∀ x0 x1, (hF : [SField.slabs2] ⊆ F := by assumption) →
    Keeps F s (labInvalidate x0 x1 t) := by
  intro x0 x1 hF
  have b_slabs2 : SField.slabs2 ∈ F := hF (by decide)
  unfold labInvalidate
  repeat'
    first
    | with_reducible assumption | with_reducible (refine Keeps.forAll ?_ _ _ fun _ _ _ => ?_)
    | with_reducible apply Keeps.modSlab2
    | (extract_lets +onlyGivenNames x
       refine Keeps.cut (u := x) ?_ fun hx => ?_
       (on_goal 1 => unfold x)
       (on_goal 2 => (clear_value x; rename' x => y)))
    | (extract_lets +onlyGivenNames x; refine Keeps.keepEnv x ?_; rename' x => y)
    | (extract_lets +onlyGivenNames x; refine Keeps.keepSec x ?_; rename' x => y)
    | (extract_lets +onlyGivenNames x; refine Keeps.keepArm x ?_; rename' x => y)
    | (extract_lets +onlyGivenNames x; refine Keeps.keepMeter x ?_; rename' x => y)
    | (extract_lets +onlyGivenNames x; clear_value x; rename' x => y)
    | split | with_reducible refine Keeps.light ?_ rfl rfl rfl rfl

theorem keeps_freeSeq (h : Keeps F s t) :
    ∀ x0 x1, (hF : [SField.slabs2, .parts2, .ctxs] ⊆ F := by assumption) →
    Keeps F s (freeSeq x0 x1 t) := by
  intro x0 x1 hF
  have b_ctxs : SField.ctxs ∈ F := hF (by decide)
  have f_releaseLeaf : [SField.parts2] ⊆ F := List.Subset.trans (by decide) hF
  have f_labInvalidate : [SField.slabs2] ⊆ F := List.Subset.trans (by decide) hF
  unfold freeSeq
  repeat'
    first
    | with_reducible assumption | with_reducible (refine Keeps.forAll ?_ _ _ fun _ _ _ => ?_)
    | with_reducible apply keeps_releaseLeaf | with_reducible apply keeps_labInvalidate
    | with_reducible apply Keeps.modCtx
    | (extract_lets +onlyGivenNames x
       refine Keeps.cut (u := x) ?_ fun hx => ?_
       (on_goal 1 => unfold x)
       (on_goal 2 => (clear_value x; rename' x => y)))
    | (extract_lets +onlyGivenNames x; refine Keeps.keepEnv x ?_; rename' x => y)
    | (extract_lets +onlyGivenNames x; refine Keeps.keepSec x ?_; rename' x => y)
    | (extract_lets +onlyGivenNames x; refine Keeps.keepArm x ?_; rename' x => y)
    | (extract_lets +onlyGivenNames x; refine Keeps.keepMeter x ?_; rename' x => y)
    | (extract_lets +onlyGivenNames x; clear_value x; rename' x => y)
    | split | with_reducible refine Keeps.light ?_ rfl rfl rfl rfl

theorem keeps_freeSeqs (h : Keeps F s t) :
    ∀ x0, (hF : [SField.slabs2, .parts2, .ctxs] ⊆ F := by assumption) →
    Keeps F s (freeSeqs x0 t) := by
  intro x0 hF
  have f_freeSeq : [SField.slabs2, .parts2, .ctxs] ⊆ F := List.Subset.trans (by decide) hF
  unfold freeSeqs
  repeat'
    first
    | with_reducible assumption | with_reducible (refine Keeps.forAll ?_ _ _ fun _ _ _ => ?_)
    | with_reducible apply keeps_freeSeq
    | (extract_lets +onlyGivenNames x
       refine Keeps.cut (u := x) ?_ fun hx => ?_
       (on_goal 1 => unfold x)
       (on_goal 2 => (clear_value x; rename' x => y)))
    | (extract_lets +onlyGivenNames x; refine Keeps.keepEnv x ?_; rename' x => y)
    | (extract_lets +onlyGivenNames x; refine Keeps.keepSec x ?_; rename' x => y)
    | (extract_lets +onlyGivenNames x; refine Keeps.keepArm x ?_; rename' x => y)
    | (extract_lets +onlyGivenNames x; refine Keeps.keepMeter x ?_; rename' x => y)
    | (extract_lets +onlyGivenNames x; clear_value x; rename' x => y)
    | split | with_reducible refine Keeps.light ?_ rfl rfl rfl rfl

theorem keeps_fixSubst (h : Keeps F s t) :
    ∀ x0, (hF : [SField.parts2] ⊆ F := by assumption) →
    Keeps F s (fixSubst x0 t) := by
  intro x0 hF
  have b_parts2 : SField.parts2 ∈ F := hF (by decide)
  unfold fixSubst
  repeat'
    first
    | with_reducible assumption | with_reducible apply Keeps.modPart2
    | (extract_lets +onlyGivenNames x
       refine Keeps.cut (u := x) ?_ fun hx => ?_
       (on_goal 1 => unfold x)
       (on_goal 2 => (clear_value x; rename' x => y)))
    | (extract_lets +onlyGivenNames x; refine Keeps.keepEnv x ?_; rename' x => y)
    | (extract_lets +onlyGivenNames x; refine Keeps.keepSec x ?_; rename' x => y)
    | (extract_lets +onlyGivenNames x; refine Keeps.keepArm x ?_; rename' x => y)
    | (extract_lets +onlyGivenNames x; refine Keeps.keepMeter x ?_; rename' x => y)
    | (extract_lets +onlyGivenNames x; clear_value x; rename' x => y)
    | split | with_reducible refine Keeps.light ?_ rfl rfl rfl rfl

theorem keeps_fixSwap (h : Keeps F s t) :
    ∀ x0, (hF : [SField.parts2, .ctxs, .hbm] ⊆ F := by assumption) →
    Keeps F s (fixSwap x0 t) := by
  intro x0 hF
  have b_ctxs : SField.ctxs ∈ F := hF (by decide)
  have f_unwriteUnits : [SField.hbm] ⊆ F := List.Subset.trans (by decide) hF
  have f_fixSubst : [SField.parts2] ⊆ F := List.Subset.trans (by decide) hF
  unfold fixSwap
  repeat'
    first
    | with_reducible assumption | with_reducible apply keeps_unwriteUnits | with_reducible apply keeps_fixSubst
    | with_reducible apply Keeps.modCtx
    | (extract_lets +onlyGivenNames x
       refine Keeps.cut (u := x) ?_ fun hx => ?_
       (on_goal 1 => unfold x)
       (on_goal 2 => (clear_value x; rename' x => y)))
    | (extract_lets +onlyGivenNames x; refine Keeps.keepEnv x ?_; rename' x => y)
    | (extract_lets +onlyGivenNames x; refine Keeps.keepSec x ?_; rename' x => y)
    | (extract_lets +onlyGivenNames x; refine Keeps.keepArm x ?_; rename' x => y)
    | (extract_lets +onlyGivenNames x; refine Keeps.keepMeter x ?_; rename' x => y)
    | (extract_lets +onlyGivenNames x; clear_value x; rename' x => y)
    | split | with_reducible refine Keeps.light ?_ rfl rfl rfl rfl

theorem keeps_unbindRegion (h : Keeps F s t) :
    ∀ x0 x1, (hF : [SField.ctxs] ⊆ F := by assumption) →
    Keeps F s (unbindRegion x0 x1 t) := by
  intro x0 x1 hF
  have b_ctxs : SField.ctxs ∈ F := hF (by decide)
  unfold unbindRegion
  repeat'
    first
    | with_reducible assumption | with_reducible apply Keeps.modCtx
    | (extract_lets +onlyGivenNames x
       refine Keeps.cut (u := x) ?_ fun hx => ?_
       (on_goal 1 => unfold x)
       (on_goal 2 => (clear_value x; rename' x => y)))
    | (extract_lets +onlyGivenNames x; refine Keeps.keepEnv x ?_; rename' x => y)
    | (extract_lets +onlyGivenNames x; refine Keeps.keepSec x ?_; rename' x => y)
    | (extract_lets +onlyGivenNames x; refine Keeps.keepArm x ?_; rename' x => y)
    | (extract_lets +onlyGivenNames x; refine Keeps.keepMeter x ?_; rename' x => y)
    | (extract_lets +onlyGivenNames x; clear_value x; rename' x => y)
    | split | with_reducible refine Keeps.light ?_ rfl rfl rfl rfl

theorem keeps_dropClaims (h : Keeps F s t) :
    ∀ x0 x1, (hF : [SField.slabs2] ⊆ F := by assumption) →
    Keeps F s (dropClaims x0 x1 t) := by
  intro x0 x1 hF
  have b_slabs2 : SField.slabs2 ∈ F := hF (by decide)
  unfold dropClaims
  repeat'
    first
    | with_reducible assumption | with_reducible (refine Keeps.forAll ?_ _ _ fun _ _ _ => ?_)
    | with_reducible apply Keeps.modSlab2
    | (extract_lets +onlyGivenNames x
       refine Keeps.cut (u := x) ?_ fun hx => ?_
       (on_goal 1 => unfold x)
       (on_goal 2 => (clear_value x; rename' x => y)))
    | (extract_lets +onlyGivenNames x; refine Keeps.keepEnv x ?_; rename' x => y)
    | (extract_lets +onlyGivenNames x; refine Keeps.keepSec x ?_; rename' x => y)
    | (extract_lets +onlyGivenNames x; refine Keeps.keepArm x ?_; rename' x => y)
    | (extract_lets +onlyGivenNames x; refine Keeps.keepMeter x ?_; rename' x => y)
    | (extract_lets +onlyGivenNames x; clear_value x; rename' x => y)
    | split | with_reducible refine Keeps.light ?_ rfl rfl rfl rfl

theorem keeps_closeVc (h : Keeps F s t) :
    ∀ x0 x1, (hF : [SField.slabs2, .ctxs] ⊆ F := by assumption) →
    Keeps F s (closeVc x0 x1 t) := by
  intro x0 x1 hF
  have b_ctxs : SField.ctxs ∈ F := hF (by decide)
  have f_dropClaims : [SField.slabs2] ⊆ F := List.Subset.trans (by decide) hF
  unfold closeVc
  repeat'
    first
    | with_reducible assumption | with_reducible apply keeps_dropClaims | with_reducible apply Keeps.modCtx
    | (extract_lets +onlyGivenNames x
       refine Keeps.cut (u := x) ?_ fun hx => ?_
       (on_goal 1 => unfold x)
       (on_goal 2 => (clear_value x; rename' x => y)))
    | (extract_lets +onlyGivenNames x; refine Keeps.keepEnv x ?_; rename' x => y)
    | (extract_lets +onlyGivenNames x; refine Keeps.keepSec x ?_; rename' x => y)
    | (extract_lets +onlyGivenNames x; refine Keeps.keepArm x ?_; rename' x => y)
    | (extract_lets +onlyGivenNames x; refine Keeps.keepMeter x ?_; rename' x => y)
    | (extract_lets +onlyGivenNames x; clear_value x; rename' x => y)
    | split | with_reducible refine Keeps.light ?_ rfl rfl rfl rfl

theorem keeps_closeVcs (h : Keeps F s t) :
    ∀ x0, (hF : [SField.slabs2, .ctxs] ⊆ F := by assumption) →
    Keeps F s (closeVcs x0 t) := by
  intro x0 hF
  have f_closeVc : [SField.slabs2, .ctxs] ⊆ F := List.Subset.trans (by decide) hF
  unfold closeVcs
  repeat'
    first
    | with_reducible assumption | with_reducible (refine Keeps.forAll ?_ _ _ fun _ _ _ => ?_)
    | with_reducible apply keeps_closeVc
    | (extract_lets +onlyGivenNames x
       refine Keeps.cut (u := x) ?_ fun hx => ?_
       (on_goal 1 => unfold x)
       (on_goal 2 => (clear_value x; rename' x => y)))
    | (extract_lets +onlyGivenNames x; refine Keeps.keepEnv x ?_; rename' x => y)
    | (extract_lets +onlyGivenNames x; refine Keeps.keepSec x ?_; rename' x => y)
    | (extract_lets +onlyGivenNames x; refine Keeps.keepArm x ?_; rename' x => y)
    | (extract_lets +onlyGivenNames x; refine Keeps.keepMeter x ?_; rename' x => y)
    | (extract_lets +onlyGivenNames x; clear_value x; rename' x => y)
    | split | with_reducible refine Keeps.light ?_ rfl rfl rfl rfl

theorem keeps_freeRegion (h : Keeps F s t) :
    ∀ x0 x1, (hF : [SField.slabs2, .banks, .parts2, .ctxs] ⊆ F := by assumption) →
    Keeps F s (freeRegion x0 x1 t) := by
  intro x0 x1 hF
  have b_ctxs : SField.ctxs ∈ F := hF (by decide)
  have f_freeSeq : [SField.slabs2, .parts2, .ctxs] ⊆ F := List.Subset.trans (by decide) hF
  have f_closeVc : [SField.slabs2, .ctxs] ⊆ F := List.Subset.trans (by decide) hF
  have f_unbindRegion : [SField.ctxs] ⊆ F := List.Subset.trans (by decide) hF
  have f_releaseBank : [SField.banks] ⊆ F := List.Subset.trans (by decide) hF
  have f_fixSubst : [SField.parts2] ⊆ F := List.Subset.trans (by decide) hF
  unfold freeRegion
  repeat'
    first
    | with_reducible assumption | with_reducible (refine Keeps.forAll ?_ _ _ fun _ _ _ => ?_)
    | with_reducible apply keeps_freeSeq | with_reducible apply keeps_closeVc
    | with_reducible apply keeps_unbindRegion | with_reducible apply Keeps.modCtx
    | with_reducible apply keeps_releaseBank | with_reducible apply keeps_fixSubst
    | (extract_lets +onlyGivenNames x
       refine Keeps.cut (u := x) ?_ fun hx => ?_
       (on_goal 1 => unfold x)
       (on_goal 2 => (clear_value x; rename' x => y)))
    | (extract_lets +onlyGivenNames x; refine Keeps.keepEnv x ?_; rename' x => y)
    | (extract_lets +onlyGivenNames x; refine Keeps.keepSec x ?_; rename' x => y)
    | (extract_lets +onlyGivenNames x; refine Keeps.keepArm x ?_; rename' x => y)
    | (extract_lets +onlyGivenNames x; refine Keeps.keepMeter x ?_; rename' x => y)
    | (extract_lets +onlyGivenNames x; clear_value x; rename' x => y)
    | split | with_reducible refine Keeps.light ?_ rfl rfl rfl rfl

theorem keeps_freeRegions (h : Keeps F s t) :
    ∀ x0 x1, (hF : [SField.slabs2, .banks, .parts2, .ctxs, .hbm] ⊆ F := by assumption) →
    Keeps F s (freeRegions x0 x1 t) := by
  intro x0 x1 hF
  have f_fixSwap : [SField.parts2, .ctxs, .hbm] ⊆ F := List.Subset.trans (by decide) hF
  have f_freeRegion : [SField.slabs2, .banks, .parts2, .ctxs] ⊆ F := List.Subset.trans (by decide) hF
  unfold freeRegions
  repeat'
    first
    | with_reducible assumption | with_reducible apply keeps_fixSwap
    | with_reducible (refine Keeps.forAll ?_ _ _ fun _ _ _ => ?_) | with_reducible apply keeps_freeRegion
    | (extract_lets +onlyGivenNames x
       refine Keeps.cut (u := x) ?_ fun hx => ?_
       (on_goal 1 => unfold x)
       (on_goal 2 => (clear_value x; rename' x => y)))
    | (extract_lets +onlyGivenNames x; refine Keeps.keepEnv x ?_; rename' x => y)
    | (extract_lets +onlyGivenNames x; refine Keeps.keepSec x ?_; rename' x => y)
    | (extract_lets +onlyGivenNames x; refine Keeps.keepArm x ?_; rename' x => y)
    | (extract_lets +onlyGivenNames x; refine Keeps.keepMeter x ?_; rename' x => y)
    | (extract_lets +onlyGivenNames x; clear_value x; rename' x => y)
    | split | with_reducible refine Keeps.light ?_ rfl rfl rfl rfl

theorem keeps_freeHeld (h : Keeps F s t) :
    ∀ x0, (hF : [SField.slabs2, .ports, .ports2, .banks, .parts2, .ctxs, .hbm] ⊆ F := by assumption) →
    Keeps F s (freeHeld x0 t) := by
  intro x0 hF
  have b_ctxs : SField.ctxs ∈ F := hF (by decide)
  have f_closeVcs : [SField.slabs2, .ctxs] ⊆ F := List.Subset.trans (by decide) hF
  have f_freeSeqs : [SField.slabs2, .parts2, .ctxs] ⊆ F := List.Subset.trans (by decide) hF
  have f_closeNotice : [SField.ports, .ports2] ⊆ F := List.Subset.trans (by decide) hF
  have f_freeRegions : [SField.slabs2, .banks, .parts2, .ctxs, .hbm] ⊆ F := List.Subset.trans (by decide) hF
  unfold freeHeld
  repeat'
    first
    | with_reducible assumption | with_reducible apply keeps_closeVcs | with_reducible apply keeps_freeSeqs
    | with_reducible apply keeps_closeNotice | with_reducible apply keeps_freeRegions
    | with_reducible apply Keeps.modCtx | with_reducible (refine Keeps.forAll ?_ _ _ fun _ _ _ => ?_)
    | (extract_lets +onlyGivenNames x
       refine Keeps.cut (u := x) ?_ fun hx => ?_
       (on_goal 1 => unfold x)
       (on_goal 2 => (clear_value x; rename' x => y)))
    | (extract_lets +onlyGivenNames x; refine Keeps.keepEnv x ?_; rename' x => y)
    | (extract_lets +onlyGivenNames x; refine Keeps.keepSec x ?_; rename' x => y)
    | (extract_lets +onlyGivenNames x; refine Keeps.keepArm x ?_; rename' x => y)
    | (extract_lets +onlyGivenNames x; refine Keeps.keepMeter x ?_; rename' x => y)
    | (extract_lets +onlyGivenNames x; clear_value x; rename' x => y)
    | split

theorem keeps_releaseAll (h : Keeps F s t) :
    ∀ x0, (hF : [SField.banks] ⊆ F := by assumption) →
    Keeps F s (releaseAll x0 t) := by
  intro x0 hF
  have f_releaseBank : [SField.banks] ⊆ F := List.Subset.trans (by decide) hF
  unfold releaseAll
  repeat'
    first
    | with_reducible assumption | with_reducible (refine Keeps.forAll ?_ _ _ fun _ _ _ => ?_)
    | with_reducible apply keeps_releaseBank
    | (extract_lets +onlyGivenNames x
       refine Keeps.cut (u := x) ?_ fun hx => ?_
       (on_goal 1 => unfold x)
       (on_goal 2 => (clear_value x; rename' x => y)))
    | (extract_lets +onlyGivenNames x; refine Keeps.keepEnv x ?_; rename' x => y)
    | (extract_lets +onlyGivenNames x; refine Keeps.keepSec x ?_; rename' x => y)
    | (extract_lets +onlyGivenNames x; refine Keeps.keepArm x ?_; rename' x => y)
    | (extract_lets +onlyGivenNames x; refine Keeps.keepMeter x ?_; rename' x => y)
    | (extract_lets +onlyGivenNames x; clear_value x; rename' x => y)
    | split | with_reducible refine Keeps.light ?_ rfl rfl rfl rfl

theorem keeps_loseCtx (h : Keeps F s t) :
    ∀ x0 x1 x2, (hF : [SField.env, .hostMem, .pcie, .slabs2, .ports, .ports2, .tiles, .banks, .parts2, .ctxs, .funcs,
        .hbm] ⊆ F := by assumption) →
    Keeps F s (loseCtx x0 x1 x2 t) := by
  intro x0 x1 x2 hF
  have b_ctxs : SField.ctxs ∈ F := hF (by decide)
  have f_fixForms : [SField.tiles] ⊆ F := List.Subset.trans (by decide) hF
  have f_releaseAll : [SField.banks] ⊆ F := List.Subset.trans (by decide) hF
  have f_freeHeld : [SField.slabs2, .ports, .ports2, .banks, .parts2, .ctxs, .hbm] ⊆ F := List.Subset.trans (by
      decide) hF
  have f_ctxEvent : [SField.env, .hostMem, .pcie, .ctxs, .funcs] ⊆ F := List.Subset.trans (by decide) hF
  have f_postBoth : [SField.env, .hostMem, .pcie, .funcs] ⊆ F := List.Subset.trans (by decide) hF
  unfold loseCtx
  repeat'
    first
    | with_reducible assumption | with_reducible apply keeps_fixForms | with_reducible apply keeps_releaseAll
    | with_reducible apply keeps_freeHeld | with_reducible apply keeps_ctxEvent | with_reducible apply keeps_postBoth
    | with_reducible apply Keeps.modCtx
    | (extract_lets +onlyGivenNames x
       refine Keeps.cut (u := x) ?_ fun hx => ?_
       (on_goal 1 => unfold x)
       (on_goal 2 => (clear_value x; rename' x => y)))
    | (extract_lets +onlyGivenNames x; refine Keeps.keepEnv x ?_; rename' x => y)
    | (extract_lets +onlyGivenNames x; refine Keeps.keepSec x ?_; rename' x => y)
    | (extract_lets +onlyGivenNames x; refine Keeps.keepArm x ?_; rename' x => y)
    | (extract_lets +onlyGivenNames x; refine Keeps.keepMeter x ?_; rename' x => y)
    | (extract_lets +onlyGivenNames x; clear_value x; rename' x => y)
    | split

theorem keeps_partitionFault (h : Keeps F s t) :
    ∀ x0 x1 x2, (hF : [SField.env, .hostMem, .pcie, .slabs2, .ports, .ports2, .tiles, .banks, .parts2, .ctxs, .funcs,
        .hbm] ⊆ F := by assumption) →
    Keeps F s (partitionFault x0 x1 x2 t) := by
  intro x0 x1 x2 hF
  have f_loseCtx : [SField.env, .hostMem, .pcie, .slabs2, .ports, .ports2, .tiles, .banks, .parts2, .ctxs, .funcs,
      .hbm] ⊆ F := List.Subset.trans (by decide) hF
  unfold partitionFault
  repeat'
    first
    | with_reducible assumption | with_reducible (refine Keeps.forAll ?_ _ _ fun _ _ _ => ?_)
    | with_reducible apply keeps_loseCtx
    | (extract_lets +onlyGivenNames x
       refine Keeps.cut (u := x) ?_ fun hx => ?_
       (on_goal 1 => unfold x)
       (on_goal 2 => (clear_value x; rename' x => y)))
    | (extract_lets +onlyGivenNames x; refine Keeps.keepEnv x ?_; rename' x => y)
    | (extract_lets +onlyGivenNames x; refine Keeps.keepSec x ?_; rename' x => y)
    | (extract_lets +onlyGivenNames x; refine Keeps.keepArm x ?_; rename' x => y)
    | (extract_lets +onlyGivenNames x; refine Keeps.keepMeter x ?_; rename' x => y)
    | (extract_lets +onlyGivenNames x; clear_value x; rename' x => y)
    | split | with_reducible refine Keeps.light ?_ rfl rfl rfl rfl

theorem keeps_rewriteGran (h : Keeps F s t) :
    ∀ x0 x1, (hF : [SField.env, .hostMem, .pcie, .slabs2, .funcs, .hbm] ⊆ F := by assumption) →
    Keeps F s (rewriteGran x0 x1 t) := by
  intro x0 x1 hF
  have f_hbmEvent : [SField.env, .hostMem, .pcie, .slabs2, .funcs] ⊆ F := List.Subset.trans (by decide) hF
  have f_hbmWrite : [SField.hbm] ⊆ F := List.Subset.trans (by decide) hF
  unfold rewriteGran
  repeat'
    first
    | with_reducible assumption | with_reducible apply keeps_hbmEvent | with_reducible apply keeps_hbmWrite
    | (extract_lets +onlyGivenNames x
       refine Keeps.cut (u := x) ?_ fun hx => ?_
       (on_goal 1 => unfold x)
       (on_goal 2 => (clear_value x; rename' x => y)))
    | (extract_lets +onlyGivenNames x; refine Keeps.keepEnv x ?_; rename' x => y)
    | (extract_lets +onlyGivenNames x; refine Keeps.keepSec x ?_; rename' x => y)
    | (extract_lets +onlyGivenNames x; refine Keeps.keepArm x ?_; rename' x => y)
    | (extract_lets +onlyGivenNames x; refine Keeps.keepMeter x ?_; rename' x => y)
    | (extract_lets +onlyGivenNames x; clear_value x; rename' x => y)
    | split

theorem keeps_repairWeights (h : Keeps F s t) :
    ∀ x0, (hF : [SField.env, .hostMem, .pcie, .slabs2, .funcs, .hbm] ⊆ F := by assumption) →
    Keeps F s (repairWeights x0 t) := by
  intro x0 hF
  have f_rewriteGran : [SField.env, .hostMem, .pcie, .slabs2, .funcs, .hbm] ⊆ F := List.Subset.trans (by decide) hF
  unfold repairWeights
  repeat'
    first
    | with_reducible assumption | with_reducible apply keeps_rewriteGran
    | split

theorem keeps_repairFirmware (h : Keeps F s t) :
    ∀ x0, (hF : [SField.env, .hostMem, .pcie, .slabs2, .funcs, .hbm] ⊆ F := by assumption) →
    Keeps F s (repairFirmware x0 t) := by
  intro x0 hF
  have f_rewriteGran : [SField.env, .hostMem, .pcie, .slabs2, .funcs, .hbm] ⊆ F := List.Subset.trans (by decide) hF
  unfold repairFirmware
  repeat'
    first
    | with_reducible assumption | with_reducible apply keeps_rewriteGran
    | (extract_lets +onlyGivenNames x
       refine Keeps.cut (u := x) ?_ fun hx => ?_
       (on_goal 1 => unfold x)
       (on_goal 2 => (clear_value x; rename' x => y)))
    | (extract_lets +onlyGivenNames x; refine Keeps.keepEnv x ?_; rename' x => y)
    | (extract_lets +onlyGivenNames x; refine Keeps.keepSec x ?_; rename' x => y)
    | (extract_lets +onlyGivenNames x; refine Keeps.keepArm x ?_; rename' x => y)
    | (extract_lets +onlyGivenNames x; refine Keeps.keepMeter x ?_; rename' x => y)
    | (extract_lets +onlyGivenNames x; clear_value x; rename' x => y)
    | split

theorem keeps_hbmFault (h : Keeps F s t) :
    ∀ x0 x1, (hF : [SField.env, .hostMem, .pcie, .slabs2, .ports, .ports2, .tiles, .banks, .parts2, .ctxs, .funcs,
        .hbm] ⊆ F := by assumption) →
    Keeps F s (hbmFault x0 x1 t) := by
  intro x0 x1 hF
  have f_hbmFailLog : [SField.env, .hostMem, .pcie, .slabs2, .funcs, .hbm] ⊆ F := List.Subset.trans (by decide) hF
  have f_repairFirmware : [SField.env, .hostMem, .pcie, .slabs2, .funcs, .hbm] ⊆ F := List.Subset.trans (by decide) hF
  have f_repairWeights : [SField.env, .hostMem, .pcie, .slabs2, .funcs, .hbm] ⊆ F := List.Subset.trans (by decide) hF
  have f_loseCtx : [SField.env, .hostMem, .pcie, .slabs2, .ports, .ports2, .tiles, .banks, .parts2, .ctxs, .funcs,
      .hbm] ⊆ F := List.Subset.trans (by decide) hF
  unfold hbmFault
  repeat'
    first
    | with_reducible assumption | with_reducible apply keeps_hbmFailLog | with_reducible apply keeps_repairFirmware
    | with_reducible apply keeps_repairWeights | with_reducible apply keeps_loseCtx
    | (extract_lets +onlyGivenNames x
       refine Keeps.cut (u := x) ?_ fun hx => ?_
       (on_goal 1 => unfold x)
       (on_goal 2 => (clear_value x; rename' x => y)))
    | (extract_lets +onlyGivenNames x; refine Keeps.keepEnv x ?_; rename' x => y)
    | (extract_lets +onlyGivenNames x; refine Keeps.keepSec x ?_; rename' x => y)
    | (extract_lets +onlyGivenNames x; refine Keeps.keepArm x ?_; rename' x => y)
    | (extract_lets +onlyGivenNames x; refine Keeps.keepMeter x ?_; rename' x => y)
    | (extract_lets +onlyGivenNames x; clear_value x; rename' x => y)
    | split

theorem keeps_failCmd (h : Keeps F s t) :
    ∀ x0 x1 x2, (hF : [SField.env, .hostMem, .pcie, .slabs2, .ports, .ports2, .tiles, .tiles2, .banks, .parts2,
        .ctxs, .funcs, .hbm] ⊆ F := by assumption) →
    Keeps F s (failCmd x0 x1 x2 t) := by
  intro x0 x1 x2 hF
  have f_finish : [SField.tiles, .ctxs] ⊆ F := List.Subset.trans (by decide) hF
  have f_ownerRefused : [SField.env, .hostMem, .pcie, .slabs2, .tiles2, .funcs] ⊆ F := List.Subset.trans (by decide)
      hF
  have f_loseCtx : [SField.env, .hostMem, .pcie, .slabs2, .ports, .ports2, .tiles, .banks, .parts2, .ctxs, .funcs,
      .hbm] ⊆ F := List.Subset.trans (by decide) hF
  have f_hbmFault : [SField.env, .hostMem, .pcie, .slabs2, .ports, .ports2, .tiles, .banks, .parts2, .ctxs, .funcs,
      .hbm] ⊆ F := List.Subset.trans (by decide) hF
  unfold failCmd
  repeat'
    first
    | with_reducible assumption | with_reducible apply keeps_finish | with_reducible apply keeps_ownerRefused
    | with_reducible apply keeps_loseCtx | with_reducible apply keeps_hbmFault
    | split

theorem keeps_runCmd (h : Keeps F s t) {c q : Nat} {rd : List CellAt} {ws : List Wr} {accs : List BankAcc}
    {done : State → State} (hd : ∀ u, Keeps F s u → Keeps F s (done u))
    (hF : [SField.env, .hostMem, .pcie, .slabs2, .ports, .ports2, .tiles, .tiles2, .banks, .parts2, .ctxs, .funcs, .bankMem, .hbm] ⊆ F := by assumption) : Keeps F s (runCmd c q rd ws accs done t) := by
  have f_failCmd : [SField.env, .hostMem, .pcie, .slabs2, .ports, .ports2, .tiles, .tiles2, .banks, .parts2, .ctxs,
      .funcs, .hbm] ⊆ F := List.Subset.trans (by decide) hF
  have f_applyWrs : [SField.env, .hostMem, .bankMem, .hbm] ⊆ F := List.Subset.trans (by decide) hF
  unfold runCmd
  split
  · exact keeps_failCmd h _ _ _
  · exact hd _ (keeps_applyWrs h _ _)

end Sys2Proof.Machine
end

