-- ==== Sys2Proof/Laws/KeepsDesc.lean ====
section
/-! SUPPORT. What every operation and meaning of Machine/Desc.lean keeps: the queue, the canonical form, what lasts, and every part
of the state outside its own list. -/

set_option linter.unreachableTactic false
set_option linter.unusedTactic false
set_option linter.unusedVariables false
set_option linter.tactic.unusedName false

namespace Sys2Proof.Machine

open Sys2Proof

-- Proofs one after another: the package compiles as one text under a memory limit.
set_option Elab.async false

variable {F : List SField} {s t : State}

theorem keeps_bindNew (h : Keeps F s t) :
    ∀ x0 x1 x2, (hF : [SField.tiles, .ctxs] ⊆ F := by assumption) →
    Keeps F s (bindNew x0 x1 x2 t) := by
  intro x0 x1 x2 hF
  have b_ctxs : SField.ctxs ∈ F := hF (by decide)
  have f_finish : [SField.tiles, .ctxs] ⊆ F := List.Subset.trans (by decide) hF
  unfold bindNew
  repeat'
    first
    | with_reducible assumption | with_reducible apply keeps_finish | with_reducible apply Keeps.modCtx
    | (extract_lets +onlyGivenNames x
       refine Keeps.cut (u := x) ?_ fun hx => ?_
       (on_goal 1 => unfold x)
       (on_goal 2 => (clear_value x; rename' x => y)))
    | (extract_lets +onlyGivenNames x; refine Keeps.keepEnv x ?_; rename' x => y)
    | (extract_lets +onlyGivenNames x; refine Keeps.keepSec x ?_; rename' x => y)
    | (extract_lets +onlyGivenNames x; refine Keeps.keepArm x ?_; rename' x => y)
    | (extract_lets +onlyGivenNames x; refine Keeps.keepMeter x ?_; rename' x => y)
    | (extract_lets +onlyGivenNames x; clear_value x; rename' x => y)
    | split | with_reducible refine Keeps.light ?_ rfl rfl rfl rfl

theorem keeps_execDescCreate (h : Keeps F s t) :
    ∀ x0 x1, (hF : [SField.tiles, .ctxs] ⊆ F := by assumption) →
    Yields F s (execDescCreate x0 x1 t) := by
  intro x0 x1 hF
  have f_bindNew : [SField.tiles, .ctxs] ⊆ F := List.Subset.trans (by decide) hF
  unfold execDescCreate
  repeat'
    first
    | with_reducible assumption | with_reducible apply keeps_bindNew | with_reducible apply Yields.next
    | (extract_lets +onlyGivenNames x
       refine Yields.cut (u := x) ?_ fun hx => ?_
       (on_goal 1 => unfold x)
       (on_goal 2 => (clear_value x; rename' x => y)))
    | (extract_lets +onlyGivenNames x
       refine Keeps.cut (u := x) ?_ fun hx => ?_
       (on_goal 1 => unfold x)
       (on_goal 2 => (clear_value x; rename' x => y)))
    | (extract_lets +onlyGivenNames x; refine Keeps.keepEnv x ?_; rename' x => y)
    | (extract_lets +onlyGivenNames x; refine Keeps.keepSec x ?_; rename' x => y)
    | (extract_lets +onlyGivenNames x; refine Keeps.keepArm x ?_; rename' x => y)
    | (extract_lets +onlyGivenNames x; refine Keeps.keepMeter x ?_; rename' x => y)
    | (extract_lets +onlyGivenNames x; clear_value x; rename' x => y)
    | split | with_reducible refine Keeps.light ?_ rfl rfl rfl rfl

theorem keeps_execEpiCreate (h : Keeps F s t) :
    ∀ x0 x1, (hF : [SField.tiles, .ctxs] ⊆ F := by assumption) →
    Yields F s (execEpiCreate x0 x1 t) := by
  intro x0 x1 hF
  have f_bindNew : [SField.tiles, .ctxs] ⊆ F := List.Subset.trans (by decide) hF
  unfold execEpiCreate
  repeat'
    first
    | with_reducible assumption | with_reducible apply keeps_bindNew | with_reducible apply Yields.next
    | (extract_lets +onlyGivenNames x
       refine Yields.cut (u := x) ?_ fun hx => ?_
       (on_goal 1 => unfold x)
       (on_goal 2 => (clear_value x; rename' x => y)))
    | (extract_lets +onlyGivenNames x
       refine Keeps.cut (u := x) ?_ fun hx => ?_
       (on_goal 1 => unfold x)
       (on_goal 2 => (clear_value x; rename' x => y)))
    | (extract_lets +onlyGivenNames x; refine Keeps.keepEnv x ?_; rename' x => y)
    | (extract_lets +onlyGivenNames x; refine Keeps.keepSec x ?_; rename' x => y)
    | (extract_lets +onlyGivenNames x; refine Keeps.keepArm x ?_; rename' x => y)
    | (extract_lets +onlyGivenNames x; refine Keeps.keepMeter x ?_; rename' x => y)
    | (extract_lets +onlyGivenNames x; clear_value x; rename' x => y)
    | split | with_reducible refine Keeps.light ?_ rfl rfl rfl rfl

theorem keeps_execConvCreate (h : Keeps F s t) :
    ∀ x0 x1, (hF : [SField.tiles, .ctxs] ⊆ F := by assumption) →
    Yields F s (execConvCreate x0 x1 t) := by
  intro x0 x1 hF
  have f_bindNew : [SField.tiles, .ctxs] ⊆ F := List.Subset.trans (by decide) hF
  unfold execConvCreate
  repeat'
    first
    | with_reducible assumption | with_reducible apply keeps_bindNew | with_reducible apply Yields.next
    | (extract_lets +onlyGivenNames x
       refine Yields.cut (u := x) ?_ fun hx => ?_
       (on_goal 1 => unfold x)
       (on_goal 2 => (clear_value x; rename' x => y)))
    | (extract_lets +onlyGivenNames x
       refine Keeps.cut (u := x) ?_ fun hx => ?_
       (on_goal 1 => unfold x)
       (on_goal 2 => (clear_value x; rename' x => y)))
    | (extract_lets +onlyGivenNames x; refine Keeps.keepEnv x ?_; rename' x => y)
    | (extract_lets +onlyGivenNames x; refine Keeps.keepSec x ?_; rename' x => y)
    | (extract_lets +onlyGivenNames x; refine Keeps.keepArm x ?_; rename' x => y)
    | (extract_lets +onlyGivenNames x; refine Keeps.keepMeter x ?_; rename' x => y)
    | (extract_lets +onlyGivenNames x; clear_value x; rename' x => y)
    | split | with_reducible refine Keeps.light ?_ rfl rfl rfl rfl

theorem keeps_setActed (h : Keeps F s t) :
    ∀ x0 x1, (hF : [SField.ctxs] ⊆ F := by assumption) →
    Keeps F s (setActed x0 x1 t) := by
  intro x0 x1 hF
  have f_modCmd : [SField.ctxs] ⊆ F := List.Subset.trans (by decide) hF
  unfold setActed
  repeat'
    first
    | with_reducible assumption | with_reducible apply keeps_modCmd
    | (extract_lets +onlyGivenNames x
       refine Keeps.cut (u := x) ?_ fun hx => ?_
       (on_goal 1 => unfold x)
       (on_goal 2 => (clear_value x; rename' x => y)))
    | (extract_lets +onlyGivenNames x; refine Keeps.keepEnv x ?_; rename' x => y)
    | (extract_lets +onlyGivenNames x; refine Keeps.keepSec x ?_; rename' x => y)
    | (extract_lets +onlyGivenNames x; refine Keeps.keepArm x ?_; rename' x => y)
    | (extract_lets +onlyGivenNames x; refine Keeps.keepMeter x ?_; rename' x => y)
    | (extract_lets +onlyGivenNames x; clear_value x; rename' x => y)
    | split | with_reducible refine Keeps.light ?_ rfl rfl rfl rfl

theorem keeps_execDescDestroy (h : Keeps F s t) :
    ∀ x0 x1, (hF : [SField.ctxs] ⊆ F := by assumption) →
    Yields F s (execDescDestroy x0 x1 t) := by
  intro x0 x1 hF
  have b_ctxs : SField.ctxs ∈ F := hF (by decide)
  have f_setActed : [SField.ctxs] ⊆ F := List.Subset.trans (by decide) hF
  unfold execDescDestroy
  repeat'
    first
    | with_reducible assumption | with_reducible apply keeps_setActed | with_reducible apply Keeps.modCtx
    | with_reducible apply Yields.next
    | (extract_lets +onlyGivenNames x
       refine Yields.cut (u := x) ?_ fun hx => ?_
       (on_goal 1 => unfold x)
       (on_goal 2 => (clear_value x; rename' x => y)))
    | (extract_lets +onlyGivenNames x
       refine Keeps.cut (u := x) ?_ fun hx => ?_
       (on_goal 1 => unfold x)
       (on_goal 2 => (clear_value x; rename' x => y)))
    | (extract_lets +onlyGivenNames x; refine Keeps.keepEnv x ?_; rename' x => y)
    | (extract_lets +onlyGivenNames x; refine Keeps.keepSec x ?_; rename' x => y)
    | (extract_lets +onlyGivenNames x; refine Keeps.keepArm x ?_; rename' x => y)
    | (extract_lets +onlyGivenNames x; refine Keeps.keepMeter x ?_; rename' x => y)
    | (extract_lets +onlyGivenNames x; clear_value x; rename' x => y)
    | split | with_reducible refine Keeps.light ?_ rfl rfl rfl rfl

theorem keeps_endUnbound (h : Keeps F s t) :
    ∀ x0 x1 x2, (hF : [SField.tiles, .ctxs] ⊆ F := by assumption) →
    Keeps F s (endUnbound x0 x1 x2 t) := by
  intro x0 x1 x2 hF
  have f_setActed : [SField.ctxs] ⊆ F := List.Subset.trans (by decide) hF
  have f_modCmd : [SField.ctxs] ⊆ F := List.Subset.trans (by decide) hF
  have f_finish : [SField.tiles, .ctxs] ⊆ F := List.Subset.trans (by decide) hF
  unfold endUnbound
  repeat'
    first
    | with_reducible assumption | with_reducible apply keeps_setActed | with_reducible apply keeps_modCmd
    | with_reducible apply keeps_finish
    | split

theorem keeps_execDescRelease (h : Keeps F s t) :
    ∀ x0 x1, (hF : [SField.tiles, .ctxs] ⊆ F := by assumption) →
    Yields F s (execDescRelease x0 x1 t) := by
  intro x0 x1 hF
  have f_finish : [SField.tiles, .ctxs] ⊆ F := List.Subset.trans (by decide) hF
  unfold execDescRelease
  repeat'
    first
    | with_reducible assumption | with_reducible apply keeps_finish | with_reducible apply Yields.next
    | split

end Sys2Proof.Machine
end

