-- ==== Sys2Proof/Laws/KeepsBrew.lean ====
section
/-! SUPPORT. What every operation and meaning of Machine/Brew.lean keeps: the queue, the canonical form, what lasts, and every part
of the state outside its own list. -/

set_option linter.unreachableTactic false
set_option linter.unusedTactic false
set_option linter.unusedVariables false
set_option linter.tactic.unusedName false

namespace Sys2Proof.Machine

open Sys2Proof

-- Proofs one after another: the package compiles as one text under a memory limit.
set_option Elab.async false

variable {F : List SField} {s t : State}

theorem keeps_takeDraw (h : Keeps F s t) :
    ∀ x0 x1 x2, (hF : [SField.ctxs] ⊆ F := by assumption) →
    Keeps F s (takeDraw x0 x1 x2 t) := by
  intro x0 x1 x2 hF
  have b_ctxs : SField.ctxs ∈ F := hF (by decide)
  have f_modCmd : [SField.ctxs] ⊆ F := List.Subset.trans (by decide) hF
  unfold takeDraw
  repeat'
    first
    | with_reducible assumption | with_reducible apply keeps_modCmd | with_reducible apply Keeps.modCtx
    | (extract_lets +onlyGivenNames x
       refine Keeps.cut (u := x) ?_ fun hx => ?_
       (on_goal 1 => unfold x)
       (on_goal 2 => (clear_value x; rename' x => y)))
    | (extract_lets +onlyGivenNames x; refine Keeps.keepEnv x ?_; rename' x => y)
    | (extract_lets +onlyGivenNames x; refine Keeps.keepSec x ?_; rename' x => y)
    | (extract_lets +onlyGivenNames x; refine Keeps.keepArm x ?_; rename' x => y)
    | (extract_lets +onlyGivenNames x; refine Keeps.keepMeter x ?_; rename' x => y)
    | (extract_lets +onlyGivenNames x; clear_value x; rename' x => y)
    | split | with_reducible refine Keeps.light ?_ rfl rfl rfl rfl

theorem keeps_execBrewSeed (h : Keeps F s t) :
    ∀ x0 x1, (hF : [SField.tiles, .ctxs] ⊆ F := by assumption) →
    Yields F s (execBrewSeed x0 x1 t) := by
  intro x0 x1 hF
  have b_ctxs : SField.ctxs ∈ F := hF (by decide)
  have f_finish : [SField.tiles, .ctxs] ⊆ F := List.Subset.trans (by decide) hF
  unfold execBrewSeed
  repeat'
    first
    | with_reducible assumption | with_reducible apply keeps_finish | with_reducible apply Keeps.modCtx
    | with_reducible apply Yields.next
    | (extract_lets +onlyGivenNames x
       refine Yields.cut (u := x) ?_ fun hx => ?_
       (on_goal 1 => unfold x)
       (on_goal 2 => (clear_value x; rename' x => y)))
    | (extract_lets +onlyGivenNames x
       refine Keeps.cut (u := x) ?_ fun hx => ?_
       (on_goal 1 => unfold x)
       (on_goal 2 => (clear_value x; rename' x => y)))
    | (extract_lets +onlyGivenNames x; refine Keeps.keepEnv x ?_; rename' x => y)
    | (extract_lets +onlyGivenNames x; refine Keeps.keepSec x ?_; rename' x => y)
    | (extract_lets +onlyGivenNames x; refine Keeps.keepArm x ?_; rename' x => y)
    | (extract_lets +onlyGivenNames x; refine Keeps.keepMeter x ?_; rename' x => y)
    | (extract_lets +onlyGivenNames x; clear_value x; rename' x => y)
    | split | with_reducible refine Keeps.light ?_ rfl rfl rfl rfl

theorem keeps_execBrewStream (h : Keeps F s t) :
    ∀ x0 x1, (hF : [SField.tiles, .ctxs] ⊆ F := by assumption) →
    Yields F s (execBrewStream x0 x1 t) := by
  intro x0 x1 hF
  have b_ctxs : SField.ctxs ∈ F := hF (by decide)
  have f_finish : [SField.tiles, .ctxs] ⊆ F := List.Subset.trans (by decide) hF
  unfold execBrewStream
  repeat'
    first
    | with_reducible assumption | with_reducible apply keeps_finish | with_reducible apply Keeps.modCtx
    | with_reducible apply Yields.next
    | (extract_lets +onlyGivenNames x
       refine Yields.cut (u := x) ?_ fun hx => ?_
       (on_goal 1 => unfold x)
       (on_goal 2 => (clear_value x; rename' x => y)))
    | (extract_lets +onlyGivenNames x
       refine Keeps.cut (u := x) ?_ fun hx => ?_
       (on_goal 1 => unfold x)
       (on_goal 2 => (clear_value x; rename' x => y)))
    | (extract_lets +onlyGivenNames x; refine Keeps.keepEnv x ?_; rename' x => y)
    | (extract_lets +onlyGivenNames x; refine Keeps.keepSec x ?_; rename' x => y)
    | (extract_lets +onlyGivenNames x; refine Keeps.keepArm x ?_; rename' x => y)
    | (extract_lets +onlyGivenNames x; refine Keeps.keepMeter x ?_; rename' x => y)
    | (extract_lets +onlyGivenNames x; clear_value x; rename' x => y)
    | split | with_reducible refine Keeps.light ?_ rfl rfl rfl rfl

end Sys2Proof.Machine
end

