-- ==== Sys2Proof/Laws/KeepsFlags.lean ====
section
/-! SUPPORT. What every operation and meaning of Machine/Flags.lean keeps: the queue, the canonical form, what lasts, and every part
of the state outside its own list. -/

set_option linter.unreachableTactic false
set_option linter.unusedTactic false
set_option linter.unusedVariables false
set_option linter.tactic.unusedName false

namespace Sys2Proof.Machine

open Sys2Proof

-- Proofs one after another: the package compiles as one text under a memory limit.
set_option Elab.async false

variable {F : List SField} {s t : State}

theorem keeps_finishT (h : Keeps F s t) :
    ∀ x0 x1 x2 x3 x4, (hF : [SField.tiles, .ctxs] ⊆ F := by assumption) →
    Keeps F s (finishT x0 x1 x2 x3 x4 t) := by
  intro x0 x1 x2 x3 x4 hF
  have f_finishA : [SField.tiles, .ctxs] ⊆ F := List.Subset.trans (by decide) hF
  unfold finishT
  repeat'
    first
    | with_reducible assumption | with_reducible apply keeps_finishA
    | (extract_lets +onlyGivenNames x
       refine Keeps.cut (u := x) ?_ fun hx => ?_
       (on_goal 1 => unfold x)
       (on_goal 2 => (clear_value x; rename' x => y)))
    | (extract_lets +onlyGivenNames x; refine Keeps.keepEnv x ?_; rename' x => y)
    | (extract_lets +onlyGivenNames x; refine Keeps.keepSec x ?_; rename' x => y)
    | (extract_lets +onlyGivenNames x; refine Keeps.keepArm x ?_; rename' x => y)
    | (extract_lets +onlyGivenNames x; refine Keeps.keepMeter x ?_; rename' x => y)
    | (extract_lets +onlyGivenNames x; clear_value x; rename' x => y)
    | split | with_reducible refine Keeps.light ?_ rfl rfl rfl rfl

theorem keeps_useFree (h : Keeps F s t) :
    ∀ x0, (hF : [SField.env] ⊆ F := by assumption) →
    Keeps F s (useFree x0 t) := by
  intro x0 hF
  have b_env : SField.env ∈ F := hF (by decide)
  unfold useFree
  repeat'
    first
    | with_reducible assumption
    | (extract_lets +onlyGivenNames x
       refine Keeps.cut (u := x) ?_ fun hx => ?_
       (on_goal 1 => unfold x)
       (on_goal 2 => (clear_value x; rename' x => y)))
    | (extract_lets +onlyGivenNames x; refine Keeps.keepEnv x ?_; rename' x => y)
    | (extract_lets +onlyGivenNames x; refine Keeps.keepSec x ?_; rename' x => y)
    | (extract_lets +onlyGivenNames x; refine Keeps.keepArm x ?_; rename' x => y)
    | (extract_lets +onlyGivenNames x; refine Keeps.keepMeter x ?_; rename' x => y)
    | (extract_lets +onlyGivenNames x; clear_value x; rename' x => y)
    | split | with_reducible refine Keeps.light ?_ rfl rfl rfl rfl

theorem keeps_Work_run (h : Keeps F s t) {w : Work} {c q : Nat} {more : State → State}
    (hd : ∀ u, Keeps F s u → Keeps F s (more u)) (hF : [SField.env, .hostMem, .pcie, .slabs2, .ports, .ports2, .tiles, .tiles2, .banks, .parts2, .ctxs, .funcs, .bankMem, .hbm] ⊆ F := by assumption) :
    Keeps F s (w.run c q more t) := by
  have f_runCmd : [SField.env, .hostMem, .pcie, .slabs2, .ports, .ports2, .tiles, .tiles2, .banks, .parts2, .ctxs,
      .funcs, .bankMem, .hbm] ⊆ F := List.Subset.trans (by decide) hF
  have f_finishT : [SField.tiles, .ctxs] ⊆ F := List.Subset.trans (by decide) hF
  have f_useFree : [SField.env] ⊆ F := List.Subset.trans (by decide) hF
  exact keeps_runCmd h fun _ hu => keeps_finishT (hd _ (keeps_useFree hu _)) _ _ _ _ _

end Sys2Proof.Machine
end

