-- ==== Sys2Proof/Laws/KeepsEltwise.lean ====
section
/-! SUPPORT. What every operation and meaning of Machine/Eltwise.lean keeps: the queue, the canonical form, what lasts, and every part
of the state outside its own list. -/

set_option linter.unreachableTactic false
set_option linter.unusedTactic false
set_option linter.unusedVariables false
set_option linter.tactic.unusedName false

namespace Sys2Proof.Machine

open Sys2Proof

-- Proofs one after another: the package compiles as one text under a memory limit.
set_option Elab.async false

variable {F : List SField} {s t : State}

theorem keeps_execEltwise (h : Keeps F s t) :
    ∀ x0 x1, (hF : [SField.env, .hostMem, .pcie, .slabs2, .ports, .ports2, .tiles, .tiles2, .banks, .parts2, .ctxs,
        .funcs, .bankMem, .hbm] ⊆ F := by assumption) →
    Yields F s (execEltwise x0 x1 t) := by
  intro x0 x1 hF
  have f_Work_run : [SField.env, .hostMem, .pcie, .slabs2, .ports, .ports2, .tiles, .tiles2, .banks, .parts2, .ctxs,
      .funcs, .bankMem, .hbm] ⊆ F := List.Subset.trans (by decide) hF
  revert x0 x1
  intro c q
  unfold execEltwise
  split
  · exact Yields.next h
  · exact Yields.next (keeps_Work_run h fun _ hu => hu)

theorem keeps_execRowstat (h : Keeps F s t) :
    ∀ x0 x1, (hF : [SField.env, .hostMem, .pcie, .slabs2, .ports, .ports2, .tiles, .tiles2, .banks, .parts2, .ctxs,
        .funcs, .bankMem, .hbm] ⊆ F := by assumption) →
    Yields F s (execRowstat x0 x1 t) := by
  intro x0 x1 hF
  have f_Work_run : [SField.env, .hostMem, .pcie, .slabs2, .ports, .ports2, .tiles, .tiles2, .banks, .parts2, .ctxs,
      .funcs, .bankMem, .hbm] ⊆ F := List.Subset.trans (by decide) hF
  revert x0 x1
  intro c q
  unfold execRowstat
  split
  · exact Yields.next h
  · exact Yields.next (keeps_Work_run h fun _ hu => hu)

theorem keeps_execSoftmax (h : Keeps F s t) :
    ∀ x0 x1, (hF : [SField.env, .hostMem, .pcie, .slabs2, .ports, .ports2, .tiles, .tiles2, .banks, .parts2, .ctxs,
        .funcs, .bankMem, .hbm] ⊆ F := by assumption) →
    Yields F s (execSoftmax x0 x1 t) := by
  intro x0 x1 hF
  have f_Work_run : [SField.env, .hostMem, .pcie, .slabs2, .ports, .ports2, .tiles, .tiles2, .banks, .parts2, .ctxs,
      .funcs, .bankMem, .hbm] ⊆ F := List.Subset.trans (by decide) hF
  revert x0 x1
  intro c q
  unfold execSoftmax
  split
  · exact Yields.next h
  · exact Yields.next (keeps_Work_run h fun _ hu => hu)

theorem keeps_execRandom (h : Keeps F s t) :
    ∀ x0 x1, (hF : [SField.env, .hostMem, .pcie, .slabs2, .ports, .ports2, .tiles, .tiles2, .banks, .parts2, .ctxs,
        .funcs, .bankMem, .hbm] ⊆ F := by assumption) →
    Yields F s (execRandom x0 x1 t) := by
  intro x0 x1 hF
  have f_Work_run : [SField.env, .hostMem, .pcie, .slabs2, .ports, .ports2, .tiles, .tiles2, .banks, .parts2, .ctxs,
      .funcs, .bankMem, .hbm] ⊆ F := List.Subset.trans (by decide) hF
  revert x0 x1
  intro c q
  unfold execRandom
  split
  · exact Yields.next h
  · exact Yields.next (keeps_Work_run h fun _ hu => hu)

theorem keeps_execStrain (h : Keeps F s t) :
    ∀ x0 x1, (hF : [SField.env, .hostMem, .pcie, .slabs2, .ports, .ports2, .tiles, .tiles2, .banks, .parts2, .ctxs,
        .funcs, .bankMem, .hbm] ⊆ F := by assumption) →
    Yields F s (execStrain x0 x1 t) := by
  intro x0 x1 hF
  have f_Work_run : [SField.env, .hostMem, .pcie, .slabs2, .ports, .ports2, .tiles, .tiles2, .banks, .parts2, .ctxs,
      .funcs, .bankMem, .hbm] ⊆ F := List.Subset.trans (by decide) hF
  revert x0 x1
  intro c q
  unfold execStrain
  split
  · exact Yields.next h
  · exact Yields.next (keeps_Work_run h fun _ hu => hu)

theorem keeps_execVecLoad (h : Keeps F s t) :
    ∀ x0 x1, (hF : [SField.ctxs] ⊆ F := by assumption) →
    Yields F s (execVecLoad x0 x1 t) := by
  intro x0 x1 hF
  have f_setActed : [SField.ctxs] ⊆ F := List.Subset.trans (by decide) hF
  unfold execVecLoad
  repeat'
    first
    | with_reducible assumption | with_reducible apply keeps_setActed | with_reducible apply Yields.next
    | (extract_lets +onlyGivenNames x
       refine Yields.cut (u := x) ?_ fun hx => ?_
       (on_goal 1 => unfold x)
       (on_goal 2 => (clear_value x; rename' x => y)))
    | (extract_lets +onlyGivenNames x
       refine Keeps.cut (u := x) ?_ fun hx => ?_
       (on_goal 1 => unfold x)
       (on_goal 2 => (clear_value x; rename' x => y)))
    | (extract_lets +onlyGivenNames x; refine Keeps.keepEnv x ?_; rename' x => y)
    | (extract_lets +onlyGivenNames x; refine Keeps.keepSec x ?_; rename' x => y)
    | (extract_lets +onlyGivenNames x; refine Keeps.keepArm x ?_; rename' x => y)
    | (extract_lets +onlyGivenNames x; refine Keeps.keepMeter x ?_; rename' x => y)
    | (extract_lets +onlyGivenNames x; clear_value x; rename' x => y)
    | split | with_reducible refine Keeps.light ?_ rfl rfl rfl rfl

theorem keeps_switchSlot (h : Keeps F s t) :
    ∀ x0 x1 x2, (hF : [SField.env, .hostMem, .pcie, .slabs, .tiles2, .funcs] ⊆ F := by assumption) →
    Keeps F s (switchSlot x0 x1 x2 t) := by
  intro x0 x1 x2 hF
  have b_slabs : SField.slabs ∈ F := hF (by decide)
  have b_tiles2 : SField.tiles2 ∈ F := hF (by decide)
  have f_vecEvent : [SField.env, .hostMem, .pcie, .slabs, .funcs] ⊆ F := List.Subset.trans (by decide) hF
  unfold switchSlot
  repeat'
    first
    | with_reducible assumption | with_reducible apply keeps_vecEvent | with_reducible apply Keeps.modSlab
    | with_reducible apply Keeps.modTile2 | with_reducible (refine Keeps.forAll ?_ _ _ fun _ _ _ => ?_)
    | (extract_lets +onlyGivenNames x
       refine Keeps.cut (u := x) ?_ fun hx => ?_
       (on_goal 1 => unfold x)
       (on_goal 2 => (clear_value x; rename' x => y)))
    | (extract_lets +onlyGivenNames x; refine Keeps.keepEnv x ?_; rename' x => y)
    | (extract_lets +onlyGivenNames x; refine Keeps.keepSec x ?_; rename' x => y)
    | (extract_lets +onlyGivenNames x; refine Keeps.keepArm x ?_; rename' x => y)
    | (extract_lets +onlyGivenNames x; refine Keeps.keepMeter x ?_; rename' x => y)
    | (extract_lets +onlyGivenNames x; clear_value x; rename' x => y)
    | split

theorem keeps_execVecLoadSwitch (h : Keeps F s t) :
    ∀ x0 x1, (hF : [SField.env, .hostMem, .pcie, .slabs, .tiles, .tiles2, .ctxs, .funcs] ⊆ F := by assumption) →
    Yields F s (execVecLoadSwitch x0 x1 t) := by
  intro x0 x1 hF
  have f_finish : [SField.tiles, .ctxs] ⊆ F := List.Subset.trans (by decide) hF
  have f_switchSlot : [SField.env, .hostMem, .pcie, .slabs, .tiles2, .funcs] ⊆ F := List.Subset.trans (by decide) hF
  unfold execVecLoadSwitch
  repeat'
    first
    | with_reducible assumption | with_reducible apply keeps_finish | with_reducible apply keeps_switchSlot
    | with_reducible (refine Keeps.forAll ?_ _ _ fun _ _ _ => ?_) | with_reducible apply Yields.next
    | (extract_lets +onlyGivenNames x
       refine Yields.cut (u := x) ?_ fun hx => ?_
       (on_goal 1 => unfold x)
       (on_goal 2 => (clear_value x; rename' x => y)))
    | (extract_lets +onlyGivenNames x
       refine Keeps.cut (u := x) ?_ fun hx => ?_
       (on_goal 1 => unfold x)
       (on_goal 2 => (clear_value x; rename' x => y)))
    | (extract_lets +onlyGivenNames x; refine Keeps.keepEnv x ?_; rename' x => y)
    | (extract_lets +onlyGivenNames x; refine Keeps.keepSec x ?_; rename' x => y)
    | (extract_lets +onlyGivenNames x; refine Keeps.keepArm x ?_; rename' x => y)
    | (extract_lets +onlyGivenNames x; refine Keeps.keepMeter x ?_; rename' x => y)
    | (extract_lets +onlyGivenNames x; clear_value x; rename' x => y)
    | split

theorem keeps_putTblEntry (h : Keeps F s t) :
    ∀ x0 x1 x2 x3 x4 x5, (hF : [SField.tiles2] ⊆ F := by assumption) →
    Keeps F s (putTblEntry x0 x1 x2 x3 x4 x5 t) := by
  intro x0 x1 x2 x3 x4 x5 hF
  have b_tiles2 : SField.tiles2 ∈ F := hF (by decide)
  unfold putTblEntry
  repeat'
    first
    | with_reducible assumption | with_reducible apply Keeps.modTile2
    | split

theorem keeps_execVtblSlopeWrite (h : Keeps F s t) :
    ∀ x0 x1 x2, (hF : [SField.env, .hostMem, .pcie, .slabs, .tiles2, .funcs] ⊆ F := by assumption) →
    Yields F s (execVtblSlopeWrite x0 x1 x2 t) := by
  intro x0 x1 x2 hF
  have b_slabs : SField.slabs ∈ F := hF (by decide)
  have f_putTblEntry : [SField.tiles2] ⊆ F := List.Subset.trans (by decide) hF
  have f_vecEvent : [SField.env, .hostMem, .pcie, .slabs, .funcs] ⊆ F := List.Subset.trans (by decide) hF
  unfold execVtblSlopeWrite
  repeat'
    first
    | with_reducible assumption | with_reducible apply keeps_putTblEntry | with_reducible apply keeps_vecEvent
    | with_reducible apply Keeps.modSlab | with_reducible (refine Keeps.forAll ?_ _ _ fun _ _ _ => ?_)
    | with_reducible apply Yields.next
    | (extract_lets +onlyGivenNames x
       refine Yields.cut (u := x) ?_ fun hx => ?_
       (on_goal 1 => unfold x)
       (on_goal 2 => (clear_value x; rename' x => y)))
    | (extract_lets +onlyGivenNames x
       refine Keeps.cut (u := x) ?_ fun hx => ?_
       (on_goal 1 => unfold x)
       (on_goal 2 => (clear_value x; rename' x => y)))
    | (extract_lets +onlyGivenNames x; refine Keeps.keepEnv x ?_; rename' x => y)
    | (extract_lets +onlyGivenNames x; refine Keeps.keepSec x ?_; rename' x => y)
    | (extract_lets +onlyGivenNames x; refine Keeps.keepArm x ?_; rename' x => y)
    | (extract_lets +onlyGivenNames x; refine Keeps.keepMeter x ?_; rename' x => y)
    | (extract_lets +onlyGivenNames x; clear_value x; rename' x => y)
    | split

end Sys2Proof.Machine
end

