-- ==== Sys2Proof/Laws/KeepsMatrix.lean ====
section
/-! SUPPORT. What every operation and meaning of Machine/Matrix.lean keeps: the queue, the canonical form, what lasts, and every part
of the state outside its own list. -/

set_option linter.unreachableTactic false
set_option linter.unusedTactic false
set_option linter.unusedVariables false
set_option linter.tactic.unusedName false

namespace Sys2Proof.Machine

open Sys2Proof

-- Proofs one after another: the package compiles as one text under a memory limit.
set_option Elab.async false

variable {F : List SField} {s t : State}

theorem keeps_execMatrixProduct (h : Keeps F s t) :
    ∀ x0 x1, (hF : [SField.env, .hostMem, .pcie, .slabs2, .ports, .ports2, .tiles, .tiles2, .banks, .parts2, .ctxs,
        .funcs, .bankMem, .hbm] ⊆ F := by assumption) →
    Yields F s (execMatrixProduct x0 x1 t) := by
  intro x0 x1 hF
  have f_Work_run : [SField.env, .hostMem, .pcie, .slabs2, .ports, .ports2, .tiles, .tiles2, .banks, .parts2, .ctxs,
      .funcs, .bankMem, .hbm] ⊆ F := List.Subset.trans (by decide) hF
  revert x0 x1
  intro c q
  unfold execMatrixProduct
  split
  · exact Yields.next h
  · exact Yields.next (keeps_Work_run h fun _ hu => hu)

end Sys2Proof.Machine
end

