-- ==== Sys2Proof/Laws/KeepsCaddy.lean ====
section
/-! SUPPORT. What every operation and meaning of Machine/Caddy.lean keeps: the queue, the canonical form, what lasts, and every part
of the state outside its own list. -/

set_option linter.unreachableTactic false
set_option linter.unusedTactic false
set_option linter.unusedVariables false
set_option linter.tactic.unusedName false

namespace Sys2Proof.Machine

open Sys2Proof

-- Proofs one after another: the package compiles as one text under a memory limit.
set_option Elab.async false

variable {F : List SField} {s t : State}

theorem keeps_takeLeaves {c n : Nat} {ls : List Nat} {u : State} (hq : takeLeaves c n t = (ls, u)) (h : Keeps F s t)
    (hF : [SField.env, .hostMem, .pcie, .parts, .parts2, .funcs, .hbm] ⊆ F := by assumption) :
    Keeps F s u := by
  have b_parts : SField.parts ∈ F := hF (by decide)
  have b_parts2 : SField.parts2 ∈ F := hF (by decide)
  have f_kvEvent : [SField.env, .hostMem, .pcie, .parts2, .funcs] ⊆ F := List.Subset.trans (by decide) hF
  have f_hbmUnwrite : [SField.hbm] ⊆ F := List.Subset.trans (by decide) hF
  obtain ⟨-, rfl⟩ := Prod.mk.inj hq
  repeat'
    first
    | with_reducible assumption | with_reducible apply keeps_kvEvent | with_reducible apply Keeps.modPart
    | with_reducible (refine Keeps.forAll ?_ _ _ fun _ _ _ => ?_) | with_reducible apply Keeps.modPart2
    | with_reducible apply keeps_hbmUnwrite | split

theorem keeps_issueKvAppend (h : Keeps F s t) :
    ∀ x0 x1 x2 x3, (hF : [SField.env, .hostMem, .pcie, .parts, .parts2, .ctxs, .funcs, .hbm] ⊆ F := by assumption) →
    Keeps F s (issueKvAppend x0 x1 x2 x3 t) := by
  intro x0 x1 x2 x3 hF
  have f_modCmd : [SField.ctxs] ⊆ F := List.Subset.trans (by decide) hF
  have f_takeLeaves : [SField.env, .hostMem, .pcie, .parts, .parts2, .funcs, .hbm] ⊆ F := List.Subset.trans (by
      decide) hF
  unfold issueKvAppend
  dsimp only
  split
  · exact h
  · exact keeps_modCmd (keeps_takeLeaves rfl h) _ _ _

theorem keeps_execKvSeqCreate (h : Keeps F s t) :
    ∀ x0 x1, (hF : [SField.env, .hostMem, .pcie, .slabs2, .ports, .ports2, .tiles, .tiles2, .banks, .parts2, .ctxs,
        .funcs, .bankMem, .hbm] ⊆ F := by assumption) →
    Yields F s (execKvSeqCreate x0 x1 t) := by
  intro x0 x1 hF
  have b_ctxs : SField.ctxs ∈ F := hF (by decide)
  have f_Work_run : [SField.env, .hostMem, .pcie, .slabs2, .ports, .ports2, .tiles, .tiles2, .banks, .parts2, .ctxs,
      .funcs, .bankMem, .hbm] ⊆ F := List.Subset.trans (by decide) hF
  unfold execKvSeqCreate
  repeat'
    first
    | with_reducible assumption | with_reducible apply keeps_Work_run | with_reducible apply Keeps.modCtx
    | with_reducible apply Yields.next
    | (extract_lets +onlyGivenNames x
       refine Yields.cut (u := x) ?_ fun hx => ?_
       (on_goal 1 => unfold x)
       (on_goal 2 => (clear_value x; rename' x => y)))
    | (extract_lets +onlyGivenNames x
       refine Keeps.cut (u := x) ?_ fun hx => ?_
       (on_goal 1 => unfold x)
       (on_goal 2 => (clear_value x; rename' x => y)))
    | (extract_lets +onlyGivenNames x; refine Keeps.keepEnv x ?_; rename' x => y)
    | (extract_lets +onlyGivenNames x; refine Keeps.keepSec x ?_; rename' x => y)
    | (extract_lets +onlyGivenNames x; refine Keeps.keepArm x ?_; rename' x => y)
    | (extract_lets +onlyGivenNames x; refine Keeps.keepMeter x ?_; rename' x => y)
    | (extract_lets +onlyGivenNames x; clear_value x; rename' x => y)
    | split | with_reducible refine Keeps.light ?_ rfl rfl rfl rfl
    | (intro u hu; beta_reduce)

theorem keeps_setLen (h : Keeps F s t) :
    ∀ x0 x1 x2, (hF : [SField.ctxs] ⊆ F := by assumption) →
    Keeps F s (setLen x0 x1 x2 t) := by
  intro x0 x1 x2 hF
  have b_ctxs : SField.ctxs ∈ F := hF (by decide)
  unfold setLen
  repeat'
    first
    | with_reducible assumption | with_reducible apply Keeps.modCtx
    | (extract_lets +onlyGivenNames x
       refine Keeps.cut (u := x) ?_ fun hx => ?_
       (on_goal 1 => unfold x)
       (on_goal 2 => (clear_value x; rename' x => y)))
    | (extract_lets +onlyGivenNames x; refine Keeps.keepEnv x ?_; rename' x => y)
    | (extract_lets +onlyGivenNames x; refine Keeps.keepSec x ?_; rename' x => y)
    | (extract_lets +onlyGivenNames x; refine Keeps.keepArm x ?_; rename' x => y)
    | (extract_lets +onlyGivenNames x; refine Keeps.keepMeter x ?_; rename' x => y)
    | (extract_lets +onlyGivenNames x; clear_value x; rename' x => y)
    | split | with_reducible refine Keeps.light ?_ rfl rfl rfl rfl

theorem keeps_execKvAppend (h : Keeps F s t) :
    ∀ x0 x1, (hF : [SField.env, .hostMem, .pcie, .slabs2, .ports, .ports2, .tiles, .tiles2, .banks, .parts2, .ctxs,
        .funcs, .bankMem, .hbm] ⊆ F := by assumption) →
    Yields F s (execKvAppend x0 x1 t) := by
  intro x0 x1 hF
  have b_parts2 : SField.parts2 ∈ F := hF (by decide)
  have f_Work_run : [SField.env, .hostMem, .pcie, .slabs2, .ports, .ports2, .tiles, .tiles2, .banks, .parts2, .ctxs,
      .funcs, .bankMem, .hbm] ⊆ F := List.Subset.trans (by decide) hF
  have f_releaseLeaf : [SField.parts2] ⊆ F := List.Subset.trans (by decide) hF
  have f_labInvalidate : [SField.slabs2] ⊆ F := List.Subset.trans (by decide) hF
  have f_setLen : [SField.ctxs] ⊆ F := List.Subset.trans (by decide) hF
  unfold execKvAppend
  repeat'
    first
    | with_reducible assumption | with_reducible apply keeps_Work_run
    | with_reducible (refine Keeps.forAll ?_ _ _ fun _ _ _ => ?_) | with_reducible apply keeps_releaseLeaf
    | with_reducible apply Keeps.modPart2 | with_reducible apply keeps_labInvalidate
    | with_reducible apply keeps_setLen | with_reducible apply Yields.next
    | (extract_lets +onlyGivenNames x
       refine Yields.cut (u := x) ?_ fun hx => ?_
       (on_goal 1 => unfold x)
       (on_goal 2 => (clear_value x; rename' x => y)))
    | (extract_lets +onlyGivenNames x
       refine Keeps.cut (u := x) ?_ fun hx => ?_
       (on_goal 1 => unfold x)
       (on_goal 2 => (clear_value x; rename' x => y)))
    | (extract_lets +onlyGivenNames x; refine Keeps.keepEnv x ?_; rename' x => y)
    | (extract_lets +onlyGivenNames x; refine Keeps.keepSec x ?_; rename' x => y)
    | (extract_lets +onlyGivenNames x; refine Keeps.keepArm x ?_; rename' x => y)
    | (extract_lets +onlyGivenNames x; refine Keeps.keepMeter x ?_; rename' x => y)
    | (extract_lets +onlyGivenNames x; clear_value x; rename' x => y)
    | split | with_reducible refine Keeps.light ?_ rfl rfl rfl rfl
    | (intro u hu; beta_reduce)

theorem keeps_addRef (h : Keeps F s t) :
    ∀ x0 x1, (hF : [SField.parts2] ⊆ F := by assumption) →
    Keeps F s (addRef x0 x1 t) := by
  intro x0 x1 hF
  have b_parts2 : SField.parts2 ∈ F := hF (by decide)
  unfold addRef
  repeat'
    first
    | with_reducible assumption | with_reducible apply Keeps.modPart2
    | (extract_lets +onlyGivenNames x
       refine Keeps.cut (u := x) ?_ fun hx => ?_
       (on_goal 1 => unfold x)
       (on_goal 2 => (clear_value x; rename' x => y)))
    | (extract_lets +onlyGivenNames x; refine Keeps.keepEnv x ?_; rename' x => y)
    | (extract_lets +onlyGivenNames x; refine Keeps.keepSec x ?_; rename' x => y)
    | (extract_lets +onlyGivenNames x; refine Keeps.keepArm x ?_; rename' x => y)
    | (extract_lets +onlyGivenNames x; refine Keeps.keepMeter x ?_; rename' x => y)
    | (extract_lets +onlyGivenNames x; clear_value x; rename' x => y)
    | split | with_reducible refine Keeps.light ?_ rfl rfl rfl rfl

theorem keeps_execKvFork (h : Keeps F s t) :
    ∀ x0 x1, (hF : [SField.env, .hostMem, .pcie, .slabs2, .ports, .ports2, .tiles, .tiles2, .banks, .parts2, .ctxs,
        .funcs, .bankMem, .hbm] ⊆ F := by assumption) →
    Yields F s (execKvFork x0 x1 t) := by
  intro x0 x1 hF
  have f_Work_run : [SField.env, .hostMem, .pcie, .slabs2, .ports, .ports2, .tiles, .tiles2, .banks, .parts2, .ctxs,
      .funcs, .bankMem, .hbm] ⊆ F := List.Subset.trans (by decide) hF
  have f_labInvalidate : [SField.slabs2] ⊆ F := List.Subset.trans (by decide) hF
  have f_setLen : [SField.ctxs] ⊆ F := List.Subset.trans (by decide) hF
  have f_addRef : [SField.parts2] ⊆ F := List.Subset.trans (by decide) hF
  unfold execKvFork
  repeat'
    first
    | with_reducible assumption | with_reducible apply keeps_Work_run | with_reducible apply keeps_labInvalidate
    | with_reducible apply keeps_setLen | with_reducible (refine Keeps.forAll ?_ _ _ fun _ _ _ => ?_)
    | with_reducible apply keeps_addRef | with_reducible apply Yields.next
    | (extract_lets +onlyGivenNames x
       refine Yields.cut (u := x) ?_ fun hx => ?_
       (on_goal 1 => unfold x)
       (on_goal 2 => (clear_value x; rename' x => y)))
    | (extract_lets +onlyGivenNames x
       refine Keeps.cut (u := x) ?_ fun hx => ?_
       (on_goal 1 => unfold x)
       (on_goal 2 => (clear_value x; rename' x => y)))
    | (extract_lets +onlyGivenNames x; refine Keeps.keepEnv x ?_; rename' x => y)
    | (extract_lets +onlyGivenNames x; refine Keeps.keepSec x ?_; rename' x => y)
    | (extract_lets +onlyGivenNames x; refine Keeps.keepArm x ?_; rename' x => y)
    | (extract_lets +onlyGivenNames x; refine Keeps.keepMeter x ?_; rename' x => y)
    | (extract_lets +onlyGivenNames x; clear_value x; rename' x => y)
    | split | with_reducible refine Keeps.light ?_ rfl rfl rfl rfl
    | (intro u hu; beta_reduce)

theorem keeps_execKvTruncate (h : Keeps F s t) :
    ∀ x0 x1, (hF : [SField.env, .hostMem, .pcie, .slabs2, .ports, .ports2, .tiles, .tiles2, .banks, .parts2, .ctxs,
        .funcs, .bankMem, .hbm] ⊆ F := by assumption) →
    Yields F s (execKvTruncate x0 x1 t) := by
  intro x0 x1 hF
  have f_Work_run : [SField.env, .hostMem, .pcie, .slabs2, .ports, .ports2, .tiles, .tiles2, .banks, .parts2, .ctxs,
      .funcs, .bankMem, .hbm] ⊆ F := List.Subset.trans (by decide) hF
  have f_labInvalidate : [SField.slabs2] ⊆ F := List.Subset.trans (by decide) hF
  have f_setLen : [SField.ctxs] ⊆ F := List.Subset.trans (by decide) hF
  have f_releaseLeaf : [SField.parts2] ⊆ F := List.Subset.trans (by decide) hF
  unfold execKvTruncate
  repeat'
    first
    | with_reducible assumption | with_reducible apply keeps_Work_run | with_reducible apply keeps_labInvalidate
    | with_reducible apply keeps_setLen | with_reducible (refine Keeps.forAll ?_ _ _ fun _ _ _ => ?_)
    | with_reducible apply keeps_releaseLeaf | with_reducible apply Yields.next
    | (extract_lets +onlyGivenNames x
       refine Yields.cut (u := x) ?_ fun hx => ?_
       (on_goal 1 => unfold x)
       (on_goal 2 => (clear_value x; rename' x => y)))
    | (extract_lets +onlyGivenNames x
       refine Keeps.cut (u := x) ?_ fun hx => ?_
       (on_goal 1 => unfold x)
       (on_goal 2 => (clear_value x; rename' x => y)))
    | (extract_lets +onlyGivenNames x; refine Keeps.keepEnv x ?_; rename' x => y)
    | (extract_lets +onlyGivenNames x; refine Keeps.keepSec x ?_; rename' x => y)
    | (extract_lets +onlyGivenNames x; refine Keeps.keepArm x ?_; rename' x => y)
    | (extract_lets +onlyGivenNames x; refine Keeps.keepMeter x ?_; rename' x => y)
    | (extract_lets +onlyGivenNames x; clear_value x; rename' x => y)
    | split | with_reducible refine Keeps.light ?_ rfl rfl rfl rfl
    | (intro u hu; beta_reduce)

theorem keeps_execKvSeqFree (h : Keeps F s t) :
    ∀ x0 x1, (hF : [SField.slabs2, .tiles, .parts2, .ctxs] ⊆ F := by assumption) →
    Yields F s (execKvSeqFree x0 x1 t) := by
  intro x0 x1 hF
  have f_finish : [SField.tiles, .ctxs] ⊆ F := List.Subset.trans (by decide) hF
  have f_freeSeq : [SField.slabs2, .parts2, .ctxs] ⊆ F := List.Subset.trans (by decide) hF
  unfold execKvSeqFree
  repeat'
    first
    | with_reducible assumption | with_reducible apply keeps_finish | with_reducible apply keeps_freeSeq
    | with_reducible apply Yields.next
    | (extract_lets +onlyGivenNames x
       refine Yields.cut (u := x) ?_ fun hx => ?_
       (on_goal 1 => unfold x)
       (on_goal 2 => (clear_value x; rename' x => y)))
    | (extract_lets +onlyGivenNames x
       refine Keeps.cut (u := x) ?_ fun hx => ?_
       (on_goal 1 => unfold x)
       (on_goal 2 => (clear_value x; rename' x => y)))
    | (extract_lets +onlyGivenNames x; refine Keeps.keepEnv x ?_; rename' x => y)
    | (extract_lets +onlyGivenNames x; refine Keeps.keepSec x ?_; rename' x => y)
    | (extract_lets +onlyGivenNames x; refine Keeps.keepArm x ?_; rename' x => y)
    | (extract_lets +onlyGivenNames x; refine Keeps.keepMeter x ?_; rename' x => y)
    | (extract_lets +onlyGivenNames x; clear_value x; rename' x => y)
    | split | with_reducible refine Keeps.light ?_ rfl rfl rfl rfl

theorem keeps_execKvReclaim (h : Keeps F s t) :
    ∀ x0 x1, (hF : [SField.env, .hostMem, .pcie, .slabs2, .tiles, .parts2, .ctxs, .funcs] ⊆ F := by assumption) →
    Yields F s (execKvReclaim x0 x1 t) := by
  intro x0 x1 hF
  have f_freeSeq : [SField.slabs2, .parts2, .ctxs] ⊆ F := List.Subset.trans (by decide) hF
  have f_kvEvent : [SField.env, .hostMem, .pcie, .parts2, .funcs] ⊆ F := List.Subset.trans (by decide) hF
  have f_post : [SField.env, .hostMem, .pcie, .funcs] ⊆ F := List.Subset.trans (by decide) hF
  have f_finish : [SField.tiles, .ctxs] ⊆ F := List.Subset.trans (by decide) hF
  unfold execKvReclaim
  repeat'
    first
    | with_reducible assumption | with_reducible (refine Keeps.forAll ?_ _ _ fun _ _ _ => ?_)
    | with_reducible apply keeps_freeSeq | with_reducible apply keeps_kvEvent | with_reducible apply keeps_post
    | with_reducible apply keeps_finish | with_reducible apply Yields.next
    | (extract_lets +onlyGivenNames x
       refine Yields.cut (u := x) ?_ fun hx => ?_
       (on_goal 1 => unfold x)
       (on_goal 2 => (clear_value x; rename' x => y)))
    | (extract_lets +onlyGivenNames x
       refine Keeps.cut (u := x) ?_ fun hx => ?_
       (on_goal 1 => unfold x)
       (on_goal 2 => (clear_value x; rename' x => y)))
    | (extract_lets +onlyGivenNames x; refine Keeps.keepEnv x ?_; rename' x => y)
    | (extract_lets +onlyGivenNames x; refine Keeps.keepSec x ?_; rename' x => y)
    | (extract_lets +onlyGivenNames x; refine Keeps.keepArm x ?_; rename' x => y)
    | (extract_lets +onlyGivenNames x; refine Keeps.keepMeter x ?_; rename' x => y)
    | (extract_lets +onlyGivenNames x; clear_value x; rename' x => y)
    | split | with_reducible refine Keeps.light ?_ rfl rfl rfl rfl

theorem keeps_execKvSet (h : Keeps F s t) :
    ∀ x0 x1, (hF : [SField.tiles, .parts, .ctxs] ⊆ F := by assumption) →
    Yields F s (execKvSet x0 x1 t) := by
  intro x0 x1 hF
  have b_parts : SField.parts ∈ F := hF (by decide)
  have f_finish : [SField.tiles, .ctxs] ⊆ F := List.Subset.trans (by decide) hF
  unfold execKvSet
  repeat'
    first
    | with_reducible assumption | with_reducible apply keeps_finish | with_reducible apply Keeps.modPart
    | with_reducible apply Yields.next
    | (extract_lets +onlyGivenNames x
       refine Yields.cut (u := x) ?_ fun hx => ?_
       (on_goal 1 => unfold x)
       (on_goal 2 => (clear_value x; rename' x => y)))
    | (extract_lets +onlyGivenNames x
       refine Keeps.cut (u := x) ?_ fun hx => ?_
       (on_goal 1 => unfold x)
       (on_goal 2 => (clear_value x; rename' x => y)))
    | (extract_lets +onlyGivenNames x; refine Keeps.keepEnv x ?_; rename' x => y)
    | (extract_lets +onlyGivenNames x; refine Keeps.keepSec x ?_; rename' x => y)
    | (extract_lets +onlyGivenNames x; refine Keeps.keepArm x ?_; rename' x => y)
    | (extract_lets +onlyGivenNames x; refine Keeps.keepMeter x ?_; rename' x => y)
    | (extract_lets +onlyGivenNames x; clear_value x; rename' x => y)
    | split | with_reducible refine Keeps.light ?_ rfl rfl rfl rfl

theorem keeps_execKvReserveWrite (h : Keeps F s t) :
    ∀ x0 x1 x2, (hF : [SField.env, .hostMem, .pcie, .parts, .parts2, .funcs] ⊆ F := by assumption) →
    Yields F s (execKvReserveWrite x0 x1 x2 t) := by
  intro x0 x1 x2 hF
  have b_parts : SField.parts ∈ F := hF (by decide)
  have f_kvEvent : [SField.env, .hostMem, .pcie, .parts2, .funcs] ⊆ F := List.Subset.trans (by decide) hF
  unfold execKvReserveWrite
  repeat'
    first
    | with_reducible assumption | with_reducible apply Keeps.modPart | with_reducible apply keeps_kvEvent
    | with_reducible apply Yields.next
    | (extract_lets +onlyGivenNames x
       refine Yields.cut (u := x) ?_ fun hx => ?_
       (on_goal 1 => unfold x)
       (on_goal 2 => (clear_value x; rename' x => y)))
    | (extract_lets +onlyGivenNames x
       refine Keeps.cut (u := x) ?_ fun hx => ?_
       (on_goal 1 => unfold x)
       (on_goal 2 => (clear_value x; rename' x => y)))
    | (extract_lets +onlyGivenNames x; refine Keeps.keepEnv x ?_; rename' x => y)
    | (extract_lets +onlyGivenNames x; refine Keeps.keepSec x ?_; rename' x => y)
    | (extract_lets +onlyGivenNames x; refine Keeps.keepArm x ?_; rename' x => y)
    | (extract_lets +onlyGivenNames x; refine Keeps.keepMeter x ?_; rename' x => y)
    | (extract_lets +onlyGivenNames x; clear_value x; rename' x => y)
    | split | with_reducible refine Keeps.light ?_ rfl rfl rfl rfl

theorem keeps_execKvClearMin (h : Keeps F s t) :
    ∀ x0 x1, (hF : [SField.parts] ⊆ F := by assumption) →
    Yields F s (execKvClearMin x0 x1 t) := by
  intro x0 x1 hF
  have b_parts : SField.parts ∈ F := hF (by decide)
  unfold execKvClearMin
  repeat'
    first
    | with_reducible assumption | with_reducible apply Keeps.modPart | with_reducible apply Yields.next
    | (extract_lets +onlyGivenNames x
       refine Yields.cut (u := x) ?_ fun hx => ?_
       (on_goal 1 => unfold x)
       (on_goal 2 => (clear_value x; rename' x => y)))
    | (extract_lets +onlyGivenNames x
       refine Keeps.cut (u := x) ?_ fun hx => ?_
       (on_goal 1 => unfold x)
       (on_goal 2 => (clear_value x; rename' x => y)))
    | (extract_lets +onlyGivenNames x; refine Keeps.keepEnv x ?_; rename' x => y)
    | (extract_lets +onlyGivenNames x; refine Keeps.keepSec x ?_; rename' x => y)
    | (extract_lets +onlyGivenNames x; refine Keeps.keepArm x ?_; rename' x => y)
    | (extract_lets +onlyGivenNames x; refine Keeps.keepMeter x ?_; rename' x => y)
    | (extract_lets +onlyGivenNames x; clear_value x; rename' x => y)
    | split | with_reducible refine Keeps.light ?_ rfl rfl rfl rfl

theorem keeps_execLabFlush (h : Keeps F s t) :
    ∀ x0 x1, (hF : [SField.slabs2] ⊆ F := by assumption) →
    Yields F s (execLabFlush x0 x1 t) := by
  intro x0 x1 hF
  have b_slabs2 : SField.slabs2 ∈ F := hF (by decide)
  unfold execLabFlush
  repeat'
    first
    | with_reducible assumption | with_reducible apply Keeps.modSlab2 | with_reducible apply Yields.next
    | (extract_lets +onlyGivenNames x
       refine Yields.cut (u := x) ?_ fun hx => ?_
       (on_goal 1 => unfold x)
       (on_goal 2 => (clear_value x; rename' x => y)))
    | (extract_lets +onlyGivenNames x
       refine Keeps.cut (u := x) ?_ fun hx => ?_
       (on_goal 1 => unfold x)
       (on_goal 2 => (clear_value x; rename' x => y)))
    | (extract_lets +onlyGivenNames x; refine Keeps.keepEnv x ?_; rename' x => y)
    | (extract_lets +onlyGivenNames x; refine Keeps.keepSec x ?_; rename' x => y)
    | (extract_lets +onlyGivenNames x; refine Keeps.keepArm x ?_; rename' x => y)
    | (extract_lets +onlyGivenNames x; refine Keeps.keepMeter x ?_; rename' x => y)
    | (extract_lets +onlyGivenNames x; clear_value x; rename' x => y)
    | split | with_reducible refine Keeps.light ?_ rfl rfl rfl rfl

theorem keeps_labWalk (h : Keeps F s t) :
    ∀ x0 x1 x2 x3 x4 x5, (hF : [SField.slabs2] ⊆ F := by assumption) →
    Keeps F s (labWalk x0 x1 x2 x3 x4 x5 t) := by
  intro x0 x1 x2 x3 x4 x5 hF
  have b_slabs2 : SField.slabs2 ∈ F := hF (by decide)
  unfold labWalk
  repeat'
    first
    | with_reducible assumption | with_reducible apply Keeps.setSlab2
    | (extract_lets +onlyGivenNames x
       refine Keeps.cut (u := x) ?_ fun hx => ?_
       (on_goal 1 => unfold x)
       (on_goal 2 => (clear_value x; rename' x => y)))
    | (extract_lets +onlyGivenNames x; refine Keeps.keepEnv x ?_; rename' x => y)
    | (extract_lets +onlyGivenNames x; refine Keeps.keepSec x ?_; rename' x => y)
    | (extract_lets +onlyGivenNames x; refine Keeps.keepArm x ?_; rename' x => y)
    | (extract_lets +onlyGivenNames x; refine Keeps.keepMeter x ?_; rename' x => y)
    | (extract_lets +onlyGivenNames x; clear_value x; rename' x => y)
    | split | with_reducible refine Keeps.light ?_ rfl rfl rfl rfl

end Sys2Proof.Machine
end

