-- ==== Sys2Proof/Laws/KeepsLinks.lean ====
section
/-! SUPPORT. What every operation and meaning of Machine/Links.lean keeps: the queue, the canonical form, what lasts, and every part
of the state outside its own list. -/

set_option linter.unreachableTactic false
set_option linter.unusedTactic false
set_option linter.unusedVariables false
set_option linter.tactic.unusedName false

namespace Sys2Proof.Machine

open Sys2Proof

-- Proofs one after another: the package compiles as one text under a memory limit.
set_option Elab.async false

variable {F : List SField} {s t : State}

theorem keeps_setJob (h : Keeps F s t) :
    ∀ x0 x1 x2, (hF : [SField.ctxs] ⊆ F := by assumption) →
    Keeps F s (setJob x0 x1 x2 t) := by
  intro x0 x1 x2 hF
  have b_ctxs : SField.ctxs ∈ F := hF (by decide)
  unfold setJob
  repeat'
    first
    | with_reducible assumption | with_reducible apply Keeps.modCtx
    | (extract_lets +onlyGivenNames x
       refine Keeps.cut (u := x) ?_ fun hx => ?_
       (on_goal 1 => unfold x)
       (on_goal 2 => (clear_value x; rename' x => y)))
    | (extract_lets +onlyGivenNames x; refine Keeps.keepEnv x ?_; rename' x => y)
    | (extract_lets +onlyGivenNames x; refine Keeps.keepSec x ?_; rename' x => y)
    | (extract_lets +onlyGivenNames x; refine Keeps.keepArm x ?_; rename' x => y)
    | (extract_lets +onlyGivenNames x; refine Keeps.keepMeter x ?_; rename' x => y)
    | (extract_lets +onlyGivenNames x; clear_value x; rename' x => y)
    | split | with_reducible refine Keeps.light ?_ rfl rfl rfl rfl

theorem keeps_dropJob (h : Keeps F s t) :
    ∀ x0 x1, (hF : [SField.ctxs] ⊆ F := by assumption) →
    Keeps F s (dropJob x0 x1 t) := by
  intro x0 x1 hF
  have b_ctxs : SField.ctxs ∈ F := hF (by decide)
  unfold dropJob
  repeat'
    first
    | with_reducible assumption | with_reducible apply Keeps.modCtx
    | (extract_lets +onlyGivenNames x
       refine Keeps.cut (u := x) ?_ fun hx => ?_
       (on_goal 1 => unfold x)
       (on_goal 2 => (clear_value x; rename' x => y)))
    | (extract_lets +onlyGivenNames x; refine Keeps.keepEnv x ?_; rename' x => y)
    | (extract_lets +onlyGivenNames x; refine Keeps.keepSec x ?_; rename' x => y)
    | (extract_lets +onlyGivenNames x; refine Keeps.keepArm x ?_; rename' x => y)
    | (extract_lets +onlyGivenNames x; refine Keeps.keepMeter x ?_; rename' x => y)
    | (extract_lets +onlyGivenNames x; clear_value x; rename' x => y)
    | split | with_reducible refine Keeps.light ?_ rfl rfl rfl rfl

theorem keeps_endUsers (h : Keeps F s t) :
    ∀ x0 x1 x2 x3, (hF : [SField.tiles, .ctxs] ⊆ F := by assumption) →
    Keeps F s (endUsers x0 x1 x2 x3 t) := by
  intro x0 x1 x2 x3 hF
  have f_finish : [SField.tiles, .ctxs] ⊆ F := List.Subset.trans (by decide) hF
  unfold endUsers
  repeat'
    first
    | with_reducible assumption | with_reducible (refine Keeps.forAll ?_ _ _ fun _ _ _ => ?_)
    | with_reducible apply keeps_finish
    | (extract_lets +onlyGivenNames x
       refine Keeps.cut (u := x) ?_ fun hx => ?_
       (on_goal 1 => unfold x)
       (on_goal 2 => (clear_value x; rename' x => y)))
    | (extract_lets +onlyGivenNames x; refine Keeps.keepEnv x ?_; rename' x => y)
    | (extract_lets +onlyGivenNames x; refine Keeps.keepSec x ?_; rename' x => y)
    | (extract_lets +onlyGivenNames x; refine Keeps.keepArm x ?_; rename' x => y)
    | (extract_lets +onlyGivenNames x; refine Keeps.keepMeter x ?_; rename' x => y)
    | (extract_lets +onlyGivenNames x; clear_value x; rename' x => y)
    | split | with_reducible refine Keeps.light ?_ rfl rfl rfl rfl

theorem keeps_failJob (h : Keeps F s t) :
    ∀ x0 x1 x2, (hF : [SField.env, .hostMem, .pcie, .ports, .tiles, .ctxs, .funcs] ⊆ F := by assumption) →
    Keeps F s (failJob x0 x1 x2 t) := by
  intro x0 x1 x2 hF
  have f_linkEvent : [SField.env, .hostMem, .pcie, .ports, .funcs] ⊆ F := List.Subset.trans (by decide) hF
  have f_dropJob : [SField.ctxs] ⊆ F := List.Subset.trans (by decide) hF
  have f_endUsers : [SField.tiles, .ctxs] ⊆ F := List.Subset.trans (by decide) hF
  have f_setJob : [SField.ctxs] ⊆ F := List.Subset.trans (by decide) hF
  unfold failJob
  repeat'
    first
    | with_reducible assumption | with_reducible apply keeps_linkEvent | with_reducible apply keeps_dropJob
    | with_reducible apply keeps_endUsers | with_reducible apply keeps_setJob
    | (extract_lets +onlyGivenNames x
       refine Keeps.cut (u := x) ?_ fun hx => ?_
       (on_goal 1 => unfold x)
       (on_goal 2 => (clear_value x; rename' x => y)))
    | (extract_lets +onlyGivenNames x; refine Keeps.keepEnv x ?_; rename' x => y)
    | (extract_lets +onlyGivenNames x; refine Keeps.keepSec x ?_; rename' x => y)
    | (extract_lets +onlyGivenNames x; refine Keeps.keepArm x ?_; rename' x => y)
    | (extract_lets +onlyGivenNames x; refine Keeps.keepMeter x ?_; rename' x => y)
    | (extract_lets +onlyGivenNames x; clear_value x; rename' x => y)
    | split | with_reducible refine Keeps.light ?_ rfl rfl rfl rfl

theorem keeps_failPort (h : Keeps F s t) :
    ∀ x0, (hF : [SField.env, .hostMem, .pcie, .ports, .tiles, .ctxs, .funcs] ⊆ F := by assumption) →
    Keeps F s (failPort x0 t) := by
  intro x0 hF
  have f_failJob : [SField.env, .hostMem, .pcie, .ports, .tiles, .ctxs, .funcs] ⊆ F := List.Subset.trans (by decide)
      hF
  unfold failPort
  repeat'
    first
    | with_reducible assumption | with_reducible (refine Keeps.forAll ?_ _ _ fun _ _ _ => ?_)
    | with_reducible apply keeps_failJob
    | (extract_lets +onlyGivenNames x
       refine Keeps.cut (u := x) ?_ fun hx => ?_
       (on_goal 1 => unfold x)
       (on_goal 2 => (clear_value x; rename' x => y)))
    | (extract_lets +onlyGivenNames x; refine Keeps.keepEnv x ?_; rename' x => y)
    | (extract_lets +onlyGivenNames x; refine Keeps.keepSec x ?_; rename' x => y)
    | (extract_lets +onlyGivenNames x; refine Keeps.keepArm x ?_; rename' x => y)
    | (extract_lets +onlyGivenNames x; refine Keeps.keepMeter x ?_; rename' x => y)
    | (extract_lets +onlyGivenNames x; clear_value x; rename' x => y)
    | split | with_reducible refine Keeps.light ?_ rfl rfl rfl rfl

theorem keeps_retryTraining (h : Keeps F s t) :
    ∀ x0 x1, (hF : [SField.env, .hostMem, .pcie, .ports, .tiles, .ctxs, .funcs] ⊆ F := by assumption) →
    Keeps F s (retryTraining x0 x1 t) := by
  intro x0 x1 hF
  have b_ports : SField.ports ∈ F := hF (by decide)
  have f_linkEvent : [SField.env, .hostMem, .pcie, .ports, .funcs] ⊆ F := List.Subset.trans (by decide) hF
  have f_failPort : [SField.env, .hostMem, .pcie, .ports, .tiles, .ctxs, .funcs] ⊆ F := List.Subset.trans (by
      decide) hF
  unfold retryTraining
  repeat'
    first
    | with_reducible assumption | with_reducible apply keeps_linkEvent | with_reducible apply keeps_failPort
    | with_reducible apply Keeps.modPort
    | (extract_lets +onlyGivenNames x
       refine Keeps.cut (u := x) ?_ fun hx => ?_
       (on_goal 1 => unfold x)
       (on_goal 2 => (clear_value x; rename' x => y)))
    | (extract_lets +onlyGivenNames x; refine Keeps.keepEnv x ?_; rename' x => y)
    | (extract_lets +onlyGivenNames x; refine Keeps.keepSec x ?_; rename' x => y)
    | (extract_lets +onlyGivenNames x; refine Keeps.keepArm x ?_; rename' x => y)
    | (extract_lets +onlyGivenNames x; refine Keeps.keepMeter x ?_; rename' x => y)
    | (extract_lets +onlyGivenNames x; clear_value x; rename' x => y)
    | split | with_reducible refine Keeps.light ?_ rfl rfl rfl rfl

theorem keeps_portEnable (h : Keeps F s t) :
    ∀ x0 x1, (hF : [SField.env, .hostMem, .pcie, .ports, .tiles, .ctxs, .funcs] ⊆ F := by assumption) →
    Keeps F s (portEnable x0 x1 t) := by
  intro x0 x1 hF
  have b_ports : SField.ports ∈ F := hF (by decide)
  have f_failPort : [SField.env, .hostMem, .pcie, .ports, .tiles, .ctxs, .funcs] ⊆ F := List.Subset.trans (by
      decide) hF
  unfold portEnable
  repeat'
    first
    | with_reducible assumption | with_reducible apply Keeps.modPort | with_reducible apply keeps_failPort
    | (extract_lets +onlyGivenNames x
       refine Keeps.cut (u := x) ?_ fun hx => ?_
       (on_goal 1 => unfold x)
       (on_goal 2 => (clear_value x; rename' x => y)))
    | (extract_lets +onlyGivenNames x; refine Keeps.keepEnv x ?_; rename' x => y)
    | (extract_lets +onlyGivenNames x; refine Keeps.keepSec x ?_; rename' x => y)
    | (extract_lets +onlyGivenNames x; refine Keeps.keepArm x ?_; rename' x => y)
    | (extract_lets +onlyGivenNames x; refine Keeps.keepMeter x ?_; rename' x => y)
    | (extract_lets +onlyGivenNames x; clear_value x; rename' x => y)
    | split | with_reducible refine Keeps.light ?_ rfl rfl rfl rfl

theorem keeps_startRetrain (h : Keeps F s t) :
    ∀ x0, (hF : [SField.ports, .ports2] ⊆ F := by assumption) →
    Keeps F s (startRetrain x0 t) := by
  intro x0 hF
  have b_ports : SField.ports ∈ F := hF (by decide)
  have b_ports2 : SField.ports2 ∈ F := hF (by decide)
  unfold startRetrain
  repeat'
    first
    | with_reducible assumption | with_reducible apply Keeps.modPort2 | with_reducible apply Keeps.modPort
    | (extract_lets +onlyGivenNames x
       refine Keeps.cut (u := x) ?_ fun hx => ?_
       (on_goal 1 => unfold x)
       (on_goal 2 => (clear_value x; rename' x => y)))
    | (extract_lets +onlyGivenNames x; refine Keeps.keepEnv x ?_; rename' x => y)
    | (extract_lets +onlyGivenNames x; refine Keeps.keepSec x ?_; rename' x => y)
    | (extract_lets +onlyGivenNames x; refine Keeps.keepArm x ?_; rename' x => y)
    | (extract_lets +onlyGivenNames x; refine Keeps.keepMeter x ?_; rename' x => y)
    | (extract_lets +onlyGivenNames x; clear_value x; rename' x => y)
    | split | with_reducible refine Keeps.light ?_ rfl rfl rfl rfl

theorem keeps_execLinkEnWrite (h : Keeps F s t) :
    ∀ x0 x1 x2, (hF : [SField.env, .hostMem, .pcie, .ports, .tiles, .ctxs, .funcs] ⊆ F := by assumption) →
    Yields F s (execLinkEnWrite x0 x1 x2 t) := by
  intro x0 x1 x2 hF
  have f_portEnable : [SField.env, .hostMem, .pcie, .ports, .tiles, .ctxs, .funcs] ⊆ F := List.Subset.trans (by
      decide) hF
  unfold execLinkEnWrite
  repeat'
    first
    | with_reducible assumption | with_reducible apply keeps_portEnable | with_reducible apply Yields.next
    | (extract_lets +onlyGivenNames x
       refine Yields.cut (u := x) ?_ fun hx => ?_
       (on_goal 1 => unfold x)
       (on_goal 2 => (clear_value x; rename' x => y)))
    | (extract_lets +onlyGivenNames x
       refine Keeps.cut (u := x) ?_ fun hx => ?_
       (on_goal 1 => unfold x)
       (on_goal 2 => (clear_value x; rename' x => y)))
    | (extract_lets +onlyGivenNames x; refine Keeps.keepEnv x ?_; rename' x => y)
    | (extract_lets +onlyGivenNames x; refine Keeps.keepSec x ?_; rename' x => y)
    | (extract_lets +onlyGivenNames x; refine Keeps.keepArm x ?_; rename' x => y)
    | (extract_lets +onlyGivenNames x; refine Keeps.keepMeter x ?_; rename' x => y)
    | (extract_lets +onlyGivenNames x; clear_value x; rename' x => y)
    | split | with_reducible refine Keeps.light ?_ rfl rfl rfl rfl

theorem keeps_execLinkRetrainWrite (h : Keeps F s t) :
    ∀ x0 x1, (hF : [SField.ports, .ports2] ⊆ F := by assumption) →
    Yields F s (execLinkRetrainWrite x0 x1 t) := by
  intro x0 x1 hF
  have f_startRetrain : [SField.ports, .ports2] ⊆ F := List.Subset.trans (by decide) hF
  unfold execLinkRetrainWrite
  repeat'
    first
    | with_reducible assumption | with_reducible apply keeps_startRetrain | with_reducible apply Yields.next
    | (extract_lets +onlyGivenNames x
       refine Yields.cut (u := x) ?_ fun hx => ?_
       (on_goal 1 => unfold x)
       (on_goal 2 => (clear_value x; rename' x => y)))
    | (extract_lets +onlyGivenNames x
       refine Keeps.cut (u := x) ?_ fun hx => ?_
       (on_goal 1 => unfold x)
       (on_goal 2 => (clear_value x; rename' x => y)))
    | (extract_lets +onlyGivenNames x; refine Keeps.keepEnv x ?_; rename' x => y)
    | (extract_lets +onlyGivenNames x; refine Keeps.keepSec x ?_; rename' x => y)
    | (extract_lets +onlyGivenNames x; refine Keeps.keepArm x ?_; rename' x => y)
    | (extract_lets +onlyGivenNames x; refine Keeps.keepMeter x ?_; rename' x => y)
    | (extract_lets +onlyGivenNames x; clear_value x; rename' x => y)
    | split | with_reducible refine Keeps.light ?_ rfl rfl rfl rfl

theorem keeps_execLinkTrained (h : Keeps F s t) :
    ∀ x0 x1 x2 x3, (hF : [SField.env, .hostMem, .pcie, .ports, .ports2, .tiles, .ctxs, .funcs] ⊆ F := by assumption) →
    Yields F s (execLinkTrained x0 x1 x2 x3 t) := by
  intro x0 x1 x2 x3 hF
  have b_ports : SField.ports ∈ F := hF (by decide)
  have b_ports2 : SField.ports2 ∈ F := hF (by decide)
  have f_retryTraining : [SField.env, .hostMem, .pcie, .ports, .tiles, .ctxs, .funcs] ⊆ F := List.Subset.trans (by
      decide) hF
  have f_failPort : [SField.env, .hostMem, .pcie, .ports, .tiles, .ctxs, .funcs] ⊆ F := List.Subset.trans (by decide)
      hF
  have f_drainPort : [SField.ports, .ports2] ⊆ F := List.Subset.trans (by decide) hF
  have f_linkEvent : [SField.env, .hostMem, .pcie, .ports, .funcs] ⊆ F := List.Subset.trans (by decide) hF
  unfold execLinkTrained
  repeat'
    first
    | with_reducible assumption | with_reducible apply keeps_retryTraining | with_reducible apply keeps_failPort
    | with_reducible apply keeps_drainPort | with_reducible apply keeps_linkEvent | with_reducible apply Keeps.modPort
    | with_reducible apply Keeps.setPort | with_reducible apply Keeps.modPort2 | with_reducible apply Keeps.setPort2
    | with_reducible apply Yields.next
    | (extract_lets +onlyGivenNames x
       refine Yields.cut (u := x) ?_ fun hx => ?_
       (on_goal 1 => unfold x)
       (on_goal 2 => (clear_value x; rename' x => y)))
    | (extract_lets +onlyGivenNames x
       refine Keeps.cut (u := x) ?_ fun hx => ?_
       (on_goal 1 => unfold x)
       (on_goal 2 => (clear_value x; rename' x => y)))
    | (extract_lets +onlyGivenNames x; refine Keeps.keepEnv x ?_; rename' x => y)
    | (extract_lets +onlyGivenNames x; refine Keeps.keepSec x ?_; rename' x => y)
    | (extract_lets +onlyGivenNames x; refine Keeps.keepArm x ?_; rename' x => y)
    | (extract_lets +onlyGivenNames x; refine Keeps.keepMeter x ?_; rename' x => y)
    | (extract_lets +onlyGivenNames x; clear_value x; rename' x => y)
    | split

theorem keeps_execLinkTrainingTimeout (h : Keeps F s t) :
    ∀ x0, (hF : [SField.env, .hostMem, .pcie, .ports, .tiles, .ctxs, .funcs] ⊆ F := by assumption) →
    Yields F s (execLinkTrainingTimeout x0 t) := by
  intro x0 hF
  have f_retryTraining : [SField.env, .hostMem, .pcie, .ports, .tiles, .ctxs, .funcs] ⊆ F := List.Subset.trans (by
      decide) hF
  have f_failPort : [SField.env, .hostMem, .pcie, .ports, .tiles, .ctxs, .funcs] ⊆ F := List.Subset.trans (by
      decide) hF
  unfold execLinkTrainingTimeout
  repeat'
    first
    | with_reducible assumption | with_reducible apply keeps_retryTraining | with_reducible apply keeps_failPort
    | with_reducible apply Yields.next
    | (extract_lets +onlyGivenNames x
       refine Yields.cut (u := x) ?_ fun hx => ?_
       (on_goal 1 => unfold x)
       (on_goal 2 => (clear_value x; rename' x => y)))
    | (extract_lets +onlyGivenNames x
       refine Keeps.cut (u := x) ?_ fun hx => ?_
       (on_goal 1 => unfold x)
       (on_goal 2 => (clear_value x; rename' x => y)))
    | (extract_lets +onlyGivenNames x; refine Keeps.keepEnv x ?_; rename' x => y)
    | (extract_lets +onlyGivenNames x; refine Keeps.keepSec x ?_; rename' x => y)
    | (extract_lets +onlyGivenNames x; refine Keeps.keepArm x ?_; rename' x => y)
    | (extract_lets +onlyGivenNames x; refine Keeps.keepMeter x ?_; rename' x => y)
    | (extract_lets +onlyGivenNames x; clear_value x; rename' x => y)
    | split | with_reducible refine Keeps.light ?_ rfl rfl rfl rfl

theorem keeps_frameAck (h : Keeps F s t) :
    ∀ x0 x1 x2 x3, (hF : [SField.ports, .ports2] ⊆ F := by assumption) →
    Keeps F s (frameAck x0 x1 x2 x3 t) := by
  intro x0 x1 x2 x3 hF
  have b_ports : SField.ports ∈ F := hF (by decide)
  have b_ports2 : SField.ports2 ∈ F := hF (by decide)
  have f_startRetrain : [SField.ports, .ports2] ⊆ F := List.Subset.trans (by decide) hF
  have f_drainPort : [SField.ports, .ports2] ⊆ F := List.Subset.trans (by decide) hF
  unfold frameAck
  repeat'
    first
    | with_reducible assumption | with_reducible apply keeps_startRetrain | with_reducible apply keeps_drainPort
    | with_reducible apply Keeps.setPort | with_reducible apply Keeps.setPort2
    | (extract_lets +onlyGivenNames x
       refine Keeps.cut (u := x) ?_ fun hx => ?_
       (on_goal 1 => unfold x)
       (on_goal 2 => (clear_value x; rename' x => y)))
    | (extract_lets +onlyGivenNames x; refine Keeps.keepEnv x ?_; rename' x => y)
    | (extract_lets +onlyGivenNames x; refine Keeps.keepSec x ?_; rename' x => y)
    | (extract_lets +onlyGivenNames x; refine Keeps.keepArm x ?_; rename' x => y)
    | (extract_lets +onlyGivenNames x; refine Keeps.keepMeter x ?_; rename' x => y)
    | (extract_lets +onlyGivenNames x; clear_value x; rename' x => y)
    | split

theorem keeps_takeFrame (h : Keeps F s t) :
    ∀ x0 x1, (hF : [SField.ports, .ports2] ⊆ F := by assumption) →
    Keeps F s (takeFrame x0 x1 t) := by
  intro x0 x1 hF
  have b_ports : SField.ports ∈ F := hF (by decide)
  have b_ports2 : SField.ports2 ∈ F := hF (by decide)
  unfold takeFrame
  repeat'
    first
    | with_reducible assumption | with_reducible apply Keeps.modPort | with_reducible apply Keeps.modPort2
    | split

theorem keeps_execLinkFrameRx (h : Keeps F s t) :
    ∀ x0 x1, (hF : [SField.ports, .ports2] ⊆ F := by assumption) →
    Yields F s (execLinkFrameRx x0 x1 t) := by
  intro x0 x1 hF
  have b_ports : SField.ports ∈ F := hF (by decide)
  have b_ports2 : SField.ports2 ∈ F := hF (by decide)
  have f_frameAck : [SField.ports, .ports2] ⊆ F := List.Subset.trans (by decide) hF
  have f_takeFrame : [SField.ports, .ports2] ⊆ F := List.Subset.trans (by decide) hF
  unfold execLinkFrameRx
  repeat'
    first
    | with_reducible assumption | with_reducible apply keeps_frameAck | with_reducible apply keeps_takeFrame
    | with_reducible apply Keeps.modPort | with_reducible apply Keeps.modPort2 | with_reducible apply Yields.next
    | (extract_lets +onlyGivenNames x
       refine Yields.cut (u := x) ?_ fun hx => ?_
       (on_goal 1 => unfold x)
       (on_goal 2 => (clear_value x; rename' x => y)))
    | (extract_lets +onlyGivenNames x
       refine Keeps.cut (u := x) ?_ fun hx => ?_
       (on_goal 1 => unfold x)
       (on_goal 2 => (clear_value x; rename' x => y)))
    | (extract_lets +onlyGivenNames x; refine Keeps.keepEnv x ?_; rename' x => y)
    | (extract_lets +onlyGivenNames x; refine Keeps.keepSec x ?_; rename' x => y)
    | (extract_lets +onlyGivenNames x; refine Keeps.keepArm x ?_; rename' x => y)
    | (extract_lets +onlyGivenNames x; refine Keeps.keepMeter x ?_; rename' x => y)
    | (extract_lets +onlyGivenNames x; clear_value x; rename' x => y)
    | split

theorem keeps_execLinkPacketRx (h : Keeps F s t) :
    ∀ x0 x1 x2 x3, (hF : [SField.env, .hostMem, .pcie, .ports, .ports2, .tiles, .ctxs, .funcs] ⊆ F := by assumption) →
    Yields F s (execLinkPacketRx x0 x1 x2 x3 t) := by
  intro x0 x1 x2 x3 hF
  have b_ports : SField.ports ∈ F := hF (by decide)
  have b_ports2 : SField.ports2 ∈ F := hF (by decide)
  have f_setJob : [SField.ctxs] ⊆ F := List.Subset.trans (by decide) hF
  have f_failJob : [SField.env, .hostMem, .pcie, .ports, .tiles, .ctxs, .funcs] ⊆ F := List.Subset.trans (by decide)
      hF
  have f_linkEvent : [SField.env, .hostMem, .pcie, .ports, .funcs] ⊆ F := List.Subset.trans (by decide) hF
  unfold execLinkPacketRx
  repeat'
    first
    | with_reducible assumption | with_reducible apply keeps_setJob | with_reducible apply keeps_failJob
    | with_reducible apply keeps_linkEvent | with_reducible apply Keeps.modPort | with_reducible apply Keeps.modPort2
    | with_reducible apply Yields.next
    | (extract_lets +onlyGivenNames x
       refine Yields.cut (u := x) ?_ fun hx => ?_
       (on_goal 1 => unfold x)
       (on_goal 2 => (clear_value x; rename' x => y)))
    | (extract_lets +onlyGivenNames x
       refine Keeps.cut (u := x) ?_ fun hx => ?_
       (on_goal 1 => unfold x)
       (on_goal 2 => (clear_value x; rename' x => y)))
    | (extract_lets +onlyGivenNames x; refine Keeps.keepEnv x ?_; rename' x => y)
    | (extract_lets +onlyGivenNames x; refine Keeps.keepSec x ?_; rename' x => y)
    | (extract_lets +onlyGivenNames x; refine Keeps.keepArm x ?_; rename' x => y)
    | (extract_lets +onlyGivenNames x; refine Keeps.keepMeter x ?_; rename' x => y)
    | (extract_lets +onlyGivenNames x; clear_value x; rename' x => y)
    | split

theorem keeps_closeJob (h : Keeps F s t) :
    ∀ x0 x1, (hF : [SField.ports, .ports2, .ctxs] ⊆ F := by assumption) →
    Keeps F s (closeJob x0 x1 t) := by
  intro x0 x1 hF
  have f_dropJob : [SField.ctxs] ⊆ F := List.Subset.trans (by decide) hF
  have f_closeNotice : [SField.ports, .ports2] ⊆ F := List.Subset.trans (by decide) hF
  unfold closeJob
  repeat'
    first
    | with_reducible assumption | with_reducible apply keeps_dropJob | with_reducible apply keeps_closeNotice
    | split

theorem keeps_execLinkJob (h : Keeps F s t) :
    ∀ x0 x1, (hF : [SField.ports, .ports2, .tiles, .ctxs] ⊆ F := by assumption) →
    Yields F s (execLinkJob x0 x1 t) := by
  intro x0 x1 hF
  have f_finish : [SField.tiles, .ctxs] ⊆ F := List.Subset.trans (by decide) hF
  have f_closeJob : [SField.ports, .ports2, .ctxs] ⊆ F := List.Subset.trans (by decide) hF
  have f_setActed : [SField.ctxs] ⊆ F := List.Subset.trans (by decide) hF
  have f_setJob : [SField.ctxs] ⊆ F := List.Subset.trans (by decide) hF
  unfold execLinkJob
  repeat'
    first
    | with_reducible assumption | with_reducible apply keeps_finish | with_reducible apply keeps_closeJob
    | with_reducible apply keeps_setActed | with_reducible apply keeps_setJob | with_reducible apply Yields.next
    | (extract_lets +onlyGivenNames x
       refine Yields.cut (u := x) ?_ fun hx => ?_
       (on_goal 1 => unfold x)
       (on_goal 2 => (clear_value x; rename' x => y)))
    | (extract_lets +onlyGivenNames x
       refine Keeps.cut (u := x) ?_ fun hx => ?_
       (on_goal 1 => unfold x)
       (on_goal 2 => (clear_value x; rename' x => y)))
    | (extract_lets +onlyGivenNames x; refine Keeps.keepEnv x ?_; rename' x => y)
    | (extract_lets +onlyGivenNames x; refine Keeps.keepSec x ?_; rename' x => y)
    | (extract_lets +onlyGivenNames x; refine Keeps.keepArm x ?_; rename' x => y)
    | (extract_lets +onlyGivenNames x; refine Keeps.keepMeter x ?_; rename' x => y)
    | (extract_lets +onlyGivenNames x; clear_value x; rename' x => y)
    | split

theorem keeps_failOpen (h : Keeps F s t) :
    ∀ x0 x1 x2, (hF : [SField.env, .hostMem, .pcie, .sec, .tiles, .ctxs, .funcs] ⊆ F := by assumption) →
    Keeps F s (failOpen x0 x1 x2 t) := by
  intro x0 x1 x2 hF
  have b_sec : SField.sec ∈ F := hF (by decide)
  have f_secEvent : [SField.env, .hostMem, .pcie, .sec, .funcs] ⊆ F := List.Subset.trans (by decide) hF
  have f_dropJob : [SField.ctxs] ⊆ F := List.Subset.trans (by decide) hF
  have f_finish : [SField.tiles, .ctxs] ⊆ F := List.Subset.trans (by decide) hF
  unfold failOpen
  repeat'
    first
    | with_reducible assumption | with_reducible apply keeps_secEvent | with_reducible apply keeps_dropJob
    | with_reducible apply keeps_finish
    | (extract_lets +onlyGivenNames x
       refine Keeps.cut (u := x) ?_ fun hx => ?_
       (on_goal 1 => unfold x)
       (on_goal 2 => (clear_value x; rename' x => y)))
    | (extract_lets +onlyGivenNames x; refine Keeps.keepEnv x ?_; rename' x => y)
    | (extract_lets +onlyGivenNames x; refine Keeps.keepSec x ?_; rename' x => y)
    | (extract_lets +onlyGivenNames x; refine Keeps.keepArm x ?_; rename' x => y)
    | (extract_lets +onlyGivenNames x; refine Keeps.keepMeter x ?_; rename' x => y)
    | (extract_lets +onlyGivenNames x; clear_value x; rename' x => y)
    | split | with_reducible refine Keeps.light ?_ rfl rfl rfl rfl

theorem keeps_message (h : Keeps F s t) :
    ∀ x0 x1 x2, (hF : [SField.ports, .ports2] ⊆ F := by assumption) →
    Keeps F s (message x0 x1 x2 t) := by
  intro x0 x1 x2 hF
  have f_sendSlots : [SField.ports, .ports2] ⊆ F := List.Subset.trans (by decide) hF
  unfold message
  repeat'
    first
    | with_reducible assumption | with_reducible apply keeps_sendSlots
    | split

theorem keeps_execHello (h : Keeps F s t) :
    ∀ x0 x1 x2, (hF : [SField.ports, .ports2, .ctxs] ⊆ F := by assumption) →
    Yields F s (execHello x0 x1 x2 t) := by
  intro x0 x1 x2 hF
  have f_message : [SField.ports, .ports2] ⊆ F := List.Subset.trans (by decide) hF
  have f_setJob : [SField.ctxs] ⊆ F := List.Subset.trans (by decide) hF
  unfold execHello
  repeat'
    first
    | with_reducible assumption | with_reducible apply keeps_message | with_reducible apply keeps_setJob
    | with_reducible apply Yields.next
    | split

theorem keeps_execReply (h : Keeps F s t) :
    ∀ x0 x1 x2 x3, (hF : [SField.env, .hostMem, .pcie, .sec, .ports, .ports2, .tiles, .ctxs, .funcs] ⊆ F := by
        assumption) →
    Yields F s (execReply x0 x1 x2 x3 t) := by
  intro x0 x1 x2 x3 hF
  have f_message : [SField.ports, .ports2] ⊆ F := List.Subset.trans (by decide) hF
  have f_setJob : [SField.ctxs] ⊆ F := List.Subset.trans (by decide) hF
  have f_failOpen : [SField.env, .hostMem, .pcie, .sec, .tiles, .ctxs, .funcs] ⊆ F := List.Subset.trans (by decide) hF
  unfold execReply
  repeat'
    first
    | with_reducible assumption | with_reducible apply keeps_message | with_reducible apply keeps_setJob
    | with_reducible apply keeps_failOpen | with_reducible apply Yields.next
    | (extract_lets +onlyGivenNames x
       refine Yields.cut (u := x) ?_ fun hx => ?_
       (on_goal 1 => unfold x)
       (on_goal 2 => (clear_value x; rename' x => y)))
    | (extract_lets +onlyGivenNames x
       refine Keeps.cut (u := x) ?_ fun hx => ?_
       (on_goal 1 => unfold x)
       (on_goal 2 => (clear_value x; rename' x => y)))
    | (extract_lets +onlyGivenNames x; refine Keeps.keepEnv x ?_; rename' x => y)
    | (extract_lets +onlyGivenNames x; refine Keeps.keepSec x ?_; rename' x => y)
    | (extract_lets +onlyGivenNames x; refine Keeps.keepArm x ?_; rename' x => y)
    | (extract_lets +onlyGivenNames x; refine Keeps.keepMeter x ?_; rename' x => y)
    | (extract_lets +onlyGivenNames x; clear_value x; rename' x => y)
    | split

theorem keeps_execFinish (h : Keeps F s t) :
    ∀ x0 x1 x2 x3 x4 x5, (hF : [SField.env, .hostMem, .pcie, .sec, .ports, .ports2, .tiles, .ctxs, .funcs] ⊆ F := by
        assumption) →
    Yields F s (execFinish x0 x1 x2 x3 x4 x5 t) := by
  intro x0 x1 x2 x3 x4 x5 hF
  have f_message : [SField.ports, .ports2] ⊆ F := List.Subset.trans (by decide) hF
  have f_useFree : [SField.env] ⊆ F := List.Subset.trans (by decide) hF
  have f_finish : [SField.tiles, .ctxs] ⊆ F := List.Subset.trans (by decide) hF
  have f_setJob : [SField.ctxs] ⊆ F := List.Subset.trans (by decide) hF
  have f_failOpen : [SField.env, .hostMem, .pcie, .sec, .tiles, .ctxs, .funcs] ⊆ F := List.Subset.trans (by decide) hF
  unfold execFinish
  repeat'
    first
    | with_reducible assumption | with_reducible apply keeps_message | with_reducible apply keeps_useFree
    | with_reducible apply keeps_finish | with_reducible apply keeps_setJob | with_reducible apply keeps_failOpen
    | with_reducible apply Yields.next
    | (extract_lets +onlyGivenNames x
       refine Yields.cut (u := x) ?_ fun hx => ?_
       (on_goal 1 => unfold x)
       (on_goal 2 => (clear_value x; rename' x => y)))
    | (extract_lets +onlyGivenNames x
       refine Keeps.cut (u := x) ?_ fun hx => ?_
       (on_goal 1 => unfold x)
       (on_goal 2 => (clear_value x; rename' x => y)))
    | (extract_lets +onlyGivenNames x; refine Keeps.keepEnv x ?_; rename' x => y)
    | (extract_lets +onlyGivenNames x; refine Keeps.keepSec x ?_; rename' x => y)
    | (extract_lets +onlyGivenNames x; refine Keeps.keepArm x ?_; rename' x => y)
    | (extract_lets +onlyGivenNames x; refine Keeps.keepMeter x ?_; rename' x => y)
    | (extract_lets +onlyGivenNames x; clear_value x; rename' x => y)
    | split

theorem keeps_execLinkOpenTimeout (h : Keeps F s t) :
    ∀ x0 x1, (hF : [SField.tiles, .ctxs] ⊆ F := by assumption) →
    Yields F s (execLinkOpenTimeout x0 x1 t) := by
  intro x0 x1 hF
  have f_dropJob : [SField.ctxs] ⊆ F := List.Subset.trans (by decide) hF
  have f_finish : [SField.tiles, .ctxs] ⊆ F := List.Subset.trans (by decide) hF
  unfold execLinkOpenTimeout
  repeat'
    first
    | with_reducible assumption | with_reducible apply keeps_dropJob | with_reducible apply keeps_finish
    | with_reducible apply Yields.next
    | (extract_lets +onlyGivenNames x
       refine Yields.cut (u := x) ?_ fun hx => ?_
       (on_goal 1 => unfold x)
       (on_goal 2 => (clear_value x; rename' x => y)))
    | (extract_lets +onlyGivenNames x
       refine Keeps.cut (u := x) ?_ fun hx => ?_
       (on_goal 1 => unfold x)
       (on_goal 2 => (clear_value x; rename' x => y)))
    | (extract_lets +onlyGivenNames x; refine Keeps.keepEnv x ?_; rename' x => y)
    | (extract_lets +onlyGivenNames x; refine Keeps.keepSec x ?_; rename' x => y)
    | (extract_lets +onlyGivenNames x; refine Keeps.keepArm x ?_; rename' x => y)
    | (extract_lets +onlyGivenNames x; refine Keeps.keepMeter x ?_; rename' x => y)
    | (extract_lets +onlyGivenNames x; clear_value x; rename' x => y)
    | split | with_reducible refine Keeps.light ?_ rfl rfl rfl rfl

theorem keeps_linkSend (h : Keeps F s t) :
    ∀ x0 x1, (hF : [SField.env, .ports, .ports2, .ctxs] ⊆ F := by assumption) →
    Keeps F s (linkSend x0 x1 t) := by
  intro x0 x1 hF
  have f_useFree : [SField.env] ⊆ F := List.Subset.trans (by decide) hF
  have f_sendSlots : [SField.ports, .ports2] ⊆ F := List.Subset.trans (by decide) hF
  have f_setJob : [SField.ctxs] ⊆ F := List.Subset.trans (by decide) hF
  unfold linkSend
  repeat'
    first
    | with_reducible assumption | with_reducible apply keeps_useFree | with_reducible apply keeps_sendSlots
    | with_reducible apply keeps_setJob
    | (extract_lets +onlyGivenNames x
       refine Keeps.cut (u := x) ?_ fun hx => ?_
       (on_goal 1 => unfold x)
       (on_goal 2 => (clear_value x; rename' x => y)))
    | (extract_lets +onlyGivenNames x; refine Keeps.keepEnv x ?_; rename' x => y)
    | (extract_lets +onlyGivenNames x; refine Keeps.keepSec x ?_; rename' x => y)
    | (extract_lets +onlyGivenNames x; refine Keeps.keepArm x ?_; rename' x => y)
    | (extract_lets +onlyGivenNames x; refine Keeps.keepMeter x ?_; rename' x => y)
    | (extract_lets +onlyGivenNames x; clear_value x; rename' x => y)
    | split

theorem keeps_peerFails (h : Keeps F s t) :
    ∀ x0 x1 x2, (hF : [SField.tiles, .ctxs] ⊆ F := by assumption) →
    Keeps F s (peerFails x0 x1 x2 t) := by
  intro x0 x1 x2 hF
  have f_finish : [SField.tiles, .ctxs] ⊆ F := List.Subset.trans (by decide) hF
  unfold peerFails
  repeat'
    first
    | with_reducible assumption | with_reducible apply keeps_finish
    | split

theorem keeps_runColl (h : Keeps F s t) :
    ∀ x0 x1 x2 x3, (hF : [SField.env, .hostMem, .pcie, .slabs2, .ports, .ports2, .tiles, .tiles2, .banks, .parts2,
        .ctxs, .funcs, .bankMem, .hbm] ⊆ F := by assumption) →
    Keeps F s (runColl x0 x1 x2 x3 t) := by
  intro op c q peers hF
  have f_peerFails : [SField.tiles, .ctxs] ⊆ F := List.Subset.trans (by decide) hF
  have f_Work_run : [SField.env, .hostMem, .pcie, .slabs2, .ports, .ports2, .tiles, .tiles2, .banks, .parts2, .ctxs,
      .funcs, .bankMem, .hbm] ⊆ F := List.Subset.trans (by decide) hF
  have f_linkSend : [SField.env, .ports, .ports2, .ctxs] ⊆ F := List.Subset.trans (by decide) hF
  unfold runColl
  split
  · exact h
  · dsimp only
    have h1 := fun l => h.forAll l (fun j t => linkSend c j t) fun j u hu => keeps_linkSend hu _ _
    split
    · split
      · exact keeps_peerFails (h1 _) _ _ _
      · split
        · exact keeps_peerFails (h1 _) _ _ _
        · exact keeps_Work_run (h1 _) fun _ hu => hu
    · exact h

theorem keeps_execAllreduce (h : Keeps F s t) :
    ∀ x0 x1 x2, (hF : [SField.env, .hostMem, .pcie, .slabs2, .ports, .ports2, .tiles, .tiles2, .banks, .parts2,
        .ctxs, .funcs, .bankMem, .hbm] ⊆ F := by assumption) →
    Yields F s (execAllreduce x0 x1 x2 t) := by
  intro x0 x1 x2 hF
  have f_runColl : [SField.env, .hostMem, .pcie, .slabs2, .ports, .ports2, .tiles, .tiles2, .banks, .parts2, .ctxs,
      .funcs, .bankMem, .hbm] ⊆ F := List.Subset.trans (by decide) hF
  unfold execAllreduce
  repeat'
    first
    | with_reducible assumption | with_reducible apply keeps_runColl | with_reducible apply Yields.next
    | split

theorem keeps_execReduceScatter (h : Keeps F s t) :
    ∀ x0 x1 x2, (hF : [SField.env, .hostMem, .pcie, .slabs2, .ports, .ports2, .tiles, .tiles2, .banks, .parts2,
        .ctxs, .funcs, .bankMem, .hbm] ⊆ F := by assumption) →
    Yields F s (execReduceScatter x0 x1 x2 t) := by
  intro x0 x1 x2 hF
  have f_runColl : [SField.env, .hostMem, .pcie, .slabs2, .ports, .ports2, .tiles, .tiles2, .banks, .parts2, .ctxs,
      .funcs, .bankMem, .hbm] ⊆ F := List.Subset.trans (by decide) hF
  unfold execReduceScatter
  repeat'
    first
    | with_reducible assumption | with_reducible apply keeps_runColl | with_reducible apply Yields.next
    | split

theorem keeps_execAllgather (h : Keeps F s t) :
    ∀ x0 x1 x2, (hF : [SField.env, .hostMem, .pcie, .slabs2, .ports, .ports2, .tiles, .tiles2, .banks, .parts2,
        .ctxs, .funcs, .bankMem, .hbm] ⊆ F := by assumption) →
    Yields F s (execAllgather x0 x1 x2 t) := by
  intro x0 x1 x2 hF
  have f_runColl : [SField.env, .hostMem, .pcie, .slabs2, .ports, .ports2, .tiles, .tiles2, .banks, .parts2, .ctxs,
      .funcs, .bankMem, .hbm] ⊆ F := List.Subset.trans (by decide) hF
  unfold execAllgather
  repeat'
    first
    | with_reducible assumption | with_reducible apply keeps_runColl | with_reducible apply Yields.next
    | split

theorem keeps_execBlend (h : Keeps F s t) :
    ∀ x0 x1 x2, (hF : [SField.env, .hostMem, .pcie, .slabs2, .ports, .ports2, .tiles, .tiles2, .banks, .parts2,
        .ctxs, .funcs, .bankMem, .hbm] ⊆ F := by assumption) →
    Yields F s (execBlend x0 x1 x2 t) := by
  intro x0 x1 x2 hF
  have f_runColl : [SField.env, .hostMem, .pcie, .slabs2, .ports, .ports2, .tiles, .tiles2, .banks, .parts2, .ctxs,
      .funcs, .bankMem, .hbm] ⊆ F := List.Subset.trans (by decide) hF
  unfold execBlend
  repeat'
    first
    | with_reducible assumption | with_reducible apply keeps_runColl | with_reducible apply Yields.next
    | split

theorem keeps_execCollTimeout (h : Keeps F s t) :
    ∀ x0 x1, (hF : [SField.tiles, .ctxs] ⊆ F := by assumption) →
    Yields F s (execCollTimeout x0 x1 t) := by
  intro x0 x1 hF
  have f_finish : [SField.tiles, .ctxs] ⊆ F := List.Subset.trans (by decide) hF
  have f_setJob : [SField.ctxs] ⊆ F := List.Subset.trans (by decide) hF
  unfold execCollTimeout
  split
  · split
    · refine Yields.next (keeps_finish (h.forAll _ _ fun j u hu => ?_) _ _ _ _)
      split
      · exact keeps_setJob hu _ _ _
      · exact hu
    · exact Yields.next h
  · exact Yields.next h

end Sys2Proof.Machine
end

