-- ==== Sys2Proof/Laws/KeepsContexts.lean ====
section
/-! SUPPORT. What every operation and meaning of Machine/Contexts.lean keeps: the queue, the canonical form, what lasts, and every part
of the state outside its own list. -/

set_option linter.unreachableTactic false
set_option linter.unusedTactic false
set_option linter.unusedVariables false
set_option linter.tactic.unusedName false

namespace Sys2Proof.Machine

open Sys2Proof

-- Proofs one after another: the package compiles as one text under a memory limit.
set_option Elab.async false

variable {F : List SField} {s t : State}

theorem keeps_execCtxDefine (h : Keeps F s t) :
    ∀ x0 x1, (hF : [SField.tiles, .ctxs, .hbm] ⊆ F := by assumption) →
    Yields F s (execCtxDefine x0 x1 t) := by
  intro x0 x1 hF
  have b_ctxs : SField.ctxs ∈ F := hF (by decide)
  have f_finish : [SField.tiles, .ctxs] ⊆ F := List.Subset.trans (by decide) hF
  have f_newKey : [SField.hbm] ⊆ F := List.Subset.trans (by decide) hF
  unfold execCtxDefine
  repeat'
    first
    | with_reducible assumption | with_reducible apply keeps_finish | with_reducible apply keeps_newKey
    | with_reducible apply Keeps.setCtx | with_reducible apply Yields.next
    | (extract_lets +onlyGivenNames x
       refine Yields.cut (u := x) ?_ fun hx => ?_
       (on_goal 1 => unfold x)
       (on_goal 2 => (clear_value x; rename' x => y)))
    | (extract_lets +onlyGivenNames x
       refine Keeps.cut (u := x) ?_ fun hx => ?_
       (on_goal 1 => unfold x)
       (on_goal 2 => (clear_value x; rename' x => y)))
    | (extract_lets +onlyGivenNames x; refine Keeps.keepEnv x ?_; rename' x => y)
    | (extract_lets +onlyGivenNames x; refine Keeps.keepSec x ?_; rename' x => y)
    | (extract_lets +onlyGivenNames x; refine Keeps.keepArm x ?_; rename' x => y)
    | (extract_lets +onlyGivenNames x; refine Keeps.keepMeter x ?_; rename' x => y)
    | (extract_lets +onlyGivenNames x; clear_value x; rename' x => y)
    | split | with_reducible refine Keeps.light ?_ rfl rfl rfl rfl

theorem keeps_freeAll (h : Keeps F s t) :
    ∀ x0, (hF : [SField.slabs2, .ports, .ports2, .banks, .parts2, .ctxs, .hbm] ⊆ F := by assumption) →
    Keeps F s (freeAll x0 t) := by
  intro x0 hF
  have b_ctxs : SField.ctxs ∈ F := hF (by decide)
  have f_freeHeld : [SField.slabs2, .ports, .ports2, .banks, .parts2, .ctxs, .hbm] ⊆ F := List.Subset.trans (by
      decide) hF
  have f_freeRegions : [SField.slabs2, .banks, .parts2, .ctxs, .hbm] ⊆ F := List.Subset.trans (by decide) hF
  have f_fixSwap : [SField.parts2, .ctxs, .hbm] ⊆ F := List.Subset.trans (by decide) hF
  unfold freeAll
  repeat'
    first
    | with_reducible assumption | with_reducible apply keeps_freeHeld | with_reducible apply keeps_freeRegions
    | with_reducible apply keeps_fixSwap | with_reducible apply Keeps.modCtx
    | (extract_lets +onlyGivenNames x
       refine Keeps.cut (u := x) ?_ fun hx => ?_
       (on_goal 1 => unfold x)
       (on_goal 2 => (clear_value x; rename' x => y)))
    | (extract_lets +onlyGivenNames x; refine Keeps.keepEnv x ?_; rename' x => y)
    | (extract_lets +onlyGivenNames x; refine Keeps.keepSec x ?_; rename' x => y)
    | (extract_lets +onlyGivenNames x; refine Keeps.keepArm x ?_; rename' x => y)
    | (extract_lets +onlyGivenNames x; refine Keeps.keepMeter x ?_; rename' x => y)
    | (extract_lets +onlyGivenNames x; clear_value x; rename' x => y)
    | split | with_reducible refine Keeps.light ?_ rfl rfl rfl rfl

theorem keeps_resetCtx (h : Keeps F s t) :
    ∀ x0 x1, (hF : [SField.slabs2, .ports, .ports2, .tiles, .banks, .parts2, .ctxs, .hbm] ⊆ F := by assumption) →
    Keeps F s (resetCtx x0 x1 t) := by
  intro x0 x1 hF
  have b_ctxs : SField.ctxs ∈ F := hF (by decide)
  have f_fixForms : [SField.tiles] ⊆ F := List.Subset.trans (by decide) hF
  have f_releaseAll : [SField.banks] ⊆ F := List.Subset.trans (by decide) hF
  have f_freeHeld : [SField.slabs2, .ports, .ports2, .banks, .parts2, .ctxs, .hbm] ⊆ F := List.Subset.trans (by
      decide) hF
  have f_newKey : [SField.hbm] ⊆ F := List.Subset.trans (by decide) hF
  have f_freeAll : [SField.slabs2, .ports, .ports2, .banks, .parts2, .ctxs, .hbm] ⊆ F := List.Subset.trans (by
      decide) hF
  have f_fixSubst : [SField.parts2] ⊆ F := List.Subset.trans (by decide) hF
  unfold resetCtx
  repeat'
    first
    | with_reducible assumption | with_reducible apply keeps_fixForms | with_reducible apply keeps_releaseAll
    | with_reducible apply keeps_freeHeld | with_reducible apply keeps_newKey | with_reducible apply keeps_freeAll
    | with_reducible apply keeps_fixSubst | with_reducible apply Keeps.modCtx
    | (extract_lets +onlyGivenNames x
       refine Keeps.cut (u := x) ?_ fun hx => ?_
       (on_goal 1 => unfold x)
       (on_goal 2 => (clear_value x; rename' x => y)))
    | (extract_lets +onlyGivenNames x; refine Keeps.keepEnv x ?_; rename' x => y)
    | (extract_lets +onlyGivenNames x; refine Keeps.keepSec x ?_; rename' x => y)
    | (extract_lets +onlyGivenNames x; refine Keeps.keepArm x ?_; rename' x => y)
    | (extract_lets +onlyGivenNames x; refine Keeps.keepMeter x ?_; rename' x => y)
    | (extract_lets +onlyGivenNames x; clear_value x; rename' x => y)
    | split

theorem keeps_execCtxUndefine (h : Keeps F s t) :
    ∀ x0 x1, (hF : [SField.slabs2, .ports, .ports2, .tiles, .banks, .parts2, .ctxs, .hbm] ⊆ F := by assumption) →
    Yields F s (execCtxUndefine x0 x1 t) := by
  intro x0 x1 hF
  have b_ctxs : SField.ctxs ∈ F := hF (by decide)
  have f_finish : [SField.tiles, .ctxs] ⊆ F := List.Subset.trans (by decide) hF
  have f_resetCtx : [SField.slabs2, .ports, .ports2, .tiles, .banks, .parts2, .ctxs, .hbm] ⊆ F := List.Subset.trans
      (by decide) hF
  unfold execCtxUndefine
  repeat'
    first
    | with_reducible assumption | with_reducible apply keeps_finish | with_reducible apply Keeps.setCtx
    | with_reducible apply keeps_resetCtx | with_reducible apply Yields.next
    | (extract_lets +onlyGivenNames x
       refine Yields.cut (u := x) ?_ fun hx => ?_
       (on_goal 1 => unfold x)
       (on_goal 2 => (clear_value x; rename' x => y)))
    | (extract_lets +onlyGivenNames x
       refine Keeps.cut (u := x) ?_ fun hx => ?_
       (on_goal 1 => unfold x)
       (on_goal 2 => (clear_value x; rename' x => y)))
    | (extract_lets +onlyGivenNames x; refine Keeps.keepEnv x ?_; rename' x => y)
    | (extract_lets +onlyGivenNames x; refine Keeps.keepSec x ?_; rename' x => y)
    | (extract_lets +onlyGivenNames x; refine Keeps.keepArm x ?_; rename' x => y)
    | (extract_lets +onlyGivenNames x; refine Keeps.keepMeter x ?_; rename' x => y)
    | (extract_lets +onlyGivenNames x; clear_value x; rename' x => y)
    | split | with_reducible refine Keeps.light ?_ rfl rfl rfl rfl

theorem keeps_addRegion (h : Keeps F s t) :
    ∀ x0 x1 x2, (hF : [SField.ctxs] ⊆ F := by assumption) →
    Keeps F s (addRegion x0 x1 x2 t) := by
  intro x0 x1 x2 hF
  have b_ctxs : SField.ctxs ∈ F := hF (by decide)
  unfold addRegion
  repeat'
    first
    | with_reducible assumption | with_reducible apply Keeps.modCtx
    | (extract_lets +onlyGivenNames x
       refine Keeps.cut (u := x) ?_ fun hx => ?_
       (on_goal 1 => unfold x)
       (on_goal 2 => (clear_value x; rename' x => y)))
    | (extract_lets +onlyGivenNames x; refine Keeps.keepEnv x ?_; rename' x => y)
    | (extract_lets +onlyGivenNames x; refine Keeps.keepSec x ?_; rename' x => y)
    | (extract_lets +onlyGivenNames x; refine Keeps.keepArm x ?_; rename' x => y)
    | (extract_lets +onlyGivenNames x; refine Keeps.keepMeter x ?_; rename' x => y)
    | (extract_lets +onlyGivenNames x; clear_value x; rename' x => y)
    | split | with_reducible refine Keeps.light ?_ rfl rfl rfl rfl

theorem keeps_takeRegionBanks (h : Keeps F s t) :
    ∀ x0 x1, (hF : [SField.banks, .bankMem] ⊆ F := by assumption) →
    Keeps F s (takeRegionBanks x0 x1 t) := by
  intro x0 x1 hF
  have f_takeBank : [SField.banks, .bankMem] ⊆ F := List.Subset.trans (by decide) hF
  unfold takeRegionBanks
  repeat'
    first
    | with_reducible assumption | with_reducible (refine Keeps.forAll ?_ _ _ fun _ _ _ => ?_)
    | with_reducible apply keeps_takeBank
    | (extract_lets +onlyGivenNames x
       refine Keeps.cut (u := x) ?_ fun hx => ?_
       (on_goal 1 => unfold x)
       (on_goal 2 => (clear_value x; rename' x => y)))
    | (extract_lets +onlyGivenNames x; refine Keeps.keepEnv x ?_; rename' x => y)
    | (extract_lets +onlyGivenNames x; refine Keeps.keepSec x ?_; rename' x => y)
    | (extract_lets +onlyGivenNames x; refine Keeps.keepArm x ?_; rename' x => y)
    | (extract_lets +onlyGivenNames x; refine Keeps.keepMeter x ?_; rename' x => y)
    | (extract_lets +onlyGivenNames x; clear_value x; rename' x => y)
    | split | with_reducible refine Keeps.light ?_ rfl rfl rfl rfl

theorem keeps_execRegionAlloc (h : Keeps F s t) :
    ∀ x0 x1, (hF : [SField.tiles, .banks, .parts2, .ctxs, .bankMem, .hbm] ⊆ F := by assumption) →
    Yields F s (execRegionAlloc x0 x1 t) := by
  intro x0 x1 hF
  have f_finish : [SField.tiles, .ctxs] ⊆ F := List.Subset.trans (by decide) hF
  have f_fixSubst : [SField.parts2] ⊆ F := List.Subset.trans (by decide) hF
  have f_addRegion : [SField.ctxs] ⊆ F := List.Subset.trans (by decide) hF
  have f_unwriteUnits : [SField.hbm] ⊆ F := List.Subset.trans (by decide) hF
  have f_fixSwap : [SField.parts2, .ctxs, .hbm] ⊆ F := List.Subset.trans (by decide) hF
  have f_takeRegionBanks : [SField.banks, .bankMem] ⊆ F := List.Subset.trans (by decide) hF
  unfold execRegionAlloc
  repeat'
    first
    | with_reducible assumption | with_reducible apply keeps_finish | with_reducible apply keeps_fixSubst
    | with_reducible apply keeps_addRegion | with_reducible apply keeps_unwriteUnits
    | with_reducible apply keeps_fixSwap | with_reducible apply keeps_takeRegionBanks
    | with_reducible apply Yields.next
    | (extract_lets +onlyGivenNames x
       refine Yields.cut (u := x) ?_ fun hx => ?_
       (on_goal 1 => unfold x)
       (on_goal 2 => (clear_value x; rename' x => y)))
    | (extract_lets +onlyGivenNames x
       refine Keeps.cut (u := x) ?_ fun hx => ?_
       (on_goal 1 => unfold x)
       (on_goal 2 => (clear_value x; rename' x => y)))
    | (extract_lets +onlyGivenNames x; refine Keeps.keepEnv x ?_; rename' x => y)
    | (extract_lets +onlyGivenNames x; refine Keeps.keepSec x ?_; rename' x => y)
    | (extract_lets +onlyGivenNames x; refine Keeps.keepArm x ?_; rename' x => y)
    | (extract_lets +onlyGivenNames x; refine Keeps.keepMeter x ?_; rename' x => y)
    | (extract_lets +onlyGivenNames x; clear_value x; rename' x => y)
    | split | with_reducible refine Keeps.light ?_ rfl rfl rfl rfl

theorem keeps_execRegionFree (h : Keeps F s t) :
    ∀ x0 x1, (hF : [SField.slabs2, .tiles, .banks, .parts2, .ctxs, .hbm] ⊆ F := by assumption) →
    Yields F s (execRegionFree x0 x1 t) := by
  intro x0 x1 hF
  have f_endUnbound : [SField.tiles, .ctxs] ⊆ F := List.Subset.trans (by decide) hF
  have f_freeRegions : [SField.slabs2, .banks, .parts2, .ctxs, .hbm] ⊆ F := List.Subset.trans (by decide) hF
  unfold execRegionFree
  repeat'
    first
    | with_reducible assumption | with_reducible apply keeps_endUnbound | with_reducible apply keeps_freeRegions
    | with_reducible apply Yields.next
    | split

theorem keeps_loadBanks (h : Keeps F s t) :
    ∀ x0 x1 x2, (hF : [SField.bankMem] ⊆ F := by assumption) →
    Keeps F s (loadBanks x0 x1 x2 t) := by
  intro x0 x1 x2 hF
  have f_bankWrite : [SField.bankMem] ⊆ F := List.Subset.trans (by decide) hF
  unfold loadBanks
  repeat'
    first
    | with_reducible assumption | with_reducible (refine Keeps.forAll ?_ _ _ fun _ _ _ => ?_)
    | with_reducible apply keeps_bankWrite
    | (extract_lets +onlyGivenNames x
       refine Keeps.cut (u := x) ?_ fun hx => ?_
       (on_goal 1 => unfold x)
       (on_goal 2 => (clear_value x; rename' x => y)))
    | (extract_lets +onlyGivenNames x; refine Keeps.keepEnv x ?_; rename' x => y)
    | (extract_lets +onlyGivenNames x; refine Keeps.keepSec x ?_; rename' x => y)
    | (extract_lets +onlyGivenNames x; refine Keeps.keepArm x ?_; rename' x => y)
    | (extract_lets +onlyGivenNames x; refine Keeps.keepMeter x ?_; rename' x => y)
    | (extract_lets +onlyGivenNames x; clear_value x; rename' x => y)
    | split | with_reducible refine Keeps.light ?_ rfl rfl rfl rfl

theorem keeps_execModelLoad (h : Keeps F s t) :
    ∀ x0 x1, (hF : [SField.tiles, .banks, .parts2, .ctxs, .bankMem, .hbm] ⊆ F := by assumption) →
    Yields F s (execModelLoad x0 x1 t) := by
  intro x0 x1 hF
  have b_ctxs : SField.ctxs ∈ F := hF (by decide)
  have f_finish : [SField.tiles, .ctxs] ⊆ F := List.Subset.trans (by decide) hF
  have f_unwriteUnits : [SField.hbm] ⊆ F := List.Subset.trans (by decide) hF
  have f_addRegion : [SField.ctxs] ⊆ F := List.Subset.trans (by decide) hF
  have f_takeRegionBanks : [SField.banks, .bankMem] ⊆ F := List.Subset.trans (by decide) hF
  have f_putUnits : [SField.hbm] ⊆ F := List.Subset.trans (by decide) hF
  have f_loadBanks : [SField.bankMem] ⊆ F := List.Subset.trans (by decide) hF
  have f_fixSwap : [SField.parts2, .ctxs, .hbm] ⊆ F := List.Subset.trans (by decide) hF
  unfold execModelLoad
  repeat'
    first
    | with_reducible assumption | with_reducible apply keeps_finish | with_reducible apply keeps_unwriteUnits
    | with_reducible apply keeps_addRegion | with_reducible apply keeps_takeRegionBanks
    | with_reducible apply keeps_putUnits | with_reducible apply keeps_loadBanks | with_reducible apply keeps_fixSwap
    | with_reducible apply Keeps.modCtx | with_reducible (refine Keeps.forAll ?_ _ _ fun _ _ _ => ?_)
    | with_reducible apply Yields.next
    | (extract_lets +onlyGivenNames x
       refine Yields.cut (u := x) ?_ fun hx => ?_
       (on_goal 1 => unfold x)
       (on_goal 2 => (clear_value x; rename' x => y)))
    | (extract_lets +onlyGivenNames x
       refine Keeps.cut (u := x) ?_ fun hx => ?_
       (on_goal 1 => unfold x)
       (on_goal 2 => (clear_value x; rename' x => y)))
    | (extract_lets +onlyGivenNames x; refine Keeps.keepEnv x ?_; rename' x => y)
    | (extract_lets +onlyGivenNames x; refine Keeps.keepSec x ?_; rename' x => y)
    | (extract_lets +onlyGivenNames x; refine Keeps.keepArm x ?_; rename' x => y)
    | (extract_lets +onlyGivenNames x; refine Keeps.keepMeter x ?_; rename' x => y)
    | (extract_lets +onlyGivenNames x; clear_value x; rename' x => y)
    | split

theorem keeps_execModelUnload (h : Keeps F s t) :
    ∀ x0 x1, (hF : [SField.slabs2, .tiles, .banks, .parts2, .ctxs, .hbm] ⊆ F := by assumption) →
    Yields F s (execModelUnload x0 x1 t) := by
  intro x0 x1 hF
  have b_ctxs : SField.ctxs ∈ F := hF (by decide)
  have f_freeRegions : [SField.slabs2, .banks, .parts2, .ctxs, .hbm] ⊆ F := List.Subset.trans (by decide) hF
  have f_endUnbound : [SField.tiles, .ctxs] ⊆ F := List.Subset.trans (by decide) hF
  have f_fixSubst : [SField.parts2] ⊆ F := List.Subset.trans (by decide) hF
  unfold execModelUnload
  repeat'
    first
    | with_reducible assumption | with_reducible apply keeps_freeRegions | with_reducible apply keeps_endUnbound
    | with_reducible apply keeps_fixSubst | with_reducible apply Keeps.modCtx | with_reducible apply Yields.next
    | (extract_lets +onlyGivenNames x
       refine Yields.cut (u := x) ?_ fun hx => ?_
       (on_goal 1 => unfold x)
       (on_goal 2 => (clear_value x; rename' x => y)))
    | (extract_lets +onlyGivenNames x
       refine Keeps.cut (u := x) ?_ fun hx => ?_
       (on_goal 1 => unfold x)
       (on_goal 2 => (clear_value x; rename' x => y)))
    | (extract_lets +onlyGivenNames x; refine Keeps.keepEnv x ?_; rename' x => y)
    | (extract_lets +onlyGivenNames x; refine Keeps.keepSec x ?_; rename' x => y)
    | (extract_lets +onlyGivenNames x; refine Keeps.keepArm x ?_; rename' x => y)
    | (extract_lets +onlyGivenNames x; refine Keeps.keepMeter x ?_; rename' x => y)
    | (extract_lets +onlyGivenNames x; clear_value x; rename' x => y)
    | split

theorem keeps_leaveBanks (h : Keeps F s t) :
    ∀ x0, (hF : [SField.banks, .ctxs, .hbm] ⊆ F := by assumption) →
    Keeps F s (leaveBanks x0 t) := by
  intro x0 hF
  have b_ctxs : SField.ctxs ∈ F := hF (by decide)
  have f_swapOut : [SField.banks, .ctxs, .hbm] ⊆ F := List.Subset.trans (by decide) hF
  unfold leaveBanks
  repeat'
    first
    | with_reducible assumption | with_reducible apply keeps_swapOut | with_reducible apply Keeps.modCtx
    | (extract_lets +onlyGivenNames x
       refine Keeps.cut (u := x) ?_ fun hx => ?_
       (on_goal 1 => unfold x)
       (on_goal 2 => (clear_value x; rename' x => y)))
    | (extract_lets +onlyGivenNames x; refine Keeps.keepEnv x ?_; rename' x => y)
    | (extract_lets +onlyGivenNames x; refine Keeps.keepSec x ?_; rename' x => y)
    | (extract_lets +onlyGivenNames x; refine Keeps.keepArm x ?_; rename' x => y)
    | (extract_lets +onlyGivenNames x; refine Keeps.keepMeter x ?_; rename' x => y)
    | (extract_lets +onlyGivenNames x; clear_value x; rename' x => y)
    | split | with_reducible refine Keeps.light ?_ rfl rfl rfl rfl

theorem keeps_execSwapOutDone (h : Keeps F s t) :
    ∀ x0, (hF : [SField.env, .tiles, .banks, .ctxs, .hbm] ⊆ F := by assumption) →
    Yields F s (execSwapOutDone x0 t) := by
  intro x0 hF
  have b_ctxs : SField.ctxs ∈ F := hF (by decide)
  have f_leaveBanks : [SField.banks, .ctxs, .hbm] ⊆ F := List.Subset.trans (by decide) hF
  have f_settle : [SField.env, .ctxs] ⊆ F := List.Subset.trans (by decide) hF
  have f_finish : [SField.tiles, .ctxs] ⊆ F := List.Subset.trans (by decide) hF
  unfold execSwapOutDone
  repeat'
    first
    | with_reducible assumption | with_reducible apply keeps_leaveBanks | with_reducible apply Keeps.modCtx
    | with_reducible apply keeps_settle | with_reducible (refine Keeps.forAll ?_ _ _ fun _ _ _ => ?_)
    | with_reducible apply keeps_finish | with_reducible apply Yields.next
    | (extract_lets +onlyGivenNames x
       refine Yields.cut (u := x) ?_ fun hx => ?_
       (on_goal 1 => unfold x)
       (on_goal 2 => (clear_value x; rename' x => y)))
    | (extract_lets +onlyGivenNames x
       refine Keeps.cut (u := x) ?_ fun hx => ?_
       (on_goal 1 => unfold x)
       (on_goal 2 => (clear_value x; rename' x => y)))
    | (extract_lets +onlyGivenNames x; refine Keeps.keepEnv x ?_; rename' x => y)
    | (extract_lets +onlyGivenNames x; refine Keeps.keepSec x ?_; rename' x => y)
    | (extract_lets +onlyGivenNames x; refine Keeps.keepArm x ?_; rename' x => y)
    | (extract_lets +onlyGivenNames x; refine Keeps.keepMeter x ?_; rename' x => y)
    | (extract_lets +onlyGivenNames x; clear_value x; rename' x => y)
    | split | with_reducible refine Keeps.light ?_ rfl rfl rfl rfl

theorem keeps_execSwapInDone (h : Keeps F s t) :
    ∀ x0, (hF : [SField.env, .hostMem, .pcie, .slabs2, .ports, .ports2, .tiles, .banks, .parts2, .ctxs, .funcs,
        .bankMem, .hbm] ⊆ F := by assumption) →
    Yields F s (execSwapInDone x0 t) := by
  intro x0 hF
  have b_ctxs : SField.ctxs ∈ F := hF (by decide)
  have f_hbmFault : [SField.env, .hostMem, .pcie, .slabs2, .ports, .ports2, .tiles, .banks, .parts2, .ctxs, .funcs,
      .hbm] ⊆ F := List.Subset.trans (by decide) hF
  have f_swapIn : [SField.banks, .bankMem] ⊆ F := List.Subset.trans (by decide) hF
  have f_settle : [SField.env, .ctxs] ⊆ F := List.Subset.trans (by decide) hF
  unfold execSwapInDone
  repeat'
    first
    | with_reducible assumption | with_reducible apply keeps_hbmFault | with_reducible apply keeps_swapIn
    | with_reducible apply keeps_settle | with_reducible apply Keeps.modCtx | with_reducible apply Yields.next
    | (extract_lets +onlyGivenNames x
       refine Yields.cut (u := x) ?_ fun hx => ?_
       (on_goal 1 => unfold x)
       (on_goal 2 => (clear_value x; rename' x => y)))
    | (extract_lets +onlyGivenNames x
       refine Keeps.cut (u := x) ?_ fun hx => ?_
       (on_goal 1 => unfold x)
       (on_goal 2 => (clear_value x; rename' x => y)))
    | (extract_lets +onlyGivenNames x; refine Keeps.keepEnv x ?_; rename' x => y)
    | (extract_lets +onlyGivenNames x; refine Keeps.keepSec x ?_; rename' x => y)
    | (extract_lets +onlyGivenNames x; refine Keeps.keepArm x ?_; rename' x => y)
    | (extract_lets +onlyGivenNames x; refine Keeps.keepMeter x ?_; rename' x => y)
    | (extract_lets +onlyGivenNames x; clear_value x; rename' x => y)
    | split

theorem keeps_makeResident (h : Keeps F s t) :
    ∀ x0, (hF : [SField.env, .banks, .ctxs] ⊆ F := by assumption) →
    Keeps F s (makeResident x0 t) := by
  intro x0 hF
  have b_banks : SField.banks ∈ F := hF (by decide)
  have b_ctxs : SField.ctxs ∈ F := hF (by decide)
  have f_settle : [SField.env, .ctxs] ⊆ F := List.Subset.trans (by decide) hF
  unfold makeResident
  repeat'
    first
    | with_reducible assumption | with_reducible (refine Keeps.forAll ?_ _ _ fun _ _ _ => ?_)
    | with_reducible apply Keeps.modBank | with_reducible apply keeps_settle | with_reducible apply Keeps.modCtx
    | (extract_lets +onlyGivenNames x
       refine Keeps.cut (u := x) ?_ fun hx => ?_
       (on_goal 1 => unfold x)
       (on_goal 2 => (clear_value x; rename' x => y)))
    | (extract_lets +onlyGivenNames x; refine Keeps.keepEnv x ?_; rename' x => y)
    | (extract_lets +onlyGivenNames x; refine Keeps.keepSec x ?_; rename' x => y)
    | (extract_lets +onlyGivenNames x; refine Keeps.keepArm x ?_; rename' x => y)
    | (extract_lets +onlyGivenNames x; refine Keeps.keepMeter x ?_; rename' x => y)
    | (extract_lets +onlyGivenNames x; clear_value x; rename' x => y)
    | split | with_reducible refine Keeps.light ?_ rfl rfl rfl rfl

theorem keeps_evict (h : Keeps F s t) :
    ∀ x0 x1, (hF : [SField.env, .hostMem, .pcie, .parts2, .ctxs, .funcs] ⊆ F := by assumption) →
    Keeps F s (evict x0 x1 t) := by
  intro x0 x1 hF
  have b_parts2 : SField.parts2 ∈ F := hF (by decide)
  have b_ctxs : SField.ctxs ∈ F := hF (by decide)
  have f_schedEvent : [SField.env, .hostMem, .pcie, .parts2, .funcs] ⊆ F := List.Subset.trans (by decide) hF
  have f_ctxEvent : [SField.env, .hostMem, .pcie, .ctxs, .funcs] ⊆ F := List.Subset.trans (by decide) hF
  unfold evict
  repeat'
    first
    | with_reducible assumption | with_reducible apply Keeps.modCtx | with_reducible apply Keeps.modPart2
    | with_reducible apply keeps_schedEvent | with_reducible apply keeps_ctxEvent
    | (extract_lets +onlyGivenNames x
       refine Keeps.cut (u := x) ?_ fun hx => ?_
       (on_goal 1 => unfold x)
       (on_goal 2 => (clear_value x; rename' x => y)))
    | (extract_lets +onlyGivenNames x; refine Keeps.keepEnv x ?_; rename' x => y)
    | (extract_lets +onlyGivenNames x; refine Keeps.keepSec x ?_; rename' x => y)
    | (extract_lets +onlyGivenNames x; refine Keeps.keepArm x ?_; rename' x => y)
    | (extract_lets +onlyGivenNames x; refine Keeps.keepMeter x ?_; rename' x => y)
    | (extract_lets +onlyGivenNames x; clear_value x; rename' x => y)
    | split | with_reducible refine Keeps.light ?_ rfl rfl rfl rfl

theorem keeps_considerAll (h : Keeps F s t) :
    ∀ x0 x1, (hF : [SField.env, .hostMem, .pcie, .banks, .parts2, .ctxs, .funcs] ⊆ F := by assumption) →
    Keeps F s (considerAll x0 x1 t) := by
  intro x0 x1 hF
  have f_makeResident : [SField.env, .banks, .ctxs] ⊆ F := List.Subset.trans (by decide) hF
  have f_evict : [SField.env, .hostMem, .pcie, .parts2, .ctxs, .funcs] ⊆ F := List.Subset.trans (by decide) hF
  revert x0 x1
  intro p l
  induction l generalizing t with
  | nil => exact h
  | cons c r ih =>
    simp only [considerAll]
    split
    · exact keeps_makeResident h _
    · split
      · exact h.forAll _ _ fun v u hu => keeps_evict hu _ _
      · exact ih h

theorem keeps_execCtxAdmit (h : Keeps F s t) :
    ∀ x0, (hF : [SField.env, .hostMem, .pcie, .banks, .parts2, .ctxs, .funcs] ⊆ F := by assumption) →
    Yields F s (execCtxAdmit x0 t) := by
  intro x0 hF
  have f_considerAll : [SField.env, .hostMem, .pcie, .banks, .parts2, .ctxs, .funcs] ⊆ F := List.Subset.trans (by
      decide) hF
  unfold execCtxAdmit
  repeat'
    first
    | with_reducible assumption | with_reducible apply keeps_considerAll | with_reducible apply Yields.next
    | (extract_lets +onlyGivenNames x
       refine Yields.cut (u := x) ?_ fun hx => ?_
       (on_goal 1 => unfold x)
       (on_goal 2 => (clear_value x; rename' x => y)))
    | (extract_lets +onlyGivenNames x
       refine Keeps.cut (u := x) ?_ fun hx => ?_
       (on_goal 1 => unfold x)
       (on_goal 2 => (clear_value x; rename' x => y)))
    | (extract_lets +onlyGivenNames x; refine Keeps.keepEnv x ?_; rename' x => y)
    | (extract_lets +onlyGivenNames x; refine Keeps.keepSec x ?_; rename' x => y)
    | (extract_lets +onlyGivenNames x; refine Keeps.keepArm x ?_; rename' x => y)
    | (extract_lets +onlyGivenNames x; refine Keeps.keepMeter x ?_; rename' x => y)
    | (extract_lets +onlyGivenNames x; clear_value x; rename' x => y)
    | split | with_reducible refine Keeps.light ?_ rfl rfl rfl rfl

theorem keeps_suspend (h : Keeps F s t) :
    ∀ x0, (hF : [SField.env, .ctxs] ⊆ F := by assumption) →
    Keeps F s (suspend x0 t) := by
  intro x0 hF
  have b_ctxs : SField.ctxs ∈ F := hF (by decide)
  have f_settle : [SField.env, .ctxs] ⊆ F := List.Subset.trans (by decide) hF
  unfold suspend
  repeat'
    first
    | with_reducible assumption | with_reducible apply keeps_settle | with_reducible apply Keeps.modCtx
    | (extract_lets +onlyGivenNames x
       refine Keeps.cut (u := x) ?_ fun hx => ?_
       (on_goal 1 => unfold x)
       (on_goal 2 => (clear_value x; rename' x => y)))
    | (extract_lets +onlyGivenNames x; refine Keeps.keepEnv x ?_; rename' x => y)
    | (extract_lets +onlyGivenNames x; refine Keeps.keepSec x ?_; rename' x => y)
    | (extract_lets +onlyGivenNames x; refine Keeps.keepArm x ?_; rename' x => y)
    | (extract_lets +onlyGivenNames x; refine Keeps.keepMeter x ?_; rename' x => y)
    | (extract_lets +onlyGivenNames x; clear_value x; rename' x => y)
    | split | with_reducible refine Keeps.light ?_ rfl rfl rfl rfl

theorem keeps_resume (h : Keeps F s t) :
    ∀ x0, (hF : [SField.env, .ctxs] ⊆ F := by assumption) →
    Keeps F s (resume x0 t) := by
  intro x0 hF
  have b_ctxs : SField.ctxs ∈ F := hF (by decide)
  have f_settle : [SField.env, .ctxs] ⊆ F := List.Subset.trans (by decide) hF
  unfold resume
  repeat'
    first
    | with_reducible assumption | with_reducible apply keeps_settle | with_reducible apply Keeps.modCtx
    | (extract_lets +onlyGivenNames x
       refine Keeps.cut (u := x) ?_ fun hx => ?_
       (on_goal 1 => unfold x)
       (on_goal 2 => (clear_value x; rename' x => y)))
    | (extract_lets +onlyGivenNames x; refine Keeps.keepEnv x ?_; rename' x => y)
    | (extract_lets +onlyGivenNames x; refine Keeps.keepSec x ?_; rename' x => y)
    | (extract_lets +onlyGivenNames x; refine Keeps.keepArm x ?_; rename' x => y)
    | (extract_lets +onlyGivenNames x; refine Keeps.keepMeter x ?_; rename' x => y)
    | (extract_lets +onlyGivenNames x; clear_value x; rename' x => y)
    | split | with_reducible refine Keeps.light ?_ rfl rfl rfl rfl

theorem keeps_execCtxSuspend (h : Keeps F s t) :
    ∀ x0 x1, (hF : [SField.env, .tiles, .ctxs] ⊆ F := by assumption) →
    Yields F s (execCtxSuspend x0 x1 t) := by
  intro x0 x1 hF
  have f_finish : [SField.tiles, .ctxs] ⊆ F := List.Subset.trans (by decide) hF
  have f_suspend : [SField.env, .ctxs] ⊆ F := List.Subset.trans (by decide) hF
  unfold execCtxSuspend
  repeat'
    first
    | with_reducible assumption | with_reducible apply keeps_finish | with_reducible apply keeps_suspend
    | with_reducible apply Yields.next
    | (extract_lets +onlyGivenNames x
       refine Yields.cut (u := x) ?_ fun hx => ?_
       (on_goal 1 => unfold x)
       (on_goal 2 => (clear_value x; rename' x => y)))
    | (extract_lets +onlyGivenNames x
       refine Keeps.cut (u := x) ?_ fun hx => ?_
       (on_goal 1 => unfold x)
       (on_goal 2 => (clear_value x; rename' x => y)))
    | (extract_lets +onlyGivenNames x; refine Keeps.keepEnv x ?_; rename' x => y)
    | (extract_lets +onlyGivenNames x; refine Keeps.keepSec x ?_; rename' x => y)
    | (extract_lets +onlyGivenNames x; refine Keeps.keepArm x ?_; rename' x => y)
    | (extract_lets +onlyGivenNames x; refine Keeps.keepMeter x ?_; rename' x => y)
    | (extract_lets +onlyGivenNames x; clear_value x; rename' x => y)
    | split | with_reducible refine Keeps.light ?_ rfl rfl rfl rfl

theorem keeps_execCtxResume (h : Keeps F s t) :
    ∀ x0 x1, (hF : [SField.env, .tiles, .ctxs] ⊆ F := by assumption) →
    Yields F s (execCtxResume x0 x1 t) := by
  intro x0 x1 hF
  have f_finish : [SField.tiles, .ctxs] ⊆ F := List.Subset.trans (by decide) hF
  have f_resume : [SField.env, .ctxs] ⊆ F := List.Subset.trans (by decide) hF
  unfold execCtxResume
  repeat'
    first
    | with_reducible assumption | with_reducible apply keeps_finish | with_reducible apply keeps_resume
    | with_reducible apply Yields.next
    | (extract_lets +onlyGivenNames x
       refine Yields.cut (u := x) ?_ fun hx => ?_
       (on_goal 1 => unfold x)
       (on_goal 2 => (clear_value x; rename' x => y)))
    | (extract_lets +onlyGivenNames x
       refine Keeps.cut (u := x) ?_ fun hx => ?_
       (on_goal 1 => unfold x)
       (on_goal 2 => (clear_value x; rename' x => y)))
    | (extract_lets +onlyGivenNames x; refine Keeps.keepEnv x ?_; rename' x => y)
    | (extract_lets +onlyGivenNames x; refine Keeps.keepSec x ?_; rename' x => y)
    | (extract_lets +onlyGivenNames x; refine Keeps.keepArm x ?_; rename' x => y)
    | (extract_lets +onlyGivenNames x; refine Keeps.keepMeter x ?_; rename' x => y)
    | (extract_lets +onlyGivenNames x; clear_value x; rename' x => y)
    | split | with_reducible refine Keeps.light ?_ rfl rfl rfl rfl

theorem keeps_execCtxSave (h : Keeps F s t) :
    ∀ x0 x1, (hF : [SField.tiles, .ctxs] ⊆ F := by assumption) →
    Yields F s (execCtxSave x0 x1 t) := by
  intro x0 x1 hF
  have b_ctxs : SField.ctxs ∈ F := hF (by decide)
  have f_setActed : [SField.ctxs] ⊆ F := List.Subset.trans (by decide) hF
  have f_finish : [SField.tiles, .ctxs] ⊆ F := List.Subset.trans (by decide) hF
  unfold execCtxSave
  repeat'
    first
    | with_reducible assumption | with_reducible apply keeps_setActed | with_reducible apply Keeps.modCtx
    | with_reducible apply keeps_finish | with_reducible apply Yields.next
    | (extract_lets +onlyGivenNames x
       refine Yields.cut (u := x) ?_ fun hx => ?_
       (on_goal 1 => unfold x)
       (on_goal 2 => (clear_value x; rename' x => y)))
    | (extract_lets +onlyGivenNames x
       refine Keeps.cut (u := x) ?_ fun hx => ?_
       (on_goal 1 => unfold x)
       (on_goal 2 => (clear_value x; rename' x => y)))
    | (extract_lets +onlyGivenNames x; refine Keeps.keepEnv x ?_; rename' x => y)
    | (extract_lets +onlyGivenNames x; refine Keeps.keepSec x ?_; rename' x => y)
    | (extract_lets +onlyGivenNames x; refine Keeps.keepArm x ?_; rename' x => y)
    | (extract_lets +onlyGivenNames x; refine Keeps.keepMeter x ?_; rename' x => y)
    | (extract_lets +onlyGivenNames x; clear_value x; rename' x => y)
    | split | with_reducible refine Keeps.light ?_ rfl rfl rfl rfl

theorem keeps_execCtxReset (h : Keeps F s t) :
    ∀ x0 x1, (hF : [SField.env, .slabs2, .ports, .ports2, .tiles, .banks, .parts2, .ctxs, .hbm] ⊆ F := by assumption)
        →
    Yields F s (execCtxReset x0 x1 t) := by
  intro x0 x1 hF
  have f_finish : [SField.tiles, .ctxs] ⊆ F := List.Subset.trans (by decide) hF
  have f_settle : [SField.env, .ctxs] ⊆ F := List.Subset.trans (by decide) hF
  have f_resetCtx : [SField.slabs2, .ports, .ports2, .tiles, .banks, .parts2, .ctxs, .hbm] ⊆ F := List.Subset.trans
      (by decide) hF
  unfold execCtxReset
  repeat'
    first
    | with_reducible assumption | with_reducible apply keeps_finish | with_reducible apply keeps_settle
    | with_reducible apply keeps_resetCtx | with_reducible apply Yields.next
    | (extract_lets +onlyGivenNames x
       refine Yields.cut (u := x) ?_ fun hx => ?_
       (on_goal 1 => unfold x)
       (on_goal 2 => (clear_value x; rename' x => y)))
    | (extract_lets +onlyGivenNames x
       refine Keeps.cut (u := x) ?_ fun hx => ?_
       (on_goal 1 => unfold x)
       (on_goal 2 => (clear_value x; rename' x => y)))
    | (extract_lets +onlyGivenNames x; refine Keeps.keepEnv x ?_; rename' x => y)
    | (extract_lets +onlyGivenNames x; refine Keeps.keepSec x ?_; rename' x => y)
    | (extract_lets +onlyGivenNames x; refine Keeps.keepArm x ?_; rename' x => y)
    | (extract_lets +onlyGivenNames x; refine Keeps.keepMeter x ?_; rename' x => y)
    | (extract_lets +onlyGivenNames x; clear_value x; rename' x => y)
    | split | with_reducible refine Keeps.light ?_ rfl rfl rfl rfl

theorem keeps_copyRange (h : Keeps F s t) :
    ∀ x0 x1 x2, (hF : [SField.hbm] ⊆ F := by assumption) →
    Keeps F s (copyRange x0 x1 x2 t) := by
  intro x0 x1 x2 hF
  have b_hbm : SField.hbm ∈ F := hF (by decide)
  have f_hbmUnwrite : [SField.hbm] ⊆ F := List.Subset.trans (by decide) hF
  have f_setGran : [SField.hbm] ⊆ F := List.Subset.trans (by decide) hF
  revert x0 x1 x2
  intro src dst len
  unfold copyRange
  refine Keeps.memory ((keeps_hbmUnwrite h _ _).forAll _ _ fun o u hu => ?_) id id (Memory.wf_mwriteAll _) id
  dsimp only
  split
  · split
    · exact hu
    · exact keeps_setGran hu _ _ _ _
  · exact hu

theorem keeps_remapTable (h : Keeps F s t) :
    ∀ x0 x1 x2, (hF : [SField.hbm] ⊆ F := by assumption) →
    Keeps F s (remapTable x0 x1 x2 t) := by
  intro x0 x1 x2 hF
  have b_hbm : SField.hbm ∈ F := hF (by decide)
  revert x0 x1 x2
  intro c l q
  refine h.forAll _ _ fun hd u hu => hu.forAll _ _ fun b v hv => ?_
  dsimp only
  split
  · exact hv.memory id id (Memory.wf_mwrite _ _) id
  · exact hv

theorem keeps_moveCtx (h : Keeps F s t) :
    ∀ x0 x1 x2, (hF : [SField.env, .hostMem, .pcie, .slabs2, .parts, .parts2, .ctxs, .funcs, .hbm] ⊆ F := by
        assumption) →
    Keeps F s (moveCtx x0 x1 x2 t) := by
  intro x0 x1 x2 hF
  have b_parts2 : SField.parts2 ∈ F := hF (by decide)
  have b_ctxs : SField.ctxs ∈ F := hF (by decide)
  have f_labInvalidate : [SField.slabs2] ⊆ F := List.Subset.trans (by decide) hF
  have f_copyRange : [SField.hbm] ⊆ F := List.Subset.trans (by decide) hF
  have f_takeLeaves : [SField.env, .hostMem, .pcie, .parts, .parts2, .funcs, .hbm] ⊆ F := List.Subset.trans (by
      decide) hF
  have f_remapTable : [SField.hbm] ⊆ F := List.Subset.trans (by decide) hF
  have f_settle : [SField.env, .ctxs] ⊆ F := List.Subset.trans (by decide) hF
  have f_fixSubst : [SField.parts2] ⊆ F := List.Subset.trans (by decide) hF
  revert x0 x1 x2
  intro c p regs
  unfold moveCtx
  extract_lets x po leaves refs s1 fresh umap s2 s3 s4
  have h4 : Keeps F s s4 := by
    refine Keeps.modCtx (Keeps.modPart2 (Keeps.forAll (Keeps.forAll h _ _ fun i u hu => ?_) _ _ fun ab u hu => ?_) _ _) _ _
    · exact keeps_labInvalidate hu _ _
    · exact keeps_copyRange hu _ _ _
  clear_value s4
  split
  rename_i ids s5 hq
  have h5 := keeps_takeLeaves hq h4
  extract_lets lmap a b s6 s7 s8 s9
  have h6 : Keeps F s s6 := by
    unfold s6
    exact h5.forAll _ _ fun l u hu => keeps_copyRange (keeps_copyRange hu _ _ _) _ _ _
  clear_value s6
  have h7 : Keeps F s s7 := by
    unfold s7
    exact h6.modPart2 _ _
  clear_value s7
  have h8 : Keeps F s s8 := by
    unfold s8
    exact h7.modCtx _ _
  clear_value s8
  have h9 : Keeps F s s9 := by
    unfold s9
    exact h8.forAll _ _ fun q u hu => keeps_remapTable hu _ _ _
  clear_value s9
  exact keeps_settle (keeps_fixSubst (keeps_fixSubst h9 _) _) _

theorem keeps_discardInterrupted (h : Keeps F s t) :
    ∀ x0 x1, (hF : [SField.tiles, .ctxs] ⊆ F := by assumption) →
    Keeps F s (discardInterrupted x0 x1 t) := by
  intro x0 x1 hF
  have f_finish : [SField.tiles, .ctxs] ⊆ F := List.Subset.trans (by decide) hF
  unfold discardInterrupted
  repeat'
    first
    | with_reducible assumption | with_reducible (refine Keeps.forAll ?_ _ _ fun _ _ _ => ?_)
    | with_reducible apply keeps_finish
    | (extract_lets +onlyGivenNames x
       refine Keeps.cut (u := x) ?_ fun hx => ?_
       (on_goal 1 => unfold x)
       (on_goal 2 => (clear_value x; rename' x => y)))
    | (extract_lets +onlyGivenNames x; refine Keeps.keepEnv x ?_; rename' x => y)
    | (extract_lets +onlyGivenNames x; refine Keeps.keepSec x ?_; rename' x => y)
    | (extract_lets +onlyGivenNames x; refine Keeps.keepArm x ?_; rename' x => y)
    | (extract_lets +onlyGivenNames x; refine Keeps.keepMeter x ?_; rename' x => y)
    | (extract_lets +onlyGivenNames x; clear_value x; rename' x => y)
    | split | with_reducible refine Keeps.light ?_ rfl rfl rfl rfl

theorem keeps_execCtxRestore (h : Keeps F s t) :
    ∀ x0 x1, (hF : [SField.env, .hostMem, .pcie, .slabs2, .tiles, .parts, .parts2, .ctxs, .funcs, .hbm] ⊆ F := by
        assumption) →
    Yields F s (execCtxRestore x0 x1 t) := by
  intro x0 x1 hF
  have f_finish : [SField.tiles, .ctxs] ⊆ F := List.Subset.trans (by decide) hF
  have f_discardInterrupted : [SField.tiles, .ctxs] ⊆ F := List.Subset.trans (by decide) hF
  have f_moveCtx : [SField.env, .hostMem, .pcie, .slabs2, .parts, .parts2, .ctxs, .funcs, .hbm] ⊆ F :=
      List.Subset.trans (by decide) hF
  unfold execCtxRestore
  repeat'
    first
    | with_reducible assumption | with_reducible apply keeps_finish | with_reducible apply keeps_discardInterrupted
    | with_reducible apply keeps_moveCtx | with_reducible apply Yields.next
    | (extract_lets +onlyGivenNames x
       refine Yields.cut (u := x) ?_ fun hx => ?_
       (on_goal 1 => unfold x)
       (on_goal 2 => (clear_value x; rename' x => y)))
    | (extract_lets +onlyGivenNames x
       refine Keeps.cut (u := x) ?_ fun hx => ?_
       (on_goal 1 => unfold x)
       (on_goal 2 => (clear_value x; rename' x => y)))
    | (extract_lets +onlyGivenNames x; refine Keeps.keepEnv x ?_; rename' x => y)
    | (extract_lets +onlyGivenNames x; refine Keeps.keepSec x ?_; rename' x => y)
    | (extract_lets +onlyGivenNames x; refine Keeps.keepArm x ?_; rename' x => y)
    | (extract_lets +onlyGivenNames x; refine Keeps.keepMeter x ?_; rename' x => y)
    | (extract_lets +onlyGivenNames x; clear_value x; rename' x => y)
    | split | with_reducible refine Keeps.light ?_ rfl rfl rfl rfl

theorem keeps_execSchedSet (h : Keeps F s t) :
    ∀ x0 x1, (hF : [SField.tiles, .parts, .ctxs] ⊆ F := by assumption) →
    Yields F s (execSchedSet x0 x1 t) := by
  intro x0 x1 hF
  have b_parts : SField.parts ∈ F := hF (by decide)
  have f_finish : [SField.tiles, .ctxs] ⊆ F := List.Subset.trans (by decide) hF
  unfold execSchedSet
  repeat'
    first
    | with_reducible assumption | with_reducible apply keeps_finish | with_reducible apply Keeps.modPart
    | with_reducible apply Yields.next
    | (extract_lets +onlyGivenNames x
       refine Yields.cut (u := x) ?_ fun hx => ?_
       (on_goal 1 => unfold x)
       (on_goal 2 => (clear_value x; rename' x => y)))
    | (extract_lets +onlyGivenNames x
       refine Keeps.cut (u := x) ?_ fun hx => ?_
       (on_goal 1 => unfold x)
       (on_goal 2 => (clear_value x; rename' x => y)))
    | (extract_lets +onlyGivenNames x; refine Keeps.keepEnv x ?_; rename' x => y)
    | (extract_lets +onlyGivenNames x; refine Keeps.keepSec x ?_; rename' x => y)
    | (extract_lets +onlyGivenNames x; refine Keeps.keepArm x ?_; rename' x => y)
    | (extract_lets +onlyGivenNames x; refine Keeps.keepMeter x ?_; rename' x => y)
    | (extract_lets +onlyGivenNames x; clear_value x; rename' x => y)
    | split | with_reducible refine Keeps.light ?_ rfl rfl rfl rfl

theorem keeps_controlWrite (h : Keeps F s t) :
    ∀ x0 x1 x2, (hF : [SField.env, .hostMem, .pcie, .ctxs, .funcs] ⊆ F := by assumption) →
    Keeps F s (controlWrite x0 x1 x2 t) := by
  intro x0 x1 x2 hF
  have b_ctxs : SField.ctxs ∈ F := hF (by decide)
  have f_ctxEvent : [SField.env, .hostMem, .pcie, .ctxs, .funcs] ⊆ F := List.Subset.trans (by decide) hF
  unfold controlWrite
  repeat'
    first
    | with_reducible assumption | with_reducible apply keeps_ctxEvent | with_reducible apply Keeps.modCtx
    | (extract_lets +onlyGivenNames x
       refine Keeps.cut (u := x) ?_ fun hx => ?_
       (on_goal 1 => unfold x)
       (on_goal 2 => (clear_value x; rename' x => y)))
    | (extract_lets +onlyGivenNames x; refine Keeps.keepEnv x ?_; rename' x => y)
    | (extract_lets +onlyGivenNames x; refine Keeps.keepSec x ?_; rename' x => y)
    | (extract_lets +onlyGivenNames x; refine Keeps.keepArm x ?_; rename' x => y)
    | (extract_lets +onlyGivenNames x; refine Keeps.keepMeter x ?_; rename' x => y)
    | (extract_lets +onlyGivenNames x; clear_value x; rename' x => y)
    | split | with_reducible refine Keeps.light ?_ rfl rfl rfl rfl

theorem keeps_execCtxControlSuspend (h : Keeps F s t) :
    ∀ x0 x1, (hF : [SField.env, .hostMem, .pcie, .ctxs, .funcs] ⊆ F := by assumption) →
    Yields F s (execCtxControlSuspend x0 x1 t) := by
  intro x0 x1 hF
  have f_controlWrite : [SField.env, .hostMem, .pcie, .ctxs, .funcs] ⊆ F := List.Subset.trans (by decide) hF
  unfold execCtxControlSuspend
  repeat'
    first
    | with_reducible assumption | with_reducible apply keeps_controlWrite | with_reducible apply Yields.next
    | (extract_lets +onlyGivenNames x
       refine Yields.cut (u := x) ?_ fun hx => ?_
       (on_goal 1 => unfold x)
       (on_goal 2 => (clear_value x; rename' x => y)))
    | (extract_lets +onlyGivenNames x
       refine Keeps.cut (u := x) ?_ fun hx => ?_
       (on_goal 1 => unfold x)
       (on_goal 2 => (clear_value x; rename' x => y)))
    | (extract_lets +onlyGivenNames x; refine Keeps.keepEnv x ?_; rename' x => y)
    | (extract_lets +onlyGivenNames x; refine Keeps.keepSec x ?_; rename' x => y)
    | (extract_lets +onlyGivenNames x; refine Keeps.keepArm x ?_; rename' x => y)
    | (extract_lets +onlyGivenNames x; refine Keeps.keepMeter x ?_; rename' x => y)
    | (extract_lets +onlyGivenNames x; clear_value x; rename' x => y)
    | split | with_reducible refine Keeps.light ?_ rfl rfl rfl rfl

theorem keeps_execCtxControlResume (h : Keeps F s t) :
    ∀ x0 x1, (hF : [SField.env, .hostMem, .pcie, .ctxs, .funcs] ⊆ F := by assumption) →
    Yields F s (execCtxControlResume x0 x1 t) := by
  intro x0 x1 hF
  have f_controlWrite : [SField.env, .hostMem, .pcie, .ctxs, .funcs] ⊆ F := List.Subset.trans (by decide) hF
  unfold execCtxControlResume
  repeat'
    first
    | with_reducible assumption | with_reducible apply keeps_controlWrite | with_reducible apply Yields.next
    | (extract_lets +onlyGivenNames x
       refine Yields.cut (u := x) ?_ fun hx => ?_
       (on_goal 1 => unfold x)
       (on_goal 2 => (clear_value x; rename' x => y)))
    | (extract_lets +onlyGivenNames x
       refine Keeps.cut (u := x) ?_ fun hx => ?_
       (on_goal 1 => unfold x)
       (on_goal 2 => (clear_value x; rename' x => y)))
    | (extract_lets +onlyGivenNames x; refine Keeps.keepEnv x ?_; rename' x => y)
    | (extract_lets +onlyGivenNames x; refine Keeps.keepSec x ?_; rename' x => y)
    | (extract_lets +onlyGivenNames x; refine Keeps.keepArm x ?_; rename' x => y)
    | (extract_lets +onlyGivenNames x; refine Keeps.keepMeter x ?_; rename' x => y)
    | (extract_lets +onlyGivenNames x; clear_value x; rename' x => y)
    | split | with_reducible refine Keeps.light ?_ rfl rfl rfl rfl

theorem keeps_actControl (h : Keeps F s t) :
    ∀ x0, (hF : [SField.env, .hostMem, .pcie, .ctxs, .funcs] ⊆ F := by assumption) →
    Keeps F s (actControl x0 t) := by
  intro x0 hF
  have b_ctxs : SField.ctxs ∈ F := hF (by decide)
  have f_suspend : [SField.env, .ctxs] ⊆ F := List.Subset.trans (by decide) hF
  have f_ctxEvent : [SField.env, .hostMem, .pcie, .ctxs, .funcs] ⊆ F := List.Subset.trans (by decide) hF
  have f_resume : [SField.env, .ctxs] ⊆ F := List.Subset.trans (by decide) hF
  unfold actControl
  repeat'
    first
    | with_reducible assumption | with_reducible apply keeps_suspend | with_reducible apply keeps_ctxEvent
    | with_reducible apply keeps_resume | with_reducible apply Keeps.modCtx
    | (extract_lets +onlyGivenNames x
       refine Keeps.cut (u := x) ?_ fun hx => ?_
       (on_goal 1 => unfold x)
       (on_goal 2 => (clear_value x; rename' x => y)))
    | (extract_lets +onlyGivenNames x; refine Keeps.keepEnv x ?_; rename' x => y)
    | (extract_lets +onlyGivenNames x; refine Keeps.keepSec x ?_; rename' x => y)
    | (extract_lets +onlyGivenNames x; refine Keeps.keepArm x ?_; rename' x => y)
    | (extract_lets +onlyGivenNames x; refine Keeps.keepMeter x ?_; rename' x => y)
    | (extract_lets +onlyGivenNames x; clear_value x; rename' x => y)
    | split | with_reducible refine Keeps.light ?_ rfl rfl rfl rfl

theorem keeps_execSliceExpire (h : Keeps F s t) :
    ∀ x0, (hF : [SField.parts2] ⊆ F := by assumption) →
    Yields F s (execSliceExpire x0 t) := by
  intro x0 hF
  have b_parts2 : SField.parts2 ∈ F := hF (by decide)
  unfold execSliceExpire
  repeat'
    first
    | with_reducible assumption | with_reducible apply Keeps.modPart2 | with_reducible apply Yields.next
    | (extract_lets +onlyGivenNames x
       refine Yields.cut (u := x) ?_ fun hx => ?_
       (on_goal 1 => unfold x)
       (on_goal 2 => (clear_value x; rename' x => y)))
    | (extract_lets +onlyGivenNames x
       refine Keeps.cut (u := x) ?_ fun hx => ?_
       (on_goal 1 => unfold x)
       (on_goal 2 => (clear_value x; rename' x => y)))
    | (extract_lets +onlyGivenNames x; refine Keeps.keepEnv x ?_; rename' x => y)
    | (extract_lets +onlyGivenNames x; refine Keeps.keepSec x ?_; rename' x => y)
    | (extract_lets +onlyGivenNames x; refine Keeps.keepArm x ?_; rename' x => y)
    | (extract_lets +onlyGivenNames x; refine Keeps.keepMeter x ?_; rename' x => y)
    | (extract_lets +onlyGivenNames x; clear_value x; rename' x => y)
    | split | with_reducible refine Keeps.light ?_ rfl rfl rfl rfl

end Sys2Proof.Machine
end

