-- ==== Sys2Proof/Laws/Near.lean ====
section
/-! SUPPORT. Operations that concern one context: no other context changes, and its commands in flight stay. -/

namespace Sys2Proof.Machine

open Sys2Proof

-- Proofs one after another: the package compiles as one text under a memory limit.
set_option Elab.async false

/-- From `s` to `t` no context but c changed, and c's commands in flight did not. -/
structure Near (c : Nat) (s t : State) : Prop where
  others : ∀ d, d ≠ c → t.ctx d = s.ctx d
  cmds : (t.ctx c).cmds = (s.ctx c).cmds

variable {s t u : State} {c q : Nat}

theorem Near.refl (s : State) : Near c s s := ⟨fun _ _ => rfl, rfl⟩

theorem Near.trans (h : Near c s t) (h' : Near c t u) : Near c s u :=
  ⟨fun d hd => (h'.others d hd).trans (h.others d hd), h'.cmds.trans h.cmds⟩

theorem Near.of_ctxs (h : Near c s t) (e : u.ctxs = t.ctxs) : Near c s u := by
  have e : ∀ d, u.ctx d = t.ctx d := fun d => by simp only [State.ctx, e]
  exact h.trans ⟨fun d _ => e d, by rw [e]⟩

/-- A change by an operation whose frame leaves the contexts out. -/
theorem Near.of_keeps {F : List SField} (h : Near c s t) (k : Keeps F t u) (hF : SField.ctxs ∉ F := by decide) :
    Near c s u := h.of_ctxs (k.only _ hF)

theorem Keeps.ctx {F : List SField} (k : Keeps F s t) (c : Nat) (hF : SField.ctxs ∉ F := by decide) :
    t.ctx c = s.ctx c := congrArg (fun x => tget Ctx.init x c) (k.only _ hF)

theorem Near.modCtx (h : Near c s t) (f : Ctx → Ctx) (hf : ∀ x, (f x).cmds = x.cmds := by exact fun _ => rfl) :
    Near c s (t.modCtx c f) :=
  h.trans ⟨fun _ hd => State.modCtx_ctx_other _ _ hd, by rw [State.modCtx_ctx_self, hf]⟩

theorem Near.forAll {α : Type} (h : Near c s t) (l : List α) (f : α → State → State)
    (hf : ∀ a u, Near c s u → Near c s (f a u)) : Near c s (forAll l f t) := by
  unfold Machine.forAll
  induction l generalizing t with
  | nil => exact h
  | cons a r ih => exact ih (hf a t h)

theorem Near.getCmd (h : Near c s t) (d q : Nat) : getCmd t d q = getCmd s d q := by
  unfold Machine.getCmd
  by_cases e : d = c
  · rw [e, h.cmds]
  · rw [h.others d e]

theorem ready?_running {op : Nat} {m : Cmd} (h : ready? s c q op = some m) :
    running? s c q = some m ∧ m.opcode = op ∧ mustWait s c m = false := by
  unfold ready? at h
  split at h
  · split at h
    · cases h; simp_all
    · cases h
  · cases h

theorem Finished.ended' {st : Status} {dw : List Nat} (h : Finished c q st dw s t) : Ended t c q st dw := by
  obtain ⟨m, _, h⟩ := h.ended
  exact ⟨_, h, rfl, rfl, rfl⟩

theorem near_labInvalidate (h : Near c s t) (d i : Nat) : Near c s (labInvalidate d i t) :=
  h.of_keeps (keeps_labInvalidate (.refl t) d i (hF := List.Subset.refl _))

theorem near_releaseLeaf (h : Near c s t) (p l : Nat) : Near c s (releaseLeaf p l t) :=
  h.of_keeps (keeps_releaseLeaf (.refl t) p l (hF := List.Subset.refl _))

theorem near_dropClaims (h : Near c s t) (d v : Nat) : Near c s (dropClaims d v t) :=
  h.of_keeps (keeps_dropClaims (.refl t) d v (hF := List.Subset.refl _))

theorem near_fixSubst (h : Near c s t) (p : Nat) : Near c s (fixSubst p t) :=
  h.of_keeps (keeps_fixSubst (.refl t) p (hF := List.Subset.refl _))

theorem near_unwriteUnits (h : Near c s t) (l : List Nat) : Near c s (unwriteUnits l t) :=
  h.of_keeps (keeps_unwriteUnits (.refl t) l (hF := List.Subset.refl _))

theorem near_releaseAll (h : Near c s t) (d : Nat) : Near c s (releaseAll d t) :=
  h.of_keeps (keeps_releaseAll (.refl t) d (hF := List.Subset.refl _))

theorem near_releaseBank (h : Near c s t) (gk : Nat × Nat) : Near c s (releaseBank gk t) :=
  h.of_keeps (keeps_releaseBank (.refl t) gk (hF := List.Subset.refl _))

theorem near_newKey (h : Near c s t) (d : Nat) : Near c s (newKey d t) :=
  h.of_keeps (keeps_newKey (.refl t) d (hF := List.Subset.refl _))

theorem near_fixForms (h : Near c s t) (gs : List Nat) : Near c s (fixForms gs t) := h.of_ctxs (fixForms_ctxs ..)

theorem near_freeSeq (h : Near c s t) (i : Nat) : Near c s (freeSeq c i t) := by
  unfold freeSeq
  split
  · exact h
  · exact near_labInvalidate (Near.modCtx (h.forAll _ _ fun l u k => near_releaseLeaf k _ l) _) ..

theorem near_freeSeqs (h : Near c s t) : Near c s (freeSeqs c t) := h.forAll _ _ fun i _ k => near_freeSeq k i

theorem near_closeVc (h : Near c s t) (v : Nat) : Near c s (closeVc c v t) := by
  unfold closeVc
  split
  · exact h
  · exact near_dropClaims (h.modCtx _) ..

theorem near_closeVcs (h : Near c s t) : Near c s (closeVcs c t) := h.forAll _ _ fun i _ k => near_closeVc k i

theorem near_fixSwap (h : Near c s t) : Near c s (fixSwap c t) := by
  unfold fixSwap
  exact near_fixSubst ((near_unwriteUnits h _).modCtx _) _

theorem near_closeNotice (h : Near c s t) (j : Job) : Near c s (closeNotice j t) :=
  h.of_keeps (keeps_closeNotice (.refl t) j (hF := List.Subset.refl _))

theorem near_unbindRegion (h : Near c s t) (r : Nat) : Near c s (unbindRegion c r t) := h.modCtx _

theorem near_freeRegion (h : Near c s t) (r : Nat) : Near c s (freeRegion c r t) := by
  unfold freeRegion
  split
  · exact h
  · refine near_fixSubst (Near.forAll (Near.modCtx (near_unbindRegion (Near.forAll (h.forAll _ _
      fun i u k => near_freeSeq k i) _ _ fun i u k => near_closeVc k i) _) _) _ _ fun gk u k => ?_) _
    split
    · exact near_releaseBank k _
    · exact k

theorem near_freeRegions (h : Near c s t) (l : List Nat) : Near c s (freeRegions c l t) :=
  near_fixSwap (h.forAll _ _ fun r _ k => near_freeRegion k r)

theorem near_freeHeld (h : Near c s t) : Near c s (freeHeld c t) := by
  unfold freeHeld
  exact near_freeRegions (Near.modCtx ((near_closeVcs (near_freeSeqs h)).forAll _ _ fun j _ k => near_closeNotice k j) _) _

theorem near_freeAll (h : Near c s t) : Near c s (freeAll c t) := by
  unfold freeAll
  exact near_fixSwap (Near.modCtx (near_freeRegions (near_freeHeld h) _) _)

theorem near_takeRegionBanks (h : Near c s t) (d : Nat) (r : Region) : Near c s (takeRegionBanks d r t) :=
  h.of_keeps (keeps_takeRegionBanks (.refl t) d r (hF := List.Subset.refl _))

theorem near_addRegion (h : Near c s t) (i : Nat) (r : Region) : Near c s (addRegion c i r t) := h.modCtx _

@[simp] theorem fixSubst_ctx (p : Nat) (s : State) (d : Nat) : (fixSubst p s).ctx d = s.ctx d :=
  Keeps.ctx (F := [.parts2]) (keeps_fixSubst (F := [.parts2]) (.refl s) p (List.Subset.refl _)) d

@[simp] theorem unwriteUnits_ctx (l : List Nat) (s : State) (d : Nat) : (unwriteUnits l s).ctx d = s.ctx d :=
  Keeps.ctx (F := [.hbm]) (keeps_unwriteUnits (F := [.hbm]) (.refl s) l (List.Subset.refl _)) d

@[simp] theorem takeRegionBanks_ctx (c : Nat) (r : Region) (s : State) (d : Nat) :
    (takeRegionBanks c r s).ctx d = s.ctx d :=
  Keeps.ctx (F := [.banks, .bankMem]) (keeps_takeRegionBanks (F := [.banks, .bankMem]) (.refl s) c r
    (List.Subset.refl _)) d

/-- Growing or shrinking the swap store changes nothing else of the context. -/
theorem fixSwap_ctx (c : Nat) (s : State) : (fixSwap c s).ctx c = { s.ctx c with
    sched := { (s.ctx c).sched with swapUnits := ((fixSwap c s).ctx c).sched.swapUnits } } := by
  unfold fixSwap
  extract_lets n x more s'
  have e : s'.ctx c = s.ctx c := unwriteUnits_ctx ..
  rw [fixSubst_ctx, State.modCtx_ctx_self, e]

/-- A reset of a context changes no other. -/
theorem resetCtx_other {d : Nat} (k : Bool) (s : State) (h : d ≠ c) : (resetCtx c k s).ctx d = s.ctx d := by
  unfold resetCtx
  extract_lets tiles s1 s2 s3 s4 s5
  have n3 : Near c s1 s3 := near_releaseAll (near_fixForms (.refl _) _) _
  have n4 : Near c s1 s4 := by
    unfold s4
    split
    · exact near_freeHeld n3
    · exact near_newKey (near_freeAll n3) _
  rw [fixSubst_ctx]
  unfold s5
  rw [State.modCtx_ctx_other _ _ h, n4.others d h]
  unfold s1
  rw [State.modCtx_ctx_other _ _ h]

/-! ## What is bound -/

/-- The handles and models of context c are the same, and the same region ids are bound. -/
structure Bind (c : Nat) (s t : State) : Prop where
  handles : (t.ctx c).handles = (s.ctx c).handles
  models : (t.ctx c).models = (s.ctx c).models
  regs : ∀ r, (aget (t.ctx c).regions r).isSome = (aget (s.ctx c).regions r).isSome

theorem Bind.refl (s : State) : Bind c s s := ⟨rfl, rfl, fun _ => rfl⟩

theorem Bind.trans (h : Bind c s t) (h' : Bind c t u) : Bind c s u :=
  ⟨h'.handles.trans h.handles, h'.models.trans h.models, fun r => (h'.regs r).trans (h.regs r)⟩

theorem Bind.of_keeps {F : List SField} (h : Bind c s t) (k : Keeps F t u) (hF : SField.ctxs ∉ F := by decide) :
    Bind c s u := by
  have e := k.ctx c hF
  exact h.trans ⟨by rw [e], by rw [e], fun r => by rw [e]⟩

theorem Bind.forAll {α : Type} (h : Bind c s t) (l : List α) (f : α → State → State)
    (hf : ∀ a u, Bind c s u → Bind c s (f a u)) : Bind c s (forAll l f t) := by
  unfold Machine.forAll
  induction l generalizing t with
  | nil => exact h
  | cons a r ih => exact ih (hf a t h)

theorem Bind.modCtx (h : Bind c s t) (f : Ctx → Ctx) (h1 : ∀ x, (f x).handles = x.handles := by exact fun _ => rfl)
    (h2 : ∀ x, (f x).models = x.models := by exact fun _ => rfl)
    (h3 : ∀ x r, (aget (f x).regions r).isSome = (aget x.regions r).isSome := by exact fun _ _ => rfl) :
    Bind c s (t.modCtx c f) :=
  h.trans ⟨by rw [State.modCtx_ctx_self, h1], by rw [State.modCtx_ctx_self, h2],
    fun r => by rw [State.modCtx_ctx_self, h3]⟩

theorem aget_map_isSome {α : Type} (l : List (Nat × α)) (g : Nat × α → Nat × α) (hg : ∀ p, (g p).1 = p.1) (r : Nat) :
    (aget (l.map g) r).isSome = (aget l r).isSome := by
  induction l with
  | nil => rfl
  | cons p l ih =>
    obtain ⟨i, v⟩ := p
    have : g (i, v) = (i, (g (i, v)).2) := Prod.ext (hg _) rfl
    rw [List.map_cons, this, aget_cons, aget_cons]
    split
    · rfl
    · exact ih

theorem bind_freeSeq (h : Bind c s t) (i : Nat) : Bind c s (freeSeq c i t) := by
  unfold freeSeq
  split
  · exact h
  · refine Bind.of_keeps (Bind.modCtx (h.forAll _ _ fun l u k =>
      k.of_keeps (keeps_releaseLeaf (.refl u) _ l (hF := List.Subset.refl _))) _ (h3 := ?_))
      (keeps_labInvalidate (.refl _) _ _ (hF := List.Subset.refl _))
    intro x r
    exact aget_map_isSome _ _ (fun p => by split <;> rfl) r

theorem bind_closeVc (h : Bind c s t) (i : Nat) : Bind c s (closeVc c i t) := by
  unfold closeVc
  split
  · exact h
  · refine Bind.of_keeps (Bind.modCtx h _ (h3 := ?_))
      (keeps_dropClaims (.refl _) _ _ (hF := List.Subset.refl _))
    intro x r
    exact aget_map_isSome _ _ (fun p => by split <;> rfl) r

/-- Freeing a region unbinds it and the handles that name it, and nothing else. -/
theorem freeRegion_bound (r : Nat) (s : State) (hr : (getRegion s c r).isSome) :
    (∀ i, (aget ((freeRegion c r s).ctx c).regions i).isSome =
      if i = r then false else (aget (s.ctx c).regions i).isSome) ∧
    ((freeRegion c r s).ctx c).handles = (s.ctx c).handles.filter (fun h => !h.2.names r) ∧
    ((freeRegion c r s).ctx c).models = (s.ctx c).models := by
  unfold freeRegion
  split
  · rename_i e; rw [e] at hr; cases hr
  · extract_lets s1 s2 s3 s4 left s5
    have h1 : Bind c s s1 := (Bind.refl s).forAll _ _ fun i u k => bind_freeSeq k i
    have h2 : Bind c s s2 := h1.forAll _ _ fun i u k => bind_closeVc k i
    have e4 : s4.ctx c = { s2.ctx c with
        handles := (s2.ctx c).handles.filter (fun h => !h.2.names r), regions := adel (s2.ctx c).regions r } := by
      unfold s4 s3 unbindRegion
      rw [State.modCtx_ctx_self, State.modCtx_ctx_self]
    have k5 : Keeps [SField.banks] s4 s5 := Keeps.forAll (.refl s4) _ _ fun gk v k => by
      split
      · exact keeps_releaseBank k _ (hF := List.Subset.refl _)
      · exact k
    rw [fixSubst_ctx, k5.ctx c, e4]
    refine ⟨fun i => ?_, by rw [h2.handles], h2.models⟩
    show (aget (adel _ _) i).isSome = _
    rw [aget_adel]
    split
    · rfl
    · exact h2.regs i

/-- After a command's context changed only as `Near` allows, ending the command ends it and leaves every other context. -/
theorem Near.ends {c q : Nat} {s u : State} {m : Cmd} (n : Near c s u) (h : Machine.getCmd s c q = some m) (st : Status)
    (dw : List Nat) : Ended (finish c q st dw u) c q st dw ∧ ∀ d, d ≠ c → (finish c q st dw u).ctx d = s.ctx d := by
  have f := finished_finish st dw (c := c) (q := q) (s := u) (by rw [n.getCmd]; exact h)
  exact ⟨f.ended', fun d hd => by rw [finish_ctx_other _ _ _ _ hd, n.others d hd]⟩

end Sys2Proof.Machine
end

