-- ==== Sys2Proof/Laws/Pointwise.lean ====
section
/-! SUPPORT. What a change at every index of a list does, said once: each index in the list changes by its own rule, every
other index keeps what it has. -/

namespace Sys2Proof.Machine

open Sys2Proof

-- Proofs one after another: the package compiles as one text under a memory limit.
set_option Elab.async false

variable {ι α β : Type} [DecidableEq ι]

/-- Changes at distinct indices, each by a rule that holds in every state with `K`, which every change keeps. -/
theorem forAll_pointwise (acc : State → ι → β) (f : ι → State → State) (g : ι → β → β) (K : State → Prop)
    (hself : ∀ a t, K t → acc (f a t) a = g a (acc t a)) (hother : ∀ a b t, b ≠ a → acc (f a t) b = acc t b)
    (hK : ∀ a t, K t → K (f a t)) (l : List ι) (hn : l.Nodup) (s : State) (h : K s) (b : ι) :
    acc (forAll l f s) b = if b ∈ l then g b (acc s b) else acc s b := by
  unfold forAll
  induction l generalizing s with
  | nil => simp
  | cons a r ih =>
    rw [List.foldl_cons, ih (List.nodup_cons.1 hn).2 _ (hK a s h)]
    have ha := (List.nodup_cons.1 hn).1
    by_cases hb : b = a
    · subst hb
      rw [if_neg ha, if_pos (List.mem_cons_self ..)]
      exact hself _ _ h
    · rw [hother _ _ _ hb]
      simp [hb]

omit [DecidableEq ι] in
/-- An index that no change reaches keeps what it has. -/
theorem forAll_other (acc : State → β) (f : ι → State → State) (l : List ι)
    (h : ∀ a ∈ l, ∀ t, acc (f a t) = acc t) (s : State) : acc (forAll l f s) = acc s := by
  unfold forAll
  induction l generalizing s with
  | nil => rfl
  | cons a r ih =>
    rw [List.foldl_cons, ih (fun x hx => h x (List.mem_cons_of_mem _ hx))]
    exact h a (List.mem_cons_self ..) s

omit [DecidableEq ι] in
/-- A property of the state that every change keeps. -/
theorem forAll_keeps (K : State → Prop) (f : ι → State → State) (l : List ι) (h : ∀ a ∈ l, ∀ t, K t → K (f a t))
    (s : State) (hs : K s) : K (forAll l f s) := by
  unfold forAll
  induction l generalizing s with
  | nil => exact hs
  | cons a r ih =>
    rw [List.foldl_cons]
    exact ih (fun x hx => h x (List.mem_cons_of_mem _ hx)) _ (h a (List.mem_cons_self ..) s hs)

/-- What a change has established of every state, and every change keeps, holds after the changes that contain it. -/
theorem forAll_establishes (K : State → Prop) (f : ι → State → State) (l : List ι) (a : ι) (ha : a ∈ l)
    (hset : ∀ t, K (f a t)) (hkeep : ∀ b ∈ l, ∀ t, K t → K (f b t)) (s : State) : K (forAll l f s) := by
  unfold forAll
  induction l generalizing s with
  | nil => cases ha
  | cons b r ih =>
    rw [List.foldl_cons]
    by_cases hr : a ∈ r
    · exact ih hr (fun x hx => hkeep x (List.mem_cons_of_mem _ hx)) _
    · have : a = b := by
        rcases List.mem_cons.1 ha with h | h
        · exact h
        · exact absurd h hr
      subst this
      exact forAll_keeps K f r (fun x hx => hkeep x (List.mem_cons_of_mem _ hx)) _ (hset s)

/-- The members of a partition whose rectangle lies in the 10-wide panel are distinct slabs (R28). -/
theorem members_nodup (s : State) (p : Nat) (h : (s.part p).x0 + (s.part p).w ≤ 10) : (members s p).Nodup := by
  have pos : (s.part p).positions.Nodup := by
    unfold Part.positions
    split
    · generalize s.part p = q at *
      rw [List.nodup_flatMap]
      refine ⟨fun j _ => ?_, ?_⟩
      · refine List.Nodup.map ?_ List.nodup_range
        intro a b h; simp at h; omega
      · refine List.Pairwise.imp_of_mem ?_ List.nodup_range
        intro a b _ _ hab
        simp only [Function.onFun, List.disjoint_left, List.mem_map, List.mem_range, not_exists, not_and]
        rintro x ⟨i, hi, rfl⟩ k hk e
        have : a = b := by omega
        exact hab this
    · exact List.nodup_nil
  refine List.Nodup.filterMap ?_ pos
  intro a b c hb hc
  unfold serverOf at hb hc
  simp only [Option.mem_def] at hb hc
  split at hb <;> split at hc
  · simp_all
  · have := List.find?_some hc
    simp at hb this; subst hb; simp_all
  · have := List.find?_some hb
    simp at hc this; subst hc; simp_all
  · have h1 := List.find?_some hb
    have h2 := List.find?_some hc
    simp at h1 h2
    rw [← h1.2, ← h2.2]

/-! ## Two changes of one record -/

theorem tdel_tins {α : Type} (k : Nat) (v : α) (t : Tbl α) : tdel k (tins k v t) = tdel k t := by
  induction t with
  | nil => simp [tins, tdel]
  | cons p r ih =>
    obtain ⟨j, w⟩ := p
    simp only [tins]
    split
    · simp [tdel]
    · simp only [tdel, List.filter_cons] at ih ⊢
      rw [ih]

theorem tdel_tdel {α : Type} (k : Nat) (t : Tbl α) : tdel k (tdel k t) = tdel k t := by
  simp [tdel, List.filter_filter]

theorem tput_tput {α : Type} [DecidableEq α] (d : Nat → α) (t : Tbl α) (k : Nat) (v w : α) :
    tput d (tput d t k v) k w = tput d t k w := by
  have : tdel k (tput d t k v) = tdel k t := by
    unfold tput
    split
    · exact tdel_tdel k t
    · rw [tdel_tins, tdel_tdel]
  unfold tput at *
  rw [this]

theorem State.setSlab_setSlab (s : State) (n : Nat) (v w : Slab) :
    (s.setSlab n v).setSlab n w = s.setSlab n w := by
  unfold State.setSlab; dsimp only; rw [tput_tput]

theorem State.modSlab_modSlab (s : State) (n : Nat) (f g : Slab → Slab) :
    (s.modSlab n f).modSlab n g = s.modSlab n fun x => g (f x) := by
  unfold State.modSlab
  rw [State.setSlab_slab_self, State.setSlab_setSlab]

theorem State.setSlab2_setSlab2 (s : State) (n : Nat) (v w : Slab2) :
    (s.setSlab2 n v).setSlab2 n w = s.setSlab2 n w := by
  unfold State.setSlab2; dsimp only; rw [tput_tput]

theorem State.modSlab2_modSlab2 (s : State) (n : Nat) (f g : Slab2 → Slab2) :
    (s.modSlab2 n f).modSlab2 n g = s.modSlab2 n fun x => g (f x) := by
  unfold State.modSlab2
  rw [State.setSlab2_slab2_self, State.setSlab2_setSlab2]

theorem State.setPort_setPort (s : State) (n : Nat) (v w : Port) :
    (s.setPort n v).setPort n w = s.setPort n w := by
  unfold State.setPort; dsimp only; rw [tput_tput]

theorem State.modPort_modPort (s : State) (n : Nat) (f g : Port → Port) :
    (s.modPort n f).modPort n g = s.modPort n fun x => g (f x) := by
  unfold State.modPort
  rw [State.setPort_port_self, State.setPort_setPort]

theorem State.setPort2_setPort2 (s : State) (n : Nat) (v w : Port2) :
    (s.setPort2 n v).setPort2 n w = s.setPort2 n w := by
  unfold State.setPort2; dsimp only; rw [tput_tput]

theorem State.modPort2_modPort2 (s : State) (n : Nat) (f g : Port2 → Port2) :
    (s.modPort2 n f).modPort2 n g = s.modPort2 n fun x => g (f x) := by
  unfold State.modPort2
  rw [State.setPort2_port2_self, State.setPort2_setPort2]

theorem State.setTile_setTile (s : State) (n : Nat) (v w : Tile) :
    (s.setTile n v).setTile n w = s.setTile n w := by
  unfold State.setTile; dsimp only; rw [tput_tput]

theorem State.modTile_modTile (s : State) (n : Nat) (f g : Tile → Tile) :
    (s.modTile n f).modTile n g = s.modTile n fun x => g (f x) := by
  unfold State.modTile
  rw [State.setTile_tile_self, State.setTile_setTile]

theorem State.setTile2_setTile2 (s : State) (n : Nat) (v w : Tile2) :
    (s.setTile2 n v).setTile2 n w = s.setTile2 n w := by
  unfold State.setTile2; dsimp only; rw [tput_tput]

theorem State.modTile2_modTile2 (s : State) (n : Nat) (f g : Tile2 → Tile2) :
    (s.modTile2 n f).modTile2 n g = s.modTile2 n fun x => g (f x) := by
  unfold State.modTile2
  rw [State.setTile2_tile2_self, State.setTile2_setTile2]

theorem State.setBank_setBank (s : State) (n : Nat) (v w : Bank) :
    (s.setBank n v).setBank n w = s.setBank n w := by
  unfold State.setBank; dsimp only; rw [tput_tput]

theorem State.modBank_modBank (s : State) (n : Nat) (f g : Bank → Bank) :
    (s.modBank n f).modBank n g = s.modBank n fun x => g (f x) := by
  unfold State.modBank
  rw [State.setBank_bank_self, State.setBank_setBank]

theorem State.setPart_setPart (s : State) (n : Nat) (v w : Part) :
    (s.setPart n v).setPart n w = s.setPart n w := by
  unfold State.setPart; dsimp only; rw [tput_tput]

theorem State.modPart_modPart (s : State) (n : Nat) (f g : Part → Part) :
    (s.modPart n f).modPart n g = s.modPart n fun x => g (f x) := by
  unfold State.modPart
  rw [State.setPart_part_self, State.setPart_setPart]

theorem State.setPart2_setPart2 (s : State) (n : Nat) (v w : Part2) :
    (s.setPart2 n v).setPart2 n w = s.setPart2 n w := by
  unfold State.setPart2; dsimp only; rw [tput_tput]

theorem State.modPart2_modPart2 (s : State) (n : Nat) (f g : Part2 → Part2) :
    (s.modPart2 n f).modPart2 n g = s.modPart2 n fun x => g (f x) := by
  unfold State.modPart2
  rw [State.setPart2_part2_self, State.setPart2_setPart2]

theorem State.setCtx_setCtx (s : State) (n : Nat) (v w : Ctx) :
    (s.setCtx n v).setCtx n w = s.setCtx n w := by
  unfold State.setCtx; dsimp only; rw [tput_tput]

theorem State.modCtx_modCtx (s : State) (n : Nat) (f g : Ctx → Ctx) :
    (s.modCtx n f).modCtx n g = s.modCtx n fun x => g (f x) := by
  unfold State.modCtx
  rw [State.setCtx_ctx_self, State.setCtx_setCtx]

theorem State.setFn_setFn (s : State) (n : Nat) (v w : Fn) :
    (s.setFn n v).setFn n w = s.setFn n w := by
  unfold State.setFn; dsimp only; rw [tput_tput]

theorem State.modFn_modFn (s : State) (n : Nat) (f g : Fn → Fn) :
    (s.modFn n f).modFn n g = s.modFn n fun x => g (f x) := by
  unfold State.modFn
  rw [State.setFn_fn_self, State.setFn_setFn]

end Sys2Proof.Machine
end

