-- ==== Sys2Proof/Laws/Freeing.lean ====
section
/-! SUPPORT. What freeing the objects of a context leaves, what a reset or a move of a context leaves (R389, R401,
R402), and what bringing a context up to date does to its state (R379). -/

namespace Sys2Proof.Machine

open Sys2Proof

set_option Elab.async false

/-- The state of a context that has been brought up to date (R379). -/
theorem settle_st (c : Nat) (s : State) (h : c ≠ 0) : ((settle c s).ctx c).reg.st =
    match (s.ctx c).reg.st with
    | .resident | .running | .blocked => if (s.ctx c).sched.swapping = .none then (s.ctx c).settled else (s.ctx
        c).reg.st
    | st => st := by
  unfold settle
  extract_lets x st g1 x1 stamp g2 g3 x2 g4 x3
  rw [if_neg h]
  show ((s.setCtx c x3).ctx c).reg.st = st
  rw [State.setCtx_ctx_self]
  have h2 : x2.reg.st = st := by
    unfold x2
    split
    · split <;> rfl
    · rfl
  unfold x3
  split <;> (try split) <;> (try split) <;> exact h2
/-- A move of a context changes no other, keeps its handles, and puts it into partition p, placed (R402). -/
theorem moveCtx_ctx (T p : Nat) (regs : List (Nat × Region)) (s : State) :
    (∀ d, d ≠ T → (moveCtx T p regs s).ctx d = s.ctx d) ∧ ((moveCtx T p regs s).ctx T).handles = (s.ctx T).handles ∧
    ((moveCtx T p regs s).ctx T).reg.part = p ∧ ((moveCtx T p regs s).ctx T).reg.unplaced = false := by
  unfold moveCtx
  extract_lets x po leaves refs s1 fresh umap s2 s3 s4 pairs
  have k1 : ∀ d, s3.ctx d = s.ctx d := by
    intro d
    unfold s3
    rw [State.modPart2_ctx]
    have : Keeps [SField.slabs2, .hbm] s s2 := by
      unfold s2
      refine Keeps.forAll ?_ _ _ fun a t k => keeps_copyRange k _ _ _ (by decide)
      unfold s1
      exact Keeps.forAll (.refl s) _ _ fun a t k => keeps_labInvalidate k _ _ (by decide)
    exact this.ctx d
  rcases ht : takeLeaves T leaves.length s4 with ⟨ids, s5⟩
  dsimp -zeta only
  extract_lets lmap a b s6 s7 s8 s9
  have k4 : s4.ctx T = { s.ctx T with reg := { (s.ctx T).reg with part := p } } := by
    unfold s4; rw [State.modCtx_ctx_self, k1]
  have k4' : ∀ d, d ≠ T → s4.ctx d = s.ctx d := fun d hd => by unfold s4; rw [State.modCtx_ctx_other _ _ hd, k1]
  have k7 : ∀ d, s7.ctx d = s4.ctx d := by
    intro d
    unfold s7
    rw [State.modPart2_ctx]
    have : Keeps [SField.env, .hostMem, .pcie, .parts, .parts2, .funcs, .hbm] s4 s6 := by
      unfold s6
      refine Keeps.forAll ?_ _ _ fun a t k => keeps_copyRange (keeps_copyRange k _ _ _ (by decide)) _ _ _ (by decide)
      exact keeps_takeLeaves ht (.refl s4) (List.Subset.refl _)
    exact this.ctx d
  have k9 : ∀ d, s9.ctx d = s8.ctx d := fun d =>
    Keeps.ctx (F := [.hbm]) (Keeps.forAll (.refl s8) _ _ fun a t k => keeps_remapTable k _ _ _ (List.Subset.refl _)) d
  have k8 : ∀ d, d ≠ T → s8.ctx d = s7.ctx d := fun d hd => State.modCtx_ctx_other _ _ hd
  have k8' : (s8.ctx T).handles = (s7.ctx T).handles ∧ (s8.ctx T).reg.part = (s7.ctx T).reg.part ∧ (s8.ctx
      T).reg.unplaced = false := by
    unfold s8; rw [State.modCtx_ctx_self]; exact ⟨rfl, rfl, rfl⟩
  refine ⟨fun d hd => ?_, ?_⟩
  · rw [settle_ctx_other _ hd, fixSubst_ctx, fixSubst_ctx, k9, k8 d hd, k7, k4' d hd]
  · rw [settle_ctx_same, fixSubst_ctx, fixSubst_ctx, k9]
    dsimp only
    rw [k8'.1, k8'.2.1, k8'.2.2, k7, k4]
    exact ⟨rfl, rfl, rfl⟩

theorem forAll_finish (T : Nat) (l : List Nat) (st : Status) (dw : List Nat) (s : State) :
    (∀ d, d ≠ T → (forAll l (fun q u => finish T q st dw u) s).ctx d = s.ctx d) ∧
    ((forAll l (fun q u => finish T q st dw u) s).ctx T).handles = (s.ctx T).handles := by
  refine forAll_keeps (fun t => (∀ d, d ≠ T → t.ctx d = s.ctx d) ∧ (t.ctx T).handles = (s.ctx T).handles)
    (fun q u => finish T q st dw u) l ?_ s ⟨fun _ _ => rfl, rfl⟩
  intro q _ t k
  refine ⟨fun d hd => (finish_ctx_other _ _ _ _ hd).trans (k.1 d hd), ?_⟩
  rw [finish_ctx_same]; exact k.2

/-- An operation that brings no sequence, stream, region, model, job or handle of context c and keeps its place. -/
structure Shrink (c : Nat) (s t : State) : Prop where
  seqs : ∀ i, getSeq s c i = none → getSeq t c i = none
  vcs : ∀ i, getVc s c i = none → getVc t c i = none
  regions : ∀ i, getRegion s c i = none → getRegion t c i = none
  handles : (s.ctx c).handles = [] → (t.ctx c).handles = []
  jobs : (s.ctx c).jobs = [] → (t.ctx c).jobs = []
  cmds : (t.ctx c).cmds = (s.ctx c).cmds
  part : (t.ctx c).reg.part = (s.ctx c).reg.part
  key : t.hbm.keyGen = s.hbm.keyGen
theorem Shrink.refl (c : Nat) (s : State) : Shrink c s s := ⟨fun _ => id, fun _ => id, fun _ => id, id, id, rfl, rfl,
    rfl⟩
theorem Shrink.trans {c : Nat} {s t u : State} (h : Shrink c s t) (k : Shrink c t u) : Shrink c s u :=
  ⟨fun i x => k.1 i (h.1 i x), fun i x => k.2 i (h.2 i x), fun i x => k.3 i (h.3 i x), fun x => k.4 (h.4 x), fun x =>
      k.5 (h.5 x), k.6.trans h.6, k.7.trans h.7, k.8.trans h.8⟩
theorem Shrink.ctx {c : Nat} {s t u : State} (h : Shrink c s t) (e : u.ctx c = t.ctx c) (e' : u.hbm.keyGen =
    t.hbm.keyGen) : Shrink c s u := by
  refine h.trans ?_
  refine ⟨fun i h => ?_, fun i h => ?_, fun i h => ?_, fun h => ?_, fun h => ?_, ?_, ?_, e'⟩
  · unfold getSeq at *; rw [e]; exact h
  · unfold getVc at *; rw [e]; exact h
  · unfold getRegion at *; rw [e]; exact h
  · rw [e]; exact h
  · rw [e]; exact h
  · rw [e]
  · rw [e]
theorem Shrink.keeps {c : Nat} {s t u : State} {F : List SField} (h : Shrink c s t) (k : Keeps F t u) (hF :
    SField.ctxs ∉ F := by decide) (hG : SField.hbm ∉ F := by decide) : Shrink c s u :=
  h.ctx (k.ctx c hF) (congrArg Hbm.keyGen (k.only .hbm hG))
theorem Shrink.forAll {c : Nat} {s t : State} {α : Type} (h : Shrink c s t) (l : List α) (f : α → State → State)
    (hf : ∀ a u, Shrink c s u → Shrink c s (f a u)) : Shrink c s (Machine.forAll l f t) :=
  forAll_keeps (fun t => Shrink c s t) f l (fun a _ t k => hf a t k) t h
theorem Shrink.modCtx {c : Nat} {s t : State} (h : Shrink c s t) (f : Ctx → Ctx)
    (h1 : ∀ x i, aget x.seqs i = none → aget (f x).seqs i = none) (h2 : ∀ x i, aget x.vcs i = none → aget (f x).vcs i
        = none)
    (h3 : ∀ x i, aget x.regions i = none → aget (f x).regions i = none) (h4 : ∀ x, x.handles = [] → (f x).handles =
        [])
    (h5 : ∀ x, x.jobs = [] → (f x).jobs = []) (h6 : ∀ x, (f x).cmds = x.cmds) (h7 : ∀ x, (f x).reg.part = x.reg.part)
        : Shrink c s (t.modCtx c f) := by
  refine h.trans ⟨fun i => ?_, fun i => ?_, fun i => ?_, ?_, ?_, ?_, ?_, rfl⟩
  · unfold getSeq; rw [State.modCtx_ctx_self]; exact h1 _ i
  · unfold getVc; rw [State.modCtx_ctx_self]; exact h2 _ i
  · unfold getRegion; rw [State.modCtx_ctx_self]; exact h3 _ i
  · rw [State.modCtx_ctx_self]; exact h4 _
  · rw [State.modCtx_ctx_self]; exact h5 _
  · rw [State.modCtx_ctx_self]; exact h6 _
  · rw [State.modCtx_ctx_self]; exact h7 _
theorem aget_adel_none {α : Type} (l : List (Nat × α)) (k i : Nat) (h : aget l i = none) : aget (adel l k) i = none
    := by
  rw [aget_adel]; split <;> simp [h]
theorem aget_map_none {α : Type} (l : List (Nat × α)) (g : Nat × α → Nat × α) (hg : ∀ p, (g p).1 = p.1) (r : Nat) (h
    : aget l r = none) :
    aget (l.map g) r = none := by
  have := aget_map_isSome l g hg r
  cases h2 : aget (l.map g) r with
  | none => rfl
  | some v => rw [h, h2] at this; simp at this
theorem shrink_freeSeq {c : Nat} {s t : State} (h : Shrink c s t) (i : Nat) : Shrink c s (freeSeq c i t) := by
  unfold freeSeq
  split
  · exact h
  · refine Shrink.keeps (F := [.slabs2]) ?_ (keeps_labInvalidate (.refl _) _ _ (List.Subset.refl _))
    refine Shrink.modCtx ?_ _ (fun x i k => aget_adel_none _ _ _ k) (fun _ _ => id) (fun x i k => aget_map_none _ _
        (fun p => by dsimp only; split <;> rfl) _ k)
      (fun _ => id) (fun _ => id) (fun _ => rfl) (fun _ => rfl)
    exact h.forAll _ _ fun a u k => k.keeps (F := [.parts2]) (keeps_releaseLeaf (.refl _) _ _ (List.Subset.refl _))
theorem shrink_closeVc {c : Nat} {s t : State} (h : Shrink c s t) (i : Nat) : Shrink c s (closeVc c i t) := by
  unfold closeVc
  split
  · exact h
  · refine Shrink.keeps (F := [.slabs2]) ?_ (keeps_dropClaims (.refl _) _ _ (List.Subset.refl _))
    exact Shrink.modCtx h _ (fun _ _ => id) (fun x i k => aget_adel_none _ _ _ k) (fun x i k => aget_map_none _ _
        (fun p => by dsimp only; split <;> rfl) _ k)
      (fun _ => id) (fun _ => id) (fun _ => rfl) (fun _ => rfl)
theorem unwriteUnits_keyGen (l : List Nat) (s : State) : (unwriteUnits l s).hbm.keyGen = s.hbm.keyGen :=
  forAll_other (acc := fun t => t.hbm.keyGen) (fun u t => hbmUnwrite (u * allocBytes) allocBytes t) _
    (by intro _ _ _; rfl) s
theorem shrink_closeNotice {c : Nat} {s t : State} (h : Shrink c s t) (j : Job) : Shrink c s (closeNotice j t) :=
  h.keeps (F := [.ports, .ports2]) (keeps_closeNotice (.refl _) j (List.Subset.refl _))

theorem shrink_fixSwap {c : Nat} {s t : State} (h : Shrink c s t) : Shrink c s (fixSwap c t) := by
  unfold fixSwap
  refine Shrink.keeps (F := [.parts2]) ?_ (keeps_fixSubst (.refl _) _ (List.Subset.refl _))
  refine Shrink.modCtx ?_ _ (fun _ _ => id) (fun _ _ => id) (fun _ _ => id) (fun _ => id) (fun _ => id) (fun _ =>
      rfl) (fun _ => rfl)
  exact h.ctx (unwriteUnits_ctx ..) (unwriteUnits_keyGen ..)
theorem shrink_freeRegion {c : Nat} {s t : State} (h : Shrink c s t) (r : Nat) : Shrink c s (freeRegion c r t) := by
  unfold freeRegion
  split
  · exact h
  · extract_lets s1 s2 s3 s4 left s5
    have k2 : Shrink c s s2 := Shrink.forAll (Shrink.forAll h _ _ fun a u k => shrink_freeSeq k a) _ _ fun a u k =>
        shrink_closeVc k a
    have k3 : Shrink c s s3 := by
      unfold s3 unbindRegion
      exact Shrink.modCtx k2 _
        (fun _ _ => id) (fun _ _ => id) (fun _ _ => id) (fun x k => by dsimp only; rw [k]; rfl) (fun _ => id) (fun _
            => rfl) (fun _ => rfl)
    have k4 : Shrink c s s4 := Shrink.modCtx k3 _
      (fun _ _ => id) (fun _ _ => id) (fun x i k => aget_adel_none _ _ _ k) (fun _ => id) (fun _ => id) (fun _ =>
          rfl) (fun _ => rfl)
    have k5 : Shrink c s s5 := Shrink.forAll k4 _ _ fun gk u k => by
      split
      · exact k.keeps (F := [.banks]) (keeps_releaseBank (.refl _) _ (List.Subset.refl _))
      · exact k
    exact k5.keeps (F := [.parts2]) (keeps_fixSubst (.refl _) _ (List.Subset.refl _))
theorem shrink_freeRegions {c : Nat} {s t : State} (h : Shrink c s t) (l : List Nat) : Shrink c s (freeRegions c l t)
    :=
  shrink_fixSwap (h.forAll _ _ fun r _ k => shrink_freeRegion k r)
theorem freeSeq_none (c i : Nat) (s : State) : getSeq (freeSeq c i s) c i = none := by
  unfold freeSeq
  split
  · assumption
  · unfold getSeq
    rw [Keeps.ctx (F := [.slabs2]) (keeps_labInvalidate (.refl _) _ _ (List.Subset.refl _)), State.modCtx_ctx_self]
    dsimp only; rw [aget_adel, if_pos rfl]
theorem closeVc_none (c i : Nat) (s : State) : getVc (closeVc c i s) c i = none := by
  unfold closeVc
  split
  · assumption
  · unfold getVc
    rw [Keeps.ctx (F := [.slabs2]) (keeps_dropClaims (.refl _) _ _ (List.Subset.refl _)), State.modCtx_ctx_self]
    dsimp only; rw [aget_adel, if_pos rfl]
theorem freeRegion_none (c r : Nat) (s : State) : getRegion (freeRegion c r s) c r = none := by
  unfold freeRegion
  split
  · assumption
  · extract_lets s1 s2 s3 s4 left s5
    have k5 : Shrink c s4 s5 := Shrink.forAll (.refl c s4) _ _ fun gk u k => by
      split
      · exact k.keeps (F := [.banks]) (keeps_releaseBank (.refl _) _ (List.Subset.refl _))
      · exact k
    refine (k5.keeps (F := [.parts2]) (keeps_fixSubst (.refl _) _ (List.Subset.refl _))).regions r ?_
    unfold getRegion s4; rw [State.modCtx_ctx_self]; dsimp only; rw [aget_adel, if_pos rfl]
theorem aget_none_of_not_mem {α : Type} (l : List (Nat × α)) (i : Nat) (h : i ∉ l.map Prod.fst) : aget l i = none :=
    by
  induction l with
  | nil => rfl
  | cons a r ih =>
    rw [List.map_cons, List.mem_cons, not_or] at h
    obtain ⟨k, v⟩ := a
    rw [aget_cons, if_neg (fun e => h.1 e.symm)]; exact ih h.2
theorem freeSeqs_none (c : Nat) (s : State) (i : Nat) : getSeq (freeSeqs c s) c i = none := by
  by_cases h : i ∈ ((s.ctx c).seqs.map Prod.fst)
  · exact forAll_establishes (fun t => getSeq t c i = none) (fun i t => freeSeq c i t) _ i h (fun t => freeSeq_none c
      i t) (fun a _ t k => (shrink_freeSeq (.refl c t) a).seqs i k) s
  · exact (Shrink.forAll (.refl c s) _ _ fun a u k => shrink_freeSeq k a).seqs i (aget_none_of_not_mem _ _ h)
theorem closeVcs_none (c : Nat) (s : State) (i : Nat) : getVc (closeVcs c s) c i = none := by
  by_cases h : i ∈ ((s.ctx c).vcs.map Prod.fst)
  · exact forAll_establishes (fun t => getVc t c i = none) (fun i t => closeVc c i t) _ i h (fun t => closeVc_none c
      i t) (fun a _ t k => (shrink_closeVc (.refl c t) a).vcs i k) s
  · exact (Shrink.forAll (.refl c s) _ _ fun a u k => shrink_closeVc k a).vcs i (aget_none_of_not_mem _ _ h)
theorem freeRegionAll_none (c : Nat) (s : State) (i : Nat) : getRegion (freeRegions c ((s.ctx c).regions.map
    Prod.fst) s) c i = none := by
  unfold freeRegions
  refine (shrink_fixSwap (.refl c _)).regions i ?_
  by_cases h : i ∈ ((s.ctx c).regions.map Prod.fst)
  · exact forAll_establishes (fun t => getRegion t c i = none) (fun i t => freeRegion c i t) _ i h (fun t =>
      freeRegion_none c i t) (fun a _ t k => (shrink_freeRegion (.refl c t) a).regions i k) s
  · exact (Shrink.forAll (.refl c s) _ _ fun a u k => shrink_freeRegion k a).regions i (aget_none_of_not_mem _ _ h)

/-- What freeing all but models leaves. -/
theorem freeHeld_facts (c : Nat) (u : State) : Shrink c u (freeHeld c u) ∧ (∀ i, getSeq (freeHeld c u) c i = none) ∧
    (∀ i, getVc (freeHeld c u) c i = none) ∧ ((freeHeld c u).ctx c).handles = [] ∧ ((freeHeld c u).ctx c).jobs = []
        := by
  unfold freeHeld
  extract_lets u1 w u2
  have kw : Shrink c u1 w := Shrink.forAll (.refl _ _) _ _ fun j u k => shrink_closeNotice k j
  have k1 : Shrink c (freeSeqs c u) u1 := Shrink.forAll (.refl _ _) _ _ fun a u k => shrink_closeVc k a
  have k0 : Shrink c u (freeSeqs c u) := Shrink.forAll (.refl _ _) _ _ fun a u k => shrink_freeSeq k a
  have k2 : Shrink c u1 u2 := kw.modCtx _ (fun _ _ => id) (fun _ _ => id) (fun _ _ => id)
    (fun _ _ => rfl) (fun _ _ => rfl) (fun _ => rfl) (fun _ => rfl)
  have k3 : Shrink c u2 (freeRegions c (plainBanks (u2.ctx c)) u2) := shrink_freeRegions (.refl _ _) _
  refine ⟨((k0.trans k1).trans k2).trans k3, fun i => (k2.trans k3).seqs i (k1.seqs i (freeSeqs_none c u i)),
    fun i => (k2.trans k3).vcs i (closeVcs_none c _ i), k3.handles ?_, k3.jobs ?_⟩
  · unfold u2; rw [State.modCtx_ctx_self]
  · unfold u2; rw [State.modCtx_ctx_self]
theorem fixSwap_models (c : Nat) (s : State) : ((fixSwap c s).ctx c).models = (s.ctx c).models := by rw [fixSwap_ctx]
/-- What freeing everything leaves. -/
theorem freeAll_facts (c : Nat) (u : State) : Shrink c u (freeAll c u) ∧ (∀ i, getSeq (freeAll c u) c i = none) ∧
    (∀ i, getVc (freeAll c u) c i = none) ∧ ((freeAll c u).ctx c).handles = [] ∧ ((freeAll c u).ctx c).jobs = [] ∧
    ((freeAll c u).ctx c).models = [] ∧ ∀ i, getRegion (freeAll c u) c i = none := by
  have h := freeHeld_facts c u
  unfold freeAll
  extract_lets u1 u2
  have k2 : Shrink c u1 u2 := shrink_freeRegions (.refl _ _) _
  have k3 : Shrink c u2 (u2.modCtx c fun x => { x with models := [] }) := (Shrink.refl c u2).modCtx _
    (fun _ _ => id) (fun _ _ => id) (fun _ _ => id) (fun _ => id) (fun _ => id) (fun _ => rfl) (fun _ => rfl)
  have k4 := k3.trans (shrink_fixSwap (.refl c (u2.modCtx c fun x => { x with models := [] })))
  have k := k2.trans k4
  have r : ∀ i, getRegion u2 c i = none := freeRegionAll_none c u1
  refine ⟨h.1.trans k, fun i => k.seqs i (h.2.1 i), fun i => k.vcs i (h.2.2.1 i), k.handles h.2.2.2.1,
    k.jobs h.2.2.2.2, ?_, fun i => k4.regions i (r i)⟩
  rw [fixSwap_models, State.modCtx_ctx_self]
theorem newKey_facts {c : Nat} {s u s4 : State} (h : Shrink c s u ∧ (∀ i, getSeq u c i = none) ∧
    (∀ i, getVc u c i = none) ∧ (u.ctx c).handles = [] ∧ (u.ctx c).jobs = [] ∧
    (u.ctx c).models = [] ∧ ∀ i, getRegion u c i = none) (e : s4 = newKey c u) : (s4.ctx c).cmds = (s.ctx c).cmds ∧
        (s4.ctx c).handles = [] ∧ (∀ i, getSeq s4 c i = none) ∧ (s4.ctx c).jobs = [] ∧
      (∀ i, getVc s4 c i = none) ∧ (s4.ctx c).reg.part = (s.ctx c).reg.part ∧
      (s4.ctx c).models = [] ∧ (∀ r, getRegion s4 c r = none) ∧
        aget s4.hbm.keyGen c = some ((aget s.hbm.keyGen c).getD 0 + 1) := by
  have e1 : ∀ d, s4.ctx d = u.ctx d := by rw [e]; intro d; rfl
  have e2 : s4.hbm.keyGen = aput u.hbm.keyGen c ((aget u.hbm.keyGen c).getD 0 + 1) := by rw [e]; rfl
  unfold getSeq getVc getRegion at *
  rw [e1, e2]
  refine ⟨h.1.cmds, h.2.2.2.1, h.2.1, h.2.2.2.2.1, h.2.2.1, h.1.part, h.2.2.2.2.2.1, h.2.2.2.2.2.2, ?_⟩
  rw [aget_aput, if_pos rfl, h.1.key]
theorem freed_facts (c : Nat) (keep : Bool) (s s4 : State) (h : s4 = if keep then freeHeld c s else newKey c (freeAll
    c s)) :
    (s4.ctx c).cmds = (s.ctx c).cmds ∧ (s4.ctx c).handles = [] ∧ (∀ i, getSeq s4 c i = none) ∧ (s4.ctx c).jobs = [] ∧
      (∀ i, getVc s4 c i = none) ∧ (s4.ctx c).reg.part = (s.ctx c).reg.part ∧
      (keep = false → (s4.ctx c).models = [] ∧ (∀ r, getRegion s4 c r = none) ∧
        aget s4.hbm.keyGen c = some ((aget s.hbm.keyGen c).getD 0 + 1)) := by
  cases keep with
  | true =>
    rw [if_pos rfl] at h
    have k := freeHeld_facts c s
    rw [← h] at k
    exact ⟨k.1.cmds, k.2.2.2.1, k.2.1, k.2.2.2.2, k.2.2.1, k.1.part, by intro x; cases x⟩
  | false =>
    rw [if_neg (by decide)] at h
    have k := newKey_facts (freeAll_facts c s) h
    exact ⟨k.1, k.2.1, k.2.2.1, k.2.2.2.1, k.2.2.2.2.1, k.2.2.2.2.2.1, fun _ => k.2.2.2.2.2.2⟩
/-- What a reset of a context leaves (R401, R530). -/
theorem resetCtx_facts (c : Nat) (keep : Bool) (s : State) :
    ((resetCtx c keep s).ctx c).cmds = [] ∧ ((resetCtx c keep s).ctx c).handles = [] ∧
    (∀ i, getSeq (resetCtx c keep s) c i = none) ∧
    ((resetCtx c keep s).ctx c).jobs = [] ∧ (∀ i, getVc (resetCtx c keep s) c i = none) ∧ ((resetCtx c keep s).ctx
        c).ring = .init ∧
    ((resetCtx c keep s).ctx c).irq = .init ∧ ((resetCtx c keep s).ctx c).aq = .init ∧ ((resetCtx c keep s).ctx
        c).key = seedKey 0 ∧
    ((resetCtx c keep s).ctx c).streams = [] ∧ ((resetCtx c keep s).ctx c).reg.res = false ∧
    ((resetCtx c keep s).ctx c).reg.part = (s.ctx c).reg.part ∧
    ((resetCtx c keep s).ctx c).reg.st = (if ((resetCtx c keep s).ctx c).models ≠ [] then .swapped else .loaded) ∧
    (keep = false → ((resetCtx c keep s).ctx c).models = [] ∧ (∀ r, getRegion (resetCtx c keep s) c r = none) ∧
      aget (resetCtx c keep s).hbm.keyGen c = some ((aget s.hbm.keyGen c).getD 0 + 1)) := by
  unfold resetCtx
  extract_lets tiles s1 s2 s3 s4 s5
  have h13 : Shrink c s1 s3 := by
    refine Shrink.keeps (F := [.banks]) ?_ (keeps_releaseAll (.refl _) _ (List.Subset.refl _))
    exact (Shrink.refl c s1).ctx (fixForms_ctx ..) (by unfold s2; rw [fixForms_eq])
  have a1 : (s1.ctx c).cmds = [] := by unfold s1; rw [State.modCtx_ctx_self]
  have a2 : (s1.ctx c).reg.part = (s.ctx c).reg.part := by unfold s1; rw [State.modCtx_ctx_self]
  have a3 : s1.hbm = s.hbm := rfl
  have h4 := freed_facts c keep s3 s4 rfl
  rw [h13.cmds, a1, h13.part, a2, h13.key, a3] at h4
  have hc : ∀ x d, (fixSubst x s5).ctx d = s5.ctx d := fun x d => fixSubst_ctx ..
  have hk : ∀ x, (fixSubst x s5).hbm = s5.hbm := fun x => (keeps_fixSubst (F := [.parts2]) (.refl s5) x
      (List.Subset.refl _)).only .hbm (by decide)
  unfold getSeq getVc getRegion at *
  rw [hk]
  simp only [hc]
  have e5 : s5.ctx c = { s4.ctx c with
    ring := .init, irq := .init, aq := .init, key := seedKey 0, streams := [],
    reg := { (s4.ctx c).reg with
      st := if (s4.ctx c).models ≠ [] then .swapped else .loaded, res := false, geobound := false, unplaced := false
          },
    sched := { (s4.ctx c).sched with
      runnableAt := none, blockedStamp := 0, saved := false, swapping := .none, wantSusp := false, wantRes := false,
      stored := false, geo := none } } := by
    unfold s5; rw [State.modCtx_ctx_self]
  rw [e5]
  exact ⟨h4.1, h4.2.1, h4.2.2.1, h4.2.2.2.1, h4.2.2.2.2.1, rfl, rfl, rfl, rfl, rfl, rfl, h4.2.2.2.2.2.1, rfl,
      h4.2.2.2.2.2.2⟩

/-- A new or swapped context stays what it is. -/
theorem settle_keep (T : Nat) (u : State) (h : (u.ctx T).reg.st = if (u.ctx T).models ≠ [] then .swapped else
    .loaded) :
    ((settle T u).ctx T).reg.st = (u.ctx T).reg.st := by
  by_cases h0 : T = 0
  · subst h0; unfold settle; simp
  · rw [settle_st _ _ h0, h]
    by_cases hz : (u.ctx T).models ≠ [] <;> simp [hz]

/-! ## Loss -/

/-- The fields of a context that its loss sets (R399). -/
def loseReg (reason slab : Nat) (y : Ctx) : Ctx := { y with
      reg := { y.reg with
        st := .lost, res := false, geobound := false, lossReason := reason, lossSlab := slab },
      sched := { y.sched with
        runnableAt := none, blockedStamp := 0, saved := false, swapping := .none, wantSusp := false, wantRes := false,
        stored := false, geo := none } }
theorem lose_tail (reason slab c f : Nat) (dws : List Nat) (s : State) (h : (s.ctx c).cmds = []) :
    ((postBoth f 0x0005 slab c dws (ctxEvent c 1 (s.modCtx c (loseReg reason slab)))).ctx c).reg.st = .lost ∧
    ((postBoth f 0x0005 slab c dws (ctxEvent c 1 (s.modCtx c (loseReg reason slab)))).ctx c).reg.lossReason = reason ∧
    ((postBoth f 0x0005 slab c dws (ctxEvent c 1 (s.modCtx c (loseReg reason slab)))).ctx c).cmds = [] := by
  rw [(posted_postBoth f 0x0005 slab c dws _).ctx, (posted_ctxEvent c 1 _).ctx, State.modCtx_ctx_self,
      State.modCtx_ctx_self]
  exact ⟨rfl, rfl, h⟩
theorem lose_head (c : Nat) (s : State) (tiles : List Nat) (g : Ctx → Ctx) (hg : ∀ y, (g y).cmds = []) :
    ((releaseAll c (freeHeld c (fixForms tiles (s.modCtx c g)))).ctx c).cmds = [] := by
  have n : Near c (s.modCtx c g) (releaseAll c (freeHeld c (fixForms tiles (s.modCtx c g)))) := near_releaseAll
      (near_freeHeld (near_fixForms (.refl _) _)) _
  rw [n.cmds, State.modCtx_ctx_self, hg]
theorem loseCtx_eq (reason slab c : Nat) (s : State) (h0 : c ≠ 0) (hf : (s.ctx c).reg.st ≠ .free) (hl : (s.ctx
    c).reg.st ≠ .lost) :
    loseCtx reason slab c s = postBoth (s.ctx c).reg.func 0x0005 slab c [reason, slab, match (s.ctx c).cmds.head? with
      | some m => m.seq
      | none => (s.ctx c).ring.seqNext.toNat] (ctxEvent c 1 ((releaseAll c (freeHeld c (fixForms ((s.ctx
          c).cmds.flatMap fun m => m.bound.forms.map Prod.fst) (s.modCtx c fun y => { y with cmds := [], ring := {
              y.ring with refetch := none, flushLeft := 0 } })))).modCtx c (loseReg reason slab))) := by
  unfold loseCtx
  rw [if_neg (by simp [h0, hf, hl])]
  rfl
/-- A lost context is LOST with its reason, and no command of it is in flight (R399). -/
theorem loseCtx_facts (reason slab c : Nat) (s : State) (h0 : c ≠ 0) (hf : (s.ctx c).reg.st ≠ .free) (hl : (s.ctx
    c).reg.st ≠ .lost) :
    ((loseCtx reason slab c s).ctx c).reg.st = .lost ∧ ((loseCtx reason slab c s).ctx c).reg.lossReason = reason ∧
        ((loseCtx reason slab c s).ctx c).cmds = [] := by
  rw [loseCtx_eq reason slab c s h0 hf hl]
  exact lose_tail _ _ _ _ _ _ (lose_head c s _ _ (fun _ => rfl))

end Sys2Proof.Machine
end

