-- ==== Sys2Proof/Laws/KeepsMap.lean ====
section
/-! SUPPORT. What every operation and meaning of Machine/Map.lean keeps: the queue, the canonical form, what lasts, and every part
of the state outside its own list. -/

set_option linter.unreachableTactic false
set_option linter.unusedTactic false
set_option linter.unusedVariables false
set_option linter.tactic.unusedName false

namespace Sys2Proof.Machine

open Sys2Proof

-- Proofs one after another: the package compiles as one text under a memory limit.
set_option Elab.async false

variable {F : List SField} {s t : State}

theorem keeps_logFact (h : Keeps F s t) :
    ∀ x0 x1 x2 x3 x4, (hF : [SField.arm] ⊆ F := by assumption) →
    Keeps F s (logFact x0 x1 x2 x3 x4 t) := by
  intro x0 x1 x2 x3 x4 hF
  have b_arm : SField.arm ∈ F := hF (by decide)
  revert x0 x1 x2 x3 x4
  intro k n a b c
  exact h.plain rfl le_rfl le_rfl (Nat.le_succ _)

theorem keeps_replace (h : Keeps F s t) :
    ∀ x0 x1, (hF : [SField.env, .hostMem, .pcie, .arm, .funcs] ⊆ F := by assumption) →
    Keeps F s (replace x0 x1 t) := by
  intro x0 x1 hF
  have b_arm : SField.arm ∈ F := hF (by decide)
  have f_armEvent : [SField.env, .hostMem, .pcie, .arm, .funcs] ⊆ F := List.Subset.trans (by decide) hF
  have f_logFact : [SField.arm] ⊆ F := List.Subset.trans (by decide) hF
  have f_post : [SField.env, .hostMem, .pcie, .funcs] ⊆ F := List.Subset.trans (by decide) hF
  unfold replace
  repeat'
    first
    | with_reducible assumption | with_reducible apply keeps_armEvent | with_reducible apply keeps_logFact
    | with_reducible apply keeps_post
    | (extract_lets +onlyGivenNames x
       refine Keeps.cut (u := x) ?_ fun hx => ?_
       (on_goal 1 => unfold x)
       (on_goal 2 => (clear_value x; rename' x => y)))
    | (extract_lets +onlyGivenNames x; refine Keeps.keepEnv x ?_; rename' x => y)
    | (extract_lets +onlyGivenNames x; refine Keeps.keepSec x ?_; rename' x => y)
    | (extract_lets +onlyGivenNames x; refine Keeps.keepArm x ?_; rename' x => y)
    | (extract_lets +onlyGivenNames x; refine Keeps.keepMeter x ?_; rename' x => y)
    | (extract_lets +onlyGivenNames x; clear_value x; rename' x => y)
    | split | with_reducible refine Keeps.light ?_ rfl rfl rfl rfl

theorem keeps_startExch (h : Keeps F s t) :
    ∀ x0, (hF : [SField.parts2] ⊆ F := by assumption) →
    Keeps F s (startExch x0 t) := by
  intro x0 hF
  have b_parts2 : SField.parts2 ∈ F := hF (by decide)
  unfold startExch
  repeat'
    first
    | with_reducible assumption | with_reducible apply Keeps.modPart2
    | (extract_lets +onlyGivenNames x
       refine Keeps.cut (u := x) ?_ fun hx => ?_
       (on_goal 1 => unfold x)
       (on_goal 2 => (clear_value x; rename' x => y)))
    | (extract_lets +onlyGivenNames x; refine Keeps.keepEnv x ?_; rename' x => y)
    | (extract_lets +onlyGivenNames x; refine Keeps.keepSec x ?_; rename' x => y)
    | (extract_lets +onlyGivenNames x; refine Keeps.keepArm x ?_; rename' x => y)
    | (extract_lets +onlyGivenNames x; refine Keeps.keepMeter x ?_; rename' x => y)
    | (extract_lets +onlyGivenNames x; clear_value x; rename' x => y)
    | split | with_reducible refine Keeps.light ?_ rfl rfl rfl rfl

theorem keeps_opAccess (h : Keeps F s t) :
    ∀ x0, (hF : [SField.ctxs] ⊆ F := by assumption) →
    Keeps F s (opAccess x0 t) := by
  intro x0 hF
  have b_ctxs : SField.ctxs ∈ F := hF (by decide)
  unfold opAccess
  repeat'
    first
    | with_reducible assumption | with_reducible apply Keeps.modCtx
    | (extract_lets +onlyGivenNames x
       refine Keeps.cut (u := x) ?_ fun hx => ?_
       (on_goal 1 => unfold x)
       (on_goal 2 => (clear_value x; rename' x => y)))
    | (extract_lets +onlyGivenNames x; refine Keeps.keepEnv x ?_; rename' x => y)
    | (extract_lets +onlyGivenNames x; refine Keeps.keepSec x ?_; rename' x => y)
    | (extract_lets +onlyGivenNames x; refine Keeps.keepArm x ?_; rename' x => y)
    | (extract_lets +onlyGivenNames x; refine Keeps.keepMeter x ?_; rename' x => y)
    | (extract_lets +onlyGivenNames x; clear_value x; rename' x => y)
    | split | with_reducible refine Keeps.light ?_ rfl rfl rfl rfl

theorem keeps_busLog (h : Keeps F s t) :
    ∀ x0 x1 x2 x3 x4 x5 x6, (hF : [SField.rif] ⊆ F := by assumption) →
    Keeps F s (busLog x0 x1 x2 x3 x4 x5 x6 t) := by
  intro x0 x1 x2 x3 x4 x5 x6 hF
  have b_rif : SField.rif ∈ F := hF (by decide)
  unfold busLog
  repeat'
    first
    | with_reducible assumption
    | (extract_lets +onlyGivenNames x
       refine Keeps.cut (u := x) ?_ fun hx => ?_
       (on_goal 1 => unfold x)
       (on_goal 2 => (clear_value x; rename' x => y)))
    | (extract_lets +onlyGivenNames x; refine Keeps.keepEnv x ?_; rename' x => y)
    | (extract_lets +onlyGivenNames x; refine Keeps.keepSec x ?_; rename' x => y)
    | (extract_lets +onlyGivenNames x; refine Keeps.keepArm x ?_; rename' x => y)
    | (extract_lets +onlyGivenNames x; refine Keeps.keepMeter x ?_; rename' x => y)
    | (extract_lets +onlyGivenNames x; clear_value x; rename' x => y)
    | split | with_reducible refine Keeps.light ?_ rfl rfl rfl rfl

theorem keeps_busReadError (h : Keeps F s t) :
    ∀ x0 x1 x2 x3 x4, (hF : [SField.env, .rif] ⊆ F := by assumption) →
    Keeps F s (busReadError x0 x1 x2 x3 x4 t) := by
  intro x0 x1 x2 x3 x4 hF
  have b_env : SField.env ∈ F := hF (by decide)
  have f_busLog : [SField.rif] ⊆ F := List.Subset.trans (by decide) hF
  unfold busReadError
  repeat'
    first
    | with_reducible assumption | with_reducible apply Keeps.answer | with_reducible apply keeps_busLog
    | (extract_lets +onlyGivenNames x
       refine Keeps.cut (u := x) ?_ fun hx => ?_
       (on_goal 1 => unfold x)
       (on_goal 2 => (clear_value x; rename' x => y)))
    | (extract_lets +onlyGivenNames x; refine Keeps.keepEnv x ?_; rename' x => y)
    | (extract_lets +onlyGivenNames x; refine Keeps.keepSec x ?_; rename' x => y)
    | (extract_lets +onlyGivenNames x; refine Keeps.keepArm x ?_; rename' x => y)
    | (extract_lets +onlyGivenNames x; refine Keeps.keepMeter x ?_; rename' x => y)
    | (extract_lets +onlyGivenNames x; clear_value x; rename' x => y)
    | split | with_reducible refine Keeps.light ?_ rfl rfl rfl rfl

theorem keeps_busWriteError (h : Keeps F s t) :
    ∀ x0 x1 x2 x3 x4 x5, (hF : [SField.env, .hostMem, .rif, .pcie, .funcs] ⊆ F := by assumption) →
    Keeps F s (busWriteError x0 x1 x2 x3 x4 x5 t) := by
  intro x0 x1 x2 x3 x4 x5 hF
  have f_busLog : [SField.rif] ⊆ F := List.Subset.trans (by decide) hF
  have f_postBoth : [SField.env, .hostMem, .pcie, .funcs] ⊆ F := List.Subset.trans (by decide) hF
  unfold busWriteError
  repeat'
    first
    | with_reducible assumption | with_reducible apply keeps_busLog | with_reducible apply keeps_postBoth
    | (extract_lets +onlyGivenNames x
       refine Keeps.cut (u := x) ?_ fun hx => ?_
       (on_goal 1 => unfold x)
       (on_goal 2 => (clear_value x; rename' x => y)))
    | (extract_lets +onlyGivenNames x; refine Keeps.keepEnv x ?_; rename' x => y)
    | (extract_lets +onlyGivenNames x; refine Keeps.keepSec x ?_; rename' x => y)
    | (extract_lets +onlyGivenNames x; refine Keeps.keepArm x ?_; rename' x => y)
    | (extract_lets +onlyGivenNames x; refine Keeps.keepMeter x ?_; rename' x => y)
    | (extract_lets +onlyGivenNames x; clear_value x; rename' x => y)
    | split | with_reducible refine Keeps.light ?_ rfl rfl rfl rfl

end Sys2Proof.Machine
end

