-- ==== Sys2Proof/Laws/KeepsCoder.lean ====
section
/-! SUPPORT. What every operation and meaning of Machine/Coder.lean keeps: the queue, the canonical form, what lasts, and every part
of the state outside its own list. -/

set_option linter.unreachableTactic false
set_option linter.unusedTactic false
set_option linter.unusedVariables false
set_option linter.tactic.unusedName false

namespace Sys2Proof.Machine

open Sys2Proof

-- Proofs one after another: the package compiles as one text under a memory limit.
set_option Elab.async false

variable {F : List SField} {s t : State}

theorem keeps_execVcOpen (h : Keeps F s t) :
    ∀ x0 x1, (hF : [SField.tiles, .ctxs] ⊆ F := by assumption) →
    Yields F s (execVcOpen x0 x1 t) := by
  intro x0 x1 hF
  have b_ctxs : SField.ctxs ∈ F := hF (by decide)
  have f_finish : [SField.tiles, .ctxs] ⊆ F := List.Subset.trans (by decide) hF
  unfold execVcOpen
  repeat'
    first
    | with_reducible assumption | with_reducible apply keeps_finish | with_reducible apply Keeps.modCtx
    | with_reducible apply Yields.next
    | (extract_lets +onlyGivenNames x
       refine Yields.cut (u := x) ?_ fun hx => ?_
       (on_goal 1 => unfold x)
       (on_goal 2 => (clear_value x; rename' x => y)))
    | (extract_lets +onlyGivenNames x
       refine Keeps.cut (u := x) ?_ fun hx => ?_
       (on_goal 1 => unfold x)
       (on_goal 2 => (clear_value x; rename' x => y)))
    | (extract_lets +onlyGivenNames x; refine Keeps.keepEnv x ?_; rename' x => y)
    | (extract_lets +onlyGivenNames x; refine Keeps.keepSec x ?_; rename' x => y)
    | (extract_lets +onlyGivenNames x; refine Keeps.keepArm x ?_; rename' x => y)
    | (extract_lets +onlyGivenNames x; refine Keeps.keepMeter x ?_; rename' x => y)
    | (extract_lets +onlyGivenNames x; clear_value x; rename' x => y)
    | split

theorem keeps_setVc (h : Keeps F s t) :
    ∀ x0 x1 x2, (hF : [SField.ctxs] ⊆ F := by assumption) →
    Keeps F s (setVc x0 x1 x2 t) := by
  intro x0 x1 x2 hF
  have b_ctxs : SField.ctxs ∈ F := hF (by decide)
  unfold setVc
  repeat'
    first
    | with_reducible assumption | with_reducible apply Keeps.modCtx
    | (extract_lets +onlyGivenNames x
       refine Keeps.cut (u := x) ?_ fun hx => ?_
       (on_goal 1 => unfold x)
       (on_goal 2 => (clear_value x; rename' x => y)))
    | (extract_lets +onlyGivenNames x; refine Keeps.keepEnv x ?_; rename' x => y)
    | (extract_lets +onlyGivenNames x; refine Keeps.keepSec x ?_; rename' x => y)
    | (extract_lets +onlyGivenNames x; refine Keeps.keepArm x ?_; rename' x => y)
    | (extract_lets +onlyGivenNames x; refine Keeps.keepMeter x ?_; rename' x => y)
    | (extract_lets +onlyGivenNames x; clear_value x; rename' x => y)
    | split | with_reducible refine Keeps.light ?_ rfl rfl rfl rfl

theorem keeps_jobPut (h : Keeps F s t) :
    ∀ x0 x1 x2, (hF : [SField.bankMem] ⊆ F := by assumption) →
    Keeps F s (jobPut x0 x1 x2 t) := by
  intro x0 x1 x2 hF
  have f_bankWrite : [SField.bankMem] ⊆ F := List.Subset.trans (by decide) hF
  unfold jobPut
  repeat'
    first
    | with_reducible assumption | with_reducible apply keeps_bankWrite
    | (extract_lets +onlyGivenNames x
       refine Keeps.cut (u := x) ?_ fun hx => ?_
       (on_goal 1 => unfold x)
       (on_goal 2 => (clear_value x; rename' x => y)))
    | (extract_lets +onlyGivenNames x; refine Keeps.keepEnv x ?_; rename' x => y)
    | (extract_lets +onlyGivenNames x; refine Keeps.keepSec x ?_; rename' x => y)
    | (extract_lets +onlyGivenNames x; refine Keeps.keepArm x ?_; rename' x => y)
    | (extract_lets +onlyGivenNames x; refine Keeps.keepMeter x ?_; rename' x => y)
    | (extract_lets +onlyGivenNames x; clear_value x; rename' x => y)
    | split | with_reducible refine Keeps.light ?_ rfl rfl rfl rfl

theorem keeps_modFrame (h : Keeps F s t) :
    ∀ x0 x1 x2, (hF : [SField.ctxs] ⊆ F := by assumption) →
    Keeps F s (modFrame x0 x1 x2 t) := by
  intro x0 x1 x2 hF
  have f_setVc : [SField.ctxs] ⊆ F := List.Subset.trans (by decide) hF
  unfold modFrame
  repeat'
    first
    | with_reducible assumption | with_reducible apply keeps_setVc
    | (extract_lets +onlyGivenNames x
       refine Keeps.cut (u := x) ?_ fun hx => ?_
       (on_goal 1 => unfold x)
       (on_goal 2 => (clear_value x; rename' x => y)))
    | (extract_lets +onlyGivenNames x; refine Keeps.keepEnv x ?_; rename' x => y)
    | (extract_lets +onlyGivenNames x; refine Keeps.keepSec x ?_; rename' x => y)
    | (extract_lets +onlyGivenNames x; refine Keeps.keepArm x ?_; rename' x => y)
    | (extract_lets +onlyGivenNames x; refine Keeps.keepMeter x ?_; rename' x => y)
    | (extract_lets +onlyGivenNames x; clear_value x; rename' x => y)
    | split | with_reducible refine Keeps.light ?_ rfl rfl rfl rfl

theorem keeps_frameFail (h : Keeps F s t) :
    ∀ x0 x1 x2 x3, (hF : [SField.ctxs] ⊆ F := by assumption) →
    Keeps F s (frameFail x0 x1 x2 x3 t) := by
  intro x0 x1 x2 x3 hF
  have f_modFrame : [SField.ctxs] ⊆ F := List.Subset.trans (by decide) hF
  unfold frameFail
  repeat'
    first
    | with_reducible assumption | with_reducible apply keeps_modFrame
    | (extract_lets +onlyGivenNames x
       refine Keeps.cut (u := x) ?_ fun hx => ?_
       (on_goal 1 => unfold x)
       (on_goal 2 => (clear_value x; rename' x => y)))
    | (extract_lets +onlyGivenNames x; refine Keeps.keepEnv x ?_; rename' x => y)
    | (extract_lets +onlyGivenNames x; refine Keeps.keepSec x ?_; rename' x => y)
    | (extract_lets +onlyGivenNames x; refine Keeps.keepArm x ?_; rename' x => y)
    | (extract_lets +onlyGivenNames x; refine Keeps.keepMeter x ?_; rename' x => y)
    | (extract_lets +onlyGivenNames x; clear_value x; rename' x => y)
    | split | with_reducible refine Keeps.light ?_ rfl rfl rfl rfl

theorem keeps_jobRefused (h : Keeps F s t) :
    ∀ x0 x1 x2 x3 x4 x5, (hF : [SField.env, .hostMem, .pcie, .slabs2, .tiles2, .ctxs, .funcs] ⊆ F := by assumption) →
    Keeps F s (jobRefused x0 x1 x2 x3 x4 x5 t) := by
  intro x0 x1 x2 x3 x4 x5 hF
  have f_frameFail : [SField.ctxs] ⊆ F := List.Subset.trans (by decide) hF
  have f_ownerRefused : [SField.env, .hostMem, .pcie, .slabs2, .tiles2, .funcs] ⊆ F := List.Subset.trans (by decide)
      hF
  unfold jobRefused
  repeat'
    first
    | with_reducible assumption | with_reducible apply keeps_frameFail | with_reducible apply keeps_ownerRefused
    | (extract_lets +onlyGivenNames x
       refine Keeps.cut (u := x) ?_ fun hx => ?_
       (on_goal 1 => unfold x)
       (on_goal 2 => (clear_value x; rename' x => y)))
    | (extract_lets +onlyGivenNames x; refine Keeps.keepEnv x ?_; rename' x => y)
    | (extract_lets +onlyGivenNames x; refine Keeps.keepSec x ?_; rename' x => y)
    | (extract_lets +onlyGivenNames x; refine Keeps.keepArm x ?_; rename' x => y)
    | (extract_lets +onlyGivenNames x; refine Keeps.keepMeter x ?_; rename' x => y)
    | (extract_lets +onlyGivenNames x; clear_value x; rename' x => y)
    | split | with_reducible refine Keeps.light ?_ rfl rfl rfl rfl

theorem keeps_initJob (h : Keeps F s t) :
    ∀ x0 x1 x2, (hF : [SField.env, .hostMem, .pcie, .slabs2, .tiles2, .ctxs, .funcs, .bankMem] ⊆ F := by assumption) →
    Keeps F s (initJob x0 x1 x2 t) := by
  intro x0 x1 x2 hF
  have f_jobPut : [SField.bankMem] ⊆ F := List.Subset.trans (by decide) hF
  have f_bankWrite : [SField.bankMem] ⊆ F := List.Subset.trans (by decide) hF
  have f_jobRefused : [SField.env, .hostMem, .pcie, .slabs2, .tiles2, .ctxs, .funcs] ⊆ F := List.Subset.trans (by
      decide) hF
  unfold initJob
  repeat'
    first
    | with_reducible assumption | with_reducible apply keeps_jobPut | with_reducible apply keeps_bankWrite
    | with_reducible apply keeps_jobRefused
    | (extract_lets +onlyGivenNames x
       refine Keeps.cut (u := x) ?_ fun hx => ?_
       (on_goal 1 => unfold x)
       (on_goal 2 => (clear_value x; rename' x => y)))
    | (extract_lets +onlyGivenNames x; refine Keeps.keepEnv x ?_; rename' x => y)
    | (extract_lets +onlyGivenNames x; refine Keeps.keepSec x ?_; rename' x => y)
    | (extract_lets +onlyGivenNames x; refine Keeps.keepArm x ?_; rename' x => y)
    | (extract_lets +onlyGivenNames x; refine Keeps.keepMeter x ?_; rename' x => y)
    | (extract_lets +onlyGivenNames x; clear_value x; rename' x => y)
    | split | with_reducible refine Keeps.light ?_ rfl rfl rfl rfl

theorem keeps_startPhase (h : Keeps F s t) :
    ∀ x0 x1 x2, (hF : [SField.env, .hostMem, .pcie, .slabs2, .tiles2, .ctxs, .funcs, .bankMem] ⊆ F := by assumption) →
    Keeps F s (startPhase x0 x1 x2 t) := by
  intro x0 x1 x2 hF
  have f_initJob : [SField.env, .hostMem, .pcie, .slabs2, .tiles2, .ctxs, .funcs, .bankMem] ⊆ F := List.Subset.trans
      (by decide) hF
  have f_modFrame : [SField.ctxs] ⊆ F := List.Subset.trans (by decide) hF
  unfold startPhase
  repeat'
    first
    | with_reducible assumption | with_reducible apply keeps_initJob | with_reducible apply keeps_modFrame
    | (extract_lets +onlyGivenNames x
       refine Keeps.cut (u := x) ?_ fun hx => ?_
       (on_goal 1 => unfold x)
       (on_goal 2 => (clear_value x; rename' x => y)))
    | (extract_lets +onlyGivenNames x; refine Keeps.keepEnv x ?_; rename' x => y)
    | (extract_lets +onlyGivenNames x; refine Keeps.keepSec x ?_; rename' x => y)
    | (extract_lets +onlyGivenNames x; refine Keeps.keepArm x ?_; rename' x => y)
    | (extract_lets +onlyGivenNames x; refine Keeps.keepMeter x ?_; rename' x => y)
    | (extract_lets +onlyGivenNames x; clear_value x; rename' x => y)
    | split | with_reducible refine Keeps.light ?_ rfl rfl rfl rfl

theorem keeps_execVcClose (h : Keeps F s t) :
    ∀ x0 x1, (hF : [SField.slabs2, .tiles, .ctxs] ⊆ F := by assumption) →
    Yields F s (execVcClose x0 x1 t) := by
  intro x0 x1 hF
  have f_finish : [SField.tiles, .ctxs] ⊆ F := List.Subset.trans (by decide) hF
  have f_closeVc : [SField.slabs2, .ctxs] ⊆ F := List.Subset.trans (by decide) hF
  unfold execVcClose
  repeat'
    first
    | with_reducible assumption | with_reducible apply keeps_finish | with_reducible apply keeps_closeVc
    | with_reducible apply Yields.next
    | (extract_lets +onlyGivenNames x
       refine Yields.cut (u := x) ?_ fun hx => ?_
       (on_goal 1 => unfold x)
       (on_goal 2 => (clear_value x; rename' x => y)))
    | (extract_lets +onlyGivenNames x
       refine Keeps.cut (u := x) ?_ fun hx => ?_
       (on_goal 1 => unfold x)
       (on_goal 2 => (clear_value x; rename' x => y)))
    | (extract_lets +onlyGivenNames x; refine Keeps.keepEnv x ?_; rename' x => y)
    | (extract_lets +onlyGivenNames x; refine Keeps.keepSec x ?_; rename' x => y)
    | (extract_lets +onlyGivenNames x; refine Keeps.keepArm x ?_; rename' x => y)
    | (extract_lets +onlyGivenNames x; refine Keeps.keepMeter x ?_; rename' x => y)
    | (extract_lets +onlyGivenNames x; clear_value x; rename' x => y)
    | split | with_reducible refine Keeps.light ?_ rfl rfl rfl rfl

theorem keeps_execVcRate (h : Keeps F s t) :
    ∀ x0 x1, (hF : [SField.tiles, .ctxs] ⊆ F := by assumption) →
    Yields F s (execVcRate x0 x1 t) := by
  intro x0 x1 hF
  have f_finish : [SField.tiles, .ctxs] ⊆ F := List.Subset.trans (by decide) hF
  have f_setVc : [SField.ctxs] ⊆ F := List.Subset.trans (by decide) hF
  unfold execVcRate
  repeat'
    first
    | with_reducible assumption | with_reducible apply keeps_finish | with_reducible apply keeps_setVc
    | with_reducible apply Yields.next
    | (extract_lets +onlyGivenNames x
       refine Yields.cut (u := x) ?_ fun hx => ?_
       (on_goal 1 => unfold x)
       (on_goal 2 => (clear_value x; rename' x => y)))
    | (extract_lets +onlyGivenNames x
       refine Keeps.cut (u := x) ?_ fun hx => ?_
       (on_goal 1 => unfold x)
       (on_goal 2 => (clear_value x; rename' x => y)))
    | (extract_lets +onlyGivenNames x; refine Keeps.keepEnv x ?_; rename' x => y)
    | (extract_lets +onlyGivenNames x; refine Keeps.keepSec x ?_; rename' x => y)
    | (extract_lets +onlyGivenNames x; refine Keeps.keepArm x ?_; rename' x => y)
    | (extract_lets +onlyGivenNames x; refine Keeps.keepMeter x ?_; rename' x => y)
    | (extract_lets +onlyGivenNames x; clear_value x; rename' x => y)
    | split | with_reducible refine Keeps.light ?_ rfl rfl rfl rfl

theorem keeps_execVcEncode (h : Keeps F s t) :
    ∀ x0 x1, (hF : [SField.env, .hostMem, .pcie, .slabs2, .tiles, .tiles2, .ctxs, .funcs, .bankMem] ⊆ F := by
        assumption) →
    Yields F s (execVcEncode x0 x1 t) := by
  intro x0 x1 hF
  have f_finish : [SField.tiles, .ctxs] ⊆ F := List.Subset.trans (by decide) hF
  have f_startPhase : [SField.env, .hostMem, .pcie, .slabs2, .tiles2, .ctxs, .funcs, .bankMem] ⊆ F :=
      List.Subset.trans (by decide) hF
  have f_setVc : [SField.ctxs] ⊆ F := List.Subset.trans (by decide) hF
  unfold execVcEncode
  repeat'
    first
    | with_reducible assumption | with_reducible apply keeps_finish | with_reducible apply keeps_startPhase
    | with_reducible apply keeps_setVc | with_reducible apply Yields.next
    | (extract_lets +onlyGivenNames x
       refine Yields.cut (u := x) ?_ fun hx => ?_
       (on_goal 1 => unfold x)
       (on_goal 2 => (clear_value x; rename' x => y)))
    | (extract_lets +onlyGivenNames x
       refine Keeps.cut (u := x) ?_ fun hx => ?_
       (on_goal 1 => unfold x)
       (on_goal 2 => (clear_value x; rename' x => y)))
    | (extract_lets +onlyGivenNames x; refine Keeps.keepEnv x ?_; rename' x => y)
    | (extract_lets +onlyGivenNames x; refine Keeps.keepSec x ?_; rename' x => y)
    | (extract_lets +onlyGivenNames x; refine Keeps.keepArm x ?_; rename' x => y)
    | (extract_lets +onlyGivenNames x; refine Keeps.keepMeter x ?_; rename' x => y)
    | (extract_lets +onlyGivenNames x; clear_value x; rename' x => y)
    | split | with_reducible refine Keeps.light ?_ rfl rfl rfl rfl

theorem keeps_execVcDecode (h : Keeps F s t) :
    ∀ x0 x1, (hF : [SField.env, .hostMem, .pcie, .slabs2, .tiles, .tiles2, .ctxs, .funcs, .bankMem] ⊆ F := by
        assumption) →
    Yields F s (execVcDecode x0 x1 t) := by
  intro x0 x1 hF
  have f_finish : [SField.tiles, .ctxs] ⊆ F := List.Subset.trans (by decide) hF
  have f_startPhase : [SField.env, .hostMem, .pcie, .slabs2, .tiles2, .ctxs, .funcs, .bankMem] ⊆ F :=
      List.Subset.trans (by decide) hF
  have f_setVc : [SField.ctxs] ⊆ F := List.Subset.trans (by decide) hF
  unfold execVcDecode
  repeat'
    first
    | with_reducible assumption | with_reducible apply keeps_finish | with_reducible apply keeps_startPhase
    | with_reducible apply keeps_setVc | with_reducible apply Yields.next
    | (extract_lets +onlyGivenNames x
       refine Yields.cut (u := x) ?_ fun hx => ?_
       (on_goal 1 => unfold x)
       (on_goal 2 => (clear_value x; rename' x => y)))
    | (extract_lets +onlyGivenNames x
       refine Keeps.cut (u := x) ?_ fun hx => ?_
       (on_goal 1 => unfold x)
       (on_goal 2 => (clear_value x; rename' x => y)))
    | (extract_lets +onlyGivenNames x; refine Keeps.keepEnv x ?_; rename' x => y)
    | (extract_lets +onlyGivenNames x; refine Keeps.keepSec x ?_; rename' x => y)
    | (extract_lets +onlyGivenNames x; refine Keeps.keepArm x ?_; rename' x => y)
    | (extract_lets +onlyGivenNames x; refine Keeps.keepMeter x ?_; rename' x => y)
    | (extract_lets +onlyGivenNames x; clear_value x; rename' x => y)
    | split | with_reducible refine Keeps.light ?_ rfl rfl rfl rfl

theorem keeps_modVc (h : Keeps F s t) :
    ∀ x0 x1, (hF : [SField.slabs2] ⊆ F := by assumption) →
    Keeps F s (modVc x0 x1 t) := by
  intro x0 x1 hF
  have b_slabs2 : SField.slabs2 ∈ F := hF (by decide)
  unfold modVc
  repeat'
    first
    | with_reducible assumption | with_reducible apply Keeps.modSlab2
    | (extract_lets +onlyGivenNames x
       refine Keeps.cut (u := x) ?_ fun hx => ?_
       (on_goal 1 => unfold x)
       (on_goal 2 => (clear_value x; rename' x => y)))
    | (extract_lets +onlyGivenNames x; refine Keeps.keepEnv x ?_; rename' x => y)
    | (extract_lets +onlyGivenNames x; refine Keeps.keepSec x ?_; rename' x => y)
    | (extract_lets +onlyGivenNames x; refine Keeps.keepArm x ?_; rename' x => y)
    | (extract_lets +onlyGivenNames x; refine Keeps.keepMeter x ?_; rename' x => y)
    | (extract_lets +onlyGivenNames x; clear_value x; rename' x => y)
    | split | with_reducible refine Keeps.light ?_ rfl rfl rfl rfl

theorem keeps_vcIdle (h : Keeps F s t) :
    ∀ x0, (hF : [SField.slabs2] ⊆ F := by assumption) →
    Keeps F s (vcIdle x0 t) := by
  intro x0 hF
  have f_modVc : [SField.slabs2] ⊆ F := List.Subset.trans (by decide) hF
  unfold vcIdle
  repeat'
    first
    | with_reducible assumption | with_reducible apply keeps_modVc
    | (extract_lets +onlyGivenNames x
       refine Keeps.cut (u := x) ?_ fun hx => ?_
       (on_goal 1 => unfold x)
       (on_goal 2 => (clear_value x; rename' x => y)))
    | (extract_lets +onlyGivenNames x; refine Keeps.keepEnv x ?_; rename' x => y)
    | (extract_lets +onlyGivenNames x; refine Keeps.keepSec x ?_; rename' x => y)
    | (extract_lets +onlyGivenNames x; refine Keeps.keepArm x ?_; rename' x => y)
    | (extract_lets +onlyGivenNames x; refine Keeps.keepMeter x ?_; rename' x => y)
    | (extract_lets +onlyGivenNames x; clear_value x; rename' x => y)
    | split | with_reducible refine Keeps.light ?_ rfl rfl rfl rfl

theorem keeps_nextTicket (h : Keeps F s t) :
    ∀ x0 x1 x2, (hF : [SField.env, .hostMem, .pcie, .slabs2, .tiles2, .ctxs, .funcs, .bankMem] ⊆ F := by assumption) →
    Keeps F s (nextTicket x0 x1 x2 t) := by
  intro x0 x1 x2 hF
  have f_jobPut : [SField.bankMem] ⊆ F := List.Subset.trans (by decide) hF
  have f_modVc : [SField.slabs2] ⊆ F := List.Subset.trans (by decide) hF
  have f_vcIdle : [SField.slabs2] ⊆ F := List.Subset.trans (by decide) hF
  have f_jobRefused : [SField.env, .hostMem, .pcie, .slabs2, .tiles2, .ctxs, .funcs] ⊆ F := List.Subset.trans (by
      decide) hF
  revert x0 x1 x2
  intro n c v
  unfold nextTicket
  split
  · rename_i x j _ _
    split
    · extract_lets tk np u claim r
      have hu : Keeps F s u := keeps_jobPut h _ _ _
      have hc : ∀ p, Keeps F s (claim p) := fun p => keeps_modVc hu _ _
      clear_value u claim r
      repeat'
        first
        | with_reducible assumption
        | with_reducible apply hc
        | with_reducible apply keeps_vcIdle
        | split
    · exact keeps_vcIdle (keeps_jobRefused h _ _ _ _ _ _) _
  · exact keeps_vcIdle h _

theorem keeps_execVcFrameStart (h : Keeps F s t) :
    ∀ x0, (hF : [SField.env, .hostMem, .pcie, .slabs2, .tiles2, .ctxs, .funcs, .bankMem] ⊆ F := by assumption) →
    Yields F s (execVcFrameStart x0 t) := by
  intro x0 hF
  have f_nextTicket : [SField.env, .hostMem, .pcie, .slabs2, .tiles2, .ctxs, .funcs, .bankMem] ⊆ F :=
      List.Subset.trans (by decide) hF
  unfold execVcFrameStart
  repeat'
    first
    | with_reducible assumption | with_reducible apply keeps_nextTicket | with_reducible apply Yields.next
    | (extract_lets +onlyGivenNames x
       refine Yields.cut (u := x) ?_ fun hx => ?_
       (on_goal 1 => unfold x)
       (on_goal 2 => (clear_value x; rename' x => y)))
    | (extract_lets +onlyGivenNames x
       refine Keeps.cut (u := x) ?_ fun hx => ?_
       (on_goal 1 => unfold x)
       (on_goal 2 => (clear_value x; rename' x => y)))
    | (extract_lets +onlyGivenNames x; refine Keeps.keepEnv x ?_; rename' x => y)
    | (extract_lets +onlyGivenNames x; refine Keeps.keepSec x ?_; rename' x => y)
    | (extract_lets +onlyGivenNames x; refine Keeps.keepArm x ?_; rename' x => y)
    | (extract_lets +onlyGivenNames x; refine Keeps.keepMeter x ?_; rename' x => y)
    | (extract_lets +onlyGivenNames x; clear_value x; rename' x => y)
    | split | with_reducible refine Keeps.light ?_ rfl rfl rfl rfl

theorem keeps_execVcPieceDone (h : Keeps F s t) :
    ∀ x0, (hF : [SField.env, .hostMem, .pcie, .slabs2, .tiles2, .ctxs, .funcs, .bankMem] ⊆ F := by assumption) →
    Yields F s (execVcPieceDone x0 t) := by
  intro x0 hF
  have b_env : SField.env ∈ F := hF (by decide)
  have f_modVc : [SField.slabs2] ⊆ F := List.Subset.trans (by decide) hF
  have f_jobPut : [SField.bankMem] ⊆ F := List.Subset.trans (by decide) hF
  have f_modFrame : [SField.ctxs] ⊆ F := List.Subset.trans (by decide) hF
  have f_vcIdle : [SField.slabs2] ⊆ F := List.Subset.trans (by decide) hF
  have f_nextTicket : [SField.env, .hostMem, .pcie, .slabs2, .tiles2, .ctxs, .funcs, .bankMem] ⊆ F :=
      List.Subset.trans (by decide) hF
  have f_jobRefused : [SField.env, .hostMem, .pcie, .slabs2, .tiles2, .ctxs, .funcs] ⊆ F := List.Subset.trans (by
      decide) hF
  unfold execVcPieceDone
  repeat'
    first
    | with_reducible assumption | with_reducible apply keeps_modVc | with_reducible apply keeps_jobPut
    | with_reducible apply keeps_modFrame | with_reducible apply keeps_vcIdle | with_reducible apply keeps_nextTicket
    | with_reducible apply keeps_jobRefused | with_reducible apply Yields.next
    | (extract_lets +onlyGivenNames x
       refine Yields.cut (u := x) ?_ fun hx => ?_
       (on_goal 1 => unfold x)
       (on_goal 2 => (clear_value x; rename' x => y)))
    | (extract_lets +onlyGivenNames x
       refine Keeps.cut (u := x) ?_ fun hx => ?_
       (on_goal 1 => unfold x)
       (on_goal 2 => (clear_value x; rename' x => y)))
    | (extract_lets +onlyGivenNames x; refine Keeps.keepEnv x ?_; rename' x => y)
    | (extract_lets +onlyGivenNames x; refine Keeps.keepSec x ?_; rename' x => y)
    | (extract_lets +onlyGivenNames x; refine Keeps.keepArm x ?_; rename' x => y)
    | (extract_lets +onlyGivenNames x; refine Keeps.keepMeter x ?_; rename' x => y)
    | (extract_lets +onlyGivenNames x; clear_value x; rename' x => y)
    | split | with_reducible refine Keeps.light ?_ rfl rfl rfl rfl

theorem keeps_handPiece (h : Keeps F s t) :
    ∀ x0 x1 x2 x3, (hF : [SField.slabs2] ⊆ F := by assumption) →
    Keeps F s (handPiece x0 x1 x2 x3 t) := by
  intro x0 x1 x2 x3 hF
  have f_modVc : [SField.slabs2] ⊆ F := List.Subset.trans (by decide) hF
  unfold handPiece
  repeat'
    first
    | with_reducible assumption | with_reducible (refine Keeps.forAll ?_ _ _ fun _ _ _ => ?_)
    | with_reducible apply keeps_modVc
    | (extract_lets +onlyGivenNames x
       refine Keeps.cut (u := x) ?_ fun hx => ?_
       (on_goal 1 => unfold x)
       (on_goal 2 => (clear_value x; rename' x => y)))
    | (extract_lets +onlyGivenNames x; refine Keeps.keepEnv x ?_; rename' x => y)
    | (extract_lets +onlyGivenNames x; refine Keeps.keepSec x ?_; rename' x => y)
    | (extract_lets +onlyGivenNames x; refine Keeps.keepArm x ?_; rename' x => y)
    | (extract_lets +onlyGivenNames x; refine Keeps.keepMeter x ?_; rename' x => y)
    | (extract_lets +onlyGivenNames x; clear_value x; rename' x => y)
    | split | with_reducible refine Keeps.light ?_ rfl rfl rfl rfl

theorem keeps_reissue (h : Keeps F s t) : ∀ c v p, (hF : [SField.env, .hostMem, .pcie, .slabs2, .tiles2, .ctxs, .funcs, .bankMem] ⊆ F := by assumption) → Keeps F s (reissue c v p t).1 := by
  intro c v p hF
  have f_frameFail : [SField.ctxs] ⊆ F := List.Subset.trans (by decide) hF
  have f_handPiece : [SField.slabs2] ⊆ F := List.Subset.trans (by decide) hF
  have f_modFrame : [SField.ctxs] ⊆ F := List.Subset.trans (by decide) hF
  have f_jobPut : [SField.bankMem] ⊆ F := List.Subset.trans (by decide) hF
  have f_jobRefused : [SField.env, .hostMem, .pcie, .slabs2, .tiles2, .ctxs, .funcs] ⊆ F := List.Subset.trans (by
      decide) hF
  unfold reissue
  repeat'
    first
    | with_reducible assumption | with_reducible apply keeps_frameFail | with_reducible apply keeps_handPiece
    | with_reducible apply keeps_modFrame | with_reducible apply keeps_jobPut | with_reducible apply keeps_jobRefused
    | (extract_lets +onlyGivenNames x; refine Keeps.cut (u := x) ?_ fun hx => ?_; (on_goal 1 => unfold x); (on_goal 2 => clear_value x))
    | extract_lets +onlyGivenNames x
    | split | dsimp only

theorem keeps_reissueOf (h : Keeps F s t) : ∀ n c v p, (hF : [SField.env, .hostMem, .pcie, .slabs2, .tiles2, .ctxs, .funcs, .bankMem] ⊆ F := by assumption) → Keeps F s (reissueOf n c v p t).1 := by
  intro n c v p hF
  have f_vcEvent : [SField.env, .hostMem, .pcie, .slabs2, .funcs] ⊆ F := List.Subset.trans (by decide) hF
  have f_modVc : [SField.slabs2] ⊆ F := List.Subset.trans (by decide) hF
  have f_reissue : [SField.env, .hostMem, .pcie, .slabs2, .tiles2, .ctxs, .funcs, .bankMem] ⊆ F := List.Subset.trans
      (by decide) hF
  unfold reissueOf
  dsimp only
  split
  · exact keeps_vcEvent (keeps_modVc (keeps_reissue h _ _ _) _ _) _ _
  · exact keeps_reissue h _ _ _

theorem keeps_resetCore (h : Keeps F s t) :
    ∀ x0 x1 x2, (hF : [SField.env, .hostMem, .pcie, .slabs2, .tiles2, .ctxs, .funcs, .bankMem] ⊆ F := by assumption) →
    Keeps F s (resetCore x0 x1 x2 t) := by
  intro x0 x1 x2 hF
  have f_modVc : [SField.slabs2] ⊆ F := List.Subset.trans (by decide) hF
  have f_reissueOf : [SField.env, .hostMem, .pcie, .slabs2, .tiles2, .ctxs, .funcs, .bankMem] ⊆ F :=
      List.Subset.trans (by decide) hF
  have f_post : [SField.env, .hostMem, .pcie, .funcs] ⊆ F := List.Subset.trans (by decide) hF
  have f_vcEvent : [SField.env, .hostMem, .pcie, .slabs2, .funcs] ⊆ F := List.Subset.trans (by decide) hF
  unfold resetCore
  repeat'
    first
    | with_reducible assumption | with_reducible apply keeps_modVc | with_reducible apply keeps_reissueOf
    | with_reducible apply keeps_post | with_reducible apply keeps_vcEvent
    | (extract_lets +onlyGivenNames x
       refine Keeps.cut (u := x) ?_ fun hx => ?_
       (on_goal 1 => unfold x)
       (on_goal 2 => (clear_value x; rename' x => y)))
    | (extract_lets +onlyGivenNames x; refine Keeps.keepEnv x ?_; rename' x => y)
    | (extract_lets +onlyGivenNames x; refine Keeps.keepSec x ?_; rename' x => y)
    | (extract_lets +onlyGivenNames x; refine Keeps.keepArm x ?_; rename' x => y)
    | (extract_lets +onlyGivenNames x; refine Keeps.keepMeter x ?_; rename' x => y)
    | (extract_lets +onlyGivenNames x; clear_value x; rename' x => y)
    | split | with_reducible refine Keeps.light ?_ rfl rfl rfl rfl

theorem keeps_execVcClaimTimeout (h : Keeps F s t) :
    ∀ x0, (hF : [SField.env, .hostMem, .pcie, .slabs2, .tiles2, .ctxs, .funcs, .bankMem] ⊆ F := by assumption) →
    Yields F s (execVcClaimTimeout x0 t) := by
  intro x0 hF
  have f_resetCore : [SField.env, .hostMem, .pcie, .slabs2, .tiles2, .ctxs, .funcs, .bankMem] ⊆ F :=
      List.Subset.trans (by decide) hF
  have f_reissueOf : [SField.env, .hostMem, .pcie, .slabs2, .tiles2, .ctxs, .funcs, .bankMem] ⊆ F :=
      List.Subset.trans (by decide) hF
  have f_modVc : [SField.slabs2] ⊆ F := List.Subset.trans (by decide) hF
  unfold execVcClaimTimeout
  repeat'
    first
    | with_reducible assumption | with_reducible apply keeps_resetCore | with_reducible apply keeps_reissueOf
    | with_reducible apply keeps_modVc | with_reducible apply Yields.next
    | (extract_lets +onlyGivenNames x
       refine Yields.cut (u := x) ?_ fun hx => ?_
       (on_goal 1 => unfold x)
       (on_goal 2 => (clear_value x; rename' x => y)))
    | (extract_lets +onlyGivenNames x
       refine Keeps.cut (u := x) ?_ fun hx => ?_
       (on_goal 1 => unfold x)
       (on_goal 2 => (clear_value x; rename' x => y)))
    | (extract_lets +onlyGivenNames x; refine Keeps.keepEnv x ?_; rename' x => y)
    | (extract_lets +onlyGivenNames x; refine Keeps.keepSec x ?_; rename' x => y)
    | (extract_lets +onlyGivenNames x; refine Keeps.keepArm x ?_; rename' x => y)
    | (extract_lets +onlyGivenNames x; refine Keeps.keepMeter x ?_; rename' x => y)
    | (extract_lets +onlyGivenNames x; clear_value x; rename' x => y)
    | split | with_reducible refine Keeps.light ?_ rfl rfl rfl rfl

theorem keeps_execVcReset (h : Keeps F s t) :
    ∀ x0 x1, (hF : [SField.env, .hostMem, .pcie, .slabs2, .tiles2, .ctxs, .funcs, .bankMem] ⊆ F := by assumption) →
    Yields F s (execVcReset x0 x1 t) := by
  intro x0 x1 hF
  have f_resetCore : [SField.env, .hostMem, .pcie, .slabs2, .tiles2, .ctxs, .funcs, .bankMem] ⊆ F :=
      List.Subset.trans (by decide) hF
  unfold execVcReset
  repeat'
    first
    | with_reducible assumption | with_reducible apply keeps_resetCore | with_reducible apply Yields.next
    | (extract_lets +onlyGivenNames x
       refine Yields.cut (u := x) ?_ fun hx => ?_
       (on_goal 1 => unfold x)
       (on_goal 2 => (clear_value x; rename' x => y)))
    | (extract_lets +onlyGivenNames x
       refine Keeps.cut (u := x) ?_ fun hx => ?_
       (on_goal 1 => unfold x)
       (on_goal 2 => (clear_value x; rename' x => y)))
    | (extract_lets +onlyGivenNames x; refine Keeps.keepEnv x ?_; rename' x => y)
    | (extract_lets +onlyGivenNames x; refine Keeps.keepSec x ?_; rename' x => y)
    | (extract_lets +onlyGivenNames x; refine Keeps.keepArm x ?_; rename' x => y)
    | (extract_lets +onlyGivenNames x; refine Keeps.keepMeter x ?_; rename' x => y)
    | (extract_lets +onlyGivenNames x; clear_value x; rename' x => y)
    | split | with_reducible refine Keeps.light ?_ rfl rfl rfl rfl

theorem keeps_execVcCoreResetDone (h : Keeps F s t) :
    ∀ x0, (hF : [SField.slabs2] ⊆ F := by assumption) →
    Yields F s (execVcCoreResetDone x0 t) := by
  intro x0 hF
  have f_vcIdle : [SField.slabs2] ⊆ F := List.Subset.trans (by decide) hF
  unfold execVcCoreResetDone
  repeat'
    first
    | with_reducible assumption | with_reducible apply keeps_vcIdle | with_reducible apply Yields.next
    | (extract_lets +onlyGivenNames x
       refine Yields.cut (u := x) ?_ fun hx => ?_
       (on_goal 1 => unfold x)
       (on_goal 2 => (clear_value x; rename' x => y)))
    | (extract_lets +onlyGivenNames x
       refine Keeps.cut (u := x) ?_ fun hx => ?_
       (on_goal 1 => unfold x)
       (on_goal 2 => (clear_value x; rename' x => y)))
    | (extract_lets +onlyGivenNames x; refine Keeps.keepEnv x ?_; rename' x => y)
    | (extract_lets +onlyGivenNames x; refine Keeps.keepSec x ?_; rename' x => y)
    | (extract_lets +onlyGivenNames x; refine Keeps.keepArm x ?_; rename' x => y)
    | (extract_lets +onlyGivenNames x; refine Keeps.keepMeter x ?_; rename' x => y)
    | (extract_lets +onlyGivenNames x; clear_value x; rename' x => y)
    | split | with_reducible refine Keeps.light ?_ rfl rfl rfl rfl

theorem keeps_execVcCoreFault (h : Keeps F s t) :
    ∀ x0, (hF : [SField.env, .hostMem, .pcie, .slabs2, .tiles2, .ctxs, .funcs, .bankMem] ⊆ F := by assumption) →
    Yields F s (execVcCoreFault x0 t) := by
  intro x0 hF
  have f_resetCore : [SField.env, .hostMem, .pcie, .slabs2, .tiles2, .ctxs, .funcs, .bankMem] ⊆ F :=
      List.Subset.trans (by decide) hF
  unfold execVcCoreFault
  repeat'
    first
    | with_reducible assumption | with_reducible apply keeps_resetCore | with_reducible apply Yields.next
    | (extract_lets +onlyGivenNames x
       refine Yields.cut (u := x) ?_ fun hx => ?_
       (on_goal 1 => unfold x)
       (on_goal 2 => (clear_value x; rename' x => y)))
    | (extract_lets +onlyGivenNames x
       refine Keeps.cut (u := x) ?_ fun hx => ?_
       (on_goal 1 => unfold x)
       (on_goal 2 => (clear_value x; rename' x => y)))
    | (extract_lets +onlyGivenNames x; refine Keeps.keepEnv x ?_; rename' x => y)
    | (extract_lets +onlyGivenNames x; refine Keeps.keepSec x ?_; rename' x => y)
    | (extract_lets +onlyGivenNames x; refine Keeps.keepArm x ?_; rename' x => y)
    | (extract_lets +onlyGivenNames x; refine Keeps.keepMeter x ?_; rename' x => y)
    | (extract_lets +onlyGivenNames x; clear_value x; rename' x => y)
    | split | with_reducible refine Keeps.light ?_ rfl rfl rfl rfl

theorem keeps_finishCode (h : Keeps F s t) :
    ∀ x0 x1 x2 x3, (hF : [SField.ctxs] ⊆ F := by assumption) →
    Keeps F s (finishCode x0 x1 x2 x3 t) := by
  intro x0 x1 x2 x3 hF
  have f_modCmd : [SField.ctxs] ⊆ F := List.Subset.trans (by decide) hF
  unfold finishCode
  repeat'
    first
    | with_reducible assumption | with_reducible apply keeps_modCmd
    | (extract_lets +onlyGivenNames x
       refine Keeps.cut (u := x) ?_ fun hx => ?_
       (on_goal 1 => unfold x)
       (on_goal 2 => (clear_value x; rename' x => y)))
    | (extract_lets +onlyGivenNames x; refine Keeps.keepEnv x ?_; rename' x => y)
    | (extract_lets +onlyGivenNames x; refine Keeps.keepSec x ?_; rename' x => y)
    | (extract_lets +onlyGivenNames x; refine Keeps.keepArm x ?_; rename' x => y)
    | (extract_lets +onlyGivenNames x; refine Keeps.keepMeter x ?_; rename' x => y)
    | (extract_lets +onlyGivenNames x; clear_value x; rename' x => y)
    | split | with_reducible refine Keeps.light ?_ rfl rfl rfl rfl

theorem keeps_endFrame (h : Keeps F s t) :
    ∀ x0 x1, (hF : [SField.slabs2, .ctxs] ⊆ F := by assumption) →
    Keeps F s (endFrame x0 x1 t) := by
  intro x0 x1 hF
  have f_dropClaims : [SField.slabs2] ⊆ F := List.Subset.trans (by decide) hF
  have f_setVc : [SField.ctxs] ⊆ F := List.Subset.trans (by decide) hF
  unfold endFrame
  repeat'
    first
    | with_reducible assumption | with_reducible apply keeps_dropClaims | with_reducible apply keeps_setVc
    | (extract_lets +onlyGivenNames x
       refine Keeps.cut (u := x) ?_ fun hx => ?_
       (on_goal 1 => unfold x)
       (on_goal 2 => (clear_value x; rename' x => y)))
    | (extract_lets +onlyGivenNames x; refine Keeps.keepEnv x ?_; rename' x => y)
    | (extract_lets +onlyGivenNames x; refine Keeps.keepSec x ?_; rename' x => y)
    | (extract_lets +onlyGivenNames x; refine Keeps.keepArm x ?_; rename' x => y)
    | (extract_lets +onlyGivenNames x; refine Keeps.keepMeter x ?_; rename' x => y)
    | (extract_lets +onlyGivenNames x; clear_value x; rename' x => y)
    | split | with_reducible refine Keeps.light ?_ rfl rfl rfl rfl

theorem keeps_emitFrame (h : Keeps F s t) :
    ∀ x0 x1 x2 x3 x4 x5 x6 x7 x8, (hF : [SField.env, .hostMem, .pcie, .slabs2, .ports, .ports2, .tiles, .tiles2,
        .banks, .parts2, .ctxs, .funcs, .bankMem, .hbm] ⊆ F := by assumption) →
    Keeps F s (emitFrame x0 x1 x2 x3 x4 x5 x6 x7 x8 t) := by
  intro x0 x1 x2 x3 x4 x5 x6 x7 x8 hF
  have f_useFree : [SField.env] ⊆ F := List.Subset.trans (by decide) hF
  have f_setVc : [SField.ctxs] ⊆ F := List.Subset.trans (by decide) hF
  have f_vcEvent : [SField.env, .hostMem, .pcie, .slabs2, .funcs] ⊆ F := List.Subset.trans (by decide) hF
  have f_modVc : [SField.slabs2] ⊆ F := List.Subset.trans (by decide) hF
  have f_finishT : [SField.tiles, .ctxs] ⊆ F := List.Subset.trans (by decide) hF
  have f_dropClaims : [SField.slabs2] ⊆ F := List.Subset.trans (by decide) hF
  have f_runCmd : [SField.env, .hostMem, .pcie, .slabs2, .ports, .ports2, .tiles, .tiles2, .banks, .parts2, .ctxs,
      .funcs, .bankMem, .hbm] ⊆ F := List.Subset.trans (by decide) hF
  unfold emitFrame
  repeat'
    first
    | with_reducible assumption | with_reducible apply keeps_useFree | with_reducible apply keeps_setVc
    | with_reducible apply keeps_vcEvent | with_reducible apply keeps_modVc | with_reducible apply keeps_finishT
    | with_reducible apply keeps_dropClaims | with_reducible apply keeps_runCmd
    | with_reducible (refine Keeps.foldl ?_ _ _ fun _ _ _ => ?_)
    | (extract_lets +onlyGivenNames x
       refine Keeps.cut (u := x) ?_ fun hx => ?_
       (on_goal 1 => unfold x)
       (on_goal 2 => (clear_value x; rename' x => y)))
    | (extract_lets +onlyGivenNames x; refine Keeps.keepEnv x ?_; rename' x => y)
    | (extract_lets +onlyGivenNames x; refine Keeps.keepSec x ?_; rename' x => y)
    | (extract_lets +onlyGivenNames x; refine Keeps.keepArm x ?_; rename' x => y)
    | (extract_lets +onlyGivenNames x; refine Keeps.keepMeter x ?_; rename' x => y)
    | (extract_lets +onlyGivenNames x; clear_value x; rename' x => y)
    | split
    | (intro u hu; beta_reduce)

theorem keeps_encodeDone (h : Keeps F s t) :
    ∀ x0 x1 x2 x3 x4, (hF : [SField.env, .hostMem, .pcie, .slabs2, .ports, .ports2, .tiles, .tiles2, .banks, .parts2,
        .ctxs, .funcs, .bankMem, .hbm] ⊆ F := by assumption) →
    Keeps F s (encodeDone x0 x1 x2 x3 x4 t) := by
  intro x0 x1 x2 x3 x4 hF
  have f_emitFrame : [SField.env, .hostMem, .pcie, .slabs2, .ports, .ports2, .tiles, .tiles2, .banks, .parts2, .ctxs,
      .funcs, .bankMem, .hbm] ⊆ F := List.Subset.trans (by decide) hF
  have f_startPhase : [SField.env, .hostMem, .pcie, .slabs2, .tiles2, .ctxs, .funcs, .bankMem] ⊆ F :=
      List.Subset.trans (by decide) hF
  have f_dropClaims : [SField.slabs2] ⊆ F := List.Subset.trans (by decide) hF
  unfold encodeDone
  repeat'
    first
    | with_reducible assumption | with_reducible apply keeps_emitFrame | with_reducible apply keeps_startPhase
    | with_reducible apply keeps_dropClaims
    | (extract_lets +onlyGivenNames x
       refine Keeps.cut (u := x) ?_ fun hx => ?_
       (on_goal 1 => unfold x)
       (on_goal 2 => (clear_value x; rename' x => y)))
    | (extract_lets +onlyGivenNames x; refine Keeps.keepEnv x ?_; rename' x => y)
    | (extract_lets +onlyGivenNames x; refine Keeps.keepSec x ?_; rename' x => y)
    | (extract_lets +onlyGivenNames x; refine Keeps.keepArm x ?_; rename' x => y)
    | (extract_lets +onlyGivenNames x; refine Keeps.keepMeter x ?_; rename' x => y)
    | (extract_lets +onlyGivenNames x; clear_value x; rename' x => y)
    | split

theorem keeps_decodeDone (h : Keeps F s t) :
    ∀ x0 x1 x2 x3 x4, (hF : [SField.env, .hostMem, .pcie, .slabs2, .ports, .ports2, .tiles, .tiles2, .banks, .parts2,
        .ctxs, .funcs, .bankMem, .hbm] ⊆ F := by assumption) →
    Keeps F s (decodeDone x0 x1 x2 x3 x4 t) := by
  intro x0 x1 x2 x3 x4 hF
  have f_runCmd : [SField.env, .hostMem, .pcie, .slabs2, .ports, .ports2, .tiles, .tiles2, .banks, .parts2, .ctxs,
      .funcs, .bankMem, .hbm] ⊆ F := List.Subset.trans (by decide) hF
  have f_setVc : [SField.ctxs] ⊆ F := List.Subset.trans (by decide) hF
  have f_dropClaims : [SField.slabs2] ⊆ F := List.Subset.trans (by decide) hF
  have f_finish : [SField.tiles, .ctxs] ⊆ F := List.Subset.trans (by decide) hF
  revert x0 x1 x2 x3 x4
  intro c v x f m
  unfold decodeDone
  dsimp only
  split
  repeat'
    first
    | (refine keeps_runCmd (keeps_setVc (keeps_dropClaims h _ _) _ _ _) fun w hw => ?_
       exact keeps_finish (keeps_setVc hw _ _ _) _ _ _ _)
    | split

theorem keeps_setDone (h : Keeps F s t) :
    ∀ x0 x1 x2, (hF : [SField.env, .hostMem, .pcie, .slabs2, .tiles2, .ctxs, .funcs, .bankMem] ⊆ F := by assumption) →
    Keeps F s (setDone x0 x1 x2 t) := by
  intro x0 x1 x2 hF
  have f_jobPut : [SField.bankMem] ⊆ F := List.Subset.trans (by decide) hF
  have f_jobRefused : [SField.env, .hostMem, .pcie, .slabs2, .tiles2, .ctxs, .funcs] ⊆ F := List.Subset.trans (by
      decide) hF
  unfold setDone
  repeat'
    first
    | with_reducible assumption | with_reducible apply keeps_jobPut | with_reducible apply keeps_jobRefused
    | (extract_lets +onlyGivenNames x
       refine Keeps.cut (u := x) ?_ fun hx => ?_
       (on_goal 1 => unfold x)
       (on_goal 2 => (clear_value x; rename' x => y)))
    | (extract_lets +onlyGivenNames x; refine Keeps.keepEnv x ?_; rename' x => y)
    | (extract_lets +onlyGivenNames x; refine Keeps.keepSec x ?_; rename' x => y)
    | (extract_lets +onlyGivenNames x; refine Keeps.keepArm x ?_; rename' x => y)
    | (extract_lets +onlyGivenNames x; refine Keeps.keepMeter x ?_; rename' x => y)
    | (extract_lets +onlyGivenNames x; clear_value x; rename' x => y)
    | split | with_reducible refine Keeps.light ?_ rfl rfl rfl rfl

theorem keeps_phaseDone (h : Keeps F s t) :
    ∀ x0 x1 x2 x3 x4, (hF : [SField.env, .hostMem, .pcie, .slabs2, .ports, .ports2, .tiles, .tiles2, .banks, .parts2,
        .ctxs, .funcs, .bankMem, .hbm] ⊆ F := by assumption) →
    Keeps F s (phaseDone x0 x1 x2 x3 x4 t) := by
  intro x0 x1 x2 x3 x4 hF
  have f_decodeDone : [SField.env, .hostMem, .pcie, .slabs2, .ports, .ports2, .tiles, .tiles2, .banks, .parts2,
      .ctxs, .funcs, .bankMem, .hbm] ⊆ F := List.Subset.trans (by decide) hF
  have f_startPhase : [SField.env, .hostMem, .pcie, .slabs2, .tiles2, .ctxs, .funcs, .bankMem] ⊆ F :=
      List.Subset.trans (by decide) hF
  have f_dropClaims : [SField.slabs2] ⊆ F := List.Subset.trans (by decide) hF
  have f_encodeDone : [SField.env, .hostMem, .pcie, .slabs2, .ports, .ports2, .tiles, .tiles2, .banks, .parts2,
      .ctxs, .funcs, .bankMem, .hbm] ⊆ F := List.Subset.trans (by decide) hF
  unfold phaseDone
  repeat'
    first
    | with_reducible assumption | with_reducible apply keeps_decodeDone | with_reducible apply keeps_startPhase
    | with_reducible apply keeps_dropClaims | with_reducible apply keeps_encodeDone
    | (extract_lets +onlyGivenNames x
       refine Keeps.cut (u := x) ?_ fun hx => ?_
       (on_goal 1 => unfold x)
       (on_goal 2 => (clear_value x; rename' x => y)))
    | (extract_lets +onlyGivenNames x; refine Keeps.keepEnv x ?_; rename' x => y)
    | (extract_lets +onlyGivenNames x; refine Keeps.keepSec x ?_; rename' x => y)
    | (extract_lets +onlyGivenNames x; refine Keeps.keepArm x ?_; rename' x => y)
    | (extract_lets +onlyGivenNames x; refine Keeps.keepMeter x ?_; rename' x => y)
    | (extract_lets +onlyGivenNames x; clear_value x; rename' x => y)
    | split | with_reducible refine Keeps.light ?_ rfl rfl rfl rfl

theorem keeps_execVcFrameAssemble (h : Keeps F s t) :
    ∀ x0 x1, (hF : [SField.env, .hostMem, .pcie, .slabs2, .ports, .ports2, .tiles, .tiles2, .banks, .parts2, .ctxs,
        .funcs, .bankMem, .hbm] ⊆ F := by assumption) →
    Yields F s (execVcFrameAssemble x0 x1 t) := by
  intro x0 x1 hF
  have f_finishCode : [SField.ctxs] ⊆ F := List.Subset.trans (by decide) hF
  have f_endFrame : [SField.slabs2, .ctxs] ⊆ F := List.Subset.trans (by decide) hF
  have f_finish : [SField.tiles, .ctxs] ⊆ F := List.Subset.trans (by decide) hF
  have f_setDone : [SField.env, .hostMem, .pcie, .slabs2, .tiles2, .ctxs, .funcs, .bankMem] ⊆ F := List.Subset.trans
      (by decide) hF
  have f_phaseDone : [SField.env, .hostMem, .pcie, .slabs2, .ports, .ports2, .tiles, .tiles2, .banks, .parts2, .ctxs,
      .funcs, .bankMem, .hbm] ⊆ F := List.Subset.trans (by decide) hF
  unfold execVcFrameAssemble
  repeat'
    first
    | with_reducible assumption | with_reducible apply keeps_finishCode | with_reducible apply keeps_endFrame
    | with_reducible apply keeps_finish | with_reducible apply keeps_setDone | with_reducible apply keeps_phaseDone
    | with_reducible apply Yields.next
    | (extract_lets +onlyGivenNames x
       refine Yields.cut (u := x) ?_ fun hx => ?_
       (on_goal 1 => unfold x)
       (on_goal 2 => (clear_value x; rename' x => y)))
    | (extract_lets +onlyGivenNames x
       refine Keeps.cut (u := x) ?_ fun hx => ?_
       (on_goal 1 => unfold x)
       (on_goal 2 => (clear_value x; rename' x => y)))
    | (extract_lets +onlyGivenNames x; refine Keeps.keepEnv x ?_; rename' x => y)
    | (extract_lets +onlyGivenNames x; refine Keeps.keepSec x ?_; rename' x => y)
    | (extract_lets +onlyGivenNames x; refine Keeps.keepArm x ?_; rename' x => y)
    | (extract_lets +onlyGivenNames x; refine Keeps.keepMeter x ?_; rename' x => y)
    | (extract_lets +onlyGivenNames x; clear_value x; rename' x => y)
    | split

end Sys2Proof.Machine
end

