-- ==== Sys2Proof/Laws/KeepsMesh.lean ====
section
/-! SUPPORT. What every operation and meaning of Machine/Mesh.lean keeps: the queue, the canonical form, what lasts, and every part
of the state outside its own list. -/

set_option linter.unreachableTactic false
set_option linter.unusedTactic false
set_option linter.unusedVariables false
set_option linter.tactic.unusedName false

namespace Sys2Proof.Machine

open Sys2Proof

-- Proofs one after another: the package compiles as one text under a memory limit.
set_option Elab.async false


variable {F : List SField} {s t : State}

theorem keeps_modFab (h : Keeps F s t) :
    ∀ x0 x1, (hF : [SField.slabs2] ⊆ F := by assumption) →
    Keeps F s (modFab x0 x1 t) := by
  intro x0 x1 hF
  have b_slabs2 : SField.slabs2 ∈ F := hF (by decide)
  unfold modFab
  repeat'
    first
    | with_reducible assumption | with_reducible apply Keeps.modSlab2
    | split

theorem keeps_setInFlits (h : Keeps F s t) :
    ∀ x0 x1 x2, (hF : [SField.slabs2] ⊆ F := by assumption) →
    Keeps F s (setInFlits x0 x1 x2 t) := by
  intro x0 x1 x2 hF
  have f_modFab : [SField.slabs2] ⊆ F := List.Subset.trans (by decide) hF
  unfold setInFlits
  repeat'
    first
    | with_reducible assumption | with_reducible apply keeps_modFab
    | (extract_lets +onlyGivenNames x
       refine Keeps.cut (u := x) ?_ fun hx => ?_
       (on_goal 1 => unfold x)
       (on_goal 2 => (clear_value x; rename' x => y)))
    | (extract_lets +onlyGivenNames x; refine Keeps.keepEnv x ?_; rename' x => y)
    | (extract_lets +onlyGivenNames x; refine Keeps.keepSec x ?_; rename' x => y)
    | (extract_lets +onlyGivenNames x; refine Keeps.keepArm x ?_; rename' x => y)
    | (extract_lets +onlyGivenNames x; refine Keeps.keepMeter x ?_; rename' x => y)
    | (extract_lets +onlyGivenNames x; clear_value x; rename' x => y)
    | split

theorem keeps_setOut (h : Keeps F s t) :
    ∀ x0 x1 x2, (hF : [SField.slabs2] ⊆ F := by assumption) →
    Keeps F s (setOut x0 x1 x2 t) := by
  intro x0 x1 x2 hF
  have f_modFab : [SField.slabs2] ⊆ F := List.Subset.trans (by decide) hF
  unfold setOut
  repeat'
    first
    | with_reducible assumption | with_reducible apply keeps_modFab
    | split

theorem keeps_popFlit (h : Keeps F s t) :
    ∀ x0 x1 x2 x3 x4, (hF : [SField.slabs2] ⊆ F := by assumption) →
    Keeps F s (popFlit x0 x1 x2 x3 x4 t) := by
  intro x0 x1 x2 x3 x4 hF
  have f_setInFlits : [SField.slabs2] ⊆ F := List.Subset.trans (by decide) hF
  have f_setOut : [SField.slabs2] ⊆ F := List.Subset.trans (by decide) hF
  unfold popFlit
  repeat'
    first
    | with_reducible assumption | with_reducible apply keeps_setInFlits | with_reducible apply keeps_setOut
    | (extract_lets +onlyGivenNames x
       refine Keeps.cut (u := x) ?_ fun hx => ?_
       (on_goal 1 => unfold x)
       (on_goal 2 => (clear_value x; rename' x => y)))
    | (extract_lets +onlyGivenNames x; refine Keeps.keepEnv x ?_; rename' x => y)
    | (extract_lets +onlyGivenNames x; refine Keeps.keepSec x ?_; rename' x => y)
    | (extract_lets +onlyGivenNames x; refine Keeps.keepArm x ?_; rename' x => y)
    | (extract_lets +onlyGivenNames x; refine Keeps.keepMeter x ?_; rename' x => y)
    | (extract_lets +onlyGivenNames x; clear_value x; rename' x => y)
    | split

theorem keeps_pushFlit (h : Keeps F s t) :
    ∀ x0 x1 x2 x3, (hF : [SField.slabs2] ⊆ F := by assumption) →
    Keeps F s (pushFlit x0 x1 x2 x3 t) := by
  intro x0 x1 x2 x3 hF
  have f_setInFlits : [SField.slabs2] ⊆ F := List.Subset.trans (by decide) hF
  unfold pushFlit
  repeat'
    first
    | with_reducible assumption | with_reducible apply keeps_setInFlits
    | split

theorem keeps_countOut (h : Keeps F s t) :
    ∀ x0 x1, (hF : [SField.slabs2] ⊆ F := by assumption) →
    Keeps F s (countOut x0 x1 t) := by
  intro x0 x1 hF
  have f_modFab : [SField.slabs2] ⊆ F := List.Subset.trans (by decide) hF
  unfold countOut
  repeat'
    first
    | with_reducible assumption | with_reducible apply keeps_modFab
    | split

theorem keeps_countEdge (h : Keeps F s t) :
    ∀ x0 x1, (hF : [SField.slabs2] ⊆ F := by assumption) →
    Keeps F s (countEdge x0 x1 t) := by
  intro x0 x1 hF
  have f_countOut : [SField.slabs2] ⊆ F := List.Subset.trans (by decide) hF
  unfold countEdge
  repeat'
    first
    | with_reducible assumption | with_reducible apply keeps_countOut
    | split

theorem keeps_keepSent (h : Keeps F s t) :
    ∀ x0 x1, (hF : [SField.slabs2] ⊆ F := by assumption) →
    Keeps F s (keepSent x0 x1 t) := by
  intro x0 x1 hF
  have f_modFab : [SField.slabs2] ⊆ F := List.Subset.trans (by decide) hF
  unfold keepSent
  repeat'
    first
    | with_reducible assumption | with_reducible apply keeps_modFab
    | (extract_lets +onlyGivenNames x
       refine Keeps.cut (u := x) ?_ fun hx => ?_
       (on_goal 1 => unfold x)
       (on_goal 2 => (clear_value x; rename' x => y)))
    | (extract_lets +onlyGivenNames x; refine Keeps.keepEnv x ?_; rename' x => y)
    | (extract_lets +onlyGivenNames x; refine Keeps.keepSec x ?_; rename' x => y)
    | (extract_lets +onlyGivenNames x; refine Keeps.keepArm x ?_; rename' x => y)
    | (extract_lets +onlyGivenNames x; refine Keeps.keepMeter x ?_; rename' x => y)
    | (extract_lets +onlyGivenNames x; clear_value x; rename' x => y)
    | split

theorem keeps_moveFlit (h : Keeps F s t) :
    ∀ x0 x1 x2 x3 x4, (hF : [SField.slabs2] ⊆ F := by assumption) →
    Keeps F s (moveFlit x0 x1 x2 x3 x4 t) := by
  intro x0 x1 x2 x3 x4 hF
  have f_popFlit : [SField.slabs2] ⊆ F := List.Subset.trans (by decide) hF
  have f_keepSent : [SField.slabs2] ⊆ F := List.Subset.trans (by decide) hF
  have f_pushFlit : [SField.slabs2] ⊆ F := List.Subset.trans (by decide) hF
  unfold moveFlit
  repeat'
    first
    | with_reducible assumption | with_reducible apply keeps_popFlit | with_reducible apply keeps_keepSent
    | with_reducible apply keeps_pushFlit
    | (extract_lets +onlyGivenNames x
       refine Keeps.cut (u := x) ?_ fun hx => ?_
       (on_goal 1 => unfold x)
       (on_goal 2 => (clear_value x; rename' x => y)))
    | (extract_lets +onlyGivenNames x; refine Keeps.keepEnv x ?_; rename' x => y)
    | (extract_lets +onlyGivenNames x; refine Keeps.keepSec x ?_; rename' x => y)
    | (extract_lets +onlyGivenNames x; refine Keeps.keepArm x ?_; rename' x => y)
    | (extract_lets +onlyGivenNames x; refine Keeps.keepMeter x ?_; rename' x => y)
    | (extract_lets +onlyGivenNames x; clear_value x; rename' x => y)
    | split

theorem keeps_setFails (h : Keeps F s t) :
    ∀ x0 x1 x2, (hF : [SField.slabs2] ⊆ F := by assumption) →
    Keeps F s (setFails x0 x1 x2 t) := by
  intro x0 x1 x2 hF
  have f_modFab : [SField.slabs2] ⊆ F := List.Subset.trans (by decide) hF
  unfold setFails
  repeat'
    first
    | with_reducible assumption | with_reducible apply keeps_modFab
    | (extract_lets +onlyGivenNames x
       refine Keeps.cut (u := x) ?_ fun hx => ?_
       (on_goal 1 => unfold x)
       (on_goal 2 => (clear_value x; rename' x => y)))
    | (extract_lets +onlyGivenNames x; refine Keeps.keepEnv x ?_; rename' x => y)
    | (extract_lets +onlyGivenNames x; refine Keeps.keepSec x ?_; rename' x => y)
    | (extract_lets +onlyGivenNames x; refine Keeps.keepArm x ?_; rename' x => y)
    | (extract_lets +onlyGivenNames x; refine Keeps.keepMeter x ?_; rename' x => y)
    | (extract_lets +onlyGivenNames x; clear_value x; rename' x => y)
    | split

theorem keeps_dropFabric (h : Keeps F s t) :
    ∀ x0, (hF : [SField.slabs2] ⊆ F := by assumption) →
    Keeps F s (dropFabric x0 t) := by
  intro x0 hF
  have f_modFab : [SField.slabs2] ⊆ F := List.Subset.trans (by decide) hF
  unfold dropFabric
  repeat'
    first
    | with_reducible assumption | with_reducible apply keeps_modFab
    | with_reducible (refine Keeps.forAll ?_ _ _ fun _ _ _ => ?_)
    | split

end Sys2Proof.Machine
end

