-- ==== Sys2Proof/Laws/KeepsPcie.lean ====
section
/-! SUPPORT. What every operation and meaning of Machine/Pcie.lean keeps: the queue, the canonical form, what lasts, and every part
of the state outside its own list. -/

set_option linter.unreachableTactic false
set_option linter.unusedTactic false
set_option linter.unusedVariables false
set_option linter.tactic.unusedName false

namespace Sys2Proof.Machine

open Sys2Proof

-- Proofs one after another: the package compiles as one text under a memory limit.
set_option Elab.async false

variable {F : List SField} {s t : State}

theorem keeps_msixWrite (h : Keeps F s t) :
    ∀ x0 x1 x2, (hF : [SField.env, .pcie, .funcs] ⊆ F := by assumption) →
    Keeps F s (msixWrite x0 x1 x2 t) := by
  intro x0 x1 x2 hF
  have b_funcs : SField.funcs ∈ F := hF (by decide)
  have f_sendMsi : [SField.env, .pcie, .funcs] ⊆ F := List.Subset.trans (by decide) hF
  unfold msixWrite
  repeat'
    first
    | with_reducible assumption | with_reducible apply Keeps.modFn | with_reducible apply keeps_sendMsi
    | (extract_lets +onlyGivenNames x
       refine Keeps.cut (u := x) ?_ fun hx => ?_
       (on_goal 1 => unfold x)
       (on_goal 2 => (clear_value x; rename' x => y)))
    | (extract_lets +onlyGivenNames x; refine Keeps.keepEnv x ?_; rename' x => y)
    | (extract_lets +onlyGivenNames x; refine Keeps.keepSec x ?_; rename' x => y)
    | (extract_lets +onlyGivenNames x; refine Keeps.keepArm x ?_; rename' x => y)
    | (extract_lets +onlyGivenNames x; refine Keeps.keepMeter x ?_; rename' x => y)
    | (extract_lets +onlyGivenNames x; clear_value x; rename' x => y)
    | split | with_reducible refine Keeps.light ?_ rfl rfl rfl rfl

theorem keeps_execPcieConfigWrite (h : Keeps F s t) :
    ∀ x0 x1, (hF : [SField.env, .pcie, .funcs] ⊆ F := by assumption) →
    Yields F s (execPcieConfigWrite x0 x1 t) := by
  intro x0 x1 hF
  have b_pcie : SField.pcie ∈ F := hF (by decide)
  have f_msixWrite : [SField.env, .pcie, .funcs] ⊆ F := List.Subset.trans (by decide) hF
  unfold execPcieConfigWrite
  repeat'
    first
    | with_reducible assumption | with_reducible apply keeps_msixWrite | with_reducible apply Yields.next
    | split | with_reducible refine Keeps.light ?_ rfl rfl rfl rfl

theorem keeps_startFailover (h : Keeps F s t) :
    ∀ x0, (hF : [SField.pcie] ⊆ F := by assumption) →
    Keeps F s (startFailover x0 t) := by
  intro x0 hF
  have b_pcie : SField.pcie ∈ F := hF (by decide)
  unfold startFailover
  repeat'
    first
    | with_reducible assumption
    | (extract_lets +onlyGivenNames x
       refine Keeps.cut (u := x) ?_ fun hx => ?_
       (on_goal 1 => unfold x)
       (on_goal 2 => (clear_value x; rename' x => y)))
    | (extract_lets +onlyGivenNames x; refine Keeps.keepEnv x ?_; rename' x => y)
    | (extract_lets +onlyGivenNames x; refine Keeps.keepSec x ?_; rename' x => y)
    | (extract_lets +onlyGivenNames x; refine Keeps.keepArm x ?_; rename' x => y)
    | (extract_lets +onlyGivenNames x; refine Keeps.keepMeter x ?_; rename' x => y)
    | (extract_lets +onlyGivenNames x; clear_value x; rename' x => y)
    | split | with_reducible refine Keeps.light ?_ rfl rfl rfl rfl

theorem keeps_makeRecord (h : Keeps F s t) :
    ∀ x0, (hF : [SField.env, .hostMem, .pcie, .ctxs, .funcs] ⊆ F := by assumption) →
    Keeps F s (makeRecord x0 t) := by
  intro x0 hF
  have f_recordCmd : [SField.env, .hostMem, .pcie, .ctxs, .funcs] ⊆ F := List.Subset.trans (by decide) hF
  unfold makeRecord
  repeat'
    first
    | with_reducible assumption | with_reducible apply keeps_recordCmd
    | split

theorem keeps_writeHeld (h : Keeps F s t) :
    (hF : [SField.env, .hostMem, .pcie, .ctxs, .funcs] ⊆ F := by assumption) →
    Keeps F s (writeHeld t) := by
  intro hF
  have b_pcie : SField.pcie ∈ F := hF (by decide)
  have b_funcs : SField.funcs ∈ F := hF (by decide)
  have f_hostWrite : [SField.env, .hostMem] ⊆ F := List.Subset.trans (by decide) hF
  have f_makeRecord : [SField.env, .hostMem, .pcie, .ctxs, .funcs] ⊆ F := List.Subset.trans (by decide) hF
  have f_postFuel : [SField.env, .hostMem, .pcie, .funcs] ⊆ F := List.Subset.trans (by decide) hF
  have f_cqDue : [SField.env, .pcie, .ctxs, .funcs] ⊆ F := List.Subset.trans (by decide) hF
  have f_sendMsi : [SField.env, .pcie, .funcs] ⊆ F := List.Subset.trans (by decide) hF
  unfold writeHeld
  repeat'
    first
    | with_reducible assumption | with_reducible apply keeps_hostWrite | with_reducible apply keeps_makeRecord
    | with_reducible apply keeps_postFuel | with_reducible apply keeps_cqDue | with_reducible apply keeps_sendMsi
    | with_reducible apply Keeps.setFn | with_reducible (refine Keeps.forAll ?_ _ _ fun _ _ _ => ?_)
    | (extract_lets +onlyGivenNames x
       refine Keeps.cut (u := x) ?_ fun hx => ?_
       (on_goal 1 => unfold x)
       (on_goal 2 => (clear_value x; rename' x => y)))
    | (extract_lets +onlyGivenNames x; refine Keeps.keepEnv x ?_; rename' x => y)
    | (extract_lets +onlyGivenNames x; refine Keeps.keepSec x ?_; rename' x => y)
    | (extract_lets +onlyGivenNames x; refine Keeps.keepArm x ?_; rename' x => y)
    | (extract_lets +onlyGivenNames x; refine Keeps.keepMeter x ?_; rename' x => y)
    | (extract_lets +onlyGivenNames x; clear_value x; rename' x => y)
    | split | with_reducible refine Keeps.light ?_ rfl rfl rfl rfl

theorem keeps_releaseHeld (h : Keeps F s t) :
    (hF : [SField.env, .hostMem, .pcie, .ctxs, .funcs] ⊆ F := by assumption) →
    Keeps F s (releaseHeld t) := by
  intro hF
  have b_pcie : SField.pcie ∈ F := hF (by decide)
  have f_writeHeld : [SField.env, .hostMem, .pcie, .ctxs, .funcs] ⊆ F := List.Subset.trans (by decide) hF
  have f_sendMsi : [SField.env, .pcie, .funcs] ⊆ F := List.Subset.trans (by decide) hF
  unfold releaseHeld
  repeat'
    first
    | with_reducible assumption | with_reducible apply keeps_writeHeld | with_reducible apply keeps_sendMsi
    | with_reducible (refine Keeps.forAll ?_ _ _ fun _ _ _ => ?_)
    | (extract_lets +onlyGivenNames x
       refine Keeps.cut (u := x) ?_ fun hx => ?_
       (on_goal 1 => unfold x)
       (on_goal 2 => (clear_value x; rename' x => y)))
    | (extract_lets +onlyGivenNames x; refine Keeps.keepEnv x ?_; rename' x => y)
    | (extract_lets +onlyGivenNames x; refine Keeps.keepSec x ?_; rename' x => y)
    | (extract_lets +onlyGivenNames x; refine Keeps.keepArm x ?_; rename' x => y)
    | (extract_lets +onlyGivenNames x; refine Keeps.keepMeter x ?_; rename' x => y)
    | (extract_lets +onlyGivenNames x; clear_value x; rename' x => y)
    | split | with_reducible refine Keeps.light ?_ rfl rfl rfl rfl

theorem keeps_loseLink (h : Keeps F s t) :
    (hF : [SField.env, .hostMem, .pcie, .arm, .ctxs, .funcs] ⊆ F := by assumption) →
    Keeps F s (loseLink t) := by
  intro hF
  have b_pcie : SField.pcie ∈ F := hF (by decide)
  have f_releaseHeld : [SField.env, .hostMem, .pcie, .ctxs, .funcs] ⊆ F := List.Subset.trans (by decide) hF
  have f_replace : [SField.env, .hostMem, .pcie, .arm, .funcs] ⊆ F := List.Subset.trans (by decide) hF
  unfold loseLink
  repeat'
    first
    | with_reducible assumption | with_reducible apply keeps_releaseHeld | with_reducible apply keeps_replace
    | (extract_lets +onlyGivenNames x
       refine Keeps.cut (u := x) ?_ fun hx => ?_
       (on_goal 1 => unfold x)
       (on_goal 2 => (clear_value x; rename' x => y)))
    | (extract_lets +onlyGivenNames x; refine Keeps.keepEnv x ?_; rename' x => y)
    | (extract_lets +onlyGivenNames x; refine Keeps.keepSec x ?_; rename' x => y)
    | (extract_lets +onlyGivenNames x; refine Keeps.keepArm x ?_; rename' x => y)
    | (extract_lets +onlyGivenNames x; refine Keeps.keepMeter x ?_; rename' x => y)
    | (extract_lets +onlyGivenNames x; clear_value x; rename' x => y)
    | split | with_reducible refine Keeps.light ?_ rfl rfl rfl rfl

theorem keeps_activeFails (h : Keeps F s t) :
    ∀ x0, (hF : [SField.env, .hostMem, .pcie, .arm, .meter, .meter2, .ctxs, .funcs] ⊆ F := by assumption) →
    Keeps F s (activeFails x0 t) := by
  intro x0 hF
  have f_trigger : [SField.meter, .meter2] ⊆ F := List.Subset.trans (by decide) hF
  have f_startFailover : [SField.pcie] ⊆ F := List.Subset.trans (by decide) hF
  have f_loseLink : [SField.env, .hostMem, .pcie, .arm, .ctxs, .funcs] ⊆ F := List.Subset.trans (by decide) hF
  unfold activeFails
  repeat'
    first
    | with_reducible assumption | with_reducible apply keeps_trigger | with_reducible apply keeps_startFailover
    | with_reducible apply keeps_loseLink
    | split

theorem keeps_standbyFails (h : Keeps F s t) :
    (hF : [SField.env, .hostMem, .pcie, .arm, .funcs] ⊆ F := by assumption) →
    Keeps F s (standbyFails t) := by
  intro hF
  have b_pcie : SField.pcie ∈ F := hF (by decide)
  have f_replace : [SField.env, .hostMem, .pcie, .arm, .funcs] ⊆ F := List.Subset.trans (by decide) hF
  have f_pcieEvent : [SField.env, .hostMem, .pcie, .funcs] ⊆ F := List.Subset.trans (by decide) hF
  unfold standbyFails
  repeat'
    first
    | with_reducible assumption | with_reducible apply keeps_replace | with_reducible apply keeps_pcieEvent
    | (extract_lets +onlyGivenNames x
       refine Keeps.cut (u := x) ?_ fun hx => ?_
       (on_goal 1 => unfold x)
       (on_goal 2 => (clear_value x; rename' x => y)))
    | (extract_lets +onlyGivenNames x; refine Keeps.keepEnv x ?_; rename' x => y)
    | (extract_lets +onlyGivenNames x; refine Keeps.keepSec x ?_; rename' x => y)
    | (extract_lets +onlyGivenNames x; refine Keeps.keepArm x ?_; rename' x => y)
    | (extract_lets +onlyGivenNames x; refine Keeps.keepMeter x ?_; rename' x => y)
    | (extract_lets +onlyGivenNames x; clear_value x; rename' x => y)
    | split | with_reducible refine Keeps.light ?_ rfl rfl rfl rfl

theorem keeps_execPcieFailover (h : Keeps F s t) :
    ∀ x0, (hF : [SField.env, .hostMem, .pcie, .arm, .meter, .meter2, .ctxs, .funcs] ⊆ F := by assumption) →
    Yields F s (execPcieFailover x0 t) := by
  intro x0 hF
  have f_activeFails : [SField.env, .hostMem, .pcie, .arm, .meter, .meter2, .ctxs, .funcs] ⊆ F := List.Subset.trans
      (by decide) hF
  have f_startFailover : [SField.pcie] ⊆ F := List.Subset.trans (by decide) hF
  unfold execPcieFailover
  repeat'
    first
    | with_reducible assumption | with_reducible apply keeps_activeFails | with_reducible apply keeps_startFailover
    | with_reducible apply Yields.next
    | split

theorem keeps_execFailoverSwitch (h : Keeps F s t) :
    (hF : [SField.pcie] ⊆ F := by assumption) →
    Yields F s (execFailoverSwitch t) := by
  intro hF
  have b_pcie : SField.pcie ∈ F := hF (by decide)
  unfold execFailoverSwitch
  repeat'
    first
    | with_reducible assumption | with_reducible apply Yields.next
    | (extract_lets +onlyGivenNames x
       refine Yields.cut (u := x) ?_ fun hx => ?_
       (on_goal 1 => unfold x)
       (on_goal 2 => (clear_value x; rename' x => y)))
    | (extract_lets +onlyGivenNames x
       refine Keeps.cut (u := x) ?_ fun hx => ?_
       (on_goal 1 => unfold x)
       (on_goal 2 => (clear_value x; rename' x => y)))
    | (extract_lets +onlyGivenNames x; refine Keeps.keepEnv x ?_; rename' x => y)
    | (extract_lets +onlyGivenNames x; refine Keeps.keepSec x ?_; rename' x => y)
    | (extract_lets +onlyGivenNames x; refine Keeps.keepArm x ?_; rename' x => y)
    | (extract_lets +onlyGivenNames x; refine Keeps.keepMeter x ?_; rename' x => y)
    | (extract_lets +onlyGivenNames x; clear_value x; rename' x => y)
    | split | with_reducible refine Keeps.light ?_ rfl rfl rfl rfl

theorem keeps_execFailoverLinkUp (h : Keeps F s t) :
    ∀ x0 x1, (hF : [SField.env, .hostMem, .pcie, .ctxs, .funcs] ⊆ F := by assumption) →
    Yields F s (execFailoverLinkUp x0 x1 t) := by
  intro x0 x1 hF
  have b_pcie : SField.pcie ∈ F := hF (by decide)
  have f_pcieEvent : [SField.env, .hostMem, .pcie, .funcs] ⊆ F := List.Subset.trans (by decide) hF
  have f_releaseHeld : [SField.env, .hostMem, .pcie, .ctxs, .funcs] ⊆ F := List.Subset.trans (by decide) hF
  have f_post : [SField.env, .hostMem, .pcie, .funcs] ⊆ F := List.Subset.trans (by decide) hF
  unfold execFailoverLinkUp
  repeat'
    first
    | with_reducible assumption | with_reducible apply keeps_pcieEvent | with_reducible apply keeps_releaseHeld
    | with_reducible apply keeps_post | with_reducible (refine Keeps.forAll ?_ _ _ fun _ _ _ => ?_)
    | with_reducible apply Yields.next
    | (extract_lets +onlyGivenNames x
       refine Yields.cut (u := x) ?_ fun hx => ?_
       (on_goal 1 => unfold x)
       (on_goal 2 => (clear_value x; rename' x => y)))
    | (extract_lets +onlyGivenNames x
       refine Keeps.cut (u := x) ?_ fun hx => ?_
       (on_goal 1 => unfold x)
       (on_goal 2 => (clear_value x; rename' x => y)))
    | (extract_lets +onlyGivenNames x; refine Keeps.keepEnv x ?_; rename' x => y)
    | (extract_lets +onlyGivenNames x; refine Keeps.keepSec x ?_; rename' x => y)
    | (extract_lets +onlyGivenNames x; refine Keeps.keepArm x ?_; rename' x => y)
    | (extract_lets +onlyGivenNames x; refine Keeps.keepMeter x ?_; rename' x => y)
    | (extract_lets +onlyGivenNames x; clear_value x; rename' x => y)
    | split | with_reducible refine Keeps.light ?_ rfl rfl rfl rfl

theorem keeps_execStandbyLost (h : Keeps F s t) :
    (hF : [SField.env, .hostMem, .pcie, .arm, .funcs] ⊆ F := by assumption) →
    Yields F s (execStandbyLost t) := by
  intro hF
  have f_standbyFails : [SField.env, .hostMem, .pcie, .arm, .funcs] ⊆ F := List.Subset.trans (by decide) hF
  unfold execStandbyLost
  repeat'
    first
    | with_reducible assumption | with_reducible apply keeps_standbyFails | with_reducible apply Yields.next
    | (extract_lets +onlyGivenNames x
       refine Yields.cut (u := x) ?_ fun hx => ?_
       (on_goal 1 => unfold x)
       (on_goal 2 => (clear_value x; rename' x => y)))
    | (extract_lets +onlyGivenNames x
       refine Keeps.cut (u := x) ?_ fun hx => ?_
       (on_goal 1 => unfold x)
       (on_goal 2 => (clear_value x; rename' x => y)))
    | (extract_lets +onlyGivenNames x; refine Keeps.keepEnv x ?_; rename' x => y)
    | (extract_lets +onlyGivenNames x; refine Keeps.keepSec x ?_; rename' x => y)
    | (extract_lets +onlyGivenNames x; refine Keeps.keepArm x ?_; rename' x => y)
    | (extract_lets +onlyGivenNames x; refine Keeps.keepMeter x ?_; rename' x => y)
    | (extract_lets +onlyGivenNames x; clear_value x; rename' x => y)
    | split | with_reducible refine Keeps.light ?_ rfl rfl rfl rfl

end Sys2Proof.Machine
end

