-- ==== Sys2Proof/Laws/KeepsRetire.lean ====
section
/-! SUPPORT. What every operation and meaning of Machine/Retire.lean keeps: the queue, the canonical form, what lasts, and every part
of the state outside its own list. -/

set_option linter.unreachableTactic false
set_option linter.unusedTactic false
set_option linter.unusedVariables false
set_option linter.tactic.unusedName false

namespace Sys2Proof.Machine

open Sys2Proof

-- Proofs one after another: the package compiles as one text under a memory limit.
set_option Elab.async false

variable {F : List SField} {s t : State}

theorem keeps_addStop (h : Keeps F s t) :
    ∀ x0 x1, (hF : [SField.parts2] ⊆ F := by assumption) →
    Keeps F s (addStop x0 x1 t) := by
  intro x0 x1 hF
  have b_parts2 : SField.parts2 ∈ F := hF (by decide)
  unfold addStop
  repeat'
    first
    | with_reducible assumption | with_reducible apply Keeps.modPart2
    | (extract_lets +onlyGivenNames x
       refine Keeps.cut (u := x) ?_ fun hx => ?_
       (on_goal 1 => unfold x)
       (on_goal 2 => (clear_value x; rename' x => y)))
    | (extract_lets +onlyGivenNames x; refine Keeps.keepEnv x ?_; rename' x => y)
    | (extract_lets +onlyGivenNames x; refine Keeps.keepSec x ?_; rename' x => y)
    | (extract_lets +onlyGivenNames x; refine Keeps.keepArm x ?_; rename' x => y)
    | (extract_lets +onlyGivenNames x; refine Keeps.keepMeter x ?_; rename' x => y)
    | (extract_lets +onlyGivenNames x; clear_value x; rename' x => y)
    | split | with_reducible refine Keeps.light ?_ rfl rfl rfl rfl

theorem keeps_dropStop (h : Keeps F s t) :
    ∀ x0 x1, (hF : [SField.parts2] ⊆ F := by assumption) →
    Keeps F s (dropStop x0 x1 t) := by
  intro x0 x1 hF
  have b_parts2 : SField.parts2 ∈ F := hF (by decide)
  unfold dropStop
  repeat'
    first
    | with_reducible assumption | with_reducible apply Keeps.modPart2
    | (extract_lets +onlyGivenNames x
       refine Keeps.cut (u := x) ?_ fun hx => ?_
       (on_goal 1 => unfold x)
       (on_goal 2 => (clear_value x; rename' x => y)))
    | (extract_lets +onlyGivenNames x; refine Keeps.keepEnv x ?_; rename' x => y)
    | (extract_lets +onlyGivenNames x; refine Keeps.keepSec x ?_; rename' x => y)
    | (extract_lets +onlyGivenNames x; refine Keeps.keepArm x ?_; rename' x => y)
    | (extract_lets +onlyGivenNames x; refine Keeps.keepMeter x ?_; rename' x => y)
    | (extract_lets +onlyGivenNames x; clear_value x; rename' x => y)
    | split | with_reducible refine Keeps.light ?_ rfl rfl rfl rfl

theorem keeps_freshTile (h : Keeps F s t) :
    ∀ x0 x1, (hF : [SField.banks] ⊆ F := by assumption) →
    Keeps F s (freshTile x0 x1 t) := by
  intro x0 x1 hF
  have b_banks : SField.banks ∈ F := hF (by decide)
  unfold freshTile
  repeat'
    first
    | with_reducible assumption | with_reducible apply Keeps.modBank
    | with_reducible (refine Keeps.forAll ?_ _ _ fun _ _ _ => ?_)
    | split

theorem keeps_rampsStop (h : Keeps F s t) :
    ∀ x0, (hF : [SField.tiles] ⊆ F := by assumption) →
    Keeps F s (rampsStop x0 t) := by
  intro x0 hF
  have b_tiles : SField.tiles ∈ F := hF (by decide)
  unfold rampsStop
  repeat'
    first
    | with_reducible assumption | with_reducible apply Keeps.modTile
    | with_reducible (refine Keeps.forAll ?_ _ _ fun _ _ _ => ?_)
    | split

theorem keeps_applyWords (h : Keeps F s t) :
    ∀ x0 x1, (hF : [SField.env, .hostMem, .pcie, .slabs, .slabs2, .ports, .tiles, .ctxs, .funcs] ⊆ F := by
        assumption) →
    Keeps F s (applyWords x0 x1 t) := by
  intro x0 x1 hF
  have b_slabs : SField.slabs ∈ F := hF (by decide)
  have b_slabs2 : SField.slabs2 ∈ F := hF (by decide)
  have b_ports : SField.ports ∈ F := hF (by decide)
  have f_arrayEvent : [SField.env, .hostMem, .pcie, .slabs, .funcs] ⊆ F := List.Subset.trans (by decide) hF
  have f_rampsStop : [SField.tiles] ⊆ F := List.Subset.trans (by decide) hF
  have f_portEnable : [SField.env, .hostMem, .pcie, .ports, .tiles, .ctxs, .funcs] ⊆ F := List.Subset.trans (by
      decide) hF
  unfold applyWords
  repeat'
    first
    | with_reducible assumption | with_reducible apply keeps_arrayEvent | with_reducible apply keeps_rampsStop
    | with_reducible apply keeps_portEnable | with_reducible apply Keeps.modSlab | with_reducible apply Keeps.modSlab2
    | with_reducible apply Keeps.modPort
    | (extract_lets +onlyGivenNames x
       refine Keeps.cut (u := x) ?_ fun hx => ?_
       (on_goal 1 => unfold x)
       (on_goal 2 => (clear_value x; rename' x => y)))
    | (extract_lets +onlyGivenNames x; refine Keeps.keepEnv x ?_; rename' x => y)
    | (extract_lets +onlyGivenNames x; refine Keeps.keepSec x ?_; rename' x => y)
    | (extract_lets +onlyGivenNames x; refine Keeps.keepArm x ?_; rename' x => y)
    | (extract_lets +onlyGivenNames x; refine Keeps.keepMeter x ?_; rename' x => y)
    | (extract_lets +onlyGivenNames x; clear_value x; rename' x => y)
    | split

theorem keeps_fillSlots (h : Keeps F s t) :
    ∀ x0 x1, (hF : [SField.tiles2] ⊆ F := by assumption) →
    Keeps F s (fillSlots x0 x1 t) := by
  intro x0 x1 hF
  have b_tiles2 : SField.tiles2 ∈ F := hF (by decide)
  unfold fillSlots
  repeat'
    first
    | with_reducible assumption | with_reducible apply Keeps.modTile2
    | (extract_lets +onlyGivenNames x
       refine Keeps.cut (u := x) ?_ fun hx => ?_
       (on_goal 1 => unfold x)
       (on_goal 2 => (clear_value x; rename' x => y)))
    | (extract_lets +onlyGivenNames x; refine Keeps.keepEnv x ?_; rename' x => y)
    | (extract_lets +onlyGivenNames x; refine Keeps.keepSec x ?_; rename' x => y)
    | (extract_lets +onlyGivenNames x; refine Keeps.keepArm x ?_; rename' x => y)
    | (extract_lets +onlyGivenNames x; refine Keeps.keepMeter x ?_; rename' x => y)
    | (extract_lets +onlyGivenNames x; clear_value x; rename' x => y)
    | split

theorem keeps_clearPos (h : Keeps F s t) :
    ∀ x0, (hF : [SField.tiles2, .banks, .bankMem] ⊆ F := by assumption) →
    Keeps F s (clearPos x0 t) := by
  intro x0 hF
  have f_clearTile : [SField.tiles2, .banks, .bankMem] ⊆ F := List.Subset.trans (by decide) hF
  unfold clearPos
  repeat'
    first
    | with_reducible assumption | with_reducible (refine Keeps.forAll ?_ _ _ fun _ _ _ => ?_)
    | with_reducible apply keeps_clearTile
    | (extract_lets +onlyGivenNames x
       refine Keeps.cut (u := x) ?_ fun hx => ?_
       (on_goal 1 => unfold x)
       (on_goal 2 => (clear_value x; rename' x => y)))
    | (extract_lets +onlyGivenNames x; refine Keeps.keepEnv x ?_; rename' x => y)
    | (extract_lets +onlyGivenNames x; refine Keeps.keepSec x ?_; rename' x => y)
    | (extract_lets +onlyGivenNames x; refine Keeps.keepArm x ?_; rename' x => y)
    | (extract_lets +onlyGivenNames x; refine Keeps.keepMeter x ?_; rename' x => y)
    | (extract_lets +onlyGivenNames x; clear_value x; rename' x => y)
    | split | with_reducible refine Keeps.light ?_ rfl rfl rfl rfl

theorem keeps_freshPos (h : Keeps F s t) :
    ∀ x0 x1, (hF : [SField.tiles, .tiles2, .banks] ⊆ F := by assumption) →
    Keeps F s (freshPos x0 x1 t) := by
  intro x0 x1 hF
  have b_tiles : SField.tiles ∈ F := hF (by decide)
  have b_tiles2 : SField.tiles2 ∈ F := hF (by decide)
  have b_banks : SField.banks ∈ F := hF (by decide)
  unfold freshPos
  repeat'
    first
    | with_reducible assumption | with_reducible apply Keeps.setTile | with_reducible apply Keeps.modTile2
    | with_reducible apply Keeps.modBank | with_reducible (refine Keeps.forAll ?_ _ _ fun _ _ _ => ?_)
    | (extract_lets +onlyGivenNames x
       refine Keeps.cut (u := x) ?_ fun hx => ?_
       (on_goal 1 => unfold x)
       (on_goal 2 => (clear_value x; rename' x => y)))
    | (extract_lets +onlyGivenNames x; refine Keeps.keepEnv x ?_; rename' x => y)
    | (extract_lets +onlyGivenNames x; refine Keeps.keepSec x ?_; rename' x => y)
    | (extract_lets +onlyGivenNames x; refine Keeps.keepArm x ?_; rename' x => y)
    | (extract_lets +onlyGivenNames x; refine Keeps.keepMeter x ?_; rename' x => y)
    | (extract_lets +onlyGivenNames x; clear_value x; rename' x => y)
    | split

theorem keeps_wakePos (h : Keeps F s t) :
    ∀ x0 x1, (hF : [SField.slabs, .slabs2, .tiles, .tiles2, .banks, .bankMem] ⊆ F := by assumption) →
    Keeps F s (wakePos x0 x1 t) := by
  intro x0 x1 hF
  have b_slabs : SField.slabs ∈ F := hF (by decide)
  have b_slabs2 : SField.slabs2 ∈ F := hF (by decide)
  have f_freshPos : [SField.tiles, .tiles2, .banks] ⊆ F := List.Subset.trans (by decide) hF
  have f_clearPos : [SField.tiles2, .banks, .bankMem] ⊆ F := List.Subset.trans (by decide) hF
  have f_setClearing : [SField.banks] ⊆ F := List.Subset.trans (by decide) hF
  have f_fillSlots : [SField.tiles2] ⊆ F := List.Subset.trans (by decide) hF
  unfold wakePos
  repeat'
    first
    | with_reducible assumption | with_reducible apply keeps_freshPos | with_reducible apply keeps_clearPos
    | with_reducible apply keeps_setClearing | with_reducible apply keeps_fillSlots
    | with_reducible apply Keeps.modSlab | with_reducible apply Keeps.modSlab2
    | with_reducible (refine Keeps.forAll ?_ _ _ fun _ _ _ => ?_)
    | (extract_lets +onlyGivenNames x
       refine Keeps.cut (u := x) ?_ fun hx => ?_
       (on_goal 1 => unfold x)
       (on_goal 2 => (clear_value x; rename' x => y)))
    | (extract_lets +onlyGivenNames x; refine Keeps.keepEnv x ?_; rename' x => y)
    | (extract_lets +onlyGivenNames x; refine Keeps.keepSec x ?_; rename' x => y)
    | (extract_lets +onlyGivenNames x; refine Keeps.keepArm x ?_; rename' x => y)
    | (extract_lets +onlyGivenNames x; refine Keeps.keepMeter x ?_; rename' x => y)
    | (extract_lets +onlyGivenNames x; clear_value x; rename' x => y)
    | split

theorem keeps_reloadWeights (h : Keeps F s t) :
    ∀ x0 x1, (hF : [SField.bankMem] ⊆ F := by assumption) →
    Keeps F s (reloadWeights x0 x1 t) := by
  intro x0 x1 hF
  have f_loadWeightsAt : [SField.bankMem] ⊆ F := List.Subset.trans (by decide) hF
  unfold reloadWeights
  repeat'
    first
    | with_reducible assumption | with_reducible apply keeps_loadWeightsAt
    | with_reducible (refine Keeps.forAll ?_ _ _ fun _ _ _ => ?_)
    | split

theorem keeps_spareServes (h : Keeps F s t) :
    ∀ x0 x1 x2 x3, (hF : [SField.env, .hostMem, .pcie, .arm, .slabs, .slabs2, .ports, .tiles, .tiles2, .banks, .ctxs,
        .funcs, .bankMem] ⊆ F := by assumption) →
    Keeps F s (spareServes x0 x1 x2 x3 t) := by
  intro sp pos old pl hF
  have b_slabs : SField.slabs ∈ F := hF (by decide)
  have b_slabs2 : SField.slabs2 ∈ F := hF (by decide)
  have f_freshPos : [SField.tiles, .tiles2, .banks] ⊆ F := List.Subset.trans (by decide) hF
  have f_wakePos : [SField.slabs, .slabs2, .tiles, .tiles2, .banks, .bankMem] ⊆ F := List.Subset.trans (by decide) hF
  have f_applyWords : [SField.env, .hostMem, .pcie, .slabs, .slabs2, .ports, .tiles, .ctxs, .funcs] ⊆ F :=
      List.Subset.trans (by decide) hF
  have f_logFact : [SField.arm] ⊆ F := List.Subset.trans (by decide) hF
  have f_reloadWeights : [SField.bankMem] ⊆ F := List.Subset.trans (by decide) hF
  have f_replace : [SField.env, .hostMem, .pcie, .arm, .funcs] ⊆ F := List.Subset.trans (by decide) hF
  unfold spareServes
  extract_lets ov s1 s2 s3 s4 v s5 s6 s7
  have h3 : Keeps F s s3 := keeps_applyWords ((keeps_logFact h _ _ _ _ _).modSlab _ _) _ _
  clear_value s3
  have h6 : Keeps F s s6 := ((keeps_freshPos h3 _ _).modSlab _ _).modSlab2 _ _
  clear_value s6
  have h7 : Keeps F s s7 := by
    unfold s7
    split
    · split
      · exact keeps_reloadWeights h6 _ _
      · exact h6
    · exact keeps_wakePos h3 _ _
  clear_value s7
  split
  · exact keeps_replace h7 _ _
  · exact h7

theorem keeps_unplace (h : Keeps F s t) :
    ∀ x0, (hF : [SField.env, .hostMem, .pcie, .tiles, .banks, .ctxs, .funcs, .hbm] ⊆ F := by assumption) →
    Keeps F s (unplace x0 t) := by
  intro x0 hF
  have b_ctxs : SField.ctxs ∈ F := hF (by decide)
  have f_swapOut : [SField.banks, .ctxs, .hbm] ⊆ F := List.Subset.trans (by decide) hF
  have f_releaseAll : [SField.banks] ⊆ F := List.Subset.trans (by decide) hF
  have f_ctxEvent : [SField.env, .hostMem, .pcie, .ctxs, .funcs] ⊆ F := List.Subset.trans (by decide) hF
  have f_settle : [SField.env, .ctxs] ⊆ F := List.Subset.trans (by decide) hF
  have f_finish : [SField.tiles, .ctxs] ⊆ F := List.Subset.trans (by decide) hF
  unfold unplace
  repeat'
    first
    | with_reducible assumption | with_reducible apply keeps_swapOut | with_reducible apply keeps_releaseAll
    | with_reducible apply keeps_ctxEvent | with_reducible apply Keeps.modCtx | with_reducible apply keeps_settle
    | with_reducible (refine Keeps.forAll ?_ _ _ fun _ _ _ => ?_) | with_reducible apply keeps_finish
    | (extract_lets +onlyGivenNames x
       refine Keeps.cut (u := x) ?_ fun hx => ?_
       (on_goal 1 => unfold x)
       (on_goal 2 => (clear_value x; rename' x => y)))
    | (extract_lets +onlyGivenNames x; refine Keeps.keepEnv x ?_; rename' x => y)
    | (extract_lets +onlyGivenNames x; refine Keeps.keepSec x ?_; rename' x => y)
    | (extract_lets +onlyGivenNames x; refine Keeps.keepArm x ?_; rename' x => y)
    | (extract_lets +onlyGivenNames x; refine Keeps.keepMeter x ?_; rename' x => y)
    | (extract_lets +onlyGivenNames x; clear_value x; rename' x => y)
    | split | with_reducible refine Keeps.light ?_ rfl rfl rfl rfl

theorem keeps_positionLost (h : Keeps F s t) :
    ∀ x0 x1 x2, (hF : [SField.env, .hostMem, .pcie, .arm, .tiles, .tiles2, .banks, .ctxs, .funcs, .bankMem, .hbm] ⊆ F
        := by assumption) →
    Keeps F s (positionLost x0 x1 x2 t) := by
  intro x0 x1 x2 hF
  have f_replace : [SField.env, .hostMem, .pcie, .arm, .funcs] ⊆ F := List.Subset.trans (by decide) hF
  have f_clearPos : [SField.tiles2, .banks, .bankMem] ⊆ F := List.Subset.trans (by decide) hF
  have f_unplace : [SField.env, .hostMem, .pcie, .tiles, .banks, .ctxs, .funcs, .hbm] ⊆ F := List.Subset.trans (by
      decide) hF
  unfold positionLost
  repeat'
    first
    | with_reducible assumption | with_reducible apply keeps_replace | with_reducible apply keeps_clearPos
    | with_reducible (refine Keeps.forAll ?_ _ _ fun _ _ _ => ?_) | with_reducible apply keeps_unplace
    | (extract_lets +onlyGivenNames x
       refine Keeps.cut (u := x) ?_ fun hx => ?_
       (on_goal 1 => unfold x)
       (on_goal 2 => (clear_value x; rename' x => y)))
    | (extract_lets +onlyGivenNames x; refine Keeps.keepEnv x ?_; rename' x => y)
    | (extract_lets +onlyGivenNames x; refine Keeps.keepSec x ?_; rename' x => y)
    | (extract_lets +onlyGivenNames x; refine Keeps.keepArm x ?_; rename' x => y)
    | (extract_lets +onlyGivenNames x; refine Keeps.keepMeter x ?_; rename' x => y)
    | (extract_lets +onlyGivenNames x; clear_value x; rename' x => y)
    | split | with_reducible refine Keeps.light ?_ rfl rfl rfl rfl

theorem keeps_leavePosition (h : Keeps F s t) :
    ∀ x0 x1 x2, (hF : [SField.env, .hostMem, .pcie, .arm, .slabs, .slabs2, .ports, .tiles, .tiles2, .banks, .ctxs,
        .funcs, .bankMem, .hbm] ⊆ F := by assumption) →
    Keeps F s (leavePosition x0 x1 x2 t) := by
  intro x0 x1 x2 hF
  have b_slabs : SField.slabs ∈ F := hF (by decide)
  have b_slabs2 : SField.slabs2 ∈ F := hF (by decide)
  have f_spareServes : [SField.env, .hostMem, .pcie, .arm, .slabs, .slabs2, .ports, .tiles, .tiles2, .banks, .ctxs,
      .funcs, .bankMem] ⊆ F := List.Subset.trans (by decide) hF
  have f_positionLost : [SField.env, .hostMem, .pcie, .arm, .tiles, .tiles2, .banks, .ctxs, .funcs, .bankMem, .hbm] ⊆
      F := List.Subset.trans (by decide) hF
  unfold leavePosition
  repeat'
    first
    | with_reducible assumption | with_reducible apply keeps_spareServes | with_reducible apply keeps_positionLost
    | with_reducible apply Keeps.modSlab | with_reducible apply Keeps.modSlab2
    | (extract_lets +onlyGivenNames x
       refine Keeps.cut (u := x) ?_ fun hx => ?_
       (on_goal 1 => unfold x)
       (on_goal 2 => (clear_value x; rename' x => y)))
    | (extract_lets +onlyGivenNames x; refine Keeps.keepEnv x ?_; rename' x => y)
    | (extract_lets +onlyGivenNames x; refine Keeps.keepSec x ?_; rename' x => y)
    | (extract_lets +onlyGivenNames x; refine Keeps.keepArm x ?_; rename' x => y)
    | (extract_lets +onlyGivenNames x; refine Keeps.keepMeter x ?_; rename' x => y)
    | (extract_lets +onlyGivenNames x; clear_value x; rename' x => y)
    | split

theorem keeps_dropSlabStops (h : Keeps F s t) :
    ∀ x0 x1 x2, (hF : [SField.parts2] ⊆ F := by assumption) →
    Keeps F s (dropSlabStops x0 x1 x2 t) := by
  intro x0 x1 x2 hF
  have f_dropStop : [SField.parts2] ⊆ F := List.Subset.trans (by decide) hF
  unfold dropSlabStops
  repeat'
    first
    | with_reducible assumption | with_reducible (refine Keeps.forAll ?_ _ _ fun _ _ _ => ?_)
    | with_reducible apply keeps_dropStop
    | (extract_lets +onlyGivenNames x
       refine Keeps.cut (u := x) ?_ fun hx => ?_
       (on_goal 1 => unfold x)
       (on_goal 2 => (clear_value x; rename' x => y)))
    | (extract_lets +onlyGivenNames x; refine Keeps.keepEnv x ?_; rename' x => y)
    | (extract_lets +onlyGivenNames x; refine Keeps.keepSec x ?_; rename' x => y)
    | (extract_lets +onlyGivenNames x; refine Keeps.keepArm x ?_; rename' x => y)
    | (extract_lets +onlyGivenNames x; refine Keeps.keepMeter x ?_; rename' x => y)
    | (extract_lets +onlyGivenNames x; clear_value x; rename' x => y)
    | split | with_reducible refine Keeps.light ?_ rfl rfl rfl rfl

theorem keeps_coreRetire (h : Keeps F s t) :
    ∀ x0 x1 x2, (hF : [SField.env, .hostMem, .pcie, .arm, .slabs, .slabs2, .ports, .ports2, .tiles, .tiles2, .banks,
        .parts2, .ctxs, .funcs, .bankMem, .hbm] ⊆ F := by assumption) →
    Keeps F s (coreRetire x0 x1 x2 t) := by
  intro x0 x1 x2 hF
  have f_dropSlabStops : [SField.parts2] ⊆ F := List.Subset.trans (by decide) hF
  have f_partitionFault : [SField.env, .hostMem, .pcie, .slabs2, .ports, .ports2, .tiles, .banks, .parts2, .ctxs,
      .funcs, .hbm] ⊆ F := List.Subset.trans (by decide) hF
  have f_leavePosition : [SField.env, .hostMem, .pcie, .arm, .slabs, .slabs2, .ports, .tiles, .tiles2, .banks, .ctxs,
      .funcs, .bankMem, .hbm] ⊆ F := List.Subset.trans (by decide) hF
  have f_bankEvent : [SField.env, .hostMem, .pcie, .slabs2, .funcs] ⊆ F := List.Subset.trans (by decide) hF
  have f_logFact : [SField.arm] ⊆ F := List.Subset.trans (by decide) hF
  have f_resetCore : [SField.env, .hostMem, .pcie, .slabs2, .tiles2, .ctxs, .funcs, .bankMem] ⊆ F :=
      List.Subset.trans (by decide) hF
  revert x0 x1 x2
  intro n pl r
  unfold coreRetire
  split
  · extract_lets pos p s1 s2 s3
    clear_value p
    have h1 : Keeps F s s1 := by
      unfold s1
      cases p with
      | none => exact h
      | some i =>
        refine keeps_dropSlabStops ?_ _ _ _
        split
        · exact h
        · exact keeps_partitionFault h _ _ _
    clear_value s1
    exact keeps_leavePosition (keeps_bankEvent (keeps_logFact (keeps_resetCore h1 _ _ _) _ _ _ _ _) _ _) _ _ _
  · exact h

theorem keeps_loseStack (h : Keeps F s t) :
    ∀ x0 x1, (hF : [SField.env, .hostMem, .pkg, .pcie, .arm, .slabs2, .parts2, .funcs] ⊆ F := by assumption) →
    Keeps F s (loseStack x0 x1 t) := by
  intro x0 x1 hF
  have b_pkg : SField.pkg ∈ F := hF (by decide)
  have b_slabs2 : SField.slabs2 ∈ F := hF (by decide)
  have f_addStop : [SField.parts2] ⊆ F := List.Subset.trans (by decide) hF
  have f_replace : [SField.env, .hostMem, .pcie, .arm, .funcs] ⊆ F := List.Subset.trans (by decide) hF
  unfold loseStack
  repeat'
    first
    | with_reducible assumption | with_reducible apply Keeps.modSlab2
    | with_reducible (refine Keeps.forAll ?_ _ _ fun _ _ _ => ?_) | with_reducible apply keeps_addStop
    | with_reducible apply keeps_replace
    | (extract_lets +onlyGivenNames x
       refine Keeps.cut (u := x) ?_ fun hx => ?_
       (on_goal 1 => unfold x)
       (on_goal 2 => (clear_value x; rename' x => y)))
    | (extract_lets +onlyGivenNames x; refine Keeps.keepEnv x ?_; rename' x => y)
    | (extract_lets +onlyGivenNames x; refine Keeps.keepSec x ?_; rename' x => y)
    | (extract_lets +onlyGivenNames x; refine Keeps.keepArm x ?_; rename' x => y)
    | (extract_lets +onlyGivenNames x; refine Keeps.keepMeter x ?_; rename' x => y)
    | (extract_lets +onlyGivenNames x; clear_value x; rename' x => y)
    | split | with_reducible refine Keeps.light ?_ rfl rfl rfl rfl

theorem keeps_losePort (h : Keeps F s t) :
    ∀ x0 x1, (hF : [SField.env, .hostMem, .pcie, .arm, .ports, .tiles, .ctxs, .funcs] ⊆ F := by assumption) →
    Keeps F s (losePort x0 x1 t) := by
  intro x0 x1 hF
  have f_replace : [SField.env, .hostMem, .pcie, .arm, .funcs] ⊆ F := List.Subset.trans (by decide) hF
  have f_portEnable : [SField.env, .hostMem, .pcie, .ports, .tiles, .ctxs, .funcs] ⊆ F := List.Subset.trans (by
      decide) hF
  unfold losePort
  repeat'
    first
    | with_reducible assumption | with_reducible apply keeps_replace | with_reducible apply keeps_portEnable
    | (extract_lets +onlyGivenNames x
       refine Keeps.cut (u := x) ?_ fun hx => ?_
       (on_goal 1 => unfold x)
       (on_goal 2 => (clear_value x; rename' x => y)))
    | (extract_lets +onlyGivenNames x; refine Keeps.keepEnv x ?_; rename' x => y)
    | (extract_lets +onlyGivenNames x; refine Keeps.keepSec x ?_; rename' x => y)
    | (extract_lets +onlyGivenNames x; refine Keeps.keepArm x ?_; rename' x => y)
    | (extract_lets +onlyGivenNames x; refine Keeps.keepMeter x ?_; rename' x => y)
    | (extract_lets +onlyGivenNames x; clear_value x; rename' x => y)
    | split | with_reducible refine Keeps.light ?_ rfl rfl rfl rfl

theorem keeps_loseAnchor (h : Keeps F s t) :
    ∀ x0, (hF : [SField.env, .hostMem, .pcie, .sec, .arm, .funcs] ⊆ F := by assumption) →
    Keeps F s (loseAnchor x0 t) := by
  intro x0 hF
  have b_sec : SField.sec ∈ F := hF (by decide)
  have f_secEvent : [SField.env, .hostMem, .pcie, .sec, .funcs] ⊆ F := List.Subset.trans (by decide) hF
  have f_replace : [SField.env, .hostMem, .pcie, .arm, .funcs] ⊆ F := List.Subset.trans (by decide) hF
  revert x0
  intro n
  unfold loseAnchor
  extract_lets a s1 b s2
  have h1 : Keeps F s s1 := by with_reducible exact h.light rfl rfl rfl rfl
  have h2 : Keeps F s s2 := by
    unfold s2
    split
    · refine keeps_secEvent ?_ _
      with_reducible exact h1.light rfl rfl rfl rfl
    · exact h1
  clear_value s2
  split
  · exact keeps_replace h2 _ _
  · exact h2

theorem keeps_losePcie (h : Keeps F s t) :
    ∀ x0, (hF : [SField.env, .hostMem, .pcie, .arm, .meter, .meter2, .ctxs, .funcs] ⊆ F := by assumption) →
    Keeps F s (losePcie x0 t) := by
  intro x0 hF
  have f_activeFails : [SField.env, .hostMem, .pcie, .arm, .meter, .meter2, .ctxs, .funcs] ⊆ F := List.Subset.trans
      (by decide) hF
  have f_standbyFails : [SField.env, .hostMem, .pcie, .arm, .funcs] ⊆ F := List.Subset.trans (by decide) hF
  unfold losePcie
  repeat'
    first
    | with_reducible assumption | with_reducible apply keeps_activeFails | with_reducible apply keeps_standbyFails
    | (extract_lets +onlyGivenNames x
       refine Keeps.cut (u := x) ?_ fun hx => ?_
       (on_goal 1 => unfold x)
       (on_goal 2 => (clear_value x; rename' x => y)))
    | (extract_lets +onlyGivenNames x; refine Keeps.keepEnv x ?_; rename' x => y)
    | (extract_lets +onlyGivenNames x; refine Keeps.keepSec x ?_; rename' x => y)
    | (extract_lets +onlyGivenNames x; refine Keeps.keepArm x ?_; rename' x => y)
    | (extract_lets +onlyGivenNames x; refine Keeps.keepMeter x ?_; rename' x => y)
    | (extract_lets +onlyGivenNames x; clear_value x; rename' x => y)
    | split | with_reducible refine Keeps.light ?_ rfl rfl rfl rfl

theorem keeps_loseEdge (h : Keeps F s t) :
    ∀ x0, (hF : [SField.env, .hostMem, .pkg, .pcie, .sec, .arm, .meter, .meter2, .slabs2, .ports, .tiles, .parts2,
        .ctxs, .funcs] ⊆ F := by assumption) →
    Keeps F s (loseEdge x0 t) := by
  intro x0 hF
  have f_loseStack : [SField.env, .hostMem, .pkg, .pcie, .arm, .slabs2, .parts2, .funcs] ⊆ F := List.Subset.trans
      (by decide) hF
  have f_losePort : [SField.env, .hostMem, .pcie, .arm, .ports, .tiles, .ctxs, .funcs] ⊆ F := List.Subset.trans (by
      decide) hF
  have f_losePcie : [SField.env, .hostMem, .pcie, .arm, .meter, .meter2, .ctxs, .funcs] ⊆ F := List.Subset.trans (by
      decide) hF
  have f_loseAnchor : [SField.env, .hostMem, .pcie, .sec, .arm, .funcs] ⊆ F := List.Subset.trans (by decide) hF
  unfold loseEdge
  repeat'
    first
    | with_reducible assumption | with_reducible apply keeps_loseStack | with_reducible apply keeps_losePort
    | with_reducible apply keeps_losePcie | with_reducible apply keeps_loseAnchor
    | (extract_lets +onlyGivenNames x
       refine Keeps.cut (u := x) ?_ fun hx => ?_
       (on_goal 1 => unfold x)
       (on_goal 2 => (clear_value x; rename' x => y)))
    | (extract_lets +onlyGivenNames x; refine Keeps.keepEnv x ?_; rename' x => y)
    | (extract_lets +onlyGivenNames x; refine Keeps.keepSec x ?_; rename' x => y)
    | (extract_lets +onlyGivenNames x; refine Keeps.keepArm x ?_; rename' x => y)
    | (extract_lets +onlyGivenNames x; refine Keeps.keepMeter x ?_; rename' x => y)
    | (extract_lets +onlyGivenNames x; clear_value x; rename' x => y)
    | split | with_reducible refine Keeps.light ?_ rfl rfl rfl rfl

theorem keeps_powerOn (h : Keeps F s t) :
    ∀ x0, (hF : [SField.pkc, .pkc2, .slabs, .slabs2, .tiles, .tiles2, .banks, .bankMem] ⊆ F := by assumption) →
    Keeps F s (powerOn x0 t) := by
  intro x0 hF
  have b_pkc : SField.pkc ∈ F := hF (by decide)
  have b_pkc2 : SField.pkc2 ∈ F := hF (by decide)
  have b_slabs : SField.slabs ∈ F := hF (by decide)
  have f_wakePos : [SField.slabs, .slabs2, .tiles, .tiles2, .banks, .bankMem] ⊆ F := List.Subset.trans (by decide) hF
  unfold powerOn
  repeat'
    first
    | with_reducible assumption | with_reducible apply keeps_wakePos | with_reducible apply Keeps.modSlab
    | (extract_lets +onlyGivenNames x
       refine Keeps.cut (u := x) ?_ fun hx => ?_
       (on_goal 1 => unfold x)
       (on_goal 2 => (clear_value x; rename' x => y)))
    | (extract_lets +onlyGivenNames x; refine Keeps.keepEnv x ?_; rename' x => y)
    | (extract_lets +onlyGivenNames x; refine Keeps.keepSec x ?_; rename' x => y)
    | (extract_lets +onlyGivenNames x; refine Keeps.keepArm x ?_; rename' x => y)
    | (extract_lets +onlyGivenNames x; refine Keeps.keepMeter x ?_; rename' x => y)
    | (extract_lets +onlyGivenNames x; clear_value x; rename' x => y)
    | split | with_reducible refine Keeps.light ?_ rfl rfl rfl rfl

theorem keeps_unroutable (h : Keeps F s t) :
    ∀ x0, (hF : [SField.env, .hostMem, .pkg, .pcie, .arm, .slabs2, .ports, .ports2, .tiles, .banks, .parts2, .ctxs,
        .funcs, .hbm] ⊆ F := by assumption) →
    Keeps F s (unroutable x0 t) := by
  intro x0 hF
  have b_pkg : SField.pkg ∈ F := hF (by decide)
  have b_ctxs : SField.ctxs ∈ F := hF (by decide)
  have f_replace : [SField.env, .hostMem, .pcie, .arm, .funcs] ⊆ F := List.Subset.trans (by decide) hF
  have f_loseCtx : [SField.env, .hostMem, .pcie, .slabs2, .ports, .ports2, .tiles, .banks, .parts2, .ctxs, .funcs,
      .hbm] ⊆ F := List.Subset.trans (by decide) hF
  unfold unroutable
  repeat'
    first
    | with_reducible assumption | with_reducible apply keeps_replace | with_reducible apply keeps_loseCtx
    | with_reducible apply Keeps.modCtx | with_reducible (refine Keeps.forAll ?_ _ _ fun _ _ _ => ?_)
    | (extract_lets +onlyGivenNames x
       refine Keeps.cut (u := x) ?_ fun hx => ?_
       (on_goal 1 => unfold x)
       (on_goal 2 => (clear_value x; rename' x => y)))
    | (extract_lets +onlyGivenNames x; refine Keeps.keepEnv x ?_; rename' x => y)
    | (extract_lets +onlyGivenNames x; refine Keeps.keepSec x ?_; rename' x => y)
    | (extract_lets +onlyGivenNames x; refine Keeps.keepArm x ?_; rename' x => y)
    | (extract_lets +onlyGivenNames x; refine Keeps.keepMeter x ?_; rename' x => y)
    | (extract_lets +onlyGivenNames x; clear_value x; rename' x => y)
    | split | with_reducible refine Keeps.light ?_ rfl rfl rfl rfl

theorem keeps_detour (h : Keeps F s t) :
    ∀ x0, (hF : [SField.env, .hostMem, .pcie, .slabs2, .funcs] ⊆ F := by assumption) →
    Keeps F s (detour x0 t) := by
  intro x0 hF
  have f_fabEvent : [SField.env, .hostMem, .pcie, .slabs2, .funcs] ⊆ F := List.Subset.trans (by decide) hF
  unfold detour
  repeat'
    first
    | with_reducible assumption | with_reducible (refine Keeps.forAll ?_ _ _ fun _ _ _ => ?_)
    | with_reducible apply keeps_fabEvent
    | (extract_lets +onlyGivenNames x
       refine Keeps.cut (u := x) ?_ fun hx => ?_
       (on_goal 1 => unfold x)
       (on_goal 2 => (clear_value x; rename' x => y)))
    | (extract_lets +onlyGivenNames x; refine Keeps.keepEnv x ?_; rename' x => y)
    | (extract_lets +onlyGivenNames x; refine Keeps.keepSec x ?_; rename' x => y)
    | (extract_lets +onlyGivenNames x; refine Keeps.keepArm x ?_; rename' x => y)
    | (extract_lets +onlyGivenNames x; refine Keeps.keepMeter x ?_; rename' x => y)
    | (extract_lets +onlyGivenNames x; clear_value x; rename' x => y)
    | split | with_reducible refine Keeps.light ?_ rfl rfl rfl rfl

theorem keeps_fullRetire (h : Keeps F s t) :
    ∀ x0 x1 x2, (hF : [SField.env, .hostMem, .pkg, .pcie, .sec, .arm, .meter, .meter2, .slabs, .slabs2, .ports,
        .ports2, .tiles, .tiles2, .banks, .parts2, .ctxs, .funcs, .bankMem, .hbm] ⊆ F := by assumption) →
    Keeps F s (fullRetire x0 x1 x2 t) := by
  intro x0 x1 x2 hF
  have b_pkg : SField.pkg ∈ F := hF (by decide)
  have b_slabs : SField.slabs ∈ F := hF (by decide)
  have f_dropSlabStops : [SField.parts2] ⊆ F := List.Subset.trans (by decide) hF
  have f_partitionFault : [SField.env, .hostMem, .pcie, .slabs2, .ports, .ports2, .tiles, .banks, .parts2, .ctxs,
      .funcs, .hbm] ⊆ F := List.Subset.trans (by decide) hF
  have f_resetCore : [SField.env, .hostMem, .pcie, .slabs2, .tiles2, .ctxs, .funcs, .bankMem] ⊆ F :=
      List.Subset.trans (by decide) hF
  have f_bankEvent : [SField.env, .hostMem, .pcie, .slabs2, .funcs] ⊆ F := List.Subset.trans (by decide) hF
  have f_logFact : [SField.arm] ⊆ F := List.Subset.trans (by decide) hF
  have f_detour : [SField.env, .hostMem, .pcie, .slabs2, .funcs] ⊆ F := List.Subset.trans (by decide) hF
  have f_leavePosition : [SField.env, .hostMem, .pcie, .arm, .slabs, .slabs2, .ports, .tiles, .tiles2, .banks, .ctxs,
      .funcs, .bankMem, .hbm] ⊆ F := List.Subset.trans (by decide) hF
  have f_dropFabric : [SField.slabs2] ⊆ F := List.Subset.trans (by decide) hF
  have f_loseEdge : [SField.env, .hostMem, .pkg, .pcie, .sec, .arm, .meter, .meter2, .slabs2, .ports, .tiles,
      .parts2, .ctxs, .funcs] ⊆ F := List.Subset.trans (by decide) hF
  have f_unroutable : [SField.env, .hostMem, .pkg, .pcie, .arm, .slabs2, .ports, .ports2, .tiles, .banks, .parts2,
      .ctxs, .funcs, .hbm] ⊆ F := List.Subset.trans (by decide) hF
  revert x0 x1 x2
  intro n pl r
  unfold fullRetire
  split
  · exact h
  · extract_lets serving pos p first s1 s2 s3 pk s4 s5 s6
    clear_value p
    have h1 : Keeps F s s1 := by
      unfold s1
      cases p with
      | none => exact h
      | some i =>
        refine keeps_dropSlabStops ?_ _ _ _
        split
        · exact h
        · exact keeps_partitionFault h _ _ _
    clear_value s1
    have h2 : Keeps F s s2 := by
      unfold s2
      split
      · exact keeps_resetCore h1 _ _ _
      · exact h1
    clear_value s2
    have h3 : Keeps F s s3 := keeps_bankEvent (keeps_logFact h2 _ _ _ _ _) _ _
    clear_value s3
    have h4 : Keeps F s s4 := by
      unfold s4
      split
      · exact keeps_detour (h3.light rfl rfl rfl rfl) _
      · exact h3
    clear_value s4
    have h5 : Keeps F s s5 := by
      unfold s5
      split
      · exact keeps_leavePosition h4 _ _ _
      · exact h4.modSlab _ _
    clear_value s5
    have h6 : Keeps F s s6 := keeps_loseEdge (keeps_dropFabric h5 _) _
    clear_value s6
    split
    · exact h6
    · exact keeps_unroutable h6 _

theorem keeps_moveSite (h : Keeps F s t) :
    ∀ x0 x1 x2 x3, (hF : [SField.env, .hostMem, .pcie, .arm, .slabs, .slabs2, .tiles, .tiles2, .banks, .funcs] ⊆ F :=
        by assumption) →
    Keeps F s (moveSite x0 x1 x2 x3 t) := by
  intro x0 x1 x2 x3 hF
  have b_slabs : SField.slabs ∈ F := hF (by decide)
  have b_tiles : SField.tiles ∈ F := hF (by decide)
  have b_tiles2 : SField.tiles2 ∈ F := hF (by decide)
  have f_logFact : [SField.arm] ⊆ F := List.Subset.trans (by decide) hF
  have f_freshTile : [SField.banks] ⊆ F := List.Subset.trans (by decide) hF
  have f_bankEvent : [SField.env, .hostMem, .pcie, .slabs2, .funcs] ⊆ F := List.Subset.trans (by decide) hF
  unfold moveSite
  repeat'
    first
    | with_reducible assumption | with_reducible apply keeps_logFact | with_reducible apply Keeps.modTile2
    | with_reducible apply Keeps.setTile | with_reducible apply keeps_freshTile | with_reducible apply keeps_bankEvent
    | with_reducible apply Keeps.modSlab
    | (extract_lets +onlyGivenNames x
       refine Keeps.cut (u := x) ?_ fun hx => ?_
       (on_goal 1 => unfold x)
       (on_goal 2 => (clear_value x; rename' x => y)))
    | (extract_lets +onlyGivenNames x; refine Keeps.keepEnv x ?_; rename' x => y)
    | (extract_lets +onlyGivenNames x; refine Keeps.keepSec x ?_; rename' x => y)
    | (extract_lets +onlyGivenNames x; refine Keeps.keepArm x ?_; rename' x => y)
    | (extract_lets +onlyGivenNames x; refine Keeps.keepMeter x ?_; rename' x => y)
    | (extract_lets +onlyGivenNames x; clear_value x; rename' x => y)
    | split | with_reducible refine Keeps.light ?_ rfl rfl rfl rfl

theorem keeps_unplannedTile (h : Keeps F s t) :
    ∀ x0 x1, (hF : [SField.env, .hostMem, .pcie, .arm, .slabs, .slabs2, .ports, .ports2, .tiles, .tiles2, .banks,
        .parts2, .ctxs, .funcs, .bankMem, .hbm] ⊆ F := by assumption) →
    Keeps F s (unplannedTile x0 x1 t) := by
  intro x0 x1 hF
  have b_slabs2 : SField.slabs2 ∈ F := hF (by decide)
  have b_tiles2 : SField.tiles2 ∈ F := hF (by decide)
  have f_dropStop : [SField.parts2] ⊆ F := List.Subset.trans (by decide) hF
  have f_partitionFault : [SField.env, .hostMem, .pcie, .slabs2, .ports, .ports2, .tiles, .banks, .parts2, .ctxs,
      .funcs, .hbm] ⊆ F := List.Subset.trans (by decide) hF
  have f_fillSlots : [SField.tiles2] ⊆ F := List.Subset.trans (by decide) hF
  have f_clearTile : [SField.tiles2, .banks, .bankMem] ⊆ F := List.Subset.trans (by decide) hF
  have f_moveSite : [SField.env, .hostMem, .pcie, .arm, .slabs, .slabs2, .tiles, .tiles2, .banks, .funcs] ⊆ F :=
      List.Subset.trans (by decide) hF
  have f_setClearing : [SField.banks] ⊆ F := List.Subset.trans (by decide) hF
  have f_coreRetire : [SField.env, .hostMem, .pcie, .arm, .slabs, .slabs2, .ports, .ports2, .tiles, .tiles2, .banks,
      .parts2, .ctxs, .funcs, .bankMem, .hbm] ⊆ F := List.Subset.trans (by decide) hF
  unfold unplannedTile
  repeat'
    first
    | with_reducible assumption | with_reducible apply keeps_dropStop | with_reducible apply keeps_partitionFault
    | with_reducible apply keeps_fillSlots | with_reducible apply keeps_clearTile
    | with_reducible apply keeps_moveSite | with_reducible apply keeps_setClearing
    | with_reducible apply keeps_coreRetire | with_reducible apply Keeps.modSlab2
    | with_reducible apply Keeps.modTile2
    | (extract_lets +onlyGivenNames x
       refine Keeps.cut (u := x) ?_ fun hx => ?_
       (on_goal 1 => unfold x)
       (on_goal 2 => (clear_value x; rename' x => y)))
    | (extract_lets +onlyGivenNames x; refine Keeps.keepEnv x ?_; rename' x => y)
    | (extract_lets +onlyGivenNames x; refine Keeps.keepSec x ?_; rename' x => y)
    | (extract_lets +onlyGivenNames x; refine Keeps.keepArm x ?_; rename' x => y)
    | (extract_lets +onlyGivenNames x; refine Keeps.keepMeter x ?_; rename' x => y)
    | (extract_lets +onlyGivenNames x; clear_value x; rename' x => y)
    | split

theorem keeps_bankUe (h : Keeps F s t) :
    ∀ x0, (hF : [SField.env, .hostMem, .pcie, .arm, .slabs, .slabs2, .ports, .ports2, .tiles, .tiles2, .banks,
        .parts2, .ctxs, .funcs, .bankMem, .hbm] ⊆ F := by assumption) →
    Keeps F s (bankUe x0 t) := by
  intro x0 hF
  have f_unplannedTile : [SField.env, .hostMem, .pcie, .arm, .slabs, .slabs2, .ports, .ports2, .tiles, .tiles2,
      .banks, .parts2, .ctxs, .funcs, .bankMem, .hbm] ⊆ F := List.Subset.trans (by decide) hF
  have f_bankEvent : [SField.env, .hostMem, .pcie, .slabs2, .funcs] ⊆ F := List.Subset.trans (by decide) hF
  unfold bankUe
  repeat'
    first
    | with_reducible assumption | with_reducible apply keeps_unplannedTile | with_reducible apply keeps_bankEvent
    | (extract_lets +onlyGivenNames x
       refine Keeps.cut (u := x) ?_ fun hx => ?_
       (on_goal 1 => unfold x)
       (on_goal 2 => (clear_value x; rename' x => y)))
    | (extract_lets +onlyGivenNames x; refine Keeps.keepEnv x ?_; rename' x => y)
    | (extract_lets +onlyGivenNames x; refine Keeps.keepSec x ?_; rename' x => y)
    | (extract_lets +onlyGivenNames x; refine Keeps.keepArm x ?_; rename' x => y)
    | (extract_lets +onlyGivenNames x; refine Keeps.keepMeter x ?_; rename' x => y)
    | (extract_lets +onlyGivenNames x; clear_value x; rename' x => y)
    | split | with_reducible refine Keeps.light ?_ rfl rfl rfl rfl

theorem keeps_bankCorrected (h : Keeps F s t) :
    ∀ x0 x1 x2, (hF : [SField.tiles2, .banks] ⊆ F := by assumption) →
    Keeps F s (bankCorrected x0 x1 x2 t) := by
  intro x0 x1 x2 hF
  have b_tiles2 : SField.tiles2 ∈ F := hF (by decide)
  have b_banks : SField.banks ∈ F := hF (by decide)
  unfold bankCorrected
  repeat'
    first
    | with_reducible assumption | with_reducible apply Keeps.modTile2 | with_reducible apply Keeps.modBank
    | (extract_lets +onlyGivenNames x
       refine Keeps.cut (u := x) ?_ fun hx => ?_
       (on_goal 1 => unfold x)
       (on_goal 2 => (clear_value x; rename' x => y)))
    | (extract_lets +onlyGivenNames x; refine Keeps.keepEnv x ?_; rename' x => y)
    | (extract_lets +onlyGivenNames x; refine Keeps.keepSec x ?_; rename' x => y)
    | (extract_lets +onlyGivenNames x; refine Keeps.keepArm x ?_; rename' x => y)
    | (extract_lets +onlyGivenNames x; refine Keeps.keepMeter x ?_; rename' x => y)
    | (extract_lets +onlyGivenNames x; clear_value x; rename' x => y)
    | split

theorem keeps_execTileHang (h : Keeps F s t) :
    ∀ x0, (hF : [SField.env, .hostMem, .pcie, .arm, .slabs, .slabs2, .ports, .ports2, .tiles, .tiles2, .banks,
        .parts2, .ctxs, .funcs, .bankMem, .hbm] ⊆ F := by assumption) →
    Yields F s (execTileHang x0 t) := by
  intro x0 hF
  have f_unplannedTile : [SField.env, .hostMem, .pcie, .arm, .slabs, .slabs2, .ports, .ports2, .tiles, .tiles2,
      .banks, .parts2, .ctxs, .funcs, .bankMem, .hbm] ⊆ F := List.Subset.trans (by decide) hF
  unfold execTileHang
  repeat'
    first
    | with_reducible assumption | with_reducible apply keeps_unplannedTile | with_reducible apply Yields.next
    | (extract_lets +onlyGivenNames x
       refine Yields.cut (u := x) ?_ fun hx => ?_
       (on_goal 1 => unfold x)
       (on_goal 2 => (clear_value x; rename' x => y)))
    | (extract_lets +onlyGivenNames x
       refine Keeps.cut (u := x) ?_ fun hx => ?_
       (on_goal 1 => unfold x)
       (on_goal 2 => (clear_value x; rename' x => y)))
    | (extract_lets +onlyGivenNames x; refine Keeps.keepEnv x ?_; rename' x => y)
    | (extract_lets +onlyGivenNames x; refine Keeps.keepSec x ?_; rename' x => y)
    | (extract_lets +onlyGivenNames x; refine Keeps.keepArm x ?_; rename' x => y)
    | (extract_lets +onlyGivenNames x; refine Keeps.keepMeter x ?_; rename' x => y)
    | (extract_lets +onlyGivenNames x; clear_value x; rename' x => y)
    | split | with_reducible refine Keeps.light ?_ rfl rfl rfl rfl

theorem keeps_execTileRetirement (h : Keeps F s t) :
    ∀ x0, (hF : [SField.env, .hostMem, .pcie, .arm, .slabs, .slabs2, .ports, .ports2, .tiles, .tiles2, .banks,
        .parts2, .ctxs, .funcs, .bankMem, .hbm] ⊆ F := by assumption) →
    Yields F s (execTileRetirement x0 t) := by
  intro x0 hF
  have b_slabs2 : SField.slabs2 ∈ F := hF (by decide)
  have b_tiles2 : SField.tiles2 ∈ F := hF (by decide)
  have f_addStop : [SField.parts2] ⊆ F := List.Subset.trans (by decide) hF
  have f_dropStop : [SField.parts2] ⊆ F := List.Subset.trans (by decide) hF
  have f_coreRetire : [SField.env, .hostMem, .pcie, .arm, .slabs, .slabs2, .ports, .ports2, .tiles, .tiles2, .banks,
      .parts2, .ctxs, .funcs, .bankMem, .hbm] ⊆ F := List.Subset.trans (by decide) hF
  unfold execTileRetirement
  repeat'
    first
    | with_reducible assumption | with_reducible apply Keeps.modTile2 | with_reducible apply Keeps.modSlab2
    | with_reducible apply keeps_addStop | with_reducible apply keeps_dropStop | with_reducible apply keeps_coreRetire
    | with_reducible apply Yields.next
    | (extract_lets +onlyGivenNames x
       refine Yields.cut (u := x) ?_ fun hx => ?_
       (on_goal 1 => unfold x)
       (on_goal 2 => (clear_value x; rename' x => y)))
    | (extract_lets +onlyGivenNames x
       refine Keeps.cut (u := x) ?_ fun hx => ?_
       (on_goal 1 => unfold x)
       (on_goal 2 => (clear_value x; rename' x => y)))
    | (extract_lets +onlyGivenNames x; refine Keeps.keepEnv x ?_; rename' x => y)
    | (extract_lets +onlyGivenNames x; refine Keeps.keepSec x ?_; rename' x => y)
    | (extract_lets +onlyGivenNames x; refine Keeps.keepArm x ?_; rename' x => y)
    | (extract_lets +onlyGivenNames x; refine Keeps.keepMeter x ?_; rename' x => y)
    | (extract_lets +onlyGivenNames x; clear_value x; rename' x => y)
    | split | with_reducible refine Keeps.light ?_ rfl rfl rfl rfl

theorem keeps_execTileRetireCopyDone (h : Keeps F s t) :
    ∀ x0, (hF : [SField.env, .hostMem, .pcie, .arm, .slabs, .slabs2, .tiles, .tiles2, .banks, .parts2, .funcs] ⊆ F :=
        by assumption) →
    Yields F s (execTileRetireCopyDone x0 t) := by
  intro x0 hF
  have b_slabs2 : SField.slabs2 ∈ F := hF (by decide)
  have b_tiles2 : SField.tiles2 ∈ F := hF (by decide)
  have f_moveSite : [SField.env, .hostMem, .pcie, .arm, .slabs, .slabs2, .tiles, .tiles2, .banks, .funcs] ⊆ F :=
      List.Subset.trans (by decide) hF
  have f_dropStop : [SField.parts2] ⊆ F := List.Subset.trans (by decide) hF
  unfold execTileRetireCopyDone
  repeat'
    first
    | with_reducible assumption | with_reducible apply Keeps.modSlab2 | with_reducible apply keeps_moveSite
    | with_reducible apply Keeps.modTile2 | with_reducible apply keeps_dropStop | with_reducible apply Yields.next
    | (extract_lets +onlyGivenNames x
       refine Yields.cut (u := x) ?_ fun hx => ?_
       (on_goal 1 => unfold x)
       (on_goal 2 => (clear_value x; rename' x => y)))
    | (extract_lets +onlyGivenNames x
       refine Keeps.cut (u := x) ?_ fun hx => ?_
       (on_goal 1 => unfold x)
       (on_goal 2 => (clear_value x; rename' x => y)))
    | (extract_lets +onlyGivenNames x; refine Keeps.keepEnv x ?_; rename' x => y)
    | (extract_lets +onlyGivenNames x; refine Keeps.keepSec x ?_; rename' x => y)
    | (extract_lets +onlyGivenNames x; refine Keeps.keepArm x ?_; rename' x => y)
    | (extract_lets +onlyGivenNames x; refine Keeps.keepMeter x ?_; rename' x => y)
    | (extract_lets +onlyGivenNames x; clear_value x; rename' x => y)
    | split | with_reducible refine Keeps.light ?_ rfl rfl rfl rfl

theorem keeps_patinaFound (h : Keeps F s t) :
    ∀ x0, (hF : [SField.env, .hostMem, .pcie, .arm, .slabs, .slabs2, .ports, .ports2, .tiles, .tiles2, .banks,
        .parts2, .ctxs, .funcs, .bankMem, .hbm] ⊆ F := by assumption) →
    Keeps F s (patinaFound x0 t) := by
  intro x0 hF
  have f_bankUe : [SField.env, .hostMem, .pcie, .arm, .slabs, .slabs2, .ports, .ports2, .tiles, .tiles2, .banks,
      .parts2, .ctxs, .funcs, .bankMem, .hbm] ⊆ F := List.Subset.trans (by decide) hF
  have f_bankCorrected : [SField.tiles2, .banks] ⊆ F := List.Subset.trans (by decide) hF
  unfold patinaFound
  repeat'
    first
    | with_reducible assumption | with_reducible apply keeps_bankUe | with_reducible apply keeps_bankCorrected
    | split

theorem keeps_execPatinaRegionStart (h : Keeps F s t) :
    ∀ x0 x1, (hF : [SField.env, .hostMem, .pcie, .arm, .slabs, .slabs2, .ports, .ports2, .tiles, .tiles2, .banks,
        .parts2, .ctxs, .funcs, .bankMem, .hbm] ⊆ F := by assumption) →
    Yields F s (execPatinaRegionStart x0 x1 t) := by
  intro x0 x1 hF
  have b_slabs2 : SField.slabs2 ∈ F := hF (by decide)
  have b_banks : SField.banks ∈ F := hF (by decide)
  have f_patinaFound : [SField.env, .hostMem, .pcie, .arm, .slabs, .slabs2, .ports, .ports2, .tiles, .tiles2, .banks,
      .parts2, .ctxs, .funcs, .bankMem, .hbm] ⊆ F := List.Subset.trans (by decide) hF
  unfold execPatinaRegionStart
  repeat'
    first
    | with_reducible assumption | with_reducible apply keeps_patinaFound | with_reducible apply Keeps.modSlab2
    | with_reducible apply Keeps.modBank | with_reducible (refine Keeps.forAll ?_ _ _ fun _ _ _ => ?_)
    | with_reducible apply Yields.next
    | (extract_lets +onlyGivenNames x
       refine Yields.cut (u := x) ?_ fun hx => ?_
       (on_goal 1 => unfold x)
       (on_goal 2 => (clear_value x; rename' x => y)))
    | (extract_lets +onlyGivenNames x
       refine Keeps.cut (u := x) ?_ fun hx => ?_
       (on_goal 1 => unfold x)
       (on_goal 2 => (clear_value x; rename' x => y)))
    | (extract_lets +onlyGivenNames x; refine Keeps.keepEnv x ?_; rename' x => y)
    | (extract_lets +onlyGivenNames x; refine Keeps.keepSec x ?_; rename' x => y)
    | (extract_lets +onlyGivenNames x; refine Keeps.keepArm x ?_; rename' x => y)
    | (extract_lets +onlyGivenNames x; refine Keeps.keepMeter x ?_; rename' x => y)
    | (extract_lets +onlyGivenNames x; clear_value x; rename' x => y)
    | split

theorem keeps_failLine (h : Keeps F s t) :
    ∀ x0 x1 x2 x3, (hF : [SField.env, .hostMem, .pcie, .arm, .slabs2, .banks, .parts2, .funcs] ⊆ F := by assumption) →
    Keeps F s (failLine x0 x1 x2 x3 t) := by
  intro x0 x1 x2 x3 hF
  have b_banks : SField.banks ∈ F := hF (by decide)
  have f_bankEvent : [SField.env, .hostMem, .pcie, .slabs2, .funcs] ⊆ F := List.Subset.trans (by decide) hF
  have f_logFact : [SField.arm] ⊆ F := List.Subset.trans (by decide) hF
  have f_addStop : [SField.parts2] ⊆ F := List.Subset.trans (by decide) hF
  unfold failLine
  repeat'
    first
    | with_reducible assumption | with_reducible apply keeps_bankEvent | with_reducible apply keeps_logFact
    | with_reducible apply keeps_addStop | with_reducible apply Keeps.setBank
    | (extract_lets +onlyGivenNames x
       refine Keeps.cut (u := x) ?_ fun hx => ?_
       (on_goal 1 => unfold x)
       (on_goal 2 => (clear_value x; rename' x => y)))
    | (extract_lets +onlyGivenNames x; refine Keeps.keepEnv x ?_; rename' x => y)
    | (extract_lets +onlyGivenNames x; refine Keeps.keepSec x ?_; rename' x => y)
    | (extract_lets +onlyGivenNames x; refine Keeps.keepArm x ?_; rename' x => y)
    | (extract_lets +onlyGivenNames x; refine Keeps.keepMeter x ?_; rename' x => y)
    | (extract_lets +onlyGivenNames x; clear_value x; rename' x => y)
    | split

theorem keeps_sweepEnds (h : Keeps F s t) :
    ∀ x0, (hF : [SField.slabs2] ⊆ F := by assumption) →
    Keeps F s (sweepEnds x0 t) := by
  intro x0 hF
  have b_slabs2 : SField.slabs2 ∈ F := hF (by decide)
  unfold sweepEnds
  repeat'
    first
    | with_reducible assumption | with_reducible apply Keeps.modSlab2
    | (extract_lets +onlyGivenNames x
       refine Keeps.cut (u := x) ?_ fun hx => ?_
       (on_goal 1 => unfold x)
       (on_goal 2 => (clear_value x; rename' x => y)))
    | (extract_lets +onlyGivenNames x; refine Keeps.keepEnv x ?_; rename' x => y)
    | (extract_lets +onlyGivenNames x; refine Keeps.keepSec x ?_; rename' x => y)
    | (extract_lets +onlyGivenNames x; refine Keeps.keepArm x ?_; rename' x => y)
    | (extract_lets +onlyGivenNames x; refine Keeps.keepMeter x ?_; rename' x => y)
    | (extract_lets +onlyGivenNames x; clear_value x; rename' x => y)
    | split

theorem keeps_execPatinaRegionDone (h : Keeps F s t) :
    ∀ x0 x1 x2, (hF : [SField.env, .hostMem, .pcie, .arm, .slabs2, .banks, .parts2, .funcs] ⊆ F := by assumption) →
    Yields F s (execPatinaRegionDone x0 x1 x2 t) := by
  intro x0 x1 x2 hF
  have b_banks : SField.banks ∈ F := hF (by decide)
  have f_sweepEnds : [SField.slabs2] ⊆ F := List.Subset.trans (by decide) hF
  have f_failLine : [SField.env, .hostMem, .pcie, .arm, .slabs2, .banks, .parts2, .funcs] ⊆ F := List.Subset.trans
      (by decide) hF
  unfold execPatinaRegionDone
  repeat'
    first
    | with_reducible assumption | with_reducible apply keeps_sweepEnds | with_reducible apply keeps_failLine
    | with_reducible apply Keeps.modBank | with_reducible (refine Keeps.forAll ?_ _ _ fun _ _ _ => ?_)
    | with_reducible apply Yields.next
    | (extract_lets +onlyGivenNames x
       refine Yields.cut (u := x) ?_ fun hx => ?_
       (on_goal 1 => unfold x)
       (on_goal 2 => (clear_value x; rename' x => y)))
    | (extract_lets +onlyGivenNames x
       refine Keeps.cut (u := x) ?_ fun hx => ?_
       (on_goal 1 => unfold x)
       (on_goal 2 => (clear_value x; rename' x => y)))
    | (extract_lets +onlyGivenNames x; refine Keeps.keepEnv x ?_; rename' x => y)
    | (extract_lets +onlyGivenNames x; refine Keeps.keepSec x ?_; rename' x => y)
    | (extract_lets +onlyGivenNames x; refine Keeps.keepArm x ?_; rename' x => y)
    | (extract_lets +onlyGivenNames x; refine Keeps.keepMeter x ?_; rename' x => y)
    | (extract_lets +onlyGivenNames x; clear_value x; rename' x => y)
    | split

theorem keeps_execPatinaCtrlWrite (h : Keeps F s t) :
    ∀ x0 x1 x2, (hF : [SField.slabs2] ⊆ F := by assumption) →
    Yields F s (execPatinaCtrlWrite x0 x1 x2 t) := by
  intro x0 x1 x2 hF
  have b_slabs2 : SField.slabs2 ∈ F := hF (by decide)
  unfold execPatinaCtrlWrite
  repeat'
    first
    | with_reducible assumption | with_reducible apply Keeps.modSlab2 | with_reducible apply Yields.next
    | (extract_lets +onlyGivenNames x
       refine Yields.cut (u := x) ?_ fun hx => ?_
       (on_goal 1 => unfold x)
       (on_goal 2 => (clear_value x; rename' x => y)))
    | (extract_lets +onlyGivenNames x
       refine Keeps.cut (u := x) ?_ fun hx => ?_
       (on_goal 1 => unfold x)
       (on_goal 2 => (clear_value x; rename' x => y)))
    | (extract_lets +onlyGivenNames x; refine Keeps.keepEnv x ?_; rename' x => y)
    | (extract_lets +onlyGivenNames x; refine Keeps.keepSec x ?_; rename' x => y)
    | (extract_lets +onlyGivenNames x; refine Keeps.keepArm x ?_; rename' x => y)
    | (extract_lets +onlyGivenNames x; refine Keeps.keepMeter x ?_; rename' x => y)
    | (extract_lets +onlyGivenNames x; clear_value x; rename' x => y)
    | split | with_reducible refine Keeps.light ?_ rfl rfl rfl rfl

theorem keeps_execSpareSelfTest (h : Keeps F s t) :
    ∀ x0 x1, (hF : [SField.slabs] ⊆ F := by assumption) →
    Yields F s (execSpareSelfTest x0 x1 t) := by
  intro x0 x1 hF
  have b_slabs : SField.slabs ∈ F := hF (by decide)
  unfold execSpareSelfTest
  repeat'
    first
    | with_reducible assumption | with_reducible apply Keeps.modSlab | with_reducible apply Yields.next
    | (extract_lets +onlyGivenNames x
       refine Yields.cut (u := x) ?_ fun hx => ?_
       (on_goal 1 => unfold x)
       (on_goal 2 => (clear_value x; rename' x => y)))
    | (extract_lets +onlyGivenNames x
       refine Keeps.cut (u := x) ?_ fun hx => ?_
       (on_goal 1 => unfold x)
       (on_goal 2 => (clear_value x; rename' x => y)))
    | (extract_lets +onlyGivenNames x; refine Keeps.keepEnv x ?_; rename' x => y)
    | (extract_lets +onlyGivenNames x; refine Keeps.keepSec x ?_; rename' x => y)
    | (extract_lets +onlyGivenNames x; refine Keeps.keepArm x ?_; rename' x => y)
    | (extract_lets +onlyGivenNames x; refine Keeps.keepMeter x ?_; rename' x => y)
    | (extract_lets +onlyGivenNames x; clear_value x; rename' x => y)
    | split | with_reducible refine Keeps.light ?_ rfl rfl rfl rfl

theorem keeps_execPreFailureWarning (h : Keeps F s t) :
    ∀ x0, (hF : [SField.env, .hostMem, .pcie, .slabs2, .parts2, .funcs] ⊆ F := by assumption) →
    Yields F s (execPreFailureWarning x0 t) := by
  intro x0 hF
  have b_slabs2 : SField.slabs2 ∈ F := hF (by decide)
  have f_schedEvent : [SField.env, .hostMem, .pcie, .parts2, .funcs] ⊆ F := List.Subset.trans (by decide) hF
  have f_addStop : [SField.parts2] ⊆ F := List.Subset.trans (by decide) hF
  unfold execPreFailureWarning
  repeat'
    first
    | with_reducible assumption | with_reducible apply keeps_schedEvent | with_reducible apply keeps_addStop
    | with_reducible apply Keeps.modSlab2 | with_reducible apply Yields.next
    | (extract_lets +onlyGivenNames x
       refine Yields.cut (u := x) ?_ fun hx => ?_
       (on_goal 1 => unfold x)
       (on_goal 2 => (clear_value x; rename' x => y)))
    | (extract_lets +onlyGivenNames x
       refine Keeps.cut (u := x) ?_ fun hx => ?_
       (on_goal 1 => unfold x)
       (on_goal 2 => (clear_value x; rename' x => y)))
    | (extract_lets +onlyGivenNames x; refine Keeps.keepEnv x ?_; rename' x => y)
    | (extract_lets +onlyGivenNames x; refine Keeps.keepSec x ?_; rename' x => y)
    | (extract_lets +onlyGivenNames x; refine Keeps.keepArm x ?_; rename' x => y)
    | (extract_lets +onlyGivenNames x; refine Keeps.keepMeter x ?_; rename' x => y)
    | (extract_lets +onlyGivenNames x; clear_value x; rename' x => y)
    | split | with_reducible refine Keeps.light ?_ rfl rfl rfl rfl

theorem keeps_execPlannedCoreRetirement (h : Keeps F s t) :
    ∀ x0, (hF : [SField.env, .hostMem, .pcie, .arm, .slabs, .slabs2, .ports, .ports2, .tiles, .tiles2, .banks,
        .parts2, .ctxs, .funcs, .bankMem, .hbm] ⊆ F := by assumption) →
    Yields F s (execPlannedCoreRetirement x0 t) := by
  intro x0 hF
  have f_coreRetire : [SField.env, .hostMem, .pcie, .arm, .slabs, .slabs2, .ports, .ports2, .tiles, .tiles2, .banks,
      .parts2, .ctxs, .funcs, .bankMem, .hbm] ⊆ F := List.Subset.trans (by decide) hF
  unfold execPlannedCoreRetirement
  repeat'
    first
    | with_reducible assumption | with_reducible apply keeps_coreRetire | with_reducible apply Yields.next
    | (extract_lets +onlyGivenNames x
       refine Yields.cut (u := x) ?_ fun hx => ?_
       (on_goal 1 => unfold x)
       (on_goal 2 => (clear_value x; rename' x => y)))
    | (extract_lets +onlyGivenNames x
       refine Keeps.cut (u := x) ?_ fun hx => ?_
       (on_goal 1 => unfold x)
       (on_goal 2 => (clear_value x; rename' x => y)))
    | (extract_lets +onlyGivenNames x; refine Keeps.keepEnv x ?_; rename' x => y)
    | (extract_lets +onlyGivenNames x; refine Keeps.keepSec x ?_; rename' x => y)
    | (extract_lets +onlyGivenNames x; refine Keeps.keepArm x ?_; rename' x => y)
    | (extract_lets +onlyGivenNames x; refine Keeps.keepMeter x ?_; rename' x => y)
    | (extract_lets +onlyGivenNames x; clear_value x; rename' x => y)
    | split | with_reducible refine Keeps.light ?_ rfl rfl rfl rfl

theorem keeps_evacuate (h : Keeps F s t) :
    ∀ x0 x1, (hF : [SField.env, .tiles, .banks, .ctxs, .hbm] ⊆ F := by assumption) →
    Keeps F s (evacuate x0 x1 t) := by
  intro x0 x1 hF
  have b_ctxs : SField.ctxs ∈ F := hF (by decide)
  have f_swapOut : [SField.banks, .ctxs, .hbm] ⊆ F := List.Subset.trans (by decide) hF
  have f_releaseAll : [SField.banks] ⊆ F := List.Subset.trans (by decide) hF
  have f_settle : [SField.env, .ctxs] ⊆ F := List.Subset.trans (by decide) hF
  have f_finish : [SField.tiles, .ctxs] ⊆ F := List.Subset.trans (by decide) hF
  unfold evacuate
  repeat'
    first
    | with_reducible assumption | with_reducible apply keeps_swapOut | with_reducible apply keeps_releaseAll
    | with_reducible apply Keeps.modCtx | with_reducible apply keeps_settle
    | with_reducible (refine Keeps.forAll ?_ _ _ fun _ _ _ => ?_) | with_reducible apply keeps_finish
    | (extract_lets +onlyGivenNames x
       refine Keeps.cut (u := x) ?_ fun hx => ?_
       (on_goal 1 => unfold x)
       (on_goal 2 => (clear_value x; rename' x => y)))
    | (extract_lets +onlyGivenNames x; refine Keeps.keepEnv x ?_; rename' x => y)
    | (extract_lets +onlyGivenNames x; refine Keeps.keepSec x ?_; rename' x => y)
    | (extract_lets +onlyGivenNames x; refine Keeps.keepArm x ?_; rename' x => y)
    | (extract_lets +onlyGivenNames x; refine Keeps.keepMeter x ?_; rename' x => y)
    | (extract_lets +onlyGivenNames x; clear_value x; rename' x => y)
    | split | with_reducible refine Keeps.light ?_ rfl rfl rfl rfl

theorem keeps_execEvacWaitExpire (h : Keeps F s t) :
    ∀ x0, (hF : [SField.env, .hostMem, .pcie, .arm, .slabs, .slabs2, .ports, .ports2, .tiles, .tiles2, .banks,
        .parts2, .ctxs, .funcs, .bankMem, .hbm] ⊆ F := by assumption) →
    Yields F s (execEvacWaitExpire x0 t) := by
  intro x0 hF
  have f_evacuate : [SField.env, .tiles, .banks, .ctxs, .hbm] ⊆ F := List.Subset.trans (by decide) hF
  have f_schedEvent : [SField.env, .hostMem, .pcie, .parts2, .funcs] ⊆ F := List.Subset.trans (by decide) hF
  have f_coreRetire : [SField.env, .hostMem, .pcie, .arm, .slabs, .slabs2, .ports, .ports2, .tiles, .tiles2, .banks,
      .parts2, .ctxs, .funcs, .bankMem, .hbm] ⊆ F := List.Subset.trans (by decide) hF
  unfold execEvacWaitExpire
  repeat'
    first
    | with_reducible assumption | with_reducible (refine Keeps.forAll ?_ _ _ fun _ _ _ => ?_)
    | with_reducible apply keeps_evacuate | with_reducible apply keeps_schedEvent
    | with_reducible apply keeps_coreRetire | with_reducible apply Yields.next
    | (extract_lets +onlyGivenNames x
       refine Yields.cut (u := x) ?_ fun hx => ?_
       (on_goal 1 => unfold x)
       (on_goal 2 => (clear_value x; rename' x => y)))
    | (extract_lets +onlyGivenNames x
       refine Keeps.cut (u := x) ?_ fun hx => ?_
       (on_goal 1 => unfold x)
       (on_goal 2 => (clear_value x; rename' x => y)))
    | (extract_lets +onlyGivenNames x; refine Keeps.keepEnv x ?_; rename' x => y)
    | (extract_lets +onlyGivenNames x; refine Keeps.keepSec x ?_; rename' x => y)
    | (extract_lets +onlyGivenNames x; refine Keeps.keepArm x ?_; rename' x => y)
    | (extract_lets +onlyGivenNames x; refine Keeps.keepMeter x ?_; rename' x => y)
    | (extract_lets +onlyGivenNames x; clear_value x; rename' x => y)
    | split | with_reducible refine Keeps.light ?_ rfl rfl rfl rfl

theorem keeps_execFlitReceive (h : Keeps F s t) :
    ∀ x0 x1 x2 x3, (hF : [SField.env, .hostMem, .pkg, .pcie, .sec, .arm, .meter, .meter2, .slabs, .slabs2, .ports,
        .ports2, .tiles, .tiles2, .banks, .parts2, .ctxs, .funcs, .bankMem, .hbm] ⊆ F := by assumption) →
    Yields F s (execFlitReceive x0 x1 x2 x3 t) := by
  intro x0 x1 x2 x3 hF
  have f_countEdge : [SField.slabs2] ⊆ F := List.Subset.trans (by decide) hF
  have f_fullRetire : [SField.env, .hostMem, .pkg, .pcie, .sec, .arm, .meter, .meter2, .slabs, .slabs2, .ports,
      .ports2, .tiles, .tiles2, .banks, .parts2, .ctxs, .funcs, .bankMem, .hbm] ⊆ F := List.Subset.trans (by decide)
      hF
  have f_fabEvent : [SField.env, .hostMem, .pcie, .slabs2, .funcs] ⊆ F := List.Subset.trans (by decide) hF
  have f_setFails : [SField.slabs2] ⊆ F := List.Subset.trans (by decide) hF
  have f_modFab : [SField.slabs2] ⊆ F := List.Subset.trans (by decide) hF
  have f_moveFlit : [SField.slabs2] ⊆ F := List.Subset.trans (by decide) hF
  unfold execFlitReceive
  repeat'
    first
    | with_reducible assumption | with_reducible apply keeps_countEdge | with_reducible apply keeps_fullRetire
    | with_reducible apply keeps_fabEvent | with_reducible apply keeps_setFails | with_reducible apply keeps_modFab
    | with_reducible apply keeps_moveFlit | with_reducible apply Yields.next
    | (extract_lets +onlyGivenNames x
       refine Yields.cut (u := x) ?_ fun hx => ?_
       (on_goal 1 => unfold x)
       (on_goal 2 => (clear_value x; rename' x => y)))
    | (extract_lets +onlyGivenNames x
       refine Keeps.cut (u := x) ?_ fun hx => ?_
       (on_goal 1 => unfold x)
       (on_goal 2 => (clear_value x; rename' x => y)))
    | (extract_lets +onlyGivenNames x; refine Keeps.keepEnv x ?_; rename' x => y)
    | (extract_lets +onlyGivenNames x; refine Keeps.keepSec x ?_; rename' x => y)
    | (extract_lets +onlyGivenNames x; refine Keeps.keepArm x ?_; rename' x => y)
    | (extract_lets +onlyGivenNames x; refine Keeps.keepMeter x ?_; rename' x => y)
    | (extract_lets +onlyGivenNames x; clear_value x; rename' x => y)
    | split

theorem keeps_chargeSlab (h : Keeps F s t) :
    ∀ x0 x1, (hF : [SField.env, .hostMem, .pkg, .pcie, .sec, .arm, .meter, .meter2, .slabs, .slabs2, .ports, .ports2,
        .tiles, .tiles2, .banks, .parts2, .ctxs, .funcs, .bankMem, .hbm] ⊆ F := by assumption) →
    Keeps F s (chargeSlab x0 x1 t) := by
  intro x0 x1 hF
  have f_fullRetire : [SField.env, .hostMem, .pkg, .pcie, .sec, .arm, .meter, .meter2, .slabs, .slabs2, .ports,
      .ports2, .tiles, .tiles2, .banks, .parts2, .ctxs, .funcs, .bankMem, .hbm] ⊆ F := List.Subset.trans (by decide)
      hF
  have f_fabEvent : [SField.env, .hostMem, .pcie, .slabs2, .funcs] ⊆ F := List.Subset.trans (by decide) hF
  unfold chargeSlab
  repeat'
    first
    | with_reducible assumption | with_reducible apply keeps_fullRetire | with_reducible apply keeps_fabEvent
    | (extract_lets +onlyGivenNames x
       refine Keeps.cut (u := x) ?_ fun hx => ?_
       (on_goal 1 => unfold x)
       (on_goal 2 => (clear_value x; rename' x => y)))
    | (extract_lets +onlyGivenNames x; refine Keeps.keepEnv x ?_; rename' x => y)
    | (extract_lets +onlyGivenNames x; refine Keeps.keepSec x ?_; rename' x => y)
    | (extract_lets +onlyGivenNames x; refine Keeps.keepArm x ?_; rename' x => y)
    | (extract_lets +onlyGivenNames x; refine Keeps.keepMeter x ?_; rename' x => y)
    | (extract_lets +onlyGivenNames x; clear_value x; rename' x => y)
    | split | with_reducible refine Keeps.light ?_ rfl rfl rfl rfl

theorem keeps_execTransportResend (h : Keeps F s t) :
    ∀ x0 x1 x2 x3, (hF : [SField.env, .hostMem, .pkg, .pcie, .sec, .arm, .meter, .meter2, .slabs, .slabs2, .ports,
        .ports2, .tiles, .tiles2, .banks, .parts2, .ctxs, .funcs, .bankMem, .hbm] ⊆ F := by assumption) →
    Yields F s (execTransportResend x0 x1 x2 x3 t) := by
  intro x0 x1 x2 x3 hF
  have f_chargeSlab : [SField.env, .hostMem, .pkg, .pcie, .sec, .arm, .meter, .meter2, .slabs, .slabs2, .ports,
      .ports2, .tiles, .tiles2, .banks, .parts2, .ctxs, .funcs, .bankMem, .hbm] ⊆ F := List.Subset.trans (by decide)
      hF
  have f_modFab : [SField.slabs2] ⊆ F := List.Subset.trans (by decide) hF
  unfold execTransportResend
  repeat'
    first
    | with_reducible assumption | with_reducible apply keeps_chargeSlab | with_reducible apply keeps_modFab
    | with_reducible apply Yields.next
    | (extract_lets +onlyGivenNames x
       refine Yields.cut (u := x) ?_ fun hx => ?_
       (on_goal 1 => unfold x)
       (on_goal 2 => (clear_value x; rename' x => y)))
    | (extract_lets +onlyGivenNames x
       refine Keeps.cut (u := x) ?_ fun hx => ?_
       (on_goal 1 => unfold x)
       (on_goal 2 => (clear_value x; rename' x => y)))
    | (extract_lets +onlyGivenNames x; refine Keeps.keepEnv x ?_; rename' x => y)
    | (extract_lets +onlyGivenNames x; refine Keeps.keepSec x ?_; rename' x => y)
    | (extract_lets +onlyGivenNames x; refine Keeps.keepArm x ?_; rename' x => y)
    | (extract_lets +onlyGivenNames x; refine Keeps.keepMeter x ?_; rename' x => y)
    | (extract_lets +onlyGivenNames x; clear_value x; rename' x => y)
    | split | with_reducible refine Keeps.light ?_ rfl rfl rfl rfl

end Sys2Proof.Machine
end

