-- ==== Sys2Proof/Laws/KeepsSecurity.lean ====
section
/-! SUPPORT. What every operation and meaning of Machine/Security.lean keeps: the queue, the canonical form, what lasts, and every part
of the state outside its own list. -/

set_option linter.unreachableTactic false
set_option linter.unusedTactic false
set_option linter.unusedVariables false
set_option linter.tactic.unusedName false

namespace Sys2Proof.Machine

open Sys2Proof

-- Proofs one after another: the package compiles as one text under a memory limit.
set_option Elab.async false

variable {F : List SField} {s t : State}

theorem keeps_secDone (h : Keeps F s t) :
    ∀ x0, (hF : [SField.env, .hostMem, .pcie, .sec, .funcs] ⊆ F := by assumption) →
    Keeps F s (secDone x0 t) := by
  intro x0 hF
  have b_sec : SField.sec ∈ F := hF (by decide)
  have f_secEvent : [SField.env, .hostMem, .pcie, .sec, .funcs] ⊆ F := List.Subset.trans (by decide) hF
  unfold secDone
  repeat'
    first
    | with_reducible assumption | with_reducible apply keeps_secEvent
    | (extract_lets +onlyGivenNames x
       refine Keeps.cut (u := x) ?_ fun hx => ?_
       (on_goal 1 => unfold x)
       (on_goal 2 => (clear_value x; rename' x => y)))
    | (extract_lets +onlyGivenNames x; refine Keeps.keepEnv x ?_; rename' x => y)
    | (extract_lets +onlyGivenNames x; refine Keeps.keepSec x ?_; rename' x => y)
    | (extract_lets +onlyGivenNames x; refine Keeps.keepArm x ?_; rename' x => y)
    | (extract_lets +onlyGivenNames x; refine Keeps.keepMeter x ?_; rename' x => y)
    | (extract_lets +onlyGivenNames x; clear_value x; rename' x => y)
    | split | with_reducible refine Keeps.light ?_ rfl rfl rfl rfl

theorem keeps_secOutput (h : Keeps F s t) :
    ∀ x0, (hF : [SField.env, .hostMem, .pcie, .sec, .funcs] ⊆ F := by assumption) →
    Keeps F s (secOutput x0 t) := by
  intro x0 hF
  have f_secDone : [SField.env, .hostMem, .pcie, .sec, .funcs] ⊆ F := List.Subset.trans (by decide) hF
  have f_hostWrite : [SField.env, .hostMem] ⊆ F := List.Subset.trans (by decide) hF
  unfold secOutput
  repeat'
    first
    | with_reducible assumption | with_reducible apply keeps_secDone | with_reducible apply keeps_hostWrite
    | (extract_lets +onlyGivenNames x
       refine Keeps.cut (u := x) ?_ fun hx => ?_
       (on_goal 1 => unfold x)
       (on_goal 2 => (clear_value x; rename' x => y)))
    | (extract_lets +onlyGivenNames x; refine Keeps.keepEnv x ?_; rename' x => y)
    | (extract_lets +onlyGivenNames x; refine Keeps.keepSec x ?_; rename' x => y)
    | (extract_lets +onlyGivenNames x; refine Keeps.keepArm x ?_; rename' x => y)
    | (extract_lets +onlyGivenNames x; refine Keeps.keepMeter x ?_; rename' x => y)
    | (extract_lets +onlyGivenNames x; clear_value x; rename' x => y)
    | split | with_reducible refine Keeps.light ?_ rfl rfl rfl rfl

theorem keeps_execIdRecord (h : Keeps F s t) :
    (hF : [SField.env, .hostMem, .pcie, .sec, .funcs] ⊆ F := by assumption) →
    Yields F s (execIdRecord t) := by
  intro hF
  have f_secDone : [SField.env, .hostMem, .pcie, .sec, .funcs] ⊆ F := List.Subset.trans (by decide) hF
  have f_secOutput : [SField.env, .hostMem, .pcie, .sec, .funcs] ⊆ F := List.Subset.trans (by decide) hF
  unfold execIdRecord
  repeat'
    first
    | with_reducible assumption | with_reducible apply keeps_secDone | with_reducible apply keeps_secOutput
    | with_reducible apply Yields.next
    | (extract_lets +onlyGivenNames x
       refine Yields.cut (u := x) ?_ fun hx => ?_
       (on_goal 1 => unfold x)
       (on_goal 2 => (clear_value x; rename' x => y)))
    | (extract_lets +onlyGivenNames x
       refine Keeps.cut (u := x) ?_ fun hx => ?_
       (on_goal 1 => unfold x)
       (on_goal 2 => (clear_value x; rename' x => y)))
    | (extract_lets +onlyGivenNames x; refine Keeps.keepEnv x ?_; rename' x => y)
    | (extract_lets +onlyGivenNames x; refine Keeps.keepSec x ?_; rename' x => y)
    | (extract_lets +onlyGivenNames x; refine Keeps.keepArm x ?_; rename' x => y)
    | (extract_lets +onlyGivenNames x; refine Keeps.keepMeter x ?_; rename' x => y)
    | (extract_lets +onlyGivenNames x; clear_value x; rename' x => y)
    | split | with_reducible refine Keeps.light ?_ rfl rfl rfl rfl

theorem keeps_execAttest (h : Keeps F s t) :
    (hF : [SField.env, .hostMem, .pcie, .sec, .funcs] ⊆ F := by assumption) →
    Yields F s (execAttest t) := by
  intro hF
  have b_env : SField.env ∈ F := hF (by decide)
  have f_secDone : [SField.env, .hostMem, .pcie, .sec, .funcs] ⊆ F := List.Subset.trans (by decide) hF
  have f_secOutput : [SField.env, .hostMem, .pcie, .sec, .funcs] ⊆ F := List.Subset.trans (by decide) hF
  unfold execAttest
  repeat'
    first
    | with_reducible assumption | with_reducible apply keeps_secDone | with_reducible apply Keeps.takeFree
    | with_reducible apply keeps_secOutput | with_reducible apply Yields.next
    | (extract_lets +onlyGivenNames x
       refine Yields.cut (u := x) ?_ fun hx => ?_
       (on_goal 1 => unfold x)
       (on_goal 2 => (clear_value x; rename' x => y)))
    | (extract_lets +onlyGivenNames x
       refine Keeps.cut (u := x) ?_ fun hx => ?_
       (on_goal 1 => unfold x)
       (on_goal 2 => (clear_value x; rename' x => y)))
    | (extract_lets +onlyGivenNames x; refine Keeps.keepEnv x ?_; rename' x => y)
    | (extract_lets +onlyGivenNames x; refine Keeps.keepSec x ?_; rename' x => y)
    | (extract_lets +onlyGivenNames x; refine Keeps.keepArm x ?_; rename' x => y)
    | (extract_lets +onlyGivenNames x; refine Keeps.keepMeter x ?_; rename' x => y)
    | (extract_lets +onlyGivenNames x; clear_value x; rename' x => y)
    | split | with_reducible refine Keeps.light ?_ rfl rfl rfl rfl

theorem keeps_execStageFw (h : Keeps F s t) :
    (hF : [SField.env, .hostMem, .pcie, .sec, .funcs] ⊆ F := by assumption) →
    Yields F s (execStageFw t) := by
  intro hF
  have b_sec : SField.sec ∈ F := hF (by decide)
  have f_secDone : [SField.env, .hostMem, .pcie, .sec, .funcs] ⊆ F := List.Subset.trans (by decide) hF
  unfold execStageFw
  repeat'
    first
    | with_reducible assumption | with_reducible apply keeps_secDone | with_reducible apply Yields.next
    | (extract_lets +onlyGivenNames x
       refine Yields.cut (u := x) ?_ fun hx => ?_
       (on_goal 1 => unfold x)
       (on_goal 2 => (clear_value x; rename' x => y)))
    | (extract_lets +onlyGivenNames x
       refine Keeps.cut (u := x) ?_ fun hx => ?_
       (on_goal 1 => unfold x)
       (on_goal 2 => (clear_value x; rename' x => y)))
    | (extract_lets +onlyGivenNames x; refine Keeps.keepEnv x ?_; rename' x => y)
    | (extract_lets +onlyGivenNames x; refine Keeps.keepSec x ?_; rename' x => y)
    | (extract_lets +onlyGivenNames x; refine Keeps.keepArm x ?_; rename' x => y)
    | (extract_lets +onlyGivenNames x; refine Keeps.keepMeter x ?_; rename' x => y)
    | (extract_lets +onlyGivenNames x; clear_value x; rename' x => y)
    | split | with_reducible refine Keeps.light ?_ rfl rfl rfl rfl

theorem keeps_execStageArm (h : Keeps F s t) :
    (hF : [SField.env, .hostMem, .pcie, .sec, .arm, .funcs] ⊆ F := by assumption) →
    Yields F s (execStageArm t) := by
  intro hF
  have b_arm : SField.arm ∈ F := hF (by decide)
  have f_secDone : [SField.env, .hostMem, .pcie, .sec, .funcs] ⊆ F := List.Subset.trans (by decide) hF
  unfold execStageArm
  repeat'
    first
    | with_reducible assumption | with_reducible apply keeps_secDone | with_reducible apply Yields.next
    | (extract_lets +onlyGivenNames x
       refine Yields.cut (u := x) ?_ fun hx => ?_
       (on_goal 1 => unfold x)
       (on_goal 2 => (clear_value x; rename' x => y)))
    | (extract_lets +onlyGivenNames x
       refine Keeps.cut (u := x) ?_ fun hx => ?_
       (on_goal 1 => unfold x)
       (on_goal 2 => (clear_value x; rename' x => y)))
    | (extract_lets +onlyGivenNames x; refine Keeps.keepEnv x ?_; rename' x => y)
    | (extract_lets +onlyGivenNames x; refine Keeps.keepSec x ?_; rename' x => y)
    | (extract_lets +onlyGivenNames x; refine Keeps.keepArm x ?_; rename' x => y)
    | (extract_lets +onlyGivenNames x; refine Keeps.keepMeter x ?_; rename' x => y)
    | (extract_lets +onlyGivenNames x; clear_value x; rename' x => y)
    | split | with_reducible refine Keeps.light ?_ rfl rfl rfl rfl

theorem keeps_execCertAdd (h : Keeps F s t) :
    (hF : [SField.env, .hostMem, .pcie, .sec, .funcs] ⊆ F := by assumption) →
    Yields F s (execCertAdd t) := by
  intro hF
  have b_sec : SField.sec ∈ F := hF (by decide)
  have f_secDone : [SField.env, .hostMem, .pcie, .sec, .funcs] ⊆ F := List.Subset.trans (by decide) hF
  unfold execCertAdd
  repeat'
    first
    | with_reducible assumption | with_reducible apply keeps_secDone | with_reducible apply Yields.next
    | (extract_lets +onlyGivenNames x
       refine Yields.cut (u := x) ?_ fun hx => ?_
       (on_goal 1 => unfold x)
       (on_goal 2 => (clear_value x; rename' x => y)))
    | (extract_lets +onlyGivenNames x
       refine Keeps.cut (u := x) ?_ fun hx => ?_
       (on_goal 1 => unfold x)
       (on_goal 2 => (clear_value x; rename' x => y)))
    | (extract_lets +onlyGivenNames x; refine Keeps.keepEnv x ?_; rename' x => y)
    | (extract_lets +onlyGivenNames x; refine Keeps.keepSec x ?_; rename' x => y)
    | (extract_lets +onlyGivenNames x; refine Keeps.keepArm x ?_; rename' x => y)
    | (extract_lets +onlyGivenNames x; refine Keeps.keepMeter x ?_; rename' x => y)
    | (extract_lets +onlyGivenNames x; clear_value x; rename' x => y)
    | split | with_reducible refine Keeps.light ?_ rfl rfl rfl rfl

end Sys2Proof.Machine
end

