-- ==== Sys2Proof/Laws/KeepsFabric.lean ====
section
/-! SUPPORT. What every operation and meaning of Machine/Fabric.lean keeps: the queue, the canonical form, what lasts, and every part
of the state outside its own list. -/

set_option linter.unreachableTactic false
set_option linter.unusedTactic false
set_option linter.unusedVariables false
set_option linter.tactic.unusedName false

namespace Sys2Proof.Machine

open Sys2Proof

-- Proofs one after another: the package compiles as one text under a memory limit.
set_option Elab.async false

variable {F : List SField} {s t : State}

theorem keeps_misroute (h : Keeps F s t) :
    ∀ x0, (hF : [SField.env, .hostMem, .pcie, .slabs2, .funcs] ⊆ F := by assumption) →
    Keeps F s (misroute x0 t) := by
  intro x0 hF
  have f_fabEvent : [SField.env, .hostMem, .pcie, .slabs2, .funcs] ⊆ F := List.Subset.trans (by decide) hF
  have f_modFab : [SField.slabs2] ⊆ F := List.Subset.trans (by decide) hF
  unfold misroute
  repeat'
    first
    | with_reducible assumption | with_reducible apply keeps_fabEvent | with_reducible apply keeps_modFab
    | (extract_lets +onlyGivenNames x
       refine Keeps.cut (u := x) ?_ fun hx => ?_
       (on_goal 1 => unfold x)
       (on_goal 2 => (clear_value x; rename' x => y)))
    | (extract_lets +onlyGivenNames x; refine Keeps.keepEnv x ?_; rename' x => y)
    | (extract_lets +onlyGivenNames x; refine Keeps.keepSec x ?_; rename' x => y)
    | (extract_lets +onlyGivenNames x; refine Keeps.keepArm x ?_; rename' x => y)
    | (extract_lets +onlyGivenNames x; refine Keeps.keepMeter x ?_; rename' x => y)
    | (extract_lets +onlyGivenNames x; clear_value x; rename' x => y)
    | split | with_reducible refine Keeps.light ?_ rfl rfl rfl rfl

theorem keeps_failSender (h : Keeps F s t) :
    ∀ x0 x1 x2 x3, (hF : [SField.tiles, .ctxs] ⊆ F := by assumption) →
    Keeps F s (failSender x0 x1 x2 x3 t) := by
  intro x0 x1 x2 x3 hF
  have f_finish : [SField.tiles, .ctxs] ⊆ F := List.Subset.trans (by decide) hF
  unfold failSender
  repeat'
    first
    | with_reducible assumption | with_reducible apply keeps_finish
    | (extract_lets +onlyGivenNames x
       refine Keeps.cut (u := x) ?_ fun hx => ?_
       (on_goal 1 => unfold x)
       (on_goal 2 => (clear_value x; rename' x => y)))
    | (extract_lets +onlyGivenNames x; refine Keeps.keepEnv x ?_; rename' x => y)
    | (extract_lets +onlyGivenNames x; refine Keeps.keepSec x ?_; rename' x => y)
    | (extract_lets +onlyGivenNames x; refine Keeps.keepArm x ?_; rename' x => y)
    | (extract_lets +onlyGivenNames x; refine Keeps.keepMeter x ?_; rename' x => y)
    | (extract_lets +onlyGivenNames x; clear_value x; rename' x => y)
    | split | with_reducible refine Keeps.light ?_ rfl rfl rfl rfl

theorem keeps_bankFound (h : Keeps F s t) :
    ∀ x0 x1, (hF : [SField.env, .hostMem, .pcie, .arm, .slabs, .slabs2, .ports, .ports2, .tiles, .tiles2, .banks,
        .parts2, .ctxs, .funcs, .bankMem, .hbm] ⊆ F := by assumption) →
    Keeps F s (bankFound x0 x1 t) := by
  intro x0 x1 hF
  have f_bankCorrected : [SField.tiles2, .banks] ⊆ F := List.Subset.trans (by decide) hF
  have f_bankUe : [SField.env, .hostMem, .pcie, .arm, .slabs, .slabs2, .ports, .ports2, .tiles, .tiles2, .banks,
      .parts2, .ctxs, .funcs, .bankMem, .hbm] ⊆ F := List.Subset.trans (by decide) hF
  unfold bankFound
  repeat'
    first
    | with_reducible assumption | with_reducible apply keeps_bankCorrected | with_reducible apply keeps_bankUe
    | (extract_lets +onlyGivenNames x
       refine Keeps.cut (u := x) ?_ fun hx => ?_
       (on_goal 1 => unfold x)
       (on_goal 2 => (clear_value x; rename' x => y)))
    | (extract_lets +onlyGivenNames x; refine Keeps.keepEnv x ?_; rename' x => y)
    | (extract_lets +onlyGivenNames x; refine Keeps.keepSec x ?_; rename' x => y)
    | (extract_lets +onlyGivenNames x; refine Keeps.keepArm x ?_; rename' x => y)
    | (extract_lets +onlyGivenNames x; refine Keeps.keepMeter x ?_; rename' x => y)
    | (extract_lets +onlyGivenNames x; clear_value x; rename' x => y)
    | split | with_reducible refine Keeps.light ?_ rfl rfl rfl rfl

theorem keeps_hbmFixed (h : Keeps F s t) :
    ∀ x0 x1 x2, (hF : [SField.slabs2] ⊆ F := by assumption) →
    Keeps F s (hbmFixed x0 x1 x2 t) := by
  intro x0 x1 x2 hF
  have b_slabs2 : SField.slabs2 ∈ F := hF (by decide)
  unfold hbmFixed
  repeat'
    first
    | with_reducible assumption | with_reducible apply Keeps.modSlab2
    | split

theorem keeps_packetBank (h : Keeps F s t) :
    ∀ x0 x1 x2 x3 x4 x5 x6 x7 x8, (hF : [SField.env, .hostMem, .pcie, .arm, .slabs, .slabs2, .ports, .ports2, .tiles,
        .tiles2, .banks, .parts2, .ctxs, .funcs, .bankMem, .hbm] ⊆ F := by assumption) →
    Keeps F s (packetBank x0 x1 x2 x3 x4 x5 x6 x7 x8 t) := by
  intro x0 x1 x2 x3 x4 x5 x6 x7 x8 hF
  have f_bankFound : [SField.env, .hostMem, .pcie, .arm, .slabs, .slabs2, .ports, .ports2, .tiles, .tiles2, .banks,
      .parts2, .ctxs, .funcs, .bankMem, .hbm] ⊆ F := List.Subset.trans (by decide) hF
  have f_bankWrite : [SField.bankMem] ⊆ F := List.Subset.trans (by decide) hF
  have f_failSender : [SField.tiles, .ctxs] ⊆ F := List.Subset.trans (by decide) hF
  have f_ownerRefused : [SField.env, .hostMem, .pcie, .slabs2, .tiles2, .funcs] ⊆ F := List.Subset.trans (by decide)
      hF
  unfold packetBank
  repeat'
    first
    | with_reducible assumption | with_reducible apply keeps_bankFound | with_reducible apply keeps_bankWrite
    | with_reducible apply keeps_failSender | with_reducible apply keeps_ownerRefused
    | (extract_lets +onlyGivenNames x
       refine Keeps.cut (u := x) ?_ fun hx => ?_
       (on_goal 1 => unfold x)
       (on_goal 2 => (clear_value x; rename' x => y)))
    | (extract_lets +onlyGivenNames x; refine Keeps.keepEnv x ?_; rename' x => y)
    | (extract_lets +onlyGivenNames x; refine Keeps.keepSec x ?_; rename' x => y)
    | (extract_lets +onlyGivenNames x; refine Keeps.keepArm x ?_; rename' x => y)
    | (extract_lets +onlyGivenNames x; refine Keeps.keepMeter x ?_; rename' x => y)
    | (extract_lets +onlyGivenNames x; clear_value x; rename' x => y)
    | split

theorem keeps_packetHbm (h : Keeps F s t) :
    ∀ x0 x1 x2 x3, (hF : [SField.env, .hostMem, .pcie, .slabs2, .ports, .ports2, .tiles, .banks, .parts2, .ctxs,
        .funcs, .hbm] ⊆ F := by assumption) →
    Keeps F s (packetHbm x0 x1 x2 x3 t) := by
  intro x0 x1 x2 x3 hF
  have f_hbmFixed : [SField.slabs2] ⊆ F := List.Subset.trans (by decide) hF
  have f_countAcc : [SField.env, .slabs2, .ctxs] ⊆ F := List.Subset.trans (by decide) hF
  have f_hbmFault : [SField.env, .hostMem, .pcie, .slabs2, .ports, .ports2, .tiles, .banks, .parts2, .ctxs, .funcs,
      .hbm] ⊆ F := List.Subset.trans (by decide) hF
  have f_hbmWrite : [SField.hbm] ⊆ F := List.Subset.trans (by decide) hF
  unfold packetHbm
  repeat'
    first
    | with_reducible assumption | with_reducible apply keeps_hbmFixed | with_reducible apply keeps_countAcc
    | with_reducible apply keeps_hbmFault | with_reducible apply keeps_hbmWrite
    | (extract_lets +onlyGivenNames x
       refine Keeps.cut (u := x) ?_ fun hx => ?_
       (on_goal 1 => unfold x)
       (on_goal 2 => (clear_value x; rename' x => y)))
    | (extract_lets +onlyGivenNames x; refine Keeps.keepEnv x ?_; rename' x => y)
    | (extract_lets +onlyGivenNames x; refine Keeps.keepSec x ?_; rename' x => y)
    | (extract_lets +onlyGivenNames x; refine Keeps.keepArm x ?_; rename' x => y)
    | (extract_lets +onlyGivenNames x; refine Keeps.keepMeter x ?_; rename' x => y)
    | (extract_lets +onlyGivenNames x; clear_value x; rename' x => y)
    | split

theorem keeps_packetHost (h : Keeps F s t) :
    ∀ x0 x1 x2, (hF : [SField.env, .hostMem, .pcie] ⊆ F := by assumption) →
    Keeps F s (packetHost x0 x1 x2 t) := by
  intro x0 x1 x2 hF
  have b_pcie : SField.pcie ∈ F := hF (by decide)
  have f_hostWrite : [SField.env, .hostMem] ⊆ F := List.Subset.trans (by decide) hF
  unfold packetHost
  repeat'
    first
    | with_reducible assumption | with_reducible apply keeps_hostWrite
    | (extract_lets +onlyGivenNames x
       refine Keeps.cut (u := x) ?_ fun hx => ?_
       (on_goal 1 => unfold x)
       (on_goal 2 => (clear_value x; rename' x => y)))
    | (extract_lets +onlyGivenNames x; refine Keeps.keepEnv x ?_; rename' x => y)
    | (extract_lets +onlyGivenNames x; refine Keeps.keepSec x ?_; rename' x => y)
    | (extract_lets +onlyGivenNames x; refine Keeps.keepArm x ?_; rename' x => y)
    | (extract_lets +onlyGivenNames x; refine Keeps.keepMeter x ?_; rename' x => y)
    | (extract_lets +onlyGivenNames x; clear_value x; rename' x => y)
    | split | with_reducible refine Keeps.light ?_ rfl rfl rfl rfl

theorem keeps_execPacketDeliver (h : Keeps F s t) :
    ∀ x0 x1 x2 x3, (hF : [SField.env, .hostMem, .pcie, .arm, .slabs, .slabs2, .ports, .ports2, .tiles, .tiles2,
        .banks, .parts2, .ctxs, .funcs, .bankMem, .hbm] ⊆ F := by assumption) →
    Yields F s (execPacketDeliver x0 x1 x2 x3 t) := by
  intro x0 x1 x2 x3 hF
  have b_env : SField.env ∈ F := hF (by decide)
  have b_arm : SField.arm ∈ F := hF (by decide)
  have f_misroute : [SField.env, .hostMem, .pcie, .slabs2, .funcs] ⊆ F := List.Subset.trans (by decide) hF
  have f_startExch : [SField.parts2] ⊆ F := List.Subset.trans (by decide) hF
  have f_failSender : [SField.tiles, .ctxs] ⊆ F := List.Subset.trans (by decide) hF
  have f_holdAcc : [SField.env] ⊆ F := List.Subset.trans (by decide) hF
  have f_packetBank : [SField.env, .hostMem, .pcie, .arm, .slabs, .slabs2, .ports, .ports2, .tiles, .tiles2, .banks,
      .parts2, .ctxs, .funcs, .bankMem, .hbm] ⊆ F := List.Subset.trans (by decide) hF
  have f_packetHbm : [SField.env, .hostMem, .pcie, .slabs2, .ports, .ports2, .tiles, .banks, .parts2, .ctxs, .funcs,
      .hbm] ⊆ F := List.Subset.trans (by decide) hF
  have f_packetHost : [SField.env, .hostMem, .pcie] ⊆ F := List.Subset.trans (by decide) hF
  have f_modFab : [SField.slabs2] ⊆ F := List.Subset.trans (by decide) hF
  unfold execPacketDeliver
  repeat'
    first
    | with_reducible assumption | with_reducible apply keeps_misroute | with_reducible apply keeps_startExch
    | with_reducible apply keeps_failSender | with_reducible apply keeps_holdAcc
    | with_reducible apply keeps_packetBank | with_reducible apply keeps_packetHbm
    | with_reducible apply keeps_packetHost | with_reducible apply keeps_modFab | with_reducible apply Keeps.answer
    | with_reducible apply Yields.next
    | (extract_lets +onlyGivenNames x
       refine Yields.cut (u := x) ?_ fun hx => ?_
       (on_goal 1 => unfold x)
       (on_goal 2 => (clear_value x; rename' x => y)))
    | (extract_lets +onlyGivenNames x
       refine Keeps.cut (u := x) ?_ fun hx => ?_
       (on_goal 1 => unfold x)
       (on_goal 2 => (clear_value x; rename' x => y)))
    | (extract_lets +onlyGivenNames x; refine Keeps.keepEnv x ?_; rename' x => y)
    | (extract_lets +onlyGivenNames x; refine Keeps.keepSec x ?_; rename' x => y)
    | (extract_lets +onlyGivenNames x; refine Keeps.keepArm x ?_; rename' x => y)
    | (extract_lets +onlyGivenNames x; refine Keeps.keepMeter x ?_; rename' x => y)
    | (extract_lets +onlyGivenNames x; clear_value x; rename' x => y)
    | split | with_reducible refine Keeps.light ?_ rfl rfl rfl rfl

theorem keeps_execHbmScrubWrite (h : Keeps F s t) :
    ∀ x0 x1 x2, (hF : [SField.slabs2] ⊆ F := by assumption) →
    Yields F s (execHbmScrubWrite x0 x1 x2 t) := by
  intro x0 x1 x2 hF
  have b_slabs2 : SField.slabs2 ∈ F := hF (by decide)
  unfold execHbmScrubWrite
  repeat'
    first
    | with_reducible assumption | with_reducible apply Keeps.modSlab2 | with_reducible apply Yields.next
    | (extract_lets +onlyGivenNames x
       refine Yields.cut (u := x) ?_ fun hx => ?_
       (on_goal 1 => unfold x)
       (on_goal 2 => (clear_value x; rename' x => y)))
    | (extract_lets +onlyGivenNames x
       refine Keeps.cut (u := x) ?_ fun hx => ?_
       (on_goal 1 => unfold x)
       (on_goal 2 => (clear_value x; rename' x => y)))
    | (extract_lets +onlyGivenNames x; refine Keeps.keepEnv x ?_; rename' x => y)
    | (extract_lets +onlyGivenNames x; refine Keeps.keepSec x ?_; rename' x => y)
    | (extract_lets +onlyGivenNames x; refine Keeps.keepArm x ?_; rename' x => y)
    | (extract_lets +onlyGivenNames x; refine Keeps.keepMeter x ?_; rename' x => y)
    | (extract_lets +onlyGivenNames x; clear_value x; rename' x => y)
    | split | with_reducible refine Keeps.light ?_ rfl rfl rfl rfl

theorem keeps_execHbmScrubPass (h : Keeps F s t) :
    ∀ x0 x1 x2, (hF : [SField.env, .hostMem, .pcie, .slabs2, .funcs, .hbm] ⊆ F := by assumption) →
    Yields F s (execHbmScrubPass x0 x1 x2 t) := by
  intro x0 x1 x2 hF
  have b_slabs2 : SField.slabs2 ∈ F := hF (by decide)
  have f_hbmFailLog : [SField.env, .hostMem, .pcie, .slabs2, .funcs, .hbm] ⊆ F := List.Subset.trans (by decide) hF
  have f_hbmEvent : [SField.env, .hostMem, .pcie, .slabs2, .funcs] ⊆ F := List.Subset.trans (by decide) hF
  unfold execHbmScrubPass
  repeat'
    first
    | with_reducible assumption | with_reducible apply keeps_hbmFailLog | with_reducible apply keeps_hbmEvent
    | with_reducible apply Keeps.modSlab2 | with_reducible (refine Keeps.forAll ?_ _ _ fun _ _ _ => ?_)
    | with_reducible apply Yields.next
    | (extract_lets +onlyGivenNames x
       refine Yields.cut (u := x) ?_ fun hx => ?_
       (on_goal 1 => unfold x)
       (on_goal 2 => (clear_value x; rename' x => y)))
    | (extract_lets +onlyGivenNames x
       refine Keeps.cut (u := x) ?_ fun hx => ?_
       (on_goal 1 => unfold x)
       (on_goal 2 => (clear_value x; rename' x => y)))
    | (extract_lets +onlyGivenNames x; refine Keeps.keepEnv x ?_; rename' x => y)
    | (extract_lets +onlyGivenNames x; refine Keeps.keepSec x ?_; rename' x => y)
    | (extract_lets +onlyGivenNames x; refine Keeps.keepArm x ?_; rename' x => y)
    | (extract_lets +onlyGivenNames x; refine Keeps.keepMeter x ?_; rename' x => y)
    | (extract_lets +onlyGivenNames x; clear_value x; rename' x => y)
    | split

theorem keeps_poisonUnit (h : Keeps F s t) :
    ∀ x0, (hF : [SField.hbm] ⊆ F := by assumption) →
    Keeps F s (poisonUnit x0 t) := by
  intro x0 hF
  have f_setGran : [SField.hbm] ⊆ F := List.Subset.trans (by decide) hF
  unfold poisonUnit
  repeat'
    first
    | with_reducible assumption | with_reducible (refine Keeps.forAll ?_ _ _ fun _ _ _ => ?_)
    | with_reducible apply keeps_setGran
    | (extract_lets +onlyGivenNames x
       refine Keeps.cut (u := x) ?_ fun hx => ?_
       (on_goal 1 => unfold x)
       (on_goal 2 => (clear_value x; rename' x => y)))
    | (extract_lets +onlyGivenNames x; refine Keeps.keepEnv x ?_; rename' x => y)
    | (extract_lets +onlyGivenNames x; refine Keeps.keepSec x ?_; rename' x => y)
    | (extract_lets +onlyGivenNames x; refine Keeps.keepArm x ?_; rename' x => y)
    | (extract_lets +onlyGivenNames x; refine Keeps.keepMeter x ?_; rename' x => y)
    | (extract_lets +onlyGivenNames x; clear_value x; rename' x => y)
    | split | with_reducible refine Keeps.light ?_ rfl rfl rfl rfl

theorem keeps_execStackSubstitute (h : Keeps F s t) :
    ∀ x0, (hF : [SField.env, .hostMem, .pcie, .slabs2, .parts2, .funcs, .hbm] ⊆ F := by assumption) →
    Yields F s (execStackSubstitute x0 t) := by
  intro x0 hF
  have f_fixSubst : [SField.parts2] ⊆ F := List.Subset.trans (by decide) hF
  have f_poisonUnit : [SField.hbm] ⊆ F := List.Subset.trans (by decide) hF
  have f_repairWeights : [SField.env, .hostMem, .pcie, .slabs2, .funcs, .hbm] ⊆ F := List.Subset.trans (by decide) hF
  have f_dropStop : [SField.parts2] ⊆ F := List.Subset.trans (by decide) hF
  unfold execStackSubstitute
  repeat'
    first
    | with_reducible assumption | with_reducible apply keeps_fixSubst | with_reducible apply keeps_poisonUnit
    | with_reducible apply keeps_repairWeights | with_reducible apply keeps_dropStop
    | with_reducible (refine Keeps.forAll ?_ _ _ fun _ _ _ => ?_) | with_reducible apply Yields.next
    | (extract_lets +onlyGivenNames x
       refine Yields.cut (u := x) ?_ fun hx => ?_
       (on_goal 1 => unfold x)
       (on_goal 2 => (clear_value x; rename' x => y)))
    | (extract_lets +onlyGivenNames x
       refine Keeps.cut (u := x) ?_ fun hx => ?_
       (on_goal 1 => unfold x)
       (on_goal 2 => (clear_value x; rename' x => y)))
    | (extract_lets +onlyGivenNames x; refine Keeps.keepEnv x ?_; rename' x => y)
    | (extract_lets +onlyGivenNames x; refine Keeps.keepSec x ?_; rename' x => y)
    | (extract_lets +onlyGivenNames x; refine Keeps.keepArm x ?_; rename' x => y)
    | (extract_lets +onlyGivenNames x; refine Keeps.keepMeter x ?_; rename' x => y)
    | (extract_lets +onlyGivenNames x; clear_value x; rename' x => y)
    | split

end Sys2Proof.Machine
end

