-- ==== Sys2Proof/Laws/KeepsArmature.lean ====
section
/-! SUPPORT. What every operation and meaning of Machine/Armature.lean keeps: the queue, the canonical form, what lasts, and every part
of the state outside its own list. -/

set_option linter.unreachableTactic false
set_option linter.unusedTactic false
set_option linter.unusedVariables false
set_option linter.tactic.unusedName false

namespace Sys2Proof.Machine

open Sys2Proof

-- Proofs one after another: the package compiles as one text under a memory limit.
set_option Elab.async false

variable {F : List SField} {s t : State}

theorem keeps_deviceWide (h : Keeps F s t) :
    (hF : [SField.pkg, .ports2] ⊆ F := by assumption) →
    Keeps F s (deviceWide t) := by
  intro hF
  have b_pkg : SField.pkg ∈ F := hF (by decide)
  have b_ports2 : SField.ports2 ∈ F := hF (by decide)
  unfold deviceWide
  repeat'
    first
    | with_reducible assumption | with_reducible (refine Keeps.forAll ?_ _ _ fun _ _ _ => ?_)
    | with_reducible apply Keeps.modPort2
    | (extract_lets +onlyGivenNames x
       refine Keeps.cut (u := x) ?_ fun hx => ?_
       (on_goal 1 => unfold x)
       (on_goal 2 => (clear_value x; rename' x => y)))
    | (extract_lets +onlyGivenNames x; refine Keeps.keepEnv x ?_; rename' x => y)
    | (extract_lets +onlyGivenNames x; refine Keeps.keepSec x ?_; rename' x => y)
    | (extract_lets +onlyGivenNames x; refine Keeps.keepArm x ?_; rename' x => y)
    | (extract_lets +onlyGivenNames x; refine Keeps.keepMeter x ?_; rename' x => y)
    | (extract_lets +onlyGivenNames x; clear_value x; rename' x => y)
    | split | with_reducible refine Keeps.light ?_ rfl rfl rfl rfl

theorem keeps_refreshSlab (h : Keeps F s t) :
    ∀ x0 x1, (hF : [SField.env, .hostMem, .pcie, .slabs, .slabs2, .ports, .tiles, .tiles2, .banks, .ctxs, .funcs,
        .bankMem] ⊆ F := by assumption) →
    Keeps F s (refreshSlab x0 x1 t) := by
  intro x0 x1 hF
  have b_slabs : SField.slabs ∈ F := hF (by decide)
  have f_wakePos : [SField.slabs, .slabs2, .tiles, .tiles2, .banks, .bankMem] ⊆ F := List.Subset.trans (by decide) hF
  have f_applyWords : [SField.env, .hostMem, .pcie, .slabs, .slabs2, .ports, .tiles, .ctxs, .funcs] ⊆ F :=
      List.Subset.trans (by decide) hF
  unfold refreshSlab
  repeat'
    first
    | with_reducible assumption | with_reducible apply keeps_wakePos | with_reducible apply keeps_applyWords
    | with_reducible apply Keeps.modSlab
    | (extract_lets +onlyGivenNames x
       refine Keeps.cut (u := x) ?_ fun hx => ?_
       (on_goal 1 => unfold x)
       (on_goal 2 => (clear_value x; rename' x => y)))
    | (extract_lets +onlyGivenNames x; refine Keeps.keepEnv x ?_; rename' x => y)
    | (extract_lets +onlyGivenNames x; refine Keeps.keepSec x ?_; rename' x => y)
    | (extract_lets +onlyGivenNames x; refine Keeps.keepArm x ?_; rename' x => y)
    | (extract_lets +onlyGivenNames x; refine Keeps.keepMeter x ?_; rename' x => y)
    | (extract_lets +onlyGivenNames x; clear_value x; rename' x => y)
    | split

theorem keeps_armDone (h : Keeps F s t) :
    ∀ x0 x1, (hF : [SField.env, .hostMem, .pcie, .arm, .arm2, .funcs] ⊆ F := by assumption) →
    Keeps F s (armDone x0 x1 t) := by
  intro x0 x1 hF
  have b_arm : SField.arm ∈ F := hF (by decide)
  have b_arm2 : SField.arm2 ∈ F := hF (by decide)
  have f_armEvent : [SField.env, .hostMem, .pcie, .arm, .funcs] ⊆ F := List.Subset.trans (by decide) hF
  unfold armDone
  repeat'
    first
    | with_reducible assumption | with_reducible apply keeps_armEvent
    | (extract_lets +onlyGivenNames x
       refine Keeps.cut (u := x) ?_ fun hx => ?_
       (on_goal 1 => unfold x)
       (on_goal 2 => (clear_value x; rename' x => y)))
    | (extract_lets +onlyGivenNames x; refine Keeps.keepEnv x ?_; rename' x => y)
    | (extract_lets +onlyGivenNames x; refine Keeps.keepSec x ?_; rename' x => y)
    | (extract_lets +onlyGivenNames x; refine Keeps.keepArm x ?_; rename' x => y)
    | (extract_lets +onlyGivenNames x; refine Keeps.keepMeter x ?_; rename' x => y)
    | (extract_lets +onlyGivenNames x; clear_value x; rename' x => y)
    | split | with_reducible refine Keeps.light ?_ rfl rfl rfl rfl

theorem keeps_armRefuse (h : Keeps F s t) :
    ∀ x0, (hF : [SField.env, .hostMem, .pcie, .arm, .arm2, .funcs] ⊆ F := by assumption) →
    Keeps F s (armRefuse x0 t) := by
  intro x0 hF
  have f_armDone : [SField.env, .hostMem, .pcie, .arm, .arm2, .funcs] ⊆ F := List.Subset.trans (by decide) hF
  unfold armRefuse
  repeat'
    first
    | with_reducible assumption | with_reducible apply keeps_armDone
    | (extract_lets +onlyGivenNames x
       refine Keeps.cut (u := x) ?_ fun hx => ?_
       (on_goal 1 => unfold x)
       (on_goal 2 => (clear_value x; rename' x => y)))
    | (extract_lets +onlyGivenNames x; refine Keeps.keepEnv x ?_; rename' x => y)
    | (extract_lets +onlyGivenNames x; refine Keeps.keepSec x ?_; rename' x => y)
    | (extract_lets +onlyGivenNames x; refine Keeps.keepArm x ?_; rename' x => y)
    | (extract_lets +onlyGivenNames x; refine Keeps.keepMeter x ?_; rename' x => y)
    | (extract_lets +onlyGivenNames x; clear_value x; rename' x => y)
    | split | with_reducible refine Keeps.light ?_ rfl rfl rfl rfl

theorem keeps_armStart (h : Keeps F s t) :
    ∀ x0, (hF : [SField.env, .hostMem, .pcie, .arm, .arm2, .parts2, .funcs] ⊆ F := by assumption) →
    Keeps F s (armStart x0 t) := by
  intro x0 hF
  have b_arm2 : SField.arm2 ∈ F := hF (by decide)
  have f_armDone : [SField.env, .hostMem, .pcie, .arm, .arm2, .funcs] ⊆ F := List.Subset.trans (by decide) hF
  have f_addStop : [SField.parts2] ⊆ F := List.Subset.trans (by decide) hF
  unfold armStart
  repeat'
    first
    | with_reducible assumption | with_reducible apply keeps_armDone
    | with_reducible (refine Keeps.forAll ?_ _ _ fun _ _ _ => ?_) | with_reducible apply keeps_addStop
    | (extract_lets +onlyGivenNames x
       refine Keeps.cut (u := x) ?_ fun hx => ?_
       (on_goal 1 => unfold x)
       (on_goal 2 => (clear_value x; rename' x => y)))
    | (extract_lets +onlyGivenNames x; refine Keeps.keepEnv x ?_; rename' x => y)
    | (extract_lets +onlyGivenNames x; refine Keeps.keepSec x ?_; rename' x => y)
    | (extract_lets +onlyGivenNames x; refine Keeps.keepArm x ?_; rename' x => y)
    | (extract_lets +onlyGivenNames x; refine Keeps.keepMeter x ?_; rename' x => y)
    | (extract_lets +onlyGivenNames x; clear_value x; rename' x => y)
    | split | with_reducible refine Keeps.light ?_ rfl rfl rfl rfl

theorem keeps_execArmApply (h : Keeps F s t) :
    (hF : [SField.env, .hostMem, .pkg, .pcie, .sec, .arm, .arm2, .slabs, .slabs2, .ports, .ports2, .tiles, .tiles2,
        .banks, .parts2, .ctxs, .funcs, .bankMem] ⊆ F := by assumption) →
    Yields F s (execArmApply t) := by
  intro hF
  have b_sec : SField.sec ∈ F := hF (by decide)
  have b_arm : SField.arm ∈ F := hF (by decide)
  have f_armRefuse : [SField.env, .hostMem, .pcie, .arm, .arm2, .funcs] ⊆ F := List.Subset.trans (by decide) hF
  have f_armDone : [SField.env, .hostMem, .pcie, .arm, .arm2, .funcs] ⊆ F := List.Subset.trans (by decide) hF
  have f_logFact : [SField.arm] ⊆ F := List.Subset.trans (by decide) hF
  have f_armStart : [SField.env, .hostMem, .pcie, .arm, .arm2, .parts2, .funcs] ⊆ F := List.Subset.trans (by decide)
      hF
  have f_deviceWide : [SField.pkg, .ports2] ⊆ F := List.Subset.trans (by decide) hF
  have f_refreshSlab : [SField.env, .hostMem, .pcie, .slabs, .slabs2, .ports, .tiles, .tiles2, .banks, .ctxs,
      .funcs, .bankMem] ⊆ F := List.Subset.trans (by decide) hF
  unfold execArmApply
  split
  · extract_lets cand cur sec arm
    clear_value cur
    split
    · exact Yields.next (keeps_armRefuse h _)
    · split
      · exact Yields.next (keeps_armRefuse h _)
      · clear_value cand
        cases cand with
        | none => exact Yields.next (keeps_armRefuse h _)
        | some i =>
          dsimp only
          split
          · exact Yields.next (keeps_armRefuse h _)
          · split
            · exact Yields.next (keeps_armDone h _ _)
            · split
              · exact Yields.next (keeps_armRefuse h _)
              · refine Yields.next (Keeps.forAll (keeps_logFact (keeps_armStart (keeps_deviceWide ?_) _) _ _ _ _ _) _ _
                  fun n u hu => keeps_refreshSlab hu true n)
                refine Keeps.plain h rfl ?_ ?_ le_rfl
                · have hp : pf i.payload 8 0 32 < 2 ^ 32 := Nat.mod_lt _ (by decide)
                  have := t.sec.fwFloor.isLt
                  show _ ≤ (BitVec.ofNat 32 _).toNat
                  rw [BitVec.toNat_ofNat, Nat.mod_eq_of_lt (max_lt this hp)]
                  exact le_max_left _ _
                · dsimp only
                  split <;> omega
  · exact Yields.next h

theorem keeps_armMove (h : Keeps F s t) :
    ∀ x0 x1, (hF : [SField.env, .hostMem, .pcie, .arm, .arm2, .parts2, .funcs] ⊆ F := by assumption) →
    Keeps F s (armMove x0 x1 t) := by
  intro x0 x1 hF
  have f_armDone : [SField.env, .hostMem, .pcie, .arm, .arm2, .funcs] ⊆ F := List.Subset.trans (by decide) hF
  have f_armRefuse : [SField.env, .hostMem, .pcie, .arm, .arm2, .funcs] ⊆ F := List.Subset.trans (by decide) hF
  have f_armStart : [SField.env, .hostMem, .pcie, .arm, .arm2, .parts2, .funcs] ⊆ F := List.Subset.trans (by decide)
      hF
  unfold armMove
  repeat'
    first
    | with_reducible assumption | with_reducible apply keeps_armDone | with_reducible apply keeps_armRefuse
    | with_reducible apply keeps_armStart
    | (extract_lets +onlyGivenNames x
       refine Keeps.cut (u := x) ?_ fun hx => ?_
       (on_goal 1 => unfold x)
       (on_goal 2 => (clear_value x; rename' x => y)))
    | (extract_lets +onlyGivenNames x; refine Keeps.keepEnv x ?_; rename' x => y)
    | (extract_lets +onlyGivenNames x; refine Keeps.keepSec x ?_; rename' x => y)
    | (extract_lets +onlyGivenNames x; refine Keeps.keepArm x ?_; rename' x => y)
    | (extract_lets +onlyGivenNames x; refine Keeps.keepMeter x ?_; rename' x => y)
    | (extract_lets +onlyGivenNames x; clear_value x; rename' x => y)
    | split | with_reducible refine Keeps.light ?_ rfl rfl rfl rfl

theorem keeps_restoreLimit (h : Keeps F s t) :
    (hF : [SField.pkg] ⊆ F := by assumption) →
    Keeps F s (restoreLimit t) := by
  intro hF
  have b_pkg : SField.pkg ∈ F := hF (by decide)
  unfold restoreLimit
  repeat'
    first
    | with_reducible assumption
    | (extract_lets +onlyGivenNames x
       refine Keeps.cut (u := x) ?_ fun hx => ?_
       (on_goal 1 => unfold x)
       (on_goal 2 => (clear_value x; rename' x => y)))
    | (extract_lets +onlyGivenNames x; refine Keeps.keepEnv x ?_; rename' x => y)
    | (extract_lets +onlyGivenNames x; refine Keeps.keepSec x ?_; rename' x => y)
    | (extract_lets +onlyGivenNames x; refine Keeps.keepArm x ?_; rename' x => y)
    | (extract_lets +onlyGivenNames x; refine Keeps.keepMeter x ?_; rename' x => y)
    | (extract_lets +onlyGivenNames x; clear_value x; rename' x => y)
    | split | with_reducible refine Keeps.light ?_ rfl rfl rfl rfl

theorem keeps_execArmRevert (h : Keeps F s t) :
    (hF : [SField.env, .hostMem, .pkg, .pcie, .arm, .arm2, .parts2, .funcs] ⊆ F := by assumption) →
    Yields F s (execArmRevert t) := by
  intro hF
  have f_armRefuse : [SField.env, .hostMem, .pcie, .arm, .arm2, .funcs] ⊆ F := List.Subset.trans (by decide) hF
  have f_armMove : [SField.env, .hostMem, .pcie, .arm, .arm2, .parts2, .funcs] ⊆ F := List.Subset.trans (by decide)
      hF
  have f_restoreLimit : [SField.pkg] ⊆ F := List.Subset.trans (by decide) hF
  unfold execArmRevert
  repeat'
    first
    | with_reducible assumption | with_reducible apply keeps_armRefuse | with_reducible apply keeps_armMove
    | with_reducible apply keeps_restoreLimit | with_reducible apply Yields.next
    | (extract_lets +onlyGivenNames x
       refine Yields.cut (u := x) ?_ fun hx => ?_
       (on_goal 1 => unfold x)
       (on_goal 2 => (clear_value x; rename' x => y)))
    | (extract_lets +onlyGivenNames x
       refine Keeps.cut (u := x) ?_ fun hx => ?_
       (on_goal 1 => unfold x)
       (on_goal 2 => (clear_value x; rename' x => y)))
    | (extract_lets +onlyGivenNames x; refine Keeps.keepEnv x ?_; rename' x => y)
    | (extract_lets +onlyGivenNames x; refine Keeps.keepSec x ?_; rename' x => y)
    | (extract_lets +onlyGivenNames x; refine Keeps.keepArm x ?_; rename' x => y)
    | (extract_lets +onlyGivenNames x; refine Keeps.keepMeter x ?_; rename' x => y)
    | (extract_lets +onlyGivenNames x; clear_value x; rename' x => y)
    | split | with_reducible refine Keeps.light ?_ rfl rfl rfl rfl

theorem keeps_execArmReturn (h : Keeps F s t) :
    (hF : [SField.env, .hostMem, .pcie, .arm, .arm2, .parts2, .funcs] ⊆ F := by assumption) →
    Yields F s (execArmReturn t) := by
  intro hF
  have f_armRefuse : [SField.env, .hostMem, .pcie, .arm, .arm2, .funcs] ⊆ F := List.Subset.trans (by decide) hF
  have f_armMove : [SField.env, .hostMem, .pcie, .arm, .arm2, .parts2, .funcs] ⊆ F := List.Subset.trans (by decide)
      hF
  unfold execArmReturn
  repeat'
    first
    | with_reducible assumption | with_reducible apply keeps_armRefuse | with_reducible apply keeps_armMove
    | with_reducible apply Yields.next
    | (extract_lets +onlyGivenNames x
       refine Yields.cut (u := x) ?_ fun hx => ?_
       (on_goal 1 => unfold x)
       (on_goal 2 => (clear_value x; rename' x => y)))
    | (extract_lets +onlyGivenNames x
       refine Keeps.cut (u := x) ?_ fun hx => ?_
       (on_goal 1 => unfold x)
       (on_goal 2 => (clear_value x; rename' x => y)))
    | (extract_lets +onlyGivenNames x; refine Keeps.keepEnv x ?_; rename' x => y)
    | (extract_lets +onlyGivenNames x; refine Keeps.keepSec x ?_; rename' x => y)
    | (extract_lets +onlyGivenNames x; refine Keeps.keepArm x ?_; rename' x => y)
    | (extract_lets +onlyGivenNames x; refine Keeps.keepMeter x ?_; rename' x => y)
    | (extract_lets +onlyGivenNames x; clear_value x; rename' x => y)
    | split | with_reducible refine Keeps.light ?_ rfl rfl rfl rfl

theorem keeps_execArmCheck (h : Keeps F s t) :
    (hF : [SField.env, .hostMem, .pcie, .arm, .arm2, .parts2, .funcs] ⊆ F := by assumption) →
    Yields F s (execArmCheck t) := by
  intro hF
  have b_arm2 : SField.arm2 ∈ F := hF (by decide)
  have f_armRefuse : [SField.env, .hostMem, .pcie, .arm, .arm2, .funcs] ⊆ F := List.Subset.trans (by decide) hF
  have f_armDone : [SField.env, .hostMem, .pcie, .arm, .arm2, .funcs] ⊆ F := List.Subset.trans (by decide) hF
  have f_startExch : [SField.parts2] ⊆ F := List.Subset.trans (by decide) hF
  unfold execArmCheck
  repeat'
    first
    | with_reducible assumption | with_reducible apply keeps_armRefuse | with_reducible apply keeps_armDone
    | with_reducible (refine Keeps.forAll ?_ _ _ fun _ _ _ => ?_) | with_reducible apply keeps_startExch
    | with_reducible apply Yields.next
    | (extract_lets +onlyGivenNames x
       refine Yields.cut (u := x) ?_ fun hx => ?_
       (on_goal 1 => unfold x)
       (on_goal 2 => (clear_value x; rename' x => y)))
    | (extract_lets +onlyGivenNames x
       refine Keeps.cut (u := x) ?_ fun hx => ?_
       (on_goal 1 => unfold x)
       (on_goal 2 => (clear_value x; rename' x => y)))
    | (extract_lets +onlyGivenNames x; refine Keeps.keepEnv x ?_; rename' x => y)
    | (extract_lets +onlyGivenNames x; refine Keeps.keepSec x ?_; rename' x => y)
    | (extract_lets +onlyGivenNames x; refine Keeps.keepArm x ?_; rename' x => y)
    | (extract_lets +onlyGivenNames x; refine Keeps.keepMeter x ?_; rename' x => y)
    | (extract_lets +onlyGivenNames x; clear_value x; rename' x => y)
    | split | with_reducible refine Keeps.light ?_ rfl rfl rfl rfl

theorem keeps_exchangeSlots (h : Keeps F s t) :
    (hF : [SField.env, .hostMem, .pkg, .pcie, .arm, .slabs, .slabs2, .ports, .ports2, .tiles, .tiles2, .banks, .ctxs,
        .funcs, .bankMem] ⊆ F := by assumption) →
    Keeps F s (exchangeSlots t) := by
  intro hF
  have b_arm : SField.arm ∈ F := hF (by decide)
  have f_deviceWide : [SField.pkg, .ports2] ⊆ F := List.Subset.trans (by decide) hF
  have f_refreshSlab : [SField.env, .hostMem, .pcie, .slabs, .slabs2, .ports, .tiles, .tiles2, .banks, .ctxs,
      .funcs, .bankMem] ⊆ F := List.Subset.trans (by decide) hF
  unfold exchangeSlots
  split
  · dsimp only
    refine Keeps.forAll (keeps_deviceWide ?_) _ _ fun n u hu => keeps_refreshSlab hu true n
    with_reducible exact h.light rfl rfl rfl rfl
  · exact h

theorem keeps_switchPart (h : Keeps F s t) :
    ∀ x0, (hF : [SField.env, .hostMem, .pcie, .arm, .arm2, .pkc, .pkc2, .slabs, .slabs2, .ports, .tiles, .tiles2,
        .banks, .parts, .parts2, .ctxs, .funcs, .bankMem] ⊆ F := by assumption) →
    Keeps F s (switchPart x0 t) := by
  intro x0 hF
  have b_arm : SField.arm ∈ F := hF (by decide)
  have b_arm2 : SField.arm2 ∈ F := hF (by decide)
  have b_slabs2 : SField.slabs2 ∈ F := hF (by decide)
  have b_parts : SField.parts ∈ F := hF (by decide)
  have b_parts2 : SField.parts2 ∈ F := hF (by decide)
  have f_powerOn : [SField.pkc, .pkc2, .slabs, .slabs2, .tiles, .tiles2, .banks, .bankMem] ⊆ F := List.Subset.trans
      (by decide) hF
  have f_refreshSlab : [SField.env, .hostMem, .pcie, .slabs, .slabs2, .ports, .tiles, .tiles2, .banks, .ctxs, .funcs,
      .bankMem] ⊆ F := List.Subset.trans (by decide) hF
  have f_failJob : [SField.env, .hostMem, .pcie, .ports, .tiles, .ctxs, .funcs] ⊆ F := List.Subset.trans (by decide)
      hF
  have f_armEvent : [SField.env, .hostMem, .pcie, .arm, .funcs] ⊆ F := List.Subset.trans (by decide) hF
  have f_post : [SField.env, .hostMem, .pcie, .funcs] ⊆ F := List.Subset.trans (by decide) hF
  have f_logFact : [SField.arm] ⊆ F := List.Subset.trans (by decide) hF
  have f_startExch : [SField.parts2] ⊆ F := List.Subset.trans (by decide) hF
  have f_dropStop : [SField.parts2] ⊆ F := List.Subset.trans (by decide) hF
  unfold switchPart
  repeat'
    first
    | with_reducible assumption | with_reducible apply keeps_powerOn | with_reducible apply keeps_refreshSlab
    | with_reducible apply keeps_failJob | with_reducible apply keeps_armEvent | with_reducible apply keeps_post
    | with_reducible apply keeps_logFact | with_reducible apply keeps_startExch | with_reducible apply keeps_dropStop
    | with_reducible apply Keeps.modSlab2 | with_reducible apply Keeps.setPart | with_reducible apply Keeps.modPart2
    | with_reducible (refine Keeps.forAll ?_ _ _ fun _ _ _ => ?_)
    | (extract_lets +onlyGivenNames x
       refine Keeps.cut (u := x) ?_ fun hx => ?_
       (on_goal 1 => unfold x)
       (on_goal 2 => (clear_value x; rename' x => y)))
    | (extract_lets +onlyGivenNames x; refine Keeps.keepEnv x ?_; rename' x => y)
    | (extract_lets +onlyGivenNames x; refine Keeps.keepSec x ?_; rename' x => y)
    | (extract_lets +onlyGivenNames x; refine Keeps.keepArm x ?_; rename' x => y)
    | (extract_lets +onlyGivenNames x; refine Keeps.keepMeter x ?_; rename' x => y)
    | (extract_lets +onlyGivenNames x; clear_value x; rename' x => y)
    | split | with_reducible refine Keeps.light ?_ rfl rfl rfl rfl

theorem keeps_execPartitionSwitch (h : Keeps F s t) :
    ∀ x0, (hF : [SField.env, .hostMem, .pkg, .pcie, .arm, .arm2, .pkc, .pkc2, .slabs, .slabs2, .ports, .ports2,
        .tiles, .tiles2, .banks, .parts, .parts2, .ctxs, .funcs, .bankMem] ⊆ F := by assumption) →
    Yields F s (execPartitionSwitch x0 t) := by
  intro x0 hF
  have f_switchPart : [SField.env, .hostMem, .pcie, .arm, .arm2, .pkc, .pkc2, .slabs, .slabs2, .ports, .tiles,
      .tiles2, .banks, .parts, .parts2, .ctxs, .funcs, .bankMem] ⊆ F := List.Subset.trans (by decide) hF
  have f_armDone : [SField.env, .hostMem, .pcie, .arm, .arm2, .funcs] ⊆ F := List.Subset.trans (by decide) hF
  have f_exchangeSlots : [SField.env, .hostMem, .pkg, .pcie, .arm, .slabs, .slabs2, .ports, .ports2, .tiles,
      .tiles2, .banks, .ctxs, .funcs, .bankMem] ⊆ F := List.Subset.trans (by decide) hF
  unfold execPartitionSwitch
  repeat'
    first
    | with_reducible assumption | with_reducible apply keeps_switchPart | with_reducible apply keeps_armDone
    | with_reducible apply keeps_exchangeSlots | with_reducible apply Yields.next
    | (extract_lets +onlyGivenNames x
       refine Yields.cut (u := x) ?_ fun hx => ?_
       (on_goal 1 => unfold x)
       (on_goal 2 => (clear_value x; rename' x => y)))
    | (extract_lets +onlyGivenNames x
       refine Keeps.cut (u := x) ?_ fun hx => ?_
       (on_goal 1 => unfold x)
       (on_goal 2 => (clear_value x; rename' x => y)))
    | (extract_lets +onlyGivenNames x; refine Keeps.keepEnv x ?_; rename' x => y)
    | (extract_lets +onlyGivenNames x; refine Keeps.keepSec x ?_; rename' x => y)
    | (extract_lets +onlyGivenNames x; refine Keeps.keepArm x ?_; rename' x => y)
    | (extract_lets +onlyGivenNames x; refine Keeps.keepMeter x ?_; rename' x => y)
    | (extract_lets +onlyGivenNames x; clear_value x; rename' x => y)
    | split | with_reducible refine Keeps.light ?_ rfl rfl rfl rfl

theorem keeps_execDigestReplyTimeout (h : Keeps F s t) :
    ∀ x0 x1, (hF : [SField.parts2] ⊆ F := by assumption) →
    Yields F s (execDigestReplyTimeout x0 x1 t) := by
  intro x0 x1 hF
  have b_parts2 : SField.parts2 ∈ F := hF (by decide)
  unfold execDigestReplyTimeout
  repeat'
    first
    | with_reducible assumption | with_reducible apply Keeps.modPart2 | with_reducible apply Yields.next
    | (extract_lets +onlyGivenNames x
       refine Yields.cut (u := x) ?_ fun hx => ?_
       (on_goal 1 => unfold x)
       (on_goal 2 => (clear_value x; rename' x => y)))
    | (extract_lets +onlyGivenNames x
       refine Keeps.cut (u := x) ?_ fun hx => ?_
       (on_goal 1 => unfold x)
       (on_goal 2 => (clear_value x; rename' x => y)))
    | (extract_lets +onlyGivenNames x; refine Keeps.keepEnv x ?_; rename' x => y)
    | (extract_lets +onlyGivenNames x; refine Keeps.keepSec x ?_; rename' x => y)
    | (extract_lets +onlyGivenNames x; refine Keeps.keepArm x ?_; rename' x => y)
    | (extract_lets +onlyGivenNames x; refine Keeps.keepMeter x ?_; rename' x => y)
    | (extract_lets +onlyGivenNames x; clear_value x; rename' x => y)
    | split | with_reducible refine Keeps.light ?_ rfl rfl rfl rfl

theorem keeps_checkEnds (h : Keeps F s t) :
    ∀ x0, (hF : [SField.env, .hostMem, .pcie, .arm, .arm2, .funcs] ⊆ F := by assumption) →
    Keeps F s (checkEnds x0 t) := by
  intro x0 hF
  have b_arm2 : SField.arm2 ∈ F := hF (by decide)
  have f_armDone : [SField.env, .hostMem, .pcie, .arm, .arm2, .funcs] ⊆ F := List.Subset.trans (by decide) hF
  unfold checkEnds
  repeat'
    first
    | with_reducible assumption | with_reducible apply keeps_armDone
    | (extract_lets +onlyGivenNames x
       refine Keeps.cut (u := x) ?_ fun hx => ?_
       (on_goal 1 => unfold x)
       (on_goal 2 => (clear_value x; rename' x => y)))
    | (extract_lets +onlyGivenNames x; refine Keeps.keepEnv x ?_; rename' x => y)
    | (extract_lets +onlyGivenNames x; refine Keeps.keepSec x ?_; rename' x => y)
    | (extract_lets +onlyGivenNames x; refine Keeps.keepArm x ?_; rename' x => y)
    | (extract_lets +onlyGivenNames x; refine Keeps.keepMeter x ?_; rename' x => y)
    | (extract_lets +onlyGivenNames x; clear_value x; rename' x => y)
    | split | with_reducible refine Keeps.light ?_ rfl rfl rfl rfl

theorem keeps_exchAgrees (h : Keeps F s t) :
    ∀ x0 x1, (hF : [SField.env, .hostMem, .pcie, .arm, .parts2, .funcs] ⊆ F := by assumption) →
    Keeps F s (exchAgrees x0 x1 t) := by
  intro x0 x1 hF
  have b_parts2 : SField.parts2 ∈ F := hF (by decide)
  have f_dropStop : [SField.parts2] ⊆ F := List.Subset.trans (by decide) hF
  have f_armEvent : [SField.env, .hostMem, .pcie, .arm, .funcs] ⊆ F := List.Subset.trans (by decide) hF
  have f_logFact : [SField.arm] ⊆ F := List.Subset.trans (by decide) hF
  unfold exchAgrees
  repeat'
    first
    | with_reducible assumption | with_reducible apply keeps_dropStop | with_reducible apply Keeps.modPart2
    | with_reducible apply keeps_armEvent | with_reducible apply keeps_logFact
    | (extract_lets +onlyGivenNames x
       refine Keeps.cut (u := x) ?_ fun hx => ?_
       (on_goal 1 => unfold x)
       (on_goal 2 => (clear_value x; rename' x => y)))
    | (extract_lets +onlyGivenNames x; refine Keeps.keepEnv x ?_; rename' x => y)
    | (extract_lets +onlyGivenNames x; refine Keeps.keepSec x ?_; rename' x => y)
    | (extract_lets +onlyGivenNames x; refine Keeps.keepArm x ?_; rename' x => y)
    | (extract_lets +onlyGivenNames x; refine Keeps.keepMeter x ?_; rename' x => y)
    | (extract_lets +onlyGivenNames x; clear_value x; rename' x => y)
    | split | with_reducible refine Keeps.light ?_ rfl rfl rfl rfl

theorem keeps_exchDiscord (h : Keeps F s t) :
    ∀ x0 x1 x2, (hF : [SField.env, .hostMem, .pcie, .arm, .arm2, .parts2, .funcs] ⊆ F := by assumption) →
    Keeps F s (exchDiscord x0 x1 x2 t) := by
  intro x0 x1 x2 hF
  have b_arm2 : SField.arm2 ∈ F := hF (by decide)
  have b_parts2 : SField.parts2 ∈ F := hF (by decide)
  have f_armEvent : [SField.env, .hostMem, .pcie, .arm, .funcs] ⊆ F := List.Subset.trans (by decide) hF
  have f_post : [SField.env, .hostMem, .pcie, .funcs] ⊆ F := List.Subset.trans (by decide) hF
  have f_addStop : [SField.parts2] ⊆ F := List.Subset.trans (by decide) hF
  unfold exchDiscord
  repeat'
    first
    | with_reducible assumption | with_reducible apply Keeps.modPart2 | with_reducible apply keeps_armEvent
    | with_reducible apply keeps_post | with_reducible apply keeps_addStop
    | (extract_lets +onlyGivenNames x
       refine Keeps.cut (u := x) ?_ fun hx => ?_
       (on_goal 1 => unfold x)
       (on_goal 2 => (clear_value x; rename' x => y)))
    | (extract_lets +onlyGivenNames x; refine Keeps.keepEnv x ?_; rename' x => y)
    | (extract_lets +onlyGivenNames x; refine Keeps.keepSec x ?_; rename' x => y)
    | (extract_lets +onlyGivenNames x; refine Keeps.keepArm x ?_; rename' x => y)
    | (extract_lets +onlyGivenNames x; refine Keeps.keepMeter x ?_; rename' x => y)
    | (extract_lets +onlyGivenNames x; clear_value x; rename' x => y)
    | split | with_reducible refine Keeps.light ?_ rfl rfl rfl rfl

theorem keeps_execDigestExchange (h : Keeps F s t) :
    ∀ x0, (hF : [SField.env, .hostMem, .pcie, .arm, .arm2, .parts2, .funcs] ⊆ F := by assumption) →
    Yields F s (execDigestExchange x0 t) := by
  intro x0 hF
  have b_parts2 : SField.parts2 ∈ F := hF (by decide)
  have f_checkEnds : [SField.env, .hostMem, .pcie, .arm, .arm2, .funcs] ⊆ F := List.Subset.trans (by decide) hF
  have f_exchAgrees : [SField.env, .hostMem, .pcie, .arm, .parts2, .funcs] ⊆ F := List.Subset.trans (by decide) hF
  have f_exchDiscord : [SField.env, .hostMem, .pcie, .arm, .arm2, .parts2, .funcs] ⊆ F := List.Subset.trans (by
      decide) hF
  unfold execDigestExchange
  repeat'
    first
    | with_reducible assumption | with_reducible apply Keeps.modPart2 | with_reducible apply keeps_checkEnds
    | with_reducible apply keeps_exchAgrees | with_reducible apply keeps_exchDiscord
    | with_reducible apply Yields.next
    | (extract_lets +onlyGivenNames x
       refine Yields.cut (u := x) ?_ fun hx => ?_
       (on_goal 1 => unfold x)
       (on_goal 2 => (clear_value x; rename' x => y)))
    | (extract_lets +onlyGivenNames x
       refine Keeps.cut (u := x) ?_ fun hx => ?_
       (on_goal 1 => unfold x)
       (on_goal 2 => (clear_value x; rename' x => y)))
    | (extract_lets +onlyGivenNames x; refine Keeps.keepEnv x ?_; rename' x => y)
    | (extract_lets +onlyGivenNames x; refine Keeps.keepSec x ?_; rename' x => y)
    | (extract_lets +onlyGivenNames x; refine Keeps.keepArm x ?_; rename' x => y)
    | (extract_lets +onlyGivenNames x; refine Keeps.keepMeter x ?_; rename' x => y)
    | (extract_lets +onlyGivenNames x; clear_value x; rename' x => y)
    | split | with_reducible refine Keeps.light ?_ rfl rfl rfl rfl

theorem keeps_resendEpoch (h : Keeps F s t) :
    ∀ x0 x1, (hF : [SField.slabs2] ⊆ F := by assumption) →
    Keeps F s (resendEpoch x0 x1 t) := by
  intro x0 x1 hF
  have b_slabs2 : SField.slabs2 ∈ F := hF (by decide)
  unfold resendEpoch
  repeat'
    first
    | with_reducible assumption | with_reducible (refine Keeps.forAll ?_ _ _ fun _ _ _ => ?_)
    | with_reducible apply Keeps.modSlab2
    | (extract_lets +onlyGivenNames x
       refine Keeps.cut (u := x) ?_ fun hx => ?_
       (on_goal 1 => unfold x)
       (on_goal 2 => (clear_value x; rename' x => y)))
    | (extract_lets +onlyGivenNames x; refine Keeps.keepEnv x ?_; rename' x => y)
    | (extract_lets +onlyGivenNames x; refine Keeps.keepSec x ?_; rename' x => y)
    | (extract_lets +onlyGivenNames x; refine Keeps.keepArm x ?_; rename' x => y)
    | (extract_lets +onlyGivenNames x; refine Keeps.keepMeter x ?_; rename' x => y)
    | (extract_lets +onlyGivenNames x; clear_value x; rename' x => y)
    | split | with_reducible refine Keeps.light ?_ rfl rfl rfl rfl

theorem keeps_execDiscordRepair (h : Keeps F s t) :
    ∀ x0, (hF : [SField.env, .hostMem, .pkg, .pcie, .sec, .arm, .meter, .meter2, .slabs, .slabs2, .ports, .ports2,
        .tiles, .tiles2, .banks, .parts2, .ctxs, .funcs, .bankMem, .hbm] ⊆ F := by assumption) →
    Yields F s (execDiscordRepair x0 t) := by
  intro x0 hF
  have b_parts2 : SField.parts2 ∈ F := hF (by decide)
  have f_resendEpoch : [SField.slabs2] ⊆ F := List.Subset.trans (by decide) hF
  have f_fullRetire : [SField.env, .hostMem, .pkg, .pcie, .sec, .arm, .meter, .meter2, .slabs, .slabs2, .ports,
      .ports2, .tiles, .tiles2, .banks, .parts2, .ctxs, .funcs, .bankMem, .hbm] ⊆ F := List.Subset.trans (by decide)
      hF
  have f_exchAgrees : [SField.env, .hostMem, .pcie, .arm, .parts2, .funcs] ⊆ F := List.Subset.trans (by decide) hF
  unfold execDiscordRepair
  repeat'
    first
    | with_reducible assumption | with_reducible apply Keeps.modPart2 | with_reducible apply keeps_resendEpoch
    | with_reducible (refine Keeps.forAll ?_ _ _ fun _ _ _ => ?_) | with_reducible apply keeps_fullRetire
    | with_reducible apply keeps_exchAgrees | with_reducible apply Yields.next
    | (extract_lets +onlyGivenNames x
       refine Yields.cut (u := x) ?_ fun hx => ?_
       (on_goal 1 => unfold x)
       (on_goal 2 => (clear_value x; rename' x => y)))
    | (extract_lets +onlyGivenNames x
       refine Keeps.cut (u := x) ?_ fun hx => ?_
       (on_goal 1 => unfold x)
       (on_goal 2 => (clear_value x; rename' x => y)))
    | (extract_lets +onlyGivenNames x; refine Keeps.keepEnv x ?_; rename' x => y)
    | (extract_lets +onlyGivenNames x; refine Keeps.keepSec x ?_; rename' x => y)
    | (extract_lets +onlyGivenNames x; refine Keeps.keepArm x ?_; rename' x => y)
    | (extract_lets +onlyGivenNames x; refine Keeps.keepMeter x ?_; rename' x => y)
    | (extract_lets +onlyGivenNames x; clear_value x; rename' x => y)
    | split | with_reducible refine Keeps.light ?_ rfl rfl rfl rfl

end Sys2Proof.Machine
end

