-- ==== Sys2Proof/Laws/KeepsInfusion.lean ====
section
/-! SUPPORT. What every operation and meaning of Machine/Infusion.lean keeps: the queue, the canonical form, what lasts, and every part
of the state outside its own list. -/

set_option linter.unreachableTactic false
set_option linter.unusedTactic false
set_option linter.unusedVariables false
set_option linter.tactic.unusedName false

namespace Sys2Proof.Machine

open Sys2Proof

-- Proofs one after another: the package compiles as one text under a memory limit.
set_option Elab.async false

variable {F : List SField} {s t : State}

theorem keeps_ixWalks (h : Keeps F s t) :
    ∀ x0 x1 x2, (hF : [SField.slabs2] ⊆ F := by assumption) →
    Keeps F s (ixWalks x0 x1 x2 t) := by
  intro x0 x1 x2 hF
  have f_labWalk : [SField.slabs2] ⊆ F := List.Subset.trans (by decide) hF
  unfold ixWalks
  repeat'
    first
    | with_reducible assumption | with_reducible (refine Keeps.forAll ?_ _ _ fun _ _ _ => ?_)
    | with_reducible apply keeps_labWalk
    | (extract_lets +onlyGivenNames x
       refine Keeps.cut (u := x) ?_ fun hx => ?_
       (on_goal 1 => unfold x)
       (on_goal 2 => (clear_value x; rename' x => y)))
    | (extract_lets +onlyGivenNames x; refine Keeps.keepEnv x ?_; rename' x => y)
    | (extract_lets +onlyGivenNames x; refine Keeps.keepSec x ?_; rename' x => y)
    | (extract_lets +onlyGivenNames x; refine Keeps.keepArm x ?_; rename' x => y)
    | (extract_lets +onlyGivenNames x; refine Keeps.keepMeter x ?_; rename' x => y)
    | (extract_lets +onlyGivenNames x; clear_value x; rename' x => y)
    | split | with_reducible refine Keeps.light ?_ rfl rfl rfl rfl

theorem keeps_execInfusion (h : Keeps F s t) :
    ∀ x0 x1, (hF : [SField.env, .hostMem, .pcie, .slabs2, .ports, .ports2, .tiles, .tiles2, .banks, .parts2, .ctxs,
        .funcs, .bankMem, .hbm] ⊆ F := by assumption) →
    Yields F s (execInfusion x0 x1 t) := by
  intro x0 x1 hF
  have f_Work_run : [SField.env, .hostMem, .pcie, .slabs2, .ports, .ports2, .tiles, .tiles2, .banks, .parts2, .ctxs,
      .funcs, .bankMem, .hbm] ⊆ F := List.Subset.trans (by decide) hF
  have f_ixWalks : [SField.slabs2] ⊆ F := List.Subset.trans (by decide) hF
  revert x0 x1
  intro c q
  unfold execInfusion
  split
  · exact Yields.next h
  · exact Yields.next (keeps_Work_run h fun _ hu => keeps_ixWalks hu _ _ _)

end Sys2Proof.Machine
end

