-- ==== Sys2Proof/Laws/KeepsStream.lean ====
section
/-! SUPPORT. What every operation and meaning of Machine/Stream.lean keeps: the queue, the canonical form, what lasts, and every part
of the state outside its own list. -/

set_option linter.unreachableTactic false
set_option linter.unusedTactic false
set_option linter.unusedVariables false
set_option linter.tactic.unusedName false

namespace Sys2Proof.Machine

open Sys2Proof

-- Proofs one after another: the package compiles as one text under a memory limit.
set_option Elab.async false


variable {F : List SField} {s t : State}

theorem keeps_execStagingFetchDone (h : Keeps F s t) :
    ∀ x0 x1 x2 x3 x4, (hF : [SField.env, .hostMem, .pcie, .slabs2, .ports, .ports2, .tiles, .tiles2, .banks, .parts2,
        .ctxs, .funcs, .bankMem, .hbm] ⊆ F := by assumption) →
    Yields F s (execStagingFetchDone x0 x1 x2 x3 x4 t) := by
  intro x0 x1 x2 x3 x4 hF
  have b_tiles2 : SField.tiles2 ∈ F := hF (by decide)
  have f_failCmd : [SField.env, .hostMem, .pcie, .slabs2, .ports, .ports2, .tiles, .tiles2, .banks, .parts2, .ctxs,
      .funcs, .hbm] ⊆ F := List.Subset.trans (by decide) hF
  have f_bankWrite : [SField.bankMem] ⊆ F := List.Subset.trans (by decide) hF
  unfold execStagingFetchDone
  repeat'
    first
    | with_reducible assumption | with_reducible apply keeps_failCmd | with_reducible apply keeps_bankWrite
    | with_reducible apply Keeps.modTile2 | with_reducible (refine Keeps.forAll ?_ _ _ fun _ _ _ => ?_)
    | with_reducible apply Yields.next
    | (extract_lets +onlyGivenNames x
       refine Yields.cut (u := x) ?_ fun hx => ?_
       (on_goal 1 => unfold x)
       (on_goal 2 => (clear_value x; rename' x => y)))
    | (extract_lets +onlyGivenNames x
       refine Keeps.cut (u := x) ?_ fun hx => ?_
       (on_goal 1 => unfold x)
       (on_goal 2 => (clear_value x; rename' x => y)))
    | (extract_lets +onlyGivenNames x; refine Keeps.keepEnv x ?_; rename' x => y)
    | (extract_lets +onlyGivenNames x; refine Keeps.keepSec x ?_; rename' x => y)
    | (extract_lets +onlyGivenNames x; refine Keeps.keepArm x ?_; rename' x => y)
    | (extract_lets +onlyGivenNames x; refine Keeps.keepMeter x ?_; rename' x => y)
    | (extract_lets +onlyGivenNames x; clear_value x; rename' x => y)
    | split

theorem keeps_loadRows (h : Keeps F s t) :
    ∀ x0 x1 x2 x3 x4 x5 x6, (hF : [SField.tiles, .tiles2] ⊆ F := by assumption) →
    Keeps F s (loadRows x0 x1 x2 x3 x4 x5 x6 t) := by
  intro x0 x1 x2 x3 x4 x5 x6 hF
  have b_tiles : SField.tiles ∈ F := hF (by decide)
  have b_tiles2 : SField.tiles2 ∈ F := hF (by decide)
  unfold loadRows
  repeat'
    first
    | with_reducible assumption | with_reducible apply Keeps.modTile | with_reducible apply Keeps.modTile2
    | with_reducible (refine Keeps.foldl ?_ _ _ fun _ _ _ => ?_)
    | (extract_lets +onlyGivenNames x
       refine Keeps.cut (u := x) ?_ fun hx => ?_
       (on_goal 1 => unfold x)
       (on_goal 2 => (clear_value x; rename' x => y)))
    | (extract_lets +onlyGivenNames x; refine Keeps.keepEnv x ?_; rename' x => y)
    | (extract_lets +onlyGivenNames x; refine Keeps.keepSec x ?_; rename' x => y)
    | (extract_lets +onlyGivenNames x; refine Keeps.keepArm x ?_; rename' x => y)
    | (extract_lets +onlyGivenNames x; refine Keeps.keepMeter x ?_; rename' x => y)
    | (extract_lets +onlyGivenNames x; clear_value x; rename' x => y)
    | split

theorem keeps_shadowLoad (h : Keeps F s t) :
    ∀ x0 x1, (hF : [SField.tiles, .tiles2] ⊆ F := by assumption) →
    Keeps F s (shadowLoad x0 x1 t) := by
  intro x0 x1 hF
  have b_tiles2 : SField.tiles2 ∈ F := hF (by decide)
  have f_loadRows : [SField.tiles, .tiles2] ⊆ F := List.Subset.trans (by decide) hF
  unfold shadowLoad
  repeat'
    first
    | with_reducible assumption | with_reducible apply keeps_loadRows | with_reducible apply Keeps.modTile2
    | (extract_lets +onlyGivenNames x
       refine Keeps.cut (u := x) ?_ fun hx => ?_
       (on_goal 1 => unfold x)
       (on_goal 2 => (clear_value x; rename' x => y)))
    | (extract_lets +onlyGivenNames x; refine Keeps.keepEnv x ?_; rename' x => y)
    | (extract_lets +onlyGivenNames x; refine Keeps.keepSec x ?_; rename' x => y)
    | (extract_lets +onlyGivenNames x; refine Keeps.keepArm x ?_; rename' x => y)
    | (extract_lets +onlyGivenNames x; refine Keeps.keepMeter x ?_; rename' x => y)
    | (extract_lets +onlyGivenNames x; clear_value x; rename' x => y)
    | split

theorem keeps_streamBlock (h : Keeps F s t) :
    ∀ x0 x1 x2 x3 x4 x5, (hF : [SField.tiles2] ⊆ F := by assumption) →
    Keeps F s (streamBlock x0 x1 x2 x3 x4 x5 t) := by
  intro x0 x1 x2 x3 x4 x5 hF
  have b_tiles2 : SField.tiles2 ∈ F := hF (by decide)
  unfold streamBlock
  repeat'
    first
    | with_reducible assumption | with_reducible apply Keeps.modTile2
    | with_reducible (refine Keeps.forAll ?_ _ _ fun _ _ _ => ?_)
    | (extract_lets +onlyGivenNames x
       refine Keeps.cut (u := x) ?_ fun hx => ?_
       (on_goal 1 => unfold x)
       (on_goal 2 => (clear_value x; rename' x => y)))
    | (extract_lets +onlyGivenNames x; refine Keeps.keepEnv x ?_; rename' x => y)
    | (extract_lets +onlyGivenNames x; refine Keeps.keepSec x ?_; rename' x => y)
    | (extract_lets +onlyGivenNames x; refine Keeps.keepArm x ?_; rename' x => y)
    | (extract_lets +onlyGivenNames x; refine Keeps.keepMeter x ?_; rename' x => y)
    | (extract_lets +onlyGivenNames x; clear_value x; rename' x => y)
    | split

theorem keeps_enterBlock (h : Keeps F s t) :
    ∀ x0 x1 x2 x3 x4 x5, (hF : [SField.tiles, .tiles2] ⊆ F := by assumption) →
    Keeps F s (enterBlock x0 x1 x2 x3 x4 x5 t) := by
  intro x0 x1 x2 x3 x4 x5 hF
  have b_tiles : SField.tiles ∈ F := hF (by decide)
  have b_tiles2 : SField.tiles2 ∈ F := hF (by decide)
  have f_loadRows : [SField.tiles, .tiles2] ⊆ F := List.Subset.trans (by decide) hF
  unfold enterBlock
  repeat'
    first
    | with_reducible assumption | with_reducible apply keeps_loadRows | with_reducible apply Keeps.modTile
    | with_reducible apply Keeps.modTile2 | with_reducible (refine Keeps.forAll ?_ _ _ fun _ _ _ => ?_)
    | with_reducible (refine Keeps.foldl ?_ _ _ fun _ _ _ => ?_)
    | (extract_lets +onlyGivenNames x
       refine Keeps.cut (u := x) ?_ fun hx => ?_
       (on_goal 1 => unfold x)
       (on_goal 2 => (clear_value x; rename' x => y)))
    | (extract_lets +onlyGivenNames x; refine Keeps.keepEnv x ?_; rename' x => y)
    | (extract_lets +onlyGivenNames x; refine Keeps.keepSec x ?_; rename' x => y)
    | (extract_lets +onlyGivenNames x; refine Keeps.keepArm x ?_; rename' x => y)
    | (extract_lets +onlyGivenNames x; refine Keeps.keepMeter x ?_; rename' x => y)
    | (extract_lets +onlyGivenNames x; clear_value x; rename' x => y)
    | split

theorem keeps_execShadowSwap (h : Keeps F s t) :
    ∀ x0 x1, (hF : [SField.tiles, .tiles2] ⊆ F := by assumption) →
    Yields F s (execShadowSwap x0 x1 t) := by
  intro x0 x1 hF
  have b_tiles : SField.tiles ∈ F := hF (by decide)
  have b_tiles2 : SField.tiles2 ∈ F := hF (by decide)
  have f_streamBlock : [SField.tiles2] ⊆ F := List.Subset.trans (by decide) hF
  have f_enterBlock : [SField.tiles, .tiles2] ⊆ F := List.Subset.trans (by decide) hF
  unfold execShadowSwap
  repeat'
    first
    | with_reducible assumption | with_reducible apply keeps_streamBlock | with_reducible apply keeps_enterBlock
    | with_reducible apply Keeps.modTile | with_reducible apply Keeps.modTile2
    | with_reducible (refine Keeps.forAll ?_ _ _ fun _ _ _ => ?_) | with_reducible apply Yields.next
    | (extract_lets +onlyGivenNames x
       refine Yields.cut (u := x) ?_ fun hx => ?_
       (on_goal 1 => unfold x)
       (on_goal 2 => (clear_value x; rename' x => y)))
    | (extract_lets +onlyGivenNames x
       refine Keeps.cut (u := x) ?_ fun hx => ?_
       (on_goal 1 => unfold x)
       (on_goal 2 => (clear_value x; rename' x => y)))
    | (extract_lets +onlyGivenNames x; refine Keeps.keepEnv x ?_; rename' x => y)
    | (extract_lets +onlyGivenNames x; refine Keeps.keepSec x ?_; rename' x => y)
    | (extract_lets +onlyGivenNames x; refine Keeps.keepArm x ?_; rename' x => y)
    | (extract_lets +onlyGivenNames x; refine Keeps.keepMeter x ?_; rename' x => y)
    | (extract_lets +onlyGivenNames x; clear_value x; rename' x => y)
    | split

end Sys2Proof.Machine
end

