-- ==== Sys2Proof/Laws/KeepsArray.lean ====
section
/-! SUPPORT. What every operation and meaning of Machine/Array.lean keeps: the queue, the canonical form, what lasts, and every part
of the state outside its own list. -/

set_option linter.unreachableTactic false
set_option linter.unusedTactic false
set_option linter.unusedVariables false
set_option linter.tactic.unusedName false

namespace Sys2Proof.Machine

open Sys2Proof

-- Proofs one after another: the package compiles as one text under a memory limit.
set_option Elab.async false

variable {F : List SField} {s t : State}

theorem keeps_setArrayCtrl (h : Keeps F s t) :
    ∀ x0 x1, (hF : [SField.env, .hostMem, .pcie, .slabs, .tiles, .funcs] ⊆ F := by assumption) →
    Keeps F s (setArrayCtrl x0 x1 t) := by
  intro x0 x1 hF
  have b_slabs : SField.slabs ∈ F := hF (by decide)
  have f_rampsStop : [SField.tiles] ⊆ F := List.Subset.trans (by decide) hF
  have f_arrayEvent : [SField.env, .hostMem, .pcie, .slabs, .funcs] ⊆ F := List.Subset.trans (by decide) hF
  unfold setArrayCtrl
  repeat'
    first
    | with_reducible assumption | with_reducible apply keeps_rampsStop | with_reducible apply keeps_arrayEvent
    | with_reducible apply Keeps.modSlab
    | (extract_lets +onlyGivenNames x
       refine Keeps.cut (u := x) ?_ fun hx => ?_
       (on_goal 1 => unfold x)
       (on_goal 2 => (clear_value x; rename' x => y)))
    | (extract_lets +onlyGivenNames x; refine Keeps.keepEnv x ?_; rename' x => y)
    | (extract_lets +onlyGivenNames x; refine Keeps.keepSec x ?_; rename' x => y)
    | (extract_lets +onlyGivenNames x; refine Keeps.keepArm x ?_; rename' x => y)
    | (extract_lets +onlyGivenNames x; refine Keeps.keepMeter x ?_; rename' x => y)
    | (extract_lets +onlyGivenNames x; clear_value x; rename' x => y)
    | split

theorem keeps_execArrayCtrlWrite (h : Keeps F s t) :
    ∀ x0 x1 x2, (hF : [SField.env, .hostMem, .pcie, .slabs, .tiles, .funcs] ⊆ F := by assumption) →
    Yields F s (execArrayCtrlWrite x0 x1 x2 t) := by
  intro x0 x1 x2 hF
  have f_setArrayCtrl : [SField.env, .hostMem, .pcie, .slabs, .tiles, .funcs] ⊆ F := List.Subset.trans (by decide)
      hF
  unfold execArrayCtrlWrite
  repeat'
    first
    | with_reducible assumption | with_reducible apply keeps_setArrayCtrl | with_reducible apply Yields.next
    | (extract_lets +onlyGivenNames x
       refine Yields.cut (u := x) ?_ fun hx => ?_
       (on_goal 1 => unfold x)
       (on_goal 2 => (clear_value x; rename' x => y)))
    | (extract_lets +onlyGivenNames x
       refine Keeps.cut (u := x) ?_ fun hx => ?_
       (on_goal 1 => unfold x)
       (on_goal 2 => (clear_value x; rename' x => y)))
    | (extract_lets +onlyGivenNames x; refine Keeps.keepEnv x ?_; rename' x => y)
    | (extract_lets +onlyGivenNames x; refine Keeps.keepSec x ?_; rename' x => y)
    | (extract_lets +onlyGivenNames x; refine Keeps.keepArm x ?_; rename' x => y)
    | (extract_lets +onlyGivenNames x; refine Keeps.keepMeter x ?_; rename' x => y)
    | (extract_lets +onlyGivenNames x; clear_value x; rename' x => y)
    | split | with_reducible refine Keeps.light ?_ rfl rfl rfl rfl

theorem keeps_execArraySet (h : Keeps F s t) :
    ∀ x0 x1, (hF : [SField.env, .hostMem, .pcie, .slabs, .tiles, .ctxs, .funcs] ⊆ F := by assumption) →
    Yields F s (execArraySet x0 x1 t) := by
  intro x0 x1 hF
  have f_finish : [SField.tiles, .ctxs] ⊆ F := List.Subset.trans (by decide) hF
  have f_setArrayCtrl : [SField.env, .hostMem, .pcie, .slabs, .tiles, .funcs] ⊆ F := List.Subset.trans (by decide) hF
  unfold execArraySet
  repeat'
    first
    | with_reducible assumption | with_reducible apply keeps_finish | with_reducible apply keeps_setArrayCtrl
    | with_reducible (refine Keeps.forAll ?_ _ _ fun _ _ _ => ?_) | with_reducible apply Yields.next
    | split

theorem keeps_setRamp (h : Keeps F s t) :
    ∀ x0 x1, (hF : [SField.tiles] ⊆ F := by assumption) →
    Keeps F s (setRamp x0 x1 t) := by
  intro x0 x1 hF
  have b_tiles : SField.tiles ∈ F := hF (by decide)
  unfold setRamp
  repeat'
    first
    | with_reducible assumption | with_reducible apply Keeps.modTile
    | with_reducible (refine Keeps.forAll ?_ _ _ fun _ _ _ => ?_)
    | split

theorem keeps_creditCtx (h : Keeps F s t) :
    ∀ x0 x1 x2, (hF : [SField.ctxs] ⊆ F := by assumption) →
    Keeps F s (creditCtx x0 x1 x2 t) := by
  intro x0 x1 x2 hF
  have b_ctxs : SField.ctxs ∈ F := hF (by decide)
  unfold creditCtx
  repeat'
    first
    | with_reducible assumption | with_reducible apply Keeps.modCtx
    | (extract_lets +onlyGivenNames x
       refine Keeps.cut (u := x) ?_ fun hx => ?_
       (on_goal 1 => unfold x)
       (on_goal 2 => (clear_value x; rename' x => y)))
    | (extract_lets +onlyGivenNames x; refine Keeps.keepEnv x ?_; rename' x => y)
    | (extract_lets +onlyGivenNames x; refine Keeps.keepSec x ?_; rename' x => y)
    | (extract_lets +onlyGivenNames x; refine Keeps.keepArm x ?_; rename' x => y)
    | (extract_lets +onlyGivenNames x; refine Keeps.keepMeter x ?_; rename' x => y)
    | (extract_lets +onlyGivenNames x; clear_value x; rename' x => y)
    | split | with_reducible refine Keeps.light ?_ rfl rfl rfl rfl

theorem keeps_countPhase (h : Keeps F s t) :
    ∀ x0 x1, (hF : [SField.tiles, .ctxs] ⊆ F := by assumption) →
    Keeps F s (countPhase x0 x1 t) := by
  intro x0 x1 hF
  have b_tiles : SField.tiles ∈ F := hF (by decide)
  have f_creditCtx : [SField.ctxs] ⊆ F := List.Subset.trans (by decide) hF
  unfold countPhase
  repeat'
    first
    | with_reducible assumption | with_reducible apply keeps_creditCtx | with_reducible apply Keeps.modTile
    | (extract_lets +onlyGivenNames x
       refine Keeps.cut (u := x) ?_ fun hx => ?_
       (on_goal 1 => unfold x)
       (on_goal 2 => (clear_value x; rename' x => y)))
    | (extract_lets +onlyGivenNames x; refine Keeps.keepEnv x ?_; rename' x => y)
    | (extract_lets +onlyGivenNames x; refine Keeps.keepSec x ?_; rename' x => y)
    | (extract_lets +onlyGivenNames x; refine Keeps.keepArm x ?_; rename' x => y)
    | (extract_lets +onlyGivenNames x; refine Keeps.keepMeter x ?_; rename' x => y)
    | (extract_lets +onlyGivenNames x; clear_value x; rename' x => y)
    | split

theorem keeps_cutPhase (h : Keeps F s t) :
    ∀ x0 x1, (hF : [SField.tiles, .ctxs] ⊆ F := by assumption) →
    Keeps F s (cutPhase x0 x1 t) := by
  intro x0 x1 hF
  have f_countPhase : [SField.tiles, .ctxs] ⊆ F := List.Subset.trans (by decide) hF
  unfold cutPhase
  repeat'
    first
    | with_reducible assumption | with_reducible apply keeps_countPhase
    | with_reducible (refine Keeps.forAll ?_ _ _ fun _ _ _ => ?_)
    | (extract_lets +onlyGivenNames x
       refine Keeps.cut (u := x) ?_ fun hx => ?_
       (on_goal 1 => unfold x)
       (on_goal 2 => (clear_value x; rename' x => y)))
    | (extract_lets +onlyGivenNames x; refine Keeps.keepEnv x ?_; rename' x => y)
    | (extract_lets +onlyGivenNames x; refine Keeps.keepSec x ?_; rename' x => y)
    | (extract_lets +onlyGivenNames x; refine Keeps.keepArm x ?_; rename' x => y)
    | (extract_lets +onlyGivenNames x; refine Keeps.keepMeter x ?_; rename' x => y)
    | (extract_lets +onlyGivenNames x; clear_value x; rename' x => y)
    | split

theorem keeps_execRampUp (h : Keeps F s t) :
    ∀ x0 x1, (hF : [SField.tiles, .ctxs] ⊆ F := by assumption) →
    Yields F s (execRampUp x0 x1 t) := by
  intro x0 x1 hF
  have f_setRamp : [SField.tiles] ⊆ F := List.Subset.trans (by decide) hF
  have f_cutPhase : [SField.tiles, .ctxs] ⊆ F := List.Subset.trans (by decide) hF
  unfold execRampUp
  repeat'
    first
    | with_reducible assumption | with_reducible apply keeps_setRamp | with_reducible apply keeps_cutPhase
    | with_reducible apply Yields.next
    | (extract_lets +onlyGivenNames x
       refine Yields.cut (u := x) ?_ fun hx => ?_
       (on_goal 1 => unfold x)
       (on_goal 2 => (clear_value x; rename' x => y)))
    | (extract_lets +onlyGivenNames x
       refine Keeps.cut (u := x) ?_ fun hx => ?_
       (on_goal 1 => unfold x)
       (on_goal 2 => (clear_value x; rename' x => y)))
    | (extract_lets +onlyGivenNames x; refine Keeps.keepEnv x ?_; rename' x => y)
    | (extract_lets +onlyGivenNames x; refine Keeps.keepSec x ?_; rename' x => y)
    | (extract_lets +onlyGivenNames x; refine Keeps.keepArm x ?_; rename' x => y)
    | (extract_lets +onlyGivenNames x; refine Keeps.keepMeter x ?_; rename' x => y)
    | (extract_lets +onlyGivenNames x; clear_value x; rename' x => y)
    | split

theorem keeps_execRampDown (h : Keeps F s t) :
    ∀ x0 x1, (hF : [SField.tiles, .ctxs] ⊆ F := by assumption) →
    Yields F s (execRampDown x0 x1 t) := by
  intro x0 x1 hF
  have f_setRamp : [SField.tiles] ⊆ F := List.Subset.trans (by decide) hF
  have f_cutPhase : [SField.tiles, .ctxs] ⊆ F := List.Subset.trans (by decide) hF
  unfold execRampDown
  repeat'
    first
    | with_reducible assumption | with_reducible apply keeps_setRamp | with_reducible apply keeps_cutPhase
    | with_reducible apply Yields.next
    | (extract_lets +onlyGivenNames x
       refine Yields.cut (u := x) ?_ fun hx => ?_
       (on_goal 1 => unfold x)
       (on_goal 2 => (clear_value x; rename' x => y)))
    | (extract_lets +onlyGivenNames x
       refine Keeps.cut (u := x) ?_ fun hx => ?_
       (on_goal 1 => unfold x)
       (on_goal 2 => (clear_value x; rename' x => y)))
    | (extract_lets +onlyGivenNames x; refine Keeps.keepEnv x ?_; rename' x => y)
    | (extract_lets +onlyGivenNames x; refine Keeps.keepSec x ?_; rename' x => y)
    | (extract_lets +onlyGivenNames x; refine Keeps.keepArm x ?_; rename' x => y)
    | (extract_lets +onlyGivenNames x; refine Keeps.keepMeter x ?_; rename' x => y)
    | (extract_lets +onlyGivenNames x; clear_value x; rename' x => y)
    | split

theorem keeps_execRampPhaseEnd (h : Keeps F s t) :
    ∀ x0 x1, (hF : [SField.tiles, .ctxs] ⊆ F := by assumption) →
    Yields F s (execRampPhaseEnd x0 x1 t) := by
  intro x0 x1 hF
  have f_setRamp : [SField.tiles] ⊆ F := List.Subset.trans (by decide) hF
  have f_countPhase : [SField.tiles, .ctxs] ⊆ F := List.Subset.trans (by decide) hF
  unfold execRampPhaseEnd
  repeat'
    first
    | with_reducible assumption | with_reducible apply keeps_setRamp | with_reducible apply keeps_countPhase
    | with_reducible (refine Keeps.forAll ?_ _ _ fun _ _ _ => ?_) | with_reducible apply Yields.next
    | (extract_lets +onlyGivenNames x
       refine Yields.cut (u := x) ?_ fun hx => ?_
       (on_goal 1 => unfold x)
       (on_goal 2 => (clear_value x; rename' x => y)))
    | (extract_lets +onlyGivenNames x
       refine Keeps.cut (u := x) ?_ fun hx => ?_
       (on_goal 1 => unfold x)
       (on_goal 2 => (clear_value x; rename' x => y)))
    | (extract_lets +onlyGivenNames x; refine Keeps.keepEnv x ?_; rename' x => y)
    | (extract_lets +onlyGivenNames x; refine Keeps.keepSec x ?_; rename' x => y)
    | (extract_lets +onlyGivenNames x; refine Keeps.keepArm x ?_; rename' x => y)
    | (extract_lets +onlyGivenNames x; refine Keeps.keepMeter x ?_; rename' x => y)
    | (extract_lets +onlyGivenNames x; clear_value x; rename' x => y)
    | split

theorem keeps_countAct (h : Keeps F s t) :
    ∀ x0 x1, (hF : [SField.tiles, .tiles2, .ctxs] ⊆ F := by assumption) →
    Keeps F s (countAct x0 x1 t) := by
  intro x0 x1 hF
  have b_tiles : SField.tiles ∈ F := hF (by decide)
  have b_tiles2 : SField.tiles2 ∈ F := hF (by decide)
  have f_shadowLoad : [SField.tiles, .tiles2] ⊆ F := List.Subset.trans (by decide) hF
  have f_creditCtx : [SField.ctxs] ⊆ F := List.Subset.trans (by decide) hF
  unfold countAct
  repeat'
    first
    | with_reducible assumption | with_reducible apply keeps_shadowLoad | with_reducible apply keeps_creditCtx
    | with_reducible apply Keeps.modTile | with_reducible apply Keeps.modTile2
    | (extract_lets +onlyGivenNames x
       refine Keeps.cut (u := x) ?_ fun hx => ?_
       (on_goal 1 => unfold x)
       (on_goal 2 => (clear_value x; rename' x => y)))
    | (extract_lets +onlyGivenNames x; refine Keeps.keepEnv x ?_; rename' x => y)
    | (extract_lets +onlyGivenNames x; refine Keeps.keepSec x ?_; rename' x => y)
    | (extract_lets +onlyGivenNames x; refine Keeps.keepArm x ?_; rename' x => y)
    | (extract_lets +onlyGivenNames x; refine Keeps.keepMeter x ?_; rename' x => y)
    | (extract_lets +onlyGivenNames x; clear_value x; rename' x => y)
    | split

theorem keeps_periodTile (h : Keeps F s t) :
    ∀ x0 x1 x2, (hF : [SField.tiles, .tiles2, .ctxs] ⊆ F := by assumption) →
    Keeps F s (periodTile x0 x1 x2 t) := by
  intro x0 x1 x2 hF
  have b_tiles : SField.tiles ∈ F := hF (by decide)
  have f_countAct : [SField.tiles, .tiles2, .ctxs] ⊆ F := List.Subset.trans (by decide) hF
  unfold periodTile
  repeat'
    first
    | with_reducible assumption | with_reducible apply keeps_countAct | with_reducible apply Keeps.modTile
    | (extract_lets +onlyGivenNames x
       refine Keeps.cut (u := x) ?_ fun hx => ?_
       (on_goal 1 => unfold x)
       (on_goal 2 => (clear_value x; rename' x => y)))
    | (extract_lets +onlyGivenNames x; refine Keeps.keepEnv x ?_; rename' x => y)
    | (extract_lets +onlyGivenNames x; refine Keeps.keepSec x ?_; rename' x => y)
    | (extract_lets +onlyGivenNames x; refine Keeps.keepArm x ?_; rename' x => y)
    | (extract_lets +onlyGivenNames x; refine Keeps.keepMeter x ?_; rename' x => y)
    | (extract_lets +onlyGivenNames x; clear_value x; rename' x => y)
    | split

theorem keeps_gateTile (h : Keeps F s t) :
    ∀ x0 x1 x2, (hF : [SField.tiles, .ctxs] ⊆ F := by assumption) →
    Keeps F s (gateTile x0 x1 x2 t) := by
  intro x0 x1 x2 hF
  have f_setRamp : [SField.tiles] ⊆ F := List.Subset.trans (by decide) hF
  have f_cutPhase : [SField.tiles, .ctxs] ⊆ F := List.Subset.trans (by decide) hF
  unfold gateTile
  repeat'
    first
    | with_reducible assumption | with_reducible apply keeps_setRamp | with_reducible apply keeps_cutPhase
    | (extract_lets +onlyGivenNames x
       refine Keeps.cut (u := x) ?_ fun hx => ?_
       (on_goal 1 => unfold x)
       (on_goal 2 => (clear_value x; rename' x => y)))
    | (extract_lets +onlyGivenNames x; refine Keeps.keepEnv x ?_; rename' x => y)
    | (extract_lets +onlyGivenNames x; refine Keeps.keepSec x ?_; rename' x => y)
    | (extract_lets +onlyGivenNames x; refine Keeps.keepArm x ?_; rename' x => y)
    | (extract_lets +onlyGivenNames x; refine Keeps.keepMeter x ?_; rename' x => y)
    | (extract_lets +onlyGivenNames x; clear_value x; rename' x => y)
    | split

theorem keeps_execThrottlePeriod (h : Keeps F s t) :
    ∀ x0 x1, (hF : [SField.slabs, .tiles, .tiles2, .ctxs] ⊆ F := by assumption) →
    Yields F s (execThrottlePeriod x0 x1 t) := by
  intro x0 x1 hF
  have b_slabs : SField.slabs ∈ F := hF (by decide)
  have f_periodTile : [SField.tiles, .tiles2, .ctxs] ⊆ F := List.Subset.trans (by decide) hF
  have f_gateTile : [SField.tiles, .ctxs] ⊆ F := List.Subset.trans (by decide) hF
  unfold execThrottlePeriod
  repeat'
    first
    | with_reducible assumption | with_reducible apply keeps_periodTile | with_reducible apply keeps_gateTile
    | with_reducible apply Keeps.modSlab | with_reducible (refine Keeps.forAll ?_ _ _ fun _ _ _ => ?_)
    | with_reducible apply Yields.next
    | (extract_lets +onlyGivenNames x
       refine Yields.cut (u := x) ?_ fun hx => ?_
       (on_goal 1 => unfold x)
       (on_goal 2 => (clear_value x; rename' x => y)))
    | (extract_lets +onlyGivenNames x
       refine Keeps.cut (u := x) ?_ fun hx => ?_
       (on_goal 1 => unfold x)
       (on_goal 2 => (clear_value x; rename' x => y)))
    | (extract_lets +onlyGivenNames x; refine Keeps.keepEnv x ?_; rename' x => y)
    | (extract_lets +onlyGivenNames x; refine Keeps.keepSec x ?_; rename' x => y)
    | (extract_lets +onlyGivenNames x; refine Keeps.keepArm x ?_; rename' x => y)
    | (extract_lets +onlyGivenNames x; refine Keeps.keepMeter x ?_; rename' x => y)
    | (extract_lets +onlyGivenNames x; clear_value x; rename' x => y)
    | split

theorem keeps_execTileClockGate (h : Keeps F s t) :
    ∀ x0, (hF : [SField.tiles] ⊆ F := by assumption) →
    Yields F s (execTileClockGate x0 t) := by
  intro x0 hF
  have b_tiles : SField.tiles ∈ F := hF (by decide)
  unfold execTileClockGate
  repeat'
    first
    | with_reducible assumption | with_reducible apply Keeps.modTile | with_reducible apply Yields.next
    | (extract_lets +onlyGivenNames x
       refine Yields.cut (u := x) ?_ fun hx => ?_
       (on_goal 1 => unfold x)
       (on_goal 2 => (clear_value x; rename' x => y)))
    | (extract_lets +onlyGivenNames x
       refine Keeps.cut (u := x) ?_ fun hx => ?_
       (on_goal 1 => unfold x)
       (on_goal 2 => (clear_value x; rename' x => y)))
    | (extract_lets +onlyGivenNames x; refine Keeps.keepEnv x ?_; rename' x => y)
    | (extract_lets +onlyGivenNames x; refine Keeps.keepSec x ?_; rename' x => y)
    | (extract_lets +onlyGivenNames x; refine Keeps.keepArm x ?_; rename' x => y)
    | (extract_lets +onlyGivenNames x; refine Keeps.keepMeter x ?_; rename' x => y)
    | (extract_lets +onlyGivenNames x; clear_value x; rename' x => y)
    | split | with_reducible refine Keeps.light ?_ rfl rfl rfl rfl

theorem keeps_execPowerLimitWrite (h : Keeps F s t) :
    ∀ x0 x1, (hF : [SField.env, .hostMem, .pkg, .pcie, .funcs] ⊆ F := by assumption) →
    Yields F s (execPowerLimitWrite x0 x1 t) := by
  intro x0 x1 hF
  have b_pkg : SField.pkg ∈ F := hF (by decide)
  have f_pkgEvent : [SField.env, .hostMem, .pkg, .pcie, .funcs] ⊆ F := List.Subset.trans (by decide) hF
  unfold execPowerLimitWrite
  repeat'
    first
    | with_reducible assumption | with_reducible apply keeps_pkgEvent | with_reducible apply Yields.next
    | (extract_lets +onlyGivenNames x
       refine Yields.cut (u := x) ?_ fun hx => ?_
       (on_goal 1 => unfold x)
       (on_goal 2 => (clear_value x; rename' x => y)))
    | (extract_lets +onlyGivenNames x
       refine Keeps.cut (u := x) ?_ fun hx => ?_
       (on_goal 1 => unfold x)
       (on_goal 2 => (clear_value x; rename' x => y)))
    | (extract_lets +onlyGivenNames x; refine Keeps.keepEnv x ?_; rename' x => y)
    | (extract_lets +onlyGivenNames x; refine Keeps.keepSec x ?_; rename' x => y)
    | (extract_lets +onlyGivenNames x; refine Keeps.keepArm x ?_; rename' x => y)
    | (extract_lets +onlyGivenNames x; refine Keeps.keepMeter x ?_; rename' x => y)
    | (extract_lets +onlyGivenNames x; clear_value x; rename' x => y)
    | split | with_reducible refine Keeps.light ?_ rfl rfl rfl rfl

theorem keeps_addSample (h : Keeps F s t) :
    ∀ x0, (hF : [SField.pkg] ⊆ F := by assumption) →
    Keeps F s (addSample x0 t) := by
  intro x0 hF
  have b_pkg : SField.pkg ∈ F := hF (by decide)
  unfold addSample
  repeat'
    first
    | with_reducible assumption
    | (extract_lets +onlyGivenNames x
       refine Keeps.cut (u := x) ?_ fun hx => ?_
       (on_goal 1 => unfold x)
       (on_goal 2 => (clear_value x; rename' x => y)))
    | (extract_lets +onlyGivenNames x; refine Keeps.keepEnv x ?_; rename' x => y)
    | (extract_lets +onlyGivenNames x; refine Keeps.keepSec x ?_; rename' x => y)
    | (extract_lets +onlyGivenNames x; refine Keeps.keepArm x ?_; rename' x => y)
    | (extract_lets +onlyGivenNames x; refine Keeps.keepMeter x ?_; rename' x => y)
    | (extract_lets +onlyGivenNames x; clear_value x; rename' x => y)
    | split | with_reducible refine Keeps.light ?_ rfl rfl rfl rfl

theorem keeps_setSupplies (h : Keeps F s t) :
    ∀ x0 x1, (hF : [SField.pkc, .pkc2] ⊆ F := by assumption) →
    Keeps F s (setSupplies x0 x1 t) := by
  intro x0 x1 hF
  have b_pkc : SField.pkc ∈ F := hF (by decide)
  have b_pkc2 : SField.pkc2 ∈ F := hF (by decide)
  unfold setSupplies
  repeat'
    first
    | with_reducible assumption
    | (extract_lets +onlyGivenNames x
       refine Keeps.cut (u := x) ?_ fun hx => ?_
       (on_goal 1 => unfold x)
       (on_goal 2 => (clear_value x; rename' x => y)))
    | (extract_lets +onlyGivenNames x; refine Keeps.keepEnv x ?_; rename' x => y)
    | (extract_lets +onlyGivenNames x; refine Keeps.keepSec x ?_; rename' x => y)
    | (extract_lets +onlyGivenNames x; refine Keeps.keepArm x ?_; rename' x => y)
    | (extract_lets +onlyGivenNames x; refine Keeps.keepMeter x ?_; rename' x => y)
    | (extract_lets +onlyGivenNames x; clear_value x; rename' x => y)
    | split | with_reducible refine Keeps.light ?_ rfl rfl rfl rfl

theorem keeps_execPowerSample (h : Keeps F s t) :
    ∀ x0 x1 x2, (hF : [SField.env, .hostMem, .pkg, .pcie, .pkc, .pkc2, .funcs] ⊆ F := by assumption) →
    Yields F s (execPowerSample x0 x1 x2 t) := by
  intro x0 x1 x2 hF
  have b_pkg : SField.pkg ∈ F := hF (by decide)
  have f_addSample : [SField.pkg] ⊆ F := List.Subset.trans (by decide) hF
  have f_setSupplies : [SField.pkc, .pkc2] ⊆ F := List.Subset.trans (by decide) hF
  have f_pkgEvent : [SField.env, .hostMem, .pkg, .pcie, .funcs] ⊆ F := List.Subset.trans (by decide) hF
  unfold execPowerSample
  repeat'
    first
    | with_reducible assumption | with_reducible apply keeps_addSample | with_reducible apply keeps_setSupplies
    | with_reducible apply keeps_pkgEvent | with_reducible apply Yields.next
    | (extract_lets +onlyGivenNames x
       refine Yields.cut (u := x) ?_ fun hx => ?_
       (on_goal 1 => unfold x)
       (on_goal 2 => (clear_value x; rename' x => y)))
    | (extract_lets +onlyGivenNames x
       refine Keeps.cut (u := x) ?_ fun hx => ?_
       (on_goal 1 => unfold x)
       (on_goal 2 => (clear_value x; rename' x => y)))
    | (extract_lets +onlyGivenNames x; refine Keeps.keepEnv x ?_; rename' x => y)
    | (extract_lets +onlyGivenNames x; refine Keeps.keepSec x ?_; rename' x => y)
    | (extract_lets +onlyGivenNames x; refine Keeps.keepArm x ?_; rename' x => y)
    | (extract_lets +onlyGivenNames x; refine Keeps.keepMeter x ?_; rename' x => y)
    | (extract_lets +onlyGivenNames x; clear_value x; rename' x => y)
    | split | with_reducible refine Keeps.light ?_ rfl rfl rfl rfl

theorem keeps_execPowerRateRaise (h : Keeps F s t) :
    (hF : [SField.pkg] ⊆ F := by assumption) →
    Yields F s (execPowerRateRaise t) := by
  intro hF
  have b_pkg : SField.pkg ∈ F := hF (by decide)
  unfold execPowerRateRaise
  repeat'
    first
    | with_reducible assumption | with_reducible apply Yields.next
    | split | with_reducible refine Keeps.light ?_ rfl rfl rfl rfl

theorem keeps_execWinClearPeak (h : Keeps F s t) :
    ∀ x0, (hF : [SField.winPeak] ⊆ F := by assumption) →
    Yields F s (execWinClearPeak x0 t) := by
  intro x0 hF
  have b_winPeak : SField.winPeak ∈ F := hF (by decide)
  unfold execWinClearPeak
  repeat'
    first
    | with_reducible assumption | with_reducible apply Yields.next
    | (extract_lets +onlyGivenNames x
       refine Yields.cut (u := x) ?_ fun hx => ?_
       (on_goal 1 => unfold x)
       (on_goal 2 => (clear_value x; rename' x => y)))
    | (extract_lets +onlyGivenNames x
       refine Keeps.cut (u := x) ?_ fun hx => ?_
       (on_goal 1 => unfold x)
       (on_goal 2 => (clear_value x; rename' x => y)))
    | (extract_lets +onlyGivenNames x; refine Keeps.keepEnv x ?_; rename' x => y)
    | (extract_lets +onlyGivenNames x; refine Keeps.keepSec x ?_; rename' x => y)
    | (extract_lets +onlyGivenNames x; refine Keeps.keepArm x ?_; rename' x => y)
    | (extract_lets +onlyGivenNames x; refine Keeps.keepMeter x ?_; rename' x => y)
    | (extract_lets +onlyGivenNames x; clear_value x; rename' x => y)
    | split | with_reducible refine Keeps.light ?_ rfl rfl rfl rfl

theorem keeps_execAqClear (h : Keeps F s t) :
    ∀ x0 x1, (hF : [SField.ctxs] ⊆ F := by assumption) →
    Yields F s (execAqClear x0 x1 t) := by
  intro x0 x1 hF
  have b_ctxs : SField.ctxs ∈ F := hF (by decide)
  unfold execAqClear
  repeat'
    first
    | with_reducible assumption | with_reducible apply Keeps.modCtx | with_reducible apply Yields.next
    | (extract_lets +onlyGivenNames x
       refine Yields.cut (u := x) ?_ fun hx => ?_
       (on_goal 1 => unfold x)
       (on_goal 2 => (clear_value x; rename' x => y)))
    | (extract_lets +onlyGivenNames x
       refine Keeps.cut (u := x) ?_ fun hx => ?_
       (on_goal 1 => unfold x)
       (on_goal 2 => (clear_value x; rename' x => y)))
    | (extract_lets +onlyGivenNames x; refine Keeps.keepEnv x ?_; rename' x => y)
    | (extract_lets +onlyGivenNames x; refine Keeps.keepSec x ?_; rename' x => y)
    | (extract_lets +onlyGivenNames x; refine Keeps.keepArm x ?_; rename' x => y)
    | (extract_lets +onlyGivenNames x; refine Keeps.keepMeter x ?_; rename' x => y)
    | (extract_lets +onlyGivenNames x; clear_value x; rename' x => y)
    | split | with_reducible refine Keeps.light ?_ rfl rfl rfl rfl

end Sys2Proof.Machine
end

