-- ==== Sys2Proof/Laws/KeepsWindows.lean ====
section
/-! SUPPORT. What every operation and meaning of Machine/Windows.lean keeps: the queue, the canonical form, what lasts, and every part
of the state outside its own list. -/

set_option linter.unreachableTactic false
set_option linter.unusedTactic false
set_option linter.unusedVariables false
set_option linter.tactic.unusedName false

namespace Sys2Proof.Machine

open Sys2Proof

-- Proofs one after another: the package compiles as one text under a memory limit.
set_option Elab.async false

variable {F : List SField} {s t : State}

theorem keeps_winAbort (h : Keeps F s t) :
    ∀ x0 x1 x2 x3 x4, (hF : [SField.env, .hostMem, .pcie, .slabs2, .tiles2, .funcs] ⊆ F := by assumption) →
    Keeps F s (winAbort x0 x1 x2 x3 x4 t) := by
  intro x0 x1 x2 x3 x4 hF
  have b_env : SField.env ∈ F := hF (by decide)
  have f_ownerRefused : [SField.env, .hostMem, .pcie, .slabs2, .tiles2, .funcs] ⊆ F := List.Subset.trans (by decide)
      hF
  unfold winAbort
  repeat'
    first
    | with_reducible assumption | with_reducible apply Keeps.answer | with_reducible apply keeps_ownerRefused
    | (extract_lets +onlyGivenNames x
       refine Keeps.cut (u := x) ?_ fun hx => ?_
       (on_goal 1 => unfold x)
       (on_goal 2 => (clear_value x; rename' x => y)))
    | (extract_lets +onlyGivenNames x; refine Keeps.keepEnv x ?_; rename' x => y)
    | (extract_lets +onlyGivenNames x; refine Keeps.keepSec x ?_; rename' x => y)
    | (extract_lets +onlyGivenNames x; refine Keeps.keepArm x ?_; rename' x => y)
    | (extract_lets +onlyGivenNames x; refine Keeps.keepMeter x ?_; rename' x => y)
    | (extract_lets +onlyGivenNames x; clear_value x; rename' x => y)
    | split | with_reducible refine Keeps.light ?_ rfl rfl rfl rfl

theorem keeps_winBytes (h : Keeps F s t) :
    ∀ x0 x1 x2 x3, (hF : [SField.env] ⊆ F := by assumption) →
    Keeps F s (winBytes x0 x1 x2 x3 t) := by
  intro x0 x1 x2 x3 hF
  have b_env : SField.env ∈ F := hF (by decide)
  revert x0 x1 x2 x3
  intro g k a n
  unfold winBytes
  split
  · exact h.answer _
  · exact Keeps.answer (t := winBytes.useFreeN n t) (h.light rfl rfl rfl rfl) _

theorem keeps_execHostWindowRead (h : Keeps F s t) :
    ∀ x0 x1 x2 x3 x4 x5 x6, (hF : [SField.env, .hostMem, .rif, .pcie, .arm, .slabs, .slabs2, .ports, .ports2, .tiles,
        .tiles2, .banks, .parts2, .ctxs, .funcs, .bankMem, .hbm] ⊆ F := by assumption) →
    Yields F s (execHostWindowRead x0 x1 x2 x3 x4 x5 x6 t) := by
  intro x0 x1 x2 x3 x4 x5 x6 hF
  have b_env : SField.env ∈ F := hF (by decide)
  have f_busReadError : [SField.env, .rif] ⊆ F := List.Subset.trans (by decide) hF
  have f_holdAcc : [SField.env] ⊆ F := List.Subset.trans (by decide) hF
  have f_opAccess : [SField.ctxs] ⊆ F := List.Subset.trans (by decide) hF
  have f_bankFound : [SField.env, .hostMem, .pcie, .arm, .slabs, .slabs2, .ports, .ports2, .tiles, .tiles2, .banks,
      .parts2, .ctxs, .funcs, .bankMem, .hbm] ⊆ F := List.Subset.trans (by decide) hF
  have f_winBytes : [SField.env] ⊆ F := List.Subset.trans (by decide) hF
  have f_winAbort : [SField.env, .hostMem, .pcie, .slabs2, .tiles2, .funcs] ⊆ F := List.Subset.trans (by decide) hF
  unfold execHostWindowRead
  repeat'
    first
    | with_reducible assumption | with_reducible apply keeps_busReadError | with_reducible apply keeps_holdAcc
    | with_reducible apply keeps_opAccess | with_reducible apply keeps_bankFound | with_reducible apply keeps_winBytes
    | with_reducible apply keeps_winAbort | with_reducible apply Keeps.answer | with_reducible apply Yields.next
    | (extract_lets +onlyGivenNames x
       refine Yields.cut (u := x) ?_ fun hx => ?_
       (on_goal 1 => unfold x)
       (on_goal 2 => (clear_value x; rename' x => y)))
    | (extract_lets +onlyGivenNames x
       refine Keeps.cut (u := x) ?_ fun hx => ?_
       (on_goal 1 => unfold x)
       (on_goal 2 => (clear_value x; rename' x => y)))
    | (extract_lets +onlyGivenNames x; refine Keeps.keepEnv x ?_; rename' x => y)
    | (extract_lets +onlyGivenNames x; refine Keeps.keepSec x ?_; rename' x => y)
    | (extract_lets +onlyGivenNames x; refine Keeps.keepArm x ?_; rename' x => y)
    | (extract_lets +onlyGivenNames x; refine Keeps.keepMeter x ?_; rename' x => y)
    | (extract_lets +onlyGivenNames x; clear_value x; rename' x => y)
    | split | with_reducible refine Keeps.light ?_ rfl rfl rfl rfl

theorem keeps_windowWrite (h : Keeps F s t) :
    ∀ x0 x1 x2 x3 x4 x5 x6, (hF : [SField.env, .hostMem, .rif, .pcie, .arm, .slabs, .slabs2, .ports, .ports2, .tiles,
        .tiles2, .banks, .parts2, .ctxs, .funcs, .bankMem, .hbm] ⊆ F := by assumption) →
    Keeps F s (windowWrite x0 x1 x2 x3 x4 x5 x6 t) := by
  intro x0 x1 x2 x3 x4 x5 x6 hF
  have f_busWriteError : [SField.env, .hostMem, .rif, .pcie, .funcs] ⊆ F := List.Subset.trans (by decide) hF
  have f_holdAcc : [SField.env] ⊆ F := List.Subset.trans (by decide) hF
  have f_bankFound : [SField.env, .hostMem, .pcie, .arm, .slabs, .slabs2, .ports, .ports2, .tiles, .tiles2, .banks,
      .parts2, .ctxs, .funcs, .bankMem, .hbm] ⊆ F := List.Subset.trans (by decide) hF
  have f_bankWrite : [SField.bankMem] ⊆ F := List.Subset.trans (by decide) hF
  have f_ownerRefused : [SField.env, .hostMem, .pcie, .slabs2, .tiles2, .funcs] ⊆ F := List.Subset.trans (by decide)
      hF
  unfold windowWrite
  repeat'
    first
    | with_reducible assumption | with_reducible apply keeps_busWriteError | with_reducible apply keeps_holdAcc
    | with_reducible apply keeps_bankFound | with_reducible apply keeps_bankWrite
    | with_reducible apply keeps_ownerRefused
    | (extract_lets +onlyGivenNames x
       refine Keeps.cut (u := x) ?_ fun hx => ?_
       (on_goal 1 => unfold x)
       (on_goal 2 => (clear_value x; rename' x => y)))
    | (extract_lets +onlyGivenNames x; refine Keeps.keepEnv x ?_; rename' x => y)
    | (extract_lets +onlyGivenNames x; refine Keeps.keepSec x ?_; rename' x => y)
    | (extract_lets +onlyGivenNames x; refine Keeps.keepArm x ?_; rename' x => y)
    | (extract_lets +onlyGivenNames x; refine Keeps.keepMeter x ?_; rename' x => y)
    | (extract_lets +onlyGivenNames x; clear_value x; rename' x => y)
    | split

theorem keeps_execHostWindowWrite (h : Keeps F s t) :
    ∀ x0 x1 x2 x3 x4 x5 x6, (hF : [SField.env, .hostMem, .rif, .pcie, .arm, .slabs, .slabs2, .ports, .ports2, .tiles,
        .tiles2, .banks, .parts2, .ctxs, .funcs, .bankMem, .hbm] ⊆ F := by assumption) →
    Yields F s (execHostWindowWrite x0 x1 x2 x3 x4 x5 x6 t) := by
  intro x0 x1 x2 x3 x4 x5 x6 hF
  have f_windowWrite : [SField.env, .hostMem, .rif, .pcie, .arm, .slabs, .slabs2, .ports, .ports2, .tiles, .tiles2,
      .banks, .parts2, .ctxs, .funcs, .bankMem, .hbm] ⊆ F := List.Subset.trans (by decide) hF
  unfold execHostWindowWrite
  repeat'
    first
    | with_reducible assumption | with_reducible apply keeps_windowWrite | with_reducible apply Yields.next
    | split

theorem keeps_execAliasSetWrite (h : Keeps F s t) :
    ∀ x0 x1 x2 x3 x4 x5, (hF : [SField.env, .hostMem, .rif, .pcie, .arm, .slabs, .slabs2, .ports, .ports2, .tiles,
        .tiles2, .banks, .parts2, .ctxs, .funcs, .bankMem, .hbm] ⊆ F := by assumption) →
    Yields F s (execAliasSetWrite x0 x1 x2 x3 x4 x5 t) := by
  intro x0 x1 x2 x3 x4 x5 hF
  have f_windowWrite : [SField.env, .hostMem, .rif, .pcie, .arm, .slabs, .slabs2, .ports, .ports2, .tiles, .tiles2,
      .banks, .parts2, .ctxs, .funcs, .bankMem, .hbm] ⊆ F := List.Subset.trans (by decide) hF
  unfold execAliasSetWrite
  repeat'
    first
    | with_reducible assumption | with_reducible apply keeps_windowWrite | with_reducible apply Yields.next
    | split

theorem keeps_execAliasClearWrite (h : Keeps F s t) :
    ∀ x0 x1 x2 x3 x4 x5, (hF : [SField.env, .hostMem, .rif, .pcie, .arm, .slabs, .slabs2, .ports, .ports2, .tiles,
        .tiles2, .banks, .parts2, .ctxs, .funcs, .bankMem, .hbm] ⊆ F := by assumption) →
    Yields F s (execAliasClearWrite x0 x1 x2 x3 x4 x5 t) := by
  intro x0 x1 x2 x3 x4 x5 hF
  have f_windowWrite : [SField.env, .hostMem, .rif, .pcie, .arm, .slabs, .slabs2, .ports, .ports2, .tiles, .tiles2,
      .banks, .parts2, .ctxs, .funcs, .bankMem, .hbm] ⊆ F := List.Subset.trans (by decide) hF
  unfold execAliasClearWrite
  repeat'
    first
    | with_reducible assumption | with_reducible apply keeps_windowWrite | with_reducible apply Yields.next
    | split

theorem keeps_windowAtomic (h : Keeps F s t) :
    ∀ x0 x1 x2 x3 x4 x5 x6 x7 x8 x9, (hF : [SField.env, .hostMem, .rif, .pcie, .arm, .slabs, .slabs2, .ports,
        .ports2, .tiles, .tiles2, .banks, .parts2, .ctxs, .funcs, .bankMem, .hbm] ⊆ F := by assumption) →
    Keeps F s (windowAtomic x0 x1 x2 x3 x4 x5 x6 x7 x8 x9 t) := by
  intro x0 x1 x2 x3 x4 x5 x6 x7 x8 x9 hF
  have b_env : SField.env ∈ F := hF (by decide)
  have f_busReadError : [SField.env, .rif] ⊆ F := List.Subset.trans (by decide) hF
  have f_holdAcc : [SField.env] ⊆ F := List.Subset.trans (by decide) hF
  have f_bankFound : [SField.env, .hostMem, .pcie, .arm, .slabs, .slabs2, .ports, .ports2, .tiles, .tiles2, .banks,
      .parts2, .ctxs, .funcs, .bankMem, .hbm] ⊆ F := List.Subset.trans (by decide) hF
  have f_bankWrite : [SField.bankMem] ⊆ F := List.Subset.trans (by decide) hF
  have f_winAbort : [SField.env, .hostMem, .pcie, .slabs2, .tiles2, .funcs] ⊆ F := List.Subset.trans (by decide) hF
  unfold windowAtomic
  repeat'
    first
    | with_reducible assumption | with_reducible apply keeps_busReadError | with_reducible apply keeps_holdAcc
    | with_reducible apply keeps_bankFound | with_reducible apply keeps_bankWrite
    | with_reducible apply keeps_winAbort | with_reducible apply Keeps.answer
    | (extract_lets +onlyGivenNames x
       refine Keeps.cut (u := x) ?_ fun hx => ?_
       (on_goal 1 => unfold x)
       (on_goal 2 => (clear_value x; rename' x => y)))
    | (extract_lets +onlyGivenNames x; refine Keeps.keepEnv x ?_; rename' x => y)
    | (extract_lets +onlyGivenNames x; refine Keeps.keepSec x ?_; rename' x => y)
    | (extract_lets +onlyGivenNames x; refine Keeps.keepArm x ?_; rename' x => y)
    | (extract_lets +onlyGivenNames x; refine Keeps.keepMeter x ?_; rename' x => y)
    | (extract_lets +onlyGivenNames x; clear_value x; rename' x => y)
    | split | with_reducible refine Keeps.light ?_ rfl rfl rfl rfl

theorem keeps_execIadd (h : Keeps F s t) :
    ∀ x0 x1 x2 x3 x4 x5 x6 x7, (hF : [SField.env, .hostMem, .rif, .pcie, .arm, .slabs, .slabs2, .ports, .ports2,
        .tiles, .tiles2, .banks, .parts2, .ctxs, .funcs, .bankMem, .hbm] ⊆ F := by assumption) →
    Yields F s (execIadd x0 x1 x2 x3 x4 x5 x6 x7 t) := by
  intro x0 x1 x2 x3 x4 x5 x6 x7 hF
  have f_windowAtomic : [SField.env, .hostMem, .rif, .pcie, .arm, .slabs, .slabs2, .ports, .ports2, .tiles, .tiles2,
      .banks, .parts2, .ctxs, .funcs, .bankMem, .hbm] ⊆ F := List.Subset.trans (by decide) hF
  unfold execIadd
  repeat'
    first
    | with_reducible assumption | with_reducible apply keeps_windowAtomic | with_reducible apply Yields.next
    | split

theorem keeps_execFadd (h : Keeps F s t) :
    ∀ x0 x1 x2 x3 x4 x5 x6, (hF : [SField.env, .hostMem, .rif, .pcie, .arm, .slabs, .slabs2, .ports, .ports2, .tiles,
        .tiles2, .banks, .parts2, .ctxs, .funcs, .bankMem, .hbm] ⊆ F := by assumption) →
    Yields F s (execFadd x0 x1 x2 x3 x4 x5 x6 t) := by
  intro x0 x1 x2 x3 x4 x5 x6 hF
  have f_windowAtomic : [SField.env, .hostMem, .rif, .pcie, .arm, .slabs, .slabs2, .ports, .ports2, .tiles, .tiles2,
      .banks, .parts2, .ctxs, .funcs, .bankMem, .hbm] ⊆ F := List.Subset.trans (by decide) hF
  unfold execFadd
  repeat'
    first
    | with_reducible assumption | with_reducible apply keeps_windowAtomic | with_reducible apply Yields.next
    | split

theorem keeps_execSwap (h : Keeps F s t) :
    ∀ x0 x1 x2 x3 x4 x5 x6 x7 x8, (hF : [SField.env, .hostMem, .rif, .pcie, .arm, .slabs, .slabs2, .ports, .ports2,
        .tiles, .tiles2, .banks, .parts2, .ctxs, .funcs, .bankMem, .hbm] ⊆ F := by assumption) →
    Yields F s (execSwap x0 x1 x2 x3 x4 x5 x6 x7 x8 t) := by
  intro x0 x1 x2 x3 x4 x5 x6 x7 x8 hF
  have f_windowAtomic : [SField.env, .hostMem, .rif, .pcie, .arm, .slabs, .slabs2, .ports, .ports2, .tiles, .tiles2,
      .banks, .parts2, .ctxs, .funcs, .bankMem, .hbm] ⊆ F := List.Subset.trans (by decide) hF
  unfold execSwap
  repeat'
    first
    | with_reducible assumption | with_reducible apply keeps_windowAtomic | with_reducible apply Yields.next
    | split

theorem keeps_makeAcc (h : Keeps F s t) :
    ∀ x0, (hF : [SField.env, .hostMem, .rif, .pcie, .arm, .slabs, .slabs2, .ports, .ports2, .tiles, .tiles2, .banks,
        .parts2, .ctxs, .funcs, .bankMem, .hbm] ⊆ F := by assumption) →
    Keeps F s (makeAcc x0 t) := by
  intro x0 hF
  have f_execPacketDeliver : [SField.env, .hostMem, .pcie, .arm, .slabs, .slabs2, .ports, .ports2, .tiles, .tiles2,
      .banks, .parts2, .ctxs, .funcs, .bankMem, .hbm] ⊆ F := List.Subset.trans (by decide) hF
  have f_execHostWindowRead : [SField.env, .hostMem, .rif, .pcie, .arm, .slabs, .slabs2, .ports, .ports2, .tiles,
      .tiles2, .banks, .parts2, .ctxs, .funcs, .bankMem, .hbm] ⊆ F := List.Subset.trans (by decide) hF
  have f_windowWrite : [SField.env, .hostMem, .rif, .pcie, .arm, .slabs, .slabs2, .ports, .ports2, .tiles, .tiles2,
      .banks, .parts2, .ctxs, .funcs, .bankMem, .hbm] ⊆ F := List.Subset.trans (by decide) hF
  have f_windowAtomic : [SField.env, .hostMem, .rif, .pcie, .arm, .slabs, .slabs2, .ports, .ports2, .tiles, .tiles2,
      .banks, .parts2, .ctxs, .funcs, .bankMem, .hbm] ⊆ F := List.Subset.trans (by decide) hF
  unfold makeAcc
  repeat'
    first
    | with_reducible assumption | with_reducible apply keeps_windowWrite
    | with_reducible apply keeps_windowAtomic
    | exact (keeps_execPacketDeliver h _ _ _ _ f_execPacketDeliver).keeps ‹_›
    | exact (keeps_execHostWindowRead h _ _ _ _ _ _ _ f_execHostWindowRead).keeps ‹_›
    | split

theorem keeps_execWakeClearDone (h : Keeps F s t) :
    ∀ x0, (hF : [SField.env, .hostMem, .rif, .pcie, .arm, .slabs, .slabs2, .ports, .ports2, .tiles, .tiles2, .banks,
        .parts2, .ctxs, .funcs, .bankMem, .hbm] ⊆ F := by assumption) →
    Yields F s (execWakeClearDone x0 t) := by
  intro x0 hF
  have b_env : SField.env ∈ F := hF (by decide)
  have f_setClearing : [SField.banks] ⊆ F := List.Subset.trans (by decide) hF
  have f_makeAcc : [SField.env, .hostMem, .rif, .pcie, .arm, .slabs, .slabs2, .ports, .ports2, .tiles, .tiles2,
      .banks, .parts2, .ctxs, .funcs, .bankMem, .hbm] ⊆ F := List.Subset.trans (by decide) hF
  unfold execWakeClearDone
  repeat'
    first
    | with_reducible assumption | with_reducible apply keeps_setClearing | with_reducible apply keeps_makeAcc
    | with_reducible (refine Keeps.forAll ?_ _ _ fun _ _ _ => ?_) | with_reducible apply Yields.next
    | (extract_lets +onlyGivenNames x
       refine Yields.cut (u := x) ?_ fun hx => ?_
       (on_goal 1 => unfold x)
       (on_goal 2 => (clear_value x; rename' x => y)))
    | (extract_lets +onlyGivenNames x
       refine Keeps.cut (u := x) ?_ fun hx => ?_
       (on_goal 1 => unfold x)
       (on_goal 2 => (clear_value x; rename' x => y)))
    | (extract_lets +onlyGivenNames x; refine Keeps.keepEnv x ?_; rename' x => y)
    | (extract_lets +onlyGivenNames x; refine Keeps.keepSec x ?_; rename' x => y)
    | (extract_lets +onlyGivenNames x; refine Keeps.keepArm x ?_; rename' x => y)
    | (extract_lets +onlyGivenNames x; refine Keeps.keepMeter x ?_; rename' x => y)
    | (extract_lets +onlyGivenNames x; clear_value x; rename' x => y)
    | split | with_reducible refine Keeps.light ?_ rfl rfl rfl rfl

theorem keeps_execBankOwn (h : Keeps F s t) :
    ∀ x0 x1, (hF : [SField.tiles, .banks, .ctxs] ⊆ F := by assumption) →
    Yields F s (execBankOwn x0 x1 t) := by
  intro x0 x1 hF
  have f_finish : [SField.tiles, .ctxs] ⊆ F := List.Subset.trans (by decide) hF
  have f_ownRegion : [SField.banks] ⊆ F := List.Subset.trans (by decide) hF
  unfold execBankOwn
  repeat'
    first
    | with_reducible assumption | with_reducible apply keeps_finish | with_reducible apply keeps_ownRegion
    | with_reducible apply Yields.next
    | (extract_lets +onlyGivenNames x
       refine Yields.cut (u := x) ?_ fun hx => ?_
       (on_goal 1 => unfold x)
       (on_goal 2 => (clear_value x; rename' x => y)))
    | (extract_lets +onlyGivenNames x
       refine Keeps.cut (u := x) ?_ fun hx => ?_
       (on_goal 1 => unfold x)
       (on_goal 2 => (clear_value x; rename' x => y)))
    | (extract_lets +onlyGivenNames x; refine Keeps.keepEnv x ?_; rename' x => y)
    | (extract_lets +onlyGivenNames x; refine Keeps.keepSec x ?_; rename' x => y)
    | (extract_lets +onlyGivenNames x; refine Keeps.keepArm x ?_; rename' x => y)
    | (extract_lets +onlyGivenNames x; refine Keeps.keepMeter x ?_; rename' x => y)
    | (extract_lets +onlyGivenNames x; clear_value x; rename' x => y)
    | split | with_reducible refine Keeps.light ?_ rfl rfl rfl rfl

theorem keeps_execBankOwnWrite (h : Keeps F s t) :
    ∀ x0 x1 x2 x3, (hF : [SField.banks, .ctxs] ⊆ F := by assumption) →
    Yields F s (execBankOwnWrite x0 x1 x2 x3 t) := by
  intro x0 x1 x2 x3 hF
  have b_banks : SField.banks ∈ F := hF (by decide)
  have f_opAccess : [SField.ctxs] ⊆ F := List.Subset.trans (by decide) hF
  unfold execBankOwnWrite
  repeat'
    first
    | with_reducible assumption | with_reducible apply keeps_opAccess | with_reducible apply Keeps.modBank
    | with_reducible apply Yields.next
    | (extract_lets +onlyGivenNames x
       refine Yields.cut (u := x) ?_ fun hx => ?_
       (on_goal 1 => unfold x)
       (on_goal 2 => (clear_value x; rename' x => y)))
    | (extract_lets +onlyGivenNames x
       refine Keeps.cut (u := x) ?_ fun hx => ?_
       (on_goal 1 => unfold x)
       (on_goal 2 => (clear_value x; rename' x => y)))
    | (extract_lets +onlyGivenNames x; refine Keeps.keepEnv x ?_; rename' x => y)
    | (extract_lets +onlyGivenNames x; refine Keeps.keepSec x ?_; rename' x => y)
    | (extract_lets +onlyGivenNames x; refine Keeps.keepArm x ?_; rename' x => y)
    | (extract_lets +onlyGivenNames x; refine Keeps.keepMeter x ?_; rename' x => y)
    | (extract_lets +onlyGivenNames x; clear_value x; rename' x => y)
    | split | with_reducible refine Keeps.light ?_ rfl rfl rfl rfl

end Sys2Proof.Machine
end

