-- ==== Sys2Proof/Laws/KeepsIssue.lean ====
section
/-! SUPPORT. What every operation and meaning of Machine/Issue.lean keeps: the queue, the canonical form, what lasts, and every part
of the state outside its own list. -/

set_option linter.unreachableTactic false
set_option linter.unusedTactic false
set_option linter.unusedVariables false
set_option linter.tactic.unusedName false

namespace Sys2Proof.Machine

open Sys2Proof

-- Proofs one after another: the package compiles as one text under a memory limit.
set_option Elab.async false

variable {F : List SField} {s t : State}

theorem keeps_countIssue (h : Keeps F s t) :
    ∀ x0, (hF : [SField.parts2] ⊆ F := by assumption) →
    Keeps F s (countIssue x0 t) := by
  intro x0 hF
  have b_parts2 : SField.parts2 ∈ F := hF (by decide)
  have f_startExch : [SField.parts2] ⊆ F := List.Subset.trans (by decide) hF
  unfold countIssue
  repeat'
    first
    | with_reducible assumption | with_reducible apply Keeps.modPart2 | with_reducible apply keeps_startExch
    | (extract_lets +onlyGivenNames x
       refine Keeps.cut (u := x) ?_ fun hx => ?_
       (on_goal 1 => unfold x)
       (on_goal 2 => (clear_value x; rename' x => y)))
    | (extract_lets +onlyGivenNames x; refine Keeps.keepEnv x ?_; rename' x => y)
    | (extract_lets +onlyGivenNames x; refine Keeps.keepSec x ?_; rename' x => y)
    | (extract_lets +onlyGivenNames x; refine Keeps.keepArm x ?_; rename' x => y)
    | (extract_lets +onlyGivenNames x; refine Keeps.keepMeter x ?_; rename' x => y)
    | (extract_lets +onlyGivenNames x; clear_value x; rename' x => y)
    | split | with_reducible refine Keeps.light ?_ rfl rfl rfl rfl

theorem keeps_countFor (h : Keeps F s t) {c : Nat} {f : Nat → State → State} (hf : ∀ p u, Keeps F s u → Keeps F s (f p u)) :
    Keeps F s (countFor c f t) := by
  unfold countFor
  split
  · exact h
  · exact hf _ _ h

theorem keeps_issueCmd (h : Keeps F s t) :
    ∀ x0 x1 x2 x3, (hF : [SField.env, .hostMem, .pcie, .tiles, .parts, .parts2, .ctxs, .funcs, .hbm] ⊆ F := by
        assumption) →
    Keeps F s (issueCmd x0 x1 x2 x3 t) := by
  intro x0 x1 x2 x3 hF
  have f_modCmd : [SField.ctxs] ⊆ F := List.Subset.trans (by decide) hF
  have f_takeDraw : [SField.ctxs] ⊆ F := List.Subset.trans (by decide) hF
  have f_fixForms : [SField.tiles] ⊆ F := List.Subset.trans (by decide) hF
  have f_issueKvAppend : [SField.env, .hostMem, .pcie, .parts, .parts2, .ctxs, .funcs, .hbm] ⊆ F :=
      List.Subset.trans (by decide) hF
  have f_countIssue : [SField.parts2] ⊆ F := List.Subset.trans (by decide) hF
  revert x0 x1 x2 x3
  intro c m b seen
  unfold issueCmd
  extract_lets s1 s2 s3 s4
  have h1 : Keeps F s s1 := keeps_modCmd h _ _ _
  clear_value s1
  have h2 : Keeps F s s2 := by
    unfold s2
    split
    · exact keeps_takeDraw h1 _ _ _
    · exact h1
  clear_value s2
  have h3 : Keeps F s s3 := keeps_fixForms h2 _
  clear_value s3
  have h4 : Keeps F s s4 := by
    unfold s4
    split
    · exact keeps_issueKvAppend h3 _ _ _ _
    · exact h3
  exact keeps_countFor h4 fun p u hu => keeps_countIssue hu p

theorem keeps_refuseCmd (h : Keeps F s t) :
    ∀ x0 x1 x2, (hF : [SField.parts2, .ctxs] ⊆ F := by assumption) →
    Keeps F s (refuseCmd x0 x1 x2 t) := by
  intro x0 x1 x2 hF
  have b_parts2 : SField.parts2 ∈ F := hF (by decide)
  have f_modCmd : [SField.ctxs] ⊆ F := List.Subset.trans (by decide) hF
  revert x0 x1 x2
  intro c m r
  exact keeps_countFor (keeps_modCmd h _ _ _) fun p u hu => hu.modPart2 _ _

theorem keeps_emptyCmd (h : Keeps F s t) :
    ∀ x0 x1 x2, (hF : [SField.parts2, .ctxs] ⊆ F := by assumption) →
    Keeps F s (emptyCmd x0 x1 x2 t) := by
  intro x0 x1 x2 hF
  have f_modCmd : [SField.ctxs] ⊆ F := List.Subset.trans (by decide) hF
  have f_countIssue : [SField.parts2] ⊆ F := List.Subset.trans (by decide) hF
  revert x0 x1 x2
  intro c m seen
  exact keeps_countFor (keeps_modCmd h _ _ _) fun p u hu => keeps_countIssue hu p

theorem keeps_haltAppend (h : Keeps F s t) :
    ∀ x0 x1 x2 x3, (hF : [SField.env, .hostMem, .pcie, .parts2, .ctxs, .funcs] ⊆ F := by assumption) →
    Keeps F s (haltAppend x0 x1 x2 x3 t) := by
  intro x0 x1 x2 x3 hF
  have f_setSt : [SField.ctxs] ⊆ F := List.Subset.trans (by decide) hF
  have f_kvEvent : [SField.env, .hostMem, .pcie, .parts2, .funcs] ⊆ F := List.Subset.trans (by decide) hF
  have f_postBoth : [SField.env, .hostMem, .pcie, .funcs] ⊆ F := List.Subset.trans (by decide) hF
  unfold haltAppend
  repeat'
    first
    | with_reducible assumption | with_reducible apply keeps_setSt | with_reducible apply keeps_kvEvent
    | with_reducible apply keeps_postBoth
    | (extract_lets +onlyGivenNames x
       refine Keeps.cut (u := x) ?_ fun hx => ?_
       (on_goal 1 => unfold x)
       (on_goal 2 => (clear_value x; rename' x => y)))
    | (extract_lets +onlyGivenNames x; refine Keeps.keepEnv x ?_; rename' x => y)
    | (extract_lets +onlyGivenNames x; refine Keeps.keepSec x ?_; rename' x => y)
    | (extract_lets +onlyGivenNames x; refine Keeps.keepArm x ?_; rename' x => y)
    | (extract_lets +onlyGivenNames x; refine Keeps.keepMeter x ?_; rename' x => y)
    | (extract_lets +onlyGivenNames x; clear_value x; rename' x => y)
    | split | with_reducible refine Keeps.light ?_ rfl rfl rfl rfl

theorem keeps_decideCmd (h : Keeps F s t) :
    ∀ x0 x1, (hF : [SField.env, .hostMem, .pcie, .tiles, .parts, .parts2, .ctxs, .funcs, .hbm] ⊆ F := by assumption) →
    Keeps F s (decideCmd x0 x1 t) := by
  intro x0 x1 hF
  have f_settle : [SField.env, .ctxs] ⊆ F := List.Subset.trans (by decide) hF
  have f_refuseCmd : [SField.parts2, .ctxs] ⊆ F := List.Subset.trans (by decide) hF
  have f_emptyCmd : [SField.parts2, .ctxs] ⊆ F := List.Subset.trans (by decide) hF
  have f_issueCmd : [SField.env, .hostMem, .pcie, .tiles, .parts, .parts2, .ctxs, .funcs, .hbm] ⊆ F :=
      List.Subset.trans (by decide) hF
  have f_haltAppend : [SField.env, .hostMem, .pcie, .parts2, .ctxs, .funcs] ⊆ F := List.Subset.trans (by decide) hF
  unfold decideCmd
  extract_lets p seen v trial
  clear_value p seen v trial
  repeat'
    first
    | with_reducible assumption | with_reducible apply keeps_settle | with_reducible apply keeps_refuseCmd
    | with_reducible apply keeps_emptyCmd | with_reducible apply keeps_issueCmd
    | with_reducible apply keeps_haltAppend
    | (extract_lets +onlyGivenNames x
       refine Keeps.cut (u := x) ?_ fun hx => ?_
       (on_goal 1 => unfold x)
       (on_goal 2 => (clear_value x; rename' x => y)))
    | (extract_lets +onlyGivenNames x; refine Keeps.keepEnv x ?_; rename' x => y)
    | (extract_lets +onlyGivenNames x; refine Keeps.keepSec x ?_; rename' x => y)
    | (extract_lets +onlyGivenNames x; refine Keeps.keepArm x ?_; rename' x => y)
    | (extract_lets +onlyGivenNames x; refine Keeps.keepMeter x ?_; rename' x => y)
    | (extract_lets +onlyGivenNames x; clear_value x; rename' x => y)
    | split

theorem keeps_countHazard (h : Keeps F s t) :
    ∀ x0, (hF : [SField.env, .parts2] ⊆ F := by assumption) →
    Keeps F s (countHazard x0 t) := by
  intro x0 hF
  have b_env : SField.env ∈ F := hF (by decide)
  have b_parts2 : SField.parts2 ∈ F := hF (by decide)
  unfold countHazard
  repeat'
    first
    | with_reducible assumption | with_reducible apply Keeps.takeFree | with_reducible apply Keeps.modPart2
    | (extract_lets +onlyGivenNames x
       refine Keeps.cut (u := x) ?_ fun hx => ?_
       (on_goal 1 => unfold x)
       (on_goal 2 => (clear_value x; rename' x => y)))
    | (extract_lets +onlyGivenNames x; refine Keeps.keepEnv x ?_; rename' x => y)
    | (extract_lets +onlyGivenNames x; refine Keeps.keepSec x ?_; rename' x => y)
    | (extract_lets +onlyGivenNames x; refine Keeps.keepArm x ?_; rename' x => y)
    | (extract_lets +onlyGivenNames x; refine Keeps.keepMeter x ?_; rename' x => y)
    | (extract_lets +onlyGivenNames x; clear_value x; rename' x => y)
    | split | with_reducible refine Keeps.light ?_ rfl rfl rfl rfl

theorem keeps_actControls (h : Keeps F s t) :
    ∀ x0, (hF : [SField.env, .hostMem, .pcie, .ctxs, .funcs] ⊆ F := by assumption) →
    Keeps F s (actControls x0 t) := by
  intro x0 hF
  have f_actControl : [SField.env, .hostMem, .pcie, .ctxs, .funcs] ⊆ F := List.Subset.trans (by decide) hF
  unfold actControls
  repeat'
    first
    | with_reducible assumption | with_reducible (refine Keeps.forAll ?_ _ _ fun _ _ _ => ?_)
    | with_reducible apply keeps_actControl
    | (extract_lets +onlyGivenNames x
       refine Keeps.cut (u := x) ?_ fun hx => ?_
       (on_goal 1 => unfold x)
       (on_goal 2 => (clear_value x; rename' x => y)))
    | (extract_lets +onlyGivenNames x; refine Keeps.keepEnv x ?_; rename' x => y)
    | (extract_lets +onlyGivenNames x; refine Keeps.keepSec x ?_; rename' x => y)
    | (extract_lets +onlyGivenNames x; refine Keeps.keepArm x ?_; rename' x => y)
    | (extract_lets +onlyGivenNames x; refine Keeps.keepMeter x ?_; rename' x => y)
    | (extract_lets +onlyGivenNames x; clear_value x; rename' x => y)
    | split | with_reducible refine Keeps.light ?_ rfl rfl rfl rfl

theorem keeps_execIssueDecision (h : Keeps F s t) :
    ∀ x0, (hF : [SField.env, .hostMem, .pcie, .tiles, .parts, .parts2, .ctxs, .funcs, .hbm] ⊆ F := by assumption) →
    Yields F s (execIssueDecision x0 t) := by
  intro x0 hF
  have b_parts2 : SField.parts2 ∈ F := hF (by decide)
  have f_decideCmd : [SField.env, .hostMem, .pcie, .tiles, .parts, .parts2, .ctxs, .funcs, .hbm] ⊆ F :=
      List.Subset.trans (by decide) hF
  have f_countHazard : [SField.env, .parts2] ⊆ F := List.Subset.trans (by decide) hF
  have f_actControls : [SField.env, .hostMem, .pcie, .ctxs, .funcs] ⊆ F := List.Subset.trans (by decide) hF
  unfold execIssueDecision
  repeat'
    first
    | with_reducible assumption | with_reducible apply keeps_decideCmd | with_reducible apply keeps_countHazard
    | with_reducible apply keeps_actControls | with_reducible apply Keeps.modPart2 | with_reducible apply Yields.next
    | (extract_lets +onlyGivenNames x
       refine Yields.cut (u := x) ?_ fun hx => ?_
       (on_goal 1 => unfold x)
       (on_goal 2 => (clear_value x; rename' x => y)))
    | (extract_lets +onlyGivenNames x
       refine Keeps.cut (u := x) ?_ fun hx => ?_
       (on_goal 1 => unfold x)
       (on_goal 2 => (clear_value x; rename' x => y)))
    | (extract_lets +onlyGivenNames x; refine Keeps.keepEnv x ?_; rename' x => y)
    | (extract_lets +onlyGivenNames x; refine Keeps.keepSec x ?_; rename' x => y)
    | (extract_lets +onlyGivenNames x; refine Keeps.keepArm x ?_; rename' x => y)
    | (extract_lets +onlyGivenNames x; refine Keeps.keepMeter x ?_; rename' x => y)
    | (extract_lets +onlyGivenNames x; clear_value x; rename' x => y)
    | split | with_reducible refine Keeps.light ?_ rfl rfl rfl rfl

end Sys2Proof.Machine
end

