-- ==== Sys2Proof/Laws/KeepsMeter.lean ====
section
/-! SUPPORT. What every operation and meaning of Machine/Meter.lean keeps: the queue, the canonical form, what lasts, and every part
of the state outside its own list. -/

set_option linter.unreachableTactic false
set_option linter.unusedTactic false
set_option linter.unusedVariables false
set_option linter.tactic.unusedName false

namespace Sys2Proof.Machine

open Sys2Proof

-- Proofs one after another: the package compiles as one text under a memory limit.
set_option Elab.async false

variable {F : List SField} {s t : State}

theorem auditAdd_rseq (k o n : Nat) (m : Meter) : (auditAdd k o n m).rseq = m.rseq := by
  unfold auditAdd
  split <;> rfl

theorem auditAdd_suffix (k o n : Nat) (m : Meter) : m.audit <:+ (auditAdd k o n m).audit := by
  unfold auditAdd
  split
  · exact List.suffix_rfl
  · exact List.suffix_cons _ _

theorem keeps_meterRun (h : Keeps F s t) :
    ∀ x0, (hF : [SField.meter, .meter2] ⊆ F := by assumption) →
    Keeps F s (meterRun x0 t) := by
  intro x0 hF
  have b_meter : SField.meter ∈ F := hF (by decide)
  have b_meter2 : SField.meter2 ∈ F := hF (by decide)
  unfold meterRun
  repeat'
    first
    | with_reducible assumption
    | (extract_lets +onlyGivenNames x
       refine Keeps.cut (u := x) ?_ fun hx => ?_
       (on_goal 1 => unfold x)
       (on_goal 2 => (clear_value x; rename' x => y)))
    | (extract_lets +onlyGivenNames x; refine Keeps.keepEnv x ?_; rename' x => y)
    | (extract_lets +onlyGivenNames x; refine Keeps.keepSec x ?_; rename' x => y)
    | (extract_lets +onlyGivenNames x; refine Keeps.keepArm x ?_; rename' x => y)
    | (extract_lets +onlyGivenNames x; refine Keeps.keepMeter x ?_; rename' x => y)
    | (extract_lets +onlyGivenNames x; clear_value x; rename' x => y)
    | with_reducible refine Keeps.meterLight ?_ rfl rfl
    | split | with_reducible refine Keeps.light ?_ rfl rfl rfl rfl

theorem keeps_formReading (h : Keeps F s t) :
    (hF : [SField.meter, .meter2] ⊆ F := by assumption) →
    Keeps F s (formReading t) := by
  intro hF
  have b_meter : SField.meter ∈ F := hF (by decide)
  have b_meter2 : SField.meter2 ∈ F := hF (by decide)
  exact h.metered (Nat.le_succ _) List.suffix_rfl

theorem keeps_serveReading (h : Keeps F s t) :
    (hF : [SField.meter, .meter2] ⊆ F := by assumption) →
    Keeps F s (serveReading t) := by
  intro hF
  have f_formReading : [SField.meter, .meter2] ⊆ F := List.Subset.trans (by decide) hF
  unfold serveReading
  split
  · exact keeps_formReading h
  · exact h

theorem keeps_trigger (h : Keeps F s t) :
    ∀ x0, (hF : [SField.meter, .meter2] ⊆ F := by assumption) →
    Keeps F s (trigger x0 t) := by
  intro x0 hF
  have b_meter : SField.meter ∈ F := hF (by decide)
  have f_serveReading : [SField.meter, .meter2] ⊆ F := List.Subset.trans (by decide) hF
  unfold trigger
  repeat'
    first
    | with_reducible assumption | with_reducible apply keeps_serveReading
    | (extract_lets +onlyGivenNames x
       refine Keeps.cut (u := x) ?_ fun hx => ?_
       (on_goal 1 => unfold x)
       (on_goal 2 => (clear_value x; rename' x => y)))
    | (extract_lets +onlyGivenNames x; refine Keeps.keepEnv x ?_; rename' x => y)
    | (extract_lets +onlyGivenNames x; refine Keeps.keepSec x ?_; rename' x => y)
    | (extract_lets +onlyGivenNames x; refine Keeps.keepArm x ?_; rename' x => y)
    | (extract_lets +onlyGivenNames x; refine Keeps.keepMeter x ?_; rename' x => y)
    | (extract_lets +onlyGivenNames x; clear_value x; rename' x => y)
    | with_reducible refine Keeps.meterLight ?_ rfl rfl
    | split | with_reducible refine Keeps.light ?_ rfl rfl rfl rfl

theorem keeps_execMeterPeriodTick (h : Keeps F s t) :
    ∀ x0, (hF : [SField.meter, .meter2] ⊆ F := by assumption) →
    Yields F s (execMeterPeriodTick x0 t) := by
  intro x0 hF
  have f_trigger : [SField.meter, .meter2] ⊆ F := List.Subset.trans (by decide) hF
  have f_meterRun : [SField.meter, .meter2] ⊆ F := List.Subset.trans (by decide) hF
  unfold execMeterPeriodTick
  repeat'
    first
    | with_reducible assumption | with_reducible apply keeps_trigger | with_reducible apply keeps_meterRun
    | with_reducible apply Yields.next
    | (extract_lets +onlyGivenNames x
       refine Yields.cut (u := x) ?_ fun hx => ?_
       (on_goal 1 => unfold x)
       (on_goal 2 => (clear_value x; rename' x => y)))
    | (extract_lets +onlyGivenNames x
       refine Keeps.cut (u := x) ?_ fun hx => ?_
       (on_goal 1 => unfold x)
       (on_goal 2 => (clear_value x; rename' x => y)))
    | (extract_lets +onlyGivenNames x; refine Keeps.keepEnv x ?_; rename' x => y)
    | (extract_lets +onlyGivenNames x; refine Keeps.keepSec x ?_; rename' x => y)
    | (extract_lets +onlyGivenNames x; refine Keeps.keepArm x ?_; rename' x => y)
    | (extract_lets +onlyGivenNames x; refine Keeps.keepMeter x ?_; rename' x => y)
    | (extract_lets +onlyGivenNames x; clear_value x; rename' x => y)
    | with_reducible refine Keeps.meterLight ?_ rfl rfl
    | split | with_reducible refine Keeps.light ?_ rfl rfl rfl rfl

theorem keeps_execMReadReq (h : Keeps F s t) :
    ∀ x0, (hF : [SField.meter, .meter2] ⊆ F := by assumption) →
    Yields F s (execMReadReq x0 t) := by
  intro x0 hF
  have f_trigger : [SField.meter, .meter2] ⊆ F := List.Subset.trans (by decide) hF
  have f_meterRun : [SField.meter, .meter2] ⊆ F := List.Subset.trans (by decide) hF
  unfold execMReadReq
  repeat'
    first
    | with_reducible assumption | with_reducible apply keeps_trigger | with_reducible apply keeps_meterRun
    | with_reducible apply Yields.next
    | (extract_lets +onlyGivenNames x
       refine Yields.cut (u := x) ?_ fun hx => ?_
       (on_goal 1 => unfold x)
       (on_goal 2 => (clear_value x; rename' x => y)))
    | (extract_lets +onlyGivenNames x
       refine Keeps.cut (u := x) ?_ fun hx => ?_
       (on_goal 1 => unfold x)
       (on_goal 2 => (clear_value x; rename' x => y)))
    | (extract_lets +onlyGivenNames x; refine Keeps.keepEnv x ?_; rename' x => y)
    | (extract_lets +onlyGivenNames x; refine Keeps.keepSec x ?_; rename' x => y)
    | (extract_lets +onlyGivenNames x; refine Keeps.keepArm x ?_; rename' x => y)
    | (extract_lets +onlyGivenNames x; refine Keeps.keepMeter x ?_; rename' x => y)
    | (extract_lets +onlyGivenNames x; clear_value x; rename' x => y)
    | with_reducible refine Keeps.meterLight ?_ rfl rfl
    | split | with_reducible refine Keeps.light ?_ rfl rfl rfl rfl

theorem keeps_execMirrorRequest (h : Keeps F s t) :
    ∀ x0, (hF : [SField.mtr, .meter, .meter2] ⊆ F := by assumption) →
    Yields F s (execMirrorRequest x0 t) := by
  intro x0 hF
  have b_mtr : SField.mtr ∈ F := hF (by decide)
  have f_trigger : [SField.meter, .meter2] ⊆ F := List.Subset.trans (by decide) hF
  have f_meterRun : [SField.meter, .meter2] ⊆ F := List.Subset.trans (by decide) hF
  unfold execMirrorRequest
  repeat'
    first
    | with_reducible assumption | with_reducible apply keeps_trigger | with_reducible apply keeps_meterRun
    | with_reducible apply Yields.next
    | (extract_lets +onlyGivenNames x
       refine Yields.cut (u := x) ?_ fun hx => ?_
       (on_goal 1 => unfold x)
       (on_goal 2 => (clear_value x; rename' x => y)))
    | (extract_lets +onlyGivenNames x
       refine Keeps.cut (u := x) ?_ fun hx => ?_
       (on_goal 1 => unfold x)
       (on_goal 2 => (clear_value x; rename' x => y)))
    | (extract_lets +onlyGivenNames x; refine Keeps.keepEnv x ?_; rename' x => y)
    | (extract_lets +onlyGivenNames x; refine Keeps.keepSec x ?_; rename' x => y)
    | (extract_lets +onlyGivenNames x; refine Keeps.keepArm x ?_; rename' x => y)
    | (extract_lets +onlyGivenNames x; refine Keeps.keepMeter x ?_; rename' x => y)
    | (extract_lets +onlyGivenNames x; clear_value x; rename' x => y)
    | with_reducible refine Keeps.meterLight ?_ rfl rfl
    | split | with_reducible refine Keeps.light ?_ rfl rfl rfl rfl

theorem keeps_execMeterSpacingEnd (h : Keeps F s t) :
    ∀ x0, (hF : [SField.meter, .meter2] ⊆ F := by assumption) →
    Yields F s (execMeterSpacingEnd x0 t) := by
  intro x0 hF
  have f_serveReading : [SField.meter, .meter2] ⊆ F := List.Subset.trans (by decide) hF
  have f_meterRun : [SField.meter, .meter2] ⊆ F := List.Subset.trans (by decide) hF
  unfold execMeterSpacingEnd
  repeat'
    first
    | with_reducible assumption | with_reducible apply keeps_serveReading | with_reducible apply keeps_meterRun
    | with_reducible apply Yields.next
    | (extract_lets +onlyGivenNames x
       refine Yields.cut (u := x) ?_ fun hx => ?_
       (on_goal 1 => unfold x)
       (on_goal 2 => (clear_value x; rename' x => y)))
    | (extract_lets +onlyGivenNames x
       refine Keeps.cut (u := x) ?_ fun hx => ?_
       (on_goal 1 => unfold x)
       (on_goal 2 => (clear_value x; rename' x => y)))
    | (extract_lets +onlyGivenNames x; refine Keeps.keepEnv x ?_; rename' x => y)
    | (extract_lets +onlyGivenNames x; refine Keeps.keepSec x ?_; rename' x => y)
    | (extract_lets +onlyGivenNames x; refine Keeps.keepArm x ?_; rename' x => y)
    | (extract_lets +onlyGivenNames x; refine Keeps.keepMeter x ?_; rename' x => y)
    | (extract_lets +onlyGivenNames x; clear_value x; rename' x => y)
    | with_reducible refine Keeps.meterLight ?_ rfl rfl
    | split | with_reducible refine Keeps.light ?_ rfl rfl rfl rfl

theorem keeps_execMeterPowerUp (h : Keeps F s t) :
    ∀ x0, (hF : [SField.meter, .meter2] ⊆ F := by assumption) →
    Yields F s (execMeterPowerUp x0 t) := by
  intro x0 hF
  have b_meter : SField.meter ∈ F := hF (by decide)
  have b_meter2 : SField.meter2 ∈ F := hF (by decide)
  have f_trigger : [SField.meter, .meter2] ⊆ F := List.Subset.trans (by decide) hF
  have f_meterRun : [SField.meter, .meter2] ⊆ F := List.Subset.trans (by decide) hF
  revert x0
  intro m
  unfold execMeterPowerUp
  split
  · exact Yields.next h
  · refine Yields.next (keeps_trigger (keeps_meterRun (h.metered ?_ ?_) _) _)
    · exact (auditAdd_rseq _ _ _ _).ge
    · exact auditAdd_suffix _ _ _ _

theorem keeps_execMeterPowerDown (h : Keeps F s t) :
    ∀ x0, (hF : [SField.meter, .meter2] ⊆ F := by assumption) →
    Yields F s (execMeterPowerDown x0 t) := by
  intro x0 hF
  have b_meter : SField.meter ∈ F := hF (by decide)
  have f_meterRun : [SField.meter, .meter2] ⊆ F := List.Subset.trans (by decide) hF
  unfold execMeterPowerDown
  repeat'
    first
    | with_reducible assumption | with_reducible apply keeps_meterRun | with_reducible apply Yields.next
    | (extract_lets +onlyGivenNames x
       refine Yields.cut (u := x) ?_ fun hx => ?_
       (on_goal 1 => unfold x)
       (on_goal 2 => (clear_value x; rename' x => y)))
    | (extract_lets +onlyGivenNames x
       refine Keeps.cut (u := x) ?_ fun hx => ?_
       (on_goal 1 => unfold x)
       (on_goal 2 => (clear_value x; rename' x => y)))
    | (extract_lets +onlyGivenNames x; refine Keeps.keepEnv x ?_; rename' x => y)
    | (extract_lets +onlyGivenNames x; refine Keeps.keepSec x ?_; rename' x => y)
    | (extract_lets +onlyGivenNames x; refine Keeps.keepArm x ?_; rename' x => y)
    | (extract_lets +onlyGivenNames x; refine Keeps.keepMeter x ?_; rename' x => y)
    | (extract_lets +onlyGivenNames x; clear_value x; rename' x => y)
    | with_reducible refine Keeps.meterLight ?_ rfl rfl
    | split | with_reducible refine Keeps.light ?_ rfl rfl rfl rfl

theorem keeps_execSealChange (h : Keeps F s t) :
    ∀ x0 x1 x2, (hF : [SField.meter, .meter2] ⊆ F := by assumption) →
    Yields F s (execSealChange x0 x1 x2 t) := by
  intro x0 x1 x2 hF
  have b_meter : SField.meter ∈ F := hF (by decide)
  have b_meter2 : SField.meter2 ∈ F := hF (by decide)
  have f_meterRun : [SField.meter, .meter2] ⊆ F := List.Subset.trans (by decide) hF
  have f_trigger : [SField.meter, .meter2] ⊆ F := List.Subset.trans (by decide) hF
  revert x0 x1 x2
  intro a b m
  unfold execSealChange
  extract_lets was put s1 s2 is
  have h1 : Keeps F s s1 := keeps_meterRun h _
  have h2 : Keeps F s s2 := h1.meterLight rfl rfl
  clear_value s2
  split
  · split
    · exact Yields.next h2
    · refine Yields.next (keeps_trigger (h2.metered ?_ ?_) _)
      · exact (auditAdd_rseq _ _ _ _).ge
      · exact auditAdd_suffix _ _ _ _
  · exact Yields.next (h.meterLight rfl rfl)

theorem keeps_setRefused (h : Keeps F s t) :
    ∀ x0, (hF : [SField.meter] ⊆ F := by assumption) →
    Keeps F s (setRefused x0 t) := by
  intro x0 hF
  have b_meter : SField.meter ∈ F := hF (by decide)
  unfold setRefused
  repeat'
    first
    | with_reducible assumption
    | (extract_lets +onlyGivenNames x
       refine Keeps.cut (u := x) ?_ fun hx => ?_
       (on_goal 1 => unfold x)
       (on_goal 2 => (clear_value x; rename' x => y)))
    | (extract_lets +onlyGivenNames x; refine Keeps.keepEnv x ?_; rename' x => y)
    | (extract_lets +onlyGivenNames x; refine Keeps.keepSec x ?_; rename' x => y)
    | (extract_lets +onlyGivenNames x; refine Keeps.keepArm x ?_; rename' x => y)
    | (extract_lets +onlyGivenNames x; refine Keeps.keepMeter x ?_; rename' x => y)
    | (extract_lets +onlyGivenNames x; clear_value x; rename' x => y)
    | with_reducible refine Keeps.meterLight ?_ rfl rfl
    | split | with_reducible refine Keeps.light ?_ rfl rfl rfl rfl

theorem keeps_periodWrite (h : Keeps F s t) :
    ∀ x0, (hF : [SField.meter] ⊆ F := by assumption) →
    Keeps F s (periodWrite x0 t) := by
  intro x0 hF
  have b_meter : SField.meter ∈ F := hF (by decide)
  have f_setRefused : [SField.meter] ⊆ F := List.Subset.trans (by decide) hF
  revert x0
  intro v
  unfold periodWrite
  split
  · exact keeps_setRefused h _
  · refine keeps_setRefused (h.metered ?_ ?_) _
    · exact (auditAdd_rseq _ _ _ _).ge
    · exact auditAdd_suffix _ _ _ _

theorem keeps_execMPeriodWrite (h : Keeps F s t) :
    ∀ x0, (hF : [SField.meter] ⊆ F := by assumption) →
    Yields F s (execMPeriodWrite x0 t) := by
  intro x0 hF
  have f_periodWrite : [SField.meter] ⊆ F := List.Subset.trans (by decide) hF
  unfold execMPeriodWrite
  repeat'
    first
    | with_reducible assumption | with_reducible apply keeps_periodWrite | with_reducible apply Yields.next
    | (extract_lets +onlyGivenNames x
       refine Yields.cut (u := x) ?_ fun hx => ?_
       (on_goal 1 => unfold x)
       (on_goal 2 => (clear_value x; rename' x => y)))
    | (extract_lets +onlyGivenNames x
       refine Keeps.cut (u := x) ?_ fun hx => ?_
       (on_goal 1 => unfold x)
       (on_goal 2 => (clear_value x; rename' x => y)))
    | (extract_lets +onlyGivenNames x; refine Keeps.keepEnv x ?_; rename' x => y)
    | (extract_lets +onlyGivenNames x; refine Keeps.keepSec x ?_; rename' x => y)
    | (extract_lets +onlyGivenNames x; refine Keeps.keepArm x ?_; rename' x => y)
    | (extract_lets +onlyGivenNames x; refine Keeps.keepMeter x ?_; rename' x => y)
    | (extract_lets +onlyGivenNames x; clear_value x; rename' x => y)
    | with_reducible refine Keeps.meterLight ?_ rfl rfl
    | split | with_reducible refine Keeps.light ?_ rfl rfl rfl rfl

theorem keeps_meterRegWrite (h : Keeps F s t) :
    ∀ x0 x1, (hF : [SField.meter] ⊆ F := by assumption) →
    Keeps F s (meterRegWrite x0 x1 t) := by
  intro x0 x1 hF
  have b_meter : SField.meter ∈ F := hF (by decide)
  have f_periodWrite : [SField.meter] ⊆ F := List.Subset.trans (by decide) hF
  have f_setRefused : [SField.meter] ⊆ F := List.Subset.trans (by decide) hF
  revert x0 x1
  intro a v
  unfold meterRegWrite
  split
  · exact keeps_periodWrite h _
  all_goals refine keeps_setRefused ?_ _
  iterate 4 (refine Keeps.meterLight h ?_ ?_ <;> rfl)
  exact h

theorem keeps_meterWrites (h : Keeps F s t) :
    ∀ x0 x1 x2, (hF : [SField.meter] ⊆ F := by assumption) →
    Keeps F s (meterWrites x0 x1 x2 t) := by
  intro x0 x1 x2 hF
  have f_meterRegWrite : [SField.meter] ⊆ F := List.Subset.trans (by decide) hF
  have f_setRefused : [SField.meter] ⊆ F := List.Subset.trans (by decide) hF
  revert x0 x1 x2
  intro n
  induction n generalizing t with
  | zero => intros; exact h
  | succ n ih =>
    intro a l
    cases l with
    | nil => exact h
    | cons b l =>
      simp only [meterWrites]
      split
      · exact ih (keeps_meterRegWrite h _ _) _ _
      · exact keeps_setRefused h _

theorem keeps_execMeterPortWrite (h : Keeps F s t) :
    ∀ x0 x1, (hF : [SField.meter] ⊆ F := by assumption) →
    Yields F s (execMeterPortWrite x0 x1 t) := by
  intro x0 x1 hF
  have b_meter : SField.meter ∈ F := hF (by decide)
  have f_meterWrites : [SField.meter] ⊆ F := List.Subset.trans (by decide) hF
  unfold execMeterPortWrite
  repeat'
    first
    | with_reducible assumption | with_reducible apply keeps_meterWrites | with_reducible apply Yields.next
    | (extract_lets +onlyGivenNames x
       refine Yields.cut (u := x) ?_ fun hx => ?_
       (on_goal 1 => unfold x)
       (on_goal 2 => (clear_value x; rename' x => y)))
    | (extract_lets +onlyGivenNames x
       refine Keeps.cut (u := x) ?_ fun hx => ?_
       (on_goal 1 => unfold x)
       (on_goal 2 => (clear_value x; rename' x => y)))
    | (extract_lets +onlyGivenNames x; refine Keeps.keepEnv x ?_; rename' x => y)
    | (extract_lets +onlyGivenNames x; refine Keeps.keepSec x ?_; rename' x => y)
    | (extract_lets +onlyGivenNames x; refine Keeps.keepArm x ?_; rename' x => y)
    | (extract_lets +onlyGivenNames x; refine Keeps.keepMeter x ?_; rename' x => y)
    | (extract_lets +onlyGivenNames x; clear_value x; rename' x => y)
    | with_reducible refine Keeps.meterLight ?_ rfl rfl
    | split | with_reducible refine Keeps.light ?_ rfl rfl rfl rfl

theorem keeps_execMeterPortRead (h : Keeps F s t) :
    ∀ x0, (hF : [SField.env, .meter] ⊆ F := by assumption) →
    Yields F s (execMeterPortRead x0 t) := by
  intro x0 hF
  have b_env : SField.env ∈ F := hF (by decide)
  have b_meter : SField.meter ∈ F := hF (by decide)
  unfold execMeterPortRead
  repeat'
    first
    | with_reducible assumption | with_reducible apply Keeps.answer | with_reducible apply Yields.next
    | (extract_lets +onlyGivenNames x
       refine Yields.cut (u := x) ?_ fun hx => ?_
       (on_goal 1 => unfold x)
       (on_goal 2 => (clear_value x; rename' x => y)))
    | (extract_lets +onlyGivenNames x
       refine Keeps.cut (u := x) ?_ fun hx => ?_
       (on_goal 1 => unfold x)
       (on_goal 2 => (clear_value x; rename' x => y)))
    | (extract_lets +onlyGivenNames x; refine Keeps.keepEnv x ?_; rename' x => y)
    | (extract_lets +onlyGivenNames x; refine Keeps.keepSec x ?_; rename' x => y)
    | (extract_lets +onlyGivenNames x; refine Keeps.keepArm x ?_; rename' x => y)
    | (extract_lets +onlyGivenNames x; refine Keeps.keepMeter x ?_; rename' x => y)
    | (extract_lets +onlyGivenNames x; clear_value x; rename' x => y)
    | with_reducible refine Keeps.meterLight ?_ rfl rfl
    | split | with_reducible refine Keeps.light ?_ rfl rfl rfl rfl

theorem keeps_snapFail (h : Keeps F s t) :
    (hF : [SField.env, .hostMem, .pcie, .mtr, .funcs] ⊆ F := by assumption) →
    Keeps F s (snapFail t) := by
  intro hF
  have b_mtr : SField.mtr ∈ F := hF (by decide)
  have f_mtrEvent : [SField.env, .hostMem, .pcie, .mtr, .funcs] ⊆ F := List.Subset.trans (by decide) hF
  unfold snapFail
  repeat'
    first
    | with_reducible assumption | with_reducible apply keeps_mtrEvent
    | (extract_lets +onlyGivenNames x
       refine Keeps.cut (u := x) ?_ fun hx => ?_
       (on_goal 1 => unfold x)
       (on_goal 2 => (clear_value x; rename' x => y)))
    | (extract_lets +onlyGivenNames x; refine Keeps.keepEnv x ?_; rename' x => y)
    | (extract_lets +onlyGivenNames x; refine Keeps.keepSec x ?_; rename' x => y)
    | (extract_lets +onlyGivenNames x; refine Keeps.keepArm x ?_; rename' x => y)
    | (extract_lets +onlyGivenNames x; refine Keeps.keepMeter x ?_; rename' x => y)
    | (extract_lets +onlyGivenNames x; clear_value x; rename' x => y)
    | split | with_reducible refine Keeps.light ?_ rfl rfl rfl rfl

theorem keeps_snapReq (h : Keeps F s t) :
    (hF : [SField.env, .hostMem, .pcie, .mtr, .funcs] ⊆ F := by assumption) →
    Keeps F s (snapReq t) := by
  intro hF
  have b_mtr : SField.mtr ∈ F := hF (by decide)
  have f_snapFail : [SField.env, .hostMem, .pcie, .mtr, .funcs] ⊆ F := List.Subset.trans (by decide) hF
  unfold snapReq
  repeat'
    first
    | with_reducible assumption | with_reducible apply keeps_snapFail
    | (extract_lets +onlyGivenNames x
       refine Keeps.cut (u := x) ?_ fun hx => ?_
       (on_goal 1 => unfold x)
       (on_goal 2 => (clear_value x; rename' x => y)))
    | (extract_lets +onlyGivenNames x; refine Keeps.keepEnv x ?_; rename' x => y)
    | (extract_lets +onlyGivenNames x; refine Keeps.keepSec x ?_; rename' x => y)
    | (extract_lets +onlyGivenNames x; refine Keeps.keepArm x ?_; rename' x => y)
    | (extract_lets +onlyGivenNames x; refine Keeps.keepMeter x ?_; rename' x => y)
    | (extract_lets +onlyGivenNames x; clear_value x; rename' x => y)
    | split | with_reducible refine Keeps.light ?_ rfl rfl rfl rfl

theorem keeps_execMtrSnapReq (h : Keeps F s t) :
    ∀ x0, (hF : [SField.env, .hostMem, .pcie, .mtr, .funcs] ⊆ F := by assumption) →
    Yields F s (execMtrSnapReq x0 t) := by
  intro x0 hF
  have f_snapReq : [SField.env, .hostMem, .pcie, .mtr, .funcs] ⊆ F := List.Subset.trans (by decide) hF
  unfold execMtrSnapReq
  repeat'
    first
    | with_reducible assumption | with_reducible apply keeps_snapReq | with_reducible apply Yields.next
    | (extract_lets +onlyGivenNames x
       refine Yields.cut (u := x) ?_ fun hx => ?_
       (on_goal 1 => unfold x)
       (on_goal 2 => (clear_value x; rename' x => y)))
    | (extract_lets +onlyGivenNames x
       refine Keeps.cut (u := x) ?_ fun hx => ?_
       (on_goal 1 => unfold x)
       (on_goal 2 => (clear_value x; rename' x => y)))
    | (extract_lets +onlyGivenNames x; refine Keeps.keepEnv x ?_; rename' x => y)
    | (extract_lets +onlyGivenNames x; refine Keeps.keepSec x ?_; rename' x => y)
    | (extract_lets +onlyGivenNames x; refine Keeps.keepArm x ?_; rename' x => y)
    | (extract_lets +onlyGivenNames x; refine Keeps.keepMeter x ?_; rename' x => y)
    | (extract_lets +onlyGivenNames x; clear_value x; rename' x => y)
    | split | with_reducible refine Keeps.light ?_ rfl rfl rfl rfl

theorem keeps_installSnap (h : Keeps F s t) :
    ∀ x0, (hF : [SField.env, .hostMem, .pcie, .mtr, .funcs] ⊆ F := by assumption) →
    Keeps F s (installSnap x0 t) := by
  intro x0 hF
  have b_mtr : SField.mtr ∈ F := hF (by decide)
  have f_mtrEvent : [SField.env, .hostMem, .pcie, .mtr, .funcs] ⊆ F := List.Subset.trans (by decide) hF
  unfold installSnap
  repeat'
    first
    | with_reducible assumption | with_reducible apply keeps_mtrEvent
    | (extract_lets +onlyGivenNames x
       refine Keeps.cut (u := x) ?_ fun hx => ?_
       (on_goal 1 => unfold x)
       (on_goal 2 => (clear_value x; rename' x => y)))
    | (extract_lets +onlyGivenNames x; refine Keeps.keepEnv x ?_; rename' x => y)
    | (extract_lets +onlyGivenNames x; refine Keeps.keepSec x ?_; rename' x => y)
    | (extract_lets +onlyGivenNames x; refine Keeps.keepArm x ?_; rename' x => y)
    | (extract_lets +onlyGivenNames x; refine Keeps.keepMeter x ?_; rename' x => y)
    | (extract_lets +onlyGivenNames x; clear_value x; rename' x => y)
    | split | with_reducible refine Keeps.light ?_ rfl rfl rfl rfl

theorem keeps_execMirrorRecord (h : Keeps F s t) :
    (hF : [SField.env, .hostMem, .pcie, .mtr, .meter2, .funcs] ⊆ F := by assumption) →
    Yields F s (execMirrorRecord t) := by
  intro hF
  have b_meter2 : SField.meter2 ∈ F := hF (by decide)
  have f_installSnap : [SField.env, .hostMem, .pcie, .mtr, .funcs] ⊆ F := List.Subset.trans (by decide) hF
  unfold execMirrorRecord
  repeat'
    first
    | with_reducible assumption | with_reducible apply keeps_installSnap | with_reducible apply Yields.next
    | (extract_lets +onlyGivenNames x
       refine Yields.cut (u := x) ?_ fun hx => ?_
       (on_goal 1 => unfold x)
       (on_goal 2 => (clear_value x; rename' x => y)))
    | (extract_lets +onlyGivenNames x
       refine Keeps.cut (u := x) ?_ fun hx => ?_
       (on_goal 1 => unfold x)
       (on_goal 2 => (clear_value x; rename' x => y)))
    | (extract_lets +onlyGivenNames x; refine Keeps.keepEnv x ?_; rename' x => y)
    | (extract_lets +onlyGivenNames x; refine Keeps.keepSec x ?_; rename' x => y)
    | (extract_lets +onlyGivenNames x; refine Keeps.keepArm x ?_; rename' x => y)
    | (extract_lets +onlyGivenNames x; refine Keeps.keepMeter x ?_; rename' x => y)
    | (extract_lets +onlyGivenNames x; clear_value x; rename' x => y)
    | split | with_reducible refine Keeps.light ?_ rfl rfl rfl rfl

theorem keeps_execMirrorTimeout (h : Keeps F s t) :
    (hF : [SField.env, .hostMem, .pcie, .mtr, .funcs] ⊆ F := by assumption) →
    Yields F s (execMirrorTimeout t) := by
  intro hF
  have f_snapFail : [SField.env, .hostMem, .pcie, .mtr, .funcs] ⊆ F := List.Subset.trans (by decide) hF
  unfold execMirrorTimeout
  repeat'
    first
    | with_reducible assumption | with_reducible apply keeps_snapFail | with_reducible apply Yields.next
    | (extract_lets +onlyGivenNames x
       refine Yields.cut (u := x) ?_ fun hx => ?_
       (on_goal 1 => unfold x)
       (on_goal 2 => (clear_value x; rename' x => y)))
    | (extract_lets +onlyGivenNames x
       refine Keeps.cut (u := x) ?_ fun hx => ?_
       (on_goal 1 => unfold x)
       (on_goal 2 => (clear_value x; rename' x => y)))
    | (extract_lets +onlyGivenNames x; refine Keeps.keepEnv x ?_; rename' x => y)
    | (extract_lets +onlyGivenNames x; refine Keeps.keepSec x ?_; rename' x => y)
    | (extract_lets +onlyGivenNames x; refine Keeps.keepArm x ?_; rename' x => y)
    | (extract_lets +onlyGivenNames x; refine Keeps.keepMeter x ?_; rename' x => y)
    | (extract_lets +onlyGivenNames x; clear_value x; rename' x => y)
    | split | with_reducible refine Keeps.light ?_ rfl rfl rfl rfl

end Sys2Proof.Machine
end

