-- ==== Sys2Proof/Laws/KeepsPower.lean ====
section
/-! SUPPORT. What every operation and meaning of Machine/Power.lean keeps: the queue, the canonical form, what lasts, and every part
of the state outside its own list. -/

set_option linter.unreachableTactic false
set_option linter.unusedTactic false
set_option linter.unusedVariables false
set_option linter.tactic.unusedName false

namespace Sys2Proof.Machine

open Sys2Proof

-- Proofs one after another: the package compiles as one text under a memory limit.
set_option Elab.async false

variable {F : List SField} {s t : State}

theorem keeps_setTemps (h : Keeps F s t) :
    ∀ x0 x1 x2, (hF : [SField.env, .hostMem, .pcie, .pkc, .slabs, .slabs2, .funcs] ⊆ F := by assumption) →
    Keeps F s (setTemps x0 x1 x2 t) := by
  intro x0 x1 x2 hF
  have b_slabs : SField.slabs ∈ F := hF (by decide)
  have b_slabs2 : SField.slabs2 ∈ F := hF (by decide)
  have f_hbmEvent : [SField.env, .hostMem, .pcie, .slabs2, .funcs] ⊆ F := List.Subset.trans (by decide) hF
  have f_pkcEvent : [SField.env, .hostMem, .pcie, .pkc, .funcs] ⊆ F := List.Subset.trans (by decide) hF
  unfold setTemps
  repeat'
    first
    | with_reducible assumption | with_reducible apply Keeps.modSlab | with_reducible apply Keeps.modSlab2
    | with_reducible apply keeps_hbmEvent | with_reducible apply keeps_pkcEvent
    | (extract_lets +onlyGivenNames x
       refine Keeps.cut (u := x) ?_ fun hx => ?_
       (on_goal 1 => unfold x)
       (on_goal 2 => (clear_value x; rename' x => y)))
    | (extract_lets +onlyGivenNames x; refine Keeps.keepEnv x ?_; rename' x => y)
    | (extract_lets +onlyGivenNames x; refine Keeps.keepSec x ?_; rename' x => y)
    | (extract_lets +onlyGivenNames x; refine Keeps.keepArm x ?_; rename' x => y)
    | (extract_lets +onlyGivenNames x; refine Keeps.keepMeter x ?_; rename' x => y)
    | (extract_lets +onlyGivenNames x; clear_value x; rename' x => y)
    | split | with_reducible refine Keeps.light ?_ rfl rfl rfl rfl

theorem keeps_execThermalSample (h : Keeps F s t) :
    ∀ x0 x1 x2, (hF : [SField.env, .hostMem, .pcie, .pkc, .slabs, .slabs2, .funcs] ⊆ F := by assumption) →
    Yields F s (execThermalSample x0 x1 x2 t) := by
  intro x0 x1 x2 hF
  have b_slabs : SField.slabs ∈ F := hF (by decide)
  have f_setTemps : [SField.env, .hostMem, .pcie, .pkc, .slabs, .slabs2, .funcs] ⊆ F := List.Subset.trans (by
      decide) hF
  unfold execThermalSample
  repeat'
    first
    | with_reducible assumption | with_reducible apply keeps_setTemps | with_reducible apply Keeps.modSlab
    | with_reducible apply Yields.next
    | (extract_lets +onlyGivenNames x
       refine Yields.cut (u := x) ?_ fun hx => ?_
       (on_goal 1 => unfold x)
       (on_goal 2 => (clear_value x; rename' x => y)))
    | (extract_lets +onlyGivenNames x
       refine Keeps.cut (u := x) ?_ fun hx => ?_
       (on_goal 1 => unfold x)
       (on_goal 2 => (clear_value x; rename' x => y)))
    | (extract_lets +onlyGivenNames x; refine Keeps.keepEnv x ?_; rename' x => y)
    | (extract_lets +onlyGivenNames x; refine Keeps.keepSec x ?_; rename' x => y)
    | (extract_lets +onlyGivenNames x; refine Keeps.keepArm x ?_; rename' x => y)
    | (extract_lets +onlyGivenNames x; refine Keeps.keepMeter x ?_; rename' x => y)
    | (extract_lets +onlyGivenNames x; clear_value x; rename' x => y)
    | split | with_reducible refine Keeps.light ?_ rfl rfl rfl rfl

theorem keeps_execThermalRateRaise (h : Keeps F s t) :
    ∀ x0 x1 x2, (hF : [SField.env, .hostMem, .pcie, .pkc, .slabs, .slabs2, .funcs] ⊆ F := by assumption) →
    Yields F s (execThermalRateRaise x0 x1 x2 t) := by
  intro x0 x1 x2 hF
  have b_slabs : SField.slabs ∈ F := hF (by decide)
  have f_setTemps : [SField.env, .hostMem, .pcie, .pkc, .slabs, .slabs2, .funcs] ⊆ F := List.Subset.trans (by
      decide) hF
  unfold execThermalRateRaise
  repeat'
    first
    | with_reducible assumption | with_reducible apply keeps_setTemps | with_reducible apply Keeps.modSlab
    | with_reducible apply Yields.next
    | (extract_lets +onlyGivenNames x
       refine Yields.cut (u := x) ?_ fun hx => ?_
       (on_goal 1 => unfold x)
       (on_goal 2 => (clear_value x; rename' x => y)))
    | (extract_lets +onlyGivenNames x
       refine Keeps.cut (u := x) ?_ fun hx => ?_
       (on_goal 1 => unfold x)
       (on_goal 2 => (clear_value x; rename' x => y)))
    | (extract_lets +onlyGivenNames x; refine Keeps.keepEnv x ?_; rename' x => y)
    | (extract_lets +onlyGivenNames x; refine Keeps.keepSec x ?_; rename' x => y)
    | (extract_lets +onlyGivenNames x; refine Keeps.keepArm x ?_; rename' x => y)
    | (extract_lets +onlyGivenNames x; refine Keeps.keepMeter x ?_; rename' x => y)
    | (extract_lets +onlyGivenNames x; clear_value x; rename' x => y)
    | split | with_reducible refine Keeps.light ?_ rfl rfl rfl rfl

theorem keeps_execOscFail (h : Keeps F s t) :
    ∀ x0, (hF : [SField.env, .hostMem, .pcie, .pkc, .pkc2, .funcs] ⊆ F := by assumption) →
    Yields F s (execOscFail x0 t) := by
  intro x0 hF
  have b_pkc2 : SField.pkc2 ∈ F := hF (by decide)
  have f_pkcEvent : [SField.env, .hostMem, .pcie, .pkc, .funcs] ⊆ F := List.Subset.trans (by decide) hF
  unfold execOscFail
  repeat'
    first
    | with_reducible assumption | with_reducible apply keeps_pkcEvent | with_reducible apply Yields.next
    | (extract_lets +onlyGivenNames x
       refine Yields.cut (u := x) ?_ fun hx => ?_
       (on_goal 1 => unfold x)
       (on_goal 2 => (clear_value x; rename' x => y)))
    | (extract_lets +onlyGivenNames x
       refine Keeps.cut (u := x) ?_ fun hx => ?_
       (on_goal 1 => unfold x)
       (on_goal 2 => (clear_value x; rename' x => y)))
    | (extract_lets +onlyGivenNames x; refine Keeps.keepEnv x ?_; rename' x => y)
    | (extract_lets +onlyGivenNames x; refine Keeps.keepSec x ?_; rename' x => y)
    | (extract_lets +onlyGivenNames x; refine Keeps.keepArm x ?_; rename' x => y)
    | (extract_lets +onlyGivenNames x; refine Keeps.keepMeter x ?_; rename' x => y)
    | (extract_lets +onlyGivenNames x; clear_value x; rename' x => y)
    | split | with_reducible refine Keeps.light ?_ rfl rfl rfl rfl

theorem keeps_wipe (h : Keeps F s t) :
    (hF : [SField.env, .hostMem, .pkg, .rif, .pcie, .sec, .arm, .arm2, .mtr, .pkc, .pkc2, .winPeak, .slabs, .slabs2,
        .ports, .ports2, .tiles, .tiles2, .banks, .parts, .parts2, .ctxs, .funcs, .bankMem, .hbm] ⊆ F := by
        assumption) →
    Keeps F s (wipe t) := by
  intro hF
  have b_pkg : SField.pkg ∈ F := hF (by decide)
  have b_rif : SField.rif ∈ F := hF (by decide)
  have b_pcie : SField.pcie ∈ F := hF (by decide)
  have b_sec : SField.sec ∈ F := hF (by decide)
  have b_arm : SField.arm ∈ F := hF (by decide)
  have b_arm2 : SField.arm2 ∈ F := hF (by decide)
  have b_mtr : SField.mtr ∈ F := hF (by decide)
  have b_pkc : SField.pkc ∈ F := hF (by decide)
  have b_pkc2 : SField.pkc2 ∈ F := hF (by decide)
  have b_winPeak : SField.winPeak ∈ F := hF (by decide)
  have b_slabs : SField.slabs ∈ F := hF (by decide)
  have b_slabs2 : SField.slabs2 ∈ F := hF (by decide)
  have b_ports : SField.ports ∈ F := hF (by decide)
  have b_ports2 : SField.ports2 ∈ F := hF (by decide)
  have b_tiles : SField.tiles ∈ F := hF (by decide)
  have b_tiles2 : SField.tiles2 ∈ F := hF (by decide)
  have b_banks : SField.banks ∈ F := hF (by decide)
  have b_parts : SField.parts ∈ F := hF (by decide)
  have b_parts2 : SField.parts2 ∈ F := hF (by decide)
  have b_ctxs : SField.ctxs ∈ F := hF (by decide)
  have b_funcs : SField.funcs ∈ F := hF (by decide)
  have b_bankMem : SField.bankMem ∈ F := hF (by decide)
  have b_hbm : SField.hbm ∈ F := hF (by decide)
  unfold wipe
  dsimp only
  refine Keeps.forAll (Keeps.forAll (Keeps.forAll ?_ _ _ fun n u hu => ?_) _ _ fun b u hu => ?_) _ _ fun p u hu => ?_
  · exact ⟨h.pending, fun c =>
      ⟨rfl, rfl, rfl, rfl, rfl, rfl, rfl, rfl, rfl, rfl, rfl, rfl, rfl, rfl, (h.canonical c).hostMem⟩,
      h.lasting.trans ⟨le_rfl, le_rfl, le_rfl, le_rfl, List.suffix_rfl⟩, fun f hn => (h.only f hn).trans <| by
        cases f <;> first | exact .refl _ | exact absurd (hF (by decide)) hn⟩
  · exact (hu.setSlab _ _).setSlab2 _ _
  · exact hu.setBank _ _
  · exact hu.setPart _ _

theorem keeps_chooseArm {u : State} (hq : chooseArm t = some u) (h : Keeps F s t)
    (hF : [SField.env, .hostMem, .pcie, .arm, .funcs] ⊆ F := by assumption) : Keeps F s u := by
  have b_arm : SField.arm ∈ F := hF (by decide)
  have f_armEvent : [SField.env, .hostMem, .pcie, .arm, .funcs] ⊆ F := List.Subset.trans (by decide) hF
  unfold chooseArm at hq
  dsimp only at hq
  split at hq
  · split at hq
    · cases hq; exact h
    · cases hq
      with_reducible exact h.light rfl rfl rfl rfl
  · split at hq
    · cases hq
      refine keeps_armEvent ?_ _
      with_reducible exact h.light rfl rfl rfl rfl
    · cases hq

theorem keeps_recover (h : Keeps F s t) :
    ∀ x0, (hF : [SField.pcie, .pkc] ⊆ F := by assumption) →
    Keeps F s (recover x0 t) := by
  intro x0 hF
  have b_pcie : SField.pcie ∈ F := hF (by decide)
  have b_pkc : SField.pkc ∈ F := hF (by decide)
  unfold recover
  repeat'
    first
    | with_reducible assumption
    | (extract_lets +onlyGivenNames x
       refine Keeps.cut (u := x) ?_ fun hx => ?_
       (on_goal 1 => unfold x)
       (on_goal 2 => (clear_value x; rename' x => y)))
    | (extract_lets +onlyGivenNames x; refine Keeps.keepEnv x ?_; rename' x => y)
    | (extract_lets +onlyGivenNames x; refine Keeps.keepSec x ?_; rename' x => y)
    | (extract_lets +onlyGivenNames x; refine Keeps.keepArm x ?_; rename' x => y)
    | (extract_lets +onlyGivenNames x; refine Keeps.keepMeter x ?_; rename' x => y)
    | (extract_lets +onlyGivenNames x; clear_value x; rename' x => y)
    | split | with_reducible refine Keeps.light ?_ rfl rfl rfl rfl

theorem keeps_wakeCore (h : Keeps F s t) :
    ∀ x0, (hF : [SField.pkc, .slabs] ⊆ F := by assumption) →
    Keeps F s (wakeCore x0 t) := by
  intro x0 hF
  have b_pkc : SField.pkc ∈ F := hF (by decide)
  have b_slabs : SField.slabs ∈ F := hF (by decide)
  unfold wakeCore
  repeat'
    first
    | with_reducible assumption | with_reducible apply Keeps.modSlab
    | (extract_lets +onlyGivenNames x
       refine Keeps.cut (u := x) ?_ fun hx => ?_
       (on_goal 1 => unfold x)
       (on_goal 2 => (clear_value x; rename' x => y)))
    | (extract_lets +onlyGivenNames x; refine Keeps.keepEnv x ?_; rename' x => y)
    | (extract_lets +onlyGivenNames x; refine Keeps.keepSec x ?_; rename' x => y)
    | (extract_lets +onlyGivenNames x; refine Keeps.keepArm x ?_; rename' x => y)
    | (extract_lets +onlyGivenNames x; refine Keeps.keepMeter x ?_; rename' x => y)
    | (extract_lets +onlyGivenNames x; clear_value x; rename' x => y)
    | split | with_reducible refine Keeps.light ?_ rfl rfl rfl rfl

theorem raiseFloor_le (f : Word) (i : Option Image) : f.toNat ≤ (raiseFloor f i).toNat := by
  unfold raiseFloor
  split
  · split <;> omega
  · exact le_rfl

theorem keeps_setUp (h : Keeps F s t) :
    (hF : [SField.env, .hostMem, .pkg, .pcie, .sec, .arm, .pkc, .slabs, .slabs2, .ports, .ports2, .tiles, .tiles2,
        .banks, .parts, .parts2, .ctxs, .funcs, .bankMem] ⊆ F := by assumption) →
    Keeps F s (setUp t) := by
  intro hF
  have b_pkg : SField.pkg ∈ F := hF (by decide)
  have b_sec : SField.sec ∈ F := hF (by decide)
  have b_slabs2 : SField.slabs2 ∈ F := hF (by decide)
  have b_parts : SField.parts ∈ F := hF (by decide)
  have f_deviceWide : [SField.pkg, .ports2] ⊆ F := List.Subset.trans (by decide) hF
  have f_refreshSlab : [SField.env, .hostMem, .pcie, .slabs, .slabs2, .ports, .tiles, .tiles2, .banks, .ctxs,
      .funcs, .bankMem] ⊆ F := List.Subset.trans (by decide) hF
  have f_wakeCore : [SField.pkc, .slabs] ⊆ F := List.Subset.trans (by decide) hF
  have f_fixSubst : [SField.parts2] ⊆ F := List.Subset.trans (by decide) hF
  have f_replace : [SField.env, .hostMem, .pcie, .arm, .funcs] ⊆ F := List.Subset.trans (by decide) hF
  unfold setUp
  extract_lets a b u1 u2 u3 u4 u5 tab u6 u7 one
  have h1 : Keeps F s u1 := h.plain rfl le_rfl (raiseFloor_le _ _) le_rfl
  clear_value u1
  have h2 : Keeps F s u2 := keeps_deviceWide h1
  clear_value u2
  have h3 : Keeps F s u3 := h2.forAll _ _ fun n u hu => hu.setPart _ _
  clear_value u3
  have h4 : Keeps F s u4 := h3.forAll _ _ fun n u hu => keeps_refreshSlab hu _ n
  clear_value u4
  have h5 : Keeps F s u5 := h4.forAll _ _ fun n u hu => keeps_wakeCore hu n
  clear_value u5
  have h6 : Keeps F s u6 := by
    refine h5.forAll _ _ fun n u hu => ?_
    split
    · exact hu
    · exact hu.modSlab2 _ _
  clear_value u6
  have h7 : Keeps F s u7 := h6.forAll _ _ fun n u hu => keeps_fixSubst hu n
  clear_value u7
  split
  · exact keeps_replace h7 _ _
  · exact h7

theorem keeps_linkUp (h : Keeps F s t) :
    ∀ x0 x1, (hF : [SField.env, .hostMem, .pcie, .funcs] ⊆ F := by assumption) →
    Keeps F s (linkUp x0 x1 t) := by
  intro x0 x1 hF
  have b_pcie : SField.pcie ∈ F := hF (by decide)
  have f_pcieEvent : [SField.env, .hostMem, .pcie, .funcs] ⊆ F := List.Subset.trans (by decide) hF
  unfold linkUp
  repeat'
    first
    | with_reducible assumption | with_reducible apply keeps_pcieEvent
    | (extract_lets +onlyGivenNames x
       refine Keeps.cut (u := x) ?_ fun hx => ?_
       (on_goal 1 => unfold x)
       (on_goal 2 => (clear_value x; rename' x => y)))
    | (extract_lets +onlyGivenNames x; refine Keeps.keepEnv x ?_; rename' x => y)
    | (extract_lets +onlyGivenNames x; refine Keeps.keepSec x ?_; rename' x => y)
    | (extract_lets +onlyGivenNames x; refine Keeps.keepArm x ?_; rename' x => y)
    | (extract_lets +onlyGivenNames x; refine Keeps.keepMeter x ?_; rename' x => y)
    | (extract_lets +onlyGivenNames x; clear_value x; rename' x => y)
    | split | with_reducible refine Keeps.light ?_ rfl rfl rfl rfl

theorem keeps_linkRetrains (h : Keeps F s t) :
    (hF : [SField.env, .hostMem, .pcie, .funcs] ⊆ F := by assumption) →
    Keeps F s (linkRetrains t) := by
  intro hF
  have b_env : SField.env ∈ F := hF (by decide)
  have f_linkUp : [SField.env, .hostMem, .pcie, .funcs] ⊆ F := List.Subset.trans (by decide) hF
  unfold linkRetrains
  repeat'
    first
    | with_reducible assumption | with_reducible apply Keeps.takeFree | with_reducible apply keeps_linkUp
    | (extract_lets +onlyGivenNames x
       refine Keeps.cut (u := x) ?_ fun hx => ?_
       (on_goal 1 => unfold x)
       (on_goal 2 => (clear_value x; rename' x => y)))
    | (extract_lets +onlyGivenNames x; refine Keeps.keepEnv x ?_; rename' x => y)
    | (extract_lets +onlyGivenNames x; refine Keeps.keepSec x ?_; rename' x => y)
    | (extract_lets +onlyGivenNames x; refine Keeps.keepArm x ?_; rename' x => y)
    | (extract_lets +onlyGivenNames x; refine Keeps.keepMeter x ?_; rename' x => y)
    | (extract_lets +onlyGivenNames x; clear_value x; rename' x => y)
    | split | with_reducible refine Keeps.light ?_ rfl rfl rfl rfl

theorem keeps_finishStart (h : Keeps F s t) :
    (hF : [SField.pkc] ⊆ F := by assumption) →
    Keeps F s (finishStart t) := by
  intro hF
  have b_pkc : SField.pkc ∈ F := hF (by decide)
  unfold finishStart
  repeat'
    first
    | with_reducible assumption
    | (extract_lets +onlyGivenNames x
       refine Keeps.cut (u := x) ?_ fun hx => ?_
       (on_goal 1 => unfold x)
       (on_goal 2 => (clear_value x; rename' x => y)))
    | (extract_lets +onlyGivenNames x; refine Keeps.keepEnv x ?_; rename' x => y)
    | (extract_lets +onlyGivenNames x; refine Keeps.keepSec x ?_; rename' x => y)
    | (extract_lets +onlyGivenNames x; refine Keeps.keepArm x ?_; rename' x => y)
    | (extract_lets +onlyGivenNames x; refine Keeps.keepMeter x ?_; rename' x => y)
    | (extract_lets +onlyGivenNames x; clear_value x; rename' x => y)
    | split | with_reducible refine Keeps.light ?_ rfl rfl rfl rfl

theorem keeps_bringUp (h : Keeps F s t) :
    (hF : [SField.env, .hostMem, .pkg, .pcie, .sec, .arm, .pkc, .slabs, .slabs2, .ports, .ports2, .tiles, .tiles2,
        .banks, .parts, .parts2, .ctxs, .funcs, .bankMem] ⊆ F := by assumption) →
    Keeps F s (bringUp t) := by
  intro hF
  have b_sec : SField.sec ∈ F := hF (by decide)
  have f_recover : [SField.pcie, .pkc] ⊆ F := List.Subset.trans (by decide) hF
  have f_finishStart : [SField.pkc] ⊆ F := List.Subset.trans (by decide) hF
  have f_setUp : [SField.env, .hostMem, .pkg, .pcie, .sec, .arm, .pkc, .slabs, .slabs2, .ports, .ports2, .tiles,
      .tiles2, .banks, .parts, .parts2, .ctxs, .funcs, .bankMem] ⊆ F := List.Subset.trans (by decide) hF
  have f_chooseArm : [SField.env, .hostMem, .pcie, .arm, .funcs] ⊆ F := List.Subset.trans (by decide) hF
  unfold bringUp
  split
  · exact keeps_recover h _
  · extract_lets a s1 b s2
    have h1 : Keeps F s s1 := by with_reducible exact h.light rfl rfl rfl rfl
    have h2 : Keeps F s s2 := h1.plain rfl (raiseFloor_le _ _) le_rfl le_rfl
    clear_value s2
    split
    · exact keeps_recover h2 _
    · rename_i hq
      exact keeps_finishStart (keeps_setUp (keeps_chooseArm hq h2))

theorem keeps_warmWipe (h : Keeps F s t) :
    ∀ x0, (hF : [SField.env, .hostMem, .pkg, .rif, .pcie, .sec, .arm, .arm2, .mtr, .pkc, .pkc2, .winPeak, .slabs,
        .slabs2, .ports, .ports2, .tiles, .tiles2, .banks, .parts, .parts2, .ctxs, .funcs, .bankMem, .hbm] ⊆ F := by
        assumption) →
    Keeps F s (warmWipe x0 t) := by
  intro x0 hF
  have b_pcie : SField.pcie ∈ F := hF (by decide)
  have b_pkc : SField.pkc ∈ F := hF (by decide)
  have f_wipe : [SField.env, .hostMem, .pkg, .rif, .pcie, .sec, .arm, .arm2, .mtr, .pkc, .pkc2, .winPeak, .slabs,
      .slabs2, .ports, .ports2, .tiles, .tiles2, .banks, .parts, .parts2, .ctxs, .funcs, .bankMem, .hbm] ⊆ F :=
      List.Subset.trans (by decide) hF
  unfold warmWipe
  repeat'
    first
    | with_reducible assumption | with_reducible apply keeps_wipe
    | (extract_lets +onlyGivenNames x
       refine Keeps.cut (u := x) ?_ fun hx => ?_
       (on_goal 1 => unfold x)
       (on_goal 2 => (clear_value x; rename' x => y)))
    | (extract_lets +onlyGivenNames x; refine Keeps.keepEnv x ?_; rename' x => y)
    | (extract_lets +onlyGivenNames x; refine Keeps.keepSec x ?_; rename' x => y)
    | (extract_lets +onlyGivenNames x; refine Keeps.keepArm x ?_; rename' x => y)
    | (extract_lets +onlyGivenNames x; refine Keeps.keepMeter x ?_; rename' x => y)
    | (extract_lets +onlyGivenNames x; clear_value x; rename' x => y)
    | split | with_reducible refine Keeps.light ?_ rfl rfl rfl rfl

theorem keeps_warmStart (h : Keeps F s t) :
    (hF : [SField.env, .hostMem, .pkg, .pcie, .sec, .arm, .pkc, .slabs, .slabs2, .ports, .ports2, .tiles, .tiles2,
        .banks, .parts, .parts2, .ctxs, .funcs, .bankMem] ⊆ F := by assumption) →
    Keeps F s (warmStart t) := by
  intro hF
  have f_recover : [SField.pcie, .pkc] ⊆ F := List.Subset.trans (by decide) hF
  have f_bringUp : [SField.env, .hostMem, .pkg, .pcie, .sec, .arm, .pkc, .slabs, .slabs2, .ports, .ports2, .tiles,
      .tiles2, .banks, .parts, .parts2, .ctxs, .funcs, .bankMem] ⊆ F := List.Subset.trans (by decide) hF
  unfold warmStart
  repeat'
    first
    | with_reducible assumption | with_reducible apply keeps_recover | with_reducible apply keeps_bringUp
    | (extract_lets +onlyGivenNames x
       refine Keeps.cut (u := x) ?_ fun hx => ?_
       (on_goal 1 => unfold x)
       (on_goal 2 => (clear_value x; rename' x => y)))
    | (extract_lets +onlyGivenNames x; refine Keeps.keepEnv x ?_; rename' x => y)
    | (extract_lets +onlyGivenNames x; refine Keeps.keepSec x ?_; rename' x => y)
    | (extract_lets +onlyGivenNames x; refine Keeps.keepArm x ?_; rename' x => y)
    | (extract_lets +onlyGivenNames x; refine Keeps.keepMeter x ?_; rename' x => y)
    | (extract_lets +onlyGivenNames x; clear_value x; rename' x => y)
    | split | with_reducible refine Keeps.light ?_ rfl rfl rfl rfl

theorem keeps_warmReset (h : Keeps F s t) :
    ∀ x0, (hF : [SField.env, .hostMem, .pkg, .rif, .pcie, .sec, .arm, .arm2, .mtr, .pkc, .pkc2, .winPeak, .slabs,
        .slabs2, .ports, .ports2, .tiles, .tiles2, .banks, .parts, .parts2, .ctxs, .funcs, .bankMem, .hbm] ⊆ F := by
        assumption) →
    Keeps F s (warmReset x0 t) := by
  intro x0 hF
  have f_warmStart : [SField.env, .hostMem, .pkg, .pcie, .sec, .arm, .pkc, .slabs, .slabs2, .ports, .ports2, .tiles,
      .tiles2, .banks, .parts, .parts2, .ctxs, .funcs, .bankMem] ⊆ F := List.Subset.trans (by decide) hF
  have f_warmWipe : [SField.env, .hostMem, .pkg, .rif, .pcie, .sec, .arm, .arm2, .mtr, .pkc, .pkc2, .winPeak, .slabs,
      .slabs2, .ports, .ports2, .tiles, .tiles2, .banks, .parts, .parts2, .ctxs, .funcs, .bankMem, .hbm] ⊆ F :=
      List.Subset.trans (by decide) hF
  have f_linkRetrains : [SField.env, .hostMem, .pcie, .funcs] ⊆ F := List.Subset.trans (by decide) hF
  unfold warmReset
  repeat'
    first
    | with_reducible assumption | with_reducible apply keeps_warmStart | with_reducible apply keeps_warmWipe
    | with_reducible apply keeps_linkRetrains
    | (extract_lets +onlyGivenNames x
       refine Keeps.cut (u := x) ?_ fun hx => ?_
       (on_goal 1 => unfold x)
       (on_goal 2 => (clear_value x; rename' x => y)))
    | (extract_lets +onlyGivenNames x; refine Keeps.keepEnv x ?_; rename' x => y)
    | (extract_lets +onlyGivenNames x; refine Keeps.keepSec x ?_; rename' x => y)
    | (extract_lets +onlyGivenNames x; refine Keeps.keepArm x ?_; rename' x => y)
    | (extract_lets +onlyGivenNames x; refine Keeps.keepMeter x ?_; rename' x => y)
    | (extract_lets +onlyGivenNames x; clear_value x; rename' x => y)
    | split | with_reducible refine Keeps.light ?_ rfl rfl rfl rfl

theorem keeps_execWarm (h : Keeps F s t) :
    ∀ x0, (hF : [SField.env, .hostMem, .pkg, .rif, .pcie, .sec, .arm, .arm2, .mtr, .pkc, .pkc2, .winPeak, .slabs,
        .slabs2, .ports, .ports2, .tiles, .tiles2, .banks, .parts, .parts2, .ctxs, .funcs, .bankMem, .hbm] ⊆ F := by
        assumption) →
    Yields F s (execWarm x0 t) := by
  intro x0 hF
  have f_warmReset : [SField.env, .hostMem, .pkg, .rif, .pcie, .sec, .arm, .arm2, .mtr, .pkc, .pkc2, .winPeak,
      .slabs, .slabs2, .ports, .ports2, .tiles, .tiles2, .banks, .parts, .parts2, .ctxs, .funcs, .bankMem, .hbm] ⊆
      F := List.Subset.trans (by decide) hF
  unfold execWarm
  repeat'
    first
    | with_reducible assumption | with_reducible apply keeps_warmReset | with_reducible apply Yields.next
    | (extract_lets +onlyGivenNames x
       refine Yields.cut (u := x) ?_ fun hx => ?_
       (on_goal 1 => unfold x)
       (on_goal 2 => (clear_value x; rename' x => y)))
    | (extract_lets +onlyGivenNames x
       refine Keeps.cut (u := x) ?_ fun hx => ?_
       (on_goal 1 => unfold x)
       (on_goal 2 => (clear_value x; rename' x => y)))
    | (extract_lets +onlyGivenNames x; refine Keeps.keepEnv x ?_; rename' x => y)
    | (extract_lets +onlyGivenNames x; refine Keeps.keepSec x ?_; rename' x => y)
    | (extract_lets +onlyGivenNames x; refine Keeps.keepArm x ?_; rename' x => y)
    | (extract_lets +onlyGivenNames x; refine Keeps.keepMeter x ?_; rename' x => y)
    | (extract_lets +onlyGivenNames x; clear_value x; rename' x => y)
    | split | with_reducible refine Keeps.light ?_ rfl rfl rfl rfl

theorem keeps_execHotReset (h : Keeps F s t) :
    (hF : [SField.env, .hostMem, .pkg, .rif, .pcie, .sec, .arm, .arm2, .mtr, .pkc, .pkc2, .winPeak, .slabs, .slabs2,
        .ports, .ports2, .tiles, .tiles2, .banks, .parts, .parts2, .ctxs, .funcs, .bankMem, .hbm] ⊆ F := by
        assumption) →
    Yields F s (execHotReset t) := by
  intro hF
  have f_warmReset : [SField.env, .hostMem, .pkg, .rif, .pcie, .sec, .arm, .arm2, .mtr, .pkc, .pkc2, .winPeak,
      .slabs, .slabs2, .ports, .ports2, .tiles, .tiles2, .banks, .parts, .parts2, .ctxs, .funcs, .bankMem, .hbm] ⊆
      F := List.Subset.trans (by decide) hF
  unfold execHotReset
  repeat'
    first
    | with_reducible assumption | with_reducible apply keeps_warmReset | with_reducible apply Yields.next
    | (extract_lets +onlyGivenNames x
       refine Yields.cut (u := x) ?_ fun hx => ?_
       (on_goal 1 => unfold x)
       (on_goal 2 => (clear_value x; rename' x => y)))
    | (extract_lets +onlyGivenNames x
       refine Keeps.cut (u := x) ?_ fun hx => ?_
       (on_goal 1 => unfold x)
       (on_goal 2 => (clear_value x; rename' x => y)))
    | (extract_lets +onlyGivenNames x; refine Keeps.keepEnv x ?_; rename' x => y)
    | (extract_lets +onlyGivenNames x; refine Keeps.keepSec x ?_; rename' x => y)
    | (extract_lets +onlyGivenNames x; refine Keeps.keepArm x ?_; rename' x => y)
    | (extract_lets +onlyGivenNames x; refine Keeps.keepMeter x ?_; rename' x => y)
    | (extract_lets +onlyGivenNames x; clear_value x; rename' x => y)
    | split | with_reducible refine Keeps.light ?_ rfl rfl rfl rfl

theorem keeps_execSecondaryBusReset (h : Keeps F s t) :
    (hF : [SField.env, .hostMem, .pkg, .rif, .pcie, .sec, .arm, .arm2, .mtr, .pkc, .pkc2, .winPeak, .slabs, .slabs2,
        .ports, .ports2, .tiles, .tiles2, .banks, .parts, .parts2, .ctxs, .funcs, .bankMem, .hbm] ⊆ F := by
        assumption) →
    Yields F s (execSecondaryBusReset t) := by
  intro hF
  have f_warmReset : [SField.env, .hostMem, .pkg, .rif, .pcie, .sec, .arm, .arm2, .mtr, .pkc, .pkc2, .winPeak,
      .slabs, .slabs2, .ports, .ports2, .tiles, .tiles2, .banks, .parts, .parts2, .ctxs, .funcs, .bankMem, .hbm] ⊆
      F := List.Subset.trans (by decide) hF
  unfold execSecondaryBusReset
  repeat'
    first
    | with_reducible assumption | with_reducible apply keeps_warmReset | with_reducible apply Yields.next
    | (extract_lets +onlyGivenNames x
       refine Yields.cut (u := x) ?_ fun hx => ?_
       (on_goal 1 => unfold x)
       (on_goal 2 => (clear_value x; rename' x => y)))
    | (extract_lets +onlyGivenNames x
       refine Keeps.cut (u := x) ?_ fun hx => ?_
       (on_goal 1 => unfold x)
       (on_goal 2 => (clear_value x; rename' x => y)))
    | (extract_lets +onlyGivenNames x; refine Keeps.keepEnv x ?_; rename' x => y)
    | (extract_lets +onlyGivenNames x; refine Keeps.keepSec x ?_; rename' x => y)
    | (extract_lets +onlyGivenNames x; refine Keeps.keepArm x ?_; rename' x => y)
    | (extract_lets +onlyGivenNames x; refine Keeps.keepMeter x ?_; rename' x => y)
    | (extract_lets +onlyGivenNames x; clear_value x; rename' x => y)
    | split | with_reducible refine Keeps.light ?_ rfl rfl rfl rfl

theorem keeps_execLinkDisable (h : Keeps F s t) :
    (hF : [SField.env, .hostMem, .pkg, .rif, .pcie, .sec, .arm, .arm2, .mtr, .pkc, .pkc2, .winPeak, .slabs, .slabs2,
        .ports, .ports2, .tiles, .tiles2, .banks, .parts, .parts2, .ctxs, .funcs, .bankMem, .hbm] ⊆ F := by
        assumption) →
    Yields F s (execLinkDisable t) := by
  intro hF
  have f_warmReset : [SField.env, .hostMem, .pkg, .rif, .pcie, .sec, .arm, .arm2, .mtr, .pkc, .pkc2, .winPeak,
      .slabs, .slabs2, .ports, .ports2, .tiles, .tiles2, .banks, .parts, .parts2, .ctxs, .funcs, .bankMem, .hbm] ⊆
      F := List.Subset.trans (by decide) hF
  unfold execLinkDisable
  repeat'
    first
    | with_reducible assumption | with_reducible apply keeps_warmReset | with_reducible apply Yields.next
    | (extract_lets +onlyGivenNames x
       refine Yields.cut (u := x) ?_ fun hx => ?_
       (on_goal 1 => unfold x)
       (on_goal 2 => (clear_value x; rename' x => y)))
    | (extract_lets +onlyGivenNames x
       refine Keeps.cut (u := x) ?_ fun hx => ?_
       (on_goal 1 => unfold x)
       (on_goal 2 => (clear_value x; rename' x => y)))
    | (extract_lets +onlyGivenNames x; refine Keeps.keepEnv x ?_; rename' x => y)
    | (extract_lets +onlyGivenNames x; refine Keeps.keepSec x ?_; rename' x => y)
    | (extract_lets +onlyGivenNames x; refine Keeps.keepArm x ?_; rename' x => y)
    | (extract_lets +onlyGivenNames x; refine Keeps.keepMeter x ?_; rename' x => y)
    | (extract_lets +onlyGivenNames x; clear_value x; rename' x => y)
    | split | with_reducible refine Keeps.light ?_ rfl rfl rfl rfl

theorem keeps_execPfFlr (h : Keeps F s t) :
    (hF : [SField.env, .hostMem, .pkg, .rif, .pcie, .sec, .arm, .arm2, .mtr, .pkc, .pkc2, .winPeak, .slabs, .slabs2,
        .ports, .ports2, .tiles, .tiles2, .banks, .parts, .parts2, .ctxs, .funcs, .bankMem, .hbm] ⊆ F := by
        assumption) →
    Yields F s (execPfFlr t) := by
  intro hF
  have f_warmReset : [SField.env, .hostMem, .pkg, .rif, .pcie, .sec, .arm, .arm2, .mtr, .pkc, .pkc2, .winPeak,
      .slabs, .slabs2, .ports, .ports2, .tiles, .tiles2, .banks, .parts, .parts2, .ctxs, .funcs, .bankMem, .hbm] ⊆
      F := List.Subset.trans (by decide) hF
  unfold execPfFlr
  repeat'
    first
    | with_reducible assumption | with_reducible apply keeps_warmReset | with_reducible apply Yields.next
    | (extract_lets +onlyGivenNames x
       refine Yields.cut (u := x) ?_ fun hx => ?_
       (on_goal 1 => unfold x)
       (on_goal 2 => (clear_value x; rename' x => y)))
    | (extract_lets +onlyGivenNames x
       refine Keeps.cut (u := x) ?_ fun hx => ?_
       (on_goal 1 => unfold x)
       (on_goal 2 => (clear_value x; rename' x => y)))
    | (extract_lets +onlyGivenNames x; refine Keeps.keepEnv x ?_; rename' x => y)
    | (extract_lets +onlyGivenNames x; refine Keeps.keepSec x ?_; rename' x => y)
    | (extract_lets +onlyGivenNames x; refine Keeps.keepArm x ?_; rename' x => y)
    | (extract_lets +onlyGivenNames x; refine Keeps.keepMeter x ?_; rename' x => y)
    | (extract_lets +onlyGivenNames x; clear_value x; rename' x => y)
    | split | with_reducible refine Keeps.light ?_ rfl rfl rfl rfl

theorem keeps_enterStandby (h : Keeps F s t) :
    ∀ x0, (hF : [SField.env, .hostMem, .pkg, .rif, .pcie, .sec, .arm, .arm2, .mtr, .pkc, .pkc2, .winPeak, .slabs,
        .slabs2, .ports, .ports2, .tiles, .tiles2, .banks, .parts, .parts2, .ctxs, .funcs, .bankMem, .hbm] ⊆ F := by
        assumption) →
    Keeps F s (enterStandby x0 t) := by
  intro x0 hF
  have b_pcie : SField.pcie ∈ F := hF (by decide)
  have b_pkc : SField.pkc ∈ F := hF (by decide)
  have b_slabs : SField.slabs ∈ F := hF (by decide)
  have f_wipe : [SField.env, .hostMem, .pkg, .rif, .pcie, .sec, .arm, .arm2, .mtr, .pkc, .pkc2, .winPeak, .slabs,
      .slabs2, .ports, .ports2, .tiles, .tiles2, .banks, .parts, .parts2, .ctxs, .funcs, .bankMem, .hbm] ⊆ F :=
      List.Subset.trans (by decide) hF
  unfold enterStandby
  repeat'
    first
    | with_reducible assumption | with_reducible apply keeps_wipe
    | with_reducible (refine Keeps.forAll ?_ _ _ fun _ _ _ => ?_) | with_reducible apply Keeps.modSlab
    | (extract_lets +onlyGivenNames x
       refine Keeps.cut (u := x) ?_ fun hx => ?_
       (on_goal 1 => unfold x)
       (on_goal 2 => (clear_value x; rename' x => y)))
    | (extract_lets +onlyGivenNames x; refine Keeps.keepEnv x ?_; rename' x => y)
    | (extract_lets +onlyGivenNames x; refine Keeps.keepSec x ?_; rename' x => y)
    | (extract_lets +onlyGivenNames x; refine Keeps.keepArm x ?_; rename' x => y)
    | (extract_lets +onlyGivenNames x; refine Keeps.keepMeter x ?_; rename' x => y)
    | (extract_lets +onlyGivenNames x; clear_value x; rename' x => y)
    | split | with_reducible refine Keeps.light ?_ rfl rfl rfl rfl

theorem keeps_execPwrOkFall (h : Keeps F s t) :
    (hF : [SField.env, .hostMem, .pkg, .rif, .pcie, .sec, .arm, .arm2, .mtr, .pkc, .pkc2, .winPeak, .slabs, .slabs2,
        .ports, .ports2, .tiles, .tiles2, .banks, .parts, .parts2, .ctxs, .funcs, .bankMem, .hbm] ⊆ F := by
        assumption) →
    Yields F s (execPwrOkFall t) := by
  intro hF
  have b_pkc : SField.pkc ∈ F := hF (by decide)
  have b_pkc2 : SField.pkc2 ∈ F := hF (by decide)
  have f_enterStandby : [SField.env, .hostMem, .pkg, .rif, .pcie, .sec, .arm, .arm2, .mtr, .pkc, .pkc2, .winPeak,
      .slabs, .slabs2, .ports, .ports2, .tiles, .tiles2, .banks, .parts, .parts2, .ctxs, .funcs, .bankMem, .hbm] ⊆ F
      := List.Subset.trans (by decide) hF
  unfold execPwrOkFall
  repeat'
    first
    | with_reducible assumption | with_reducible apply keeps_enterStandby | with_reducible apply Yields.next
    | (extract_lets +onlyGivenNames x
       refine Yields.cut (u := x) ?_ fun hx => ?_
       (on_goal 1 => unfold x)
       (on_goal 2 => (clear_value x; rename' x => y)))
    | (extract_lets +onlyGivenNames x
       refine Keeps.cut (u := x) ?_ fun hx => ?_
       (on_goal 1 => unfold x)
       (on_goal 2 => (clear_value x; rename' x => y)))
    | (extract_lets +onlyGivenNames x; refine Keeps.keepEnv x ?_; rename' x => y)
    | (extract_lets +onlyGivenNames x; refine Keeps.keepSec x ?_; rename' x => y)
    | (extract_lets +onlyGivenNames x; refine Keeps.keepArm x ?_; rename' x => y)
    | (extract_lets +onlyGivenNames x; refine Keeps.keepMeter x ?_; rename' x => y)
    | (extract_lets +onlyGivenNames x; clear_value x; rename' x => y)
    | split | with_reducible refine Keeps.light ?_ rfl rfl rfl rfl

theorem keeps_execVin48Brownout (h : Keeps F s t) :
    (hF : [SField.env, .hostMem, .pkg, .rif, .pcie, .sec, .arm, .arm2, .mtr, .pkc, .pkc2, .winPeak, .slabs, .slabs2,
        .ports, .ports2, .tiles, .tiles2, .banks, .parts, .parts2, .ctxs, .funcs, .bankMem, .hbm] ⊆ F := by
        assumption) →
    Yields F s (execVin48Brownout t) := by
  intro hF
  have b_pkc : SField.pkc ∈ F := hF (by decide)
  have f_enterStandby : [SField.env, .hostMem, .pkg, .rif, .pcie, .sec, .arm, .arm2, .mtr, .pkc, .pkc2, .winPeak,
      .slabs, .slabs2, .ports, .ports2, .tiles, .tiles2, .banks, .parts, .parts2, .ctxs, .funcs, .bankMem, .hbm] ⊆ F
      := List.Subset.trans (by decide) hF
  unfold execVin48Brownout
  repeat'
    first
    | with_reducible assumption | with_reducible apply keeps_enterStandby | with_reducible apply Yields.next
    | (extract_lets +onlyGivenNames x
       refine Yields.cut (u := x) ?_ fun hx => ?_
       (on_goal 1 => unfold x)
       (on_goal 2 => (clear_value x; rename' x => y)))
    | (extract_lets +onlyGivenNames x
       refine Keeps.cut (u := x) ?_ fun hx => ?_
       (on_goal 1 => unfold x)
       (on_goal 2 => (clear_value x; rename' x => y)))
    | (extract_lets +onlyGivenNames x; refine Keeps.keepEnv x ?_; rename' x => y)
    | (extract_lets +onlyGivenNames x; refine Keeps.keepSec x ?_; rename' x => y)
    | (extract_lets +onlyGivenNames x; refine Keeps.keepArm x ?_; rename' x => y)
    | (extract_lets +onlyGivenNames x; refine Keeps.keepMeter x ?_; rename' x => y)
    | (extract_lets +onlyGivenNames x; clear_value x; rename' x => y)
    | split | with_reducible refine Keeps.light ?_ rfl rfl rfl rfl

theorem keeps_execThermalTrip (h : Keeps F s t) :
    (hF : [SField.env, .hostMem, .pkg, .rif, .pcie, .sec, .arm, .arm2, .mtr, .pkc, .pkc2, .winPeak, .slabs, .slabs2,
        .ports, .ports2, .tiles, .tiles2, .banks, .parts, .parts2, .ctxs, .funcs, .bankMem, .hbm] ⊆ F := by
        assumption) →
    Yields F s (execThermalTrip t) := by
  intro hF
  have b_pkc2 : SField.pkc2 ∈ F := hF (by decide)
  have f_enterStandby : [SField.env, .hostMem, .pkg, .rif, .pcie, .sec, .arm, .arm2, .mtr, .pkc, .pkc2, .winPeak,
      .slabs, .slabs2, .ports, .ports2, .tiles, .tiles2, .banks, .parts, .parts2, .ctxs, .funcs, .bankMem, .hbm] ⊆ F
      := List.Subset.trans (by decide) hF
  unfold execThermalTrip
  repeat'
    first
    | with_reducible assumption | with_reducible apply keeps_enterStandby | with_reducible apply Yields.next
    | (extract_lets +onlyGivenNames x
       refine Yields.cut (u := x) ?_ fun hx => ?_
       (on_goal 1 => unfold x)
       (on_goal 2 => (clear_value x; rename' x => y)))
    | (extract_lets +onlyGivenNames x
       refine Keeps.cut (u := x) ?_ fun hx => ?_
       (on_goal 1 => unfold x)
       (on_goal 2 => (clear_value x; rename' x => y)))
    | (extract_lets +onlyGivenNames x; refine Keeps.keepEnv x ?_; rename' x => y)
    | (extract_lets +onlyGivenNames x; refine Keeps.keepSec x ?_; rename' x => y)
    | (extract_lets +onlyGivenNames x; refine Keeps.keepArm x ?_; rename' x => y)
    | (extract_lets +onlyGivenNames x; refine Keeps.keepMeter x ?_; rename' x => y)
    | (extract_lets +onlyGivenNames x; clear_value x; rename' x => y)
    | split | with_reducible refine Keeps.light ?_ rfl rfl rfl rfl

theorem keeps_execStby (h : Keeps F s t) :
    ∀ x0, (hF : [SField.env, .hostMem, .pkg, .rif, .pcie, .sec, .arm, .arm2, .mtr, .pkc, .pkc2, .winPeak, .slabs,
        .slabs2, .ports, .ports2, .tiles, .tiles2, .banks, .parts, .parts2, .ctxs, .funcs, .bankMem, .hbm] ⊆ F := by
        assumption) →
    Yields F s (execStby x0 t) := by
  intro x0 hF
  have f_enterStandby : [SField.env, .hostMem, .pkg, .rif, .pcie, .sec, .arm, .arm2, .mtr, .pkc, .pkc2, .winPeak,
      .slabs, .slabs2, .ports, .ports2, .tiles, .tiles2, .banks, .parts, .parts2, .ctxs, .funcs, .bankMem, .hbm] ⊆ F
      := List.Subset.trans (by decide) hF
  unfold execStby
  repeat'
    first
    | with_reducible assumption | with_reducible apply keeps_enterStandby | with_reducible apply Yields.next
    | (extract_lets +onlyGivenNames x
       refine Yields.cut (u := x) ?_ fun hx => ?_
       (on_goal 1 => unfold x)
       (on_goal 2 => (clear_value x; rename' x => y)))
    | (extract_lets +onlyGivenNames x
       refine Keeps.cut (u := x) ?_ fun hx => ?_
       (on_goal 1 => unfold x)
       (on_goal 2 => (clear_value x; rename' x => y)))
    | (extract_lets +onlyGivenNames x; refine Keeps.keepEnv x ?_; rename' x => y)
    | (extract_lets +onlyGivenNames x; refine Keeps.keepSec x ?_; rename' x => y)
    | (extract_lets +onlyGivenNames x; refine Keeps.keepArm x ?_; rename' x => y)
    | (extract_lets +onlyGivenNames x; refine Keeps.keepMeter x ?_; rename' x => y)
    | (extract_lets +onlyGivenNames x; clear_value x; rename' x => y)
    | split | with_reducible refine Keeps.light ?_ rfl rfl rfl rfl

theorem keeps_execP12vStbyFall (h : Keeps F s t) :
    (hF : [SField.env, .hostMem, .pkg, .rif, .pcie, .sec, .arm, .arm2, .mtr, .pkc, .pkc2, .winPeak, .slabs, .slabs2,
        .ports, .ports2, .tiles, .tiles2, .banks, .parts, .parts2, .ctxs, .funcs, .bankMem, .hbm] ⊆ F := by
        assumption) →
    Yields F s (execP12vStbyFall t) := by
  intro hF
  have b_pkc : SField.pkc ∈ F := hF (by decide)
  have b_pkc2 : SField.pkc2 ∈ F := hF (by decide)
  have f_enterStandby : [SField.env, .hostMem, .pkg, .rif, .pcie, .sec, .arm, .arm2, .mtr, .pkc, .pkc2, .winPeak,
      .slabs, .slabs2, .ports, .ports2, .tiles, .tiles2, .banks, .parts, .parts2, .ctxs, .funcs, .bankMem, .hbm] ⊆ F
      := List.Subset.trans (by decide) hF
  unfold execP12vStbyFall
  repeat'
    first
    | with_reducible assumption | with_reducible apply keeps_enterStandby | with_reducible apply Yields.next
    | (extract_lets +onlyGivenNames x
       refine Yields.cut (u := x) ?_ fun hx => ?_
       (on_goal 1 => unfold x)
       (on_goal 2 => (clear_value x; rename' x => y)))
    | (extract_lets +onlyGivenNames x
       refine Keeps.cut (u := x) ?_ fun hx => ?_
       (on_goal 1 => unfold x)
       (on_goal 2 => (clear_value x; rename' x => y)))
    | (extract_lets +onlyGivenNames x; refine Keeps.keepEnv x ?_; rename' x => y)
    | (extract_lets +onlyGivenNames x; refine Keeps.keepSec x ?_; rename' x => y)
    | (extract_lets +onlyGivenNames x; refine Keeps.keepArm x ?_; rename' x => y)
    | (extract_lets +onlyGivenNames x; refine Keeps.keepMeter x ?_; rename' x => y)
    | (extract_lets +onlyGivenNames x; clear_value x; rename' x => y)
    | split | with_reducible refine Keeps.light ?_ rfl rfl rfl rfl

theorem keeps_execP12vStbyRise (h : Keeps F s t) :
    (hF : [SField.pkc] ⊆ F := by assumption) →
    Yields F s (execP12vStbyRise t) := by
  intro hF
  have b_pkc : SField.pkc ∈ F := hF (by decide)
  unfold execP12vStbyRise
  repeat'
    first
    | with_reducible assumption | with_reducible apply Yields.next
    | (extract_lets +onlyGivenNames x
       refine Yields.cut (u := x) ?_ fun hx => ?_
       (on_goal 1 => unfold x)
       (on_goal 2 => (clear_value x; rename' x => y)))
    | (extract_lets +onlyGivenNames x
       refine Keeps.cut (u := x) ?_ fun hx => ?_
       (on_goal 1 => unfold x)
       (on_goal 2 => (clear_value x; rename' x => y)))
    | (extract_lets +onlyGivenNames x; refine Keeps.keepEnv x ?_; rename' x => y)
    | (extract_lets +onlyGivenNames x; refine Keeps.keepSec x ?_; rename' x => y)
    | (extract_lets +onlyGivenNames x; refine Keeps.keepArm x ?_; rename' x => y)
    | (extract_lets +onlyGivenNames x; refine Keeps.keepMeter x ?_; rename' x => y)
    | (extract_lets +onlyGivenNames x; clear_value x; rename' x => y)
    | split | with_reducible refine Keeps.light ?_ rfl rfl rfl rfl

theorem keeps_freeCycles (h : Keeps F s t) :
    (hF : [SField.env, .slabs] ⊆ F := by assumption) →
    Keeps F s (freeCycles t) := by
  intro hF
  have b_env : SField.env ∈ F := hF (by decide)
  have b_slabs : SField.slabs ∈ F := hF (by decide)
  refine h.forAll _ _ fun n u hu => ?_
  dsimp only
  split
  · exact hu
  · exact (hu.takeFree 64).modSlab _ _

theorem keeps_deriveKeys (h : Keeps F s t) :
    (hF : [SField.env, .hostMem, .pcie, .sec, .slabs, .funcs] ⊆ F := by assumption) →
    Keeps F s (deriveKeys t) := by
  intro hF
  have b_sec : SField.sec ∈ F := hF (by decide)
  have b_slabs : SField.slabs ∈ F := hF (by decide)
  have f_secEvent : [SField.env, .hostMem, .pcie, .sec, .funcs] ⊆ F := List.Subset.trans (by decide) hF
  unfold deriveKeys
  repeat'
    first
    | with_reducible assumption | with_reducible (refine Keeps.forAll ?_ _ _ fun _ _ _ => ?_)
    | with_reducible apply Keeps.modSlab | with_reducible apply keeps_secEvent
    | (extract_lets +onlyGivenNames x
       refine Keeps.cut (u := x) ?_ fun hx => ?_
       (on_goal 1 => unfold x)
       (on_goal 2 => (clear_value x; rename' x => y)))
    | (extract_lets +onlyGivenNames x; refine Keeps.keepEnv x ?_; rename' x => y)
    | (extract_lets +onlyGivenNames x; refine Keeps.keepSec x ?_; rename' x => y)
    | (extract_lets +onlyGivenNames x; refine Keeps.keepArm x ?_; rename' x => y)
    | (extract_lets +onlyGivenNames x; refine Keeps.keepMeter x ?_; rename' x => y)
    | (extract_lets +onlyGivenNames x; clear_value x; rename' x => y)
    | split | with_reducible refine Keeps.light ?_ rfl rfl rfl rfl

theorem keeps_retireFailed (h : Keeps F s t) :
    (hF : [SField.env, .hostMem, .pkg, .pcie, .sec, .arm, .meter, .meter2, .slabs, .slabs2, .ports, .ports2, .tiles,
        .tiles2, .banks, .parts2, .ctxs, .funcs, .bankMem, .hbm] ⊆ F := by assumption) →
    Keeps F s (retireFailed t) := by
  intro hF
  have f_fullRetire : [SField.env, .hostMem, .pkg, .pcie, .sec, .arm, .meter, .meter2, .slabs, .slabs2, .ports,
      .ports2, .tiles, .tiles2, .banks, .parts2, .ctxs, .funcs, .bankMem, .hbm] ⊆ F := List.Subset.trans (by decide)
      hF
  unfold retireFailed
  repeat'
    first
    | with_reducible assumption | with_reducible (refine Keeps.forAll ?_ _ _ fun _ _ _ => ?_)
    | with_reducible apply keeps_fullRetire
    | (extract_lets +onlyGivenNames x
       refine Keeps.cut (u := x) ?_ fun hx => ?_
       (on_goal 1 => unfold x)
       (on_goal 2 => (clear_value x; rename' x => y)))
    | (extract_lets +onlyGivenNames x; refine Keeps.keepEnv x ?_; rename' x => y)
    | (extract_lets +onlyGivenNames x; refine Keeps.keepSec x ?_; rename' x => y)
    | (extract_lets +onlyGivenNames x; refine Keeps.keepArm x ?_; rename' x => y)
    | (extract_lets +onlyGivenNames x; refine Keeps.keepMeter x ?_; rename' x => y)
    | (extract_lets +onlyGivenNames x; clear_value x; rename' x => y)
    | split | with_reducible refine Keeps.light ?_ rfl rfl rfl rfl

theorem keeps_coldStart (h : Keeps F s t) :
    ∀ x0, (hF : [SField.env, .hostMem, .pkg, .pcie, .sec, .arm, .mtr, .meter, .meter2, .pkc, .pkc2, .slabs, .slabs2,
        .ports, .ports2, .tiles, .tiles2, .banks, .parts, .parts2, .ctxs, .funcs, .bankMem, .hbm] ⊆ F := by
        assumption) →
    Keeps F s (coldStart x0 t) := by
  intro x0 hF
  have b_pcie : SField.pcie ∈ F := hF (by decide)
  have b_mtr : SField.mtr ∈ F := hF (by decide)
  have b_pkc : SField.pkc ∈ F := hF (by decide)
  have b_pkc2 : SField.pkc2 ∈ F := hF (by decide)
  have f_deriveKeys : [SField.env, .hostMem, .pcie, .sec, .slabs, .funcs] ⊆ F := List.Subset.trans (by decide) hF
  have f_recover : [SField.pcie, .pkc] ⊆ F := List.Subset.trans (by decide) hF
  have f_bringUp : [SField.env, .hostMem, .pkg, .pcie, .sec, .arm, .pkc, .slabs, .slabs2, .ports, .ports2, .tiles,
      .tiles2, .banks, .parts, .parts2, .ctxs, .funcs, .bankMem] ⊆ F := List.Subset.trans (by decide) hF
  have f_freeCycles : [SField.env, .slabs] ⊆ F := List.Subset.trans (by decide) hF
  have f_retireFailed : [SField.env, .hostMem, .pkg, .pcie, .sec, .arm, .meter, .meter2, .slabs, .slabs2, .ports,
      .ports2, .tiles, .tiles2, .banks, .parts2, .ctxs, .funcs, .bankMem, .hbm] ⊆ F := List.Subset.trans (by decide)
      hF
  unfold coldStart
  repeat'
    first
    | with_reducible assumption | with_reducible apply keeps_deriveKeys | with_reducible apply keeps_recover
    | with_reducible apply keeps_bringUp | with_reducible apply keeps_freeCycles
    | with_reducible apply keeps_retireFailed
    | (extract_lets +onlyGivenNames x
       refine Keeps.cut (u := x) ?_ fun hx => ?_
       (on_goal 1 => unfold x)
       (on_goal 2 => (clear_value x; rename' x => y)))
    | (extract_lets +onlyGivenNames x; refine Keeps.keepEnv x ?_; rename' x => y)
    | (extract_lets +onlyGivenNames x; refine Keeps.keepSec x ?_; rename' x => y)
    | (extract_lets +onlyGivenNames x; refine Keeps.keepArm x ?_; rename' x => y)
    | (extract_lets +onlyGivenNames x; refine Keeps.keepMeter x ?_; rename' x => y)
    | (extract_lets +onlyGivenNames x; clear_value x; rename' x => y)
    | split | with_reducible refine Keeps.light ?_ rfl rfl rfl rfl

theorem keeps_coldOn (h : Keeps F s t) :
    ∀ x0, (hF : [SField.env, .hostMem, .pkg, .pcie, .sec, .arm, .mtr, .meter, .meter2, .pkc, .pkc2, .slabs, .slabs2,
        .ports, .ports2, .tiles, .tiles2, .banks, .parts, .parts2, .ctxs, .funcs, .bankMem, .hbm] ⊆ F := by
        assumption) →
    Keeps F s (coldOn x0 t) := by
  intro x0 hF
  have f_coldStart : [SField.env, .hostMem, .pkg, .pcie, .sec, .arm, .mtr, .meter, .meter2, .pkc, .pkc2, .slabs,
      .slabs2, .ports, .ports2, .tiles, .tiles2, .banks, .parts, .parts2, .ctxs, .funcs, .bankMem, .hbm] ⊆ F :=
      List.Subset.trans (by decide) hF
  have f_linkRetrains : [SField.env, .hostMem, .pcie, .funcs] ⊆ F := List.Subset.trans (by decide) hF
  unfold coldOn
  repeat'
    first
    | with_reducible assumption | with_reducible apply keeps_coldStart | with_reducible apply keeps_linkRetrains
    | (extract_lets +onlyGivenNames x
       refine Keeps.cut (u := x) ?_ fun hx => ?_
       (on_goal 1 => unfold x)
       (on_goal 2 => (clear_value x; rename' x => y)))
    | (extract_lets +onlyGivenNames x; refine Keeps.keepEnv x ?_; rename' x => y)
    | (extract_lets +onlyGivenNames x; refine Keeps.keepSec x ?_; rename' x => y)
    | (extract_lets +onlyGivenNames x; refine Keeps.keepArm x ?_; rename' x => y)
    | (extract_lets +onlyGivenNames x; refine Keeps.keepMeter x ?_; rename' x => y)
    | (extract_lets +onlyGivenNames x; clear_value x; rename' x => y)
    | split | with_reducible refine Keeps.light ?_ rfl rfl rfl rfl

theorem keeps_heldStart (h : Keeps F s t) :
    ∀ x0, (hF : [SField.env, .hostMem, .pkg, .rif, .pcie, .sec, .arm, .arm2, .mtr, .meter, .meter2, .pkc, .pkc2,
        .winPeak, .slabs, .slabs2, .ports, .ports2, .tiles, .tiles2, .banks, .parts, .parts2, .ctxs, .funcs,
        .bankMem, .hbm] ⊆ F := by assumption) →
    Keeps F s (heldStart x0 t) := by
  intro x0 hF
  have b_pkc : SField.pkc ∈ F := hF (by decide)
  exact (keeps_wipe (keeps_coldStart h x0 (hF := List.Subset.trans (by decide) hF))
    (hF := List.Subset.trans (by decide) hF)).light rfl rfl rfl rfl

theorem keeps_execColdPowerOn (h : Keeps F s t) :
    (hF : [SField.env, .hostMem, .pkg, .rif, .pcie, .sec, .arm, .arm2, .mtr, .meter, .meter2, .pkc, .pkc2, .winPeak,
        .slabs, .slabs2, .ports, .ports2, .tiles, .tiles2, .banks, .parts, .parts2, .ctxs, .funcs, .bankMem, .hbm] ⊆
        F := by assumption) →
    Yields F s (execColdPowerOn t) := by
  intro hF
  have b_pkc : SField.pkc ∈ F := hF (by decide)
  have b_pkc2 : SField.pkc2 ∈ F := hF (by decide)
  have f_coldOn : [SField.env, .hostMem, .pkg, .pcie, .sec, .arm, .mtr, .meter, .meter2, .pkc, .pkc2, .slabs,
      .slabs2, .ports, .ports2, .tiles, .tiles2, .banks, .parts, .parts2, .ctxs, .funcs, .bankMem, .hbm] ⊆ F :=
      List.Subset.trans (by decide) hF
  have f_heldStart : [SField.env, .hostMem, .pkg, .rif, .pcie, .sec, .arm, .arm2, .mtr, .meter, .meter2, .pkc, .pkc2,
      .winPeak, .slabs, .slabs2, .ports, .ports2, .tiles, .tiles2, .banks, .parts, .parts2, .ctxs, .funcs, .bankMem,
      .hbm] ⊆ F := List.Subset.trans (by decide) hF
  unfold execColdPowerOn
  repeat'
    first
    | with_reducible assumption | with_reducible apply keeps_coldOn | with_reducible apply keeps_heldStart
    | with_reducible apply Yields.next
    | (extract_lets +onlyGivenNames x
       refine Yields.cut (u := x) ?_ fun hx => ?_
       (on_goal 1 => unfold x)
       (on_goal 2 => (clear_value x; rename' x => y)))
    | (extract_lets +onlyGivenNames x
       refine Keeps.cut (u := x) ?_ fun hx => ?_
       (on_goal 1 => unfold x)
       (on_goal 2 => (clear_value x; rename' x => y)))
    | (extract_lets +onlyGivenNames x; refine Keeps.keepEnv x ?_; rename' x => y)
    | (extract_lets +onlyGivenNames x; refine Keeps.keepSec x ?_; rename' x => y)
    | (extract_lets +onlyGivenNames x; refine Keeps.keepArm x ?_; rename' x => y)
    | (extract_lets +onlyGivenNames x; refine Keeps.keepMeter x ?_; rename' x => y)
    | (extract_lets +onlyGivenNames x; clear_value x; rename' x => y)
    | split | with_reducible refine Keeps.light ?_ rfl rfl rfl rfl

theorem keeps_execSysResetAssert (h : Keeps F s t) :
    (hF : [SField.env, .hostMem, .pkg, .rif, .pcie, .sec, .arm, .arm2, .mtr, .pkc, .pkc2, .winPeak, .slabs, .slabs2,
        .ports, .ports2, .tiles, .tiles2, .banks, .parts, .parts2, .ctxs, .funcs, .bankMem, .hbm] ⊆ F := by
        assumption) →
    Yields F s (execSysResetAssert t) := by
  intro hF
  have b_pkc2 : SField.pkc2 ∈ F := hF (by decide)
  have f_warmWipe : [SField.env, .hostMem, .pkg, .rif, .pcie, .sec, .arm, .arm2, .mtr, .pkc, .pkc2, .winPeak, .slabs,
      .slabs2, .ports, .ports2, .tiles, .tiles2, .banks, .parts, .parts2, .ctxs, .funcs, .bankMem, .hbm] ⊆ F :=
      List.Subset.trans (by decide) hF
  unfold execSysResetAssert
  repeat'
    first
    | with_reducible assumption | with_reducible apply keeps_warmWipe | with_reducible apply Yields.next
    | (extract_lets +onlyGivenNames x
       refine Yields.cut (u := x) ?_ fun hx => ?_
       (on_goal 1 => unfold x)
       (on_goal 2 => (clear_value x; rename' x => y)))
    | (extract_lets +onlyGivenNames x
       refine Keeps.cut (u := x) ?_ fun hx => ?_
       (on_goal 1 => unfold x)
       (on_goal 2 => (clear_value x; rename' x => y)))
    | (extract_lets +onlyGivenNames x; refine Keeps.keepEnv x ?_; rename' x => y)
    | (extract_lets +onlyGivenNames x; refine Keeps.keepSec x ?_; rename' x => y)
    | (extract_lets +onlyGivenNames x; refine Keeps.keepArm x ?_; rename' x => y)
    | (extract_lets +onlyGivenNames x; refine Keeps.keepMeter x ?_; rename' x => y)
    | (extract_lets +onlyGivenNames x; clear_value x; rename' x => y)
    | split | with_reducible refine Keeps.light ?_ rfl rfl rfl rfl

theorem keeps_execSysResetDeassert (h : Keeps F s t) :
    (hF : [SField.env, .hostMem, .pkg, .pcie, .sec, .arm, .mtr, .meter, .meter2, .pkc, .pkc2, .slabs, .slabs2,
        .ports, .ports2, .tiles, .tiles2, .banks, .parts, .parts2, .ctxs, .funcs, .bankMem, .hbm] ⊆ F := by
        assumption) →
    Yields F s (execSysResetDeassert t) := by
  intro hF
  have b_pkc2 : SField.pkc2 ∈ F := hF (by decide)
  have f_linkRetrains : [SField.env, .hostMem, .pcie, .funcs] ⊆ F := List.Subset.trans (by decide) hF
  have f_warmStart : [SField.env, .hostMem, .pkg, .pcie, .sec, .arm, .pkc, .slabs, .slabs2, .ports, .ports2, .tiles,
      .tiles2, .banks, .parts, .parts2, .ctxs, .funcs, .bankMem] ⊆ F := List.Subset.trans (by decide) hF
  have f_coldOn : [SField.env, .hostMem, .pkg, .pcie, .sec, .arm, .mtr, .meter, .meter2, .pkc, .pkc2, .slabs,
      .slabs2, .ports, .ports2, .tiles, .tiles2, .banks, .parts, .parts2, .ctxs, .funcs, .bankMem, .hbm] ⊆ F :=
      List.Subset.trans (by decide) hF
  unfold execSysResetDeassert
  split
  · exact Yields.next h
  · extract_lets a u1 u2
    have h1 : Keeps F s u1 := h.light rfl rfl rfl rfl
    split
    · refine Yields.next ?_
      split
      · exact keeps_linkRetrains (keeps_warmStart h1)
      · exact keeps_warmStart h1
    · split
      · exact Yields.next (keeps_coldOn h1 _)
      · exact Yields.next h1

theorem keeps_execPerstAssert (h : Keeps F s t) :
    (hF : [SField.env, .hostMem, .pkg, .rif, .pcie, .sec, .arm, .arm2, .mtr, .pkc, .pkc2, .winPeak, .slabs, .slabs2,
        .ports, .ports2, .tiles, .tiles2, .banks, .parts, .parts2, .ctxs, .funcs, .bankMem, .hbm] ⊆ F := by
        assumption) →
    Yields F s (execPerstAssert t) := by
  intro hF
  have b_pcie : SField.pcie ∈ F := hF (by decide)
  have b_pkc : SField.pkc ∈ F := hF (by decide)
  have b_pkc2 : SField.pkc2 ∈ F := hF (by decide)
  have f_warmReset : [SField.env, .hostMem, .pkg, .rif, .pcie, .sec, .arm, .arm2, .mtr, .pkc, .pkc2, .winPeak,
      .slabs, .slabs2, .ports, .ports2, .tiles, .tiles2, .banks, .parts, .parts2, .ctxs, .funcs, .bankMem, .hbm] ⊆
      F := List.Subset.trans (by decide) hF
  unfold execPerstAssert
  split
  · exact Yields.next h
  · dsimp only
    split
    · exact Yields.next (keeps_warmReset (h.light rfl rfl rfl rfl) _)
    · split
      · exact Yields.next (h.light rfl rfl rfl rfl)
      · exact Yields.next (h.light rfl rfl rfl rfl)

theorem keeps_execPerstDeassert (h : Keeps F s t) :
    ∀ x0 x1, (hF : [SField.env, .hostMem, .pkg, .rif, .pcie, .sec, .arm, .arm2, .mtr, .meter, .meter2, .pkc, .pkc2,
        .winPeak, .slabs, .slabs2, .ports, .ports2, .tiles, .tiles2, .banks, .parts, .parts2, .ctxs, .funcs,
        .bankMem, .hbm] ⊆ F := by assumption) →
    Yields F s (execPerstDeassert x0 x1 t) := by
  intro x0 x1 hF
  have b_pkc : SField.pkc ∈ F := hF (by decide)
  have b_pkc2 : SField.pkc2 ∈ F := hF (by decide)
  have f_linkUp : [SField.env, .hostMem, .pcie, .funcs] ⊆ F := List.Subset.trans (by decide) hF
  have f_coldStart : [SField.env, .hostMem, .pkg, .pcie, .sec, .arm, .mtr, .meter, .meter2, .pkc, .pkc2, .slabs,
      .slabs2, .ports, .ports2, .tiles, .tiles2, .banks, .parts, .parts2, .ctxs, .funcs, .bankMem, .hbm] ⊆ F :=
      List.Subset.trans (by decide) hF
  have f_finishStart : [SField.pkc] ⊆ F := List.Subset.trans (by decide) hF
  revert x0 x1
  intro sp w
  unfold execPerstDeassert
  split
  · exact Yields.next h
  · dsimp only
    split
    · refine Yields.next ?_
      split
      · exact keeps_linkUp (keeps_coldStart (h.light rfl rfl rfl rfl) _) _ _
      · exact keeps_heldStart (h.light rfl rfl rfl rfl) _
    · split
      · split
        · exact Yields.next (keeps_linkUp (h.light rfl rfl rfl rfl) _ _)
        · exact Yields.next (keeps_linkUp (keeps_finishStart (h.light rfl rfl rfl rfl)) _ _)
      · exact Yields.next (h.light rfl rfl rfl rfl)

theorem keeps_resetVf (h : Keeps F s t) :
    ∀ x0, (hF : [SField.env, .hostMem, .pcie, .slabs2, .ports, .ports2, .tiles, .banks, .parts2, .ctxs, .funcs, .hbm]
        ⊆ F := by assumption) →
    Keeps F s (resetVf x0 t) := by
  intro x0 hF
  have b_pcie : SField.pcie ∈ F := hF (by decide)
  have b_funcs : SField.funcs ∈ F := hF (by decide)
  have f_resetCtx : [SField.slabs2, .ports, .ports2, .tiles, .banks, .parts2, .ctxs, .hbm] ⊆ F := List.Subset.trans
      (by decide) hF
  have f_post : [SField.env, .hostMem, .pcie, .funcs] ⊆ F := List.Subset.trans (by decide) hF
  unfold resetVf
  repeat'
    first
    | with_reducible assumption | with_reducible (refine Keeps.forAll ?_ _ _ fun _ _ _ => ?_)
    | with_reducible apply keeps_resetCtx | with_reducible apply Keeps.setFn | with_reducible apply keeps_post
    | (extract_lets +onlyGivenNames x
       refine Keeps.cut (u := x) ?_ fun hx => ?_
       (on_goal 1 => unfold x)
       (on_goal 2 => (clear_value x; rename' x => y)))
    | (extract_lets +onlyGivenNames x; refine Keeps.keepEnv x ?_; rename' x => y)
    | (extract_lets +onlyGivenNames x; refine Keeps.keepSec x ?_; rename' x => y)
    | (extract_lets +onlyGivenNames x; refine Keeps.keepArm x ?_; rename' x => y)
    | (extract_lets +onlyGivenNames x; refine Keeps.keepMeter x ?_; rename' x => y)
    | (extract_lets +onlyGivenNames x; clear_value x; rename' x => y)
    | split | with_reducible refine Keeps.light ?_ rfl rfl rfl rfl

theorem keeps_execVfFlr (h : Keeps F s t) :
    ∀ x0, (hF : [SField.env, .hostMem, .pcie, .slabs2, .ports, .ports2, .tiles, .banks, .parts2, .ctxs, .funcs, .hbm]
        ⊆ F := by assumption) →
    Yields F s (execVfFlr x0 t) := by
  intro x0 hF
  have f_resetVf : [SField.env, .hostMem, .pcie, .slabs2, .ports, .ports2, .tiles, .banks, .parts2, .ctxs, .funcs,
      .hbm] ⊆ F := List.Subset.trans (by decide) hF
  unfold execVfFlr
  repeat'
    first
    | with_reducible assumption | with_reducible apply keeps_resetVf | with_reducible apply Yields.next
    | (extract_lets +onlyGivenNames x
       refine Yields.cut (u := x) ?_ fun hx => ?_
       (on_goal 1 => unfold x)
       (on_goal 2 => (clear_value x; rename' x => y)))
    | (extract_lets +onlyGivenNames x
       refine Keeps.cut (u := x) ?_ fun hx => ?_
       (on_goal 1 => unfold x)
       (on_goal 2 => (clear_value x; rename' x => y)))
    | (extract_lets +onlyGivenNames x; refine Keeps.keepEnv x ?_; rename' x => y)
    | (extract_lets +onlyGivenNames x; refine Keeps.keepSec x ?_; rename' x => y)
    | (extract_lets +onlyGivenNames x; refine Keeps.keepArm x ?_; rename' x => y)
    | (extract_lets +onlyGivenNames x; refine Keeps.keepMeter x ?_; rename' x => y)
    | (extract_lets +onlyGivenNames x; clear_value x; rename' x => y)
    | split | with_reducible refine Keeps.light ?_ rfl rfl rfl rfl

theorem keeps_execVfEnableClear (h : Keeps F s t) :
    (hF : [SField.env, .hostMem, .pcie, .slabs2, .ports, .ports2, .tiles, .banks, .parts2, .ctxs, .funcs, .hbm] ⊆ F
        := by assumption) →
    Yields F s (execVfEnableClear t) := by
  intro hF
  have b_pcie : SField.pcie ∈ F := hF (by decide)
  have f_resetVf : [SField.env, .hostMem, .pcie, .slabs2, .ports, .ports2, .tiles, .banks, .parts2, .ctxs, .funcs,
      .hbm] ⊆ F := List.Subset.trans (by decide) hF
  unfold execVfEnableClear
  repeat'
    first
    | with_reducible assumption | with_reducible (refine Keeps.forAll ?_ _ _ fun _ _ _ => ?_)
    | with_reducible apply keeps_resetVf | with_reducible apply Yields.next
    | (extract_lets +onlyGivenNames x
       refine Yields.cut (u := x) ?_ fun hx => ?_
       (on_goal 1 => unfold x)
       (on_goal 2 => (clear_value x; rename' x => y)))
    | (extract_lets +onlyGivenNames x
       refine Keeps.cut (u := x) ?_ fun hx => ?_
       (on_goal 1 => unfold x)
       (on_goal 2 => (clear_value x; rename' x => y)))
    | (extract_lets +onlyGivenNames x; refine Keeps.keepEnv x ?_; rename' x => y)
    | (extract_lets +onlyGivenNames x; refine Keeps.keepSec x ?_; rename' x => y)
    | (extract_lets +onlyGivenNames x; refine Keeps.keepArm x ?_; rename' x => y)
    | (extract_lets +onlyGivenNames x; refine Keeps.keepMeter x ?_; rename' x => y)
    | (extract_lets +onlyGivenNames x; clear_value x; rename' x => y)
    | split | with_reducible refine Keeps.light ?_ rfl rfl rfl rfl

theorem keeps_presetSlab (h : Keeps F s t) :
    ∀ x0, (hF : [SField.env, .hostMem, .pcie, .slabs, .slabs2, .ports, .tiles, .tiles2, .banks, .ctxs, .funcs,
        .bankMem] ⊆ F := by assumption) →
    Keeps F s (presetSlab x0 t) := by
  intro x0 hF
  have b_slabs : SField.slabs ∈ F := hF (by decide)
  have b_slabs2 : SField.slabs2 ∈ F := hF (by decide)
  have f_clearPos : [SField.tiles2, .banks, .bankMem] ⊆ F := List.Subset.trans (by decide) hF
  have f_applyWords : [SField.env, .hostMem, .pcie, .slabs, .slabs2, .ports, .tiles, .ctxs, .funcs] ⊆ F :=
      List.Subset.trans (by decide) hF
  unfold presetSlab
  repeat'
    first
    | with_reducible assumption | with_reducible apply keeps_clearPos | with_reducible apply keeps_applyWords
    | with_reducible apply Keeps.modSlab | with_reducible apply Keeps.modSlab2
    | (extract_lets +onlyGivenNames x
       refine Keeps.cut (u := x) ?_ fun hx => ?_
       (on_goal 1 => unfold x)
       (on_goal 2 => (clear_value x; rename' x => y)))
    | (extract_lets +onlyGivenNames x; refine Keeps.keepEnv x ?_; rename' x => y)
    | (extract_lets +onlyGivenNames x; refine Keeps.keepSec x ?_; rename' x => y)
    | (extract_lets +onlyGivenNames x; refine Keeps.keepArm x ?_; rename' x => y)
    | (extract_lets +onlyGivenNames x; refine Keeps.keepMeter x ?_; rename' x => y)
    | (extract_lets +onlyGivenNames x; clear_value x; rename' x => y)
    | split

theorem keeps_presetPart (h : Keeps F s t) :
    ∀ x0, (hF : [SField.env, .hostMem, .pcie, .pkc, .slabs, .slabs2, .ports, .ports2, .tiles, .tiles2, .banks,
        .parts, .parts2, .ctxs, .funcs, .bankMem, .hbm] ⊆ F := by assumption) →
    Keeps F s (presetPart x0 t) := by
  intro x0 hF
  have b_pkc : SField.pkc ∈ F := hF (by decide)
  have b_parts : SField.parts ∈ F := hF (by decide)
  have b_parts2 : SField.parts2 ∈ F := hF (by decide)
  have f_resetCtx : [SField.slabs2, .ports, .ports2, .tiles, .banks, .parts2, .ctxs, .hbm] ⊆ F := List.Subset.trans
      (by decide) hF
  have f_presetSlab : [SField.env, .hostMem, .pcie, .slabs, .slabs2, .ports, .tiles, .tiles2, .banks, .ctxs, .funcs,
      .bankMem] ⊆ F := List.Subset.trans (by decide) hF
  have f_hbmUnwrite : [SField.hbm] ⊆ F := List.Subset.trans (by decide) hF
  have f_post : [SField.env, .hostMem, .pcie, .funcs] ⊆ F := List.Subset.trans (by decide) hF
  have f_pkcEvent : [SField.env, .hostMem, .pcie, .pkc, .funcs] ⊆ F := List.Subset.trans (by decide) hF
  unfold presetPart
  repeat'
    first
    | with_reducible assumption | with_reducible (refine Keeps.forAll ?_ _ _ fun _ _ _ => ?_)
    | with_reducible apply keeps_resetCtx | with_reducible apply keeps_presetSlab
    | with_reducible apply keeps_hbmUnwrite | with_reducible apply Keeps.setPart | with_reducible apply Keeps.modPart2
    | with_reducible apply keeps_post | with_reducible apply keeps_pkcEvent
    | (extract_lets +onlyGivenNames x
       refine Keeps.cut (u := x) ?_ fun hx => ?_
       (on_goal 1 => unfold x)
       (on_goal 2 => (clear_value x; rename' x => y)))
    | (extract_lets +onlyGivenNames x; refine Keeps.keepEnv x ?_; rename' x => y)
    | (extract_lets +onlyGivenNames x; refine Keeps.keepSec x ?_; rename' x => y)
    | (extract_lets +onlyGivenNames x; refine Keeps.keepArm x ?_; rename' x => y)
    | (extract_lets +onlyGivenNames x; refine Keeps.keepMeter x ?_; rename' x => y)
    | (extract_lets +onlyGivenNames x; clear_value x; rename' x => y)
    | split | with_reducible refine Keeps.light ?_ rfl rfl rfl rfl

theorem keeps_execPreset (h : Keeps F s t) :
    ∀ x0 x1, (hF : [SField.env, .hostMem, .pcie, .pkc, .slabs, .slabs2, .ports, .ports2, .tiles, .tiles2, .banks,
        .parts, .parts2, .ctxs, .funcs, .bankMem, .hbm] ⊆ F := by assumption) →
    Yields F s (execPreset x0 x1 t) := by
  intro x0 x1 hF
  have b_pkc : SField.pkc ∈ F := hF (by decide)
  have f_presetPart : [SField.env, .hostMem, .pcie, .pkc, .slabs, .slabs2, .ports, .ports2, .tiles, .tiles2, .banks,
      .parts, .parts2, .ctxs, .funcs, .bankMem, .hbm] ⊆ F := List.Subset.trans (by decide) hF
  unfold execPreset
  repeat'
    first
    | with_reducible assumption | with_reducible apply keeps_presetPart | with_reducible apply Yields.next
    | (extract_lets +onlyGivenNames x
       refine Yields.cut (u := x) ?_ fun hx => ?_
       (on_goal 1 => unfold x)
       (on_goal 2 => (clear_value x; rename' x => y)))
    | (extract_lets +onlyGivenNames x
       refine Keeps.cut (u := x) ?_ fun hx => ?_
       (on_goal 1 => unfold x)
       (on_goal 2 => (clear_value x; rename' x => y)))
    | (extract_lets +onlyGivenNames x; refine Keeps.keepEnv x ?_; rename' x => y)
    | (extract_lets +onlyGivenNames x; refine Keeps.keepSec x ?_; rename' x => y)
    | (extract_lets +onlyGivenNames x; refine Keeps.keepArm x ?_; rename' x => y)
    | (extract_lets +onlyGivenNames x; refine Keeps.keepMeter x ?_; rename' x => y)
    | (extract_lets +onlyGivenNames x; clear_value x; rename' x => y)
    | split | with_reducible refine Keeps.light ?_ rfl rfl rfl rfl

theorem keeps_powerOff (h : Keeps F s t) :
    ∀ x0, (hF : [SField.pkc, .pkc2, .slabs, .slabs2, .tiles, .tiles2, .banks, .bankMem] ⊆ F := by assumption) →
    Keeps F s (powerOff x0 t) := by
  intro x0 hF
  have b_pkc : SField.pkc ∈ F := hF (by decide)
  have b_pkc2 : SField.pkc2 ∈ F := hF (by decide)
  have b_slabs : SField.slabs ∈ F := hF (by decide)
  have b_slabs2 : SField.slabs2 ∈ F := hF (by decide)
  have f_freshPos : [SField.tiles, .tiles2, .banks] ⊆ F := List.Subset.trans (by decide) hF
  have f_clearPos : [SField.tiles2, .banks, .bankMem] ⊆ F := List.Subset.trans (by decide) hF
  unfold powerOff
  repeat'
    first
    | with_reducible assumption | with_reducible apply keeps_freshPos | with_reducible apply keeps_clearPos
    | with_reducible apply Keeps.modSlab | with_reducible apply Keeps.modSlab2
    | (extract_lets +onlyGivenNames x
       refine Keeps.cut (u := x) ?_ fun hx => ?_
       (on_goal 1 => unfold x)
       (on_goal 2 => (clear_value x; rename' x => y)))
    | (extract_lets +onlyGivenNames x; refine Keeps.keepEnv x ?_; rename' x => y)
    | (extract_lets +onlyGivenNames x; refine Keeps.keepSec x ?_; rename' x => y)
    | (extract_lets +onlyGivenNames x; refine Keeps.keepArm x ?_; rename' x => y)
    | (extract_lets +onlyGivenNames x; refine Keeps.keepMeter x ?_; rename' x => y)
    | (extract_lets +onlyGivenNames x; clear_value x; rename' x => y)
    | split | with_reducible refine Keeps.light ?_ rfl rfl rfl rfl

theorem keeps_offBit (h : Keeps F s t) :
    ∀ x0 x1, (hF : [SField.env, .hostMem, .pcie, .pkc, .pkc2, .slabs, .slabs2, .tiles, .tiles2, .banks, .funcs,
        .bankMem] ⊆ F := by assumption) →
    Keeps F s (offBit x0 x1 t) := by
  intro x0 x1 hF
  have f_powerOff : [SField.pkc, .pkc2, .slabs, .slabs2, .tiles, .tiles2, .banks, .bankMem] ⊆ F := List.Subset.trans
      (by decide) hF
  have f_pkcEvent : [SField.env, .hostMem, .pcie, .pkc, .funcs] ⊆ F := List.Subset.trans (by decide) hF
  have f_powerOn : [SField.pkc, .pkc2, .slabs, .slabs2, .tiles, .tiles2, .banks, .bankMem] ⊆ F := List.Subset.trans
      (by decide) hF
  unfold offBit
  repeat'
    first
    | with_reducible assumption | with_reducible apply keeps_powerOff | with_reducible apply keeps_pkcEvent
    | with_reducible apply keeps_powerOn
    | (extract_lets +onlyGivenNames x
       refine Keeps.cut (u := x) ?_ fun hx => ?_
       (on_goal 1 => unfold x)
       (on_goal 2 => (clear_value x; rename' x => y)))
    | (extract_lets +onlyGivenNames x; refine Keeps.keepEnv x ?_; rename' x => y)
    | (extract_lets +onlyGivenNames x; refine Keeps.keepSec x ?_; rename' x => y)
    | (extract_lets +onlyGivenNames x; refine Keeps.keepArm x ?_; rename' x => y)
    | (extract_lets +onlyGivenNames x; refine Keeps.keepMeter x ?_; rename' x => y)
    | (extract_lets +onlyGivenNames x; clear_value x; rename' x => y)
    | split | with_reducible refine Keeps.light ?_ rfl rfl rfl rfl

theorem keeps_execPwrSlabOffWrite (h : Keeps F s t) :
    ∀ x0 x1 x2, (hF : [SField.env, .hostMem, .pcie, .pkc, .pkc2, .slabs, .slabs2, .tiles, .tiles2, .banks, .funcs,
        .bankMem] ⊆ F := by assumption) →
    Yields F s (execPwrSlabOffWrite x0 x1 x2 t) := by
  intro x0 x1 x2 hF
  have f_offBit : [SField.env, .hostMem, .pcie, .pkc, .pkc2, .slabs, .slabs2, .tiles, .tiles2, .banks, .funcs,
      .bankMem] ⊆ F := List.Subset.trans (by decide) hF
  unfold execPwrSlabOffWrite
  repeat'
    first
    | with_reducible assumption | with_reducible (refine Keeps.forAll ?_ _ _ fun _ _ _ => ?_)
    | with_reducible apply keeps_offBit | with_reducible apply Yields.next
    | (extract_lets +onlyGivenNames x
       refine Yields.cut (u := x) ?_ fun hx => ?_
       (on_goal 1 => unfold x)
       (on_goal 2 => (clear_value x; rename' x => y)))
    | (extract_lets +onlyGivenNames x
       refine Keeps.cut (u := x) ?_ fun hx => ?_
       (on_goal 1 => unfold x)
       (on_goal 2 => (clear_value x; rename' x => y)))
    | (extract_lets +onlyGivenNames x; refine Keeps.keepEnv x ?_; rename' x => y)
    | (extract_lets +onlyGivenNames x; refine Keeps.keepSec x ?_; rename' x => y)
    | (extract_lets +onlyGivenNames x; refine Keeps.keepArm x ?_; rename' x => y)
    | (extract_lets +onlyGivenNames x; refine Keeps.keepMeter x ?_; rename' x => y)
    | (extract_lets +onlyGivenNames x; clear_value x; rename' x => y)
    | split | with_reducible refine Keeps.light ?_ rfl rfl rfl rfl

theorem keeps_execSlabPwr (h : Keeps F s t) :
    ∀ x0 x1, (hF : [SField.env, .hostMem, .pcie, .arm, .pkc, .pkc2, .slabs, .slabs2, .ports, .ports2, .tiles,
        .tiles2, .banks, .parts2, .ctxs, .funcs, .bankMem, .hbm] ⊆ F := by assumption) →
    Yields F s (execSlabPwr x0 x1 t) := by
  intro x0 x1 hF
  have b_pkc2 : SField.pkc2 ∈ F := hF (by decide)
  have f_pkcEvent : [SField.env, .hostMem, .pcie, .pkc, .funcs] ⊆ F := List.Subset.trans (by decide) hF
  have f_coreRetire : [SField.env, .hostMem, .pcie, .arm, .slabs, .slabs2, .ports, .ports2, .tiles, .tiles2, .banks,
      .parts2, .ctxs, .funcs, .bankMem, .hbm] ⊆ F := List.Subset.trans (by decide) hF
  unfold execSlabPwr
  repeat'
    first
    | with_reducible assumption | with_reducible apply keeps_pkcEvent | with_reducible apply keeps_coreRetire
    | with_reducible apply Yields.next
    | (extract_lets +onlyGivenNames x
       refine Yields.cut (u := x) ?_ fun hx => ?_
       (on_goal 1 => unfold x)
       (on_goal 2 => (clear_value x; rename' x => y)))
    | (extract_lets +onlyGivenNames x
       refine Keeps.cut (u := x) ?_ fun hx => ?_
       (on_goal 1 => unfold x)
       (on_goal 2 => (clear_value x; rename' x => y)))
    | (extract_lets +onlyGivenNames x; refine Keeps.keepEnv x ?_; rename' x => y)
    | (extract_lets +onlyGivenNames x; refine Keeps.keepSec x ?_; rename' x => y)
    | (extract_lets +onlyGivenNames x; refine Keeps.keepArm x ?_; rename' x => y)
    | (extract_lets +onlyGivenNames x; refine Keeps.keepMeter x ?_; rename' x => y)
    | (extract_lets +onlyGivenNames x; clear_value x; rename' x => y)
    | split | with_reducible refine Keeps.light ?_ rfl rfl rfl rfl

end Sys2Proof.Machine
end

