-- ==== Sys2Proof/Laws/KeepsRegWrite.lean ====
section
/-! SUPPORT. What every operation and meaning of Machine/RegWrite.lean keeps: the queue, the canonical form, what lasts, and every part
of the state outside its own list. -/

set_option linter.unreachableTactic false
set_option linter.unusedTactic false
set_option linter.unusedVariables false
set_option linter.tactic.unusedName false

namespace Sys2Proof.Machine

open Sys2Proof

-- Proofs one after another: the package compiles as one text under a memory limit.
set_option Elab.async false

variable {F : List SField} {s t : State}

theorem keeps_thenOf {o : Host.Outcome State Fault Refusal} {t : State} (h : Yields F s o) : Keeps F s (thenOf o t) := by
  obtain ⟨u, rfl, hu⟩ := h
  exact hu

theorem keeps_writePkg (h : Keeps F s t) :
    ∀ x0 x1 x2, (hF : [SField.env, .hostMem, .pkg, .pcie, .funcs] ⊆ F := by assumption) →
    Keeps F s (writePkg x0 x1 x2 t) := by
  intro x0 x1 x2 hF
  have b_pkg : SField.pkg ∈ F := hF (by decide)
  have f_execPowerLimitWrite : [SField.env, .hostMem, .pkg, .pcie, .funcs] ⊆ F := List.Subset.trans (by decide) hF
  unfold writePkg
  repeat'
    first
    | with_reducible assumption | with_reducible apply keeps_thenOf | with_reducible apply keeps_execPowerLimitWrite
    | (extract_lets +onlyGivenNames x
       refine Keeps.cut (u := x) ?_ fun hx => ?_
       (on_goal 1 => unfold x)
       (on_goal 2 => (clear_value x; rename' x => y)))
    | (extract_lets +onlyGivenNames x; refine Keeps.keepEnv x ?_; rename' x => y)
    | (extract_lets +onlyGivenNames x; refine Keeps.keepSec x ?_; rename' x => y)
    | (extract_lets +onlyGivenNames x; refine Keeps.keepArm x ?_; rename' x => y)
    | (extract_lets +onlyGivenNames x; refine Keeps.keepMeter x ?_; rename' x => y)
    | (extract_lets +onlyGivenNames x; clear_value x; rename' x => y)
    | split | with_reducible refine Keeps.light ?_ rfl rfl rfl rfl

theorem keeps_writeRif (h : Keeps F s t) :
    ∀ x0 x1, (hF : [SField.rif] ⊆ F := by assumption) →
    Keeps F s (writeRif x0 x1 t) := by
  intro x0 x1 hF
  have b_rif : SField.rif ∈ F := hF (by decide)
  unfold writeRif
  repeat'
    first
    | with_reducible assumption
    | (extract_lets +onlyGivenNames x
       refine Keeps.cut (u := x) ?_ fun hx => ?_
       (on_goal 1 => unfold x)
       (on_goal 2 => (clear_value x; rename' x => y)))
    | (extract_lets +onlyGivenNames x; refine Keeps.keepEnv x ?_; rename' x => y)
    | (extract_lets +onlyGivenNames x; refine Keeps.keepSec x ?_; rename' x => y)
    | (extract_lets +onlyGivenNames x; refine Keeps.keepArm x ?_; rename' x => y)
    | (extract_lets +onlyGivenNames x; refine Keeps.keepMeter x ?_; rename' x => y)
    | (extract_lets +onlyGivenNames x; clear_value x; rename' x => y)
    | split | with_reducible refine Keeps.light ?_ rfl rfl rfl rfl

theorem keeps_writePcie (h : Keeps F s t) :
    ∀ x0 x1, (hF : [SField.pcie] ⊆ F := by assumption) →
    Keeps F s (writePcie x0 x1 t) := by
  intro x0 x1 hF
  have b_pcie : SField.pcie ∈ F := hF (by decide)
  have f_startFailover : [SField.pcie] ⊆ F := List.Subset.trans (by decide) hF
  unfold writePcie
  repeat'
    first
    | with_reducible assumption | with_reducible apply keeps_startFailover
    | (extract_lets +onlyGivenNames x
       refine Keeps.cut (u := x) ?_ fun hx => ?_
       (on_goal 1 => unfold x)
       (on_goal 2 => (clear_value x; rename' x => y)))
    | (extract_lets +onlyGivenNames x; refine Keeps.keepEnv x ?_; rename' x => y)
    | (extract_lets +onlyGivenNames x; refine Keeps.keepSec x ?_; rename' x => y)
    | (extract_lets +onlyGivenNames x; refine Keeps.keepArm x ?_; rename' x => y)
    | (extract_lets +onlyGivenNames x; refine Keeps.keepMeter x ?_; rename' x => y)
    | (extract_lets +onlyGivenNames x; clear_value x; rename' x => y)
    | split | with_reducible refine Keeps.light ?_ rfl rfl rfl rfl

theorem keeps_writeSecCmd (h : Keeps F s t) :
    ∀ x0, (hF : [SField.env, .hostMem, .pcie, .sec, .funcs] ⊆ F := by assumption) →
    Keeps F s (writeSecCmd x0 t) := by
  intro x0 hF
  have b_sec : SField.sec ∈ F := hF (by decide)
  have f_secEvent : [SField.env, .hostMem, .pcie, .sec, .funcs] ⊆ F := List.Subset.trans (by decide) hF
  have f_secDone : [SField.env, .hostMem, .pcie, .sec, .funcs] ⊆ F := List.Subset.trans (by decide) hF
  unfold writeSecCmd
  repeat'
    first
    | with_reducible assumption | with_reducible apply keeps_secEvent | with_reducible apply keeps_secDone
    | (extract_lets +onlyGivenNames x
       refine Keeps.cut (u := x) ?_ fun hx => ?_
       (on_goal 1 => unfold x)
       (on_goal 2 => (clear_value x; rename' x => y)))
    | (extract_lets +onlyGivenNames x; refine Keeps.keepEnv x ?_; rename' x => y)
    | (extract_lets +onlyGivenNames x; refine Keeps.keepSec x ?_; rename' x => y)
    | (extract_lets +onlyGivenNames x; refine Keeps.keepArm x ?_; rename' x => y)
    | (extract_lets +onlyGivenNames x; refine Keeps.keepMeter x ?_; rename' x => y)
    | (extract_lets +onlyGivenNames x; clear_value x; rename' x => y)
    | split | with_reducible refine Keeps.light ?_ rfl rfl rfl rfl

theorem keeps_writeSec (h : Keeps F s t) :
    ∀ x0 x1, (hF : [SField.env, .hostMem, .pcie, .sec, .funcs] ⊆ F := by assumption) →
    Keeps F s (writeSec x0 x1 t) := by
  intro x0 x1 hF
  have b_sec : SField.sec ∈ F := hF (by decide)
  have f_writeSecCmd : [SField.env, .hostMem, .pcie, .sec, .funcs] ⊆ F := List.Subset.trans (by decide) hF
  unfold writeSec
  repeat'
    first
    | with_reducible assumption | with_reducible apply keeps_writeSecCmd
    | (extract_lets +onlyGivenNames x
       refine Keeps.cut (u := x) ?_ fun hx => ?_
       (on_goal 1 => unfold x)
       (on_goal 2 => (clear_value x; rename' x => y)))
    | (extract_lets +onlyGivenNames x; refine Keeps.keepEnv x ?_; rename' x => y)
    | (extract_lets +onlyGivenNames x; refine Keeps.keepSec x ?_; rename' x => y)
    | (extract_lets +onlyGivenNames x; refine Keeps.keepArm x ?_; rename' x => y)
    | (extract_lets +onlyGivenNames x; refine Keeps.keepMeter x ?_; rename' x => y)
    | (extract_lets +onlyGivenNames x; clear_value x; rename' x => y)
    | split | with_reducible refine Keeps.light ?_ rfl rfl rfl rfl

theorem keeps_writeArmCmd (h : Keeps F s t) :
    ∀ x0, (hF : [SField.env, .hostMem, .pcie, .arm, .arm2, .funcs] ⊆ F := by assumption) →
    Keeps F s (writeArmCmd x0 t) := by
  intro x0 hF
  have b_arm : SField.arm ∈ F := hF (by decide)
  have b_arm2 : SField.arm2 ∈ F := hF (by decide)
  have f_armRefuse : [SField.env, .hostMem, .pcie, .arm, .arm2, .funcs] ⊆ F := List.Subset.trans (by decide) hF
  unfold writeArmCmd
  repeat'
    first
    | with_reducible assumption | with_reducible apply keeps_armRefuse
    | (extract_lets +onlyGivenNames x
       refine Keeps.cut (u := x) ?_ fun hx => ?_
       (on_goal 1 => unfold x)
       (on_goal 2 => (clear_value x; rename' x => y)))
    | (extract_lets +onlyGivenNames x; refine Keeps.keepEnv x ?_; rename' x => y)
    | (extract_lets +onlyGivenNames x; refine Keeps.keepSec x ?_; rename' x => y)
    | (extract_lets +onlyGivenNames x; refine Keeps.keepArm x ?_; rename' x => y)
    | (extract_lets +onlyGivenNames x; refine Keeps.keepMeter x ?_; rename' x => y)
    | (extract_lets +onlyGivenNames x; clear_value x; rename' x => y)
    | split | with_reducible refine Keeps.light ?_ rfl rfl rfl rfl

theorem keeps_writeArm (h : Keeps F s t) :
    ∀ x0 x1, (hF : [SField.env, .hostMem, .pcie, .arm, .arm2, .funcs] ⊆ F := by assumption) →
    Keeps F s (writeArm x0 x1 t) := by
  intro x0 x1 hF
  have b_arm : SField.arm ∈ F := hF (by decide)
  have f_writeArmCmd : [SField.env, .hostMem, .pcie, .arm, .arm2, .funcs] ⊆ F := List.Subset.trans (by decide) hF
  unfold writeArm
  repeat'
    first
    | with_reducible assumption | with_reducible apply keeps_writeArmCmd
    | (extract_lets +onlyGivenNames x
       refine Keeps.cut (u := x) ?_ fun hx => ?_
       (on_goal 1 => unfold x)
       (on_goal 2 => (clear_value x; rename' x => y)))
    | (extract_lets +onlyGivenNames x; refine Keeps.keepEnv x ?_; rename' x => y)
    | (extract_lets +onlyGivenNames x; refine Keeps.keepSec x ?_; rename' x => y)
    | (extract_lets +onlyGivenNames x; refine Keeps.keepArm x ?_; rename' x => y)
    | (extract_lets +onlyGivenNames x; refine Keeps.keepMeter x ?_; rename' x => y)
    | (extract_lets +onlyGivenNames x; clear_value x; rename' x => y)
    | split | with_reducible refine Keeps.light ?_ rfl rfl rfl rfl

theorem keeps_writeAppCtrl (h : Keeps F s t) :
    ∀ x0, (hF : [SField.env, .mtr] ⊆ F := by assumption) →
    Keeps F s (writeAppCtrl x0 t) := by
  intro x0 hF
  have b_env : SField.env ∈ F := hF (by decide)
  have b_mtr : SField.mtr ∈ F := hF (by decide)
  revert x0
  intro v
  unfold writeAppCtrl
  dsimp only
  split
  · exact h.light rfl rfl rfl rfl
  · exact (h.takeFree 8).light rfl rfl rfl rfl

theorem keeps_writeMtr (h : Keeps F s t) :
    ∀ x0 x1 x2, (hF : [SField.env, .hostMem, .pcie, .mtr, .funcs] ⊆ F := by assumption) →
    Keeps F s (writeMtr x0 x1 x2 t) := by
  intro x0 x1 x2 hF
  have b_mtr : SField.mtr ∈ F := hF (by decide)
  have f_execMtrSnapReq : [SField.env, .hostMem, .pcie, .mtr, .funcs] ⊆ F := List.Subset.trans (by decide) hF
  have f_writeAppCtrl : [SField.env, .mtr] ⊆ F := List.Subset.trans (by decide) hF
  unfold writeMtr
  repeat'
    first
    | with_reducible assumption | with_reducible apply keeps_thenOf | with_reducible apply keeps_execMtrSnapReq
    | with_reducible apply keeps_writeAppCtrl
    | (extract_lets +onlyGivenNames x
       refine Keeps.cut (u := x) ?_ fun hx => ?_
       (on_goal 1 => unfold x)
       (on_goal 2 => (clear_value x; rename' x => y)))
    | (extract_lets +onlyGivenNames x; refine Keeps.keepEnv x ?_; rename' x => y)
    | (extract_lets +onlyGivenNames x; refine Keeps.keepSec x ?_; rename' x => y)
    | (extract_lets +onlyGivenNames x; refine Keeps.keepArm x ?_; rename' x => y)
    | (extract_lets +onlyGivenNames x; refine Keeps.keepMeter x ?_; rename' x => y)
    | (extract_lets +onlyGivenNames x; clear_value x; rename' x => y)
    | split | with_reducible refine Keeps.light ?_ rfl rfl rfl rfl

theorem keeps_writeSeq (h : Keeps F s t) :
    ∀ x0 x1 x2, (hF : [SField.winPeak, .parts2] ⊆ F := by assumption) →
    Keeps F s (writeSeq x0 x1 x2 t) := by
  intro x0 x1 x2 hF
  have b_parts2 : SField.parts2 ∈ F := hF (by decide)
  have f_execWinClearPeak : [SField.winPeak] ⊆ F := List.Subset.trans (by decide) hF
  unfold writeSeq
  repeat'
    first
    | with_reducible assumption | with_reducible apply keeps_thenOf | with_reducible apply keeps_execWinClearPeak
    | with_reducible apply Keeps.modPart2
    | (extract_lets +onlyGivenNames x
       refine Keeps.cut (u := x) ?_ fun hx => ?_
       (on_goal 1 => unfold x)
       (on_goal 2 => (clear_value x; rename' x => y)))
    | (extract_lets +onlyGivenNames x; refine Keeps.keepEnv x ?_; rename' x => y)
    | (extract_lets +onlyGivenNames x; refine Keeps.keepSec x ?_; rename' x => y)
    | (extract_lets +onlyGivenNames x; refine Keeps.keepArm x ?_; rename' x => y)
    | (extract_lets +onlyGivenNames x; refine Keeps.keepMeter x ?_; rename' x => y)
    | (extract_lets +onlyGivenNames x; clear_value x; rename' x => y)
    | split | with_reducible refine Keeps.light ?_ rfl rfl rfl rfl

theorem keeps_writeKv (h : Keeps F s t) :
    ∀ x0 x1 x2, (hF : [SField.env, .hostMem, .pcie, .parts, .parts2, .funcs] ⊆ F := by assumption) →
    Keeps F s (writeKv x0 x1 x2 t) := by
  intro x0 x1 x2 hF
  have b_parts2 : SField.parts2 ∈ F := hF (by decide)
  have f_execKvReserveWrite : [SField.env, .hostMem, .pcie, .parts, .parts2, .funcs] ⊆ F := List.Subset.trans (by
      decide) hF
  have f_execKvClearMin : [SField.parts] ⊆ F := List.Subset.trans (by decide) hF
  unfold writeKv
  repeat'
    first
    | with_reducible assumption | with_reducible apply keeps_thenOf | with_reducible apply keeps_execKvReserveWrite
    | with_reducible apply keeps_execKvClearMin | with_reducible apply Keeps.modPart2
    | (extract_lets +onlyGivenNames x
       refine Keeps.cut (u := x) ?_ fun hx => ?_
       (on_goal 1 => unfold x)
       (on_goal 2 => (clear_value x; rename' x => y)))
    | (extract_lets +onlyGivenNames x; refine Keeps.keepEnv x ?_; rename' x => y)
    | (extract_lets +onlyGivenNames x; refine Keeps.keepSec x ?_; rename' x => y)
    | (extract_lets +onlyGivenNames x; refine Keeps.keepArm x ?_; rename' x => y)
    | (extract_lets +onlyGivenNames x; refine Keeps.keepMeter x ?_; rename' x => y)
    | (extract_lets +onlyGivenNames x; clear_value x; rename' x => y)
    | split | with_reducible refine Keeps.light ?_ rfl rfl rfl rfl

theorem keeps_writeSched (h : Keeps F s t) :
    ∀ x0 x1, (hF : [SField.parts, .parts2] ⊆ F := by assumption) →
    Keeps F s (writeSched x0 x1 t) := by
  intro x0 x1 hF
  have b_parts : SField.parts ∈ F := hF (by decide)
  have b_parts2 : SField.parts2 ∈ F := hF (by decide)
  unfold writeSched
  repeat'
    first
    | with_reducible assumption | with_reducible apply Keeps.modPart | with_reducible apply Keeps.modPart2
    | (extract_lets +onlyGivenNames x
       refine Keeps.cut (u := x) ?_ fun hx => ?_
       (on_goal 1 => unfold x)
       (on_goal 2 => (clear_value x; rename' x => y)))
    | (extract_lets +onlyGivenNames x; refine Keeps.keepEnv x ?_; rename' x => y)
    | (extract_lets +onlyGivenNames x; refine Keeps.keepSec x ?_; rename' x => y)
    | (extract_lets +onlyGivenNames x; refine Keeps.keepArm x ?_; rename' x => y)
    | (extract_lets +onlyGivenNames x; refine Keeps.keepMeter x ?_; rename' x => y)
    | (extract_lets +onlyGivenNames x; clear_value x; rename' x => y)
    | split | with_reducible refine Keeps.light ?_ rfl rfl rfl rfl

theorem keeps_writeEvqCfg (h : Keeps F s t) :
    ∀ x0 x1, (hF : [SField.env, .hostMem, .pcie, .funcs] ⊆ F := by assumption) →
    Keeps F s (writeEvqCfg x0 x1 t) := by
  intro x0 x1 hF
  have b_funcs : SField.funcs ∈ F := hF (by decide)
  have f_fnEvent : [SField.env, .hostMem, .pcie, .funcs] ⊆ F := List.Subset.trans (by decide) hF
  unfold writeEvqCfg
  repeat'
    first
    | with_reducible assumption | with_reducible apply keeps_fnEvent | with_reducible apply Keeps.modFn
    | (extract_lets +onlyGivenNames x
       refine Keeps.cut (u := x) ?_ fun hx => ?_
       (on_goal 1 => unfold x)
       (on_goal 2 => (clear_value x; rename' x => y)))
    | (extract_lets +onlyGivenNames x; refine Keeps.keepEnv x ?_; rename' x => y)
    | (extract_lets +onlyGivenNames x; refine Keeps.keepSec x ?_; rename' x => y)
    | (extract_lets +onlyGivenNames x; refine Keeps.keepArm x ?_; rename' x => y)
    | (extract_lets +onlyGivenNames x; refine Keeps.keepMeter x ?_; rename' x => y)
    | (extract_lets +onlyGivenNames x; clear_value x; rename' x => y)
    | split | with_reducible refine Keeps.light ?_ rfl rfl rfl rfl

theorem keeps_writeFn (h : Keeps F s t) :
    ∀ x0 x1 x2 x3, (hF : [SField.env, .hostMem, .pcie, .funcs] ⊆ F := by assumption) →
    Keeps F s (writeFn x0 x1 x2 x3 t) := by
  intro x0 x1 x2 x3 hF
  have b_funcs : SField.funcs ∈ F := hF (by decide)
  have f_execEvqEnable : [SField.env, .hostMem, .pcie, .funcs] ⊆ F := List.Subset.trans (by decide) hF
  have f_writeEvqCfg : [SField.env, .hostMem, .pcie, .funcs] ⊆ F := List.Subset.trans (by decide) hF
  have f_execEvqHead : [SField.env, .hostMem, .pcie, .funcs] ⊆ F := List.Subset.trans (by decide) hF
  have f_evqSignal : [SField.env, .pcie, .funcs] ⊆ F := List.Subset.trans (by decide) hF
  unfold writeFn
  repeat'
    first
    | with_reducible assumption | with_reducible apply keeps_thenOf | with_reducible apply keeps_execEvqEnable
    | with_reducible apply keeps_writeEvqCfg | with_reducible apply keeps_execEvqHead
    | with_reducible apply keeps_evqSignal | with_reducible apply Keeps.modFn
    | split

theorem keeps_writeMsix (h : Keeps F s t) :
    ∀ x0 x1 x2, (hF : [SField.env, .pcie, .funcs] ⊆ F := by assumption) →
    Keeps F s (writeMsix x0 x1 x2 t) := by
  intro x0 x1 x2 hF
  have f_msixWrite : [SField.env, .pcie, .funcs] ⊆ F := List.Subset.trans (by decide) hF
  unfold writeMsix
  repeat'
    first
    | with_reducible assumption | with_reducible apply keeps_msixWrite
    | (extract_lets +onlyGivenNames x
       refine Keeps.cut (u := x) ?_ fun hx => ?_
       (on_goal 1 => unfold x)
       (on_goal 2 => (clear_value x; rename' x => y)))
    | (extract_lets +onlyGivenNames x; refine Keeps.keepEnv x ?_; rename' x => y)
    | (extract_lets +onlyGivenNames x; refine Keeps.keepSec x ?_; rename' x => y)
    | (extract_lets +onlyGivenNames x; refine Keeps.keepArm x ?_; rename' x => y)
    | (extract_lets +onlyGivenNames x; refine Keeps.keepMeter x ?_; rename' x => y)
    | (extract_lets +onlyGivenNames x; clear_value x; rename' x => y)
    | split | with_reducible refine Keeps.light ?_ rfl rfl rfl rfl

theorem keeps_writeRingCfg (h : Keeps F s t) :
    ∀ x0 x1, (hF : [SField.env, .hostMem, .pcie, .ctxs, .funcs] ⊆ F := by assumption) →
    Keeps F s (writeRingCfg x0 x1 t) := by
  intro x0 x1 hF
  have b_ctxs : SField.ctxs ∈ F := hF (by decide)
  have f_ringEvent : [SField.env, .hostMem, .pcie, .ctxs, .funcs] ⊆ F := List.Subset.trans (by decide) hF
  unfold writeRingCfg
  repeat'
    first
    | with_reducible assumption | with_reducible apply Keeps.modCtx | with_reducible apply keeps_ringEvent
    | (extract_lets +onlyGivenNames x
       refine Keeps.cut (u := x) ?_ fun hx => ?_
       (on_goal 1 => unfold x)
       (on_goal 2 => (clear_value x; rename' x => y)))
    | (extract_lets +onlyGivenNames x; refine Keeps.keepEnv x ?_; rename' x => y)
    | (extract_lets +onlyGivenNames x; refine Keeps.keepSec x ?_; rename' x => y)
    | (extract_lets +onlyGivenNames x; refine Keeps.keepArm x ?_; rename' x => y)
    | (extract_lets +onlyGivenNames x; refine Keeps.keepMeter x ?_; rename' x => y)
    | (extract_lets +onlyGivenNames x; clear_value x; rename' x => y)
    | split | with_reducible refine Keeps.light ?_ rfl rfl rfl rfl

theorem keeps_writeAck (h : Keeps F s t) :
    ∀ x0 x1 x2 x3, (hF : [SField.env, .hostMem, .pcie, .ctxs, .funcs] ⊆ F := by assumption) →
    Keeps F s (writeAck x0 x1 x2 x3 t) := by
  intro x0 x1 x2 x3 hF
  have f_execRingAckContinue : [SField.env, .hostMem, .pcie, .ctxs, .funcs] ⊆ F := List.Subset.trans (by decide) hF
  have f_execRingAckFlush : [SField.env, .hostMem, .pcie, .ctxs, .funcs] ⊆ F := List.Subset.trans (by decide) hF
  have f_ringEvent : [SField.env, .hostMem, .pcie, .ctxs, .funcs] ⊆ F := List.Subset.trans (by decide) hF
  unfold writeAck
  repeat'
    first
    | with_reducible assumption | with_reducible apply keeps_thenOf | with_reducible apply keeps_execRingAckContinue
    | with_reducible apply keeps_execRingAckFlush | with_reducible apply keeps_ringEvent
    | (extract_lets +onlyGivenNames x
       refine Keeps.cut (u := x) ?_ fun hx => ?_
       (on_goal 1 => unfold x)
       (on_goal 2 => (clear_value x; rename' x => y)))
    | (extract_lets +onlyGivenNames x; refine Keeps.keepEnv x ?_; rename' x => y)
    | (extract_lets +onlyGivenNames x; refine Keeps.keepSec x ?_; rename' x => y)
    | (extract_lets +onlyGivenNames x; refine Keeps.keepArm x ?_; rename' x => y)
    | (extract_lets +onlyGivenNames x; refine Keeps.keepMeter x ?_; rename' x => y)
    | (extract_lets +onlyGivenNames x; clear_value x; rename' x => y)
    | split | with_reducible refine Keeps.light ?_ rfl rfl rfl rfl

theorem keeps_writeCtxControl (h : Keeps F s t) :
    ∀ x0 x1 x2 x3, (hF : [SField.env, .hostMem, .pcie, .ctxs, .funcs] ⊆ F := by assumption) →
    Keeps F s (writeCtxControl x0 x1 x2 x3 t) := by
  intro x0 x1 x2 x3 hF
  have f_execCtxControlSuspend : [SField.env, .hostMem, .pcie, .ctxs, .funcs] ⊆ F := List.Subset.trans (by decide)
      hF
  have f_execCtxControlResume : [SField.env, .hostMem, .pcie, .ctxs, .funcs] ⊆ F := List.Subset.trans (by decide) hF
  have f_ctxEvent : [SField.env, .hostMem, .pcie, .ctxs, .funcs] ⊆ F := List.Subset.trans (by decide) hF
  unfold writeCtxControl
  repeat'
    first
    | with_reducible assumption | with_reducible apply keeps_thenOf | with_reducible apply keeps_execCtxControlSuspend
    | with_reducible apply keeps_execCtxControlResume | with_reducible apply keeps_ctxEvent
    | (extract_lets +onlyGivenNames x
       refine Keeps.cut (u := x) ?_ fun hx => ?_
       (on_goal 1 => unfold x)
       (on_goal 2 => (clear_value x; rename' x => y)))
    | (extract_lets +onlyGivenNames x; refine Keeps.keepEnv x ?_; rename' x => y)
    | (extract_lets +onlyGivenNames x; refine Keeps.keepSec x ?_; rename' x => y)
    | (extract_lets +onlyGivenNames x; refine Keeps.keepArm x ?_; rename' x => y)
    | (extract_lets +onlyGivenNames x; refine Keeps.keepMeter x ?_; rename' x => y)
    | (extract_lets +onlyGivenNames x; clear_value x; rename' x => y)
    | split | with_reducible refine Keeps.light ?_ rfl rfl rfl rfl

theorem keeps_writePage (h : Keeps F s t) :
    ∀ x0 x1 x2 x3 x4, (hF : [SField.env, .hostMem, .pcie, .ctxs, .funcs] ⊆ F := by assumption) →
    Keeps F s (writePage x0 x1 x2 x3 x4 t) := by
  intro x0 x1 x2 x3 x4 hF
  have b_ctxs : SField.ctxs ∈ F := hF (by decide)
  have f_execRingEnable : [SField.env, .hostMem, .pcie, .ctxs, .funcs] ⊆ F := List.Subset.trans (by decide) hF
  have f_execRingDisable : [SField.env, .ctxs] ⊆ F := List.Subset.trans (by decide) hF
  have f_writeAck : [SField.env, .hostMem, .pcie, .ctxs, .funcs] ⊆ F := List.Subset.trans (by decide) hF
  have f_writeRingCfg : [SField.env, .hostMem, .pcie, .ctxs, .funcs] ⊆ F := List.Subset.trans (by decide) hF
  have f_cqDue : [SField.env, .pcie, .ctxs, .funcs] ⊆ F := List.Subset.trans (by decide) hF
  have f_execAqClear : [SField.ctxs] ⊆ F := List.Subset.trans (by decide) hF
  have f_writeCtxControl : [SField.env, .hostMem, .pcie, .ctxs, .funcs] ⊆ F := List.Subset.trans (by decide) hF
  unfold writePage
  repeat'
    first
    | with_reducible assumption | with_reducible apply keeps_thenOf | with_reducible apply keeps_execRingEnable
    | with_reducible apply keeps_execRingDisable | with_reducible apply keeps_writeAck
    | with_reducible apply keeps_writeRingCfg | with_reducible apply keeps_cqDue
    | with_reducible apply keeps_execAqClear | with_reducible apply keeps_writeCtxControl
    | with_reducible apply Keeps.modCtx
    | split

theorem keeps_writeLinkCtrl (h : Keeps F s t) :
    ∀ x0 x1, (hF : [SField.env, .hostMem, .pcie, .ports, .ports2, .tiles, .ctxs, .funcs] ⊆ F := by assumption) →
    Keeps F s (writeLinkCtrl x0 x1 t) := by
  intro x0 x1 hF
  have b_ports : SField.ports ∈ F := hF (by decide)
  have f_portEnable : [SField.env, .hostMem, .pcie, .ports, .tiles, .ctxs, .funcs] ⊆ F := List.Subset.trans (by
      decide) hF
  have f_startRetrain : [SField.ports, .ports2] ⊆ F := List.Subset.trans (by decide) hF
  unfold writeLinkCtrl
  repeat'
    first
    | with_reducible assumption | with_reducible apply Keeps.modPort | with_reducible apply keeps_portEnable
    | with_reducible apply keeps_startRetrain
    | (extract_lets +onlyGivenNames x
       refine Keeps.cut (u := x) ?_ fun hx => ?_
       (on_goal 1 => unfold x)
       (on_goal 2 => (clear_value x; rename' x => y)))
    | (extract_lets +onlyGivenNames x; refine Keeps.keepEnv x ?_; rename' x => y)
    | (extract_lets +onlyGivenNames x; refine Keeps.keepSec x ?_; rename' x => y)
    | (extract_lets +onlyGivenNames x; refine Keeps.keepArm x ?_; rename' x => y)
    | (extract_lets +onlyGivenNames x; refine Keeps.keepMeter x ?_; rename' x => y)
    | (extract_lets +onlyGivenNames x; clear_value x; rename' x => y)
    | split | with_reducible refine Keeps.light ?_ rfl rfl rfl rfl

theorem keeps_clearSlabEvents (h : Keeps F s t) :
    ∀ x0 x1 x2, (hF : [SField.slabs, .slabs2, .ports] ⊆ F := by assumption) →
    Keeps F s (clearSlabEvents x0 x1 x2 t) := by
  intro x0 x1 x2 hF
  have b_slabs : SField.slabs ∈ F := hF (by decide)
  have b_slabs2 : SField.slabs2 ∈ F := hF (by decide)
  have b_ports : SField.ports ∈ F := hF (by decide)
  unfold clearSlabEvents
  repeat'
    first
    | with_reducible assumption | with_reducible apply Keeps.modSlab | with_reducible apply Keeps.modSlab2
    | with_reducible apply Keeps.modPort
    | (extract_lets +onlyGivenNames x
       refine Keeps.cut (u := x) ?_ fun hx => ?_
       (on_goal 1 => unfold x)
       (on_goal 2 => (clear_value x; rename' x => y)))
    | (extract_lets +onlyGivenNames x; refine Keeps.keepEnv x ?_; rename' x => y)
    | (extract_lets +onlyGivenNames x; refine Keeps.keepSec x ?_; rename' x => y)
    | (extract_lets +onlyGivenNames x; refine Keeps.keepArm x ?_; rename' x => y)
    | (extract_lets +onlyGivenNames x; refine Keeps.keepMeter x ?_; rename' x => y)
    | (extract_lets +onlyGivenNames x; clear_value x; rename' x => y)
    | split | with_reducible refine Keeps.light ?_ rfl rfl rfl rfl

theorem keeps_writeSlab (h : Keeps F s t) :
    ∀ x0 x1 x2 x3, (hF : [SField.env, .hostMem, .pcie, .slabs, .slabs2, .ports, .ports2, .tiles, .tiles2, .banks,
        .ctxs, .funcs, .bankMem] ⊆ F := by assumption) →
    Keeps F s (writeSlab x0 x1 x2 x3 t) := by
  intro x0 x1 x2 x3 hF
  have b_slabs : SField.slabs ∈ F := hF (by decide)
  have b_slabs2 : SField.slabs2 ∈ F := hF (by decide)
  have f_clearSlabEvents : [SField.slabs, .slabs2, .ports] ⊆ F := List.Subset.trans (by decide) hF
  have f_execBankOwnWrite : [SField.banks, .ctxs] ⊆ F := List.Subset.trans (by decide) hF
  have f_execArrayCtrlWrite : [SField.env, .hostMem, .pcie, .slabs, .tiles, .funcs] ⊆ F := List.Subset.trans (by
      decide) hF
  have f_execVtblSlopeWrite : [SField.env, .hostMem, .pcie, .slabs, .tiles2, .funcs] ⊆ F := List.Subset.trans (by
      decide) hF
  have f_execLabFlush : [SField.slabs2] ⊆ F := List.Subset.trans (by decide) hF
  have f_execPatinaCtrlWrite : [SField.slabs2] ⊆ F := List.Subset.trans (by decide) hF
  have f_execHbmScrubWrite : [SField.slabs2] ⊆ F := List.Subset.trans (by decide) hF
  have f_writeLinkCtrl : [SField.env, .hostMem, .pcie, .ports, .ports2, .tiles, .ctxs, .funcs] ⊆ F :=
      List.Subset.trans (by decide) hF
  have f_execVcReset : [SField.env, .hostMem, .pcie, .slabs2, .tiles2, .ctxs, .funcs, .bankMem] ⊆ F :=
      List.Subset.trans (by decide) hF
  unfold writeSlab
  repeat'
    first
    | with_reducible assumption | with_reducible apply keeps_clearSlabEvents | with_reducible apply keeps_thenOf
    | with_reducible apply keeps_execBankOwnWrite | with_reducible apply keeps_execArrayCtrlWrite
    | with_reducible apply Keeps.modSlab | with_reducible apply keeps_execVtblSlopeWrite
    | with_reducible apply keeps_execLabFlush | with_reducible apply keeps_execPatinaCtrlWrite
    | with_reducible apply keeps_execHbmScrubWrite | with_reducible apply Keeps.modSlab2
    | with_reducible apply keeps_writeLinkCtrl | with_reducible apply keeps_execVcReset
    | (extract_lets +onlyGivenNames x
       refine Keeps.cut (u := x) ?_ fun hx => ?_
       (on_goal 1 => unfold x)
       (on_goal 2 => (clear_value x; rename' x => y)))
    | (extract_lets +onlyGivenNames x; refine Keeps.keepEnv x ?_; rename' x => y)
    | (extract_lets +onlyGivenNames x; refine Keeps.keepSec x ?_; rename' x => y)
    | (extract_lets +onlyGivenNames x; refine Keeps.keepArm x ?_; rename' x => y)
    | (extract_lets +onlyGivenNames x; refine Keeps.keepMeter x ?_; rename' x => y)
    | (extract_lets +onlyGivenNames x; clear_value x; rename' x => y)
    | split | with_reducible refine Keeps.light ?_ rfl rfl rfl rfl

theorem keeps_writeRstCtrl (h : Keeps F s t) :
    ∀ x0 x1, (hF : [SField.env, .hostMem, .pkg, .rif, .pcie, .sec, .arm, .arm2, .mtr, .pkc, .pkc2, .winPeak, .slabs,
        .slabs2, .ports, .ports2, .tiles, .tiles2, .banks, .parts, .parts2, .ctxs, .funcs, .bankMem, .hbm] ⊆ F := by
        assumption) →
    Keeps F s (writeRstCtrl x0 x1 t) := by
  intro x0 x1 hF
  have b_pkc : SField.pkc ∈ F := hF (by decide)
  have f_execPreset : [SField.env, .hostMem, .pcie, .pkc, .slabs, .slabs2, .ports, .ports2, .tiles, .tiles2, .banks,
      .parts, .parts2, .ctxs, .funcs, .bankMem, .hbm] ⊆ F := List.Subset.trans (by decide) hF
  have f_execWarm : [SField.env, .hostMem, .pkg, .rif, .pcie, .sec, .arm, .arm2, .mtr, .pkc, .pkc2, .winPeak,
      .slabs, .slabs2, .ports, .ports2, .tiles, .tiles2, .banks, .parts, .parts2, .ctxs, .funcs, .bankMem, .hbm] ⊆
      F := List.Subset.trans (by decide) hF
  unfold writeRstCtrl
  repeat'
    first
    | with_reducible assumption | with_reducible apply keeps_thenOf | with_reducible apply keeps_execPreset
    | with_reducible apply keeps_execWarm
    | (extract_lets +onlyGivenNames x
       refine Keeps.cut (u := x) ?_ fun hx => ?_
       (on_goal 1 => unfold x)
       (on_goal 2 => (clear_value x; rename' x => y)))
    | (extract_lets +onlyGivenNames x; refine Keeps.keepEnv x ?_; rename' x => y)
    | (extract_lets +onlyGivenNames x; refine Keeps.keepSec x ?_; rename' x => y)
    | (extract_lets +onlyGivenNames x; refine Keeps.keepArm x ?_; rename' x => y)
    | (extract_lets +onlyGivenNames x; refine Keeps.keepMeter x ?_; rename' x => y)
    | (extract_lets +onlyGivenNames x; clear_value x; rename' x => y)
    | split | with_reducible refine Keeps.light ?_ rfl rfl rfl rfl

theorem keeps_writePkc (h : Keeps F s t) :
    ∀ x0 x1 x2, (hF : [SField.env, .hostMem, .pkg, .rif, .pcie, .sec, .arm, .arm2, .mtr, .pkc, .pkc2, .winPeak,
        .slabs, .slabs2, .ports, .ports2, .tiles, .tiles2, .banks, .parts, .parts2, .ctxs, .funcs, .bankMem, .hbm] ⊆
        F := by assumption) →
    Keeps F s (writePkc x0 x1 x2 t) := by
  intro x0 x1 x2 hF
  have b_pkc : SField.pkc ∈ F := hF (by decide)
  have f_writeRstCtrl : [SField.env, .hostMem, .pkg, .rif, .pcie, .sec, .arm, .arm2, .mtr, .pkc, .pkc2, .winPeak,
      .slabs, .slabs2, .ports, .ports2, .tiles, .tiles2, .banks, .parts, .parts2, .ctxs, .funcs, .bankMem, .hbm] ⊆
      F := List.Subset.trans (by decide) hF
  have f_execStby : [SField.env, .hostMem, .pkg, .rif, .pcie, .sec, .arm, .arm2, .mtr, .pkc, .pkc2, .winPeak, .slabs,
      .slabs2, .ports, .ports2, .tiles, .tiles2, .banks, .parts, .parts2, .ctxs, .funcs, .bankMem, .hbm] ⊆ F :=
      List.Subset.trans (by decide) hF
  have f_execPwrSlabOffWrite : [SField.env, .hostMem, .pcie, .pkc, .pkc2, .slabs, .slabs2, .tiles, .tiles2, .banks,
      .funcs, .bankMem] ⊆ F := List.Subset.trans (by decide) hF
  unfold writePkc
  repeat'
    first
    | with_reducible assumption | with_reducible apply keeps_writeRstCtrl | with_reducible apply keeps_thenOf
    | with_reducible apply keeps_execStby | with_reducible apply keeps_execPwrSlabOffWrite
    | (extract_lets +onlyGivenNames x
       refine Keeps.cut (u := x) ?_ fun hx => ?_
       (on_goal 1 => unfold x)
       (on_goal 2 => (clear_value x; rename' x => y)))
    | (extract_lets +onlyGivenNames x; refine Keeps.keepEnv x ?_; rename' x => y)
    | (extract_lets +onlyGivenNames x; refine Keeps.keepSec x ?_; rename' x => y)
    | (extract_lets +onlyGivenNames x; refine Keeps.keepArm x ?_; rename' x => y)
    | (extract_lets +onlyGivenNames x; refine Keeps.keepMeter x ?_; rename' x => y)
    | (extract_lets +onlyGivenNames x; clear_value x; rename' x => y)
    | split | with_reducible refine Keeps.light ?_ rfl rfl rfl rfl

theorem keeps_Loc_write (h : Keeps F s t) :
    ∀ x0 x1 x2, (hF : [SField.env, .hostMem, .pkg, .rif, .pcie, .sec, .arm, .arm2, .mtr, .pkc, .pkc2, .winPeak,
        .slabs, .slabs2, .ports, .ports2, .tiles, .tiles2, .banks, .parts, .parts2, .ctxs, .funcs, .bankMem, .hbm] ⊆
        F := by assumption) →
    Keeps F s (Loc.write x0 x1 x2 t) := by
  intro x0 x1 x2 hF
  have f_writePkg : [SField.env, .hostMem, .pkg, .pcie, .funcs] ⊆ F := List.Subset.trans (by decide) hF
  have f_writeRif : [SField.rif] ⊆ F := List.Subset.trans (by decide) hF
  have f_writePcie : [SField.pcie] ⊆ F := List.Subset.trans (by decide) hF
  have f_writeSec : [SField.env, .hostMem, .pcie, .sec, .funcs] ⊆ F := List.Subset.trans (by decide) hF
  have f_writeArm : [SField.env, .hostMem, .pcie, .arm, .arm2, .funcs] ⊆ F := List.Subset.trans (by decide) hF
  have f_writeMtr : [SField.env, .hostMem, .pcie, .mtr, .funcs] ⊆ F := List.Subset.trans (by decide) hF
  have f_writeSeq : [SField.winPeak, .parts2] ⊆ F := List.Subset.trans (by decide) hF
  have f_writeKv : [SField.env, .hostMem, .pcie, .parts, .parts2, .funcs] ⊆ F := List.Subset.trans (by decide) hF
  have f_writeSched : [SField.parts, .parts2] ⊆ F := List.Subset.trans (by decide) hF
  have f_writeFn : [SField.env, .hostMem, .pcie, .funcs] ⊆ F := List.Subset.trans (by decide) hF
  have f_writeMsix : [SField.env, .pcie, .funcs] ⊆ F := List.Subset.trans (by decide) hF
  have f_writePage : [SField.env, .hostMem, .pcie, .ctxs, .funcs] ⊆ F := List.Subset.trans (by decide) hF
  have f_writeSlab : [SField.env, .hostMem, .pcie, .slabs, .slabs2, .ports, .ports2, .tiles, .tiles2, .banks, .ctxs,
      .funcs, .bankMem] ⊆ F := List.Subset.trans (by decide) hF
  have f_writePkc : [SField.env, .hostMem, .pkg, .rif, .pcie, .sec, .arm, .arm2, .mtr, .pkc, .pkc2, .winPeak,
      .slabs, .slabs2, .ports, .ports2, .tiles, .tiles2, .banks, .parts, .parts2, .ctxs, .funcs, .bankMem, .hbm] ⊆
      F := List.Subset.trans (by decide) hF
  unfold Loc.write
  repeat'
    first
    | with_reducible assumption | with_reducible apply keeps_writePkg | with_reducible apply keeps_writeRif
    | with_reducible apply keeps_writePcie | with_reducible apply keeps_writeSec | with_reducible apply keeps_writeArm
    | with_reducible apply keeps_writeMtr | with_reducible apply keeps_writeSeq | with_reducible apply keeps_writeKv
    | with_reducible apply keeps_writeSched | with_reducible apply keeps_writeFn
    | with_reducible apply keeps_writeMsix | with_reducible apply keeps_writePage
    | with_reducible apply keeps_writeSlab | with_reducible apply keeps_writePkc
    | (extract_lets +onlyGivenNames x
       refine Keeps.cut (u := x) ?_ fun hx => ?_
       (on_goal 1 => unfold x)
       (on_goal 2 => (clear_value x; rename' x => y)))
    | (extract_lets +onlyGivenNames x; refine Keeps.keepEnv x ?_; rename' x => y)
    | (extract_lets +onlyGivenNames x; refine Keeps.keepSec x ?_; rename' x => y)
    | (extract_lets +onlyGivenNames x; refine Keeps.keepArm x ?_; rename' x => y)
    | (extract_lets +onlyGivenNames x; refine Keeps.keepMeter x ?_; rename' x => y)
    | (extract_lets +onlyGivenNames x; clear_value x; rename' x => y)
    | split | with_reducible refine Keeps.light ?_ rfl rfl rfl rfl

theorem keeps_indAdvance (h : Keeps F s t) :
    (hF : [SField.rif] ⊆ F := by assumption) →
    Keeps F s (indAdvance t) := by
  intro hF
  have b_rif : SField.rif ∈ F := hF (by decide)
  unfold indAdvance
  repeat'
    first
    | with_reducible assumption
    | (extract_lets +onlyGivenNames x
       refine Keeps.cut (u := x) ?_ fun hx => ?_
       (on_goal 1 => unfold x)
       (on_goal 2 => (clear_value x; rename' x => y)))
    | (extract_lets +onlyGivenNames x; refine Keeps.keepEnv x ?_; rename' x => y)
    | (extract_lets +onlyGivenNames x; refine Keeps.keepSec x ?_; rename' x => y)
    | (extract_lets +onlyGivenNames x; refine Keeps.keepArm x ?_; rename' x => y)
    | (extract_lets +onlyGivenNames x; refine Keeps.keepMeter x ?_; rename' x => y)
    | (extract_lets +onlyGivenNames x; clear_value x; rename' x => y)
    | split | with_reducible refine Keeps.light ?_ rfl rfl rfl rfl

theorem keeps_indWrite (h : Keeps F s t) :
    ∀ x0 x1, (hF : [SField.env, .hostMem, .pkg, .rif, .pcie, .sec, .arm, .arm2, .mtr, .pkc, .pkc2, .winPeak, .slabs,
        .slabs2, .ports, .ports2, .tiles, .tiles2, .banks, .parts, .parts2, .ctxs, .funcs, .bankMem, .hbm] ⊆ F := by
        assumption) →
    Keeps F s (indWrite x0 x1 t) := by
  intro x0 x1 hF
  have f_busWriteError : [SField.env, .hostMem, .rif, .pcie, .funcs] ⊆ F := List.Subset.trans (by decide) hF
  have f_indAdvance : [SField.rif] ⊆ F := List.Subset.trans (by decide) hF
  have f_Loc_write : [SField.env, .hostMem, .pkg, .rif, .pcie, .sec, .arm, .arm2, .mtr, .pkc, .pkc2, .winPeak,
      .slabs, .slabs2, .ports, .ports2, .tiles, .tiles2, .banks, .parts, .parts2, .ctxs, .funcs, .bankMem, .hbm] ⊆
      F := List.Subset.trans (by decide) hF
  unfold indWrite
  repeat'
    first
    | with_reducible assumption | with_reducible apply keeps_busWriteError | with_reducible apply keeps_indAdvance
    | with_reducible apply keeps_Loc_write
    | (extract_lets +onlyGivenNames x
       refine Keeps.cut (u := x) ?_ fun hx => ?_
       (on_goal 1 => unfold x)
       (on_goal 2 => (clear_value x; rename' x => y)))
    | (extract_lets +onlyGivenNames x; refine Keeps.keepEnv x ?_; rename' x => y)
    | (extract_lets +onlyGivenNames x; refine Keeps.keepSec x ?_; rename' x => y)
    | (extract_lets +onlyGivenNames x; refine Keeps.keepArm x ?_; rename' x => y)
    | (extract_lets +onlyGivenNames x; refine Keeps.keepMeter x ?_; rename' x => y)
    | (extract_lets +onlyGivenNames x; clear_value x; rename' x => y)
    | split | with_reducible refine Keeps.light ?_ rfl rfl rfl rfl

theorem keeps_indRead (h : Keeps F s t) :
    (hF : [SField.env, .rif] ⊆ F := by assumption) →
    Keeps F s (indRead t) := by
  intro hF
  have b_env : SField.env ∈ F := hF (by decide)
  have f_busReadError : [SField.env, .rif] ⊆ F := List.Subset.trans (by decide) hF
  have f_indAdvance : [SField.rif] ⊆ F := List.Subset.trans (by decide) hF
  unfold indRead
  repeat'
    first
    | with_reducible assumption | with_reducible apply keeps_busReadError | with_reducible apply Keeps.answer
    | with_reducible apply keeps_indAdvance
    | (extract_lets +onlyGivenNames x
       refine Keeps.cut (u := x) ?_ fun hx => ?_
       (on_goal 1 => unfold x)
       (on_goal 2 => (clear_value x; rename' x => y)))
    | (extract_lets +onlyGivenNames x; refine Keeps.keepEnv x ?_; rename' x => y)
    | (extract_lets +onlyGivenNames x; refine Keeps.keepSec x ?_; rename' x => y)
    | (extract_lets +onlyGivenNames x; refine Keeps.keepArm x ?_; rename' x => y)
    | (extract_lets +onlyGivenNames x; refine Keeps.keepMeter x ?_; rename' x => y)
    | (extract_lets +onlyGivenNames x; clear_value x; rename' x => y)
    | split | with_reducible refine Keeps.light ?_ rfl rfl rfl rfl

theorem keeps_execIndDataAccess (h : Keeps F s t) :
    ∀ x0 x1, (hF : [SField.env, .hostMem, .pkg, .rif, .pcie, .sec, .arm, .arm2, .mtr, .pkc, .pkc2, .winPeak, .slabs,
        .slabs2, .ports, .ports2, .tiles, .tiles2, .banks, .parts, .parts2, .ctxs, .funcs, .bankMem, .hbm] ⊆ F := by
        assumption) →
    Yields F s (execIndDataAccess x0 x1 t) := by
  intro x0 x1 hF
  have f_indWrite : [SField.env, .hostMem, .pkg, .rif, .pcie, .sec, .arm, .arm2, .mtr, .pkc, .pkc2, .winPeak,
      .slabs, .slabs2, .ports, .ports2, .tiles, .tiles2, .banks, .parts, .parts2, .ctxs, .funcs, .bankMem, .hbm] ⊆
      F := List.Subset.trans (by decide) hF
  have f_indRead : [SField.env, .rif] ⊆ F := List.Subset.trans (by decide) hF
  unfold execIndDataAccess
  repeat'
    first
    | with_reducible assumption | with_reducible apply keeps_indWrite | with_reducible apply keeps_indRead
    | with_reducible apply Yields.next
    | (extract_lets +onlyGivenNames x
       refine Yields.cut (u := x) ?_ fun hx => ?_
       (on_goal 1 => unfold x)
       (on_goal 2 => (clear_value x; rename' x => y)))
    | (extract_lets +onlyGivenNames x
       refine Keeps.cut (u := x) ?_ fun hx => ?_
       (on_goal 1 => unfold x)
       (on_goal 2 => (clear_value x; rename' x => y)))
    | (extract_lets +onlyGivenNames x; refine Keeps.keepEnv x ?_; rename' x => y)
    | (extract_lets +onlyGivenNames x; refine Keeps.keepSec x ?_; rename' x => y)
    | (extract_lets +onlyGivenNames x; refine Keeps.keepArm x ?_; rename' x => y)
    | (extract_lets +onlyGivenNames x; refine Keeps.keepMeter x ?_; rename' x => y)
    | (extract_lets +onlyGivenNames x; clear_value x; rename' x => y)
    | split | with_reducible refine Keeps.light ?_ rfl rfl rfl rfl

theorem keeps_barWrite (h : Keeps F s t) :
    ∀ x0 x1 x2 x3 x4, (hF : [SField.env, .hostMem, .pkg, .rif, .pcie, .sec, .arm, .arm2, .mtr, .pkc, .pkc2, .winPeak,
        .slabs, .slabs2, .ports, .ports2, .tiles, .tiles2, .banks, .parts, .parts2, .ctxs, .funcs, .bankMem, .hbm] ⊆
        F := by assumption) →
    Keeps F s (barWrite x0 x1 x2 x3 x4 t) := by
  intro x0 x1 x2 x3 x4 hF
  have f_busWriteError : [SField.env, .hostMem, .rif, .pcie, .funcs] ⊆ F := List.Subset.trans (by decide) hF
  have f_indWrite : [SField.env, .hostMem, .pkg, .rif, .pcie, .sec, .arm, .arm2, .mtr, .pkc, .pkc2, .winPeak,
      .slabs, .slabs2, .ports, .ports2, .tiles, .tiles2, .banks, .parts, .parts2, .ctxs, .funcs, .bankMem, .hbm] ⊆
      F := List.Subset.trans (by decide) hF
  have f_Loc_write : [SField.env, .hostMem, .pkg, .rif, .pcie, .sec, .arm, .arm2, .mtr, .pkc, .pkc2, .winPeak,
      .slabs, .slabs2, .ports, .ports2, .tiles, .tiles2, .banks, .parts, .parts2, .ctxs, .funcs, .bankMem, .hbm] ⊆
      F := List.Subset.trans (by decide) hF
  unfold barWrite
  repeat'
    first
    | with_reducible assumption | with_reducible apply keeps_busWriteError | with_reducible apply keeps_indWrite
    | with_reducible apply keeps_Loc_write
    | (extract_lets +onlyGivenNames x
       refine Keeps.cut (u := x) ?_ fun hx => ?_
       (on_goal 1 => unfold x)
       (on_goal 2 => (clear_value x; rename' x => y)))
    | (extract_lets +onlyGivenNames x; refine Keeps.keepEnv x ?_; rename' x => y)
    | (extract_lets +onlyGivenNames x; refine Keeps.keepSec x ?_; rename' x => y)
    | (extract_lets +onlyGivenNames x; refine Keeps.keepArm x ?_; rename' x => y)
    | (extract_lets +onlyGivenNames x; refine Keeps.keepMeter x ?_; rename' x => y)
    | (extract_lets +onlyGivenNames x; clear_value x; rename' x => y)
    | split | with_reducible refine Keeps.light ?_ rfl rfl rfl rfl

theorem keeps_bar0Write (h : Keeps F s t) :
    ∀ x0 x1 x2, (hF : [SField.env, .hostMem, .pkg, .rif, .pcie, .sec, .arm, .arm2, .mtr, .pkc, .pkc2, .winPeak,
        .slabs, .slabs2, .ports, .ports2, .tiles, .tiles2, .banks, .parts, .parts2, .ctxs, .funcs, .bankMem, .hbm] ⊆
        F := by assumption) →
    Keeps F s (bar0Write x0 x1 x2 t) := by
  intro x0 x1 x2 hF
  have f_barWrite : [SField.env, .hostMem, .pkg, .rif, .pcie, .sec, .arm, .arm2, .mtr, .pkc, .pkc2, .winPeak,
      .slabs, .slabs2, .ports, .ports2, .tiles, .tiles2, .banks, .parts, .parts2, .ctxs, .funcs, .bankMem, .hbm] ⊆
      F := List.Subset.trans (by decide) hF
  have f_busWriteError : [SField.env, .hostMem, .rif, .pcie, .funcs] ⊆ F := List.Subset.trans (by decide) hF
  unfold bar0Write
  repeat'
    first
    | with_reducible assumption | with_reducible (refine Keeps.forAll ?_ _ _ fun _ _ _ => ?_)
    | with_reducible apply keeps_barWrite | with_reducible apply keeps_busWriteError
    | (extract_lets +onlyGivenNames x
       refine Keeps.cut (u := x) ?_ fun hx => ?_
       (on_goal 1 => unfold x)
       (on_goal 2 => (clear_value x; rename' x => y)))
    | (extract_lets +onlyGivenNames x; refine Keeps.keepEnv x ?_; rename' x => y)
    | (extract_lets +onlyGivenNames x; refine Keeps.keepSec x ?_; rename' x => y)
    | (extract_lets +onlyGivenNames x; refine Keeps.keepArm x ?_; rename' x => y)
    | (extract_lets +onlyGivenNames x; refine Keeps.keepMeter x ?_; rename' x => y)
    | (extract_lets +onlyGivenNames x; clear_value x; rename' x => y)
    | split | with_reducible refine Keeps.light ?_ rfl rfl rfl rfl

theorem keeps_bar2Write (h : Keeps F s t) :
    ∀ x0 x1 x2, (hF : [SField.env, .hostMem, .rif, .pcie, .ctxs, .funcs] ⊆ F := by assumption) →
    Keeps F s (bar2Write x0 x1 x2 t) := by
  intro x0 x1 x2 hF
  have f_busWriteError : [SField.env, .hostMem, .rif, .pcie, .funcs] ⊆ F := List.Subset.trans (by decide) hF
  have f_execSqTail : [SField.env, .hostMem, .pcie, .ctxs, .funcs] ⊆ F := List.Subset.trans (by decide) hF
  have f_execCqHead : [SField.env, .hostMem, .pcie, .ctxs, .funcs] ⊆ F := List.Subset.trans (by decide) hF
  unfold bar2Write
  repeat'
    first
    | with_reducible assumption | with_reducible (refine Keeps.forAll ?_ _ _ fun _ _ _ => ?_)
    | with_reducible apply keeps_busWriteError | with_reducible apply keeps_thenOf
    | with_reducible apply keeps_execSqTail | with_reducible apply keeps_execCqHead
    | (extract_lets +onlyGivenNames x
       refine Keeps.cut (u := x) ?_ fun hx => ?_
       (on_goal 1 => unfold x)
       (on_goal 2 => (clear_value x; rename' x => y)))
    | (extract_lets +onlyGivenNames x; refine Keeps.keepEnv x ?_; rename' x => y)
    | (extract_lets +onlyGivenNames x; refine Keeps.keepSec x ?_; rename' x => y)
    | (extract_lets +onlyGivenNames x; refine Keeps.keepArm x ?_; rename' x => y)
    | (extract_lets +onlyGivenNames x; refine Keeps.keepMeter x ?_; rename' x => y)
    | (extract_lets +onlyGivenNames x; clear_value x; rename' x => y)
    | split | with_reducible refine Keeps.light ?_ rfl rfl rfl rfl

theorem keeps_execRegisterWrite (h : Keeps F s t) :
    ∀ x0 x1 x2 x3, (hF : [SField.env, .hostMem, .pkg, .rif, .pcie, .sec, .arm, .arm2, .mtr, .pkc, .pkc2, .winPeak,
        .slabs, .slabs2, .ports, .ports2, .tiles, .tiles2, .banks, .parts, .parts2, .ctxs, .funcs, .bankMem, .hbm] ⊆
        F := by assumption) →
    Yields F s (execRegisterWrite x0 x1 x2 x3 t) := by
  intro x0 x1 x2 x3 hF
  have f_bar0Write : [SField.env, .hostMem, .pkg, .rif, .pcie, .sec, .arm, .arm2, .mtr, .pkc, .pkc2, .winPeak,
      .slabs, .slabs2, .ports, .ports2, .tiles, .tiles2, .banks, .parts, .parts2, .ctxs, .funcs, .bankMem, .hbm] ⊆ F
      := List.Subset.trans (by decide) hF
  have f_bar2Write : [SField.env, .hostMem, .rif, .pcie, .ctxs, .funcs] ⊆ F := List.Subset.trans (by decide) hF
  have f_execHostWindowWrite : [SField.env, .hostMem, .rif, .pcie, .arm, .slabs, .slabs2, .ports, .ports2, .tiles,
      .tiles2, .banks, .parts2, .ctxs, .funcs, .bankMem, .hbm] ⊆ F := List.Subset.trans (by decide) hF
  unfold execRegisterWrite
  repeat'
    first
    | with_reducible assumption | with_reducible apply keeps_bar0Write | with_reducible apply keeps_bar2Write
    | with_reducible apply keeps_execHostWindowWrite | with_reducible apply Yields.next
    | split

theorem keeps_execAliasViewWrite (h : Keeps F s t) :
    ∀ x0 x1 x2 x3, (hF : [SField.env, .hostMem, .pkg, .rif, .pcie, .sec, .arm, .arm2, .mtr, .pkc, .pkc2, .winPeak,
        .slabs, .slabs2, .ports, .ports2, .tiles, .tiles2, .banks, .parts, .parts2, .ctxs, .funcs, .bankMem, .hbm] ⊆
        F := by assumption) →
    Yields F s (execAliasViewWrite x0 x1 x2 x3 t) := by
  intro x0 x1 x2 x3 hF
  have f_barWrite : [SField.env, .hostMem, .pkg, .rif, .pcie, .sec, .arm, .arm2, .mtr, .pkc, .pkc2, .winPeak,
      .slabs, .slabs2, .ports, .ports2, .tiles, .tiles2, .banks, .parts, .parts2, .ctxs, .funcs, .bankMem, .hbm] ⊆
      F := List.Subset.trans (by decide) hF
  unfold execAliasViewWrite
  repeat'
    first
    | with_reducible assumption | with_reducible apply keeps_barWrite | with_reducible apply Yields.next
    | (extract_lets +onlyGivenNames x
       refine Yields.cut (u := x) ?_ fun hx => ?_
       (on_goal 1 => unfold x)
       (on_goal 2 => (clear_value x; rename' x => y)))
    | (extract_lets +onlyGivenNames x
       refine Keeps.cut (u := x) ?_ fun hx => ?_
       (on_goal 1 => unfold x)
       (on_goal 2 => (clear_value x; rename' x => y)))
    | (extract_lets +onlyGivenNames x; refine Keeps.keepEnv x ?_; rename' x => y)
    | (extract_lets +onlyGivenNames x; refine Keeps.keepSec x ?_; rename' x => y)
    | (extract_lets +onlyGivenNames x; refine Keeps.keepArm x ?_; rename' x => y)
    | (extract_lets +onlyGivenNames x; refine Keeps.keepMeter x ?_; rename' x => y)
    | (extract_lets +onlyGivenNames x; clear_value x; rename' x => y)
    | split | with_reducible refine Keeps.light ?_ rfl rfl rfl rfl

theorem keeps_execIndirectTimeout (h : Keeps F s t) :
    ∀ x0 x1, (hF : [SField.env, .hostMem, .rif, .pcie, .funcs] ⊆ F := by assumption) →
    Yields F s (execIndirectTimeout x0 x1 t) := by
  intro x0 x1 hF
  have b_env : SField.env ∈ F := hF (by decide)
  have f_busWriteError : [SField.env, .hostMem, .rif, .pcie, .funcs] ⊆ F := List.Subset.trans (by decide) hF
  have f_busReadError : [SField.env, .rif] ⊆ F := List.Subset.trans (by decide) hF
  unfold execIndirectTimeout
  repeat'
    first
    | with_reducible assumption | with_reducible apply keeps_busWriteError | with_reducible apply keeps_busReadError
    | with_reducible apply Keeps.answer | with_reducible apply Yields.next
    | (extract_lets +onlyGivenNames x
       refine Yields.cut (u := x) ?_ fun hx => ?_
       (on_goal 1 => unfold x)
       (on_goal 2 => (clear_value x; rename' x => y)))
    | (extract_lets +onlyGivenNames x
       refine Keeps.cut (u := x) ?_ fun hx => ?_
       (on_goal 1 => unfold x)
       (on_goal 2 => (clear_value x; rename' x => y)))
    | (extract_lets +onlyGivenNames x; refine Keeps.keepEnv x ?_; rename' x => y)
    | (extract_lets +onlyGivenNames x; refine Keeps.keepSec x ?_; rename' x => y)
    | (extract_lets +onlyGivenNames x; refine Keeps.keepArm x ?_; rename' x => y)
    | (extract_lets +onlyGivenNames x; refine Keeps.keepMeter x ?_; rename' x => y)
    | (extract_lets +onlyGivenNames x; clear_value x; rename' x => y)
    | split | with_reducible refine Keeps.light ?_ rfl rfl rfl rfl

theorem keeps_jtagAnswer (h : Keeps F s t) :
    ∀ x0 x1 x2, (hF : [SField.env] ⊆ F := by assumption) →
    Keeps F s (jtagAnswer x0 x1 x2 t) := by
  intro x0 x1 x2 hF
  have b_env : SField.env ∈ F := hF (by decide)
  unfold jtagAnswer
  repeat'
    first
    | with_reducible assumption | with_reducible apply Keeps.takeFree | with_reducible apply Keeps.answer
    | (extract_lets +onlyGivenNames x
       refine Keeps.cut (u := x) ?_ fun hx => ?_
       (on_goal 1 => unfold x)
       (on_goal 2 => (clear_value x; rename' x => y)))
    | (extract_lets +onlyGivenNames x; refine Keeps.keepEnv x ?_; rename' x => y)
    | (extract_lets +onlyGivenNames x; refine Keeps.keepSec x ?_; rename' x => y)
    | (extract_lets +onlyGivenNames x; refine Keeps.keepArm x ?_; rename' x => y)
    | (extract_lets +onlyGivenNames x; refine Keeps.keepMeter x ?_; rename' x => y)
    | (extract_lets +onlyGivenNames x; clear_value x; rename' x => y)
    | split | with_reducible refine Keeps.light ?_ rfl rfl rfl rfl

theorem keeps_execRegAccess (h : Keeps F s t) :
    ∀ x0 x1 x2, (hF : [SField.env, .hostMem, .pkg, .rif, .pcie, .sec, .arm, .arm2, .mtr, .pkc, .pkc2, .winPeak,
        .slabs, .slabs2, .ports, .ports2, .tiles, .tiles2, .banks, .parts, .parts2, .ctxs, .funcs, .bankMem, .hbm] ⊆
        F := by assumption) →
    Yields F s (execRegAccess x0 x1 x2 t) := by
  intro x0 x1 x2 hF
  have b_pkc2 : SField.pkc2 ∈ F := hF (by decide)
  have f_jtagAnswer : [SField.env] ⊆ F := List.Subset.trans (by decide) hF
  have f_Loc_write : [SField.env, .hostMem, .pkg, .rif, .pcie, .sec, .arm, .arm2, .mtr, .pkc, .pkc2, .winPeak,
      .slabs, .slabs2, .ports, .ports2, .tiles, .tiles2, .banks, .parts, .parts2, .ctxs, .funcs, .bankMem, .hbm] ⊆
      F := List.Subset.trans (by decide) hF
  unfold execRegAccess
  repeat'
    first
    | with_reducible assumption | with_reducible apply keeps_jtagAnswer | with_reducible apply keeps_Loc_write
    | with_reducible apply Yields.next
    | (extract_lets +onlyGivenNames x
       refine Yields.cut (u := x) ?_ fun hx => ?_
       (on_goal 1 => unfold x)
       (on_goal 2 => (clear_value x; rename' x => y)))
    | (extract_lets +onlyGivenNames x
       refine Keeps.cut (u := x) ?_ fun hx => ?_
       (on_goal 1 => unfold x)
       (on_goal 2 => (clear_value x; rename' x => y)))
    | (extract_lets +onlyGivenNames x; refine Keeps.keepEnv x ?_; rename' x => y)
    | (extract_lets +onlyGivenNames x; refine Keeps.keepSec x ?_; rename' x => y)
    | (extract_lets +onlyGivenNames x; refine Keeps.keepArm x ?_; rename' x => y)
    | (extract_lets +onlyGivenNames x; refine Keeps.keepMeter x ?_; rename' x => y)
    | (extract_lets +onlyGivenNames x; clear_value x; rename' x => y)
    | split | with_reducible refine Keeps.light ?_ rfl rfl rfl rfl

theorem keeps_memWord (h : Keeps F s t) :
    ∀ x0 x1, (hF : [SField.env, .hostMem, .pcie, .slabs2, .ports, .ports2, .tiles, .banks, .parts2, .ctxs, .funcs,
        .hbm] ⊆ F := by assumption) →
    Keeps F s (memWord x0 x1 t) := by
  intro x0 x1 hF
  have f_countAcc : [SField.env, .slabs2, .ctxs] ⊆ F := List.Subset.trans (by decide) hF
  have f_jtagAnswer : [SField.env] ⊆ F := List.Subset.trans (by decide) hF
  have f_hbmFault : [SField.env, .hostMem, .pcie, .slabs2, .ports, .ports2, .tiles, .banks, .parts2, .ctxs, .funcs,
      .hbm] ⊆ F := List.Subset.trans (by decide) hF
  have f_hbmWrite : [SField.hbm] ⊆ F := List.Subset.trans (by decide) hF
  unfold memWord
  repeat'
    first
    | with_reducible assumption | with_reducible apply keeps_countAcc | with_reducible apply keeps_jtagAnswer
    | with_reducible apply keeps_hbmFault | with_reducible apply keeps_hbmWrite
    | (extract_lets +onlyGivenNames x
       refine Keeps.cut (u := x) ?_ fun hx => ?_
       (on_goal 1 => unfold x)
       (on_goal 2 => (clear_value x; rename' x => y)))
    | (extract_lets +onlyGivenNames x; refine Keeps.keepEnv x ?_; rename' x => y)
    | (extract_lets +onlyGivenNames x; refine Keeps.keepSec x ?_; rename' x => y)
    | (extract_lets +onlyGivenNames x; refine Keeps.keepArm x ?_; rename' x => y)
    | (extract_lets +onlyGivenNames x; refine Keeps.keepMeter x ?_; rename' x => y)
    | (extract_lets +onlyGivenNames x; clear_value x; rename' x => y)
    | split

theorem keeps_memHbm (h : Keeps F s t) :
    ∀ x0 x1, (hF : [SField.env, .hostMem, .pcie, .slabs2, .ports, .ports2, .tiles, .banks, .parts2, .ctxs, .funcs,
        .hbm] ⊆ F := by assumption) →
    Keeps F s (memHbm x0 x1 t) := by
  intro x0 x1 hF
  have f_jtagAnswer : [SField.env] ⊆ F := List.Subset.trans (by decide) hF
  have f_opAccess : [SField.ctxs] ⊆ F := List.Subset.trans (by decide) hF
  have f_memWord : [SField.env, .hostMem, .pcie, .slabs2, .ports, .ports2, .tiles, .banks, .parts2, .ctxs, .funcs,
      .hbm] ⊆ F := List.Subset.trans (by decide) hF
  unfold memHbm
  repeat'
    first
    | with_reducible assumption | with_reducible apply keeps_jtagAnswer | with_reducible apply keeps_opAccess
    | with_reducible apply keeps_memWord | with_reducible (refine Keeps.foldl ?_ _ _ fun _ _ _ => ?_)
    | (extract_lets +onlyGivenNames x
       refine Keeps.cut (u := x) ?_ fun hx => ?_
       (on_goal 1 => unfold x)
       (on_goal 2 => (clear_value x; rename' x => y)))
    | (extract_lets +onlyGivenNames x; refine Keeps.keepEnv x ?_; rename' x => y)
    | (extract_lets +onlyGivenNames x; refine Keeps.keepSec x ?_; rename' x => y)
    | (extract_lets +onlyGivenNames x; refine Keeps.keepArm x ?_; rename' x => y)
    | (extract_lets +onlyGivenNames x; refine Keeps.keepMeter x ?_; rename' x => y)
    | (extract_lets +onlyGivenNames x; clear_value x; rename' x => y)
    | split

theorem keeps_memBank (h : Keeps F s t) :
    ∀ x0 x1, (hF : [SField.env, .ctxs, .bankMem] ⊆ F := by assumption) →
    Keeps F s (memBank x0 x1 t) := by
  intro x0 x1 hF
  have f_jtagAnswer : [SField.env] ⊆ F := List.Subset.trans (by decide) hF
  have f_opAccess : [SField.ctxs] ⊆ F := List.Subset.trans (by decide) hF
  have f_bankWrite : [SField.bankMem] ⊆ F := List.Subset.trans (by decide) hF
  unfold memBank
  repeat'
    first
    | with_reducible assumption | with_reducible apply keeps_jtagAnswer | with_reducible apply keeps_opAccess
    | with_reducible apply keeps_bankWrite
    | (extract_lets +onlyGivenNames x
       refine Keeps.cut (u := x) ?_ fun hx => ?_
       (on_goal 1 => unfold x)
       (on_goal 2 => (clear_value x; rename' x => y)))
    | (extract_lets +onlyGivenNames x; refine Keeps.keepEnv x ?_; rename' x => y)
    | (extract_lets +onlyGivenNames x; refine Keeps.keepSec x ?_; rename' x => y)
    | (extract_lets +onlyGivenNames x; refine Keeps.keepArm x ?_; rename' x => y)
    | (extract_lets +onlyGivenNames x; refine Keeps.keepMeter x ?_; rename' x => y)
    | (extract_lets +onlyGivenNames x; clear_value x; rename' x => y)
    | split | with_reducible refine Keeps.light ?_ rfl rfl rfl rfl

theorem keeps_execMemAccess (h : Keeps F s t) :
    ∀ x0 x1 x2, (hF : [SField.env, .hostMem, .pcie, .pkc2, .slabs2, .ports, .ports2, .tiles, .banks, .parts2, .ctxs,
        .funcs, .bankMem, .hbm] ⊆ F := by assumption) →
    Yields F s (execMemAccess x0 x1 x2 t) := by
  intro x0 x1 x2 hF
  have b_pkc2 : SField.pkc2 ∈ F := hF (by decide)
  have f_jtagAnswer : [SField.env] ⊆ F := List.Subset.trans (by decide) hF
  have f_memHbm : [SField.env, .hostMem, .pcie, .slabs2, .ports, .ports2, .tiles, .banks, .parts2, .ctxs, .funcs,
      .hbm] ⊆ F := List.Subset.trans (by decide) hF
  have f_memBank : [SField.env, .ctxs, .bankMem] ⊆ F := List.Subset.trans (by decide) hF
  unfold execMemAccess
  repeat'
    first
    | with_reducible assumption | with_reducible apply keeps_jtagAnswer | with_reducible apply keeps_memHbm
    | with_reducible apply keeps_memBank | with_reducible apply Yields.next
    | (extract_lets +onlyGivenNames x
       refine Yields.cut (u := x) ?_ fun hx => ?_
       (on_goal 1 => unfold x)
       (on_goal 2 => (clear_value x; rename' x => y)))
    | (extract_lets +onlyGivenNames x
       refine Keeps.cut (u := x) ?_ fun hx => ?_
       (on_goal 1 => unfold x)
       (on_goal 2 => (clear_value x; rename' x => y)))
    | (extract_lets +onlyGivenNames x; refine Keeps.keepEnv x ?_; rename' x => y)
    | (extract_lets +onlyGivenNames x; refine Keeps.keepSec x ?_; rename' x => y)
    | (extract_lets +onlyGivenNames x; refine Keeps.keepArm x ?_; rename' x => y)
    | (extract_lets +onlyGivenNames x; refine Keeps.keepMeter x ?_; rename' x => y)
    | (extract_lets +onlyGivenNames x; clear_value x; rename' x => y)
    | split | with_reducible refine Keeps.light ?_ rfl rfl rfl rfl

theorem keeps_jtagCapture (h : Keeps F s t) :
    ∀ x0 x1, (hF : [SField.env, .pkc2] ⊆ F := by assumption) →
    Yields F s (jtagCapture x0 x1 t) := by
  intro x0 x1 hF
  have b_env : SField.env ∈ F := hF (by decide)
  have b_pkc2 : SField.pkc2 ∈ F := hF (by decide)
  unfold jtagCapture
  repeat'
    first
    | with_reducible assumption | with_reducible apply Keeps.answer | with_reducible apply Yields.next
    | (extract_lets +onlyGivenNames x
       refine Yields.cut (u := x) ?_ fun hx => ?_
       (on_goal 1 => unfold x)
       (on_goal 2 => (clear_value x; rename' x => y)))
    | (extract_lets +onlyGivenNames x
       refine Keeps.cut (u := x) ?_ fun hx => ?_
       (on_goal 1 => unfold x)
       (on_goal 2 => (clear_value x; rename' x => y)))
    | (extract_lets +onlyGivenNames x; refine Keeps.keepEnv x ?_; rename' x => y)
    | (extract_lets +onlyGivenNames x; refine Keeps.keepSec x ?_; rename' x => y)
    | (extract_lets +onlyGivenNames x; refine Keeps.keepArm x ?_; rename' x => y)
    | (extract_lets +onlyGivenNames x; refine Keeps.keepMeter x ?_; rename' x => y)
    | (extract_lets +onlyGivenNames x; clear_value x; rename' x => y)
    | split | with_reducible refine Keeps.light ?_ rfl rfl rfl rfl

theorem keeps_execSecStatus (h : Keeps F s t) :
    (hF : [SField.env, .pkc2] ⊆ F := by assumption) →
    Yields F s (execSecStatus t) := by
  intro hF
  have f_jtagCapture : [SField.env, .pkc2] ⊆ F := List.Subset.trans (by decide) hF
  unfold execSecStatus
  repeat'
    first
    | with_reducible assumption | with_reducible apply keeps_jtagCapture | with_reducible apply Yields.next
    | (extract_lets +onlyGivenNames x
       refine Yields.cut (u := x) ?_ fun hx => ?_
       (on_goal 1 => unfold x)
       (on_goal 2 => (clear_value x; rename' x => y)))
    | (extract_lets +onlyGivenNames x
       refine Keeps.cut (u := x) ?_ fun hx => ?_
       (on_goal 1 => unfold x)
       (on_goal 2 => (clear_value x; rename' x => y)))
    | (extract_lets +onlyGivenNames x; refine Keeps.keepEnv x ?_; rename' x => y)
    | (extract_lets +onlyGivenNames x; refine Keeps.keepSec x ?_; rename' x => y)
    | (extract_lets +onlyGivenNames x; refine Keeps.keepArm x ?_; rename' x => y)
    | (extract_lets +onlyGivenNames x; refine Keeps.keepMeter x ?_; rename' x => y)
    | (extract_lets +onlyGivenNames x; clear_value x; rename' x => y)
    | split | with_reducible refine Keeps.light ?_ rfl rfl rfl rfl

theorem keeps_execIdcode (h : Keeps F s t) :
    (hF : [SField.env, .pkc2] ⊆ F := by assumption) →
    Yields F s (execIdcode t) := by
  intro hF
  have f_jtagCapture : [SField.env, .pkc2] ⊆ F := List.Subset.trans (by decide) hF
  unfold execIdcode
  repeat'
    first
    | with_reducible assumption | with_reducible apply keeps_jtagCapture | with_reducible apply Yields.next
    | (extract_lets +onlyGivenNames x
       refine Yields.cut (u := x) ?_ fun hx => ?_
       (on_goal 1 => unfold x)
       (on_goal 2 => (clear_value x; rename' x => y)))
    | (extract_lets +onlyGivenNames x
       refine Keeps.cut (u := x) ?_ fun hx => ?_
       (on_goal 1 => unfold x)
       (on_goal 2 => (clear_value x; rename' x => y)))
    | (extract_lets +onlyGivenNames x; refine Keeps.keepEnv x ?_; rename' x => y)
    | (extract_lets +onlyGivenNames x; refine Keeps.keepSec x ?_; rename' x => y)
    | (extract_lets +onlyGivenNames x; refine Keeps.keepArm x ?_; rename' x => y)
    | (extract_lets +onlyGivenNames x; refine Keeps.keepMeter x ?_; rename' x => y)
    | (extract_lets +onlyGivenNames x; clear_value x; rename' x => y)
    | split | with_reducible refine Keeps.light ?_ rfl rfl rfl rfl

theorem keeps_execBypass (h : Keeps F s t) :
    ∀ x0, (hF : [SField.env, .pkc2] ⊆ F := by assumption) →
    Yields F s (execBypass x0 t) := by
  intro x0 hF
  have f_jtagCapture : [SField.env, .pkc2] ⊆ F := List.Subset.trans (by decide) hF
  unfold execBypass
  repeat'
    first
    | with_reducible assumption | with_reducible apply keeps_jtagCapture | with_reducible apply Yields.next
    | (extract_lets +onlyGivenNames x
       refine Yields.cut (u := x) ?_ fun hx => ?_
       (on_goal 1 => unfold x)
       (on_goal 2 => (clear_value x; rename' x => y)))
    | (extract_lets +onlyGivenNames x
       refine Keeps.cut (u := x) ?_ fun hx => ?_
       (on_goal 1 => unfold x)
       (on_goal 2 => (clear_value x; rename' x => y)))
    | (extract_lets +onlyGivenNames x; refine Keeps.keepEnv x ?_; rename' x => y)
    | (extract_lets +onlyGivenNames x; refine Keeps.keepSec x ?_; rename' x => y)
    | (extract_lets +onlyGivenNames x; refine Keeps.keepArm x ?_; rename' x => y)
    | (extract_lets +onlyGivenNames x; refine Keeps.keepMeter x ?_; rename' x => y)
    | (extract_lets +onlyGivenNames x; clear_value x; rename' x => y)
    | split | with_reducible refine Keeps.light ?_ rfl rfl rfl rfl

theorem keeps_boundaryCapture (h : Keeps F s t) :
    (hF : [SField.env] ⊆ F := by assumption) →
    Keeps F s (boundaryCapture t) := by
  intro hF
  have b_env : SField.env ∈ F := hF (by decide)
  unfold boundaryCapture
  repeat'
    first
    | with_reducible assumption | with_reducible apply Keeps.takeFree | with_reducible apply Keeps.answer
    | (extract_lets +onlyGivenNames x
       refine Keeps.cut (u := x) ?_ fun hx => ?_
       (on_goal 1 => unfold x)
       (on_goal 2 => (clear_value x; rename' x => y)))
    | (extract_lets +onlyGivenNames x; refine Keeps.keepEnv x ?_; rename' x => y)
    | (extract_lets +onlyGivenNames x; refine Keeps.keepSec x ?_; rename' x => y)
    | (extract_lets +onlyGivenNames x; refine Keeps.keepArm x ?_; rename' x => y)
    | (extract_lets +onlyGivenNames x; refine Keeps.keepMeter x ?_; rename' x => y)
    | (extract_lets +onlyGivenNames x; clear_value x; rename' x => y)
    | split | with_reducible refine Keeps.light ?_ rfl rfl rfl rfl

theorem keeps_execSamplePreload (h : Keeps F s t) :
    ∀ x0, (hF : [SField.env, .pkc2] ⊆ F := by assumption) →
    Yields F s (execSamplePreload x0 t) := by
  intro x0 hF
  have b_pkc2 : SField.pkc2 ∈ F := hF (by decide)
  have f_boundaryCapture : [SField.env] ⊆ F := List.Subset.trans (by decide) hF
  unfold execSamplePreload
  repeat'
    first
    | with_reducible assumption | with_reducible apply keeps_boundaryCapture | with_reducible apply Yields.next
    | (extract_lets +onlyGivenNames x
       refine Yields.cut (u := x) ?_ fun hx => ?_
       (on_goal 1 => unfold x)
       (on_goal 2 => (clear_value x; rename' x => y)))
    | (extract_lets +onlyGivenNames x
       refine Keeps.cut (u := x) ?_ fun hx => ?_
       (on_goal 1 => unfold x)
       (on_goal 2 => (clear_value x; rename' x => y)))
    | (extract_lets +onlyGivenNames x; refine Keeps.keepEnv x ?_; rename' x => y)
    | (extract_lets +onlyGivenNames x; refine Keeps.keepSec x ?_; rename' x => y)
    | (extract_lets +onlyGivenNames x; refine Keeps.keepArm x ?_; rename' x => y)
    | (extract_lets +onlyGivenNames x; refine Keeps.keepMeter x ?_; rename' x => y)
    | (extract_lets +onlyGivenNames x; clear_value x; rename' x => y)
    | split | with_reducible refine Keeps.light ?_ rfl rfl rfl rfl

theorem keeps_execExtest (h : Keeps F s t) :
    ∀ x0, (hF : [SField.env, .pkc2] ⊆ F := by assumption) →
    Yields F s (execExtest x0 t) := by
  intro x0 hF
  have b_pkc2 : SField.pkc2 ∈ F := hF (by decide)
  have f_jtagCapture : [SField.env, .pkc2] ⊆ F := List.Subset.trans (by decide) hF
  have f_boundaryCapture : [SField.env] ⊆ F := List.Subset.trans (by decide) hF
  unfold execExtest
  repeat'
    first
    | with_reducible assumption | with_reducible apply keeps_jtagCapture | with_reducible apply keeps_boundaryCapture
    | with_reducible apply Yields.next
    | (extract_lets +onlyGivenNames x
       refine Yields.cut (u := x) ?_ fun hx => ?_
       (on_goal 1 => unfold x)
       (on_goal 2 => (clear_value x; rename' x => y)))
    | (extract_lets +onlyGivenNames x
       refine Keeps.cut (u := x) ?_ fun hx => ?_
       (on_goal 1 => unfold x)
       (on_goal 2 => (clear_value x; rename' x => y)))
    | (extract_lets +onlyGivenNames x; refine Keeps.keepEnv x ?_; rename' x => y)
    | (extract_lets +onlyGivenNames x; refine Keeps.keepSec x ?_; rename' x => y)
    | (extract_lets +onlyGivenNames x; refine Keeps.keepArm x ?_; rename' x => y)
    | (extract_lets +onlyGivenNames x; refine Keeps.keepMeter x ?_; rename' x => y)
    | (extract_lets +onlyGivenNames x; clear_value x; rename' x => y)
    | split | with_reducible refine Keeps.light ?_ rfl rfl rfl rfl

theorem keeps_execMgmtPrivateWrite (h : Keeps F s t) :
    ∀ x0, (hF : [SField.pkc2] ⊆ F := by assumption) →
    Yields F s (execMgmtPrivateWrite x0 t) := by
  intro x0 hF
  have b_pkc2 : SField.pkc2 ∈ F := hF (by decide)
  unfold execMgmtPrivateWrite
  repeat'
    first
    | with_reducible assumption | with_reducible apply Yields.next
    | (extract_lets +onlyGivenNames x
       refine Yields.cut (u := x) ?_ fun hx => ?_
       (on_goal 1 => unfold x)
       (on_goal 2 => (clear_value x; rename' x => y)))
    | (extract_lets +onlyGivenNames x
       refine Keeps.cut (u := x) ?_ fun hx => ?_
       (on_goal 1 => unfold x)
       (on_goal 2 => (clear_value x; rename' x => y)))
    | (extract_lets +onlyGivenNames x; refine Keeps.keepEnv x ?_; rename' x => y)
    | (extract_lets +onlyGivenNames x; refine Keeps.keepSec x ?_; rename' x => y)
    | (extract_lets +onlyGivenNames x; refine Keeps.keepArm x ?_; rename' x => y)
    | (extract_lets +onlyGivenNames x; refine Keeps.keepMeter x ?_; rename' x => y)
    | (extract_lets +onlyGivenNames x; clear_value x; rename' x => y)
    | split | with_reducible refine Keeps.light ?_ rfl rfl rfl rfl

theorem keeps_execMgmtPrivateRead (h : Keeps F s t) :
    (hF : [SField.env] ⊆ F := by assumption) →
    Yields F s (execMgmtPrivateRead t) := by
  intro hF
  have b_env : SField.env ∈ F := hF (by decide)
  unfold execMgmtPrivateRead
  repeat'
    first
    | with_reducible assumption | with_reducible apply Keeps.answer | with_reducible apply Yields.next
    | (extract_lets +onlyGivenNames x
       refine Yields.cut (u := x) ?_ fun hx => ?_
       (on_goal 1 => unfold x)
       (on_goal 2 => (clear_value x; rename' x => y)))
    | (extract_lets +onlyGivenNames x
       refine Keeps.cut (u := x) ?_ fun hx => ?_
       (on_goal 1 => unfold x)
       (on_goal 2 => (clear_value x; rename' x => y)))
    | (extract_lets +onlyGivenNames x; refine Keeps.keepEnv x ?_; rename' x => y)
    | (extract_lets +onlyGivenNames x; refine Keeps.keepSec x ?_; rename' x => y)
    | (extract_lets +onlyGivenNames x; refine Keeps.keepArm x ?_; rename' x => y)
    | (extract_lets +onlyGivenNames x; refine Keeps.keepMeter x ?_; rename' x => y)
    | (extract_lets +onlyGivenNames x; clear_value x; rename' x => y)
    | split | with_reducible refine Keeps.light ?_ rfl rfl rfl rfl

end Sys2Proof.Machine
end

