-- ==== Sys2Proof/WellFormed.lean ====
section
/-! DEFINITION. Well-formed commands: every operand lies in the range that the spec gives the thing it names
(R7, R8, R20, R21, R28, R341, R345, R375, R426). -/

namespace Sys2Proof

/-- A virtual function is one of 1 to 31 (R340). -/
def Src.wf : Src → Bool
  | .vf n => decide (1 ≤ n ∧ n ≤ 31)
  | _ => true

/-- A place that a slab has (R312). -/
def FabPlace.wf (p : FabPlace) : Bool :=
  decide (p.slab < 100) &&
    match p.node with
    | .router k => decide (k < 64)
    | .edge d => decide (d < 4)
    | .tile t => decide (t < 64)
    | _ => true

/-- Operands in range: contexts, sequence numbers, slabs, tiles, banks, partitions, ports, functions, jobs, streams. -/
def Instr.wf : Instr → Bool
  | .nop c q => decide (c < 1024) && decide (q < 2 ^ 32)
  | .descCreate c q => decide (c < 1024) && decide (q < 2 ^ 32)
  | .descDestroy c q => decide (c < 1024) && decide (q < 2 ^ 32)
  | .descRelease c q => decide (c < 1024) && decide (q < 2 ^ 32)
  | .epiCreate c q => decide (c < 1024) && decide (q < 2 ^ 32)
  | .convCreate c q => decide (c < 1024) && decide (q < 2 ^ 32)
  | .vecLoad c q => decide (c < 1024) && decide (q < 2 ^ 32)
  | .vecLoadSwitch c q => decide (c < 1024) && decide (q < 2 ^ 32)
  | .arraySet c q => decide (c < 1024) && decide (q < 2 ^ 32)
  | .matrixProduct c q => decide (c < 1024) && decide (q < 2 ^ 32)
  | .infusion c q => decide (c < 1024) && decide (q < 2 ^ 32)
  | .conv c q => decide (c < 1024) && decide (q < 2 ^ 32)
  | .copy c q => decide (c < 1024) && decide (q < 2 ^ 32)
  | .permutingCopy c q => decide (c < 1024) && decide (q < 2 ^ 32)
  | .gather c q => decide (c < 1024) && decide (q < 2 ^ 32)
  | .scatter c q => decide (c < 1024) && decide (q < 2 ^ 32)
  | .eltwise c q => decide (c < 1024) && decide (q < 2 ^ 32)
  | .rowstat c q => decide (c < 1024) && decide (q < 2 ^ 32)
  | .softmax c q => decide (c < 1024) && decide (q < 2 ^ 32)
  | .pool c q => decide (c < 1024) && decide (q < 2 ^ 32)
  | .resample c q => decide (c < 1024) && decide (q < 2 ^ 32)
  | .cropResize c q => decide (c < 1024) && decide (q < 2 ^ 32)
  | .random c q => decide (c < 1024) && decide (q < 2 ^ 32)
  | .strain c q => decide (c < 1024) && decide (q < 2 ^ 32)
  | .allreduce c q _ => decide (c < 1024) && decide (q < 2 ^ 32)
  | .reduceScatter c q _ => decide (c < 1024) && decide (q < 2 ^ 32)
  | .allgather c q _ => decide (c < 1024) && decide (q < 2 ^ 32)
  | .blend c q _ => decide (c < 1024) && decide (q < 2 ^ 32)
  | .kvSeqCreate c q => decide (c < 1024) && decide (q < 2 ^ 32)
  | .kvAppend c q => decide (c < 1024) && decide (q < 2 ^ 32)
  | .kvFork c q => decide (c < 1024) && decide (q < 2 ^ 32)
  | .kvTruncate c q => decide (c < 1024) && decide (q < 2 ^ 32)
  | .kvSeqFree c q => decide (c < 1024) && decide (q < 2 ^ 32)
  | .kvReclaim c q => decide (c < 1024) && decide (q < 2 ^ 32)
  | .kvSet c q => decide (c < 1024) && decide (q < 2 ^ 32)
  | .brewSeed c q => decide (c < 1024) && decide (q < 2 ^ 32)
  | .brewStream c q => decide (c < 1024) && decide (q < 2 ^ 32)
  | .bankOwn c q => decide (c < 1024) && decide (q < 2 ^ 32)
  | .linkJob c q => decide (c < 1024) && decide (q < 2 ^ 32)
  | .ctxDefine c q => decide (c < 1024) && decide (q < 2 ^ 32)
  | .ctxUndefine c q => decide (c < 1024) && decide (q < 2 ^ 32)
  | .regionAlloc c q => decide (c < 1024) && decide (q < 2 ^ 32)
  | .regionFree c q => decide (c < 1024) && decide (q < 2 ^ 32)
  | .modelLoad c q => decide (c < 1024) && decide (q < 2 ^ 32)
  | .modelUnload c q => decide (c < 1024) && decide (q < 2 ^ 32)
  | .ctxSuspend c q => decide (c < 1024) && decide (q < 2 ^ 32)
  | .ctxResume c q => decide (c < 1024) && decide (q < 2 ^ 32)
  | .ctxSave c q => decide (c < 1024) && decide (q < 2 ^ 32)
  | .ctxRestore c q => decide (c < 1024) && decide (q < 2 ^ 32)
  | .ctxReset c q => decide (c < 1024) && decide (q < 2 ^ 32)
  | .schedSet c q => decide (c < 1024) && decide (q < 2 ^ 32)
  | .vcOpen c q => decide (c < 1024) && decide (q < 2 ^ 32)
  | .vcClose c q => decide (c < 1024) && decide (q < 2 ^ 32)
  | .vcEncode c q => decide (c < 1024) && decide (q < 2 ^ 32)
  | .vcDecode c q => decide (c < 1024) && decide (q < 2 ^ 32)
  | .vcRate c q => decide (c < 1024) && decide (q < 2 ^ 32)
  | .sqTail src page _ _ => src.wf && decide (page < 1024)
  | .cqHead src page _ => src.wf && decide (page < 1024)
  | .entryFetch c _ => decide (c < 1024)
  | .issueDecision p => decide (p ≤ 24)
  | .stagingFetchDone c q tile _ _ => decide (c < 1024) && decide (q < 2 ^ 32) && decide (tile < 6400)
  | .commandComplete c q => decide (c < 1024) && decide (q < 2 ^ 32)
  | .ringEnable src page => src.wf && decide (page < 1024)
  | .ringDisable src page => src.wf && decide (page < 1024)
  | .ringDrained c => decide (c < 1024)
  | .ringAckContinue src page => src.wf && decide (page < 1024)
  | .ringAckFlush src page => src.wf && decide (page < 1024)
  | .cqIrqTimeout (.cq c) => decide (c < 1024)
  | .cqIrqTimeout (.evq f) => decide (f < 32)
  | .evqEnable src func => src.wf && decide (func < 32)
  | .evqHead src func _ => src.wf && decide (func < 32)
  | .pcieConfigWrite func _ => decide (func < 32)
  | .pcieFailover _ => true
  | .failoverSwitch => true
  | .failoverLinkUp _ _ => true
  | .ctxAdmit p => decide (p < 24)
  | .swapOutDone c => decide (c < 1024)
  | .swapInDone c => decide (c < 1024)
  | .sliceExpire p => decide (p < 24)
  | .ctxControlSuspend src page => src.wf && decide (page < 1024)
  | .ctxControlResume src page => src.wf && decide (page < 1024)
  | .tileHang gtid => decide (gtid < 6400)
  | .preFailureWarning slab => decide (slab < 100)
  | .plannedCoreRetirement slab => decide (slab < 100)
  | .evacWaitExpire slab => decide (slab < 100)
  | .spareSelfTest slab _ => decide (slab < 100)
  | .rampUp gtid _ => decide (gtid < 6400)
  | .rampPhaseEnd gtid _ => decide (gtid < 6400)
  | .rampDown gtid _ => decide (gtid < 6400)
  | .throttlePeriod slab acts => decide (slab < 100) && acts.all fun a => decide (a.tile < 6400 ∧ a.ctx < 1024)
  | .shadowSwap gtid _ => decide (gtid < 6400)
  | .tileClockGate gtid => decide (gtid < 6400)
  | .arrayCtrlWrite src slab _ => src.wf && decide (slab < 100)
  | .powerLimitWrite src _ => src.wf
  | .powerSample _ _ _ => true
  | .powerRateRaise => true
  | .vtblSlopeWrite src slab _ => src.wf && decide (slab < 100)
  | .kvReserveWrite src p _ => src.wf && decide (p < 24)
  | .kvClearMin src p => src.wf && decide (p < 24)
  | .labFlush src slab => src.wf && decide (slab < 100)
  | .winClearPeak src => src.wf
  | .aqClear src page => src.wf && decide (page < 1024)
  | .bankOwnWrite src gtid bank _ => src.wf && decide (gtid < 6400) && decide (bank < 4)
  | .hostWindowRead src g k v a _ _ => src.wf && decide (g < 8192) && decide (k < 4) && decide (v < 4) && decide (a < 2 ^ 21)
  | .hostWindowWrite src g k v a _ _ => src.wf && decide (g < 8192) && decide (k < 4) && decide (v < 4) && decide (a < 2 ^ 21)
  | .aliasSetWrite src g k a _ _ => src.wf && decide (g < 8192) && decide (k < 4) && decide (a < 2 ^ 21)
  | .aliasClearWrite src g k a _ _ => src.wf && decide (g < 8192) && decide (k < 4) && decide (a < 2 ^ 21)
  | .iadd src g k v a l _ _ =>
    src.wf && decide (g < 8192) && decide (k < 4) && decide (v < 3) && decide (a < 2 ^ 21) && (l == 4 || l == 8)
  | .fadd src g k a l _ _ => src.wf && decide (g < 8192) && decide (k < 4) && decide (a < 2 ^ 21) && (l == 4 || l == 8)
  | .swap src g k v a l _ _ _ =>
    src.wf && decide (g < 8192) && decide (k < 4) && decide (v < 4) && decide (a < 2 ^ 21) && (l == 4 || l == 8)
  | .patinaCtrlWrite src slab _ => src.wf && decide (slab < 100)
  | .patinaRegionStart slab found => decide (slab < 100) && found.all fun f => decide (f.1 < 6400 ∧ f.2.1 < 4 ∧ f.2.2.1 < 650)
  | .tileRetirement gtid => decide (gtid < 6400)
  | .tileRetireCopyDone gtid => decide (gtid < 6400)
  | .wakeClearDone slab => decide (slab < 100)
  | .packetDeliver _ q _ _ => decide (q < 2 ^ 32)
  | .hbmScrubWrite src slab _ => src.wf && decide (slab < 100)
  | .hbmScrubPass slab _ _ => decide (slab < 100)
  | .stackSubstitute p => decide (p < 24)
  | .flitReceive dst src _ _ => dst.wf && src.wf
  | .transportResend slab _ _ dest => decide (slab < 100) && decide (dest < 100)
  | .linkEnWrite src port _ => src.wf && decide (port < 8)
  | .linkRetrainWrite src port => src.wf && decide (port < 8)
  | .linkFrameRx port syms => decide (port < 8) && syms.length == 512 && syms.all fun x => decide (x < 1024)
  | .linkTrained port peerPort _ _ => decide (port < 8) && decide (peerPort < 8)
  | .linkTrainingTimeout port => decide (port < 8)
  | .linkPacketRx port vc _ _ => decide (port < 8) && decide (vc < 4)
  | .hello c job _ => decide (c < 1024) && decide (job < 16)
  | .reply c job _ _ => decide (c < 1024) && decide (job < 16)
  | .finish c job _ _ peerWire _ => decide (c < 1024) && decide (job < 16) && decide (peerWire < 16384)
  | .linkOpenTimeout c q => decide (c < 1024) && decide (q < 2 ^ 32)
  | .collTimeout c q => decide (c < 1024) && decide (q < 2 ^ 32)
  | .vcFrameStart core => decide (core < 100)
  | .vcPieceDone core => decide (core < 100)
  | .vcClaimTimeout core => decide (core < 100)
  | .vcReset src slab => src.wf && decide (slab < 100)
  | .vcCoreResetDone slab => decide (slab < 100)
  | .vcFrameAssemble c stream => decide (c < 1024) && decide (stream < 64)
  | .idRecord => true
  | .attest => true
  | .stageFw => true
  | .stageArm => true
  | .certAdd => true
  | .armApply => true
  | .armRevert => true
  | .armReturn => true
  | .armCheck => true
  | .partitionSwitch p => decide (p < 24)
  | .digestExchange p => decide (p < 24)
  | .digestReplyTimeout p slab => decide (p < 24) && decide (slab < 100)
  | .discordRepair p => decide (p < 24)
  | .meterPeriodTick _ => true
  | .mReadReq _ => true
  | .mirrorRequest _ => true
  | .meterSpacingEnd _ => true
  | .meterPowerUp _ => true
  | .meterPowerDown _ => true
  | .sealChange _ _ _ => true
  | .mPeriodWrite _ => true
  | .meterPortWrite _ _ => true
  | .meterPortRead _ => true
  | .mtrSnapReq src => src.wf
  | .mirrorRecord => true
  | .mirrorTimeout => true
  | .registerWrite src bar _ _ => src.wf && (bar == 0 || bar == 2 || bar == 4)
  | .aliasViewWrite src _ _ _ => src.wf
  | .indDataAccess src _ => src.wf
  | .indirectTimeout src _ => src.wf
  | .mgmtPrivateWrite _ => true
  | .mgmtPrivateRead => true
  | .regAccess _ _ _ => true
  | .memAccess _ _ _ => true
  | .secStatus => true
  | .idcode => true
  | .extest _ => true
  | .samplePreload _ => true
  | .bypass _ => true
  | .coldPowerOn => true
  | .pwrOkFall => true
  | .vin48Brownout => true
  | .p12vStbyFall => true
  | .sysResetAssert => true
  | .sysResetDeassert => true
  | .perstAssert => true
  | .perstDeassert _ _ => true
  | .hotReset => true
  | .secondaryBusReset => true
  | .linkDisable => true
  | .pfFlr => true
  | .vfFlr n => decide (1 ≤ n ∧ n ≤ 31)
  | .vfEnableClear => true
  | .warm src => src.wf
  | .preset src p => src.wf && decide (p < 24)
  | .stby src => src.wf
  | .pwrSlabOffWrite src word _ => src.wf && decide (word < 4)
  | .slabPwr slab _ => decide (slab < 100)
  | .thermalSample slab _ _ => decide (slab < 100)
  | .thermalRateRaise slab _ _ => decide (slab < 100)
  | .thermalTrip => true
  | .oscFail _ => true
  | .p12vStbyRise => true
  | .standbyLost => true
  | .vcCoreFault core => decide (core < 100)
  | .patinaRegionDone gtid bank _ => decide (gtid < 6400) && decide (bank < 4)

end Sys2Proof
end

