-- ==== Sys2Proof/Laws/PerInstr.lean ====
section
/-! SUPPORT. The family Syntax, one lemma per command: a well-formed command names a source that exists and a context of
R345. -/

namespace Sys2Proof.Laws.Syntax

open Sys2Proof

/-- The source that a command names. -/
def source : Instr → Option Src
  | .sqTail src _ _ _ => some src
  | .cqHead src _ _ => some src
  | .ringEnable src _ => some src
  | .ringDisable src _ => some src
  | .ringAckContinue src _ => some src
  | .ringAckFlush src _ => some src
  | .evqEnable src _ => some src
  | .evqHead src _ _ => some src
  | .ctxControlSuspend src _ => some src
  | .ctxControlResume src _ => some src
  | .arrayCtrlWrite src _ _ => some src
  | .powerLimitWrite src _ => some src
  | .vtblSlopeWrite src _ _ => some src
  | .kvReserveWrite src _ _ => some src
  | .kvClearMin src _ => some src
  | .labFlush src _ => some src
  | .winClearPeak src => some src
  | .aqClear src _ => some src
  | .bankOwnWrite src _ _ _ => some src
  | .hostWindowRead src _ _ _ _ _ _ => some src
  | .hostWindowWrite src _ _ _ _ _ _ => some src
  | .aliasSetWrite src _ _ _ _ _ => some src
  | .aliasClearWrite src _ _ _ _ _ => some src
  | .iadd src _ _ _ _ _ _ _ => some src
  | .fadd src _ _ _ _ _ _ => some src
  | .swap src _ _ _ _ _ _ _ _ => some src
  | .patinaCtrlWrite src _ _ => some src
  | .hbmScrubWrite src _ _ => some src
  | .linkEnWrite src _ _ => some src
  | .linkRetrainWrite src _ => some src
  | .vcReset src _ => some src
  | .mtrSnapReq src => some src
  | .registerWrite src _ _ _ => some src
  | .aliasViewWrite src _ _ _ => some src
  | .indDataAccess src _ => some src
  | .indirectTimeout src _ => some src
  | .warm src => some src
  | .preset src _ => some src
  | .stby src => some src
  | .pwrSlabOffWrite src _ _ => some src
  | _ => none

/-- The context that a command names by its number. -/
def context : Instr → Option Nat
  | .nop c _ => some c
  | .descCreate c _ => some c
  | .descDestroy c _ => some c
  | .descRelease c _ => some c
  | .epiCreate c _ => some c
  | .convCreate c _ => some c
  | .vecLoad c _ => some c
  | .vecLoadSwitch c _ => some c
  | .arraySet c _ => some c
  | .matrixProduct c _ => some c
  | .infusion c _ => some c
  | .conv c _ => some c
  | .copy c _ => some c
  | .permutingCopy c _ => some c
  | .gather c _ => some c
  | .scatter c _ => some c
  | .eltwise c _ => some c
  | .rowstat c _ => some c
  | .softmax c _ => some c
  | .pool c _ => some c
  | .resample c _ => some c
  | .cropResize c _ => some c
  | .random c _ => some c
  | .strain c _ => some c
  | .allreduce c _ _ => some c
  | .reduceScatter c _ _ => some c
  | .allgather c _ _ => some c
  | .blend c _ _ => some c
  | .kvSeqCreate c _ => some c
  | .kvAppend c _ => some c
  | .kvFork c _ => some c
  | .kvTruncate c _ => some c
  | .kvSeqFree c _ => some c
  | .kvReclaim c _ => some c
  | .kvSet c _ => some c
  | .brewSeed c _ => some c
  | .brewStream c _ => some c
  | .bankOwn c _ => some c
  | .linkJob c _ => some c
  | .ctxDefine c _ => some c
  | .ctxUndefine c _ => some c
  | .regionAlloc c _ => some c
  | .regionFree c _ => some c
  | .modelLoad c _ => some c
  | .modelUnload c _ => some c
  | .ctxSuspend c _ => some c
  | .ctxResume c _ => some c
  | .ctxSave c _ => some c
  | .ctxRestore c _ => some c
  | .ctxReset c _ => some c
  | .schedSet c _ => some c
  | .vcOpen c _ => some c
  | .vcClose c _ => some c
  | .vcEncode c _ => some c
  | .vcDecode c _ => some c
  | .vcRate c _ => some c
  | .entryFetch c _ => some c
  | .stagingFetchDone c _ _ _ _ => some c
  | .commandComplete c _ => some c
  | .ringDrained c => some c
  | .swapOutDone c => some c
  | .swapInDone c => some c
  | .hello c _ _ => some c
  | .reply c _ _ _ => some c
  | .finish c _ _ _ _ _ => some c
  | .linkOpenTimeout c _ => some c
  | .collTimeout c _ => some c
  | .vcFrameAssemble c _ => some c
  | _ => none

/-- A well-formed command's source is the PF, VF 1 to 31 or a port of the device, and its context is one of 1,024. -/
def Statement (i : Instr) : Prop :=
  i.wf = true → (∀ src, source i = some src → src.wf = true) ∧ ∀ c, context i = some c → c < 1024

/-- A command that names neither. -/
theorem of_none {i : Instr} (h1 : source i = none) (h2 : context i = none) : Statement i := fun _ =>
    ⟨fun _ h => absurd (h1.symm.trans h) nofun, fun _ h => absurd (h2.symm.trans h) nofun⟩

/-- A command that names a source and no context. -/
theorem of_source {i : Instr} {src : Src} (h1 : source i = some src) (h2 : context i = none)
    (h : i.wf = true → src.wf = true) : Statement i := fun w =>
    ⟨fun _ e => Option.some.inj (h1.symm.trans e) ▸ h w, fun _ e => absurd (h2.symm.trans e) nofun⟩

/-- A command that names a context and no source. -/
theorem of_context {i : Instr} {c : Nat} (h1 : source i = none) (h2 : context i = some c)
    (h : i.wf = true → c < 1024) : Statement i := fun w =>
    ⟨fun _ e => absurd (h1.symm.trans e) nofun, fun _ e => Option.some.inj (h2.symm.trans e) ▸ h w⟩

/-- The first of a chain of checks. -/
theorem first {a b : Bool} (h : (a && b) = true) : a = true := (Bool.and_eq_true a b ▸ h).1

theorem nop (c q) : Statement (.nop c q) := of_context rfl rfl fun h => of_decide_eq_true (first h)
theorem descCreate (c q) : Statement (.descCreate c q) := of_context rfl rfl fun h => of_decide_eq_true (first h)
theorem descDestroy (c q) : Statement (.descDestroy c q) := of_context rfl rfl fun h => of_decide_eq_true (first h)
theorem descRelease (c q) : Statement (.descRelease c q) := of_context rfl rfl fun h => of_decide_eq_true (first h)
theorem epiCreate (c q) : Statement (.epiCreate c q) := of_context rfl rfl fun h => of_decide_eq_true (first h)
theorem convCreate (c q) : Statement (.convCreate c q) := of_context rfl rfl fun h => of_decide_eq_true (first h)
theorem vecLoad (c q) : Statement (.vecLoad c q) := of_context rfl rfl fun h => of_decide_eq_true (first h)
theorem vecLoadSwitch (c q) : Statement (.vecLoadSwitch c q) :=
  of_context rfl rfl fun h => of_decide_eq_true (first h)
theorem arraySet (c q) : Statement (.arraySet c q) := of_context rfl rfl fun h => of_decide_eq_true (first h)
theorem matrixProduct (c q) : Statement (.matrixProduct c q) :=
  of_context rfl rfl fun h => of_decide_eq_true (first h)
theorem infusion (c q) : Statement (.infusion c q) := of_context rfl rfl fun h => of_decide_eq_true (first h)
theorem conv (c q) : Statement (.conv c q) := of_context rfl rfl fun h => of_decide_eq_true (first h)
theorem copy (c q) : Statement (.copy c q) := of_context rfl rfl fun h => of_decide_eq_true (first h)
theorem permutingCopy (c q) : Statement (.permutingCopy c q) :=
  of_context rfl rfl fun h => of_decide_eq_true (first h)
theorem gather (c q) : Statement (.gather c q) := of_context rfl rfl fun h => of_decide_eq_true (first h)
theorem scatter (c q) : Statement (.scatter c q) := of_context rfl rfl fun h => of_decide_eq_true (first h)
theorem eltwise (c q) : Statement (.eltwise c q) := of_context rfl rfl fun h => of_decide_eq_true (first h)
theorem rowstat (c q) : Statement (.rowstat c q) := of_context rfl rfl fun h => of_decide_eq_true (first h)
theorem softmax (c q) : Statement (.softmax c q) := of_context rfl rfl fun h => of_decide_eq_true (first h)
theorem pool (c q) : Statement (.pool c q) := of_context rfl rfl fun h => of_decide_eq_true (first h)
theorem resample (c q) : Statement (.resample c q) := of_context rfl rfl fun h => of_decide_eq_true (first h)
theorem cropResize (c q) : Statement (.cropResize c q) := of_context rfl rfl fun h => of_decide_eq_true (first h)
theorem random (c q) : Statement (.random c q) := of_context rfl rfl fun h => of_decide_eq_true (first h)
theorem strain (c q) : Statement (.strain c q) := of_context rfl rfl fun h => of_decide_eq_true (first h)
theorem allreduce (c q peers) : Statement (.allreduce c q peers) :=
  of_context rfl rfl fun h => of_decide_eq_true (first h)
theorem reduceScatter (c q peers) : Statement (.reduceScatter c q peers) :=
  of_context rfl rfl fun h => of_decide_eq_true (first h)
theorem allgather (c q peers) : Statement (.allgather c q peers) :=
  of_context rfl rfl fun h => of_decide_eq_true (first h)
theorem blend (c q peers) : Statement (.blend c q peers) := of_context rfl rfl fun h => of_decide_eq_true (first h)
theorem kvSeqCreate (c q) : Statement (.kvSeqCreate c q) := of_context rfl rfl fun h => of_decide_eq_true (first h)
theorem kvAppend (c q) : Statement (.kvAppend c q) := of_context rfl rfl fun h => of_decide_eq_true (first h)
theorem kvFork (c q) : Statement (.kvFork c q) := of_context rfl rfl fun h => of_decide_eq_true (first h)
theorem kvTruncate (c q) : Statement (.kvTruncate c q) := of_context rfl rfl fun h => of_decide_eq_true (first h)
theorem kvSeqFree (c q) : Statement (.kvSeqFree c q) := of_context rfl rfl fun h => of_decide_eq_true (first h)
theorem kvReclaim (c q) : Statement (.kvReclaim c q) := of_context rfl rfl fun h => of_decide_eq_true (first h)
theorem kvSet (c q) : Statement (.kvSet c q) := of_context rfl rfl fun h => of_decide_eq_true (first h)
theorem brewSeed (c q) : Statement (.brewSeed c q) := of_context rfl rfl fun h => of_decide_eq_true (first h)
theorem brewStream (c q) : Statement (.brewStream c q) := of_context rfl rfl fun h => of_decide_eq_true (first h)
theorem bankOwn (c q) : Statement (.bankOwn c q) := of_context rfl rfl fun h => of_decide_eq_true (first h)
theorem linkJob (c q) : Statement (.linkJob c q) := of_context rfl rfl fun h => of_decide_eq_true (first h)
theorem ctxDefine (c q) : Statement (.ctxDefine c q) := of_context rfl rfl fun h => of_decide_eq_true (first h)
theorem ctxUndefine (c q) : Statement (.ctxUndefine c q) := of_context rfl rfl fun h => of_decide_eq_true (first h)
theorem regionAlloc (c q) : Statement (.regionAlloc c q) := of_context rfl rfl fun h => of_decide_eq_true (first h)
theorem regionFree (c q) : Statement (.regionFree c q) := of_context rfl rfl fun h => of_decide_eq_true (first h)
theorem modelLoad (c q) : Statement (.modelLoad c q) := of_context rfl rfl fun h => of_decide_eq_true (first h)
theorem modelUnload (c q) : Statement (.modelUnload c q) := of_context rfl rfl fun h => of_decide_eq_true (first h)
theorem ctxSuspend (c q) : Statement (.ctxSuspend c q) := of_context rfl rfl fun h => of_decide_eq_true (first h)
theorem ctxResume (c q) : Statement (.ctxResume c q) := of_context rfl rfl fun h => of_decide_eq_true (first h)
theorem ctxSave (c q) : Statement (.ctxSave c q) := of_context rfl rfl fun h => of_decide_eq_true (first h)
theorem ctxRestore (c q) : Statement (.ctxRestore c q) := of_context rfl rfl fun h => of_decide_eq_true (first h)
theorem ctxReset (c q) : Statement (.ctxReset c q) := of_context rfl rfl fun h => of_decide_eq_true (first h)
theorem schedSet (c q) : Statement (.schedSet c q) := of_context rfl rfl fun h => of_decide_eq_true (first h)
theorem vcOpen (c q) : Statement (.vcOpen c q) := of_context rfl rfl fun h => of_decide_eq_true (first h)
theorem vcClose (c q) : Statement (.vcClose c q) := of_context rfl rfl fun h => of_decide_eq_true (first h)
theorem vcEncode (c q) : Statement (.vcEncode c q) := of_context rfl rfl fun h => of_decide_eq_true (first h)
theorem vcDecode (c q) : Statement (.vcDecode c q) := of_context rfl rfl fun h => of_decide_eq_true (first h)
theorem vcRate (c q) : Statement (.vcRate c q) := of_context rfl rfl fun h => of_decide_eq_true (first h)
theorem sqTail (src page value cells) : Statement (.sqTail src page value cells) :=
  of_source rfl rfl fun h => first h
theorem cqHead (src page value) : Statement (.cqHead src page value) := of_source rfl rfl fun h => first h
theorem entryFetch (c n) : Statement (.entryFetch c n) := of_context rfl rfl fun h => of_decide_eq_true (h)
theorem issueDecision (p) : Statement (.issueDecision p) := of_none rfl rfl
theorem stagingFetchDone (c q tile aAt bAt) : Statement (.stagingFetchDone c q tile aAt bAt) :=
  of_context rfl rfl fun h => of_decide_eq_true (first (first h))
theorem commandComplete (c q) : Statement (.commandComplete c q) :=
  of_context rfl rfl fun h => of_decide_eq_true (first h)
theorem ringEnable (src page) : Statement (.ringEnable src page) := of_source rfl rfl fun h => first h
theorem ringDisable (src page) : Statement (.ringDisable src page) := of_source rfl rfl fun h => first h
theorem ringDrained (c) : Statement (.ringDrained c) := of_context rfl rfl fun h => of_decide_eq_true (h)
theorem ringAckContinue (src page) : Statement (.ringAckContinue src page) := of_source rfl rfl fun h => first h
theorem ringAckFlush (src page) : Statement (.ringAckFlush src page) := of_source rfl rfl fun h => first h
theorem cqIrqTimeout (r) : Statement (.cqIrqTimeout r) := of_none rfl rfl
theorem evqEnable (src func) : Statement (.evqEnable src func) := of_source rfl rfl fun h => first h
theorem evqHead (src func value) : Statement (.evqHead src func value) := of_source rfl rfl fun h => first h
theorem pcieConfigWrite (func w) : Statement (.pcieConfigWrite func w) := of_none rfl rfl
theorem pcieFailover (t) : Statement (.pcieFailover t) := of_none rfl rfl
theorem failoverSwitch : Statement .failoverSwitch := of_none rfl rfl
theorem failoverLinkUp (speed width) : Statement (.failoverLinkUp speed width) := of_none rfl rfl
theorem ctxAdmit (p) : Statement (.ctxAdmit p) := of_none rfl rfl
theorem swapOutDone (c) : Statement (.swapOutDone c) := of_context rfl rfl fun h => of_decide_eq_true (h)
theorem swapInDone (c) : Statement (.swapInDone c) := of_context rfl rfl fun h => of_decide_eq_true (h)
theorem sliceExpire (p) : Statement (.sliceExpire p) := of_none rfl rfl
theorem ctxControlSuspend (src page) : Statement (.ctxControlSuspend src page) := of_source rfl rfl fun h => first h
theorem ctxControlResume (src page) : Statement (.ctxControlResume src page) := of_source rfl rfl fun h => first h
theorem tileHang (gtid) : Statement (.tileHang gtid) := of_none rfl rfl
theorem preFailureWarning (slab) : Statement (.preFailureWarning slab) := of_none rfl rfl
theorem plannedCoreRetirement (slab) : Statement (.plannedCoreRetirement slab) := of_none rfl rfl
theorem evacWaitExpire (slab) : Statement (.evacWaitExpire slab) := of_none rfl rfl
theorem spareSelfTest (slab pass) : Statement (.spareSelfTest slab pass) := of_none rfl rfl
theorem rampUp (gtid cut) : Statement (.rampUp gtid cut) := of_none rfl rfl
theorem rampPhaseEnd (gtid cycles) : Statement (.rampPhaseEnd gtid cycles) := of_none rfl rfl
theorem rampDown (gtid cut) : Statement (.rampDown gtid cut) := of_none rfl rfl
theorem throttlePeriod (slab acts) : Statement (.throttlePeriod slab acts) := of_none rfl rfl
theorem shadowSwap (gtid counted) : Statement (.shadowSwap gtid counted) := of_none rfl rfl
theorem tileClockGate (gtid) : Statement (.tileClockGate gtid) := of_none rfl rfl
theorem arrayCtrlWrite (src slab value) : Statement (.arrayCtrlWrite src slab value) :=
  of_source rfl rfl fun h => first h
theorem powerLimitWrite (src value) : Statement (.powerLimitWrite src value) := of_source rfl rfl fun h => h
theorem powerSample (watts v12 v48) : Statement (.powerSample watts v12 v48) := of_none rfl rfl
theorem powerRateRaise : Statement .powerRateRaise := of_none rfl rfl
theorem vtblSlopeWrite (src slab value) : Statement (.vtblSlopeWrite src slab value) :=
  of_source rfl rfl fun h => first h
theorem kvReserveWrite (src p value) : Statement (.kvReserveWrite src p value) := of_source rfl rfl fun h => first h
theorem kvClearMin (src p) : Statement (.kvClearMin src p) := of_source rfl rfl fun h => first h
theorem labFlush (src slab) : Statement (.labFlush src slab) := of_source rfl rfl fun h => first h
theorem winClearPeak (src) : Statement (.winClearPeak src) := of_source rfl rfl fun h => h
theorem aqClear (src page) : Statement (.aqClear src page) := of_source rfl rfl fun h => first h
theorem bankOwnWrite (src gtid bank value) : Statement (.bankOwnWrite src gtid bank value) :=
  of_source rfl rfl fun h => first (first h)
theorem hostWindowRead (src gtid bank view a len found) : Statement (.hostWindowRead src gtid bank view a len found) :=
  of_source rfl rfl fun h => first (first (first (first h)))
theorem hostWindowWrite (src gtid bank view a data found) : Statement (.hostWindowWrite src gtid bank view a data found) :=
  of_source rfl rfl fun h => first (first (first (first h)))
theorem aliasSetWrite (src gtid bank a data found) : Statement (.aliasSetWrite src gtid bank a data found) :=
  of_source rfl rfl fun h => first (first (first h))
theorem aliasClearWrite (src gtid bank a data found) : Statement (.aliasClearWrite src gtid bank a data found) :=
  of_source rfl rfl fun h => first (first (first h))
theorem iadd (src gtid bank view a len operand found) : Statement (.iadd src gtid bank view a len operand found) :=
  of_source rfl rfl fun h => first (first (first (first (first h))))
theorem fadd (src gtid bank a len operand found) : Statement (.fadd src gtid bank a len operand found) :=
  of_source rfl rfl fun h => first (first (first (first h)))
theorem swap (src gtid bank view a len compare operand found) : Statement (.swap src gtid bank view a len compare operand found) :=
  of_source rfl rfl fun h => first (first (first (first (first h))))
theorem patinaCtrlWrite (src slab value) : Statement (.patinaCtrlWrite src slab value) :=
  of_source rfl rfl fun h => first h
theorem patinaRegionStart (slab found) : Statement (.patinaRegionStart slab found) := of_none rfl rfl
theorem tileRetirement (gtid) : Statement (.tileRetirement gtid) := of_none rfl rfl
theorem tileRetireCopyDone (gtid) : Statement (.tileRetireCopyDone gtid) := of_none rfl rfl
theorem wakeClearDone (slab) : Statement (.wakeClearDone slab) := of_none rfl rfl
theorem packetDeliver (header q body found) : Statement (.packetDeliver header q body found) := of_none rfl rfl
theorem hbmScrubWrite (src slab value) : Statement (.hbmScrubWrite src slab value) :=
  of_source rfl rfl fun h => first h
theorem hbmScrubPass (slab corrected failed) : Statement (.hbmScrubPass slab corrected failed) := of_none rfl rfl
theorem stackSubstitute (p) : Statement (.stackSubstitute p) := of_none rfl rfl
theorem flitReceive (dst src inject r) : Statement (.flitReceive dst src inject r) := of_none rfl rfl
theorem transportResend (slab tseq atomic dest) : Statement (.transportResend slab tseq atomic dest) :=
  of_none rfl rfl
theorem linkEnWrite (src port en) : Statement (.linkEnWrite src port en) := of_source rfl rfl fun h => first h
theorem linkRetrainWrite (src port) : Statement (.linkRetrainWrite src port) := of_source rfl rfl fun h => first h
theorem linkFrameRx (port symbols) : Statement (.linkFrameRx port symbols) := of_none rfl rfl
theorem linkTrained (port peerPort peerDigest peerEpoch) : Statement (.linkTrained port peerPort peerDigest peerEpoch) :=
  of_none rfl rfl
theorem linkTrainingTimeout (port) : Statement (.linkTrainingTimeout port) := of_none rfl rfl
theorem linkPacketRx (port vc header tagOk) : Statement (.linkPacketRx port vc header tagOk) := of_none rfl rfl
theorem hello (c job tag) : Statement (.hello c job tag) := of_context rfl rfl fun h => of_decide_eq_true (first h)
theorem reply (c job verified serial) : Statement (.reply c job verified serial) :=
  of_context rfl rfl fun h => of_decide_eq_true (first h)
theorem finish (c job verified serial peerWire peerEpoch) : Statement (.finish c job verified serial peerWire peerEpoch) :=
  of_context rfl rfl fun h => of_decide_eq_true (first (first h))
theorem linkOpenTimeout (c q) : Statement (.linkOpenTimeout c q) :=
  of_context rfl rfl fun h => of_decide_eq_true (first h)
theorem collTimeout (c q) : Statement (.collTimeout c q) := of_context rfl rfl fun h => of_decide_eq_true (first h)
theorem vcFrameStart (core) : Statement (.vcFrameStart core) := of_none rfl rfl
theorem vcPieceDone (core) : Statement (.vcPieceDone core) := of_none rfl rfl
theorem vcClaimTimeout (core) : Statement (.vcClaimTimeout core) := of_none rfl rfl
theorem vcReset (src slab) : Statement (.vcReset src slab) := of_source rfl rfl fun h => first h
theorem vcCoreResetDone (slab) : Statement (.vcCoreResetDone slab) := of_none rfl rfl
theorem vcFrameAssemble (c stream) : Statement (.vcFrameAssemble c stream) :=
  of_context rfl rfl fun h => of_decide_eq_true (first h)
theorem idRecord : Statement .idRecord := of_none rfl rfl
theorem attest : Statement .attest := of_none rfl rfl
theorem stageFw : Statement .stageFw := of_none rfl rfl
theorem stageArm : Statement .stageArm := of_none rfl rfl
theorem certAdd : Statement .certAdd := of_none rfl rfl
theorem armApply : Statement .armApply := of_none rfl rfl
theorem armRevert : Statement .armRevert := of_none rfl rfl
theorem armReturn : Statement .armReturn := of_none rfl rfl
theorem armCheck : Statement .armCheck := of_none rfl rfl
theorem partitionSwitch (p) : Statement (.partitionSwitch p) := of_none rfl rfl
theorem digestExchange (p) : Statement (.digestExchange p) := of_none rfl rfl
theorem digestReplyTimeout (p slab) : Statement (.digestReplyTimeout p slab) := of_none rfl rfl
theorem discordRepair (p) : Statement (.discordRepair p) := of_none rfl rfl
theorem meterPeriodTick (m) : Statement (.meterPeriodTick m) := of_none rfl rfl
theorem mReadReq (m) : Statement (.mReadReq m) := of_none rfl rfl
theorem mirrorRequest (m) : Statement (.mirrorRequest m) := of_none rfl rfl
theorem meterSpacingEnd (m) : Statement (.meterSpacingEnd m) := of_none rfl rfl
theorem meterPowerUp (m) : Statement (.meterPowerUp m) := of_none rfl rfl
theorem meterPowerDown (m) : Statement (.meterPowerDown m) := of_none rfl rfl
theorem sealChange (coverClosed filmOk m) : Statement (.sealChange coverClosed filmOk m) := of_none rfl rfl
theorem mPeriodWrite (value) : Statement (.mPeriodWrite value) := of_none rfl rfl
theorem meterPortWrite (addr data) : Statement (.meterPortWrite addr data) := of_none rfl rfl
theorem meterPortRead (len) : Statement (.meterPortRead len) := of_none rfl rfl
theorem mtrSnapReq (src) : Statement (.mtrSnapReq src) := of_source rfl rfl fun h => h
theorem mirrorRecord : Statement .mirrorRecord := of_none rfl rfl
theorem mirrorTimeout : Statement .mirrorTimeout := of_none rfl rfl
theorem registerWrite (src bar addr w) : Statement (.registerWrite src bar addr w) :=
  of_source rfl rfl fun h => first h
theorem aliasViewWrite (src view addr value) : Statement (.aliasViewWrite src view addr value) :=
  of_source rfl rfl fun h => h
theorem indDataAccess (src write) : Statement (.indDataAccess src write) := of_source rfl rfl fun h => h
theorem indirectTimeout (src write) : Statement (.indirectTimeout src write) := of_source rfl rfl fun h => h
theorem mgmtPrivateWrite (data) : Statement (.mgmtPrivateWrite data) := of_none rfl rfl
theorem mgmtPrivateRead : Statement .mgmtPrivateRead := of_none rfl rfl
theorem regAccess (ind addr write) : Statement (.regAccess ind addr write) := of_none rfl rfl
theorem memAccess (hbm addr write) : Statement (.memAccess hbm addr write) := of_none rfl rfl
theorem secStatus : Statement .secStatus := of_none rfl rfl
theorem idcode : Statement .idcode := of_none rfl rfl
theorem extest (v) : Statement (.extest v) := of_none rfl rfl
theorem samplePreload (v) : Statement (.samplePreload v) := of_none rfl rfl
theorem bypass (bit) : Statement (.bypass bit) := of_none rfl rfl
theorem coldPowerOn : Statement .coldPowerOn := of_none rfl rfl
theorem pwrOkFall : Statement .pwrOkFall := of_none rfl rfl
theorem vin48Brownout : Statement .vin48Brownout := of_none rfl rfl
theorem p12vStbyFall : Statement .p12vStbyFall := of_none rfl rfl
theorem sysResetAssert : Statement .sysResetAssert := of_none rfl rfl
theorem sysResetDeassert : Statement .sysResetDeassert := of_none rfl rfl
theorem perstAssert : Statement .perstAssert := of_none rfl rfl
theorem perstDeassert (speed width) : Statement (.perstDeassert speed width) := of_none rfl rfl
theorem hotReset : Statement .hotReset := of_none rfl rfl
theorem secondaryBusReset : Statement .secondaryBusReset := of_none rfl rfl
theorem linkDisable : Statement .linkDisable := of_none rfl rfl
theorem pfFlr : Statement .pfFlr := of_none rfl rfl
theorem vfFlr (n) : Statement (.vfFlr n) := of_none rfl rfl
theorem vfEnableClear : Statement .vfEnableClear := of_none rfl rfl
theorem warm (src) : Statement (.warm src) := of_source rfl rfl fun h => h
theorem preset (src p) : Statement (.preset src p) := of_source rfl rfl fun h => first h
theorem stby (src) : Statement (.stby src) := of_source rfl rfl fun h => h
theorem pwrSlabOffWrite (src word value) : Statement (.pwrSlabOffWrite src word value) :=
  of_source rfl rfl fun h => first h
theorem slabPwr (slab pass) : Statement (.slabPwr slab pass) := of_none rfl rfl
theorem thermalSample (slab tiles stack) : Statement (.thermalSample slab tiles stack) := of_none rfl rfl
theorem thermalRateRaise (slab tiles stack) : Statement (.thermalRateRaise slab tiles stack) := of_none rfl rfl
theorem thermalTrip : Statement .thermalTrip := of_none rfl rfl
theorem oscFail (which) : Statement (.oscFail which) := of_none rfl rfl
theorem p12vStbyRise : Statement .p12vStbyRise := of_none rfl rfl
theorem standbyLost : Statement .standbyLost := of_none rfl rfl
theorem vcCoreFault (core) : Statement (.vcCoreFault core) := of_none rfl rfl
theorem patinaRegionDone (gtid bank failLines) : Statement (.patinaRegionDone gtid bank failLines) :=
  of_none rfl rfl

end Sys2Proof.Laws.Syntax
end

