-- ==== Sys2Proof/Laws/Ports.lean ====
section
/-! SUPPORT. Link ports and jobs: what the failure of a job or a port, a training and an acknowledgement change (R324,
R326, R329). -/

namespace Sys2Proof.Machine

open Sys2Proof

set_option Elab.async false

theorem endUsers_facts (c j p : Nat) (e : Bool) (s : State) : (∀ d i, getJob (endUsers c j p e s) d i = getJob s d i)
    ∧ (endUsers c j p e s).ports = s.ports ∧
    (endUsers c j p e s).ports2 = s.ports2 ∧ ∀ d, d ≠ c → (endUsers c j p e s).ctx d = s.ctx d := by
  unfold endUsers
  refine forAll_keeps (fun t => (∀ d i, getJob t d i = getJob s d i) ∧ t.ports = s.ports ∧ t.ports2 = s.ports2 ∧ ∀ d,
      d ≠ c → t.ctx d = s.ctx d)
    (fun (q : Nat) t => if e then finish c q .epoch [(ctxEpoch t c).toNat] t else finish c q .link [p, j] t) _ ?_ s
        ⟨fun _ _ => rfl, rfl, rfl, fun _ _ => rfl⟩
  rintro q - t ⟨h1, h2, h3, h4⟩
  have key : ∀ st dw, (∀ d i, getJob (finish c q st dw t) d i = getJob s d i) ∧ (finish c q st dw t).ports = s.ports ∧
      (finish c q st dw t).ports2 = s.ports2 ∧
      ∀ d, d ≠ c → (finish c q st dw t).ctx d = s.ctx d := by
    intro st dw
    refine ⟨fun d i => ?_, ?_, ?_, fun d hd => by rw [finish_ctx_other _ _ _ _ hd, h4 d hd]⟩
    · rw [← h1]; unfold getJob
      by_cases hd : d = c
      · subst hd; rw [finish_ctx_same]
      · rw [finish_ctx_other _ _ _ _ hd]
    · rw [finish_eq]; exact h2
    · rw [finish_eq]; exact h3
  split
  · exact key _ _
  · exact key _ _

theorem getJob_setJob (c j d i : Nat) (x : Job) (s : State) : getJob (setJob c j x s) d i = if d = c ∧ i = j then some
    x else getJob s d i := by
  unfold getJob setJob
  by_cases hd : d = c
  · subst hd
    rw [State.modCtx_ctx_self]; dsimp only; rw [aget_aput]
    by_cases hi : i = j <;> simp [hi]
  · rw [State.modCtx_ctx_other _ _ hd, if_neg (by simp [hd])]

theorem getJob_dropJob (c j d i : Nat) (s : State) : getJob (dropJob c j s) d i = if d = c ∧ i = j then none else
    getJob s d i := by
  unfold getJob dropJob
  by_cases hd : d = c
  · subst hd
    rw [State.modCtx_ctx_self]; dsimp only; rw [aget_adel]
    by_cases hi : i = j <;> simp [hi]
  · rw [State.modCtx_ctx_other _ _ hd, if_neg (by simp [hd])]

/-- What the failure of a job does: its own record fails or is dropped; a port keeps all but its events. -/
theorem failJob_facts (c j : Nat) (e : Bool) (s : State) :
    (∀ y, getJob (failJob c j e s) c j = some y → y.st = .failed) ∧ (∀ d i, ¬ (d = c ∧ i = j) → getJob (failJob c j e
        s) d i = getJob s d i) ∧
    (∀ x, getJob s c j = some x → x.st = .open → getJob (failJob c j e s) c j = some
        { x with st := .failed, failEpoch := e }) ∧
    (∀ q, ∃ ev, (failJob c j e s).port q = { s.port q with events := ev }) ∧ (failJob c j e s).ports2 = s.ports2 ∧ ∀
        d, d ≠ c → (failJob c j e s).ctx d = s.ctx d := by
  have ports : ∀ (p : Nat) (u : State), u.ports = s.ports → ∀ q, ∃ ev, (linkEvent p 16 u).port q =
      { s.port q with events := ev } := by
    intro p u hu q
    rw [(posted_linkEvent p 16 u).port]
    have hq : u.port q = s.port q := by unfold State.port; rw [hu]
    by_cases h : q = p
    · subst h; rw [State.modPort_port_self, hq]; exact ⟨_, rfl⟩
    · rw [State.modPort_port_other _ _ h, hq]; exact ⟨_, rfl⟩
  unfold failJob
  cases hj : getJob s c j with
  | none => exact ⟨fun y hy =>
      by simp [hj] at hy, fun _ _ _ => rfl, (fun x hx => by cases hx), fun q => ⟨_, rfl⟩, rfl, fun _ _ => rfl⟩
  | some x =>
    dsimp only
    cases hst : x.st with
    | failed => exact ⟨fun y hy =>
        by rw [hj] at hy; cases hy; exact hst, fun _ _ _ => rfl, (fun y hy ho => by cases hy; rw [hst] at ho; cases ho), fun q => ⟨_, rfl⟩, rfl, fun _ _ => rfl⟩
    | opening =>
      dsimp only
      obtain ⟨u1, u2, u3, u4⟩ := endUsers_facts c j x.port false s
      generalize endUsers c j x.port false s = u at *
      have po := posted_linkEvent x.port 16 (dropJob c j u)
      have hg : ∀ d i, getJob (linkEvent x.port 16 (dropJob c j u)) d i = getJob (dropJob c j u) d i := fun d i =>
          by unfold getJob; rw [po.ctx]; rfl
      refine ⟨fun y hy => ?_, fun d i h => ?_, (fun y hy ho => by cases hy; rw [hst] at ho; cases ho), ports _ _
          (by unfold dropJob; exact u2), ?_, fun d hd => ?_⟩
      · rw [hg, getJob_dropJob, if_pos ⟨rfl, rfl⟩] at hy; cases hy
      · rw [hg, getJob_dropJob, if_neg h, u1]
      · rw [po.ports2]; exact u3
      · rw [po.ctx]; unfold dropJob; rw [State.modPort_ctx, State.modCtx_ctx_other _ _ hd, u4 d hd]
    | _ =>
      dsimp only
      obtain ⟨u1, u2, u3, u4⟩ := endUsers_facts c j x.port e s
      generalize endUsers c j x.port e s = u at *
      have po := posted_linkEvent x.port 16 (setJob c j { x with st := .failed, failEpoch := e } u)
      have hg : ∀ d i, getJob (linkEvent x.port 16 (setJob c j { x with st := .failed, failEpoch := e } u)) d i =
          getJob (setJob c j { x with st := .failed, failEpoch := e } u) d i := fun d i =>
          by unfold getJob; rw [po.ctx]; rfl
      refine ⟨fun y hy => ?_, fun d i h => ?_, (fun y hy ho => ?_), ports _ _ (by unfold setJob; exact u2), ?_, fun d
          hd => ?_⟩
      · rw [hg, getJob_setJob, if_pos ⟨rfl, rfl⟩] at hy; cases hy; rfl
      · rw [hg, getJob_setJob, if_neg h, u1]
      · rw [hg, getJob_setJob, if_pos ⟨rfl, rfl⟩]; cases hy; rfl
      · rw [po.ports2]; exact u3
      · rw [po.ctx]; unfold setJob; rw [State.modPort_ctx, State.modCtx_ctx_other _ _ hd, u4 d hd]

/-- A port that fails: no job of it is OPENING or OPEN after, and it keeps all but its events. -/
theorem failPort_facts (p : Nat) (s : State) :
    (∀ c j x, (c, j, x) ∈ portJobs s p → ∀ y, getJob (failPort p s) c j = some y → y.port = p → y.st = .failed) ∧
    (∀ q, ∃ ev, (failPort p s).port q = { s.port q with events := ev }) ∧ (failPort p s).ports2 = s.ports2 := by
  unfold failPort
  refine ⟨fun c j x hm => ?_, ?_, ?_⟩
  · refine forAll_establishes (fun t => ∀ y, getJob t c j = some y → y.port = p → y.st = .failed) (fun (j : Nat × Nat
      × Job) t => failJob j.1 j.2.1 false t) _ (c, j, x) hm
      (fun t y hy _ => (failJob_facts c j false t).1 y hy) (fun b _ t ht y hy hp => ?_) s
    by_cases h : c = b.1 ∧ j = b.2.1
    · rw [h.1, h.2] at hy; exact (failJob_facts b.1 b.2.1 false t).1 y hy
    · rw [(failJob_facts b.1 b.2.1 false t).2.1 c j h] at hy; exact ht y hy hp
  · refine forAll_keeps (fun t => ∀ q, ∃ ev, t.port q = { s.port q with events := ev }) (fun (j : Nat × Nat × Job) t
      => failJob j.1 j.2.1 false t) _ (fun b _ t ht q => ?_) s fun q => ⟨_, rfl⟩
    obtain ⟨e1, h1⟩ := ht q
    obtain ⟨e2, h2⟩ := (failJob_facts b.1 b.2.1 false t).2.2.2.1 q
    exact ⟨e2, by rw [h2, h1]⟩
  · exact forAll_keeps (fun t => t.ports2 = s.ports2) (fun (j : Nat × Nat × Job) t => failJob j.1 j.2.1 false t) _
      (fun b _ t ht => ((failJob_facts b.1 b.2.1 false t).2.2.2.2.1).trans ht) s rfl

theorem portJobs_ctxs {s t : State} (p : Nat) (h : t.ctxs = s.ctxs) : portJobs t p = portJobs s p := by
  unfold portJobs allJobs definedCtxs State.ctx; rw [h]

theorem retryTraining_facts (p n : Nat) (s : State) : ((retryTraining p n s).port p).failsInRow = n ∧ ((retryTraining
    p n s).port p).laneOk = 0 ∧
      ((retryTraining p n s).port p).st = (if 3 ≤ n then .failed else .training) ∧
      (3 ≤ n → ∀ c j x, (c, j, x) ∈ portJobs s p → ∀ y, getJob (retryTraining p n s) c j = some y → y.port = p → y.st
          = .failed) ∧
      (¬ 3 ≤ n → (retryTraining p n s).ctxs = s.ctxs) := by
  unfold retryTraining
  by_cases h : 3 ≤ n
  · rw [if_pos h, if_pos h]
    obtain ⟨f1, f2, f3⟩ := failPort_facts p (s.modPort p fun x =>
        { x with st := .failed, failsInRow := n, laneOk := 0 })
    have po := posted_linkEvent p 4 (failPort p (s.modPort p fun x =>
        { x with st := .failed, failsInRow := n, laneOk := 0 }))
    rw [portJobs_ctxs (s := s) p (State.modPort_ctxs ..)] at f1
    obtain ⟨ev, f2⟩ := f2 p
    rw [State.modPort_port_self] at f2
    rw [po.port, State.modPort_port_self, f2]
    refine ⟨rfl, rfl, rfl, fun _ c j x hm y hy => f1 c j x hm y ?_, fun h' => absurd h h'⟩
    unfold getJob at *; rw [po.ctx] at hy; exact hy
  · rw [if_neg h, if_neg h, State.modPort_port_self]
    exact ⟨rfl, rfl, rfl, fun h' => absurd h' h, fun _ => rfl⟩

theorem failPort_stay (p q c j : Nat) (s : State) (h : ∀ y, getJob s c j = some y → y.port = p → y.st = .failed) :
    ∀ y, getJob (failPort q s) c j = some y → y.port = p → y.st = .failed := by
  unfold failPort
  refine forAll_keeps (fun t => ∀ y, getJob t c j = some y → y.port = p → y.st = .failed) (fun (j : Nat × Nat × Job) t
      => failJob j.1 j.2.1 false t) _ (fun b _ t ht y hy hp => ?_) s h
  by_cases h : c = b.1 ∧ j = b.2.1
  · rw [h.1, h.2] at hy; exact (failJob_facts b.1 b.2.1 false t).1 y hy
  · rw [(failJob_facts b.1 b.2.1 false t).2.1 c j h] at hy; exact ht y hy hp

theorem retry_stay (p n c j : Nat) (v : State) (h : ∀ y, getJob v c j = some y → y.port = p → y.st = .failed) :
    ∀ y, getJob (retryTraining p n v) c j = some y → y.port = p → y.st = .failed := by
  unfold retryTraining
  split
  · have k := failPort_stay p p c j (v.modPort p fun x => { x with st := .failed, failsInRow := n, laneOk := 0 }) h
    generalize failPort p (v.modPort p fun x => { x with st := .failed, failsInRow := n, laneOk := 0 }) = w at *
    intro y hy
    refine k y ?_
    unfold getJob at *; rw [(posted_linkEvent p 4 w).ctx] at hy; exact hy
  · exact h

/-- Every job of a port that has failed stays failed while the training is tried again. -/
theorem retry_after (p n : Nat) (s : State) : 
    (∀ c j x, (c, j, x) ∈ portJobs s p → ∀ y, getJob (retryTraining p n (failPort p s)) c j = some y → y.port = p →
        y.st = .failed) := by
  intro c j x hm
  exact retry_stay p n c j _ ((failPort_facts p s).1 c j x hm)

/-- Sending what waits moves only the port's slot count and its next frame number. -/
theorem drainPort_port (p : Nat) (s : State) : (drainPort p s).port p =
    { s.port p with tx := ((drainPort p s).port p).tx, txNext := ((drainPort p s).port p).txNext } := by
  unfold drainPort
  dsimp only
  split
  · rw [State.modPort2_port, State.modPort_port_self]
  · rfl

theorem frameAck_port (p ack : Nat) (nak : Bool) (credits : List Nat) (s : State) :
    ((frameAck p nak ack credits s).port p).txAcked = ack ∧ ((frameAck p nak ack credits s).port p).rxNext = (s.port
        p).rxNext ∧
    ((frameAck p nak ack credits s).port p).rx = (s.port p).rx ∧ ((frameAck p nak ack credits s).port p).fecSym =
        (s.port p).fecSym := by
  unfold frameAck
  extract_lets x y moved naks u v
  have hv : v.port p =
      { s.port p with txAcked := ack, replays := if nak then (s.port p).replays + 1 else (s.port p).replays } := by
    unfold v u; rw [State.setPort2_port, State.setPort_port_self]
  clear_value v
  split
  · unfold startRetrain
    split
    · rw [State.modPort2_port, State.modPort_port_self, hv]; exact ⟨rfl, rfl, rfl, rfl⟩
    · rw [hv]; exact ⟨rfl, rfl, rfl, rfl⟩
  · rw [drainPort_port, hv]; exact ⟨rfl, rfl, rfl, rfl⟩

theorem frameAck_nak (p : Nat) (credits : List Nat) (s : State) (ha : (s.port p).st = .active) (h1 : (s.port2
    p).nakSeq = (s.port p).txAcked) (h2 : (s.port2 p).naks = 15) :
    ((frameAck p true (s.port p).txAcked credits s).port p).st = .retrain ∧ ((frameAck p true (s.port p).txAcked
        credits s).port p).retrains = (s.port p).retrains + 1 ∧
    ((frameAck p true (s.port p).txAcked credits s).port p).replays = (s.port p).replays + 1 := by
  unfold frameAck
  extract_lets x y moved naks u v
  have hv : v.port p = { s.port p with replays := (s.port p).replays + 1 } := by
    unfold v u; rw [State.setPort2_port, State.setPort_port_self]; rfl
  have hn : naks = 16 := by
    unfold naks moved y x
    rw [if_pos rfl, h1, h2]; simp
  rw [hn, if_pos (by decide)]
  clear_value v
  unfold startRetrain
  rw [if_pos (by rw [hv]; exact ha), State.modPort2_port, State.modPort_port_self, hv]
  exact ⟨rfl, rfl, rfl⟩

end Sys2Proof.Machine
end

