-- ==== Sys2Proof/Laws/Retiring.lean ====
section
/-! SUPPORT. Losing tiles, slabs and contexts: what each shared operation of a retirement changes (R23, R24, R280, R282,
R398, R470). -/

namespace Sys2Proof.Machine

open Sys2Proof

set_option Elab.async false

theorem div_low (lo x p : Nat) (h : lo < 2 ^ p) : (lo + x * 2 ^ p) / 2 ^ p = x := by
  rw [Nat.add_mul_div_right _ _ (Nat.two_pow_pos p), Nat.div_eq_of_lt h, Nat.zero_add]

theorem bits_split (v p w k : Nat) : ∃ lo hi, lo < 2 ^ p ∧ v = lo + (bits v p w + hi * 2 ^ w) * 2 ^ p ∧
    v - sh (bits v p w) p + sh k p = lo + (k + hi * 2 ^ w) * 2 ^ p := by
  refine ⟨v % 2 ^ p, v >>> p / 2 ^ w, Nat.mod_lt _ (Nat.two_pow_pos p), ?_, ?_⟩
  all_goals
    have h1 := Nat.div_add_mod v (2 ^ p)
    have h2 := Nat.div_add_mod (v >>> p) (2 ^ w)
    simp only [bits, sh, Nat.shiftLeft_eq, Nat.shiftRight_eq_div_pow] at *
    generalize v / 2 ^ p / 2 ^ w = hi at *
    generalize v / 2 ^ p % 2 ^ w = o at *
    have h3 : (o + hi * 2 ^ w) = v / 2 ^ p := by rw [← h2]; ring
  · rw [h3, Nat.mul_comm, Nat.add_comm]; exact h1.symm
  · have h4 : v = v % 2 ^ p + (o + hi * 2 ^ w) * 2 ^ p := by rw [h3, Nat.mul_comm, Nat.add_comm]; exact h1.symm
    have h5 : (o + hi * 2 ^ w) * 2 ^ p = o * 2 ^ p + hi * 2 ^ w * 2 ^ p := by ring
    have h6 : (k + hi * 2 ^ w) * 2 ^ p = k * 2 ^ p + hi * 2 ^ w * 2 ^ p := by ring
    rw [h6]; rw [h5] at h4; omega

theorem bits_put_same (v p w k : Nat) (hk : k < 2 ^ w) : bits (v - sh (bits v p w) p + sh k p) p w = k := by
  obtain ⟨lo, hi, h1, h2, h3⟩ := bits_split v p w k
  rw [h3]; unfold bits
  rw [Nat.shiftRight_eq_div_pow, div_low _ _ _ h1, Nat.add_mul_mod_self_right, Nat.mod_eq_of_lt hk]

theorem bits_put_other (v p w k q x : Nat) (hk : k < 2 ^ w) (h : q + x ≤ p ∨ p + w ≤ q) :
    bits (v - sh (bits v p w) p + sh k p) q x = bits v q x := by
  obtain ⟨lo, hi, h1, h2, h3⟩ := bits_split v p w k
  rw [h3]
  have ho : bits v p w < 2 ^ w := Nat.mod_lt _ (Nat.two_pow_pos w)
  generalize bits v p w = o at *
  rw [h2]; clear h2 h3
  have low : ∀ a b, bits (lo + a * 2 ^ p) q x = bits (lo + b * 2 ^ p) q x ∨ p + w ≤ q := by
    intro a b
    rcases h with h | h
    · left
      have : ∀ a, bits (lo + a * 2 ^ p) q x = bits lo q x := by
        intro a
        unfold bits
        obtain ⟨e, rfl⟩ := Nat.exists_eq_add_of_le h
        have : lo + a * 2 ^ (q + x + e) = lo + (a * 2 ^ e * 2 ^ x) * 2 ^ q := by ring
        rw [this, Nat.shiftRight_eq_div_pow, Nat.add_mul_div_right _ _ (Nat.two_pow_pos q),
            Nat.add_mul_mod_self_right,
          Nat.shiftRight_eq_div_pow]
      rw [this, this]
    · exact .inr h
  rcases low (k + hi * 2 ^ w) (o + hi * 2 ^ w) with e | e
  · exact e
  · unfold bits
    obtain ⟨d, rfl⟩ := Nat.exists_eq_add_of_le e
    have : ∀ o, o < 2 ^ w → (lo + (o + hi * 2 ^ w) * 2 ^ p) >>> (p + w + d) = hi >>> d := by
      intro o ho
      rw [Nat.shiftRight_add, Nat.shiftRight_add, Nat.shiftRight_eq_div_pow _ p, div_low _ _ _ h1,
          Nat.shiftRight_eq_div_pow _ w, div_low _ _ _ ho]
    rw [this k hk, this o ho]

theorem bits_mod (v n q x : Nat) (h : q + x ≤ n) : bits (v % 2 ^ n) q x = bits v q x := by
  unfold bits
  apply Nat.eq_of_testBit_eq
  intro i
  simp only [Nat.testBit_mod_two_pow, Nat.testBit_shiftRight]
  by_cases hi : i < x
  · have : q + i < n := by omega
    simp [hi, this]
  · simp [hi]

theorem bankIx_inj {g g' j k : Nat} (hj : j < 4) (hk : k < 4) (h : bankIx g j = bankIx g' k) : g = g' ∧ j = k := by
  unfold bankIx at h; omega

theorem slabTiles_nodup (n : Nat) : (slabTiles n).Nodup := by
  unfold slabTiles
  refine List.Nodup.map ?_ List.nodup_range
  intro a b h; simpa using h

/-- A change of each of the four banks of a tile. -/
theorem tileBanks_bank (h : Nat → Bank → Bank) (g : Nat) (s : State) (g' k : Nat) (hk : k < 4) :
    (forAll (List.range 4) (fun j t => t.modBank (bankIx g j) (h j)) s).bank (bankIx g' k) =
      if g' = g then h k (s.bank (bankIx g' k)) else s.bank (bankIx g' k) := by
  split
  · next e =>
    subst e
    rw [forAll_pointwise (fun (t : State) j => t.bank (bankIx g' j)) (fun j t => t.modBank (bankIx g' j) (h j)) (fun j
        b => h j b) (fun _ => True)
      (fun a t _ => by rw [State.modBank_bank_self]) (fun a b t hb => by
        rw [State.modBank_bank_other]; intro e; unfold bankIx at e; omega) (fun _ _ _ => trivial) _ List.nodup_range s
            trivial k,
      if_pos (List.mem_range.2 hk)]
  · next hg =>
    rw [forAll_other (fun t : State => t.bank (bankIx g' k)) (fun j t => t.modBank (bankIx g j) (h j)) (List.range 4)
        (fun j hj t => by
      rw [State.modBank_bank_other]; intro e; exact hg (bankIx_inj hk (List.mem_range.1 hj) e).1) s]

theorem tileBanks_else {β : Type} (acc : State → β) (h : Nat → Bank → Bank) (hacc : ∀ s i b, acc (s.setBank i b) = acc
    s) (g : Nat) (s : State) :
    acc (forAll (List.range 4) (fun j t => t.modBank (bankIx g j) (h j)) s) = acc s :=
  forAll_other acc (fun j t => t.modBank (bankIx g j) (h j)) (List.range 4) (fun _ _ t => hacc t _ _) s

theorem posOf_server {s : State} {pos n : Nat} (h : serverOf s pos = some n) : posOf s n = pos := by
  unfold serverOf at h
  unfold posOf
  split at h
  · next e => cases h; rw [e]; rfl
  · have := List.find?_some h; simp at this; rw [if_pos this.1, this.2]

theorem any_tins {α : Type} (l : Tbl α) (k : Nat) (v : α) (p : Nat × α → Bool) :
    (tins k v l).any p = (p (k, v) || l.any p) := by
  induction l with
  | nil => rfl
  | cons e l ih =>
    unfold tins
    split
    · rfl
    · rw [List.any_cons, List.any_cons, ih, Bool.or_left_comm]

/-- A spare line that takes a line is one less to take; the one it replaces is unusable (R280). -/
theorem spares_take {b : Bank} {line i : Nat} {rs : List Nat} (h : b.spares = i :: rs) :
    Bank.spares { b with
      spared := aput b.spared line i,
      badSpares := b.badSpares ++ (b.spared.filter fun e => e.1 == line).map Prod.snd } = rs := by
  have hi : i ∉ rs := by
    have n : b.spares.Nodup := List.Nodup.filter _ List.nodup_range
    rw [h] at n
    exact (List.nodup_cons.1 n).1
  have hr : rs = b.spares.filter fun x => x != i := by
    rw [h, List.filter_cons, if_neg (by simp), List.filter_eq_self.2 fun x hx => by
      have : x ≠ i := fun e => hi (e ▸ hx)
      simpa using this]
  rw [hr]
  unfold Bank.spares
  rw [List.filter_filter]
  refine List.filter_congr fun x _ => ?_
  dsimp only
  unfold aput tdel
  rw [any_tins]
  have e : (!(b.badSpares ++ (b.spared.filter fun e => e.1 == line).map Prod.snd).contains x &&
      !(((line, i).2 == x) || (b.spared.filter fun p => p.1 != line).any fun e => e.2 == x)) = true ↔
      ((x != i) && (!b.badSpares.contains x && !b.spared.any fun e => e.2 == x)) = true := by
    simp only [List.contains_eq_mem, List.mem_append, List.mem_map, List.mem_filter, Bool.and_eq_true, Bool.not_eq_true',
      decide_eq_false_iff_not, Bool.or_eq_false_iff, List.any_eq_false, beq_eq_false_iff_ne, beq_iff_eq, bne_iff_ne, not_or,
      not_exists, not_and, and_imp]
    constructor
    · rintro ⟨⟨h1, h2⟩, h3, h4⟩
      refine ⟨fun e => h3 e.symm, h1, fun e he hx => ?_⟩
      by_cases hl : e.1 = line
      · exact h2 e he hl hx
      · exact h4 e he hl hx
    · rintro ⟨h1, h2, h3⟩
      exact ⟨⟨h2, fun e he _ hx => h3 e he hx⟩, fun e => h1 e.symm, fun e he _ hx => h3 e he hx⟩
  exact Bool.eq_iff_iff.2 e

/-- A spare line that fails is one less to take (R280). -/
theorem spares_bad (b : Bank) (j : Nat) :
    Bank.spares { b with badSpares := b.badSpares.filter (· != j) ++ [j] } = b.spares.filter (· != j) := by
  unfold Bank.spares
  rw [List.filter_filter]
  refine List.filter_congr fun x _ => ?_
  dsimp only
  have e : (!(b.badSpares.filter (· != j) ++ [j]).contains x) = ((x != j) && !b.badSpares.contains x) := by
    rw [Bool.eq_iff_iff]
    simp only [List.contains_eq_mem, List.mem_append, List.mem_filter, List.mem_singleton, Bool.and_eq_true,
      Bool.not_eq_true', decide_eq_false_iff_not, bne_iff_ne, not_or, not_and, not_not]
    constructor
    · rintro ⟨h1, h2⟩; exact ⟨h2, fun h => h2 (h1 h)⟩
    · rintro ⟨h1, h2⟩; exact ⟨fun h => absurd h h2, h1⟩
  rw [e, Bool.and_assoc]

/-- What one failing line changes: the bank's spare lines and its own flag, the repair log, the event, and, where no spare
line is left, the stop that holds the tile's work. -/
theorem failLine_facts (n g k line : Nat) (s : State) :
    (∀ j, j ≠ bankIx g k → (failLine n g k line s).bank j = s.bank j) ∧ (failLine n g k line s).parts = s.parts ∧
    ((failLine n g k line s).bank (bankIx g k)).testing = (s.bank (bankIx g k)).testing ∧
    ((failLine n g k line s).bank (bankIx g k)).spares =
      (if 642 ≤ line then (s.bank (bankIx g k)).spares.filter (· != line - 642) else (s.bank (bankIx g k)).spares.tail) ∧
    (line < 642 → ((failLine n g k line s).bank (bankIx g k)).redirectHeld =
      ((s.bank (bankIx g k)).redirectHeld || (s.bank (bankIx g k)).spares.isEmpty)) ∧
    (∀ p, partOf s (g / 64) = some p →
      ((s.bank (bankIx g k)).redirectHeld = true → b0 = false → (s.part2 p).stopped.contains (.tileMove g) = true) →
      ((failLine n g k line s).bank (bankIx g k)).redirectHeld = true → b0 = false →
      ((failLine n g k line s).part2 p).stopped.contains (.tileMove g) = true) := by
  unfold failLine
  extract_lets b bad x2
  have hb : s.bank (bankIx g k) = b := rfl
  rw [hb]
  split
  · next h =>
    refine ⟨fun j hj => State.setBank_bank_other _ _ hj, rfl, ?_, ?_, fun h' => absurd h' (by omega), fun p _ hp => ?_⟩ <;>
      rw [State.setBank_bank_self]
    · exact spares_bad b _
    · exact hp
  · next hl =>
    split
    · next i rs h =>
      have po := posted_bankEvent n 8 (logFact 1 n (siteOf (s.slab n) (g % 64)) k line
          (s.setBank (bankIx g k) { b with spared := aput b.spared line i, badSpares := bad }))
      have e1 : ∀ j, (bankEvent n 8 (logFact 1 n (siteOf (s.slab n) (g % 64)) k line
          (s.setBank (bankIx g k) { b with spared := aput b.spared line i, badSpares := bad }))).bank j =
        (s.setBank (bankIx g k) { b with spared := aput b.spared line i, badSpares := bad }).bank j := by
        intro j; rw [po.bank]; rfl
      refine ⟨fun j hj => by rw [e1, State.setBank_bank_other _ _ hj], by rw [po.parts]; rfl, ?_, ?_, fun _ => ?_,
        fun p _ hp => ?_⟩
      any_goals rw [e1, State.setBank_bank_self]
      · rw [h]; exact spares_take h
      · rw [h]; simp
      · rw [po.part2]; exact hp
    · next h =>
      have po := posted_bankEvent n 1 (s.setBank (bankIx g k) { b with redirectHeld := true })
      have e1 : ∀ j, x2.bank j = (s.setBank (bankIx g k) { b with redirectHeld := true }).bank j := by
        intro j; unfold x2; rw [po.bank]; rfl
      have e2 : x2.parts = s.parts := by unfold x2; rw [po.parts]; rfl
      have e3 : partOf x2 (g / 64) = partOf s (g / 64) := by unfold partOf State.part; rw [e2]
      have key : ∀ u : State, (∀ j, u.bank j = x2.bank j) → u.parts = x2.parts → (∀ p, partOf s (g / 64) = some p →
          (u.part2 p).stopped.contains (.tileMove g) = true) →
        (∀ j, j ≠ bankIx g k → u.bank j = s.bank j) ∧ u.parts = s.parts ∧
        (u.bank (bankIx g k)).testing = b.testing ∧ (u.bank (bankIx g k)).spares = b.spares.tail ∧
        (line < 642 → (u.bank (bankIx g k)).redirectHeld = (b.redirectHeld || b.spares.isEmpty)) ∧
        (∀ p, partOf s (g / 64) = some p →
          (b.redirectHeld = true → b0 = false → (s.part2 p).stopped.contains (.tileMove g) = true) →
          (u.bank (bankIx g k)).redirectHeld = true → b0 = false →
          (u.part2 p).stopped.contains (.tileMove g) = true) := by
        intro u h1 h2 h3
        refine ⟨fun j hj => by rw [h1, e1, State.setBank_bank_other _ _ hj], h2.trans e2, ?_, ?_, fun _ => ?_,
          fun p hp _ _ _ => h3 p hp⟩ <;>
          rw [h1, e1, State.setBank_bank_self]
        · rw [h]; exact h
        · simp [h]
      rw [e3]
      split
      · next p hp =>
        refine key _ (fun j => ?_) ?_ fun q hq => ?_
        · unfold addStop; split <;> rfl
        · unfold addStop; split <;> rfl
        · rw [hp] at hq; cases hq
          unfold addStop; split
          · assumption
          · rw [State.modPart2_part2_self]; simp
      · next hp => exact key _ (fun _ => rfl) rfl fun q hq => by rw [hp] at hq; cases hq

theorem failLines_facts (n g k : Nat) (b0 : Bool) (fails : List Nat) (s : State) :
    (∀ j, j ≠ bankIx g k → (forAll fails (fun l t => failLine n g k l t) s).bank j = s.bank j) ∧
    ((forAll fails (fun l t => failLine n g k l t) s).bank (bankIx g k)).testing = (s.bank (bankIx g k)).testing ∧
    ((∀ l ∈ fails, l < 642) →
      ((forAll fails (fun l t => failLine n g k l t) s).bank (bankIx g k)).spares =
        (s.bank (bankIx g k)).spares.drop fails.length ∧
      ((forAll fails (fun l t => failLine n g k l t) s).bank (bankIx g k)).redirectHeld =
        ((s.bank (bankIx g k)).redirectHeld || decide ((s.bank (bankIx g k)).spares.length < fails.length))) ∧
    (∀ p, partOf s (g / 64) = some p →
      ((s.bank (bankIx g k)).redirectHeld = true → b0 = false → (s.part2 p).stopped.contains (.tileMove g) = true) →
      ((forAll fails (fun l t => failLine n g k l t) s).bank (bankIx g k)).redirectHeld = true → b0 = false →
      ((forAll fails (fun l t => failLine n g k l t) s).part2 p).stopped.contains (.tileMove g) = true) := by
  unfold forAll
  induction fails generalizing s with
  | nil => simp
  | cons l r ih =>
    obtain ⟨a1, a2, a3, a4, a5, a6⟩ := failLine_facts (b0 := b0) n g k l s
    obtain ⟨i1, i2, i3, i4⟩ := ih (failLine n g k l s)
    rw [List.foldl_cons]
    refine ⟨fun j hj => (i1 j hj).trans (a1 j hj), i2.trans a3, fun hl => ?_, fun p hp h0 => ?_⟩
    · have h1 := hl l (List.mem_cons_self ..)
      obtain ⟨j1, j2⟩ := i3 fun x hx => hl x (List.mem_cons_of_mem _ hx)
      rw [if_neg (by omega)] at a4
      refine ⟨by rw [j1, a4, List.length_cons, List.drop_tail], ?_⟩
      rw [j2, a5 h1, a4, Bool.or_assoc]
      congr 1
      generalize (s.bank (bankIx g k)).spares = w
      cases w with
      | nil => simp
      | cons x w =>
        rw [List.isEmpty_cons, List.tail_cons, Bool.false_or, List.length_cons, List.length_cons]
        exact decide_eq_decide.2 (by omega)
    · exact i4 p (by unfold partOf State.part at *; rw [a2]; exact hp) (a6 p hp h0)

theorem takeSite_facts (t k : Nat) (x : Slab) (ht : t < 64) (hk : k = 64 ∨ k = 65) (hne : siteOf x t ≠ k) (hlt :
    siteOf x t < 80) :
    siteOf (takeSite t k x) t = k ∧ siteSt (takeSite t k x) (siteOf x t) = 2 ∧ siteSt (takeSite t k x) k = 0 ∧
    (∀ u, u < 64 → u ≠ t → siteOf (takeSite t k x) u = siteOf x u) ∧
    (∀ j, j < 80 → j ≠ k → j ≠ siteOf x t → siteSt (takeSite t k x) j = siteSt x j) := by
  have m1 : ∀ u, u < 64 → siteOf (takeSite t k x) u = bits (x.tileMap.toNat - sh (siteOf x t) (8 * t) + sh k (8 * t))
      (8 * u) 7 := by
    intro u hu; unfold siteOf takeSite; dsimp only; rw [BitVec.toNat_ofNat, bits_mod _ _ _ _ (by omega)]; rfl
  have m2 : ∀ j, j < 80 → siteSt (takeSite t k x) j = bits (x.siteState.toNat - sh (siteSt x (siteOf x t)) (2 * siteOf
      x t) + sh 2 (2 * siteOf x t) - sh (siteSt x k) (2 * k)) (2 * j) 2 := by
    intro u hu; unfold siteSt takeSite; dsimp only; rw [BitVec.toNat_ofNat, bits_mod _ _ _ _ (by omega)]; rfl
  have hk128 : k < 2 ^ 7 := by omega
  have m3 : ∀ j, j < 80 → siteSt (takeSite t k x) j = if j = k then 0 else if j = siteOf x t then 2 else siteSt x j :=
      by
    intro j hj
    rw [m2 j hj]
    generalize siteOf x t = o at *
    generalize hv : x.siteState.toNat - sh (siteSt x o) (2 * o) + sh 2 (2 * o) = v
    have v1 : bits v (2 * k) 2 = siteSt x k := by
      rw [← hv]; exact bits_put_other _ _ 2 2 _ 2 (by decide) (by omega)
    have e := bits_put_same v (2 * k) 2 0 (by decide)
    have e' := bits_put_other v (2 * k) 2 0 (2 * j) 2 (by decide)
    rw [v1, show sh 0 (2 * k) = 0 by simp [sh], Nat.add_zero] at e
    have e' : (2 * j + 2 ≤ 2 * k ∨ 2 * k + 2 ≤ 2 * j) → _ := fun h => e' h
    rw [v1, show sh 0 (2 * k) = 0 by simp [sh]] at e'
    simp only [Nat.add_zero] at e'
    split
    · next h => subst h; exact e
    · next h =>
      rw [e' (by omega), ← hv]
      split
      · next h => subst h; exact bits_put_same _ _ 2 2 (by decide)
      · next h => exact bits_put_other _ _ 2 2 _ 2 (by decide) (by omega)
  refine ⟨?_, ?_, ?_, fun u hu hne => ?_, fun j hj h1 h2 => ?_⟩
  · rw [m1 t ht]; exact bits_put_same _ _ 7 k hk128
  · rw [m3 _ hlt, if_neg hne, if_pos rfl]
  · rw [m3 k (by omega), if_pos rfl]
  · rw [m1 u hu]; exact bits_put_other _ _ 7 k _ 7 hk128 (by omega)
  · rw [m3 j hj, if_neg h1, if_neg h2]

theorem Keeps.slabs {F : List SField} {s t : State} (k : Keeps F s t) (hF : SField.slabs ∉ F := by decide) : t.slabs =
    s.slabs := k.only _ hF

theorem Keeps.slab {F : List SField} {s t : State} (k : Keeps F s t) (n : Nat) (hF : SField.slabs ∉ F := by decide) :
    t.slab n = s.slab n :=
  congrArg (fun x => tget Slab.init x n) (k.only _ hF)

theorem loseCtx_other (reason slab c d : Nat) (s : State) (h : d ≠ c) : (loseCtx reason slab c s).ctx d = s.ctx d :=
    by
  by_cases hc : c = 0 ∨ (s.ctx c).reg.st = .free ∨ (s.ctx c).reg.st = .lost
  · unfold loseCtx; rw [if_pos hc]
  · have hc' := not_or.1 hc
    have hc'' := not_or.1 hc'.2
    rw [loseCtx_eq reason slab c s hc'.1 hc''.1 hc''.2]
    rw [(posted_postBoth _ 0x0005 slab c _ _).ctx, (posted_ctxEvent c 1 _).ctx, State.modCtx_ctx_other _ _ h,
      State.modCtx_ctx_other _ _ h]
    exact ((near_releaseAll (near_freeHeld (near_fixForms (.refl _) _)) _ : Near c _ _).others d h).trans
        (State.modCtx_ctx_other _ _ h)

theorem partitionFault_facts (reason slab p c : Nat) (s : State) (hc : c ∈ faultCtxs s p) (h0 : c ≠ 0) (hf : (s.ctx
    c).reg.st ≠ .free)
    (hl : (s.ctx c).reg.st ≠ .lost) :
    ((partitionFault reason slab p s).ctx c).reg.st = .lost ∧ ((partitionFault reason slab p s).ctx c).reg.lossReason
        = reason := by
  unfold partitionFault
  generalize faultCtxs s p = l at hc
  have stay : ∀ d (t : State), (t.ctx c).reg.st = .lost ∧ (t.ctx c).reg.lossReason = reason →
      ((loseCtx reason slab d t).ctx c).reg.st = .lost ∧ ((loseCtx reason slab d t).ctx c).reg.lossReason = reason :=
          by
    intro d t h
    by_cases hd : c = d
    · subst hd; unfold loseCtx; dsimp only; rw [if_pos (.inr (.inr h.1))]; exact h
    · rw [loseCtx_other _ _ _ _ _ hd]; exact h
  unfold forAll
  induction l generalizing s with
  | nil => cases hc
  | cons a r ih =>
    rw [List.foldl_cons]
    by_cases ha : c = a
    · subst ha
      have f := loseCtx_facts reason slab c s h0 hf hl
      exact forAll_keeps (fun t => (t.ctx c).reg.st = .lost ∧ (t.ctx c).reg.lossReason = reason) (fun (d : Nat) t =>
          loseCtx reason slab d t) r (fun d _ t ht => stay d t ht) _ ⟨f.1, f.2.1⟩
    · have e := loseCtx_other reason slab a c s ha
      exact ih _ (by rw [e]; exact hf) (by rw [e]; exact hl) ((List.mem_cons.1 hc).resolve_left ha)

def pick {α : Type} (better : α → α → Prop) [∀ a b, Decidable (better a b)] (best : Option α) (n : α) : Option α :=
  match best with
  | none => some n
  | some b => if better n b then some n else some b

theorem fewest {α : Type} (better : α → α → Prop) [∀ a b, Decidable (better a b)] (d : α → Nat) (hb : ∀ a b, better a
    b → d a ≤ d b) (hb' : ∀ a b, ¬ better a b → d b ≤ d a)
    (l : List α) :
    (l.foldl (pick better) none = none ↔ l = []) ∧
    ∀ x, l.foldl (pick better) none = some x → x ∈ l ∧ ∀ m ∈ l, d x ≤ d m := by
  have key : ∀ (l : List α) (b : α), ∃ x, l.foldl (pick better) (some b) = some x ∧ (x = b ∨ x ∈ l) ∧ d x ≤ d b ∧ ∀ m
      ∈ l, d x ≤ d m := by
    intro l
    induction l with
    | nil => exact fun b => ⟨b, rfl, .inl rfl, le_rfl, by simp⟩
    | cons a r ih =>
      intro b
      rw [List.foldl_cons]
      unfold pick
      dsimp only
      by_cases h : better a b
      · obtain ⟨x, e, hx, h1, h2⟩ := ih a
        refine ⟨x, by rw [if_pos h]; exact e, ?_, h1.trans (hb _ _ h), fun m hm => ?_⟩
        · rcases hx with rfl | hx
          · exact .inr (List.mem_cons_self ..)
          · exact .inr (List.mem_cons_of_mem _ hx)
        · rcases List.mem_cons.1 hm with rfl | hm
          · exact h1
          · exact h2 m hm
      · obtain ⟨x, e, hx, h1, h2⟩ := ih b
        refine ⟨x, by rw [if_neg h]; exact e, ?_, h1, fun m hm => ?_⟩
        · rcases hx with rfl | hx
          · exact .inl rfl
          · exact .inr (List.mem_cons_of_mem _ hx)
        · rcases List.mem_cons.1 hm with rfl | hm
          · exact h1.trans (hb' _ _ h)
          · exact h2 m hm
  cases l with
  | nil => simp
  | cons a r =>
    rw [List.foldl_cons]
    obtain ⟨x, e, hx, h1, h2⟩ := key r a
    change (List.foldl (pick better) (some a) r = none ↔ _) ∧ ∀ x, List.foldl (pick better) (some a) r = some x → _
    rw [e]
    refine ⟨by simp, fun y hy => ?_⟩
    cases hy
    refine ⟨?_, fun m hm => ?_⟩
    · rcases hx with rfl | hx
      · exact List.mem_cons_self ..
      · exact List.mem_cons_of_mem _ hx
    · rcases List.mem_cons.1 hm with rfl | hm
      · exact h1
      · exact h2 m hm

theorem chooseSpare_facts (s : State) (pos : Nat) : (chooseSpare s pos = none ↔ idleSpares s = []) ∧
    ∀ x, chooseSpare s pos = some x → x ∈ idleSpares s ∧ ∀ m ∈ idleSpares s, hops x pos ≤ hops m pos := by
  have := fewest (fun n b => hops n pos < hops b pos ∨ (hops n pos = hops b pos ∧ payField (armOfPos s pos) (slabOff n
      + 1) 0 8 < payField (armOfPos s pos) (slabOff b + 1) 0 8))
    (fun n => hops n pos) (fun a b h => by omega) (fun a b h => by omega) (idleSpares s)
  have e : chooseSpare s pos = (idleSpares s).foldl (pick fun n b => hops n pos < hops b pos ∨ (hops n pos = hops b
      pos ∧ payField (armOfPos s pos) (slabOff n + 1) 0 8 < payField (armOfPos s pos) (slabOff b + 1) 0 8)) none := by
    unfold chooseSpare
    dsimp only
    congr 1
    funext best n
    cases best <;> rfl
  rw [e]
  exact this

theorem rampsStop_slabs (n : Nat) (s : State) : (rampsStop n s).slabs = s.slabs :=
  Keeps.slabs (keeps_rampsStop (F := [.tiles]) (.refl s) n (hF := List.Subset.refl _))

/-- An Armature's words change, of the slabs, the slab's own `ARRAY_CTRL` and the event of a ramp switched off (R69, R461). -/
theorem applyWords_slab (n : Nat) (a : Option Image) (s : State) :
    (∀ m, m ≠ n → (applyWords n a s).slab m = s.slab m) ∧ (applyWords n a s).slab n =
      { s.slab n with
        arrayCtrl := w32 (payField a (slabOff n + 4) 0 32), arrayEvents := ((applyWords n a s).slab n).arrayEvents } := by
  unfold applyWords
  extract_lets w off u v x
  have hu : (∀ m, m ≠ n → u.slab m = s.slab m) ∧
      u.slab n = { s.slab n with arrayCtrl := w32 (payField a (slabOff n + 4) 0 32) } :=
    ⟨fun m hm => State.modSlab_slab_other _ _ hm, State.modSlab_slab_self ..⟩
  have hv : (∀ m, m ≠ n → v.slab m = s.slab m) ∧ v.slab n = { s.slab n with
      arrayCtrl := w32 (payField a (slabOff n + 4) 0 32), arrayEvents := (v.slab n).arrayEvents } := by
    unfold v
    split
    · have e : ∀ m, (rampsStop n u).slab m = u.slab m := fun m =>
        congrArg (fun y => tget Slab.init y m) (rampsStop_slabs n u)
      refine ⟨fun m hm => ?_, ?_⟩
      · rw [(posted_arrayEvent ..).slab, State.modSlab_slab_other _ _ hm, e, hu.1 m hm]
      · rw [(posted_arrayEvent ..).slab, State.modSlab_slab_self, e, hu.2]
    · exact ⟨hu.1, by rw [hu.2]⟩
  have hx : ∀ m, x.slab m = v.slab m := fun m => rfl
  clear_value v x
  have done : ∀ y : State, y.slabs = x.slabs → (∀ m, m ≠ n → y.slab m = s.slab m) ∧ y.slab n = { s.slab n with
      arrayCtrl := w32 (payField a (slabOff n + 4) 0 32), arrayEvents := (y.slab n).arrayEvents } := by
    intro y hy
    have e : ∀ m, y.slab m = v.slab m := fun m => (congrArg (fun z => tget Slab.init z m) hy).trans (hx m)
    simp only [e]
    exact hv
  split
  · next p hp =>
    refine done _ (Keeps.slabs (F := [SField.env, .hostMem, .pcie, .ports, .ports2, .tiles, .ctxs, .funcs]) ?_)
    exact keeps_portEnable (Keeps.modPort (.refl x) p _ (hF := by decide)) p _ (hF := by decide)
  · exact done _ rfl

/-- Slab sp serves a position, and no other slab has changed. -/
def Serves (sp pos : Nat) (s t : State) : Prop :=
  (t.slab sp).st = .serving ∧ (t.slab sp).serves = pos ∧ (t.slab sp).coreOn = true ∧ ∀ m, m ≠ sp → t.slab m = s.slab m

theorem Serves.of_slabs {sp pos : Nat} {s t u : State} (h : Serves sp pos s t) (e : u.slabs = t.slabs) :
    Serves sp pos s u := by
  have e : ∀ m, u.slab m = t.slab m := fun m => congrArg (fun x => tget Slab.init x m) e
  unfold Serves
  simp only [e]
  exact h

theorem Serves.modSlab {sp pos : Nat} {s t : State} (h : Serves sp pos s t) (f : Slab → Slab)
    (hf : ∀ x, (f x).st = x.st ∧ (f x).serves = x.serves ∧ (f x).coreOn = x.coreOn := by exact fun _ => ⟨rfl, rfl, rfl⟩) :
    Serves sp pos s (t.modSlab sp f) := by
  unfold Serves
  rw [State.modSlab_slab_self, (hf _).1, (hf _).2.1, (hf _).2.2]
  exact ⟨h.1, h.2.1, h.2.2.1, fun m hm => by rw [State.modSlab_slab_other _ _ hm, h.2.2.2 m hm]⟩

theorem Serves.modSlab2 {sp pos : Nat} {s t : State} (h : Serves sp pos s t) (n : Nat) (f : Slab2 → Slab2) :
    Serves sp pos s (t.modSlab2 n f) := h.of_slabs rfl

theorem Serves.wakePos {sp pos : Nat} {s t : State} (h : Serves sp pos s t) (p : Nat) :
    Serves sp pos s (wakePos sp p t) := by
  unfold Machine.wakePos
  extract_lets s1 s2 other s3 act
  have h1 : s1.slabs = t.slabs := Keeps.slabs (keeps_freshPos (keeps_clearPos (Keeps.refl (F :=
    [SField.tiles, .tiles2, .banks, .bankMem]) _) _ (hF := by decide)) _ _ (hF := by decide))
  have h2 : s2.slabs = s1.slabs := Keeps.slabs (F := [.banks])
    (Keeps.forAll (.refl s1) _ _ fun _ _ k => keeps_setClearing k _ _ (hF := List.Subset.refl _))
  clear_value s2 s1 other
  have h3 : s3.slabs = s2.slabs := by
    unfold s3
    split
    · exact Keeps.slabs (F := [.tiles2])
        (Keeps.forAll (.refl s2) _ _ fun _ _ k => keeps_fillSlots k _ _ (hF := List.Subset.refl _))
    · rfl
  clear_value s3 act
  refine Serves.modSlab2 (Serves.modSlab (h.of_slabs ((h3.trans h2).trans h1)) _) _ _

theorem spareServes_slab (sp pos old : Nat) (pl : Bool) (s : State) :
    Serves sp pos s (spareServes sp pos old pl s) := by
  unfold spareServes
  extract_lets ov s1 s2 s3 a1 vec a3 a4 s4
  have h2 : Serves sp pos s s2 := by
    unfold Serves s2
    rw [State.modSlab_slab_self]
    exact ⟨rfl, rfl, rfl, fun m hm => by rw [State.modSlab_slab_other _ _ hm]; rfl⟩
  have h3 : Serves sp pos s s3 := by
    obtain ⟨e1, e2⟩ := applyWords_slab sp (armOfPos s2 pos) s2
    unfold Serves s3
    rw [e2]
    exact ⟨h2.1, h2.2.1, h2.2.2.1, fun m hm => (e1 m hm).trans (h2.2.2.2 m hm)⟩
  have h4 : Serves sp pos s s4 := by
    unfold s4
    split
    · have b1 : Serves sp pos s a1 := h3.of_slabs (Keeps.slabs (keeps_freshPos (Keeps.refl (F :=
        [SField.tiles, .tiles2, .banks]) _) _ _ (hF := by decide)))
      have b4 : Serves sp pos s a4 := by
        clear_value a1 vec
        exact Serves.modSlab2 (Serves.modSlab b1 _) _ _
      split
      · exact b4.of_slabs (Keeps.slabs (keeps_reloadWeights (Keeps.refl (F := [SField.bankMem]) _) _ _ (hF := by decide)))
      · exact b4
    · exact h3.wakePos _
  split
  · exact h4.of_slabs (Keeps.slabs (keeps_replace (Keeps.refl (F := [SField.env, .hostMem, .pcie, .arm, .funcs]) _) _ _
      (hF := by decide)))
  · exact h4

theorem leavePosition_facts (n : Nat) (st : SlabSt) (planned : Bool) (s : State) (hst : (s.slab n).st ≠ .spare) (hst'
    : st ≠ .spare) :
    ((leavePosition n st planned s).slab n).st = st ∧ ((leavePosition n st planned s).slab n).serves = 0xFF ∧
        ((leavePosition n st planned s).slab n).coreOn = false ∧
    (idleSpares s = [] → ∀ m, m ≠ n → (leavePosition n st planned s).slab m = s.slab m) ∧
    (idleSpares s ≠ [] → ∃ sp ∈ idleSpares s, (∀ m ∈ idleSpares s, hops sp (posOf s n) ≤ hops m (posOf s n)) ∧
          ((leavePosition n st planned s).slab sp).st = .serving ∧ ((leavePosition n st planned s).slab sp).serves =
              posOf s n ∧ ((leavePosition n st planned s).slab sp).coreOn = true ∧
          ∀ m, m ≠ n → m ≠ sp → (leavePosition n st planned s).slab m = s.slab m) := by
  have hi : idleSpares (s.modSlab n fun x => { x with st := st, serves := 0xFF, coreOn := false }) = idleSpares s :=
      by
    unfold idleSpares
    apply List.filter_congr
    intro m _
    by_cases hm : m = n
    · subst hm; rw [State.modSlab_slab_self]; rw [beq_false_of_ne hst, beq_false_of_ne hst']
    · rw [State.modSlab_slab_other _ _ hm]
  unfold leavePosition
  extract_lets pos s5 s6
  have e6 : (s6.slab n).st = st ∧ (s6.slab n).serves = 0xFF ∧ (s6.slab n).coreOn = false ∧ ∀ m, m ≠ n → s6.slab m =
      s.slab m := by
    unfold s6 s5
    rw [State.modSlab2_slab, State.modSlab_slab_self]
    exact ⟨rfl, rfl, rfl, fun m hm => by rw [State.modSlab2_slab, State.modSlab_slab_other _ _ hm]⟩
  have i6 : idleSpares s6 = idleSpares s := hi
  clear_value s6 s5
  obtain ⟨c1, c2⟩ := chooseSpare_facts s6 pos
  rw [i6] at c1 c2
  cases h : chooseSpare s6 pos with
  | none =>
    have z : (positionLost pos n planned s6).slabs = s6.slabs := Keeps.slabs (keeps_positionLost (Keeps.refl (F :=
        [SField.env, .hostMem, .pcie, .arm, .tiles, .tiles2, .banks, .ctxs, .funcs, .bankMem, .hbm]) _) _ _ _ (hF :=
        by decide))
    have z : ∀ m, (positionLost pos n planned s6).slab m = s6.slab m := fun m => congrArg (fun x => tget Slab.init x
        m) z
    simp only [z]
    exact ⟨e6.1, e6.2.1, e6.2.2.1, fun _ => e6.2.2.2, fun hne => absurd (c1.1 h) hne⟩
  | some sp =>
    obtain ⟨d1, d2⟩ := c2 sp h
    obtain ⟨f1, f2, f3, f4⟩ := spareServes_slab sp pos n planned s6
    have hsn : n ≠ sp := by
      rintro rfl
      unfold idleSpares at d1
      have := (List.mem_filter.1 d1).2
      exact hst (by simpa using this)
    dsimp only
    rw [f4 n hsn]
    refine ⟨e6.1, e6.2.1, e6.2.2.1, fun he => ?_, fun _ => ⟨sp, d1, d2, f1, f2, f3, fun m hm hm' => (f4 m hm').trans
        (e6.2.2.2 m hm)⟩⟩
    rw [he] at d1; cases d1

theorem coreRetire_facts (n : Nat) (planned : Bool) (reason : Nat) (s : State) (hs : inService s n = true) :
    ((coreRetire n planned reason s).slab n).st = .coreRetired ∧ ((coreRetire n planned reason s).slab n).serves =
        0xFF ∧ ((coreRetire n planned reason s).slab n).coreOn = false ∧
    (idleSpares s = [] → ∀ m, m ≠ n → (coreRetire n planned reason s).slab m = s.slab m) ∧
    (idleSpares s ≠ [] → ∃ sp ∈ idleSpares s, (∀ m ∈ idleSpares s, hops sp (posOf s n) ≤ hops m (posOf s n)) ∧
          ((coreRetire n planned reason s).slab sp).st = .serving ∧ ((coreRetire n planned reason s).slab sp).serves =
              posOf s n ∧ ((coreRetire n planned reason s).slab sp).coreOn = true ∧
          ∀ m, m ≠ n → m ≠ sp → (coreRetire n planned reason s).slab m = s.slab m) := by
  have hst : (s.slab n).st ≠ .spare := by
    intro h; unfold inService at hs; rw [h] at hs; exact absurd hs (by decide)
  unfold coreRetire
  rw [if_pos hs]
  extract_lets pos p s1 s2 s3
  have e1 : s1.slabs = s.slabs := by
    unfold s1
    cases p with
    | none => rfl
    | some i =>
      have k : Keeps [SField.env, .hostMem, .pcie, .slabs2, .ports, .ports2, .tiles, .banks, .parts2, .ctxs, .funcs, .hbm] s (if
          planned = true then s else partitionFault reason n i s) := by
        split
        · exact .refl _
        · exact keeps_partitionFault (.refl _) _ _ _ (hF := by decide)
      exact Keeps.slabs (keeps_dropSlabStops k _ _ _ (hF := by decide))
  clear_value s1
  have e2 : s2.slabs = s.slabs := (Keeps.slabs (keeps_resetCore (Keeps.refl (F := [SField.env, .hostMem, .pcie,
      .slabs2, .tiles2, .ctxs, .funcs, .bankMem]) s1) 3 n false (hF := by decide))).trans e1
  clear_value s2
  have e3 : s3.slabs = s.slabs := by unfold s3; rw [(posted_bankEvent _ _ _).slabs]; exact e2
  clear_value s3
  have e4 : ∀ m, s3.slab m = s.slab m := fun m => congrArg (fun x => tget Slab.init x m) e3
  have ep : posOf s3 n = posOf s n := by unfold posOf; rw [e4]
  have ei : idleSpares s3 = idleSpares s := by unfold idleSpares; simp only [e4]
  have f := leavePosition_facts n .coreRetired planned s3 (by rw [e4]; exact hst) (by decide)
  rw [ep, ei] at f
  simp only [e4] at f
  exact f

/-- A cleared tile: its memory reads zero, its banks belong to no one, its stationary sets, accumulators and operator slots
are as after power-on, and no slab and no context changes (R284). -/
theorem clearTile_facts (g : Nat) (s : State) :
    (∀ j, j < 4 → (clearTile g s).bank (bankIx g j) =
      { s.bank (bankIx g j) with owner := 0, peer := 0, holder := none, lastKey := none }) ∧
    (clearTile g s).bankMem = mclear s.bankMem (bankKey g 0 0) (2 ^ 23) ∧ (clearTile g s).slabs = s.slabs ∧
    (clearTile g s).ctxs = s.ctxs ∧ (clearTile g s).tile2 g =
      { s.tile2 g with active := [], shadow := [], acc := [], walk := none, slots := Slots.init } := by
  unfold clearTile
  extract_lets s1 s2
  have e : ∀ {β : Type} (acc : State → β) (_ : ∀ s i b, acc (s.setBank i b) = acc s), acc s2 = acc s1 :=
    fun acc hacc => tileBanks_else acc _ hacc g s1
  refine ⟨fun j hj => ?_, ?_, ?_, ?_, ?_⟩
  · rw [State.modTile2_bank]
    unfold s2
    rw [tileBanks_bank (h := fun _ b => { b with owner := 0, peer := 0, holder := none, lastKey := none }) (hk := hj),
      if_pos rfl]
    rfl
  · rw [State.modTile2_bankMem, e (·.bankMem) (fun _ _ _ => rfl)]
  · rw [State.modTile2_slabs, e (·.slabs) (fun _ _ _ => rfl)]
  · rw [State.modTile2_ctxs, e (·.ctxs) (fun _ _ _ => rfl)]
  · rw [State.modTile2_tile2_self]
    have := e (·.tile2 g) (fun _ _ _ => rfl)
    rw [show s2.tile2 g = s.tile2 g from this]

end Sys2Proof.Machine
end

