-- ==== Sys2Proof/Laws/Words.lean ====
section
/-! SUPPORT. Reading back what was written: bytes of a memory, words of a bank. -/

namespace Sys2Proof.Machine

open Sys2Proof

set_option Elab.async false

theorem ofBytes_toBytes (n v : Nat) : ofBytes (toBytes n v) = v % 256 ^ n := by
  induction n generalizing v with
  | zero => simp [toBytes, ofBytes, Nat.mod_one]
  | succ n ih =>
    have e : 256 ^ (n + 1) = 256 * 256 ^ n := Nat.pow_succ'
    rw [toBytes, ofBytes, ih, BitVec.toNat_ofNat, e, Nat.mod_mul]

theorem length_toBytes (n v : Nat) : (toBytes n v).length = n := by
  induction n generalizing v with
  | zero => rfl
  | succ n ih => rw [toBytes, List.length_cons, ih]

/-- Reading the bytes just written. -/
theorem mread_mwrite_same (m : Mem) (a : Nat) (bs : List Byte) : mread (mwrite m a bs) a bs.length = bs := by
  unfold mread
  apply List.ext_getElem
  · simp
  · intro i h1 h2
    simp only [List.getElem_map, List.getElem_range]
    rw [mget_mwrite, if_pos (by omega)]
    simp [h2]

/-- Bytes elsewhere are as they were. -/
theorem mread_mwrite_other {m : Mem} {a b n : Nat} {bs : List Byte} (h : b + n ≤ a ∨ a + bs.length ≤ b) :
    mread (mwrite m a bs) b n = mread m b n := by
  unfold mread
  apply List.map_congr_left
  intro i hi
  have := List.mem_range.1 hi
  exact mget_mwrite_outside (by omega)

theorem bankWord_bankWrite_same (s : State) (g k a v : Nat) :
    bankWord (bankWrite g k a (toBytes 4 v) s) g k a = v % 2 ^ 32 := by
  unfold bankWord bankRead bankWrite
  have := mread_mwrite_same s.bankMem (bankKey g k a) (toBytes 4 v)
  rw [length_toBytes] at this
  show ofBytes (mread (mwrite s.bankMem (bankKey g k a) (toBytes 4 v)) (bankKey g k a) 4) = _
  rw [this, ofBytes_toBytes]
  norm_num

theorem bankWord_bankWrite_other (s : State) (g k : Nat) {a b : Nat} {bs : List Byte} (h : b + 4 ≤ a ∨ a + bs.length ≤ b) :
    bankWord (bankWrite g k a bs s) g k b = bankWord s g k b := by
  unfold bankWord bankRead bankWrite
  show ofBytes (mread (mwrite s.bankMem (bankKey g k a) bs) (bankKey g k b) 4) = _
  rw [mread_mwrite_other]
  unfold bankKey
  omega

end Sys2Proof.Machine
end

