-- ==== Sys2Proof/Laws/Signals.lean ====
section
/-! SUPPORT. Host memory, interrupts, event records and ring halts: what each shared operation of the rings changes
(R351, R359, R364 to R367). -/

namespace Sys2Proof.Machine

open Sys2Proof

set_option Elab.async false

theorem hostRead_hostWrite (s : State) (f a : Nat) (bs : List Byte) (h : hostFails s f a bs.length = false) :
    hostRead (hostWrite s f a bs) f a bs.length = bs := by
  unfold hostWrite hostRead
  rw [h, if_neg (by decide)]
  exact mread_mwrite_same _ _ _

theorem length_recordBytes (m : Cmd) (c : Nat) (p : Bool) : (recordBytes m c p).length = 32 := by
  unfold recordBytes; simp only [List.length_append, length_toBytes]

theorem length_eventRec (a b c d : Nat) (l : List Nat) (p : Bool) : (eventRec a b c d l p).length = 32 := by
  unfold eventRec; simp only [List.length_append, length_toBytes]

theorem aborted_get (s : State) (c q : Nat) : getCmd (abortFetched c s) c q = (getCmd s c q).map fun m =>
            if m.phase = .fetched then { m with phase := .done, status := Status.aborted.code } else m := by
  unfold getCmd abortFetched
  rw [State.modCtx_ctx_self]
  dsimp only
  exact find_map_keep _ _ (fun m => by split <;> rfl) _

theorem sendMsi_fn_other {f g : Nat} (v : Nat) (s : State) (h : g ≠ f) : (sendMsi f v s).fn g = s.fn g := by
  unfold sendMsi; split
  · rfl
  · split
    · rfl
    · split
      · exact State.modFn_fn_other _ _ h
      · rfl

theorem sendMsi_fn (f v : Nat) (s : State) : (sendMsi f v s).fn f = { s.fn f with pba := ((sendMsi f v s).fn f).pba }
    := by
  unfold sendMsi; split
  · rfl
  · split
    · rfl
    · split
      · rw [State.modFn_fn_self]
      · rfl

theorem sendMsi_host (f v : Nat) (s : State) : (sendMsi f v s).env.hostMem = s.env.hostMem := by
  unfold sendMsi; split
  · rfl
  · split
    · rfl
    · split <;> rfl

theorem evqSignal_facts (f : Nat) (s : State) : (∀ g, g ≠ f → (evqSignal f s).fn g = s.fn g) ∧
    ((evqSignal f s).fn f = { s.fn f with pba := ((evqSignal f s).fn f).pba, irq := ((evqSignal f s).fn f).irq }) ∧
        (evqSignal f s).env.hostMem = s.env.hostMem := by
  unfold evqSignal
  dsimp only
  split
  · refine ⟨fun g hg => ?_, ?_, ?_⟩
    · rw [sendMsi_fn_other _ _ hg, State.setFn_fn_other _ _ hg]
    · rw [sendMsi_fn]; rw [State.setFn_fn_self]
    · rw [sendMsi_host]; rfl
  · exact ⟨fun _ _ => rfl, rfl, rfl⟩

theorem evPut_facts (f code slab ctx : Nat) (dws : List Nat) (s : State) : (∀ g, g ≠ f → (evPut f code slab ctx dws
    s).fn g = s.fn g) ∧
    ((evPut f code slab ctx dws s).fn f).head = (s.fn f).head ∧ ((evPut f code slab ctx dws s).fn f).en = (s.fn f).en
        ∧
    (hostFails s f ((s.fn f).base.toNat + 32 * (s.fn f).tail) 32 = false →
      hostRead (evPut f code slab ctx dws s) f ((s.fn f).base.toNat + 32 * (s.fn f).tail) 32 = eventRec code slab
          (s.fn f).eseq.toNat ctx dws (s.fn f).phase ∧
      ((evPut f code slab ctx dws s).fn f).tail = (s.fn f).advance.tail ∧ ((evPut f code slab ctx dws s).fn f).eseq =
          (s.fn f).advance.eseq ∧
      ((evPut f code slab ctx dws s).fn f).phase = (s.fn f).advance.phase) := by
  unfold evPut
  extract_lets x a
  cases h : hostFails s f a 32 with
  | true =>
    rw [if_pos rfl]
    unfold evLost
    refine ⟨fun g hg => State.modFn_fn_other _ _ hg, ?_, ?_, by intro h; cases h⟩
    · rw [State.modFn_fn_self]
    · rw [State.modFn_fn_self]
  | false =>
    rw [if_neg (by decide)]
    obtain ⟨h1, h2, h3⟩ := evqSignal_facts f ((hostWrite s f a (eventRec code slab x.eseq.toNat ctx dws
        x.phase)).setFn f x.advance)
    have hf : ∀ g, (hostWrite s f a (eventRec code slab x.eseq.toNat ctx dws x.phase)).fn g = s.fn g := by
      intro g; unfold hostWrite; split <;> rfl
    refine ⟨fun g hg => ?_, ?_, ?_, fun _ => ⟨?_, ?_, ?_, ?_⟩⟩
    · rw [h1 g hg, State.setFn_fn_other _ _ hg, hf]
    · rw [h2, State.setFn_fn_self]; rfl
    · rw [h2, State.setFn_fn_self]; rfl
    · unfold hostRead at *
      rw [h3]
      have := hostRead_hostWrite s f a (eventRec code slab x.eseq.toNat ctx dws x.phase)
        (by rw [length_eventRec]; exact h)
      rw [length_eventRec] at this
      exact this
    · rw [h2, State.setFn_fn_self]
    · rw [h2, State.setFn_fn_self]
    · rw [h2, State.setFn_fn_self]

theorem evOverflow_facts (f : Nat) (s : State) : (∀ g, g ≠ f → (evOverflow f s).fn g = s.fn g) ∧
    ((evOverflow f s).fn f).head = (s.fn f).head ∧ ((evOverflow f s).fn f).en = (s.fn f).en ∧ ((s.fn f).owed = 0 →
        evOverflow f s = s) := by
  unfold evOverflow
  extract_lets x a
  split
  · exact ⟨fun _ _ => rfl, rfl, rfl, fun _ => rfl⟩
  · rename_i hx
    split
    · refine ⟨fun g hg => State.modFn_fn_other _ _ hg, ?_, ?_, fun h => absurd (Or.inl h) hx⟩ <;> rw [State.modFn_fn_self]
    · obtain ⟨h1, h2, h3, _⟩ := evPut_facts f 0x0007 0xFF 0xFFFF [x.owed] (s.setFn f { x with owed := 0 })
      refine ⟨fun g hg => ?_, ?_, ?_, fun h => absurd (Or.inl h) hx⟩
      · rw [h1 g hg, State.setFn_fn_other _ _ hg]
      · rw [h2, State.setFn_fn_self]
      · rw [h3, State.setFn_fn_self]

theorem sendMsi_ctx (f v : Nat) (s : State) (d : Nat) : (sendMsi f v s).ctx d = s.ctx d := by rw [(posted_sendMsi f v
    s).ctx]

/-- Testing a ring's interrupt changes its own count at most, and no other context (R367). -/
theorem cqDue_facts (c : Nat) (now : Bool) (s : State) : (∀ d, d ≠ c → (cqDue c now s).ctx d = s.ctx d) ∧
    ((cqDue c now s).ctx c = { s.ctx c with irq := ((cqDue c now s).ctx c).irq }) ∧
      (cqDue c now s).env.hostMem = s.env.hostMem := by
  unfold cqDue
  dsimp only
  split
  · refine ⟨fun d hd => ?_, ?_, ?_⟩
    · rw [sendMsi_ctx, State.setCtx_ctx_other _ _ hd]
    · rw [sendMsi_ctx, State.setCtx_ctx_self]
    · rw [sendMsi_host]; rfl
  · exact ⟨fun _ _ => rfl, rfl, rfl⟩

theorem cqSignal_facts (c : Nat) (now : Bool) (s : State) : (∀ d, d ≠ c → (cqSignal c now s).ctx d = s.ctx d) ∧
    ((cqSignal c now s).ctx c = { s.ctx c with irq := ((cqSignal c now s).ctx c).irq }) ∧
      (cqSignal c now s).env.hostMem = s.env.hostMem := by
  unfold cqSignal
  obtain ⟨h1, h2, h3⟩ := cqDue_facts c now (s.modCtx c fun x => { x with irq := { x.irq with unsig := x.irq.unsig + 1 } })
  refine ⟨fun d hd => ?_, ?_, ?_⟩
  · rw [h1 d hd, State.modCtx_ctx_other _ _ hd]
  · rw [h2, State.modCtx_ctx_self]
  · rw [h3]; rfl

theorem ringHalt_facts (c q st : Nat) (s : State) : (∀ d, d ≠ c → (ringHalt c q st s).ctx d = s.ctx d) ∧
    (ringHalt c q st s).ctx c = { s.ctx c with ring := { (s.ctx c).ring with
      halts := (s.ctx c).ring.halts ++ [(q, st)], haltPosted := ((ringHalt c q st s).ctx c).ring.haltPosted } } := by
  unfold ringHalt
  extract_lets u x h
  have uc : u.ctx c = { s.ctx c with ring := { (s.ctx c).ring with halts := (s.ctx c).ring.halts ++ [(q, st)] } } :=
      by
    unfold u; rw [State.modCtx_ctx_self]
  have uo : ∀ d, d ≠ c → u.ctx d = s.ctx d := fun d hd => by unfold u; rw [State.modCtx_ctx_other _ _ hd]
  split
  · exact ⟨uo, by rw [uc]⟩
  · refine ⟨fun d hd => ?_, ?_⟩
    · rw [(posted_postBoth ..).ctx, State.modCtx_ctx_other _ _ hd, uo d hd]
    · rw [(posted_postBoth ..).ctx, State.modCtx_ctx_self, uc]

theorem bit_or (a b : Word) (i : Nat) : bit (a ||| b).toNat i = (bit a.toNat i || bit b.toNat i) := by
  unfold bit; rw [BitVec.toNat_or, Nat.testBit_or]

theorem bit_one (r : Nat) (h : r < 32) : bit (w32 (sh 1 r)).toNat r = true := by
  unfold bit w32 sh
  rw [BitVec.toNat_ofNat, Nat.testBit_mod_two_pow]
  simp [h, Nat.shiftLeft_eq]

theorem Posted.armEq {s t : State} (h : Posted s t) : t.arm = s.arm := by unfold Posted at h; rw [h]

theorem Posted.pcieEq {s t : State} (h : Posted s t) : t.pcie = { s.pcie with msiHeld := t.pcie.msiHeld, evHeld := t.pcie.evHeld } := by
  unfold Posted at h; generalize t.pcie.msiHeld = z at *; generalize t.pcie.evHeld = y at *; rw [h]

theorem replace_facts (r n : Nat) (s : State) (hr : r < 32) : bit (replace r n s).arm.replaceReq.toNat r = true ∧
    (replace r n s).pcie =
      { s.pcie with msiHeld := (replace r n s).pcie.msiHeld, evHeld := (replace r n s).pcie.evHeld } := by
  unfold replace
  split
  · exact ⟨by assumption, rfl⟩
  · dsimp only
    generalize hu : ({ s with arm := { s.arm with replaceReq := s.arm.replaceReq ||| w32 (sh 1 r) } } : State) = u
    have p1 := posted_post 0 0x0111 n 0xFFFF [r, n] (armEvent 16 (logFact 7 n r 0 0 u))
    have p2 := posted_armEvent 16 (logFact 7 n r 0 0 u)
    have e3 : (logFact 7 n r 0 0 u).arm.replaceReq = s.arm.replaceReq ||| w32 (sh 1 r) := by rw [← hu]; rfl
    have e4 : (logFact 7 n r 0 0 u).pcie = s.pcie := by rw [← hu]; rfl
    refine ⟨?_, ?_⟩
    · rw [p1.armEq, p2.armEq]
      show bit (logFact 7 n r 0 0 u).arm.replaceReq.toNat r = true
      rw [e3, bit_or, bit_one r hr, Bool.or_true]
    · have e1 := p1.pcieEq
      have e2 := p2.pcieEq
      rw [e2] at e1
      dsimp only at e1
      rw [e4] at e1
      exact e1

end Sys2Proof.Machine
end

