-- ==== Sys2Proof/Tests/Slice0.lean ====
section
/-! SUPPORT. Tests: ill-formed commands that the checks refuse, small states that meet the hypotheses of the statements
together, and single steps whose expected result is written out from a rule of the spec. -/

namespace Sys2Proof.Tests

open Sys2Proof Sys2Proof.Machine

-- Proofs one after another: the package compiles as one text under a memory limit.
set_option Elab.async false

/-! ## Ill-formed commands, one for each kind of check -/

theorem test_wf_context : (Instr.nop 1024 0).wf = false ∧ (Instr.nop 1023 0).wf = true := by decide
theorem test_wf_seq : (Instr.nop 0 4294967296).wf = false ∧ (Instr.nop 0 4294967295).wf = true := by decide
theorem test_wf_vf : (Instr.warm (.vf 0)).wf = false ∧ (Instr.warm (.vf 32)).wf = false ∧ (Instr.warm (.vf 31)).wf = true := by
  decide
theorem test_wf_page : (Instr.ringEnable .pf 1024).wf = false ∧ (Instr.ringEnable .pf 1023).wf = true := by decide
theorem test_wf_sequencer : (Instr.issueDecision 25).wf = false ∧ (Instr.issueDecision 24).wf = true := by decide
theorem test_wf_tile : (Instr.rampUp 6400 []).wf = false ∧ (Instr.rampUp 6399 []).wf = true := by decide
theorem test_wf_function : (Instr.evqEnable .pf 32).wf = false ∧ (Instr.evqEnable .pf 31).wf = true := by decide
theorem test_wf_irq : (Instr.cqIrqTimeout (.cq 1024)).wf = false ∧ (Instr.cqIrqTimeout (.evq 32)).wf = false := by decide
theorem test_wf_partition : (Instr.ctxAdmit 24).wf = false ∧ (Instr.ctxAdmit 23).wf = true := by decide
theorem test_wf_slab : (Instr.preFailureWarning 100).wf = false ∧ (Instr.preFailureWarning 99).wf = true := by decide
theorem test_wf_bank : (Instr.bankOwnWrite .pf 0 4 0).wf = false ∧ (Instr.bankOwnWrite .pf 0 3 0).wf = true := by decide
theorem test_wf_window : (Instr.hostWindowRead .pf 8192 0 0 0 4 .clean).wf = false ∧
    (Instr.hostWindowRead .pf 0 0 4 0 4 .clean).wf = false ∧ (Instr.hostWindowRead .pf 0 0 0 2097152 4 .clean).wf = false := by
  decide
theorem test_wf_atomic : (Instr.iadd .pf 0 0 3 0 4 0 .clean).wf = false ∧
    (Instr.iadd .pf 0 0 0 0 2 0 .clean).wf = false := by decide
theorem test_wf_place : (Instr.flitReceive ⟨0, .edge 4⟩ ⟨0, .router 0⟩ none .good).wf = false ∧
    (Instr.flitReceive ⟨0, .router 64⟩ ⟨0, .router 0⟩ none .good).wf = false ∧
    (Instr.flitReceive ⟨0, .tile 63⟩ ⟨99, .edge 3⟩ none .good).wf = true := by decide
theorem test_wf_line : (Instr.patinaRegionStart 0 [(0, 0, 650, true)]).wf = false ∧
    (Instr.patinaRegionStart 0 [(6399, 3, 649, true)]).wf = true := by decide
theorem test_wf_port : (Instr.linkRetrainWrite .pf 8).wf = false ∧ (Instr.linkRetrainWrite .pf 7).wf = true := by decide
theorem test_wf_packet : (Instr.linkPacketRx 0 4 0 true).wf = false ∧ (Instr.linkPacketRx 0 3 0 true).wf = true := by decide
theorem test_wf_frame : (Instr.linkFrameRx 0 (List.replicate 511 0)).wf = false ∧
    (Instr.linkFrameRx 0 (List.replicate 512 1024)).wf = false ∧ (Instr.linkFrameRx 0 (List.replicate 512 1023)).wf = true := by
  decide +kernel
theorem test_wf_job : (Instr.hello 0 16 0).wf = false ∧ (Instr.hello 0 15 0).wf = true := by decide
theorem test_wf_wire : (Instr.finish 0 0 true 0 16384 0).wf = false ∧ (Instr.finish 0 0 true 0 16383 0).wf = true := by decide
theorem test_wf_stream : (Instr.vcFrameAssemble 0 64).wf = false ∧ (Instr.vcFrameAssemble 0 63).wf = true := by decide
theorem test_wf_bar : (Instr.registerWrite .pf 1 0 ⟨4, 15, 0⟩).wf = false ∧ (Instr.registerWrite .pf 4 0 ⟨4, 15, 0⟩).wf = true := by
  decide
theorem test_wf_flr : (Instr.vfFlr 0).wf = false ∧ (Instr.vfFlr 32).wf = false ∧ (Instr.vfFlr 31).wf = true := by decide
theorem test_wf_off_word : (Instr.pwrSlabOffWrite .pf 4 0).wf = false ∧ (Instr.pwrSlabOffWrite .pf 3 0).wf = true := by decide

/-- No row of the table has bits, so no word spells a command. -/
theorem test_no_word : decodeTableWord 32 0 = none := by decide

/-! ## Small states -/

/-- What a command binds when it binds nothing. -/
def free : Bound :=
  { objs := [], regs := [], key := 0, draw := 0, cbase := 0, slots := 0, foots := [], newObj := none, earlier := [],
    forms := [], leaves := [] }

/-- The entry of an opcode with values at byte offsets (R345). -/
def entry (op : Nat) (fs : List (Nat × Nat)) : Entry := BitVec.ofNat 512 (fs.foldl (fun n f => n + f.2 <<< (8 * f.1)) op)

/-- A command with number 1 that has issued. -/
def issued (op : Nat) (fs : List (Nat × Nat)) : Cmd :=
  { seq := 1, entry := entry op fs, phase := .issued, stamp := 0, bound := free, status := 0, aflags := 0, dw := [],
    aq := [], issued := true, interrupted := false }

/-- Context 5 of the PF in partition 0, RUNNING, with these commands in flight. -/
def holding (ms : List Cmd) : State :=
  State.reset.modCtx 5 fun x => { x with reg := { x.reg with st := .running, res := true }, cmds := ms }

/-- The same with one issued command. -/
def with1 (op : Nat) (fs : List (Nat × Nat)) : State := holding [issued op fs]

/-- Context 6 beside it, in a state, resident or not. -/
def and6 (st : CtxSt) (res : Bool) (s : State) : State := s.modCtx 6 fun x => { x with reg := { x.reg with st := st, res := res } }

/-! ## Witnesses: states and operands that meet the hypotheses of the statements -/

theorem witness_StepRunsTheFrontCommand : ({ State.reset with pending := [.idcode] } : State).pending = .idcode :: [] := rfl
theorem witness_EmptyQueueIdles : State.reset.pending = [] := rfl
theorem witness_StepKeepsCanonicalForm : State.reset.Canonical ∧ step State.reset = .next State.reset :=
  ⟨⟨rfl, rfl, rfl, rfl, rfl, rfl, rfl, rfl, rfl, rfl, rfl, rfl, rfl, rfl, rfl⟩, rfl⟩
theorem witness_StepTakesBackNothingThatLasts : step State.reset = .next State.reset := rfl
theorem witness_NothingOutsideTouchesTheMeter :
    ∃ t, exec (.sealChange false true ⟨0, 0, 0, 0, 0, 0, false, false⟩) State.reset = .next t ∧ t.meter ≠ State.reset.meter :=
  ⟨_, rfl, by decide⟩
theorem witness_ReadingsFitTogether : MeterKept State.reset.meter :=
  { few := by decide, last := fun _ h => (nomatch h), chained := trivial, trail := by decide, numbered := trivial }
theorem witness_OtherSourcesAreDropped : (Src.vf 3 = .i3c ∨ ∃ n, Src.vf 3 = .vf n) := .inr ⟨3, rfl⟩
theorem witness_NopEndsOkAndTouchesNothing :
    running? (with1 0x01 []) 5 1 = some (issued 0x01 []) ∧ (issued 0x01 []).opcode = 0x01 := by decide +kernel
theorem witness_CreatingCommandsBindTheirHandle :
    (running? (holding [{ issued 0x02 [(0x10, 7)] with bound := { free with newObj := some (.desc 0) } }]) 5 1).any (fun m =>
      m.bound.newObj == some (.desc 0) && m.opcode == 0x02) = true := by decide +kernel
theorem witness_DestroyUnbindsAndReleaseWaits :
    running? (with1 0x03 [(0x10, 7)]) 5 1 = some (issued 0x03 [(0x10, 7)]) ∧ (issued 0x03 [(0x10, 7)]).opcode = 0x03 ∧
      (getCmd (holding [{ issued 0x03 [(0x10, 7)] with phase := .acted }]) 5 1).any (fun m =>
        m.phase == .acted && m.opcode == 0x03) = true := by decide +kernel
theorem witness_SeedsMakeTheKey :
    running? (with1 0x48 [(0x18, 1)]) 5 1 = some (issued 0x48 [(0x18, 1)]) ∧ (issued 0x48 [(0x18, 1)]).opcode = 0x48 := by
  decide +kernel
theorem witness_BrewStreamSetsOrDropsEntries :
    running? (with1 0x49 [(0x10, 2)]) 5 1 = some (issued 0x49 [(0x10, 2)]) ∧ (issued 0x49 [(0x10, 2)]).opcode = 0x49 := by
  decide +kernel
theorem witness_ContextsAreDefinedAndUndefined :
    running? (with1 0x51 [(0x10, 6)]) 5 1 = some (issued 0x51 [(0x10, 6)]) ∧ (issued 0x51 [(0x10, 6)]).f 0x10 16 = 6 ∧
      (issued 0x51 [(0x10, 6)]).opcode = 0x51 ∧ ((with1 0x51 [(0x10, 6)]).ctx 6).sched.swapping = .none := by
  decide +kernel
/-- A region of 4,096 bytes fits in HBM; one of 2^40 bytes does not. -/
theorem witness_RegionsAreMade :
    ready? (with1 0x52 [(0x10, 3), (0x18, 4096)]) 5 1 0x52 = some (issued 0x52 [(0x10, 3), (0x18, 4096)]) ∧
      (allocFit (with1 0x52 []) 5 (issued 0x52 [(0x10, 3), (0x18, 4096)])).isOk = true ∧
      (allocFit (with1 0x52 []) 5 (issued 0x52 [(0x10, 3), (0x18, 1099511627776)])).isOk = false := by
  decide +kernel
/-- A bank region of 64 tiles that the context names 3. -/
def bankRegion : Region :=
  { Region.empty with space := .bank, len := 4096, mask := 1, first := 0, tiles := 1, off := 0 }
def withRegion (s : State) : State := s.modCtx 5 fun x => { x with regions := [(3, bankRegion)] }
theorem witness_RegionsAreFreed : ready? (withRegion (with1 0x53 [(0x10, 3)])) 5 1 0x53 = some (issued 0x53 [(0x10, 3)]) ∧
    (getRegion (withRegion (with1 0x53 [(0x10, 3)])) 5 3).isSome = true := by decide +kernel

/-- A placement image of one entry, one bank of one tile with 2,048 bytes (R390), at address 4,096. -/
def image : List Byte := toBytes 96 (1 + 1 <<< 32 + 2048 <<< 64 + 9 <<< 512 + 1 <<< 528 + 1 <<< 560 + 2048 <<< 576 + 4096 <<< 640)
def loading : Cmd := issued 0x54 [(0x10, 2), (0x18, 4096), (0x20, 8192)]
theorem witness_ModelsAreLoaded :
    let s := hostWrite (holding [loading]) 0 4096 image
    ready? s 5 1 0x54 = some loading ∧ (loadImage s 5 loading).isOk = true ∧
      (match loadImage s 5 loading with
        | .ok v => (loadFit s 5 loading v).isOk && (plEntries v).all fun e =>
            (hostRef s 0 (4096 + e.doff) e.bytes).isNone
        | .error _ => false) = true ∧
      (loadImage (holding [loading]) 5 loading).isOk = false := by decide +kernel
theorem witness_ModelsAreUnloaded :
    let s := (with1 0x55 [(0x10, 2)]).modCtx 5 fun x => { x with models := [(2, { regions := [], units := [] })] }
    (ready? s 5 1 0x55).isSome = true ∧ (aget (s.ctx 5).models 2).isSome = true := by decide +kernel

theorem witness_VectorSlotsAreLoadedAndWritten :
    running? (with1 0x06 [(0x18, 4096)]) 5 1 = some (issued 0x06 [(0x18, 4096)]) ∧
      (let s := holding [{ issued 0x06 [(0x18, 4096)] with phase := .acted }]
       boundInactive s 0 0 (s.slab (seqSlab s 0)).vec.active = false ∧ slotCopyBusy s 0 = false ∧
        hostFails s 0 4096 2304 = false ∧ (s.part 0).x0 + (s.part 0).w ≤ 10) ∧
      isOperator State.reset .pf = true ∧ coreLive State.reset 0 = true := by decide +kernel
theorem witness_ArrayControlIsClamped :
    isOperator State.reset .jtag = true ∧ coreLive State.reset 99 = true ∧
      ready? (with1 0x07 []) 5 1 0x07 = some (issued 0x07 []) := by decide +kernel
/-- Tile 0 stands at 4/8 and ramps up. -/
def ramping (d : RampDir) (f : Nat) : State := State.reset.modTile 0 fun x => { x with frac := f, dir := d }
theorem witness_RampsMoveByEighths :
    State.reset.live = true ∧ tileGated State.reset 0 = false ∧ (State.reset.tile 0).frac = 0 ∧
      (State.reset.tile 0).dir = .steady ∧ 0 < ((ramping .up 4).tile 0).frac ∧ ((ramping .up 4).tile 0).dir ≠ .down ∧
      ((ramping .down 1).tile 0).dir ≠ .steady := by decide +kernel
theorem witness_ThrottlePeriodsGateTheArray :
    (coreLive State.reset 0 && inService State.reset 0 && (partOf State.reset (posOf State.reset 0)).isSome) = true ∧
      (∀ g ∈ slabTiles (posOf State.reset 0), ∀ h ∈ lockStep State.reset g, lockStep State.reset h = lockStep State.reset g) ∧
      (coreLive State.reset 44 && inService State.reset 44) = false := by
  decide +kernel
/-- A descriptor of rank 2: type, layout, `PLOG`, region, sizes, strides. -/
def desc2 (ty lay plog reg s0 s1 d0 d1 : Nat) : Blob :=
  BitVec.ofNat 1024 (ty + 2 <<< 8 + lay <<< 16 + reg <<< 48 + plog <<< (8 * 0x16) + s0 <<< (8 * 0x20) + s1 <<< (8 * 0x24)
    + d0 <<< (8 * 0x38) + d1 <<< (8 * 0x40))
/-- One E4M3 product of four elements: A stands in array layout in bank 0 of tile 0, B is staged from host memory through
bank 1. -/
def product : Cmd :=
  { issued 0x10 [(0x12, 1), (0x14, 2), (0x16, 0xFFFF), (0x18, 0xFFFF), (0x1A, 5), (0x1C, 3), (0x1D, 3)] with
    bound := { Bound.none with
      objs := [(0, .desc (desc2 3 2 1 4 4 1 0 0)), (1, .desc (desc2 3 0 0 3 4 1 1 4)), (2, .desc (desc2 0 0 0 3 1 1 1 1))],
      regs := [(3, { Region.empty with len := 128, hostAddr := 4096 }),
        (4, { Region.empty with space := .bank, len := 65536, mask := 1, first := 0, tiles := 1, off := 0 }),
        (5, { Region.empty with space := .bank, len := 4096, mask := 2, first := 0, tiles := 1, off := 0 })],
      forms := [(0, 1)] } }
def productState : State := (holding [product]).modBank (bankIx 0 1) fun b => { b with holder := some 5, owner := 1 }
/-- The same once the one staging step has landed. -/
def productStaged : State := productState.modTile2 0 fun x => { x with
  walk := some { c := 5, q := 1, steps := 1, blocks := 0, words := none, held := [{ step := 0, a := [], b := [(1, 0)] }] } }
theorem witness_SwapsAndClockGatesAreLocal :
    let js := arrayJobs productState 5 product 1 0
    tileCmd productState 0 = some (5, product) ∧ aget product.bound.forms 0 = some 1 ∧
      (match walkBlock js (walkOf productState 0 5 1).blocks with
        | some (j, b, n) => !landed productState 5 1 j b n 0
        | none => false) = true ∧
      (match walkBlock (arrayJobs productStaged 5 product 1 0) (walkOf productStaged 0 5 1).blocks with
        | some (j, b, n) => landed productStaged 5 1 j b n 0
        | none => false) = true ∧
      workAtTile State.reset 0 0 = false ∧ (State.reset.tile 0).frac = 0 := by decide +kernel
theorem witness_PowerIsCapped : isOperatorAt State.reset .pf = true ∧ State.reset.live = true := by decide +kernel
/-- A descriptor of four FP32 elements of region 3 from a byte offset on. -/
def vec4 (base : Nat) : Blob :=
  BitVec.ofNat 1024 (1 <<< 8 + 3 <<< 48 + base <<< 64 + 4 <<< (8 * 0x20) + 1 <<< (8 * 0x38))
def hostRegion : Region := { Region.empty with len := 128, hostAddr := 4096 }
/-- A COPY of four elements from the start of region 3 to its byte 64. -/
def copying : Cmd := { issued 0x20 [(0x12, 1)] with bound := { Bound.none with
  objs := [(0, .desc (vec4 0)), (1, .desc (vec4 64))], regs := [(3, hostRegion)] } }
def copyState : State := hostWrite ((holding [copying]).modCtx 5 fun x => { x with regions := [(3, hostRegion)] }) 0 4096
  (toBytes 16 0x0F0E0D0C0B0A09080706050403020100)
theorem witness_DataCommandsDoTheirWork :
    ready? copyState 5 1 0x20 = some copying ∧
      (let w := copyWork copyState 5 copying
       w.wrs.length = 16 ∧ accFail copyState 5 w.rd w.wrs w.accs = none) := by decide +kernel
/-- The other data commands, each with operands of no element. -/
theorem witness_DataCommandsOfNoElement :
    let m (op : Nat) := issued op []
    let s (op : Nat) := with1 op []
    let ok (op : Nat) (w : Work) : Bool := ready? (s op) 5 1 op == some (m op) && decide (accFail (s op) 5 w.rd w.wrs w.accs = none)
    (ok 0x10 (matrixWork (s 0x10) 5 (m 0x10)) && ok 0x11 (infusionWork (s 0x11) 5 (m 0x11)) && ok 0x22 (gatherWork (s 0x22) 5 (m 0x22)) && ok 0x23 (scatterWork (s 0x23) 5 (m 0x23))
      && ok 0x24 (eltwiseWork (s 0x24) 5 (m 0x24)) && ok 0x25 (rowstatWork (s 0x25) 5 (m 0x25))
      && ok 0x26 (softmaxWork (s 0x26) 5 (m 0x26)) && ok 0x27 (poolWork (s 0x27) 5 (m 0x27))
      && ok 0x28 (resampleWork (s 0x28) 5 (m 0x28)) && ok 0x29 (cropWork (s 0x29) 5 (m 0x29))
      && ok 0x2A (randomWork (s 0x2A) 5 (m 0x2A)) && ok 0x2B (strainWork (s 0x2B) 5 (m 0x2B))) = true := by decide +kernel
/-- A CONV and a PERMUTING_COPY whose objects are bound, with operands of no element. -/
theorem witness_DataCommandsOfBoundObjects :
    let m (op : Nat) (o : Obj) : Cmd := { issued op [] with bound := { Bound.none with objs := [(0, o)] } }
    let ok (c : Cmd) (w : Work) : Bool := decide (accFail (holding [c]) 5 w.rd w.wrs w.accs = none)
    let cv : Cmd := { m 0x12 (.plan 1 [] []) with entry := entry 0x12 [(0x10, 9), (0x14, 9)] }
    let pc := m 0x21 (.perm 0 0 0)
    ready? (holding [cv]) 5 1 0x12 = some cv ∧ ready? (holding [pc]) 5 1 0x21 = some pc ∧
      (convWork (holding [cv]) 5 cv).any (ok cv) = true ∧ (permWork (holding [pc]) 5 pc).any (ok pc) = true := by
  decide +kernel
/-- The host answers no access to its first 8 KiB. -/
theorem witness_RefusedAccessesChangeNoByte :
    let s := { copyState with env := { copyState.env with hostFail := [(0, 8192)] } }
    let w := copyWork s 5 copying
    ready? s 5 1 0x20 = some copying ∧ accFail s 5 w.rd w.wrs w.accs = some (.host 4096) := by decide +kernel
def job1 (st : JobSt) : Job :=
  { st := st, port := 0, peerTag := 7, peerId := 0, peerSubject := none, openSeq := 1, stamp := 0, peerWire := 0, peerEpoch := 1,
    pctrTx := 0, pctrRx := 0, keyLo := 0, keyHi := 0, hs := 0, colls := 0, failEpoch := false }
/-- An ALLREDUCE of this package alone, and one of two packages over job 2 whose peer sends another opcode, or agrees. -/
theorem witness_CollectivesCombineOrFail :
    let one := issued 0x2C [(0x15, 1)]
    let two := issued 0x2C [(0x15, 2), (0x18, 0xFFFF), (0x1A, 2)]
    let s := (holding [two]).modCtx 5 fun x => { x with jobs := [(2, job1 .open)] }
    let a := two.opd s 5 (two.f 0x10 16)
    let peer (op : Nat) : CollPeer :=
      { opcode := op, op := 0, dtype := dDtype a.raw, npkg := 2, prank := 1, sizes := a.pieceSizes, turn := 0, pieces := [[]] }
    ready? (holding [one]) 5 1 0x2C = some one ∧ one.npkg = 1 ∧ collDiffers one (one.opd (holding [one]) 5 0) [] = none ∧
      two.npkg = 2 ∧ peerDue s 5 two 1 (peer 0x2D) = true ∧ collDiffers two a [peer 0x2D] = some 2 ∧
      collDiffers two a [peer 0x2C] = none ∧ two.collJobs = [2] := by decide +kernel
theorem witness_SequencesAreCreated :
    let m := issued 0x40 [(0x10, 2), (0x12, 3), (0x16, 8), (0x18, 128)]
    ready? (withRegion (holding [m])) 5 1 0x40 = some m := by decide +kernel
/-- Context 5 with sequence 2 in region 3. -/
def withSeq (len : Nat) (s : State) : State := (withRegion s).modCtx 5 fun x => { x with
  seqs := [(2, { region := 3, len := len, maxTok := 128, nb := 1, h := 8, dcode := 0, kfmt := 0 })] }
theorem witness_SequencesAreGrownForkedAndCut :
    (ready? (withSeq 0 (with1 0x41 [(0x10, 2)])) 5 1 0x41).isSome = true ∧
      (ready? (withSeq 0 (with1 0x42 [(0x10, 2), (0x12, 2)])) 5 1 0x42).isSome = true ∧
      (ready? (withSeq 64 (with1 0x43 [(0x10, 2)])) 5 1 0x43).isSome = true ∧
      (getSeq (withSeq 64 (with1 0x43 [(0x10, 2)])) 5 2).isSome = true := by decide +kernel
theorem witness_SequencesAreFreedAndReclaimed :
    (ready? (withSeq 64 (with1 0x44 [(0x10, 2)])) 5 1 0x44).isSome = true ∧
      (running? (with1 0x45 [(0x10, 0xFFFF), (0x12, 6)]) 5 1).any (fun m => m.opcode == 0x45 && m.f 0x12 16 == 6) = true ∧
      ((with1 0x45 []).ctx 6).seqs = [] := by decide +kernel
theorem witness_BasicControlsSetPartitionRegisters :
    (running? (with1 0x46 [(0x18, 100)]) 5 1).any (fun m => m.opcode == 0x46) = true ∧
      (running? (with1 0x5B [(0x10, 100)]) 5 1).any (fun m => m.opcode == 0x5B) = true := by decide +kernel
theorem witness_OperatorWritesTakeEffectAtOnce :
    isOperator State.reset .pf = true ∧ (State.reset.part 0).defd = true ∧ (State.reset.slab 99).st ≠ .retired ∧
      (Config.slabStack 1).isSome = true ∧ pageWrite (holding []) .pf 5 = some 5 := by decide +kernel
theorem witness_StagingWritesOnlyItsRegion :
    let s := productState
    running? s 5 1 = some product ∧ mustWait s 5 product = false ∧
      (match walkStep (arrayJobs s 5 product 1 0) (walkOf s 0 5 1).steps with
        | some (j, i, _) =>
          let put := chunksAt 2048 [(1, 0)] (j.stageB i 0)
          halfFree (arrayJobs s 5 product 1 0) (walkOf s 0 5 1) && (j.stageA i 0).isEmpty && (j.stageB i 0).length == 256
            && put.all (chunkInside (stageOpd s 5 product))
            && decide (accFail s 5 (stageReads s 5 product) [] (put.map fun x =>
              { g := 0, k := x.1.1, tile := 0, kind := .dma, wr := true, a := x.1.2 : BankAcc }) = none)
        | none => false) = true := by decide +kernel

/-- Context 5 with an enabled ring of 64 slots. -/
def ringed (r : Ring) (ms : List Cmd) : State := (holding ms).modCtx 5 fun x => { x with ring := r }
def ring1 : Ring := { Ring.init with st := .enabled, sqTail := 2, cqTail := 1 }
theorem witness_DoorbellsMoveTheirIndex :
    doorbellCtx (ringed ring1 []) .pf 5 = some 5 ∧ ((ringed ring1 []).ctx 5).ring.st = .enabled ∧
      (1 + 64 - ring1.cqHead) % 64 ≤ (ring1.cqTail + 64 - ring1.cqHead) % 64 ∧ doorbellCtx State.reset .pf 5 = none := by
  decide +kernel
theorem witness_EntriesTakeTheNextNumber :
    mayFetch (ringed ring1 []) 5 = true ∧ mayFetch State.reset 5 = false ∧
      hostFails { ringed ring1 [] with env := { State.reset.env with hostFail := [(0, 64)] } } 0 0 64 = true := by
  decide +kernel
theorem witness_RecordsReportFinishedCommands :
    let m := { issued 0x01 [] with phase := .done }
    getCmd (ringed ring1 [m]) 5 1 = some m ∧ recordRoom (ringed ring1 [m]) 5 = true ∧ (ringed ring1 [m]).pcie.phase = .idle := by decide +kernel
theorem witness_RingsStartDrainAndStop :
    pageWrite (holding []) .pf 5 = some 5 ∧ ((holding []).ctx 5).ring.st = .disabled ∧
      ((holding []).ctx 5).ring.sqBase.toNat % 4096 = 0 ∧ ((ringed { ring1 with st := .draining } []).ctx 5).cmds = [] := by
  decide +kernel
theorem witness_AcknowledgementsReleaseHaltedRings :
    let s := ringed { ring1 with halts := [(1, 0x0101)] } []
    pageCtx s .pf 5 = some 5 ∧ (s.ctx 5).ring.halts ≠ [] ∧ (s.ctx 5).reg.st ≠ .blockedKv := by decide +kernel
theorem witness_CoalescingTimeSendsTheVector :
    let s := (ringed ring1 []).modCtx 5 fun x => { x with irq := { x.irq with unsig := 2 } }
    (s.ctx 5).irq.en = true ∧ 0 < (s.ctx 5).irq.unsig := by decide +kernel
theorem witness_EventRingsStartAndFreeTheirSlots :
    let s := State.reset.modFn 0 fun y => { y with owed := 3 }
    let e := State.reset.modFn 0 fun y => { y with en := true, tail := 2, owed := 1 }
    fnWrite s .pf 0 = true ∧ (s.fn 0).en = false ∧ (s.fn 0).base.toNat % 4096 = 0 ∧ hostFails s 0 0 32 = false ∧
      fnWrite e .jtag 0 = true ∧ (2 + 64 - (e.fn 0).head) % 64 ≤ ((e.fn 0).tail + 64 - (e.fn 0).head) % 64 := by
  decide +kernel
theorem witness_TheHostLinkFailsOver :
    State.reset.live = true ∧ State.reset.pcie.phase = .idle ∧ State.reset.pcie.standbyOk = true := by decide +kernel
/-- A fetched NOP of the current epoch, the candidate of context 5. -/
def waiting1 : Cmd := { issued 0x01 [(0x04, 1)] with phase := .fetched, issued := false }
theorem witness_SequencersIssueOrRefuseTheirCandidate :
    let s := ringed ring1 [waiting1]
    s.pkg.unroutable = false ∧ (s.part 0).defd = true ∧ (choose (countHazard 0 (actControls 0 s)) 0).1 = some 5 ∧
      ((countHazard 0 (actControls 0 s)).part2 0).stopped = [] ∧ candOf (countHazard 0 (actControls 0 s)) 5 = some waiting1 ∧
      brewWaits (countHazard 0 (actControls 0 s)) 5 waiting1 = false := by
  decide +kernel
theorem witness_ControlCommandsMoveTheirTarget :
    (running? (and6 .running true (with1 0x56 [(0x10, 6)])) 5 1).any (fun m => m.opcode == 0x56 && m.f 0x10 16 == 6) = true ∧
      ((and6 .running true (with1 0x56 [(0x10, 6)])).ctx 6).reg.st = .running ∧
      ((and6 .halted false (with1 0x57 [(0x10, 6)])).ctx 6).sched.swapping = .none ∧
      pageCtx (and6 .halted false State.reset) .pf 6 = some 6 := by decide +kernel
theorem witness_ContextsAreAdmittedAndSwapped :
    let s := (and6 .loaded false State.reset).modCtx 6 fun x => { x with sched := { x.sched with runnableAt := some 0 } }
    runnables s 0 = [6] ∧ admissible s 0 6 = true ∧ (s.ctx 6).reg.st = .loaded ∧
      (weightBad s 6).or (swapBad s 6) = none ∧ ((State.reset.modPart2 0 fun x => { x with slice := some 6 }).part2 0).slice = some 6 := by
  decide +kernel
theorem witness_RetirementMovesPositions :
    let s := holding [{ issued 0x10 [] with bound := { Bound.none with forms := [(0, 1)] } }]
    s.live = true ∧ partOf s 0 = some 0 ∧ serverOf s 0 = some 0 ∧
      ((openCmds s 0).any fun e => e.2.bound.forms.any fun f => f.1 == 0) = true ∧ spareSite (s.slab 0) = some 64 ∧
      siteOf (s.slab 0) 0 = 0 ∧ slabPart s 0 = some 0 ∧ (s.slab 44).st = .spare ∧ workAtPos s 0 7 = false ∧
      s.env.waits = [] := by
  decide +kernel
theorem witness_PatinaTestsEveryRegion :
    coreLive State.reset 0 = true ∧ inService State.reset 0 = true ∧ bit (State.reset.slab2 0).patinaCtrl.toNat 31 = true ∧
      serverOf State.reset 0 = some 0 ∧
      ((State.reset.modBank 0 fun b => { b with testing := some 3 }).bank (bankIx 0 0)).testing = some 3 := by
  decide +kernel
/-- A header (R313): type, endpoint, address, of context 5 in partition 0 with its epoch, from the uncore of slab 0. -/
def header (ty dep addr : Nat) : BitVec 512 :=
  BitVec.ofNat 512 (dep <<< 8 + 0x40 <<< 24 + ty <<< 36 + (if ty = 1 then 1 <<< 40 else 0) + 5 <<< 64 + 1 <<< 96 + addr <<< 128)
theorem witness_PacketsReachTheirEndpoint :
    let s := (holding []).modBank 0 fun b => { b with holder := some 5, owner := 1 }
    let w := header 1 0 64
    let up : FabPlace := { slab := 0, node := .uncore }
    let r0 : FabPlace := { slab := 0, node := .router 0 }
    let f : Flit := { hdr := header 1 63 0, idx := 0, data := 0 }
    (s.slab 0).st ≠ .retired ∧ headerOk w = true ∧ bodyFits w (.write [1, 2, 3] 0 .dma) = true ∧ packetFits s w = true ∧
      packetAcc s w = .bank 0 0 64 ∧ (aget (s.slab2 0).epochs 0).getD 0 = hEpoch w ∧ bankClearing s 0 0 = false ∧
      ownerAdmits s 0 0 (engineAgent .dma 5 0) .write = true ∧ ownerAdmits s 0 0 (engineAgent .dma 6 0) .write = false ∧
      joined up r0 = true ∧ offered s up r0 (some f) = some (none, 0, f) ∧ offered s up r0 none = none ∧
      failsAt s r0 up = 0 ∧ Config.slabStack 1 = some 0 := by decide +kernel
/-- A read of HBM at slab 1, whose stack holds the first bytes of partition 0's range, under the key of context 5. -/
theorem witness_PacketsOfHbm :
    let u := (holding []).part 0 |>.hbmBase
    let s := (holding []).modCtx 5 fun x => { x with regions := [(3, { Region.empty with space := .hbm, len := 4096, units := [u] })] }
    let da := allocBytes * u
    let h := header 0 0x41 da ||| BitVec.ofNat 512 (daSlab da)
    headerOk h = true ∧ packetFits s h = true ∧ packetAcc s h = .hbm da ∧
      readBad s none (ctxKey s 5) (spanFuel 64) da 64 = none ∧ writeBad s none (ctxKey s 5) (spanFuel 64) da 64 = none := by
  decide +kernel
theorem witness_TheHostWindowReachesOwnedBanks :
    let s := (holding []).modBank 0 fun b => { b with holder := some 5 }
    winFunc s .pf = some 0 ∧ bankClearing s 0 0 = false ∧ winOwns s 0 0 0 = true ∧ ownerAdmits s 0 0 (.window 0) .read = true ∧
      bankClearing (s.modBank 0 fun b => { b with clearing := true }) 0 0 = true ∧ winFunc s .i3c = none := by decide +kernel
theorem witness_OwnersAreHandedOver :
    (ready? (withRegion (with1 0x4A [(0x10, 3)])) 5 1 0x4A).isSome = true ∧
      getRegion (withRegion (with1 0x4A [(0x10, 3)])) 5 3 = some bankRegion ∧ isOperator State.reset .pf = true ∧
      coreLive State.reset 0 = true := by decide +kernel
theorem witness_PortsTrainAndFail :
    portLive State.reset 0 = true ∧ (State.reset.port 0).st = .training ∧ (State.reset.port2 0).expPort = 0xFF ∧
      ((State.reset.modPort 0 fun y => { y with st := .active }).port 0).st = .active := by decide +kernel
/-- A frame whose symbols are all zero is a code word, DATA with number 0; one odd symbol out of its place is none. (A frame of
512 symbols is too deep for the kernel.) -/
theorem witness_PortsTakeFrames :
    decodeFrame [] = some ([], 0) ∧ decodeFrame [1] = none ∧ (frameOf (payloadNat [])).ftype = 0 ∧
      (frameOf (payloadNat [])).fseq = 0 := by decide +kernel
theorem witness_JobsOpenByTheExchange :
    let s := ((with1 0x4B [(0x10, 2)]).modCtx 5 fun x => { x with jobs := [(2, job1 .opening)] }).modPort 0 fun y =>
      { y with st := .active }
    let h := BitVec.ofNat 512 (82 + 1 <<< 96 + 1 <<< 128)
    (running? s 5 1).any (fun m => m.opcode == 0x4B) = true ∧ (s.port 0).st = .active ∧ s.pcie.phase = .idle ∧
      jobsFull s 5 3 0 = false ∧ jobsFull s 5 2 0 = true ∧ hostFails s 0 0 11072 = false ∧
      getJob s 5 2 = some (job1 .opening) ∧ oldestOpening s (job1 .opening) = true ∧ (getCmd s 5 1).isSome = true ∧
      getJob (s.modCtx 5 fun x => { x with jobs := [(2, job1 .open)] }) (lJob h / 16) (lJob h % 16) = some (job1 .open) ∧
      lLen h = 0 ∧ lType h = 0 ∧ lEpochTx h = 1 ∧ lEpochRx h = ctxEpoch s 5 := by decide +kernel
def stream1 (f : Option VcFrame) : VcStream :=
  { params := 0, newRate := none, frames := 0, sinceKey := 0, fullness := 0, needKey := false, cores := [0], refs := [],
    frame := f }
theorem witness_CoderCommandsOpenAndFeedStreams :
    (paramBlock (with1 0x60 []) 5 (issued 0x60 [])).isSome = true ∧
      (let s := (with1 0x62 []).modCtx 5 fun x => { x with vcs := [(0, stream1 none)] }
       (ready? s 5 1 0x62).isSome = true ∧ getVc s 5 0 = some (stream1 none)) ∧
      (ready? (with1 0x64 []) 5 1 0x64).isSome = true ∧ getVc (with1 0x64 []) 5 0 = none := by decide +kernel
def frame1 : VcFrame :=
  { q := 1, key := true, pass := 1, filter := false, quant := 0, np := 4, reissues := 0, committed := [], fail := none }
/-- Context 5 with a frame of stream 0, whose JOB region is 3. -/
def coding : State := (withRegion (with1 0x62 [])).modCtx 5 fun x => { x with
  vcs := [(0, { stream1 (some frame1) with params := BitVec.ofNat 1024 (3 <<< (8 * 0x26)) })] }
theorem witness_CoresClaimCommitAndReset :
    coreServes coding 0 = true ∧ (coding.slab2 0).vc.st = .idle ∧ (coding.slab2 0).vc.claim = none ∧
      attempting coding 5 0 = false ∧ (getVc coding 5 0).isSome = true ∧ hostWaits coding (issued 0x62 []) = false := by decide +kernel
theorem witness_SecurityOperationsEndWithTheirResult :
    let s := { State.reset with sec := { State.reset.sec with busy := true, run := 1, len := 64 } }
    secOp? s 1 = true ∧ secBad s = false ∧ secNoCtx s = false ∧ hostFails s 0 0 64 = false ∧ secOp? s 3 = false := by
  decide +kernel
/-- An operation of the Armature waits to start; the other slot holds an image of epoch 2. -/
def arming (op : Nat) : State :=
  { State.reset with
    sec := { State.reset.sec with armFloor := 0 },
    arm := { State.reset.arm with
      busy := true, cmdOp := op, slotB := State.reset.arm.slotA.map fun i => { i with epoch := 2, svn := 0 } } }
theorem witness_ArmaturesAreAppliedRevertedAndReturned :
    armOp? (arming 1) 1 = true ∧ (arming 1).arm.cmdMask = 0 ∧ slotOk (armOther (arming 1)) (arming 1).sec.armFloor = true ∧
      armOp? (arming 4) 4 = true ∧ maskBad (arming 4) = false := by decide +kernel
theorem witness_PartitionsSwitchAndAgree :
    let e : Exch := { waiting := [0], bad := [1], attempt := 3, judged := true }
    let s := State.reset.modPart2 0 fun y => { y with exch := some e }
    (s.part2 0).exch = some e ∧ openCmds s 0 = [] ∧ exchRuns { State.reset with arm2 := { State.reset.arm2 with
      started := true, todo := [0] } } = false := by decide +kernel
theorem witness_TheMeterFormsReadingsWhenTriggered :
    State.reset.meter.powered = true ∧ State.reset.meter2.fitted = true ∧
      (State.reset.meter.ctr.toNat + 0) % (State.reset.meter.period.toNat * 24000000) = 0 := by decide +kernel
theorem witness_ThePortAndTheMirrorServeReadings :
    State.reset.meter.powered = true ∧ State.reset.mtr.pend = false ∧ State.reset.meter2.mirrorOut = [] ∧
      isOperator State.reset .jtag = true := by decide +kernel
theorem witness_RegisterPathsJudgeEachWord :
    srcLive State.reset .pf = true ∧ srcLive State.reset .jtag = true ∧ srcLive State.reset .i3c = true ∧
      doorbellCtx (holding []) .pf 5 = some 5 ∧ (indTarget State.reset).isSome = true := by decide +kernel
theorem witness_TheTestAndManagementPortsAnswer :
    srcLive State.reset .jtag = true ∧ State.reset.live = true ∧ State.reset.pkc.recovery = false ∧
      State.reset.pkg.unroutable = false ∧
      (mgmtRead State.reset).isSome = true ∧ srcLive { State.reset with pkc := { State.reset.pkc with power := .unpowered } } .jtag
        = false := by decide +kernel
theorem witness_DeviceResetsLoseEverythingButWhatLasts :
    srcLive State.reset .pf = true ∧ State.reset.pkc.power = .running ∧ State.reset.pkc.ready = true ∧
      State.reset.pkc2.perstN = true ∧ State.reset.pkc2.sysResetN = true := by decide +kernel
theorem witness_FunctionsPartitionsAndSlabsReset :
    srcLive { State.reset with pcie := { State.reset.pcie with vfs := 4 } } (.vf 4) = true ∧
      presetHeld State.reset 0 = false ∧ (State.reset.part 4).defd = false ∧ (State.reset.slab 64).st = .active ∧
      partOf State.reset 64 ≠ none ∧ (State.reset.slab 44).st ≠ .active := by decide +kernel

/-! ## Single steps and worked examples of the spec -/

/-- Does an outcome go on to a state with a property? -/
def after (o : Host.Outcome State Fault Refusal) (p : State → Bool) : Bool :=
  match o with
  | .next t => p t
  | _ => false

/-- R126: the copy moves the 16 bytes of region 3 to its byte 64, which is host address 4,160. -/
theorem test_copy_moves_every_byte :
    after (exec (.copy 5 1) copyState) (fun t =>
      mread t.env.hostMem 4160 16 == toBytes 16 0x0F0E0D0C0B0A09080706050403020100) = true := by decide +kernel

/-- R33: a limit above 1,900 (units of 10 W) is clamped, with the event of a clamp. -/
theorem test_power_limit_is_clamped :
    after (exec (.powerLimitWrite .pf 2500) State.reset) (fun t => t.pkg.powerLimit == 1900 && t.pkg.events == 2) = true ∧
      after (exec (.powerLimitWrite .pf 100) State.reset) (fun t => t.pkg.powerLimit == 400) = true := by decide +kernel

/-- R449: the value that IDCODE captures. -/
theorem test_idcode : after (exec .idcode State.reset) (fun t => t.env.resp == .capture 32 0x15310A4B) = true := by
  decide +kernel

/-- Section 11, worked example: device address 0x0001_2345_6789 lies on stack 23, whose slab is (0,1). -/
theorem test_stack_of_an_address : daStack 0x123456789 = 23 ∧ daSlab 0x123456789 = 10 := by decide +kernel

/-- Section 4, worked example: swizzle 1 moves bank address 0x0006_A880 to 0x0006_AA00. -/
theorem test_swizzle : swizzle 1 0x6A880 = 0x6AA00 := by decide +kernel

/-- Section 8, worked example: row 3 of the crop samples 18.25. -/
theorem test_crop_coordinate : (cropAt 2560 7680 8 3).num * 4 = 73 * (cropAt 2560 7680 8 3).den := by decide +kernel

/-- Section 3, worked example: the group takes an accumulator of 16,776,193 to 16,777,218 and counts one truncation
and one vanished product. -/
theorem test_group_rounds_by_its_sticky_bits :
    let r := groupF (windowBits 4 4) (dec32 0x4B7FFC01) ((elOf 4 0x50 0, elOf 4 0x50 0) :: (elOf 4 1 0, elOf 4 1 0) ::
      List.replicate 14 (El.zero, elOf 4 0x50 0))
    enc32 r.1 = 0x4B800001 ∧ r.2.nTrunc = 1 ∧ r.2.nVanish = 1 ∧ r.2.vanish = true := by decide +kernel

/-- Section 3, worked example: with E4M3 weights no bit is dropped and no counter moves. -/
theorem test_group_exact :
    let r := groupF (windowBits 4 3) (dec32 0x4B7FFC01) [(elOf 4 0x50 0, elOf 3 0x60 0), (elOf 4 1 0, elOf 3 1 0)]
    r.2.nVanish = 0 ∧ r.2.nTrunc = 0 := by decide +kernel

/-- R247, R249: the key of seed 1, worked out from the code of R247 apart from this model. -/
theorem test_seed_key : seedKey 1 = 0x41143ADB394DAE1A241D51CE1287F64B := by decide +kernel

/-- Section 18, worked example: how an energy falls on the four partitions. -/
theorem test_energy_shares :
    let own (c p : Nat) (s : State) := s.modCtx c fun x => { x with reg := { x.reg with st := .loaded, part := p } }
    let s := own 1 0 (own 2 1 (own 3 2 State.reset))
    let s := { s with mtr := { s.mtr with appBase := 30, actReq := [(1, 6000000000000), (2, 2000000000000), (3, 2000000000000)] } }
    shares s 12780000000 = ([(0, 6645600000), (1, 3067200000), (2, 2587950000), (3, 479250000)], 0) := by decide +kernel

/-- Section 19, worked example: the indirect read of `TILE_MAP_5` of slab 73 whose site 64 serves tile 21, then the
read of an offset that no register has. -/
def mapped : State := State.reset.modSlab 73 fun x => { x with tileMap := x.tileMap ^^^ ((21 ^^^ 64) <<< (8 * 21)) }
theorem test_indirect_tile_map :
    after (exec (.indDataAccess .pf none) { mapped with rif := { mapped.rif with indAddr := 0x49000024 } }) (fun t =>
      t.env.resp == .data (toBytes 4 0x17164014) && t.rif.indAddr == 0x49000028) = true := by decide +kernel
theorem test_indirect_past_the_registers :
    after (exec (.indDataAccess .pf none) { mapped with rif := { mapped.rif with indAddr := 0x49000064 } }) (fun t =>
      t.env.resp == .unsupported && t.rif.indAddr == 0x49000064 && t.rif.log0 == 0x04000000 && t.rif.log1 == 0x49000064) =
      true := by decide +kernel

/-- A step on a queue of two runs the front one and keeps the other. -/
theorem test_step_takes_the_front :
    after (step { State.reset with pending := [.idcode, .bypass false] }) (fun t =>
      t.pending == [.bypass false] && t.env.resp == .capture 32 0x15310A4B) = true := by decide +kernel

end Sys2Proof.Tests
end

section
/-! PROOF. The power limit and the samples of the package controller (R33 to R37). -/

namespace Sys2Proof.Machine

open Sys2Proof

/-- The check over all slabs asks that every slab in service stands at 1/16 (R36). -/
theorem allAtFloor_iff (s : State) :
    allAtFloor s = true ↔ ∀ n, n < 100 → inService s n = true → issueRate s n = 1 := by
  unfold allAtFloor
  simp only [List.all_eq_true, List.mem_range, Bool.or_eq_true, Bool.not_eq_true', beq_iff_eq]
  refine forall₂_congr fun n _ => ?_
  cases inService s n <;> simp

/-- The last 100 samples with a new one in front (R34). -/
def lastSamples (watts : Nat) (s : State) : List Nat := (watts :: s.pkg.samples).take 100

/-- The package controller with a new sample and its average (R34). -/
def sampledPkg (watts : Nat) (s : State) : Pkg :=
  { s.pkg with
    samples := lastSamples watts s,
    pAvg := BitVec.ofNat 16 (min 65535 ((lastSamples watts s).sum / (10 * (lastSamples watts s).length))) }

/-- The state with a sample of power and supplies taken and the package controller `x` (R34, R542). -/
def sampledWith (v12 v48 : Nat) (x : Pkg) (s : State) : State :=
  { s with
    pkg := x, pkc := { s.pkc with v12 := min 65535 v12, v48 := min 65535 v48 },
    pkc2 := { s.pkc2 with sampled := true } }

/-- Is the average of the samples at or above the limit (R34)? -/
abbrev overLimit (watts : Nat) (s : State) : Prop :=
  10 * s.pkg.powerLimit.toNat * (lastSamples watts s).length ≤ (lastSamples watts s).sum

theorem max_one_length_lastSamples (watts : Nat) (s : State) :
    max 1 (lastSamples watts s).length = (lastSamples watts s).length := by simp [lastSamples]

theorem addSample_setSupplies (watts v12 v48 : Nat) (s : State) :
    addSample watts (setSupplies v12 v48 s) = sampledWith v12 v48 (sampledPkg watts s) s := by
  unfold sampledPkg
  rw [← max_one_length_lastSamples]
  rfl

theorem powerCount_sampledWith (watts v12 v48 : Nat) (s : State) :
    powerCount (sampledWith v12 v48 (sampledPkg watts s) s) = (lastSamples watts s).length :=
  max_one_length_lastSamples watts s

theorem exec_powerSample {s : State} (watts v12 v48 : Nat) (hs : s.live = true) :
    exec (.powerSample watts v12 v48) s =
      if overLimit watts s then
        if allAtFloor s then .next (pkgEvent 4 (sampledWith v12 v48 (sampledPkg watts s) s))
        else .next (
          let u := sampledWith v12 v48 { sampledPkg watts s with step := min 15 (s.pkg.step + 1) } s
          if s.pkg.step == 0 then pkgEvent 1 u else u)
      else .next (sampledWith v12 v48 (sampledPkg watts s) s) := by
  show execPowerSample watts v12 v48 s = _
  unfold execPowerSample
  rw [hs, addSample_setSupplies, if_neg (by decide)]
  dsimp only
  rw [powerCount_sampledWith]
  rfl

/-- The package controller after a sample at or above the limit: one step more, or `LIMIT_UNREACHABLE` where every slab
stands at the floor (R34, R36, R37). -/
def overPkg (watts : Nat) (s : State) : Pkg :=
  if allAtFloor s then { sampledPkg watts s with events := s.pkg.events ||| 4 }
  else { sampledPkg watts s with
    step := min 15 (s.pkg.step + 1), events := if s.pkg.step = 0 then s.pkg.events ||| 1 else s.pkg.events }

theorem exec_powerSample_over {watts : Nat} {s : State} (v12 v48 : Nat) (hs : s.live = true) (h : overLimit watts s) :
    ∃ t, exec (.powerSample watts v12 v48) s = .next t ∧ Posted (sampledWith v12 v48 (overPkg watts s) s) t := by
  rw [exec_powerSample _ _ _ hs, if_pos h]
  unfold overPkg
  by_cases floor : allAtFloor s = true
  · rw [if_pos floor, if_pos floor]
    exact ⟨_, rfl, posted_pkgEvent 4 (sampledWith v12 v48 (sampledPkg watts s) s)⟩
  · rw [if_neg floor, if_neg floor]
    refine ⟨_, rfl, ?_⟩
    by_cases first : s.pkg.step = 0
    · rw [if_pos first, if_pos (beq_iff_eq.2 first)]
      exact posted_pkgEvent 1 (sampledWith v12 v48 { sampledPkg watts s with step := min 15 (s.pkg.step + 1) } s)
    · rw [if_neg first, if_neg (by simpa using first)]
      exact .refl _

/-- The power limit is set to the nearest value in 400 to 1900, and a clamp is an event (R33). -/
theorem exec_powerLimitWrite_posted (src : Src) (v : BitVec 32) (s : State) (h : isOperatorAt s src = true) :
    ∃ t, exec (.powerLimitWrite src v) s = .next t ∧
      Posted { s with pkg := { s.pkg with
        powerLimit := BitVec.ofNat 16 (min 1900 (max 400 (v.toNat % 2 ^ 16))),
        events := if min 1900 (max 400 (v.toNat % 2 ^ 16)) = v.toNat % 2 ^ 16 then s.pkg.events
          else s.pkg.events ||| 2 } } t := by
  refine ⟨_, show execPowerLimitWrite src v s = _ from if_pos h, ?_⟩
  split
  · exact .refl _
  · exact posted_pkgEvent 2 _

/-- One step less below 95 % of the limit (R34). -/
theorem exec_powerRateRaise (s : State) (hs : s.live = true) :
    exec .powerRateRaise s = .next { s with pkg := { s.pkg with
      step := if 100 * s.pkg.samples.sum < 950 * s.pkg.powerLimit.toNat * max 1 s.pkg.samples.length then s.pkg.step - 1
        else s.pkg.step } } := by
  show execPowerRateRaise s = _
  unfold execPowerRateRaise powerSum powerCount
  rw [hs, if_neg (by decide)]
  split
  · rfl
  · rfl

/-- Settles O23: the limit by its own lemma, a sample by whether it is over the limit and whether every slab is at the
floor. -/
theorem powerIsCapped : Obligations.PowerIsCapped := by
  refine ⟨exec_powerLimitWrite_posted, fun s hs => ⟨fun watts v12 v48 => ?_, exec_powerRateRaise s hs⟩⟩
  by_cases high : overLimit watts s
  · obtain ⟨t, ht, post⟩ := exec_powerSample_over v12 v48 hs high
    have pkg : t.pkg = overPkg watts s := post.pkg
    refine ⟨t, ht, ?_, absurd high, fun _ floor => ?_, fun _ floor => ?_, by rw [pkg]; exact post⟩
    · rw [pkg, overPkg]; split <;> rfl
    · rw [pkg, overPkg, if_pos ((allAtFloor_iff s).2 floor)]
      exact ⟨rfl, rfl⟩
    · rw [pkg, overPkg, if_neg fun h => floor ((allAtFloor_iff s).1 h)]
      exact ⟨rfl, rfl⟩
  · exact ⟨_, (exec_powerSample watts v12 v48 hs).trans (if_neg high), rfl, fun _ => ⟨rfl, rfl⟩, fun h => absurd h high,
      fun h => absurd h high, .refl _⟩

end Sys2Proof.Machine
end

section
/-! PROOF. Throttle periods (R66): which tiles are in lock step (R67), what the counting of a period leaves alone, and
what a gated period does to the array. -/

namespace Sys2Proof.Machine

open Sys2Proof

/-! ## Tiles in lock step -/

theorem formG_cases (f : Nat) : formG f = 1 ∨ formG f = 2 ∨ formG f = 4 := by
  unfold formG
  split <;> simp

theorem mem_gangTiles {side g h : Nat} : h ∈ gangTiles side g ↔ ∃ i < side, ∃ j < side,
    g / 64 * 64 + 8 * (g / 8 % 8 / side * side + i) + g % 8 / side * side + j = h := by
  simp [gangTiles]

/-- A tile is in lock step with itself (R67). -/
theorem self_mem_lockStep (s : State) (g : Nat) : g ∈ lockStep s g := by
  unfold lockStep
  generalize (s.tile g).form = f
  rw [mem_gangTiles]
  have side : 0 < formG f := by rcases formG_cases f with h | h | h <;> omega
  refine ⟨g / 8 % 8 % formG f, Nat.mod_lt _ side, g % 8 % formG f, Nat.mod_lt _ side, ?_⟩
  have row := Nat.div_add_mod' (g / 8 % 8) (formG f)
  have col := Nat.div_add_mod' (g % 8) (formG f)
  omega

/-- The tiles in lock step with a tile are tiles of its slab (R67). -/
theorem lockStep_slab {s : State} {g h : Nat} (hh : h ∈ lockStep s g) : h / 64 = g / 64 := by
  unfold lockStep at hh
  generalize (s.tile g).form = f at hh
  obtain ⟨i, hi, j, hj, e⟩ := mem_gangTiles.1 hh
  rcases formG_cases f with side | side | side <;> rw [side] at hi hj e <;> omega

theorem gangTiles_nodup (f g : Nat) : (gangTiles (formG f) g).Nodup := by
  unfold gangTiles
  rw [List.nodup_flatMap]
  refine ⟨fun i _ => List.Nodup.map (fun a b h => by simpa using h) List.nodup_range,
    List.Pairwise.imp_of_mem (fun {i j} _ _ hij => ?_) List.nodup_range⟩
  simp only [Function.onFun, List.disjoint_left, List.mem_map, List.mem_range, not_exists, not_and]
  rintro x ⟨a, ha, rfl⟩ b hb e
  refine hij ?_
  rcases formG_cases f with side | side | side <;> rw [side] at ha hb e <;> omega

theorem mem_slabTiles {n g : Nat} : g ∈ slabTiles n ↔ g / 64 = n := by
  unfold slabTiles
  simp only [List.mem_map, List.mem_range]
  constructor
  · rintro ⟨t, ht, rfl⟩; omega
  · rintro rfl; exact ⟨g % 64, Nat.mod_lt _ (by decide), by omega⟩

theorem rampLead_mem (s : State) (g : Nat) : rampLead s g ∈ lockStep s g := by
  unfold rampLead
  cases h : lockStep s g with
  | nil => have := self_mem_lockStep s g; rw [h] at this; cases this
  | cons a r => exact List.mem_cons_self

theorem rampLead_congr {s : State} {g h : Nat} (e : lockStep s g = lockStep s h) : rampLead s g = rampLead s h := by
  have m := self_mem_lockStep s h
  unfold rampLead
  rw [e]
  cases hl : lockStep s h with
  | nil => rw [hl] at m; cases m
  | cons a r => rfl

/-- Lock step is a matter of the forms alone. -/
theorem lockStep_congr {s t : State} (e : ∀ k, (t.tile k).form = (s.tile k).form) (g : Nat) :
    lockStep t g = lockStep s g := by unfold lockStep; rw [e]

theorem rampLead_of_forms {s t : State} (e : ∀ k, (t.tile k).form = (s.tile k).form) (g : Nat) :
    rampLead t g = rampLead s g := by unfold rampLead; rw [lockStep_congr e]

/-! ## What counting leaves alone -/

/-- From `s` to `t` no tile's form and no array's fraction changed. -/
def RampsStay (s t : State) : Prop := ∀ g, (t.tile g).form = (s.tile g).form ∧ (t.tile g).frac = (s.tile g).frac ∧
  (t.tile g).dir = (s.tile g).dir

variable {s t u : State}

theorem RampsStay.refl (s : State) : RampsStay s s := fun _ => ⟨rfl, rfl, rfl⟩

theorem RampsStay.of_keeps {F : List SField} (h : RampsStay s t) (k : Keeps F t u) (hF : SField.tiles ∉ F := by decide) :
    RampsStay s u := fun g => by
  rw [show u.tile g = t.tile g from congrArg (fun x => tget _ x g) (k.only _ hF)]
  exact h g

theorem RampsStay.modTile (h : RampsStay s t) (g : Nat) (f : Tile → Tile)
    (hf : ∀ x, (f x).form = x.form ∧ (f x).frac = x.frac ∧ (f x).dir = x.dir) : RampsStay s (t.modTile g f) := fun k => by
  by_cases e : k = g
  · subst e
    rw [State.modTile_tile_self, (hf _).1, (hf _).2.1, (hf _).2.2]
    exact h k
  · rw [State.modTile_tile_other _ _ e]
    exact h k

theorem RampsStay.forAll {α : Type} (h : RampsStay s t) (l : List α) (f : α → State → State)
    (hf : ∀ a u, RampsStay s u → RampsStay s (f a u)) : RampsStay s (forAll l f t) :=
  forAll_keeps (RampsStay s) f l (fun a _ u k => hf a u k) t h

theorem RampsStay.modTile2 (h : RampsStay s t) (g : Nat) (f : Tile2 → Tile2) : RampsStay s (t.modTile2 g f) := h

theorem rampsStay_loadRows (h : RampsStay s t) (w : Walk) (j : AJob) (b : ABlock) (before i n g : Nat) :
    RampsStay s (loadRows w j b before i n g t) :=
  (h.modTile2 g _).modTile g _ fun _ => ⟨rfl, rfl, rfl⟩

theorem rampsStay_shadowLoad (h : RampsStay s t) (n g : Nat) : RampsStay s (shadowLoad n g t) := by
  unfold shadowLoad
  split
  · exact h
  · split
    · exact h
    · dsimp only
      split
      · split
        · exact rampsStay_loadRows (h.modTile2 _ _) _ _ _ _ _ _ _
        · exact h
      · exact h

theorem rampsStay_creditCtx (h : RampsStay s t) (c a b : Nat) : RampsStay s (creditCtx c a b t) :=
  h.of_keeps (keeps_creditCtx (.refl t) c a b (hF := List.Subset.refl _))

theorem rampsStay_countPhase (h : RampsStay s t) (k : PhaseCount) (g : Nat) : RampsStay s (countPhase k g t) := by
  unfold countPhase
  split
  · exact h
  · extract_lets v
    have hv : RampsStay s v := h.modTile g _ fun _ => ⟨rfl, rfl, rfl⟩
    split
    · exact rampsStay_creditCtx hv _ _ _
    · exact hv

theorem rampsStay_cutPhase (h : RampsStay s t) (g : Nat) (cut : List Cyc) : RampsStay s (cutPhase g cut t) := by
  unfold cutPhase
  dsimp only
  split
  · exact h
  · exact h.forAll _ _ fun g _ k => rampsStay_countPhase k _ g

theorem rampsStay_countAct (h : RampsStay s t) (ok : Bool) (a : TileAct) : RampsStay s (countAct ok a t) := by
  unfold countAct
  extract_lets b n v w
  have hv : RampsStay s v := h.modTile _ _ fun x => by dsimp only; split <;> exact ⟨rfl, rfl, rfl⟩
  have hw : RampsStay s w := hv.modTile2 _ _
  exact rampsStay_shadowLoad (rampsStay_creditCtx hw _ _ _) _ _

theorem rampsStay_periodTile (h : RampsStay s t) (ok : Bool) (acts : List TileAct) (g : Nat) :
    RampsStay s (periodTile ok acts g t) := by
  unfold periodTile
  extract_lets v
  have hv : RampsStay s v := by
    unfold v
    split
    · exact rampsStay_countAct h _ _
    · exact h
  split
  · exact hv
  · exact hv.modTile g _ fun _ => ⟨rfl, rfl, rfl⟩

/-! ## A gated period -/

/-- `y` stands where a ramp down from the fraction of `x` starts; without ramps, at 0/8 (R64, R68). -/
def RampedDown (off : Bool) (x y : Tile) : Prop :=
  if off then y.frac = 0 ∧ y.dir = .steady else y.frac = x.frac - 1 ∧ y.dir = .down

theorem rampedDown_rampDown (off : Bool) (len : Nat) (x : Tile) : RampedDown off x (x.rampDown off len) := by
  unfold RampedDown Tile.rampDown
  cases off <;> exact ⟨rfl, rfl⟩

/-- A tile that has ramped down does not ramp down again. -/
theorem RampedDown.stays {off : Bool} {x y : Tile} (h : RampedDown off x y) : ¬ (0 < y.frac ∧ y.dir ≠ .down) := by
  unfold RampedDown at h
  rintro ⟨h1, h2⟩
  split at h
  · omega
  · exact h2 h.2

theorem RampedDown.congr {off : Bool} {x x' y y' : Tile} (h : RampedDown off x y) (hx : x'.frac = x.frac)
    (hf : y'.frac = y.frac) (hd : y'.dir = y.dir) : RampedDown off x' y' := by
  unfold RampedDown at *
  rw [hx, hf, hd]
  exact h

/-- A ramp is taken over by the tiles in lock step, and by no other. -/
theorem setRamp_tile (g : Nat) (y : Tile) (s : State) (h : Nat) :
    (setRamp g y s).tile h = if h ∈ lockStep s g then y.follow (s.tile h) else s.tile h :=
  forAll_pointwise (fun t h => t.tile h) (fun h t => t.modTile h y.follow) (fun _ x => y.follow x) (fun _ => True)
    (fun _ _ _ => State.modTile_tile_self ..) (fun _ _ _ e => State.modTile_tile_other _ _ e) (fun _ _ _ => trivial) _
    (gangTiles_nodup _ _) s trivial h

/-- The array directed by `g`'s lead is one that a gated period ramps down (R66). -/
def Gates (s : State) (g : Nat) : Prop := 0 < (s.tile (rampLead s g)).frac ∧ (s.tile (rampLead s g)).dir ≠ .down

/-- Gating a tile keeps the forms; where its array is one to gate, the tiles in lock step ramp down, and no other does. -/
theorem gateTile_tile (v : Nat) (acts : List TileAct) (g : Nat) (s : State) (h : Nat) :
    ((gateTile v acts g s).tile h).form = (s.tile h).form ∧
    (Gates s g → h ∈ lockStep s g → RampedDown (rampOff v) (s.tile (rampLead s g)) ((gateTile v acts g s).tile h)) ∧
    (¬ (Gates s g ∧ h ∈ lockStep s g) →
      ((gateTile v acts g s).tile h).frac = (s.tile h).frac ∧ ((gateTile v acts g s).tile h).dir = (s.tile h).dir) := by
  unfold gateTile
  dsimp only
  split
  · next hg =>
    have hc := rampsStay_cutPhase (.refl s) g (cutOf acts g)
    rw [setRamp_tile, lockStep_congr fun k => (hc k).1]
    split
    · next hm => exact ⟨(hc h).1, fun _ _ => rampedDown_rampDown .., fun hn => absurd ⟨hg, hm⟩ hn⟩
    · next hm => exact ⟨(hc h).1, fun _ h' => absurd h' hm, fun _ => (hc h).2⟩
  · next hg => exact ⟨rfl, fun h' => absurd h' hg, fun _ => ⟨rfl, rfl⟩⟩

/-- The tiles of the gang of `h` stand as in `s`. -/
def GangStays (s : State) (h : Nat) (t : State) : Prop :=
  (∀ k, (t.tile k).form = (s.tile k).form) ∧
  ∀ k ∈ lockStep s h, (t.tile k).frac = (s.tile k).frac ∧ (t.tile k).dir = (s.tile k).dir

/-- The tiles of the gang of `h` have ramped down from its lead in `s`. -/
def GangRamped (off : Bool) (s : State) (h : Nat) (t : State) : Prop :=
  (∀ k, (t.tile k).form = (s.tile k).form) ∧ ∀ k ∈ lockStep s h, RampedDown off (s.tile (rampLead s h)) (t.tile k)

/-- Gangs that are whole are disjoint or equal. -/
theorem lockStep_eq_of_common {s : State} {g h k : Nat} (hg : ∀ k ∈ lockStep s g, lockStep s k = lockStep s g)
    (hh : ∀ k ∈ lockStep s h, lockStep s k = lockStep s h) (kg : k ∈ lockStep s g) (kh : k ∈ lockStep s h) :
    lockStep s g = lockStep s h := (hg k kg).symm.trans (hh k kh)

theorem gates_congr {s t : State} {g h : Nat} (stay : GangStays s h t) (e : lockStep s g = lockStep s h) :
    Gates t g ↔ Gates s h := by
  have l : rampLead t g = rampLead s h := (rampLead_of_forms stay.1 g).trans (rampLead_congr e)
  obtain ⟨f, d⟩ := stay.2 _ (rampLead_mem s h)
  unfold Gates
  rw [l, f, d]

section
variable {v : Nat} {acts : List TileAct} {s t : State} {g h : Nat}

/-- Gating a tile of another gang, or of a gang that is not to be gated, leaves a gang as it is. -/
theorem GangStays.gateTile (stay : GangStays s h t) (hg : ∀ k ∈ lockStep s g, lockStep s k = lockStep s g)
    (hh : ∀ k ∈ lockStep s h, lockStep s k = lockStep s h) (hn : ¬ (Gates s h ∧ lockStep s g = lockStep s h)) :
    GangStays s h (gateTile v acts g t) := by
  refine ⟨fun k => (gateTile_tile v acts g t k).1.trans (stay.1 k), fun k hk => ?_⟩
  obtain ⟨f, d⟩ := (gateTile_tile v acts g t k).2.2 fun ⟨gates, hkg⟩ => by
    rw [lockStep_congr stay.1] at hkg
    have e := lockStep_eq_of_common hg hh hkg hk
    exact hn ⟨(gates_congr stay e).1 gates, e⟩
  exact ⟨f.trans (stay.2 k hk).1, d.trans (stay.2 k hk).2⟩

/-- Gating a tile of a gang that is to be gated ramps the gang down. -/
theorem GangStays.ramps (stay : GangStays s h t) (e : lockStep s g = lockStep s h) (gates : Gates s h) :
    GangRamped (rampOff v) s h (Machine.gateTile v acts g t) := by
  refine ⟨fun k => (gateTile_tile v acts g t k).1.trans (stay.1 k), fun k hk => ?_⟩
  have l : rampLead t g = rampLead s h := (rampLead_of_forms stay.1 g).trans (rampLead_congr e)
  have r := (gateTile_tile v acts g t k).2.1 ((gates_congr stay e).2 gates) (by rwa [lockStep_congr stay.1, e])
  exact r.congr (by rw [l, (stay.2 _ (rampLead_mem s h)).1]) rfl rfl

/-- A gang that has ramped down is not gated again. -/
theorem GangRamped.gateTile {off : Bool} (ramped : GangRamped off s h t)
    (hg : ∀ k ∈ lockStep s g, lockStep s k = lockStep s g) (hh : ∀ k ∈ lockStep s h, lockStep s k = lockStep s h) :
    GangRamped off s h (Machine.gateTile v acts g t) := by
  refine ⟨fun k => (gateTile_tile v acts g t k).1.trans (ramped.1 k), fun k hk => ?_⟩
  obtain ⟨f, d⟩ := (gateTile_tile v acts g t k).2.2 fun ⟨gates, hkg⟩ => by
    rw [lockStep_congr ramped.1] at hkg
    have l : rampLead t g = rampLead s h :=
      (rampLead_of_forms ramped.1 g).trans (rampLead_congr (lockStep_eq_of_common hg hh hkg hk))
    unfold Gates at gates
    rw [l] at gates
    exact (ramped.2 _ (rampLead_mem s h)).stays gates
  exact (ramped.2 k hk).congr rfl f d

end

/-- Gating tiles whose gangs are whole ramps down every gang to be gated that has one of them, once. -/
theorem gateTiles_ramped (v : Nat) (acts : List TileAct) {l : List Nat} {s : State} {h : Nat}
    (whole : ∀ g ∈ l, ∀ k ∈ lockStep s g, lockStep s k = lockStep s g) (hl : h ∈ l) (gates : Gates s h) :
    GangRamped (rampOff v) s h (forAll l (gateTile v acts) s) := by
  obtain ⟨before, after, rfl⟩ := List.append_of_mem hl
  have keep : ∀ r : List Nat, (∀ g ∈ r, g ∈ before ++ h :: after) → ∀ t, GangRamped (rampOff v) s h t →
      GangRamped (rampOff v) s h (forAll r (gateTile v acts) t) := fun r hr t ht =>
    forAll_keeps _ _ _ (fun g hg u hu => hu.gateTile (whole g (hr g hg)) (whole h hl)) t ht
  have start : GangStays s h (forAll before (gateTile v acts) s) ∨
      GangRamped (rampOff v) s h (forAll before (gateTile v acts) s) := by
    refine forAll_keeps (fun t => GangStays s h t ∨ GangRamped (rampOff v) s h t) _ _ (fun g hg t ht => ?_) s
      (.inl ⟨fun _ => rfl, fun _ _ => ⟨rfl, rfl⟩⟩)
    have wg := whole g (List.mem_append_left _ hg)
    rcases ht with ht | ht
    · by_cases e : lockStep s g = lockStep s h
      · exact .inr (ht.ramps e gates)
      · exact .inl (ht.gateTile wg (whole h hl) fun h => e h.2)
    · exact .inr (ht.gateTile wg (whole h hl))
  unfold forAll at *
  rw [List.foldl_append, List.foldl_cons]
  refine keep after (fun g hg => List.mem_append_right _ (List.mem_cons_of_mem _ hg)) _ ?_
  rcases start with st | st
  · exact st.ramps rfl gates
  · exact st.gateTile (whole h hl) (whole h hl)

/-- What gating a slab's position does to every tile (R66). -/
theorem gateSlab_tile (v : Nat) (acts : List TileAct) {p : Nat} {s : State}
    (whole : ∀ g ∈ slabTiles p, ∀ k ∈ lockStep s g, lockStep s k = lockStep s g) (g : Nat) :
    (g ∈ slabTiles p ∧ Gates s g →
      RampedDown (rampOff v) (s.tile (rampLead s g)) ((forAll (slabTiles p) (gateTile v acts) s).tile g)) ∧
    (¬ (g ∈ slabTiles p ∧ Gates s g) → ((forAll (slabTiles p) (gateTile v acts) s).tile g).frac = (s.tile g).frac ∧
      ((forAll (slabTiles p) (gateTile v acts) s).tile g).dir = (s.tile g).dir) := by
  refine ⟨fun ⟨hg, gates⟩ => (gateTiles_ramped v acts whole hg gates).2 g (self_mem_lockStep s g), fun hn => ?_⟩
  by_cases hg : g ∈ slabTiles p
  · have stay : GangStays s g (forAll (slabTiles p) (gateTile v acts) s) :=
      forAll_keeps (GangStays s g) _ _
        (fun k hk t ht => ht.gateTile (whole k hk) (whole g hg) fun h => hn ⟨hg, h.1⟩) s
        ⟨fun _ => rfl, fun _ _ => ⟨rfl, rfl⟩⟩
    exact stay.2 g (self_mem_lockStep s g)
  · refine forAll_keeps (fun t => (t.tile g).frac = (s.tile g).frac ∧ (t.tile g).dir = (s.tile g).dir) _ _
      (fun k hk t ht => ?_) s ⟨rfl, rfl⟩
    obtain ⟨f, d⟩ := (gateTile_tile v acts k t g).2.2 fun h =>
      hg (mem_slabTiles.2 ((lockStep_slab h.2).trans (mem_slabTiles.1 hk)))
    exact ⟨f.trans ht.1, d.trans ht.2⟩

/-! ## The period -/

/-- A slab whose array runs (R28, R66): in service, its core on, at a position of a partition. -/
def arrayRuns (s : State) (n : Nat) : Bool := coreLive s n && inService s n && (partOf s (posOf s n)).isSome

/-- The cycle count of a slab at the end of its period (R66). -/
def periodEnd (s : State) (n : Nat) : Nat := ((s.slab n).cycle.toNat / 128 + 1) * 128

/-- Is the period that begins now on a slab permitted (R66)? -/
def nextPermitted (s : State) (n : Nat) : Bool := periodPermitted (issueRate s n) (periodEnd s n / 128 % 16)

/-- The state once every tile of a slab has counted its period. -/
def periodCounted (n : Nat) (acts : List TileAct) (s : State) : State :=
  forAll (slabTiles (posOf s n)) (periodTile (s.slab n).periodOk acts) s

/-- The state once the period that begins has gated the slab's arrays, if it is gated. -/
def periodGated (n : Nat) (acts : List TileAct) (s : State) : State :=
  if nextPermitted s n then periodCounted n acts s
  else forAll (slabTiles (posOf s n)) (gateTile (s.slab n).arrayCtrl.toNat acts) (periodCounted n acts s)

theorem keeps_periodCounted (n : Nat) (acts : List TileAct) (s : State) :
    Keeps [SField.tiles, .tiles2, .ctxs] s (periodCounted n acts s) :=
  Keeps.forAll (.refl s) _ _ fun _ _ k => keeps_periodTile k _ _ _ (hF := List.Subset.refl _)

theorem rampsStay_periodCounted (n : Nat) (acts : List TileAct) (s : State) : RampsStay s (periodCounted n acts s) :=
  (RampsStay.refl s).forAll _ _ fun g _ k => rampsStay_periodTile k _ _ g

theorem periodGated_slab (n : Nat) (acts : List TileAct) (s : State) (m : Nat) :
    (periodGated n acts s).slab m = s.slab m := by
  have k := keeps_periodCounted n acts s
  unfold periodGated
  split
  · exact k.slab m
  · exact Keeps.slab (F := [.tiles, .tiles2, .ctxs])
      (k.forAll _ _ fun _ _ k => keeps_gateTile k _ _ _ (hF := by decide)) m

/-- The two outcomes of the end of a period (R66). -/
theorem exec_throttlePeriod (n : Nat) (acts : List TileAct) {s : State} (hs : s.live = true) :
    exec (.throttlePeriod n acts) s = .next (
      if arrayRuns s n then (periodGated n acts s).modSlab n fun x => { x with
        cycle := BitVec.ofNat 64 (periodEnd s n), periodOk := nextPermitted s n }
      else s.modSlab n fun x => { x with cycle := BitVec.ofNat 64 (periodEnd s n) }) := by
  have k := keeps_periodCounted n acts s
  have rate : issueRate (periodCounted n acts s) n = issueRate s n := by
    unfold issueRate
    rw [k.slab n, show (periodCounted n acts s).pkg = s.pkg from k.only .pkg (by decide)]
  have slab : ((periodCounted n acts s).slab n).arrayCtrl = (s.slab n).arrayCtrl := by rw [k.slab n]
  show execThrottlePeriod n acts s = _
  unfold execThrottlePeriod
  rw [hs, if_neg (by decide)]
  dsimp only
  by_cases runs : arrayRuns s n = true
  · rw [if_pos runs]
    refine (if_pos runs).trans ?_
    unfold periodGated nextPermitted
    rw [← rate, ← slab]
    rfl
  · rw [if_neg runs]
    exact if_neg runs

/-- What a period leaves of every tile's array: in a gated one the gangs of the slab ramp down (R66). -/
theorem periodGated_tile (n : Nat) (acts : List TileAct) {s : State}
    (whole : ∀ g ∈ slabTiles (posOf s n), ∀ k ∈ lockStep s g, lockStep s k = lockStep s g) (g : Nat) :
    (nextPermitted s n = false ∧ g ∈ slabTiles (posOf s n) ∧ Gates s g →
      RampedDown (rampOff (s.slab n).arrayCtrl.toNat) (s.tile (rampLead s g)) ((periodGated n acts s).tile g)) ∧
    (¬ (nextPermitted s n = false ∧ g ∈ slabTiles (posOf s n) ∧ Gates s g) →
      ((periodGated n acts s).tile g).frac = (s.tile g).frac ∧ ((periodGated n acts s).tile g).dir = (s.tile g).dir) := by
  have stay := rampsStay_periodCounted n acts s
  have lock := lockStep_congr fun k => (stay k).1
  have lead : rampLead (periodCounted n acts s) g = rampLead s g := rampLead_of_forms (fun k => (stay k).1) g
  have gates : Gates (periodCounted n acts s) g ↔ Gates s g := by
    unfold Gates; rw [lead, (stay _).2.1, (stay _).2.2]
  obtain ⟨down, same⟩ := gateSlab_tile (s.slab n).arrayCtrl.toNat acts (s := periodCounted n acts s)
    (fun g hg k hk => by rw [lock] at hk ⊢; rw [lock]; exact whole g hg k hk) g
  unfold periodGated
  by_cases ok : nextPermitted s n = true
  · rw [if_pos ok, ok]
    exact ⟨fun h => absurd h.1 (by decide), fun _ => (stay g).2⟩
  · rw [if_neg ok]
    refine ⟨fun h => (down ⟨h.2.1, gates.2 h.2.2⟩).congr ?_ rfl rfl, fun h => ?_⟩
    · rw [lead, (stay _).2.1]
    · obtain ⟨f, d⟩ := same fun h' => h ⟨Bool.eq_false_iff.2 ok, h'.1, gates.1 h'.2⟩
      exact ⟨f.trans (stay g).2.1, d.trans (stay g).2.2⟩

/-- Settles O21: by the two outcomes of the row, and what a gated period does to every tile. -/
theorem throttlePeriodsGateTheArray : Obligations.ThrottlePeriodsGateTheArray := by
  intro n acts s hs cycle on
  rw [exec_throttlePeriod n acts hs]
  refine ⟨fun off => congrArg _ (if_neg fun h => absurd (off.symm.trans h) (by decide)), fun runs whole => ?_⟩
  refine ⟨_, congrArg _ (if_pos runs), ?_, fun k hk => ?_, fun g => ?_⟩
  · rw [State.modSlab_slab_self, periodGated_slab]; rfl
  · rw [State.modSlab_slab_other _ _ hk, periodGated_slab]
  · obtain ⟨down, same⟩ := periodGated_tile n acts whole g
    rw [State.modSlab_tile]
    by_cases h : nextPermitted s n = false ∧ g ∈ slabTiles (posOf s n) ∧ Gates s g
    · exact (if_pos h).mpr (down h)
    · exact (if_neg h).mpr (same h)

end Sys2Proof.Machine
end

section
/-! PROOF. Retirements of tiles and slabs (R23, R24, R282 to R284, R398, R403): what the loss of contexts leaves of a slab,
what the move of a tile to its spare site does, and when a slab is gone from its position. -/

namespace Sys2Proof.Machine

open Sys2Proof

variable {s t u : State}

/-! ## The background test is not touched by the loss of contexts -/

/-- From `s` to `t` no slab's next region of the background test changed. -/
def PatinaStays (s t : State) : Prop := ∀ n, (t.slab2 n).patinaNext = (s.slab2 n).patinaNext

theorem PatinaStays.refl (s : State) : PatinaStays s s := fun _ => rfl

theorem PatinaStays.of_keeps {F : List SField} (h : PatinaStays s t) (k : Keeps F t u)
    (hF : SField.slabs2 ∉ F := by decide) : PatinaStays s u := fun n => by
  rw [show u.slab2 n = t.slab2 n from congrArg (fun x => tget _ x n) (k.only _ hF)]
  exact h n

theorem PatinaStays.of_posted (h : PatinaStays s t) (p : Posted t u) : PatinaStays s u := fun n => by
  rw [p.slab2]
  exact h n

theorem PatinaStays.modSlab2 (h : PatinaStays s t) (n : Nat) (f : Slab2 → Slab2)
    (hf : ∀ x, (f x).patinaNext = x.patinaNext) : PatinaStays s (t.modSlab2 n f) := fun m => by
  by_cases e : m = n
  · subst e
    rw [State.modSlab2_slab2_self, hf]
    exact h m
  · rw [State.modSlab2_slab2_other _ _ e]
    exact h m

theorem PatinaStays.modCtx (h : PatinaStays s t) (c : Nat) (f : Ctx → Ctx) : PatinaStays s (t.modCtx c f) := h

theorem PatinaStays.forAll {α : Type} (h : PatinaStays s t) (l : List α) (f : α → State → State)
    (hf : ∀ a u, PatinaStays s u → PatinaStays s (f a u)) : PatinaStays s (forAll l f t) :=
  forAll_keeps (PatinaStays s) f l (fun a _ u k => hf a u k) t h

theorem patinaStays_labInvalidate (h : PatinaStays s t) (c i : Nat) : PatinaStays s (labInvalidate c i t) :=
  h.forAll _ _ fun n _ k => k.modSlab2 n _ fun _ => rfl

theorem patinaStays_dropClaims (h : PatinaStays s t) (c i : Nat) : PatinaStays s (dropClaims c i t) := by
  refine h.forAll _ _ fun n u k => ?_
  split
  · exact k.modSlab2 n _ fun _ => rfl
  · exact k

theorem patinaStays_freeSeq (h : PatinaStays s t) (c i : Nat) : PatinaStays s (freeSeq c i t) := by
  unfold freeSeq
  split
  · exact h
  · exact patinaStays_labInvalidate (PatinaStays.modCtx (h.forAll _ _ fun l u k =>
      k.of_keeps (keeps_releaseLeaf (.refl u) _ l (hF := List.Subset.refl _))) _ _) _ _

theorem patinaStays_closeVc (h : PatinaStays s t) (c i : Nat) : PatinaStays s (closeVc c i t) := by
  unfold closeVc
  split
  · exact h
  · exact patinaStays_dropClaims (h.modCtx _ _) _ _

theorem patinaStays_fixSwap (h : PatinaStays s t) (c : Nat) : PatinaStays s (fixSwap c t) :=
  h.of_keeps (keeps_fixSwap (.refl t) c (hF := List.Subset.refl _))

theorem patinaStays_freeRegion (h : PatinaStays s t) (c r : Nat) : PatinaStays s (freeRegion c r t) := by
  unfold freeRegion
  split
  · exact h
  · extract_lets u v w x left y
    have hu : PatinaStays s u := h.forAll _ _ fun i _ k => patinaStays_freeSeq k c i
    have hv : PatinaStays s v := hu.forAll _ _ fun i _ k => patinaStays_closeVc k c i
    have hx : PatinaStays s x := PatinaStays.modCtx (PatinaStays.modCtx hv c _) c _
    refine PatinaStays.of_keeps (PatinaStays.forAll hx _ _ fun gk u k => ?_)
      (keeps_fixSubst (.refl _) _ (hF := List.Subset.refl _))
    split
    · exact k.of_keeps (keeps_releaseBank (.refl u) gk (hF := List.Subset.refl _))
    · exact k

theorem patinaStays_freeHeld (h : PatinaStays s t) (c : Nat) : PatinaStays s (freeHeld c t) := by
  unfold freeHeld freeRegions
  extract_lets u v w
  have hu : PatinaStays s u := (h.forAll _ _ fun i _ k => patinaStays_freeSeq k c i).forAll _ _
    fun i _ k => patinaStays_closeVc k c i
  have hw : PatinaStays s w := PatinaStays.modCtx (hu.forAll _ _ fun j u k =>
    k.of_keeps (keeps_closeNotice (.refl u) j (hF := List.Subset.refl _))) _ _
  exact patinaStays_fixSwap (hw.forAll _ _ fun r _ k => patinaStays_freeRegion k c r) c

theorem patinaStays_loseCtx (h : PatinaStays s t) (reason slab c : Nat) : PatinaStays s (loseCtx reason slab c t) := by
  unfold loseCtx
  extract_lets x q tiles u v w y z
  split
  · exact h
  · have hv : PatinaStays s v :=
      (h.modCtx c _).of_keeps (keeps_fixForms (.refl u) tiles (hF := List.Subset.refl _))
    have hw : PatinaStays s w :=
      (patinaStays_freeHeld hv c).of_keeps (keeps_releaseAll (.refl _) c (hF := List.Subset.refl _))
    have hz : PatinaStays s z :=
      (PatinaStays.modCtx (PatinaStays.modCtx hw c _) c _).of_posted (posted_ctxEvent c 1 y)
    exact hz.of_posted (posted_postBoth ..)

/-- A containment fault leaves the background test where it stands. -/
theorem patinaStays_partitionFault (reason slab p : Nat) (s : State) : PatinaStays s (partitionFault reason slab p s) :=
  (PatinaStays.refl s).forAll _ _ fun c _ k => patinaStays_loseCtx k reason slab c

/-! ## Issue stops -/

theorem addStop_stopped (p : Nat) (x : StopCause) (s : State) : ((addStop p x s).part2 p).stopped.contains x = true := by
  unfold addStop
  split
  · assumption
  · rw [State.modPart2_part2_self]; simp

theorem addStop_schedEvents (p : Nat) (x : StopCause) (s : State) :
    ((addStop p x s).part2 p).schedEvents = (s.part2 p).schedEvents := by
  unfold addStop
  split
  · rfl
  · rw [State.modPart2_part2_self]

theorem dropStop_stopped (p : Nat) (x : StopCause) (s : State) : ((dropStop p x s).part2 p).stopped.contains x = false := by
  unfold dropStop
  rw [State.modPart2_part2_self]
  simp

@[simp] theorem dropStop_slab (p : Nat) (x : StopCause) (s : State) (n : Nat) :
    (dropStop p x s).slab n = s.slab n := rfl

@[simp] theorem dropStop_slab2 (p : Nat) (x : StopCause) (s : State) (n : Nat) :
    (dropStop p x s).slab2 n = s.slab2 n := rfl

@[simp] theorem dropStop_ctx (p : Nat) (x : StopCause) (s : State) (c : Nat) : (dropStop p x s).ctx c = s.ctx c := rfl

@[simp] theorem addStop_slab2 (p : Nat) (x : StopCause) (s : State) (n : Nat) :
    (addStop p x s).slab2 n = s.slab2 n := by
  unfold addStop
  split <;> rfl

/-! ## The move of a tile to a site -/

theorem spareSite_eq {x : Slab} {k : Nat} (h : spareSite x = some k) : k = 64 ∨ k = 65 := by
  have := List.mem_of_find?_eq_some h
  simpa using this

theorem inService_of_server {pos n : Nat} (h : serverOf s pos = some n) : inService s n = true := by
  unfold serverOf at h
  unfold inService
  split at h
  · next e => cases h; rw [e]; rfl
  · have := List.find?_some h
    simp only [Bool.and_eq_true, beq_iff_eq] at this
    rw [this.1]; rfl

/-- After a move of a tile the site serves it, and the old site is RETIRED. -/
theorem moveSite_slab (n t k kind : Nat) (s : State) :
    (moveSite n t k kind s).slab n = takeSite t k (s.slab n) := by
  unfold moveSite
  extract_lets old u g v
  rw [Keeps.slab (F := [.banks]) (keeps_freshTile (.refl _) _ _ (hF := List.Subset.refl _)), (posted_bankEvent ..).slab]
  exact State.modSlab_slab_self ..

/-- A tile that has moved has a spare site's lines; what its banks hold and who owns them stays. -/
theorem moveSite_bank (n t k kind : Nat) (s : State) {j : Nat} (hj : j < 4) :
    (moveSite n t k kind s).bank (bankIx (64 * posOf s n + t) j) =
      freshLines (s.slab2 n).patinaNext Bank.init (s.bank (bankIx (64 * posOf s n + t) j)) := by
  unfold moveSite
  extract_lets old u g v
  have hg : 64 * posOf s n + t = g := rfl
  unfold freshTile
  rw [tileBanks_bank (fun _ => freshLines (patinaRegion v n) Bank.init) _ _ _ _ hj, if_pos hg,
    (posted_bankEvent ..).bank, State.modSlab2_bank, State.modSlab_bank]
  rfl

theorem moveSite_ctx (n t k kind : Nat) (s : State) (c : Nat) : (moveSite n t k kind s).ctx c = s.ctx c :=
  Keeps.ctx (keeps_moveSite (F := [.env, .hostMem, .pcie, .arm, .slabs, .slabs2, .tiles, .tiles2, .banks, .funcs])
    (.refl s) n t k kind (hF := List.Subset.refl _)) c

theorem partOf_congr (h : t.parts = s.parts) (pos : Nat) : partOf t pos = partOf s pos := by
  unfold partOf State.part; rw [h]

theorem moveSite_partOf (n t k kind : Nat) (s : State) (pos : Nat) : partOf (moveSite n t k kind s) pos = partOf s pos :=
  partOf_congr ((keeps_moveSite (F := [.env, .hostMem, .pcie, .arm, .slabs, .slabs2, .tiles, .tiles2, .banks, .funcs])
    (.refl s) n t k kind (hF := List.Subset.refl _)).only .parts (by decide)) pos

theorem setClearing_bank (on : Bool) (g : Nat) (s : State) (g' : Nat) {j : Nat} (hj : j < 4) :
    (setClearing on g s).bank (bankIx g' j) =
      if g' = g then { s.bank (bankIx g' j) with clearing := on } else s.bank (bankIx g' j) :=
  tileBanks_bank (fun _ b => { b with clearing := on }) g s g' j hj

theorem setClearing_else {β : Type} (acc : State → β) (hacc : ∀ s i b, acc (s.setBank i b) = acc s) (on : Bool) (g : Nat)
    (s : State) : acc (setClearing on g s) = acc s :=
  tileBanks_else acc (fun _ b => { b with clearing := on }) hacc g s

/-- The state once the fault of a tile's site has taken its contexts, and the moves of the slab have lost their point. -/
def siteFault (reason n p g : Nat) (s : State) : State :=
  (dropStop p (.tileMove g) (partitionFault reason n p s)).modSlab2 n fun x => { x with moveTile := none }

/-- A tile's move to a spare site that is cleared, with the operator's slots filled in (R161, R282, R284). -/
def clearedMove (n k g : Nat) (s : State) : State :=
  fillSlots (if g % 64 = 0 then g + 1 else g - g % 64) g (clearTile g (moveSite n (g % 64) k 3 s))

theorem unplannedTile_eq {g n p k : Nat} (reason : Nat) (hn : serverOf s (g / 64) = some n)
    (hp : partOf s (g / 64) = some p) (hk : spareSite (s.slab n) = some k) :
    unplannedTile g reason s = (setClearing true g (clearedMove n k g (siteFault reason n p g s))).modTile2 g
      fun x => { x with retiring := false } := by
  unfold unplannedTile
  simp only [hn, hk, hp]
  rfl

theorem keeps_siteFault (reason n p g : Nat) (s : State) :
    Keeps [SField.env, .hostMem, .pcie, .slabs2, .ports, .ports2, .tiles, .banks, .parts2, .ctxs, .funcs, .hbm] s
      (siteFault reason n p g s) :=
  (keeps_dropStop (keeps_partitionFault (.refl s) _ _ _ (hF := List.Subset.refl _)) _ _ (hF := by decide)).modSlab2 n _
    (hF := by decide)

theorem keeps_clearedMove (n k g : Nat) (s : State) :
    Keeps [SField.tiles2, .banks, .bankMem] (moveSite n (g % 64) k 3 s) (clearedMove n k g s) :=
  keeps_fillSlots (keeps_clearTile (.refl _) _ (hF := List.Subset.refl _)) _ _ (hF := by decide)

theorem fillSlots_bank (src g : Nat) (s : State) (i : Nat) : (fillSlots src g s).bank i = s.bank i := rfl

/-- The banks of a tile that has moved to a cleared site have a fresh site's lines and belong to nobody (R281, R284). -/
theorem clearedMove_bank {n k g j : Nat} (hg : 64 * posOf s n + g % 64 = g) (hj : j < 4) :
    (clearedMove n k g s).bank (bankIx g j) =
      { Bank.init with clearing := (s.bank (bankIx g j)).clearing, turn := (s.slab2 n).patinaNext } := by
  have clear : ∀ u : State, (fillSlots (if g % 64 = 0 then g + 1 else g - g % 64) g (clearTile g u)).bank (bankIx g j) =
      { u.bank (bankIx g j) with owner := 0, peer := 0, holder := none, lastKey := none } := fun u =>
    (fillSlots_bank ..).trans ((clearTile_facts g u).1 j hj)
  have move := moveSite_bank n (g % 64) k 3 s hj
  rw [hg] at move
  unfold clearedMove
  rw [clear, move]
  rfl

/-- The unplanned retirement of a tile's site with a spare site at hand (R24, R282): the contexts at fault are lost, the
spare site serves the tile, and its banks are fresh, unowned and clearing. -/
theorem unplannedTile_spare {g n p k : Nat} (reason : Nat) (hn : serverOf s (g / 64) = some n)
    (hp : partOf s (g / 64) = some p) (hk : spareSite (s.slab n) = some k) :
    (unplannedTile g reason s).slab n = takeSite (g % 64) k (s.slab n) ∧
    (∀ j, j < 4 → (unplannedTile g reason s).bank (bankIx g j) =
      { Bank.init with clearing := true, turn := (s.slab2 n).patinaNext }) ∧
    ∀ c, (unplannedTile g reason s).ctx c = (partitionFault reason n p s).ctx c := by
  have slab := (keeps_siteFault reason n p g s).slab n
  have next : ((siteFault reason n p g s).slab2 n).patinaNext = (s.slab2 n).patinaNext :=
    (patinaStays_partitionFault reason n p s).modSlab2 n (fun x => { x with moveTile := none }) (fun _ => rfl) n
  have pos : posOf (siteFault reason n p g s) n = g / 64 := by
    rw [← posOf_server hn]; unfold posOf; rw [slab]
  have tile : 64 * posOf (siteFault reason n p g s) n + g % 64 = g := by omega
  have ctx : ∀ c, (siteFault reason n p g s).ctx c = (partitionFault reason n p s).ctx c := fun c => by
    rw [siteFault, State.modSlab2_ctx, dropStop_ctx]
  rw [unplannedTile_eq reason hn hp hk]
  generalize siteFault reason n p g s = u at *
  have keep := keeps_clearedMove n k g u
  refine ⟨?_, fun j hj => ?_, fun c => ?_⟩
  · rw [State.modTile2_slab, setClearing_else (·.slab n) (fun _ _ _ => rfl), keep.slab n, moveSite_slab, slab]
  · rw [State.modTile2_bank, setClearing_bank _ _ _ _ hj, if_pos rfl, clearedMove_bank tile hj, next]
  · rw [State.modTile2_ctx, setClearing_else (·.ctx c) (fun _ _ _ => rfl), keep.ctx c, moveSite_ctx, ctx]

/-! ## Slabs that are gone -/

/-- From `s` to `t` slab n has left its position, and an idle spare with the fewest hops, where there is one, serves it
(R24, R470). -/
def Gone (n : Nat) (s t : State) : Prop :=
  (t.slab n).st = .coreRetired ∧ (t.slab n).serves = 0xFF ∧ (t.slab n).coreOn = false ∧
  (idleSpares s = [] → ∀ m, m ≠ n → t.slab m = s.slab m) ∧
  (idleSpares s ≠ [] → ∃ sp ∈ idleSpares s, (∀ m ∈ idleSpares s, hops sp (posOf s n) ≤ hops m (posOf s n)) ∧
    (t.slab sp).st = .serving ∧ (t.slab sp).serves = posOf s n ∧ (t.slab sp).coreOn = true ∧
    ∀ m, m ≠ n → m ≠ sp → t.slab m = s.slab m)

theorem gone_coreRetire {n : Nat} (planned : Bool) (reason : Nat) (h : inService s n = true) :
    Gone n s (coreRetire n planned reason s) := coreRetire_facts n planned reason s h

/-- Being gone is a matter of the slabs alone. -/
theorem Gone.congr {n : Nat} {s s' t t' : State} (h : Gone n s t) (hs : s'.slabs = s.slabs) (ht : t'.slabs = t.slabs) :
    Gone n s' t' := by
  unfold Gone idleSpares posOf State.slab at *
  rw [hs, ht]
  exact h

theorem slabPart_eq {n p : Nat} (h : slabPart s n = some p) : inService s n = true ∧ partOf s (posOf s n) = some p := by
  unfold slabPart at h
  split at h
  · exact ⟨by assumption, h⟩
  · cases h

/-! ## The rows -/

theorem exec_tileHang {g p : Nat} (hs : s.live = true) (hp : partOf s (g / 64) = some p)
    (h : ∃ e ∈ openCmds s p, ∃ f ∈ e.2.bound.forms, f.1 = g) :
    exec (.tileHang g) s = .next (unplannedTile g 2 s) := by
  show execTileHang g s = _
  unfold execTileHang
  rw [hs, if_neg (by decide), hp]
  refine if_pos ?_
  simpa using h

theorem exec_preFailureWarning {n p : Nat} (hs : s.live = true) (hp : slabPart s n = some p) :
    exec (.preFailureWarning n) s =
      .next (schedEvent p 1 (addStop p (.warning n) (s.modSlab2 n fun x => { x with warning := true }))) := by
  show execPreFailureWarning n s = _
  unfold execPreFailureWarning
  rw [hs, if_neg (by decide), hp]

theorem exec_plannedCoreRetirement {n p : Nat} (hs : s.live = true) (hp : slabPart s n = some p)
    (warned : (s.part2 p).stopped.contains (.warning n) = true) (idle : workAtPos s p (posOf s n) = false) :
    exec (.plannedCoreRetirement n) s = .next (coreRetire n true 0 s) := by
  show execPlannedCoreRetirement n s = _
  unfold execPlannedCoreRetirement
  rw [hs, if_neg (by decide), hp]
  exact if_pos (by rw [warned, idle]; rfl)

theorem exec_evacWaitExpire {n p : Nat} (hs : s.live = true) (hp : slabPart s n = some p)
    (warned : (s.part2 p).stopped.contains (.warning n) = true) (busy : workAtPos s p (posOf s n) = true)
    (cmds : ∀ e ∈ openCmds s p, 0x10 ≤ e.2.opcode ∧ e.2.opcode ≤ 0x3F) :
    exec (.evacWaitExpire n) s =
      .next (schedEvent p 4 (coreRetire n true 0 (forAll (residents s p) (fun c t => evacuate p c t) s))) := by
  show execEvacWaitExpire n s = _
  unfold execEvacWaitExpire
  rw [hs, if_neg (by decide), hp]
  refine if_pos ?_
  rw [warned, busy]
  simpa [Cmd.interruptible] using cmds

theorem exec_spareSelfTest {n : Nat} (hs : s.live = true) (h : (s.slab n).st = .spare) (pass : Bool) :
    exec (.spareSelfTest n pass) s = .next (if pass then s else
      s.modSlab n fun x => { x with st := .retired, serves := 0xFF, coreOn := false }) := by
  show execSpareSelfTest n pass s = _
  unfold execSpareSelfTest
  rw [hs, if_neg (by decide)]
  cases pass
  · exact if_pos ⟨h, rfl⟩
  · exact if_neg fun h => absurd h.2 (by decide)

theorem exec_tileRetirement {g p n k : Nat} (hs : s.live = true) (hp : partOf s (g / 64) = some p)
    (hn : serverOf s (g / 64) = some n) (held : tileHeld s g = true) (idle : workAtTile s p g = false)
    (still : (s.slab2 n).moveTile = none) (hk : spareSite (s.slab n) = some k) :
    exec (.tileRetirement g) s = .next ((s.modSlab2 n fun x => { x with moveTile := some (g % 64, k) }).modTile2 g
      fun x => { x with retiring := true }) := by
  show execTileRetirement g s = _
  unfold execTileRetirement
  simp only [hs, hn, hp, held, idle, still, hk]
  rfl

theorem exec_tileRetireCopyDone {g p n k : Nat} (hs : s.live = true) (hp : partOf s (g / 64) = some p)
    (hn : serverOf s (g / 64) = some n) (hm : (s.slab2 n).moveTile = some (g % 64, k)) :
    exec (.tileRetireCopyDone g) s = .next (dropStop p (.tileMove g)
      (((moveSite n (g % 64) k 2 s).modSlab2 n fun x => { x with moveTile := none }).modTile2 g
        fun x => { x with retiring := false })) := by
  show execTileRetireCopyDone g s = _
  unfold execTileRetireCopyDone
  have part : ∀ f h, partOf (((moveSite n (g % 64) k 2 s).modSlab2 n f).modTile2 g h) (g / 64) = some p := fun f h => by
    rw [partOf_congr (State.modTile2_parts ..), partOf_congr (State.modSlab2_parts ..), moveSite_partOf, hp]
  simp only [hs, hn, hm, part]
  rfl

/-- The state once the banks of a slab's position have cleared and no access waits (R284). -/
def clearEnded (n : Nat) (s : State) : State :=
  { forAll (slabTiles (posOf s n)) (setClearing false) s with env := { s.env with waits := [] } }

theorem withEnv_bank (s : State) (e : Env) (i : Nat) : ({ s with env := e } : State).bank i = s.bank i := rfl

theorem clearEnded_bank (n : Nat) (s : State) (g : Nat) {k : Nat} (hk : k < 4) :
    (clearEnded n s).bank (bankIx g k) = if g ∈ slabTiles (posOf s n) then
      { s.bank (bankIx g k) with clearing := false } else s.bank (bankIx g k) := by
  unfold clearEnded
  rw [withEnv_bank]
  exact forAll_pointwise (fun t g => t.bank (bankIx g k)) (setClearing false) (fun _ b => { b with clearing := false })
    (fun _ => True) (fun g t _ => by rw [setClearing_bank _ _ _ _ hk, if_pos rfl])
    (fun g g' t e => by rw [setClearing_bank _ _ _ _ hk, if_neg e]) (fun _ _ _ => trivial) _
    (slabTiles_nodup (posOf s n)) s trivial g

/-- The accesses that waited for a clear are made, in their order, once it has ended. -/
theorem exec_wakeClearDone (n : Nat) (hs : s.live = true) :
    exec (.wakeClearDone n) s = .next (forAll s.env.waits makeAcc (clearEnded n s)) := by
  have keep : Keeps [.banks] s (forAll (slabTiles (posOf s n)) (setClearing false) s) :=
    Keeps.forAll (.refl s) _ _ fun _ _ k => keeps_setClearing k _ _ (hF := List.Subset.refl _)
  have env : (forAll (slabTiles (posOf s n)) (setClearing false) s).env = s.env := keep.only .env (by decide)
  show execWakeClearDone n s = _
  unfold execWakeClearDone clearEnded
  rw [hs, if_neg (by decide)]
  dsimp only
  rw [env]

/-! ## The statement, clause by clause -/

/-- A hang of a tile in use (R24, R398). -/
theorem tileHang_moves {g p n : Nat} (hs : s.live = true) (hp : partOf s (g / 64) = some p)
    (hn : serverOf s (g / 64) = some n) (h : ∃ e ∈ openCmds s p, ∃ f ∈ e.2.bound.forms, f.1 = g) :
    (spareSite (s.slab n) = none → ∃ t, exec (.tileHang g) s = .next t ∧ Gone n s t) ∧
    (∀ k, spareSite (s.slab n) = some k → siteOf (s.slab n) (g % 64) ≠ k → siteOf (s.slab n) (g % 64) < 80 →
      ∃ t, exec (.tileHang g) s = .next t ∧ siteOf (t.slab n) (g % 64) = k ∧ siteSt (t.slab n) k = 0 ∧
        siteSt (t.slab n) (siteOf (s.slab n) (g % 64)) = 2 ∧ (∀ j, j < 4 → t.bank (bankIx g j) =
          { Bank.init with clearing := true, turn := (s.slab2 n).patinaNext }) ∧
        ∀ c ∈ faultCtxs s p, c ≠ 0 → (s.ctx c).reg.st ≠ .free → (s.ctx c).reg.st ≠ .lost →
          (t.ctx c).reg.st = .lost ∧ (t.ctx c).reg.lossReason = 2) := by
  refine ⟨fun none => ⟨_, exec_tileHang hs hp h, ?_⟩, fun k hk hne hlt => ⟨_, exec_tileHang hs hp h, ?_⟩⟩
  · have e : unplannedTile g 2 s = coreRetire n false 2 s := by
      unfold unplannedTile
      simp only [hn, none]
    rw [e]
    exact gone_coreRetire false 2 (inService_of_server hn)
  · obtain ⟨slab, bank, ctx⟩ := unplannedTile_spare 2 hn hp hk
    obtain ⟨site, old, new, -⟩ :=
      takeSite_facts (g % 64) k (s.slab n) (Nat.mod_lt _ (by decide)) (spareSite_eq hk) hne hlt
    rw [slab]
    refine ⟨site, new, old, bank, fun c hc h0 hf hl => ?_⟩
    rw [ctx]
    exact partitionFault_facts 2 n p c s hc h0 hf hl

/-- A warning stops the partition's issue (R403). -/
theorem preFailureWarning_stops {n p : Nat} (hs : s.live = true) (hp : slabPart s n = some p) :
    ∃ t, exec (.preFailureWarning n) s = .next t ∧ (t.part2 p).stopped.contains (.warning n) = true ∧
      (t.slab2 n).warning = true ∧ (t.part2 p).schedEvents = (s.part2 p).schedEvents ||| 1 := by
  refine ⟨_, exec_preFailureWarning hs hp, ?_⟩
  generalize hu : s.modSlab2 n (fun x => { x with warning := true }) = u
  have post := posted_schedEvent p 1 (addStop p (.warning n) u)
  rw [post.part2, post.slab2, State.modPart2_part2_self, State.modPart2_slab2]
  refine ⟨addStop_stopped .., ?_, ?_⟩
  · rw [addStop_slab2, ← hu, State.modSlab2_slab2_self]
  · dsimp only
    rw [addStop_schedEvents, ← hu, State.modSlab2_part2]

/-- A warned slab with work that may be interrupted is gone at the end of the wait (R403). -/
theorem evacWaitExpire_gone {n p : Nat} (hs : s.live = true) (hp : slabPart s n = some p)
    (warned : (s.part2 p).stopped.contains (.warning n) = true) (busy : workAtPos s p (posOf s n) = true)
    (cmds : ∀ e ∈ openCmds s p, 0x10 ≤ e.2.opcode ∧ e.2.opcode ≤ 0x3F) :
    ∃ t, exec (.evacWaitExpire n) s = .next t ∧ Gone n s t := by
  refine ⟨_, exec_evacWaitExpire hs hp warned busy cmds, ?_⟩
  have keep : Keeps [SField.env, .tiles, .banks, .ctxs, .hbm] s
      (forAll (residents s p) (fun c t => evacuate p c t) s) :=
    Keeps.forAll (.refl s) _ _ fun c _ k => keeps_evacuate k p c (hF := List.Subset.refl _)
  generalize forAll (residents s p) (fun c t => evacuate p c t) s = u at *
  have serves : inService u n = true := by
    have := (slabPart_eq hp).1
    unfold inService at *
    rwa [keep.slab n]
  exact (gone_coreRetire true 0 serves).congr keep.slabs.symm (posted_schedEvent p 4 _).slabs

/-- The end of a tile's copy to its spare site (R282). -/
theorem tileRetireCopyDone_moves {g p n k : Nat} (hs : s.live = true) (hp : partOf s (g / 64) = some p)
    (hn : serverOf s (g / 64) = some n) (hm : (s.slab2 n).moveTile = some (g % 64, k)) (hk : k = 64 ∨ k = 65)
    (hne : siteOf (s.slab n) (g % 64) ≠ k) (hlt : siteOf (s.slab n) (g % 64) < 80) :
    ∃ t, exec (.tileRetireCopyDone g) s = .next t ∧ siteOf (t.slab n) (g % 64) = k ∧ siteSt (t.slab n) k = 0 ∧
      siteSt (t.slab n) (siteOf (s.slab n) (g % 64)) = 2 ∧ (t.slab2 n).moveTile = none ∧
      (t.part2 p).stopped.contains (.tileMove g) = false ∧ ∀ d, t.ctx d = s.ctx d := by
  refine ⟨_, exec_tileRetireCopyDone hs hp hn hm, ?_⟩
  obtain ⟨site, old, new, -⟩ := takeSite_facts (g % 64) k (s.slab n) (Nat.mod_lt _ (by decide)) hk hne hlt
  have slab := moveSite_slab n (g % 64) k 2 s
  have ctx := moveSite_ctx n (g % 64) k 2 s
  generalize moveSite n (g % 64) k 2 s = u at *
  rw [dropStop_slab, State.modTile2_slab, State.modSlab2_slab, slab]
  refine ⟨site, new, old, ?_, dropStop_stopped .., fun d => ?_⟩
  · rw [dropStop_slab2, State.modTile2_slab2, State.modSlab2_slab2_self]
  · rw [dropStop_ctx, State.modTile2_ctx, State.modSlab2_ctx, ctx]

/-- Settles O43: each row's outcome, by its `exec` lemma, and what the operation in it changes, by the lemmas above. -/
theorem retirementMovesPositions : Obligations.RetirementMovesPositions := by
  intro s hs _
  refine ⟨fun g p n hp hn h => tileHang_moves hs hp hn h, fun n p hp => ⟨preFailureWarning_stops hs hp,
    fun warned idle => ⟨_, exec_plannedCoreRetirement hs hp warned idle, gone_coreRetire true 0 (slabPart_eq hp).1⟩,
    fun warned busy cmds => evacWaitExpire_gone hs hp warned busy cmds⟩,
    fun n spare => ⟨exec_spareSelfTest hs spare true, exec_spareSelfTest hs spare false⟩,
    fun g p n k hp hn held idle still hk => exec_tileRetirement hs hp hn held idle still hk,
    fun g p n k hp hn hm hk hne hlt => tileRetireCopyDone_moves hs hp hn hm hk hne hlt, fun n => ?_⟩
  have wake := exec_wakeClearDone n hs
  refine ⟨fun g k hk => clearEnded_bank n s g hk, fun waits => ?_, fun src g k a bs found waits => ?_⟩
  · rw [wake, waits]; rfl
  · rw [wake, waits]; rfl

end Sys2Proof.Machine
end

section
/-! PROOF. Ramps (R62 to R65, R67, R68): the cycles of a phase count before the ramp moves, the tiles in lock step take
over the lead's ramp, and nothing else changes. -/

namespace Sys2Proof.Machine

open Sys2Proof

/-! ## The count of a phase -/

/-- Counting a phase changes tiles and contexts alone. -/
theorem countPhase_eq (k : PhaseCount) (g : Nat) (s : State) :
    countPhase k g s = { s with tiles := (countPhase k g s).tiles, ctxs := (countPhase k g s).ctxs } := by
  unfold countPhase creditCtx
  split
  · rfl
  · dsimp only
    split
    · split
      · rfl
      · rfl
    · rfl

theorem creditCtx_tile (c a b h : Nat) (s : State) : (creditCtx c a b s).tile h = s.tile h := by
  unfold creditCtx
  split
  · rfl
  · rfl

/-- Counting a phase on a tile leaves every other tile as it is. -/
theorem countPhase_tile_other (k : PhaseCount) {g h : Nat} (s : State) (hne : h ≠ g) :
    (countPhase k g s).tile h = s.tile h := by
  unfold countPhase
  split
  · rfl
  · dsimp only
    split
    · rw [creditCtx_tile, State.modTile_tile_other _ _ hne]
    · exact State.modTile_tile_other _ _ hne

/-- From `s` to `u` at most cycles were counted, on the tiles in lock step with `g` and on the contexts that use them. -/
structure PhaseCounted (g : Nat) (s u : State) : Prop where
  rest : u = { s with tiles := u.tiles, ctxs := u.ctxs }
  ramps : RampsStay s u
  others : ∀ h, h ∉ lockStep s g → u.tile h = s.tile h

theorem PhaseCounted.refl (g : Nat) (s : State) : PhaseCounted g s s := ⟨rfl, .refl s, fun _ _ => rfl⟩

theorem PhaseCounted.countPhase {g h : Nat} {s u : State} (p : PhaseCounted g s u) (k : PhaseCount)
    (hh : h ∈ lockStep s g) : PhaseCounted g s (Machine.countPhase k h u) where
  rest := (countPhase_eq k h u).trans <|
    congrArg (fun v => { v with tiles := (Machine.countPhase k h u).tiles, ctxs := (Machine.countPhase k h u).ctxs })
      p.rest
  ramps := rampsStay_countPhase p.ramps k h
  others i hi := (countPhase_tile_other k u fun e => hi (by rwa [e])).trans (p.others i hi)

theorem phaseCounted_countPhases (k : PhaseCount) (g : Nat) (s : State) :
    PhaseCounted g s (forAll (lockStep s g) (countPhase k) s) :=
  forAll_keeps (PhaseCounted g s) _ _ (fun _ hh _ p => p.countPhase k hh) s (.refl g s)

theorem phaseCounted_cutPhase (g : Nat) (cut : List Cyc) (s : State) : PhaseCounted g s (cutPhase g cut s) := by
  unfold cutPhase
  dsimp only
  split
  · exact .refl g s
  · exact phaseCounted_countPhases _ g s

/-! ## The move of a ramp -/

theorem setRamp_eq (g : Nat) (y : Tile) (s : State) : setRamp g y s = { s with tiles := (setRamp g y s).tiles } :=
  forAll_keeps (fun t => t = { s with tiles := t.tiles }) _ _
    (fun h _ t e => congrArg (fun v => { v with tiles := (t.modTile h y.follow).tiles }) e) s rfl

/-- From `s` to `t` the tiles in lock step with `g` moved to where `P` has them, and nothing else but counts changed. -/
def RampMoves (g : Nat) (s t : State) (P : Tile → Prop) : Prop :=
  t = { s with tiles := t.tiles, ctxs := t.ctxs } ∧
    ∀ h, if h ∈ lockStep s g then P (t.tile h) else t.tile h = s.tile h

/-- Once a phase has counted, the tiles in lock step take over the ramp `y`, and no other tile changes (R67). -/
theorem PhaseCounted.setRamp_moves {g : Nat} {s u : State} (p : PhaseCounted g s u) {y : Tile} {P : Tile → Prop}
    (hP : ∀ x, P (y.follow x)) : RampMoves g s (setRamp g y u) P := by
  refine ⟨?_, fun h => ?_⟩
  · have ctxs : u.ctxs = (setRamp g y u).ctxs := by rw [setRamp_eq]
    rw [← ctxs]
    exact (setRamp_eq g y u).trans (congrArg (fun v => { v with tiles := (setRamp g y u).tiles }) p.rest)
  · rw [setRamp_tile, lockStep_congr fun k => (p.ramps k).1]
    split
    · exact hP _
    · next other => exact p.others h other

section
variable {g : Nat} {s : State} (hs : s.live = true)
include hs

/-- A ramp up that may start (R64). -/
theorem exec_rampUp (cut : List Cyc) (permitted : tileGated s g = false)
    (start : (s.tile (rampLead s g)).dir = .down ∨
      ((s.tile (rampLead s g)).frac = 0 ∧ (s.tile (rampLead s g)).dir = .steady)) :
    exec (.rampUp g cut) s = .next (setRamp g
      ((s.tile (rampLead s g)).rampUp (rampOff (tileCtrl s g)) (rampLenOf (tileCtrl s g))) (cutPhase g cut s)) := by
  show execRampUp g cut s = _
  unfold execRampUp
  rw [hs, if_neg (by decide)]
  exact if_pos (by simp [permitted, start.symm])

/-- A ramp down that may start (R64). -/
theorem exec_rampDown (cut : List Cyc) (above : 0 < (s.tile (rampLead s g)).frac)
    (start : (s.tile (rampLead s g)).dir ≠ .down) :
    exec (.rampDown g cut) s = .next (setRamp g
      ((s.tile (rampLead s g)).rampDown (rampOff (tileCtrl s g)) (rampLenOf (tileCtrl s g))) (cutPhase g cut s)) := by
  show execRampDown g cut s = _
  unfold execRampDown
  rw [hs, if_neg (by decide)]
  exact if_pos ⟨above, start⟩

/-- The end of a phase of a ramp (R62): the lead's next phase, with the credit that its cycles leave. -/
theorem exec_rampPhaseEnd (cycles : List Cyc) (ramps : (s.tile (rampLead s g)).dir ≠ .steady) :
    ∃ k : PhaseCount, exec (.rampPhaseEnd g cycles) s = .next (setRamp g
      ((s.tile (rampLead s g)).nextPhase k.credit) (forAll (lockStep s g) (countPhase k) s)) := by
  refine ⟨phaseRun (s.tile (rampLead s g)) (s.tile (rampLead s g)).rampLen (if tileGated s g then [] else cycles), ?_⟩
  show execRampPhaseEnd g cycles s = _
  unfold execRampPhaseEnd
  rw [hs, if_neg (by decide)]
  exact if_neg ramps

end

/-! ## What the tiles take over -/

/-- `y` stands where a ramp up from the fraction of `x` starts; without ramps, at 8/8 (R64, R68). -/
def RampedUp (off : Bool) (x y : Tile) : Prop :=
  if off then y.frac = 8 ∧ y.dir = .steady else y.frac = min 8 (x.frac + 1) ∧ y.dir = .up

theorem rampUp_follow (off : Bool) (len : Nat) (y x : Tile) :
    ((y.rampUp off len).follow x).credit = 0 ∧ RampedUp off y ((y.rampUp off len).follow x) := by
  unfold RampedUp Tile.rampUp Tile.follow
  cases off
  · exact ⟨rfl, rfl, rfl⟩
  · exact ⟨rfl, rfl, rfl⟩

theorem rampDown_follow (off : Bool) (len : Nat) (y x : Tile) :
    ((y.rampDown off len).follow x).credit = 0 ∧ RampedDown off y ((y.rampDown off len).follow x) := by
  refine ⟨?_, (rampedDown_rampDown off len y).congr rfl rfl rfl⟩
  unfold Tile.rampDown Tile.follow
  cases off
  · rfl
  · rfl

/-- `y` stands in the phase after that of `x`, which ramps, or steady after the eighth phase (R62). -/
def NextPhased (x y : Tile) : Prop :=
  match x.dir with
  | .steady => False
  | .up => if 8 ≤ x.frac then y.frac = x.frac ∧ y.dir = .steady else y.frac = x.frac + 1 ∧ y.dir = .up
  | .down => if x.frac = 0 then y.frac = 0 ∧ y.dir = .steady else y.frac = x.frac - 1 ∧ y.dir = .down

theorem nextPhase_follow (credit : Nat) {y : Tile} (x : Tile) (ramps : y.dir ≠ .steady) :
    NextPhased y ((y.nextPhase credit).follow x) := by
  unfold NextPhased Tile.nextPhase Tile.follow
  cases dir : y.dir with
  | steady => exact absurd dir ramps
  | up =>
    dsimp only
    split
    · exact ⟨rfl, rfl⟩
    · exact ⟨rfl, rfl⟩
  | down =>
    dsimp only
    split
    · next zero => exact ⟨zero, rfl⟩
    · exact ⟨rfl, rfl⟩

/-- Settles O20: each row by its `exec` lemma, the count of the phase that ends by `PhaseCounted`, and what the tiles in
lock step take over from the lead by the lemmas above. -/
theorem rampsMoveByEighths : Obligations.RampsMoveByEighths := by
  intro g s hs lead Moves
  let off := rampOff (tileCtrl s g)
  refine ⟨fun cut permitted start => ⟨_, exec_rampUp hs cut permitted start, ?_⟩,
    fun cut above start => ⟨_, exec_rampDown hs cut above start, ?_⟩, fun cycles ramps => ?_⟩
  · exact (phaseCounted_cutPhase g cut s).setRamp_moves (P := fun x => x.credit = 0 ∧ RampedUp off lead x)
      (rampUp_follow _ _ lead)
  · exact (phaseCounted_cutPhase g cut s).setRamp_moves (P := fun x => x.credit = 0 ∧ RampedDown off lead x)
      (rampDown_follow _ _ lead)
  · obtain ⟨k, run⟩ := exec_rampPhaseEnd hs cycles ramps
    exact ⟨_, run, (phaseCounted_countPhases k g s).setRamp_moves (P := NextPhased lead)
      fun x => nextPhase_follow k.credit x ramps⟩

end Sys2Proof.Machine
end

section
/-! PROOF. Staging (R47, R134, R210, R545): a step of a tile's walk lands chunk by chunk in the staging region of the
tile's banks. -/

namespace Sys2Proof.Machine

open Sys2Proof

/-! ## Chunks written into a tile's banks -/

/-- Bytes of chunks, each a bank and a bank byte address with the bytes from there, written into a tile's banks. -/
def mwriteChunks (g : Nat) (put : List ((Nat × Nat) × List Byte)) (mem : Mem) : Mem :=
  put.foldl (fun mem x => mwrite mem (bankKey g x.1.1 x.1.2) x.2) mem

/-- Writing chunks into a tile's banks changes the bank memory alone. -/
theorem forAll_bankWrite (g : Nat) (put : List ((Nat × Nat) × List Byte)) (s : State) :
    forAll put (fun x u => bankWrite g x.1.1 x.1.2 x.2 u) s = { s with bankMem := mwriteChunks g put s.bankMem } := by
  unfold forAll mwriteChunks
  induction put generalizing s with
  | nil => rfl
  | cons x r ih => rw [List.foldl_cons, ih]; rfl

/-- A byte that chunks have changed lies in one of them. -/
theorem mem_chunk_of_mwriteChunks_ne {g key : Nat} {put : List ((Nat × Nat) × List Byte)} {mem : Mem}
    (h : mget (mwriteChunks g put mem) key ≠ mget mem key) :
    ∃ x ∈ put, ∃ i < x.2.length, key = bankKey g x.1.1 (x.1.2 + i) := by
  unfold mwriteChunks at h
  induction put generalizing mem with
  | nil => exact absurd rfl h
  | cons x r ih =>
    by_cases inside : bankKey g x.1.1 x.1.2 ≤ key ∧ key < bankKey g x.1.1 x.1.2 + x.2.length
    · refine ⟨x, List.mem_cons_self, key - bankKey g x.1.1 x.1.2, by omega, ?_⟩
      unfold bankKey at *
      omega
    · have outside : key < bankKey g x.1.1 x.1.2 ∨ bankKey g x.1.1 x.1.2 + x.2.length ≤ key := by omega
      rw [List.foldl_cons, ← mget_mwrite_outside (m := mem) outside] at h
      obtain ⟨y, hy, i, hi, e⟩ := ih h
      exact ⟨y, List.mem_cons_of_mem _ hy, i, hi, e⟩

/-- A byte of a chunk within a staging region lies in the region's banks and its bytes of them. -/
theorem chunkInside_byte {st : Opd} {x : (Nat × Nat) × List Byte} {i : Nat} (h : chunkInside st x = true)
    (hi : i < x.2.length) :
    st.banks.contains x.1.1 = true ∧ st.reg.off ≤ x.1.2 + i ∧ x.1.2 + i < st.reg.off + st.reg.len := by
  unfold chunkInside at h
  rw [Bool.and_eq_true, decide_eq_true_eq] at h
  obtain ⟨bank, low, high⟩ := h
  exact ⟨bank, by omega, by omega⟩

/-! ## The row -/

/-- Where the operands of STAGING_FETCH_DONE put the bytes of step `i` of a job: its stationary blocks in order, and its
stream in chunks of 2 KiB. -/
def stagePut (g : Nat) (aAt bAt : List (Nat × Nat)) (j : AJob) (i : Nat) : List ((Nat × Nat) × List Byte) :=
  aAt.zip (j.stageA i g) ++ chunksAt 2048 bAt (j.stageB i g)

/-- The operands place the whole step inside the staging region of the command (log 21). -/
def StageFits (s : State) (c : Nat) (m : Cmd) (g : Nat) (aAt bAt : List (Nat × Nat)) (j : AJob) (i : Nat) : Prop :=
  (j.stageA i g).length = aAt.length ∧
    (j.stageB i g).length = ((chunksAt 2048 bAt (j.stageB i g)).map fun x => x.2.length).sum ∧
    (stagePut g aAt bAt j i).all (chunkInside (stageOpd s c m)) = true

/-- The model's check of the places refuses exactly what does not fit. -/
theorem not_stageFits_iff {s : State} {c : Nat} {m : Cmd} {g : Nat} {aAt bAt : List (Nat × Nat)} {j : AJob} {i : Nat} :
    ¬ StageFits s c m g aAt bAt j i ↔ (j.stageA i g).length ≠ aAt.length ∨
      (j.stageB i g).length ≠ ((chunksAt 2048 bAt (j.stageB i g)).map fun x => x.2.length).sum ∨
      (!(stagePut g aAt bAt j i).all (chunkInside (stageOpd s c m))) = true := by
  unfold StageFits
  simp only [not_and_or, Bool.not_eq_true', Bool.not_eq_true, ne_eq]

/-- The bank writes of a landing: the DMA engine's on the tile. -/
def stageWrites (g : Nat) (put : List ((Nat × Nat) × List Byte)) : List BankAcc :=
  put.map fun x => { g := g, k := x.1.1, tile := g, kind := .dma, wr := true, a := x.1.2 }

/-- The walk with its next step landed. -/
def Walk.land (aAt bAt : List (Nat × Nat)) (w : Walk) : Walk :=
  { w with steps := w.steps + 1, held := { step := w.steps, a := aAt, b := bAt } :: w.held }

/-- The state with the chunks of a step in the tile's banks and its walk one step on. -/
def landStep (g : Nat) (put : List ((Nat × Nat) × List Byte)) (w : Walk) (s : State) : State :=
  ({ s with bankMem := mwriteChunks g put s.bankMem } : State).modTile2 g fun x => { x with walk := some w }

section
variable {c q g : Nat} {s : State} {m : Cmd} {f i before : Nat} {j : AJob} {aAt bAt : List (Nat × Nat)}
  (run : running? s c q = some m) (form : aget m.bound.forms g = some f) (may : mustWait s c m = false)
  (next : walkStep (arrayJobs s c m f g) (walkOf s g c q).steps = some (j, i, before))
  (half : halfFree (arrayJobs s c m f g) (walkOf s g c q) = true)
include run form may next half

/-- Operands that do not place the step in the staging region change nothing (log 21). -/
theorem exec_stagingFetchDone_misplaced (fits : ¬ StageFits s c m g aAt bAt j i) :
    exec (.stagingFetchDone c q g aAt bAt) s = .next s := by
  show execStagingFetchDone c q g aAt bAt s = _
  unfold execStagingFetchDone
  simp only [run, form, may, next, half]
  exact if_pos (not_stageFits_iff.1 fits)

/-- A step that its operands place and that is admitted lands (R47, R134). -/
theorem exec_stagingFetchDone_lands (fits : StageFits s c m g aAt bAt j i)
    (admitted : accFail s c (stageReads s c m) [] (stageWrites g (stagePut g aAt bAt j i)) = none) :
    exec (.stagingFetchDone c q g aAt bAt) s =
      .next (landStep g (stagePut g aAt bAt j i) ((walkOf s g c q).land aAt bAt) s) := by
  show execStagingFetchDone c q g aAt bAt s = _
  unfold execStagingFetchDone
  simp only [run, form, may, next, half]
  refine (if_neg fun h => not_stageFits_iff.2 h fits).trans ?_
  unfold stageWrites stagePut at admitted
  rw [admitted, forAll_bankWrite]
  rfl

end

/-- Settles O26: the row lands the step or changes nothing by the two lemmas above, and a byte that the landing changed
lies in a chunk, which `chunkInside` puts within the staging region. That the operands give the places is log 21. -/
theorem stagingWritesOnlyItsRegion : Obligations.StagingWritesOnlyItsRegion := by
  intro c q g aAt bAt s m f j i before run form may js w put fits next half
  refine ⟨exec_stagingFetchDone_misplaced run form may next half, fun placed admitted =>
    ⟨_, exec_stagingFetchDone_lands run form may next half placed admitted, rfl, rfl, fun e => ?_, fun key changed => ?_⟩⟩
  · split
    · next same => rw [same]; exact State.modTile2_tile2_self ..
    · next other => exact State.modTile2_tile2_other _ _ other
  · obtain ⟨x, hx, k, hk, rfl⟩ := mem_chunk_of_mwriteChunks_ne changed
    obtain ⟨bank, low, high⟩ := chunkInside_byte (List.all_eq_true.1 placed.2.2 x hx) hk
    exact ⟨x.1.1, x.1.2 + k, rfl, bank, low, high⟩

end Sys2Proof.Machine
end

section
/-! PROOF. The operator's writes of reserve, low-water mark, buffers, peaks and patrol control, and AQ_CLEAR (R95, R147,
R205, R222, R223, R286, R310). -/

namespace Sys2Proof.Machine

open Sys2Proof

/-- The register of a patrol: its enable bit and its interval, 1 for 0 (R286, R310). -/
theorem patrolWord (v : Nat) :
    w32 (sh (bits v 31 1) 31 + max 1 (bits v 0 16)) = w32 (2 ^ 31 * bits v 31 1 + max 1 (bits v 0 16)) := by
  unfold sh
  rw [Nat.shiftLeft_eq, Nat.mul_comm]

section
variable {s : State} {src : Src} (op : isOperator s src = true)
include op

/-- The reserve takes the smaller of the value and L, and a cut sets RESERVE_CLAMPED (R205). -/
theorem exec_kvReserveWrite_posted {p : Nat} (v : BitVec 32) (defd : (s.part p).defd = true) :
    ∃ t, exec (.kvReserveWrite src p v) s = .next t ∧
      let u := s.modPart p fun x => { x with kvReserve := BitVec.ofNat 24 (min (bits v.toNat 0 24) x.leaves) }
      Posted (if (s.part p).leaves < bits v.toNat 0 24 then
        u.modPart2 p fun x => { x with kvEvents := x.kvEvents ||| 8 } else u) t := by
  refine ⟨_, show execKvReserveWrite src p v s = _ from if_pos (by rw [op, defd]; rfl), ?_⟩
  dsimp only
  split
  · exact posted_kvEvent p 8 _
  · exact .refl _

theorem exec_kvClearMin {p : Nat} (defd : (s.part p).defd = true) :
    exec (.kvClearMin src p) s = .next (s.modPart p fun x => { x with
      kvFreeMin := BitVec.ofNat 24 (x.leaves - (s.part2 p).leafTab.length) }) :=
  show execKvClearMin src p s = _ from if_pos (by rw [op, defd]; rfl)

theorem exec_labFlush {n : Nat} (slab : n < 100) (kept : (s.slab n).st ≠ .retired) :
    exec (.labFlush src n) s = .next (s.modSlab2 n fun x => { x with lab := [] }) :=
  show execLabFlush src n s = _ from if_pos (by simp [op, slab, kept])

theorem exec_winClearPeak : exec (.winClearPeak src) s = .next { s with winPeak := winUsed s } :=
  show execWinClearPeak src s = _ from if_pos op

theorem exec_patinaCtrlWrite {n : Nat} (v : BitVec 32) (live : coreLive s n = true) :
    exec (.patinaCtrlWrite src n v) s = .next (s.modSlab2 n fun x => { x with
      patinaCtrl := w32 (2 ^ 31 * bits v.toNat 31 1 + max 1 (bits v.toNat 0 16)) }) := by
  rw [← patrolWord]
  exact show execPatinaCtrlWrite src n v s = _ from if_pos (by rw [op, live]; rfl)

theorem exec_hbmScrubWrite {n : Nat} (v : BitVec 32) (stack : (Config.slabStack n).isSome = true)
    (kept : (s.slab n).st ≠ .retired) :
    exec (.hbmScrubWrite src n v) s = .next (s.modSlab2 n fun x => { x with hbm := { x.hbm with
      scrub := w32 (2 ^ 31 * bits v.toNat 31 1 + max 1 (bits v.toNat 0 16)) } }) := by
  rw [← patrolWord]
  exact show execHbmScrubWrite src n v s = _ from if_pos (by simp [op, stack, kept])

end

theorem exec_aqClear {s : State} {src : Src} {page c : Nat} (reaches : pageWrite s src page = some c) :
    exec (.aqClear src page) s = .next (s.modCtx c fun x => { x with aq := .init }) := by
  show execAqClear src page s = _
  unfold execAqClear
  rw [reaches]

/-- Settles O31: each row by its own lemma. -/
theorem operatorWritesTakeEffectAtOnce : Obligations.OperatorWritesTakeEffectAtOnce := fun _ _ =>
  ⟨fun op => ⟨fun _ v => exec_kvReserveWrite_posted op v, fun _ => exec_kvClearMin op, fun _ => exec_labFlush op,
    exec_winClearPeak op, fun _ v => exec_patinaCtrlWrite op v, fun _ v => exec_hbmScrubWrite op v⟩,
    fun _ _ => exec_aqClear⟩

end Sys2Proof.Machine
end

section
/-! PROOF. The data commands: each row runs the work of its command, and INFUSION fills look-aside buffers as well
(R92, R101, R145, R194). -/

namespace Sys2Proof.Machine

open Sys2Proof

variable {c q : Nat} {s t : State} {m : Cmd}

/-! ## The walks of INFUSION -/

/-- A walk of leaf blocks changes the slabs' look-aside buffers and their counters alone (R194, R223). -/
theorem labWalk_eq (n c id : Nat) (k : KvSeq) (h b : Nat) (s : State) :
    labWalk n c id k h b s = { s with slabs2 := (labWalk n c id k h b s).slabs2 } := by
  unfold labWalk
  dsimp only
  split
  · rfl
  · rfl

/-- The states that differ from `s` in the slabs' second records at most. -/
def OnlySlabs2 (s t : State) : Prop := t = { s with slabs2 := t.slabs2 }

theorem OnlySlabs2.labWalk (h : OnlySlabs2 s t) (n c id : Nat) (k : KvSeq) (i b : Nat) :
    OnlySlabs2 s (labWalk n c id k i b t) := by
  unfold OnlySlabs2 at *
  rw [labWalk_eq, h]

theorem onlySlabs2_ixWalks (c : Nat) (m : Cmd) (x : Ix) (s : State) : OnlySlabs2 s (ixWalks c m x s) := by
  unfold ixWalks
  split
  · exact rfl
  · exact forAll_keeps _ _ _ (fun _ _ t ht => forAll_keeps _ _ _ (fun _ _ _ hu => hu.labWalk ..) t ht) s rfl

/-! ## A work that goes on to fill look-aside buffers -/

/-- Ending a command after its writes and free values leaves its work done. -/
theorem worked_finishT {w : Work} (hm : getCmd s c q = some m)
    (bytes : ∀ x, cellGet t x = merged w.wrs x (cellGet s x))
    (rest : t = { s with
      env := { s.env with hostMem := t.env.hostMem, free := s.env.free + w.free }, bankMem := t.bankMem,
      hbm := { s.hbm with mem := t.hbm.mem, recs := t.hbm.recs } }) :
    Worked w c q s (finishT c q .ok w.dw w.t t) := by
  have ctx (d : Nat) : t.ctx d = s.ctx d := by rw [rest]; rfl
  have cmd : getCmd t c q = some m := by unfold getCmd at *; rw [ctx]; exact hm
  refine ⟨⟨_, finishT_getCmd _ _ _ cmd, rfl, rfl, rfl, rfl, rfl⟩, fun x => ?_, ⟨?_, fun d other => ?_⟩, ?_⟩
  · rw [finishT_eq]; exact bytes x
  · rw [finishT_ctx_same, ctx]
  · rw [finishT_ctx_other _ _ _ _ _ other, ctx]
  · rw [finishT_eq]
    generalize finishT c q .ok w.dw w.t t = u
    rw [rest]

/-- The work of a command that goes on to change the slabs' second records alone. -/
theorem Work.run_worked_slabs2 (w : Work) (more : State → State) (only : ∀ u, OnlySlabs2 u (more u))
    (hm : getCmd s c q = some m) (free : accFail s c w.rd w.wrs w.accs = Option.none) :
    Worked w c q { s with slabs2 := (w.run c q more s).slabs2 } (w.run c q more s) := by
  rw [w.run_ok more free]
  have slabs2 : (finishT c q .ok w.dw w.t (more (useFree w.free (applyWrs c w.wrs s)))).slabs2 =
      (more (useFree w.free (applyWrs c w.wrs s))).slabs2 := by rw [finishT_eq]
  have filled := only (useFree w.free (applyWrs c w.wrs s))
  rw [slabs2]
  generalize more (useFree w.free (applyWrs c w.wrs s)) = v at filled
  refine worked_finishT (m := m) hm (fun x => ?_) ?_
  · rw [filled]
    exact cellGet_applyWrs c w.wrs s x
  · rw [filled, useFree, applyWrs_eq]

/-! ## The rows -/

/-- A row of a ring command whose command is ready has its meaning for that command. -/
theorem meaning_of_ready {α : Type} {op : Nat} (ready : ready? s c q op = some m) (idle : α) (f : Cmd → α) :
    (match ready? s c q op with | none => idle | some m => f m) = f m := by
  rw [ready]

/-- The row of a data command that is ready runs the command's work. -/
theorem exec_dataWork {i : Instr} {op : Nat} {w : Work} (data : DataWork c q s m i op w) (ready : ready? s c q op = some m) :
    exec i s = .next (w.run c q id s) := by
  rcases data with ⟨rfl, rfl, rfl⟩ | ⟨rfl, rfl, plan⟩ | ⟨rfl, rfl, rfl⟩ | ⟨rfl, rfl, perm⟩ | ⟨rfl, rfl, rfl⟩ |
    ⟨rfl, rfl, rfl⟩ | ⟨rfl, rfl, rfl⟩ | ⟨rfl, rfl, rfl⟩ | ⟨rfl, rfl, rfl⟩ | ⟨rfl, rfl, rfl⟩ | ⟨rfl, rfl, rfl⟩ |
    ⟨rfl, rfl, rfl⟩ | ⟨rfl, rfl, rfl⟩ | ⟨rfl, rfl, rfl⟩
  case inr.inl =>
    refine (meaning_of_ready ready _ _).trans ?_
    rw [plan]
  case inr.inr.inr.inl =>
    refine (meaning_of_ready ready _ _).trans ?_
    rw [perm]
  all_goals exact meaning_of_ready ready _ _

theorem exec_infusion (ready : ready? s c q 0x11 = some m) :
    exec (.infusion c q) s = .next ((infusionWork s c m).run c q (ixWalks c m (ixOf s c m)) s) :=
  meaning_of_ready ready _ _

theorem ready?_getCmd {op : Nat} (ready : ready? s c q op = some m) : getCmd s c q = some m :=
  running?_getCmd (ready?_running ready).1

/-- A data command that is ready and whose accesses all succeed does its work (R101, R145). -/
theorem exec_dataWork_worked {i : Instr} {op : Nat} {w : Work} (data : DataWork c q s m i op w)
    (ready : ready? s c q op = some m) (free : accFail s c w.rd w.wrs w.accs = none) :
    ∃ t, exec i s = .next t ∧ Worked w c q s t :=
  ⟨_, exec_dataWork data ready, w.run_worked (ready?_getCmd ready) free⟩

theorem exec_infusion_worked (ready : ready? s c q 0x11 = some m)
    (free : accFail s c (infusionWork s c m).rd (infusionWork s c m).wrs (infusionWork s c m).accs = none) :
    ∃ t, exec (.infusion c q) s = .next t ∧ Worked (infusionWork s c m) c q { s with slabs2 := t.slabs2 } t :=
  ⟨_, exec_infusion ready, Work.run_worked_slabs2 _ _ (onlySlabs2_ixWalks c m _) (ready?_getCmd ready) free⟩

/-- Settles O24: INFUSION by its own lemma, every other row by the lemma on data commands, of which it is a clause of
`DataWork`. -/
theorem dataCommandsDoTheirWork : Obligations.DataCommandsDoTheirWork := by
  intro c q s m Free
  have work {i : Instr} {op : Nat} {w : Work} (data : DataWork c q s m i op w) (ready : ready? s c q op = some m)
      (free : Free w) : ∃ t, exec i s = .next t ∧ Worked w c q s t := exec_dataWork_worked data ready free
  unfold DataWork at work
  refine ⟨work (by simp), exec_infusion_worked, fun w ready plan => work (by simp [plan]) ready, work (by simp),
    fun w ready perm => work (by simp [perm]) ready, work (by simp), work (by simp), work (by simp), work (by simp),
    work (by simp), work (by simp), work (by simp), work (by simp), work (by simp), work (by simp)⟩

end Sys2Proof.Machine
end

section
/-! PROOF. The record of a finished command (R351, R353, R359, R360, R369): what ending it leaves of its context, by
whether the ring still takes records and whether the record's slot can be written. -/

namespace Sys2Proof.Machine

open Sys2Proof

variable {c q : Nat} {s : State} {m : Cmd}

/-! ## Commands that leave the window -/

theorem dropCmd_ctx_self (c q : Nat) (s : State) :
    (dropCmd c q s).ctx c = { s.ctx c with cmds := (s.ctx c).cmds.filter fun e => e.seq != q } :=
  State.modCtx_ctx_self ..

theorem dropCmd_ctx_other {d : Nat} (q : Nat) (s : State) (other : d ≠ c) : (dropCmd c q s).ctx d = s.ctx d :=
  State.modCtx_ctx_other _ _ other

/-- A ring whose record writes have failed is dead, keeps no entry that has not issued, and shows HOSTMEM (R360). -/
theorem ringDead_ctx_self (c : Nat) (s : State) : (ringDead c s).ctx c = { s.ctx c with
    ring := { (s.ctx c).ring with dead := true }, cmds := (s.ctx c).cmds.filter fun e => e.phase != .fetched,
    irq := { (s.ctx c).irq with events := (s.ctx c).irq.events ||| 1 } } := by
  unfold ringDead
  rw [(posted_ringEvent ..).ctx, State.modCtx_ctx_self, State.modCtx_ctx_self]

theorem ringDead_ctx_other {d : Nat} (s : State) (other : d ≠ c) : (ringDead c s).ctx d = s.ctx d := by
  unfold ringDead
  rw [(posted_ringEvent ..).ctx, State.modCtx_ctx_other _ _ other, State.modCtx_ctx_other _ _ other]

/-! ## Writing a record -/

/-- The address of the slot at CQ_TAIL (R351). -/
def Ring.slotAddr (r : Ring) : Nat := r.cqBase.toNat + 32 * r.cqTail

/-- Can the host not be reached at the slot at a context's CQ_TAIL? -/
def slotFails (s : State) (c : Nat) : Bool := hostFails s (s.ctx c).reg.func (s.ctx c).ring.slotAddr 32

/-- The ring with CQ_TAIL at the next slot; the phase turns where it wraps (R351). -/
def Ring.advance (r : Ring) : Ring :=
  { r with cqTail := (r.cqTail + 1) % r.cqSize, cqPhase := if (r.cqTail + 1) % r.cqSize = 0 then !r.cqPhase else r.cqPhase }

/-- The context with a record of command q written: the ring on by one slot, the command counted and out of the window. -/
def Ctx.recorded (x : Ctx) (q : Nat) : Ctx :=
  { x with
    ring := x.ring.advance, prof := { x.prof with cmds := x.prof.cmds + 1 }, cmds := x.cmds.filter fun e => e.seq != q }

/-- The state with a record in its slot and its context behind it, before interrupt and halt. -/
def slotWritten (c : Nat) (m : Cmd) (s : State) : State :=
  dropCmd c m.seq ((hostWrite s (s.ctx c).reg.func (s.ctx c).ring.slotAddr
    (recordBytes m c (s.ctx c).ring.cqPhase)).modCtx c fun y => { y with
      ring := { y.ring with
        cqTail := ((s.ctx c).ring.cqTail + 1) % (s.ctx c).ring.cqSize,
        cqPhase := if ((s.ctx c).ring.cqTail + 1) % (s.ctx c).ring.cqSize = 0 then !y.ring.cqPhase else y.ring.cqPhase },
      prof := { y.prof with cmds := y.prof.cmds + 1 } })

theorem writeRecord_fails (fails : slotFails s c = true) : writeRecord c m s = ringDead c (dropCmd c m.seq s) :=
  if_pos fails

/-- The state after the record's interrupt (R367). -/
def slotSignalled (c : Nat) (m : Cmd) (s : State) : State := cqSignal c (isFailure m.status || m.irq) (slotWritten c m s)

theorem writeRecord_writes (writes : slotFails s c = false) : writeRecord c m s =
    if isFailure m.status then ringHalt c m.seq m.status (slotSignalled c m s) else slotSignalled c m s :=
  if_neg (Bool.eq_false_iff.1 writes)

theorem hostWrite_ctx (s : State) (f a : Nat) (bs : List Byte) (d : Nat) : (hostWrite s f a bs).ctx d = s.ctx d :=
  (posted_hostWrite s f a bs).ctx d

theorem slotWritten_ctx_self (c : Nat) (m : Cmd) (s : State) :
    (slotWritten c m s).ctx c = (s.ctx c).recorded m.seq := by
  unfold slotWritten
  rw [dropCmd_ctx_self, State.modCtx_ctx_self, hostWrite_ctx]
  rfl

theorem slotWritten_ctx_other {d : Nat} (m : Cmd) (s : State) (other : d ≠ c) : (slotWritten c m s).ctx d = s.ctx d := by
  unfold slotWritten
  rw [dropCmd_ctx_other _ _ other, State.modCtx_ctx_other _ _ other, hostWrite_ctx]

/-- The slot holds the record's bytes (R351). -/
theorem slotWritten_record (m : Cmd) (writes : slotFails s c = false) :
    hostRead (slotWritten c m s) (s.ctx c).reg.func (s.ctx c).ring.slotAddr 32 =
      recordBytes m c (s.ctx c).ring.cqPhase := by
  have len := length_recordBytes m c (s.ctx c).ring.cqPhase
  have read := hostRead_hostWrite s (s.ctx c).reg.func (s.ctx c).ring.slotAddr
    (recordBytes m c (s.ctx c).ring.cqPhase) (by rw [len]; exact writes)
  rw [len] at read
  exact read

theorem slotSignalled_ctx_self (c : Nat) (m : Cmd) (s : State) :
    ∃ i, (slotSignalled c m s).ctx c = { (s.ctx c).recorded m.seq with irq := i } := by
  rw [← slotWritten_ctx_self]
  exact ⟨_, (cqSignal_facts ..).2.1⟩

theorem slotSignalled_ctx_other {d : Nat} (m : Cmd) (s : State) (other : d ≠ c) :
    (slotSignalled c m s).ctx d = s.ctx d :=
  ((cqSignal_facts ..).1 d other).trans (slotWritten_ctx_other m s other)

/-- What writing a record in its slot leaves of its context: the interrupt's count moves, and a failure joins the halts
and may post the ring's event (R351, R359, R367). -/
theorem writeRecord_ctx_self (writes : slotFails s c = false) : ∃ i p, (writeRecord c m s).ctx c =
    { (s.ctx c).recorded m.seq with
      irq := i,
      ring := { (s.ctx c).ring.advance with
        halts := if isFailure m.status then (s.ctx c).ring.halts ++ [(m.seq, m.status)] else (s.ctx c).ring.halts,
        haltPosted := p } } := by
  obtain ⟨i, signalled⟩ := slotSignalled_ctx_self c m s
  rw [writeRecord_writes writes]
  split
  · have halted := (ringHalt_facts c m.seq m.status (slotSignalled c m s)).2
    rw [signalled] at halted
    exact ⟨i, _, halted⟩
  · exact ⟨i, (s.ctx c).ring.haltPosted, signalled⟩

theorem writeRecord_ctx_other {d : Nat} (m : Cmd) (s : State) (other : d ≠ c) : (writeRecord c m s).ctx d = s.ctx d := by
  cases h : slotFails s c with
  | true => rw [writeRecord_fails h, ringDead_ctx_other _ other, dropCmd_ctx_other _ _ other]
  | false =>
    rw [writeRecord_writes h]
    split
    · rw [(ringHalt_facts ..).1 _ other, slotSignalled_ctx_other _ _ other]
    · exact slotSignalled_ctx_other _ _ other

/-- The record of a command that is no failure stands in its slot: an interrupt writes no host memory (R351, R367). -/
theorem writeRecord_record (writes : slotFails s c = false) (ok : isFailure m.status = false) :
    hostRead (writeRecord c m s) (s.ctx c).reg.func (s.ctx c).ring.slotAddr 32 =
      recordBytes m c (s.ctx c).ring.cqPhase := by
  rw [writeRecord_writes writes, ok, if_neg (by decide), ← slotWritten_record m writes]
  unfold hostRead slotSignalled
  rw [(cqSignal_facts ..).2.2]

/-! ## Ending a finished command -/

/-- The state with a command's counts of R93 added. -/
def counted (c : Nat) (m : Cmd) (s : State) : State := s.modCtx c fun x => { x with aq := x.aq.add m.aq }

theorem counted_ctx_self (c : Nat) (m : Cmd) (s : State) :
    (counted c m s).ctx c = { s.ctx c with aq := (s.ctx c).aq.add m.aq } := State.modCtx_ctx_self ..

theorem counted_ctx_other {d : Nat} (m : Cmd) (s : State) (other : d ≠ c) : (counted c m s).ctx d = s.ctx d :=
  State.modCtx_ctx_other _ _ other

theorem counted_slotFails (c : Nat) (m : Cmd) (s : State) : slotFails (counted c m s) c = slotFails s c := by
  unfold slotFails
  rw [counted_ctx_self]
  rfl

/-- Where a finished command's record goes: nowhere on a dead ring, else to its slot (R353, R360). -/
def reported (c : Nat) (m : Cmd) (s : State) : State :=
  if (s.ctx c).ring.dead then dropCmd c m.seq (counted c m s) else writeRecord c m (counted c m s)

theorem recordCmd_eq (c : Nat) (m : Cmd) (s : State) : recordCmd c m s = settle c (reported c m s) := by
  unfold recordCmd reported
  dsimp only
  rw [State.modCtx_ctx_self, apply_ite (settle c)]
  rfl

theorem reported_ctx_other {d : Nat} (m : Cmd) (s : State) (other : d ≠ c) : (reported c m s).ctx d = s.ctx d := by
  unfold reported
  split
  · rw [dropCmd_ctx_other _ _ other, counted_ctx_other _ _ other]
  · rw [writeRecord_ctx_other _ _ other, counted_ctx_other _ _ other]

/-- On a dead ring the command leaves the window with no record (R360). -/
theorem reported_ctx_of_dead (m : Cmd) (dead : (s.ctx c).ring.dead = true) : (reported c m s).ctx c =
    { s.ctx c with aq := (s.ctx c).aq.add m.aq, cmds := (s.ctx c).cmds.filter fun e => e.seq != m.seq } := by
  rw [reported, if_pos dead, dropCmd_ctx_self, counted_ctx_self]

/-- Where the slot cannot be written the ring dies, and the entries that have not issued go as well (R360). -/
theorem reported_ctx_of_fails (m : Cmd) (live : ¬ (s.ctx c).ring.dead = true) (fails : slotFails s c = true) :
    (reported c m s).ctx c = { s.ctx c with
      aq := (s.ctx c).aq.add m.aq, ring := { (s.ctx c).ring with dead := true },
      cmds := (s.ctx c).cmds.filter fun e => e.seq != m.seq && e.phase != .fetched,
      irq := { (s.ctx c).irq with events := (s.ctx c).irq.events ||| 1 } } := by
  rw [reported, if_neg live, writeRecord_fails (by rw [counted_slotFails]; exact fails), ringDead_ctx_self,
    dropCmd_ctx_self, counted_ctx_self, List.filter_filter]
  simp only [Bool.and_comm]

/-- Where the slot can be written the record is in it, and the context behind it (R351, R353, R359). -/
theorem reported_ctx_of_writes (m : Cmd) (live : ¬ (s.ctx c).ring.dead = true) (writes : slotFails s c = false) :
    ∃ i p, (reported c m s).ctx c = { (s.ctx c).recorded m.seq with
      aq := (s.ctx c).aq.add m.aq,
      irq := i,
      ring := { (s.ctx c).ring.advance with
        halts := if isFailure m.status then (s.ctx c).ring.halts ++ [(m.seq, m.status)] else (s.ctx c).ring.halts,
        haltPosted := p } } := by
  obtain ⟨i, p, written⟩ := writeRecord_ctx_self (m := m) ((counted_slotFails c m s).trans writes)
  rw [counted_ctx_self] at written
  exact ⟨i, p, by rw [reported, if_neg live]; exact written⟩

theorem reported_record (live : ¬ (s.ctx c).ring.dead = true) (writes : slotFails s c = false)
    (ok : isFailure m.status = false) :
    hostRead (reported c m s) (s.ctx c).reg.func (s.ctx c).ring.slotAddr 32 =
      recordBytes m c (s.ctx c).ring.cqPhase := by
  have record := writeRecord_record ((counted_slotFails c m s).trans writes) ok
  rw [counted_ctx_self] at record
  rw [reported, if_neg live]
  exact record

/-- In each of the three cases the command's counts are added (R93). -/
theorem reported_aq (c : Nat) (m : Cmd) (s : State) : ((reported c m s).ctx c).aq = (s.ctx c).aq.add m.aq := by
  by_cases dead : (s.ctx c).ring.dead = true
  · rw [reported_ctx_of_dead m dead]
  · cases slot : slotFails s c with
    | true => rw [reported_ctx_of_fails m dead slot]
    | false =>
      obtain ⟨i, p, written⟩ := reported_ctx_of_writes m dead slot
      rw [written]

/-! ## What bringing a context up to date leaves of it, and of host memory -/

@[simp] theorem settle_ring (c : Nat) (s : State) : ((settle c s).ctx c).ring = (s.ctx c).ring := by
  rw [settle_ctx_same]

@[simp] theorem settle_cmds (c : Nat) (s : State) : ((settle c s).ctx c).cmds = (s.ctx c).cmds := by
  rw [settle_ctx_same]

@[simp] theorem settle_aq (c : Nat) (s : State) : ((settle c s).ctx c).aq = (s.ctx c).aq := by
  rw [settle_ctx_same]

@[simp] theorem settle_irq (c : Nat) (s : State) : ((settle c s).ctx c).irq = (s.ctx c).irq := by
  rw [settle_ctx_same]

@[simp] theorem settle_prof (c : Nat) (s : State) : ((settle c s).ctx c).prof = (s.ctx c).prof := by
  rw [settle_ctx_same]

@[simp] theorem settle_hostRead (c : Nat) (s : State) (f a n : Nat) : hostRead (settle c s) f a n = hostRead s f a n := by
  rw [settle_eq]
  rfl

/-! ## COMMAND_COMPLETE -/

theorem holdRecord_eq (c q : Nat) (s : State) : holdRecord c q s = { s with pcie := { s.pcie with
    recHeld := if (c, q) ∈ s.pcie.recHeld then s.pcie.recHeld else s.pcie.recHeld ++ [(c, q)] } } := by
  unfold holdRecord
  by_cases held : (c, q) ∈ s.pcie.recHeld
  · rw [if_pos held, if_pos (List.contains_iff_mem.2 held)]
  · rw [if_neg held, if_neg (mt List.contains_iff_mem.1 held)]

theorem exec_commandComplete (hm : getCmd s c q = some m) : exec (.commandComplete c q) s =
    if m.phase = .done ∧ recordRoom s c = true then
      .next (if s.pcie.phase = .idle then recordCmd c m s else holdRecord c q s)
    else .next s := by
  show execCommandComplete c q s = _
  unfold execCommandComplete
  rw [hm]

/-- The row of a finished command with room for its record ends it (R353). -/
theorem exec_commandComplete_records (hm : getCmd s c q = some m) (done : m.phase = .done)
    (room : recordRoom s c = true) (idle : s.pcie.phase = .idle) :
    exec (.commandComplete c q) s = .next (settle c (reported c m s)) := by
  rw [exec_commandComplete hm, if_pos ⟨done, room⟩, if_pos idle, recordCmd_eq]

/-- During a failover the record waits for the link (R369). -/
theorem exec_commandComplete_holds (hm : getCmd s c q = some m) (done : m.phase = .done)
    (room : recordRoom s c = true) (busy : s.pcie.phase ≠ .idle) :
    exec (.commandComplete c q) s = .next { s with pcie := { s.pcie with
      recHeld := if (c, q) ∈ s.pcie.recHeld then s.pcie.recHeld else s.pcie.recHeld ++ [(c, q)] } } := by
  rw [exec_commandComplete hm, if_pos ⟨done, room⟩, if_neg busy, holdRecord_eq]

/-- Settles O34: the end of a finished command by what becomes of its record (the ring is dead, the slot fails, or it
holds the record), and the rows that hold the record or wait. -/
theorem recordsReportFinishedCommands : Obligations.RecordsReportFinishedCommands := by
  intro c q s m hm
  obtain rfl : m.seq = q := getCmd_seq hm
  refine ⟨fun done room idle => ⟨_, exec_commandComplete_records hm done room idle, fun d other => ?_, ?_, ?_⟩,
    exec_commandComplete_holds hm, fun waits => (exec_commandComplete hm).trans (if_neg waits)⟩
  · rw [settle_ctx_other _ other, reported_ctx_other m s other]
  · rw [settle_aq, reported_aq]
  · dsimp only
    rw [settle_ring, settle_cmds, settle_irq, settle_prof, settle_hostRead]
    split
    · next dead =>
      rw [reported_ctx_of_dead m dead]
      exact ⟨rfl, rfl⟩
    · next live =>
      split
      · next fails =>
        rw [reported_ctx_of_fails m live fails]
        exact ⟨rfl, rfl, rfl⟩
      · next writes =>
        have slot : slotFails s c = false := Bool.eq_false_iff.2 writes
        obtain ⟨i, p, written⟩ := reported_ctx_of_writes m live slot
        rw [written]
        refine ⟨rfl, rfl, rfl, fun ok => (reported_record live slot ok).trans ?_⟩
        cases (s.ctx c).ring.cqPhase <;> rfl

end Sys2Proof.Machine
end

section
/-! PROOF. Handles that a command binds or unbinds (R97, R103, R162, R230, R347): the creating commands, DESC_DESTROY,
and the wait for the earlier commands that name what a command unbound. -/

namespace Sys2Proof.Machine

open Sys2Proof

variable {c q : Nat} {s u : State} {m : Cmd}

/-! ## A change of a context's handles -/

/-- The state in which context c has other handles. -/
def withHandles (c : Nat) (hs : List (Nat × Obj)) (s : State) : State := s.modCtx c fun x => { x with handles := hs }

@[simp] theorem withHandles_handles (c : Nat) (hs : List (Nat × Obj)) (s : State) :
    ((withHandles c hs s).ctx c).handles = hs := by
  rw [withHandles, State.modCtx_ctx_self]

theorem near_withHandles (c : Nat) (hs : List (Nat × Obj)) (s : State) : Near c s (withHandles c hs s) :=
  (Near.refl s).modCtx _

theorem withHandles_getCmd (hs : List (Nat × Obj)) (hm : getCmd s c q = some m) :
    getCmd (withHandles c hs s) c q = some m := by
  rw [(near_withHandles c hs s).getCmd, hm]

/-! ## Creating commands -/

/-- What a creating command that has issued does with the object its checks made. -/
theorem bindNew_of_running {o : Obj} (run : running? s c q = some m) (made : m.bound.newObj = some o) :
    bindNew c q m.opcode s = finish c q .ok [] (withHandles c (aput (s.ctx c).handles (m.f 0x10 16) o) s) := by
  unfold bindNew
  rw [run]
  dsimp only
  rw [made]
  exact if_pos rfl

/-- A command that ends after a change of its context's handles leaves those handles. -/
theorem finish_withHandles_handles (hs : List (Nat × Obj)) (st : Status) (dw : List Nat) :
    ((finish c q st dw (withHandles c hs s)).ctx c).handles = hs := by
  rw [finish_ctx_same, withHandles_handles]

/-- Settles O11: each of the three rows binds by `bindNew`, which sets one handle and ends the command. -/
theorem creatingCommandsBindTheirHandle : Obligations.CreatingCommandsBindTheirHandle := by
  intro c q s m o i run made row
  have exec_eq : exec i s = .next (bindNew c q m.opcode s) := by
    rcases row with ⟨rfl, op⟩ | ⟨rfl, op⟩ | ⟨rfl, op⟩ <;> rw [op] <;> rfl
  rw [bindNew_of_running run made] at exec_eq
  refine ⟨_, exec_eq, fun h => ?_, ?_⟩
  · rw [finish_withHandles_handles, aget_aput]
  · rw [finish_withHandles_handles]
    exact finished_finish _ _ (withHandles_getCmd _ (running?_getCmd run))

/-! ## DESC_DESTROY -/

theorem exec_descDestroy (run : running? s c q = some m) (op : m.opcode = 0x03) :
    exec (.descDestroy c q) s = .next (setActed c q (withHandles c (adel (s.ctx c).handles (m.f 0x10 16)) s)) := by
  show execDescDestroy c q s = _
  unfold execDescDestroy
  rw [run]
  exact if_pos op

theorem setActed_withHandles_handles (hs : List (Nat × Obj)) :
    ((setActed c q (withHandles c hs s)).ctx c).handles = hs := by
  rw [setActed, modCmd_ctx_same, withHandles_handles]

/-- DESC_DESTROY that has issued unbinds its handle and waits (R97). -/
theorem exec_descDestroy_unbinds (run : running? s c q = some m) (op : m.opcode = 0x03) :
    ∃ t, exec (.descDestroy c q) s = .next t ∧
      (∀ h, aget (t.ctx c).handles h = if h = m.f 0x10 16 then none else aget (s.ctx c).handles h) ∧
      Acted c q (withHandles c (t.ctx c).handles s) t := by
  refine ⟨_, exec_descDestroy run op, fun h => ?_, ?_⟩
  · rw [setActed_withHandles_handles, aget_adel]
  · rw [setActed_withHandles_handles]
    exact acted_setActed (withHandles_getCmd _ (running?_getCmd run))

/-! ## The wait for earlier commands -/

/-- An earlier command in flight names one of the handles. -/
theorem any_namedEarlier_iff (s : State) (c : Nat) (m : Cmd) (objs : List (Nat × Obj)) :
    (objs.any fun o => namedEarlier s c m o.1) = true ↔
      ∃ o ∈ objs, ∃ e ∈ (s.ctx c).cmds, e.stamp < m.stamp ∧ (e.obj o.1).isSome := by
  simp [namedEarlier]

/-- A command that waits and has one of the three opcodes that unbind is the one that the release takes up. -/
theorem unbinder?_of_acted (hm : getCmd s c q = some m) (acted : m.phase = .acted)
    (op : m.opcode ∈ [0x03, 0x53, 0x55]) : unbinder? s c q = some m := by
  have acted?_eq (k : Nat) : acted? s c q k = if m.opcode = k then some m else none := by
    simp [acted?, hm, acted]
  simp only [List.mem_cons, List.not_mem_nil, or_false] at op
  rcases op with op | op | op <;> simp [unbinder?, acted?_eq, op]

/-- The release of a command that unbound handles (R97). -/
theorem exec_descRelease (hm : getCmd s c q = some m) (acted : m.phase = .acted)
    (op : m.opcode ∈ [0x03, 0x53, 0x55]) : exec (.descRelease c q) s =
      if m.bound.objs.any fun o => namedEarlier s c m o.1 then .next s else .next (finish c q .ok [] s) := by
  show execDescRelease c q s = _
  unfold execDescRelease
  rw [unbinder?_of_acted hm acted op]

/-- Settles O12: DESC_DESTROY and the release by their own lemmas. -/
theorem destroyUnbindsAndReleaseWaits : Obligations.DestroyUnbindsAndReleaseWaits := by
  intro c q s m
  refine ⟨exec_descDestroy_unbinds, fun hm acted op => ?_⟩
  rw [exec_descRelease hm acted op]
  have named := any_namedEarlier_iff s c m m.bound.objs
  split
  case isTrue waits => exact if_pos (named.2 waits)
  case isFalse free => exact ⟨_, if_neg (free ∘ named.1), finished_finish _ _ hm⟩

end Sys2Proof.Machine
end

section
/-! PROOF. Regions (R97, R369, R389, R393): the region that REGION_ALLOC binds, what freeing regions leaves, and how a
command ends that unbound the handles on them. -/

namespace Sys2Proof.Machine

open Sys2Proof

variable {c q : Nat} {s t u : State} {m : Cmd}

/-! ## The end of a command that unbound handles -/

theorem onlyCmds_finish (c q : Nat) (st : Status) (dw : List Nat) (u : State) : OnlyCmds c u (finish c q st dw u) :=
  ⟨finish_ctx_same .., fun _ other => finish_ctx_other _ _ _ _ other⟩

/-- A command that unbound handles ends or waits, and nothing else of any context changes. -/
theorem endUnbound_onlyCmds (c : Nat) (m : Cmd) (objs : List (Nat × Obj)) (u : State) :
    OnlyCmds c u (endUnbound c m objs u) := by
  unfold endUnbound
  split
  case isTrue =>
    refine ⟨?_, fun d other => ?_⟩
    · rw [setActed, modCmd_ctx_same, modCmd_ctx_same]
    · rw [setActed, modCmd_ctx_other _ _ _ other, modCmd_ctx_other _ _ _ other]
  case isFalse => exact onlyCmds_finish ..

theorem OnlyCmds.regions (only : OnlyCmds c s t) : (t.ctx c).regions = (s.ctx c).regions := by rw [only.1]

theorem OnlyCmds.handles (only : OnlyCmds c s t) : (t.ctx c).handles = (s.ctx c).handles := by rw [only.1]

theorem OnlyCmds.models (only : OnlyCmds c s t) : (t.ctx c).models = (s.ctx c).models := by rw [only.1]

/-- It waits while an earlier command of the context in flight names one of the handles, and ends OK otherwise (R97). -/
theorem endUnbound_ends (hm : getCmd s c q = some m) (near : Near c s u) (objs : List (Nat × Obj)) :
    if ∃ o ∈ objs, ∃ e ∈ (s.ctx c).cmds, e.stamp < m.stamp ∧ (e.obj o.1).isSome then
      ∃ y, getCmd (endUnbound c m objs u) c q = some y ∧ y.phase = .acted
    else Ended (endUnbound c m objs u) c q .ok [] := by
  have seq : m.seq = q := getCmd_seq hm
  have hu : getCmd u c q = some m := (near.getCmd c q).trans hm
  rw [← near.cmds]
  have named := any_namedEarlier_iff u c m objs
  unfold endUnbound
  rw [seq]
  split
  case isTrue waits =>
    rw [if_pos (named.2 waits)]
    have changed := getCmd_modCmd_same (fun x => { x with bound := { x.bound with objs := objs } }) (fun _ => rfl) hu
    exact ⟨_, getCmd_modCmd_same (fun x => { x with phase := .acted }) (fun _ => rfl) changed, rfl⟩
  case isFalse free =>
    rw [if_neg (free ∘ named.1)]
    exact finish_ended _ _ hu

/-- The handles that name one of some regions and that an earlier command names. -/
theorem exists_handlesOn_iff (s : State) (c : Nat) (rids : List Nat) (P : Nat → Prop) :
    (∃ o ∈ handlesOn s c rids, P o.1) ↔ ∃ h ∈ (s.ctx c).handles, (∃ i ∈ rids, h.2.names i = true) ∧ P h.1 := by
  simp only [handlesOn, List.mem_filter, List.any_eq_true, and_assoc]

/-! ## What freeing regions leaves -/

@[simp] theorem fixSwap_regions (c : Nat) (s : State) : ((fixSwap c s).ctx c).regions = (s.ctx c).regions := by
  rw [fixSwap_ctx]

@[simp] theorem fixSwap_handles (c : Nat) (s : State) : ((fixSwap c s).ctx c).handles = (s.ctx c).handles := by
  rw [fixSwap_ctx]

theorem freeRegion_models (c r : Nat) (s : State) : ((freeRegion c r s).ctx c).models = (s.ctx c).models := by
  cases bound : getRegion s c r with
  | none =>
    unfold freeRegion
    rw [bound]
  | some g => exact (freeRegion_bound r s (by rw [bound]; rfl)).2.2

theorem freeRegions_models (c : Nat) (rids : List Nat) (s : State) :
    ((freeRegions c rids s).ctx c).models = (s.ctx c).models := by
  unfold freeRegions
  rw [fixSwap_models]
  exact forAll_other (fun t => (t.ctx c).models) (fun r t => freeRegion c r t) rids
    (fun r _ t => freeRegion_models c r t) s

theorem freeRegions_regions {rids : List Nat} {r : Nat} (mem : r ∈ rids) (s : State) :
    aget ((freeRegions c rids s).ctx c).regions r = none := by
  unfold freeRegions
  rw [fixSwap_regions]
  exact forAll_establishes (fun t => getRegion t c r = none) (fun i t => freeRegion c i t) rids r mem
    (freeRegion_none c r) (fun i _ t gone => (shrink_freeRegion (.refl c t) i).regions r gone) s

/-- Freeing one region, as `freeRegion_bound` says it, and settling the swap store. -/
theorem freeRegions_one_bound (r : Nat) (s : State) (bound : (getRegion s c r).isSome) :
    (∀ i, (aget ((freeRegions c [r] s).ctx c).regions i).isSome =
      if i = r then false else (aget (s.ctx c).regions i).isSome) ∧
    ((freeRegions c [r] s).ctx c).handles = (s.ctx c).handles.filter fun h => !h.2.names r := by
  obtain ⟨regions, handles, _⟩ := freeRegion_bound r s bound
  have one : freeRegions c [r] s = fixSwap c (freeRegion c r s) := rfl
  rw [one, fixSwap_regions, fixSwap_handles]
  exact ⟨regions, handles⟩

/-! ## REGION_ALLOC -/

theorem exec_regionAlloc_nofit {e : NoFit} (ready : ready? s c q 0x52 = some m) (fit : allocFit s c m = .error e) :
    exec (.regionAlloc c q) s = .next (finish c q .nofit (noFitRef e).dw s) := by
  refine (meaning_of_ready ready _ _).trans ?_
  rw [fit]

/-- The region that a REGION_ALLOC makes in its space, where the fit check made `made` (R389). -/
def allocRegion (s : State) (c : Nat) (m : Cmd) (made : List Region) : Region :=
  if m.fb 0x12 0 2 = 0 then
    { Region.empty with
      space := .hbm, len := m.f 0x18 64,
      units := takeUnits s (s.ctx c).reg.part (cdiv (m.f 0x18 64) allocBytes) }
  else if m.fb 0x12 0 2 = 1 then
    { Region.empty with space := .host, len := m.f 0x18 64, hostAddr := m.f 0x20 64 }
  else made.headD Region.empty

/-- From `s` to `u` context c has bound region id i to r, with the commands, handles and other contexts as they were. -/
structure AddsRegion (c i : Nat) (r : Region) (s u : State) : Prop where
  near : Near c s u
  regions : (u.ctx c).regions = aput (s.ctx c).regions i r
  handles : (u.ctx c).handles = (s.ctx c).handles

theorem addsRegion_addRegion {i : Nat} {r : Region} (same : ∀ d, u.ctx d = s.ctx d) :
    AddsRegion c i r s (addRegion c i r u) := by
  have near : Near c s u := ⟨fun d _ => same d, by rw [same]⟩
  refine ⟨near_addRegion near i r, ?_, ?_⟩
  · rw [addRegion, State.modCtx_ctx_self, same]
  · rw [addRegion, State.modCtx_ctx_self, same]

theorem AddsRegion.fixSubst {i : Nat} {r : Region} (adds : AddsRegion c i r s u) (p : Nat) :
    AddsRegion c i r s (fixSubst p u) :=
  ⟨near_fixSubst adds.near p, by rw [fixSubst_ctx, adds.regions], by rw [fixSubst_ctx, adds.handles]⟩

theorem AddsRegion.fixSwap {i : Nat} {r : Region} (adds : AddsRegion c i r s u) : AddsRegion c i r s (fixSwap c u) :=
  ⟨near_fixSwap adds.near, by rw [fixSwap_regions, adds.regions], by rw [fixSwap_handles, adds.handles]⟩

/-- A REGION_ALLOC whose fit check passes ends OK once its region is bound, whatever the space (R389). -/
theorem exec_regionAlloc_adds {made : List Region} (ready : ready? s c q 0x52 = some m)
    (fit : allocFit s c m = .ok made) :
    ∃ u, exec (.regionAlloc c q) s = .next (finish c q .ok [] u) ∧
      AddsRegion c (m.f 0x10 16) (allocRegion s c m made) s u := by
  rw [show exec (.regionAlloc c q) s = execRegionAlloc c q s from rfl]
  unfold execRegionAlloc allocRegion
  rw [ready]
  dsimp only
  rw [fit]
  dsimp only
  split
  case h_1 hbm =>
    rw [if_pos hbm]
    exact ⟨_, rfl, (addsRegion_addRegion fun d => unwriteUnits_ctx ..).fixSubst _⟩
  case h_2 host =>
    rw [if_neg (by omega), if_pos host]
    exact ⟨_, rfl, addsRegion_addRegion fun _ => rfl⟩
  case h_3 notHbm notHost =>
    rw [if_neg notHbm, if_neg notHost]
    exact ⟨_, rfl, (addsRegion_addRegion fun d => takeRegionBanks_ctx ..).fixSwap⟩

/-- What REGION_ALLOC with a passed fit check leaves of the contexts. -/
theorem exec_regionAlloc_binds {made : List Region} (ready : ready? s c q 0x52 = some m)
    (fit : allocFit s c m = .ok made) :
    ∃ t, exec (.regionAlloc c q) s = .next t ∧
      (∀ i, aget (t.ctx c).regions i =
        if i = m.f 0x10 16 then some (allocRegion s c m made) else aget (s.ctx c).regions i) ∧
      Ended t c q .ok [] ∧ (t.ctx c).handles = (s.ctx c).handles ∧ ∀ d, d ≠ c → t.ctx d = s.ctx d := by
  obtain ⟨u, exec_eq, near, regions, handles⟩ := exec_regionAlloc_adds ready fit
  obtain ⟨ended, others⟩ := near.ends (ready?_getCmd ready) .ok []
  refine ⟨_, exec_eq, fun i => ?_, ended, ?_, others⟩
  · rw [(onlyCmds_finish ..).regions, regions, aget_aput]
  · rw [(onlyCmds_finish ..).handles, handles]

/-! ## REGION_FREE -/

theorem exec_regionFree (ready : ready? s c q 0x53 = some m) : exec (.regionFree c q) s =
    .next (endUnbound c m (handlesOn s c [m.f 0x10 16]) (freeRegions c [m.f 0x10 16] s)) :=
  meaning_of_ready ready _ _

/-- Settles O16: the region that REGION_ALLOC binds by its space; REGION_FREE by what freeing one region leaves (which
handles name a region is log 37), and by how a command ends that unbound handles. -/
theorem regionsAreMadeAndFreed : Obligations.RegionsAreMadeAndFreed := by
  intro c q s m
  refine ⟨fun e ready fit => ?_, fun made ready fit => ?_, fun ready bound => ?_⟩
  · exact ⟨_, exec_regionAlloc_nofit ready fit, finished_finish _ _ (ready?_getCmd ready)⟩
  · obtain ⟨t, exec_eq, regions, ended, handles, others⟩ := exec_regionAlloc_binds ready fit
    refine ⟨t, _, exec_eq, (regions _).trans (if_pos rfl), fun hbm => ?_, fun host => ?_, fun bank => ?_,
      fun i other => (regions i).trans (if_neg other), ended, handles, others⟩
    · rw [allocRegion, if_pos hbm]
      exact ⟨rfl, rfl, rfl⟩
    · rw [allocRegion, if_neg (by omega), if_pos host]
      exact ⟨rfl, rfl, rfl⟩
    · rw [allocRegion, if_neg (by omega), if_neg (by omega)]
  · have near : Near c s (freeRegions c [m.f 0x10 16] s) := near_freeRegions (.refl s) _
    have only := endUnbound_onlyCmds c m (handlesOn s c [m.f 0x10 16]) (freeRegions c [m.f 0x10 16] s)
    obtain ⟨regions, handles⟩ := freeRegions_one_bound (m.f 0x10 16) s bound
    have ends := endUnbound_ends (ready?_getCmd ready) near (handlesOn s c [m.f 0x10 16])
    simp only [exists_handlesOn_iff s c _ fun h => ∃ e ∈ (s.ctx c).cmds, e.stamp < m.stamp ∧ (e.obj h).isSome,
      List.mem_singleton, exists_eq_left] at ends
    refine ⟨_, exec_regionFree ready, ?_, fun i other => ?_, ?_, ends,
      fun d other => (only.2 d other).trans (near.others d other)⟩
    · rw [only.regions, freeRegions_regions (List.mem_singleton_self _)]
    · rw [only.regions, regions, if_neg other]
    · rw [only.handles, handles]

end Sys2Proof.Machine
end

section
/-! PROOF. Models (R97, R369, R390 to R393): the regions and the weight store that MODEL_LOAD binds, and what
MODEL_UNLOAD takes away. -/

namespace Sys2Proof.Machine

open Sys2Proof

variable {c q : Nat} {s t u : State} {m : Cmd}

/-! ## MODEL_LOAD -/

theorem exec_modelLoad_refused {r : Ref} (ready : ready? s c q 0x54 = some m) (image : loadImage s c m = .error r) :
    exec (.modelLoad c q) s = .next (finish c q r.st r.dw s) := by
  refine (meaning_of_ready ready _ _).trans ?_
  rw [image]

theorem exec_modelLoad_nofit {v : Nat} {e : NoFit} (ready : ready? s c q 0x54 = some m)
    (image : loadImage s c m = .ok v) (fit : loadFit s c m v = .error e) :
    exec (.modelLoad c q) s = .next (finish c q .nofit (noFitRef e).dw s) := by
  refine (meaning_of_ready ready _ _).trans ?_
  rw [image]
  dsimp only
  rw [fit]

/-- The regions of an image are bound, each with its banks. -/
def bindImage (c : Nat) (ems : List (PlEntry × Region)) (s : State) : State :=
  forAll ems (fun em t => addRegion c em.1.rid em.2 (takeRegionBanks c em.2 t)) s

/-- The state before a MODEL_LOAD ends whose data could be read: the regions bound, the model under its id, and both
copies of the data written (R392). -/
def modelLoaded (c k a : Nat) (es : List PlEntry) (made : List Region) (units : List Nat) (s : State) : State :=
  let data := es.map fun e => hostRead s (s.ctx c).reg.func (a + e.doff) e.bytes
  let bound := (bindImage c (es.zip made) (unwriteUnits units s)).modCtx c fun x => { x with
    models := aput x.models k { regions := es.map PlEntry.rid, units := units } }
  forAll (made.zip data) (fun rd t => loadBanks c rd.1 rd.2 t) (putUnits (ctxKey bound c) units 0 data.flatten bound)

theorem exec_modelLoad_loads {v : Nat} {made : List Region} (ready : ready? s c q 0x54 = some m)
    (image : loadImage s c m = .ok v) (fit : loadFit s c m v = .ok made)
    (readable : ∀ e ∈ plEntries v, hostRef s (s.ctx c).reg.func (m.f 0x18 64 + e.doff) e.bytes = none) :
    exec (.modelLoad c q) s = .next (finish c q .ok [] (fixSwap c (modelLoaded c (m.fb 0x10 0 6) (m.f 0x18 64)
      (plEntries v) made (takeUnits s (s.ctx c).reg.part (storeUnits v)) s))) := by
  refine (meaning_of_ready ready _ _).trans ?_
  rw [image]
  dsimp only
  rw [fit]
  dsimp only
  rw [List.findSome?_eq_none_iff.2 readable]
  rfl

theorem near_bindImage (near : Near c s t) (ems : List (PlEntry × Region)) : Near c s (bindImage c ems t) :=
  near.forAll _ _ fun em _ k => near_addRegion (near_takeRegionBanks k c em.2) em.1.rid em.2

theorem bindImage_models (c : Nat) (ems : List (PlEntry × Region)) (s : State) :
    ((bindImage c ems s).ctx c).models = (s.ctx c).models := by
  refine forAll_other (fun t => (t.ctx c).models) _ ems (fun em _ t => ?_) s
  rw [addRegion, State.modCtx_ctx_self]
  dsimp only
  rw [takeRegionBanks_ctx]

theorem addRegion_regions (c i : Nat) (r : Region) (s : State) (j : Nat) :
    aget ((addRegion c i r s).ctx c).regions j = if j = i then some r else aget (s.ctx c).regions j := by
  rw [addRegion, State.modCtx_ctx_self]
  exact aget_aput ..

/-- Every region of an image is bound: a later one may take a bound id again, but unbinds none. -/
theorem bindImage_regions {em : PlEntry × Region} {ems : List (PlEntry × Region)} (mem : em ∈ ems) (s : State) :
    (aget ((bindImage c ems s).ctx c).regions em.1.rid).isSome := by
  refine forAll_establishes (fun t => (aget (t.ctx c).regions em.1.rid).isSome = true) _ ems em mem
    (fun t => ?_) (fun other _ t bound => ?_) s
  · rw [addRegion_regions, if_pos rfl]
    rfl
  · rw [addRegion_regions, takeRegionBanks_ctx]
    split
    · rfl
    · exact bound

/-- Writing both copies of a model's data leaves every context as the binding of its regions and of the model made it. -/
theorem modelLoaded_ctx (c k a : Nat) (es : List PlEntry) (made : List Region) (units : List Nat) (s : State) (d : Nat) :
    (modelLoaded c k a es made units s).ctx d =
      ((bindImage c (es.zip made) (unwriteUnits units s)).modCtx c fun x => { x with
        models := aput x.models k { regions := es.map PlEntry.rid, units := units } }).ctx d := by
  unfold modelLoaded
  extract_lets data bound
  have written : Keeps [.hbm, .bankMem] bound (forAll (made.zip data) (fun rd t => loadBanks c rd.1 rd.2 t)
      (putUnits (ctxKey bound c) units 0 data.flatten bound)) :=
    Keeps.forAll (keeps_putUnits (.refl bound) _ _ _ _ (by decide)) _ _ fun rd _ k =>
      keeps_loadBanks k c rd.1 rd.2 (by decide)
  exact written.ctx d

theorem near_modelLoaded (c k a : Nat) (es : List PlEntry) (made : List Region) (units : List Nat) (s : State) :
    Near c s (modelLoaded c k a es made units s) := by
  have bound := (near_bindImage (near_unwriteUnits (.refl s) units) (es.zip made) : Near c s _).modCtx
    fun x => { x with models := aput x.models k { regions := es.map PlEntry.rid, units := units } }
  exact ⟨fun d other => (modelLoaded_ctx ..).trans (bound.others d other), by rw [modelLoaded_ctx, bound.cmds]⟩

theorem modelLoaded_models (c k a : Nat) (es : List PlEntry) (made : List Region) (units : List Nat) (s : State) :
    ((modelLoaded c k a es made units s).ctx c).models =
      aput (s.ctx c).models k { regions := es.map PlEntry.rid, units := units } := by
  rw [modelLoaded_ctx, State.modCtx_ctx_self]
  dsimp only
  rw [bindImage_models, unwriteUnits_ctx]

theorem modelLoaded_regions (c k a : Nat) {es : List PlEntry} {made : List Region} (units : List Nat) (s : State)
    {em : PlEntry × Region} (mem : em ∈ es.zip made) :
    (aget ((modelLoaded c k a es made units s).ctx c).regions em.1.rid).isSome := by
  rw [modelLoaded_ctx, State.modCtx_ctx_self]
  exact bindImage_regions mem _

/-! ## MODEL_UNLOAD -/

/-- The state in which a model has gone from the model table of context c. -/
def dropModel (c k : Nat) (s : State) : State := s.modCtx c fun x => { x with models := adel x.models k }

theorem dropModel_regions (c k : Nat) (s : State) : ((dropModel c k s).ctx c).regions = (s.ctx c).regions := by
  rw [dropModel, State.modCtx_ctx_self]

theorem dropModel_models (c k : Nat) (s : State) : ((dropModel c k s).ctx c).models = adel (s.ctx c).models k := by
  rw [dropModel, State.modCtx_ctx_self]

theorem near_dropModel (near : Near c s u) (k : Nat) : Near c s (dropModel c k u) := near.modCtx _

/-- The state before a MODEL_UNLOAD ends: the model's regions freed, the model gone, and the substitutes of the partition
brought to the need (R392). -/
def modelUnloaded (c k : Nat) (rids : List Nat) (s : State) : State :=
  fixSubst ((dropModel c k (freeRegions c rids s)).ctx c).reg.part (dropModel c k (freeRegions c rids s))

theorem exec_modelUnload {md : Model} (ready : ready? s c q 0x55 = some m)
    (loaded : aget (s.ctx c).models (m.fb 0x10 0 6) = some md) : exec (.modelUnload c q) s =
      .next (endUnbound c m (handlesOn s c md.regions) (modelUnloaded c (m.fb 0x10 0 6) md.regions s)) := by
  refine (meaning_of_ready ready _ _).trans ?_
  simp only [loaded, Option.map_some, Option.getD_some, modelUnloaded, dropModel]

theorem modelUnloaded_ctx (c k : Nat) (rids : List Nat) (s : State) (d : Nat) :
    (modelUnloaded c k rids s).ctx d = (dropModel c k (freeRegions c rids s)).ctx d := by
  rw [modelUnloaded, fixSubst_ctx]

theorem near_modelUnloaded (c k : Nat) (rids : List Nat) (s : State) : Near c s (modelUnloaded c k rids s) :=
  near_fixSubst (near_dropModel (near_freeRegions (.refl s) rids) k) _

/-- Settles O17: MODEL_LOAD by what stands bound before it ends (that its store takes the lowest free units is log 22),
MODEL_UNLOAD by what freeing the model's regions leaves, and by how a command ends that unbound handles. -/
theorem modelsAreLoadedAndUnloaded : Obligations.ModelsAreLoadedAndUnloaded := by
  intro c q s m
  refine ⟨fun r ready image => ?_, fun v e ready image fit => ?_, fun v made ready image fit readable => ?_,
    fun md ready loaded => ?_⟩
  · exact ⟨_, exec_modelLoad_refused ready image, finished_finish _ _ (ready?_getCmd ready)⟩
  · exact ⟨_, exec_modelLoad_nofit ready image fit, finished_finish _ _ (ready?_getCmd ready)⟩
  · obtain ⟨ended, others⟩ := (near_fixSwap (near_modelLoaded c (m.fb 0x10 0 6) (m.f 0x18 64) (plEntries v) made
      (takeUnits s (s.ctx c).reg.part (storeUnits v)) s)).ends (ready?_getCmd ready) .ok []
    refine ⟨_, exec_modelLoad_loads ready image fit readable, ?_, fun em mem => ?_, ended, others⟩
    · rw [(onlyCmds_finish ..).models, fixSwap_models, modelLoaded_models, aget_aput, if_pos rfl]
    · rw [(onlyCmds_finish ..).regions, fixSwap_regions]
      exact modelLoaded_regions _ _ _ _ _ mem
  · have near := near_modelUnloaded c (m.fb 0x10 0 6) md.regions s
    have only := endUnbound_onlyCmds c m (handlesOn s c md.regions) (modelUnloaded c (m.fb 0x10 0 6) md.regions s)
    have ends := endUnbound_ends (ready?_getCmd ready) near (handlesOn s c md.regions)
    simp only [exists_handlesOn_iff s c _ fun h => ∃ e ∈ (s.ctx c).cmds, e.stamp < m.stamp ∧ (e.obj h).isSome] at ends
    refine ⟨_, exec_modelUnload ready loaded, fun k => ?_, fun i mem => ?_, ends,
      fun d other => (only.2 d other).trans (near.others d other)⟩
    · rw [only.models, modelUnloaded_ctx, dropModel_models, freeRegions_models, aget_adel]
    · rw [only.regions, modelUnloaded_ctx, dropModel_regions, freeRegions_regions mem]

end Sys2Proof.Machine
end

section
/-! PROOF. Owners of banks (R269, R271): what giving every bank of a region an owner changes, and the write of one owner
register. -/

namespace Sys2Proof.Machine

open Sys2Proof

variable {c q : Nat} {s t : State} {m : Cmd}

/-! ## The banks of a region -/

/-- A change of banks that doing it again leaves as it is reaches exactly the named ones, named twice or not. -/
theorem forAll_modBank_bank (l : List (Nat × Nat)) (f : Bank → Bank) (idem : ∀ b, f (f b) = f b) (s : State)
    (i : Nat) :
    (forAll l (fun gk t => t.modBank (bankIx gk.1 gk.2) f) s).bank i =
      if ∃ gk ∈ l, bankIx gk.1 gk.2 = i then f (s.bank i) else s.bank i := by
  unfold forAll
  induction l generalizing s with
  | nil => simp
  | cons gk r ih =>
    rw [List.foldl_cons, ih]
    by_cases here : bankIx gk.1 gk.2 = i
    · subst here
      simp only [State.modBank_bank_self, idem, ite_self, List.mem_cons, exists_eq_or_imp, true_or, if_true]
    · rw [State.modBank_bank_other _ _ (Ne.symm here)]
      simp only [List.mem_cons, exists_eq_or_imp, here, false_or]

theorem forAll_modBank_eq (l : List (Nat × Nat)) (f : Bank → Bank) (s : State) :
    forAll l (fun gk t => t.modBank (bankIx gk.1 gk.2) f) s =
      { s with banks := (forAll l (fun gk t => t.modBank (bankIx gk.1 gk.2) f) s).banks } := by
  refine forAll_keeps (fun t => t = { s with banks := t.banks }) _ l (fun gk _ t only => ?_) s rfl
  unfold State.modBank State.setBank
  rw [only]

/-- A bank of a region is one of its tile's four. -/
theorem regionBanks_lt {p : Part} {r : Region} {gk : Nat × Nat} (mem : gk ∈ regionBanks p r) : gk.2 < 4 := by
  unfold regionBanks at mem
  split at mem
  · simp only [List.mem_flatMap, List.mem_map] at mem
    obtain ⟨g, _, k, inMask, rfl⟩ := mem
    exact List.mem_range.1 (List.mem_of_mem_filter inMask)
  · cases mem

theorem exists_regionBanks_bankIx {p : Part} {r : Region} {g k : Nat} (hk : k < 4) :
    (∃ gk ∈ regionBanks p r, bankIx gk.1 gk.2 = bankIx g k) ↔ (g, k) ∈ regionBanks p r := by
  refine ⟨fun ⟨gk, mem, same⟩ => ?_, fun mem => ⟨_, mem, rfl⟩⟩
  obtain ⟨rfl, rfl⟩ := bankIx_inj (regionBanks_lt mem) hk same
  exact mem

/-! ## BANK_OWN -/

/-- The bank with another owner and peer. -/
def Bank.ownedBy (b : Bank) (owner peer : Nat) : Bank := { b with owner := owner, peer := peer }

theorem ownRegion_bound {i : Nat} {r : Region} (owner peer : Nat) (bound : getRegion s c i = some r) :
    ownRegion c i owner peer s = forAll (regionBanks (s.part (s.ctx c).reg.part) r)
      (fun gk t => t.modBank (bankIx gk.1 gk.2) fun b => b.ownedBy owner peer) s := by
  unfold ownRegion
  rw [bound]
  rfl

theorem ownRegion_eq (c i owner peer : Nat) (s : State) :
    ownRegion c i owner peer s = { s with banks := (ownRegion c i owner peer s).banks } := by
  cases bound : getRegion s c i with
  | none =>
    unfold ownRegion
    rw [bound]
  | some r =>
    rw [ownRegion_bound owner peer bound]
    exact forAll_modBank_eq ..

theorem ownRegion_bank {i : Nat} {r : Region} (owner peer : Nat) (bound : getRegion s c i = some r) {g k : Nat}
    (hk : k < 4) : (ownRegion c i owner peer s).bank (bankIx g k) =
      if (g, k) ∈ regionBanks (s.part (s.ctx c).reg.part) r then (s.bank (bankIx g k)).ownedBy owner peer
      else s.bank (bankIx g k) := by
  rw [ownRegion_bound owner peer bound, forAll_modBank_bank _ (fun b => b.ownedBy owner peer) fun _ => rfl]
  simp only [exists_regionBanks_bankIx hk]

theorem exec_bankOwn (ready : ready? s c q 0x4A = some m) : exec (.bankOwn c q) s =
    .next (finish c q .ok [] (ownRegion c (m.f 0x10 16) (m.fb 0x12 0 4) (m.fb 0x14 0 13) s)) :=
  meaning_of_ready ready _ _

theorem finish_banks (c q : Nat) (st : Status) (dw : List Nat) (s : State) : (finish c q st dw s).banks = s.banks := by
  rw [finish_eq]

/-- BANK_OWN that is ready hands over the banks of its region and nothing else (R269). -/
theorem exec_bankOwn_hands {r : Region} (ready : ready? s c q 0x4A = some m)
    (bound : getRegion s c (m.f 0x10 16) = some r) : ∃ t, exec (.bankOwn c q) s = .next t ∧
      (∀ g k, k < 4 → t.bank (bankIx g k) =
        if (g, k) ∈ regionBanks (s.part (s.ctx c).reg.part) r then
          (s.bank (bankIx g k)).ownedBy (m.fb 0x12 0 4) (m.fb 0x14 0 13)
        else s.bank (bankIx g k)) ∧
      Finished c q .ok [] { s with banks := t.banks } t := by
  have hands := ownRegion_eq c (m.f 0x10 16) (m.fb 0x12 0 4) (m.fb 0x14 0 13) s
  refine ⟨_, exec_bankOwn ready, fun g k hk => ?_, ?_⟩
  · rw [← ownRegion_bank _ _ bound hk]
    simp only [State.bank, finish_banks]
  · rw [finish_banks, ← hands]
    refine finished_finish .ok [] (m := m) ?_
    rw [hands]
    exact ready?_getCmd (s := s) ready

/-! ## BANK_OWN_WRITE -/

/-- May an owner register take the owner and the peer (R271, R285)? -/
def OwnerFits (s : State) (g owner peer : Nat) : Prop :=
  owner < 8 ∧ (owner = 5 → ∃ p, partOf s (g / 64) = some p ∧ tileInService s p peer = true)

/-- A write of an owner register is an access of the operator to the context that holds the bank (R448). -/
def holderAccess (j : Nat) (s : State) : State :=
  match (s.bank j).holder with
  | some c => opAccess c s
  | none => s

theorem opAccess_eq (c : Nat) (s : State) : opAccess c s = { s with ctxs := (opAccess c s).ctxs } := by
  unfold opAccess
  split <;> rfl

theorem holderAccess_eq (j : Nat) (s : State) : holderAccess j s = { s with ctxs := (holderAccess j s).ctxs } := by
  unfold holderAccess
  split
  · exact opAccess_eq ..
  · rfl

theorem holderAccess_bank (j : Nat) (s : State) (i : Nat) : (holderAccess j s).bank i = s.bank i := by
  rw [holderAccess_eq]
  rfl

/-- The test of the row, a reserved owner or a peer out of service, is that the two do not fit. -/
theorem not_ownerFits_iff (s : State) (g owner peer : Nat) :
    (8 ≤ owner ∨ (owner = 5 ∧ (match partOf s (g / 64) with
      | some p => tileInService s p peer
      | none => false) = false)) ↔ ¬ OwnerFits s g owner peer := by
  unfold OwnerFits
  rw [not_and_or, not_lt, Classical.not_imp]
  cases partOf s (g / 64) <;> simp

theorem exec_bankOwnWrite {src : Src} {n tile : Nat} (k : Nat) (v : BitVec 32) (inSlab : tile < 64)
    (operator : isOperator s src = true) (live : coreLive s n = true) :
    (¬ OwnerFits s (64 * posOf s n + tile) (bits v.toNat 0 4) (bits v.toNat 16 13) →
      exec (.bankOwnWrite src (64 * n + tile) k v) s = .next s) ∧
    (OwnerFits s (64 * posOf s n + tile) (bits v.toNat 0 4) (bits v.toNat 16 13) →
      exec (.bankOwnWrite src (64 * n + tile) k v) s =
        .next ((holderAccess (bankIx (64 * posOf s n + tile) k) s).modBank (bankIx (64 * posOf s n + tile) k)
          fun b => b.ownedBy (bits v.toNat 0 4) (bits v.toNat 16 13))) := by
  have slab : (64 * n + tile) / 64 = n := by omega
  have place : (64 * n + tile) % 64 = tile := by omega
  show (_ → execBankOwnWrite src (64 * n + tile) k v s = _) ∧ (_ → execBankOwnWrite src (64 * n + tile) k v s = _)
  unfold execBankOwnWrite
  dsimp only
  rw [slab, place, operator, live, Bool.and_self, if_pos rfl]
  exact ⟨fun unfit => if_pos ((not_ownerFits_iff ..).2 unfit), fun fits =>
    if_neg fun bad => (not_ownerFits_iff ..).1 bad fits⟩

/-- Settles O47: BANK_OWN by what handing a region over changes, the register write by its two cases. -/
theorem ownersAreHandedOver : Obligations.OwnersAreHandedOver := by
  refine ⟨fun c q s m r ready bound => exec_bankOwn_hands ready bound,
    fun src n tile k v s inSlab operator live => ?_⟩
  obtain ⟨unfit, fits⟩ := exec_bankOwnWrite k v inSlab operator live
  refine ⟨unfit, fun fit => ⟨_, fits fit, ?_, fun j other => ?_, ?_⟩⟩
  · rw [State.modBank_bank_self, holderAccess_bank]
    rfl
  · rw [State.modBank_bank_other _ _ other, holderAccess_bank]
  · unfold State.modBank State.setBank
    rw [holderAccess_eq]

end Sys2Proof.Machine
end

section
/-! PROOF. Failed accesses of a data command (R272, R300, R352, R369, R399): what a refusal of a bank leaves, and what an
access of HBM that fails makes of the command's context. -/

namespace Sys2Proof.Machine

open Sys2Proof

variable {c q : Nat} {s t u : State} {m : Cmd}

/-! ## An access that a bank refuses -/

/-- A refused access counts at its tile (R272). -/
theorem ownerRefused_counts (g k a : Nat) (ag : Agent) (kind : AccKind) (s : State) :
    ((ownerRefused g k a ag kind s).tile2 g).ownerRefused = (s.tile2 g).ownerRefused + 1 := by
  unfold ownerRefused
  rw [(posted_bankEvent ..).tile2, State.modSlab2_tile2, State.modSlab2_tile2, State.modTile2_tile2_self]

theorem getCmd_congr (same : t.ctx c = s.ctx c) (q : Nat) : getCmd t c q = getCmd s c q := by
  unfold getCmd
  rw [same]

theorem OnlyCmds.of_ctx_eq (only : OnlyCmds c u t) (same : ∀ d, u.ctx d = s.ctx d) : OnlyCmds c s t :=
  ⟨by rw [← same]; exact only.1, fun d other => (only.2 d other).trans (same d)⟩

/-- The state in which a bank has refused an access of a command of context c. -/
def refusal (c g k : Nat) (acc : BankAcc) (s : State) : State :=
  ownerRefused g k acc.a (.cmd c acc.tile acc.kind) (if acc.wr then .write else .read) s

theorem keeps_refusal (c g k : Nat) (acc : BankAcc) (s : State) :
    Keeps [.env, .hostMem, .pcie, .slabs2, .tiles2, .funcs] s (refusal c g k acc s) :=
  keeps_ownerRefused (.refl s) _ _ _ _ _ (List.Subset.refl _)

theorem failCmd_owner (c q g k : Nat) (acc : BankAcc) (s : State) :
    failCmd c q (.owner g k acc) s = finish c q .owner [g, k] (refusal c g k acc s) := rfl

/-- A command that a bank refuses ends with E_OWNER, and no byte of a bank or of HBM changes (R272, R352). -/
theorem failCmd_owner_refused (hm : getCmd s c q = some m) (g k : Nat) (acc : BankAcc) :
    Ended (failCmd c q (.owner g k acc) s) c q .owner [g, k] ∧
      (failCmd c q (.owner g k acc) s).bankMem = s.bankMem ∧ (failCmd c q (.owner g k acc) s).hbm = s.hbm ∧
      OnlyCmds c s (failCmd c q (.owner g k acc) s) ∧
      ((failCmd c q (.owner g k acc) s).tile2 g).ownerRefused = (s.tile2 g).ownerRefused + 1 := by
  have keeps := keeps_refusal c g k acc s
  have bytes : (refusal c g k acc s).bankMem = s.bankMem := keeps.only .bankMem (by decide)
  have hbm : (refusal c g k acc s).hbm = s.hbm := keeps.only .hbm (by decide)
  have counts : ((refusal c g k acc s).tile2 g).ownerRefused = (s.tile2 g).ownerRefused + 1 := ownerRefused_counts ..
  have cmd : getCmd (refusal c g k acc s) c q = some m := (getCmd_congr (keeps.ctx c) q).trans hm
  rw [failCmd_owner]
  generalize refusal c g k acc s = u at *
  refine ⟨finish_ended _ _ cmd, ?_, ?_, (onlyCmds_finish ..).of_ctx_eq fun d => keeps.ctx d, ?_⟩
  · rw [finish_eq, ← bytes]
  · rw [finish_eq, ← hbm]
  · rw [finish_eq, ← counts]
    rfl

/-! ## An access of HBM that fails -/

/-- Context c is LOST for a reason and has no command in flight (R399). -/
def IsLost (reason c : Nat) (t : State) : Prop :=
  (t.ctx c).reg.st = .lost ∧ (t.ctx c).reg.lossReason = reason ∧ (t.ctx c).cmds = []

/-- A context that can be lost is one that is defined and not lost yet, other than the management context (R398). -/
def CanBeLost (c : Nat) (s : State) : Prop := c ≠ 0 ∧ (s.ctx c).reg.st ≠ .free ∧ (s.ctx c).reg.st ≠ .lost

theorem isLost_loseCtx (reason slab : Nat) (can : CanBeLost c s) : IsLost reason c (loseCtx reason slab c s) := by
  obtain ⟨notMgmt, defined, notLost⟩ := can
  exact loseCtx_facts reason slab c s notMgmt defined notLost

theorem loseCtx_of_isLost {reason r : Nat} (slab : Nat) (lost : IsLost r c s) : loseCtx reason slab c s = s := by
  unfold loseCtx
  exact if_pos (.inr (.inr lost.1))

/-- The loss of some context leaves context c as it was, or it was c's own loss. -/
theorem loseCtx_same_or_isLost (reason slab o : Nat) (can : CanBeLost c s) :
    (loseCtx reason slab o s).ctx c = s.ctx c ∨ IsLost reason c (loseCtx reason slab o s) := by
  by_cases own : c = o
  · subst own
    exact .inr (isLost_loseCtx reason slab can)
  · exact .inl (loseCtx_other _ _ _ _ _ own)

/-- A failed access of HBM loses the context whose bytes it names, or firmware repairs them (R300). -/
theorem hbmFault_same_or_isLost (da : Nat) (bad : HbmBad) (can : CanBeLost c s) :
    (hbmFault da bad s).ctx c = s.ctx c ∨ IsLost 4 c (hbmFault da bad s) := by
  have logged : (hbmFailLog da bad s).ctx c = s.ctx c :=
    (keeps_hbmFailLog (.refl s) da bad (List.Subset.refl _)).ctx c
  unfold hbmFault
  generalize hbmFailLog da bad s = u at logged
  have loses : (loseCtx 4 (homeSlab u da) (daCtx s da) u).ctx c = s.ctx c ∨
      IsLost 4 c (loseCtx 4 (homeSlab u da) (daCtx s da) u) := by
    rw [← logged]
    exact loseCtx_same_or_isLost _ _ _ (by unfold CanBeLost; rw [logged]; exact can)
  dsimp only
  split
  · exact .inl (((keeps_repairFirmware (.refl u) da (List.Subset.refl _)).ctx c).trans logged)
  · split
    · exact .inl (((keeps_repairWeights (.refl u) da (List.Subset.refl _)).ctx c).trans logged)
    · exact loses
  · exact loses

/-- A command whose access of HBM fails loses its context, whoever's bytes failed (R300, R399). -/
theorem isLost_failCmd_hbm (q da : Nat) (bad : HbmBad) (can : CanBeLost c s) :
    IsLost 4 c (failCmd c q (.hbm da bad) s) := by
  show IsLost 4 c (loseCtx 4 (homeSlab s da) c (hbmFault da bad s))
  rcases hbmFault_same_or_isLost da bad can with same | lost
  · exact isLost_loseCtx _ _ (by unfold CanBeLost; rw [same]; exact can)
  · rw [loseCtx_of_isLost _ lost]
    exact lost

/-! ## The rows -/

theorem exec_data_fails {i : Instr} {op : Nat} {w : Work} {x : AccFail} (ready : ready? s c q op = some m)
    (data : DataWork c q s m i op w ∨ (i = .infusion c q ∧ op = 0x11 ∧ w = infusionWork s c m))
    (fails : accFail s c w.rd w.wrs w.accs = some x) : exec i s = .next (failCmd c q x s) := by
  rcases data with data | ⟨rfl, rfl, rfl⟩
  · rw [exec_dataWork data ready, w.run_fail _ x fails]
  · rw [exec_infusion ready, Work.run_fail _ _ x fails]

/-- Settles O25: every row ends as its failure says, by the kind of access that failed (log 20 and log 55). -/
theorem refusedAccessesChangeNoByte : Obligations.RefusedAccessesChangeNoByte := by
  intro c q s m i op w x ready data fails
  have hm := ready?_getCmd ready
  refine ⟨_, exec_data_fails ready data fails, ?_⟩
  cases x with
  | owner g k acc => exact failCmd_owner_refused hm g k acc
  | host a => exact finished_finish _ _ hm
  | hbm da bad => exact fun notMgmt defined notLost => isLost_failCmd_hbm q da bad ⟨notMgmt, defined, notLost⟩

end Sys2Proof.Machine
end

section
/-! PROOF. Sequences that are freed and reclaimed (R202, R204): what freeing some of a context's sequences leaves of its
bindings, and the two commands that do so. -/

namespace Sys2Proof.Machine

open Sys2Proof

variable {c e q : Nat} {s t u : State} {m : Cmd}

/-! ## Freeing sequences -/

/-- Releasing a sequence's leaves touches no context. -/
theorem releaseLeaves_ctx (p : Nat) (ls : List Nat) (s : State) (d : Nat) :
    (forAll ls (fun l t => releaseLeaf p l t) s).ctx d = s.ctx d :=
  (Keeps.forAll (.refl s) ls _ fun l _ k => keeps_releaseLeaf k p l (List.Subset.refl [SField.parts2])).ctx d

theorem labInvalidate_ctx (c i : Nat) (s : State) (d : Nat) : (labInvalidate c i s).ctx d = s.ctx d :=
  (keeps_labInvalidate (.refl s) c i (List.Subset.refl _)).ctx d

theorem freeSeq_getSeq (e i : Nat) (s : State) (j : Nat) :
    getSeq (freeSeq e i s) e j = if j = i then none else getSeq s e j := by
  unfold freeSeq
  split
  case h_1 unbound =>
    split
    case isTrue same => rw [same]; exact unbound
    case isFalse => rfl
  case h_2 =>
    unfold getSeq
    rw [labInvalidate_ctx, State.modCtx_ctx_self]
    dsimp only
    rw [aget_adel, releaseLeaves_ctx]

/-- Freeing some sequences of a context unbinds exactly these. -/
theorem forAll_freeSeq_getSeq (e : Nat) (ids : List Nat) (s : State) (j : Nat) :
    getSeq (forAll ids (fun i u => freeSeq e i u) s) e j = if j ∈ ids then none else getSeq s e j := by
  unfold forAll
  induction ids generalizing s with
  | nil => simp
  | cons i r ih =>
    rw [List.foldl_cons, ih, freeSeq_getSeq]
    by_cases here : j = i <;> simp [here]

theorem near_forAll_freeSeq (e : Nat) (ids : List Nat) (s : State) :
    Near e s (forAll ids (fun i u => freeSeq e i u) s) := Near.forAll (.refl s) _ _ fun i _ k => near_freeSeq k i

theorem bind_forAll_freeSeq (e : Nat) (ids : List Nat) (s : State) :
    Bind e s (forAll ids (fun i u => freeSeq e i u) s) := Bind.forAll (.refl s) _ _ fun i _ k => bind_freeSeq k i

/-- From `s` to `t` the sequences `ids` of context e were unbound, and no other binding of it. -/
structure FreesSeqs (e : Nat) (ids : List Nat) (s t : State) : Prop where
  seqs : ∀ j, getSeq t e j = if j ∈ ids then none else getSeq s e j
  bind : Bind e s t

theorem freesSeqs_forAll (e : Nat) (ids : List Nat) (s : State) :
    FreesSeqs e ids s (forAll ids (fun i u => freeSeq e i u) s) :=
  ⟨forAll_freeSeq_getSeq e ids s, bind_forAll_freeSeq e ids s⟩

theorem FreesSeqs.of_ctx_eq {ids : List Nat} (frees : FreesSeqs e ids s t) (same : u.ctx e = t.ctx e) :
    FreesSeqs e ids s u :=
  ⟨fun j => by rw [← frees.seqs]; unfold getSeq; rw [same],
    frees.bind.trans ⟨by rw [same], by rw [same], fun r => by rw [same]⟩⟩

/-- Ending a command of any context leaves the bindings. -/
theorem FreesSeqs.of_onlyCmds {ids : List Nat} (frees : FreesSeqs e ids s t) (only : OnlyCmds c t u) :
    FreesSeqs e ids s u := by
  by_cases own : e = c
  · subst own
    refine ⟨fun j => ?_, frees.bind.trans ⟨only.handles, only.models, fun r => by rw [only.regions]⟩⟩
    rw [← frees.seqs]
    unfold getSeq
    rw [only.1]
  · exact frees.of_ctx_eq (only.2 e own)

/-! ## KV_SEQ_FREE -/

theorem exec_kvSeqFree (ready : ready? s c q 0x44 = some m) :
    exec (.kvSeqFree c q) s = .next (finish c q .ok [] (forAll [m.f 0x10 16] (fun i u => freeSeq c i u) s)) :=
  meaning_of_ready ready _ _

/-! ## KV_RECLAIM -/

/-- The sequences that a KV_RECLAIM names: one, or all of its target (R204). -/
def reclaimIds (s : State) (m : Cmd) : List Nat :=
  if m.f 0x10 16 = 0xFFFF then (s.ctx (m.f 0x12 16)).seqs.map Prod.fst else [m.f 0x10 16]

/-- The state in which a KV_RECLAIM has freed its sequences and reported it. -/
def reclaimed (c : Nat) (m : Cmd) (s : State) : State :=
  let freed := forAll (reclaimIds s m) (fun i u => freeSeq (m.f 0x12 16) i u) s
  let told := kvEvent (freed.ctx (m.f 0x12 16)).reg.part 4 freed
  post (told.ctx (m.f 0x12 16)).reg.func 0x0004 0xFF (m.f 0x12 16) [m.f 0x10 16, c] told

/-- No command in flight of context e touches one of the sequences (R204). -/
def SeqsIdle (s : State) (e : Nat) (ids : List Nat) : Prop :=
  ∀ j ∈ ids, ∀ x, getSeq s e j = some x → regionBusy s e x.region = false

theorem any_seqBusy_eq_false {ids : List Nat} (idle : SeqsIdle s e ids) :
    (ids.any fun i => match getSeq s e i with
      | some sq => regionBusy s e sq.region
      | none => false) = false := by
  rw [List.any_eq_false]
  intro i mem
  split
  case h_1 x bound => rw [idle i mem x bound]; decide
  case h_2 => decide

theorem exec_kvReclaim (run : running? s c q = some m) (op : m.opcode = 0x45)
    (idle : SeqsIdle s (m.f 0x12 16) (reclaimIds s m)) :
    exec (.kvReclaim c q) s = .next (finish c q .ok [] (reclaimed c m s)) := by
  show execKvReclaim c q s = _
  unfold execKvReclaim
  rw [run]
  exact if_pos ⟨op, any_seqBusy_eq_false idle⟩

/-- The report of a reclaim changes no context. -/
theorem reclaimed_ctx (c : Nat) (m : Cmd) (s : State) (d : Nat) : (reclaimed c m s).ctx d =
    (forAll (reclaimIds s m) (fun i u => freeSeq (m.f 0x12 16) i u) s).ctx d := by
  unfold reclaimed
  dsimp only
  rw [(posted_post ..).ctx, (posted_kvEvent ..).ctx, State.modPart2_ctx]

theorem near_reclaimed (c : Nat) (m : Cmd) (s : State) : Near (m.f 0x12 16) s (reclaimed c m s) := by
  have near := near_forAll_freeSeq (m.f 0x12 16) (reclaimIds s m) s
  exact ⟨fun d other => (reclaimed_ctx ..).trans (near.others d other), by rw [reclaimed_ctx, near.cmds]⟩

/-- Settles O29: KV_SEQ_FREE frees one sequence of its own context, KV_RECLAIM some of its target's and reports it. -/
theorem sequencesAreFreedAndReclaimed : Obligations.SequencesAreFreedAndReclaimed := by
  intro c q s m
  refine ⟨fun ready => ?_, fun run op => ?_⟩
  · obtain ⟨ended, others⟩ := (near_forAll_freeSeq c [m.f 0x10 16] s).ends (ready?_getCmd ready) .ok []
    obtain ⟨seqs, bind⟩ := (freesSeqs_forAll c [m.f 0x10 16] s).of_onlyCmds (onlyCmds_finish c q .ok [] _)
    simp only [List.mem_singleton] at seqs
    exact ⟨_, exec_kvSeqFree ready, seqs, bind.handles, bind.models, bind.regs, ended, others⟩
  · intro e ids idle
    have near := near_reclaimed c m s
    have cmd : getCmd (reclaimed c m s) c q = some m := (near.getCmd c q).trans (running?_getCmd run)
    obtain ⟨seqs, bind⟩ := ((freesSeqs_forAll e ids s).of_ctx_eq (reclaimed_ctx c m s e)).of_onlyCmds
      (onlyCmds_finish c q .ok [] _)
    exact ⟨_, exec_kvReclaim run op idle, seqs, bind.handles, bind.models, bind.regs, finish_ended _ _ cmd,
      fun d notOwn notTarget => (finish_ctx_other _ _ _ _ notOwn).trans (near.others d notTarget)⟩

end Sys2Proof.Machine
end

section
/-! PROOF. Collectives (R328 to R335): what sending the packets of a collective leaves, how the row ends by what the peers
have brought, and the end of one that has waited too long. -/

namespace Sys2Proof.Machine

open Sys2Proof

variable {c q : Nat} {s t u : State} {m : Cmd}

/-! ## A command that ends in a state with other jobs -/

/-- Ending a command, seen from a state that differs in the table of contexts but in no context. -/
theorem Finished.of_ctx_eq {st : Status} {dw : List Nat} (finished : Finished c q st dw u t)
    (same : ∀ d, u.ctx d = s.ctx d) (rest : u = { s with ctxs := u.ctxs }) : Finished c q st dw s t where
  ended := by
    rw [← getCmd_congr (same c)]
    exact finished.ended
  others r other := (finished.others r other).trans (getCmd_congr (same c) r)
  cmds := finished.cmds.of_ctx_eq same
  tiles g := by
    have tile : u.tile g = s.tile g := by rw [rest]; rfl
    rw [← tile]
    exact finished.tiles g
  rest := by
    refine finished.rest.trans ?_
    rw [rest]

/-- From `s` to `t` no context changed but context c in its jobs, and it kept the port of each. -/
structure OnlyJobs (c : Nat) (s t : State) : Prop where
  own : t.ctx c = { s.ctx c with jobs := (t.ctx c).jobs }
  others : ∀ d, d ≠ c → t.ctx d = s.ctx d
  port : ∀ j, (getJob t c j).map Job.port = (getJob s c j).map Job.port

theorem OnlyJobs.refl (c : Nat) (s : State) : OnlyJobs c s s := ⟨rfl, fun _ _ => rfl, fun _ => rfl⟩

theorem OnlyJobs.trans (h : OnlyJobs c s t) (h' : OnlyJobs c t u) : OnlyJobs c s u :=
  ⟨by rw [h'.own, h.own], fun d other => (h'.others d other).trans (h.others d other),
    fun j => (h'.port j).trans (h.port j)⟩

theorem OnlyJobs.of_ctxs (h : OnlyJobs c s t) (e : u.ctxs = t.ctxs) : OnlyJobs c s u := by
  have same (d : Nat) : u.ctx d = t.ctx d := by simp only [State.ctx, e]
  exact h.trans ⟨by rw [same], fun d _ => same d, fun j => by unfold getJob; rw [same]⟩

theorem OnlyJobs.getCmd (h : OnlyJobs c s t) (q : Nat) : getCmd t c q = getCmd s c q := by
  unfold Machine.getCmd
  rw [h.own]

/-- A job that takes another record with the same port. -/
theorem onlyJobs_setJob {j : Nat} {x y : Job} (bound : getJob s c j = some x) (port : y.port = x.port) :
    OnlyJobs c s (setJob c j y s) := by
  refine ⟨?_, fun d other => State.modCtx_ctx_other _ _ other, fun i => ?_⟩
  · unfold setJob
    rw [State.modCtx_ctx_self]
  · rw [getJob_setJob]
    by_cases here : i = j
    · rw [if_pos ⟨rfl, here⟩, here, bound, Option.map_some, Option.map_some, port]
    · rw [if_neg fun h => here h.2]

/-! ## The packets of a collective -/

theorem sendSlots_eq (p vc n : Nat) (s : State) : sendSlots p vc n s = { s with
    ports := (sendSlots p vc n s).ports, ports2 := (sendSlots p vc n s).ports2 } := by
  unfold sendSlots drainPort
  dsimp only
  split <;> rfl

/-- What a job's packets of a collective change outside the contexts: ports and the count of free values (log 28). -/
theorem linkSend_eq (c j : Nat) (s : State) : linkSend c j s = { s with
    env := { s.env with free := (linkSend c j s).env.free }, ports := (linkSend c j s).ports,
    ports2 := (linkSend c j s).ports2, ctxs := (linkSend c j s).ctxs } := by
  unfold linkSend
  split
  · rfl
  · dsimp only
    unfold setJob
    rw [sendSlots_eq]
    rfl

theorem onlyJobs_linkSend (c j : Nat) (s : State) : OnlyJobs c s (linkSend c j s) := by
  unfold linkSend
  split
  case h_1 => exact .refl c s
  case h_2 x bound =>
    have sent : OnlyJobs c s (sendSlots x.port 2 (Config.freeValue 32 s.env.free).toNat (useFree 2 s)) :=
      (OnlyJobs.refl c s).of_ctxs (by rw [sendSlots_eq]; rfl)
    refine sent.trans (onlyJobs_setJob (x := x) ?_ rfl)
    rw [sendSlots_eq]
    exact bound

/-- The state in which every job of a collective has sent its packets. -/
def collSent (c : Nat) (m : Cmd) (s : State) : State := forAll m.collJobs (fun j t => linkSend c j t) s

theorem collSent_eq (c : Nat) (m : Cmd) (s : State) : collSent c m s = { s with
    env := { s.env with free := (collSent c m s).env.free }, ports := (collSent c m s).ports,
    ports2 := (collSent c m s).ports2, ctxs := (collSent c m s).ctxs } := by
  refine forAll_keeps (fun t => t = { s with
    env := { s.env with free := t.env.free }, ports := t.ports, ports2 := t.ports2, ctxs := t.ctxs }) _ _
    (fun j _ t only => ?_) s rfl
  rw [linkSend_eq]
  generalize linkSend c j t = u
  rw [only]

theorem onlyJobs_collSent (c : Nat) (m : Cmd) (s : State) : OnlyJobs c s (collSent c m s) :=
  forAll_keeps (OnlyJobs c s) _ _ (fun j _ _ h => h.trans (onlyJobs_linkSend c j _)) s (.refl c s)

/-! ## The row of a collective -/

/-- Every other package has brought what the next collective on its job takes (R333). -/
def CollDue (s : State) (c : Nat) (m : Cmd) (peers : List CollPeer) : Prop :=
  peers.length = m.npkg - 1 ∧ ∀ x ∈ m.otherRanks.zip peers, peerDue s c m x.1 x.2 = true

theorem collDue_iff (s : State) (c : Nat) (m : Cmd) (peers : List CollPeer) :
    (peers.length = m.npkg - 1 ∧ ((m.otherRanks.zip peers).all fun x => peerDue s c m x.1 x.2) = true) ↔
      CollDue s c m peers := by
  unfold CollDue
  rw [List.all_eq_true]

/-- Do the sizes of R330 not fit the number of members? -/
def CollOff (op : Nat) (s : State) (c : Nat) (m : Cmd) (peers : List CollPeer) : Bool :=
  collSizesOff op (m.opd s c (m.f 0x10 16)) (m.opd s c (m.f 0x12 16))
    (memberRaws s m (m.opd s c (m.f 0x10 16)) peers).length (m.opd s c (m.f 0x10 16)).pieces.length
    (membersBelow m peers m.prank)

section row

variable {op : Nat} {peers : List CollPeer} (ready : ready? s c q op = some m)

include ready

theorem runColl_waits (waits : ¬ CollDue s c m peers) : runColl op c q peers s = s := by
  unfold runColl
  rw [ready]
  exact if_neg (mt (collDue_iff ..).1 waits)

variable (due : CollDue s c m peers)

include due

theorem runColl_differs {j : Nat} (differs : collDiffers m (m.opd s c (m.f 0x10 16)) peers = some j) :
    runColl op c q peers s = peerFails c q j (collSent c m s) := by
  unfold runColl
  rw [ready]
  dsimp only
  rw [if_pos ((collDue_iff ..).2 due), differs]
  rfl

variable (agree : collDiffers m (m.opd s c (m.f 0x10 16)) peers = none)

include agree

theorem runColl_agree : runColl op c q peers s =
    if CollOff op s c m peers then peerFails c q (m.collJobs.headD 0) (collSent c m s)
    else (collWork op s c m (memberRaws s m (m.opd s c (m.f 0x10 16)) peers) (membersBelow m peers m.prank)).run c q id
      (collSent c m s) := by
  unfold runColl
  rw [ready]
  dsimp only
  rw [if_pos ((collDue_iff ..).2 due), agree]
  rfl

end row

/-- E_PEER names the port that the job had before it sent its packets. -/
theorem finished_peerFails (hm : getCmd s c q = some m) (j : Nat) :
    Finished c q .peer [((getJob s c j).map Job.port).getD 0, j] (collSent c m s)
      (peerFails c q j (collSent c m s)) := by
  have only := onlyJobs_collSent c m s
  unfold peerFails
  rw [only.port]
  exact finished_finish _ _ ((only.getCmd q).trans hm)

/-! ## COLL_TIMEOUT -/

/-- A job's turn is over: it has served one more collective (R333, R335). -/
def turnOver (c j : Nat) (s : State) : State :=
  match getJob s c j with
  | some x => setJob c j { x with colls := x.colls + 1 } s
  | none => s

theorem turnOver_eq (c j : Nat) (s : State) : turnOver c j s = { s with ctxs := (turnOver c j s).ctxs } := by
  unfold turnOver
  split <;> rfl

theorem onlyJobs_turnOver (c j : Nat) (s : State) : OnlyJobs c s (turnOver c j s) := by
  unfold turnOver
  split
  case h_1 x bound => exact onlyJobs_setJob bound rfl
  case h_2 => exact .refl c s

/-- The job with some more collectives served. -/
def Job.served (x : Job) (n : Nat) : Job := { x with colls := x.colls + n }

theorem getJob_turnOver (c j : Nat) (s : State) (i : Nat) :
    getJob (turnOver c j s) c i = (getJob s c i).map fun x => x.served (if j = i then 1 else 0) := by
  unfold turnOver
  split
  case h_1 x bound =>
    rw [getJob_setJob]
    by_cases here : i = j
    · subst here
      rw [if_pos ⟨rfl, rfl⟩, bound, Option.map_some, if_pos rfl]
      rfl
    · rw [if_neg fun h => here h.2, if_neg (Ne.symm here)]
      exact Option.map_id'.symm
  case h_2 unbound =>
    by_cases here : j = i
    · rw [← here, unbound]
      rfl
    · rw [if_neg here]
      exact Option.map_id'.symm

/-- The state in which the turn is over on each of some jobs. -/
def turnsOver (c : Nat) (js : List Nat) (s : State) : State := forAll js (turnOver c) s

theorem getJob_turnsOver (c : Nat) (js : List Nat) (s : State) (i : Nat) :
    getJob (turnsOver c js s) c i = (getJob s c i).map fun x => x.served (js.count i) := by
  unfold turnsOver forAll
  induction js generalizing s with
  | nil => exact Option.map_id'.symm
  | cons j r ih =>
    rw [List.foldl_cons, ih, getJob_turnOver, Option.map_map, List.count_cons]
    congr 1
    funext x
    simp only [Function.comp, Job.served, beq_iff_eq, Job.mk.injEq, true_and, and_true]
    omega

theorem turnsOver_eq (c : Nat) (js : List Nat) (s : State) :
    turnsOver c js s = { s with ctxs := (turnsOver c js s).ctxs } := by
  refine forAll_keeps (fun t => t = { s with ctxs := t.ctxs }) _ _ (fun j _ t only => ?_) s rfl
  rw [turnOver_eq]
  generalize turnOver c j t = u
  rw [only]

theorem onlyJobs_turnsOver (c : Nat) (js : List Nat) (s : State) : OnlyJobs c s (turnsOver c js s) :=
  forAll_keeps (OnlyJobs c s) _ _ (fun j _ _ h => h.trans (onlyJobs_turnOver c j _)) s (.refl c s)

theorem exec_collTimeout {j : Nat} {r : List Nat} (run : running? s c q = some m) (jobs : m.collJobs = j :: r) :
    exec (.collTimeout c q) s = .next
      (finish c q .link [((getJob s c j).map Job.port).getD 0, j] (turnsOver c m.collJobs s)) := by
  rw [← (onlyJobs_turnsOver c m.collJobs s).port j]
  show execCollTimeout c q s = _
  unfold execCollTimeout
  rw [run]
  dsimp only
  rw [jobs]
  rfl

/-- A state with other jobs in context c, as a change of that context. -/
theorem OnlyJobs.ctx_eq (only : OnlyJobs c s t) (d : Nat) :
    t.ctx d = (s.modCtx c fun y => { y with jobs := (t.ctx c).jobs }).ctx d := by
  by_cases own : d = c
  · subst own
    rw [State.modCtx_ctx_self]
    exact only.own
  · rw [State.modCtx_ctx_other _ _ own]
    exact only.others d own

/-- A collective that waits past COLL_TIMEOUT ends with E_LINK, its turns over (R335). -/
theorem exec_collTimeout_ends {j : Nat} {r : List Nat} (run : running? s c q = some m) (jobs : m.collJobs = j :: r) :
    ∃ t, exec (.collTimeout c q) s = .next t ∧
      (∀ i, getJob t c i = (getJob s c i).map fun x => x.served (m.collJobs.count i)) ∧
      Finished c q .link [((getJob s c j).map Job.port).getD 0, j]
        (s.modCtx c fun y => { y with jobs := (t.ctx c).jobs }) t := by
  have only := onlyJobs_turnsOver c m.collJobs s
  have cmd : getCmd (turnsOver c m.collJobs s) c q = some m := (only.getCmd q).trans (running?_getCmd run)
  refine ⟨_, exec_collTimeout run jobs, fun i => ?_, ?_⟩
  · rw [← getJob_turnsOver]
    unfold getJob
    rw [finish_ctx_same]
  · rw [finish_ctx_same]
    refine (finished_finish _ _ cmd).of_ctx_eq only.ctx_eq ?_
    rw [turnsOver_eq]
    rfl

/-! ## The statement -/

/-- Each of the four rows runs the collective of its opcode. -/
theorem exec_coll {i : Instr} {op : Nat} {peers : List CollPeer}
    (row : (i = .allreduce c q peers ∧ op = 0x2C) ∨ (i = .reduceScatter c q peers ∧ op = 0x2D) ∨
      (i = .allgather c q peers ∧ op = 0x2E) ∨ (i = .blend c q peers ∧ op = 0x2F)) :
    exec i s = .next (runColl op c q peers s) := by
  rcases row with ⟨rfl, rfl⟩ | ⟨rfl, rfl⟩ | ⟨rfl, rfl⟩ | ⟨rfl, rfl⟩ <;> rfl

/-- Settles O27: a collective by what its peers have brought (that sizes are judged then is log 24), COLL_TIMEOUT by its
own lemma. -/
theorem collectivesCombineOrFail : Obligations.CollectivesCombineOrFail := by
  refine ⟨fun c q peers s m i op ready row => ?_, fun c q s m j r run jobs => exec_collTimeout_ends run jobs⟩
  intro a d due u raws b off w Peer
  have hm := ready?_getCmd ready
  have only := onlyJobs_collSent c m s
  have exec_eq := exec_coll (s := s) row
  refine ⟨collSent_eq c m s, only.own, only.others, fun waits => ?_, fun j isDue differs => ?_,
    fun isDue agree isOff => ?_, fun isDue agree notOff free => ?_⟩
  · rw [exec_eq, runColl_waits ready waits]
  · exact ⟨_, exec_eq.trans (congrArg _ (runColl_differs ready isDue differs)), finished_peerFails hm j⟩
  · exact ⟨_, exec_eq.trans (congrArg _ ((runColl_agree ready isDue agree).trans (if_pos isOff))),
      finished_peerFails hm _⟩
  · have runs := (runColl_agree ready isDue agree).trans (if_neg (Bool.eq_false_iff.1 notOff))
    exact ⟨_, exec_eq.trans (congrArg _ runs), w.run_worked ((only.getCmd q).trans hm) free⟩

end Sys2Proof.Machine
end

section
/-! PROOF. The decision of a sequencer (R138, R139, R144, R381): what refusing, emptying, issuing and halting a candidate
leave of its context, and that the row does one of these or waits. -/

namespace Sys2Proof.Machine

open Sys2Proof

variable {c q : Nat} {s t u : State} {m : Cmd}

/-! ## What a decision leaves alone -/

/-- From `s` to `t` no command of context c but q changed, and no other context. -/
structure OthersKept (c q : Nat) (s t : State) : Prop where
  cmds : ∀ r, r ≠ q → getCmd t c r = getCmd s c r
  ctxs : ∀ d, d ≠ c → t.ctx d = s.ctx d

theorem OthersKept.trans (h : OthersKept c q s t) (h' : OthersKept c q t u) : OthersKept c q s u :=
  ⟨fun r other => (h'.cmds r other).trans (h.cmds r other), fun d other => (h'.ctxs d other).trans (h.ctxs d other)⟩

theorem Near.othersKept (near : Near c s t) (q : Nat) : OthersKept c q s t :=
  ⟨fun r _ => near.getCmd c r, near.others⟩

theorem othersKept_modCmd (s : State) (f : Cmd → Cmd) (seq : ∀ x, (f x).seq = x.seq) :
    OthersKept c q s (modCmd c q f s) :=
  ⟨fun _ other => modCmd_others s c f seq other, fun _ other => modCmd_ctx_other _ _ _ other⟩

theorem othersKept_settle (c q : Nat) (s : State) : OthersKept c q s (settle c s) :=
  ⟨fun _ _ => settle_getCmd .., fun _ other => settle_ctx_other _ other⟩

theorem near_countFor {f : Nat → State → State} (near : Near c s t)
    (hf : ∀ p u, Keeps [SField.parts2] t u → Keeps [SField.parts2] t (f p u)) : Near c s (countFor c f t) :=
  near.of_keeps (keeps_countFor (.refl t) hf)

theorem near_countIssue (near : Near c s t) : Near c s (countFor c countIssue t) :=
  near_countFor near fun p _ k => keeps_countIssue k p (List.Subset.refl _)

/-! ## Refused and empty candidates -/

theorem getCmd_refuseCmd (r : Ref) (hm : getCmd s c m.seq = some m) : getCmd (refuseCmd c m r s) c m.seq =
    some { m with phase := .done, status := r.st.code, dw := r.dw.map w32 } := by
  unfold refuseCmd
  rw [(near_countFor (.refl _) fun _ _ k => k.modPart2 _ _ (by decide)).getCmd]
  exact getCmd_modCmd_same (fun x => { x with phase := .done, status := r.st.code, dw := r.dw.map w32 })
    (fun _ => rfl) hm

theorem othersKept_refuseCmd (c : Nat) (m : Cmd) (r : Ref) (s : State) :
    OthersKept c m.seq s (refuseCmd c m r s) :=
  (othersKept_modCmd s (fun x => { x with phase := .done, status := r.st.code, dw := r.dw.map w32 }) fun _ => rfl).trans
    ((near_countFor (.refl _) fun _ _ k => k.modPart2 _ _ (by decide)).othersKept _)

/-- An empty command as it ends: it names its handles until its record is written (R97, R122). -/
def Cmd.emptied (m : Cmd) (objs : List (Nat × Obj)) : Cmd :=
  { m with
    phase := .done, issued := true, status := Status.okEmpty.code, bound := { m.bound with objs := objs } }

theorem getCmd_emptyCmd (seen : State) (hm : getCmd s c m.seq = some m) : getCmd (emptyCmd c m seen s) c m.seq =
    some (m.emptied (bindObjs seen c ((handleFields m).map fun o => m.f o 16))) := by
  unfold emptyCmd
  dsimp only
  rw [(near_countIssue (.refl _)).getCmd]
  exact getCmd_modCmd_same (fun x => x.emptied _) (fun _ => rfl) hm

theorem othersKept_emptyCmd (c : Nat) (m : Cmd) (seen s : State) : OthersKept c m.seq s (emptyCmd c m seen s) :=
  (othersKept_modCmd s (fun x => x.emptied _) fun _ => rfl).trans ((near_countIssue (.refl _)).othersKept _)

/-! ## Candidates that issue -/

/-- Command m of context c has issued with what its checks bound, draw and leaves apart; no other command changed. -/
structure Issues (c : Nat) (m : Cmd) (b : Bound) (s t : State) : Prop where
  others : OthersKept c m.seq s t
  cmd : ∃ m', getCmd t c m.seq = some m' ∧ m'.phase = .issued ∧ m'.issued = true ∧ m'.entry = m.entry ∧
    m'.stamp = m.stamp ∧ m'.bound.objs = b.objs ∧ m'.bound.newObj = b.newObj ∧ m'.bound.forms = b.forms

theorem issues_modCmd (b : Bound) (hm : getCmd s c m.seq = some m) :
    Issues c m b s (modCmd c m.seq (fun x => { x with phase := .issued, issued := true, bound := b }) s) :=
  ⟨othersKept_modCmd s _ fun _ => rfl, _, getCmd_modCmd_same
    (fun x => { x with phase := .issued, issued := true, bound := b }) (fun _ => rfl) hm,
    rfl, rfl, rfl, rfl, rfl, rfl, rfl⟩

theorem Issues.near {b : Bound} (issues : Issues c m b s t) (near : Near c t u) : Issues c m b s u := by
  refine ⟨issues.others.trans (near.othersKept _), ?_⟩
  rw [near.getCmd]
  exact issues.cmd

/-- An issued command takes a draw or leaves: nothing else that its checks bound changes. -/
theorem Issues.modBound {b : Bound} (issues : Issues c m b s t) (f : Bound → Bound)
    (keeps : ∀ x, (f x).objs = x.objs ∧ (f x).newObj = x.newObj ∧ (f x).forms = x.forms) :
    Issues c m b s (modCmd c m.seq (fun x => { x with bound := f x.bound }) t) := by
  obtain ⟨m', found, phase, issued, entry, stamp, objs, newObj, forms⟩ := issues.cmd
  obtain ⟨sameObjs, sameNew, sameForms⟩ := keeps m'.bound
  exact ⟨issues.others.trans (othersKept_modCmd t _ fun _ => rfl), _,
    getCmd_modCmd_same (fun x => { x with bound := f x.bound }) (fun _ => rfl) found, phase, issued, entry, stamp,
    sameObjs.trans objs, sameNew.trans newObj, sameForms.trans forms⟩

theorem Issues.takeDraw {b : Bound} (issues : Issues c m b s t) (sid : Nat) :
    Issues c m b s (takeDraw c m.seq sid t) :=
  (issues.near ((Near.refl t).modCtx _)).modBound (fun x => { x with draw := _, cbase := _ }) fun _ => ⟨rfl, rfl, rfl⟩

theorem near_takeLeaves (c n : Nat) (s : State) : Near c s (takeLeaves c n s).2 :=
  (Near.refl s).of_keeps (keeps_takeLeaves rfl (.refl s) (List.Subset.refl _))

theorem Issues.issueKvAppend {b : Bound} (issues : Issues c m b s t) (e : Cmd) (seen : State) :
    Issues c m b s (issueKvAppend c m.seq e seen t) := by
  unfold Machine.issueKvAppend
  split
  · exact issues
  · exact (issues.near (near_takeLeaves c _ t)).modBound (fun x => { x with leaves := _ }) fun _ => ⟨rfl, rfl, rfl⟩

/-- A candidate that issues binds what its checks bound, and takes its draw and its leaves (R144, R198, R251). -/
theorem issues_issueCmd (b : Bound) (seen : State) (hm : getCmd s c m.seq = some m) :
    Issues c m b s (issueCmd c m b seen s) := by
  have issued := issues_modCmd b hm
  unfold issueCmd
  extract_lets s1 s2 s3 s4
  have drawn : Issues c m b s s2 := by
    unfold s2
    split
    · exact issued.takeDraw _
    · exact issued
  have formed : Issues c m b s s3 := drawn.near (near_fixForms (.refl s2) _)
  have appended : Issues c m b s s4 := by
    unfold s4
    split
    · exact formed.issueKvAppend m seen
    · exact formed
  exact appended.near (near_countIssue (.refl s4))

/-! ## An append without leaves -/

theorem haltAppend_ctx (c : Nat) (m : Cmd) (seq need : Nat) (s : State) (d : Nat) :
    (haltAppend c m seq need s).ctx d = (setSt c .blockedKv true s).ctx d := by
  unfold haltAppend
  dsimp only
  rw [(posted_postBoth ..).ctx, (posted_kvEvent ..).ctx, State.modPart2_ctx]

theorem near_haltAppend (c : Nat) (m : Cmd) (seq need : Nat) (s : State) : Near c s (haltAppend c m seq need s) := by
  have near : Near c s (setSt c .blockedKv true s) := (Near.refl s).modCtx _
  exact ⟨fun d other => (haltAppend_ctx ..).trans (near.others d other), by rw [haltAppend_ctx, near.cmds]⟩

/-- The context of an append without leaves is resident, in BLOCKED_KV (R200). -/
theorem haltAppend_reg (c : Nat) (m : Cmd) (seq need : Nat) (s : State) :
    ((haltAppend c m seq need s).ctx c).reg.res = true ∧ ((haltAppend c m seq need s).ctx c).reg.st = .blockedKv := by
  rw [haltAppend_ctx, setSt, State.modCtx_ctx_self]
  exact ⟨rfl, rfl⟩

theorem settle_res (c : Nat) (s : State) : ((settle c s).ctx c).reg.res = (s.ctx c).reg.res := by
  rw [settle_ctx_same]

/-- BLOCKED_KV lasts when a context is brought up to date (R379). -/
theorem settle_blockedKv (notMgmt : c ≠ 0) (blocked : (s.ctx c).reg.st = .blockedKv) :
    ((settle c s).ctx c).reg.st = .blockedKv := by
  rw [settle_st c s notMgmt, blocked]

/-! ## The decision -/

/-- What a decision does with a verdict, before the context is brought up to date. -/
def verdictAct (c : Nat) (m : Cmd) (seen s : State) : Verdict → State
  | .refuse r => refuseCmd c m r s
  | .empty => emptyCmd c m seen s
  | .issue b => issueCmd c m b seen s
  | .noPage seq need => haltAppend c m seq need s

theorem stopHolds_of_no_stop {p : Nat} (none : (s.part2 p).stopped = []) (c : Nat) (m : Cmd) :
    stopHolds s c m p = false := by
  unfold stopHolds
  rw [none]
  rfl

theorem decideCmd_waits (waits : brewWaits s c m = true) : decideCmd c m s = s := if_pos (.inr waits)

theorem decideCmd_acts (unstopped : c ≠ 0 → (s.part2 (s.ctx c).reg.part).stopped = [])
    (free : brewWaits s c m = false) :
    decideCmd c m s = settle c (verdictAct c m (seenBy s c) s (verdictOf s (seenBy s c) c m)) := by
  unfold decideCmd
  dsimp only
  rw [if_neg]
  · cases verdictOf s (seenBy s c) c m <;> rfl
  · rintro (⟨notMgmt, stops⟩ | waits)
    · rw [stopHolds_of_no_stop (unstopped notMgmt)] at stops
      cases stops
    · rw [free] at waits
      cases waits

/-- What became of the candidate m of context c under a verdict. -/
def DecidedAs (c : Nat) (m : Cmd) (t : State) : Verdict → Prop
  | .refuse r => getCmd t c m.seq = some { m with phase := .done, status := r.st.code, dw := r.dw.map w32 }
  | .empty => ∃ m', getCmd t c m.seq = some m' ∧ m' = m.emptied m'.bound.objs
  | .issue b => ∃ m', getCmd t c m.seq = some m' ∧ m'.phase = .issued ∧ m'.issued = true ∧ m'.entry = m.entry ∧
      m'.stamp = m.stamp ∧ m'.bound.objs = b.objs ∧ m'.bound.newObj = b.newObj ∧ m'.bound.forms = b.forms
  | .noPage _ _ => getCmd t c m.seq = some m ∧ (t.ctx c).reg.res = true ∧ (c ≠ 0 → (t.ctx c).reg.st = .blockedKv)

/-- A decision carries out its verdict and changes no other command of the context (R139). -/
theorem verdictAct_decides (seen : State) (hm : getCmd s c m.seq = some m) (v : Verdict) :
    OthersKept c m.seq s (verdictAct c m seen s v) ∧ DecidedAs c m (settle c (verdictAct c m seen s v)) v := by
  cases v with
  | refuse r => exact ⟨othersKept_refuseCmd .., (settle_getCmd ..).trans (getCmd_refuseCmd r hm)⟩
  | empty => exact ⟨othersKept_emptyCmd .., _, (settle_getCmd ..).trans (getCmd_emptyCmd seen hm), rfl⟩
  | issue b =>
    have issues := issues_issueCmd b seen hm
    refine ⟨issues.others, ?_⟩
    show ∃ m', getCmd (settle c _) c m.seq = some m' ∧ _
    rw [settle_getCmd]
    exact issues.cmd
  | noPage seq need =>
    have near := near_haltAppend c m seq need s
    obtain ⟨res, blocked⟩ := haltAppend_reg c m seq need s
    exact ⟨near.othersKept _, (settle_getCmd ..).trans ((near.getCmd ..).trans hm), (settle_res ..).trans res,
      fun notMgmt => settle_blockedKv notMgmt blocked⟩

/-! ## The row -/

theorem exec_issueDecision_mgmt (routable : s.pkg.unroutable = false) (cand : candOf s 0 = some m) :
    exec (.issueDecision 24) s = .next (decideCmd 0 m s) := by
  show execIssueDecision 24 s = _
  unfold execIssueDecision
  rw [routable, cand]
  rfl

/-- The state that a partition's sequencer decides in (R381, R382, R397): the waiting control writes have acted, and the
slice has been counted. -/
def decisionState (p : Nat) (s : State) : State :=
  let v := countHazard p (actControls p s)
  v.modPart2 p fun x => { x with slice := (choose v p).2.1, sliceLast := (choose v p).2.2 }

theorem exec_issueDecision_part {p : Nat} (routable : s.pkg.unroutable = false) (notMgmt : p ≠ 24)
    (defined : (s.part p).defd = true) (chosen : (choose (countHazard p (actControls p s)) p).1 = some c)
    (cand : candOf (decisionState p s) c = some m) :
    exec (.issueDecision p) s = .next (decideCmd c m (decisionState p s)) := by
  show execIssueDecision p s = _
  unfold execIssueDecision
  rw [routable, if_neg Bool.false_ne_true, if_neg notMgmt, if_pos defined]
  dsimp only
  rw [chosen]
  dsimp only
  unfold decisionState at cand ⊢
  dsimp only at cand ⊢
  rw [cand]

/-- Settles O40: the row decides the candidate in the state that its sequencer has brought about; the decision waits (log
48), or carries out its verdict. -/
theorem sequencersIssueOrRefuseTheirCandidate : Obligations.SequencersIssueOrRefuseTheirCandidate := by
  intro s u p c m routable place cand hm
  have exec_eq : exec (.issueDecision p) s = .next (decideCmd c m u) := by
    rcases place with ⟨rfl, rfl, rfl⟩ | ⟨notMgmt, _, defined, chosen, rfl, _⟩
    · exact exec_issueDecision_mgmt routable cand
    · exact exec_issueDecision_part routable notMgmt defined chosen cand
  have unstopped (notMgmt : c ≠ 0) : (u.part2 (u.ctx c).reg.part).stopped = [] := by
    rcases place with ⟨_, mgmt, _⟩ | ⟨_, _, _, _, _, none⟩
    · exact absurd mgmt notMgmt
    · exact none
  refine ⟨fun waits => by rw [exec_eq, decideCmd_waits waits], fun free => ?_⟩
  obtain ⟨kept, decided⟩ := verdictAct_decides (seenBy u c) hm (verdictOf u (seenBy u c) c m)
  have others := kept.trans (othersKept_settle c m.seq _)
  exact ⟨_, exec_eq.trans (congrArg _ (decideCmd_acts unstopped free)), others.cmds, others.ctxs, decided⟩

end Sys2Proof.Machine
end

section
/-! PROOF. Function slots (R158 to R160, R180): what writing a slot on the tiles of a slab leaves, what switching it on
the members of a partition leaves of each slab and tile, and how a load ends. -/

namespace Sys2Proof.Machine

open Sys2Proof

variable {s t : State} {c q n : Nat} {m : Cmd}

/-! ## A slot written on the tiles of a slab -/

theorem Slots.put_eq (v : Slots) (one : Bool) (slot : Nat) (b : SlotBank) : v.put one slot b =
    if one then { v with bank1 := v.bank1.set slot b } else { v with bank0 := v.bank0.set slot b } := by
  cases one <;> rfl

/-- One change of every tile of a list. -/
def State.modTiles2 (s : State) (l : List Nat) (f : Tile2 → Tile2) : State := forAll l (fun g t => t.modTile2 g f) s

theorem State.modTiles2_tile2 (s : State) {l : List Nat} (nodup : l.Nodup) (f : Tile2 → Tile2) (g : Nat) :
    (s.modTiles2 l f).tile2 g = if g ∈ l then f (s.tile2 g) else s.tile2 g :=
  forAll_pointwise State.tile2 (fun g t => t.modTile2 g f) (fun _ => f) (fun _ => True)
    (fun _ _ _ => State.modTile2_tile2_self ..) (fun _ _ _ other => State.modTile2_tile2_other _ _ other)
    (fun _ _ _ => trivial) l nodup s trivial g

theorem State.modTiles2_eq (s : State) (l : List Nat) (f : Tile2 → Tile2) :
    s.modTiles2 l f = { s with tiles2 := (s.modTiles2 l f).tiles2 } :=
  forAll_keeps (fun t => t = { s with tiles2 := t.tiles2 }) (fun g t => t.modTile2 g f) l
    (fun _ _ t same => by rw [same]; rfl) s rfl

theorem State.modTiles2_slab (s : State) (l : List Nat) (f : Tile2 → Tile2) (k : Nat) :
    (s.modTiles2 l f).slab k = s.slab k := by
  rw [State.modTiles2_eq]
  rfl

theorem State.modTiles2_ctx (s : State) (l : List Nat) (f : Tile2 → Tile2) (d : Nat) :
    (s.modTiles2 l f).ctx d = s.ctx d := by
  rw [State.modTiles2_eq]
  rfl

/-- Tiles and the vector registers of a slab written, and event bits of the slab set, besides an event. -/
theorem posted_vecWrite (l : List Nat) (f : Tile2 → Tile2) (n : Nat) (v : Vec) (e : Word) (s : State) :
    Posted ((s.modTiles2 l f).setSlab n { s.slab n with vec := { v with events := v.events ||| e } })
      (vecEvent n e ((s.modTiles2 l f).modSlab n fun x => { x with vec := v })) := by
  have posted := posted_vecEvent n e ((s.modTiles2 l f).modSlab n fun x => { x with vec := v })
  rwa [State.modSlab_modSlab, State.modSlab, State.modTiles2_slab] at posted

/-- A write of tiles and of a slab's vector registers, read back from what it left of the tiles. -/
theorem Posted.of_vecWrite {l : List Nat} {f : Tile2 → Tile2} {v : Vec}
    (posted : Posted ((s.modTiles2 l f).setSlab n { s.slab n with vec := v }) t) :
    Posted ({ s with tiles2 := t.tiles2 }.modSlab n fun x => { x with vec := v }) t := by
  rw [posted.tiles2]
  rw [State.modTiles2_eq] at posted
  exact posted

/-- A slab after a slot of it has been switched: its other bank is active and SLOT_LOADED is set (R159). -/
def Slab.switched (x : Slab) (slot : Nat) : Slab :=
  { x with vec := { x.vec with
      active := x.vec.active ^^^ BitVec.ofNat 8 (2 ^ slot), events := x.vec.events ||| 1 } }

/-- A tile of a slab after a load: the bank of the slot that was not active is the image (R159). -/
def Tile2.loaded (x : Tile2) (active : BitVec 8) (slot : Nat) (b : SlotBank) : Tile2 :=
  { x with slots := x.slots.put (!bit active.toNat slot) slot b }

/-- A slot is switched by a load of every tile at the slab's position and a change of the slab, besides an event. -/
theorem posted_switchSlot (slot : Nat) (b : SlotBank) (n : Nat) (s : State) :
    Posted ((s.modTiles2 (slabTiles (posOf s n)) fun x => x.loaded (s.slab n).vec.active slot b).setSlab n
      ((s.slab n).switched slot)) (switchSlot slot b n s) :=
  posted_vecWrite _ _ n { (s.slab n).vec with active := (s.slab n).vec.active ^^^ BitVec.ofNat 8 (2 ^ slot) } 1 s

theorem switchSlot_slab (slot : Nat) (b : SlotBank) (n : Nat) (s : State) (k : Nat) :
    (switchSlot slot b n s).slab k = if k = n then (s.slab n).switched slot else s.slab k := by
  rw [(posted_switchSlot slot b n s).slab, State.setSlab_slab, State.modTiles2_slab]

theorem switchSlot_tile2 (slot : Nat) (b : SlotBank) (n : Nat) (s : State) (g : Nat) :
    (switchSlot slot b n s).tile2 g = if g ∈ slabTiles (posOf s n) then
      (s.tile2 g).loaded (s.slab n).vec.active slot b else s.tile2 g := by
  rw [(posted_switchSlot slot b n s).tile2, State.setSlab_tile2, State.modTiles2_tile2 s (slabTiles_nodup _)]

theorem switchSlot_ctx (slot : Nat) (b : SlotBank) (n : Nat) (s : State) (d : Nat) :
    (switchSlot slot b n s).ctx d = s.ctx d := by
  rw [(posted_switchSlot slot b n s).ctx, State.setSlab_ctx, State.modTiles2_ctx]

theorem switchSlot_posOf (slot : Nat) (b : SlotBank) (n : Nat) (s : State) (k : Nat) :
    posOf (switchSlot slot b n s) k = posOf s k := by
  unfold posOf
  rw [switchSlot_slab]
  split
  · next same => rw [same]; rfl
  · rfl

/-! ## A slot switched on every member of a partition -/

/-- A member serves the position that it stands at (R28). -/
theorem serverOf_posOf {p : Nat} (member : n ∈ members s p) : serverOf s (posOf s n) = some n := by
  obtain ⟨pos, _, serves⟩ := List.mem_filterMap.1 member
  rw [posOf_server serves, serves]

/-- No two members share a tile. -/
theorem member_unique {p a g : Nat} (hn : n ∈ members s p) (ha : a ∈ members s p) (atN : g ∈ slabTiles (posOf s n))
    (atA : g ∈ slabTiles (posOf s a)) : a = n := by
  have same : posOf s a = posOf s n := (mem_slabTiles.1 atA).symm.trans (mem_slabTiles.1 atN)
  have serves := serverOf_posOf ha
  rw [same, serverOf_posOf hn] at serves
  exact (Option.some.inj serves).symm

/-- The slot switched on every slab of a list. -/
def switchSlots (l : List Nat) (slot : Nat) (b : SlotBank) (s : State) : State :=
  forAll l (fun n t => switchSlot slot b n t) s

theorem switchSlots_slab {l : List Nat} (nodup : l.Nodup) (slot : Nat) (b : SlotBank) (s : State) (k : Nat) :
    (switchSlots l slot b s).slab k = if k ∈ l then (s.slab k).switched slot else s.slab k :=
  forAll_pointwise State.slab (switchSlot slot b) (fun _ x => x.switched slot) (fun _ => True)
    (fun n t _ => (switchSlot_slab slot b n t n).trans (if_pos rfl))
    (fun n k t other => (switchSlot_slab slot b n t k).trans (if_neg other)) (fun _ _ _ => trivial) l nodup s trivial k

theorem switchSlots_ctx (l : List Nat) (slot : Nat) (b : SlotBank) (s : State) (d : Nat) :
    (switchSlots l slot b s).ctx d = s.ctx d :=
  forAll_other (fun t => t.ctx d) (switchSlot slot b) l (fun n _ t => switchSlot_ctx slot b n t d) s

theorem switchSlots_posOf (l : List Nat) (slot : Nat) (b : SlotBank) (s : State) (k : Nat) :
    posOf (switchSlots l slot b s) k = posOf s k :=
  forAll_other (fun t => posOf t k) (switchSlot slot b) l (fun n _ t => switchSlot_posOf slot b n t k) s

/-- A tile of no slab of the list keeps its banks: no switch moves a slab to another position. -/
theorem switchSlots_tile2_other {l : List Nat} {g : Nat} (slot : Nat) (b : SlotBank)
    (other : ∀ n ∈ l, g ∉ slabTiles (posOf s n)) : (switchSlots l slot b s).tile2 g = s.tile2 g := by
  refine (forAll_keeps (fun t => (∀ k, posOf t k = posOf s k) ∧ t.tile2 g = s.tile2 g) (switchSlot slot b) l
    (fun n inL t kept => ?_) s ⟨fun _ => rfl, rfl⟩).2
  obtain ⟨stays, same⟩ := kept
  refine ⟨fun k => (switchSlot_posOf slot b n t k).trans (stays k), ?_⟩
  rw [switchSlot_tile2, stays, if_neg (other n inL), same]

/-- A tile of one slab of the list alone is loaded once, by that slab's active banks. -/
theorem switchSlots_tile2_self {l : List Nat} {g : Nat} (slot : Nat) (b : SlotBank) (nodup : l.Nodup) (inL : n ∈ l)
    (self : g ∈ slabTiles (posOf s n)) (unique : ∀ a ∈ l, g ∈ slabTiles (posOf s a) → a = n) :
    (switchSlots l slot b s).tile2 g = (s.tile2 g).loaded (s.slab n).vec.active slot b := by
  obtain ⟨before, after, rfl⟩ := List.append_of_mem inL
  obtain ⟨nodupBefore, nodupRest, apart⟩ := List.nodup_append.1 nodup
  have notBefore : n ∉ before := fun h => apart n h n List.mem_cons_self rfl
  have notAfter : n ∉ after := (List.nodup_cons.1 nodupRest).1
  have parts : switchSlots (before ++ n :: after) slot b s =
      switchSlots after slot b (switchSlot slot b n (switchSlots before slot b s)) := by
    unfold switchSlots forAll
    rw [List.foldl_append, List.foldl_cons]
  have untouched : (switchSlots before slot b s).tile2 g = s.tile2 g := by
    refine switchSlots_tile2_other slot b fun a ha atA => notBefore ?_
    rwa [← unique a (List.mem_append_left _ ha) atA]
  rw [parts, switchSlots_tile2_other, switchSlot_tile2, switchSlots_posOf, if_pos self, untouched,
    switchSlots_slab nodupBefore, if_neg notBefore]
  intro a ha atA
  rw [switchSlot_posOf, switchSlots_posOf] at atA
  rw [unique a (List.mem_append_right _ (List.mem_cons_of_mem _ ha)) atA] at ha
  exact notAfter ha

/-! ## The end of a load -/

/-- A load that may switch now: it waits, the host link has no failover, and no command is bound to the bank that it
writes and no copy of slots runs (R159, R161, R369). -/
structure LoadMaySwitch (c q : Nat) (m : Cmd) (s : State) : Prop where
  found : getCmd s c q = some m
  acted : m.phase = .acted
  opcode : m.opcode = 0x06
  idle : s.pcie.phase = .idle
  unbound : boundInactive s (s.ctx c).reg.part (m.fb 0x10 0 3)
    (s.slab (seqSlab s (s.ctx c).reg.part)).vec.active = false
  still : slotCopyBusy s (s.ctx c).reg.part = false

/-- The words of a load's image in host memory (R158). -/
def Cmd.slotImage (m : Cmd) (s : State) (c : Nat) : List Nat :=
  (List.range 288).map fun i => ofBytes (hostRead s (s.ctx c).reg.func (m.f 0x18 64 + 8 * i) 8)

/-- A load that has been switched on every member and has ended (R159). -/
def loadSwitched (c q : Nat) (m : Cmd) (s : State) : State :=
  finish c q .ok [] (switchSlots (members s (s.ctx c).reg.part) (m.fb 0x10 0 3) (imageBank (m.slotImage s c)) s)

theorem acted?_eq_some {op : Nat} (found : getCmd s c q = some m) (acted : m.phase = .acted) (opcode : m.opcode = op) :
    acted? s c q op = some m := by
  unfold acted?
  rw [found]
  exact if_pos ⟨acted, opcode⟩

/-- How a load that may switch ends (R159): by what its image reads as. -/
def loadEnd (c q : Nat) (m : Cmd) (s : State) : State :=
  if hostFails s (s.ctx c).reg.func (m.f 0x18 64) 2304 then
    let fa := hostFailAddr s (s.ctx c).reg.func (m.f 0x18 64) 2304
    finish c q .hostmem [fa % 2 ^ 32, fa / 2 ^ 32] s
  else match imageFault ((m.slotImage s c).take 32) with
    | some o => finish c q .cmd (structRef .cmd 0xFFFF o).dw s
    | none => loadSwitched c q m s

theorem LoadMaySwitch.exec_eq (may : LoadMaySwitch c q m s) :
    exec (.vecLoadSwitch c q) s = .next (loadEnd c q m s) := by
  show execVecLoadSwitch c q s = _
  unfold execVecLoadSwitch
  rw [acted?_eq_some may.found may.acted may.opcode]
  dsimp only
  rw [if_neg (by rw [may.idle, may.unbound, may.still]; decide)]
  unfold loadEnd
  split
  · rfl
  · unfold Cmd.slotImage
    cases imageFault (((List.range 288).map fun i =>
      ofBytes (hostRead s (s.ctx c).reg.func (m.f 0x18 64 + 8 * i) 8)).take 32) <;> rfl

theorem loadEnd_unread (fails : hostFails s (s.ctx c).reg.func (m.f 0x18 64) 2304 = true) : loadEnd c q m s =
    finish c q .hostmem [hostFailAddr s (s.ctx c).reg.func (m.f 0x18 64) 2304 % 2 ^ 32,
      hostFailAddr s (s.ctx c).reg.func (m.f 0x18 64) 2304 / 2 ^ 32] s := if_pos fails

theorem loadEnd_faulty {o : Nat} (reads : hostFails s (s.ctx c).reg.func (m.f 0x18 64) 2304 = false)
    (fault : imageFault ((m.slotImage s c).take 32) = some o) :
    loadEnd c q m s = finish c q .cmd (structRef .cmd 0xFFFF o).dw s := by
  rw [loadEnd, reads, fault]
  rfl

theorem loadEnd_sound (reads : hostFails s (s.ctx c).reg.func (m.f 0x18 64) 2304 = false)
    (sound : imageFault ((m.slotImage s c).take 32) = none) : loadEnd c q m s = loadSwitched c q m s := by
  rw [loadEnd, reads, sound]
  rfl

theorem loadSwitched_slab (nodup : (members s (s.ctx c).reg.part).Nodup) (k : Nat) :
    (loadSwitched c q m s).slab k =
      if k ∈ members s (s.ctx c).reg.part then (s.slab k).switched (m.fb 0x10 0 3) else s.slab k := by
  unfold loadSwitched
  rw [finish_eq]
  exact switchSlots_slab nodup _ _ s k

theorem loadSwitched_tile2 (g : Nat) : (loadSwitched c q m s).tile2 g =
    (switchSlots (members s (s.ctx c).reg.part) (m.fb 0x10 0 3) (imageBank (m.slotImage s c)) s).tile2 g := by
  unfold loadSwitched
  rw [finish_eq]
  rfl

theorem loadSwitched_ended (found : getCmd s c q = some m) : Ended (loadSwitched c q m s) c q .ok [] := by
  refine finish_ended (m := m) .ok [] ?_
  unfold getCmd
  rw [switchSlots_ctx]
  exact found

/-! ## VTBL_SLOPE -/

/-- The vector registers after VTBL_SLOPE was written: the slope is held and the next entry selected (R160, R180). -/
def Vec.slopeWritten (v : Vec) (value : Word) : Vec :=
  { v with
    vtblSlope := value, vtblSel := w32 (sh (bits v.vtblSel.toNat 8 3) 8 + (bits v.vtblSel.toNat 0 8 + 1) % 256) }

/-- The slot that VTBL_SEL selects (R160). -/
def Vec.selSlot (v : Vec) : Nat := bits v.vtblSel.toNat 8 3

/-- A tile after VTBL_SLOPE was written: the selected entry of the slot's active bank (R160). -/
def Tile2.entryPut (x : Tile2) (v : Vec) (value : Word) : Tile2 :=
  { x with
    slots := x.slots.put (bit v.active.toNat v.selSlot) v.selSlot
      ((x.slots.bank (bit v.active.toNat v.selSlot) v.selSlot).putEntry (bits v.vtblSel.toNat 0 8) v.vtblVal value) }

/-- The state after VTBL_SLOPE was written, but for the events posted. -/
def slopeWritten (n : Nat) (value : Word) (s : State) : State :=
  (s.modTiles2 (slabTiles (posOf s n)) fun x => x.entryPut (s.slab n).vec value).setSlab n { s.slab n with
    vec := { (s.slab n).vec.slopeWritten value with events := (s.slab n).vec.events ||| 2 } }

theorem slopeWritten_tile2 (n : Nat) (value : Word) (s : State) (g : Nat) : (slopeWritten n value s).tile2 g =
    if g ∈ slabTiles (posOf s n) then (s.tile2 g).entryPut (s.slab n).vec value else s.tile2 g := by
  rw [slopeWritten, State.setSlab_tile2, State.modTiles2_tile2 s (slabTiles_nodup _)]

theorem exec_vtblSlopeWrite {src : Src} (value : BitVec 32) (operator : isOperator s src = true)
    (live : coreLive s n = true) :
    ∃ t, exec (.vtblSlopeWrite src n value) s = .next t ∧ Posted (slopeWritten n value s) t :=
  ⟨_, if_pos (by rw [operator, live]; rfl),
    posted_vecWrite _ (fun x => x.entryPut (s.slab n).vec value) n ((s.slab n).vec.slopeWritten value) 2 s⟩

/-! ## The rows -/

/-- Settles O18: a load that may switch ends by what its image reads as; the switch is taken member by member, and no two
members share a tile. -/
theorem vectorSlotsAreLoadedAndWritten : Obligations.VectorSlotsAreLoadedAndWritten := by
  refine ⟨fun c q s m running opcode => ?_, fun c q s m found acted opcode idle unbound still => ?_,
    fun src n value s operator live => ?_⟩
  · refine ⟨_, ?_, acted_setActed (running?_getCmd running)⟩
    show execVecLoad c q s = _
    unfold execVecLoad
    rw [running]
    exact if_pos opcode
  · have may : LoadMaySwitch c q m s := ⟨found, acted, opcode, idle, unbound, still⟩
    intro ws k ms
    rw [may.exec_eq]
    refine ⟨fun fails => ⟨_, _, congrArg _ (loadEnd_unread fails), rfl, finished_finish _ _ found⟩,
      fun o reads fault => ⟨_, congrArg _ (loadEnd_faulty reads fault), finished_finish _ _ found⟩,
      fun reads sound inGrid => ?_⟩
    have nodup := members_nodup s (s.ctx c).reg.part inGrid
    refine ⟨_, congrArg _ (loadEnd_sound reads sound), loadSwitched_ended found, loadSwitched_slab nodup, ?_, ?_⟩
    · intro n member g atN z
      rw [loadSwitched_tile2, switchSlots_tile2_self _ _ nodup member atN fun a ha => member_unique member ha atN,
        Tile2.loaded, Slots.put_eq]
      cases bit (s.slab n).vec.active.toNat k <;> rfl
    · intro g other
      rw [loadSwitched_tile2, switchSlots_tile2_other _ _ other]
  · obtain ⟨t, answers, posted⟩ := exec_vtblSlopeWrite value operator live
    refine ⟨t, answers, fun g => ?_, ?_⟩
    · rw [posted.tile2, slopeWritten_tile2, Tile2.entryPut, Slots.put_eq]
      unfold Vec.selSlot
      cases bit (s.slab n).vec.active.toNat (bits (s.slab n).vec.vtblSel.toNat 8 3) <;> rfl
    · exact Posted.of_vecWrite posted

end Sys2Proof.Machine
end

section
/-! PROOF. The basic controls (R205, R397, R408): each sets one register of its context's partition, at its own row (log
47), and ends OK. -/

namespace Sys2Proof.Machine

open Sys2Proof

/-- A field of a field is a field. -/
theorem bits_bits (v p n q w : Nat) (inside : q + w ≤ n) : bits (bits v p n) q w = bits v (p + q) w := by
  have outer : bits v p n = (v >>> p) % 2 ^ n := rfl
  rw [outer, bits_mod _ _ _ _ inside]
  unfold bits
  rw [Nat.shiftRight_add]

/-- The bits of a byte field of an entry, from its own bit `lo`. -/
theorem Cmd.bits_f (m : Cmd) (off n lo w : Nat) (inside : lo + w ≤ n) : bits (m.f off n) lo w = m.fb off lo w :=
  bits_bits _ _ _ _ _ inside

/-- SCHED_CTRL from the command's own fields: EVICT_LC, and EVAC_WAIT with 1 for 0 (R408). -/
theorem schedCtrlVal_f (m : Cmd) : schedCtrlVal (m.f 0x10 32) = w32 (2 ^ 31 * m.fb 0x10 31 1 + max 1 (m.f 0x10 16)) := by
  have evictLc : bits (m.f 0x10 32) 31 1 = m.fb 0x10 31 1 := m.bits_f _ _ _ _ (by decide)
  have evacWait : bits (m.f 0x10 32) 0 16 = m.f 0x10 16 := m.bits_f _ _ _ _ (by decide)
  rw [schedCtrlVal, patrolWord, evictLc, evacWait]

section
variable {s : State} {c q : Nat} {m : Cmd} (run : running? s c q = some m)
include run

/-- A command that ends after a change of one partition's registers has changed nothing else. -/
theorem finished_modPart (p : Nat) (f : Part → Part) (st : Status) (dw : List Nat) :
    Finished c q st dw (s.modPart p f) (finish c q st dw (s.modPart p f)) :=
  finished_finish st dw (show getCmd (s.modPart p f) c q = some m from running?_getCmd run)

theorem exec_kvSet (opcode : m.opcode = 0x46) : exec (.kvSet c q) s =
    .next (finish c q .ok [] (s.modPart (s.ctx c).reg.part fun p =>
      { p with kvReserve := BitVec.ofNat 24 (min (m.fb 0x18 0 24) p.leaves) })) := by
  show execKvSet c q s = _
  unfold execKvSet
  rw [run]
  exact if_pos opcode

theorem exec_schedSet (opcode : m.opcode = 0x5B) : exec (.schedSet c q) s =
    .next (finish c q .ok [] (s.modPart (s.ctx c).reg.part fun p =>
      { p with schedCtrl := w32 (2 ^ 31 * m.fb 0x10 31 1 + max 1 (m.f 0x10 16)) })) := by
  rw [← schedCtrlVal_f]
  show execSchedSet c q s = _
  unfold execSchedSet
  rw [run]
  exact if_pos opcode

end

/-- Settles O30: each row by its own lemma, and the end of a command after a change of its partition. -/
theorem basicControlsSetPartitionRegisters : Obligations.BasicControlsSetPartitionRegisters := fun _ _ _ _ run =>
  ⟨fun opcode => ⟨_, exec_kvSet run opcode, finished_modPart run _ _ _ _⟩,
    fun opcode => ⟨_, exec_schedSet run opcode, finished_modPart run _ _ _ _⟩⟩

end Sys2Proof.Machine
end

section
/-! PROOF. Keys and stream tables (R249, R250, R255): BREW_SEED, BREW_STREAM, and the key of a context that CTX_DEFINE
makes. -/

namespace Sys2Proof.Machine

open Sys2Proof

/-- Ending a command leaves every context its Brew key. -/
theorem OnlyCmds.key {c : Nat} {s t : State} (only : OnlyCmds c s t) (d : Nat) : (t.ctx d).key = (s.ctx d).key := by
  obtain ⟨own, others⟩ := only
  by_cases same : d = c
  · rw [same, own]
  · rw [others d same]

theorem OnlyCmds.streams {c : Nat} {s t : State} (only : OnlyCmds c s t) : (t.ctx c).streams = (s.ctx c).streams := by
  rw [only.1]

theorem newKey_ctx (c : Nat) (s : State) (d : Nat) : (newKey c s).ctx d = s.ctx d := rfl

/-! ## What the three commands make -/

/-- The state in which context c has the key of a seed and an empty stream table (R255). -/
def seeded (c : Nat) (seed : BitVec 64) (s : State) : State :=
  s.modCtx c fun x => { x with key := seedKey seed, streams := [] }

/-- The state in which context c has another stream table. -/
def withStreams (c : Nat) (l : List (Nat × Stream)) (s : State) : State := s.modCtx c fun x => { x with streams := l }

/-- The entry of the stream table that a BREW_STREAM gives (R255). -/
def Cmd.stream (m : Cmd) : Stream :=
  { next := w32 (m.f 0x18 32), cbase := BitVec.ofNat 64 (m.f 0x20 64), exhausted := false }

/-- A stream table after an action on the entry of a stream (R255). -/
def streamTable (action sid : Nat) (e : Stream) (l : List (Nat × Stream)) : List (Nat × Stream) :=
  match action with
  | 0 => aput l sid e
  | 1 => adel l sid
  | _ => []

/-- The context that a CTX_DEFINE makes (R377): one that was never used, with the registers of the body and the key of
seed 0. -/
def Cmd.definedCtx (m : Cmd) : Ctx :=
  { Ctx.init (m.f 0x10 16) with
    reg := { CtxReg.init with
      st := .loaded, lc := m.fb 0x15 0 1 == 1, part := m.fb 0x14 0 5, func := m.f 0x12 8, slot := m.fb 0x13 0 6,
      slice := m.f 0x16 16, quota := w32 (m.f 0x18 32) },
    key := seedKey 0 }

theorem aget_streamTable (sid : Nat) (e : Stream) (l : List (Nat × Stream)) (i : Nat) : ∀ action : Nat,
    aget (streamTable action sid e l) i =
      match action with
      | 0 => if i = sid then some e else aget l i
      | 1 => if i = sid then none else aget l i
      | _ => none
  | 0 => aget_aput l sid e i
  | 1 => aget_adel l sid i
  | _ + 2 => aget_nil i

/-- A command that ends after a change of its context's stream table leaves that table. -/
theorem finish_withStreams_streams (c q : Nat) (st : Status) (dw : List Nat) (l : List (Nat × Stream)) (s : State) :
    ((finish c q st dw (withStreams c l s)).ctx c).streams = l := by
  rw [(onlyCmds_finish ..).streams, withStreams, State.modCtx_ctx_self]

/-! ## The rows -/

section
variable {s : State} {c q : Nat} {m : Cmd} (run : running? s c q = some m)
include run

/-- A command that ends after a change of its context, but for the commands in flight, has changed nothing else. -/
theorem finished_modCtx (f : Ctx → Ctx) (kept : ∀ x, (f x).cmds = x.cmds) (st : Status) (dw : List Nat) :
    Finished c q st dw (s.modCtx c f) (finish c q st dw (s.modCtx c f)) := by
  have found : getCmd (s.modCtx c f) c q = some m := by
    rw [((Near.refl s).modCtx f kept).getCmd, running?_getCmd run]
  exact finished_finish st dw found

theorem finished_seeded (seed : BitVec 64) :
    Finished c q .ok [] (seeded c seed s) (finish c q .ok [] (seeded c seed s)) :=
  finished_modCtx run (fun x => { x with key := seedKey seed, streams := [] }) (fun _ => rfl) .ok []

theorem finished_withStreams (l : List (Nat × Stream)) :
    Finished c q .ok [] (withStreams c l s) (finish c q .ok [] (withStreams c l s)) :=
  finished_modCtx run (fun x => { x with streams := l }) (fun _ => rfl) .ok []

theorem exec_brewSeed (opcode : m.opcode = 0x48) :
    exec (.brewSeed c q) s = .next (finish c q .ok [] (seeded c (BitVec.ofNat 64 (m.f 0x18 64)) s)) := by
  show execBrewSeed c q s = _
  unfold execBrewSeed
  rw [run]
  exact if_pos opcode

theorem exec_brewStream (opcode : m.opcode = 0x49) : exec (.brewStream c q) s = .next (finish c q .ok []
    (withStreams c (streamTable (m.fb 0x14 0 2) (m.f 0x10 32) m.stream (s.ctx c).streams) s)) := by
  show execBrewStream c q s = _
  unfold execBrewStream
  rw [run]
  exact if_pos opcode

theorem exec_ctxDefine (opcode : m.opcode = 0x50) : exec (.ctxDefine c q) s =
    .next (finish c q .ok [] (newKey (m.f 0x10 16) (s.setCtx (m.f 0x10 16) m.definedCtx))) := by
  show execCtxDefine c q s = _
  unfold execCtxDefine
  rw [run]
  exact if_pos opcode

/-- A context that CTX_DEFINE makes has the key of seed 0, be it even the command's own (R249). -/
theorem exec_ctxDefine_key (opcode : m.opcode = 0x50) :
    ∃ t, exec (.ctxDefine c q) s = .next t ∧ (t.ctx (m.f 0x10 16)).key = seedKey 0 := by
  refine ⟨_, exec_ctxDefine run opcode, ?_⟩
  rw [(onlyCmds_finish ..).key, newKey_ctx, State.setCtx_ctx_self, Cmd.definedCtx]

end

/-- Settles O13: the key K of the statement is the model's `seedKey`, and each row has its own lemma. -/
theorem seedsMakeTheKey : Obligations.SeedsMakeTheKey := fun _ _ _ _ run =>
  ⟨fun opcode => ⟨_, exec_brewSeed run opcode, finished_seeded run _⟩, exec_ctxDefine_key run⟩

/-- Settles O14: the command ends with the table that its action makes of the old one. -/
theorem brewStreamSetsOrDropsEntries : Obligations.BrewStreamSetsOrDropsEntries := by
  intro c q s m run opcode
  refine ⟨_, exec_brewStream run opcode, fun i => ?_, ?_⟩
  · rw [finish_withStreams_streams]
    exact aget_streamTable _ m.stream _ i _
  · rw [finish_withStreams_streams]
    exact finished_withStreams run _

end Sys2Proof.Machine
end

section
/-! PROOF. What a step keeps: every row yields a state that keeps what `Keeps` names, but for the parts that it lists,
and so does a step. -/

namespace Sys2Proof.Machine

open Sys2Proof

-- Proofs one after another: the package compiles as one text under a memory limit.
set_option Elab.async false

/-- Every row answers a state that has the queue of `s`, is canonical if `s` is, has lost nothing that lasts, and is `s`
but for the parts that the row lists: by the row's own lemma under Laws. -/
theorem yields_exec (i : Instr) (s : State) : Yields (touched i) s (exec i s) :=
  match i with
  | .nop c q => keeps_execNop (.refl s) c q (List.Subset.refl _)
  | .descCreate c q => keeps_execDescCreate (.refl s) c q (List.Subset.refl _)
  | .descDestroy c q => keeps_execDescDestroy (.refl s) c q (List.Subset.refl _)
  | .descRelease c q => keeps_execDescRelease (.refl s) c q (List.Subset.refl _)
  | .epiCreate c q => keeps_execEpiCreate (.refl s) c q (List.Subset.refl _)
  | .convCreate c q => keeps_execConvCreate (.refl s) c q (List.Subset.refl _)
  | .vecLoad c q => keeps_execVecLoad (.refl s) c q (List.Subset.refl _)
  | .vecLoadSwitch c q => keeps_execVecLoadSwitch (.refl s) c q (List.Subset.refl _)
  | .arraySet c q => keeps_execArraySet (.refl s) c q (List.Subset.refl _)
  | .matrixProduct c q => keeps_execMatrixProduct (.refl s) c q (List.Subset.refl _)
  | .infusion c q => keeps_execInfusion (.refl s) c q (List.Subset.refl _)
  | .conv c q => keeps_execConv (.refl s) c q (List.Subset.refl _)
  | .copy c q => keeps_execCopy (.refl s) c q (List.Subset.refl _)
  | .permutingCopy c q => keeps_execPermutingCopy (.refl s) c q (List.Subset.refl _)
  | .gather c q => keeps_execGather (.refl s) c q (List.Subset.refl _)
  | .scatter c q => keeps_execScatter (.refl s) c q (List.Subset.refl _)
  | .eltwise c q => keeps_execEltwise (.refl s) c q (List.Subset.refl _)
  | .rowstat c q => keeps_execRowstat (.refl s) c q (List.Subset.refl _)
  | .softmax c q => keeps_execSoftmax (.refl s) c q (List.Subset.refl _)
  | .pool c q => keeps_execPool (.refl s) c q (List.Subset.refl _)
  | .resample c q => keeps_execResample (.refl s) c q (List.Subset.refl _)
  | .cropResize c q => keeps_execCropResize (.refl s) c q (List.Subset.refl _)
  | .random c q => keeps_execRandom (.refl s) c q (List.Subset.refl _)
  | .strain c q => keeps_execStrain (.refl s) c q (List.Subset.refl _)
  | .allreduce c q peers => keeps_execAllreduce (.refl s) c q peers (List.Subset.refl _)
  | .reduceScatter c q peers => keeps_execReduceScatter (.refl s) c q peers (List.Subset.refl _)
  | .allgather c q peers => keeps_execAllgather (.refl s) c q peers (List.Subset.refl _)
  | .blend c q peers => keeps_execBlend (.refl s) c q peers (List.Subset.refl _)
  | .kvSeqCreate c q => keeps_execKvSeqCreate (.refl s) c q (List.Subset.refl _)
  | .kvAppend c q => keeps_execKvAppend (.refl s) c q (List.Subset.refl _)
  | .kvFork c q => keeps_execKvFork (.refl s) c q (List.Subset.refl _)
  | .kvTruncate c q => keeps_execKvTruncate (.refl s) c q (List.Subset.refl _)
  | .kvSeqFree c q => keeps_execKvSeqFree (.refl s) c q (List.Subset.refl _)
  | .kvReclaim c q => keeps_execKvReclaim (.refl s) c q (List.Subset.refl _)
  | .kvSet c q => keeps_execKvSet (.refl s) c q (List.Subset.refl _)
  | .brewSeed c q => keeps_execBrewSeed (.refl s) c q (List.Subset.refl _)
  | .brewStream c q => keeps_execBrewStream (.refl s) c q (List.Subset.refl _)
  | .bankOwn c q => keeps_execBankOwn (.refl s) c q (List.Subset.refl _)
  | .linkJob c q => keeps_execLinkJob (.refl s) c q (List.Subset.refl _)
  | .ctxDefine c q => keeps_execCtxDefine (.refl s) c q (List.Subset.refl _)
  | .ctxUndefine c q => keeps_execCtxUndefine (.refl s) c q (List.Subset.refl _)
  | .regionAlloc c q => keeps_execRegionAlloc (.refl s) c q (List.Subset.refl _)
  | .regionFree c q => keeps_execRegionFree (.refl s) c q (List.Subset.refl _)
  | .modelLoad c q => keeps_execModelLoad (.refl s) c q (List.Subset.refl _)
  | .modelUnload c q => keeps_execModelUnload (.refl s) c q (List.Subset.refl _)
  | .ctxSuspend c q => keeps_execCtxSuspend (.refl s) c q (List.Subset.refl _)
  | .ctxResume c q => keeps_execCtxResume (.refl s) c q (List.Subset.refl _)
  | .ctxSave c q => keeps_execCtxSave (.refl s) c q (List.Subset.refl _)
  | .ctxRestore c q => keeps_execCtxRestore (.refl s) c q (List.Subset.refl _)
  | .ctxReset c q => keeps_execCtxReset (.refl s) c q (List.Subset.refl _)
  | .schedSet c q => keeps_execSchedSet (.refl s) c q (List.Subset.refl _)
  | .vcOpen c q => keeps_execVcOpen (.refl s) c q (List.Subset.refl _)
  | .vcClose c q => keeps_execVcClose (.refl s) c q (List.Subset.refl _)
  | .vcEncode c q => keeps_execVcEncode (.refl s) c q (List.Subset.refl _)
  | .vcDecode c q => keeps_execVcDecode (.refl s) c q (List.Subset.refl _)
  | .vcRate c q => keeps_execVcRate (.refl s) c q (List.Subset.refl _)
  | .sqTail src page value cells => keeps_execSqTail (.refl s) src page value cells (List.Subset.refl _)
  | .cqHead src page value => keeps_execCqHead (.refl s) src page value (List.Subset.refl _)
  | .entryFetch c n => keeps_execEntryFetch (.refl s) c n (List.Subset.refl _)
  | .issueDecision p => keeps_execIssueDecision (.refl s) p (List.Subset.refl _)
  | .stagingFetchDone c q tile aAt bAt => keeps_execStagingFetchDone (.refl s) c q tile aAt bAt (List.Subset.refl _)
  | .commandComplete c q => keeps_execCommandComplete (.refl s) c q (List.Subset.refl _)
  | .ringEnable src page => keeps_execRingEnable (.refl s) src page (List.Subset.refl _)
  | .ringDisable src page => keeps_execRingDisable (.refl s) src page (List.Subset.refl _)
  | .ringDrained c => keeps_execRingDrained (.refl s) c (List.Subset.refl _)
  | .ringAckContinue src page => keeps_execRingAckContinue (.refl s) src page (List.Subset.refl _)
  | .ringAckFlush src page => keeps_execRingAckFlush (.refl s) src page (List.Subset.refl _)
  | .cqIrqTimeout r => keeps_execCqIrqTimeout (.refl s) r (List.Subset.refl _)
  | .evqEnable src func => keeps_execEvqEnable (.refl s) src func (List.Subset.refl _)
  | .evqHead src func value => keeps_execEvqHead (.refl s) src func value (List.Subset.refl _)
  | .pcieConfigWrite func w => keeps_execPcieConfigWrite (.refl s) func w (List.Subset.refl _)
  | .pcieFailover t => keeps_execPcieFailover (.refl s) t (List.Subset.refl _)
  | .failoverSwitch => keeps_execFailoverSwitch (.refl s) (List.Subset.refl _)
  | .failoverLinkUp speed width => keeps_execFailoverLinkUp (.refl s) speed width (List.Subset.refl _)
  | .ctxAdmit p => keeps_execCtxAdmit (.refl s) p (List.Subset.refl _)
  | .swapOutDone c => keeps_execSwapOutDone (.refl s) c (List.Subset.refl _)
  | .swapInDone c => keeps_execSwapInDone (.refl s) c (List.Subset.refl _)
  | .sliceExpire p => keeps_execSliceExpire (.refl s) p (List.Subset.refl _)
  | .ctxControlSuspend src page => keeps_execCtxControlSuspend (.refl s) src page (List.Subset.refl _)
  | .ctxControlResume src page => keeps_execCtxControlResume (.refl s) src page (List.Subset.refl _)
  | .tileHang gtid => keeps_execTileHang (.refl s) gtid (List.Subset.refl _)
  | .preFailureWarning slab => keeps_execPreFailureWarning (.refl s) slab (List.Subset.refl _)
  | .plannedCoreRetirement slab => keeps_execPlannedCoreRetirement (.refl s) slab (List.Subset.refl _)
  | .evacWaitExpire slab => keeps_execEvacWaitExpire (.refl s) slab (List.Subset.refl _)
  | .spareSelfTest slab pass => keeps_execSpareSelfTest (.refl s) slab pass (List.Subset.refl _)
  | .rampUp gtid cut => keeps_execRampUp (.refl s) gtid cut (List.Subset.refl _)
  | .rampPhaseEnd gtid cycles => keeps_execRampPhaseEnd (.refl s) gtid cycles (List.Subset.refl _)
  | .rampDown gtid cut => keeps_execRampDown (.refl s) gtid cut (List.Subset.refl _)
  | .throttlePeriod slab acts => keeps_execThrottlePeriod (.refl s) slab acts (List.Subset.refl _)
  | .shadowSwap gtid counted => keeps_execShadowSwap (.refl s) gtid counted (List.Subset.refl _)
  | .tileClockGate gtid => keeps_execTileClockGate (.refl s) gtid (List.Subset.refl _)
  | .arrayCtrlWrite src slab value => keeps_execArrayCtrlWrite (.refl s) src slab value (List.Subset.refl _)
  | .powerLimitWrite src value => keeps_execPowerLimitWrite (.refl s) src value (List.Subset.refl _)
  | .powerSample watts v12 v48 => keeps_execPowerSample (.refl s) watts v12 v48 (List.Subset.refl _)
  | .powerRateRaise => keeps_execPowerRateRaise (.refl s) (List.Subset.refl _)
  | .vtblSlopeWrite src slab value => keeps_execVtblSlopeWrite (.refl s) src slab value (List.Subset.refl _)
  | .kvReserveWrite src p value => keeps_execKvReserveWrite (.refl s) src p value (List.Subset.refl _)
  | .kvClearMin src p => keeps_execKvClearMin (.refl s) src p (List.Subset.refl _)
  | .labFlush src slab => keeps_execLabFlush (.refl s) src slab (List.Subset.refl _)
  | .winClearPeak src => keeps_execWinClearPeak (.refl s) src (List.Subset.refl _)
  | .aqClear src page => keeps_execAqClear (.refl s) src page (List.Subset.refl _)
  | .bankOwnWrite src gtid bank value => keeps_execBankOwnWrite (.refl s) src gtid bank value (List.Subset.refl _)
  | .hostWindowRead src gtid bank view a len found =>
    keeps_execHostWindowRead (.refl s) src gtid bank view a len found (List.Subset.refl _)
  | .hostWindowWrite src gtid bank view a data found =>
    keeps_execHostWindowWrite (.refl s) src gtid bank view a data found (List.Subset.refl _)
  | .aliasSetWrite src gtid bank a data found =>
    keeps_execAliasSetWrite (.refl s) src gtid bank a data found (List.Subset.refl _)
  | .aliasClearWrite src gtid bank a data found =>
    keeps_execAliasClearWrite (.refl s) src gtid bank a data found (List.Subset.refl _)
  | .iadd src gtid bank view a len operand found =>
    keeps_execIadd (.refl s) src gtid bank view a len operand found (List.Subset.refl _)
  | .fadd src gtid bank a len operand found =>
    keeps_execFadd (.refl s) src gtid bank a len operand found (List.Subset.refl _)
  | .swap src gtid bank view a len compare operand found =>
    keeps_execSwap (.refl s) src gtid bank view a len compare operand found (List.Subset.refl _)
  | .patinaCtrlWrite src slab value => keeps_execPatinaCtrlWrite (.refl s) src slab value (List.Subset.refl _)
  | .patinaRegionStart slab found => keeps_execPatinaRegionStart (.refl s) slab found (List.Subset.refl _)
  | .tileRetirement gtid => keeps_execTileRetirement (.refl s) gtid (List.Subset.refl _)
  | .tileRetireCopyDone gtid => keeps_execTileRetireCopyDone (.refl s) gtid (List.Subset.refl _)
  | .wakeClearDone slab => keeps_execWakeClearDone (.refl s) slab (List.Subset.refl _)
  | .packetDeliver header q body found => keeps_execPacketDeliver (.refl s) header q body found (List.Subset.refl _)
  | .hbmScrubWrite src slab value => keeps_execHbmScrubWrite (.refl s) src slab value (List.Subset.refl _)
  | .hbmScrubPass slab corrected failed => keeps_execHbmScrubPass (.refl s) slab corrected failed (List.Subset.refl _)
  | .stackSubstitute p => keeps_execStackSubstitute (.refl s) p (List.Subset.refl _)
  | .flitReceive dst src inject r => keeps_execFlitReceive (.refl s) dst src inject r (List.Subset.refl _)
  | .transportResend slab tseq atomic dest =>
    keeps_execTransportResend (.refl s) slab tseq atomic dest (List.Subset.refl _)
  | .linkEnWrite src port en => keeps_execLinkEnWrite (.refl s) src port en (List.Subset.refl _)
  | .linkRetrainWrite src port => keeps_execLinkRetrainWrite (.refl s) src port (List.Subset.refl _)
  | .linkFrameRx port symbols => keeps_execLinkFrameRx (.refl s) port symbols (List.Subset.refl _)
  | .linkTrained port peerPort peerDigest peerEpoch =>
    keeps_execLinkTrained (.refl s) port peerPort peerDigest peerEpoch (List.Subset.refl _)
  | .linkTrainingTimeout port => keeps_execLinkTrainingTimeout (.refl s) port (List.Subset.refl _)
  | .linkPacketRx port vc header tagOk => keeps_execLinkPacketRx (.refl s) port vc header tagOk (List.Subset.refl _)
  | .hello c job tag => keeps_execHello (.refl s) c job tag (List.Subset.refl _)
  | .reply c job verified serial => keeps_execReply (.refl s) c job verified serial (List.Subset.refl _)
  | .finish c job verified serial peerWire peerEpoch =>
    keeps_execFinish (.refl s) c job verified serial peerWire peerEpoch (List.Subset.refl _)
  | .linkOpenTimeout c q => keeps_execLinkOpenTimeout (.refl s) c q (List.Subset.refl _)
  | .collTimeout c q => keeps_execCollTimeout (.refl s) c q (List.Subset.refl _)
  | .vcFrameStart core => keeps_execVcFrameStart (.refl s) core (List.Subset.refl _)
  | .vcPieceDone core => keeps_execVcPieceDone (.refl s) core (List.Subset.refl _)
  | .vcClaimTimeout core => keeps_execVcClaimTimeout (.refl s) core (List.Subset.refl _)
  | .vcReset src slab => keeps_execVcReset (.refl s) src slab (List.Subset.refl _)
  | .vcCoreResetDone slab => keeps_execVcCoreResetDone (.refl s) slab (List.Subset.refl _)
  | .vcFrameAssemble c stream => keeps_execVcFrameAssemble (.refl s) c stream (List.Subset.refl _)
  | .idRecord => keeps_execIdRecord (.refl s) (List.Subset.refl _)
  | .attest => keeps_execAttest (.refl s) (List.Subset.refl _)
  | .stageFw => keeps_execStageFw (.refl s) (List.Subset.refl _)
  | .stageArm => keeps_execStageArm (.refl s) (List.Subset.refl _)
  | .certAdd => keeps_execCertAdd (.refl s) (List.Subset.refl _)
  | .armApply => keeps_execArmApply (.refl s) (List.Subset.refl _)
  | .armRevert => keeps_execArmRevert (.refl s) (List.Subset.refl _)
  | .armReturn => keeps_execArmReturn (.refl s) (List.Subset.refl _)
  | .armCheck => keeps_execArmCheck (.refl s) (List.Subset.refl _)
  | .partitionSwitch p => keeps_execPartitionSwitch (.refl s) p (List.Subset.refl _)
  | .digestExchange p => keeps_execDigestExchange (.refl s) p (List.Subset.refl _)
  | .digestReplyTimeout p slab => keeps_execDigestReplyTimeout (.refl s) p slab (List.Subset.refl _)
  | .discordRepair p => keeps_execDiscordRepair (.refl s) p (List.Subset.refl _)
  | .meterPeriodTick m => keeps_execMeterPeriodTick (.refl s) m (List.Subset.refl _)
  | .mReadReq m => keeps_execMReadReq (.refl s) m (List.Subset.refl _)
  | .mirrorRequest m => keeps_execMirrorRequest (.refl s) m (List.Subset.refl _)
  | .meterSpacingEnd m => keeps_execMeterSpacingEnd (.refl s) m (List.Subset.refl _)
  | .meterPowerUp m => keeps_execMeterPowerUp (.refl s) m (List.Subset.refl _)
  | .meterPowerDown m => keeps_execMeterPowerDown (.refl s) m (List.Subset.refl _)
  | .sealChange coverClosed filmOk m => keeps_execSealChange (.refl s) coverClosed filmOk m (List.Subset.refl _)
  | .mPeriodWrite value => keeps_execMPeriodWrite (.refl s) value (List.Subset.refl _)
  | .meterPortWrite addr data => keeps_execMeterPortWrite (.refl s) addr data (List.Subset.refl _)
  | .meterPortRead len => keeps_execMeterPortRead (.refl s) len (List.Subset.refl _)
  | .mtrSnapReq src => keeps_execMtrSnapReq (.refl s) src (List.Subset.refl _)
  | .mirrorRecord => keeps_execMirrorRecord (.refl s) (List.Subset.refl _)
  | .mirrorTimeout => keeps_execMirrorTimeout (.refl s) (List.Subset.refl _)
  | .registerWrite src bar addr w => keeps_execRegisterWrite (.refl s) src bar addr w (List.Subset.refl _)
  | .aliasViewWrite src view addr value => keeps_execAliasViewWrite (.refl s) src view addr value (List.Subset.refl _)
  | .indDataAccess src write => keeps_execIndDataAccess (.refl s) src write (List.Subset.refl _)
  | .indirectTimeout src write => keeps_execIndirectTimeout (.refl s) src write (List.Subset.refl _)
  | .mgmtPrivateWrite data => keeps_execMgmtPrivateWrite (.refl s) data (List.Subset.refl _)
  | .mgmtPrivateRead => keeps_execMgmtPrivateRead (.refl s) (List.Subset.refl _)
  | .regAccess ind addr write => keeps_execRegAccess (.refl s) ind addr write (List.Subset.refl _)
  | .memAccess hbm addr write => keeps_execMemAccess (.refl s) hbm addr write (List.Subset.refl _)
  | .secStatus => keeps_execSecStatus (.refl s) (List.Subset.refl _)
  | .idcode => keeps_execIdcode (.refl s) (List.Subset.refl _)
  | .extest v => keeps_execExtest (.refl s) v (List.Subset.refl _)
  | .samplePreload v => keeps_execSamplePreload (.refl s) v (List.Subset.refl _)
  | .bypass bit => keeps_execBypass (.refl s) bit (List.Subset.refl _)
  | .coldPowerOn => keeps_execColdPowerOn (.refl s) (List.Subset.refl _)
  | .pwrOkFall => keeps_execPwrOkFall (.refl s) (List.Subset.refl _)
  | .vin48Brownout => keeps_execVin48Brownout (.refl s) (List.Subset.refl _)
  | .p12vStbyFall => keeps_execP12vStbyFall (.refl s) (List.Subset.refl _)
  | .sysResetAssert => keeps_execSysResetAssert (.refl s) (List.Subset.refl _)
  | .sysResetDeassert => keeps_execSysResetDeassert (.refl s) (List.Subset.refl _)
  | .perstAssert => keeps_execPerstAssert (.refl s) (List.Subset.refl _)
  | .perstDeassert speed width => keeps_execPerstDeassert (.refl s) speed width (List.Subset.refl _)
  | .hotReset => keeps_execHotReset (.refl s) (List.Subset.refl _)
  | .secondaryBusReset => keeps_execSecondaryBusReset (.refl s) (List.Subset.refl _)
  | .linkDisable => keeps_execLinkDisable (.refl s) (List.Subset.refl _)
  | .pfFlr => keeps_execPfFlr (.refl s) (List.Subset.refl _)
  | .vfFlr n => keeps_execVfFlr (.refl s) n (List.Subset.refl _)
  | .vfEnableClear => keeps_execVfEnableClear (.refl s) (List.Subset.refl _)
  | .warm src => keeps_execWarm (.refl s) src (List.Subset.refl _)
  | .preset src p => keeps_execPreset (.refl s) src p (List.Subset.refl _)
  | .stby src => keeps_execStby (.refl s) src (List.Subset.refl _)
  | .pwrSlabOffWrite src word value => keeps_execPwrSlabOffWrite (.refl s) src word value (List.Subset.refl _)
  | .slabPwr slab pass => keeps_execSlabPwr (.refl s) slab pass (List.Subset.refl _)
  | .thermalSample slab tiles stack => keeps_execThermalSample (.refl s) slab tiles stack (List.Subset.refl _)
  | .thermalRateRaise slab tiles stack => keeps_execThermalRateRaise (.refl s) slab tiles stack (List.Subset.refl _)
  | .thermalTrip => keeps_execThermalTrip (.refl s) (List.Subset.refl _)
  | .oscFail which => keeps_execOscFail (.refl s) which (List.Subset.refl _)
  | .p12vStbyRise => keeps_execP12vStbyRise (.refl s) (List.Subset.refl _)
  | .standbyLost => keeps_execStandbyLost (.refl s) (List.Subset.refl _)
  | .vcCoreFault core => keeps_execVcCoreFault (.refl s) core (List.Subset.refl _)
  | .patinaRegionDone gtid bank failLines =>
    keeps_execPatinaRegionDone (.refl s) gtid bank failLines (List.Subset.refl _)

/-- The queue is no part of the canonical form. -/
theorem canonical_withPending {s : State} (canonical : s.Canonical) (r : List Instr) :
    ({ s with pending := r } : State).Canonical := { canonical with }

/-- Settles O5: an empty queue idles, and the command at the front of any other keeps the canonical form as every row
does. -/
theorem stepKeepsCanonicalForm : Obligations.StepKeepsCanonicalForm := by
  intro s t canonical stepped
  unfold step at stepped
  split at stepped
  · cases stepped
    exact canonical
  · next i r queue =>
    exact ((yields_exec i _).keeps stepped).canonical (canonical_withPending canonical r)

end Sys2Proof.Machine
end

section
/-! PROOF. The background test of banks (R277 to R281, R286): what starting a region leaves of every bank, what a failing
line leaves of its bank, and when a sweep counts. -/

namespace Sys2Proof.Machine

open Sys2Proof

-- Proofs one after another: the package compiles as one text under a memory limit.
set_option Elab.async false

variable {s : State} {n g k r : Nat}

/-! ## A region starts -/

/-- May the bank start a region: it neither tests one nor stays redirected (R279, R281)? -/
def Bank.StartsRegion (b : Bank) : Prop := b.testing = none ∧ b.redirectHeld = false

theorem Bank.startRegion_busy {b : Bank} (busy : ¬ b.StartsRegion) : b.startRegion = b := by
  refine if_pos ?_
  rw [Bank.StartsRegion, ← Option.isSome_eq_false_iff.trans Option.isNone_iff_eq_none] at busy
  revert busy
  cases b.testing.isSome <;> simp

theorem Bank.startRegion_ahead {b : Bank} {i : Nat} {l : List Nat} (starts : b.StartsRegion) (ahead : b.testNext = i :: l) :
    b.startRegion = { b with testing := some i, testNext := l } := by
  obtain ⟨idle, unheld⟩ := starts
  simp [Bank.startRegion, idle, unheld, ahead]

theorem Bank.startRegion_turn {b : Bank} (starts : b.StartsRegion) (ahead : b.testNext = []) :
    b.startRegion = { b with testing := some (b.turn % 320), turn := (b.turn + 1) % 320 } := by
  obtain ⟨idle, unheld⟩ := starts
  simp [Bank.startRegion, idle, unheld, ahead]

/-- The region that starts: the first that waits to be tested ahead of its turn, otherwise the next (R277, R279). -/
theorem Bank.startRegion_testing {b : Bank} (starts : b.StartsRegion) :
    b.startRegion.testing = some (b.testNext.headD (b.turn % 320)) := by
  cases ahead : b.testNext with
  | nil => rw [Bank.startRegion_turn starts ahead, List.headD_nil]
  | cons i l => rw [Bank.startRegion_ahead starts ahead, List.headD_cons]

/-- The banks of some tiles start their next regions. -/
def startRegions (tiles : List Nat) (s : State) : State :=
  forAll tiles (fun g t => forAll (List.range 4) (fun k t => t.modBank (bankIx g k) Bank.startRegion) t) s

theorem startRegions_bank {tiles : List Nat} (nodup : tiles.Nodup) (s : State) (g : Nat) (hk : k < 4) :
    (startRegions tiles s).bank (bankIx g k) =
      if g ∈ tiles then (s.bank (bankIx g k)).startRegion else s.bank (bankIx g k) := by
  refine forAll_pointwise (fun t h => t.bank (bankIx h k)) _ (fun _ => Bank.startRegion) (fun _ => True)
    (fun h t _ => ?_) (fun h j t other => ?_) (fun _ _ _ => trivial) tiles nodup s trivial g
  · exact (tileBanks_bank (fun _ => Bank.startRegion) h t h k hk).trans (if_pos rfl)
  · exact (tileBanks_bank (fun _ => Bank.startRegion) h t j k hk).trans (if_neg other)

theorem startRegions_eq (tiles : List Nat) (s : State) :
    startRegions tiles s = { s with banks := (startRegions tiles s).banks } := by
  refine forAll_keeps (fun t => t = { s with banks := t.banks }) _ tiles (fun h _ t only => ?_) s rfl
  refine forAll_keeps (fun t => t = { s with banks := t.banks }) _ (List.range 4) (fun j _ t only => ?_) t only
  rw [only]
  rfl

theorem startRegions_slab2 (tiles : List Nat) (s : State) (n : Nat) : (startRegions tiles s).slab2 n = s.slab2 n :=
  congrArg (·.slab2 n) (startRegions_eq tiles s)

/-- The slab's registers after a region has started (R279, R286). -/
def Slab2.nextRegion (x : Slab2) : Slab2 :=
  { x with
    patinaPos := x.patinaNext % 320, patinaNext := (x.patinaNext % 320 + 1) % 320, sweepOpen := x.patinaNext % 320 == 319,
    patinaSweeps := if x.sweepOpen = true then x.patinaSweeps + 1 else x.patinaSweeps }

/-- The state in which slab n's banks have started their next regions, before what their copies find. -/
def regionStarted (n : Nat) (s : State) : State :=
  startRegions (slabTiles (posOf s n)) (s.modSlab2 n Slab2.nextRegion)

theorem regionStarted_slab2 (n : Nat) (s : State) : (regionStarted n s).slab2 n = (s.slab2 n).nextRegion :=
  (startRegions_slab2 ..).trans (State.modSlab2_slab2_self ..)

theorem regionStarted_bank (n : Nat) (s : State) (g : Nat) (hk : k < 4) : (regionStarted n s).bank (bankIx g k) =
    if g ∈ slabTiles (posOf s n) then (s.bank (bankIx g k)).startRegion else s.bank (bankIx g k) :=
  startRegions_bank (slabTiles_nodup _) (s.modSlab2 n Slab2.nextRegion) g hk

theorem regionStarted_eq (n : Nat) (s : State) : regionStarted n s =
    { s with slabs2 := (regionStarted n s).slabs2, banks := (regionStarted n s).banks } := by
  have only := startRegions_eq (slabTiles (posOf s n)) (s.modSlab2 n Slab2.nextRegion)
  unfold regionStarted
  generalize startRegions (slabTiles (posOf s n)) (s.modSlab2 n Slab2.nextRegion) = u at only ⊢
  rw [only]
  rfl

theorem regionStarted_tile2 (n : Nat) (s : State) (g : Nat) : (regionStarted n s).tile2 g = s.tile2 g := by
  have tiles2 : (regionStarted n s).tiles2 = s.tiles2 := by rw [regionStarted_eq]
  rw [State.tile2, tiles2, State.tile2]

theorem exec_patinaRegionStart (live : s.live = true) (core : coreLive s n = true) (serves : inService s n = true)
    (on : bit (s.slab2 n).patinaCtrl.toNat 31 = true) (found : List (Nat × Nat × Nat × Bool)) :
    exec (.patinaRegionStart n found) s = .next (forAll (found.filter fun f =>
      (slabTiles (posOf s n)).contains f.1 && foundIn s (regionStarted n s) f) patinaFound (regionStarted n s)) := by
  show execPatinaRegionStart n found s = _
  unfold execPatinaRegionStart
  dsimp only
  rw [live, core, serves, on]
  rfl

theorem exec_patinaRegionStart_clean (live : s.live = true) (core : coreLive s n = true) (serves : inService s n = true)
    (on : bit (s.slab2 n).patinaCtrl.toNat 31 = true) : exec (.patinaRegionStart n []) s = .next (regionStarted n s) := by
  rw [exec_patinaRegionStart live core serves on, List.filter_nil, forAll, List.foldl_nil]

/-- A correctable line of the region that a bank starts is a finding of its copy (R277, R278). -/
theorem foundIn_regionStarted {line : Nat} (hk : k < 4) (tile : g ∈ slabTiles (posOf s n))
    (starts : (s.bank (bankIx g k)).StartsRegion)
    (here : (s.bank (bankIx g k)).testNext.headD ((s.bank (bankIx g k)).turn % 320) = line / 2) (bad : Bool) :
    foundIn s (regionStarted n s) (g, k, line, bad) = true := by
  unfold foundIn
  dsimp only
  rw [regionStarted_bank n s g hk, if_pos tile, Bank.startRegion_testing starts, here, starts.1]
  simp

theorem bankCorrected_eccCorr (g k line : Nat) (s : State) :
    ((bankCorrected g k line s).tile2 g).eccCorr = (s.tile2 g).eccCorr + 1 := by
  unfold bankCorrected
  rw [State.modBank_tile2, State.modTile2_tile2_self]

theorem exec_patinaRegionStart_found {line : Nat} (live : s.live = true) (core : coreLive s n = true)
    (serves : inService s n = true) (on : bit (s.slab2 n).patinaCtrl.toNat 31 = true) (hk : k < 4)
    (tile : g ∈ slabTiles (posOf s n)) (starts : (s.bank (bankIx g k)).StartsRegion)
    (here : (s.bank (bankIx g k)).testNext.headD ((s.bank (bankIx g k)).turn % 320) = line / 2) :
    exec (.patinaRegionStart n [(g, k, line, false)]) s = .next (bankCorrected g k line (regionStarted n s)) := by
  rw [exec_patinaRegionStart live core serves on, List.filter_cons_of_pos]
  · rfl
  · rw [foundIn_regionStarted hk tile starts here, Bool.and_true]
    exact List.contains_iff_mem.mpr tile

/-! ## A line fails -/

/-- What a failing line makes of its bank (R280, R281). -/
def Bank.lineFails (line : Nat) (b : Bank) : Bank :=
  if 642 ≤ line then { b with badSpares := b.badSpares.filter (· != line - 642) ++ [line - 642] }
  else
    match b.spares with
    | i :: _ => { b with
        spared := aput b.spared line i,
        badSpares := b.badSpares ++ (b.spared.filter fun e => e.1 == line).map Prod.snd }
    | [] => { b with redirectHeld := true }

theorem Bank.lineFails_corrected (line : Nat) (b : Bank) : (b.lineFails line).corrected = b.corrected := by
  unfold Bank.lineFails
  split
  · rfl
  · split <;> rfl

/-- An unusable spare line stays unusable. -/
theorem Bank.mem_badSpares_lineFails {i : Nat} {b : Bank} (bad : i ∈ b.badSpares) (line : Nat) :
    i ∈ (b.lineFails line).badSpares := by
  unfold Bank.lineFails
  split
  · by_cases same : i = line - 642 <;> simp [same, bad]
  · split
    · exact List.mem_append_left _ bad
    · exact bad

/-- A spare line that fails becomes unusable. -/
theorem Bank.lineFails_spare {line : Nat} (spare : 642 ≤ line) (b : Bank) : line - 642 ∈ (b.lineFails line).badSpares := by
  unfold Bank.lineFails
  rw [if_pos spare]
  simp

theorem Bank.foldl_lineFails_corrected (fails : List Nat) (b : Bank) :
    (fails.foldl (fun b l => b.lineFails l) b).corrected = b.corrected := by
  induction fails generalizing b with
  | nil => rfl
  | cons l fails ih => rw [List.foldl_cons, ih, Bank.lineFails_corrected]

theorem Bank.mem_badSpares_foldl_lineFails {i : Nat} (fails : List Nat) {b : Bank} (bad : i ∈ b.badSpares) :
    i ∈ (fails.foldl (fun b l => b.lineFails l) b).badSpares := by
  induction fails generalizing b with
  | nil => exact bad
  | cons l fails ih => exact ih (Bank.mem_badSpares_lineFails bad l)

theorem Bank.foldl_lineFails_spare {line : Nat} {fails : List Nat} (mem : line ∈ fails) (spare : 642 ≤ line) (b : Bank) :
    line - 642 ∈ (fails.foldl (fun b l => b.lineFails l) b).badSpares := by
  induction fails generalizing b with
  | nil => cases mem
  | cons l fails ih =>
    rcases List.mem_cons.mp mem with rfl | mem
    · exact Bank.mem_badSpares_foldl_lineFails fails (Bank.lineFails_spare spare b)
    · exact ih mem _

@[simp] theorem bankEvent_bank (n : Nat) (m : Word) (s : State) (j : Nat) : (bankEvent n m s).bank j = s.bank j :=
  (posted_bankEvent n m s).bank j

theorem bankEvent_slab2_self (n : Nat) (m : Word) (s : State) :
    (bankEvent n m s).slab2 n = { s.slab2 n with bankEvents := (s.slab2 n).bankEvents ||| m } := by
  rw [(posted_bankEvent n m s).slab2, State.modSlab2_slab2_self]

@[simp] theorem addStop_bank (p : Nat) (x : StopCause) (s : State) (j : Nat) : (addStop p x s).bank j = s.bank j := by
  unfold addStop
  split <;> rfl

theorem failLine_bank (n g k line : Nat) (s : State) :
    (failLine n g k line s).bank (bankIx g k) = (s.bank (bankIx g k)).lineFails line := by
  unfold failLine Bank.lineFails
  dsimp only
  split
  · exact State.setBank_bank_self ..
  · cases (s.bank (bankIx g k)).spares with
    | cons i l =>
      dsimp only
      rw [bankEvent_bank]
      exact State.setBank_bank_self ..
    | nil =>
      dsimp only
      split
      · rw [addStop_bank, bankEvent_bank, State.setBank_bank_self]
      · rw [bankEvent_bank, State.setBank_bank_self]

theorem failLines_bank (n g k : Nat) (fails : List Nat) (s : State) :
    (forAll fails (fun l t => failLine n g k l t) s).bank (bankIx g k) =
      fails.foldl (fun b l => b.lineFails l) (s.bank (bankIx g k)) := by
  unfold forAll
  induction fails generalizing s with
  | nil => rfl
  | cons l fails ih => rw [List.foldl_cons, ih, failLine_bank, List.foldl_cons]

/-- Where the sweep of slab n stands is the same in both states. -/
def SweepStays (n : Nat) (s t : State) : Prop :=
  (t.slab2 n).sweepOpen = (s.slab2 n).sweepOpen ∧ (t.slab2 n).patinaSweeps = (s.slab2 n).patinaSweeps

theorem SweepStays.of_slab2 {s t u : State} (stays : SweepStays n u t) (same : u.slab2 n = s.slab2 n) :
    SweepStays n s t := by
  unfold SweepStays at *
  rw [← same]
  exact stays

theorem sweepStays_bankEvent (n : Nat) (m : Word) (s : State) : SweepStays n s (bankEvent n m s) := by
  unfold SweepStays
  rw [bankEvent_slab2_self]
  exact ⟨rfl, rfl⟩

theorem sweepStays_failLine (n g k line : Nat) (s : State) : SweepStays n s (failLine n g k line s) := by
  unfold failLine
  extract_lets b bad t
  split
  · exact ⟨rfl, rfl⟩
  · split
    · exact (sweepStays_bankEvent n 8 _).of_slab2 rfl
    · have stays : SweepStays n s t := (sweepStays_bankEvent n 1 _).of_slab2 rfl
      split
      · unfold SweepStays
        rw [addStop_slab2]
        exact stays
      · exact stays

theorem sweepStays_failLines (n g k : Nat) (fails : List Nat) (s : State) :
    SweepStays n s (forAll fails (fun l t => failLine n g k l t) s) :=
  forAll_keeps (SweepStays n s) _ fails (fun l _ t stays =>
    let line := sweepStays_failLine n g k l t
    ⟨line.1.trans stays.1, line.2.trans stays.2⟩) s ⟨rfl, rfl⟩

theorem failLines_slab (n g k : Nat) (fails : List Nat) (s : State) (m : Nat) :
    (forAll fails (fun l t => failLine n g k l t) s).slab m = s.slab m :=
  Keeps.slab (F := [.env, .hostMem, .pcie, .arm, .slabs2, .banks, .parts2, .funcs])
    ((Keeps.refl s).forAll fails _ fun l _ kept => keeps_failLine kept n g k l (List.Subset.refl _)) m

/-! ## A region ends -/

theorem keeps_sweepEnds_self (n : Nat) (s : State) : Keeps [.slabs2] s (sweepEnds n s) :=
  keeps_sweepEnds (.refl s) n (List.Subset.refl _)

theorem sweepEnds_bank (n : Nat) (s : State) (j : Nat) : (sweepEnds n s).bank j = s.bank j :=
  congrArg (fun x => tget _ x j) ((keeps_sweepEnds_self n s).only .banks (by decide))

theorem sweepEnds_part2 (n : Nat) (s : State) (p : Nat) : (sweepEnds n s).part2 p = s.part2 p :=
  congrArg (fun x => tget _ x p) ((keeps_sweepEnds_self n s).only .parts2 (by decide))

/-- The last bank of a slab to end the last region counts the sweep (R286). -/
theorem sweepEnds_counts (last : (s.slab2 n).sweepOpen = true)
    (idle : ∀ h ∈ slabTiles (posOf s n), ∀ j, j < 4 → (s.bank (bankIx h j)).testing = none) :
    ((sweepEnds n s).slab2 n).patinaSweeps = (s.slab2 n).patinaSweeps + 1 := by
  have ended : ((slabTiles (posOf s n)).any fun h => (List.range 4).any fun j =>
      (s.bank (bankIx h j)).testing.isSome) = false := by
    simp only [List.any_eq_false, List.any_eq_true, not_exists, not_and, List.mem_range]
    intro h tile j hj
    simp [idle h tile j hj]
  unfold sweepEnds
  dsimp only
  rw [if_pos (by rw [last, ended]; rfl), State.modSlab2_slab2_self]

/-- The state in which bank k of tile g has tested region r, before its failing lines are dealt with (R278). -/
def regionTested (g k r : Nat) (s : State) : State :=
  s.modBank (bankIx g k) fun b => { b with testing := none, corrected := b.corrected.filter fun l => l / 2 != r }

theorem regionTested_bank_self (g k r : Nat) (s : State) : (regionTested g k r s).bank (bankIx g k) =
    { s.bank (bankIx g k) with
      testing := none, corrected := (s.bank (bankIx g k)).corrected.filter fun l => l / 2 != r } :=
  State.modBank_bank_self ..

/-- The state in which slab n's bank k of tile g has ended region r with some failing lines. -/
def regionEnded (n g k r : Nat) (fails : List Nat) (s : State) : State :=
  sweepEnds n (forAll fails (fun l t => failLine n g k l t) (regionTested g k r s))

theorem exec_patinaRegionDone (live : s.live = true) (served : serverOf s (g / 64) = some n)
    (tests : (s.bank (bankIx g k)).testing = some r) (fails : List Nat) :
    exec (.patinaRegionDone g k fails) s = .next (regionEnded n g k r fails s) := by
  show execPatinaRegionDone g k fails s = _
  unfold execPatinaRegionDone
  rw [live, served, tests]
  rfl

theorem regionEnded_bank_self (n g k r : Nat) (fails : List Nat) (s : State) :
    (regionEnded n g k r fails s).bank (bankIx g k) =
      fails.foldl (fun b l => b.lineFails l) ((regionTested g k r s).bank (bankIx g k)) := by
  rw [regionEnded, sweepEnds_bank, failLines_bank]

theorem regionEnded_bank_other (n g k r : Nat) (fails : List Nat) (s : State) {j : Nat} (other : j ≠ bankIx g k) :
    (regionEnded n g k r fails s).bank j = s.bank j := by
  obtain ⟨others, -, -, -⟩ := failLines_facts n g k false fails (regionTested g k r s)
  rw [regionEnded, sweepEnds_bank, others j other]
  exact State.modBank_bank_other _ _ other

theorem regionEnded_testing (n g k r : Nat) (fails : List Nat) (s : State) :
    ((regionEnded n g k r fails s).bank (bankIx g k)).testing = none := by
  obtain ⟨-, testing, -, -⟩ := failLines_facts n g k false fails (regionTested g k r s)
  rw [regionEnded, sweepEnds_bank, testing, regionTested_bank_self]

/-- Each failing line takes a spare line, and the region stays redirected where there were too few (R280, R281). -/
theorem regionEnded_spares {fails : List Nat} (lines : ∀ l ∈ fails, l < 642) (n g k r : Nat) (s : State) :
    ((regionEnded n g k r fails s).bank (bankIx g k)).spareLines = (s.bank (bankIx g k)).spareLines - fails.length ∧
    (((regionEnded n g k r fails s).bank (bankIx g k)).redirectHeld = true ↔
      (s.bank (bankIx g k)).redirectHeld = true ∨ (s.bank (bankIx g k)).spareLines < fails.length) := by
  obtain ⟨-, -, repaired, -⟩ := failLines_facts n g k false fails (regionTested g k r s)
  obtain ⟨spares, held⟩ := repaired lines
  have same : Bank.spares ((regionTested g k r s).bank (bankIx g k)) = (s.bank (bankIx g k)).spares := by
    rw [regionTested_bank_self]
    rfl
  rw [regionEnded, sweepEnds_bank, Bank.spareLines, Bank.spareLines, spares, held, same, List.length_drop,
    regionTested_bank_self, Bool.or_eq_true, decide_eq_true_iff]
  exact ⟨rfl, Iff.rfl⟩

/-- A bank whose region now stays redirected holds back its tile's work (R281, R282). -/
theorem regionEnded_stops {fails : List Nat} {p : Nat} (n r : Nat) (covers : partOf s (g / 64) = some p)
    (unheld : (s.bank (bankIx g k)).redirectHeld = false)
    (held : ((regionEnded n g k r fails s).bank (bankIx g k)).redirectHeld = true) :
    ((regionEnded n g k r fails s).part2 p).stopped.contains (.tileMove g) = true := by
  obtain ⟨-, -, -, stops⟩ := failLines_facts n g k false fails (regionTested g k r s)
  rw [regionEnded, sweepEnds_part2]
  rw [regionEnded, sweepEnds_bank] at held
  refine stops p covers (fun before => ?_) held rfl
  rw [regionTested_bank_self, unheld] at before
  cases before

/-- The last bank to end the sweep's last region counts the sweep (R286). -/
theorem regionEnded_sweep (r : Nat) (fails : List Nat) (hk : k < 4)
    (last : (s.slab2 n).sweepOpen = true) (idle : ∀ h ∈ slabTiles (posOf s n), ∀ j, j < 4 → (h, j) ≠ (g, k) →
      (s.bank (bankIx h j)).testing = none) :
    ((regionEnded n g k r fails s).slab2 n).patinaSweeps = (s.slab2 n).patinaSweeps + 1 := by
  obtain ⟨stillOpen, counted⟩ := sweepStays_failLines n g k fails (regionTested g k r s)
  have pos : posOf (forAll fails (fun l t => failLine n g k l t) (regionTested g k r s)) n = posOf s n := by
    unfold posOf
    rw [failLines_slab]
    rfl
  rw [regionEnded, sweepEnds_counts (stillOpen.trans last) fun h tile j hj => ?_, counted]
  · rfl
  · rw [pos] at tile
    have ended := regionEnded_testing n g k r fails s
    have others := fun i other => regionEnded_bank_other n g k r fails s (j := i) other
    simp only [regionEnded, sweepEnds_bank] at ended others
    by_cases same : (h, j) = (g, k)
    · cases same
      exact ended
    · rw [others _ fun e => same (Prod.ext_iff.mpr (bankIx_inj hj hk e))]
      exact idle h tile j hj same

/-- Settles O44: the start of a region by what it leaves of every bank, the end of one by what its failing lines leave of
the bank (log 55 says when a sweep counts). -/
theorem patinaTestsEveryRegion : Obligations.PatinaTestsEveryRegion := by
  intro s live
  refine ⟨fun n core serves on => ⟨⟨_, exec_patinaRegionStart_clean live core serves on, regionStarted_slab2 n s,
    fun g k hk => ?_, regionStarted_eq n s⟩, fun g k line hk tile starts here =>
      ⟨_, exec_patinaRegionStart_found live core serves on hk tile starts here, ?_⟩⟩,
    fun g k n r fails hk served tests => ⟨_, exec_patinaRegionDone live served tests fails,
      regionEnded_testing n g k r fails s, ?_, fun lines => regionEnded_spares lines n g k r s,
      fun l mem spare => ?_, fun p covers unheld held => regionEnded_stops n r covers unheld held,
      fun last idle => regionEnded_sweep r fails hk last idle,
      fun j other => regionEnded_bank_other n g k r fails s other⟩⟩
  · rw [regionStarted_bank n s g hk]
    by_cases starts : g ∈ slabTiles (posOf s n) ∧ (s.bank (bankIx g k)).StartsRegion
    · refine Eq.trans ?_ (if_pos starts).symm
      rw [if_pos starts.1]
      cases ahead : (s.bank (bankIx g k)).testNext with
      | nil => rw [Bank.startRegion_turn starts.2 ahead, ahead]
      | cons i l => exact Bank.startRegion_ahead starts.2 ahead
    · refine Eq.trans ?_ (if_neg starts).symm
      split
      · next tile => exact Bank.startRegion_busy fun free => starts ⟨tile, free⟩
      · rfl
  · rw [bankCorrected_eccCorr, regionStarted_tile2]
  · rw [regionEnded_bank_self, Bank.foldl_lineFails_corrected, regionTested_bank_self]
  · rw [regionEnded_bank_self]
    exact List.contains_iff_mem.mpr (Bank.foldl_lineFails_spare mem spare _)

end Sys2Proof.Machine
end

section
/-! PROOF. Packets at their endpoint (R272, R284, R323, R464): what the checks of a packet decide, and what an access of a
bank, of HBM or of the host leaves. -/

namespace Sys2Proof.Machine

open Sys2Proof

-- Proofs one after another: the package compiles as one text under a memory limit.
set_option Elab.async false

variable {s t u : State} {h : BitVec 512} {q c g k a da len tile : Nat} {body : PacketBody} {found : PacketFinding}
  {bs : List Byte} {e : Engine}

/-! ## The checks -/

/-- A packet is where it belongs, has no reserved value, the body that its header announces, and the `PART` and `CTX` of
what it addresses (R313, R323). -/
def PacketWellSent (s : State) (h : BitVec 512) (body : PacketBody) (found : PacketFinding) : Prop :=
  found ≠ .misrouted ∧ headerOk h = true ∧ bodyFits h body = true ∧ packetFits s h = true

/-- A packet carries an epoch, and not the one that its endpoint has for the partition (R464). -/
def PacketStale (s : State) (h : BitVec 512) : Prop :=
  hEpoch h ≠ 0 ∧ (aget (s.slab2 (hDslab h)).epochs (hPart h)).getD 0 ≠ hEpoch h

theorem not_packetWellSent_iff (s : State) (h : BitVec 512) (body : PacketBody) (found : PacketFinding) :
    ¬ PacketWellSent s h body found ↔
      found = .misrouted ∨ headerOk h = false ∨ bodyFits h body = false ∨ packetFits s h = false := by
  simp only [PacketWellSent, not_and_or, not_not, ne_eq, Bool.not_eq_true]

/-- What a packet that passes every check does at its endpoint. -/
def packetServed (h : BitVec 512) (q : Nat) (body : PacketBody) (found : PacketFinding) (s : State) : State :=
  match packetAcc s h, body with
  | .bank g k a, .read _ tile e =>
    if bankClearing s g k then holdAcc (.packetDeliver h q body found) s
    else packetBank (hCtx h) q g k a tile e none found s
  | .bank g k a, .write bs tile e =>
    if bankClearing s g k then holdAcc (.packetDeliver h q body found) s
    else packetBank (hCtx h) q g k a tile e (some bs) found s
  | .hbm da, _ => packetHbm (hCtx h) da body found s
  | .host a, _ => packetHost (hCtx h) a body s
  | .answer, _ => modFab (hDslab h) (fun x => { x with sends := x.sends.filter fun e => e.1 != hTseq h }) s
  | _, _ => s

/-- A stale epoch is counted (R464). -/
def epochRejected (s : State) : State := { s with arm := { s.arm with epochReject := s.arm.epochReject + 1 } }

/-- The state in which a packet with a stale epoch has been dropped (R464). -/
def staleDropped (h : BitVec 512) (q : Nat) (s : State) : State :=
  startExch (hPart h) (failSender (hCtx h) q .epoch [(s.part (hPart h)).epoch.toNat] (epochRejected s))

section
variable (live : s.live = true) (kept : (s.slab (hDslab h)).st ≠ .retired)
include live kept

theorem exec_packetDeliver_misrouted (unfit : ¬ PacketWellSent s h body found) (q : Nat) :
    exec (.packetDeliver h q body found) s = .next (misroute (hDslab h) s) := by
  show execPacketDeliver h q body found s = _
  unfold execPacketDeliver
  dsimp only
  rw [if_neg (by simp [live]), if_neg kept, if_pos ((not_packetWellSent_iff s h body found).mp unfit)]

theorem exec_packetDeliver_stale (sent : PacketWellSent s h body found) (stale : PacketStale s h) (q : Nat) :
    exec (.packetDeliver h q body found) s = .next (staleDropped h q s) := by
  show execPacketDeliver h q body found s = _
  unfold execPacketDeliver
  unfold PacketStale at *
  dsimp only
  rw [if_neg (by simp [live]), if_neg kept, if_neg fun unfit => (not_packetWellSent_iff s h body found).mpr unfit sent,
    if_pos stale]
  rfl

theorem exec_packetDeliver_unroutable (sent : PacketWellSent s h body found) (fresh : ¬ PacketStale s h)
    (down : s.pkg.unroutable = true) (q : Nat) : exec (.packetDeliver h q body found) s = .next s := by
  show execPacketDeliver h q body found s = _
  unfold execPacketDeliver
  unfold PacketStale at *
  dsimp only
  rw [if_neg (by simp [live]), if_neg kept, if_neg fun unfit => (not_packetWellSent_iff s h body found).mpr unfit sent,
    if_neg fresh, if_pos down]

theorem exec_packetDeliver_served (sent : PacketWellSent s h body found) (fresh : ¬ PacketStale s h)
    (up : s.pkg.unroutable = false) (q : Nat) :
    exec (.packetDeliver h q body found) s = .next (packetServed h q body found s) := by
  show execPacketDeliver h q body found s = _
  unfold execPacketDeliver packetServed
  unfold PacketStale at *
  dsimp only
  rw [if_neg (by simp [live]), if_neg kept, if_neg fun unfit => (not_packetWellSent_iff s h body found).mpr unfit sent,
    if_neg fresh, if_neg (by simp [up])]
  cases packetAcc s h <;> cases body <;> rfl

end

theorem packetServed_other (acc : packetAcc s h = .other) (q : Nat) (body : PacketBody) (found : PacketFinding) :
    packetServed h q body found s = s := by
  unfold packetServed
  rw [acc]

/-- An answer takes its number from the packets that wait for one (R322). -/
theorem packetServed_answer (acc : packetAcc s h = .answer) (q : Nat) (body : PacketBody) (found : PacketFinding) :
    packetServed h q body found s = modFab (hDslab h) (fun x => { x with
      sends := x.sends.filter fun e => e.1 != hTseq h }) s := by
  unfold packetServed
  rw [acc]

/-! ## Packets that are dropped -/

theorem posted_misroute (n : Nat) (s : State) :
    Posted (s.modSlab2 n fun x => { x with fab := { x.fab with
      misroute := x.fab.misroute + 1, events := x.fab.events ||| 2 } }) (misroute n s) := by
  have posted := posted_fabEvent n 2 (modFab n (fun x => { x with misroute := x.misroute + 1 }) s)
  rw [modFab, State.modSlab2_modSlab2] at posted
  exact posted

theorem running?_congr (same : t.ctx c = s.ctx c) (q : Nat) : running? t c q = running? s c q := by
  unfold running?
  rw [getCmd_congr same, same]

/-- The command that a packet came from ends, if it still runs (R272, R464). -/
theorem failSender_ended (runs : (running? s c q).isSome) (st : Status) (dw : List Nat) :
    Ended (failSender c q st dw s) c q st dw := by
  obtain ⟨m, run⟩ := Option.isSome_iff_exists.mp runs
  unfold failSender
  rw [run]
  exact finish_ended st dw (running?_getCmd run)

theorem keeps_failSender_self (c q : Nat) (st : Status) (dw : List Nat) (s : State) :
    Keeps [.tiles, .ctxs] s (failSender c q st dw s) := keeps_failSender (.refl s) c q st dw (List.Subset.refl _)

theorem Ended.of_ctx_eq {st : Status} {dw : List Nat} (ended : Ended s c q st dw) (same : t.ctx c = s.ctx c) :
    Ended t c q st dw := by
  unfold Ended
  rw [getCmd_congr same]
  exact ended

/-- A packet with a stale epoch is counted and moves no data, and its command ends E_EPOCH (R464). -/
theorem staleDropped_facts (h : BitVec 512) (q : Nat) (s : State) :
    (staleDropped h q s).arm = { s.arm with epochReject := s.arm.epochReject + 1 } ∧
    (staleDropped h q s).bankMem = s.bankMem ∧ (staleDropped h q s).hbm = s.hbm ∧
    ((running? s (hCtx h) q).isSome →
      Ended (staleDropped h q s) (hCtx h) q .epoch [(s.part (hPart h)).epoch.toNat]) := by
  have sender := keeps_failSender_self (hCtx h) q .epoch [(s.part (hPart h)).epoch.toNat]
    (epochRejected s)
  have exch : Keeps [.parts2] _ (staleDropped h q s) := keeps_startExch (.refl _) (hPart h) (List.Subset.refl _)
  refine ⟨?_, ?_, ?_, fun runs => ?_⟩
  · exact (sender.only .arm (by decide)).trans (exch.only .arm (by decide))
  · exact (sender.only .bankMem (by decide)).trans (exch.only .bankMem (by decide))
  · exact (sender.only .hbm (by decide)).trans (exch.only .hbm (by decide))
  · exact (failSender_ended (s := epochRejected s) runs .epoch _).of_ctx_eq (exch.ctx (hCtx h))

/-! ## An access of a bank -/

/-- A packet for a bank is a READ or a WRITE, and has the body of one (R313). -/
theorem packetAcc_bank_body (acc : packetAcc s h = .bank g k a) (fits : bodyFits h body = true) : body ≠ .other := by
  rintro rfl
  have kinds : hType h ≠ 0 ∧ hType h ≠ 1 := by simpa [bodyFits] using fits
  unfold packetAcc at acc
  dsimp only at acc
  split at acc
  · cases acc
  · next vc =>
    split at acc
    · cases acc
    · next other =>
      unfold vcOfType at vc
      split at vc <;> simp_all
  · cases acc

/-- An access of a bank that clears waits, whatever it is (R284). -/
theorem packetServed_waits (acc : packetAcc s h = .bank g k a) (fits : bodyFits h body = true)
    (clears : bankClearing s g k = true) (q : Nat) (found : PacketFinding) :
    packetServed h q body found s = holdAcc (.packetDeliver h q body found) s := by
  unfold packetServed
  rw [acc]
  cases body with
  | read len tile e => exact if_pos clears
  | write bs tile e => exact if_pos clears
  | other => exact absurd rfl (packetAcc_bank_body acc fits)

theorem packetServed_bankRead (acc : packetAcc s h = .bank g k a) (clear : bankClearing s g k = false)
    (admits : ownerAdmits s g k (engineAgent e (hCtx h) tile) .read = true) (q len : Nat) :
    packetServed h q (.read len tile e) .clean s = s := by
  unfold packetServed
  rw [acc]
  dsimp only
  rw [if_neg (by simp [clear]), packetBank]
  exact if_pos admits

theorem packetServed_bankWrite (acc : packetAcc s h = .bank g k a) (clear : bankClearing s g k = false)
    (admits : ownerAdmits s g k (engineAgent e (hCtx h) tile) .write = true) (q : Nat) (bs : List Byte) :
    packetServed h q (.write bs tile e) .clean s = bankWrite g k a bs s := by
  have nothing : writeFound a bs.length .clean = .clean := by
    unfold writeFound
    split <;> rfl
  unfold packetServed
  rw [acc]
  dsimp only
  rw [if_neg (by simp [clear]), packetBank]
  refine (if_pos admits).trans ?_
  dsimp only
  rw [nothing]
  rfl

/-- The state in which a bank has refused a write of a packet, and the command it came from has ended (R272). -/
def writeRefused (c q g k a tile : Nat) (e : Engine) (s : State) : State :=
  failSender c q .owner [g, k] (ownerRefused g k a (engineAgent e c tile) .write s)

theorem packetServed_bankRefused (acc : packetAcc s h = .bank g k a) (clear : bankClearing s g k = false)
    (refuses : ownerAdmits s g k (engineAgent e (hCtx h) tile) .write = false) (q : Nat) (bs : List Byte)
    (found : PacketFinding) :
    packetServed h q (.write bs tile e) found s = writeRefused (hCtx h) q g k a tile e s := by
  unfold packetServed
  rw [acc]
  dsimp only
  rw [if_neg (by simp [clear]), packetBank]
  exact if_neg (by simp [refuses])

theorem writeRefused_facts (c q g k a tile : Nat) (e : Engine) (s : State) :
    (writeRefused c q g k a tile e s).bankMem = s.bankMem ∧ (writeRefused c q g k a tile e s).hbm = s.hbm ∧
    ((writeRefused c q g k a tile e s).tile2 g).ownerRefused = (s.tile2 g).ownerRefused + 1 ∧
    ((running? s c q).isSome → Ended (writeRefused c q g k a tile e s) c q .owner [g, k]) := by
  have refused : Keeps [.env, .hostMem, .pcie, .slabs2, .tiles2, .funcs] s
      (ownerRefused g k a (engineAgent e c tile) .write s) := keeps_ownerRefused (.refl s) _ _ _ _ _ (List.Subset.refl _)
  have sender := keeps_failSender_self c q .owner [g, k] (ownerRefused g k a (engineAgent e c tile) .write s)
  refine ⟨?_, ?_, ?_, fun runs => failSender_ended ?_ .owner [g, k]⟩
  · exact (refused.only .bankMem (by decide)).trans (sender.only .bankMem (by decide))
  · exact (refused.only .hbm (by decide)).trans (sender.only .hbm (by decide))
  · rw [← ownerRefused_counts g k a (engineAgent e c tile) .write s]
    exact congrArg (fun x => (tget (fun _ => Tile2.init) x g).ownerRefused) (sender.only .tiles2 (by decide))
  · rw [running?_congr (refused.ctx c)]
    exact runs

end Sys2Proof.Machine
end

section
/-! PROOF. Packets for HBM and for the host (R292, R296, R310, R369): what counting an access leaves, and what a clean
access reads and stores. -/

namespace Sys2Proof.Machine

open Sys2Proof

-- Proofs one after another: the package compiles as one text under a memory limit.
set_option Elab.async false

variable {s t u : State} {h : BitVec 512} {q c da len tile a : Nat} {body : PacketBody} {found : PacketFinding}
  {bs : List Byte} {e : Engine}

/-! ## Counting an access -/

/-- Nothing but the slabs' counters, the contexts' and the count of free values differs. -/
def OnlyCounts (s t : State) : Prop := t = { s with slabs2 := t.slabs2, ctxs := t.ctxs, env := t.env }

theorem OnlyCounts.trans (first : OnlyCounts s t) (second : OnlyCounts t u) : OnlyCounts s u := by
  unfold OnlyCounts at *
  exact second.trans (by rw [first])

theorem onlyCounts_countGran (c da rd wr : Nat) (s : State) : OnlyCounts s (countGran (some c) da rd wr s) := rfl

theorem onlyCounts_countAcc (c : Nat) (wr : Bool) (fuel da len : Nat) (s : State) :
    OnlyCounts s (countAcc (some c) wr fuel da len s) := by
  induction fuel generalizing da len s with
  | zero => exact rfl
  | succ fuel ih =>
    unfold countAcc
    split
    · exact rfl
    · exact (onlyCounts_countGran c da _ _ s).trans (ih ..)

theorem countAcc_zero (ctx : Option Nat) (wr : Bool) (fuel da : Nat) (s : State) : countAcc ctx wr fuel da 0 s = s := by
  cases fuel <;> rfl

/-- Does an access of len bytes read data: its granule or half has been written, and it is no write that covers it
(R296)? -/
def readsData (s : State) (wr : Bool) (da len : Nat) : Bool :=
  (granAt s da).1 != .unwritten && (!wr || !(da % spanAt s da == 0 && decide (spanAt s da ≤ len)))

/-- An access within one granule or half is counted once. -/
theorem countAcc_within (some_ : 0 < len) (within : da % spanAt s da + len ≤ spanAt s da) (ctx : Option Nat) (wr : Bool) :
    countAcc ctx wr (spanFuel len) da len s = countGran ctx da (b2n (readsData s wr da len)) (b2n wr) s := by
  show countAcc ctx wr (len / 1024 + 1 + 1) da len s = _
  unfold countAcc
  dsimp only
  rw [if_neg (by omega), show len - (spanAt s da - da % spanAt s da) = 0 by omega, countAcc_zero]
  rfl

/-- What counting a granule does to its controller's counters of reads and writes. -/
theorem countGran_hbm (ctx : Option Nat) (da rd wr : Nat) (s : State) :
    ((countGran ctx da rd wr s).slab2 (homeSlab s da)).hbm.rd = (s.slab2 (homeSlab s da)).hbm.rd + BitVec.ofNat 64 rd ∧
    ((countGran ctx da rd wr s).slab2 (homeSlab s da)).hbm.wr = (s.slab2 (homeSlab s da)).hbm.wr + BitVec.ofNat 64 wr := by
  have home : homeSlab (s.takeFree 1).2 da = homeSlab s da := rfl
  unfold countGran
  cases ctx with
  | none =>
    dsimp only
    rw [home, State.modSlab2_slab2_self]
    exact ⟨rfl, rfl⟩
  | some c =>
    dsimp only
    rw [State.modCtx_slab2, home, State.modSlab2_slab2_self]
    exact ⟨rfl, rfl⟩

/-- A read within one granule or half counts one data read, unless it is UNWRITTEN (R296, R310; log 49). -/
theorem countAcc_read (some_ : 0 < len) (within : da % spanAt s da + len ≤ spanAt s da) (ctx : Option Nat) :
    ((countAcc ctx false (spanFuel len) da len s).slab2 (homeSlab s da)).hbm.rd =
      (s.slab2 (homeSlab s da)).hbm.rd + if (granAt s da).1 = .unwritten then 0 else 1 := by
  rw [countAcc_within some_ within, (countGran_hbm ..).1]
  congr 1
  by_cases unwritten : (granAt s da).1 = .unwritten <;> simp [readsData, unwritten, b2n]

/-- A write within one granule or half counts one write, and one data read unless it is UNWRITTEN or written whole. -/
theorem countAcc_write (some_ : 0 < len) (within : da % spanAt s da + len ≤ spanAt s da) (ctx : Option Nat) :
    ((countAcc ctx true (spanFuel len) da len s).slab2 (homeSlab s da)).hbm.wr = (s.slab2 (homeSlab s da)).hbm.wr + 1 ∧
    ((countAcc ctx true (spanFuel len) da len s).slab2 (homeSlab s da)).hbm.rd = (s.slab2 (homeSlab s da)).hbm.rd +
      if (granAt s da).1 = .unwritten ∨ len = spanAt s da then 0 else 1 := by
  obtain ⟨rd, wr⟩ := countGran_hbm ctx da (b2n (readsData s true da len)) (b2n true) s
  rw [countAcc_within some_ within]
  refine ⟨wr, rd.trans ?_⟩
  have whole : (da % spanAt s da == 0 && decide (spanAt s da ≤ len)) = decide (len = spanAt s da) := by
    rw [Bool.eq_iff_iff, Bool.and_eq_true, beq_iff_eq, decide_eq_true_iff, decide_eq_true_iff]
    omega
  congr 1
  rw [readsData, whole]
  by_cases unwritten : (granAt s da).1 = .unwritten <;> by_cases all : len = spanAt s da <;> simp [unwritten, all, b2n]

/-! ## Clean accesses -/

theorem packetServed_hbm (acc : packetAcc s h = .hbm da) (q : Nat) (body : PacketBody) (found : PacketFinding) :
    packetServed h q body found s = packetHbm (hCtx h) da body found s := by
  unfold packetServed
  rw [acc]

/-- A read that the key admits only counts (R292, R310). -/
theorem packetHbm_read (good : readBad (countAcc (some c) false (spanFuel len) da len s) none (ctxKey s c) (spanFuel len)
      da len = none) (tile : Nat) (e : Engine) :
    packetHbm c da (.read len tile e) .clean s = countAcc (some c) false (spanFuel len) da len s := by
  unfold packetHbm
  dsimp only [hbmFixed, hbmFinding]
  rw [good]

theorem packetHbm_write (good : writeBad (countAcc (some c) true (spanFuel bs.length) da bs.length s) none (ctxKey s c)
      (spanFuel bs.length) da bs.length = none) (tile : Nat) (e : Engine) :
    packetHbm c da (.write bs tile e) .clean s =
      hbmWrite (ctxKey s c) da bs (countAcc (some c) true (spanFuel bs.length) da bs.length s) := by
  unfold packetHbm
  dsimp only [hbmFixed, hbmFinding]
  rw [good]

theorem setGran_mem (s : State) (da : Nat) (st : GranSt) (ctr : BitVec 56) (key : KeyOwner) :
    (setGran s da st ctr key).hbm.mem = s.hbm.mem := rfl

theorem markValid_mem (key : KeyOwner) (fuel da len : Nat) (s : State) :
    (markValid key fuel da len s).hbm.mem = s.hbm.mem := by
  induction fuel generalizing da len s with
  | zero => rfl
  | succ fuel ih =>
    unfold markValid
    split
    · rfl
    · exact (ih ..).trans (setGran_mem ..)

theorem hbmWrite_mem (key : KeyOwner) (da : Nat) (bs : List Byte) (s : State) :
    (hbmWrite key da bs s).hbm.mem = mwrite s.hbm.mem da bs :=
  congrArg (mwrite · da bs) (markValid_mem ..)

theorem keeps_hbmWrite_self (key : KeyOwner) (da : Nat) (bs : List Byte) (s : State) :
    Keeps [.hbm] s (hbmWrite key da bs s) := keeps_hbmWrite (.refl s) key da bs (List.Subset.refl _)

theorem keeps_countAcc_self (ctx : Option Nat) (wr : Bool) (fuel da len : Nat) (s : State) :
    Keeps [.env, .slabs2, .ctxs] s (countAcc ctx wr fuel da len s) :=
  keeps_countAcc (.refl s) ctx wr fuel da len (List.Subset.refl _)

/-- A write to HBM stores exactly its bytes, leaves the banks, and is counted as `countAcc` counts it. -/
theorem countedWrite_facts (key : KeyOwner) (ctx : Option Nat) (da : Nat) (bs : List Byte) (s : State) :
    let t := hbmWrite key da bs (countAcc ctx true (spanFuel bs.length) da bs.length s)
    t.hbm.mem = mwrite s.hbm.mem da bs ∧ t.bankMem = s.bankMem ∧
      (0 < bs.length → da % spanAt s da + bs.length ≤ spanAt s da →
        (t.slab2 (homeSlab s da)).hbm.wr = (s.slab2 (homeSlab s da)).hbm.wr + 1 ∧
        (t.slab2 (homeSlab s da)).hbm.rd = (s.slab2 (homeSlab s da)).hbm.rd +
          if (granAt s da).1 = .unwritten ∨ bs.length = spanAt s da then 0 else 1) := by
  intro t
  have counted := keeps_countAcc_self ctx true (spanFuel bs.length) da bs.length s
  have written := keeps_hbmWrite_self key da bs (countAcc ctx true (spanFuel bs.length) da bs.length s)
  have slabs : ∀ n, t.slab2 n = (countAcc ctx true (spanFuel bs.length) da bs.length s).slab2 n := fun n =>
    congrArg (fun x => tget Slab2.init x n) (written.only .slabs2 (by decide))
  refine ⟨?_, (counted.only .bankMem (by decide)).trans (written.only .bankMem (by decide)), fun some_ within => ?_⟩
  · rw [hbmWrite_mem]
    exact congrArg (fun x => mwrite x.mem da bs) (counted.only .hbm (by decide))
  · rw [slabs]
    exact countAcc_write some_ within ctx

theorem packetServed_host (acc : packetAcc s h = .host a) (q : Nat) (body : PacketBody) (found : PacketFinding) :
    packetServed h q body found s = packetHost (hCtx h) a body s := by
  unfold packetServed
  rw [acc]

/-- A write to host memory over a link that serves stores its bytes (R341, R369). -/
theorem packetHost_write (idle : s.pcie.phase = .idle) (c a : Nat) (bs : List Byte) (tile : Nat) (e : Engine) :
    packetHost c a (.write bs tile e) s = hostWrite s (s.ctx c).reg.func a bs := if_pos idle

end Sys2Proof.Machine
end

section
/-! PROOF. Flits between neighbouring places (R312, R317 to R322, R337): the fields of a slab's fabric that each part of a
flit's move leaves, and what the move does to inputs, edge counters and failures. -/

namespace Sys2Proof.Machine

open Sys2Proof

-- Proofs one after another: the package compiles as one text under a memory limit.
set_option Elab.async false

/-! ## Lists with one entry for a key -/

section
variable {α : Type} {p q : α → Bool}

theorem find?_replace_self (l : List α) {b : α} (hb : p b = true) : (l.filter (fun a => !p a) ++ [b]).find? p = some b := by
  rw [List.find?_append, List.find?_filter, List.find?_eq_none.mpr (by simp)]
  simp [hb]

theorem find?_drop_self (l : List α) : (l.filter fun a => !p a).find? p = none := by
  rw [List.find?_filter, List.find?_eq_none]
  simp

theorem find?_drop_other (l : List α) (apart : ∀ a, q a = true → p a = false) :
    (l.filter fun a => !p a).find? q = l.find? q := by
  rw [List.find?_filter]
  congr 1
  funext a
  cases hq : q a
  · simp
  · simp [apart a hq]

theorem find?_replace_other (l : List α) {b : α} (apart : ∀ a, q a = true → p a = false) (hb : q b = false) :
    (l.filter (fun a => !p a) ++ [b]).find? q = l.find? q := by
  rw [List.find?_append, find?_drop_other l apart]
  simp [hb]

end

/-! ## The fabric of a slab -/

variable {s t u : State} {dst src p i : FabPlace} {f : Flit} {inject : Option Flit}

theorem OnlySlabs2.refl (s : State) : OnlySlabs2 s s := rfl

theorem OnlySlabs2.trans (first : OnlySlabs2 s t) (second : OnlySlabs2 t u) : OnlySlabs2 s u := by
  unfold OnlySlabs2 at *
  exact second.trans (by rw [first])

theorem onlySlabs2_modFab (n : Nat) (f : Fab → Fab) (s : State) : OnlySlabs2 s (modFab n f s) := rfl

theorem modFab_fab_self (n : Nat) (f : Fab → Fab) (s : State) :
    ((modFab n f s).slab2 n).fab = f (s.slab2 n).fab :=
  congrArg Slab2.fab (State.modSlab2_slab2_self ..)

theorem modFab_slab2_other (n : Nat) {m : Nat} (f : Fab → Fab) (s : State) (other : m ≠ n) :
    (modFab n f s).slab2 m = s.slab2 m := State.modSlab2_slab2_other _ _ other

/-- What a change of the fabric leaves of every fabric it leaves of every slab. -/
theorem modFab_stays {α : Type} (φ : Fab → α) {f : Fab → Fab} (stays : ∀ x, φ (f x) = φ x) (n m : Nat) (s : State) :
    φ ((modFab n f s).slab2 m).fab = φ (s.slab2 m).fab := by
  by_cases same : m = n
  · rw [same, modFab_fab_self, stays]
  · rw [modFab_slab2_other n f s same]

/-! ## Inputs -/

theorem inFlits_congr (ins : (t.slab2 p.slab).fab.ins = (s.slab2 p.slab).fab.ins) (src : FabPlace) :
    inFlits t p src = inFlits s p src := by
  unfold inFlits
  rw [ins]

theorem setInFlits_stays {α : Type} (φ : Fab → α) (noIns : ∀ x l, φ { x with ins := l } = φ x) (p src : FabPlace)
    (l : List Flit) (s : State) (m : Nat) : φ ((setInFlits p src l s).slab2 m).fab = φ (s.slab2 m).fab :=
  modFab_stays φ (fun _ => noIns _ _) p.slab m s

theorem setInFlits_inFlits_self (p src : FabPlace) (l : List Flit) (s : State) :
    inFlits (setInFlits p src l s) p src = l := by
  unfold inFlits setInFlits
  rw [modFab_fab_self]
  dsimp only
  split
  · next none_ => rw [find?_drop_self, none_]; rfl
  · rw [find?_replace_self _ (by simp)]; rfl

theorem setInFlits_inFlits_other {p' src' : FabPlace} (other : ¬ (p' = p ∧ src' = src)) (l : List Flit) (s : State) :
    inFlits (setInFlits p src l s) p' src' = inFlits s p' src' := by
  by_cases slab : p'.slab = p.slab
  · have apart : ¬ (p'.node = p.node ∧ src' = src) := fun same =>
      other ⟨by cases p; cases p'; cases slab; cases same.1; rfl, same.2⟩
    have keys : ∀ b : FabIn, (b.node == p'.node && b.src == src') = true → (b.node == p.node && b.src == src) = false := by
      intro b
      simp only [Bool.and_eq_true, beq_iff_eq, Bool.and_eq_false_iff, beq_eq_false_iff_ne]
      rintro ⟨node, from_⟩
      rw [node, from_]
      exact not_and_or.mp apart
    unfold inFlits setInFlits
    rw [slab, modFab_fab_self]
    dsimp only
    split
    · rw [find?_drop_other _ keys]
    · rw [find?_replace_other _ keys]
      simp only [Bool.and_eq_false_iff, beq_eq_false_iff_ne]
      exact (not_and_or.mp apart).imp Ne.symm Ne.symm
  · exact inFlits_congr (congrArg (fun x => x.fab.ins) (modFab_slab2_other _ _ _ slab)) src'

/-! ## Failures in a row -/

theorem setFails_stays {α : Type} (φ : Fab → α) (noFails : ∀ x l, φ { x with flitFails := l } = φ x) (dst src : FabPlace)
    (k : Nat) (s : State) (m : Nat) : φ ((setFails dst src k s).slab2 m).fab = φ (s.slab2 m).fab :=
  modFab_stays φ (fun _ => noFails _ _) dst.slab m s

theorem setFails_failsAt (dst src : FabPlace) (k : Nat) (s : State) : failsAt (setFails dst src k s) dst src = k := by
  unfold failsAt setFails
  rw [modFab_fab_self]
  dsimp only
  split
  · next zero => rw [find?_drop_self, zero]; rfl
  · rw [find?_replace_self _ (by simp)]; rfl

theorem failsAt_congr (fails : (t.slab2 dst.slab).fab.flitFails = (s.slab2 dst.slab).fab.flitFails) (src : FabPlace) :
    failsAt t dst src = failsAt s dst src := by
  unfold failsAt
  rw [fails]

/-! ## Edge counters -/

/-- The outbound counters of a slab's edges, N, E, S and W (R337). -/
def edgeCounts (x : Fab) : List DWord := [x.edgeN, x.edgeE, x.edgeS, x.edgeW]

/-- The edge of its slab that a flit from src to dst crosses, to a neighbour or to the outer device (R337). -/
def crossedEdge (src dst : FabPlace) : Option Nat :=
  if src.slab = dst.slab then (if dst.node = .device then deviceEdge src.slab else none)
  else match src.node with
    | .edge k => some (min k 3)
    | _ => none

theorem crossedEdge_lt {e : Nat} (crossed : crossedEdge src dst = some e) : e < 4 := by
  unfold crossedEdge at crossed
  split at crossed
  · split at crossed
    · exact List.mem_range.mp (List.mem_of_find?_eq_some crossed)
    · cases crossed
  · split at crossed
    · cases crossed
      omega
    · cases crossed

theorem countOut_min (n k : Nat) (s : State) : countOut n k s = countOut n (min k 3) s :=
  match k with
  | 0 | 1 | 2 => rfl
  | k + 3 => by rw [show min (k + 3) 3 = 3 by omega]; rfl

/-- A flit counts at the edge that it crosses, where it crosses one (R337). -/
theorem countEdge_eq (src dst : FabPlace) (s : State) :
    countEdge src dst s = (crossedEdge src dst).elim s fun e => countOut src.slab e s := by
  unfold countEdge crossedEdge
  by_cases same : src.slab = dst.slab
  · rw [if_neg (not_not.mpr same), if_pos same]
    by_cases device : dst.node = .device
    · rw [if_pos device, if_pos device]
      cases deviceEdge src.slab <;> rfl
    · rw [if_neg device, if_neg device]
      rfl
  · rw [if_pos same, if_neg same]
    cases src.node with
    | edge k => exact countOut_min ..
    | _ => rfl

theorem countEdge_crossed {e : Nat} (crossed : crossedEdge src dst = some e) (s : State) :
    countEdge src dst s = countOut src.slab e s := by
  rw [countEdge_eq, crossed]
  rfl

theorem countEdge_inside (inside : crossedEdge src dst = none) (s : State) : countEdge src dst s = s := by
  rw [countEdge_eq, inside]
  rfl

theorem countOut_edgeCounts {e : Nat} (he : e < 4) (n : Nat) (s : State) :
    edgeCounts ((countOut n e s).slab2 n).fab = (edgeCounts (s.slab2 n).fab).modify e (· + 1) := by
  unfold countOut
  rw [modFab_fab_self]
  match e, he with
  | 0, _ | 1, _ | 2, _ | 3, _ => rfl

/-- A flit counts at the edge that it crosses, and at no other. -/
theorem countEdge_edgeCounts (src dst : FabPlace) (s : State) (j : Nat) (hj : j < 4) :
    (edgeCounts ((countEdge src dst s).slab2 src.slab).fab).getD j 0 =
      (edgeCounts (s.slab2 src.slab).fab).getD j 0 + if crossedEdge src dst = some j then 1 else 0 := by
  cases crossed : crossedEdge src dst with
  | none => rw [countEdge_inside crossed]; simp
  | some e =>
    rw [countEdge_crossed crossed, countOut_edgeCounts (crossedEdge_lt crossed)]
    generalize counts : edgeCounts (s.slab2 src.slab).fab = l
    have length : l.length = 4 := by rw [← counts]; rfl
    rw [List.getD_eq_getElem?_getD, List.getD_eq_getElem?_getD, List.getElem?_modify,
      List.getElem?_eq_getElem (length.symm ▸ hj)]
    by_cases same : e = j <;> simp [same]

/-- Counting a flit changes the edge counters alone. -/
theorem countEdge_stays {α : Type} (φ : Fab → α)
    (noEdges : ∀ x n e so w, φ { x with edgeN := n, edgeE := e, edgeS := so, edgeW := w } = φ x) (src dst : FabPlace)
    (s : State) (m : Nat) : φ ((countEdge src dst s).slab2 m).fab = φ (s.slab2 m).fab := by
  cases crossed : crossedEdge src dst with
  | none => rw [countEdge_inside crossed]
  | some e =>
    rw [countEdge_crossed crossed]
    refine modFab_stays φ (fun x => ?_) src.slab m s
    split
    · exact noEdges x (x.edgeN + 1) x.edgeE x.edgeS x.edgeW
    · exact noEdges x x.edgeN (x.edgeE + 1) x.edgeS x.edgeW
    · exact noEdges x x.edgeN x.edgeE (x.edgeS + 1) x.edgeW
    · exact noEdges x x.edgeN x.edgeE x.edgeS (x.edgeW + 1)

theorem onlySlabs2_countEdge (src dst : FabPlace) (s : State) : OnlySlabs2 s (countEdge src dst s) := by
  cases crossed : crossedEdge src dst with
  | none => rw [countEdge_inside crossed]; exact .refl s
  | some e => rw [countEdge_crossed crossed]; exact onlySlabs2_modFab ..

/-! ## A flit moves on -/

/-- No place is its own neighbour (R312). -/
theorem ne_of_joined (joins : joined src dst = true) : dst ≠ src := by
  rintro rfl
  unfold joined at joins
  rw [if_pos rfl] at joins
  cases node : dst.node <;> rw [node] at joins <;> simp [nextRouters] at joins

theorem setOut_stays {α : Type} (φ : Fab → α) (noOuts : ∀ x l, φ { x with outs := l } = φ x) (src dst : FabPlace)
    (o : FabOut) (s : State) (m : Nat) : φ ((setOut src dst o s).slab2 m).fab = φ (s.slab2 m).fab :=
  modFab_stays φ (fun _ => noOuts _ _) src.slab m s

theorem popFlit_inFlits_self (src dst i : FabPlace) (c : Nat) (f : Flit) (s : State) :
    inFlits (popFlit src dst i c f s) src i = (inFlits s src i).erase f := by
  unfold popFlit
  exact (inFlits_congr (setOut_stays Fab.ins (fun _ _ => rfl) ..) i).trans (setInFlits_inFlits_self ..)

theorem popFlit_inFlits_other (other : p ≠ src) (dst i : FabPlace) (c : Nat) (f : Flit) (s : State) (j : FabPlace) :
    inFlits (popFlit src dst i c f s) p j = inFlits s p j := by
  unfold popFlit
  exact (inFlits_congr (setOut_stays Fab.ins (fun _ _ => rfl) ..) j).trans
    (setInFlits_inFlits_other (fun same => other same.1) ..)

theorem keepSent_stays {α : Type} (φ : Fab → α) (noSends : ∀ x l, φ { x with sends := l } = φ x) (src : FabPlace) (f : Flit)
    (s : State) (m : Nat) : φ ((keepSent src f s).slab2 m).fab = φ (s.slab2 m).fab := by
  unfold keepSent
  dsimp only
  split
  · exact modFab_stays φ (fun _ => noSends _ _) src.slab m s
  · rfl

theorem pushFlit_inFlits_self (inner : isEnd dst.node = false) (src : FabPlace) (c : Nat) (f : Flit) (s : State) :
    inFlits (pushFlit dst src c f s) dst src = inFlits s dst src ++ [{ f with hdr := setClass f.hdr c }] := by
  unfold pushFlit
  rw [inner]
  exact setInFlits_inFlits_self ..

theorem pushFlit_inFlits_other (other : p ≠ dst) (src : FabPlace) (c : Nat) (f : Flit) (s : State) (j : FabPlace) :
    inFlits (pushFlit dst src c f s) p j = inFlits s p j := by
  unfold pushFlit
  split
  · rfl
  · exact setInFlits_inFlits_other (fun same => other same.1) _ s

/-- A flit that moves on changes the inputs, the outputs and the packets sent, and nothing else of a fabric. -/
theorem moveFlit_stays {α : Type} (φ : Fab → α) (noIns : ∀ x l, φ { x with ins := l } = φ x)
    (noOuts : ∀ x l, φ { x with outs := l } = φ x) (noSends : ∀ x l, φ { x with sends := l } = φ x) (src dst : FabPlace)
    (from_ : Option (FabPlace × Nat)) (c : Nat) (f : Flit) (s : State) (m : Nat) :
    φ ((moveFlit src dst from_ c f s).slab2 m).fab = φ (s.slab2 m).fab := by
  have pushed : ∀ v, φ ((pushFlit dst src c f v).slab2 m).fab = φ (v.slab2 m).fab := fun v => by
    unfold pushFlit
    split
    · rfl
    · exact setInFlits_stays φ noIns ..
  unfold moveFlit
  refine (pushed _).trans ?_
  cases from_ with
  | none => exact keepSent_stays φ noSends ..
  | some x =>
    exact (setOut_stays φ noOuts ..).trans (setInFlits_stays φ noIns ..)

theorem onlySlabs2_moveFlit (src dst : FabPlace) (from_ : Option (FabPlace × Nat)) (c : Nat) (f : Flit) (s : State) :
    OnlySlabs2 s (moveFlit src dst from_ c f s) := by
  have pushed : ∀ v, OnlySlabs2 v (pushFlit dst src c f v) := fun v => by
    unfold pushFlit
    split <;> exact rfl
  unfold moveFlit
  refine OnlySlabs2.trans ?_ (pushed _)
  cases from_ with
  | none =>
    unfold keepSent
    dsimp only
    split <;> exact rfl
  | some x => exact rfl

/-- The flit joins the neighbour's input in its class there (R319). -/
theorem moveFlit_inFlits_dst (joins : joined src dst = true) (inner : isEnd dst.node = false)
    (from_ : Option (FabPlace × Nat)) (c : Nat) (f : Flit) (s : State) :
    inFlits (moveFlit src dst from_ c f s) dst src = inFlits s dst src ++ [{ f with hdr := setClass f.hdr c }] := by
  unfold moveFlit
  rw [pushFlit_inFlits_self inner]
  congr 1
  cases from_ with
  | none => exact inFlits_congr (keepSent_stays Fab.ins (fun _ _ => rfl) src f s dst.slab) src
  | some x => exact popFlit_inFlits_other (ne_of_joined joins) ..

/-- The flit leaves the input that it waited in. -/
theorem moveFlit_inFlits_src (joins : joined src dst = true) (i : FabPlace) (cls c : Nat) (f : Flit) (s : State) :
    inFlits (moveFlit src dst (some (i, cls)) c f s) src i = (inFlits s src i).erase f := by
  unfold moveFlit
  rw [pushFlit_inFlits_other (ne_of_joined joins).symm]
  exact popFlit_inFlits_self ..

end Sys2Proof.Machine
end

section
/-! PROOF. What a neighbour makes of a flit (R317 to R321, R337): the flit moves on, or it is dropped and replayed, or after
eight replays in a row the receiving slab retires. -/

namespace Sys2Proof.Machine

open Sys2Proof

-- Proofs one after another: the package compiles as one text under a memory limit.
set_option Elab.async false

variable {s t u : State} {dst src : FabPlace} {f : Flit} {inject : Option Flit} {i : Option (FabPlace × Nat)} {c : Nat}

/-- A state differs from `s` in slabs' blocks alone, and its flit has counted at the edge it crosses (R337). -/
structure EdgeCrossed (dst src : FabPlace) (s t : State) : Prop where
  only : OnlySlabs2 s t
  edges : ∀ e, e < 4 → (edgeCounts (t.slab2 src.slab).fab).getD e 0 =
    (edgeCounts (s.slab2 src.slab).fab).getD e 0 + if crossedEdge src dst = some e then 1 else 0

theorem edgeCrossed_countEdge (dst src : FabPlace) (s : State) : EdgeCrossed dst src s (countEdge src dst s) where
  only := onlySlabs2_countEdge src dst s
  edges := countEdge_edgeCounts src dst s

/-- What changes no edge counter leaves the flit counted. -/
theorem EdgeCrossed.trans (crossed : EdgeCrossed dst src s t) (only : OnlySlabs2 t u)
    (same : edgeCounts (u.slab2 src.slab).fab = edgeCounts (t.slab2 src.slab).fab) : EdgeCrossed dst src s u where
  only := crossed.only.trans only
  edges e he := by rw [same]; exact crossed.edges e he

/-- A reception's corrected codewords count, one or two (R321). -/
def corrCounted (n : Nat) (b : Bool) (s : State) : State :=
  modFab n (fun x => { x with corr := x.corr + (if b then 2 else 1) }) s

theorem corrCounted_stays {α : Type} (φ : Fab → α) (noCorr : ∀ x v, φ { x with corr := v } = φ x) (n : Nat) (b : Bool)
    (s : State) (m : Nat) : φ ((corrCounted n b s).slab2 m).fab = φ (s.slab2 m).fab :=
  modFab_stays φ (fun _ => noCorr _ _) n m s

theorem onlySlabs2_corrCounted (n : Nat) (b : Bool) (s : State) : OnlySlabs2 s (corrCounted n b s) := rfl

/-- A replay counts (R321). -/
def replayCounted (n : Nat) (s : State) : State := modFab n (fun x => { x with replay := x.replay + 1 }) s

theorem replayCounted_stays {α : Type} (φ : Fab → α) (noReplay : ∀ x v, φ { x with replay := v } = φ x) (n : Nat)
    (s : State) (m : Nat) : φ ((replayCounted n s).slab2 m).fab = φ (s.slab2 m).fab :=
  modFab_stays φ (fun _ => noReplay _ _) n m s

theorem onlySlabs2_replayCounted (n : Nat) (s : State) : OnlySlabs2 s (replayCounted n s) := rfl

theorem onlySlabs2_setFails (dst src : FabPlace) (k : Nat) (s : State) : OnlySlabs2 s (setFails dst src k s) := rfl

/-- The state once the flit has arrived, and its corrected codewords have counted (R321). -/
def flitArrived (dst src : FabPlace) (r : FlitResult) (s : State) : State :=
  match r with
  | .corrected b => corrCounted dst.slab b (countEdge src dst s)
  | _ => countEdge src dst s

theorem edgeCrossed_flitArrived (dst src : FabPlace) (r : FlitResult) (s : State) :
    EdgeCrossed dst src s (flitArrived dst src r s) :=
  match r with
  | .good | .dropped => edgeCrossed_countEdge dst src s
  | .corrected _ => (edgeCrossed_countEdge dst src s).trans (onlySlabs2_corrCounted ..)
      (corrCounted_stays edgeCounts (fun _ _ => rfl) ..)

theorem flitArrived_ins (dst src : FabPlace) (r : FlitResult) (s : State) (m : Nat) :
    ((flitArrived dst src r s).slab2 m).fab.ins = (s.slab2 m).fab.ins :=
  match r with
  | .good | .dropped => countEdge_stays Fab.ins (fun _ _ _ _ _ => rfl) src dst s m
  | .corrected _ => (corrCounted_stays Fab.ins (fun _ _ => rfl) ..).trans
      (countEdge_stays Fab.ins (fun _ _ _ _ _ => rfl) src dst s m)

/-- The codewords that a reception corrected (R321). -/
def codewords : FlitResult → Nat
  | .corrected b => if b then 2 else 1
  | _ => 0

theorem flitArrived_corr (dst src : FabPlace) (r : FlitResult) (s : State) :
    ((flitArrived dst src r s).slab2 dst.slab).fab.corr = (s.slab2 dst.slab).fab.corr + BitVec.ofNat _ (codewords r) := by
  have counted := countEdge_stays Fab.corr (fun _ _ _ _ _ => rfl) src dst s dst.slab
  match r with
  | .good | .dropped =>
    refine counted.trans ?_
    exact (BitVec.add_zero _).symm
  | .corrected b =>
    unfold flitArrived corrCounted
    rw [modFab_fab_self]
    dsimp only
    rw [counted]
    cases b <;> rfl

/-- The flit has moved on, and the failures in a row at its edge are over (R319, R321). -/
def flitMoved (dst src : FabPlace) (r : FlitResult) (i : Option (FabPlace × Nat)) (c : Nat) (f : Flit) (s : State) :
    State :=
  moveFlit src dst i c f (setFails dst src 0 (flitArrived dst src r s))

section
variable (dst src : FabPlace) (r : FlitResult) (i : Option (FabPlace × Nat)) (c : Nat) (f : Flit) (s : State)

/-- The move and the end of the failures leave the rest of every fabric as the flit's arrival left it. -/
theorem flitMoved_stays {α : Type} (φ : Fab → α) (noIns : ∀ x l, φ { x with ins := l } = φ x)
    (noOuts : ∀ x l, φ { x with outs := l } = φ x) (noSends : ∀ x l, φ { x with sends := l } = φ x)
    (noFails : ∀ x l, φ { x with flitFails := l } = φ x) (m : Nat) :
    φ ((flitMoved dst src r i c f s).slab2 m).fab = φ ((flitArrived dst src r s).slab2 m).fab :=
  (moveFlit_stays φ noIns noOuts noSends ..).trans (setFails_stays φ noFails ..)

theorem edgeCrossed_flitMoved : EdgeCrossed dst src s (flitMoved dst src r i c f s) :=
  (edgeCrossed_flitArrived dst src r s).trans ((onlySlabs2_setFails ..).trans (onlySlabs2_moveFlit ..))
    (flitMoved_stays dst src r i c f s edgeCounts (fun _ _ => rfl) (fun _ _ => rfl) (fun _ _ => rfl) (fun _ _ => rfl) _)

theorem flitMoved_failsAt : failsAt (flitMoved dst src r i c f s) dst src = 0 :=
  (failsAt_congr (moveFlit_stays Fab.flitFails (fun _ _ => rfl) (fun _ _ => rfl) (fun _ _ => rfl) ..) src).trans
    (setFails_failsAt ..)

theorem flitMoved_corr :
    ((flitMoved dst src r i c f s).slab2 dst.slab).fab.corr = (s.slab2 dst.slab).fab.corr + BitVec.ofNat _ (codewords r) :=
  (flitMoved_stays dst src r i c f s Fab.corr (fun _ _ => rfl) (fun _ _ => rfl) (fun _ _ => rfl) (fun _ _ => rfl) _).trans
    (flitArrived_corr dst src r s)

theorem failsEnded_inFlits (p j : FabPlace) :
    inFlits (setFails dst src 0 (flitArrived dst src r s)) p j = inFlits s p j :=
  inFlits_congr ((setFails_stays Fab.ins (fun _ _ => rfl) dst src 0 _ p.slab).trans (flitArrived_ins dst src r s _)) j

end

theorem flitMoved_inFlits_dst (joins : joined src dst = true) (inner : isEnd dst.node = false) (r : FlitResult)
    (i : Option (FabPlace × Nat)) (c : Nat) (f : Flit) (s : State) :
    inFlits (flitMoved dst src r i c f s) dst src = inFlits s dst src ++ [{ f with hdr := setClass f.hdr c }] := by
  rw [flitMoved, moveFlit_inFlits_dst joins inner, failsEnded_inFlits]

theorem flitMoved_inFlits_src (joins : joined src dst = true) (r : FlitResult) (j : FabPlace) (cls c : Nat) (f : Flit)
    (s : State) : inFlits (flitMoved dst src r (some (j, cls)) c f s) src j = (inFlits s src j).erase f := by
  rw [flitMoved, moveFlit_inFlits_src joins, failsEnded_inFlits]

/-- The state once a flit has been dropped, with k drops in a row before it: it is replayed (R321). -/
def flitReplayed (dst src : FabPlace) (k : Nat) (s : State) : State :=
  setFails dst src (k + 1) (replayCounted dst.slab (countEdge src dst s))

section
variable (dst src : FabPlace) (k : Nat) (s : State)

theorem edgeCrossed_flitReplayed : EdgeCrossed dst src s (flitReplayed dst src k s) :=
  (edgeCrossed_countEdge dst src s).trans ((onlySlabs2_replayCounted ..).trans (onlySlabs2_setFails ..))
    ((setFails_stays edgeCounts (fun _ _ => rfl) ..).trans (replayCounted_stays edgeCounts (fun _ _ => rfl) ..))

theorem flitReplayed_failsAt : failsAt (flitReplayed dst src k s) dst src = k + 1 := setFails_failsAt ..

theorem flitReplayed_replay :
    ((flitReplayed dst src k s).slab2 dst.slab).fab.replay = (s.slab2 dst.slab).fab.replay + 1 := by
  refine (setFails_stays Fab.replay (fun _ _ => rfl) ..).trans ?_
  unfold replayCounted
  rw [modFab_fab_self]
  exact congrArg (· + 1) (countEdge_stays Fab.replay (fun _ _ _ _ _ => rfl) src dst s dst.slab)

theorem flitReplayed_inFlits (p j : FabPlace) : inFlits (flitReplayed dst src k s) p j = inFlits s p j :=
  inFlits_congr ((setFails_stays Fab.ins (fun _ _ => rfl) ..).trans
    ((replayCounted_stays Fab.ins (fun _ _ => rfl) ..).trans
      (countEdge_stays Fab.ins (fun _ _ _ _ _ => rfl) src dst s p.slab))) j

end

/-! ## The row -/

section
variable (live : s.live = true) (receives : (s.slab dst.slab).st ≠ .retired) (sends : (s.slab src.slab).st ≠ .retired)
  (joins : joined src dst = true)
include live receives sends joins

theorem exec_flitReceive_nothing (none_ : offered s src dst inject = none) (r : FlitResult) :
    exec (.flitReceive dst src inject r) s = .next s := by
  show execFlitReceive dst src inject r s = _
  unfold execFlitReceive
  rw [if_neg (by simp [live]), if_neg (by simp [receives, sends, joins]), none_]

variable (offers : offered s src dst inject = some (i, c, f))
include offers

theorem exec_flitReceive_moves {r : FlitResult} (taken : r ≠ .dropped) :
    exec (.flitReceive dst src inject r) s = .next (flitMoved dst src r i c f s) := by
  show execFlitReceive dst src inject r s = _
  unfold execFlitReceive
  rw [if_neg (by simp [live]), if_neg (by simp [receives, sends, joins]), offers]
  cases r with
  | dropped => exact absurd rfl taken
  | good => rfl
  | corrected b => rfl

theorem exec_flitReceive_replays (few : failsAt s dst src < 8) :
    exec (.flitReceive dst src inject .dropped) s = .next (flitReplayed dst src (failsAt s dst src) s) := by
  show execFlitReceive dst src inject .dropped s = _
  unfold execFlitReceive
  rw [if_neg (by simp [live]), if_neg (by simp [receives, sends, joins]), offers]
  exact if_neg (Nat.not_le.mpr few)

theorem exec_flitReceive_retires (many : 8 ≤ failsAt s dst src) :
    exec (.flitReceive dst src inject .dropped) s =
      .next (fullRetire dst.slab false 3 (fabEvent dst.slab 8 (countEdge src dst s))) := by
  show execFlitReceive dst src inject .dropped s = _
  unfold execFlitReceive
  rw [if_neg (by simp [live]), if_neg (by simp [receives, sends, joins]), offers]
  exact if_pos many

end

end Sys2Proof.Machine
end

section
/-! PROOF. Packets sent again, the scrub and the loss of a stack (R301, R302, R322): what a resend and a pass of the
scrub leave, and that poisoned units stay so while the resident weights of others are repaired. -/

namespace Sys2Proof.Machine

open Sys2Proof

-- Proofs one after another: the package compiles as one text under a memory limit.
set_option Elab.async false

variable {s t : State} {n p g un un' da len : Nat}

/-! ## A packet without its answer -/

/-- The packet of a number that a slab sent, with how often it was sent again, or a fresh one (R322). -/
def sentPacket (s : State) (n tseq : Nat) (atomic : Bool) (dest : Nat) : Nat × Nat × Bool × Nat :=
  ((s.slab2 n).fab.sends.find? fun x => x.1 == tseq).getD (tseq, 0, atomic, dest)

/-- The other packets that a slab sent. -/
def otherSends (s : State) (n tseq : Nat) : List (Nat × Nat × Bool × Nat) :=
  (s.slab2 n).fab.sends.filter fun x => x.1 != tseq

section
variable (live : s.live = true) (kept : (s.slab n).st ≠ .retired) (tseq : Nat) (atomic : Bool) (dest : Nat)
include live kept

theorem exec_transportResend_again (plain : (sentPacket s n tseq atomic dest).2.2.1 = false)
    (few : (sentPacket s n tseq atomic dest).2.1 < 3) :
    exec (.transportResend n tseq atomic dest) s = .next (modFab n (fun x => { x with
      resend := x.resend + 1
      sends := otherSends s n tseq ++
        [(tseq, (sentPacket s n tseq atomic dest).2.1 + 1, (sentPacket s n tseq atomic dest).2.2)] }) s) := by
  show execTransportResend n tseq atomic dest s = _
  unfold execTransportResend
  rw [if_neg (by simp [live]), if_neg kept]
  exact if_neg (by rw [← sentPacket, plain]; simpa using few)

theorem exec_transportResend_gives_up
    (last : (sentPacket s n tseq atomic dest).2.2.1 = true ∨ 3 ≤ (sentPacket s n tseq atomic dest).2.1) :
    exec (.transportResend n tseq atomic dest) s = .next (fullRetire (sentPacket s n tseq atomic dest).2.2.2 false 3
      (fabEvent n 4 (modFab n (fun x => { x with sends := otherSends s n tseq }) s))) := by
  show execTransportResend n tseq atomic dest s = _
  unfold execTransportResend
  rw [if_neg (by simp [live]), if_neg kept]
  exact if_pos (by rw [← sentPacket]; simpa using last)

end

/-! ## The scrub -/

/-- A pass of the scrub that finds no failed granule counts what it corrected and records its end (R301). -/
theorem hbmScrubPass_clean {k : Nat} (live : s.live = true) (stack : Config.slabStack n = some k)
    (kept : (s.slab n).st ≠ .retired) (scrubs : bit (s.slab2 n).hbm.scrub.toNat 31 = true) (corrected : Nat) :
    ∃ t, exec (.hbmScrubPass n corrected []) s = .next t ∧
      Posted (s.modSlab2 n fun x => { x with hbm := { x.hbm with
        corr := x.hbm.corr + BitVec.ofNat 64 corrected, events := x.hbm.events ||| 4 } }) t := by
  refine ⟨hbmEvent n 4 (s.modSlab2 n fun x => { x with hbm := { x.hbm with
    corr := x.hbm.corr + BitVec.ofNat 64 corrected } }), ?_, ?_⟩
  · show execHbmScrubPass n corrected [] s = _
    unfold execHbmScrubPass
    rw [if_neg (by simp [live]), stack]
    exact if_pos (by simp [kept, scrubs])
  · have posted := posted_hbmEvent n 4 (s.modSlab2 n fun x => { x with hbm := { x.hbm with
      corr := x.hbm.corr + BitVec.ofNat 64 corrected } })
    rw [State.modSlab2_modSlab2] at posted
    exact posted

/-! ## The records of granules -/

theorem hrec_congr (same : t.hbm = s.hbm) (g : Nat) : hrec t g = hrec s g := by
  unfold hrec
  rw [same]

theorem setGran_hrec_other {st : GranSt} {ctr : BitVec 56} {key : KeyOwner} (other : g ≠ da / 2048) (s : State) :
    hrec (setGran s da st ctr key) g = hrec s g := tget_tput_other _ _ _ other

theorem setGran_hrec_self (da : Nat) (st : GranSt) (ctr : BitVec 56) (key : KeyOwner) (s : State) :
    hrec (setGran s da st ctr key) (da / 2048) =
      if isFooter s da && highHalf da then { hrec s (da / 2048) with st1 := st, ctr1 := ctr, key1 := key }
      else { hrec s (da / 2048) with st0 := st, ctr0 := ctr, key0 := key } := tget_tput_same ..

/-- A write of HBM leaves the records of the granules that it does not reach. -/
theorem markValid_hrec_apart (key : KeyOwner) (fuel : Nat)
    (apart : len = 0 ∨ 2048 * (g + 1) ≤ da ∨ da + len ≤ 2048 * g) (s : State) :
    hrec (markValid key fuel da len s) g = hrec s g := by
  induction fuel generalizing da len s with
  | zero => rfl
  | succ fuel ih =>
    unfold markValid
    split
    · rfl
    · dsimp only
      rw [ih (by omega), setGran_hrec_other (by omega)]

theorem hbmWrite_hrec_apart {bs : List Byte} (apart : 2048 * (g + 1) ≤ da ∨ da + bs.length ≤ 2048 * g) (key : KeyOwner)
    (s : State) : hrec (hbmWrite key da bs s) g = hrec s g := markValid_hrec_apart key _ (.inr apart) s

/-- Writing a granule again leaves the record of every other. -/
theorem rewriteGran_hrec_other {bs : List Byte} (whole : bs.length = 2048) (other : g ≠ da / 2048) (s : State) :
    hrec (rewriteGran da bs s) g = hrec s g := by
  have event (m : Nat) (w : Word) (t : State) : Keeps [.env, .hostMem, .pcie, .slabs2, .funcs] t (hbmEvent m w t) :=
    keeps_hbmEvent (.refl t) m w (List.Subset.refl _)
  unfold rewriteGran
  refine (hrec_congr ((event ..).only .hbm (by decide)) g).trans (hbmWrite_hrec_apart ?_ _ s)
  rw [whole, show granBytes = 2048 from rfl]
  omega

theorem mread_length (m : Mem) (a n : Nat) : (mread m a n).length = n := by simp [mread]

/-- What a granule of resident weights is written with again is a whole granule (R302). -/
theorem residentGran_length {bs : List Byte} (resident : residentGran s da = some bs) : bs.length = 2048 := by
  unfold residentGran at resident
  obtain ⟨m, -, cell⟩ := Option.bind_eq_some_iff.mp resident
  obtain ⟨x, -, rfl⟩ := Option.map_eq_some_iff.mp cell
  exact mread_length ..

theorem repairWeights_hrec_other (other : g ≠ da / 2048) (s : State) : hrec (repairWeights da s) g = hrec s g := by
  refine rewriteGran_hrec_other ?_ other s
  cases resident : residentGran s da with
  | none =>
    rw [Option.getD_none, hbmRead, mread_length]
    rfl
  | some bs => exact residentGran_length resident

/-! ## Units that a loss took -/

/-- Both granules of a unit are POISONED (R302). -/
def UnitPoisoned (un : Nat) (s : State) : Prop :=
  (hrec s (2 * un)).st0 = .poisoned ∧ (hrec s (2 * un + 1)).st0 = .poisoned

/-- The start of a granule is in no second half. -/
theorem highHalf_of_start (start : da % 2048 = 0) : highHalf da = false := by
  unfold highHalf
  rw [show granBytes = 2048 from rfl, start]
  rfl

theorem UnitPoisoned.granAt_poisoned (poisoned : UnitPoisoned un s) :
    (granAt s (4096 * un)).1 = .poisoned ∧ (granAt s (4096 * un + granBytes)).1 = .poisoned := by
  have low (a : Nat) (start : a % 2048 = 0) : (granAt s a).1 = (hrec s (a / 2048)).st0 := by
    unfold granAt
    rw [highHalf_of_start start, Bool.and_false]
    rfl
  rw [low _ (by omega), low _ (by rw [show granBytes = 2048 from rfl]; omega), show granBytes = 2048 from rfl,
    show 4096 * un / 2048 = 2 * un by omega, show (4096 * un + 2048) / 2048 = 2 * un + 1 by omega]
  exact poisoned

theorem setGran_poisons {ctr : BitVec 56} {key : KeyOwner} (start : da % 2048 = 0) (s : State) :
    (hrec (setGran s da .poisoned ctr key) (da / 2048)).st0 = .poisoned := by
  rw [setGran_hrec_self, highHalf_of_start start, Bool.and_false]
  rfl

/-- Poisoning a granule or half makes no other one sound. -/
theorem setGran_poisoned_stays {ctr : BitVec 56} {key : KeyOwner} (poisoned : (hrec s g).st0 = .poisoned) (da : Nat) :
    (hrec (setGran s da .poisoned ctr key) g).st0 = .poisoned := by
  by_cases same : g = da / 2048
  · subst same
    rw [setGran_hrec_self]
    split
    · exact poisoned
    · rfl
  · rw [setGran_hrec_other same]
    exact poisoned

theorem poisonUnit_poisons (un : Nat) (s : State) : UnitPoisoned un (poisonUnit (4096 * un) s) := by
  have part (a : Nat) (mem : a ∈ (List.range 4).map fun i => 4096 * un + 1024 * i) (start : a % 2048 = 0) :
      (hrec (poisonUnit (4096 * un) s) (a / 2048)).st0 = .poisoned :=
    forAll_establishes (fun t => (hrec t (a / 2048)).st0 = .poisoned) _ _ a mem
      (fun t => setGran_poisons start t) (fun b _ _ poisoned => setGran_poisoned_stays poisoned b) s
  constructor
  · rw [show 2 * un = 4096 * un / 2048 by omega]
    exact part _ (List.mem_map.mpr ⟨0, by simp, rfl⟩) (by omega)
  · rw [show 2 * un + 1 = (4096 * un + 1024 * 2) / 2048 by omega]
    exact part _ (List.mem_map.mpr ⟨2, by simp, rfl⟩) (by omega)

theorem UnitPoisoned.poisonUnit (poisoned : UnitPoisoned un s) (da : Nat) : UnitPoisoned un (poisonUnit da s) :=
  forAll_keeps (UnitPoisoned un) _ _ (fun a _ _ was =>
    ⟨setGran_poisoned_stays was.1 a, setGran_poisoned_stays was.2 a⟩) s poisoned

theorem UnitPoisoned.congr (poisoned : UnitPoisoned un s) (same : t.hbm = s.hbm) : UnitPoisoned un t := by
  unfold UnitPoisoned
  rw [hrec_congr same, hrec_congr same]
  exact poisoned

theorem UnitPoisoned.repairWeights (poisoned : UnitPoisoned un s) (other : da / 4096 ≠ un) :
    UnitPoisoned un (repairWeights da s) := by
  unfold UnitPoisoned
  rw [repairWeights_hrec_other (by omega), repairWeights_hrec_other (by omega)]
  exact poisoned

/-! ## The loss of a stack, with nothing in flight -/

/-- The units that the loss took poisoned, and the partition's substitutes chosen (R302). -/
def lossPoisoned (p : Nat) (s : State) : State :=
  fixSubst p (forAll (newlyLost s p) (fun un t => poisonUnit (4096 * un) t) s)

/-- The units of resident weight stores among those that the loss took, where they have a home again (R302). -/
def unitsToRepair (p : Nat) (s : State) : List Nat :=
  (newlyLost s p).filter fun un => (residentStores s p).contains (un / 768) &&
    (homeUnit (lossPoisoned p s) (lossPoisoned p s).pkg.lostStacks un).isSome

/-- A unit's weights written again from the banks (R302). -/
def repairUnit (un : Nat) (s : State) : State := repairWeights (4096 * un + granBytes) (repairWeights (4096 * un) s)

/-- The state after a loss has been substituted (R302). -/
def lossRepaired (p : Nat) (s : State) : State :=
  dropStop p .stackLoss (forAll (unitsToRepair p s) repairUnit (lossPoisoned p s))

theorem exec_stackSubstitute_done (live : s.live = true) (stopped : (s.part2 p).stopped.contains .stackLoss = true)
    (none_ : openCmds s p = []) : exec (.stackSubstitute p) s = .next (lossRepaired p s) := by
  show execStackSubstitute p s = _
  unfold execStackSubstitute
  rw [if_neg (by simp [live]), if_pos (by rw [stopped, none_]; rfl)]
  rfl

theorem keeps_lossRepaired (p : Nat) (s : State) :
    Keeps [.env, .hostMem, .pcie, .slabs2, .parts2, .funcs, .hbm] s (lossRepaired p s) := by
  have poisons := (Keeps.refl s).forAll (newlyLost s p) (fun un t => poisonUnit (4096 * un) t)
    fun un _ kept => keeps_poisonUnit kept (4096 * un)
      (show _ ⊆ [SField.env, .hostMem, .pcie, .slabs2, .parts2, .funcs, .hbm] by decide)
  have repairs := (keeps_fixSubst poisons p (by decide)).forAll (unitsToRepair p s) repairUnit
    fun un _ kept => keeps_repairWeights (keeps_repairWeights kept (4096 * un) (by decide)) _ (by decide)
  exact keeps_dropStop repairs p .stackLoss (by decide)

/-- Every unit that the loss took is POISONED, but those of resident weight stores (R302). -/
theorem lossRepaired_poisoned (lost : un ∈ newlyLost s p) (plain : (residentStores s p).contains (un / 768) = false) :
    UnitPoisoned un (lossRepaired p s) := by
  have all := forAll_establishes (UnitPoisoned un) (fun un t => poisonUnit (4096 * un) t) (newlyLost s p) un lost
    (poisonUnit_poisons un) (fun b _ _ was => was.poisonUnit (4096 * b)) s
  have poisoned : UnitPoisoned un (lossPoisoned p s) :=
    all.congr ((keeps_fixSubst (.refl _) p (List.Subset.refl _)).only .hbm (by decide))
  refine (forAll_keeps (UnitPoisoned un) repairUnit _ (fun b mem t was => ?_) _ poisoned).congr rfl
  have apart : b ≠ un := by
    rintro rfl
    obtain ⟨-, repaired⟩ := List.mem_filter.mp mem
    rw [plain] at repaired
    cases repaired
  exact (was.repairWeights (by omega)).repairWeights (by rw [show granBytes = 2048 from rfl]; omega)

end Sys2Proof.Machine
end

section
/-! PROOF. O45: packets, flits, the scrub and the loss of a stack. -/

namespace Sys2Proof.Machine

open Sys2Proof

-- Proofs one after another: the package compiles as one text under a memory limit.
set_option Elab.async false

/-- A reception without a drop, and the codewords that it corrected. -/
theorem taken_of_corrected {w : Nat} {r : FlitResult} {n : BitVec w}
    (way : r = .good ∧ n = 0 ∨ r = .corrected false ∧ n = 1 ∨ r = .corrected true ∧ n = 2) :
    r ≠ .dropped ∧ BitVec.ofNat w (codewords r) = n := by
  obtain ⟨rfl, rfl⟩ | ⟨rfl, rfl⟩ | ⟨rfl, rfl⟩ := way
  · exact ⟨nofun, rfl⟩
  · exact ⟨nofun, rfl⟩
  · exact ⟨nofun, rfl⟩

/-- Settles O45: a packet is checked and served at its endpoint, a flit moves on, is replayed or retires its receiver, a
resend, a pass of the scrub and the substitution of a lost stack each leave what their rules give. Where the rules are
open the model's choices count: a fabric that cannot be routed moves no data (log 27), an UNWRITTEN read counts none
(log 49), and a reserved header is a misroute (log 50). -/
theorem packetsReachTheirEndpoint : Obligations.PacketsReachTheirEndpoint := by
  unfold Obligations.PacketsReachTheirEndpoint
  intro s live
  refine ⟨fun h q body found kept => ⟨?_, ?_, ?_, fun sent fresh up => ?_⟩,
    fun dst src inject receives sends joins => ⟨?_, fun i cls f offers => ⟨?_, ?_, ?_⟩⟩, ?_, ?_, ?_⟩
  · exact fun unfit => ⟨_, exec_packetDeliver_misrouted live kept unfit q, posted_misroute (hDslab h) s⟩
  · exact fun sent stale => ⟨_, exec_packetDeliver_stale live kept sent stale q, staleDropped_facts h q s⟩
  · exact fun sent fresh down => exec_packetDeliver_unroutable live kept sent fresh down q
  · rw [exec_packetDeliver_served live kept sent fresh up]
    obtain ⟨-, -, announced, -⟩ := sent
    refine ⟨?_, ?_, ?_, ?_, ?_, ?_, ?_, fun a acc => ⟨?_, ?_⟩⟩
    · exact fun acc => congrArg Host.Outcome.next (packetServed_other acc ..)
    · exact fun acc => congrArg Host.Outcome.next (packetServed_answer acc ..)
    · exact fun g k a acc clears => congrArg Host.Outcome.next (packetServed_waits acc announced clears q found)
    · rintro g k a len tile e acc clear rfl rfl admits
      exact congrArg Host.Outcome.next (packetServed_bankRead acc clear admits q len)
    · rintro g k a bs tile e acc clear rfl rfl
      refine ⟨fun admits => congrArg Host.Outcome.next (packetServed_bankWrite acc clear admits q bs), fun refuses => ?_⟩
      rw [packetServed_bankRefused acc clear refuses]
      exact ⟨_, rfl, writeRefused_facts (hCtx h) q g k a tile e s⟩
    · rintro da len tile e acc rfl rfl u good
      rw [packetServed_hbm acc, packetHbm_read good]
      exact ⟨rfl, onlyCounts_countAcc .., fun some_ within => countAcc_read some_ within _⟩
    · rintro da bs tile e acc rfl rfl n u good
      rw [packetServed_hbm acc, packetHbm_write good]
      exact ⟨_, rfl, countedWrite_facts (ctxKey s (hCtx h)) (some (hCtx h)) da bs s⟩
    · rintro len tile e rfl
      rw [packetServed_host acc]
      rfl
    · rintro bs tile e rfl idle
      rw [packetServed_host acc, packetHost_write idle]
  · exact fun none_ r => exec_flitReceive_nothing live receives sends joins none_ r
  · intro r n way
    obtain ⟨taken, rfl⟩ := taken_of_corrected way
    have crossed := edgeCrossed_flitMoved dst src r i cls f s
    refine ⟨_, exec_flitReceive_moves live receives sends joins offers taken, ⟨crossed.only, crossed.edges⟩,
      flitMoved_failsAt .., flitMoved_corr .., fun inner => flitMoved_inFlits_dst joins inner .., ?_⟩
    rintro j c rfl
    exact flitMoved_inFlits_src joins ..
  · intro few
    have crossed := edgeCrossed_flitReplayed dst src (failsAt s dst src) s
    exact ⟨_, exec_flitReceive_replays live receives sends joins offers few, ⟨crossed.only, crossed.edges⟩,
      flitReplayed_failsAt .., flitReplayed_replay .., fun p j => flitReplayed_inFlits ..⟩
  · exact exec_flitReceive_retires live receives sends joins offers
  · exact fun n tseq atomic dest kept => ⟨exec_transportResend_again live kept tseq atomic dest,
      exec_transportResend_gives_up live kept tseq atomic dest⟩
  · exact fun n k stack kept scrubs => hbmScrubPass_clean live stack kept scrubs
  · intro p stopped none_
    have rest := keeps_lossRepaired p s
    exact ⟨_, exec_stackSubstitute_done live stopped none_, dropStop_stopped .., fun un lost plain =>
      (lossRepaired_poisoned lost plain).granAt_poisoned, rest.only .bankMem (by decide), rest.ctx⟩

end Sys2Proof.Machine
end

section
/-! PROOF. Admission, eviction, swaps and slices (R382, R384 to R386): what bringing a context up to date leaves of a
swap, what an admission and an eviction make of the contexts of a partition, and what the end of a swap leaves. -/

namespace Sys2Proof.Machine

open Sys2Proof

-- Proofs one after another: the package compiles as one text under a memory limit.
set_option Elab.async false

variable {c p : Nat} {s : State} {st : Status} {dw : List Nat}

/-! ## Bringing a context up to date -/

@[simp] theorem settle_swapping (c : Nat) (s : State) :
    ((settle c s).ctx c).sched.swapping = (s.ctx c).sched.swapping := by
  rw [settle_ctx_same]

@[simp] theorem settle_stored (c : Nat) (s : State) : ((settle c s).ctx c).sched.stored = (s.ctx c).sched.stored := by
  rw [settle_ctx_same]

@[simp] theorem settle_saved (c : Nat) (s : State) : ((settle c s).ctx c).sched.saved = (s.ctx c).sched.saved := by
  rw [settle_ctx_same]

@[simp] theorem settle_swapins (c : Nat) (s : State) : ((settle c s).ctx c).reg.swapins = (s.ctx c).reg.swapins := by
  rw [settle_ctx_same]

theorem Ctx.settled_mem (x : Ctx) : x.settled ∈ [CtxSt.resident, .running, .blocked] := by
  unfold Ctx.settled
  split
  · simp
  · split <;> simp

/-- A resident context with no swap in progress stands in one of the states of R379. -/
theorem settle_st_mem (notMgmt : c ≠ 0) (resident : (s.ctx c).reg.st = .resident)
    (still : (s.ctx c).sched.swapping = .none) :
    ((settle c s).ctx c).reg.st ∈ [CtxSt.resident, .running, .blocked] := by
  rw [settle_st c s notMgmt, resident]
  exact (if_pos still).symm ▸ Ctx.settled_mem _

/-- Any other state lasts (R380). -/
theorem settle_st_of_away (notMgmt : c ≠ 0) (away : (s.ctx c).reg.st ∉ [CtxSt.resident, .running, .blocked]) :
    ((settle c s).ctx c).reg.st = (s.ctx c).reg.st := by
  rw [settle_st c s notMgmt]
  cases state : (s.ctx c).reg.st <;> simp_all

/-! ## Admission -/

/-- The state in which a context holds every bank that it uses (R386). -/
def banksHeld (c : Nat) (s : State) : State :=
  forAll (ctxBanks s c)
    (fun gk t => t.modBank (bankIx gk.1 gk.2) fun b => { b with holder := some c, owner := 0, peer := 0 }) s

theorem banksHeld_ctx (c : Nat) (s : State) (d : Nat) : (banksHeld c s).ctx d = s.ctx d :=
  forAll_other (fun t => t.ctx d) _ _ (fun _ _ _ => State.modBank_ctx ..) s

theorem banksHeld_holder {gk : Nat × Nat} (uses : gk ∈ ctxBanks s c) :
    ((banksHeld c s).bank (bankIx gk.1 gk.2)).holder = some c := by
  unfold banksHeld
  rw [forAll_modBank_bank _ (fun b => { b with holder := some c, owner := 0, peer := 0 }) (fun _ => rfl),
    if_pos ⟨gk, uses, rfl⟩]

theorem makeResident_of_loaded (loaded : (s.ctx c).reg.st = .loaded) : makeResident c s =
    settle c (s.modCtx c fun x => { x with
      reg := { x.reg with st := .resident, res := true }, sched := { x.sched with runnableAt := none } }) :=
  if_neg (by simp [loaded])

theorem makeResident_of_swapped (swapped : (s.ctx c).reg.st = .swapped) : makeResident c s =
    settle c ((banksHeld c s).modCtx c fun x => { x with
      sched := { x.sched with swapping := .in, runnableAt := none } }) := if_pos swapped

section
variable {r : List Nat} (first : runnables s p = c :: r)
include first

theorem exec_ctxAdmit_admits (fits : admissible s p c = true) :
    exec (.ctxAdmit p) s = .next (makeResident c s) := by
  show Host.Outcome.next (considerAll p (runnables s p) s) = _
  rw [first, considerAll, if_pos fits]

theorem exec_ctxAdmit_evicts {vs : List Nat} (full : admissible s p c = false) (eligible : victims s p c = some vs) :
    exec (.ctxAdmit p) s = .next (forAll vs (fun v t => evict p v t) s) := by
  show Host.Outcome.next (considerAll p (runnables s p) s) = _
  rw [first, considerAll, if_neg (by simp [full]), eligible]

/-- From LOADED the context is resident at once (R384). -/
theorem exec_ctxAdmit_loaded (notMgmt : c ≠ 0) (fits : admissible s p c = true) (loaded : (s.ctx c).reg.st = .loaded)
    (still : (s.ctx c).sched.swapping = .none) :
    ∃ t, exec (.ctxAdmit p) s = .next t ∧ (t.ctx c).reg.res = true ∧
      (t.ctx c).reg.st ∈ [CtxSt.resident, .running, .blocked] ∧ ∀ d, d ≠ c → t.ctx d = s.ctx d := by
  refine ⟨_, exec_ctxAdmit_admits first fits, ?_⟩
  rw [makeResident_of_loaded loaded]
  refine ⟨by rw [settle_res, State.modCtx_ctx_self], settle_st_mem notMgmt ?_ ?_, fun d other => ?_⟩
  · rw [State.modCtx_ctx_self]
  · rw [State.modCtx_ctx_self]
    exact still
  · rw [settle_ctx_other _ other, State.modCtx_ctx_other _ _ other]

/-- From SWAPPED the context takes hold of its banks and swaps in (R384, R386). -/
theorem exec_ctxAdmit_swapped (notMgmt : c ≠ 0) (fits : admissible s p c = true)
    (swapped : (s.ctx c).reg.st = .swapped) :
    ∃ t, exec (.ctxAdmit p) s = .next t ∧ (t.ctx c).reg.st = .swapped ∧ (t.ctx c).sched.swapping = .in ∧
      (∀ gk ∈ ctxBanks s c, (t.bank (bankIx gk.1 gk.2)).holder = some c) ∧ ∀ d, d ≠ c → t.ctx d = s.ctx d := by
  refine ⟨_, exec_ctxAdmit_admits first fits, ?_⟩
  rw [makeResident_of_swapped swapped]
  have still : (((banksHeld c s).modCtx c fun x => { x with
      sched := { x.sched with swapping := .in, runnableAt := none } }).ctx c).reg.st = .swapped := by
    rw [State.modCtx_ctx_self, banksHeld_ctx]
    exact swapped
  refine ⟨(settle_st_of_away notMgmt (by rw [still]; decide)).trans still, ?_, fun gk uses => ?_, fun d other => ?_⟩
  · rw [settle_swapping, State.modCtx_ctx_self]
  · rw [settle_eq]
    exact banksHeld_holder uses
  · rw [settle_ctx_other _ other, State.modCtx_ctx_other _ _ other, banksHeld_ctx]

end

/-! ## Eviction -/

/-- What an eviction makes of the contexts: its events are posted besides (R385). -/
theorem evict_ctx (p v : Nat) (s : State) (d : Nat) : (evict p v s).ctx d = (s.modCtx v fun x => { x with
    reg := { x.reg with evictions := x.reg.evictions + 1, events := x.reg.events ||| 2 },
    sched := { x.sched with swapping := .out } }).ctx d := by
  unfold evict
  extract_lets lc s1 s2 s3
  have same : ∀ e, s3.ctx e = s1.ctx e := by
    intro e
    unfold s3
    split
    · rw [(posted_schedEvent ..).ctx]
      rfl
    · rfl
  rw [(posted_ctxEvent ..).ctx]
  by_cases here : d = v
  · subst here
    rw [State.modCtx_ctx_self, same, State.modCtx_ctx_self, State.modCtx_ctx_self]
  · rw [State.modCtx_ctx_other _ _ here, same, State.modCtx_ctx_other _ _ here, State.modCtx_ctx_other _ _ here]

theorem evict_swapping (p v : Nat) (s : State) : ((evict p v s).ctx v).sched.swapping = .out := by
  rw [evict_ctx, State.modCtx_ctx_self]

theorem evict_ctx_other {d : Nat} (p v : Nat) (s : State) (other : d ≠ v) : (evict p v s).ctx d = s.ctx d := by
  rw [evict_ctx, State.modCtx_ctx_other _ _ other]

theorem forAll_evict_swapping {v : Nat} (p : Nat) (vs : List Nat) (s : State) (mem : v ∈ vs) :
    ((forAll vs (fun v t => evict p v t) s).ctx v).sched.swapping = .out := by
  refine forAll_establishes (fun t => (t.ctx v).sched.swapping = .out) _ vs v mem (fun t => evict_swapping p v t)
    (fun w _ t out => ?_) s
  by_cases same : v = w
  · rw [same]
    exact evict_swapping ..
  · rw [evict_ctx_other _ _ _ same]
    exact out

theorem forAll_evict_ctx_other {d : Nat} (p : Nat) (vs : List Nat) (s : State) (other : d ∉ vs) :
    (forAll vs (fun v t => evict p v t) s).ctx d = s.ctx d :=
  forAll_other (fun t => t.ctx d) _ vs
    (fun _ mem t => evict_ctx_other p _ t fun same => other (same ▸ mem)) s

/-! ## The end of a swap-out -/

theorem swapOut_ctx (c : Nat) (s : State) (d : Nat) : (swapOut c s).ctx d =
    (s.modCtx c fun x => { x with sched := { x.sched with stored := true } }).ctx d := by
  unfold swapOut
  extract_lets t1 t2
  have stored : ∀ e, t1.ctx e = s.ctx e := fun e => (keeps_putUnits (.refl s) _ _ _ _ (List.Subset.refl _)).ctx e
  have freed : (forAll (ctxBanks s c) releaseBank t2).ctx d = t2.ctx d :=
    forAll_other (fun t => t.ctx d) _ _ (fun _ _ _ => State.modBank_ctx ..) t2
  rw [freed]
  by_cases here : d = c
  · rw [here, State.modCtx_ctx_self, State.modCtx_ctx_self, stored]
  · rw [State.modCtx_ctx_other _ _ here, State.modCtx_ctx_other _ _ here, stored]

/-- Where a context stands that has left its banks (R380). -/
def leftSt (x : Ctx) : CtxSt :=
  match x.reg.st with
  | .halted => .halted
  | .blockedKv => .blockedKv
  | _ => if x.hasBanks then .swapped else .loaded

theorem leftSt_away (x : Ctx) : leftSt x ∉ [CtxSt.resident, .running, .blocked] := by
  unfold leftSt
  split
  · decide
  · decide
  · split <;> decide

/-- That state lasts when the context is brought up to date. -/
theorem settle_leftSt {x : Ctx} (notMgmt : c ≠ 0) (left : (s.ctx c).reg.st = leftSt x) :
    ((settle c s).ctx c).reg.st = leftSt x :=
  (settle_st_of_away notMgmt (left ▸ leftSt_away x)).trans left

theorem leaveBanks_ctx_self (c : Nat) (s : State) : (leaveBanks c s).ctx c = { s.ctx c with
    reg := { (s.ctx c).reg with res := false, st := leftSt (s.ctx c) },
    sched := { (s.ctx c).sched with swapping := .none, stored := true } } := by
  unfold leaveBanks
  rw [State.modCtx_ctx_self, swapOut_ctx, State.modCtx_ctx_self]
  rfl

theorem near_leaveBanks (c : Nat) (s : State) : Near c s (leaveBanks c s) where
  others d other := by
    unfold leaveBanks
    rw [State.modCtx_ctx_other _ _ other, swapOut_ctx, State.modCtx_ctx_other _ _ other]
  cmds := by rw [leaveBanks_ctx_self]

/-! ## Commands that end together -/

/-- The state in which every listed command has ended: its context and number. -/
def finishAll (l : List (Nat × Nat)) (st : Status) (dw : List Nat) (s : State) : State :=
  forAll l (fun w t => finish w.1 w.2 st dw t) s

theorem finish_ctx (c q : Nat) (st : Status) (dw : List Nat) (s : State) (d : Nat) :
    (finish c q st dw s).ctx d = { s.ctx d with cmds := ((finish c q st dw s).ctx d).cmds } := by
  by_cases here : d = c
  · rw [here]
    exact finish_ctx_same ..
  · rw [finish_ctx_other _ _ _ _ here]

theorem finish_getCmd_isSome (c q : Nat) (st : Status) (dw : List Nat) (s : State) (d r : Nat) :
    (getCmd (finish c q st dw s) d r).isSome = (getCmd s d r).isSome := by
  unfold finish
  rw [fixForms_getCmd]
  by_cases here : d = c
  · rw [here, getCmd_modCmd, Option.isSome_map]
    exact fun _ => rfl
  · rw [getCmd_congr (modCmd_ctx_other _ _ _ here)]

/-- A command that has ended stays so where others end alike. -/
theorem Ended.finish {d r : Nat} (ended : Ended s d r st dw) (c q : Nat) :
    Ended (finish c q st dw s) d r st dw := by
  by_cases here : d = c
  · subst here
    by_cases same : r = q
    · subst same
      obtain ⟨m, found, _⟩ := ended
      exact finish_ended st dw found
    · unfold Ended
      rw [finish_others _ _ _ _ _ _ same]
      exact ended
  · exact ended.of_ctx_eq (finish_ctx_other _ _ _ _ here)

theorem finishAll_ctx (l : List (Nat × Nat)) (st : Status) (dw : List Nat) (s : State) (d : Nat) :
    (finishAll l st dw s).ctx d = { s.ctx d with cmds := ((finishAll l st dw s).ctx d).cmds } := by
  refine forAll_keeps (fun t => t.ctx d = { s.ctx d with cmds := (t.ctx d).cmds }) _ l (fun w _ t only => ?_) s rfl
  rw [finish_ctx, only]

theorem finishAll_ended {l : List (Nat × Nat)} {w : Nat × Nat} (mem : w ∈ l) (st : Status) (dw : List Nat)
    (found : (getCmd s w.1 w.2).isSome = true) : Ended (finishAll l st dw s) w.1 w.2 st dw := by
  have stays : (getCmd (finishAll l st dw s) w.1 w.2).isSome = true :=
    (forAll_other (fun t => (getCmd t w.1 w.2).isSome) _ l (fun _ _ _ => finish_getCmd_isSome ..) s).trans found
  refine forAll_establishes (fun t => (getCmd t w.1 w.2).isSome = true → Ended t w.1 w.2 st dw) _ l w mem
    (fun t there => ?_) (fun v _ t ends there => ?_) s stays
  · rw [finish_getCmd_isSome] at there
    obtain ⟨m, found⟩ := Option.isSome_iff_exists.1 there
    exact finish_ended st dw found
  · rw [finish_getCmd_isSome] at there
    exact (ends there).finish v.1 v.2

/-! ## SWAP_OUT_DONE and SWAP_IN_DONE -/

/-- The state after a swap-out in which the commands that waited for it are still to end. -/
def swappedOut (c : Nat) (s : State) : State :=
  (leaveBanks c s).modCtx c fun x => { x with sched := { x.sched with saved := decide (waitingSaves s c ≠ []) } }

theorem near_swappedOut (c : Nat) (s : State) : Near c s (swappedOut c s) := (near_leaveBanks c s).modCtx _

theorem swappedOut_ctx_self (c : Nat) (s : State) : (swappedOut c s).ctx c = { s.ctx c with
    reg := { (s.ctx c).reg with res := false, st := leftSt (s.ctx c) },
    sched := { (s.ctx c).sched with
      swapping := .none, stored := true, saved := decide (waitingSaves s c ≠ []) } } := by
  unfold swappedOut
  rw [State.modCtx_ctx_self, leaveBanks_ctx_self]

theorem exec_swapOutDone (leaves : (s.ctx c).sched.swapping = .out) : exec (.swapOutDone c) s =
    .next (settle c (finishAll (waitingSaves s c) .ok [] (swappedOut c s))) := if_pos leaves

theorem exec_swapOutDone_facts (notMgmt : c ≠ 0) (leaves : (s.ctx c).sched.swapping = .out) :
    ∃ t, exec (.swapOutDone c) s = .next t ∧
      (t.ctx c).reg.res = false ∧ (t.ctx c).sched.swapping = .none ∧ (t.ctx c).reg.st = leftSt (s.ctx c) ∧
      ((t.ctx c).sched.saved = true ↔ waitingSaves s c ≠ []) ∧
      ∀ w ∈ waitingSaves s c, (getCmd s w.1 w.2).isSome → Ended t w.1 w.2 .ok [] := by
  refine ⟨_, exec_swapOutDone leaves, ?_, ?_, settle_leftSt notMgmt ?_, ?_, fun w mem found => ?_⟩
  · rw [settle_res, finishAll_ctx, swappedOut_ctx_self]
  · rw [settle_swapping, finishAll_ctx, swappedOut_ctx_self]
  · rw [finishAll_ctx, swappedOut_ctx_self]
  · rw [settle_saved, finishAll_ctx, swappedOut_ctx_self]
    exact decide_eq_true_iff
  · have ended : Ended (finishAll (waitingSaves s c) .ok [] (swappedOut c s)) w.1 w.2 .ok [] :=
      finishAll_ended mem .ok [] (by rwa [(near_swappedOut c s).getCmd])
    unfold Ended
    rw [settle_getCmd]
    exact ended

/-- The state after a swap-in that could read its stores. -/
def swappedIn (c : Nat) (s : State) : State :=
  (swapIn c s).modCtx c fun x => { x with
    reg := { x.reg with
      res := true, swapins := x.reg.swapins + 1, st := if x.reg.st = .swapped then .resident else x.reg.st },
    sched := { x.sched with swapping := .none, stored := false } }

theorem swapIn_ctx (c : Nat) (s : State) (d : Nat) : (swapIn c s).ctx d = s.ctx d :=
  (keeps_swapIn (.refl s) c (List.Subset.refl _)).ctx d

theorem exec_swapInDone (enters : (s.ctx c).sched.swapping = .in) (reads : (weightBad s c).or (swapBad s c) = none) :
    exec (.swapInDone c) s = .next (settle c (swappedIn c s)) := by
  show execSwapInDone c s = _
  unfold execSwapInDone
  rw [if_pos enters, reads]
  rfl

theorem exec_swapInDone_facts (notMgmt : c ≠ 0) (enters : (s.ctx c).sched.swapping = .in)
    (reads : (weightBad s c).or (swapBad s c) = none) :
    ∃ t, exec (.swapInDone c) s = .next t ∧
      (t.ctx c).reg.res = true ∧ (t.ctx c).reg.swapins = (s.ctx c).reg.swapins + 1 ∧
      (t.ctx c).sched.swapping = .none ∧ (t.ctx c).sched.stored = false ∧
      ((s.ctx c).reg.st = .swapped → (t.ctx c).reg.st ∈ [CtxSt.resident, .running, .blocked]) ∧
      ∀ d, d ≠ c → t.ctx d = s.ctx d := by
  have self : (swappedIn c s).ctx c = { s.ctx c with
      reg := { (s.ctx c).reg with
        res := true, swapins := (s.ctx c).reg.swapins + 1,
        st := if (s.ctx c).reg.st = .swapped then .resident else (s.ctx c).reg.st },
      sched := { (s.ctx c).sched with swapping := .none, stored := false } } := by
    unfold swappedIn
    rw [State.modCtx_ctx_self, swapIn_ctx]
  refine ⟨_, exec_swapInDone enters reads, ?_, ?_, ?_, ?_, fun swapped => settle_st_mem notMgmt ?_ ?_,
    fun d other => ?_⟩
  · rw [settle_res, self]
  · rw [settle_swapins, self]
  · rw [settle_swapping, self]
  · rw [settle_stored, self]
  · rw [self]
    exact if_pos swapped
  · rw [self]
  · unfold swappedIn
    rw [settle_ctx_other _ other, State.modCtx_ctx_other _ _ other, swapIn_ctx]

/-! ## The statement -/

theorem exec_sliceExpire {h : Nat} (holder : (s.part2 p).slice = some h) :
    exec (.sliceExpire p) s = .next (s.modPart2 p fun x => { x with
      slice := nextAfter (sliceCands s p) h, sliceLast := (nextAfter (sliceCands s p) h).getD h }) := by
  show execSliceExpire p s = _
  unfold execSliceExpire
  rw [holder]

/-- Settles O42: each row is the model's own operation on the context, and bringing the context up to date leaves what
that operation did to its swap (R379, R380). -/
theorem contextsAreAdmittedAndSwapped : Obligations.ContextsAreAdmittedAndSwapped := by
  unfold Obligations.ContextsAreAdmittedAndSwapped
  refine ⟨fun p c r s first notMgmt => ⟨exec_ctxAdmit_loaded first notMgmt, exec_ctxAdmit_swapped first notMgmt,
      fun vs full eligible => ⟨_, exec_ctxAdmit_evicts first full eligible,
        fun v mem => forAll_evict_swapping p vs s mem, fun d other => forAll_evict_ctx_other p vs s other⟩⟩,
    fun c s notMgmt => ⟨exec_swapOutDone_facts notMgmt, exec_swapInDone_facts notMgmt⟩,
    fun p h s holder => exec_sliceExpire holder⟩

end Sys2Proof.Machine
end

section
/-! PROOF. The test port and the management port (R448, R449, R539): what the test port captures, the locations and
the words of memory that it reaches (the firmware area at its copies, log 49; what EXTEST drives, log 30), and the
transfers of the management port. -/

namespace Sys2Proof.Machine

open Sys2Proof

-- Proofs one after another: the package compiles as one text under a memory limit.
set_option Elab.async false

variable {s : State}

/-! ## Instructions that capture a value at once -/

/-- The state in which EXTEST drives no pin any more (R449). -/
def undriven (s : State) : State := { s with pkc2 := { s.pkc2 with jtagDrive := none } }

section
variable (reached : srcLive s .jtag = true)
include reached

theorem jtagCapture_reached (w v : Nat) : jtagCapture w v s = .next ((undriven s).answer (.capture w v)) :=
  if_pos reached

theorem exec_samplePreload (v : Nat) : exec (.samplePreload v) s = .next (boundaryCapture { s with pkc2 := { s.pkc2 with
    jtagBoundary := v % 2 ^ Config.boundaryCells, jtagDrive := none } }) := if_pos reached

theorem exec_extest_bypass (running : s.pkc2.sysResetN = true) (v : Nat) :
    exec (.extest v) s = .next ((undriven s).answer (.capture 1 (v % 2))) :=
  (if_pos reached).trans <| (if_pos running).trans <| jtagCapture_reached reached ..

theorem exec_extest_drives (held : s.pkc2.sysResetN = false) (v : Nat) :
    exec (.extest v) s = .next (boundaryCapture { s with pkc2 := { s.pkc2 with
      jtagBoundary := v % 2 ^ Config.boundaryCells, jtagDrive := some (v % 2 ^ Config.boundaryCells) } }) :=
  (if_pos reached).trans <| if_neg (by simp [held])

/-! ## REG_ACCESS -/

/-- A read captures the value, or ERR. -/
theorem exec_regAccess_read (ind : Bool) (a : BitVec 32) : ∃ t, exec (.regAccess ind a none) s = .next t ∧
    match directRead (undriven s) ind a.toNat with
    | some w => t = jtagAnswer 66 false w.toNat (undriven s)
    | none => t = jtagAnswer 66 true 0 (undriven s) := by
  show ∃ t, execRegAccess ind a none s = .next t ∧ _
  unfold execRegAccess
  rw [if_neg (by simp [reached])]
  dsimp only
  rw [← undriven]
  cases directRead (undriven s) ind a.toNat with
  | some w => exact ⟨_, rfl, rfl⟩
  | none => exact ⟨_, rfl, rfl⟩

/-- A write captures ERR for a location that is none or refuses it; it is the register's own. -/
theorem exec_regAccess_write (ind : Bool) (a v : BitVec 32) : ∃ t, exec (.regAccess ind a (some v)) s = .next t ∧
    match directLoc (undriven s) ind a.toNat with
    | .error _ => t = jtagAnswer 66 true 0 (undriven s)
    | .ok r => match judgeWrite (undriven s) r.1 r.2 with
      | .error _ => t = jtagAnswer 66 true 0 (undriven s)
      | .ignored => t = jtagAnswer 66 false 0 (undriven s)
      | .ok l => t = jtagAnswer 66 false 0 (l.write .jtag (viewValue r.1 (l.read (undriven s)) v) (undriven s)) := by
  show ∃ t, execRegAccess ind a (some v) s = .next t ∧ _
  unfold execRegAccess
  rw [if_neg (by simp [reached])]
  dsimp only
  rw [← undriven]
  rcases directLoc (undriven s) ind a.toNat with _ | ⟨view, l⟩
  · exact ⟨_, rfl, rfl⟩
  · dsimp only
    cases judgeWrite (undriven s) view l with
    | error k => exact ⟨_, rfl, rfl⟩
    | ignored => exact ⟨_, rfl, rfl⟩
    | ok l => exact ⟨_, rfl, rfl⟩

end

/-! ## Words of banks -/

/-- The state in which the access to a bank counts for the context that holds it (R448). -/
def holderCounted (g k : Nat) (s : State) : State :=
  match (s.bank (bankIx g k)).holder with
  | some c => opAccess c s
  | none => s

/-- Is a bank address of the test port misaligned, or one of no bank (R449)? -/
abbrev noBankWord (s : State) (a : Nat) : Prop :=
  a % 4 ≠ 0 ∨ 6400 ≤ a / 2 ^ 23 ∨ bankBytes < a % 2 ^ 21 + 4 ∨ serverOf s (a / 2 ^ 23 / 64) = none

theorem memBank_error {a : Nat} (bad : noBankWord s a) (w : Option Word) : memBank a w s = jtagAnswer 98 true 0 s :=
  if_pos (by rwa [Option.isNone_iff_eq_none])

theorem memBank_read {a : Nat} (good : ¬ noBankWord s a) : memBank a none s =
    jtagAnswer 98 false (bankWord s (a / 2 ^ 23) (a / 2 ^ 21 % 4) (a % 2 ^ 21))
      (holderCounted (a / 2 ^ 23) (a / 2 ^ 21 % 4) s) :=
  if_neg (by rwa [Option.isNone_iff_eq_none])

theorem memBank_write {a : Nat} (good : ¬ noBankWord s a) (v : Word) : memBank a (some v) s =
    jtagAnswer 98 false 0 (bankWrite (a / 2 ^ 23) (a / 2 ^ 21 % 4) (a % 2 ^ 21) (toBytes 4 v.toNat)
      (holderCounted (a / 2 ^ 23) (a / 2 ^ 21 % 4) s)) :=
  if_neg (by rwa [Option.isNone_iff_eq_none])

/-! ## Words of HBM -/

section
variable {da : Nat}

theorem memWord_read (da : Nat) (u : State) :
    match granBad (countAcc none false (spanFuel 4) da 4 u) (daKey u da) da with
    | none => memWord da none u = jtagAnswer 98 false (ofBytes (hbmRead (countAcc none false (spanFuel 4) da 4 u) da 4))
        (countAcc none false (spanFuel 4) da 4 u)
    | some b => memWord da none u = jtagAnswer 98 true 0 (hbmFault da b (countAcc none false (spanFuel 4) da 4 u)) := by
  unfold memWord
  dsimp only
  cases granBad (countAcc none false (spanFuel 4) da 4 u) (daKey u da) da with
  | none => rfl
  | some b => rfl

theorem memWord_write (da : Nat) (v : Word) (u : State) :
    match writeBad (countAcc none true (spanFuel 4) da 4 u) none (daKey u da) (spanFuel 4) da 4 with
    | none => memWord da (some v) u = jtagAnswer 98 false 0
        (hbmWrite (daKey u da) da (toBytes 4 v.toNat) (countAcc none true (spanFuel 4) da 4 u))
    | some e => memWord da (some v) u =
        jtagAnswer 98 true 0 (hbmFault e.1 e.2 (countAcc none true (spanFuel 4) da 4 u)) := by
  unfold memWord
  dsimp only
  cases writeBad (countAcc none true (spanFuel 4) da 4 u) none (daKey u da) (spanFuel 4) da 4 with
  | none => rfl
  | some e => rfl

/-- The copies of a word that an access of the test port is made at: those of the firmware area in service, or the word
itself (R290, R303). -/
def memCopies (s : State) (da : Nat) : List Nat := if inFirmware da then fwCopies s da else [da]

theorem memHbm_error (bad : da % 4 ≠ 0 ∨ daEnd < da + 4) (w : Option Word) : memHbm da w s = jtagAnswer 98 true 0 s :=
  if_pos bad

theorem memHbm_copies (good : ¬ (da % 4 ≠ 0 ∨ daEnd < da + 4)) (w : Option Word) : memHbm da w s =
    match memCopies (opAccess (daCtx s da) s) da, w with
    | [], _ => jtagAnswer 98 true 0 (opAccess (daCtx s da) s)
    | d :: _, none => memWord d none (opAccess (daCtx s da) s)
    | d :: r, some v => r.foldl (fun u e => memWord e (some v) u) (memWord d (some v) (opAccess (daCtx s da) s)) := by
  unfold memHbm memCopies
  rw [if_neg good]
  dsimp only
  by_cases firmware : inFirmware da = true
  · rw [if_pos firmware, if_pos firmware]
    cases fwCopies (opAccess (daCtx s da) s) da <;> cases w <;> rfl
  · rw [if_neg firmware, if_neg firmware]
    cases w <;> rfl

end

/-! ## MEM_ACCESS -/

section
variable (reached : srcLive s .jtag = true)
include reached

theorem exec_memAccess_down (down : s.live = false ∨ s.pkc.recovery = true ∨ s.pkg.unroutable = true) (hbm : Bool)
    (a : Nat) (w : Option Word) : exec (.memAccess hbm a w) s = .next (jtagAnswer 98 true 0 (undriven s)) :=
  (if_neg (by simp [reached])).trans <| if_pos <| by
    show (!s.live || s.pkc.recovery || s.pkg.unroutable) = true
    simpa [or_assoc] using down

variable (live : s.live = true) (serves : s.pkc.recovery = false) (routes : s.pkg.unroutable = false)
include live serves routes

theorem exec_memAccess (hbm : Bool) (a : Nat) (w : Option Word) : exec (.memAccess hbm a w) s =
    .next (if hbm then memHbm a w (undriven s) else memBank a w (undriven s)) :=
  (if_neg (by simp [reached])).trans <| if_neg <| by
    show ¬ (!s.live || s.pkc.recovery || s.pkg.unroutable) = true
    simp [live, serves, routes]

theorem exec_memAccess_bank (a : Nat) (w : Option Word) : ∃ t, exec (.memAccess false a w) s = .next t ∧
    if noBankWord (undriven s) a then t = jtagAnswer 98 true 0 (undriven s)
    else match w with
      | none => t = jtagAnswer 98 false (bankWord s (a / 2 ^ 23) (a / 2 ^ 21 % 4) (a % 2 ^ 21))
          (holderCounted (a / 2 ^ 23) (a / 2 ^ 21 % 4) (undriven s))
      | some v => t = jtagAnswer 98 false 0 (bankWrite (a / 2 ^ 23) (a / 2 ^ 21 % 4) (a % 2 ^ 21) (toBytes 4 v.toNat)
          (holderCounted (a / 2 ^ 23) (a / 2 ^ 21 % 4) (undriven s))) := by
  refine ⟨memBank a w (undriven s), exec_memAccess reached live serves routes false a w, ?_⟩
  split
  case isTrue bad => exact memBank_error bad w
  case isFalse good =>
    cases w with
    | none => exact memBank_read good
    | some v => exact memBank_write good v

/-- A word of HBM: with one copy or none of the firmware area in service, or outside it, the access captures what that
word gives; a write to two copies is made at each (log 49). -/
theorem exec_memAccess_hbm (a : Nat) (w : Option Word) : ∃ t, exec (.memAccess true a w) s = .next t ∧
    if a % 4 ≠ 0 ∨ daEnd < a + 4 then t = jtagAnswer 98 true 0 (undriven s)
    else
      let u := opAccess (daCtx (undriven s) a) (undriven s)
      let counted (wr : Bool) (d : Nat) := countAcc none wr (spanFuel 4) d 4 u
      match memCopies u a, w with
      | [], _ => t = jtagAnswer 98 true 0 u
      | d :: _, none => match granBad (counted false d) (daKey u d) d with
        | none => t = jtagAnswer 98 false (ofBytes (hbmRead (counted false d) d 4)) (counted false d)
        | some b => t = jtagAnswer 98 true 0 (hbmFault d b (counted false d))
      | [d], some v => match writeBad (counted true d) none (daKey u d) (spanFuel 4) d 4 with
        | none => t = jtagAnswer 98 false 0 (hbmWrite (daKey u d) d (toBytes 4 v.toNat) (counted true d))
        | some e => t = jtagAnswer 98 true 0 (hbmFault e.1 e.2 (counted true d))
      | d :: e, some v => t = e.foldl (fun y i => memWord i (some v) y) (memWord d (some v) u) := by
  refine ⟨memHbm a w (undriven s), exec_memAccess reached live serves routes true a w, ?_⟩
  split
  case isTrue bad => exact memHbm_error bad w
  case isFalse good =>
    rw [memHbm_copies good]
    dsimp only
    generalize opAccess (daCtx (undriven s) a) (undriven s) = u
    cases memCopies u a with
    | nil => rfl
    | cons d r =>
      cases w with
      | none => exact memWord_read d u
      | some v =>
        cases r with
        | nil => exact memWord_write d v u
        | cons e r => rfl

end

/-! ## The management port -/

theorem exec_mgmtPrivateWrite_ignored {d : List (BitVec 8)} (other : d.length ≠ 5) :
    exec (.mgmtPrivateWrite d) s = .next s := if_neg fun five => other five.2

section
variable (reached : srcLive s .i3c = true)
include reached

theorem exec_mgmtPrivateWrite_address {d : List (BitVec 8)} (five : d.length = 5) : exec (.mgmtPrivateWrite d) s =
    .next { s with pkc2 := { s.pkc2 with
      mgmtInd := bit (d.headD 0).toNat 0, mgmtAddr := w32 (ofBytes (d.drop 1)) } } := if_pos ⟨reached, five⟩

theorem exec_mgmtPrivateRead_value {w : Word} (reads : mgmtRead s = some w) :
    exec .mgmtPrivateRead s = .next (s.answer (.data (toBytes 4 w.toNat ++ [0]))) :=
  (if_pos reached).trans (by rw [reads])

theorem exec_mgmtPrivateRead_error (fails : mgmtRead s = none) :
    exec .mgmtPrivateRead s = .next (s.answer (.data [0, 0, 0, 0, 1])) :=
  (if_pos reached).trans (by rw [fails])

end

/-! ## The statement -/

/-- A test port that does not reach the device changes nothing (R449). -/
theorem exec_testPort_unreached (unreached : srcLive s .jtag = false) (i : Instr)
    (port : i = .secStatus ∨ i = .idcode ∨ (∃ b, i = .bypass b) ∨ (∃ v, i = .samplePreload v) ∨ (∃ v, i = .extest v) ∨
      (∃ d a w, i = .regAccess d a w) ∨ ∃ h a w, i = .memAccess h a w) : exec i s = .next s := by
  have away : ¬ srcLive s .jtag = true := by simp [unreached]
  have unheard : (!srcLive s .jtag) = true := by simp [unreached]
  obtain rfl | rfl | ⟨_, rfl⟩ | ⟨_, rfl⟩ | ⟨_, rfl⟩ | ⟨_, _, _, rfl⟩ | ⟨_, _, _, rfl⟩ := port
  · exact if_neg away
  · exact if_neg away
  · exact if_neg away
  · exact if_neg away
  · exact if_neg away
  · exact if_pos unheard
  · exact if_pos unheard

/-- Settles O58: each row is the model's own operation on the state in which EXTEST drives nothing, case by case. -/
theorem theTestAndManagementPortsAnswer : Obligations.TheTestAndManagementPortsAnswer := by
  unfold Obligations.TheTestAndManagementPortsAnswer
  intro s
  exact ⟨fun reached => ⟨jtagCapture_reached reached .., jtagCapture_reached reached ..,
      fun _ => jtagCapture_reached reached .., fun v => ⟨_, exec_samplePreload reached v, rfl⟩,
      fun v running => exec_extest_bypass reached running v, fun v held => ⟨_, exec_extest_drives reached held v, rfl⟩,
      exec_regAccess_read reached, exec_regAccess_write reached,
      fun hbm a w down => ⟨_, exec_memAccess_down reached down hbm a w, rfl⟩,
      fun live serves routes => ⟨exec_memAccess_bank reached live serves routes,
        exec_memAccess_hbm reached live serves routes⟩⟩,
    fun reached => ⟨fun _ => exec_mgmtPrivateWrite_address reached, fun _ => exec_mgmtPrivateWrite_ignored,
      fun _ => exec_mgmtPrivateRead_value reached, exec_mgmtPrivateRead_error reached⟩,
    exec_testPort_unreached⟩

end Sys2Proof.Machine
end

section
/-! PROOF. Link ports (R324 to R326, R338, R339, R456): what EN and RETRAIN make of a port, how a training ends, what goes
out when a port sends what waits (in rising order of channel, log 51), and what a frame leaves (its symbols in the order
of log 51). -/

namespace Sys2Proof.Machine

open Sys2Proof

-- Proofs one after another: the package compiles as one text under a memory limit.
set_option Elab.async false

variable {p : Nat} {s t : State}

/-! ## Jobs of a port that fails -/

/-- From `s` to `t` every job of port p has failed, where its slot still holds a job of the port. -/
def JobsFailed (p : Nat) (s t : State) : Prop :=
  ∀ c j y, (c, j, y) ∈ portJobs s p → ∀ z, getJob t c j = some z → z.port = p → z.st = .failed

theorem jobsFailed_failPort (p : Nat) (s : State) : JobsFailed p s (failPort p s) := (failPort_facts p s).1

theorem JobsFailed.of_ctxs {u : State} (failed : JobsFailed p s t) (e : u.ctxs = s.ctxs) : JobsFailed p u t := by
  unfold JobsFailed
  rw [portJobs_ctxs p e]
  exact failed

/-! ## EN and RETRAIN -/

section
variable {src : Src} (operator : isOperator s src = true) (phy : portLive s p = true)
include operator phy

theorem exec_linkEnWrite (en : Bool) : exec (.linkEnWrite src p en) s = .next (portEnable p en s) :=
  if_pos (by rw [operator, phy]; rfl)

theorem exec_linkRetrainWrite : exec (.linkRetrainWrite src p) s = .next (startRetrain p s) :=
  if_pos (by rw [operator, phy]; rfl)

end

theorem portEnable_set_of_disabled (off : (s.port p).st = .disabled) : portEnable p true s =
    s.modPort p fun y => { y with ctrl := y.ctrl ||| 0x80000000, st := .training, failsInRow := 0 } := by
  unfold portEnable
  rw [if_pos rfl, if_neg (by simp [off]), State.modPort_modPort]

theorem portEnable_set_of_enabled (on : (s.port p).st ≠ .disabled) : portEnable p true s =
    s.modPort p fun y => { y with ctrl := y.ctrl ||| 0x80000000 } := by
  unfold portEnable
  rw [if_pos rfl, if_pos (by simpa using on)]

theorem portEnable_clear_port (p : Nat) (s : State) : ∃ ev, (portEnable p false s).port p = { s.port p with
    ctrl := (s.port p).ctrl &&& 0x7FFFFFFF, st := .disabled, laneOk := 0, failsInRow := 0, events := ev } := by
  obtain ⟨ev, port⟩ := (failPort_facts p (s.modPort p fun x =>
    { x with ctrl := x.ctrl &&& 0x7FFFFFFF, st := .disabled, laneOk := 0, failsInRow := 0 })).2.1 p
  rw [State.modPort_port_self] at port
  exact ⟨ev, port⟩

theorem jobsFailed_portEnable_clear (p : Nat) (s : State) : JobsFailed p s (portEnable p false s) :=
  (jobsFailed_failPort p _).of_ctxs rfl

theorem startRetrain_of_active (active : (s.port p).st = .active) : startRetrain p s =
    (s.modPort p fun x => { x with st := .retrain, retrains := x.retrains + 1 }).modPort2 p fun x =>
      { x with naks := 0 } :=
  if_pos active

theorem startRetrain_of_inactive (inactive : (s.port p).st ≠ .active) : startRetrain p s = s := if_neg inactive

/-! ## What an event of a port leaves -/

theorem linkEvent_port (p : Nat) (m : Word) (s : State) :
    (linkEvent p m s).port p = { s.port p with events := (s.port p).events ||| m } := by
  rw [(posted_linkEvent p m s).port, State.modPort_port_self]

theorem linkEvent_port2 (p : Nat) (m : Word) (s : State) (q : Nat) : (linkEvent p m s).port2 q = s.port2 q := by
  rw [(posted_linkEvent p m s).port2, State.modPort_port2]

theorem linkEvent_ctx (p : Nat) (m : Word) (s : State) (c : Nat) : (linkEvent p m s).ctx c = s.ctx c := by
  rw [(posted_linkEvent p m s).ctx, State.modPort_ctx]

/-! ## Sending what waits -/

/-- The slots of each channel that a port sends at once. -/
def portOut (s : State) (p : Nat) : List Nat :=
  slotsOut (s.port2 p).wait (s.port2 p).credits (9 * (512 - unacked s p))

theorem drainPort_of_nothing (nothing : (portOut s p).sum = 0) : drainPort p s = s :=
  if_neg fun sends => by
    have slots : 0 < (portOut s p).sum := sends.2
    omega

theorem drainPort_of_slots (active : (s.port p).st = .active) (slots : 0 < (portOut s p).sum) :
    drainPort p s = (s.modPort p fun x => { x with
      tx := x.tx + BitVec.ofNat 64 (portOut s p).sum,
      txNext := (x.txNext + cdiv (portOut s p).sum 9) % 4096 }).modPort2 p fun z => { z with
      credits := subAll z.credits (portOut s p), wait := subAll z.wait (portOut s p) } :=
  if_pos ⟨active, slots⟩

theorem drainPort_eq (p : Nat) (s : State) : drainPort p s = { s with
    ports := (drainPort p s).ports, ports2 := (drainPort p s).ports2 } := by
  unfold drainPort
  dsimp only
  split <;> rfl

theorem drainPort_ctx (p : Nat) (s : State) (c : Nat) : (drainPort p s).ctx c = s.ctx c := by
  rw [drainPort_eq]
  rfl

/-- Sending what waits moves only the port's credits and what waits. -/
theorem drainPort_port2 (p : Nat) (s : State) : (drainPort p s).port2 p = { s.port2 p with
    credits := ((drainPort p s).port2 p).credits, wait := ((drainPort p s).port2 p).wait } := by
  unfold drainPort
  dsimp only
  split
  · rw [State.modPort2_port2_self]
    rfl
  · rfl

/-! ## The end of a training -/

/-- One more training of the port in a row has failed; out of RETRAIN its jobs have failed first (R324, R326). -/
def trainingFailed (p : Nat) (s : State) : State :=
  retryTraining p ((s.port p).failsInRow + 1) (if (s.port p).st = .retrain then failPort p s else s)

theorem trainingFailed_port (p : Nat) (s : State) :
    ((trainingFailed p s).port p).failsInRow = (s.port p).failsInRow + 1 ∧
    ((trainingFailed p s).port p).st = if 3 ≤ (s.port p).failsInRow + 1 then .failed else .training := by
  obtain ⟨fails, -, st, -⟩ := retryTraining_facts p ((s.port p).failsInRow + 1)
    (if (s.port p).st = .retrain then failPort p s else s)
  exact ⟨fails, st⟩

theorem jobsFailed_trainingFailed (fatal : (s.port p).st = .retrain ∨ 3 ≤ (s.port p).failsInRow + 1) :
    JobsFailed p s (trainingFailed p s) := by
  unfold trainingFailed
  by_cases retrain : (s.port p).st = .retrain
  · rw [if_pos retrain]
    exact retry_after p _ s
  · rw [if_neg retrain]
    obtain ⟨-, -, -, jobs, -⟩ := retryTraining_facts p ((s.port p).failsInRow + 1) s
    exact jobs (fatal.resolve_left retrain)

/-- The port ACTIVE with all lanes, at the peer that its training found (R324, R456). -/
def portTrained (p peer : Nat) (dig : BitVec 384) (ep : BitVec 32) (s : State) : State :=
  (s.setPort p { s.port p with st := .active, laneOk := 15, peerPort := peer, failsInRow := 0 }).setPort2 p
    { s.port2 p with peerDigest := dig, peerEpoch := ep, naks := 0 }

/-- Sequence numbers, credits and buffers as a first training leaves them (R325, R326). -/
def portFresh (p : Nat) (s : State) : State :=
  (s.modPort p fun z => { z with rxNext := 0, txNext := 0, txAcked := 0xFFF }).modPort2 p fun z => { z with
    credits := [4096, 4096, 4096, 4096], rxUsed := [0, 0, 0, 0], nakSeq := 0, nakOut := false, wait := [0, 0, 0, 0] }

section
variable {peer : Nat} {dig : BitVec 384} {ep : BitVec 32}

theorem portTrained_port : (portTrained p peer dig ep s).port p =
    { s.port p with st := .active, laneOk := 15, peerPort := peer, failsInRow := 0 } := by
  unfold portTrained
  rw [State.setPort2_port, State.setPort_port_self]

theorem portTrained_port2 : (portTrained p peer dig ep s).port2 p =
    { s.port2 p with peerDigest := dig, peerEpoch := ep, naks := 0 } := State.setPort2_port2_self ..

theorem portFresh_port : (portFresh p s).port p = { s.port p with rxNext := 0, txNext := 0, txAcked := 0xFFF } := by
  unfold portFresh
  rw [State.modPort2_port, State.modPort_port_self]

theorem portFresh_port2 : (portFresh p s).port2 p = { s.port2 p with
    credits := [4096, 4096, 4096, 4096], rxUsed := [0, 0, 0, 0], nakSeq := 0, nakOut := false,
    wait := [0, 0, 0, 0] } := by
  unfold portFresh
  rw [State.modPort2_port2_self, State.modPort_port2]

theorem portTrained_ctx (c : Nat) : (portTrained p peer dig ep s).ctx c = s.ctx c := by
  unfold portTrained
  rw [State.setPort2_ctx, State.setPort_ctx]

theorem portFresh_ctx (c : Nat) : (portFresh p s).ctx c = s.ctx c := by
  unfold portFresh
  rw [State.modPort2_ctx, State.modPort_ctx]

/-- What a retrained port may send is what it could send before: training it again touches neither its numbers nor what
waits. -/
theorem portOut_retrained : portOut (linkEvent p 2 (portTrained p peer dig ep s)) p = portOut s p := by
  unfold portOut unacked
  rw [linkEvent_port2, linkEvent_port, portTrained_port2, portTrained_port]

variable (live : s.live = true)
include live

theorem exec_linkTrained_wrong (trains : (s.port p).st = .training ∨ (s.port p).st = .retrain)
    (wrong : ¬ ((s.port2 p).expPort = 0xFF ∨ (s.port2 p).expPort = peer)) :
    exec (.linkTrained p peer dig ep) s = .next (trainingFailed p s) :=
  (if_neg (by simp [live])).trans <| (if_pos trains).trans <| if_pos (by simpa using wrong)

variable (expected : (s.port2 p).expPort = 0xFF ∨ (s.port2 p).expPort = peer)
include expected

theorem exec_linkTrained_expected (trains : (s.port p).st = .training ∨ (s.port p).st = .retrain) :
    exec (.linkTrained p peer dig ep) s = .next
      (if (s.port p).st = .retrain then drainPort p (linkEvent p 2 (portTrained p peer dig ep s))
        else linkEvent p 1 (portFresh p (portTrained p peer dig ep s))) := by
  refine (if_neg (by simp [live])).trans <| (if_pos trains).trans <| (if_neg ?_).trans (apply_ite _ _ _ _).symm
  rcases expected with any | same
  · simp [any]
  · simp [same]

end

/-- A training that takes too long fails (R324). -/
theorem exec_linkTrainingTimeout (live : s.live = true)
    (trains : (s.port p).st = .training ∨ (s.port p).st = .retrain) :
    exec (.linkTrainingTimeout p) s = .next (trainingFailed p s) := by
  refine (if_neg (by simp [live])).trans ?_
  unfold trainingFailed
  rcases trains with training | retrain
  · rw [if_neg (by simp [training]), training]
  · rw [if_pos retrain, retrain]

/-- A port that ends its RETRAIN keeps the numbers of its frames and sends what waits (R326). -/
theorem retrained_facts (p peer : Nat) (dig : BitVec 384) (ep : BitVec 32) (s : State) :
    let t := drainPort p (linkEvent p 2 (portTrained p peer dig ep s))
    let x := s.port p
    let y := s.port2 p
    let out := portOut s p
    (t.port p).st = .active ∧ (t.port p).laneOk = 15 ∧ (t.port p).peerPort = peer ∧ (t.port p).failsInRow = 0 ∧
    (t.port2 p).peerDigest = dig ∧ (t.port2 p).peerEpoch = ep ∧ (∀ d, t.ctx d = s.ctx d) ∧
    (t.port p).rxNext = x.rxNext ∧ (t.port p).txAcked = x.txAcked ∧
    (out.sum = 0 → (t.port p).txNext = x.txNext ∧ (t.port2 p).credits = y.credits) ∧
    (0 < out.sum → (t.port p).txNext = (x.txNext + cdiv out.sum 9) % 4096 ∧
      (t.port p).tx = x.tx + BitVec.ofNat 64 out.sum ∧ (t.port2 p).credits = subAll y.credits out ∧
      (t.port2 p).wait = subAll y.wait out) := by
  intro t x y out
  have sent : portOut (linkEvent p 2 (portTrained p peer dig ep s)) p = out := portOut_retrained
  have port : (linkEvent p 2 (portTrained p peer dig ep s)).port p = { x with
      st := .active, laneOk := 15, peerPort := peer, failsInRow := 0, events := x.events ||| 2 } := by
    rw [linkEvent_port, portTrained_port]
  have port2 : (linkEvent p 2 (portTrained p peer dig ep s)).port2 p =
      { y with peerDigest := dig, peerEpoch := ep, naks := 0 } := by
    rw [linkEvent_port2, portTrained_port2]
  have active : ((linkEvent p 2 (portTrained p peer dig ep s)).port p).st = .active := by rw [port]
  have port' := drainPort_port p (linkEvent p 2 (portTrained p peer dig ep s))
  have port2' := drainPort_port2 p (linkEvent p 2 (portTrained p peer dig ep s))
  rw [port] at port'
  rw [port2] at port2'
  refine ⟨by rw [port'], by rw [port'], by rw [port'], by rw [port'], by rw [port2'], by rw [port2'], fun d => ?_,
    by rw [port'], by rw [port'], fun nothing => ?_, fun slots => ?_⟩
  · rw [drainPort_ctx, linkEvent_ctx, portTrained_ctx]
  · unfold t
    rw [drainPort_of_nothing (by rw [sent]; exact nothing), port, port2]
    exact ⟨rfl, rfl⟩
  · unfold t
    rw [drainPort_of_slots active (by rw [sent]; exact slots), sent, State.modPort2_port, State.modPort_port_self,
      State.modPort2_port2_self, State.modPort_port2, port, port2]
    exact ⟨rfl, rfl, rfl, rfl⟩

/-- A port that ends its first training starts its numbers, credits and buffers again (R325). -/
theorem fresh_facts (p peer : Nat) (dig : BitVec 384) (ep : BitVec 32) (s : State) :
    let t := linkEvent p 1 (portFresh p (portTrained p peer dig ep s))
    (t.port p).st = .active ∧ (t.port p).laneOk = 15 ∧ (t.port p).peerPort = peer ∧ (t.port p).failsInRow = 0 ∧
    (t.port2 p).peerDigest = dig ∧ (t.port2 p).peerEpoch = ep ∧ (∀ d, t.ctx d = s.ctx d) ∧
    (t.port p).rxNext = 0 ∧ (t.port p).txNext = 0 ∧ (t.port2 p).credits = [4096, 4096, 4096, 4096] ∧
    (t.port2 p).rxUsed = [0, 0, 0, 0] ∧ (t.port2 p).wait = [0, 0, 0, 0] := by
  intro t
  have port : t.port p = { s.port p with
      st := .active, laneOk := 15, peerPort := peer, failsInRow := 0, rxNext := 0, txNext := 0, txAcked := 0xFFF,
      events := (s.port p).events ||| 1 } := by
    unfold t
    rw [linkEvent_port, portFresh_port, portTrained_port]
  have port2 : t.port2 p = { s.port2 p with
      peerDigest := dig, peerEpoch := ep, naks := 0, credits := [4096, 4096, 4096, 4096], rxUsed := [0, 0, 0, 0],
      nakSeq := 0, nakOut := false, wait := [0, 0, 0, 0] } := by
    unfold t
    rw [linkEvent_port2, portFresh_port2, portTrained_port2]
  have ctx (d : Nat) : t.ctx d = s.ctx d := by
    unfold t
    rw [linkEvent_ctx, portFresh_ctx, portTrained_ctx]
  clear_value t
  rw [port, port2]
  exact ⟨rfl, rfl, rfl, rfl, rfl, rfl, ctx, rfl, rfl, rfl, rfl, rfl⟩

/-! ## Frames -/

/-- The symbols that a frame's code corrected, counted (R325). -/
def fecCounted (p fec : Nat) (s : State) : State :=
  s.modPort p fun y => { y with fecSym := y.fecSym + BitVec.ofNat 64 fec }

theorem takeFrame_port (p : Nat) (f : Frame) (s : State) : (takeFrame p f s).port p =
    if f.ftype = 0 ∧ f.fseq = (s.port p).rxNext then { s.port p with
      rxNext := ((s.port p).rxNext + 1) % 4096, rx := (s.port p).rx + BitVec.ofNat 64 f.slots.length }
    else s.port p := by
  unfold takeFrame
  split
  · rw [State.modPort2_port, State.modPort_port_self]
  · rfl

/-- A DATA or IDLE frame: its acknowledgement is taken, its slots where it is DATA with the next number (R325, R326). -/
theorem frameTaken_port (p fec : Nat) (f : Frame) (s : State) :
    let t := frameAck p f.nak f.ack f.credits (takeFrame p f (fecCounted p fec s))
    let taken := f.ftype = 0 ∧ f.fseq = (s.port p).rxNext
    (t.port p).fecSym = (s.port p).fecSym + BitVec.ofNat 64 fec ∧ (t.port p).txAcked = f.ack ∧
    (t.port p).rxNext = (if taken then ((s.port p).rxNext + 1) % 4096 else (s.port p).rxNext) ∧
    (t.port p).rx = if taken then (s.port p).rx + BitVec.ofNat 64 f.slots.length else (s.port p).rx := by
  intro t taken
  obtain ⟨acked, next, rx, sym⟩ := frameAck_port p f.ack f.nak f.credits (takeFrame p f (fecCounted p fec s))
  have counted : (fecCounted p fec s).port p =
      { s.port p with fecSym := (s.port p).fecSym + BitVec.ofNat 64 fec } := State.modPort_port_self ..
  rw [takeFrame_port, counted] at next rx sym
  refine ⟨sym.trans ?_, acked, next.trans ?_, rx.trans ?_⟩
  · exact (apply_ite Port.fecSym _ _ _).trans (ite_self _)
  · exact apply_ite Port.rxNext _ _ _
  · exact apply_ite Port.rx _ _ _

section
variable {symbols : List Nat} (live : s.live = true) (active : (s.port p).st = .active)
include live active

theorem exec_linkFrameRx_undecoded (fails : decodeFrame symbols = none) : exec (.linkFrameRx p symbols) s =
    .next ((s.modPort p fun y => { y with fecUe := y.fecUe + 1 }).modPort2 p fun y => { y with nakOut := true }) :=
  (if_neg (by simp [live])).trans <| (if_pos active).trans (by rw [fails])

theorem exec_linkFrameRx_decoded {data : List Nat} {fec : Nat} (decodes : decodeFrame symbols = some (data, fec)) :
    exec (.linkFrameRx p symbols) s =
      let f := frameOf (payloadNat data)
      if f.ftype = 0 ∨ f.ftype = 2 then
        .next (frameAck p f.nak f.ack f.credits (takeFrame p f (fecCounted p fec s)))
      else .next (fecCounted p fec s) :=
  (if_neg (by simp [live])).trans <| (if_pos active).trans (by rw [decodes]; rfl)

end

/-! ## The statement -/

/-- Settles O48: the writes by what they make of the port, a training by whether the peer is the expected one, a frame by
whether it decodes and its type. Which slots a retrained port sends, in rising order of channel, and the order of a
frame's symbols are log 51. -/
theorem portsTrainAndFail : Obligations.PortsTrainAndFail := by
  unfold Obligations.PortsTrainAndFail
  intro p s x JobsFail
  refine ⟨fun src operator phy => ⟨fun off => ?_, fun on => ?_, ?_, fun active => ?_, fun inactive => ?_⟩,
    fun live => ⟨fun peer dig ep trains => ?_, fun trains => ?_, fun active symbols => ⟨fun fails => ?_,
      fun data fec decodes => ⟨fun notData notIdle => ?_, fun known => ?_⟩⟩⟩⟩
  · rw [exec_linkEnWrite operator phy, portEnable_set_of_disabled off]
  · rw [exec_linkEnWrite operator phy, portEnable_set_of_enabled on]
  · obtain ⟨ev, port⟩ := portEnable_clear_port p s
    refine ⟨_, exec_linkEnWrite operator phy false, ?_, ?_, ?_, jobsFailed_portEnable_clear p s⟩
    · rw [port]
    · rw [port]
    · rw [port]
  · refine ⟨_, exec_linkRetrainWrite operator phy, ?_⟩
    rw [startRetrain_of_active active, State.modPort2_port, State.modPort_port_self]
    exact ⟨rfl, rfl, rfl⟩
  · rw [exec_linkRetrainWrite operator phy, startRetrain_of_inactive inactive]
  · intro y out
    split
    case isTrue expected =>
      refine ⟨_, exec_linkTrained_expected live expected trains, ?_⟩
      by_cases retrain : x.st = .retrain
      · rw [if_pos retrain, if_pos retrain]
        exact retrained_facts p peer dig ep s
      · rw [if_neg retrain, if_neg retrain]
        exact fresh_facts p peer dig ep s
    case isFalse wrong => exact ⟨_, exec_linkTrained_wrong live trains wrong, trainingFailed_port p s⟩
  · obtain ⟨fails, st⟩ := trainingFailed_port p s
    exact ⟨_, exec_linkTrainingTimeout live trains, fails, st, jobsFailed_trainingFailed⟩
  · exact exec_linkFrameRx_undecoded live active fails
  · exact (exec_linkFrameRx_decoded live active decodes).trans (if_neg (not_or.2 ⟨notData, notIdle⟩))
  · exact ⟨_, (exec_linkFrameRx_decoded live active decodes).trans (if_pos known), frameTaken_port p fec _ s⟩

end Sys2Proof.Machine
end

section
/-! PROOF. Jobs of a link (R327 to R329, R444): how an OPEN and a CLOSE end, what a message of the exchange leaves and how
the exchange ends, and the checks of a packet. The slots of a message and of a closing notice, and which packets are
dropped, are log 51. -/

namespace Sys2Proof.Machine

open Sys2Proof

-- Proofs one after another: the package compiles as one text under a memory limit.
set_option Elab.async false

variable {c q j : Nat} {s t u v : State} {m : Cmd} {x : Job}

theorem getJob_congr (same : t.ctx c = s.ctx c) (j : Nat) : getJob t c j = getJob s c j := by
  unfold getJob
  rw [same]

theorem dropJob_getCmd (c j r : Nat) (s : State) : getCmd (dropJob c j s) c r = getCmd s c r := by
  unfold getCmd dropJob
  rw [State.modCtx_ctx_self]

theorem setJob_getCmd (c j r : Nat) (x : Job) (s : State) : getCmd (setJob c j x s) c r = getCmd s c r := by
  unfold getCmd setJob
  rw [State.modCtx_ctx_self]

theorem Ended.of_getCmd_eq {st : Status} {dw : List Nat} (ended : Ended s c q st dw)
    (same : getCmd t c q = getCmd s c q) : Ended t c q st dw := by
  unfold Ended
  rw [same]
  exact ended

theorem finish_getJob (c q i : Nat) (st : Status) (dw : List Nat) (s : State) :
    getJob (finish c q st dw s) c i = getJob s c i := by
  unfold getJob
  rw [finish_ctx_same]

/-- A command that ends after its context got other jobs, seen from the state with those jobs alone. -/
theorem finished_with_jobs (st : Status) (dw : List Nat) (cmd : getCmd v c q = some m)
    (own : v.ctx c = { s.ctx c with jobs := (v.ctx c).jobs }) (others : ∀ d, d ≠ c → v.ctx d = s.ctx d)
    (rest : v = { s with ctxs := v.ctxs }) :
    Finished c q st dw (s.modCtx c fun y => { y with jobs := ((finish c q st dw v).ctx c).jobs })
      (finish c q st dw v) := by
  refine (finished_finish st dw cmd).of_ctx_eq (fun d => ?_) (by rw [rest]; rfl)
  by_cases here : d = c
  · rw [here, State.modCtx_ctx_self, finish_ctx_same, own]
  · rw [State.modCtx_ctx_other _ _ here, others d here]

/-! ## OPEN -/

/-- The job that an OPEN makes (R328). -/
def newJob (s : State) (c q : Nat) (m : Cmd) : Job :=
  { st := .opening, port := m.f 0x12 8, peerTag := w32 (m.f 0x14 32), peerId := BitVec.ofNat 64 (m.f 0x18 64),
    peerSubject := recordSubject (hostRead s (s.ctx c).reg.func (m.f 0x18 64) 11072), openSeq := q,
    stamp := m.stamp, peerWire := 0, peerEpoch := 0, pctrTx := 0, pctrRx := 0, keyLo := 0, keyHi := 0, hs := 0,
    colls := 0, failEpoch := false }

section
variable (run : running? s c q = some m) (opcode : m.opcode = 0x4B)
include run opcode

/-- Each way an OPEN can go, in the order of its checks. -/
theorem exec_linkJob_open (opens : m.fb 0x13 0 2 ≠ 1) : exec (.linkJob c q) s =
    if (s.port (m.f 0x12 8)).st ≠ .active then .next (finish c q .link [m.f 0x12 8, m.f 0x10 16] s)
    else if s.pcie.phase ≠ .idle then .next s
    else if jobsFull s c (m.f 0x10 16) (m.f 0x12 8) then .next (finish c q .job [m.f 0x12 8, m.f 0x10 16] s)
    else if hostFails s (s.ctx c).reg.func (m.f 0x18 64) 11072 then
      .next (finish c q .hostmem
        [hostFailAddr s (s.ctx c).reg.func (m.f 0x18 64) 11072 % 2 ^ 32,
          hostFailAddr s (s.ctx c).reg.func (m.f 0x18 64) 11072 / 2 ^ 32] s)
    else .next (setActed c q (setJob c (m.f 0x10 16) (newJob s c q m) s)) := by
  show execLinkJob c q s = _
  unfold execLinkJob
  rw [run]
  exact (if_neg (not_not.2 opcode)).trans (if_neg opens)

theorem exec_linkJob_close (closes : m.fb 0x13 0 2 = 1)
    (unused : ∀ e ∈ (s.ctx c).cmds, e.phase = .issued ∨ e.phase = .acted → e.usesJob (m.f 0x10 16) = false) :
    exec (.linkJob c q) s = .next (finish c q .ok [] (closeJob c (m.f 0x10 16) s)) := by
  show execLinkJob c q s = _
  unfold execLinkJob
  rw [run]
  refine (if_neg (not_not.2 opcode)).trans <| (if_pos closes).trans <| if_neg fun used => ?_
  obtain ⟨e, mem, uses⟩ := List.any_eq_true.1 used
  rw [Bool.and_eq_true, Bool.or_eq_true, beq_iff_eq, beq_iff_eq] at uses
  rw [unused e mem uses.1] at uses
  exact Bool.false_ne_true uses.2

end

/-- A job that an OPEN has made: its command waits, and its context has nothing else but the job. -/
theorem acted_open (cmd : getCmd s c q = some m) (j : Nat) (x : Job) :
    Acted c q (s.modCtx c fun y => { y with jobs := ((setActed c q (setJob c j x s)).ctx c).jobs })
      (setActed c q (setJob c j x s)) := by
  have jobs : ((setActed c q (setJob c j x s)).ctx c).jobs = aput (s.ctx c).jobs j x := by
    unfold setActed setJob
    rw [modCmd_ctx_same, State.modCtx_ctx_self]
  rw [jobs]
  exact acted_setActed ((setJob_getCmd c j q x s).trans cmd)

theorem getJob_setActed_setJob (c q j i : Nat) (x : Job) (s : State) :
    getJob (setActed c q (setJob c j x s)) c i = if i = j then some x else getJob s c i := by
  have same : getJob (setActed c q (setJob c j x s)) c i = getJob (setJob c j x s) c i := by
    unfold getJob setActed
    rw [modCmd_ctx_same]
  rw [same, getJob_setJob]
  by_cases here : i = j <;> simp [here]

/-! ## Slots that a port sends -/

theorem sendSlots_port (p vc n : Nat) (s : State) : (sendSlots p vc n s).port p =
    { s.port p with tx := ((sendSlots p vc n s).port p).tx, txNext := ((sendSlots p vc n s).port p).txNext } := by
  unfold sendSlots
  rw [drainPort_port, State.modPort2_port]

theorem sendSlots_port2 (p vc n : Nat) (s : State) : (sendSlots p vc n s).port2 p = { s.port2 p with
    credits := ((sendSlots p vc n s).port2 p).credits, wait := ((sendSlots p vc n s).port2 p).wait } := by
  unfold sendSlots
  rw [drainPort_port2, State.modPort2_port2_self]

theorem closeNotice_ctx (x : Job) (s : State) (d : Nat) : (closeNotice x s).ctx d = s.ctx d := by
  unfold closeNotice
  split
  · rw [sendSlots_eq]
    rfl
  · rfl

/-! ## CLOSE -/

theorem closeJob_of_bound (bound : getJob s c j = some x) : closeJob c j s = dropJob c j (closeNotice x s) := by
  unfold closeJob
  rw [bound]

theorem closeJob_of_unbound (unbound : getJob s c j = none) : closeJob c j s = s := by
  unfold closeJob
  rw [unbound]

theorem getJob_closeJob (c j i : Nat) (s : State) :
    getJob (closeJob c j s) c i = if i = j then none else getJob s c i := by
  cases bound : getJob s c j with
  | none =>
    rw [closeJob_of_unbound bound]
    split
    case isTrue here => rw [here, bound]
    case isFalse => rfl
  | some x =>
    rw [closeJob_of_bound bound, getJob_dropJob, getJob_congr (closeNotice_ctx x s c)]
    simp only [true_and]

/-- A CLOSE has told the peer of an open job, dropped the job and ended (R328). -/
theorem finished_close_bound (cmd : getCmd s c q = some m) (bound : getJob s c j = some x) :
    Finished c q .ok []
      ((closeNotice x s).modCtx c fun y => { y with jobs := ((finish c q .ok [] (closeJob c j s)).ctx c).jobs })
      (finish c q .ok [] (closeJob c j s)) := by
  rw [closeJob_of_bound bound]
  refine finished_with_jobs .ok [] (m := m) ?_ ?_ (fun d other => State.modCtx_ctx_other _ _ other) rfl
  · rw [dropJob_getCmd, getCmd_congr (closeNotice_ctx x s c), cmd]
  · unfold dropJob
    rw [State.modCtx_ctx_self]

theorem finished_close_unbound (cmd : getCmd s c q = some m) (unbound : getJob s c j = none) :
    Finished c q .ok [] (s.modCtx c fun y => { y with jobs := ((finish c q .ok [] (closeJob c j s)).ctx c).jobs })
      (finish c q .ok [] (closeJob c j s)) := by
  rw [closeJob_of_unbound unbound]
  exact finished_with_jobs .ok [] cmd rfl (fun _ _ => rfl) rfl

/-! ## Messages of the exchange -/

theorem message_eq (mine : Bool) (p n : Nat) (s : State) : message mine p n s = { s with
    ports := (message mine p n s).ports, ports2 := (message mine p n s).ports2 } := by
  unfold message
  split
  · exact sendSlots_eq ..
  · rfl

theorem message_ctx (mine : Bool) (p n : Nat) (s : State) (d : Nat) : (message mine p n s).ctx d = s.ctx d := by
  rw [message_eq]
  rfl

theorem message_sec (mine : Bool) (p n : Nat) (s : State) : (message mine p n s).sec = s.sec := by rw [message_eq]

theorem message_port (mine : Bool) (p n : Nat) (s : State) :
    ((message mine p n s).port p).peerPort = (s.port p).peerPort := by
  unfold message
  split
  · rw [sendSlots_port]
  · rfl

theorem message_port2 (mine : Bool) (p n : Nat) (s : State) : (message mine p n s).port2 p = { s.port2 p with
    credits := ((message mine p n s).port2 p).credits, wait := ((message mine p n s).port2 p).wait } := by
  unfold message
  split
  · exact sendSlots_port2 ..
  · rfl

/-- A message does not change which end is the lower one. -/
theorem isLower_message (mine : Bool) (p n : Nat) (s : State) : isLower (message mine p n s) p = isLower s p := by
  unfold isLower
  dsimp only
  rw [message_port, message_sec, message_port2]

/-- A message does not change whether this end accepts its peer. -/
theorem acceptsPeer_message (mine : Bool) (n : Nat) (s : State) (x : Job) (ok receives : Bool) (serial : DWord) :
    acceptsPeer (message mine x.port n s) x ok receives serial = acceptsPeer s x ok receives serial := by
  unfold acceptsPeer
  rw [message_port2]

/-! ## The exchange -/

/-- From `s` to `t` the OPEN of job j, whose record is x, has ended E_LINK without a job, and the failure is counted
(R444). -/
def OpenDropped (c j : Nat) (x : Job) (s t : State) : Prop :=
  getJob t c j = none ∧ Ended t c x.openSeq .link [x.port, j] ∧
    t.sec = { s.sec with hsFail := s.sec.hsFail + 1, events := s.sec.events ||| 4 }

theorem openDropped_failOpen (cmd : getCmd u c x.openSeq = some m) (sec : u.sec = s.sec) (j : Nat) :
    OpenDropped c j x s (failOpen c j x u) := by
  unfold failOpen
  generalize counted : ({ u with sec := { u.sec with hsFail := u.sec.hsFail + 1 } } : State) = w
  have cmd' : getCmd w c x.openSeq = some m := by rw [← counted]; exact cmd
  have posted := posted_secEvent 4 (dropJob c j (finish c x.openSeq .link [x.port, j] w))
  refine ⟨?_, ?_, ?_⟩
  · rw [getJob_congr (posted.ctx c)]
    exact (getJob_dropJob ..).trans (if_pos ⟨rfl, rfl⟩)
  · refine (finish_ended .link [x.port, j] cmd').of_getCmd_eq ?_
    rw [posted.getCmd]
    exact dropJob_getCmd ..
  · have own : (dropJob c j (finish c x.openSeq .link [x.port, j] w)).sec = w.sec := by
      rw [finish_eq]
      rfl
    rw [posted.sec, own, ← counted, sec]

theorem openDropped_of_message (cmd : getCmd s c x.openSeq = some m) (mine : Bool) (p n j : Nat) :
    OpenDropped c j x s (failOpen c j x (message mine p n s)) :=
  openDropped_failOpen ((getCmd_congr (message_ctx ..) _).trans cmd) (message_sec ..) j

section
variable (bound : getJob s c j = some x) (opening : x.st = .opening) (active : (s.port x.port).st = .active)
include bound opening active

theorem opening?_eq (n : Nat) : opening? s c j n = if x.hs = n then some x else none := by
  unfold opening?
  rw [bound]
  dsimp only
  simp only [opening, active, true_and, and_true]

theorem exec_hello_opens (first : x.hs = 0) (oldest : oldestOpening s x = true) : exec (.hello c j x.peerTag) s =
    .next (message (isLower s x.port) x.port helloSlots (setJob c j { x with hs := 1 } s)) := by
  show execHello c j x.peerTag s = _
  unfold execHello
  rw [opening?_eq bound opening active, if_pos first]
  exact if_pos ⟨rfl, oldest⟩

theorem exec_hello_other {tag : BitVec 32} (other : tag ≠ x.peerTag) : exec (.hello c j tag) s = .next s := by
  show execHello c j tag s = _
  unfold execHello
  rw [opening?_eq bound opening active]
  by_cases first : x.hs = 0
  · rw [if_pos first]
    exact if_neg fun h => other h.1.symm
  · rw [if_neg first]

theorem exec_reply (second : x.hs = 1) (ok : Bool) (serial : BitVec 64) : exec (.reply c j ok serial) s =
    if acceptsPeer s x ok (isLower s x.port) serial then
      .next (setJob c j { x with hs := 2 } (message (!isLower s x.port) x.port replySlots s))
    else .next (failOpen c j x (message (!isLower s x.port) x.port replySlots s)) := by
  show execReply c j ok serial s = _
  unfold execReply
  rw [opening?_eq bound opening active, if_pos second]
  dsimp only
  rw [isLower_message, acceptsPeer_message]

/-- The job that the last message opens (R328, R444). -/
def openedJob (s : State) (x : Job) (wire : Nat) (ep : BitVec 32) : Job := { x with
  st := .open, hs := 3, peerWire := wire, peerEpoch := ep, keyLo := Config.jobKey s.env.free false,
  keyHi := Config.jobKey s.env.free true }

theorem exec_finish (third : x.hs = 2) (ok : Bool) (serial : BitVec 64) (wire : Nat) (ep : BitVec 32) :
    exec (.finish c j ok serial wire ep) s =
      if acceptsPeer s x ok (!isLower s x.port) serial then
        .next (finish c x.openSeq .ok [] (setJob c j (openedJob s x wire ep)
          (useFree 1 (message (isLower s x.port) x.port finishSlots s))))
      else .next (failOpen c j x (message (isLower s x.port) x.port finishSlots s)) := by
  have free : (message (isLower s x.port) x.port finishSlots s).env = s.env := by rw [message_eq]
  show execFinish c j ok serial wire ep s = _
  unfold execFinish
  rw [opening?_eq bound opening active, if_pos third]
  dsimp only
  rw [isLower_message, acceptsPeer_message, free]
  rfl

end

/-- The exchange is over: the job is open and its OPEN has ended OK. -/
theorem opened_facts (cmd : getCmd u c q = some m) (j : Nat) (y : Job) :
    getJob (finish c q .ok [] (setJob c j y u)) c j = some y ∧
    Ended (finish c q .ok [] (setJob c j y u)) c q .ok [] := by
  refine ⟨?_, finish_ended _ _ ((setJob_getCmd ..).trans cmd)⟩
  rw [finish_getJob, getJob_setJob, if_pos ⟨rfl, rfl⟩]

/-! ## An OPEN without a match -/

theorem acted?_getCmd {op : Nat} (acted : acted? s c q op = some m) : getCmd s c q = some m := by
  unfold acted? at acted
  split at acted
  · split at acted <;> simp_all
  · cases acted

theorem exec_linkOpenTimeout (acted : acted? s c q 0x4B = some m) (bound : getJob s c (m.f 0x10 16) = some x)
    (opening : x.st = .opening) : exec (.linkOpenTimeout c q) s =
      .next (dropJob c (m.f 0x10 16) (finish c q .link [x.port, m.f 0x10 16] s)) := by
  show execLinkOpenTimeout c q s = _
  unfold execLinkOpenTimeout
  rw [acted]
  dsimp only
  rw [bound]
  exact if_pos opening

/-! ## Packets -/

/-- The packet of header h has left the receive buffer of channel vc (R327). -/
def packetLeft (p vc : Nat) (h : BitVec 512) (s : State) : State :=
  s.modPort2 p fun y => { y with rxUsed := y.rxUsed.set vc (y.rxUsed.getD vc 0 - (lLen h + 1)) }

theorem packetLeft_rxUsed (p vc : Nat) (h : BitVec 512) (s : State) : ((packetLeft p vc h s).port2 p).rxUsed =
    (s.port2 p).rxUsed.set vc ((s.port2 p).rxUsed.getD vc 0 - (lLen h + 1)) := by
  unfold packetLeft
  rw [State.modPort2_port2_self]

/-- Does a packet pass the checks of its job (R329)? -/
abbrev packetGood (s : State) (c : Nat) (x : Job) (h : BitVec 512) (tagOk : Bool) : Prop :=
  tagOk = true ∧ lPctr h = x.pctrRx ∧ lEpochTx h = x.peerEpoch ∧ lEpochRx h = ctxEpoch s c

/-- A packet that failed its job's checks is counted at its port (R329). -/
def authFailed (p : Nat) (s : State) : State :=
  linkEvent p 8 (s.modPort p fun x => { x with authfail := x.authfail + 1 })

section
variable {p vc : Nat} {h : BitVec 512} {tagOk : Bool} (live : s.live = true)
include live

/-- A management packet, one that is too long and one of a reserved type change no job (log 51). -/
theorem exec_linkPacketRx_dropped (drops : lJob h = 0xFFFF ∨ 64 < lLen h ∨ 7 < lType h) :
    exec (.linkPacketRx p vc h tagOk) s = .next (packetLeft p vc h s) := by
  show execLinkPacketRx p vc h tagOk s = _
  unfold execLinkPacketRx
  rw [if_neg (by simp [live])]
  dsimp only
  rw [if_pos drops]
  rfl

variable (kept : ¬ (lJob h = 0xFFFF ∨ 64 < lLen h ∨ 7 < lType h))
  (bound : getJob s (lJob h / 16) (lJob h % 16) = some x) (opened : x.st = .open) (here : x.port = p)
include kept bound opened here

theorem exec_linkPacketRx_open : exec (.linkPacketRx p vc h tagOk) s =
    if packetGood s (lJob h / 16) x h tagOk then
      .next (setJob (lJob h / 16) (lJob h % 16) { x with pctrRx := x.pctrRx + 1 } (packetLeft p vc h s))
    else .next (failJob (lJob h / 16) (lJob h % 16) (tagOk && lPctr h == x.pctrRx)
      (authFailed p (packetLeft p vc h s))) := by
  have job : getJob (packetLeft p vc h s) (lJob h / 16) (lJob h % 16) = some x := bound
  have epoch : ctxEpoch (packetLeft p vc h s) (lJob h / 16) = ctxEpoch s (lJob h / 16) := rfl
  show execLinkPacketRx p vc h tagOk s = _
  unfold execLinkPacketRx
  rw [if_neg (by simp [live])]
  dsimp only
  rw [if_neg kept, ← packetLeft, job]
  dsimp only
  rw [if_pos ⟨opened, here⟩, epoch]
  refine if_congr ?_ rfl rfl
  simp only [packetGood, Bool.and_eq_true, beq_iff_eq, Bool.not_eq_true', Bool.or_eq_false_iff, bne_eq_false_iff_eq,
    and_assoc]

end

/-- What a packet that passes its checks leaves. -/
theorem packetCounted_facts (p vc : Nat) (h : BitVec 512) (j : Nat) (y : Job) :
    let t := setJob c j y (packetLeft p vc h s)
    (t.port2 p).rxUsed = (s.port2 p).rxUsed.set vc ((s.port2 p).rxUsed.getD vc 0 - (lLen h + 1)) ∧
    getJob t c j = some y ∧ (t.port p).authfail = (s.port p).authfail :=
  ⟨packetLeft_rxUsed p vc h s, (getJob_setJob ..).trans (if_pos ⟨rfl, rfl⟩), rfl⟩

/-- What a packet that fails its checks leaves. -/
theorem packetFailed_facts (p vc : Nat) (h : BitVec 512) (e : Bool) (bound : getJob s c j = some x)
    (opened : x.st = .open) :
    let t := failJob c j e (authFailed p (packetLeft p vc h s))
    (t.port2 p).rxUsed = (s.port2 p).rxUsed.set vc ((s.port2 p).rxUsed.getD vc 0 - (lLen h + 1)) ∧
    getJob t c j = some { x with st := .failed, failEpoch := e } ∧ (t.port p).authfail = (s.port p).authfail + 1 := by
  obtain ⟨-, -, failed, ports, ports2, -⟩ := failJob_facts c j e (authFailed p (packetLeft p vc h s))
  obtain ⟨ev, port⟩ := ports p
  have job : getJob (authFailed p (packetLeft p vc h s)) c j = some x := by
    unfold authFailed
    rw [getJob_congr (linkEvent_ctx ..)]
    exact bound
  refine ⟨?_, failed x job opened, ?_⟩
  · rw [← packetLeft_rxUsed]
    unfold State.port2
    rw [ports2]
    exact congrArg Port2.rxUsed ((linkEvent_port2 ..).trans (State.modPort_port2 ..))
  · rw [port]
    unfold authFailed
    rw [linkEvent_port, State.modPort_port_self]
    rfl

/-! ## The statement -/

/-- Settles O49: an OPEN and a CLOSE by their outcomes, the exchange message by message, a packet by whether it passes its
checks. The closing notice, the slots of a message and the packets that are dropped are log 51. -/
theorem jobsOpenByTheExchange : Obligations.JobsOpenByTheExchange := by
  unfold Obligations.JobsOpenByTheExchange
  refine ⟨fun c q s m run opcode => ?_, fun c j s x m bound opening active cmd => ?_,
    fun c q s m x acted bound opening => ?_, fun p vc h tagOk s live => ⟨fun drops => ?_,
      fun x notMgmt short known bound opened here => ?_⟩⟩
  · have cmd := running?_getCmd run
    refine ⟨fun opens inactive => ?_, fun opens active busy => ?_, fun opens active idle => ⟨fun full => ?_,
      fun room fails => ?_, fun room reads => ?_⟩, fun closes unused => ?_⟩
    · exact ⟨_, (exec_linkJob_open run opcode opens).trans (if_pos inactive), finished_finish _ _ cmd⟩
    · exact (exec_linkJob_open run opcode opens).trans <| (if_neg (not_not.2 active)).trans (if_pos busy)
    · exact ⟨_, (exec_linkJob_open run opcode opens).trans <| (if_neg (not_not.2 active)).trans <|
        (if_neg (not_not.2 idle)).trans (if_pos full), finished_finish _ _ cmd⟩
    · exact ⟨_, _, (exec_linkJob_open run opcode opens).trans <| (if_neg (not_not.2 active)).trans <|
        (if_neg (not_not.2 idle)).trans <| (if_neg (by simp [room])).trans (if_pos fails), rfl,
        finished_finish _ _ cmd⟩
    · refine ⟨_, newJob s c q m, (exec_linkJob_open run opcode opens).trans <| (if_neg (not_not.2 active)).trans <|
        (if_neg (not_not.2 idle)).trans <| (if_neg (by simp [room])).trans (if_neg (by simp [reads])), ?_, rfl, rfl,
        rfl, rfl, fun i other => ?_, acted_open cmd _ _⟩
      · exact (getJob_setActed_setJob ..).trans (if_pos rfl)
      · exact (getJob_setActed_setJob ..).trans (if_neg other)
    · refine ⟨_, exec_linkJob_close run opcode closes unused, fun i => ?_, ?_⟩
      · rw [finish_getJob, getJob_closeJob]
      · cases bound : getJob s c (m.f 0x10 16) with
        | none => exact finished_close_unbound cmd bound
        | some x => exact finished_close_bound cmd bound
  · intro lower Dropped
    refine ⟨fun first oldest => exec_hello_opens bound opening active first oldest,
      fun tag other => exec_hello_other bound opening active other, fun ok serial second => ?_,
      fun ok serial wire ep third => ?_⟩
    · have reply := exec_reply bound opening active second ok serial
      split
      case isTrue accepts => exact reply.trans (if_pos accepts)
      case isFalse rejects => exact ⟨_, reply.trans (if_neg rejects), openDropped_of_message cmd ..⟩
    · have finish := exec_finish bound opening active third ok serial wire ep
      split
      case isTrue accepts =>
        obtain ⟨job, ended⟩ := opened_facts (u := useFree 1 (message (isLower s x.port) x.port finishSlots s))
          ((getCmd_congr (message_ctx ..) _).trans cmd) j (openedJob s x wire ep)
        exact ⟨_, openedJob s x wire ep, finish.trans (if_pos accepts), job, rfl, rfl, rfl, rfl, ended⟩
      case isFalse rejects => exact ⟨_, finish.trans (if_neg rejects), openDropped_of_message cmd ..⟩
  · refine ⟨_, exec_linkOpenTimeout acted bound opening, (getJob_dropJob ..).trans (if_pos ⟨rfl, rfl⟩), ?_⟩
    exact (finish_ended _ _ (acted?_getCmd acted)).of_getCmd_eq (dropJob_getCmd ..)
  · exact ⟨_, exec_linkPacketRx_dropped live drops, packetLeft_rxUsed p vc h s, rfl⟩
  · have exec := exec_linkPacketRx_open (vc := vc) (tagOk := tagOk) live
      (by rintro (mgmt | long | unknown) <;> omega) bound opened here
    refine ⟨fun good => ?_, fun bad => ?_⟩
    · exact ⟨_, exec.trans (if_pos good), packetCounted_facts p vc h _ _⟩
    · obtain ⟨left, job, counted⟩ := packetFailed_facts p vc h (tagOk && lPctr h == x.pctrRx) bound opened
      exact ⟨_, _, exec.trans (if_neg bad), left, job, rfl, counted⟩

end Sys2Proof.Machine
end

section
/-! PROOF. What every command and every step keeps: the frame of each row, what lasts, and the state after reset. -/

namespace Sys2Proof.Machine

open Sys2Proof

-- Proofs one after another: the package compiles as one text under a memory limit.
set_option Elab.async false

/-- Settles O1: a step takes the command at the front off the queue and runs it. -/
theorem stepRunsTheFrontCommand : Obligations.StepRunsTheFrontCommand := by
  intro s i r queue
  unfold step
  rw [queue]

/-- Settles O2: the step idles on an empty queue. -/
theorem emptyQueueIdles : Obligations.EmptyQueueIdles := by
  intro s queue
  unfold step
  rw [queue]

/-- Settles O3: the frame of each row is part of what its meaning keeps. -/
theorem everyCommandChangesOnlyItsParts : Obligations.EveryCommandChangesOnlyItsParts := by
  intro i s
  obtain ⟨t, answers, kept⟩ := yields_exec i s
  exact ⟨t, answers, kept.pending, kept.only⟩

/-- Settles O4: after reset every table and memory is empty, and so is the meter's store. -/
theorem resetMeetsTheInvariants : Obligations.ResetMeetsTheInvariants := by
  refine ⟨?_, ?_, rfl⟩
  · constructor <;> rfl
  · exact { few := Nat.zero_le _, last := fun _ h => (nomatch h), chained := trivial, trail := Nat.zero_le _,
            numbered := trivial }

/-- The queue is nothing that lasts. -/
theorem lasting_of_withPending {s t : State} {r : List Instr} (h : Lasting { s with pending := r } t) : Lasting s t :=
  ⟨h.fwFloor, h.armFloor, h.logCount, h.rseq, h.audit⟩

/-- Settles O6: an idle step changes nothing, and every row keeps what lasts. -/
theorem stepTakesBackNothingThatLasts : Obligations.StepTakesBackNothingThatLasts := by
  intro s t stepped
  unfold step at stepped
  split at stepped
  · cases stepped
    exact .refl s
  · next i r queue => exact lasting_of_withPending ((yields_exec i _).keeps stepped).lasting

/-- Settles O10: a NOP ends OK and does nothing else. -/
theorem nopEndsOkAndTouchesNothing : Obligations.NopEndsOkAndTouchesNothing := by
  intro c q s m run isNop
  refine ⟨finish c q .ok [] s, ?_, finished_finish _ _ (running?_getCmd run)⟩
  show execNop c q s = _
  simp only [execNop, run, isNop, if_true]

end Sys2Proof.Machine
end

section
/-! PROOF. Nothing but the meter's own events changes the meter (R485, R490, R494): the retirement of a slab, the loss of
the host link and a start leave it alone, although their frames list it. -/

namespace Sys2Proof.Machine

open Sys2Proof

-- Proofs one after another: the package compiles as one text under a memory limit.
set_option Elab.async false

/-- Every part of the state but the meter. -/
def offMeter : List SField := SField.all.erase .meter

section
variable {s t : State} (h : Keeps offMeter s t)
include h

theorem meter_eq_of_keeps : t.meter = s.meter := h.only .meter (by decide)

theorem offMeter_activeFails (x : Nat) : Keeps offMeter s (activeFails x t) := by
  unfold activeFails
  split
  · exact keeps_startFailover h _ (by decide)
  · split
    · exact h
    · exact keeps_loseLink h (by decide)

theorem offMeter_losePcie (n : Nat) : Keeps offMeter s (losePcie n t) := by
  unfold losePcie
  split
  · exact offMeter_activeFails h 0
  · split
    · exact keeps_standbyFails h (by decide)
    · exact h

theorem offMeter_loseEdge (n : Nat) : Keeps offMeter s (loseEdge n t) := by
  unfold loseEdge
  extract_lets s1 s2
  have stack : Keeps offMeter s s1 := by
    unfold s1
    split
    · exact keeps_loseStack h _ _ (by decide)
    · exact h
  clear_value s1
  have port : Keeps offMeter s s2 := by
    unfold s2
    split
    · exact keeps_losePort stack _ _ (by decide)
    · exact stack
  clear_value s2
  split
  · exact offMeter_losePcie (keeps_loseAnchor port _ (by decide)) n
  · exact port

theorem offMeter_fullRetire (n : Nat) (planned : Bool) (reason : Nat) : Keeps offMeter s (fullRetire n planned reason t) := by
  unfold fullRetire
  split
  · exact h
  · extract_lets serving pos p first s1 s2 s3 pk s4 s5 s6
    clear_value p
    have stops : Keeps offMeter s s1 := by
      unfold s1
      cases p with
      | none => exact h
      | some i =>
        refine keeps_dropSlabStops ?_ _ _ _ (by decide)
        split
        · exact h
        · exact keeps_partitionFault h _ _ _ (by decide)
    clear_value s1
    have core : Keeps offMeter s s2 := by
      unfold s2
      split
      · exact keeps_resetCore stops _ _ _ (by decide)
      · exact stops
    clear_value s2
    have logged : Keeps offMeter s s3 :=
      keeps_bankEvent (keeps_logFact core _ _ _ _ _ (by decide)) _ _ (by decide)
    clear_value s3
    have around : Keeps offMeter s s4 := by
      have listed : SField.pkg ∈ offMeter := by decide
      unfold s4
      split
      · exact keeps_detour (logged.light rfl rfl rfl rfl) _ (by decide)
      · exact logged
    clear_value s4
    have left : Keeps offMeter s s5 := by
      unfold s5
      split
      · exact keeps_leavePosition around _ _ _ (by decide)
      · exact around.modSlab _ _ (by decide)
    clear_value s5
    have edge : Keeps offMeter s s6 := offMeter_loseEdge (keeps_dropFabric left _ (by decide)) n
    clear_value s6
    split
    · exact edge
    · exact keeps_unroutable edge _ (by decide)

theorem offMeter_coldStart (cause : Nat) : Keeps offMeter s (coldStart cause t) := by
  have pcie : SField.pcie ∈ offMeter := by decide
  have mtr : SField.mtr ∈ offMeter := by decide
  have pkc : SField.pkc ∈ offMeter := by decide
  have pkc2 : SField.pkc2 ∈ offMeter := by decide
  unfold coldStart
  extract_lets pcieInit pkcInit pins s1 s2 pk u
  have keyed : Keeps offMeter s s2 := keeps_deriveKeys (h.light rfl rfl rfl rfl) (by decide)
  clear_value s2
  split
  · exact keeps_recover (keyed.light rfl rfl rfl rfl) _ (by decide)
  · have up : Keeps offMeter s u := keeps_bringUp keyed (by decide)
    clear_value u
    refine keeps_freeCycles ?_ (by decide)
    split
    · exact up
    · exact up.forAll _ _ fun _ _ k => offMeter_fullRetire k _ _ _

theorem offMeter_coldOn (cause : Nat) : Keeps offMeter s (coldOn cause t) := by
  have started := offMeter_coldStart h cause
  unfold coldOn
  extract_lets u
  split
  · exact keeps_linkRetrains started (by decide)
  · exact started

theorem offMeter_heldStart (cause : Nat) : Keeps offMeter s (heldStart cause t) := by
  have pkc : SField.pkc ∈ offMeter := by decide
  exact (keeps_wipe (offMeter_coldStart h cause) (by decide)).light rfl rfl rfl rfl

end

/-! ## The rows whose frame lists the meter -/

section
variable (s : State)

theorem offMeter_pcieFailover (x : FailTrigger) : Yields offMeter s (execPcieFailover x s) := by
  unfold execPcieFailover
  split
  · exact .next (.refl s)
  · cases x with
    | retirement =>
      dsimp only
      split
      · exact .next (offMeter_activeFails (.refl s) 0)
      · exact .next (.refl s)
    | controllerFault =>
      dsimp only
      split
      · exact .next (offMeter_activeFails (.refl s) 1)
      · exact .next (.refl s)
    | operator => exact .next (keeps_startFailover (.refl s) _ (by decide))

theorem offMeter_flitReceive (dst src : FabPlace) (inject : Option Flit) (r : FlitResult) :
    Yields offMeter s (execFlitReceive dst src inject r s) := by
  unfold execFlitReceive
  split
  · exact .next (.refl s)
  split
  · exact .next (.refl s)
  split
  · exact .next (.refl s)
  · extract_lets t
    have counted : Keeps offMeter s t := keeps_countEdge (.refl s) _ _ (by decide)
    clear_value t
    cases r with
    | dropped =>
      dsimp only
      split
      · exact .next (offMeter_fullRetire (keeps_fabEvent counted _ _ (by decide)) _ _ _)
      · exact .next (keeps_setFails (keeps_modFab counted _ _ (by decide)) _ _ _ (by decide))
    | corrected b =>
      exact .next (keeps_moveFlit (keeps_setFails (keeps_modFab counted _ _ (by decide)) _ _ _ (by decide)) _ _ _ _ _
        (by decide))
    | good => exact .next (keeps_moveFlit (keeps_setFails counted _ _ _ (by decide)) _ _ _ _ _ (by decide))

theorem offMeter_transportResend (slab tseq : Nat) (atomic : Bool) (dest : Nat) :
    Yields offMeter s (execTransportResend slab tseq atomic dest s) := by
  unfold execTransportResend
  split
  · exact .next (.refl s)
  split
  · exact .next (.refl s)
  · extract_lets sends e rest
    split
    · exact .next (offMeter_fullRetire
        (keeps_fabEvent (keeps_modFab (.refl s) _ _ (by decide)) _ _ (by decide)) _ _ _)
    · exact .next (keeps_modFab (.refl s) _ _ (by decide))

theorem offMeter_discordRepair (p : Nat) : Yields offMeter s (execDiscordRepair p s) := by
  unfold execDiscordRepair
  split
  · split
    · split
      · exact .next ((keeps_resendEpoch (.refl s) _ _ (by decide)).modPart2 _ _ (by decide))
      · exact .next (keeps_exchAgrees
          (.forAll (.refl s) _ _ fun _ _ k => offMeter_fullRetire k _ _ _) _ _ (by decide))
    · exact .next (.refl s)
  · exact .next (.refl s)

theorem offMeter_coldPowerOn : Yields offMeter s (execColdPowerOn s) := by
  have pkc2 : SField.pkc2 ∈ offMeter := by decide
  unfold execColdPowerOn
  split
  · exact .next (.refl s)
  · extract_lets pc2 u
    have on : Keeps offMeter s u := (Keeps.refl s).light rfl rfl rfl rfl
    clear_value u
    refine .next ?_
    split
    · exact offMeter_coldOn on 0
    · exact offMeter_heldStart on 0

theorem offMeter_sysResetDeassert : Yields offMeter s (execSysResetDeassert s) := by
  have pkc2 : SField.pkc2 ∈ offMeter := by decide
  unfold execSysResetDeassert
  split
  · exact .next (.refl s)
  · extract_lets a u v
    have high : Keeps offMeter s u := (Keeps.refl s).light rfl rfl rfl rfl
    have started : Keeps offMeter s v := keeps_warmStart high (by decide)
    clear_value v
    split
    · refine .next ?_
      split
      · exact keeps_linkRetrains started (by decide)
      · exact started
    · split
      · exact .next (offMeter_coldOn high 1)
      · exact .next high

theorem offMeter_perstDeassert (speed width : Nat) : Yields offMeter s (execPerstDeassert speed width s) := by
  have pkc : SField.pkc ∈ offMeter := by decide
  have pkc2 : SField.pkc2 ∈ offMeter := by decide
  unfold execPerstDeassert
  split
  · exact .next (.refl s)
  · extract_lets pc2 u
    have high : Keeps offMeter s u := (Keeps.refl s).light rfl rfl rfl rfl
    split
    · refine .next ?_
      split
      · exact keeps_linkUp (offMeter_coldStart high 1) _ _ (by decide)
      · exact offMeter_heldStart high 1
    · split
      · split
        · exact .next (keeps_linkUp (high.light rfl rfl rfl rfl) _ _ (by decide))
        · exact .next (keeps_linkUp (keeps_finishStart high (by decide)) _ _ (by decide))
      · exact .next high

end

/-- The rows that are events or port accesses of the meter itself. -/
def meterRow : Instr → Bool
  | .meterPeriodTick _ | .mReadReq _ | .mirrorRequest _ | .meterSpacingEnd _ | .meterPowerUp _ | .meterPowerDown _
  | .sealChange _ _ _ | .mPeriodWrite _ | .meterPortWrite _ _ | .meterPortRead _ => true
  | _ => false

/-- A row whose frame lists the meter is one of the meter's own, or leaves it alone all the same. -/
theorem offMeter_of_listed {i : Instr} (listed : .meter ∈ touched i) (other : meterRow i = false) (s : State) :
    Yields offMeter s (exec i s) := by
  cases i
  case pcieFailover x => exact offMeter_pcieFailover s x
  case flitReceive dst src inject r => exact offMeter_flitReceive s dst src inject r
  case transportResend slab tseq atomic dest => exact offMeter_transportResend s slab tseq atomic dest
  case discordRepair p => exact offMeter_discordRepair s p
  case coldPowerOn => exact offMeter_coldPowerOn s
  case sysResetDeassert => exact offMeter_sysResetDeassert s
  case perstDeassert speed width => exact offMeter_perstDeassert s speed width
  case meterPeriodTick | mReadReq | mirrorRequest | meterSpacingEnd | meterPowerUp | meterPowerDown | sealChange
    | mPeriodWrite | meterPortWrite | meterPortRead => cases other
  all_goals exact absurd listed (by dsimp only [touched]; decide)

/-- A row that is none of the meter's own leaves it as it was. -/
theorem exec_meter_eq {i : Instr} {s t : State} (other : meterRow i = false) (run : exec i s = .next t) :
    t.meter = s.meter := by
  by_cases listed : .meter ∈ touched i
  · exact meter_eq_of_keeps ((offMeter_of_listed listed other s).keeps run)
  · exact ((yields_exec i s).keeps run).only .meter listed

/-- Settles O7: a row that changes the meter is one of the meter's own ten. -/
theorem nothingOutsideTouchesTheMeter : Obligations.NothingOutsideTouchesTheMeter := by
  intro i s t run changed
  have own : meterRow i = true := by
    by_contra other
    exact changed (exec_meter_eq (Bool.eq_false_iff.2 other) run)
  unfold meterRow at own
  split at own
  all_goals simp at own ⊢

end Sys2Proof.Machine
end

section
/-! PROOF. The meter's store (R483, R484, R487): readings stay chained and numbered, and the audit trail numbered,
through everything the meter does. -/

namespace Sys2Proof.Machine

open Sys2Proof

-- Proofs one after another: the package compiles as one text under a memory limit.
set_option Elab.async false

/-- The readings of `m'` are those of `m`, or one more stands at the newest end of the 8,192 kept. -/
def OneReading (m m' : Meter) : Prop := m'.records = m.records ∨ ∃ x, m'.records = (x :: m.records).take 8192

/-- A list cut short stays chained. -/
theorem chained_take (n : Nat) {l : List ReadingRec} (h : Chained l) : Chained (l.take n) := by
  induction l generalizing n with
  | nil => simpa using h
  | cons x r ih =>
    cases n with
    | zero => trivial
    | succ n =>
      cases r with
      | nil => cases n <;> trivial
      | cons y r =>
        cases n with
        | zero => trivial
        | succ n => exact ⟨h.1, ih (n + 1) h.2⟩

section
variable {m : Meter} (kept : MeterKept m)
include kept

/-- The store is the readings, the last number and the audit trail; nothing else of the meter matters to it. -/
theorem MeterKept.congr {m' : Meter} (hr : m'.records = m.records) (hs : m'.rseq = m.rseq) (ha : m'.audit = m.audit) :
    MeterKept m' :=
  { few := hr ▸ kept.few, last := by rw [hr, hs]; exact kept.last, chained := hr ▸ kept.chained,
    trail := ha ▸ kept.trail, numbered := ha ▸ kept.numbered }

theorem meterKept_auditAdd (kind old new : Nat) : MeterKept (auditAdd kind old new m) := by
  unfold auditAdd
  split
  · exact kept
  · next room => exact { kept with trail := by simp only [List.length_cons]; omega, numbered := ⟨rfl, kept.numbered⟩ }

end

@[simp] theorem auditAdd_records (kind old new : Nat) (m : Meter) : (auditAdd kind old new m).records = m.records := by
  unfold auditAdd; split <;> rfl

section
variable {s : State} (kept : MeterKept s.meter)
include kept

theorem meterKept_meterRun (x : MeterSample) : MeterKept (meterRun x s).meter := kept.congr rfl rfl rfl

/-- A reading follows the newest one, and has the next number. -/
theorem meterKept_formReading : MeterKept (formReading s).meter := by
  refine { kept with few := List.length_take_le .., last := ?_, chained := chained_take _ ?_ }
  · intro x first
    simp only [formReading, List.head?_take, List.head?_cons, Option.mem_def] at first
    cases first
    rfl
  · cases records : s.meter.records with
    | nil => trivial
    | cons y r =>
      have number : y.r.rseq = s.meter.rseq := kept.last y (by rw [records]; rfl)
      have chain : Chained (y :: r) := records ▸ kept.chained
      refine ⟨⟨?_, ?_, ?_, ?_⟩, chain⟩ <;> simp only [nextReading, lastEnd, records, List.head?_cons, number]

theorem meterKept_serveReading : MeterKept (serveReading s).meter := by
  unfold serveReading
  split
  · exact meterKept_formReading kept
  · exact kept

theorem meterKept_trigger (b : Nat) : MeterKept (trigger b s).meter :=
  meterKept_serveReading (s := { s with meter := { s.meter with waiting := s.meter.waiting ||| sh 1 b } })
    (kept.congr rfl rfl rfl)

theorem meterKept_setRefused (v : Bool) : MeterKept (setRefused v s).meter := kept.congr rfl rfl rfl

theorem meterKept_periodWrite (v : Nat) : MeterKept (periodWrite v s).meter := by
  unfold periodWrite
  split
  · exact meterKept_setRefused kept true
  · exact (meterKept_auditAdd kept 1 s.meter.period.toNat v).congr rfl rfl rfl

theorem meterKept_meterRegWrite (a v : Nat) : MeterKept (meterRegWrite a v s).meter := by
  unfold meterRegWrite
  split
  · exact meterKept_periodWrite kept v
  all_goals exact kept.congr rfl rfl rfl

end

theorem meterKept_meterWrites (n a : Nat) (l : List Byte) {s : State} (kept : MeterKept s.meter) :
    MeterKept (meterWrites n a l s).meter := by
  induction n generalizing a l s with
  | zero => exact kept
  | succ n ih =>
    cases l with
    | nil => exact kept
    | cons b l =>
      unfold meterWrites
      split
      · exact ih _ _ (meterKept_meterRegWrite kept _ _)
      · exact meterKept_setRefused kept true

/-! ## The readings held -/

theorem oneReading_serveReading (s : State) : OneReading s.meter (serveReading s).meter := by
  unfold serveReading
  split
  · exact .inr ⟨_, rfl⟩
  · exact .inl rfl

theorem oneReading_trigger (b : Nat) (s : State) : OneReading s.meter (trigger b s).meter :=
  oneReading_serveReading { s with meter := { s.meter with waiting := s.meter.waiting ||| sh 1 b } }

@[simp] theorem periodWrite_records (v : Nat) (s : State) : (periodWrite v s).meter.records = s.meter.records := by
  unfold periodWrite
  split
  · rfl
  · exact auditAdd_records ..

@[simp] theorem meterRegWrite_records (a v : Nat) (s : State) : (meterRegWrite a v s).meter.records = s.meter.records := by
  unfold meterRegWrite
  split
  · exact periodWrite_records v s
  all_goals rfl

@[simp] theorem meterWrites_records (n a : Nat) (l : List Byte) (s : State) :
    (meterWrites n a l s).meter.records = s.meter.records := by
  induction n generalizing a l s with
  | zero => rfl
  | succ n ih =>
    cases l with
    | nil => rfl
    | cons b l =>
      unfold meterWrites
      split
      · rw [ih, meterRegWrite_records]
      · rfl

/-! ## The meter's rows -/

/-- A meter that goes from `m` to `m'` in order: its store is kept, and at most one reading joins it. -/
def KeptOn (m m' : Meter) : Prop := MeterKept m' ∧ OneReading m m'

theorem KeptOn.refl {m : Meter} (kept : MeterKept m) : KeptOn m m := ⟨kept, .inl rfl⟩

section
variable {s t : State} (kept : MeterKept s.meter)
include kept

theorem keptOn_execMeterPeriodTick (x : MeterSample) (run : execMeterPeriodTick x s = .next t) : KeptOn s.meter t.meter := by
  unfold execMeterPeriodTick at run
  split at run <;> cases run
  · exact ⟨meterKept_trigger (meterKept_meterRun kept x) 0, oneReading_trigger 0 _⟩
  · exact .refl kept

theorem keptOn_execMReadReq (x : MeterSample) (run : execMReadReq x s = .next t) : KeptOn s.meter t.meter := by
  unfold execMReadReq at run
  split at run <;> cases run
  · exact ⟨meterKept_trigger (meterKept_meterRun kept x) 1, oneReading_trigger 1 _⟩
  · exact .refl kept

theorem keptOn_execMirrorRequest (x : MeterSample) (run : execMirrorRequest x s = .next t) : KeptOn s.meter t.meter := by
  unfold execMirrorRequest at run
  split at run <;> cases run
  · exact ⟨meterKept_trigger (meterKept_meterRun (s := { s with mtr := { s.mtr with edge := false } }) kept x) 2,
      oneReading_trigger 2 _⟩
  · exact .refl kept

theorem keptOn_execMeterSpacingEnd (x : MeterSample) (run : execMeterSpacingEnd x s = .next t) : KeptOn s.meter t.meter := by
  unfold execMeterSpacingEnd at run
  split at run <;> cases run
  · exact ⟨meterKept_serveReading (meterKept_meterRun kept x), oneReading_serveReading _⟩
  · exact .refl kept

theorem keptOn_execMeterPowerUp (x : MeterSample) (run : execMeterPowerUp x s = .next t) : KeptOn s.meter t.meter := by
  unfold execMeterPowerUp at run
  split at run
  · cases run
    exact .refl kept
  · extract_lets m m2 u at run
    cases run
    have audited : MeterKept u.meter := (meterKept_auditAdd kept 4 0 0).congr rfl rfl rfl
    have same : u.meter.records = s.meter.records := auditAdd_records ..
    refine ⟨meterKept_trigger (meterKept_meterRun audited x) 3, ?_⟩
    have one := oneReading_trigger 3 (meterRun x u)
    rwa [OneReading, show (meterRun x u).meter.records = s.meter.records from same] at one

theorem keptOn_execMeterPowerDown (x : MeterSample) (run : execMeterPowerDown x s = .next t) : KeptOn s.meter t.meter := by
  unfold execMeterPowerDown at run
  split at run <;> cases run
  · exact ⟨(meterKept_meterRun kept x).congr rfl rfl rfl, .inl rfl⟩
  · exact .refl kept

theorem keptOn_execSealChange (c f : Bool) (x : MeterSample) (run : execSealChange c f x s = .next t) :
    KeptOn s.meter t.meter := by
  unfold execSealChange at run
  extract_lets was put u v is m2 at run
  have sealed : MeterKept v.meter := kept.congr rfl rfl rfl
  split at run
  · split at run <;> rw [← Host.Outcome.next.inj run]
    · exact ⟨sealed, .inl rfl⟩
    · refine ⟨meterKept_trigger (meterKept_auditAdd sealed _ 0 0) 4, ?_⟩
      have one := oneReading_trigger 4 { v with
        meter := auditAdd (if is then 3 else 2) 0 0 v.meter,
        meter2 := { v.meter2 with sealOpenSeen := v.meter2.sealOpenSeen || !is } }
      rwa [OneReading, auditAdd_records] at one
  · cases run
    exact ⟨kept.congr rfl rfl rfl, .inl rfl⟩

theorem keptOn_execMPeriodWrite (v : BitVec 32) (run : execMPeriodWrite v s = .next t) : KeptOn s.meter t.meter := by
  unfold execMPeriodWrite at run
  split at run <;> cases run
  · exact ⟨meterKept_periodWrite kept _, .inl (periodWrite_records ..)⟩
  · exact .refl kept

theorem keptOn_execMeterPortWrite (a : BitVec 16) (d : List (BitVec 8)) (run : execMeterPortWrite a d s = .next t) :
    KeptOn s.meter t.meter := by
  unfold execMeterPortWrite at run
  split at run <;> cases run
  · exact ⟨meterKept_meterWrites _ _ _ (s := { s with meter := { s.meter with addr := a } }) (kept.congr rfl rfl rfl),
      .inl (meterWrites_records ..)⟩
  · exact .refl kept

theorem keptOn_execMeterPortRead (n : Nat) (run : execMeterPortRead n s = .next t) : KeptOn s.meter t.meter := by
  unfold execMeterPortRead at run
  split at run <;> cases run
  · exact ⟨kept.congr rfl rfl rfl, .inl rfl⟩
  · exact .refl kept

/-- Every row keeps the store: the meter's own by their lemmas, any other because it leaves the meter alone. -/
theorem keptOn_exec (i : Instr) (run : exec i s = .next t) : KeptOn s.meter t.meter := by
  by_cases own : meterRow i = true
  · unfold meterRow at own
    split at own
    · exact keptOn_execMeterPeriodTick kept _ run
    · exact keptOn_execMReadReq kept _ run
    · exact keptOn_execMirrorRequest kept _ run
    · exact keptOn_execMeterSpacingEnd kept _ run
    · exact keptOn_execMeterPowerUp kept _ run
    · exact keptOn_execMeterPowerDown kept _ run
    · exact keptOn_execSealChange kept _ _ _ run
    · exact keptOn_execMPeriodWrite kept _ run
    · exact keptOn_execMeterPortWrite kept _ _ run
    · exact keptOn_execMeterPortRead kept _ run
    · cases own
  · rw [exec_meter_eq (Bool.eq_false_iff.2 own) run]
    exact .refl kept

end

/-- Settles O8: an idle step changes nothing, and every row keeps the store. -/
theorem readingsFitTogether : Obligations.ReadingsFitTogether := by
  intro s t kept stepped
  unfold step at stepped
  split at stepped
  · cases stepped
    exact KeptOn.refl kept
  · next i r queue => exact keptOn_exec (s := { s with pending := r }) kept i stepped

end Sys2Proof.Machine
end

section
/-! PROOF. Doorbells, ring control and acknowledgements (R344, R349, R360): when a ring answers, and what each write makes
of it. -/

namespace Sys2Proof.Machine

open Sys2Proof

-- Proofs one after another: the package compiles as one text under a memory limit.
set_option Elab.async false

/-! ## When a ring answers -/

theorem Ctx.ringLive_iff (x : Ctx) :
    x.ringLive = true ↔ x.ring.st = .enabled ∧ x.ring.dead = false ∧ x.reg.st ≠ .lost := by
  simp [Ctx.ringLive, and_assoc]

/-- A HALTED ring whose records can still be written is one that an acknowledgement releases (R360). -/
theorem Ctx.haltedLive_iff (x : Ctx) : (x.ringState == 2 && !x.ring.dead && x.reg.st != .lost) = true ↔
    x.ring.st = .enabled ∧ x.reg.st ≠ .blockedKv ∧ x.ring.halts ≠ [] ∧ x.ring.dead = false ∧ x.reg.st ≠ .lost := by
  cases dead : x.ring.dead
  · cases ring : x.ring.st
    · simp [Ctx.ringState, dead, ring]
    · by_cases kv : x.reg.st = .blockedKv
      · simp [Ctx.ringState, dead, ring, kv]
      · by_cases halts : x.ring.halts = [] <;> simp [Ctx.ringState, dead, ring, kv, halts]
    · simp [Ctx.ringState, dead, ring]
  · simp

theorem ringCfgOk_iff (base : DWord) (log2 : BitVec 5) :
    ringCfgOk base log2 = true ↔ base.toNat % 4096 = 0 ∧ 6 ≤ log2.toNat ∧ log2.toNat ≤ 16 := by
  simp [ringCfgOk]

theorem mayWrite_of_ne {src : Src} (h : src ≠ .i3c) : mayWrite src = true := by
  cases src with
  | pf => rfl
  | vf _ => rfl
  | jtag => rfl
  | i3c => exact absurd rfl h

/-! ## Doorbells -/

/-- The state with the host's writes before a doorbell visible (log 5). -/
def hostWrote (cells : List (Nat × BitVec 8)) (s : State) : State :=
  { s with env := { s.env with hostMem := mwriteAll s.env.hostMem cells } }

/-- Host memory does not decide which context a doorbell page names. -/
theorem doorbellCtx_hostWrote (cells : List (Nat × BitVec 8)) (s : State) (src : Src) (page : Nat) :
    doorbellCtx (hostWrote cells s) src page = doorbellCtx s src page := rfl

section
variable {s : State} {src : Src} {page c : Nat} (names : doorbellCtx s src page = some c)
include names

theorem exec_sqTail (v : BitVec 32) (cells : List (Nat × BitVec 8)) : exec (.sqTail src page v cells) s =
    if (s.ctx c).ringLive = true ∧ v.toNat % 2 ^ 16 < (s.ctx c).ring.sqSize then
      .next (settle c ((hostWrote cells s).modCtx c fun x => { x with ring := { x.ring with sqTail := v.toNat % 2 ^ 16 } }))
    else .next (ringEvent c 4 (hostWrote cells s)) := by
  show execSqTail src page v cells s = _
  unfold execSqTail
  extract_lets e u
  rw [show doorbellCtx u src page = some c from names]
  simp only [Bool.and_eq_true, decide_eq_true_eq]
  rfl

theorem exec_cqHead (v : BitVec 32) : exec (.cqHead src page v) s =
    if (s.ctx c).ringLive = true ∧ v.toNat % 2 ^ 16 < (s.ctx c).ring.cqSize ∧
        (v.toNat % 2 ^ 16 + (s.ctx c).ring.cqSize - (s.ctx c).ring.cqHead) % (s.ctx c).ring.cqSize ≤
          (s.ctx c).ring.unread then
      .next (s.modCtx c fun x => { x with ring := { x.ring with cqHead := v.toNat % 2 ^ 16 } })
    else .next (ringEvent c 4 s) := by
  show execCqHead src page v s = _
  unfold execCqHead
  rw [names]
  simp only [Bool.and_eq_true, decide_eq_true_eq, and_assoc]
  rfl

end

/-- Settles O32: each doorbell's row by whether its value is taken. -/
theorem doorbellsMoveTheirIndex : Obligations.DoorbellsMoveTheirIndex := by
  intro src page v cells s u k
  refine ⟨fun c names => ?_, fun none => ?_⟩
  · intro x live n within
    have answers : x.ringLive = true ↔ live := x.ringLive_iff
    refine ⟨fun on small => ⟨_, ?_, refreshed_settle ..⟩, fun bad => ⟨_, ?_, posted_ringEvent ..⟩, fun on inside => ?_,
      fun bad => ⟨_, ?_, posted_ringEvent ..⟩⟩
    · exact (exec_sqTail names v cells).trans (if_pos ⟨answers.2 on, small⟩)
    · exact (exec_sqTail names v cells).trans (if_neg fun ok => bad ⟨answers.1 ok.1, ok.2⟩)
    · exact (exec_cqHead names v).trans (if_pos ⟨answers.2 on, inside⟩)
    · exact (exec_cqHead names v).trans (if_neg fun ok => bad ⟨answers.1 ok.1, ok.2⟩)
  · constructor
    · show execSqTail src page v cells s = _
      unfold execSqTail
      extract_lets e w
      rw [show doorbellCtx w src page = .none from none]
    · show execCqHead src page v s = _
      unfold execCqHead
      rw [none]

/-! ## Ring control -/

section
variable {s : State} {src : Src} {page c : Nat} (reaches : pageWrite s src page = some c)
include reaches

theorem exec_ringEnable : exec (.ringEnable src page) s =
    if (s.ctx c).ring.dead then .next s else
    match (s.ctx c).ring.st with
    | .enabled => .next s
    | .draining => .next (ringEvent c 8 s)
    | .disabled =>
      if ringCfgOk (s.ctx c).ring.sqBase (s.ctx c).ring.sqLog2 && ringCfgOk (s.ctx c).ring.cqBase (s.ctx c).ring.cqLog2 then
        .next (settle c (s.modCtx c fun x => { x with
          ring := { x.ring with
            st := .enabled, halts := [], haltPosted := false, sqHead := 0, sqTail := 0, cqTail := 0, cqPhase := true,
            cqHead := 0, seqNext := 0, refetch := none, flushLeft := 0 },
          irq := { x.irq with unsig := 0 } }))
      else .next (ringEvent c 16 s) := by
  show execRingEnable src page s = _
  unfold execRingEnable
  rw [reaches]
  rfl

theorem exec_ringDisable : exec (.ringDisable src page) s =
    if (s.ctx c).ring.st = .enabled ∧ (s.ctx c).ring.dead = false then
      .next (settle c (abortFetched c (s.modCtx c fun x => { x with
        ring := { x.ring with st := .draining, refetch := none, flushLeft := 0 } })))
    else .next s := by
  show execRingDisable src page s = _
  unfold execRingDisable
  rw [reaches]

end

/-- Settles O35: the writes of EN by the state of the ring, and the end of a drain. -/
theorem ringsStartDrainAndStop : Obligations.RingsStartDrainAndStop := by
  refine ⟨fun src page c s reaches => ?_, fun c s => ?_⟩
  · intro r fits flag
    have enable := exec_ringEnable reaches
    have disable := exec_ringDisable reaches
    have fits_iff : ∀ base log2, ringCfgOk base log2 = true ↔ fits base log2 := ringCfgOk_iff
    refine ⟨fun dead => ⟨?_, ?_⟩, fun on => ?_, fun live draining => ⟨_, ?_, posted_ringEvent ..⟩,
      fun live off bad => ⟨_, ?_, posted_ringEvent ..⟩, fun live off sq cq => ⟨_, ?_, refreshed_settle ..⟩, fun off => ?_,
      fun live on => ⟨_, disable.trans (if_pos ⟨on, live⟩), ?_⟩⟩
    · exact enable.trans (if_pos dead)
    · exact disable.trans (if_neg fun h => Bool.false_ne_true (h.2.symm.trans dead))
    · rw [enable, show (s.ctx c).ring.st = .enabled from on]
      split <;> rfl
    · rw [enable, if_neg (Bool.eq_false_iff.1 live), show (s.ctx c).ring.st = .draining from draining]
    · rw [enable, if_neg (Bool.eq_false_iff.1 live), show (s.ctx c).ring.st = .disabled from off]
      exact if_neg fun ok => bad (((Bool.and_eq_true _ _).mp ok).imp (fits_iff _ _).1 (fits_iff _ _).1)
    · rw [enable, if_neg (Bool.eq_false_iff.1 live), show (s.ctx c).ring.st = .disabled from off]
      exact if_pos ((Bool.and_eq_true _ _).mpr ⟨(fits_iff _ _).2 sq, (fits_iff _ _).2 cq⟩)
    · exact disable.trans (if_neg fun h => off h.1)
    · unfold abortFetched
      rw [State.modCtx_modCtx]
      exact refreshed_settle ..
  · have row : exec (.ringDrained c) s =
        if (s.ctx c).ring.st = .draining ∧ (s.ctx c).ring.dead = false ∧ (s.ctx c).cmds = [] then
          .next (settle c (s.modCtx c fun x => { x with ring := { x.ring with st := .disabled } })) else .next s := rfl
    split
    · next drained => exact ⟨_, row.trans (if_pos drained), refreshed_settle ..⟩
    · next busy => exact row.trans (if_neg busy)

/-! ## Acknowledgements -/

theorem ackCtx_of_page {s : State} {src : Src} {page c : Nat} (host : src ≠ .i3c) (names : pageCtx s src page = some c) :
    ackCtx s src page =
      some (c, (s.ctx c).ringState == 2 && !(s.ctx c).ring.dead && (s.ctx c).reg.st != .lost) := by
  unfold ackCtx
  rw [if_pos (mayWrite_of_ne host), names]

/-- Settles O36: a HALTED ring is released; any other reports the acknowledgement. -/
theorem acknowledgementsReleaseHaltedRings : Obligations.AcknowledgementsReleaseHaltedRings := by
  intro src page c s host names x n halted
  have reach := ackCtx_of_page host names
  refine ⟨fun yes => ?_, fun no i row => ?_⟩
  · rw [(Ctx.haltedLive_iff _).2 yes] at reach
    constructor
    · refine ⟨settle c (ackHalts c s), ?_, refreshed_settle ..⟩
      show execRingAckContinue src page s = _
      unfold execRingAckContinue
      rw [reach]
    · refine ⟨settle c (abortFetched c (ackHalts c
        (s.modCtx c fun x => { x with ring := { x.ring with flushLeft := x.ring.waiting } }))), ?_, ?_⟩
      · show execRingAckFlush src page s = _
        unfold execRingAckFlush
        rw [reach]
      · unfold abortFetched ackHalts
        rw [State.modCtx_modCtx, State.modCtx_modCtx]
        exact refreshed_settle ..
  · rw [Bool.eq_false_iff.2 (mt (Ctx.haltedLive_iff _).1 no)] at reach
    refine ⟨ringEvent c 2 s, ?_, posted_ringEvent ..⟩
    obtain rfl | rfl := row
    · show execRingAckContinue src page s = _
      unfold execRingAckContinue
      rw [reach]
    · show execRingAckFlush src page s = _
      unfold execRingAckFlush
      rw [reach]

end Sys2Proof.Machine
end

section
/-! PROOF. Signalling a vector when the coalescing time has passed (R367). -/

namespace Sys2Proof.Machine

open Sys2Proof

-- Proofs one after another: the package compiles as one text under a memory limit.
set_option Elab.async false

/-- What becomes of a signalled vector: held during a failover, lost with the host link, pending while masked, sent
otherwise (R367, R369, R371). -/
theorem sendMsi_signals (f v : Nat) (s : State) :
    if s.pcie.phase ≠ .idle then (f, v) ∈ (sendMsi f v s).pcie.msiHeld ∧ (sendMsi f v s).env.msis = s.env.msis
    else if s.pcie.linkDown = true then sendMsi f v s = s
    else if ((s.fn f).vec v).masked then v ∈ ((sendMsi f v s).fn f).pba ∧ (sendMsi f v s).env.msis = s.env.msis
    else (sendMsi f v s).env.msis = s.env.msis ++ [(f, v)] := by
  unfold sendMsi
  split
  · next busy =>
    refine ⟨?_, rfl⟩
    show (f, v) ∈ if s.pcie.msiHeld.contains (f, v) then s.pcie.msiHeld else s.pcie.msiHeld ++ [(f, v)]
    split
    · next held => exact List.contains_iff_mem.1 held
    · exact List.mem_append_right _ (List.mem_singleton.2 rfl)
  · split
    · rfl
    · split
      · refine ⟨?_, rfl⟩
        rw [State.modFn_fn_self]
        show v ∈ if (s.fn f).pba.contains v then (s.fn f).pba else (s.fn f).pba ++ [v]
        split
        · next held => exact List.contains_iff_mem.1 held
        · exact List.mem_append_right _ (List.mem_singleton.2 rfl)
      · rfl

/-- Vector v of function f has been signalled from `s` on: held during a failover, lost with the host link, pending while it
is masked, or sent (R367, R369, R371). -/
def VectorSignalled (s : State) (f v : Nat) (t : State) : Prop :=
  if s.pcie.phase ≠ .idle then (f, v) ∈ t.pcie.msiHeld ∧ t.env.msis = s.env.msis
  else if s.pcie.linkDown = true then t.pcie = s.pcie ∧ t.env.msis = s.env.msis ∧ (t.fn f).pba = (s.fn f).pba
  else if ((s.fn f).vec v).masked then v ∈ (t.fn f).pba ∧ t.env.msis = s.env.msis
  else t.env.msis = s.env.msis ++ [(f, v)]

/-- A count that starts again does not decide what becomes of the vector. -/
theorem vectorSignalled_sendMsi {s u : State} {f : Nat} (v : Nat) (pcie : u.pcie = s.pcie) (env : u.env = s.env)
    (vec : (u.fn f).vec v = (s.fn f).vec v) (pba : (u.fn f).pba = (s.fn f).pba) :
    VectorSignalled s f v (sendMsi f v u) := by
  have sent := sendMsi_signals f v u
  rw [pcie, env, vec] at sent
  unfold VectorSignalled
  split_ifs at sent ⊢
  · exact sent
  · rw [sent]
    exact ⟨pcie, by rw [env], pba⟩
  · exact sent
  · exact sent

/-- Settles O37: with records unsignalled the ring's vector is signalled and its count starts again. -/
theorem coalescingTimeSendsTheVector : Obligations.CoalescingTimeSendsTheVector := by
  intro s Signalled
  refine ⟨fun c => ?_, fun f => ?_⟩
  · intro x
    have row : exec (.cqIrqTimeout (.cq c)) s =
        if (x.irq.en && decide (0 < x.irq.unsig) && !x.ring.dead) = true then
          .next (sendMsi x.reg.func (cqVector x c) (s.modCtx c fun x => { x with irq := { x.irq with unsig := 0 } }))
        else .next s := rfl
    split
    · next due =>
      obtain ⟨on, some_, live⟩ := due
      exact ⟨_, row.trans (if_pos (by simp [on, some_, live])), vectorSignalled_sendMsi _ rfl rfl rfl rfl,
        posted_sendMsi ..⟩
    · next idle => exact row.trans (if_neg fun due => idle (by simpa [and_assoc] using due))
  · have row : exec (.cqIrqTimeout (.evq f)) s =
        if ((s.fn f).irq.en && decide (0 < (s.fn f).irq.unsig)) = true then
          .next (sendMsi f 0 (s.modFn f fun x => { x with irq := { x.irq with unsig := 0 } }))
        else .next s := rfl
    split
    · next due =>
      obtain ⟨on, some_⟩ := due
      refine ⟨_, row.trans (if_pos (by simp [on, some_])), ?_, (posted_modFn s f _).trans (posted_sendMsi ..), ?_⟩
      · refine vectorSignalled_sendMsi 0 rfl rfl ?_ ?_ <;> rw [State.modFn_fn_self]
        rfl
      · rw [sendMsi_fn, State.modFn_fn_self]
    · next idle => exact row.trans (if_neg fun due => idle (by simpa using due))

end Sys2Proof.Machine
end

section
/-! PROOF. Fetching entries (R350, R346, R352): what one entry leaves of its context, and what a fetch of several adds. -/

namespace Sys2Proof.Machine

open Sys2Proof

-- Proofs one after another: the package compiles as one text under a memory limit.
set_option Elab.async false

/-- The address of the slot at the head of a context's ring (R350). -/
def Ring.headAddr (r : Ring) : Nat := r.sqBase.toNat + 64 * r.sqHead

/-- Can the host not be reached at the slot at the head of a context's ring? -/
def headFails (s : State) (c : Nat) : Bool := hostFails s (s.ctx c).reg.func (s.ctx c).ring.headAddr 64

/-- A command fetched under the next number, before its entry is known. -/
def newCmd (s : State) (c : Nat) : Cmd :=
  { seq := (s.ctx c).ring.seqNext.toNat, entry := 0, phase := .fetched, stamp := s.env.fetchStamp + 1, bound := .none,
    status := 0, aflags := 0, dw := [], aq := [], issued := false, interrupted := false }

/-- The command that a fetch adds where its entry cannot be read (R352). -/
def failedCmd (s : State) (c : Nat) : Cmd :=
  let fa := hostFailAddr s (s.ctx c).reg.func (s.ctx c).ring.headAddr 64
  { newCmd s c with phase := .done, status := Status.hostmem.code, dw := [w32 fa, w32 (fa / 2 ^ 32)] }

/-- The command that a fetch adds where its entry can be read, ended at once under a flush (R350, R360). -/
def readCmd (s : State) (c : Nat) : Cmd :=
  let aborted := decide (0 < (s.ctx c).ring.flushLeft)
  { newCmd s c with
    entry := BitVec.ofNat 512 (ofBytes (hostRead s (s.ctx c).reg.func (s.ctx c).ring.headAddr 64)),
    phase := if aborted then .done else .fetched, status := if aborted then Status.aborted.code else 0 }

/-- The context after one fetch. -/
def fetchedCtx (s : State) (c : Nat) : Ctx :=
  let x := s.ctx c
  if headFails s c then
    { x with ring := { x.ring with refetch := some x.ring.seqNext.toNat }, cmds := x.cmds ++ [failedCmd s c] }
  else
    { x with
      ring := { x.ring with
        seqNext := x.ring.seqNext + 1, refetch := none, sqHead := (x.ring.sqHead + 1) % x.ring.sqSize,
        flushLeft := x.ring.flushLeft - 1 },
      cmds := x.cmds ++ [readCmd s c] }

section
variable {s : State} {c : Nat}

theorem fetchOne_of_not (no : mayFetch s c = false) : fetchOne c s = s := if_neg (Bool.eq_false_iff.1 no)

/-- A fetch changes one context; its counts, marks and events change none. -/
theorem fetchOne_ctx (may : mayFetch s c = true) (d : Nat) : (fetchOne c s).ctx d = (s.setCtx c (fetchedCtx s c)).ctx d := by
  unfold fetchOne
  rw [if_pos may]
  extract_lets x q a stamp new env s1 fa r e aborted s2 s3 p s4 s5 full
  have fetched : s2 = s1.setCtx c (fetchedCtx s c) := by
    unfold s2 fetchedCtx
    split
    · next fails => rw [if_pos (show headFails s c = true from fails)]; rfl
    · next reads => rw [if_neg (show ¬ headFails s c = true from reads)]; rfl
  have quiet : Keeps [SField.env, .hostMem, .pcie, .winPeak, .parts2, .funcs] s2
      (forAll (List.range 24) (fun p t =>
        if full && (residents t p).any (fun c => (t.ctx c).fetchable c) then pseqEvent p 1 t else t) s5) := by
    have w : SField.winPeak ∈ [SField.env, .hostMem, .pcie, .winPeak, .parts2, .funcs] := by decide
    have h3 : Keeps [SField.env, .hostMem, .pcie, .winPeak, .parts2, .funcs] s2 s3 :=
      (Keeps.refl s2).light rfl rfl rfl rfl
    have h4 : Keeps [SField.env, .hostMem, .pcie, .winPeak, .parts2, .funcs] s2 s4 := by
      unfold s4
      split
      · exact h3.modPart2 _ _ (by decide)
      · exact h3
    have h5 : Keeps [SField.env, .hostMem, .pcie, .winPeak, .parts2, .funcs] s2 s5 := by
      unfold s5
      split
      · exact keeps_pseqEvent h4 _ _ (by decide)
      · exact h4
    refine h5.forAll _ _ fun p u k => ?_
    split
    · exact keeps_pseqEvent k _ _ (by decide)
    · exact k
  rw [quiet.ctx d, fetched]
  rfl

theorem fetchOne_ctx_self (may : mayFetch s c = true) : (fetchOne c s).ctx c = fetchedCtx s c := by
  rw [fetchOne_ctx may, State.setCtx_ctx_self]

theorem fetchOne_ctx_other {d : Nat} (s : State) (other : d ≠ c) : (fetchOne c s).ctx d = s.ctx d := by
  cases may : mayFetch s c with
  | false => rw [fetchOne_of_not may]
  | true => rw [fetchOne_ctx may, State.setCtx_ctx_other _ _ other]

/-- A fetch adds at most one command, at the end of the window. -/
theorem fetchOne_cmds (c : Nat) (s : State) :
    (s.ctx c).cmds <+: ((fetchOne c s).ctx c).cmds ∧ ((fetchOne c s).ctx c).cmds.length ≤ (s.ctx c).cmds.length + 1 := by
  cases may : mayFetch s c with
  | false => rw [fetchOne_of_not may]; exact ⟨List.prefix_rfl, Nat.le_succ _⟩
  | true =>
    rw [fetchOne_ctx_self may]
    unfold fetchedCtx
    dsimp only
    split <;> exact ⟨List.prefix_append .., (List.length_append ..).le⟩

theorem fetchN_of_not (n : Nat) (no : mayFetch s c = false) : fetchN c n s = s := by
  induction n with
  | zero => rfl
  | succ n ih => rw [fetchN, fetchOne_of_not no, ih]

theorem fetchN_ctx_other {d : Nat} (n : Nat) (s : State) (other : d ≠ c) : (fetchN c n s).ctx d = s.ctx d := by
  induction n generalizing s with
  | zero => rfl
  | succ n ih => rw [fetchN, ih, fetchOne_ctx_other s other]

theorem fetchN_cmds (c n : Nat) (s : State) :
    (s.ctx c).cmds <+: ((fetchN c n s).ctx c).cmds ∧ ((fetchN c n s).ctx c).cmds.length ≤ (s.ctx c).cmds.length + n := by
  induction n generalizing s with
  | zero => exact ⟨List.prefix_rfl, le_rfl⟩
  | succ n ih =>
    obtain ⟨here, less⟩ := fetchOne_cmds c s
    obtain ⟨on, more⟩ := ih (fetchOne c s)
    exact ⟨here.trans on, by rw [fetchN]; omega⟩

end

/-- Settles O33: every fetch by induction over its entries, and a fetch of one by what its slot holds. -/
theorem entriesTakeTheNextNumber : Obligations.EntriesTakeTheNextNumber := by
  intro c n s
  obtain ⟨kept, few⟩ := fetchN_cmds c (min n 64) s
  refine ⟨settle c (fetchN c (min n 64) s), rfl, fun d other => ?_, ?_, ?_, fun no => ?_, fun may one => ?_⟩
  · rw [settle_ctx_other _ other, fetchN_ctx_other _ _ other]
  · rw [settle_cmds]; exact kept
  · rw [settle_cmds]; exact few
  · rw [fetchN_of_not _ no]; exact refreshed_settle ..
  · subst one
    intro r a f
    rw [settle_cmds, settle_ring, show min 1 64 = 1 from rfl, fetchN, fetchN, fetchOne_ctx_self may]
    unfold fetchedCtx
    by_cases fails : hostFails s f a 64 = true
    · rw [if_pos (show headFails s c = true from fails)]
      exact ⟨failedCmd s c, rfl, rfl, rfl, by rw [if_pos fails]; exact ⟨rfl, rfl, rfl, rfl⟩⟩
    · rw [if_neg (show ¬ headFails s c = true from fails)]
      refine ⟨readCmd s c, rfl, rfl, rfl, ?_⟩
      rw [if_neg fails]
      refine ⟨rfl, ?_, rfl⟩
      by_cases calm : r.flushLeft = 0
      · rw [if_pos calm]
        simp [readCmd, show (s.ctx c).ring.flushLeft = 0 from calm]
      · rw [if_neg calm]
        simp [readCmd, show 0 < (s.ctx c).ring.flushLeft from Nat.pos_of_ne_zero calm]

end Sys2Proof.Machine
end

section
/-! PROOF. Event rings (R366, R373, R375): what posting makes of the event registers and of what a failover holds, and
what the writes of EN and EVQ_HEAD make of a ring. -/

namespace Sys2Proof.Machine

open Sys2Proof

-- Proofs one after another: the package compiles as one text under a memory limit.
set_option Elab.async false

/-! ## What posting at once does to the event registers and to the link -/

/-- `t` is `s` after events were written at once: no event bit of a function fell, and the link holds nothing new but the
messages that a failover holds. -/
structure Raised (s t : State) : Prop where
  pcie : ∃ held, t.pcie = { s.pcie with msiHeld := held }
  idle : s.pcie.phase = .idle → t.pcie = s.pcie
  events : ∀ g i, bit (s.fn g).irq.events.toNat i = true → bit (t.fn g).irq.events.toNat i = true

variable {s t u : State}

/-- A change that leaves the link alone and clears no event bit. -/
theorem raised_of_pcie_eq (pcie : t.pcie = s.pcie)
    (events : ∀ g i, bit (s.fn g).irq.events.toNat i = true → bit (t.fn g).irq.events.toNat i = true) : Raised s t :=
  ⟨⟨s.pcie.msiHeld, pcie⟩, fun _ => pcie, events⟩

theorem Raised.refl (s : State) : Raised s s := raised_of_pcie_eq rfl fun _ _ h => h

theorem Raised.phase (h : Raised s t) : t.pcie.phase = s.pcie.phase := by obtain ⟨_, e⟩ := h.pcie; rw [e]

theorem Raised.evHeld (h : Raised s t) : t.pcie.evHeld = s.pcie.evHeld := by obtain ⟨_, e⟩ := h.pcie; rw [e]

theorem Raised.trans (h : Raised s t) (k : Raised t u) : Raised s u := by
  refine ⟨?_, fun idle => (k.idle (h.phase.trans idle)).trans (h.idle idle), fun g i on => k.events g i (h.events g i on)⟩
  obtain ⟨_, e⟩ := h.pcie
  obtain ⟨held, e'⟩ := k.pcie
  exact ⟨held, by rw [e', e]⟩

theorem raised_forAll {α : Type} (l : List α) (f : α → State → State) (each : ∀ a s, Raised s (f a s)) (s : State) :
    Raised s (forAll l f s) := by
  unfold forAll
  induction l generalizing s with
  | nil => exact .refl s
  | cons a l ih => exact (each a s).trans (ih _)

theorem raised_modFn (f : Nat) (k : Fn → Fn)
    (events : ∀ i, bit (s.fn f).irq.events.toNat i = true → bit (k (s.fn f)).irq.events.toNat i = true) :
    Raised s (s.modFn f k) := by
  refine raised_of_pcie_eq rfl fun g i on => ?_
  by_cases g_eq : g = f
  · subst g_eq; rw [State.modFn_fn_self]; exact events i on
  · rw [State.modFn_fn_other _ _ g_eq]; exact on

theorem raised_hostWrite (f a : Nat) (bs : List Byte) : Raised s (hostWrite s f a bs) := by
  unfold hostWrite
  split
  · exact .refl s
  · exact raised_of_pcie_eq rfl fun _ _ on => on

theorem raised_sendMsi (f v : Nat) (s : State) : Raised s (sendMsi f v s) := by
  refine ⟨⟨(sendMsi f v s).pcie.msiHeld, ?_⟩, fun idle => ?_, fun g i on => ?_⟩
  · unfold sendMsi
    split
    · rfl
    · split
      · rfl
      · split <;> rfl
  · unfold sendMsi
    rw [if_neg (not_not.2 idle)]
    split
    · rfl
    · split <;> rfl
  · by_cases g_eq : g = f
    · subst g_eq; rw [sendMsi_fn]; exact on
    · rw [sendMsi_fn_other _ _ g_eq]; exact on

theorem evqSignal_events (f g : Nat) (s : State) : ((evqSignal f s).fn g).irq.events = (s.fn g).irq.events := by
  unfold evqSignal
  dsimp only
  split
  · by_cases g_eq : g = f
    · subst g_eq; rw [sendMsi_fn, State.setFn_fn_self]
    · rw [sendMsi_fn_other _ _ g_eq, State.setFn_fn_other _ _ g_eq]
  · rfl

theorem raised_evqSignal (f : Nat) (s : State) : Raised s (evqSignal f s) := by
  have link : (∃ held, (evqSignal f s).pcie = { s.pcie with msiHeld := held }) ∧
      (s.pcie.phase = .idle → (evqSignal f s).pcie = s.pcie) := by
    unfold evqSignal
    dsimp only
    split
    · have sent := raised_sendMsi f 0 (s.setFn f { s.fn f with irq := { (s.fn f).irq with unsig := 0 } })
      exact ⟨sent.pcie, sent.idle⟩
    · exact ⟨⟨_, rfl⟩, fun _ => rfl⟩
  exact ⟨link.1, link.2, fun g i on => by rw [evqSignal_events]; exact on⟩

theorem raised_evLost (f : Nat) (h : Bool) (s : State) : Raised s (evLost f h s) :=
  raised_modFn _ _ fun i on => by dsimp only; rw [bit_or, on, Bool.true_or]

/-- A record whose slot can be written leaves its function's event register as it was. -/
theorem evPut_events (f code slab ctx : Nat) (dws : List Nat)
    (writes : hostFails s f ((s.fn f).base.toNat + 32 * (s.fn f).tail) 32 = false) (g : Nat) :
    ((evPut f code slab ctx dws s).fn g).irq.events = (s.fn g).irq.events := by
  unfold evPut
  dsimp only
  rw [if_neg (by rw [writes]; decide), evqSignal_events]
  by_cases g_eq : g = f
  · subst g_eq; rw [State.setFn_fn_self]; rfl
  · rw [State.setFn_fn_other _ _ g_eq, (show ∀ t : State, t.funcs = s.funcs → t.fn g = s.fn g from
      fun t h => by unfold State.fn; rw [h])]
    unfold hostWrite
    split <;> rfl

theorem raised_evPut (f code slab ctx : Nat) (dws : List Nat) (s : State) : Raised s (evPut f code slab ctx dws s) := by
  unfold evPut
  dsimp only
  split
  · exact raised_evLost ..
  · refine ((raised_hostWrite ..).trans (raised_modFn f (fun _ => (s.fn f).advance) fun i on => ?_)).trans
      (raised_evqSignal ..)
    rwa [show ∀ bs a, (hostWrite s f a bs).fn f = s.fn f from fun bs a => by unfold hostWrite; split <;> rfl] at on

theorem raised_evOverflow (f : Nat) (s : State) : Raised s (evOverflow f s) := by
  unfold evOverflow
  dsimp only
  split
  · exact .refl s
  · split
    · exact raised_modFn _ _ fun i on => by dsimp only; rw [bit_or, on, Bool.true_or]
    · exact (raised_modFn f (fun _ => { s.fn f with owed := 0 }) fun _ on => on).trans (raised_evPut ..)

theorem raised_postRaw (f code slab ctx : Nat) (dws : List Nat) (s : State) :
    Raised s (postRaw f code slab ctx dws s) := by
  unfold postRaw
  dsimp only
  split
  · exact (raised_evOverflow f s).trans (raised_evPut ..)
  · exact (raised_evOverflow f s).trans (raised_evLost ..)

theorem raised_postFuel (n f code slab ctx : Nat) (dws : List Nat) (s : State) :
    Raised s (postFuel n f code slab ctx dws s) := by
  induction n generalizing f code slab ctx dws s with
  | zero => exact raised_postRaw ..
  | succ n ih =>
    have raw := raised_postRaw f code slab ctx dws s
    simp only [postFuel]
    split <;> split
    · exact (raw.trans (ih ..)).trans (ih ..)
    · exact raw.trans (ih ..)
    · exact raw.trans (ih ..)
    · exact raw

/-- Outside a failover an event is written at once (R364, R369). -/
theorem raised_post (f code slab ctx : Nat) (dws : List Nat) (idle : s.pcie.phase = .idle) :
    Raised s (post f code slab ctx dws s) := by
  rw [show post f code slab ctx dws s = postFuel 3 f code slab ctx dws s from if_pos idle]
  exact raised_postFuel ..

/-! ## The OVERFLOW record that a ring is owed -/

theorem payOverflow_of_held (f : Nat) (held : s.pcie.phase ≠ .idle) : payOverflow f s = s := if_neg held

theorem payOverflow_of_none {f : Nat} (none : (s.fn f).owed = 0) : payOverflow f s = s := by
  unfold payOverflow
  split
  · rw [(evOverflow_facts f s).2.2.2 none]
    dsimp only
    rw [if_neg (by rw [BitVec.and_not_self]; decide)]
  · rfl

section
variable {f : Nat} (owed : 0 < (s.fn f).owed) (room : (s.fn f).room = true) (idle : s.pcie.phase = .idle)
include owed room idle

/-- Where the slot cannot be written, HOSTMEM is set (R366). -/
theorem payOverflow_fails (fails : hostFails s f ((s.fn f).base.toNat + 32 * (s.fn f).tail) 32 = true) :
    bit ((payOverflow f s).fn f).irq.events.toNat 4 = true := by
  have paid : evOverflow f s = s.modFn f fun x => { x with irq := { x.irq with events := x.irq.events ||| 0x10 } } := by
    unfold evOverflow
    dsimp only
    rw [if_neg (by rw [room]; simp; omega), if_pos fails]
  have set : bit ((evOverflow f s).fn f).irq.events.toNat 4 = true := by
    rw [paid, State.modFn_fn_self]
    dsimp only
    rw [bit_or]
    exact Bool.or_true _
  unfold payOverflow
  rw [if_pos idle]
  dsimp only
  split
  · exact (raised_post _ _ _ _ _ ((raised_evOverflow f s).phase.trans idle)).events f 4 set
  · exact set

/-- Where it can, the record goes into the ring and nothing is owed any more (R366). -/
theorem payOverflow_writes (writes : hostFails s f ((s.fn f).base.toNat + 32 * (s.fn f).tail) 32 = false) :
    payOverflow f s = evPut f 0x0007 0xFF 0xFFFF [(s.fn f).owed] (s.setFn f { s.fn f with owed := 0 }) := by
  have paid : evOverflow f s = evPut f 0x0007 0xFF 0xFFFF [(s.fn f).owed] (s.setFn f { s.fn f with owed := 0 }) := by
    unfold evOverflow
    dsimp only
    rw [if_neg (by rw [room]; simp; omega), if_neg (by rw [writes]; decide)]
  have same : ((evOverflow f s).fn f).irq.events = (s.fn f).irq.events := by
    rw [paid, evPut_events _ _ _ _ _ (by rw [State.setFn_fn_self]; exact writes), State.setFn_fn_self]
  unfold payOverflow
  rw [if_pos idle]
  dsimp only
  rw [same, if_neg (by rw [BitVec.and_not_self]; decide), paid]

/-- What the record leaves: its bytes in the slot, the ring one record on. -/
theorem payOverflow_record (writes : hostFails s f ((s.fn f).base.toNat + 32 * (s.fn f).tail) 32 = false) :
    hostRead (payOverflow f s) f ((s.fn f).base.toNat + 32 * (s.fn f).tail) 32 =
      eventRec 0x0007 0xFF (s.fn f).eseq.toNat 0xFFFF [(s.fn f).owed] (s.fn f).phase ∧
    ((payOverflow f s).fn f).tail = (s.fn f).advance.tail ∧ ((payOverflow f s).fn f).eseq = (s.fn f).advance.eseq ∧
    ((payOverflow f s).fn f).en = (s.fn f).en ∧ ((payOverflow f s).fn f).head = (s.fn f).head := by
  rw [payOverflow_writes owed room idle writes]
  obtain ⟨-, head, en, put⟩ := evPut_facts f 0x0007 0xFF 0xFFFF [(s.fn f).owed] (s.setFn f { s.fn f with owed := 0 })
  rw [State.setFn_fn_self] at head en put
  obtain ⟨record, tail, eseq, -⟩ := put writes
  exact ⟨record, tail, eseq, en, head⟩

end

/-! ## Writes of a function block -/

/-- A function's block with an event ring that starts. -/
def Fn.started (x : Fn) : Fn :=
  { x with en := true, head := 0, tail := 0, phase := true, eseq := 0, irq := { x.irq with unsig := 0 } }

/-- A ring without unread records has room, if it has two slots. -/
theorem Fn.room_of_empty {x : Fn} (en : x.en = true) (empty : x.head = x.tail) (two : 1 < x.size) : x.room = true := by
  unfold Fn.room Fn.used
  rw [en, empty, Nat.add_sub_cancel_left, Nat.mod_self]
  simpa using two

section
variable {src : Src} {f : Nat} (may : fnWrite s src f = true)
include may

theorem exec_evqEnable : exec (.evqEnable src f) s =
    if (s.fn f).en then .next s
    else if ringCfgOk (s.fn f).base (s.fn f).log2 then .next (payOverflow f (s.setFn f (s.fn f).started))
    else .next (fnEvent f 2 s) :=
  if_pos may

theorem exec_evqHead (v : BitVec 32) : exec (.evqHead src f v) s =
    if (s.fn f).en = true ∧ v.toNat % 2 ^ 16 < (s.fn f).size ∧
        (v.toNat % 2 ^ 16 + (s.fn f).size - (s.fn f).head) % (s.fn f).size ≤ (s.fn f).used then
      .next (payOverflow f (s.modFn f fun y => { y with head := v.toNat % 2 ^ 16 }))
    else .next (fnEvent f 8 s) := by
  show execEvqHead src f v s = _
  unfold execEvqHead
  rw [if_pos may]
  simp only [Bool.and_eq_true, decide_eq_true_eq, and_assoc]
  rfl

end

/-- Settles O38: each write by the ring's state, and the OVERFLOW record by the lemmas of what it leaves. -/
theorem eventRingsStartAndFreeTheirSlots : Obligations.EventRingsStartAndFreeTheirSlots := by
  intro src f v s may x n k fits within fresh
  have ok : fits ↔ ringCfgOk x.base x.log2 = true := (ringCfgOk_iff ..).symm
  have started : x.en = false → fits → exec (.evqEnable src f) s = .next (payOverflow f (s.setFn f fresh)) :=
    fun off good => by
      rw [exec_evqEnable may, if_neg (by rw [show (s.fn f).en = false from off]; decide), if_pos (ok.1 good)]; rfl
  have freed : within → exec (.evqHead src f v) s = .next (payOverflow f (s.modFn f fun y => { y with head := k })) :=
    fun inside => (exec_evqHead may v).trans (if_pos inside)
  have fresh_fn : (s.setFn f fresh).fn f = fresh := State.setFn_fn_self ..
  have head_fn : (s.modFn f fun y => { y with head := k }).fn f = { x with head := k } := State.modFn_fn_self ..
  have wide : fits → 1 < fresh.size := fun good => Nat.one_lt_two_pow (by have := good.2.1; show x.log2.toNat ≠ 0; omega)
  have room : fits → ((s.setFn f fresh).fn f).room = true := fun good => by
    rw [fresh_fn]; exact Fn.room_of_empty rfl rfl (wide good)
  refine ⟨fun on => ?_, fun off bad => ?_, fun off good none => ?_, fun off good held => ?_,
    fun off good owed idle fails => ?_, fun off good owed idle writes => ?_, fun inside none => ?_, fun inside held => ?_,
    fun inside owed empty two idle writes => ?_, fun outside => ?_⟩
  · rw [exec_evqEnable may, if_pos on]
  · rw [exec_evqEnable may, if_neg (by rw [show (s.fn f).en = false from off]; decide), if_neg (fun h => bad (ok.2 h))]
    exact ⟨_, rfl, posted_fnEvent ..⟩
  · rw [started off good, payOverflow_of_none (by rw [fresh_fn]; exact none)]
  · rw [started off good, payOverflow_of_held (s := s.setFn f fresh) f held]
  · refine ⟨_, started off good, posted_payOverflow f (s.setFn f fresh), ?_⟩
    exact payOverflow_fails (by rw [fresh_fn]; exact owed) (room good) idle (by rw [fresh_fn]; exact fails)
  · have left := payOverflow_record (by rw [fresh_fn]; exact owed) (room good) idle (by rw [fresh_fn]; exact writes)
    rw [fresh_fn] at left
    obtain ⟨record, tail, eseq, en, -⟩ := left
    refine ⟨_, started off good, posted_payOverflow f (s.setFn f fresh), record, ?_, eseq, en⟩
    rw [tail]
    exact Nat.mod_eq_of_lt (wide good)
  · rw [freed inside, payOverflow_of_none (by rw [head_fn]; exact none)]
  · rw [freed inside, payOverflow_of_held (s := s.modFn f fun y => { y with head := k }) f held]
  · have left := payOverflow_record (s := s.modFn f fun y => { y with head := k }) (f := f)
      (by rw [head_fn]; exact owed) (by rw [head_fn]; exact Fn.room_of_empty inside.1 empty two) idle
      (by rw [head_fn]; exact writes)
    rw [head_fn] at left
    obtain ⟨record, -, -, -, head⟩ := left
    exact ⟨_, freed inside, posted_payOverflow f (s.modFn f fun y => { y with head := k }), head, record⟩
  · exact ⟨_, (exec_evqHead may v).trans (if_neg outside), posted_fnEvent ..⟩

end Sys2Proof.Machine
end

section
/-! PROOF. The host link (R340, R368 to R371): configuration writes, the failover to the standby controller, what it held,
and the loss of the link. -/

namespace Sys2Proof.Machine

open Sys2Proof

-- Proofs one after another: the package compiles as one text under a memory limit.
set_option Elab.async false

variable {s t u : State}

/-! ## What writing records changes -/

/-- `t` is `s` after records and events were written: besides what posting events changes, only contexts and the count of
stamps (R353, R359, R360). -/
def Recorded (s t : State) : Prop :=
  t = { s with
    env := { s.env with hostMem := t.env.hostMem, msis := t.env.msis, fetchStamp := t.env.fetchStamp },
    pcie := { s.pcie with msiHeld := t.pcie.msiHeld, evHeld := t.pcie.evHeld }, ctxs := t.ctxs, funcs := t.funcs }

theorem Recorded.refl (s : State) : Recorded s s := rfl

theorem Recorded.trans (h : Recorded s t) (k : Recorded t u) : Recorded s u := by
  unfold Recorded at *
  rw [k.trans (by rw [h])]

theorem Posted.recorded (h : Posted s t) : Recorded s t := by
  unfold Posted at h
  unfold Recorded
  rw [h]

theorem recorded_modCtx (s : State) (c : Nat) (f : Ctx → Ctx) : Recorded s (s.modCtx c f) := rfl

theorem recorded_setCtx (s : State) (c : Nat) (x : Ctx) : Recorded s (s.setCtx c x) := rfl

theorem recorded_forAll {α : Type} (l : List α) (f : α → State → State) (each : ∀ a s, Recorded s (f a s)) (s : State) :
    Recorded s (forAll l f s) := by
  unfold forAll
  induction l generalizing s with
  | nil => exact .refl s
  | cons a l ih => exact (each a s).trans (ih _)

theorem recorded_settle (c : Nat) (s : State) : Recorded s (settle c s) := by
  unfold Recorded
  rw [settle_eq]

theorem recorded_dropCmd (c q : Nat) (s : State) : Recorded s (dropCmd c q s) := recorded_modCtx ..

theorem recorded_cqDue (c : Nat) (now : Bool) (s : State) : Recorded s (cqDue c now s) := by
  unfold cqDue
  dsimp only
  split
  · exact (recorded_setCtx s c _).trans (posted_sendMsi ..).recorded
  · exact .refl s

theorem recorded_cqSignal (c : Nat) (now : Bool) (s : State) : Recorded s (cqSignal c now s) :=
  (recorded_modCtx s c _).trans (recorded_cqDue ..)

theorem recorded_ringHalt (c q status : Nat) (s : State) : Recorded s (ringHalt c q status s) := by
  unfold ringHalt
  dsimp only
  split
  · exact recorded_modCtx ..
  · exact ((recorded_modCtx s c _).trans (recorded_modCtx ..)).trans (posted_postBoth ..).recorded

theorem recorded_ringDead (c : Nat) (s : State) : Recorded s (ringDead c s) :=
  ((recorded_modCtx s c _).trans (recorded_modCtx ..)).trans (posted_ringEvent ..).recorded

theorem recorded_slotSignalled (c : Nat) (m : Cmd) (s : State) : Recorded s (slotSignalled c m s) :=
  ((((posted_hostWrite ..).recorded).trans (recorded_modCtx ..)).trans (recorded_dropCmd ..)).trans (recorded_cqSignal ..)

theorem recorded_writeRecord (c : Nat) (m : Cmd) (s : State) : Recorded s (writeRecord c m s) := by
  cases fails : slotFails s c with
  | true =>
    rw [writeRecord_fails fails]
    exact (recorded_dropCmd ..).trans (recorded_ringDead ..)
  | false =>
    rw [writeRecord_writes fails]
    split
    · exact (recorded_slotSignalled ..).trans (recorded_ringHalt ..)
    · exact recorded_slotSignalled ..

theorem recorded_recordCmd (c : Nat) (m : Cmd) (s : State) : Recorded s (recordCmd c m s) := by
  unfold recordCmd
  dsimp only
  split
  · exact ((recorded_modCtx s c _).trans (recorded_dropCmd ..)).trans (recorded_settle ..)
  · exact ((recorded_modCtx s c _).trans (recorded_writeRecord ..)).trans (recorded_settle ..)

theorem recorded_makeRecord (e : Nat × Nat) (s : State) : Recorded s (makeRecord e s) := by
  unfold makeRecord
  split
  · split
    · exact recorded_recordCmd ..
    · exact .refl s
  · exact .refl s

/-! ## What a failover held -/

theorem raised_cqDue (c : Nat) (now : Bool) (s : State) : Raised s (cqDue c now s) := by
  unfold cqDue
  dsimp only
  split
  · exact Raised.trans (t := s.setCtx c { s.ctx c with irq := { (s.ctx c).irq with unsig := 0 } })
      (raised_of_pcie_eq rfl fun _ _ on => on) (raised_sendMsi ..)
  · exact .refl s

/-- Signal an event ring that has unsignalled records (R370). -/
def evqRelease (f : Nat) (t : State) : State :=
  let x := t.fn f
  if x.irq.en && decide (0 < x.irq.unsig) then sendMsi f 0 (t.setFn f { x with irq := { x.irq with unsig := 0 } }) else t

theorem posted_evqRelease (f : Nat) (s : State) : Posted s (evqRelease f s) := by
  unfold evqRelease
  dsimp only
  split
  · exact (posted_setFn ..).trans (posted_sendMsi ..)
  · exact .refl s

theorem raised_evqRelease (f : Nat) (s : State) : Raised s (evqRelease f s) := by
  unfold evqRelease
  dsimp only
  split
  · exact (raised_modFn f (fun x => { x with irq := { x.irq with unsig := 0 } }) fun _ on => on).trans (raised_sendMsi ..)
  · exact .refl s

/-- The state whose held writes and records have gone into host memory, and none is held (R369). -/
def heldWritten (s : State) : State :=
  forAll s.pcie.recHeld makeRecord (forAll s.pcie.wrHeld (fun w t => hostWrite t w.1 w.2.1 w.2.2)
    { s with pcie := { s.pcie with wrHeld := [], recHeld := [] } })

/-- The state whose held events are still to be written. -/
def heldCleared (s : State) : State := { heldWritten s with pcie := { (heldWritten s).pcie with evHeld := [] } }

theorem writeHeld_eq (s : State) : writeHeld s =
    forAll ((heldWritten s).pcie.evHeld.map HeldEvent.func).eraseDups evqRelease
      (forAll (s.pcie.recHeld.map Prod.fst).eraseDups (fun c t => cqDue c (decide (0 < (t.ctx c).irq.unsig)) t)
        (forAll (heldWritten s).pcie.evHeld (fun e t => postFuel 3 e.func e.code e.slab e.ctx e.dws t) (heldCleared s))) := rfl

theorem recorded_heldWritten (s : State) :
    Recorded { s with pcie := { s.pcie with wrHeld := [], recHeld := [] } } (heldWritten s) :=
  (recorded_forAll _ _ (fun _ _ => (posted_hostWrite ..).recorded) _).trans (recorded_forAll _ _ recorded_makeRecord _)

theorem heldCleared_pcie (s : State) : ∃ held, (heldCleared s).pcie =
    { s.pcie with wrHeld := [], recHeld := [], evHeld := [], msiHeld := held } :=
  ⟨(heldWritten s).pcie.msiHeld, by
    have left := recorded_heldWritten s
    unfold Recorded at left
    unfold heldCleared
    rw [left]⟩

theorem raised_writeHeld (s : State) : Raised (heldCleared s) (writeHeld s) := by
  rw [writeHeld_eq]
  exact ((raised_forAll _ _ (fun _ _ => raised_postFuel ..) _).trans (raised_forAll _ _ (fun _ _ => raised_cqDue ..) _)).trans
    (raised_forAll _ _ raised_evqRelease _)

theorem recorded_writeHeld (s : State) :
    Recorded { s with pcie := { s.pcie with wrHeld := [], recHeld := [] } } (writeHeld s) := by
  have cleared : Recorded (heldWritten s) (heldCleared s) := rfl
  rw [writeHeld_eq]
  exact ((((recorded_heldWritten s).trans cleared).trans
    (recorded_forAll _ _ (fun _ _ => (posted_postFuel ..).recorded) _)).trans
    (recorded_forAll _ _ (fun _ _ => recorded_cqDue ..) _)).trans
    (recorded_forAll _ _ (fun _ _ => (posted_evqRelease ..).recorded) _)

/-- With no packet's write and no record held, writing what was held posts its events and nothing else. -/
theorem posted_writeHeld (noWrite : s.pcie.wrHeld = []) (noRecord : s.pcie.recHeld = []) : Posted s (writeHeld s) := by
  have start : heldWritten s = { s with pcie := { s.pcie with wrHeld := [], recHeld := [] } } := by
    unfold heldWritten
    rw [noWrite, noRecord]
    rfl
  have cleared : Posted s (heldCleared s) := by
    unfold heldCleared Posted
    rw [start]
    dsimp only
    rw [← noWrite, ← noRecord]
  rw [writeHeld_eq, noRecord]
  exact (cleared.trans (posted_forAll _ _ (fun _ _ => posted_postFuel ..) _)).trans
    (posted_forAll _ _ posted_evqRelease _)

/-- A link that holds nothing and no request any more. -/
def Pcie.released (p : Pcie) : Pcie := { p with phase := .idle, wrHeld := [], recHeld := [], evHeld := [], msiHeld := [] }

/-- Outbound requests are no longer held, and nothing is (R370). -/
theorem releaseHeld_pcie (s : State) : (releaseHeld s).pcie = s.pcie.released := by
  obtain ⟨_, cleared⟩ := heldCleared_pcie s
  obtain ⟨_, written⟩ := (raised_writeHeld s).pcie
  have sent := (raised_forAll (writeHeld s).pcie.msiHeld (fun v t => sendMsi v.1 v.2 t) (fun _ _ => raised_sendMsi ..)
    { writeHeld s with pcie := { (writeHeld s).pcie with phase := .idle, msiHeld := [] } }).idle rfl
  refine Eq.trans sent ?_
  dsimp only
  rw [written, cleared]
  rfl

theorem recorded_releaseHeld (s : State) : Recorded { s with pcie := s.pcie.released } (releaseHeld s) := by
  have written := recorded_writeHeld s
  have sent := posted_forAll (writeHeld s).pcie.msiHeld (fun v t => sendMsi v.1 v.2 t) (fun _ _ => posted_sendMsi ..)
    { writeHeld s with pcie := { (writeHeld s).pcie with phase := .idle, msiHeld := [] } }
  refine Recorded.trans ?_ sent.recorded
  unfold Recorded at *
  rw [written]
  rfl

theorem posted_releaseHeld (noWrite : s.pcie.wrHeld = []) (noRecord : s.pcie.recHeld = []) :
    Posted { s with pcie := s.pcie.released } (releaseHeld s) := by
  have written := posted_writeHeld noWrite noRecord
  have sent := posted_forAll (writeHeld s).pcie.msiHeld (fun v t => sendMsi v.1 v.2 t) (fun _ _ => posted_sendMsi ..)
    { writeHeld s with pcie := { (writeHeld s).pcie with phase := .idle, msiHeld := [] } }
  refine Posted.trans ?_ sent
  unfold Posted at *
  rw [written]
  dsimp only [Pcie.released]
  rw [noWrite, noRecord]

/-! ## Configuration writes -/

theorem posted_msixWrite (f v : Nat) (e : Msix) (s : State) : Posted s (msixWrite f v e s) := by
  unfold msixWrite
  dsimp only
  split
  · exact ((posted_modFn s f _).trans (posted_modFn ..)).trans (posted_sendMsi ..)
  · exact posted_modFn ..

theorem msixWrite_msix (f v : Nat) (e : Msix) (s : State) : ((msixWrite f v e s).fn f).msix = aput (s.fn f).msix v e := by
  unfold msixWrite
  dsimp only
  split
  · rw [sendMsi_fn, State.modFn_fn_self, State.modFn_fn_self]
  · rw [State.modFn_fn_self]

/-- A message that is not masked never becomes pending (R367). -/
theorem sendMsi_pba_of_unmasked {f v : Nat} (unmasked : ((s.fn f).vec v).masked = false) :
    ((sendMsi f v s).fn f).pba = (s.fn f).pba := by
  unfold sendMsi
  rw [unmasked]
  split
  · rfl
  · split
    · rfl
    · rw [if_neg (by decide)]; rfl

theorem msixWrite_not_pending {e : Msix} (f v : Nat) (s : State) (unmasked : e.masked = false) :
    v ∉ ((msixWrite f v e s).fn f).pba := by
  unfold msixWrite
  dsimp only
  split
  · rw [sendMsi_pba_of_unmasked, State.modFn_fn_self]
    · simp
    · rw [State.modFn_fn_self, State.modFn_fn_self]
      unfold Fn.vec
      rw [aget_aput, if_pos rfl]
      exact unmasked
  · next kept => exact fun pending => kept ⟨unmasked, List.contains_iff_mem.2 pending⟩

/-! ## Failovers and losses -/

theorem startFailover_of_ready (trigger : Nat) (idle : s.pcie.phase = .idle) (ok : s.pcie.standbyOk = true) :
    startFailover trigger s = { s with pcie := { s.pcie with phase := .held, trigger := trigger } } := if_pos ⟨idle, ok⟩

/-- The loss of the host link shows rate and width 0 and asks for a replacement (R371). -/
theorem loseLink_facts (s : State) : (loseLink s).pcie.linkDown = true ∧ (loseLink s).pcie.speed = 0 ∧
    (loseLink s).pcie.width = 0 ∧ bit (loseLink s).arm.replaceReq.toNat 4 = true := by
  unfold loseLink
  extract_lets _ u v
  have down : v.pcie.linkDown = true ∧ v.pcie.speed = 0 ∧ v.pcie.width = 0 := by
    unfold v
    split
    · exact ⟨rfl, rfl, rfl⟩
    · rw [releaseHeld_pcie]; exact ⟨rfl, rfl, rfl⟩
  obtain ⟨asked, link⟩ := replace_facts 4 v.pcie.activeSlab v (by decide)
  obtain ⟨linkDown, speed, width⟩ := down
  rw [link]
  exact ⟨linkDown, speed, width, asked⟩

theorem raised_forAll_of_idle {α : Type} (l : List α) (f : α → State → State)
    (each : ∀ a t, t.pcie.phase = .idle → Raised t (f a t)) (idle : s.pcie.phase = .idle) : Raised s (forAll l f s) := by
  unfold forAll
  induction l generalizing s with
  | nil => exact .refl s
  | cons a l ih => exact (each a s idle).trans (ih ((each a s idle).phase.trans idle))

theorem raised_regEdge (addr slab : Nat) (old new : Word) (idle : s.pcie.phase = .idle) :
    Raised s (regEdge addr slab old new s) := by
  refine raised_forAll_of_idle _ _ (fun i t idle => ?_) idle
  split
  · exact raised_post _ _ _ _ _ idle
  · exact .refl t

/-- Setting an event of an idle link changes its event register alone (R368, R375). -/
theorem pcieEvent_pcie (m : Word) (idle : s.pcie.phase = .idle) :
    (pcieEvent m s).pcie = { s.pcie with events := s.pcie.events ||| m } :=
  Raised.idle (s := { s with pcie := { s.pcie with events := s.pcie.events ||| m } }) (raised_regEdge _ _ _ _ idle) idle

/-- The link retrained: its rate and width are shown and the failover is counted (R370). -/
def linkShown (speed width : Nat) (s : State) : State :=
  { s with pcie := { s.pcie with speed := speed, width := width, failovers := s.pcie.failovers + 1 } }

/-- The state after the link's return, with what was held released and the event of the failover set. -/
def linkBack (speed width : Nat) (s : State) : State :=
  pcieEvent (if speed < 6 ∨ width < 16 then 5 else 1) (releaseHeld (linkShown speed width s))

/-- The link's return in one equation: then each event ring that is enabled hears of it (R370). -/
theorem exec_failoverLinkUp (speed width : Nat) (live : s.live = true) (switched : s.pcie.phase = .switched) :
    exec (.failoverLinkUp speed width) s = .next (forAll ((List.range 32).filter fun f => ((linkBack speed width s).fn f).en)
      (fun f t => post f 0x0006 0xFF 0xFFFF [(linkBack speed width s).pcie.trigger, 50] t) (linkBack speed width s)) := by
  show execFailoverLinkUp speed width s = _
  unfold execFailoverLinkUp
  rw [if_neg (by rw [live]; decide), if_pos switched]
  rfl

/-- The state that a failover's end leaves, before the posts: the link idle with nothing held. -/
def linkReturned (speed width : Nat) (s : State) : State :=
  { s with pcie := { s.pcie with
      phase := .idle, speed := speed, width := width, failovers := s.pcie.failovers + 1,
      events := s.pcie.events ||| if speed < 6 ∨ width < 16 then 5 else 1,
      msiHeld := [], wrHeld := [], recHeld := [], evHeld := [] } }

theorem linkBack_pcie (speed width : Nat) (s : State) :
    (linkBack speed width s).pcie = (linkReturned speed width s).pcie := by
  have released := releaseHeld_pcie (linkShown speed width s)
  unfold linkBack
  rw [pcieEvent_pcie _ (by rw [released]; rfl), released]
  rfl

theorem recorded_linkBack (speed width : Nat) (s : State) :
    Recorded (linkReturned speed width s) (linkBack speed width s) := by
  have released := recorded_releaseHeld (linkShown speed width s)
  refine Recorded.trans (t := { releaseHeld (linkShown speed width s) with
    pcie := (linkReturned speed width s).pcie }) ?_ ?_
  · unfold Recorded at *
    rw [released]
    rfl
  · have posted := (posted_pcieEvent (if speed < 6 ∨ width < 16 then 5 else 1) (releaseHeld (linkShown speed width s))).recorded
    rw [releaseHeld_pcie] at posted
    exact posted

theorem posted_linkBack (speed width : Nat) (noWrite : s.pcie.wrHeld = []) (noRecord : s.pcie.recHeld = []) :
    Posted (linkReturned speed width s) (linkBack speed width s) := by
  have released := posted_releaseHeld (s := linkShown speed width s) noWrite noRecord
  refine Posted.trans (t := { releaseHeld (linkShown speed width s) with
    pcie := (linkReturned speed width s).pcie }) ?_ ?_
  · unfold Posted at *
    rw [released]
    rfl
  · have posted := posted_pcieEvent (if speed < 6 ∨ width < 16 then 5 else 1) (releaseHeld (linkShown speed width s))
    rw [releaseHeld_pcie] at posted
    exact posted

/-- The loss of a good standby clears STANDBY_OK, sets its event and asks for a replacement (R371). -/
theorem standbyFails_facts (ok : s.pcie.standbyOk = true) : (standbyFails s).pcie.standbyOk = false ∧
    (standbyFails s).pcie.events = s.pcie.events ||| 2 ∧ bit (standbyFails s).arm.replaceReq.toNat 5 = true := by
  unfold standbyFails
  rw [if_pos ok]
  obtain ⟨asked, link⟩ := replace_facts 5 50 (pcieEvent 2 { s with pcie := { s.pcie with standbyOk := false } }) (by decide)
  have set := (posted_pcieEvent 2 { s with pcie := { s.pcie with standbyOk := false } }).pcieEq
  rw [link, set]
  exact ⟨rfl, rfl, asked⟩

/-- Settles O39: the writes and triggers by their branches, the link's return by what releasing what was held leaves. -/
theorem theHostLinkFailsOver : Obligations.TheHostLinkFailsOver := by
  intro s live
  have on : ¬ (!s.live) = true := by rw [live]; decide
  refine ⟨fun serves => ?_, fun idle ok => ?_, fun lost => ?_, fun notHeld lost => ⟨fun down => ?_, fun up => ?_⟩,
    fun held => ?_, fun speed width switched => ?_, fun ok => ?_, fun lost => ?_⟩
  · have ready : ¬ (!s.live || !linkServes s) = true := by rw [live, serves]; decide
    refine ⟨fun f o v => ⟨_, if_neg ready, aget_aput _ _ _, aget_aput _ _ _, rfl⟩, fun n low high => ?_,
      fun f v a d m inTable => ?_⟩
    · exact (if_neg ready).trans (if_pos ⟨rfl, low, high⟩)
    · refine ⟨_, (if_neg ready).trans (if_pos inTable), fun k => ?_, fun unmasked => ?_, posted_msixWrite ..⟩
      · rw [msixWrite_msix, aget_aput]
      · exact msixWrite_not_pending _ _ _ unmasked
  · have started (trigger : Nat) : activeFails trigger s = startFailover trigger s := if_pos ok
    refine ⟨?_, ?_, fun slab retired => ?_⟩
    · exact (if_neg on).trans (congrArg Host.Outcome.next (startFailover_of_ready 2 idle ok))
    · refine ((if_neg on).trans (if_pos (by rw [idle]; decide))).trans ?_
      rw [started, startFailover_of_ready 1 idle ok]
    · refine ((if_neg on).trans (if_pos ⟨slab, retired, idle⟩)).trans ?_
      rw [started, startFailover_of_ready 0 idle ok]
  · exact (if_neg on).trans (congrArg Host.Outcome.next (if_neg (by rw [lost]; exact fun h => nomatch h.2)))
  · refine ((if_neg on).trans (if_pos notHeld)).trans (congrArg Host.Outcome.next ?_)
    unfold activeFails
    rw [if_neg (by rw [lost]; decide), if_pos down]
  · refine ⟨loseLink s, ((if_neg on).trans (if_pos notHeld)).trans (congrArg Host.Outcome.next ?_), loseLink_facts s⟩
    unfold activeFails
    rw [if_neg (by rw [lost]; decide), if_neg (by rw [up]; decide)]
  · exact (if_neg on).trans (if_pos held)
  · have back := linkBack_pcie speed width s
    have told := raised_forAll_of_idle ((List.range 32).filter fun f => ((linkBack speed width s).fn f).en)
      (fun f t => post f 0x0006 0xFF 0xFFFF [(linkBack speed width s).pcie.trigger, 50] t)
      (fun _ _ idle => raised_post _ _ _ _ _ idle) (show (linkBack speed width s).pcie.phase = .idle by rw [back]; rfl)
    have posted := posted_forAll ((List.range 32).filter fun f => ((linkBack speed width s).fn f).en)
      (fun f t => post f 0x0006 0xFF 0xFFFF [(linkBack speed width s).pcie.trigger, 50] t)
      (fun _ _ => posted_post ..) (linkBack speed width s)
    refine ⟨_, exec_failoverLinkUp speed width live switched, ?_, fun noWrite noRecord => ?_⟩
    · have all := (recorded_linkBack speed width s).trans posted.recorded
      have link := (told.idle (by rw [back]; rfl)).trans back
      unfold Recorded at all
      rw [link] at all
      exact all
    · exact (posted_linkBack speed width noWrite noRecord).trans posted
  · exact ⟨_, if_neg on, standbyFails_facts ok⟩
  · exact (if_neg on).trans (congrArg Host.Outcome.next (if_neg (by rw [lost]; decide)))

end Sys2Proof.Machine
end

section
/-! PROOF. The meter's triggers and readings (R479 to R488), and its port and mirror (R491 to R496). -/

namespace Sys2Proof.Machine

open Sys2Proof

-- Proofs one after another: the package compiles as one text under a memory limit.
set_option Elab.async false

variable {s u : State}

/-! ## Triggers -/

@[simp] theorem auditAdd_ctr (kind old new : Nat) (m : Meter) : (auditAdd kind old new m).ctr = m.ctr := by
  unfold auditAdd; split <;> rfl

@[simp] theorem auditAdd_energy (kind old new : Nat) (m : Meter) : (auditAdd kind old new m).energy = m.energy := by
  unfold auditAdd; split <;> rfl

@[simp] theorem auditAdd_waiting (kind old new : Nat) (m : Meter) : (auditAdd kind old new m).waiting = m.waiting := by
  unfold auditAdd; split <;> rfl

/-- With room in the trail, the record stands at its newest end (R487). -/
theorem auditAdd_audit (kind old new : Nat) {m : Meter} (room : m.audit.length < 4096) :
    (auditAdd kind old new m).audit =
      { aseq := m.audit.length + 1, kind := kind, ctr := m.ctr.toNat, eTotal := m.energy.toNat, old := old, new := new,
        rseq := m.rseq } :: m.audit := by
  unfold auditAdd
  rw [if_neg (by omega)]

theorem spacingOver_iff (m : Meter) :
    spacingOver m = true ↔ m.records = [] ∨ (lastEnd m).1 + 2400000 ≤ m.ctr.toNat := by
  simp [spacingOver]

theorem lastEnd_congr {m m' : Meter} (records : m'.records = m.records) : lastEnd m' = lastEnd m := by
  unfold lastEnd; rw [records]

/-- A trigger waits at least itself. -/
theorem or_sh_ne_zero (w b : Nat) : w ||| sh 1 b ≠ 0 := fun none => by
  have at_b := congrArg (·.testBit b) none
  simp [sh, Nat.testBit_shiftLeft] at at_b

theorem serveReading_of_waiting (waits : u.meter.waiting ≠ 0) (due : spacingOver u.meter = true) :
    serveReading u = formReading u := if_pos (by simp [waits, due])

theorem serveReading_of_not (no : u.meter.waiting = 0 ∨ ¬ spacingOver u.meter = true) : serveReading u = u :=
  if_neg (by rcases no with none | early <;> simp [*])

@[simp] theorem serveReading_ctr (u : State) : (serveReading u).meter.ctr = u.meter.ctr := by
  unfold serveReading; split <;> rfl

@[simp] theorem serveReading_energy (u : State) : (serveReading u).meter.energy = u.meter.energy := by
  unfold serveReading; split <;> rfl

@[simp] theorem serveReading_audit (u : State) : (serveReading u).meter.audit = u.meter.audit := by
  unfold serveReading; split <;> rfl

@[simp] theorem serveReading_powered (u : State) : (serveReading u).meter.powered = u.meter.powered := by
  unfold serveReading; split <;> rfl

@[simp] theorem serveReading_cover (u : State) : (serveReading u).meter.coverClosed = u.meter.coverClosed := by
  unfold serveReading; split <;> rfl

@[simp] theorem serveReading_film (u : State) : (serveReading u).meter.filmOk = u.meter.filmOk := by
  unfold serveReading; split <;> rfl

@[simp] theorem serveReading_powerups (u : State) : (serveReading u).meter2.powerups = u.meter2.powerups := by
  unfold serveReading; split <;> rfl

@[simp] theorem serveReading_mtr (u : State) : (serveReading u).mtr = u.mtr := by
  unfold serveReading; split <;> rfl

/-- The reading's kind shows its trigger (R484). -/
theorem bit_kind (w : Nat) {b : Nat} (few : b < 5) : bit ((w ||| sh 1 b) % 32) b = true := by
  show ((w ||| sh 1 b) % 2 ^ 5).testBit b = true
  rw [Nat.testBit_mod_two_pow]
  simp [few, sh, Nat.testBit_shiftLeft]

/-- The reading after a power-up shows the gap (R480, R484). -/
theorem bit_gap {r : Nat} (gap : u.meter2.gapNext = true) : bit (nextReading u r).r.flags 1 = true := by
  show ((u.meter.flags ||| b2n u.meter2.sealOpenSeen ||| 2 * b2n u.meter2.gapNext |||
    16 * b2n (auditFull u.meter)) % 2 ^ 5).testBit 1 = true
  rw [gap, Nat.testBit_mod_two_pow, Nat.testBit_or, Nat.testBit_or, show (2 * b2n true).testBit 1 = true from rfl]
  simp

/-! ## Measured meters -/

/-- The counter and the energy of the meter of `s`, measured up to an event (R479, R480). -/
def ctrAt (s : State) (x : MeterSample) : BitVec 64 := s.meter.ctr + BitVec.ofNat 64 x.cycles
def energyAt (s : State) (x : MeterSample) : BitVec 64 := s.meter.energy + BitVec.ofNat 64 x.energy

/-- Has the spacing passed at an event (R485)? -/
def Spaced (s : State) (x : MeterSample) : Prop :=
  s.meter.records = [] ∨ (lastEnd s.meter).1 + 2400000 ≤ (ctrAt s x).toNat

/-- The meter of `u` is that of `s` measured up to an event: its readings and what waits are as they were. -/
structure Measured (s : State) (x : MeterSample) (u : State) : Prop where
  ctr : u.meter.ctr = ctrAt s x
  energy : u.meter.energy = energyAt s x
  rseq : u.meter.rseq = s.meter.rseq
  records : u.meter.records = s.meter.records
  waiting : u.meter.waiting = s.meter.waiting

/-- A reading formed for trigger b, over the meter of `s` measured up to an event (R483 to R485). -/
def ReadingFormed (s : State) (x : MeterSample) (b : Nat) (t : State) : Prop :=
  t.meter.rseq = s.meter.rseq + 1 ∧ t.meter.waiting = 0 ∧ ∃ r : ReadingRec,
    t.meter.records = (r :: s.meter.records).take 8192 ∧ bit r.r.kind b = true ∧ r.r.rseq = s.meter.rseq + 1 ∧
    r.r.ctrStart = (lastEnd s.meter).1 ∧ r.r.ctrEnd = (ctrAt s x).toNat ∧ r.r.eTotal = (energyAt s x).toNat ∧
    r.r.eInterval = (energyAt s x).toNat - (lastEnd s.meter).2 ∧ (b = 3 → bit r.r.flags 1 = true)

/-- No reading is added and the triggers w wait (R485). -/
def TriggersWait (s : State) (w : Nat) (t : State) : Prop :=
  t.meter.rseq = s.meter.rseq ∧ t.meter.records = s.meter.records ∧ t.meter.waiting = w

theorem measured_meterRun (x : MeterSample) (s : State) : Measured s x (meterRun x s) := ⟨rfl, rfl, rfl, rfl, rfl⟩

section
variable {x : MeterSample} (here : Measured s x u)
include here

theorem Measured.spacingOver_iff : spacingOver u.meter = true ↔ Spaced s x := by
  rw [Machine.spacingOver_iff, lastEnd_congr here.records, here.records, here.ctr]
  rfl

theorem Measured.triggersWait : TriggersWait s s.meter.waiting u := ⟨here.rseq, here.records, here.waiting⟩

/-- Once the spacing has passed, a trigger forms a reading (R485). -/
theorem Measured.trigger_eq (b : Nat) (spaced : Spaced s x) : Machine.trigger b u =
    formReading { u with meter := { u.meter with waiting := u.meter.waiting ||| sh 1 b } } :=
  serveReading_of_waiting (or_sh_ne_zero _ _) (here.spacingOver_iff.2 spaced)

/-- A trigger arrives at a measured meter: a reading once the spacing has passed, else it waits (R485). -/
theorem Measured.trigger {b : Nat} (few : b < 5) (gap : b = 3 → u.meter2.gapNext = true) :
    ((trigger b u).meter.ctr = ctrAt s x ∧ (trigger b u).meter.energy = energyAt s x) ∧
    (Spaced s x → ReadingFormed s x b (trigger b u)) ∧
    (¬ Spaced s x → TriggersWait s (s.meter.waiting ||| sh 1 b) (trigger b u)) := by
  refine ⟨⟨(serveReading_ctr _).trans here.ctr, (serveReading_energy _).trans here.energy⟩, fun spaced => ?_,
    fun early => ?_⟩
  · rw [here.trigger_eq b spaced]
    refine ⟨congrArg (· + 1) here.rseq, rfl, _, by rw [← here.records]; rfl, bit_kind _ few,
      congrArg (· + 1) here.rseq, congrArg Prod.fst (lastEnd_congr here.records), congrArg BitVec.toNat here.ctr,
      congrArg BitVec.toNat here.energy, ?_, fun third => bit_gap (gap third)⟩
    show u.meter.energy.toNat - (lastEnd u.meter).2 = _
    rw [here.energy, lastEnd_congr here.records]
  · rw [show Machine.trigger b u = { u with meter := { u.meter with waiting := u.meter.waiting ||| sh 1 b } } from
      serveReading_of_not (.inr fun due => early (here.spacingOver_iff.1 due))]
    exact ⟨here.rseq, here.records, congrArg (· ||| sh 1 b) here.waiting⟩

/-- What the end of the spacing finds: a reading where a trigger waits, else the meter as measured (R485). -/
theorem Measured.serveReading :
    ((serveReading u).meter.ctr = ctrAt s x ∧ (serveReading u).meter.energy = energyAt s x) ∧
    (s.meter.waiting ≠ 0 → Spaced s x →
      (serveReading u).meter.rseq = s.meter.rseq + 1 ∧ (serveReading u).meter.waiting = 0) ∧
    (s.meter.waiting = 0 ∨ ¬ Spaced s x → TriggersWait s s.meter.waiting (serveReading u)) := by
  refine ⟨⟨(serveReading_ctr _).trans here.ctr, (serveReading_energy _).trans here.energy⟩, fun waits spaced => ?_,
    fun no => ?_⟩
  · rw [serveReading_of_waiting (by rw [here.waiting]; exact waits) (here.spacingOver_iff.2 spaced)]
    exact ⟨congrArg (· + 1) here.rseq, rfl⟩
  · rw [serveReading_of_not (by rw [here.waiting, here.spacingOver_iff]; exact no)]
    exact here.triggersWait

end

/-! ## A change of the seal, and a power-up -/

/-- The meter with the seal's two parts as they are now (R488). -/
def Meter.sealed (m : Meter) (c f : Bool) : Meter := { m with coverClosed := c, filmOk := f }

/-- The state that a change of the seal leaves for its trigger: measured, sealed and audited (R487, R488). -/
def sealChanged (c f : Bool) (x : MeterSample) (s : State) : State :=
  let u := meterRun x s
  { u with
    meter := auditAdd (if (c && f) = true then 3 else 2) 0 0 (u.meter.sealed c f),
    meter2 := { u.meter2 with sealOpenSeen := u.meter2.sealOpenSeen || !(c && f) } }

theorem exec_sealChange (c f : Bool) (x : MeterSample) (powered : s.meter.powered = true) :
    exec (.sealChange c f x) s = if (c && f) = (s.meter.coverClosed && s.meter.filmOk) then
      .next { meterRun x s with meter := (meterRun x s).meter.sealed c f } else .next (trigger 4 (sealChanged c f x s)) :=
  if_pos powered

theorem measured_sealChanged (c f : Bool) (x : MeterSample) (s : State) : Measured s x (sealChanged c f x s) :=
  ⟨auditAdd_ctr .., auditAdd_energy .., auditAdd_rseq .., auditAdd_records .., auditAdd_waiting ..⟩

/-- The state that a power-up leaves for its trigger: audited, counted and measured (R480, R487). -/
def poweredUp (x : MeterSample) (s : State) : State :=
  meterRun x { s with
    meter := { auditAdd 4 0 0 s.meter with powered := true },
    meter2 := { s.meter2 with powerups := s.meter2.powerups + 1, gapNext := true } }

theorem measured_poweredUp (x : MeterSample) (s : State) : Measured s x (poweredUp x s) where
  ctr := congrArg (· + _) (auditAdd_ctr ..)
  energy := congrArg (· + _) (auditAdd_energy ..)
  rseq := auditAdd_rseq ..
  records := auditAdd_records ..
  waiting := auditAdd_waiting ..

/-- Settles O55: each event brings a measured meter, and what a trigger makes of one is said once. -/
theorem theMeterFormsReadingsWhenTriggered : Obligations.TheMeterFormsReadingsWhenTriggered := by
  intro s x m ctr energy spaced Measured_ Reading Waits Triggered audited
  have run := measured_meterRun x s
  refine ⟨fun powered => ⟨fun tick => ?_, ?_, fun edge => ?_, ?_, ?_, fun c f => ?_⟩,
    fun off => ⟨fun i event => ?_, fun c f => ?_, fun absent => ?_, fun fitted => ?_⟩⟩
  · exact ⟨_, if_pos (by rw [Bool.and_eq_true, beq_iff_eq]; exact ⟨powered, tick⟩),
      run.trigger (by decide) (fun h => nomatch h), serveReading_audit _⟩
  · exact ⟨_, if_pos powered, run.trigger (by decide) (fun h => nomatch h), serveReading_audit _⟩
  · have here : Measured s x (meterRun x { s with mtr := { s.mtr with edge := false } }) := ⟨rfl, rfl, rfl, rfl, rfl⟩
    refine ⟨_, if_pos (by rw [show s.meter.powered = true from powered, edge]; rfl),
      here.trigger (by decide) (fun h => nomatch h), serveReading_mtr _, fun due => ?_⟩
    rw [here.trigger_eq 2 due]
    refine ⟨_, if_pos (bit_kind _ (by decide)), congrArg (· + 1) here.rseq⟩
  · exact ⟨_, if_pos powered, run.serveReading⟩
  · exact ⟨_, if_pos powered, ⟨rfl, rfl⟩, ⟨rfl, rfl, rfl⟩, rfl⟩
  · rw [exec_sealChange c f x powered]
    split
    · next same => exact ⟨_, rfl, ⟨rfl, rfl⟩, rfl, rfl, fun _ => ⟨⟨rfl, rfl, rfl⟩, rfl⟩, fun changed => absurd same changed⟩
    · next changed =>
      have here := (measured_sealChanged c f x s).trigger (b := 4) (by decide) (fun h => nomatch h)
      refine ⟨_, rfl, here.1, ?_, ?_, fun same => absurd same changed, fun _ => ⟨here, fun room => ?_⟩⟩
      · refine (serveReading_cover _).trans ?_
        show (auditAdd _ 0 0 _).coverClosed = c
        unfold auditAdd; split <;> rfl
      · refine (serveReading_film _).trans ?_
        show (auditAdd _ 0 0 _).filmOk = f
        unfold auditAdd; split <;> rfl
      · exact ⟨_, (serveReading_audit _).trans (auditAdd_audit _ 0 0 room), rfl, rfl, rfl⟩
  · have dark : ¬ s.meter.powered = true := Bool.eq_false_iff.1 off
    have still (b : Bool) : ¬ (s.meter.powered && b) = true := fun on => dark (Bool.and_eq_true_iff.1 on).1
    rcases event with rfl | rfl | rfl | rfl | rfl
    · exact if_neg (still _)
    · exact if_neg dark
    · exact if_neg (still _)
    · exact if_neg dark
    · exact if_neg dark
  · exact if_neg (by rw [show s.meter.powered = false from off]; decide)
  · exact if_pos (by rw [absent]; exact Bool.or_true _)
  · have ready : ¬ (s.meter.powered || !s.meter2.fitted) = true := by
      rw [show s.meter.powered = false from off, fitted]; decide
    exact ⟨trigger 3 (poweredUp x s), if_neg ready, (measured_poweredUp x s).trigger (by decide) (fun _ => rfl),
      serveReading_powered _, serveReading_powerups _,
      fun room => ⟨_, (serveReading_audit _).trans (auditAdd_audit 4 0 0 room), rfl, rfl, rfl⟩⟩

end Sys2Proof.Machine
end

section
/-! PROOF. The meter's port and its mirror (R491 to R496). -/

namespace Sys2Proof.Machine

open Sys2Proof

-- Proofs one after another: the package compiles as one text under a memory limit.
set_option Elab.async false

variable {s u : State}

/-! ## Port writes -/

/-- What a write of M_PERIOD makes of the meter of `s` (R496). -/
def PeriodWritten (s : State) (v : Nat) (t : State) : Prop :=
  if 60 ≤ v ∧ v ≤ 86400 ∧ s.meter.audit.length < 4032 then
    t.meter.period = w32 v ∧ t.meter.refused = false ∧
      ∃ a, t.meter.audit = a :: s.meter.audit ∧ a.kind = 1 ∧ a.old = s.meter.period.toNat ∧ a.new = v ∧
        a.ctr = s.meter.ctr.toNat ∧ a.eTotal = s.meter.energy.toNat
  else t.meter.period = s.meter.period ∧ t.meter.refused = true ∧ t.meter.audit = s.meter.audit

theorem periodWritten_periodWrite (v : Nat) (s : State) : PeriodWritten s v (periodWrite v s) := by
  have refuses : (v < 60 ∨ 86400 < v ∨ auditFull s.meter = true) ↔ ¬ (60 ≤ v ∧ v ≤ 86400 ∧ s.meter.audit.length < 4032) := by
    simp only [auditFull, decide_eq_true_eq]
    omega
  unfold PeriodWritten periodWrite
  split
  · next takes =>
    rw [if_neg fun h => refuses.1 h takes]
    exact ⟨rfl, rfl, _, auditAdd_audit 1 _ v (by omega), rfl, rfl, rfl, rfl, rfl⟩
  · next bad =>
    rw [if_pos (refuses.2 bad)]
    exact ⟨rfl, rfl, rfl⟩

/-- A write of M_PERIOD leaves the port's address. -/
theorem periodWrite_addr (v : Nat) (s : State) : (periodWrite v s).meter.addr = s.meter.addr := by
  unfold periodWrite
  split
  · rfl
  · show (auditAdd 1 s.meter.period.toNat v s.meter).addr = s.meter.addr
    unfold auditAdd
    split <;> rfl

theorem periodWrite_eq (v : Nat) (s : State) : periodWrite v s = { s with meter := (periodWrite v s).meter } := by
  unfold periodWrite
  split <;> rfl

/-- A register that the port does not let write is refused (R496). -/
theorem meterRegWrite_refused {a : Nat} (v : Nat) (s : State) (other : a ∉ [0x0C, 0x10, 0x1C, 0x20, 0x24]) :
    meterRegWrite a v s = setRefused true s := by
  unfold meterRegWrite
  split
  rotate_right
  · rfl
  all_goals exact absurd (by decide) other

theorem meterRegWrite_addr (a v : Nat) (s : State) : (meterRegWrite a v s).meter.addr = s.meter.addr := by
  unfold meterRegWrite
  split
  · exact periodWrite_addr v s
  all_goals rfl

theorem meterRegWrite_eq (a v : Nat) (s : State) : meterRegWrite a v s = { s with meter := (meterRegWrite a v s).meter } := by
  unfold meterRegWrite
  split
  · exact periodWrite_eq v s
  all_goals rfl

/-- Four bytes are one register's, where they are aligned, and are refused else (log 45). -/
theorem meterWrites_four (a : Nat) (b0 b1 b2 b3 : Byte) (s : State) : meterWrites 4 a [b0, b1, b2, b3] s =
    if a % 4 = 0 then meterRegWrite a (num [b0, b1, b2, b3] 0 4) s else setRefused true s := by
  by_cases aligned : a % 4 = 0
  · rw [if_pos aligned]
    exact if_pos ⟨aligned, le_rfl⟩
  · rw [if_neg aligned]
    exact if_neg fun h => aligned h.1

/-- Four bytes of a register that the port does not let write, or across two, are refused. -/
theorem meterWrites_refused {a : Nat} (b0 b1 b2 b3 : Byte) (s : State) (other : a ∉ [0x0C, 0x10, 0x1C, 0x20, 0x24]) :
    meterWrites 4 a [b0, b1, b2, b3] s = setRefused true s := by
  rw [meterWrites_four]
  split
  · exact meterRegWrite_refused _ s other
  · rfl

theorem meterWrites_four_frame (a : Nat) (b0 b1 b2 b3 : Byte) (s : State) :
    meterWrites 4 a [b0, b1, b2, b3] s = { s with meter := (meterWrites 4 a [b0, b1, b2, b3] s).meter } ∧
    (meterWrites 4 a [b0, b1, b2, b3] s).meter.addr = s.meter.addr := by
  rw [meterWrites_four]
  split
  · exact ⟨meterRegWrite_eq .., meterRegWrite_addr ..⟩
  · exact ⟨rfl, rfl⟩

/-- A port write of four bytes, register by register (R495, R496). -/
theorem exec_meterPortWrite_four (powered : s.meter.powered = true) (a : BitVec 16) (b0 b1 b2 b3 : Byte) :
    let v := num [b0, b1, b2, b3] 0 4
    ∃ t, exec (.meterPortWrite a [b0, b1, b2, b3]) s = .next t ∧ t = { s with meter := t.meter } ∧
      t.meter.addr = a ∧ t.meter.records = s.meter.records ∧
      (a = 0x0C → PeriodWritten s v t) ∧
      (a = 0x10 → t.meter.waiting = (if bit v 0 then s.meter.waiting ||| 2 else s.meter.waiting) ∧
        t.meter.refused = false) ∧
      (a = 0x1C → t.meter.sel = (s.meter.sel >>> 32 <<< 32) + BitVec.ofNat 64 v ∧ t.meter.refused = false) ∧
      (a = 0x20 → t.meter.sel = BitVec.ofNat 64 (sh v 32 + s.meter.sel.toNat % 2 ^ 32) ∧ t.meter.refused = false) ∧
      (a = 0x24 → t.meter.asel = w32 v ∧ t.meter.refused = false) ∧
      (a ≠ 0x0C → a ≠ 0x10 → a ≠ 0x1C → a ≠ 0x20 → a ≠ 0x24 →
        t.meter = { s.meter with addr := a, refused := true }) := by
  intro v
  obtain ⟨frame, addr⟩ := meterWrites_four_frame a.toNat b0 b1 b2 b3 { s with meter := { s.meter with addr := a } }
  refine ⟨_, if_pos powered, ?_, addr, meterWrites_records .., ?_, ?_, ?_, ?_, ?_, fun n1 n2 n3 n4 n5 => ?_⟩
  · exact frame
  · rintro rfl
    exact periodWritten_periodWrite v { s with meter := { s.meter with addr := 0x0C } }
  · rintro rfl; exact ⟨rfl, rfl⟩
  · rintro rfl; exact ⟨rfl, rfl⟩
  · rintro rfl; exact ⟨rfl, rfl⟩
  · rintro rfl; exact ⟨rfl, rfl⟩
  · refine congrArg State.meter (meterWrites_refused b0 b1 b2 b3 _ fun listed => ?_)
    have value {n : Nat} (e : a.toNat = n) : a = BitVec.ofNat 16 n := by rw [← e, BitVec.ofNat_toNat, BitVec.setWidth_eq]
    simp only [List.mem_cons, List.not_mem_nil, or_false] at listed
    rcases listed with e | e | e | e | e
    · exact n1 (value e)
    · exact n2 (value e)
    · exact n3 (value e)
    · exact n4 (value e)
    · exact n5 (value e)

/-! ## The mirror -/

/-- The energy of the positions in no partition (R493). -/
theorem shares_snd (s : State) (e : Nat) : (shares s e).2 = e * s.mtr.appBase * looseCount s / 9600 := by
  unfold shares
  extract_lets ps b tot mem share u l rest
  clear_value rest l
  cases l <;> rfl

theorem posted_snapFail (s : State) :
    Posted { s with mtr := { s.mtr with pend := false, events := s.mtr.events ||| 2 } } (snapFail s) :=
  posted_mtrEvent 2 _

/-- The share of each partition, and of the positions in none, that a record brings after the snapshot held (R493). -/
def snapShares (x : ReadingRec) (s : State) : List (Nat × Nat) × Nat :=
  match s.mtr.snap with
  | some y => if y.r.serial != x.r.serial then ([], 0) else shares s (x.r.eTotal - y.r.eTotal)
  | none => ([], 0)

/-- Does a record come from another meter than the snapshot held (R491)? -/
def snapChanged (x : ReadingRec) (s : State) : Bool :=
  match s.mtr.snap with
  | some y => y.r.serial != x.r.serial
  | none => false

/-- The mirror's registers after a record, but for its events (R491, R493). -/
theorem installSnap_mtr (x : ReadingRec) (s : State) : ∃ ev, (installSnap x s).mtr = { s.mtr with
    present := true, sealOk := sealIntact s.meter, pend := false, changed := snapChanged x s,
    snapSeq := s.mtr.snapSeq + 1, snap := some x, certSeen := true,
    app := (snapShares x s).1.map fun a => (a.1, BitVec.ofNat 64 a.2), appU := BitVec.ofNat 64 (snapShares x s).2,
    actBase := s.mtr.actReq, events := ev } := by
  have posted (m : Word) (u : State) := (posted_mtrEvent m u).mtr
  unfold installSnap snapShares snapChanged
  cases s.mtr.snap with
  | none => exact ⟨_, posted _ _⟩
  | some y => exact ⟨_, posted _ _⟩

theorem installSnap_meter (x : ReadingRec) (s : State) :
    (installSnap x s).meter = s.meter ∧ (installSnap x s).meter2 = s.meter2 :=
  ⟨(posted_mtrEvent ..).meter, (posted_mtrEvent ..).meter2⟩

theorem snapShares_of_same {x y : ReadingRec} (snap : s.mtr.snap = some y) (same : y.r.serial = x.r.serial) :
    snapShares x s = shares s (x.r.eTotal - y.r.eTotal) := by
  unfold snapShares
  rw [snap]
  exact if_neg (by rw [same]; simp)

/-- Settles O56: the port's writes by their register, the mirror's rows by what a record or a failure leaves. -/
theorem thePortAndTheMirrorServeReadings : Obligations.ThePortAndTheMirrorServeReadings := by
  intro s m Period fails
  refine ⟨fun powered => ⟨fun v => ?_, fun a => if_pos powered, fun a b0 b1 b2 b3 => ?_, fun n => if_pos powered⟩,
    fun off => ?_, fun src operator => ⟨fun pend => ?_, fun idle fitted => ?_, fun idle absent => ?_⟩, fun none => ?_,
    fun x r out => ?_, fun pend => ?_, fun idle => ?_⟩
  · exact ⟨_, if_pos powered, periodWritten_periodWrite v.toNat s, periodWrite_eq ..⟩
  · exact exec_meterPortWrite_four powered a b0 b1 b2 b3
  · have dark : ¬ s.meter.powered = true := Bool.eq_false_iff.1 off
    exact ⟨fun v => if_neg dark, fun a d => if_neg dark, fun n => if_neg dark⟩
  · exact (if_pos operator).trans (congrArg Host.Outcome.next (if_pos pend))
  · refine (if_pos operator).trans (congrArg Host.Outcome.next ?_)
    unfold snapReq
    rw [if_neg (by rw [idle]; decide), if_neg (by rw [fitted]; decide)]
  · refine ⟨_, (if_pos operator).trans (congrArg Host.Outcome.next ?_),
      posted_snapFail { s with mtr := { s.mtr with present := false } }⟩
    unfold snapReq
    rw [if_neg (by rw [idle]; decide), if_pos absent]
  · show execMirrorRecord s = _
    unfold execMirrorRecord
    rw [none]
  · have run : exec .mirrorRecord s = .next (installSnap x { s with meter2 := { s.meter2 with mirrorOut := r } }) := by
      show execMirrorRecord s = _
      unfold execMirrorRecord
      rw [out]
    obtain ⟨meter, meter2⟩ := installSnap_meter x { s with meter2 := { s.meter2 with mirrorOut := r } }
    obtain ⟨ev, mtr⟩ := installSnap_mtr x { s with meter2 := { s.meter2 with mirrorOut := r } }
    refine ⟨_, run, meter2, meter, ?_⟩
    rw [mtr]
    refine ⟨rfl, rfl, rfl, rfl, fun first => ?_, fun y snap => ⟨?_, fun same => ?_⟩⟩
    · unfold snapChanged snapShares
      dsimp only
      rw [first]
      exact ⟨rfl, rfl, rfl⟩
    · unfold snapChanged
      dsimp only
      rw [snap]
      exact bne_iff_ne
    · have shared := snapShares_of_same (s := { s with meter2 := { s.meter2 with mirrorOut := r } }) snap same
      dsimp only at shared ⊢
      rw [shared, shares_snd]
      exact ⟨rfl, rfl⟩
  · exact ⟨_, if_pos pend, posted_snapFail s⟩
  · exact if_neg (by rw [idle]; decide)

end Sys2Proof.Machine
end

section
/-! PROOF. Device resets, standby and starts (R522, R525 to R530, R533, R537): what a reset takes and what it leaves. -/

namespace Sys2Proof.Machine

open Sys2Proof

-- Proofs one after another: the package compiles as one text under a memory limit.
set_option Elab.async false

variable {s t u : State}

/-! ## What a reset takes -/

/-- What a device reset takes from `s`, and what it leaves (R530, R543). -/
structure LostFrom (s t : State) : Prop where
  ctx : ∀ c, t.ctx c = Ctx.init c
  undefd : ∀ p, (t.part p).defd = false
  bankMem : t.bankMem = []
  hbmMem : t.hbm.mem = []
  keyGen : t.hbm.keyGen = s.hbm.keyGen
  session : t.hbm.session = s.hbm.session + 1
  meter : t.meter = s.meter
  meter2 : t.meter2 = s.meter2
  env : t.env = { s.env with waits := [] }
  pending : t.pending = s.pending
  fwA : t.sec.fwA = s.sec.fwA
  fwB : t.sec.fwB = s.sec.fwB
  slotA : t.arm.slotA = s.arm.slotA
  slotB : t.arm.slotB = s.arm.slotB
  log : t.arm.log = s.arm.log
  vfs : t.pcie.vfs = 0

/-- The losses as O59 lists them. -/
def Losses (s t : State) : Prop :=
  (∀ c, t.ctx c = Ctx.init c) ∧ (∀ p, (t.part p).defd = false) ∧ t.bankMem = [] ∧ t.hbm.mem = [] ∧
  t.hbm.keyGen = s.hbm.keyGen ∧ t.hbm.session = s.hbm.session + 1 ∧ t.meter = s.meter ∧ t.meter2 = s.meter2 ∧
  t.env = { s.env with waits := [] } ∧ t.pending = s.pending ∧
  t.sec.fwA = s.sec.fwA ∧ t.sec.fwB = s.sec.fwB ∧ t.arm.slotA = s.arm.slotA ∧ t.arm.slotB = s.arm.slotB ∧
  t.arm.log = s.arm.log ∧ t.pcie.vfs = 0

theorem LostFrom.losses (h : LostFrom s t) : Losses s t :=
  ⟨h.ctx, h.undefd, h.bankMem, h.hbmMem, h.keyGen, h.session, h.meter, h.meter2, h.env, h.pending, h.fwA, h.fwB, h.slotA,
    h.slotB, h.log, h.vfs⟩

/-- `t` is `s` but for its slabs, banks and partitions. -/
def Restarted (s t : State) : Prop :=
  t = { s with slabs := t.slabs, slabs2 := t.slabs2, banks := t.banks, parts := t.parts }

theorem Restarted.trans (h : Restarted s t) (k : Restarted t u) : Restarted s u := by
  unfold Restarted at *
  rw [k.trans (by rw [h])]

theorem restarted_forAll {α : Type} (l : List α) (f : α → State → State) (each : ∀ a s, Restarted s (f a s)) (s : State) :
    Restarted s (forAll l f s) := by
  unfold forAll
  induction l generalizing s with
  | nil => rfl
  | cons a l ih => exact (each a s).trans (ih _)

theorem forAll_setPart_part (l : List Nat) (v : Part) (s : State) (q : Nat) :
    (forAll l (fun p t => t.setPart p v) s).part q = if q ∈ l then v else s.part q := by
  unfold forAll
  induction l generalizing s with
  | nil => rfl
  | cons p l ih =>
    rw [List.foldl_cons, ih, State.setPart_part]
    by_cases here : q = p <;> simp [here]

/-- The shipped map has no partition from 24 on. -/
theorem Part.init_defd {q : Nat} (past : 24 ≤ q) : (Part.init q).defd = false := by
  have none : Config.partRect q = none := by
    unfold Config.partRect
    split
    rotate_right
    · rfl
    all_goals omega
  unfold Part.init
  rw [none]

theorem noPart_defd : noPart.defd = false := by decide

/-- What a wipe leaves before the slabs, banks and partitions are put back. -/
def wiped (s : State) : State :=
  { State.reset with
    pending := s.pending, env := { s.env with waits := [] }, meter := s.meter, meter2 := s.meter2,
    pkg := { Pkg.init with
      retiredSlab := s.pkg.retiredSlab, unroutable := s.pkg.unroutable, lostStacks := s.pkg.lostStacks },
    pcie := { Pcie.init with
      activeSlab := s.pcie.activeSlab, standbyOk := s.pcie.standbyOk, linkDown := s.pcie.linkDown, speed := 0,
      width := 0 },
    sec := { Sec.init with
      primaryOk := s.sec.primaryOk, secondaryOk := s.sec.secondaryOk, anchor := s.sec.anchor, fwRun := s.sec.fwRun,
      fwA := s.sec.fwA, fwB := s.sec.fwB, fwFloor := s.sec.fwFloor, armFloor := s.sec.armFloor, certs := s.sec.certs },
    arm := { Arm.init with
      slotA := s.arm.slotA, slotB := s.arm.slotB, curB := s.arm.curB, prevValid := s.arm.prevValid,
      reverted := s.arm.reverted, replaceReq := s.arm.replaceReq, log := s.arm.log, logCount := s.arm.logCount },
    arm2 := { Arm2.init with portFails := s.arm2.portFails },
    pkc := { Pkc.init with
      recovery := false, ready := false, step := 0, rstCount := s.pkc.rstCount, rstCause := s.pkc.rstCause,
      slabOff := s.pkc.slabOff, alertMask := s.pkc.alertMask, wakeMask := s.pkc.wakeMask,
      identityLess := s.pkc.identityLess },
    pkc2 := { s.pkc2 with sampled := false, repowered := [] },
    hbm := { Hbm.init with session := s.hbm.session + 1, keyGen := s.hbm.keyGen } }

/-- The wiped device with its slabs and banks put back (R530). -/
def rebuilt (s : State) : State :=
  forAll s.banks (fun b t => t.setBank b.1 b.2.restart) (forAll (List.range 100) (fun n t =>
    (t.setSlab n ((s.slab n).restart n)).setSlab2 n (Slab2.restart n ((s.slab n).st != .retired))) (wiped s))

theorem wipe_eq (s : State) : wipe s = forAll (List.range 24) (fun p t => t.setPart p noPart) (rebuilt s) := rfl

theorem restarted_rebuilt (s : State) : Restarted (wiped s) (rebuilt s) := by
  refine Restarted.trans (restarted_forAll _ _ (fun n t => ?_) _) (restarted_forAll _ _ (fun b t => ?_) _)
  · exact rfl
  · exact rfl

theorem restarted_wipe (s : State) : Restarted (wiped s) (wipe s) := by
  rw [wipe_eq]
  refine (restarted_rebuilt s).trans (restarted_forAll _ _ (fun p t => ?_) _)
  exact rfl

theorem rebuilt_parts (s : State) : (rebuilt s).parts = [] := by
  refine (forAll_other State.parts _ _ (fun b _ t => ?_) _).trans ((forAll_other State.parts _ _ (fun n _ t => ?_) _).trans rfl)
  · exact rfl
  · exact rfl

theorem wipe_undefd (s : State) (p : Nat) : ((wipe s).part p).defd = false := by
  rw [wipe_eq, forAll_setPart_part]
  split
  · exact noPart_defd
  · next past =>
    unfold State.part
    rw [rebuilt_parts]
    exact Part.init_defd (by simpa using past)

/-- A wiped device has lost everything but what lasts (R530). -/
theorem lostFrom_wipe (s : State) : LostFrom s { wipe s with pcie := { (wipe s).pcie with vfs := 0 } } := by
  have undefd := wipe_undefd s
  have left := restarted_wipe s
  unfold Restarted at left
  generalize wipe s = t at left undefd
  exact {
    ctx := fun c => by rw [left]; rfl
    undefd := undefd
    bankMem := by rw [left]; rfl
    hbmMem := by rw [left]; rfl
    keyGen := by rw [left]; rfl
    session := by rw [left]; rfl
    meter := by rw [left]; rfl
    meter2 := by rw [left]; rfl
    env := by rw [left]; rfl
    pending := by rw [left]; rfl
    fwA := by rw [left]; rfl
    fwB := by rw [left]; rfl
    slotA := by rw [left]; rfl
    slotB := by rw [left]; rfl
    log := by rw [left]; rfl
    vfs := rfl }

theorem wipe_pkc (s : State) : (wipe s).pkc = (wiped s).pkc := by
  have left := restarted_wipe s
  unfold Restarted at left
  rw [left]

theorem wipe_pkc2 (s : State) : (wipe s).pkc2 = { s.pkc2 with sampled := false, repowered := [] } := by
  have left := restarted_wipe s
  unfold Restarted at left
  rw [left]
  rfl

/-! ## Warm resets -/

/-- The device as SYS_RESET# holds it: everything lost, in reset at step 4, the cause and one more reset counted. -/
def HeldFrom (s : State) (cause : Nat) (t : State) : Prop :=
  Losses s t ∧ t.pkc.power = .inReset ∧ t.pkc.step = 4 ∧ t.pkc.ready = false ∧ t.pkc.recovery = false ∧
  t.pkc.rstCause = cause ∧ t.pkc.rstCount = s.pkc.rstCount + 1 ∧ t.pkc.alertMask = s.pkc.alertMask

/-- What a warm reset makes of the package controller. -/
def Pkc.warm (k : Pkc) (cause : Nat) (old : Pkc) : Pkc :=
  { k with
    rstCause := cause, rstCount := old.rstCount + 1, step := 4, power := .inReset,
    rstResult := if old.rstBusy then 2 else 0, rstPart := if old.rstBusy then old.rstPart else 0 }

theorem warmWipe_eq (cause : Nat) (s : State) : warmWipe cause s =
    { wipe s with pkc := (wipe s).pkc.warm cause s.pkc, pcie := { (wipe s).pcie with vfs := 0 } } := by
  unfold warmWipe
  dsimp only
  generalize wipe s = t
  rfl

theorem lostFrom_warmWipe (cause : Nat) (s : State) : LostFrom s (warmWipe cause s) := by
  have lost := lostFrom_wipe s
  rw [warmWipe_eq]
  generalize wipe s = t at lost
  exact { lost with }

theorem heldFrom_warmWipe (cause : Nat) (s : State) : HeldFrom s cause (warmWipe cause s) := by
  have pkc : (warmWipe cause s).pkc = (wiped s).pkc.warm cause s.pkc := by rw [warmWipe_eq, wipe_pkc]
  refine ⟨(lostFrom_warmWipe cause s).losses, ?_⟩
  rw [pkc]
  exact ⟨rfl, rfl, rfl, rfl, rfl, rfl, rfl⟩

theorem warmWipe_pkc2 (cause : Nat) (s : State) :
    (warmWipe cause s).pkc2 = { s.pkc2 with sampled := false, repowered := [] } := by
  have pins := wipe_pkc2 s
  rw [warmWipe_eq]
  generalize wipe s = t at pins ⊢
  exact pins

/-! ## Standby -/

/-- What standby makes of the wiped device `w`, before the counters of its slabs stop at 0 (R537). -/
def stoodBy (why : PwrState) (s w : State) : State :=
  { w with
    pkc := { w.pkc with power := why, identityLess := false, rstCount := s.pkc.rstCount, events := s.pkc.events },
    pcie := { w.pcie with vfs := 0 } }

/-- Every slab's counter is 0. -/
def cyclesStopped (s : State) : State :=
  forAll (List.range 100) (fun n t => t.modSlab n fun x => { x with cycle := 0 }) s

theorem enterStandby_eq (why : PwrState) (s : State) : enterStandby why s = cyclesStopped (stoodBy why s (wipe s)) := by
  unfold enterStandby
  dsimp only
  generalize wipe s = w
  rfl

/-- Slabs alone change. -/
theorem cyclesStopped_eq (s : State) : cyclesStopped s = { s with slabs := (cyclesStopped s).slabs } :=
  forAll_keeps (fun t => t = { s with slabs := t.slabs }) _ _ (fun n _ t kept => by rw [kept]; rfl) s rfl

theorem lostFrom_enterStandby (why : PwrState) (s : State) : LostFrom s (enterStandby why s) := by
  have lost := lostFrom_wipe s
  rw [enterStandby_eq, cyclesStopped_eq]
  generalize wipe s = w at lost
  exact { lost with }

theorem enterStandby_power (why : PwrState) (s : State) : (enterStandby why s).pkc.power = why := by
  rw [enterStandby_eq, cyclesStopped_eq]
  rfl

theorem enterStandby_pkc2 (why : PwrState) (s : State) :
    (enterStandby why s).pkc2 = { s.pkc2 with sampled := false, repowered := [] } := by
  have pins := wipe_pkc2 s
  rw [enterStandby_eq, cyclesStopped_eq]
  generalize wipe s = w at pins
  exact pins

/-- A start that SYS_RESET# holds leaves the device in reset before step 4, without a context (R529). -/
theorem heldStart_facts (cause : Nat) (s : State) : (heldStart cause s).pkc.power = .inReset ∧
    (heldStart cause s).pkc.step = 4 ∧ ∀ c, (heldStart cause s).ctx c = Ctx.init c := by
  have lost := (lostFrom_wipe (coldStart cause s)).ctx
  unfold heldStart
  dsimp only
  generalize wipe (coldStart cause s) = w at lost ⊢
  exact ⟨rfl, rfl, lost⟩

/-! ## The link -/

/-- The link's training changes the link's registers alone, but for the event of a degraded link (R370, R374). -/
theorem linkUp_pkc (speed width : Nat) (s : State) : (linkUp speed width s).pkc = s.pkc := by
  unfold linkUp
  dsimp only
  split
  · rfl
  · split
    · exact (posted_pcieEvent ..).pkc
    · rfl

theorem linkUp_shows (speed width : Nat) (up : s.pcie.linkDown = false) :
    (linkUp speed width s).pcie.speed = speed ∧ (linkUp speed width s).pcie.width = width := by
  unfold linkUp
  dsimp only
  rw [if_neg (by rw [up]; decide)]
  split
  · rw [(posted_pcieEvent ..).pcieEq]
    exact ⟨rfl, rfl⟩
  · exact ⟨rfl, rfl⟩

/-- Step 9 with PERST# high (R527). -/
theorem finishStart_of_high (high : s.pkc2.perstN = true) :
    finishStart s = { s with pkc := { s.pkc with ready := true, step := 9, power := .running } } := if_pos high

/-! ## The rows -/

/-- What follows of a state held in reset once the reset ends (R528, R529). -/
def Started (u t : State) : Prop :=
  let b := if u.pkc.identityLess then recover 3 u else bringUp u
  t = if b.pkc.power = .running then linkRetrains b else b

theorem started_warmReset (cause : Nat) (s : State) : Started (warmWipe cause s) (warmReset cause s) := rfl

/-- A warm reset holds the device as its cause says, and starts it again; PERST# is as it was. -/
theorem warmReset_restarts (cause : Nat) (s : State) :
    Started (warmWipe cause s) (warmReset cause s) ∧ HeldFrom s cause (warmWipe cause s) ∧
    (warmWipe cause s).pkc2.perstN = s.pkc2.perstN :=
  ⟨started_warmReset cause s, heldFrom_warmWipe cause s, by rw [warmWipe_pkc2]⟩

theorem converters_of_on (on : s.pkc.power = .running ∨ s.pkc.power = .inReset) : converters s = true := by
  unfold converters
  rcases on with power | power <;> rw [power] <;> rfl

theorem powered_of_on (on : s.pkc.power = .running ∨ s.pkc.power = .inReset) : s.pkc.power ≠ .unpowered := by
  rcases on with power | power <;> rw [power] <;> decide

/-- A standby with other pins of the package controller has lost the same. -/
theorem LostFrom.withPins (h : LostFrom s t) (k : Pkc) (k2 : Pkc2) : LostFrom s { t with pkc := k, pkc2 := k2 } :=
  { h with }

/-- Settles O59: each row is a warm reset, a standby or a start, and what each of them leaves is said once. -/
theorem deviceResetsLoseEverythingButWhatLasts : Obligations.DeviceResetsLoseEverythingButWhatLasts := by
  intro s Lost Held Restarts on
  refine ⟨fun i cause row => ?_, fun runs ready high => ?_, fun high lit => ?_, fun low reset => ?_, fun lit => ?_,
    fun lit ok => ?_, fun lit => ?_, fun src operator => ?_, fun powered => ?_, fun off => ⟨?_, fun i row => ?_⟩,
    fun powered low => ?_, fun released reset low well speed width => ?_, fun none => ?_⟩
  · refine ⟨warmReset cause s, warmWipe cause s, ?_, warmReset_restarts cause s⟩
    rcases row with ⟨src, rfl, operator, rfl⟩ | ⟨host, ⟨rfl, rfl⟩ | ⟨rfl, rfl⟩ | ⟨rfl, rfl⟩ | ⟨rfl, rfl⟩⟩
    · exact if_pos operator
    · exact if_pos host
    · exact if_pos host
    · exact if_pos host
    · exact if_pos host
  · have awake : ¬ (s.pkc.power = .unpowered ∨ s.pkc2.perstN = false) := by rw [runs, high]; decide
    obtain ⟨started, held, pin⟩ := warmReset_restarts 3 { s with pkc2 := { s.pkc2 with perstN := false } }
    exact ⟨_, _, (if_neg awake).trans (if_pos ⟨runs, ready⟩), started, held, pin⟩
  · have awake : ¬ (s.pkc.power = .unpowered ∨ s.pkc2.sysResetN = false) := by
      rw [high]; exact fun h => h.elim (powered_of_on lit) (fun h => nomatch h)
    have fed : converters { s with pkc2 := { s.pkc2 with sysResetN := false } } = true := converters_of_on lit
    have held := heldFrom_warmWipe 2 { s with pkc2 := { s.pkc2 with sysResetN := false } }
    exact ⟨_, (if_neg awake).trans (if_pos fed), held, by rw [warmWipe_pkc2]⟩
  · have awake : ¬ (s.pkc.power = .unpowered ∨ s.pkc2.sysResetN = true) := by rw [low, reset]; decide
    exact ⟨_, (if_neg awake).trans (if_pos reset), rfl⟩
  · have fed : converters { s with pkc2 := { s.pkc2 with pwrOk := false } } = true := converters_of_on lit
    have lost := lostFrom_enterStandby .standbyPwr { s with pkc2 := { s.pkc2 with pwrOk := false } }
    exact ⟨_, (if_neg (powered_of_on lit)).trans (if_pos fed), lost.losses, enterStandby_power .., by rw [enterStandby_pkc2]⟩
  · have fed : (s.pkc2.pwrOk && converters s) = true := by rw [ok, converters_of_on lit]; rfl
    exact ⟨_, if_pos fed, (lostFrom_enterStandby ..).losses, enterStandby_power .., by rw [enterStandby_pkc2]; exact ok⟩
  · have lost := lostFrom_enterStandby .standbyTrip s
    exact ⟨_, if_pos (converters_of_on lit), (lost.withPins ..).losses, enterStandby_power .standbyTrip s, rfl⟩
  · exact ⟨_, if_pos operator, (lostFrom_enterStandby ..).losses, enterStandby_power ..⟩
  · refine ⟨_, if_neg powered, rfl, rfl, ?_, fun lit => ?_⟩
    · dsimp only
      split
      · exact (lostFrom_enterStandby ..).meter
      · rfl
    · rw [if_pos (converters_of_on lit)]
      exact ((lostFrom_enterStandby ..).withPins ..).losses
  · exact if_pos off
  · have dark : ¬ converters s = true := by unfold converters; rw [off]; decide
    rcases row with rfl | rfl | rfl | rfl | rfl | rfl | ⟨a, b, rfl⟩ | rfl | ⟨b, rfl⟩
    · exact if_pos (.inl off)
    · exact if_pos off
    · exact if_neg dark
    · exact if_pos (.inl off)
    · exact if_pos (.inl off)
    · exact if_pos (.inl off)
    · exact if_pos (.inl off)
    · exact if_pos off
    · exact if_pos off
  · intro u
    have awake : ¬ (s.pkc.power = .unpowered ∨ s.pkc2.pwrOk = true) := by
      rw [low]; exact fun h => h.elim powered (fun h => nomatch h)
    split
    · next released => exact (if_neg awake).trans (congrArg Host.Outcome.next (if_pos released))
    · next held =>
      exact ⟨heldStart 0 u, (if_neg awake).trans (congrArg Host.Outcome.next (if_neg held)), heldStart_facts 0 u⟩
  · have awake : ¬ (s.pkc.power = .unpowered ∨ s.pkc2.perstN = true) := by rw [reset, low]; decide
    have left : ¬ (s.pkc.power = .standbyStby ∧ s.pkc2.pwrOk = true) := by rw [reset]; exact fun h => nomatch h.1
    have up := finishStart_of_high (s := { s with pkc2 := { s.pkc2 with perstN := true } }) rfl
    refine ⟨linkUp speed width (finishStart { s with pkc2 := { s.pkc2 with perstN := true } }), ?_, ?_⟩
    · refine (if_neg awake).trans ((if_neg left).trans ((if_pos ⟨reset, released⟩).trans (if_neg ?_)))
      exact fun bad => Bool.eq_false_iff.1 well bad
    · rw [up, linkUp_pkc]
      exact ⟨rfl, rfl, rfl, fun live => linkUp_shows speed width live⟩
  · unfold bringUp
    rw [none]

end Sys2Proof.Machine
end

section
/-! PROOF. Contexts defined and undefined, and the control commands (R377, R380, R394 to R404): each acts on its target,
another context than the command's own. -/

namespace Sys2Proof.Machine

open Sys2Proof

-- Proofs one after another: the package compiles as one text under a memory limit.
set_option Elab.async false

/-! ## Commands that act on another context -/

section
variable {s u : State} {c q T : Nat} {m : Cmd} (found : getCmd s c q = some m) (other : T ≠ c)
  (away : ∀ d, d ≠ T → u.ctx d = s.ctx d)
include found other away

/-- A change of another context leaves the command's own commands. -/
theorem getCmd_of_away : getCmd u c q = some m := by
  rw [← found]
  unfold getCmd
  rw [away c other.symm]

/-- Ending a command after a change of another context ends it, and no third context changes. -/
theorem ends_of_away (st : Status) (dw : List Nat) :
    Ended (finish c q st dw u) c q st dw ∧ ∀ d, d ≠ T → d ≠ c → (finish c q st dw u).ctx d = s.ctx d :=
  ⟨(finished_finish st dw (getCmd_of_away found other away)).ended', fun d third own => by
    rw [finish_ctx_other _ _ _ _ own, away d third]⟩

end

/-- Ending a command leaves what another context is. -/
theorem finish_target {c T : Nat} (q : Nat) (st : Status) (dw : List Nat) (u : State) (other : T ≠ c) :
    (finish c q st dw u).ctx T = u.ctx T := finish_ctx_other _ _ _ _ other

/-- Ending a command leaves the memory keys. -/
theorem finish_hbm (c q : Nat) (st : Status) (dw : List Nat) (u : State) : (finish c q st dw u).hbm = u.hbm := by
  rw [finish_eq]

/-! ## Definition -/

section
variable {s : State} {c q : Nat} {m : Cmd} (run : running? s c q = some m)
include run

theorem exec_ctxUndefine (opcode : m.opcode = 0x51) (still : (s.ctx (m.f 0x10 16)).sched.swapping = .none) :
    exec (.ctxUndefine c q) s = .next (finish c q .ok [] ((resetCtx (m.f 0x10 16) false s).setCtx (m.f 0x10 16)
      (Ctx.init (m.f 0x10 16)))) := by
  show execCtxUndefine c q s = _
  unfold execCtxUndefine
  rw [run]
  exact if_pos ⟨opcode, still⟩

theorem control?_of_running {op : Nat} (opcode : m.opcode = op) : control? s c q op = some (m, m.f 0x10 16) := by
  unfold control?
  rw [run]
  exact if_pos opcode

end

/-- Settles O15: a definition writes one context and one key; an undefinition resets its target and clears it. -/
theorem contextsAreDefinedAndUndefined : Obligations.ContextsAreDefinedAndUndefined := by
  intro c q s m run other
  have found := running?_getCmd run
  refine ⟨fun opcode => ?_, fun opcode still => ?_⟩
  · have target : (finish c q .ok [] (newKey (m.f 0x10 16) (s.setCtx (m.f 0x10 16) m.definedCtx))).ctx (m.f 0x10 16) =
        m.definedCtx := by
      rw [finish_target _ _ _ _ other, newKey_ctx, State.setCtx_ctx_self]
    refine ⟨_, exec_ctxDefine run opcode, ?_, fun j => ?_, ?_⟩
    · rw [target]; rfl
    · rw [finish_hbm]
      refine (aget_aput s.hbm.keyGen (m.f 0x10 16) _ j).trans ?_
      by_cases here : j = m.f 0x10 16
      · rw [if_pos here, if_pos here, here]; rfl
      · rw [if_neg here, if_neg here]
    · rw [target, finish_hbm]
      exact finished_finish .ok [] (getCmd_of_away (u := newKey (m.f 0x10 16) (s.setCtx (m.f 0x10 16) m.definedCtx))
        found other fun d away => by rw [newKey_ctx, State.setCtx_ctx_other _ _ away])
  · have away : ∀ d, d ≠ m.f 0x10 16 → ((resetCtx (m.f 0x10 16) false s).setCtx (m.f 0x10 16)
        (Ctx.init (m.f 0x10 16))).ctx d = s.ctx d := fun d third => by
      rw [State.setCtx_ctx_other _ _ third, resetCtx_other _ _ third]
    obtain ⟨ended, thirds⟩ := ends_of_away found other away .ok []
    refine ⟨_, exec_ctxUndefine run opcode still, ?_, ended, ?_, thirds⟩
    · rw [finish_target _ _ _ _ other, State.setCtx_ctx_self]
    · rw [finish_ctx_same, away c other.symm]

/-! ## Suspend, resume, save, reset and restore -/

theorem suspend_other {d T : Nat} (s : State) (third : d ≠ T) : (suspend T s).ctx d = s.ctx d := by
  unfold suspend
  rw [settle_ctx_other _ third, State.modCtx_ctx_other _ _ third]

theorem suspend_target {T : Nat} (s : State) (notMgmt : T ≠ 0) :
    ((suspend T s).ctx T).reg.st = .halted ∧ ((suspend T s).ctx T).reg.res = (s.ctx T).reg.res := by
  unfold suspend
  refine ⟨?_, by rw [settle_res, State.modCtx_ctx_self]⟩
  rw [settle_st_of_away notMgmt] <;> rw [State.modCtx_ctx_self]
  dsimp only
  decide

theorem resume_other {d T : Nat} (s : State) (third : d ≠ T) : (resume T s).ctx d = s.ctx d := by
  unfold resume
  rw [settle_ctx_other _ third, State.modCtx_ctx_other _ _ third]

/-- A resume brings the context back to the states of R379, or to SWAPPED or LOADED where it holds no banks (R380). -/
theorem resume_target {T : Nat} (s : State) (notMgmt : T ≠ 0) (still : (s.ctx T).sched.swapping = .none) :
    ((resume T s).ctx T).reg.res = (s.ctx T).reg.res ∧ ((resume T s).ctx T).sched.saved = false ∧
    if (s.ctx T).reg.res then ((resume T s).ctx T).reg.st ∈ [CtxSt.resident, .running, .blocked]
    else ((resume T s).ctx T).reg.st = if (s.ctx T).hasBanks then .swapped else .loaded := by
  unfold resume
  refine ⟨by rw [settle_res, State.modCtx_ctx_self], by rw [settle_saved, State.modCtx_ctx_self], ?_⟩
  split
  · next res =>
    refine settle_st_mem notMgmt ?_ ?_ <;> rw [State.modCtx_ctx_self]
    · exact if_pos res
    · exact still
  · next gone =>
    rw [settle_st_of_away notMgmt] <;> rw [State.modCtx_ctx_self] <;> dsimp only <;> rw [if_neg gone]
    split <;> decide

theorem suspendable_of_mem {st : CtxSt} (mem : st ∈ [CtxSt.loaded, .swapped, .resident, .running, .blocked, .blockedKv]) :
    st.suspendable = true := by
  simp only [List.mem_cons, List.not_mem_nil, or_false] at mem
  rcases mem with rfl | rfl | rfl | rfl | rfl | rfl <;> rfl

/-- What a CTX_RESET leaves of its target (R401). -/
theorem settled_reset_target (T : Nat) (keep : Bool) (s : State) :
    let t := settle T (resetCtx T keep s)
    (t.ctx T).cmds = [] ∧ (t.ctx T).handles = [] ∧ (∀ i, getSeq t T i = none) ∧ (t.ctx T).jobs = [] ∧
    (∀ i, getVc t T i = none) ∧ (t.ctx T).ring = .init ∧ (t.ctx T).irq = .init ∧ (t.ctx T).aq = .init ∧
    (t.ctx T).reg.res = false ∧ (t.ctx T).reg.st = (if (t.ctx T).models ≠ [] then .swapped else .loaded) ∧
    (keep = false → (t.ctx T).models = [] ∧ (∀ r, getRegion t T r = none) ∧
      aget t.hbm.keyGen T = some ((aget s.hbm.keyGen T).getD 0 + 1)) := by
  intro t
  obtain ⟨cmds, handles, seqs, jobs, vcs, ring, irq, aq, -, -, res, -, st, gone⟩ := resetCtx_facts T keep s
  have same := settle_ctx_same T (resetCtx T keep s)
  have tables : (t.ctx T).handles = ((resetCtx T keep s).ctx T).handles ∧ (t.ctx T).seqs = ((resetCtx T keep s).ctx T).seqs ∧
      (t.ctx T).jobs = ((resetCtx T keep s).ctx T).jobs ∧ (t.ctx T).vcs = ((resetCtx T keep s).ctx T).vcs ∧
      (t.ctx T).models = ((resetCtx T keep s).ctx T).models ∧ (t.ctx T).regions = ((resetCtx T keep s).ctx T).regions := by
    unfold t
    rw [same]
    exact ⟨rfl, rfl, rfl, rfl, rfl, rfl⟩
  obtain ⟨tHandles, tSeqs, tJobs, tVcs, tModels, tRegions⟩ := tables
  have keys : t.hbm = (resetCtx T keep s).hbm := by unfold t; rw [settle_eq]
  unfold getSeq at seqs ⊢
  unfold getVc at vcs ⊢
  unfold getRegion at gone ⊢
  refine ⟨(settle_cmds ..).trans cmds, tHandles.trans handles, ?_, tJobs.trans jobs, ?_, (settle_ring ..).trans ring,
    (settle_irq ..).trans irq, (settle_aq ..).trans aq, (settle_res ..).trans res, ?_, ?_⟩
  · rw [tSeqs]; exact seqs
  · rw [tVcs]; exact vcs
  · rw [tModels, ← st]; exact settle_keep T _ st
  · rw [tModels, tRegions, keys]; exact gone

/-- The state in which a restore moves its target: with the commands that it discards ended (R404). -/
def restoring (T p : Nat) (discard : Bool) (s : State) : State := if discard then discardInterrupted T p s else s

theorem restoring_facts (T p : Nat) (discard : Bool) (s : State) :
    (∀ d, d ≠ T → (restoring T p discard s).ctx d = s.ctx d) ∧
    ((restoring T p discard s).ctx T).handles = (s.ctx T).handles := by
  unfold restoring
  split
  · exact forAll_finish ..
  · exact ⟨fun _ _ => rfl, rfl⟩

section
variable {s : State} {c q : Nat} {m : Cmd} (run : running? s c q = some m)
include run

theorem exec_ctxSuspend (opcode : m.opcode = 0x56) (may : (s.ctx (m.f 0x10 16)).reg.st.suspendable = true) :
    exec (.ctxSuspend c q) s = .next (finish c q .ok [] (suspend (m.f 0x10 16) s)) := by
  show execCtxSuspend c q s = _
  unfold execCtxSuspend
  rw [control?_of_running run opcode]
  exact if_pos may

theorem exec_ctxResume (opcode : m.opcode = 0x57)
    (may : (s.ctx (m.f 0x10 16)).reg.st = .halted ∨ (s.ctx (m.f 0x10 16)).reg.st = .blockedKv) :
    exec (.ctxResume c q) s = .next (finish c q .ok [] (resume (m.f 0x10 16) s)) := by
  show execCtxResume c q s = _
  unfold execCtxResume
  rw [control?_of_running run opcode]
  exact if_pos may

theorem exec_ctxSave (opcode : m.opcode = 0x58) (still : (s.ctx (m.f 0x10 16)).sched.swapping = .none) :
    exec (.ctxSave c q) s = if (s.ctx (m.f 0x10 16)).reg.res then
      .next (setActed c q (s.modCtx (m.f 0x10 16) fun x => { x with sched := { x.sched with swapping := .out } }))
    else .next (finish c q .ok [] (s.modCtx (m.f 0x10 16) fun x => { x with sched := { x.sched with saved := true } })) := by
  show execCtxSave c q s = _
  unfold execCtxSave
  rw [control?_of_running run opcode]
  exact if_neg (not_not.2 still)

theorem exec_ctxReset (opcode : m.opcode = 0x5A) (still : (s.ctx (m.f 0x10 16)).sched.swapping = .none)
    (defd : (s.ctx (m.f 0x10 16)).reg.st ≠ .free) : exec (.ctxReset c q) s =
    .next (finish c q .ok [] (settle (m.f 0x10 16) (resetCtx (m.f 0x10 16) (m.fb 0x13 0 1 == 1) s))) := by
  show execCtxReset c q s = _
  unfold execCtxReset
  rw [control?_of_running run opcode]
  exact if_neg fun h => h.elim (absurd still) (absurd · defd)

theorem exec_ctxRestore_same (opcode : m.opcode = 0x59) (same : m.fb 0x12 0 5 = (s.ctx (m.f 0x10 16)).reg.part) :
    exec (.ctxRestore c q) s = .next (finish c q .ok [] s) := by
  show execCtxRestore c q s = _
  unfold execCtxRestore
  rw [control?_of_running run opcode]
  exact if_pos same

theorem exec_ctxRestore_error {e : NoFit} (opcode : m.opcode = 0x59)
    (moves : m.fb 0x12 0 5 ≠ (s.ctx (m.f 0x10 16)).reg.part)
    (fit : restoreFit s (m.f 0x10 16) (m.fb 0x12 0 5) (m.fb 0x13 1 1 == 1) = .error e) :
    exec (.ctxRestore c q) s = .next (finish c q .nofit (noFitRef e).dw s) := by
  show execCtxRestore c q s = _
  unfold execCtxRestore
  rw [control?_of_running run opcode]
  dsimp only
  rw [if_neg moves, fit]

theorem exec_ctxRestore_ok {regs : List (Nat × Region)} (opcode : m.opcode = 0x59)
    (moves : m.fb 0x12 0 5 ≠ (s.ctx (m.f 0x10 16)).reg.part)
    (fit : restoreFit s (m.f 0x10 16) (m.fb 0x12 0 5) (m.fb 0x13 1 1 == 1) = .ok regs) :
    exec (.ctxRestore c q) s = .next (finish c q .ok [] (moveCtx (m.f 0x10 16) (m.fb 0x12 0 5) regs
      (restoring (m.f 0x10 16) (m.fb 0x12 0 5) (m.fb 0x13 1 1 == 1) s))) := by
  show execCtxRestore c q s = _
  unfold execCtxRestore
  rw [control?_of_running run opcode]
  dsimp only
  rw [if_neg moves, fit]
  rfl

end

/-- A CTX_CONTROL write that reaches a context (R397, R408). -/
theorem controlWrite_eq {s : State} {src : Src} {page c : Nat} (susp : Bool) (may : mayWrite src = true)
    (names : pageCtx s src page = some c) : controlWrite src page susp s =
    if c = 0 ∨ (s.ctx c).reg.st = .lost then ctxEvent c 8 s
    else s.modCtx c fun x => { x with
      sched := { x.sched with wantSusp := x.sched.wantSusp || susp, wantRes := x.sched.wantRes || !susp } } := by
  unfold controlWrite
  rw [if_pos may, names]

/-- Settles O41: what each command makes of its target is said once, and none reaches a third context. -/
theorem controlCommandsMoveTheirTarget : Obligations.ControlCommandsMoveTheirTarget := by
  refine ⟨fun c q s m run other notMgmt => ?_, fun src page c s may names => ?_⟩
  · intro T x Done
    have found := running?_getCmd run
    refine ⟨fun opcode may => ?_, fun opcode may still => ?_, fun opcode still => ?_, fun opcode still defd => ?_,
      fun opcode same => ?_, fun opcode moves => ?_⟩
    · obtain ⟨st, res⟩ := suspend_target s notMgmt
      refine ⟨_, exec_ctxSuspend run opcode (suspendable_of_mem may), ?_, ?_,
        ends_of_away found other (fun d third => suspend_other s third) .ok []⟩
      · rw [finish_target _ _ _ _ other]; exact st
      · rw [finish_target _ _ _ _ other]; exact res
    · have target := resume_target s notMgmt still
      rw [← finish_target q .ok [] (resume T s) other] at target
      obtain ⟨res, saved, st⟩ := target
      exact ⟨_, exec_ctxResume run opcode may, res, saved, st,
        ends_of_away found other (fun d third => resume_other s third) .ok []⟩
    · have away (f : Ctx → Ctx) : ∀ d, d ≠ T → (s.modCtx T f).ctx d = s.ctx d :=
        fun d third => State.modCtx_ctx_other _ _ third
      have saves := exec_ctxSave run opcode still
      split
      · next res =>
        exact ⟨_, saves.trans (if_pos res), acted_setActed (getCmd_of_away found other (away _))⟩
      · next gone =>
        exact ⟨_, saves.trans (if_neg gone), finished_finish .ok [] (getCmd_of_away found other (away _))⟩
    · have away : ∀ d, d ≠ T → (settle T (resetCtx T (m.fb 0x13 0 1 == 1) s)).ctx d = s.ctx d := fun d third => by
        rw [settle_ctx_other _ third, resetCtx_other _ _ third]
      have left := settled_reset_target T (m.fb 0x13 0 1 == 1) s
      have hbm := finish_hbm c q .ok [] (settle T (resetCtx T (m.fb 0x13 0 1 == 1) s))
      have target := finish_target q .ok [] (settle T (resetCtx T (m.fb 0x13 0 1 == 1) s)) other
      unfold getSeq getVc getRegion at left ⊢
      dsimp only at left
      rw [← hbm, ← target] at left
      obtain ⟨cmds, handles, seqs, jobs, vcs, ring, irq, aq, res, st, gone⟩ := left
      exact ⟨_, exec_ctxReset run opcode still defd, cmds, handles, seqs, jobs, vcs, ring, irq, aq, res, st,
        fun drop => gone (by rw [drop]; rfl), ends_of_away found other away .ok []⟩
    · exact ⟨_, exec_ctxRestore_same run opcode same, finished_finish .ok [] found⟩
    · cases fit : restoreFit s T (m.fb 0x12 0 5) (m.fb 0x13 1 1 == 1) with
      | error e => exact ⟨_, exec_ctxRestore_error run opcode moves fit, finished_finish .nofit _ found⟩
      | ok regs =>
        obtain ⟨before, kept⟩ := restoring_facts T (m.fb 0x12 0 5) (m.fb 0x13 1 1 == 1) s
        obtain ⟨thirds, handles, part, placed⟩ :=
          moveCtx_ctx T (m.fb 0x12 0 5) regs (restoring T (m.fb 0x12 0 5) (m.fb 0x13 1 1 == 1) s)
        refine ⟨_, exec_ctxRestore_ok run opcode moves fit, ?_, ?_, ?_,
          ends_of_away found other (fun d third => (thirds d third).trans (before d third)) .ok []⟩
        · rw [finish_target _ _ _ _ other]; exact part
        · rw [finish_target _ _ _ _ other]; exact placed
        · rw [finish_target _ _ _ _ other]; exact handles.trans kept
  · have writes (susp : Bool) := controlWrite_eq susp may names
    split
    · next ignored =>
      exact ⟨⟨_, congrArg Host.Outcome.next ((writes true).trans (if_pos ignored)), posted_ctxEvent ..⟩,
        ⟨_, congrArg Host.Outcome.next ((writes false).trans (if_pos ignored)), posted_ctxEvent ..⟩⟩
    · next waits =>
      refine ⟨_, _, congrArg Host.Outcome.next ((writes true).trans (if_neg waits)),
        congrArg Host.Outcome.next ((writes false).trans (if_neg waits)), ?_, ?_⟩
      · simp only [Bool.or_true, Bool.not_true, Bool.or_false]
      · simp only [Bool.or_true, Bool.not_false, Bool.or_false]

end Sys2Proof.Machine
end

section
/-! PROOF. The security block's operations (R438 to R446, R450, R451): each by its first failed step. -/

namespace Sys2Proof.Machine

open Sys2Proof

-- Proofs one after another: the package compiles as one text under a memory limit.
set_option Elab.async false

variable {s u : State}

theorem posted_secDone (r : Nat) (s : State) :
    Posted { s with sec := { s.sec with busy := false, result := r, events := s.sec.events ||| 1 } } (secDone r s) :=
  posted_secEvent 1 _

/-! ## Outputs -/

/-- An output that the host takes is in its memory, exactly (R451). -/
theorem secOutput_writes {bs : List Byte} (fits : bs.length ≤ u.sec.len.toNat)
    (reached : hostFails u 0 u.sec.addr.toNat bs.length = false) :
    secOutput bs u = secDone 0 (hostWrite u 0 u.sec.addr.toNat bs) ∧
    hostRead (hostWrite u 0 u.sec.addr.toNat bs) 0 u.sec.addr.toNat bs.length = bs := by
  refine ⟨?_, hostRead_hostWrite u 0 _ bs reached⟩
  unfold secOutput
  rw [if_neg (by omega), if_neg (by rw [reached]; decide)]

theorem secOutput_long {bs : List Byte} (long : u.sec.len.toNat < bs.length) : secOutput bs u = secDone 5 u := if_pos long

theorem secOutput_fails {bs : List Byte} (fits : bs.length ≤ u.sec.len.toNat)
    (fails : hostFails u 0 u.sec.addr.toNat bs.length = true) : secOutput bs u = secDone 2 u := by
  unfold secOutput
  rw [if_neg (by omega), if_pos fails]

/-- An operation that ends as `run` writes the output `bs` over the state `u`, or ends with what refuses it (R450). -/
def Outputs (s : State) (run : Host.Outcome State Fault Refusal) (bs : List Byte) (u : State) : Prop :=
  (secBad s = true → run = .next (secDone 1 s)) ∧
  (secBad s = false → secNoCtx s = true → run = .next (secDone 6 s)) ∧
  (secBad s = false → secNoCtx s = false →
    (s.sec.len.toNat < bs.length → run = .next (secDone 5 u)) ∧
    (bs.length ≤ s.sec.len.toNat → hostFails s 0 s.sec.addr.toNat bs.length = true → run = .next (secDone 2 u)) ∧
    (bs.length ≤ s.sec.len.toNat → hostFails s 0 s.sec.addr.toNat bs.length = false →
      run = .next (secDone 0 (hostWrite u 0 s.sec.addr.toNat bs)) ∧
      hostRead (hostWrite u 0 s.sec.addr.toNat bs) 0 s.sec.addr.toNat bs.length = bs))

/-- Both outputs check their arguments first; a free value taken for one changes neither registers nor host. -/
theorem outputs_of_eq {run : Host.Outcome State Fault Refusal} {bs : List Byte} (sec : u.sec = s.sec)
    (host : hostFails u 0 s.sec.addr.toNat bs.length = hostFails s 0 s.sec.addr.toNat bs.length)
    (eq : run = if secBad s then .next (secDone 1 s) else if secNoCtx s then .next (secDone 6 s)
      else .next (secOutput bs u)) : Outputs s run bs u := by
  subst eq
  refine ⟨fun bad => if_pos bad, fun good none => ?_, fun good some => ?_⟩
  · rw [if_neg (by rw [good]; decide), if_pos none]
  · rw [if_neg (by rw [good]; decide), if_neg (by rw [some]; decide)]
    rw [← sec] at host ⊢
    rw [← host]
    exact ⟨fun long => by rw [secOutput_long long], fun fits fails => by rw [secOutput_fails fits fails],
      fun fits reached => ⟨by rw [(secOutput_writes fits reached).1], (secOutput_writes fits reached).2⟩⟩

theorem exec_idRecord (op : secOp? s 1 = true) : Outputs s (exec .idRecord s) (idRecord s) s :=
  outputs_of_eq rfl rfl (if_pos op)

/-- The state after the free value that a device report takes (log 6). -/
def valueTaken (s : State) : State := { s with env := { s.env with free := s.env.free + 1 } }

theorem exec_attest (op : secOp? s 2 = true) :
    Outputs s (exec .attest s) (report s (Config.freeValue 80 s.env.free).toNat) (valueTaken s) :=
  outputs_of_eq rfl rfl (if_pos op)

/-! ## Staging -/

/-- An image that staging takes was read whole, is good and is no older than its floor (R441). -/
theorem stageRead_ok {type : Nat} {floor : Word} {i : Image} (ok : stageRead s type floor = .ok i) :
    secBad s = false ∧ hostFails s 0 s.sec.addr.toNat s.sec.len.toNat = false ∧ i.good = true ∧
    floor.toNat ≤ i.svn.toNat ∧ i = parseImage s.sec.certs (hostRead s 0 s.sec.addr.toNat s.sec.len.toNat) := by
  unfold stageRead at ok
  dsimp only at ok
  split at ok
  · cases ok
  next good =>
  split at ok
  · cases ok
  next reached =>
  split at ok
  · cases ok
  split at ok
  · cases ok
  split at ok
  · cases ok
  next verified =>
  split at ok
  · cases ok
  next fresh =>
  cases ok
  exact ⟨Bool.eq_false_iff.2 good, Bool.eq_false_iff.2 reached, Bool.ne_false_iff.1 verified, not_lt.1 fresh, rfl⟩

theorem exec_stageFw (op : secOp? s 3 = true) : exec .stageFw s =
    match stageRead s 1 s.sec.fwFloor with
    | .error r => .next (secDone r s)
    | .ok i => .next (secDone 0 { s with sec :=
        if (if s.pkc.recovery then slotOk s.sec.fwA s.sec.fwFloor else !s.sec.fwRun) then { s.sec with fwB := some i }
        else { s.sec with fwA := some i } }) :=
  if_pos op

theorem exec_stageArm (op : secOp? s 4 = true) : exec .stageArm s =
    if prevInUse s then .next (secDone 1 s)
    else match stageRead s 2 s.sec.armFloor with
    | .error r => .next (secDone r s)
    | .ok i => .next (secDone 0 { s with arm :=
        if (if s.pkc.recovery then slotOk s.arm.slotA s.sec.armFloor else !s.arm.curB) then
          { s.arm with slotB := some i, prevValid := false }
        else { s.arm with slotA := some i, prevValid := false } }) :=
  if_pos op

/-! ## Certificates -/

/-- The certificate at the address. -/
def certRead (s : State) : List Byte := hostRead s 0 s.sec.addr.toNat 5504

theorem exec_certAdd (op : secOp? s 5 = true) : exec .certAdd s =
    if secBad s || decide (s.sec.len.toNat < 5504) then .next (secDone 1 s)
    else if hostFails s 0 s.sec.addr.toNat 5504 then .next (secDone 2 s)
    else if !Config.certValid (certRead s) || num (certRead s) 4 2 != 2 then .next (secDone 3 s)
    else if s.sec.certs.contains (BitVec.ofNat 384 (num (certRead s) 0x10 48)) then .next (secDone 0 s)
    else if Config.certRoom ≤ s.sec.certs.length then .next (secDone 5 s)
    else .next (secDone 0 { s with sec := { s.sec with
      certs := s.sec.certs ++ [BitVec.ofNat 384 (num (certRead s) 0x10 48)] } }) :=
  if_pos op

/-- A certificate whose arguments are good and that the host gives is judged by its contents (R451). -/
theorem exec_certAdd_read (op : secOp? s 5 = true) (good : secBad s = false) (whole : 5504 ≤ s.sec.len.toNat)
    (reached : hostFails s 0 s.sec.addr.toNat 5504 = false) : exec .certAdd s =
    if !Config.certValid (certRead s) || num (certRead s) 4 2 != 2 then .next (secDone 3 s)
    else if s.sec.certs.contains (BitVec.ofNat 384 (num (certRead s) 0x10 48)) then .next (secDone 0 s)
    else if Config.certRoom ≤ s.sec.certs.length then .next (secDone 5 s)
    else .next (secDone 0 { s with sec := { s.sec with
      certs := s.sec.certs ++ [BitVec.ofNat 384 (num (certRead s) 0x10 48)] } }) := by
  rw [exec_certAdd op, if_neg (by rw [good, decide_eq_false (by omega)]; decide), if_neg (by rw [reached]; decide)]

/-- Settles O52: the outputs by one lemma, staging by what it reads, and a certificate by its checks in order. -/
theorem securityOperationsEndWithTheirResult : Obligations.SecurityOperationsEndWithTheirResult := by
  intro s a n Writes
  refine ⟨posted_secDone, fun type floor i ok => stageRead_ok ok, fun i op row idle => ?_, exec_idRecord, exec_attest,
    fun op => ⟨fun r refused => ?_, fun i ok => ?_⟩,
    fun op => ⟨fun used => ?_, fun free => ⟨fun r refused => ?_, fun i ok => ?_⟩⟩, fun op => ?_⟩
  · have still : ¬ secOp? s op = true := Bool.eq_false_iff.1 idle
    rcases row with ⟨rfl, rfl⟩ | ⟨rfl, rfl⟩ | ⟨rfl, rfl⟩ | ⟨rfl, rfl⟩ | ⟨rfl, rfl⟩
    all_goals exact if_neg still
  · rw [exec_stageFw op, refused]
  · rw [exec_stageFw op, ok]
  · rw [exec_stageArm op, if_pos used]
  · rw [exec_stageArm op, if_neg (by rw [free]; decide), refused]
  · rw [exec_stageArm op, if_neg (by rw [free]; decide), ok]
  · intro l id
    refine ⟨fun bad => ?_, fun good whole => ⟨fun fails => ?_, fun reached => ?_⟩⟩
    · exact (exec_certAdd op).trans (if_pos (by rw [Bool.or_eq_true, decide_eq_true_iff]; exact bad))
    · rw [exec_certAdd op, if_neg (by rw [good, decide_eq_false (by omega)]; decide), if_pos fails]
    · have read := exec_certAdd_read op good whole reached
      refine ⟨fun invalid => ?_, fun valid role => ?_⟩
      · exact read.trans (if_pos (by rcases invalid with h | h <;> simp [h, show certRead s = l from rfl]))
      · have fit : ¬ (!Config.certValid l || num l 4 2 != 2) = true := by rw [valid, role]; decide
        have judged := read.trans (if_neg fit)
        have held : s.sec.certs.contains id = true ↔ id ∈ s.sec.certs := List.contains_iff_mem
        refine ⟨fun mem => judged.trans (if_pos (held.2 mem)), fun new full => ?_, fun new room => ?_⟩
        · exact judged.trans ((if_neg fun h => new (held.1 h)).trans (if_pos full))
        · exact judged.trans ((if_neg fun h => new (held.1 h)).trans (if_neg (not_le.2 room)))

end Sys2Proof.Machine
end

section
/-! PROOF. Operations on Armatures (R459 to R461, R477): what refuses each, and what an accepted one starts. -/

namespace Sys2Proof.Machine

open Sys2Proof

-- Proofs one after another: the package compiles as one text under a memory limit.
set_option Elab.async false

variable {s t u : State}

/-! ## Issue stops, and the end of an operation -/

theorem addStop_mem (p : Nat) (x : StopCause) (s : State) : x ∈ ((addStop p x s).part2 p).stopped :=
  List.contains_iff_mem.1 (addStop_stopped p x s)

/-- A stop that is added leaves every other. -/
theorem addStop_mem_of_mem {q : Nat} {y : StopCause} (p : Nat) (x : StopCause) (mem : y ∈ (s.part2 q).stopped) :
    y ∈ ((addStop p x s).part2 q).stopped := by
  unfold addStop
  split
  · exact mem
  · by_cases here : q = p
    · subst here
      rw [State.modPart2_part2_self]
      exact List.mem_append_left _ mem
    · rw [State.modPart2_part2_other _ _ here]
      exact mem

theorem posted_armDone (r o : Nat) (s : State) : Posted { s with
    arm := { s.arm with busy := false, result := r, refuseOff := w32 o, events := s.arm.events ||| 1 },
    arm2 := { s.arm2 with started := false, todo := [] } } (armDone r o s) :=
  posted_armEvent 1 _

theorem armDone_arm (r o : Nat) (s : State) : (armDone r o s).arm =
    { s.arm with busy := false, result := r, refuseOff := w32 o, events := s.arm.events ||| 1 } :=
  (posted_armDone r o s).arm

/-- The slots and what they hold are as they were, and which partitions are reverted. -/
structure SlotsKept (s t : State) : Prop where
  curB : t.arm.curB = s.arm.curB
  prevValid : t.arm.prevValid = s.arm.prevValid
  reverted : t.arm.reverted = s.arm.reverted
  slotA : t.arm.slotA = s.arm.slotA
  slotB : t.arm.slotB = s.arm.slotB

theorem SlotsKept.armCur (h : SlotsKept s t) : armCur t = armCur s := by
  unfold Machine.armCur
  rw [h.curB, h.slotA, h.slotB]

theorem SlotsKept.of_arm (h : SlotsKept s t) (arm : u.arm = t.arm) : SlotsKept s u := by
  obtain ⟨curB, prevValid, reverted, slotA, slotB⟩ := h
  exact ⟨arm ▸ curB, arm ▸ prevValid, arm ▸ reverted, arm ▸ slotA, arm ▸ slotB⟩

/-! ## Starting an operation -/

/-- What an accepted operation leaves: at its end without partitions to move, else busy with them and issue stopped in
each (R459, R460). -/
def StartsWith (l : List Nat) (t : State) : Prop :=
  if l = [] then t.arm.busy = false ∧ t.arm.result = 0
  else t.arm.busy = true ∧ t.arm2.started = true ∧ t.arm2.todo = l ∧
    ∀ p, p ∈ l → StopCause.armSwitch ∈ (t.part2 p).stopped

theorem StartsWith.congr {l : List Nat} (h : StartsWith l t) (busy : u.arm.busy = t.arm.busy)
    (result : u.arm.result = t.arm.result) (arm2 : u.arm2 = t.arm2) (parts2 : u.parts2 = t.parts2) : StartsWith l u := by
  unfold StartsWith State.part2 at *
  rw [busy, result, arm2, parts2]
  exact h

/-- The state of an accepted operation with its partitions to do. -/
def todoSet (l : List Nat) (s : State) : State := { s with arm2 := { s.arm2 with started := true, todo := l } }

theorem keeps_stops (l : List Nat) (s : State) : Keeps [.parts2] s (forAll l (fun p t => addStop p .armSwitch t) s) :=
  Keeps.forAll (.refl s) _ _ fun p _ k => keeps_addStop k p _ (List.Subset.refl _)

theorem armStart_of_none (s : State) : armStart [] s = armDone 0 0xFFFFFFFF (todoSet [] s) := by
  unfold armStart
  exact if_pos rfl

theorem armStart_of_some {l : List Nat} (some : l ≠ []) (s : State) :
    armStart l s = forAll l (fun p t => addStop p .armSwitch t) (todoSet l s) := by
  unfold armStart
  exact if_neg some

theorem startsWith_armStart (l : List Nat) (busy : s.arm.busy = true) : StartsWith l (armStart l s) := by
  unfold StartsWith
  split
  · next none =>
    subst none
    rw [armStart_of_none, armDone_arm]
    exact ⟨rfl, rfl⟩
  · next some =>
    rw [armStart_of_some some]
    have kept := keeps_stops l (todoSet l s)
    refine ⟨?_, ?_, ?_, fun p mem => ?_⟩
    · rw [show _ = (todoSet l s).arm from kept.only .arm (by decide)]; exact busy
    · rw [show _ = (todoSet l s).arm2 from kept.only .arm2 (by decide)]; rfl
    · rw [show _ = (todoSet l s).arm2 from kept.only .arm2 (by decide)]; rfl
    · exact forAll_establishes (fun t => StopCause.armSwitch ∈ (t.part2 p).stopped) _ l p mem
        (fun t => addStop_mem ..) (fun q _ t mem => addStop_mem_of_mem q _ mem) _

theorem slotsKept_armStart (l : List Nat) (s : State) : SlotsKept s (armStart l s) := by
  by_cases none : l = []
  · subst none
    rw [armStart_of_none]
    refine ⟨?_, ?_, ?_, ?_, ?_⟩ <;> rw [armDone_arm] <;> rfl
  · rw [armStart_of_some none]
    exact SlotsKept.of_arm (t := s) ⟨rfl, rfl, rfl, rfl, rfl⟩ ((keeps_stops l (todoSet l s)).only .arm (by decide))

/-- Starting concerns the operation's own registers and the stops (R459). -/
theorem armStart_rest (l : List Nat) (s : State) : (armStart l s).sec = s.sec ∧ (armStart l s).pkg = s.pkg := by
  by_cases none : l = []
  · subst none
    rw [armStart_of_none, (posted_armDone ..).sec, (posted_armDone ..).pkg]
    exact ⟨rfl, rfl⟩
  · rw [armStart_of_some none]
    exact ⟨(keeps_stops l (todoSet l s)).only .sec (by decide), (keeps_stops l (todoSet l s)).only .pkg (by decide)⟩

/-! ## APPLY -/

/-- The slots change roles, nothing is reverted, and the floors rise to the Armature's (R459). -/
def rolesChanged (i : Image) (s : State) : State :=
  { s with
    arm := { s.arm with curB := !s.arm.curB, prevValid := true, reverted := 0 },
    sec := { s.sec with
      armFloor := if s.sec.armFloor.toNat < i.svn.toNat then i.svn else s.sec.armFloor,
      fwFloor := w32 (max s.sec.fwFloor.toNat (pf i.payload 8 0 32)) } }

/-- The partitions that an APPLY moves (R461). -/
def applyTodo (i : Image) (s : State) : List Nat :=
  (List.range 24).filter fun p => ((s.part p).defd || entryValid i.payload p) && !revertedPart s p

/-- An accepted APPLY, before the slabs in no partition take their new words. -/
def appliedStart (i : Image) (s : State) : State :=
  logFact 8 0xFF 0xFF 0 i.epoch.toNat (armStart (applyTodo i s) (deviceWide (rolesChanged i s)))

/-- The state that an accepted APPLY leaves (R459). -/
def applied (i : Image) (s : State) : State :=
  forAll (looseSlabs (appliedStart i s)) (refreshSlab true) (appliedStart i s)

theorem keeps_looseRefresh (s : State) : Keeps [.env, .hostMem, .pcie, .slabs, .slabs2, .ports, .tiles, .tiles2, .banks,
    .ctxs, .funcs, .bankMem] s (forAll (looseSlabs s) (refreshSlab true) s) :=
  Keeps.forAll (.refl s) _ _ fun n _ k => keeps_refreshSlab k true n (List.Subset.refl _)

/-- The device-wide settings are those of the current Armature (R459, R460). -/
theorem deviceWide_pkg (s : State) : (deviceWide s).pkg = { s.pkg with
    powerLimit := BitVec.ofNat 16 (payField (armCur s) 4 0 16), rateCap := payField (armCur s) 6 1 5 } := by
  unfold deviceWide
  refine forAll_other State.pkg _ _ (fun p _ t => ?_) _
  exact rfl

theorem keeps_deviceWide_self (s : State) : Keeps [.pkg, .ports2] s (deviceWide s) :=
  keeps_deviceWide (.refl s) (List.Subset.refl _)

/-- With the roles changed the other slot is current. -/
theorem armCur_rolesChanged (i : Image) (s : State) : armCur (rolesChanged i s) = armOther s := by
  unfold armCur armOther rolesChanged
  cases s.arm.curB <;> rfl

theorem applied_facts {i : Image} (busy : s.arm.busy = true) (other : armOther s = some i) :
    (applied i s).arm.curB = (!s.arm.curB) ∧ (applied i s).arm.prevValid = true ∧ (applied i s).arm.reverted = 0 ∧
    (applied i s).sec.armFloor = (if s.sec.armFloor.toNat < i.svn.toNat then i.svn else s.sec.armFloor) ∧
    (applied i s).sec.fwFloor = w32 (max s.sec.fwFloor.toNat (pf i.payload 8 0 32)) ∧
    (applied i s).pkg.powerLimit = BitVec.ofNat 16 (payField (some i) 4 0 16) ∧
    (applied i s).pkg.rateCap = payField (some i) 6 1 5 ∧ StartsWith (applyTodo i s) (applied i s) := by
  have refreshed := keeps_looseRefresh (appliedStart i s)
  have wide := keeps_deviceWide_self (rolesChanged i s)
  have wideArm := wide.only .arm (by decide)
  obtain ⟨sec, pkg⟩ := armStart_rest (applyTodo i s) (deviceWide (rolesChanged i s))
  have slots := (slotsKept_armStart (applyTodo i s) (deviceWide (rolesChanged i s)))
  have starts := startsWith_armStart (applyTodo i s) (s := deviceWide (rolesChanged i s))
    (by rw [show _ = (rolesChanged i s).arm from wideArm]; exact busy)
  have arm : (applied i s).arm = (appliedStart i s).arm := refreshed.only .arm (by decide)
  have limits : (applied i s).pkg = (appliedStart i s).pkg := refreshed.only .pkg (by decide)
  have floors : (applied i s).sec = (appliedStart i s).sec := refreshed.only .sec (by decide)
  have wideSec : (deviceWide (rolesChanged i s)).sec = (rolesChanged i s).sec := wide.only .sec (by decide)
  have begun : StartsWith (applyTodo i s) (appliedStart i s) := starts.congr rfl rfl rfl rfl
  rw [arm, limits, floors, show (appliedStart i s).pkg = _ from pkg, show (appliedStart i s).sec = _ from sec, wideSec,
    deviceWide_pkg, armCur_rolesChanged, other]
  exact ⟨slots.curB.trans (congrArg Arm.curB wideArm), slots.prevValid.trans (congrArg Arm.prevValid wideArm),
    slots.reverted.trans (congrArg Arm.reverted wideArm), rfl, rfl, rfl, rfl,
    begun.congr (congrArg Arm.busy arm) (congrArg Arm.result arm) (refreshed.only .arm2 (by decide))
      (refreshed.only .parts2 (by decide))⟩

theorem busy_of_armOp {n : Nat} (op : armOp? s n = true) : s.arm.busy = true := by
  unfold armOp? at op
  simp only [Bool.and_eq_true] at op
  obtain ⟨⟨busy, -⟩, -⟩ := op
  exact busy

section
variable (op : armOp? s 1 = true)
include op

theorem exec_armApply_mask (mask : s.arm.cmdMask ≠ 0) : exec .armApply s = .next (armRefuse 1 s) :=
  (if_pos op).trans (if_pos mask)

theorem exec_armApply_bad (mask : s.arm.cmdMask = 0) (bad : slotOk (armOther s) s.sec.armFloor = false) :
    exec .armApply s = .next (armRefuse 2 s) :=
  (if_pos op).trans ((if_neg (not_not.2 mask)).trans (if_pos bad))

variable {i : Image} (mask : s.arm.cmdMask = 0) (other : armOther s = some i)
  (verified : slotOk (some i) s.sec.armFloor = true)
include mask other verified

/-- An APPLY whose slot verifies compares epochs next (R459). -/
theorem exec_armApply_verified : exec .armApply s =
    if i.epoch.toNat ≤ ((armCur s).map fun x => x.epoch.toNat).getD 0 then .next (armRefuse 3 s)
    else match inadmissible s i.payload with
    | some o => .next (armDone 5 o s)
    | none => if changedInUse s (List.range 24) (some i) then .next (armRefuse 4 s) else .next (applied i s) := by
  show execArmApply s = _
  unfold execArmApply
  rw [if_pos op]
  dsimp only
  rw [other, if_neg (not_not.2 mask), if_neg (by rw [verified]; decide)]
  cases armCur s <;> rfl

end

/-! ## REVERT and RETURN -/

/-- The payload with the entries that its partitions run once those of `l` have moved (R460). -/
def mixedAfter (l : List Nat) (s : State) : Nat :=
  mixPayload (payOf (armCur s)) (payOf (armPrev s)) fun n =>
    if l.contains n then !revertedPart s n else revertedPart s n

theorem armMove_eq (target : Option Image) (l : List Nat) (s : State) : armMove target l s =
    match inadmissible s (mixedAfter l s) with
    | some o => armDone 5 o s
    | none => if changedInUse s l target then armRefuse 4 s else armStart l s := rfl

section
variable {target : Option Image} {l : List Nat}

theorem armMove_fault {o : Nat} (fault : inadmissible s (mixedAfter l s) = some o) :
    armMove target l s = armDone 5 o s := by
  rw [armMove_eq, fault]

theorem armMove_used (fits : inadmissible s (mixedAfter l s) = none) (used : changedInUse s l target = true) :
    armMove target l s = armRefuse 4 s := by
  rw [armMove_eq, fits]
  exact if_pos used

theorem armMove_starts (fits : inadmissible s (mixedAfter l s) = none) (unused : changedInUse s l target = false) :
    armMove target l s = armStart l s := by
  rw [armMove_eq, fits]
  exact if_neg (by rw [unused]; decide)

end

/-- The partitions that a REVERT moves. -/
def revertTodo (s : State) : List Nat := (maskParts s).filter fun p => !revertedPart s p

/-- The partitions that a RETURN moves. -/
def returnTodo (s : State) : List Nat := (maskParts s).filter (revertedPart s)

section
variable (op : armOp? s 2 = true) (good : maskBad s = false)
include op good

theorem exec_armRevert_none (none : armPrev s = none) : exec .armRevert s = .next (armRefuse 6 s) :=
  (if_pos op).trans ((if_neg (by rw [good]; decide)).trans (if_pos (by rw [none]; rfl)))

variable {i : Image} (prev : armPrev s = some i)
include prev

theorem exec_armRevert_bad (bad : slotOk (some i) s.sec.armFloor = false) : exec .armRevert s = .next (armRefuse 7 s) :=
  (if_pos op).trans ((if_neg (by rw [good]; decide)).trans ((if_neg (by rw [prev]; exact Bool.false_ne_true)).trans
    (if_pos (by rw [prev]; exact bad))))

/-- A REVERT to an Armature that verifies; one that is accepted has the current Armature's power limit (R460). -/
theorem exec_armRevert_verified (verified : slotOk (some i) s.sec.armFloor = true) : exec .armRevert s =
    if (armMove (some i) (revertTodo s) s).arm.result = 0 ∨ (armMove (some i) (revertTodo s) s).arm.busy = true then
      .next (restoreLimit (armMove (some i) (revertTodo s) s))
    else .next (armMove (some i) (revertTodo s) s) := by
  show execArmRevert s = _
  unfold execArmRevert
  rw [if_pos op, if_neg (by rw [good]; decide), prev, Option.isNone_some, if_neg Bool.false_ne_true, if_neg (by rw [verified]; decide)]
  rfl

/-- A refusal is answered as it is. -/
theorem exec_armRevert_refused (verified : slotOk (some i) s.sec.armFloor = true) {r o : Nat} (refused : r ≠ 0)
    (move : armMove (some i) (revertTodo s) s = armDone r o s) : exec .armRevert s = .next (armDone r o s) := by
  rw [exec_armRevert_verified op good prev verified, move]
  refine if_neg ?_
  rw [armDone_arm]
  exact fun accepted => accepted.elim refused (fun busy => nomatch busy)

/-- An accepted operation is over with 0, or still busy. -/
theorem exec_armRevert_starts (verified : slotOk (some i) s.sec.armFloor = true)
    (move : armMove (some i) (revertTodo s) s = armStart (revertTodo s) s) :
    exec .armRevert s = .next (restoreLimit (armStart (revertTodo s) s)) := by
  rw [exec_armRevert_verified op good prev verified, move]
  have starts := startsWith_armStart (revertTodo s) (busy_of_armOp op)
  unfold StartsWith at starts
  refine if_pos ?_
  split at starts
  · exact .inl starts.2
  · exact .inr starts.1

end

/-- The power limit of an accepted REVERT is the current Armature's (R33, R460). -/
theorem restoreLimit_facts (l : List Nat) (busy : s.arm.busy = true) : StartsWith l (restoreLimit (armStart l s)) ∧
    (restoreLimit (armStart l s)).pkg.powerLimit = BitVec.ofNat 16 (payField (armCur s) 4 0 16) := by
  refine ⟨(startsWith_armStart l busy).congr rfl rfl rfl rfl, ?_⟩
  rw [← (slotsKept_armStart l s).armCur]
  rfl

theorem exec_armReturn (op : armOp? s 3 = true) (good : maskBad s = false) :
    exec .armReturn s = .next (armMove (armCur s) (returnTodo s) s) :=
  (if_pos op).trans (if_neg (by rw [good]; decide))

/-! ## CHECK -/

theorem startExch_exch (p : Nat) (s : State) : ((startExch p s).part2 p).exch.isSome = true := by
  unfold startExch
  split
  · assumption
  · rw [State.modPart2_part2_self]; rfl

/-- A running exchange goes on while another starts. -/
theorem startExch_exch_of_isSome {q : Nat} (p : Nat) (runs : (s.part2 q).exch.isSome = true) :
    ((startExch p s).part2 q).exch.isSome = true := by
  by_cases here : q = p
  · subst here
    exact startExch_exch q s
  · unfold startExch
    split
    · exact runs
    · rw [State.modPart2_part2_other _ _ here]
      exact runs

theorem exec_armCheck (op : armOp? s 4 = true) (good : maskBad s = false) : exec .armCheck s =
    .next (if maskParts s = [] then armDone 0 0xFFFFFFFF (todoSet (maskParts s) s)
      else forAll (maskParts s) startExch (todoSet (maskParts s) s)) :=
  (if_pos op).trans (if_neg (by rw [good]; decide))

/-- An accepted CHECK is over without partitions; else an exchange runs in each (R477). -/
theorem armCheck_starts (op : armOp? s 4 = true) (good : maskBad s = false) : ∃ t, exec .armCheck s = .next t ∧
    if maskParts s = [] then t.arm.busy = false ∧ t.arm.result = 0
    else t.arm = s.arm ∧ t.arm2.started = true ∧ t.arm2.todo = maskParts s ∧
      ∀ p, p ∈ maskParts s → (t.part2 p).exch.isSome := by
  refine ⟨_, exec_armCheck op good, ?_⟩
  split
  · rw [armDone_arm]
    exact ⟨rfl, rfl⟩
  · have kept : Keeps [.parts2] (todoSet (maskParts s) s) (forAll (maskParts s) startExch (todoSet (maskParts s) s)) :=
      Keeps.forAll (.refl _) _ _ fun p _ k => keeps_startExch k p (List.Subset.refl _)
    refine ⟨kept.only .arm (by decide), ?_, ?_, fun p mem => ?_⟩
    · exact congrArg Arm2.started (kept.only .arm2 (by decide))
    · exact congrArg Arm2.todo (kept.only .arm2 (by decide))
    · exact forAll_establishes (fun t => (t.part2 p).exch.isSome = true) _ _ p mem (fun t => startExch_exch p t)
        (fun q _ t runs => startExch_exch_of_isSome q runs) _

/-! ## The statement -/

/-- A refusal with its result and offset (R450, R459). -/
def RefusedWith (s : State) (i : Instr) (r o : Nat) : Prop := ∃ t, exec i s = .next t ∧ Posted { s with
  arm := { s.arm with busy := false, result := r, refuseOff := w32 o, events := s.arm.events ||| 1 },
  arm2 := { s.arm2 with started := false, todo := [] } } t

theorem refusedWith_of_eq {i : Instr} {r o : Nat} (run : exec i s = .next (armDone r o s)) : RefusedWith s i r o :=
  ⟨_, run, posted_armDone r o s⟩

/-- Settles O53: each operation by the first check that refuses it, and an accepted one by what starting it leaves. -/
theorem armaturesAreAppliedRevertedAndReturned : Obligations.ArmaturesAreAppliedRevertedAndReturned := by
  intro s Refused Starts mixed none_
  refine ⟨fun i op row => ⟨fun idle => ?_, fun op_ notApply bad => ?_⟩, fun op => ?_, fun op good => ?_,
    fun op good => ?_, fun op good => armCheck_starts op good⟩
  · have still : ¬ armOp? s op = true := Bool.eq_false_iff.1 idle
    rcases row with ⟨rfl, rfl⟩ | ⟨rfl, rfl⟩ | ⟨rfl, rfl⟩ | ⟨rfl, rfl⟩
    all_goals exact if_neg still
  · rcases row with ⟨rfl, rfl⟩ | ⟨rfl, rfl⟩ | ⟨rfl, rfl⟩ | ⟨rfl, rfl⟩
    · exact absurd rfl notApply
    all_goals exact refusedWith_of_eq ((if_pos op_).trans (if_pos bad))
  · refine ⟨fun mask => refusedWith_of_eq (exec_armApply_mask op mask),
      fun mask bad => refusedWith_of_eq (exec_armApply_bad op mask bad), fun i mask other verified => ?_⟩
    intro e
    have run := exec_armApply_verified op mask other verified
    refine ⟨fun low => refusedWith_of_eq (run.trans (if_pos low)), fun o high fault => refusedWith_of_eq ?_,
      fun high fits => ⟨fun used => refusedWith_of_eq ?_, fun unused => ⟨applied i s, ?_,
        applied_facts (busy_of_armOp op) other⟩⟩⟩
    all_goals rw [run, if_neg (not_le.2 high)]
    · rw [fault]
    · rw [fits]; exact if_pos used
    · rw [fits]; exact if_neg (by rw [unused]; decide)
  · refine ⟨fun none => refusedWith_of_eq (exec_armRevert_none op good none),
      fun i prev bad => refusedWith_of_eq (exec_armRevert_bad op good prev bad), fun i prev verified => ?_⟩
    intro l
    refine ⟨fun o fault => refusedWith_of_eq ?_, fun fits used => refusedWith_of_eq ?_, fun fits unused => ?_⟩
    · exact exec_armRevert_refused op good prev verified (by decide) (armMove_fault fault)
    · exact exec_armRevert_refused op good prev verified (by decide) (armMove_used fits used)
    · exact ⟨_, exec_armRevert_starts op good prev verified (armMove_starts fits unused),
        restoreLimit_facts l (busy_of_armOp op)⟩
  · intro l
    have run := exec_armReturn op good
    refine ⟨fun o fault => refusedWith_of_eq ?_, fun fits used => refusedWith_of_eq ?_, fun fits unused => ?_⟩
    · exact run.trans (congrArg _ (armMove_fault fault))
    · exact run.trans (congrArg _ (armMove_used fits used))
    · exact ⟨_, run.trans (congrArg _ (armMove_starts fits unused)), startsWith_armStart l (busy_of_armOp op)⟩

end Sys2Proof.Machine
end

section
/-! PROOF. The switch of a partition and its digest exchanges (R462, R465 to R467, R474, R477). -/

namespace Sys2Proof.Machine

open Sys2Proof

-- Proofs one after another: the package compiles as one text under a memory limit.
set_option Elab.async false

variable {s t u : State} {p : Nat}

/-! ## Stops that end -/

theorem dropStop_not_mem (p : Nat) (x : StopCause) (s : State) : x ∉ ((dropStop p x s).part2 p).stopped := by
  have gone := dropStop_stopped p x s
  rw [← Bool.not_eq_true, List.contains_iff_mem] at gone
  exact gone

theorem dropStop_part2 (p : Nat) (x : StopCause) (s : State) : (dropStop p x s).part2 p =
    { s.part2 p with stopped := (s.part2 p).stopped.filter (· != x) } := State.modPart2_part2_self ..

/-! ## The switch of a partition -/

/-- The Armature's entry that a partition of the running operation switches to, with its low-water mark kept where the
partition does not change (R462). -/
def switchedPart (p : Nat) (s : State) : Part :=
  if changedPart (payOf (armRun s p)) (payOf (switchTarget s)) p then partFrom (switchTarget s) p
  else { partFrom (switchTarget s) p with kvFreeMin := (s.part p).kvFreeMin }

/-- The fact that the repair log takes of a switch under a REVERT or a RETURN (R472). -/
def switchLogged (p epoch : Nat) (s : State) : State :=
  if s.arm.cmdOp = 2 then logFact 9 0xFF p 0 epoch s
  else if s.arm.cmdOp = 3 then logFact 10 0xFF p 0 epoch s else s

theorem switchLogged_facts (p epoch : Nat) (s : State) : (switchLogged p epoch s).parts = s.parts ∧
    (switchLogged p epoch s).parts2 = s.parts2 ∧ (switchLogged p epoch s).arm2 = s.arm2 ∧
    (switchLogged p epoch s).arm.busy = s.arm.busy := by
  unfold switchLogged
  split
  · exact ⟨rfl, rfl, rfl, rfl⟩
  · split <;> exact ⟨rfl, rfl, rfl, rfl⟩

/-- The last step of a switch: an exchange in a defined partition, and issue resumed in one that is none (R462). -/
def switchEnded (p : Nat) (defd : Bool) (s : State) : State :=
  if defd then startExch p s else dropStop p .armSwitch s

theorem switchEnded_facts (p : Nat) (defd : Bool) (s : State) : (switchEnded p defd s).parts = s.parts ∧
    (switchEnded p defd s).arm2 = s.arm2 ∧ (switchEnded p defd s).arm = s.arm ∧
    (defd = true → ((switchEnded p defd s).part2 p).exch.isSome = true) ∧
    (defd = false → StopCause.armSwitch ∉ ((switchEnded p defd s).part2 p).stopped) := by
  cases defd with
  | true =>
    have starts := keeps_startExch (Keeps.refl (F := [.parts2]) s) p (List.Subset.refl _)
    exact ⟨starts.only .parts (by decide), starts.only .arm2 (by decide), starts.only .arm (by decide),
      fun _ => startExch_exch p s, fun h => nomatch h⟩
  | false => exact ⟨rfl, rfl, rfl, fun h => (nomatch h), fun _ => dropStop_not_mem p .armSwitch s⟩

/-- What the work on the slabs and contexts of a switch may change (R462). -/
abbrev switchWork : List SField :=
  [.env, .hostMem, .pcie, .pkc, .pkc2, .slabs, .slabs2, .ports, .tiles, .tiles2, .banks, .ctxs, .funcs, .bankMem]

/-- A partition's own record, and what is left to do, before the slabs and contexts follow (R462). -/
def switchBegun (p : Nat) (mask : BitVec 24) (s : State) : State :=
  ({ s with
    arm2 := { s.arm2 with todo := s.arm2.todo.filter (· != p) }, arm := { s.arm with reverted := mask } }).setPart p
      (switchedPart p s)

/-- The switch of a partition: its record and what is left to do, then work that leaves those alone, then its log entry and
its exchange. -/
theorem switchPart_eq (p : Nat) (s : State) : ∃ (mask : BitVec 24) (f : Part2 → Part2) (u v : State),
    (u = switchBegun p mask s ∨ u = (switchBegun p mask s).modPart2 p f) ∧ Keeps switchWork u v ∧
    ∃ w, Posted { v with arm := { v.arm with events := v.arm.events ||| 2 } } w ∧
      switchPart p s = switchEnded p (partFrom (switchTarget s) p).defd
        (switchLogged p (partFrom (switchTarget s) p).epoch.toNat w) := by
  unfold switchPart
  extract_lets target changed old new mask arm arm2 s1 s2 s3 s4 s5 setEpoch s6 s7 s8 dws fs s9 s10
  refine ⟨mask, freshPart2, s3, s7, ?_, ?_, s9, ?_, rfl⟩
  · unfold s3
    split
    · exact .inr rfl
    · exact .inl rfl
  · have k4 := Keeps.forAll (Keeps.refl (F := switchWork) s3) (new.positions.filter fun n => bit s3.pkc.slabOff.toNat n)
      powerOn fun n _ k => keeps_powerOn k n (by decide)
    have k5 := k4.forAll (switchSlabs s4 old new) (refreshSlab true) fun n _ k => keeps_refreshSlab k true n (by decide)
    have k6 := k5.forAll (liveSlabs s5) (fun n t => t.modSlab2 n fun x => { x with epochs := setEpoch x.epochs })
      fun n _ k => k.modSlab2 n _ (by decide)
    exact k6.forAll _ _ fun c _ k => k.forAll _ _ fun j _ k => keeps_failJob k c j false (by decide)
  · exact (posted_armEvent 2 s7).trans ((posted_post ..).trans (posted_forAll _ _ (fun _ _ => posted_post ..) _))

/-- What the switch of a partition leaves (R462). -/
theorem switchPart_facts (p : Nat) (s : State) :
    (switchPart p s).part p = switchedPart p s ∧ (∀ q, q ≠ p → (switchPart p s).part q = s.part q) ∧
    (switchPart p s).arm2.todo = s.arm2.todo.filter (· != p) ∧ (switchPart p s).arm.busy = s.arm.busy ∧
    ((partFrom (switchTarget s) p).defd = true → ((switchPart p s).part2 p).exch.isSome = true) ∧
    ((partFrom (switchTarget s) p).defd = false → StopCause.armSwitch ∉ ((switchPart p s).part2 p).stopped) := by
  obtain ⟨mask, f, u, v, begun, worked, w, told, eq⟩ := switchPart_eq p s
  obtain ⟨logParts, -, logArm2, logBusy⟩ := switchLogged_facts p (partFrom (switchTarget s) p).epoch.toNat w
  obtain ⟨endParts, endArm2, endArm, defd, undefd⟩ := switchEnded_facts p (partFrom (switchTarget s) p).defd
    (switchLogged p (partFrom (switchTarget s) p).epoch.toNat w)
  have workParts : v.parts = u.parts := worked.only .parts (by decide)
  have workArm2 : v.arm2 = u.arm2 := worked.only .arm2 (by decide)
  have workArm : v.arm = u.arm := worked.only .arm (by decide)
  have parts : (switchPart p s).parts = (switchBegun p mask s).parts := by
    rw [eq, endParts, logParts, told.parts]
    rcases begun with rfl | rfl <;> exact workParts
  have todo : (switchPart p s).arm2 = (switchBegun p mask s).arm2 := by
    rw [eq, endArm2, logArm2, told.arm2]
    rcases begun with rfl | rfl <;> exact workArm2
  have busy : (switchPart p s).arm.busy = (switchBegun p mask s).arm.busy := by
    rw [eq, endArm, logBusy, told.arm]
    show v.arm.busy = _
    rw [workArm]
    rcases begun with rfl | rfl <;> rfl
  have part (q : Nat) : (switchPart p s).part q = (switchBegun p mask s).part q := by
    unfold State.part
    rw [parts]
  refine ⟨?_, fun q other => ?_, congrArg Arm2.todo todo, busy, fun on => ?_, fun off => ?_⟩
  · rw [part]; exact State.setPart_part_self ..
  · rw [part]; exact State.setPart_part_other _ _ other
  · rw [eq]; exact defd on
  · rw [eq]; exact undefd off

/-- The end of an operation after its last switch leaves the partitions (R460, R462). -/
theorem lastSwitch_facts (s : State) : (armDone 0 0xFFFFFFFF (exchangeSlots s)).parts = s.parts ∧
    (armDone 0 0xFFFFFFFF (exchangeSlots s)).parts2 = s.parts2 ∧
    (armDone 0 0xFFFFFFFF (exchangeSlots s)).arm2.todo = [] ∧ (armDone 0 0xFFFFFFFF (exchangeSlots s)).arm.busy = false := by
  have moved := keeps_exchangeSlots (Keeps.refl (F := [SField.env, .hostMem, .pkg, .pcie, .arm, .slabs, .slabs2, .ports,
    .ports2, .tiles, .tiles2, .banks, .ctxs, .funcs, .bankMem]) s) (List.Subset.refl _)
  have ended := posted_armDone 0 0xFFFFFFFF (exchangeSlots s)
  exact ⟨ended.parts.trans (moved.only .parts (by decide)), ended.parts2.trans (moved.only .parts2 (by decide)),
    congrArg Arm2.todo ended.arm2, congrArg Arm.busy ended.arm⟩

/-- A partition of the running operation switches once nothing of it is in flight and no exchange runs (R462, R468). -/
theorem exec_partitionSwitch (busy : s.arm.busy = true) (started : s.arm2.started = true) (moves : s.arm.cmdOp ≠ 4)
    (mem : p ∈ s.arm2.todo) (quiet : openCmds s p = []) (idle : exchRuns s = false) : exec (.partitionSwitch p) s =
    .next (if (switchPart p s).arm2.todo = [] then armDone 0 0xFFFFFFFF (exchangeSlots (switchPart p s))
      else switchPart p s) := by
  refine if_pos ?_
  rw [busy, started, quiet, idle, bne_iff_ne.2 moves, List.contains_iff_mem.2 mem]
  rfl

/-! ## Slabs that are retired -/

/-- Full retirement acts on the slab records only where the slab leaves its position, or by its own record where it serves
none (R24, R320). -/
theorem fullRetire_slabs (n : Nat) (planned : Bool) (reason : Nat) (s : State) (working : (s.slab n).st ≠ .retired) :
    ∃ v, v.slabs = s.slabs ∧ (fullRetire n planned reason s).slabs = (if inService s n = true then
      leavePosition n .retired planned v
      else v.modSlab n fun x => { x with st := .retired, serves := 0xFF, coreOn := false }).slabs := by
  unfold fullRetire
  rw [if_neg working]
  extract_lets serving pos p first s1 s2 s3 pk s4 s5 s6
  clear_value p
  have h1 : s1.slabs = s.slabs := by
    unfold s1
    cases p with
    | none => rfl
    | some i =>
      have told : Keeps [SField.env, .hostMem, .pcie, .slabs2, .ports, .ports2, .tiles, .banks, .parts2, .ctxs, .funcs,
          .hbm] s (if planned = true then s else partitionFault reason n i s) := by
        split
        · exact .refl _
        · exact keeps_partitionFault (.refl _) _ _ _ (hF := by decide)
      exact Keeps.slabs (keeps_dropSlabStops told _ _ _ (hF := by decide))
  clear_value s1
  have h2 : s2.slabs = s1.slabs := by
    unfold s2
    split
    · exact Keeps.slabs (keeps_resetCore (Keeps.refl (F := [SField.env, .hostMem, .pcie, .slabs2, .tiles2, .ctxs,
        .funcs, .bankMem]) s1) 3 n false (hF := by decide))
    · rfl
  clear_value s2
  have h3 : s3.slabs = s2.slabs := (posted_bankEvent ..).slabs
  clear_value s3
  have h4 : s4.slabs = s3.slabs := by
    unfold s4
    split
    · have listed : SField.pkg ∈ [SField.env, .hostMem, .pkg, .pcie, .slabs2, .funcs] := by decide
      have pinned : Keeps [SField.env, .hostMem, .pkg, .pcie, .slabs2, .funcs] s3
          { s3 with pkg := { pk with retiredSlab := n } } := (Keeps.refl s3).light rfl rfl rfl rfl
      exact Keeps.slabs (keeps_detour pinned n (hF := by decide))
    · rfl
  clear_value s4
  have h6 : s6.slabs = s5.slabs := Keeps.slabs (keeps_loseEdge (keeps_dropFabric (Keeps.refl (F := [SField.env, .hostMem,
    .pkg, .pcie, .sec, .arm, .meter, .meter2, .slabs2, .ports, .tiles, .parts2, .ctxs, .funcs]) s5) n (hF := by decide)) n
    (hF := by decide))
  clear_value s6
  refine ⟨s4, h4.trans (h3.trans (h2.trans h1)), ?_⟩
  refine Eq.trans ?_ h6
  split
  · rfl
  · exact Keeps.slabs (keeps_unroutable (Keeps.refl (F := [SField.env, .hostMem, .pkg, .pcie, .arm, .slabs2, .ports,
      .ports2, .tiles, .banks, .parts2, .ctxs, .funcs, .hbm]) s6) n (hF := by decide))

theorem slab_of_slabs (h : t.slabs = s.slabs) (n : Nat) : t.slab n = s.slab n := congrArg (fun x => tget Slab.init x n) h

theorem not_spare_of_inService {n : Nat} (h : inService s n = true) : (s.slab n).st ≠ .spare := by
  intro spare
  unfold inService at h
  rw [spare] at h
  exact absurd h (by decide)

/-- A slab that leaves its position for good takes no retired slab back (R22, R24). -/
theorem leavePosition_keeps_retired {n b : Nat} (planned : Bool) (on : (s.slab n).st ≠ .spare) (other : b ≠ n)
    (retired : (s.slab b).st = .retired) : ((leavePosition n .retired planned s).slab b).st = .retired := by
  obtain ⟨-, -, -, noSpare, spare⟩ := leavePosition_facts n .retired planned s on (by decide)
  by_cases none : idleSpares s = []
  · rw [noSpare none b other, retired]
  · obtain ⟨sp, mem, -, -, -, -, kept⟩ := spare none
    have apart : b ≠ sp := by
      rintro rfl
      have := (List.mem_filter.1 mem).2
      rw [retired] at this
      exact absurd this (by decide)
    rw [kept b other apart, retired]

theorem fullRetire_retires (n : Nat) (planned : Bool) (reason : Nat) (s : State) :
    ((fullRetire n planned reason s).slab n).st = .retired := by
  by_cases done : (s.slab n).st = .retired
  · unfold fullRetire
    rw [if_pos done]
    exact done
  · obtain ⟨v, same, eq⟩ := fullRetire_slabs n planned reason s done
    rw [slab_of_slabs eq]
    split
    · next on =>
      have onV : (v.slab n).st ≠ .spare := by rw [slab_of_slabs same]; exact not_spare_of_inService on
      exact (leavePosition_facts n .retired planned v onV (by decide)).1
    · rw [State.modSlab_slab_self]

theorem fullRetire_keeps_retired {b : Nat} (n : Nat) (planned : Bool) (reason : Nat) (retired : (s.slab b).st = .retired) :
    ((fullRetire n planned reason s).slab b).st = .retired := by
  by_cases done : (s.slab n).st = .retired
  · unfold fullRetire
    rw [if_pos done]
    exact retired
  · have other : b ≠ n := by rintro rfl; exact done retired
    obtain ⟨v, same, eq⟩ := fullRetire_slabs n planned reason s done
    have retiredV : (v.slab b).st = .retired := by rw [slab_of_slabs same]; exact retired
    rw [slab_of_slabs eq]
    split
    · next on =>
      exact leavePosition_keeps_retired planned (by rw [slab_of_slabs same]; exact not_spare_of_inService on) other retiredV
    · rw [State.modSlab_slab_other _ _ other]
      exact retiredV

/-! ## The end of an exchange -/

/-- An exchange that agrees is over, and no disagreement stops the partition's issue (R466, R467). -/
theorem exchAgrees_facts (p : Nat) (repaired : Bool) (s : State) : ((exchAgrees p repaired s).part2 p).exch = none ∧
    StopCause.discord ∉ ((exchAgrees p repaired s).part2 p).stopped ∧
    ((exchAgrees p repaired s).part2 p).concCount = (s.part2 p).concCount ∧
    ((exchAgrees p repaired s).part2 p).concDiscords = (s.part2 p).concDiscords := by
  unfold exchAgrees
  extract_lets s1 s2
  have h1 : s1.part2 p = { s.part2 p with exch := none, stopped := (s.part2 p).stopped.filter (· != .discord) } := by
    unfold s1
    rw [dropStop_part2, State.modPart2_part2_self]
  have gone : StopCause.discord ∉ (s1.part2 p).stopped := dropStop_not_mem p .discord _
  have h2 : ∃ l, s2.part2 p = { s1.part2 p with stopped := l } ∧ StopCause.discord ∉ l := by
    unfold s2
    split
    · exact ⟨_, rfl, gone⟩
    · exact ⟨_, dropStop_part2 .., fun mem => gone (List.mem_filter.1 mem).1⟩
  obtain ⟨l, h2, free⟩ := h2
  clear_value s1 s2
  have told : (if repaired = true then armEvent 4 (logFact 11 0xFF p 0 (s2.part p).epoch.toNat s2) else s2).part2 p =
      s2.part2 p := by
    split
    · exact (posted_armEvent ..).part2 p
    · rfl
  rw [told, h2, h1]
  exact ⟨rfl, free, rfl, rfl⟩

/-- An exchange with a disagreement keeps its slabs, tells them in DISCORD, counts and stops issue (R466, R477). -/
theorem exchDiscord_facts (p : Nat) (e : Exch) (bad : List Nat) (s : State) :
    ((exchDiscord p e bad s).part2 p).exch = some { e with waiting := [], bad := bad, judged := true } ∧
    StopCause.discord ∈ ((exchDiscord p e bad s).part2 p).stopped ∧
    ((exchDiscord p e bad s).part2 p).concCount = (s.part2 p).concCount ∧
    ((exchDiscord p e bad s).part2 p).concDiscords = (s.part2 p).concDiscords + 1 ∧
    (exchDiscord p e bad s).arm2.discordPart = p ∧
    (exchDiscord p e bad s).arm2.discord = BitVec.ofNat 128 (slabMask bad) := by
  unfold exchDiscord
  extract_lets m e' s1 arm2 s2 s3 s4
  have told : Posted { s2 with arm := { s2.arm with events := s2.arm.events ||| 8 } } s4 :=
    (posted_armEvent 8 s2).trans (posted_post ..)
  have p2 : s2.part2 p = { s.part2 p with concDiscords := (s.part2 p).concDiscords + 1, exch := some e' } :=
    show s1.part2 p = _ from State.modPart2_part2_self ..
  have p4 : s4.part2 p = s2.part2 p := told.part2 p
  have a4 : s4.arm2 = { s.arm2 with discordPart := p, discord := BitVec.ofNat 128 m } := told.arm2
  clear_value s4
  have stop : ∃ l, (addStop p .discord s4).part2 p = { s4.part2 p with stopped := l } := by
    unfold addStop
    split
    · exact ⟨_, rfl⟩
    · exact ⟨_, State.modPart2_part2_self ..⟩
  obtain ⟨l, stop⟩ := stop
  have arms : (addStop p .discord s4).arm2 = s4.arm2 :=
    (keeps_addStop (Keeps.refl (F := [.parts2]) s4) p .discord (List.Subset.refl _)).only .arm2 (by decide)
  refine ⟨?_, addStop_mem .., ?_, ?_, ?_, ?_⟩
  · rw [stop, p4, p2]
  · rw [stop, p4, p2]
  · rw [stop, p4, p2]
  · rw [arms, a4]
  · rw [arms, a4]

/-- The end of a partition's check leaves the partition and DISCORD (R460, R466). -/
theorem checkEnds_facts (p : Nat) (s : State) : (checkEnds p s).part2 p = s.part2 p ∧
    (checkEnds p s).arm2.discordPart = s.arm2.discordPart ∧ (checkEnds p s).arm2.discord = s.arm2.discord := by
  unfold checkEnds
  split
  · extract_lets arm2 s1
    split
    · have ended := posted_armDone 0 0xFFFFFFFF s1
      have kept : (armDone 0 0xFFFFFFFF s1).arm2 = { s1.arm2 with started := false, todo := [] } := ended.arm2
      exact ⟨ended.part2 p, by rw [kept], by rw [kept]⟩
    · exact ⟨rfl, rfl, rfl⟩
  · exact ⟨rfl, rfl, rfl⟩

/-! ## What each event of an exchange does -/

/-- The slabs that disagree once the replies are in: those timed out, and those of another epoch, unless RETIRED (R466). -/
def discording (s : State) (p : Nat) (e : Exch) : List Nat :=
  (e.bad.filter fun n => (s.slab n).st != .retired) ++ e.waiting.filter fun n =>
    (s.slab n).st != .retired && (aget (s.slab2 n).epochs p).getD 0 != (s.part p).epoch

theorem exec_digestReplyTimeout {e : Exch} {slab : Nat} (runs : (s.part2 p).exch = some e) (mem : slab ∈ e.waiting) :
    exec (.digestReplyTimeout p slab) s = .next (s.modPart2 p fun y =>
      { y with exch := some { e with waiting := e.waiting.filter (· != slab), bad := e.bad ++ [slab] } }) := by
  show execDigestReplyTimeout p slab s = _
  unfold execDigestReplyTimeout
  rw [runs]
  exact if_pos (List.contains_iff_mem.2 mem)

theorem exec_digestExchange {e : Exch} (live : s.live = true) (runs : (s.part2 p).exch = some e) (open_ : e.judged = false) :
    exec (.digestExchange p) s = .next (checkEnds p (if discording s p e = []
      then exchAgrees p (decide (1 < e.attempt)) (s.modPart2 p fun x => { x with concCount := x.concCount + 1 })
      else exchDiscord p e (discording s p e) (s.modPart2 p fun x => { x with concCount := x.concCount + 1 }))) := by
  show execDigestExchange p s = _
  unfold execDigestExchange
  rw [live, runs]
  simp only [open_]
  rfl

/-- The repair of a judged exchange once nothing of the partition is in flight (R467). -/
theorem exec_discordRepair {e : Exch} (runs : (s.part2 p).exch = some e) (judged : e.judged = true)
    (quiet : openCmds s p = []) : exec (.discordRepair p) s = .next (if e.attempt < 3
      then (resendEpoch p e.bad s).modPart2 p fun y =>
        { y with exch := some { waiting := liveSlabs s, bad := [], attempt := e.attempt + 1, judged := false } }
      else exchAgrees p false (forAll e.bad (fun n t => fullRetire n true 0 t) s)) := by
  show execDiscordRepair p s = _
  unfold execDiscordRepair
  rw [runs]
  simp only [judged, quiet]
  exact (apply_ite Host.Outcome.next _ _ _).symm

theorem repair_retires (l : List Nat) (s : State) : ∀ n, n ∈ l →
    ((exchAgrees p false (forAll l (fun n t => fullRetire n true 0 t) s)).slab n).st = .retired := by
  intro n mem
  have agreed := Keeps.slabs (keeps_exchAgrees (Keeps.refl (F := [SField.env, .hostMem, .pcie, .arm, .parts2, .funcs])
    (forAll l (fun n t => fullRetire n true 0 t) s)) p false (hF := by decide))
  rw [slab_of_slabs agreed]
  exact forAll_establishes (fun u => (u.slab n).st = .retired) (fun n t => fullRetire n true 0 t) l n mem
    (fun t => fullRetire_retires ..) (fun b _ t retired => fullRetire_keeps_retired b true 0 retired) s

/-! ## The obligation -/

/-- Settles O54: the switch by its own record and the frame of its work; the exchange by its agreement or its
disagreement, which the end of a check leaves; the repair by the retirement of every slab that still disagrees. -/
theorem partitionsSwitchAndAgree : Obligations.PartitionsSwitchAndAgree := by
  intro p s x
  refine ⟨fun busy started moves mem quiet idle => ?_, fun e slab runs mem => exec_digestReplyTimeout runs mem,
    fun live e runs open_ => ?_, fun e runs judged quiet => ⟨fun more => ?_, fun spent => ?_⟩⟩
  · intro target new todo
    have eq := exec_partitionSwitch busy started moves mem quiet idle
    obtain ⟨part, others, left, stillBusy, defd, undefd⟩ := switchPart_facts p s
    refine ⟨_, eq, ?_⟩
    by_cases last : (switchPart p s).arm2.todo = []
    · rw [if_pos last]
      obtain ⟨parts, parts2, none, free⟩ := lastSwitch_facts (switchPart p s)
      have done : todo = [] := left.symm.trans last
      generalize armDone 0 0xFFFFFFFF (exchangeSlots (switchPart p s)) = t at *
      have partT (q : Nat) : t.part q = (switchPart p s).part q := by unfold State.part; rw [parts]
      have part2T : t.part2 p = (switchPart p s).part2 p := by unfold State.part2; rw [parts2]
      refine ⟨(partT p).trans part, fun q other => (partT q).trans (others q other), none.trans done.symm, ?_, ?_, ?_⟩
      · rw [free, done]; decide
      · rw [part2T]; exact defd
      · rw [part2T]; exact undefd
    · rw [if_neg last]
      refine ⟨part, others, left, ?_, defd, undefd⟩
      rw [stillBusy, busy]
      exact ⟨fun _ none => last (left.trans none), fun _ => rfl⟩
  · intro bad
    refine ⟨_, exec_digestExchange live runs open_, ?_⟩
    show _ ∧ if discording s p e = [] then _ else _
    split
    · obtain ⟨kept, -, -⟩ := checkEnds_facts p (exchAgrees p (decide (1 < e.attempt))
        (s.modPart2 p fun x => { x with concCount := x.concCount + 1 }))
      obtain ⟨ended, free, count, discords⟩ := exchAgrees_facts p (decide (1 < e.attempt))
        (s.modPart2 p fun x => { x with concCount := x.concCount + 1 })
      rw [kept, ended, count, discords, State.modPart2_part2_self]
      exact ⟨rfl, rfl, free, rfl⟩
    · obtain ⟨kept, slabKept, maskKept⟩ := checkEnds_facts p (exchDiscord p e (discording s p e)
        (s.modPart2 p fun x => { x with concCount := x.concCount + 1 }))
      obtain ⟨judged, stops, count, discords, slab, mask⟩ := exchDiscord_facts p e (discording s p e)
        (s.modPart2 p fun x => { x with concCount := x.concCount + 1 })
      rw [kept, judged, count, discords, slabKept, maskKept, slab, mask, State.modPart2_part2_self]
      exact ⟨rfl, rfl, stops, rfl, rfl, rfl⟩
  · rw [exec_discordRepair runs judged quiet, if_pos more]
  · refine ⟨_, exec_discordRepair runs judged quiet, ?_⟩
    rw [if_neg (Nat.not_lt.2 spent)]
    obtain ⟨ended, free, -, -⟩ := exchAgrees_facts p false (forAll e.bad (fun n t => fullRetire n true 0 t) s)
    exact ⟨ended, free, repair_retires e.bad s⟩

end Sys2Proof.Machine
end

section
/-! PROOF. Coder cores: tickets, commits, re-issues and resets, and the end of a frame (R417, R419, R422 to R426, R429). -/

namespace Sys2Proof.Machine

open Sys2Proof

-- Proofs one after another: the package compiles as one text under a memory limit.
set_option Elab.async false

variable {s t u : State} {c v n q : Nat} {f g : VcFrame} {y : VcStream} {j : JobPlace} {m : Cmd}

/-! ## The frame of a stream -/

/-- Stream v of context c has the frame f. -/
def HasFrame (s : State) (c v : Nat) (f : VcFrame) : Prop := ∃ y, getVc s c v = some y ∧ y.frame = some f

theorem getVc_of_ctxs (same : t.ctxs = s.ctxs) (c v : Nat) : getVc t c v = getVc s c v :=
  congrArg (fun l => aget (tget Ctx.init l c).vcs v) same

theorem HasFrame.of_ctxs (has : HasFrame s c v f) (same : t.ctxs = s.ctxs) : HasFrame t c v f := by
  obtain ⟨y, stream, frame⟩ := has
  exact ⟨y, (getVc_of_ctxs same c v).trans stream, frame⟩

theorem getVc_setVc (c v : Nat) (y : VcStream) (s : State) : getVc (setVc c v y s) c v = some y := by
  unfold getVc setVc
  rw [State.modCtx_ctx_self]
  exact (aget_aput ..).trans (if_pos rfl)

theorem getCmd_setVc (c v q : Nat) (y : VcStream) (s : State) : getCmd (setVc c v y s) c q = getCmd s c q := by
  unfold getCmd setVc
  rw [State.modCtx_ctx_self]

theorem getCmd_of_ctxs (same : t.ctxs = s.ctxs) (c q : Nat) : getCmd t c q = getCmd s c q :=
  getCmd_congr (congrArg (fun l => tget Ctx.init l c) same) q

theorem getVc_finish (c q : Nat) (st : Status) (dw : List Nat) (s : State) (v : Nat) :
    getVc (finish c q st dw s) c v = getVc s c v := by
  unfold getVc
  rw [finish_ctx_same]

theorem HasFrame.modFrame (has : HasFrame s c v f) (h : VcFrame → VcFrame) : HasFrame (modFrame c v h s) c v (h f) := by
  obtain ⟨y, stream, frame⟩ := has
  unfold Machine.modFrame
  rw [stream]
  exact ⟨_, getVc_setVc .., congrArg (Option.map h) frame⟩

theorem modFrame_slabs2 (c v : Nat) (h : VcFrame → VcFrame) (s : State) : (modFrame c v h s).slabs2 = s.slabs2 :=
  (keeps_modFrame (Keeps.refl (F := [.ctxs]) s) c v h (List.Subset.refl _)).only .slabs2 (by decide)

/-- Stream v of context c has the frame f, but for the failure it may have met. -/
def WorksOn (s : State) (c v : Nat) (f : VcFrame) : Prop := ∃ e, HasFrame s c v { f with fail := e }

theorem HasFrame.worksOn (has : HasFrame s c v f) : WorksOn s c v f := ⟨f.fail, has⟩

theorem WorksOn.of_ctxs (works : WorksOn s c v f) (same : t.ctxs = s.ctxs) : WorksOn t c v f := by
  obtain ⟨e, has⟩ := works
  exact ⟨e, has.of_ctxs same⟩

theorem WorksOn.frameFail (works : WorksOn s c v f) (st : Status) (dw : List Nat) :
    WorksOn (frameFail c v st dw s) c v f := by
  obtain ⟨e, has⟩ := works
  have failed := has.modFrame fun f => if f.fail.isSome then f else { f with fail := some (st.code, dw) }
  cases e with
  | none => exact ⟨_, failed⟩
  | some x => exact ⟨_, failed⟩

/-! ## What a refused access of the job block leaves (R272, R426) -/

theorem ownerRefused_vc (g k a : Nat) (ag : Agent) (kind : AccKind) (s : State) (n : Nat) :
    ((ownerRefused g k a ag kind s).slab2 n).vc = (s.slab2 n).vc := by
  unfold ownerRefused
  generalize ag.log g = who
  obtain ⟨src, id⟩ := who
  extract_lets serving
  rw [(posted_bankEvent ..).slab2]
  by_cases here : n = serving
  · rw [here, State.modSlab2_slab2_self]
    rw [State.modSlab2_slab2_self]
    rfl
  · rw [State.modSlab2_slab2_other _ _ here]
    rw [State.modSlab2_slab2_other _ _ here]
    rfl

theorem jobRefused_vc (n c v : Nat) (j : JobPlace) (o : Nat) (k : AccKind) (s : State) (m : Nat) :
    ((jobRefused n c v j o k s).slab2 m).vc = (s.slab2 m).vc := by
  unfold jobRefused
  refine Eq.trans ?_ (ownerRefused_vc j.1 j.2.1 (j.2.2 + o) (.coder n c) k s m)
  exact congrArg (fun l => (tget Slab2.init l m).vc) (modFrame_slabs2 ..)

theorem WorksOn.jobRefused (works : WorksOn s c v f) (n : Nat) (j : JobPlace) (o : Nat) (k : AccKind) :
    WorksOn (jobRefused n c v j o k s) c v f :=
  (works.of_ctxs ((keeps_ownerRefused (Keeps.refl (F := [.env, .hostMem, .pcie, .slabs2, .tiles2, .funcs]) s) _ _ _ _ _
    (List.Subset.refl _)).only .ctxs (by decide))).frameFail .owner _

/-! ## A core's record -/

theorem modVc_vc (n : Nat) (h : Vc → Vc) (s : State) : ((modVc n h s).slab2 n).vc = h (s.slab2 n).vc := by
  unfold modVc
  rw [State.modSlab2_slab2_self]

theorem vcEvent_vc (n : Nat) (e : Word) (s : State) : ((vcEvent n e s).slab2 n).vc =
    { (s.slab2 n).vc with events := (s.slab2 n).vc.events ||| e } := by
  rw [(posted_vcEvent ..).slab2, State.modSlab2_slab2_self]

/-! ## Tickets (R423) -/

/-- What a core's next step on a frame keeps: the frame but for its failure, and the core's number of pieces. -/
structure Continues (n c v : Nat) (f : VcFrame) (s t : State) : Prop where
  works : WorksOn t c v f
  pieces : (t.slab2 n).vc.pieces = (s.slab2 n).vc.pieces

theorem Continues.modVc (k : Continues n c v f s t) (h : Vc → Vc) (same : ∀ x, (h x).pieces = x.pieces) :
    Continues n c v f s (modVc n h t) where
  works := k.works.of_ctxs rfl
  pieces := by
    rw [modVc_vc]
    exact (same _).trans k.pieces

theorem Continues.vcIdle (k : Continues n c v f s t) : Continues n c v f s (vcIdle n t) := k.modVc _ fun _ => rfl

theorem continues_nextTicket (works : WorksOn s c v f) : Continues n c v f s (nextTicket n c v s) := by
  have here : Continues n c v f s s := ⟨works, rfl⟩
  unfold nextTicket
  split
  · next j _ _ =>
    split
    · extract_lets ticket np drawn claim
      have drew : Continues n c v f s drawn := ⟨works.of_ctxs rfl, rfl⟩
      have claims (p : Option Nat) : Continues n c v f s (claim p) := drew.modVc _ fun _ => rfl
      split
      · exact claims _
      · split
        · split
          · exact claims _
          · split
            · exact drew.vcIdle
            · exact claims _
        · exact drew.vcIdle
    · exact Continues.vcIdle ⟨works.jobRefused .., congrArg Vc.pieces (jobRefused_vc ..)⟩
  · exact here.vcIdle

/-- A core's first ticket of a frame, where it is below the frame's pieces (R417, R423). -/
theorem nextTicket_below (stream : getVc s c v = some y) (frame : y.frame = some f) (place : jobPlace s c y.job = some j)
    (admits : jobAdmits s n c j .iadd = true) (below : jobWord s j 0 < f.np) : nextTicket n c v s =
    (jobPut j 0 (jobWord s j 0 + 1) s).modSlab2 n fun z => { z with vc := { z.vc with
      st := .busy, ctx := c, stream := v,
      claim := some { ticket := jobWord s j 0, piece := some (jobWord s j 0), timedOut := false } } } := by
  unfold nextTicket
  rw [stream]
  simp only [Option.bind_some, place, frame, admits, Option.map_some, Option.getD_some]
  exact (if_pos trivial).trans (if_pos below)

/-- An idle core in service takes the frame that waits for it (R417). -/
theorem exec_vcFrameStart_some (on : coreServes s n = true) (idle : (s.slab2 n).vc.st = .idle)
    (free : (s.slab2 n).vc.claim = none) (waits : waitingFrame s (posOf s n) = some (c, v)) :
    exec (.vcFrameStart n) s = .next (nextTicket n c v s) := by
  refine (if_pos ⟨on, idle, free⟩).trans ?_
  rw [waits]

theorem exec_vcFrameStart_none (on : coreServes s n = true) (idle : (s.slab2 n).vc.st = .idle)
    (free : (s.slab2 n).vc.claim = none) (waits : waitingFrame s (posOf s n) = none) :
    exec (.vcFrameStart n) s = .next s := by
  refine (if_pos ⟨on, idle, free⟩).trans ?_
  rw [waits]

/-! ## A finished piece (R423) -/

/-- The core's time on a piece, a free value, is counted (R432). -/
def timedPiece (n : Nat) (s : State) : State :=
  let t := modVc n (fun z => { z with busy := z.busy + (Config.freeValue 32 s.env.free).setWidth 64 }) s
  { t with env := { t.env with free := t.env.free + 1 } }

/-- A row of a wavefront encode publishes its whole width (R423). -/
def rowTold (j : JobPlace) (params p : Nat) (s : State) : State :=
  if vpSplit params = 3 ∧ vpDecode params = false then jobPut j (0x440 + 4 * p) (vpCols params) s else s

/-- The commit of a piece by swap: the first one counts (R423). -/
def pieceCommit (n c v : Nat) (j : JobPlace) (ticket p : Nat) (s : State) : State :=
  let t := jobPut j (0x40 + 4 * p) (ticket + 1) s
  if jobWord s j (0x40 + 4 * p) = 0 then
    modFrame c v (fun f => { f with committed := f.committed ++ [p] })
      (modVc n (fun z => { z with pieces := z.pieces + 1 }) t)
  else t

theorem exec_vcPieceDone {k : VcClaim} {p : Nat} (claim : (s.slab2 n).vc.claim = some k) (piece : k.piece = some p)
    (stream : getVc s (s.slab2 n).vc.ctx (s.slab2 n).vc.stream = some y) (frame : y.frame = some f)
    (place : jobPlace s (s.slab2 n).vc.ctx y.job = some j) (busy : (s.slab2 n).vc.st = .busy)
    (ready : rowReady s j y.params.toNat p = true) (admits : jobAdmits s n (s.slab2 n).vc.ctx j .swap = true) :
    let t := pieceCommit n (s.slab2 n).vc.ctx (s.slab2 n).vc.stream j k.ticket p
      (rowTold j y.params.toNat p (timedPiece n s))
    exec (.vcPieceDone n) s = .next (if f.fail.isSome then vcIdle n t
      else nextTicket n (s.slab2 n).vc.ctx (s.slab2 n).vc.stream t) := by
  intro t
  show execVcPieceDone n s = _
  unfold execVcPieceDone
  simp only [claim, stream, Option.bind_some, piece, Option.map_some, place, frame]
  rw [if_pos (by rw [busy, ready]; rfl)]
  exact (if_pos admits).trans (apply_ite Host.Outcome.next _ _ _).symm

theorem rowTold_frame (j : JobPlace) (params p : Nat) (s : State) : (rowTold j params p s).ctxs = s.ctxs ∧
    (rowTold j params p s).slabs2 = s.slabs2 ∧
    jobWord (rowTold j params p s) j (0x40 + 4 * p) = jobWord s j (0x40 + 4 * p) := by
  unfold rowTold
  split
  · refine ⟨rfl, rfl, ?_⟩
    unfold jobWord jobPut
    exact bankWord_bankWrite_other _ _ _ (.inl (by omega))
  · exact ⟨rfl, rfl, rfl⟩

/-- The commit counts for the frame and the core where the piece's word was 0, and not again otherwise (R423). -/
theorem pieceCommit_facts (has : HasFrame s c v f) (n : Nat) (j : JobPlace) (ticket p : Nat) :
    ∃ g, HasFrame (pieceCommit n c v j ticket p s) c v g ∧
      if jobWord s j (0x40 + 4 * p) = 0 then g.committed = f.committed ++ [p] ∧
        ((pieceCommit n c v j ticket p s).slab2 n).vc.pieces = (s.slab2 n).vc.pieces + 1
      else g.committed = f.committed ∧ ((pieceCommit n c v j ticket p s).slab2 n).vc.pieces = (s.slab2 n).vc.pieces := by
  unfold pieceCommit
  extract_lets t
  split
  · have counted : HasFrame (modVc n (fun z => { z with pieces := z.pieces + 1 }) t) c v f := has.of_ctxs rfl
    refine ⟨_, counted.modFrame _, rfl, ?_⟩
    show (tget Slab2.init (modFrame c v _ _).slabs2 n).vc.pieces = _
    rw [modFrame_slabs2]
    exact congrArg Vc.pieces (modVc_vc n _ t)
  · exact ⟨f, has.of_ctxs rfl, rfl, rfl⟩

/-- What a finished piece leaves of the frame's commits and the core's count (R423, R432). -/
theorem vcPieceDone_counts {k : VcClaim} {p : Nat} (claim : (s.slab2 n).vc.claim = some k) (piece : k.piece = some p)
    (stream : getVc s (s.slab2 n).vc.ctx (s.slab2 n).vc.stream = some y) (frame : y.frame = some f)
    (place : jobPlace s (s.slab2 n).vc.ctx y.job = some j) (busy : (s.slab2 n).vc.st = .busy)
    (ready : rowReady s j y.params.toNat p = true) (admits : jobAdmits s n (s.slab2 n).vc.ctx j .swap = true) :
    ∃ t g, exec (.vcPieceDone n) s = .next t ∧ HasFrame t (s.slab2 n).vc.ctx (s.slab2 n).vc.stream g ∧
      if jobWord s j (0x40 + 4 * p) = 0 then
        g.committed = f.committed ++ [p] ∧ (t.slab2 n).vc.pieces = (s.slab2 n).vc.pieces + 1
      else g.committed = f.committed ∧ (t.slab2 n).vc.pieces = (s.slab2 n).vc.pieces := by
  have eq := exec_vcPieceDone claim piece stream frame place busy ready admits
  obtain ⟨toldCtxs, toldSlabs, toldWord⟩ := rowTold_frame j y.params.toNat p (timedPiece n s)
  have has : HasFrame (rowTold j y.params.toNat p (timedPiece n s)) (s.slab2 n).vc.ctx (s.slab2 n).vc.stream f :=
    HasFrame.of_ctxs (s := s) ⟨y, stream, frame⟩ toldCtxs
  have start : ((rowTold j y.params.toNat p (timedPiece n s)).slab2 n).vc.pieces = (s.slab2 n).vc.pieces := by
    have told := congrArg (fun l => (tget Slab2.init l n).vc.pieces) toldSlabs
    refine told.trans ?_
    show ((modVc n (fun z => { z with busy := z.busy + (Config.freeValue 32 s.env.free).setWidth 64 }) s).slab2 n).vc.pieces = _
    rw [modVc_vc]
  have word : jobWord (rowTold j y.params.toNat p (timedPiece n s)) j (0x40 + 4 * p) = jobWord s j (0x40 + 4 * p) := toldWord
  obtain ⟨g, hasG, counts⟩ := pieceCommit_facts has n j k.ticket p
  rw [word, start] at counts
  generalize pieceCommit n (s.slab2 n).vc.ctx (s.slab2 n).vc.stream j k.ticket p
    (rowTold j y.params.toNat p (timedPiece n s)) = w at eq hasG counts
  have goesOn : Continues n (s.slab2 n).vc.ctx (s.slab2 n).vc.stream g w (if f.fail.isSome then vcIdle n w
      else nextTicket n (s.slab2 n).vc.ctx (s.slab2 n).vc.stream w) := by
    split
    · exact Continues.vcIdle ⟨hasG.worksOn, rfl⟩
    · exact continues_nextTicket hasG.worksOn
  obtain ⟨⟨e, works⟩, pieces⟩ := goesOn
  refine ⟨_, _, eq, works, ?_⟩
  rw [pieces]
  exact counts

/-! ## Claims that expire, and resets (R424, R433) -/

/-- A piece handed to a waiting ticket leaves a core that claims none, or has its piece (R423). -/
theorem handPiece_vc (c v ticket p : Nat) (kept : ∀ k, (s.slab2 n).vc.claim = some k → k.piece ≠ none) :
    ((handPiece c v ticket p s).slab2 n).vc = (s.slab2 n).vc := by
  unfold handPiece
  refine forAll_keeps (fun t => (t.slab2 n).vc = (s.slab2 n).vc) _ _ (fun a _ t same => ?_) s rfl
  extract_lets x
  split
  · next k claim =>
    split
    · next takes =>
      by_cases here : n = a
      · subst here
        exact absurd takes.2.2.2 (kept k (same ▸ claim))
      · show ((t.modSlab2 a _).slab2 n).vc = _
        rw [State.modSlab2_slab2_other _ _ here]
        exact same
    · exact same
  · exact same

theorem reissue_vc (c v p : Nat) (kept : ∀ k, (s.slab2 n).vc.claim = some k → k.piece ≠ none) :
    ((reissue c v p s).1.slab2 n).vc = (s.slab2 n).vc := by
  have framed (h : VcFrame → VcFrame) (t : State) : ((modFrame c v h t).slab2 n).vc = (t.slab2 n).vc :=
    congrArg (fun l => (tget Slab2.init l n).vc) (modFrame_slabs2 c v h t)
  unfold reissue
  split
  · split
    · rfl
    · extract_lets seq
      split
      · rfl
      · split
        · exact framed ..
        · split
          · exact (handPiece_vc _ _ _ _ (by rw [framed]; exact kept)).trans (framed ..)
          · exact jobRefused_vc ..
  · rfl

/-- A re-issue leaves the core but for what it counts and reports (R432). -/
theorem reissueOf_vc (c v p : Nat) (kept : ∀ k, (s.slab2 n).vc.claim = some k → k.piece ≠ none) :
    ((reissueOf n c v p s).1.slab2 n).vc = if (reissue c v p s).2 = true then
      { (s.slab2 n).vc with reissues := (s.slab2 n).vc.reissues + 1, events := (s.slab2 n).vc.events ||| 2 }
      else (s.slab2 n).vc := by
  have same := reissue_vc c v p kept
  unfold reissueOf
  extract_lets r
  split
  · rw [vcEvent_vc, modVc_vc, same]
  · exact same

/-- The core is in reset, without a claim, one more reset counted (R424, R432). -/
theorem resetCore_facts (cause n : Nat) (s : State) : ((resetCore cause n true s).slab2 n).vc.st = .resetting ∧
    ((resetCore cause n true s).slab2 n).vc.claim = none ∧
    ((resetCore cause n true s).slab2 n).vc.resets = (s.slab2 n).vc.resets + 1 := by
  unfold resetCore
  extract_lets x w r
  have started : (w.slab2 n).vc = { (s.slab2 n).vc with
      st := .resetting, claim := none, ctx := 0, stream := 0, resets := (s.slab2 n).vc.resets + 1 } := by
    exact modVc_vc ..
  have again : ∃ i e, (r.1.slab2 n).vc = { (w.slab2 n).vc with reissues := i, events := e } := by
    unfold r
    split
    · next p _ =>
      have told := reissueOf_vc (s := w) (n := n) x.ctx x.stream p fun k claim => by rw [started] at claim; cases claim
      split at told
      · exact ⟨_, _, told⟩
      · exact ⟨_, _, told⟩
    · exact ⟨_, _, rfl⟩
  obtain ⟨i, e, again⟩ := again
  rw [(posted_post ..).slab2, vcEvent_vc, again, started]
  exact ⟨rfl, rfl, rfl⟩

/-- The state in which a claim's first expiry is marked (R424). -/
def claimMarked (n : Nat) (k : VcClaim) (s : State) : State :=
  modVc n (fun y => { y with claim := some { k with timedOut := true } }) s

theorem exec_vcClaimTimeout {k : VcClaim} {p : Nat} (claim : (s.slab2 n).vc.claim = some k) (piece : k.piece = some p) :
    exec (.vcClaimTimeout n) s = .next (if k.timedOut = true then resetCore 1 n true s
      else (reissueOf n (s.slab2 n).vc.ctx (s.slab2 n).vc.stream p (claimMarked n k s)).1) := by
  show execVcClaimTimeout n s = _
  unfold execVcClaimTimeout
  simp only [claim, piece, claimMarked]
  exact (apply_ite Host.Outcome.next (k.timedOut = true) _ _).symm

/-- A re-issue where the frame has used its re-issues up fails the frame (R424). -/
theorem reissue_spent {p : Nat} (stream : getVc s c v = some y) (frame : y.frame = some f)
    (place : jobPlace s c y.job = some j) (whole : f.fail = none) (due : p ∉ f.committed) (spent : f.np ≤ f.reissues) :
    reissue c v p s = (frameFail c v .vcRetries [] s, false) := by
  have fresh : f.committed.contains p = false := by simpa using due
  unfold reissue
  simp only [stream, Option.bind_some, place, frame, whole, fresh]
  exact (if_neg Bool.false_ne_true).trans (if_pos spent)

/-- A re-issue that the frame has left hands its piece to the next ticket and is counted (R423, R424). -/
theorem reissue_more {p : Nat} (stream : getVc s c v = some y) (frame : y.frame = some f)
    (place : jobPlace s c y.job = some j) (whole : f.fail = none) (due : p ∉ f.committed) (more : ¬ f.np ≤ f.reissues)
    (admits : jobAdmits s (seqSlab s (s.ctx c).reg.part) c j .swap = true) : reissue c v p s =
    (handPiece c v (f.np + f.reissues) p (modFrame c v (fun g => { g with reissues := g.reissues + 1 })
      (jobPut j (0x240 + 4 * f.reissues) (p + 1) s)), true) := by
  have fresh : f.committed.contains p = false := by simpa using due
  unfold reissue
  simp only [stream, Option.bind_some, place, frame, whole, fresh]
  exact (if_neg Bool.false_ne_true).trans ((if_neg more).trans (if_pos admits))

theorem reissueOf_ctxs (n c v p : Nat) (s : State) : (reissueOf n c v p s).1.ctxs = (reissue c v p s).1.ctxs := by
  unfold reissueOf
  extract_lets r
  split
  · exact (posted_vcEvent n 2 (modVc n (fun x => { x with reissues := x.reissues + 1 }) r.1)).ctxs
  · rfl

/-- A claim's first expiry marks it and re-issues its piece, or fails the frame where no re-issue is left (R424). -/
theorem reissueOf_claimMarked {k : VcClaim} {p : Nat} (piece : k.piece = some p) (stream : getVc s c v = some y)
    (frame : y.frame = some f) (place : jobPlace s c y.job = some j) (whole : f.fail = none) (due : p ∉ f.committed)
    (admits : jobAdmits s (seqSlab s (s.ctx c).reg.part) c j .swap = true) :
    ∃ g, HasFrame (reissueOf n c v p (claimMarked n k s)).1 c v g ∧
      ((reissueOf n c v p (claimMarked n k s)).1.slab2 n).vc.claim = some { k with timedOut := true } ∧
      if f.np ≤ f.reissues then g.fail = some (Status.vcRetries.code, []) ∧ g.reissues = f.reissues
      else g.fail = none ∧ g.reissues = f.reissues + 1 ∧
        ((reissueOf n c v p (claimMarked n k s)).1.slab2 n).vc.reissues = (s.slab2 n).vc.reissues + 1 := by
  have marked : ((claimMarked n k s).slab2 n).vc = { (s.slab2 n).vc with claim := some { k with timedOut := true } } :=
    modVc_vc ..
  have core := reissueOf_vc (s := claimMarked n k s) (n := n) c v p fun i claim => by
    rw [marked] at claim
    cases claim
    simp [piece]
  have has : HasFrame (claimMarked n k s) c v f := ⟨y, stream, frame⟩
  rw [marked] at core
  by_cases spent : f.np ≤ f.reissues
  · have eq : reissue c v p (claimMarked n k s) = _ := reissue_spent stream frame place whole due spent
    have out : reissueOf n c v p (claimMarked n k s) = (frameFail c v .vcRetries [] (claimMarked n k s), false) := by
      unfold reissueOf
      rw [eq]
      rfl
    rw [eq, out] at core
    rw [out]
    refine ⟨_, has.modFrame _, congrArg Vc.claim core, ?_⟩
    rw [if_pos spent, whole]
    exact ⟨rfl, rfl⟩
  · have eq : reissue c v p (claimMarked n k s) = _ := reissue_more stream frame place whole due spent admits
    rw [eq] at core
    rw [core]
    have wrote : HasFrame (jobPut j (0x240 + 4 * f.reissues) (p + 1) (claimMarked n k s)) c v f := has.of_ctxs rfl
    have framed := wrote.modFrame fun g => { g with reissues := g.reissues + 1 }
    have handed := (keeps_handPiece (Keeps.refl (F := [.slabs2]) (modFrame c v (fun g => { g with
      reissues := g.reissues + 1 }) (jobPut j (0x240 + 4 * f.reissues) (p + 1) (claimMarked n k s)))) c v
      (f.np + f.reissues) p (List.Subset.refl _)).only .ctxs (by decide)
    have counted := reissueOf_ctxs n c v p (claimMarked n k s)
    rw [eq] at counted
    refine ⟨_, (framed.of_ctxs handed).of_ctxs counted, rfl, ?_⟩
    rw [if_neg spent]
    exact ⟨whole, rfl, rfl⟩

/-! ## The end of a frame (R423 to R426) -/

/-- The state in which a frame has left its stream, and its cores' claims with it. -/
theorem endFrame_eq (stream : getVc s c v = some y) :
    endFrame c v s = dropClaims c v (setVc c v { y with frame := none } s) := by
  unfold endFrame
  rw [stream]

theorem dropClaims_ctxs (c v : Nat) (s : State) : (dropClaims c v s).ctxs = s.ctxs :=
  (keeps_dropClaims (Keeps.refl (F := [.slabs2]) s) c v (List.Subset.refl _)).only .ctxs (by decide)

theorem endFrame_getVc (stream : getVc s c v = some y) : getVc (endFrame c v s) c v = some { y with frame := none } := by
  rw [endFrame_eq stream, getVc_of_ctxs (dropClaims_ctxs ..), getVc_setVc]

theorem endFrame_getCmd (stream : getVc s c v = some y) (q : Nat) : getCmd (endFrame c v s) c q = getCmd s c q := by
  rw [endFrame_eq stream, getCmd_of_ctxs (dropClaims_ctxs ..), getCmd_setVc]

theorem getVc_finishCode (c q code : Nat) (dw : List Nat) (s : State) (v : Nat) :
    getVc (finishCode c q code dw s) c v = getVc s c v := by
  unfold getVc finishCode
  rw [modCmd_ctx_same]

section Assemble

variable (stream : getVc s c v = some y) (frame : y.frame = some f) (alone : attempting s c v = false)

include stream frame alone

theorem exec_vcFrameAssemble_failed {code : Nat} {dw : List Nat} (failed : f.fail = some (code, dw)) :
    exec (.vcFrameAssemble c v) s = .next (finishCode c f.q code dw (endFrame c v s)) := by
  show execVcFrameAssemble c v s = _
  unfold execVcFrameAssemble
  simp only [stream, frame, alone, failed]
  rfl

theorem exec_vcFrameAssemble_coreless (whole : f.fail = none) (gone : coresLeft s y = false) :
    exec (.vcFrameAssemble c v) s = .next (finish c f.q .vcCore [] (endFrame c v s)) := by
  show execVcFrameAssemble c v s = _
  unfold execVcFrameAssemble
  simp only [stream, frame, alone, whole, gone]
  rfl

theorem exec_vcFrameAssemble_short (whole : f.fail = none) (left : coresLeft s y = true)
    (short : f.committed.length ≠ f.np) : exec (.vcFrameAssemble c v) s = .next s := by
  show execVcFrameAssemble c v s = _
  unfold execVcFrameAssemble
  simp only [stream, frame, alone, whole, left, if_neg short, Bool.false_eq_true, if_false, Bool.true_eq_false]
  split
  · exact ite_self _
  · rfl

/-- A frame with all its pieces sets `DONE` and goes on, where the owner admits it (R422, R423). -/
theorem exec_vcFrameAssemble_whole (whole : f.fail = none) (left : coresLeft s y = true)
    (all : f.committed.length = f.np) (cmd : getCmd s c f.q = some m) (place : jobPlace s c y.job = some j)
    (free : hostWaits s m = false) (admits : jobAdmits s (seqSlab s (s.ctx c).reg.part) c j .set = true) :
    exec (.vcFrameAssemble c v) s = .next (phaseDone c v y f m (jobPut j 4 (jobWord s j 4 ||| 1) s)) := by
  have done : setDone c v j s = jobPut j 4 (jobWord s j 4 ||| 1) s := if_pos admits
  have same : getVc (jobPut j 4 (jobWord s j 4 ||| 1) s) c v = some y := stream
  show execVcFrameAssemble c v s = _
  unfold execVcFrameAssemble
  simp only [stream, frame, alone, whole, left, cmd, place, free, all, done, same, Option.bind_some,
    Bool.false_eq_true, if_false, Bool.true_eq_false, if_true]

end Assemble

theorem bankWrite_ctxs (g k a : Nat) (bs : List Byte) (s : State) : (bankWrite g k a bs s).ctxs = s.ctxs := rfl

/-- The controller sets a frame's block up for a phase, or the frame fails on its refusal (R422, R426). -/
theorem WorksOn.initJob (works : WorksOn s c v f) (np : Nat) : WorksOn (initJob c v np s) c v f := by
  unfold Machine.initJob
  extract_lets seq
  split
  · exact works
  · split
    · exact (works.of_ctxs (bankWrite_ctxs ..)).of_ctxs (bankWrite_ctxs ..)
    · exact works.jobRefused ..

theorem startPhase_worksOn (has : HasFrame s c v f) (g : VcFrame) :
    WorksOn (startPhase c v g s) c v { g with reissues := 0, committed := [] } :=
  WorksOn.initJob (has.modFrame fun _ => { g with reissues := 0, committed := [] }).worksOn g.np

/-! ## The end of a decode (R419) -/

theorem runCmd_ok {rd : List CellAt} {ws : List Wr} {accs : List BankAcc} (done : State → State)
    (free : accFail s c rd ws accs = none) : runCmd c q rd ws accs done s = done (applyWrs c ws s) := by
  unfold runCmd
  rw [free]

/-- A record of a frame that ends, with the stream it leaves (R351, R419). -/
theorem finish_setVc (st : Status) (dw : List Nat) (cmd : getCmd s c q = some m) (x : VcStream) :
    Ended (finish c q st dw (setVc c v x s)) c q st dw ∧ getVc (finish c q st dw (setVc c v x s)) c v = some x :=
  ⟨finish_ended st dw ((getCmd_setVc ..).trans cmd), (getVc_finish ..).trans (getVc_setVc ..)⟩

/-- What the unit of a decode makes (R419). -/
def decodedUnit (y : VcStream) (m : Cmd) (s : State) (c : Nat) : Nat × Bool × Bool × Nat × (Nat × Nat) × List Nat :=
  Config.decodeUnit y.params.toNat y.frames (y.refs.map VcRef.pixels) (unitBytes m s c)

/-- The references that the unit of a decode leaves (R418, R419). -/
def decodedRefs (y : VcStream) (m : Cmd) (s : State) (c : Nat) : List VcRef :=
  (Config.decodeRefs y.params.toNat y.frames (y.refs.map VcRef.pixels) (unitBytes m s c)).map fun r =>
    { pixels := r, field := [], frame := y.frames }

/-- The cells of the unit that a decode reads (R419). -/
def unitCells (m : Cmd) (s : State) (c : Nat) : List CellAt :=
  (List.range (m.f 0x18 32)).flatMap fun i => (m.opd s c (m.f 0x12 16)).cells [i] false

/-- The state in which a decode has left its stream and reads its unit. -/
def unitRead (c v : Nat) (y : VcStream) (s : State) : State := setVc c v { y with frame := none } (dropClaims c v s)

/-- A unit that must be a key unit and is none, or that cannot be parsed, ends E_VC_BITSTREAM (R419). -/
theorem decodeDone_refused (refused : m.f 0x18 32 ≠ 0 ∧ y.needKey = true ∧ (decodedUnit y m s c).2.1 = false ∨
    (decodedUnit y m s c).1 = Status.vcBitstream.code) : decodeDone c v y f m s =
    runCmd c f.q (unitCells m s c) [] [] (fun t => finish c f.q .vcBitstream [] (setVc c v
      { y with frames := y.frames + 1, needKey := true, frame := none } t)) (unitRead c v y s) := by
  by_cases keyless : m.f 0x18 32 ≠ 0 ∧ y.needKey = true ∧ (decodedUnit y m s c).2.1 = false
  · exact if_pos keyless
  · exact (if_neg keyless).trans (if_pos (refused.resolve_left keyless))

/-- A unit that shows no picture ends OK with no frame (R419). -/
theorem decodeDone_unshown (keyed : y.needKey = false)
    (parsed : (decodedUnit y m s c).1 ≠ Status.vcBitstream.code)
    (supported : (decodedUnit y m s c).1 ≠ Status.vcUnsupported.code) (unshown : (decodedUnit y m s c).2.2.1 = false) :
    decodeDone c v y f m s =
    runCmd c f.q (unitCells m s c) [] [] (fun t => finish c f.q .ok [0, 0] (setVc c v
      { y with frames := y.frames + 1, needKey := false, refs := decodedRefs y m s c, frame := none } t))
      (unitRead c v y s) := by
  have keyless : ¬ (m.f 0x18 32 ≠ 0 ∧ y.needKey = true ∧ (decodedUnit y m s c).2.1 = false) := by simp [keyed]
  have hidden : ¬ (decodedUnit y m s c).2.2.1 = true := by simp [unshown]
  refine (if_neg keyless).trans ((if_neg parsed).trans ((if_neg supported).trans ((if_neg fun h => hidden h.1).trans
    ((if_neg hidden).trans ?_))))
  have keysKept : (y.needKey && !((decodedUnit y m s c).2.1 && m.f 0x18 32 != 0)) = false := by rw [keyed, Bool.false_and]
  show runCmd c f.q (unitCells m s c) [] [] (fun t => finish c f.q .ok [0, 0] (setVc c v { y with
    frames := y.frames + 1, needKey := y.needKey && !((decodedUnit y m s c).2.1 && m.f 0x18 32 != 0),
    refs := decodedRefs y m s c, frame := none } t)) (unitRead c v y s) = _
  rw [keysKept]

/-- Settles O51: a core's next ticket keeps the frame but for its failure, so a piece counts exactly at its commit; a
re-issue keeps the core but for its count; and the end of a frame by what decides it. -/
theorem coresClaimCommitAndReset : Obligations.CoresClaimCommitAndReset := by
  intro n s x Resets
  refine ⟨fun on idle free => ⟨exec_vcFrameStart_none on idle free,
      fun c v y f j waits stream frame place admits below => ?_⟩,
    fun k p y f j claim piece stream frame place => ⟨fun busy ready admits => ?_, fun early whole due admits => ?_⟩,
    fun k p claim piece late => ?_, fun on resting => ⟨fun src operator => ?_, fun live => ?_⟩,
    fun resetting => if_pos resetting,
    fun c v y f stream frame alone => ⟨fun code dw failed => ?_, fun whole gone => ?_, ?_, ?_⟩⟩
  · intro k
    rw [exec_vcFrameStart_some on idle free waits, nextTicket_below stream frame place admits below]
  · obtain ⟨t, g, eq, ⟨z, streamT, frameT⟩, counts⟩ :=
      vcPieceDone_counts claim piece stream frame place busy ready admits
    exact ⟨t, z, g, eq, streamT, frameT, counts⟩
  · have eq := exec_vcClaimTimeout claim piece
    rw [early] at eq
    obtain ⟨g, ⟨z, streamT, frameT⟩, marked, counts⟩ :=
      reissueOf_claimMarked (n := n) piece stream frame place whole due admits
    exact ⟨_, z, g, eq, streamT, frameT, marked, counts⟩
  · have eq := exec_vcClaimTimeout claim piece
    rw [late] at eq
    exact ⟨_, eq, resetCore_facts 1 n s⟩
  · have asked : (isOperator s src && coreServes s n) = true := by rw [operator, on]; rfl
    exact ⟨_, (if_pos asked).trans (if_neg resting), resetCore_facts 2 n s⟩
  · have struck : (coreServes s n && (s.slab2 n).vc.st != .resetting) = true := by rw [on, bne_iff_ne.2 resting]; rfl
    have powered : ¬ (!s.live) = true := by rw [live]; decide
    exact ⟨_, (if_neg powered).trans (if_pos struck), resetCore_facts 0 n s⟩
  · refine ⟨_, exec_vcFrameAssemble_failed stream frame alone failed,
      (getVc_finishCode ..).trans (endFrame_getVc stream), fun m cmd => ?_⟩
    exact getCmd_modCmd_same _ (fun _ => rfl) ((endFrame_getCmd stream f.q).trans cmd)
  · refine ⟨_, exec_vcFrameAssemble_coreless stream frame alone whole gone,
      (getVc_finish ..).trans (endFrame_getVc stream), fun known => ?_⟩
    obtain ⟨m, cmd⟩ := Option.isSome_iff_exists.1 known
    exact finish_ended _ _ ((endFrame_getCmd stream f.q).trans cmd)
  · exact fun whole left short => exec_vcFrameAssemble_short stream frame alone whole left short
  · intro m j whole left all cmd place free admits u
    have eq := exec_vcFrameAssemble_whole stream frame alone whole left all cmd place free admits
    refine ⟨fun encodes av1 tiled unfiltered => ?_, fun decodes => ?_⟩
    · have filters : phaseDone c v y f m u = startPhase c v { f with filter := true, np := cdiv (vpRows y.params.toNat) 8 }
          (dropClaims c v u) := by
        have encoder : ¬ vpDecode y.params.toNat = true := by rw [encodes]; decide
        exact (if_neg encoder).trans (if_pos ⟨av1, tiled, unfiltered⟩)
      have has : HasFrame (dropClaims c v u) c v f :=
        HasFrame.of_ctxs (s := s) ⟨y, stream, frame⟩ (dropClaims_ctxs c v u)
      obtain ⟨e, z, streamT, frameT⟩ := startPhase_worksOn has
        { f with filter := true, np := cdiv (vpRows y.params.toNat) 8 }
      rw [← filters] at streamT
      exact ⟨_, z, _, eq, streamT, frameT, rfl, rfl, rfl, rfl⟩
    · intro held r w rd readable
      have turns : phaseDone c v y f m u = decodeDone c v y f m u := if_pos decodes
      have cmdW : getCmd (applyWrs c [] w) c f.q = some m := by
        rw [applyWrs_eq]
        exact (getCmd_setVc ..).trans ((getCmd_of_ctxs (dropClaims_ctxs c v u) ..).trans cmd)
      rw [turns] at eq
      refine ⟨fun refused => ?_, fun keyed parsed supported unshown => ?_⟩
      · rw [decodeDone_refused refused] at eq
        exact ⟨_, eq.trans (congrArg Host.Outcome.next (runCmd_ok _ readable)), finish_setVc .vcBitstream [] cmdW _⟩
      · rw [decodeDone_unshown keyed parsed supported unshown] at eq
        exact ⟨_, eq.trans (congrArg Host.Outcome.next (runCmd_ok _ readable)), finish_setVc .ok [0, 0] cmdW _⟩

end Sys2Proof.Machine
end
